-- ==== Sys2Proof/Word.lean ====
section
/-! DEFINITION. The word types of the SRF-H9M (R4). -/

namespace Sys2Proof

/-- A 32-bit register or code word. -/
abbrev Word := BitVec 32
/-- A byte. -/
abbrev Byte := BitVec 8

end Sys2Proof
end

