-- ==== Sys2Proof/Syntax.lean ====
section
/-! DEFINITION. The steps of the SRF-H9M as syntax: every row of the opcode table is one constructor of `Instr`.
Encoded instructions carry the fields of their words (R40, R51 to R54); the table's events carry what names the
agent that acts and what arrives from outside. -/

namespace Sys2Proof

/-- Types of the floating families with the type in the opcode (R60). For `fcmp` the packed types are scalar. -/
inductive FTy where
  | f64 | f32 | f16x2 | bf16x2
  deriving DecidableEq, Repr

/-- Types of `fdiv`, `fscale`, `pwaddr`. -/
inductive FW where
  | f64 | f32
  deriving DecidableEq, Repr

/-- Element types of `fdot2`. -/
inductive FH where
  | f16 | bf16
  deriving DecidableEq, Repr

/-- Rounding codes 0 to 4 of the format extension word and of `frnd` (R53, R115). -/
inductive Rnd where
  | rn | rz | ru | rd | ra
  deriving DecidableEq, Repr

/-- Type codes 0 to 11 of the memory extension word (R53). -/
inductive MTy where
  | b8 | i8 | b16 | i16 | b32 | i32 | b64 | i64 | f16 | bf16 | f32 | f64
  deriving DecidableEq, Repr

/-- Order codes of the memory extension word (R53). -/
inductive Ord where
  | none | acq | rel | ar
  deriving DecidableEq, Repr

/-- Sub-operations of `atom` (R53). -/
inductive AOp where
  | add | min | max | and | or | xor | exch
  deriving DecidableEq, Repr

/-- Operations of `satom` (R61). -/
inductive SAOp where
  | add | min | max | and | or | xor | exch | cas
  deriving DecidableEq, Repr

/-- Format codes 0 to 15 of the format extension word (R53). -/
inductive Fmt where
  | f64 | f32 | f16 | bf16 | e4m3 | e5m2 | e2m1 | e8m0 | q16n | i32 | b32 | i64 | i8 | i4 | ci8 | ci4
  deriving DecidableEq, Repr

inductive VoteOp where
  | all | any | ballot
  deriving DecidableEq, Repr

inductive ShflOp where
  | idx | up | down | xor
  deriving DecidableEq, Repr

inductive RedOp where
  | add | min | max | and | or | xor
  deriving DecidableEq, Repr

/-- Accumulator types of layout SM (R54). -/
inductive AccTy where
  | f32 | i32 | f64
  deriving DecidableEq, Repr

/-- Forms VV and VA (R52): D, U, vd, va, vb. -/
structure VV where
  d : BitVec 2
  u : Bool
  vd : BitVec 7
  va : BitVec 7
  vb : BitVec 7
  deriving DecidableEq, Repr

/-- Form VC (R52): condition, destination predicate, sources. -/
structure VC where
  d : BitVec 2
  u : Bool
  cc : BitVec 4
  pd : BitVec 3
  va : BitVec 7
  vb : BitVec 7
  deriving DecidableEq, Repr

/-- Form VS (R52): destination and one source. -/
structure VU where
  d : BitVec 2
  vd : BitVec 7
  va : BitVec 7
  deriving DecidableEq, Repr

/-- Memory long forms (R53): the instruction word's registers and the offset. -/
structure MV where
  d : BitVec 2
  u : Bool
  vd : BitVec 7
  va : BitVec 7
  vb : BitVec 7
  off : BitVec 18
  deriving DecidableEq, Repr

/-- Format long forms (R53): form VV and the third vector source. -/
structure FV where
  d : BitVec 2
  u : Bool
  vd : BitVec 7
  va : BitVec 7
  vb : BitVec 7
  vc : BitVec 7
  deriving DecidableEq, Repr

/-- Group long forms (R53): form VV and the source of the member mask. -/
structure GV where
  d : BitVec 2
  u : Bool
  vd : BitVec 7
  va : BitVec 7
  vb : BitVec 7
  msrc : Bool
  midx : BitVec 6
  deriving DecidableEq, Repr

/-- Layout SR (R54): three uniform registers. -/
structure S3 where
  d : BitVec 2
  sd : BitVec 6
  sa : BitVec 6
  sb : BitVec 6
  deriving DecidableEq, Repr

/-- A UDP frame on an Ethernet port (R229). -/
structure EthFrame where
  port : Nat
  vlan : Nat
  udp : Nat
  payload : List Byte
  deriving DecidableEq, Repr

/-- A management frame (R378), less the command code, which the step's own constructor gives. -/
structure Frame where
  slot : Nat
  nonce : BitVec 64
  boot : BitVec 64
  body : List Byte
  sig : List Byte
  deriving DecidableEq, Repr

/-- What an ADMIN frame installs (R378). -/
structure AdminBody where
  keySlot : Nat
  publicKey : List Byte
  admins : List Nat
  module : Nat
  deriving DecidableEq, Repr

/-- A granule of a core's storage as the debugger names it (R303). -/
inductive StoreRef where
  | vector (pipe entry lane : Nat)
  | uniform (slot reg : Nat)
  | predicate (slot lane reg : Nat)
  | tile (tile row : Nat)
  | acc (acc row : Nat)
  | status (acc : Nat)
  | scratch (granule : Nat)
  deriving DecidableEq, Repr

/-- An atomic that another module sends (R249, R252, R253): `cmp` is the compare value of a compare-and-swap. -/
structure RemoteAtomic where
  op : AOp
  ty : MTy
  operand : BitVec 64
  cmp : Option (BitVec 64)
  deriving DecidableEq, Repr

/-- One constructor per row of the opcode table. -/
inductive Instr where
  /-- CLAUSE (R55). A clause header is fetched and checked under R56; its wait mask is tested before the clause's first instruction issues. -/
  | clause (w : BitVec 12) (a : BitVec 4) (b : BitVec 4) (p : BitVec 3) (n : Bool) (c : BitVec 3)
  /-- ADD_B32 (R98). 32-bit wrapping add in each Active lane. -/
  | addB32 (o : VV)
  /-- SUB_B32 (R98). 32-bit wrapping subtract in each Active lane. -/
  | subB32 (o : VV)
  /-- ADD_B64 (R98). 64-bit wrapping add on register pairs. -/
  | addB64 (o : VV)
  /-- SUB_B64 (R98). 64-bit wrapping subtract on register pairs. -/
  | subB64 (o : VV)
  /-- MUL_B32 (R98). Low 32 bits of the product. -/
  | mulB32 (o : VV)
  /-- MULHI_I32 (R98). High word of the signed 64-bit product. -/
  | mulhiI32 (o : VV)
  /-- MULHI_B32 (R98). High word of the unsigned 64-bit product. -/
  | mulhiB32 (o : VV)
  /-- MAD_B32 (R98). Multiply and add into the destination, low 32 bits. -/
  | madB32 (o : VV)
  /-- AND (R98). Bitwise and. -/
  | andB32 (o : VV)
  /-- OR (R98). Bitwise or. -/
  | orB32 (o : VV)
  /-- XOR (R98). Bitwise exclusive or. -/
  | xorB32 (o : VV)
  /-- ANDN (R98). Bitwise a and not b. -/
  | andnB32 (o : VV)
  /-- SHL_B32 (R98). 32-bit left shift under R95. -/
  | shlB32 (o : VV)
  /-- SHR_B32 (R98). 32-bit logical right shift. -/
  | shrB32 (o : VV)
  /-- SRA_B32 (R98). 32-bit arithmetic right shift. -/
  | sraB32 (o : VV)
  /-- SHL_B64 (R98). 64-bit left shift on pairs. -/
  | shlB64 (o : VV)
  /-- SHR_B64 (R98). 64-bit logical right shift on pairs. -/
  | shrB64 (o : VV)
  /-- SRA_B64 (R98). 64-bit arithmetic right shift on pairs. -/
  | sraB64 (o : VV)
  /-- MIN_I32 (R98). Signed minimum. -/
  | minI32 (o : VV)
  /-- MIN_B32 (R98). Unsigned minimum. -/
  | minB32 (o : VV)
  /-- MAX_I32 (R98). Signed maximum. -/
  | maxI32 (o : VV)
  /-- MAX_B32 (R98). Unsigned maximum. -/
  | maxB32 (o : VV)
  /-- CMP32 (R99). 32-bit comparison into a lane predicate. -/
  | cmp32 (o : VC)
  /-- CMP64 (R99). 64-bit comparison into a lane predicate. -/
  | cmp64 (o : VC)
  /-- BFE_B32 (R101). Unsigned bit-field extract. -/
  | bfeB32 (o : VV)
  /-- BFE_I32 (R101). Signed bit-field extract. -/
  | bfeI32 (o : VV)
  /-- BFI_B32 (R101). Bit-field insert into the destination. -/
  | bfiB32 (o : VV)
  /-- MOV (R100). Copy a vector register. -/
  | mov (o : VU)
  /-- ABS_I32 (R100). Absolute value of a signed word. -/
  | absI32 (o : VU)
  /-- POPC (R100). Population count. -/
  | popc (o : VU)
  /-- CLZ (R100). Count of leading zero bits. -/
  | clz (o : VU)
  /-- BREV (R100). Bit reversal. -/
  | brev (o : VU)
  /-- LID (R100). Write the lane index. -/
  | lid (d : BitVec 2) (vd : BitVec 7)
  /-- LI (R100). Load a sign-extended 14-bit immediate. -/
  | li (d : BitVec 2) (vd : BitVec 7) (imm : BitVec 14)
  /-- VMOVR (R106). Indexed register read per lane. -/
  | vmovr (o : VV)
  /-- VMOVW (R106). Indexed register write per lane. -/
  | vmovw (o : VV)
  /-- MOVS (R100). Broadcast a uniform register into every Active lane. -/
  | movs (d : BitVec 2) (vd : BitVec 7) (sn : BitVec 6)
  /-- PAND (R102). Predicate and. -/
  | pand (d : BitVec 2) (pd : BitVec 3) (pa : BitVec 3) (pb : BitVec 3)
  /-- POR (R102). Predicate or. -/
  | por (d : BitVec 2) (pd : BitVec 3) (pa : BitVec 3) (pb : BitVec 3)
  /-- PXOR (R102). Predicate exclusive or. -/
  | pxor (d : BitVec 2) (pd : BitVec 3) (pa : BitVec 3) (pb : BitVec 3)
  /-- PNOT (R102). Predicate not. -/
  | pnot (d : BitVec 2) (pd : BitVec 3) (pa : BitVec 3)
  /-- SEL (R98). Select per lane by a predicate held in the opcode. -/
  | sel (p : BitVec 3) (o : VV)
  /-- FADD (R116). Floating add rounded in the mode of sys.fround. -/
  | fadd (t : FTy) (o : VV)
  /-- FSUB (R116). Floating subtract. -/
  | fsub (t : FTy) (o : VV)
  /-- FMUL (R116). Floating multiply. -/
  | fmul (t : FTy) (o : VV)
  /-- FMA (R116). Fused multiply-add into the destination. -/
  | fma (t : FTy) (o : VV)
  /-- FMIN (R117). IEEE minimumNumber. -/
  | fmin (t : FTy) (o : VV)
  /-- FMAX (R117). IEEE maximumNumber. -/
  | fmax (t : FTy) (o : VV)
  /-- FMINM (R117). IEEE minimum. -/
  | fminm (t : FTy) (o : VV)
  /-- FMAXM (R117). IEEE maximum. -/
  | fmaxm (t : FTy) (o : VV)
  /-- FCMP (R117). Floating comparison into a lane predicate. -/
  | fcmp (t : FTy) (o : VC)
  /-- FRCP (R118). Correctly rounded reciprocal. -/
  | frcp (t : FTy) (o : VU)
  /-- FRSQ (R118). Correctly rounded reciprocal square root. -/
  | frsq (t : FTy) (o : VU)
  /-- FSQRT (R118). Square root on the sequencer, long latency on flag B. -/
  | fsqrt (t : FTy) (o : VU)
  /-- FCLASS (R118). Write the class mask of each element. -/
  | fclass (t : FTy) (o : VU)
  /-- FRND (R118). Round to an integral value in the rounding of its field. -/
  | frnd (t : FTy) (r : Rnd) (o : VU)
  /-- FDIV (R119). Floating division on the sequencer, long latency on flag B. -/
  | fdiv (t : FW) (o : VV)
  /-- FSCALE (R120). Multiply by a power of two with one rounding. -/
  | fscale (t : FW) (o : VV)
  /-- FDOT2 (R121). Fused FP32 dot product of two packed 16-bit pairs. -/
  | fdot2 (t : FH) (o : VV)
  /-- FTAB (R123). Piecewise-polynomial table evaluation, long latency on flag B. -/
  | ftab (tid : BitVec 4) (o : VU)
  /-- LD (R162). Vector load, completing on flag A. -/
  | ld (ty : MTy) (od : Ord) (o : MV)
  /-- ST (R162). Vector store of data read at issue. -/
  | st (ty : MTy) (od : Ord) (o : MV)
  /-- LDK (R162). Vector load at a coefficient-register address. -/
  | ldk (ty : MTy) (od : Ord) (k : BitVec 4) (o : MV)
  /-- STK (R162). Vector store at a coefficient-register address. -/
  | stk (ty : MTy) (od : Ord) (k : BitVec 4) (o : MV)
  /-- LDS (R162). Scratchpad load. -/
  | lds (ty : MTy) (o : MV)
  /-- STS (R162). Scratchpad store, setting the granule's format tag. -/
  | sts (ty : MTy) (o : MV)
  /-- PF (R164). Prefetch a line or decode a Plynwick block, never faulting. -/
  | pf (o : MV)
  /-- ATOM (R252). Per-lane atomic read-modify-write at the home dome. -/
  | atom (op : AOp) (ty : MTy) (od : Ord) (o : MV)
  /-- ATOMC (R253). Per-lane compare-and-swap at the home dome. -/
  | atomc (ty : MTy) (od : Ord) (o : MV)
  /-- PWADDR (R185). Compute Plynwick element-view addresses from coordinates. -/
  | pwaddr (t : FW) (o : MV)
  /-- PWCLAIM (R186). Obtain ownership of a Plynwick block and decode it. -/
  | pwclaim (o : MV)
  /-- PWFLUSH (R186). Encode a written block, write it to its dome and drop it. -/
  | pwflush (o : MV)
  /-- PWNORM (R186). Fully re-encode a block at its needed exponent. -/
  | pwnorm (o : MV)
  /-- PWRAW (R187). Read raw block code words. -/
  | pwraw (o : MV)
  /-- PWDROP (R186). Drop a block without encoding; keep mode only. -/
  | pwdrop (o : MV)
  /-- CVT (R139). Scalar format conversion. -/
  | cvt (src : Fmt) (dst : Fmt) (rm : Rnd) (sat : Bool) (o : FV)
  /-- PK (R140). Convert and pack up to eight elements. -/
  | pk (src : Fmt) (dst : Fmt) (rm : Rnd) (sat : Bool) (o : FV)
  /-- UPK (R141). Select and exactly unpack elements. -/
  | upk (src : Fmt) (dst : Fmt) (rm : Rnd) (sat : Bool) (o : FV)
  /-- QZ (R142). Quantise against a scale. -/
  | qz (src : Fmt) (dst : Fmt) (rm : Rnd) (sat : Bool) (o : FV)
  /-- DQ (R143). Dequantise to f32. -/
  | dq (src : Fmt) (dst : Fmt) (rm : Rnd) (sat : Bool) (o : FV)
  /-- MXQ (R144). Microscaling quantisation against a block maximum. -/
  | mxq (src : Fmt) (dst : Fmt) (rm : Rnd) (sat : Bool) (o : FV)
  /-- MXDQ (R145). Microscaling element decode. -/
  | mxdq (src : Fmt) (dst : Fmt) (rm : Rnd) (sat : Bool) (o : FV)
  /-- VOTE (R195). Cross-lane all, any or ballot over the member mask. -/
  | vote (op : VoteOp) (o : GV)
  /-- SHFL (R196). Cross-lane shuffle. -/
  | shfl (op : ShflOp) (ty : MTy) (o : GV)
  /-- RED (R198). Fixed-tree cross-lane reduction. -/
  | red (op : RedOp) (ty : MTy) (o : GV)
  /-- SCAN (R199). Cross-lane prefix in ascending lane order. -/
  | scan (op : RedOp) (ty : MTy) (excl : Bool) (o : GV)
  /-- BCAST (R197). Broadcast one lane's value to the contributing lanes. -/
  | bcast (ty : MTy) (o : GV)
  /-- SADD (R103). Uniform 32-bit add. -/
  | sadd (o : S3)
  /-- SSUB (R103). Uniform 32-bit subtract. -/
  | ssub (o : S3)
  /-- SMUL (R103). Uniform low product. -/
  | smul (o : S3)
  /-- SMULHI_I32 (R103). Uniform signed high product. -/
  | smulhiI32 (o : S3)
  /-- SMULHI_B32 (R103). Uniform unsigned high product. -/
  | smulhiB32 (o : S3)
  /-- SAND (R103). Uniform bitwise and. -/
  | sand (o : S3)
  /-- SOR (R103). Uniform bitwise or. -/
  | sor (o : S3)
  /-- SXOR (R103). Uniform bitwise exclusive or. -/
  | sxor (o : S3)
  /-- SSHL (R103). Uniform left shift. -/
  | sshl (o : S3)
  /-- SSHR (R103). Uniform logical right shift. -/
  | sshr (o : S3)
  /-- SSRA (R103). Uniform arithmetic right shift. -/
  | ssra (o : S3)
  /-- SMIN_I32 (R103). Uniform signed minimum. -/
  | sminI32 (o : S3)
  /-- SMIN_B32 (R103). Uniform unsigned minimum. -/
  | sminB32 (o : S3)
  /-- SMAX_I32 (R103). Uniform signed maximum. -/
  | smaxI32 (o : S3)
  /-- SMAX_B32 (R103). Uniform unsigned maximum. -/
  | smaxB32 (o : S3)
  /-- SMOV (R103). Uniform copy. -/
  | smov (d : BitVec 2) (sd : BitVec 6) (sa : BitVec 6)
  /-- SPOPC (R103). Uniform population count. -/
  | spopc (d : BitVec 2) (sd : BitVec 6) (sa : BitVec 6)
  /-- SCLZ (R103). Uniform leading-zero count. -/
  | sclz (d : BitVec 2) (sd : BitVec 6) (sa : BitVec 6)
  /-- SADD_B64 (R103). Uniform 64-bit add of pairs. -/
  | saddB64 (o : S3)
  /-- SSUB_B64 (R103). Uniform 64-bit subtract of pairs. -/
  | ssubB64 (o : S3)
  /-- SSEL (R103). Uniform select on the destination's value. -/
  | ssel (o : S3)
  /-- SCMP (R103). Uniform comparison giving 1 or 0. -/
  | scmp (cc : BitVec 4) (o : S3)
  /-- SLI (R103). Load a sign-extended 18-bit immediate. -/
  | sli (d : BitVec 2) (sd : BitVec 6) (imm : BitVec 18)
  /-- SLIH (R103). Load the high half-word, keeping the low half. -/
  | slih (d : BitVec 2) (sd : BitVec 6) (imm : BitVec 16)
  /-- SBFE (R104). Uniform bit-field extract with immediate position and width. -/
  | sbfe (d : BitVec 2) (sd : BitVec 6) (sa : BitVec 6) (pos : BitVec 5) (wid : BitVec 5) (sg : Bool)
  /-- SBFI (R104). Uniform bit-field insert. -/
  | sbfi (d : BitVec 2) (sd : BitVec 6) (sa : BitVec 6) (pos : BitVec 5) (wid : BitVec 5)
  /-- SADD_IMM (R103). Uniform add of a 12-bit immediate. -/
  | saddImm (d : BitVec 2) (sd : BitVec 6) (sa : BitVec 6) (imm : BitVec 12)
  /-- BRA (R80). Unconditional branch of the whole sub-band. -/
  | bra (d : BitVec 2) (off : BitVec 18)
  /-- BRZ (R80). Branch when a uniform register is zero. -/
  | brz (d : BitVec 2) (sn : BitVec 6) (off : BitVec 18)
  /-- BRNZ (R80). Branch when a uniform register is not zero. -/
  | brnz (d : BitVec 2) (sn : BitVec 6) (off : BitVec 18)
  /-- CALL (R81). Push a return address and transfer. -/
  | call (d : BitVec 2) (off : BitVec 18)
  /-- CALLV (R82). Per-lane indirect call, grouping lanes by target. -/
  | callv (d : BitVec 2) (v : BitVec 7)
  /-- SPLIT (R84). Divide the sub-band by a lane predicate and set a rejoin mask. -/
  | split (d : BitVec 2) (j : BitVec 4) (p : BitVec 3) (off : BitVec 17)
  /-- NOP (R89). No effect; one slot. -/
  | nop (d : BitVec 2)
  /-- RET (R83). Pop a return entry per lane, holding or releasing vector-call lanes. -/
  | ret (d : BitVec 2)
  /-- CALLI (R81). Call the address in a uniform pair. -/
  | calli (d : BitVec 2) (sn : BitVec 6)
  /-- JOIN (R85). Arrive at a rejoin mask; release when complete. -/
  | join (d : BitVec 2) (j : BitVec 4)
  /-- JWAIT (R86). Block until the other lanes of a mask have arrived. -/
  | jwait (d : BitVec 2) (j : BitVec 4)
  /-- JSET (R87). Write a rejoin mask, releasing it if complete. -/
  | jset (d : BitVec 2) (j : BitVec 4) (sn : BitVec 6)
  /-- JGET (R87). Read a rejoin mask into a uniform register. -/
  | jget (d : BitVec 2) (sn : BitVec 6) (j : BitVec 4)
  /-- YIELD (R88). Give way to other sub-bands or deferred lanes. -/
  | yield (d : BitVec 2)
  /-- BRK (R90). Raise breakpoint trap 0x0A with a 12-bit code. -/
  | brk (d : BitVec 2) (code : BitVec 12)
  /-- TRAP (R90). Raise trap 0x0B with a 12-bit code. -/
  | trap (d : BitVec 2) (code : BitVec 12)
  /-- SLD (R165). Uniform load of one or two registers, optionally acquiring. -/
  | sld (d : BitVec 2) (x : BitVec 6) (y : BitVec 6) (z : BitVec 6) (acq : Bool) (w : Bool)
  /-- SST (R165). Uniform store of one or two registers, optionally releasing. -/
  | sst (d : BitVec 2) (x : BitVec 6) (y : BitVec 6) (z : BitVec 6) (rl : Bool) (w : Bool)
  /-- SATOM (R255). Uniform atomic once for the band. -/
  | satom (op : SAOp) (od : Ord) (w : Bool) (o : S3)
  /-- LSET (R166). Set a loop-nest bound and clear its index. -/
  | lset (d : BitVec 2) (n : BitVec 2) (sn : BitVec 6)
  /-- LGET (R166). Read a loop-nest index. -/
  | lget (d : BitVec 2) (sn : BitVec 6) (n : BitVec 2)
  /-- KSET (R166). Set a coefficient register's base and strides. -/
  | kset (d : BitVec 2) (k : BitVec 4) (sb : BitVec 6) (sc : BitVec 6)
  /-- LNEXT (R167). Advance a loop-nest index and loop back while below its bound. -/
  | lnext (d : BitVec 2) (l : BitVec 2) (off : BitVec 18)
  /-- REL (R256). Release fence. -/
  | rel (d : BitVec 2)
  /-- ACQ (R256). Acquire fence with self-invalidation. -/
  | acq (d : BitVec 2)
  /-- SYNC (R256). Release then acquire, placed in the pod's total fence order. -/
  | sync (d : BitVec 2)
  /-- XREL (R256). Task-wide release for outside agents. -/
  | xrel (d : BitVec 2)
  /-- XREL_DRAM (R256). Task-wide release completing at the DRAM array. -/
  | xrelDram (d : BitVec 2)
  /-- BAR (R204). Release, arrive at a barrier and wait for the phase to complete. -/
  | bar (d : BitVec 2) (g : BitVec 8) (sn : BitVec 6)
  /-- ARRIVE (R204). Release and arrive at a barrier without waiting. -/
  | arrive (d : BitVec 2) (g : BitVec 8) (sn : BitVec 6)
  /-- BARW (R204). Wait for the phase the band last arrived in to complete. -/
  | barw (d : BitVec 2) (g : BitVec 8)
  /-- GMASK (R207). Read a group's status for the task. -/
  | gmask (d : BitVec 2) (g : BitVec 8) (sd : BitVec 6)
  /-- QPUSH (R218). Push a command to a queue register, as a release. -/
  | qpush (d : BitVec 2) (q : BitVec 4) (sn : BitVec 6) (n : BitVec 3)
  /-- QPOP (R219). Take the oldest return-queue word, completing on flag A. -/
  | qpop (d : BitVec 2) (sn : BitVec 6) (q : BitVec 4)
  /-- QFENCE (R216). Order commands across named queue registers. -/
  | qfence (d : BitVec 2) (sn : BitVec 6)
  /-- TWANY (R220). Wait until some tag of a mask is done or none is busy. -/
  | twany (d : BitVec 2) (sn : BitVec 6) (m : BitVec 6)
  /-- TWALL (R220). Wait until no tag of a mask is busy. -/
  | twall (d : BitVec 2) (m : BitVec 6)
  /-- TFFR (R221). Report the lowest done tag of a mask without waiting. -/
  | tffr (d : BitVec 2) (sn : BitVec 6) (m : BitVec 6)
  /-- TGET (R221). Read the DONE bits. -/
  | tget (d : BitVec 2) (sn : BitVec 6)
  /-- TCLR (R221). Clear DONE and fault bits of a tag mask. -/
  | tclr (d : BitVec 2) (m : BitVec 6)
  /-- MMA (R287). Sign a matrix multiply-accumulate on a convergence register. -/
  | mma (d : BitVec 2) (acc : BitVec 5) (am : Bool) (a : BitVec 5) (bm : Bool) (b : BitVec 5) (g : BitVec 3) (typ : AccTy) (ax : Bool) (sp : Bool)
  /-- MMC (R287). Sign a complex integer matrix multiply-accumulate. -/
  | mmc (d : BitVec 2) (acc : BitVec 5) (am : Bool) (a : BitVec 5) (bm : Bool) (b : BitVec 5) (g : BitVec 3) (cj : Bool)
  /-- TLD (R289). Load tile rows from memory or scratchpad. -/
  | tld (d : BitVec 2) (t : BitVec 5) (y : BitVec 6) (z : BitVec 6)
  /-- TST (R289). Store tile rows to memory or scratchpad. -/
  | tst (d : BitVec 2) (t : BitVec 5) (y : BitVec 6) (z : BitVec 6)
  /-- TMOV (R290). Copy a tile with its tags. -/
  | tmov (d : BitVec 2) (t : BitVec 5) (t2 : BitVec 5)
  /-- TZERO (R290). Zero a tile. -/
  | tzero (d : BitVec 2) (t : BitVec 5)
  /-- AMOV (R290). Copy an accumulator and its sticky bits. -/
  | amov (d : BitVec 2) (a : BitVec 5) (a2 : BitVec 5)
  /-- ALD (R291). Load an accumulator from device memory. -/
  | ald (d : BitVec 2) (a : BitVec 5) (y : BitVec 6)
  /-- AST (R291). Store an accumulator to device memory. -/
  | ast (d : BitVec 2) (a : BitVec 5) (y : BitVec 6)
  /-- AZERO (R290). Zero an accumulator and its status. -/
  | azero (d : BitVec 2) (a : BitVec 5)
  /-- SIGN (R279). Set a convergence register's band set. -/
  | sign (d : BitVec 2) (g : BitVec 3) (sn : BitVec 6)
  /-- MPROG (R292). Read an accumulator's status word. -/
  | mprog (d : BitVec 2) (sn : BitVec 6) (a : BitVec 5)
  /-- EXIT (R294). End every Present thread of the sub-band with a release. -/
  | exit (d : BitVec 2)
  /-- EXIT_SUCC (R295). End the band's threads and record a successor TCB. -/
  | exitSucc (d : BitVec 2) (sn : BitVec 6)
  /-- PHASE (R296). Arrive at a phase end; the last arrival posts the result word and runs switch and admission. -/
  | phase (d : BitVec 2) (sn : BitVec 6)
  /-- GEN (R302). Read the task's generation. -/
  | gen (d : BitVec 2) (sn : BitVec 6)
  /-- RSYS (R311). Read a system register. -/
  | rsys (d : BitVec 2) (sn : BitVec 6) (n : BitVec 12)
  /-- WSYS (R311). Write a system register. -/
  | wsys (d : BitVec 2) (sn : BitVec 6) (n : BitVec 12)
  /-- KRET (R307). Leave keep mode and resume the frozen sub-bands. -/
  | kret (d : BitVec 2)
  /-- SVC (R314). Save one storage-class record once the class is quiescent. -/
  | svc (d : BitVec 2) (c : BitVec 4) (y : BitVec 6)
  /-- RSC (R319). Check and restore one storage-class record. -/
  | rsc (d : BitVec 2) (c : BitVec 4) (y : BitVec 6)
  /-- HALT (R309). End the band's threads without a release. -/
  | halt (d : BitVec 2)
  /-- ILLEGAL_ENCODING (R63). A word with an unassigned opcode, major or minor, or a clause header where an instruction is expected, comes to issue and raises trap 0x01. -/
  | illegalEncoding (word : BitVec 32)
  /-- PLYNWICK_OPERATION_COMPLETION (R186). A pwclaim, pwflush, pwnorm, pwdrop or pwraw finishes its block action, or ownership arrives for a waiting Plynwick store, and flag A falls. -/
  | plynwickOperationCompletion (core : Nat) (opid : Nat)
  /-- MALFORMED_NODE (R333). The walker reaches a node of reserved TYPE, or a node it cannot read, and ends the graph with status 1. -/
  | malformedNode (queue : Nat)
  /-- HOST_COMMAND_UNKNOWN_OPCODE (R376). A host command entry with an unknown opcode is taken and completes with status 1. -/
  | hostCommandUnknownOpcode
  /-- INSTRUCTION_LINE_FILL (R67). A missing instruction-buffer line arrives and the held sub-band may fetch. -/
  | instructionLineFill (core : Nat) (entry : Nat)
  /-- PAGE_TABLE_WALK (R152). A TLB walk completes, translating lanes or parking them with fault records. -/
  | pageTableWalk (core : Nat) (entry : Nat)
  /-- LOAD_COMPLETION (R162). A load's data arrives, is written with its tag and lowers flag A. -/
  | loadCompletion (core : Nat) (opid : Nat)
  /-- ATOMIC_COMPLETION (R252). An atomic's old value returns and flag A falls. -/
  | atomicCompletion (core : Nat) (opid : Nat)
  /-- SEQUENCER_COMPLETION (R124). An fdiv or fsqrt completes, writing its result and flags and lowering flag B. -/
  | sequencerCompletion (core : Nat) (opid : Nat)
  /-- FTAB_COMPLETION (R123). A table evaluation completes and lowers flag B. -/
  | ftabCompletion (core : Nat) (opid : Nat)
  /-- RELEASE_COMPLETION (R244). The domes acknowledge a release's written-back bytes and the release completes. -/
  | releaseCompletion (core : Nat) (opid : Nat)
  /-- ACQUIRE_COMPLETION (R245). An acquiring read completes and the core self-invalidates its L1. -/
  | acquireCompletion (core : Nat) (opid : Nat)
  /-- FAULT_RECORD_POST (R374). A waiting fault record is written to the domain's fault ring once it has room. -/
  | faultRecordPost (pd : Nat)
  /-- REGISTRATION (R243). A store's word registration reaches its home dome, recalling other owners first. -/
  | registration (core : Nat)
  /-- RECALL (R243). A dome recall makes the owner write back the word's dirty bytes and give up ownership. -/
  | recall (line : Nat)
  /-- DOME_REQUEST (R361). A request reaches a dome and passes its check stage or is refused with a machine check. -/
  | domeRequest (core : Nat)
  /-- DOME_FILL (R356). A memory port's data fills a dome line, counted by the page's access counter. -/
  | domeFill (buf : Nat) (line : Nat)
  /-- REPLICA_INVALIDATE (R359). A home invalidates replicas of a line and waits for acknowledgement before a write. -/
  | replicaInvalidate (line : Nat)
  /-- DOME_UNCORRECTABLE_ERROR (R356). An uncorrectable error in a dome line is repaired by refetch if clean or kills the owning context if dirty. -/
  | domeUncorrectableError (line : Nat)
  /-- L1_EVICTION (R158). An evicted superblock writes back its dirty bytes, and written Plynwick blocks are encoded. -/
  | l1Eviction (core : Nat) (superblock : Nat)
  /-- PLYNWICK_RECALL (R181). A dome recalls a Plynwick block: the owner encodes, writes the code and drops it before the requester decodes. -/
  | plynwickRecall (buf : Nat) (block : Nat)
  /-- EYE_MARGIN_MEASURE (R367). Each 10 ms the eye-margin monitor measures a lane and may flag or schedule a repair. -/
  | eyeMarginMeasure (stack : Nat) (channel : Nat) (lane : Nat) (margin : Nat)
  /-- LANE_REPAIR (R367). At a refresh window a weak lane is moved onto a spare, holding the channel briefly. -/
  | laneRepair (stack : Nat) (channel : Nat) (lane : Nat)
  /-- COUNTER_DECAY (R368). Every 2^DECAY ms the access counters are halved. -/
  | counterDecay (port : Nat)
  /-- ENGINE_COMMAND_START (R208). An engine takes the oldest startable command of a queue register in round robin. -/
  | engineCommandStart (core : Nat) (slot : Nat) (queue : Nat)
  /-- COPY (R222). Copy command: copy bytes, or decode a formatted source into scratchpad. -/
  | copy (core : Nat) (slot : Nat) (queue : Nat)
  /-- COPY_2D (R224). 2-D copy command: copy rows with pitches. -/
  | copy2d (core : Nat) (slot : Nat) (queue : Nat)
  /-- GATHER (R225). Gather command: read indexed elements into the contiguous side. -/
  | gather (core : Nat) (slot : Nat) (queue : Nat)
  /-- SCATTER (R225). Scatter command: write contiguous elements to indexed places. -/
  | scatter (core : Nat) (slot : Nat) (queue : Nat)
  /-- MULTICAST (R226). Multicast command: write one range into every other member's scratchpad once all are placed. -/
  | multicast (core : Nat) (slot : Nat) (queue : Nat)
  /-- COLLECTIVE_REDUCE (R227). Collective reduce command: combine one buffer from every member once every member has pushed the instance. -/
  | collectiveReduce (core : Nat) (slot : Nat) (queue : Nat)
  /-- INGEST_BIND (R228). Ingest bind command: bind, replace or remove a stream. -/
  | ingestBind (core : Nat) (slot : Nat) (queue : Nat)
  /-- ENGINE_COMMAND_COMPLETE (R210). A command completes, lowering its tag's busy count and setting DONE at zero. -/
  | engineCommandComplete (core : Nat) (slot : Nat) (queue : Nat)
  /-- ENGINE_FAULT (R213). A fault found during a command ends it and delivers trap 0x0D or 0x0C to the pushing band. -/
  | engineFault (core : Nat) (slot : Nat) (queue : Nat)
  /-- TAG_WAIT_COMPLETE (R220). A pending twany or twall completes as an acquire and lowers flag A. -/
  | tagWaitComplete (core : Nat) (opid : Nat)
  /-- QPOP_COMPLETE (R219). A pending qpop receives a return-queue word and lowers flag A. -/
  | qpopComplete (core : Nat) (opid : Nat)
  /-- INGEST_FRAME (R229). A matching frame arrives and is accepted, refused or dropped by its sequence number. -/
  | ingestFrame (frame : EthFrame)
  /-- GAP_RECORD_TIMEOUT (R230). After 1 µs a pending gap record stops being extended. -/
  | gapRecordTimeout (stream : Nat)
  /-- INGEST_CONSUMER_REREAD (R229). At least once per microsecond the engine re-reads the consumer word. -/
  | ingestConsumerReread (stream : Nat)
  /-- PFC_PAUSE_REFRESH (R230). A pause is repeated before its quanta expire. -/
  | pfcPauseRefresh (stream : Nat)
  /-- BARRIER_RELEASE_STEP (R352). Each 0.5 µs step releases up to S more clusters of a grid barrier. -/
  | barrierReleaseStep (launch : Nat) (gid : Nat)
  /-- MATRIX_OPERATION_ISSUE (R282). A fully signed operation issues once no earlier matrix-class instruction conflicts, running its issue checks. -/
  | matrixOperationIssue (core : Nat) (slot : Nat) (g : Nat)
  /-- MATRIX_K_STEP (R275). One K step reads its slices and adds its chunks into the accumulator. -/
  | matrixKStep (core : Nat) (opid : Nat) (err : Bool)
  /-- MATRIX_OPERATION_COMPLETE (R284). The operation's results are written, status updated, flags ORed and flag B lowered. -/
  | matrixOperationComplete (core : Nat) (opid : Nat)
  /-- MATRIX_TRANSFER_COMPLETE (R283). A tld, tst, ald, ast or register move completes and lowers its flag. -/
  | matrixTransferComplete (core : Nat) (opid : Nat)
  /-- PREEMPTION_REQUEST (R321). The walker or host names a task and save area for pre-emption. -/
  | preemptionRequest (core : Nat) (slot : Nat) (area : BitVec 64)
  /-- PREEMPTION_ENTRY (R305). At a boundary or K step every band enters keep mode with cause 0x0E. -/
  | preemptionEntry (core : Nat) (slot : Nat)
  /-- VARIANT_SWITCH (R298). After flags, matrix work and queues drain, a task switches variant under a new generation. -/
  | variantSwitch (core : Nat) (slot : Nat)
  /-- PHASE_ADMISSION_TIMEOUT (R350). A phase not admitted within the admission limit raises trap 0x0F in every band. -/
  | phaseAdmissionTimeout (core : Nat) (slot : Nat)
  /-- QUEUED_ADMISSION_TIMEOUT (R350). A queued task failing only Admit for the limit ends its graph with status 5. -/
  | queuedAdmissionTimeout (cluster : Nat)
  /-- TASK_RETIRE (R293). Draining ends, resources are freed and the status word goes to the walker. -/
  | taskRetire (core : Nat) (slot : Nat)
  /-- SUCCESSOR_START (R295). After draining the core reads the TCB and starts or refuses the successor. -/
  | successorStart (core : Nat) (slot : Nat)
  /-- PLACE (R25). A core takes a generation, allocates storage and binds bands and threads. -/
  | place (cluster : Nat)
  /-- GENERATION_SWEEP_END (R302). A background sweep finishes zeroing stale granules. -/
  | generationSweepEnd (core : Nat)
  /-- PLACEMENT_ATTEMPT (R343). A cluster takes its queued tasks in order through Choose and Admit and places the first that passes. -/
  | placementAttempt (cluster : Nat)
  /-- QUEUE_HEAD_AGE_EXPIRY (R343). A task first in order for 64 µs blocks later tasks of equal or lower priority. -/
  | queueHeadAgeExpiry (cluster : Nat)
  /-- CONTROL_INTERVAL (R349). A new 1 µs interval resets energy charges and retests blocked phases. -/
  | controlInterval
  /-- STEAL_REQUEST (R345). An idle cluster's steal request makes the victim ship half its eligible queued tasks. -/
  | stealRequest (cluster : Nat)
  /-- TIME_SLICE_EXPIRY (R347). A task's time slice expires and the walker may pre-empt it. -/
  | timeSliceExpiry (core : Nat) (slot : Nat)
  /-- WALKER_TAKE_ENTRY (R332). A walker with a free slot takes the next entry of the highest-priority ready queue. -/
  | walkerTakeEntry (spire : Nat)
  /-- KERNEL_NODE (R335). KERNEL node: check the launch, test co-residence, fill the group table and queue the tasks. -/
  | kernelNode (queue : Nat)
  /-- COPY_NODE (R339). COPY node: a copy engine copies bytes between device buffers. -/
  | copyNode (queue : Nat)
  /-- COND_NODE (R338). COND node: branch on a walker register. -/
  | condNode (queue : Nat)
  /-- WHILE_NODE (R338). WHILE node: loop on a walker register with a counter limit. -/
  | whileNode (queue : Nat)
  /-- WAITQ_NODE (R339). WAITQ node: wait on a memory word with acquiring reads. -/
  | waitqNode (queue : Nat)
  /-- WAITQ_POLL (R339). Each microsecond the walker re-reads the awaited word. -/
  | waitqPoll (queue : Nat)
  /-- WAITQ_TIMEOUT (R339). A WAITQ timeout ends the graph with status 7. -/
  | waitqTimeout (queue : Nat)
  /-- SIGNAL_NODE (R339). SIGNAL node: a release then a store or atomic add. -/
  | signalNode (queue : Nat)
  /-- END_NODE (R339). END node: the graph ends with status 0. -/
  | endNode (queue : Nat)
  /-- RDMA_WRITE (R371). A host RDMA write is translated, checked and performed at the home dome. -/
  | rdmaWrite (conn : Nat) (va : BitVec 64) (bytes : List (BitVec 8))
  /-- RDMA_READ (R371). A host RDMA read is translated, checked and performed at the home dome. -/
  | rdmaRead (conn : Nat) (va : BitVec 64) (len : Nat)
  /-- REMOTE_ACCESS_TIMEOUT (R377). A remote access unacknowledged for 100 µs raises trap 0x0C detail 4. -/
  | remoteAccessTimeout (core : Nat) (opid : Nat)
  /-- BUFFER_TABLE_WRITE (R360). A buffer-table entry write is accepted or refused by the driver interface. -/
  | bufferTableWrite (conn : Nat) (index : Nat) (value : BitVec 256)
  /-- WQ_ERR_CLEAR (R331). Clearing ERR makes the walker read the queue's entry again. -/
  | wqErrClear (conn : Nat) (queue : Nat)
  /-- REGISTER_WRITE (R372). A register-space write to a register with no row of its own, checked against the admin list. -/
  | registerWrite (conn : Nat) (pa : Nat) (bytes : List (BitVec 8))
  /-- TLBINV (R376). Host command: invalidate TLB entries of a range. -/
  | tlbinv
  /-- BUFINV (R376). Host command: invalidate a changed buffer-table entry. -/
  | bufinv
  /-- RECALL_COMMAND (R376). Host command RECALL: write back and release every owned word of a range. -/
  | recallCommand
  /-- FAULTANS (R156). Host command: answer a fault record with RESUME, replaying parked lanes, or KILL. -/
  | faultans
  /-- LOAD (R389). Host command: place a Wormir object in a domain's address space. -/
  | load
  /-- UNLOAD (R376). Host command: unload an object once no graph uses it. -/
  | unload
  /-- PREEMPT (R376). Host command: pre-empt the task at a core and band slot into an area. -/
  | preempt
  /-- RESTORE (R322). Host command: queue a restore of a saved task from an area. -/
  | restore
  /-- KILLPD (R324). Host command: kill every task of a protection domain. -/
  | killpd
  /-- IDENTIFY (R378). Management command: return the identity record. -/
  | identify (f : Frame)
  /-- ATTEST (R379). Management command: return a signed attestation and a fresh X448 key. -/
  | attest (f : Frame)
  /-- KEYLOAD (R380). Management command: unwrap and load a key into a slot. -/
  | keyload (f : Frame)
  /-- KEYDESTROY (R366). Management command: destroy a key slot and drop its dome lines. -/
  | keydestroy (f : Frame)
  /-- POWERTOL (R382). Management command: set the latency tolerance and power cap. -/
  | powertol (f : Frame)
  /-- CLOCKPLAN (R383). Management command: accept a clock plan and choose frequencies. -/
  | clockplan (f : Frame)
  /-- EVCFG (R384). Management command: select and clear an event counter. -/
  | evcfg (f : Frame)
  /-- EVREAD (R378). Management command: return a spire's event counters. -/
  | evread (f : Frame)
  /-- RESYNC (R381). Management command: return module and domain state. -/
  | resync (f : Frame)
  /-- SETTIME (R378). Management command: set module time. -/
  | settime (f : Frame)
  /-- ADMIN (R378). Management command: install key slots, admin list and module number. -/
  | admin (f : Frame) (a : AdminBody)
  /-- STREAMS (R378). Management command: return ingest stream bindings and counters. -/
  | streams (f : Frame) (first : Nat) (count : Nat)
  /-- DEBUG_BREAKPOINT (R92). Management DEBUG operation: set an address breakpoint. -/
  | debugBreakpoint (f : Frame) (core : Nat) (index : Nat) (addr : Option (BitVec 64))
  /-- DEBUG_STEP (R93). Management DEBUG operation: step one sub-band entry or every sub-band of a band. -/
  | debugStep (f : Frame) (core : Nat) (slot : Nat) (entry : Option Nat)
  /-- DEBUG_READ_TABLE (R70). Management DEBUG operation: return sub-band table entries. -/
  | debugReadTable (f : Frame) (core : Nat)
  /-- DEBUG_STORAGE_READ (R303). Management DEBUG operation: read storage under a named generation. -/
  | debugStorageRead (f : Frame) (core : Nat) (ref : StoreRef) (gen : BitVec 16)
  /-- DEBUG_STORAGE_WRITE (R303). Management DEBUG operation: write storage of a stopped task. -/
  | debugStorageWrite (f : Frame) (core : Nat) (ref : StoreRef) (gen : BitVec 16) (lo : Nat) (bytes : List (BitVec 8))
  /-- CHANNEL (R378). Management command: return channel status words and tiering registers. -/
  | channel (f : Frame) (stack : Nat)
  /-- FORENSIC (R303). Management command: enter forensic mode. -/
  | forensic (f : Frame)
  /-- RESET (R378). Management command: power-cycle the module's logic. -/
  | reset (f : Frame)
  /-- IDLE_ENTRY (R382). With nothing placed or pending, the module enters the deepest allowed idle state. -/
  | idleEntry
  /-- WAKE (R382). A TAIL write, RDMA access or management frame wakes the module. -/
  | wake
  /-- THERMAL_LIMIT (R386). The hottest die reaching 95 °C sets the thermal limit to P2. -/
  | thermalLimit (temp : Nat)
  /-- THERMAL_EMERGENCY (R325). At 105 °C the limit becomes P3 and every task is pre-empted to emergency areas. -/
  | thermalEmergency (temp : Nat)
  /-- HARD_TRIP (R386). At 110 °C the module powers off and device memory is lost. -/
  | hardTrip (temp : Nat)
  /-- THERMAL_LIMIT_LIFT (R386). Temperature 5 °C below a threshold lifts its limit. -/
  | thermalLimitLift (temp : Nat)
  /-- WATCHTOWER_ALARM (R385). An out-of-range rail, clock, temperature or mesh empties key slots and halts the module. -/
  | watchtowerAlarm (word : BitVec 32)
  /-- POWER_UP (R387). On arrival of 54 V the module arms, verifies firmware, trains memory, zeroes it and brings links up. -/
  | powerUp
  /-- DEBUG_RESUME (R92). The debugger resumes a task stopped by a breakpoint, and the matched instruction issues once with its breakpoint suppressed. -/
  | debugResume (f : Frame) (core : Nat) (slot : Nat)
  /-- TRANSPORT_CONNECTION (R371). A UEC transport connection is established and bound to one protection domain and one key slot. -/
  | transportConnection (conn : Nat) (endpoint : Nat) (pd : Nat) (key : Nat)
  /-- REMOTE_ATOMIC (R249). An atomic from another module's thread arrives over a link and is performed at this module's home dome. -/
  | remoteAtomic (module : Nat) (addr : Nat) (a : RemoteAtomic)
  /-- UNKNOWN_COMMAND (R378). A management frame with an unassigned command code is answered with status 5. -/
  | unknownCommand (f : Frame) (code : BitVec 16)
  deriving DecidableEq, Repr

end Sys2Proof
end

