-- ==== Sys2Proof/WellFormed.lean ====
section
/-! DEFINITION. Well-formed steps. For an encoded instruction: the conditions of the encoding that its constructor's
fields do not already say (trap 0x01 of R63 step 1). For an event: the agents it names exist in the module (R13). -/

namespace Sys2Proof

/-- An even register names a pair (R52, R54). -/
def evenReg {n : Nat} (r : BitVec n) : Bool := !r.getLsbD 0

/-- The 64-bit types of the memory extension word (R53). -/
def MTy.wide : MTy → Bool
  | .b64 | .i64 | .f64 => true
  | .b8 | .i8 | .b16 | .i16 | .b32 | .i32 | .f16 | .bf16 | .f32 => false

def wideEven (ty : MTy) (r : BitVec 7) : Bool := !ty.wide || evenReg r

/-- U = 1 needs vb[6] = 0 (R51). -/
def VV.wf32 (o : VV) : Bool := !o.u || !o.vb.msb

/-- The .b64 forms name even registers, the uniform source included (R52). -/
def VV.wf64 (o : VV) : Bool := o.wf32 && evenReg o.vd && evenReg o.va && evenReg o.vb

def VV.wfF (o : VV) (wide : Bool) : Bool := if wide then o.wf64 else o.wf32

def VC.wf32 (o : VC) : Bool := !o.u || !o.vb.msb

def VC.wf64 (o : VC) : Bool := o.wf32 && evenReg o.va && evenReg o.vb

/-- Address forms of memory and Plynwick instructions (R53). -/
def MV.wfAddr (o : MV) : Bool :=
  if o.u then !o.vb.msb && evenReg o.vb else o.vb == 0#7 && evenReg o.va

/-- Address forms of `lds` and `sts` (R53). -/
def MV.wfScratch (o : MV) : Bool := if o.u then !o.vb.msb else o.vb == 0#7

/-- Address form of `ldk` and `stk` (R53, R162). -/
def MV.wfK (o : MV) : Bool := !o.u && o.vb == 0#7

/-- Registers of `atom` and `atomc` (R251). -/
def MV.wfAtom (o : MV) (ty : MTy) : Bool :=
  evenReg o.va && (!o.u || !o.vb.msb) && (!ty.wide || (evenReg o.vd && evenReg o.vb))

/-- Types of `atom` (R251, R60). -/
def atomType : AOp → MTy → Bool
  | .add, _ | .exch, _ => true
  | .min, ty | .max, ty =>
    ty == .b32 || ty == .i32 || ty == .b64 || ty == .i64 || ty == .f32 || ty == .f64
  | .and, ty | .or, ty | .xor, ty => !(ty == .f32) && !(ty == .f64)

def FV.wfU (o : FV) : Bool := !o.u || !o.vb.msb

def FV.noLast (o : FV) : Bool := !o.u && o.vb == 0#7

/-- Formats held in a pair of registers (R139). -/
def wideFmt : Fmt → Bool
  | .f64 | .i64 => true
  | .f32 | .f16 | .bf16 | .e4m3 | .e5m2 | .e2m1 | .e8m0 | .q16n | .i32 | .b32 | .i8 | .i4 | .ci8 | .ci4 => false

def complexFmt (f : Fmt) : Bool := f == .ci8 || f == .ci4

def floatFmt (f : Fmt) : Bool := f == .f64 || f == .f32 || f == .f16 || f == .bf16

def intFmt (f : Fmt) : Bool := f == .i32 || f == .b32 || f == .i64

/-- The combinations of `cvt` (R136). -/
def cvtPair (src dst : Fmt) (rm : Rnd) (sat : Bool) : Bool :=
  match src, dst with
  | .f64, .f32 | .f64, .f16 | .f64, .bf16 | .f32, .f16 | .f32, .bf16 | .f16, .bf16 | .bf16, .f16 => true
  | .f32, .f64 | .f16, .f32 | .f16, .f64 | .bf16, .f32 | .bf16, .f64 => rm == .rn && !sat
  | .i32, .i64 | .b32, .i64 => rm == .rn && !sat
  | .i64, .i32 | .i64, .b32 | .i32, .b32 | .b32, .i32 => rm == .rn
  | s, d => ((floatFmt s && intFmt d) || (intFmt s && floatFmt d)) && !sat

/-- The combinations of `pk` (R136). -/
def pkPair (src dst : Fmt) (rm : Rnd) (sat : Bool) : Bool :=
  match src, dst with
  | .f32, .f16 | .f32, .bf16 | .f32, .e4m3 | .f32, .e5m2 => true
  | .f16, .e4m3 | .f16, .e5m2 | .bf16, .e4m3 | .bf16, .e5m2 => true
  | .f16, .e2m1 | .bf16, .e2m1 => !sat
  | .i32, .i8 | .i32, .ci8 | .i8, .i4 | .i8, .ci4 => rm == .rn
  | _, _ => false

/-- The combinations of `pk` that read the pair vc (R136). -/
def pkUsesC (src dst : Fmt) : Bool :=
  (src == .f32 && (dst == .e4m3 || dst == .e5m2)) || dst == .e2m1 || src == .i32

/-- The combinations of `upk` (R136). -/
def upkPair : Fmt → Fmt → Bool
  | .f16, .f32 | .bf16, .f32 => true
  | .e4m3, d | .e5m2, d | .e2m1, d => d == .f32 || d == .f16 || d == .bf16
  | .i8, .i32 | .i4, .i32 | .i4, .i8 | .ci8, .i32 | .ci4, .i32 => true
  | _, _ => false

/-- A member mask in a j register needs midx[5:4] = 0 (R194). -/
def GV.wfMask (o : GV) : Bool := o.msrc || decide (o.midx.toNat < 16)

def GV.wfPair (o : GV) (ty : MTy) : Bool := !ty.wide || (evenReg o.vd && evenReg o.va)

/-- Types of `red` and `scan` (R194). -/
def redType : RedOp → MTy → Bool
  | .add, ty | .min, ty | .max, ty =>
    ty.wide || ty == .b32 || ty == .i32 || ty == .f16 || ty == .bf16 || ty == .f32
  | .and, ty | .or, ty | .xor, ty => ty == .b32 || ty == .i32 || ty == .b64 || ty == .i64

/-- The system registers (R310): none where the number is unassigned, else whether the register has 64 bits. -/
def sysWide (n : BitVec 12) : Option Bool :=
  match n.toNat with
  | 0x000 | 0x001 | 0x002 | 0x003 | 0x004 | 0x005 | 0x006 | 0x007 | 0x009 => some false
  | 0x008 => some true
  | 0x010 | 0x011 | 0x012 => some false
  | 0x013 | 0x014 => some true
  | 0x020 | 0x022 => some false
  | 0x021 | 0x023 | 0x024 | 0x025 => some true
  | _ => none

/-- Registers whose access outside keep mode raises trap 0x09 (R310, R311). -/
def sysPrivileged (n : BitVec 12) : Bool :=
  decide (0x020 ≤ n.toNat) && decide (n.toNat < 0x025)

/-- The conditions of R63 step 1 that the fields of a constructor leave open, and the range of the agents an event
names. -/
def Instr.wf : Instr → Bool
  | .clause _ _ _ _ _ _ => true
  | .addB32 o => o.wf32
  | .subB32 o => o.wf32
  | .addB64 o => o.wf64
  | .subB64 o => o.wf64
  | .mulB32 o => o.wf32
  | .mulhiI32 o => o.wf32
  | .mulhiB32 o => o.wf32
  | .madB32 o => o.wf32
  | .andB32 o => o.wf32
  | .orB32 o => o.wf32
  | .xorB32 o => o.wf32
  | .andnB32 o => o.wf32
  | .shlB32 o => o.wf32
  | .shrB32 o => o.wf32
  | .sraB32 o => o.wf32
  | .shlB64 o => o.wf64
  | .shrB64 o => o.wf64
  | .sraB64 o => o.wf64
  | .minI32 o => o.wf32
  | .minB32 o => o.wf32
  | .maxI32 o => o.wf32
  | .maxB32 o => o.wf32
  | .cmp32 o => o.wf32 && decide (o.cc.toNat < 10)
  | .cmp64 o => o.wf64 && decide (o.cc.toNat < 10)
  | .bfeB32 o => o.wf32
  | .bfeI32 o => o.wf32
  | .bfiB32 o => o.wf32
  | .mov _ => true
  | .absI32 _ => true
  | .popc _ => true
  | .clz _ => true
  | .brev _ => true
  | .lid _ _ => true
  | .li _ _ _ => true
  | .vmovr o => o.wf32
  | .vmovw o => o.wf32
  | .movs _ _ _ => true
  | .pand _ _ _ _ => true
  | .por _ _ _ _ => true
  | .pxor _ _ _ _ => true
  | .pnot _ _ _ => true
  | .sel _ o => o.wf32
  | .fadd t o => o.wfF (t == .f64)
  | .fsub t o => o.wfF (t == .f64)
  | .fmul t o => o.wfF (t == .f64)
  | .fma t o => o.wfF (t == .f64)
  | .fmin t o => o.wfF (t == .f64)
  | .fmax t o => o.wfF (t == .f64)
  | .fminm t o => o.wfF (t == .f64)
  | .fmaxm t o => o.wfF (t == .f64)
  | .fcmp t o => (if t == .f64 then o.wf64 else o.wf32) && decide (o.cc.toNat < 8)
  | .frcp t o => !(t == .f64) || (evenReg o.vd && evenReg o.va)
  | .frsq t o => !(t == .f64) || (evenReg o.vd && evenReg o.va)
  | .fsqrt t o => !(t == .f64) || (evenReg o.vd && evenReg o.va)
  | .fclass t o => !(t == .f64) || (evenReg o.vd && evenReg o.va)
  | .frnd t _ o => !(t == .f64) || (evenReg o.vd && evenReg o.va)
  | .fdiv t o => o.wfF (t == .f64)
  | .fscale t o => o.wfF (t == .f64)
  | .fdot2 _ o => o.wf32
  | .ftab _ _ => true
  | .ld ty od o => o.wfAddr && (od == .none || od == .acq) && wideEven ty o.vd
  | .st ty od o => o.wfAddr && (od == .none || od == .rel) && wideEven ty o.vd
  | .ldk ty od _ o => o.wfK && (od == .none || od == .acq) && wideEven ty o.vd
  | .stk ty od _ o => o.wfK && (od == .none || od == .rel) && wideEven ty o.vd
  | .lds ty o => o.wfScratch && wideEven ty o.vd
  | .sts ty o => o.wfScratch && wideEven ty o.vd
  | .pf o => o.wfAddr && o.vd == 0#7
  | .atom op ty _ o => o.wfAtom ty && atomType op ty
  | .atomc ty _ o => o.wfAtom ty && (ty == .b32 || ty == .i32 || ty == .b64 || ty == .i64)
  | .pwaddr _ o => o.u && evenReg o.vd && evenReg o.vb && decide (o.vb.toNat ≤ 60)
  | .pwclaim o => o.wfAddr && o.vd == 0#7
  | .pwflush o => o.wfAddr && o.vd == 0#7
  | .pwnorm o => o.wfAddr && o.vd == 0#7
  | .pwraw o => o.wfAddr
  | .pwdrop o => o.wfAddr && o.vd == 0#7
  | .cvt src dst rm sat o => o.noLast && o.vc == 0#7 && cvtPair src dst rm sat &&
      (!(wideFmt src) || evenReg o.va) && (!(wideFmt dst) || evenReg o.vd)
  | .pk src dst rm sat o => o.wfU && pkPair src dst rm sat && (if pkUsesC src dst then evenReg o.vc else o.vc == 0#7)
  | .upk src dst rm sat o => o.wfU && o.vc == 0#7 && rm == .rn && !sat && upkPair src dst && (!(complexFmt src) || evenReg o.vd)
  | .qz src dst rm sat o => o.wfU && src == .f32 && !sat &&
      (if dst == .q16n then rm == .rn else
        (dst == .i8 || dst == .i4 || dst == .ci8 || dst == .ci4) && o.vc == 0#7 && (!(complexFmt dst) || evenReg o.va))
  | .dq src dst _ sat o => o.wfU && dst == .f32 && !sat &&
      (if src == .q16n then true else
        (src == .i8 || src == .i4 || src == .ci8 || src == .ci4) && o.vc == 0#7 && (!(complexFmt src) || evenReg o.vd))
  | .mxq src dst _ sat o => o.wfU && o.vc == 0#7 && src == .f32 && (dst == .e4m3 || dst == .e5m2 || dst == .e2m1) && !sat
  | .mxdq src dst _ sat o => o.wfU && o.vc == 0#7 && dst == .f32 && (src == .e4m3 || src == .e5m2 || src == .e2m1) && !sat
  | .vote op o => o.wfMask && !o.u && o.vb == 0#7 && decide (o.va.toNat < 8) && (op == .ballot || decide (o.vd.toNat < 8))
  | .shfl _ ty o => o.wfMask && (!o.u || !o.vb.msb) && (ty == .b32 || ty == .b64) && o.wfPair ty
  | .red op ty o => o.wfMask && !o.u && o.vb == 0#7 && redType op ty && o.wfPair ty
  | .scan op ty _ o => o.wfMask && !o.u && o.vb == 0#7 && redType op ty && o.wfPair ty
  | .bcast ty o => o.wfMask && o.u && !o.vb.msb && (ty == .b32 || ty == .b64) && o.wfPair ty
  | .sadd _ => true
  | .ssub _ => true
  | .smul _ => true
  | .smulhiI32 _ => true
  | .smulhiB32 _ => true
  | .sand _ => true
  | .sor _ => true
  | .sxor _ => true
  | .sshl _ => true
  | .sshr _ => true
  | .ssra _ => true
  | .sminI32 _ => true
  | .sminB32 _ => true
  | .smaxI32 _ => true
  | .smaxB32 _ => true
  | .smov _ _ _ => true
  | .spopc _ _ _ => true
  | .sclz _ _ _ => true
  | .saddB64 o => evenReg o.sd && evenReg o.sa && evenReg o.sb
  | .ssubB64 o => evenReg o.sd && evenReg o.sa && evenReg o.sb
  | .ssel _ => true
  | .scmp cc _ => decide (cc.toNat < 10)
  | .sli _ _ _ => true
  | .slih _ _ _ => true
  | .sbfe _ _ _ _ _ _ => true
  | .sbfi _ _ _ _ _ => true
  | .saddImm _ _ _ _ => true
  | .bra _ _ => true
  | .brz _ _ _ => true
  | .brnz _ _ _ => true
  | .call _ _ => true
  | .callv _ v => evenReg v
  | .split _ _ _ _ => true
  | .nop _ => true
  | .ret _ => true
  | .calli _ sn => evenReg sn
  | .join _ _ => true
  | .jwait _ _ => true
  | .jset _ _ _ => true
  | .jget _ _ _ => true
  | .yield _ => true
  | .brk _ _ => true
  | .trap _ _ => true
  | .sld _ x y _ _ w => evenReg y && (!w || evenReg x)
  | .sst _ x y _ _ w => evenReg y && (!w || evenReg x)
  | .satom _ _ w o => evenReg o.sa && (!w || (evenReg o.sd && evenReg o.sb))
  | .lset _ _ _ => true
  | .lget _ _ _ => true
  | .kset _ _ sb sc => evenReg sb && decide (sc.toNat ≤ 60)
  | .lnext _ _ _ => true
  | .rel _ => true
  | .acq _ => true
  | .sync _ => true
  | .xrel _ => true
  | .xrelDram _ => true
  | .bar _ _ _ => true
  | .arrive _ _ _ => true
  | .barw _ _ => true
  | .gmask _ _ _ => true
  | .qpush _ _ sn n => decide (sn.toNat + n.toNat ≤ 63)
  | .qpop _ _ _ => true
  | .qfence _ _ => true
  | .twany _ _ m => evenReg m
  | .twall _ m => evenReg m
  | .tffr _ _ m => evenReg m
  | .tget _ sn => evenReg sn
  | .tclr _ m => evenReg m
  | .mma _ acc _ _ _ _ _ typ _ _ => !(typ == .f64) || evenReg acc
  | .mmc _ acc _ _ _ _ _ _ => evenReg acc
  | .tld _ _ y _ => evenReg y
  | .tst _ _ y _ => evenReg y
  | .tmov _ _ _ => true
  | .tzero _ _ => true
  | .amov _ _ _ => true
  | .ald _ _ y => evenReg y
  | .ast _ _ y => evenReg y
  | .azero _ _ => true
  | .sign _ _ _ => true
  | .mprog _ _ _ => true
  | .exit _ => true
  | .exitSucc _ sn => evenReg sn
  | .phase _ _ => true
  | .gen _ _ => true
  | .rsys _ sn n => match sysWide n with
    | none => false
    | some wide => !wide || evenReg sn
  | .wsys _ sn n => match sysWide n with
    | none => false
    | some wide => !wide || evenReg sn
  | .kret _ => true
  | .svc _ c y => decide (c.toNat < 8) && evenReg y
  | .rsc _ c y => decide (c.toNat < 8) && evenReg y
  | .halt _ => true
  | .instructionLineFill core _ => decide (core < 1536)
  | .pageTableWalk core _ => decide (core < 1536)
  | .loadCompletion core _ => decide (core < 1536)
  | .atomicCompletion core _ => decide (core < 1536)
  | .sequencerCompletion core _ => decide (core < 1536)
  | .ftabCompletion core _ => decide (core < 1536)
  | .releaseCompletion core _ => decide (core < 1536)
  | .acquireCompletion core _ => decide (core < 1536)
  | .faultRecordPost pd => decide (pd < 4096)
  | .registration core => decide (core < 1536)
  | .recall _ => true
  | .domeRequest core => decide (core < 1536)
  | .domeFill buf _ => decide (buf < 65536)
  | .replicaInvalidate _ => true
  | .domeUncorrectableError _ => true
  | .l1Eviction core _ => decide (core < 1536)
  | .plynwickRecall buf _ => decide (buf < 65536)
  | .eyeMarginMeasure stack ch lane margin =>
    decide (stack < 16) && decide (ch < 32) && decide (lane < 72) && decide (margin < 64)
  | .laneRepair stack ch lane => decide (stack < 16) && decide (ch < 32) && decide (lane < 72)
  | .counterDecay port => decide (port < 24)
  | .engineCommandStart core slot queue => decide (core < 1536) && decide (slot < 64) && decide (queue < 16)
  | .copy core slot queue => decide (core < 1536) && decide (slot < 64) && decide (queue < 16)
  | .copy2d core slot queue => decide (core < 1536) && decide (slot < 64) && decide (queue < 16)
  | .gather core slot queue => decide (core < 1536) && decide (slot < 64) && decide (queue < 16)
  | .scatter core slot queue => decide (core < 1536) && decide (slot < 64) && decide (queue < 16)
  | .multicast core slot queue => decide (core < 1536) && decide (slot < 64) && decide (queue < 16)
  | .collectiveReduce core slot queue => decide (core < 1536) && decide (slot < 64) && decide (queue < 16)
  | .ingestBind core slot queue => decide (core < 1536) && decide (slot < 64) && decide (queue < 16)
  | .engineCommandComplete core slot queue => decide (core < 1536) && decide (slot < 64) && decide (queue < 16)
  | .engineFault core slot queue => decide (core < 1536) && decide (slot < 64) && decide (queue < 16)
  | .tagWaitComplete core _ => decide (core < 1536)
  | .qpopComplete core _ => decide (core < 1536)
  | .ingestFrame _ => true
  | .gapRecordTimeout stream => decide (stream < 4096)
  | .ingestConsumerReread stream => decide (stream < 4096)
  | .pfcPauseRefresh stream => decide (stream < 4096)
  | .barrierReleaseStep _ gid => decide (gid < 256)
  | .matrixOperationIssue core slot g => decide (core < 1536) && decide (slot < 64) && decide (g < 8)
  | .matrixKStep core _ _ => decide (core < 1536)
  | .matrixOperationComplete core _ => decide (core < 1536)
  | .matrixTransferComplete core _ => decide (core < 1536)
  | .preemptionRequest core slot _ => decide (core < 1536) && decide (slot < 64)
  | .preemptionEntry core slot => decide (core < 1536) && decide (slot < 64)
  | .variantSwitch core slot => decide (core < 1536) && decide (slot < 64)
  | .phaseAdmissionTimeout core slot => decide (core < 1536) && decide (slot < 64)
  | .queuedAdmissionTimeout cluster => decide (cluster < 384)
  | .taskRetire core slot => decide (core < 1536) && decide (slot < 64)
  | .successorStart core slot => decide (core < 1536) && decide (slot < 64)
  | .place cluster => decide (cluster < 384)
  | .generationSweepEnd core => decide (core < 1536)
  | .placementAttempt cluster => decide (cluster < 384)
  | .queueHeadAgeExpiry cluster => decide (cluster < 384)
  | .controlInterval => true
  | .stealRequest cluster => decide (cluster < 384)
  | .timeSliceExpiry core slot => decide (core < 1536) && decide (slot < 64)
  | .walkerTakeEntry spire => decide (spire < 8)
  | .kernelNode queue => decide (queue < 8192)
  | .copyNode queue => decide (queue < 8192)
  | .condNode queue => decide (queue < 8192)
  | .whileNode queue => decide (queue < 8192)
  | .waitqNode queue => decide (queue < 8192)
  | .waitqPoll queue => decide (queue < 8192)
  | .waitqTimeout queue => decide (queue < 8192)
  | .signalNode queue => decide (queue < 8192)
  | .endNode queue => decide (queue < 8192)
  | .rdmaWrite _ _ _ => true
  | .rdmaRead _ _ _ => true
  | .remoteAccessTimeout core _ => decide (core < 1536)
  | .bufferTableWrite _ index _ => decide (index < 65536)
  | .wqErrClear _ queue => decide (queue < 8192)
  | .registerWrite _ _ _ => true
  | .tlbinv => true
  | .bufinv => true
  | .recallCommand => true
  | .faultans => true
  | .load => true
  | .unload => true
  | .preempt => true
  | .restore => true
  | .killpd => true
  | .identify _ => true
  | .attest _ => true
  | .keyload _ => true
  | .keydestroy _ => true
  | .powertol _ => true
  | .clockplan _ => true
  | .evcfg _ => true
  | .evread _ => true
  | .resync _ => true
  | .settime _ => true
  | .admin _ _ => true
  | .streams _ _ _ => true
  | .debugBreakpoint _ core index _ => decide (core < 1536) && decide (index < 8)
  | .debugStep _ core slot _ => decide (core < 1536) && decide (slot < 64)
  | .debugReadTable _ core => decide (core < 1536)
  | .debugStorageRead _ core _ _ => decide (core < 1536)
  | .debugStorageWrite _ core _ _ _ _ => decide (core < 1536)
  | .channel _ stack => decide (stack < 16)
  | .forensic _ => true
  | .reset _ => true
  | .idleEntry => true
  | .wake => true
  | .thermalLimit _ => true
  | .thermalEmergency _ => true
  | .hardTrip _ => true
  | .thermalLimitLift _ => true
  | .watchtowerAlarm _ => true
  | .powerUp => true
  | .illegalEncoding _ => true
  | .debugResume _ core slot => decide (core < 1536) && decide (slot < 64)
  | .plynwickOperationCompletion core _ => decide (core < 1536)
  | .transportConnection _ _ pd _ => decide (pd < 4096)
  | .remoteAtomic _ _ _ => true
  | .malformedNode queue => decide (queue < 8192)
  | .hostCommandUnknownOpcode => true
  | .unknownCommand _ _ => true

end Sys2Proof
end

