-- ==== Sys2Proof/Decode.lean ====
section
/-! DEFINITION. The decoder and the encoder, from the encoding tables of R40, R51 to R54 and R60 to R62. The decoder
reads the fields an opcode names and then accepts the instruction only if it is well formed and its own encoding is
exactly the words read, so that every non-zero reserved field is refused (R63 step 1). -/

namespace Sys2Proof

def FTy.code : FTy → BitVec 2
  | .f64 => 0#2 | .f32 => 1#2 | .f16x2 => 2#2 | .bf16x2 => 3#2

def FTy.ofCode (c : BitVec 2) : FTy :=
  match c.toNat with
  | 0 => .f64 | 1 => .f32 | 2 => .f16x2 | _ => .bf16x2

def FW.code : FW → BitVec 1
  | .f64 => 0#1 | .f32 => 1#1

def FW.ofCode (c : BitVec 1) : FW := if c = 0#1 then .f64 else .f32

/-- The type codes of `pwaddr` (R184). -/
def FW.tyCode : FW → BitVec 4
  | .f32 => 10#4 | .f64 => 11#4

def FW.ofTyCode (c : BitVec 4) : Option FW :=
  match c.toNat with
  | 10 => some .f32 | 11 => some .f64 | _ => none

def FH.code : FH → BitVec 1
  | .f16 => 0#1 | .bf16 => 1#1

def FH.ofCode (c : BitVec 1) : FH := if c = 0#1 then .f16 else .bf16

def Rnd.code : Rnd → BitVec 3
  | .rn => 0#3 | .rz => 1#3 | .ru => 2#3 | .rd => 3#3 | .ra => 4#3

def Rnd.ofCode (c : BitVec 3) : Option Rnd :=
  match c.toNat with
  | 0 => some .rn | 1 => some .rz | 2 => some .ru | 3 => some .rd | 4 => some .ra | _ => none

def MTy.code : MTy → BitVec 4
  | .b8 => 0#4 | .i8 => 1#4 | .b16 => 2#4 | .i16 => 3#4 | .b32 => 4#4 | .i32 => 5#4 | .b64 => 6#4 | .i64 => 7#4
  | .f16 => 8#4 | .bf16 => 9#4 | .f32 => 10#4 | .f64 => 11#4

def MTy.ofCode (c : BitVec 4) : Option MTy :=
  match c.toNat with
  | 0 => some .b8 | 1 => some .i8 | 2 => some .b16 | 3 => some .i16 | 4 => some .b32 | 5 => some .i32
  | 6 => some .b64 | 7 => some .i64 | 8 => some .f16 | 9 => some .bf16 | 10 => some .f32 | 11 => some .f64
  | _ => none

def Ord.code : Ord → BitVec 2
  | .none => 0#2 | .acq => 1#2 | .rel => 2#2 | .ar => 3#2

def Ord.ofCode (c : BitVec 2) : Ord :=
  match c.toNat with
  | 0 => .none | 1 => .acq | 2 => .rel | _ => .ar

def AOp.code : AOp → BitVec 4
  | .add => 0#4 | .min => 1#4 | .max => 2#4 | .and => 3#4 | .or => 4#4 | .xor => 5#4 | .exch => 6#4

def AOp.ofCode (c : BitVec 4) : Option AOp :=
  match c.toNat with
  | 0 => some .add | 1 => some .min | 2 => some .max | 3 => some .and | 4 => some .or | 5 => some .xor
  | 6 => some .exch | _ => none

def SAOp.code : SAOp → BitVec 3
  | .add => 0#3 | .min => 1#3 | .max => 2#3 | .and => 3#3 | .or => 4#3 | .xor => 5#3 | .exch => 6#3 | .cas => 7#3

def SAOp.ofCode (c : BitVec 3) : SAOp :=
  match c.toNat with
  | 0 => .add | 1 => .min | 2 => .max | 3 => .and | 4 => .or | 5 => .xor | 6 => .exch | _ => .cas

def Fmt.code : Fmt → BitVec 4
  | .f64 => 0#4 | .f32 => 1#4 | .f16 => 2#4 | .bf16 => 3#4 | .e4m3 => 4#4 | .e5m2 => 5#4 | .e2m1 => 6#4
  | .e8m0 => 7#4 | .q16n => 8#4 | .i32 => 9#4 | .b32 => 10#4 | .i64 => 11#4 | .i8 => 12#4 | .i4 => 13#4
  | .ci8 => 14#4 | .ci4 => 15#4

def Fmt.ofCode (c : BitVec 4) : Fmt :=
  match c.toNat with
  | 0 => .f64 | 1 => .f32 | 2 => .f16 | 3 => .bf16 | 4 => .e4m3 | 5 => .e5m2 | 6 => .e2m1 | 7 => .e8m0
  | 8 => .q16n | 9 => .i32 | 10 => .b32 | 11 => .i64 | 12 => .i8 | 13 => .i4 | 14 => .ci8 | _ => .ci4

def VoteOp.code : VoteOp → BitVec 4
  | .all => 0#4 | .any => 1#4 | .ballot => 2#4

def VoteOp.ofCode (c : BitVec 4) : Option VoteOp :=
  match c.toNat with
  | 0 => some .all | 1 => some .any | 2 => some .ballot | _ => none

def ShflOp.code : ShflOp → BitVec 4
  | .idx => 0#4 | .up => 1#4 | .down => 2#4 | .xor => 3#4

def ShflOp.ofCode (c : BitVec 4) : Option ShflOp :=
  match c.toNat with
  | 0 => some .idx | 1 => some .up | 2 => some .down | 3 => some .xor | _ => none

def RedOp.code : RedOp → BitVec 4
  | .add => 0#4 | .min => 1#4 | .max => 2#4 | .and => 3#4 | .or => 4#4 | .xor => 5#4

def RedOp.ofCode (c : BitVec 4) : Option RedOp :=
  match c.toNat with
  | 0 => some .add | 1 => some .min | 2 => some .max | 3 => some .and | 4 => some .or | 5 => some .xor | _ => none

def AccTy.code : AccTy → BitVec 2
  | .f32 => 0#2 | .i32 => 1#2 | .f64 => 2#2

def AccTy.ofCode (c : BitVec 2) : Option AccTy :=
  match c.toNat with
  | 0 => some .f32 | 1 => some .i32 | 2 => some .f64 | _ => none

/-! Fields of the V-set word (R51). -/

def vD (w : Word) : BitVec 2 := w.extractLsb' 29 2
def vVd (w : Word) : BitVec 7 := w.extractLsb' 14 7
def vVa (w : Word) : BitVec 7 := w.extractLsb' 7 7
def vVb (w : Word) : BitVec 7 := w.extractLsb' 0 7

def getVV (w : Word) : VV := ⟨vD w, w.getLsbD 21, vVd w, vVa w, vVb w⟩
def getVC (w : Word) : VC := ⟨vD w, w.getLsbD 21, w.extractLsb' 17 4, w.extractLsb' 14 3, vVa w, vVb w⟩
def getVU (w : Word) : VU := ⟨vD w, vVd w, vVa w⟩
def getMV (w x : Word) : MV := ⟨vD w, w.getLsbD 21, vVd w, vVa w, vVb w, x.extractLsb' 0 18⟩
def getFV (w x : Word) : FV := ⟨vD w, w.getLsbD 21, vVd w, vVa w, vVb w, x.extractLsb' 0 7⟩
def getGV (w x : Word) : GV := ⟨vD w, w.getLsbD 21, vVd w, vVa w, vVb w, x.getLsbD 31, x.extractLsb' 25 6⟩

/-! Fields of the S-set word (R54). -/

def sD (w : Word) : BitVec 2 := w.extractLsb' 24 2
def sX (w : Word) : BitVec 6 := w.extractLsb' 18 6
def sY (w : Word) : BitVec 6 := w.extractLsb' 12 6
def sZ (w : Word) : BitVec 6 := w.extractLsb' 6 6
def sMinor (w : Word) : BitVec 6 := w.extractLsb' 0 6
def getS3 (w : Word) : S3 := ⟨sD w, sX w, sY w, sZ w⟩

/-- A V-set word (R51). -/
def vw (d : BitVec 2) (op : BitVec 7) (u : Bool) (vd va vb : BitVec 7) : Word :=
  0#1 ++ d ++ op ++ BitVec.ofBool u ++ vd ++ va ++ vb

/-- The memory extension word (R53). -/
def mx (ty : BitVec 4) (od : BitVec 2) (sub kreg : BitVec 4) (off : BitVec 18) : Word :=
  ty ++ od ++ sub ++ kreg ++ off

/-- The format extension word (R53). -/
def fx (src dst : BitVec 4) (rm : BitVec 3) (sat : Bool) (vc : BitVec 7) : Word :=
  src ++ dst ++ rm ++ BitVec.ofBool sat ++ 0#13 ++ vc

/-- The group extension word (R53). -/
def gxw (msrc : Bool) (midx : BitVec 6) (sub ty : BitVec 4) (excl : Bool) : Word :=
  BitVec.ofBool msrc ++ midx ++ sub ++ ty ++ BitVec.ofBool excl ++ 0#16

/-- An S-set word (R54). -/
def sw (major : BitVec 5) (d : BitVec 2) (body : BitVec 24) : Word := 1#1 ++ major ++ d ++ body

/-- Layout SX (R54). -/
def sx (major : BitVec 5) (d : BitVec 2) (x y z minor : BitVec 6) : Word :=
  sw major d (x ++ y ++ z ++ minor)

/-- What a V-set word `w` (bit 31 clear) and the word after it name by opcode (R60), reserved fields not yet tested. -/
def rawV (w x : Word) : Option Instr :=
  match (w.extractLsb' 22 7).toNat with
  | 0x1 => some (.addB32 (getVV w))
  | 0x2 => some (.subB32 (getVV w))
  | 0x3 => some (.addB64 (getVV w))
  | 0x4 => some (.subB64 (getVV w))
  | 0x5 => some (.mulB32 (getVV w))
  | 0x6 => some (.mulhiI32 (getVV w))
  | 0x7 => some (.mulhiB32 (getVV w))
  | 0x8 => some (.madB32 (getVV w))
  | 0x9 => some (.andB32 (getVV w))
  | 0xa => some (.orB32 (getVV w))
  | 0xb => some (.xorB32 (getVV w))
  | 0xc => some (.andnB32 (getVV w))
  | 0xd => some (.shlB32 (getVV w))
  | 0xe => some (.shrB32 (getVV w))
  | 0xf => some (.sraB32 (getVV w))
  | 0x10 => some (.shlB64 (getVV w))
  | 0x11 => some (.shrB64 (getVV w))
  | 0x12 => some (.sraB64 (getVV w))
  | 0x13 => some (.minI32 (getVV w))
  | 0x14 => some (.minB32 (getVV w))
  | 0x15 => some (.maxI32 (getVV w))
  | 0x16 => some (.maxB32 (getVV w))
  | 0x17 => some (.cmp32 (getVC w))
  | 0x18 => some (.cmp64 (getVC w))
  | 0x19 => some (.bfeB32 (getVV w))
  | 0x1a => some (.bfeI32 (getVV w))
  | 0x1b => some (.bfiB32 (getVV w))
  | 0x1c => match (vVb w).toNat with
    | 0 => some (.mov (getVU w))
    | 1 => some (.absI32 (getVU w))
    | 2 => some (.popc (getVU w))
    | 3 => some (.clz (getVU w))
    | 4 => some (.brev (getVU w))
    | 5 => some (.lid (vD w) (vVd w))
    | _ => none
  | 0x1d => some (.li (vD w) (vVd w) (w.extractLsb' 0 14))
  | 0x1e => some (.vmovr (getVV w))
  | 0x1f => some (.vmovw (getVV w))
  | 0x20 => some (.movs (vD w) (vVd w) (w.extractLsb' 0 6))
  | 0x21 => some (.pand (vD w) (w.extractLsb' 14 3) (w.extractLsb' 7 3) (w.extractLsb' 0 3))
  | 0x22 => some (.por (vD w) (w.extractLsb' 14 3) (w.extractLsb' 7 3) (w.extractLsb' 0 3))
  | 0x23 => some (.pxor (vD w) (w.extractLsb' 14 3) (w.extractLsb' 7 3) (w.extractLsb' 0 3))
  | 0x24 => some (.pnot (vD w) (w.extractLsb' 14 3) (w.extractLsb' 7 3))
  | 0x28 | 0x29 | 0x2a | 0x2b | 0x2c | 0x2d | 0x2e | 0x2f => some (.sel (w.extractLsb' 22 3) (getVV w))
  | 0x30 | 0x31 | 0x32 | 0x33 => some (.fadd (FTy.ofCode (w.extractLsb' 22 2)) (getVV w))
  | 0x34 | 0x35 | 0x36 | 0x37 => some (.fsub (FTy.ofCode (w.extractLsb' 22 2)) (getVV w))
  | 0x38 | 0x39 | 0x3a | 0x3b => some (.fmul (FTy.ofCode (w.extractLsb' 22 2)) (getVV w))
  | 0x3c | 0x3d | 0x3e | 0x3f => some (.fma (FTy.ofCode (w.extractLsb' 22 2)) (getVV w))
  | 0x40 | 0x41 | 0x42 | 0x43 => some (.fmin (FTy.ofCode (w.extractLsb' 22 2)) (getVV w))
  | 0x44 | 0x45 | 0x46 | 0x47 => some (.fmax (FTy.ofCode (w.extractLsb' 22 2)) (getVV w))
  | 0x48 | 0x49 | 0x4a | 0x4b => some (.fminm (FTy.ofCode (w.extractLsb' 22 2)) (getVV w))
  | 0x4c | 0x4d | 0x4e | 0x4f => some (.fmaxm (FTy.ofCode (w.extractLsb' 22 2)) (getVV w))
  | 0x50 | 0x51 | 0x52 | 0x53 => some (.fcmp (FTy.ofCode (w.extractLsb' 22 2)) (getVC w))
  | 0x54 | 0x55 | 0x56 | 0x57 => match (w.extractLsb' 0 4).toNat with
    | 0 => some (.frcp (FTy.ofCode (w.extractLsb' 22 2)) (getVU w))
    | 1 => some (.frsq (FTy.ofCode (w.extractLsb' 22 2)) (getVU w))
    | 2 => some (.fsqrt (FTy.ofCode (w.extractLsb' 22 2)) (getVU w))
    | 3 => some (.fclass (FTy.ofCode (w.extractLsb' 22 2)) (getVU w))
    | 4 => (Rnd.ofCode (w.extractLsb' 4 3)).map fun r => .frnd (FTy.ofCode (w.extractLsb' 22 2)) r (getVU w)
    | _ => none
  | 0x58 | 0x59 => some (.fdiv (FW.ofCode (w.extractLsb' 22 1)) (getVV w))
  | 0x5a | 0x5b => some (.fscale (FW.ofCode (w.extractLsb' 22 1)) (getVV w))
  | 0x5c | 0x5d => some (.fdot2 (FH.ofCode (w.extractLsb' 22 1)) (getVV w))
  | 0x5e => some (.ftab (w.extractLsb' 0 4) (getVU w))
  | 0x60 => (MTy.ofCode (x.extractLsb' 28 4)).map fun ty => .ld ty (Ord.ofCode (x.extractLsb' 26 2)) (getMV w x)
  | 0x61 => (MTy.ofCode (x.extractLsb' 28 4)).map fun ty => .st ty (Ord.ofCode (x.extractLsb' 26 2)) (getMV w x)
  | 0x62 => (MTy.ofCode (x.extractLsb' 28 4)).map fun ty => .ldk ty (Ord.ofCode (x.extractLsb' 26 2)) (x.extractLsb' 18 4) (getMV w x)
  | 0x63 => (MTy.ofCode (x.extractLsb' 28 4)).map fun ty => .stk ty (Ord.ofCode (x.extractLsb' 26 2)) (x.extractLsb' 18 4) (getMV w x)
  | 0x64 => (MTy.ofCode (x.extractLsb' 28 4)).map fun ty => .lds ty (getMV w x)
  | 0x65 => (MTy.ofCode (x.extractLsb' 28 4)).map fun ty => .sts ty (getMV w x)
  | 0x66 => some (.pf (getMV w x))
  | 0x67 => (AOp.ofCode (x.extractLsb' 22 4)).bind fun op => (MTy.ofCode (x.extractLsb' 28 4)).map fun ty => .atom op ty (Ord.ofCode (x.extractLsb' 26 2)) (getMV w x)
  | 0x68 => (MTy.ofCode (x.extractLsb' 28 4)).map fun ty => .atomc ty (Ord.ofCode (x.extractLsb' 26 2)) (getMV w x)
  | 0x69 => (FW.ofTyCode (x.extractLsb' 28 4)).map fun t => .pwaddr t (getMV w x)
  | 0x6a => some (.pwclaim (getMV w x))
  | 0x6b => some (.pwflush (getMV w x))
  | 0x6c => some (.pwnorm (getMV w x))
  | 0x6d => some (.pwraw (getMV w x))
  | 0x6e => some (.pwdrop (getMV w x))
  | 0x70 => (Rnd.ofCode (x.extractLsb' 21 3)).map fun rm =>
    .cvt (Fmt.ofCode (x.extractLsb' 28 4)) (Fmt.ofCode (x.extractLsb' 24 4)) rm (x.getLsbD 20) (getFV w x)
  | 0x71 => (Rnd.ofCode (x.extractLsb' 21 3)).map fun rm =>
    .pk (Fmt.ofCode (x.extractLsb' 28 4)) (Fmt.ofCode (x.extractLsb' 24 4)) rm (x.getLsbD 20) (getFV w x)
  | 0x72 => (Rnd.ofCode (x.extractLsb' 21 3)).map fun rm =>
    .upk (Fmt.ofCode (x.extractLsb' 28 4)) (Fmt.ofCode (x.extractLsb' 24 4)) rm (x.getLsbD 20) (getFV w x)
  | 0x73 => (Rnd.ofCode (x.extractLsb' 21 3)).map fun rm =>
    .qz (Fmt.ofCode (x.extractLsb' 28 4)) (Fmt.ofCode (x.extractLsb' 24 4)) rm (x.getLsbD 20) (getFV w x)
  | 0x74 => (Rnd.ofCode (x.extractLsb' 21 3)).map fun rm =>
    .dq (Fmt.ofCode (x.extractLsb' 28 4)) (Fmt.ofCode (x.extractLsb' 24 4)) rm (x.getLsbD 20) (getFV w x)
  | 0x75 => (Rnd.ofCode (x.extractLsb' 21 3)).map fun rm =>
    .mxq (Fmt.ofCode (x.extractLsb' 28 4)) (Fmt.ofCode (x.extractLsb' 24 4)) rm (x.getLsbD 20) (getFV w x)
  | 0x76 => (Rnd.ofCode (x.extractLsb' 21 3)).map fun rm =>
    .mxdq (Fmt.ofCode (x.extractLsb' 28 4)) (Fmt.ofCode (x.extractLsb' 24 4)) rm (x.getLsbD 20) (getFV w x)
  | 0x78 => (VoteOp.ofCode (x.extractLsb' 21 4)).map fun op => .vote op (getGV w x)
  | 0x79 => (ShflOp.ofCode (x.extractLsb' 21 4)).bind fun op => (MTy.ofCode (x.extractLsb' 17 4)).map fun ty => .shfl op ty (getGV w x)
  | 0x7a => (RedOp.ofCode (x.extractLsb' 21 4)).bind fun op => (MTy.ofCode (x.extractLsb' 17 4)).map fun ty => .red op ty (getGV w x)
  | 0x7b => (RedOp.ofCode (x.extractLsb' 21 4)).bind fun op => (MTy.ofCode (x.extractLsb' 17 4)).map fun ty => .scan op ty (x.getLsbD 16) (getGV w x)
  | 0x7c => (MTy.ofCode (x.extractLsb' 17 4)).map fun ty => .bcast ty (getGV w x)
  | _ => none

/-- What an S-set word (bit 31 set) names by major and minor (R61, R62); major 31 is a clause header (R40). -/
def rawS (w : Word) : Option Instr :=
  match (w.extractLsb' 26 5).toNat with
  | 0 => if w.extractLsb' 4 2 = 2#2 then some (.scmp (w.extractLsb' 0 4) (getS3 w)) else
    match (sMinor w).toNat with
    | 0 => some (.sadd (getS3 w))
    | 1 => some (.ssub (getS3 w))
    | 2 => some (.smul (getS3 w))
    | 3 => some (.smulhiI32 (getS3 w))
    | 4 => some (.smulhiB32 (getS3 w))
    | 5 => some (.sand (getS3 w))
    | 6 => some (.sor (getS3 w))
    | 7 => some (.sxor (getS3 w))
    | 8 => some (.sshl (getS3 w))
    | 9 => some (.sshr (getS3 w))
    | 10 => some (.ssra (getS3 w))
    | 11 => some (.sminI32 (getS3 w))
    | 12 => some (.sminB32 (getS3 w))
    | 13 => some (.smaxI32 (getS3 w))
    | 14 => some (.smaxB32 (getS3 w))
    | 15 => some (.smov (sD w) (sX w) (sY w))
    | 16 => some (.spopc (sD w) (sX w) (sY w))
    | 17 => some (.sclz (sD w) (sX w) (sY w))
    | 18 => some (.saddB64 (getS3 w))
    | 19 => some (.ssubB64 (getS3 w))
    | 20 => some (.ssel (getS3 w))
    | _ => none
  | 1 => some (.sli (sD w) (sX w) (w.extractLsb' 0 18))
  | 2 => some (.slih (sD w) (sX w) (w.extractLsb' 0 16))
  | 3 => if w.getLsbD 0 then some (.sbfi (sD w) (sX w) (sY w) (w.extractLsb' 7 5) (w.extractLsb' 2 5))
    else some (.sbfe (sD w) (sX w) (sY w) (w.extractLsb' 7 5) (w.extractLsb' 2 5) (w.getLsbD 1))
  | 4 => some (.saddImm (sD w) (sX w) (sY w) (w.extractLsb' 0 12))
  | 5 => some (.bra (sD w) (w.extractLsb' 0 18))
  | 6 => some (.brz (sD w) (sX w) (w.extractLsb' 0 18))
  | 7 => some (.brnz (sD w) (sX w) (w.extractLsb' 0 18))
  | 8 => some (.call (sD w) (w.extractLsb' 0 18))
  | 9 => some (.callv (sD w) (w.extractLsb' 17 7))
  | 10 => some (.split (sD w) (w.extractLsb' 20 4) (w.extractLsb' 17 3) (w.extractLsb' 0 17))
  | 11 => match (sMinor w).toNat with
    | 0 => some (.nop (sD w))
    | 1 => some (.ret (sD w))
    | 2 => some (.calli (sD w) (sX w))
    | 3 => some (.join (sD w) (w.extractLsb' 18 4))
    | 4 => some (.jwait (sD w) (w.extractLsb' 18 4))
    | 5 => some (.jset (sD w) (w.extractLsb' 18 4) (sY w))
    | 6 => some (.jget (sD w) (sX w) (w.extractLsb' 12 4))
    | 7 => some (.yield (sD w))
    | 8 => some (.brk (sD w) (w.extractLsb' 6 12))
    | 9 => some (.trap (sD w) (w.extractLsb' 6 12))
    | _ => none
  | 12 => match (w.extractLsb' 2 4).toNat with
    | 0 => some (.sld (sD w) (sX w) (sY w) (sZ w) (w.getLsbD 1) (w.getLsbD 0))
    | 1 => some (.sst (sD w) (sX w) (sY w) (sZ w) (w.getLsbD 1) (w.getLsbD 0))
    | _ => none
  | 13 => some (.satom (SAOp.ofCode (w.extractLsb' 3 3)) (Ord.ofCode (w.extractLsb' 1 2)) (w.getLsbD 0) (getS3 w))
  | 14 => match (sMinor w).toNat with
    | 0 => some (.lset (sD w) (w.extractLsb' 18 2) (sY w))
    | 1 => some (.lget (sD w) (sX w) (w.extractLsb' 12 2))
    | 2 => some (.kset (sD w) (w.extractLsb' 18 4) (sY w) (sZ w))
    | _ => none
  | 15 => some (.lnext (sD w) (w.extractLsb' 22 2) (w.extractLsb' 0 18))
  | 16 => match (sMinor w).toNat with
    | 0 => some (.rel (sD w))
    | 1 => some (.acq (sD w))
    | 2 => some (.sync (sD w))
    | 3 => some (.xrel (sD w))
    | 4 => some (.xrelDram (sD w))
    | _ => none
  | 17 => match (sMinor w).toNat with
    | 0 => some (.bar (sD w) (w.extractLsb' 16 8) (w.extractLsb' 10 6))
    | 1 => some (.arrive (sD w) (w.extractLsb' 16 8) (w.extractLsb' 10 6))
    | 2 => some (.barw (sD w) (w.extractLsb' 16 8))
    | 3 => some (.gmask (sD w) (w.extractLsb' 16 8) (w.extractLsb' 10 6))
    | _ => none
  | 18 => match (sMinor w).toNat with
    | 0 => some (.qpush (sD w) (w.extractLsb' 18 4) (sY w) (w.extractLsb' 6 3))
    | 1 => some (.qpop (sD w) (sX w) (w.extractLsb' 12 4))
    | 2 => some (.qfence (sD w) (sX w))
    | 3 => some (.twany (sD w) (sX w) (sY w))
    | 4 => some (.twall (sD w) (sY w))
    | 5 => some (.tffr (sD w) (sX w) (sY w))
    | 6 => some (.tget (sD w) (sX w))
    | 7 => some (.tclr (sD w) (sY w))
    | _ => none
  | 19 => (AccTy.ofCode (w.extractLsb' 2 2)).map fun ty => .mma (sD w) (w.extractLsb' 19 5) (w.getLsbD 18) (w.extractLsb' 13 5) (w.getLsbD 12)
    (w.extractLsb' 7 5) (w.extractLsb' 4 3) ty (w.getLsbD 1) (w.getLsbD 0)
  | 20 => some (.mmc (sD w) (w.extractLsb' 19 5) (w.getLsbD 18) (w.extractLsb' 13 5) (w.getLsbD 12)
    (w.extractLsb' 7 5) (w.extractLsb' 4 3) (w.getLsbD 1))
  | 21 => match (sMinor w).toNat with
    | 0 => some (.tld (sD w) (w.extractLsb' 18 5) (sY w) (sZ w))
    | 1 => some (.tst (sD w) (w.extractLsb' 18 5) (sY w) (sZ w))
    | 2 => some (.tmov (sD w) (w.extractLsb' 18 5) (w.extractLsb' 12 5))
    | 3 => some (.tzero (sD w) (w.extractLsb' 18 5))
    | 4 => some (.amov (sD w) (w.extractLsb' 18 5) (w.extractLsb' 12 5))
    | 5 => some (.ald (sD w) (w.extractLsb' 18 5) (sY w))
    | 6 => some (.ast (sD w) (w.extractLsb' 18 5) (sY w))
    | 7 => some (.azero (sD w) (w.extractLsb' 18 5))
    | 8 => some (.sign (sD w) (w.extractLsb' 18 3) (sY w))
    | 9 => some (.mprog (sD w) (sX w) (w.extractLsb' 12 5))
    | _ => none
  | 22 => match (sMinor w).toNat with
    | 0 => some (.exit (sD w))
    | 1 => some (.exitSucc (sD w) (sX w))
    | 2 => some (.phase (sD w) (sX w))
    | 3 => some (.gen (sD w) (sX w))
    | 4 => some (.rsys (sD w) (sX w) (w.extractLsb' 6 12))
    | 5 => some (.wsys (sD w) (sX w) (w.extractLsb' 6 12))
    | 6 => some (.kret (sD w))
    | 7 => some (.svc (sD w) (w.extractLsb' 18 4) (sY w))
    | 8 => some (.rsc (sD w) (w.extractLsb' 18 4) (sY w))
    | 9 => some (.halt (sD w))
    | _ => none
  | 30 | 31 => some (.clause (w.extractLsb' 15 12) (w.extractLsb' 11 4) (w.extractLsb' 7 4) (w.extractLsb' 4 3) (w.getLsbD 3)
    (w.extractLsb' 0 3))
  | _ => none

/-- The words of an instruction, the first at the lowest address, every reserved field zero (R51 to R54). An event has
no words. -/
def encode : Instr → List Word
  | .clause w a b p n c => [31#5 ++ w ++ a ++ b ++ p ++ BitVec.ofBool n ++ c]
  | .addB32 o => [vw o.d 1#7 o.u o.vd o.va o.vb]
  | .subB32 o => [vw o.d 2#7 o.u o.vd o.va o.vb]
  | .addB64 o => [vw o.d 3#7 o.u o.vd o.va o.vb]
  | .subB64 o => [vw o.d 4#7 o.u o.vd o.va o.vb]
  | .mulB32 o => [vw o.d 5#7 o.u o.vd o.va o.vb]
  | .mulhiI32 o => [vw o.d 6#7 o.u o.vd o.va o.vb]
  | .mulhiB32 o => [vw o.d 7#7 o.u o.vd o.va o.vb]
  | .madB32 o => [vw o.d 8#7 o.u o.vd o.va o.vb]
  | .andB32 o => [vw o.d 9#7 o.u o.vd o.va o.vb]
  | .orB32 o => [vw o.d 10#7 o.u o.vd o.va o.vb]
  | .xorB32 o => [vw o.d 11#7 o.u o.vd o.va o.vb]
  | .andnB32 o => [vw o.d 12#7 o.u o.vd o.va o.vb]
  | .shlB32 o => [vw o.d 13#7 o.u o.vd o.va o.vb]
  | .shrB32 o => [vw o.d 14#7 o.u o.vd o.va o.vb]
  | .sraB32 o => [vw o.d 15#7 o.u o.vd o.va o.vb]
  | .shlB64 o => [vw o.d 16#7 o.u o.vd o.va o.vb]
  | .shrB64 o => [vw o.d 17#7 o.u o.vd o.va o.vb]
  | .sraB64 o => [vw o.d 18#7 o.u o.vd o.va o.vb]
  | .minI32 o => [vw o.d 19#7 o.u o.vd o.va o.vb]
  | .minB32 o => [vw o.d 20#7 o.u o.vd o.va o.vb]
  | .maxI32 o => [vw o.d 21#7 o.u o.vd o.va o.vb]
  | .maxB32 o => [vw o.d 22#7 o.u o.vd o.va o.vb]
  | .cmp32 o => [vw o.d 23#7 o.u (o.cc ++ o.pd) o.va o.vb]
  | .cmp64 o => [vw o.d 24#7 o.u (o.cc ++ o.pd) o.va o.vb]
  | .bfeB32 o => [vw o.d 25#7 o.u o.vd o.va o.vb]
  | .bfeI32 o => [vw o.d 26#7 o.u o.vd o.va o.vb]
  | .bfiB32 o => [vw o.d 27#7 o.u o.vd o.va o.vb]
  | .mov o => [vw o.d 28#7 false o.vd o.va 0#7]
  | .absI32 o => [vw o.d 28#7 false o.vd o.va 1#7]
  | .popc o => [vw o.d 28#7 false o.vd o.va 2#7]
  | .clz o => [vw o.d 28#7 false o.vd o.va 3#7]
  | .brev o => [vw o.d 28#7 false o.vd o.va 4#7]
  | .lid d vd => [vw d 28#7 false vd 0#7 5#7]
  | .li d vd imm => [vw d 29#7 false vd (imm.extractLsb' 7 7) (imm.extractLsb' 0 7)]
  | .vmovr o => [vw o.d 30#7 o.u o.vd o.va o.vb]
  | .vmovw o => [vw o.d 31#7 o.u o.vd o.va o.vb]
  | .movs d vd sn => [vw d 32#7 true vd 0#7 (0#1 ++ sn)]
  | .pand d pd pa pb => [vw d 33#7 false (0#4 ++ pd) (0#4 ++ pa) (0#4 ++ pb)]
  | .por d pd pa pb => [vw d 34#7 false (0#4 ++ pd) (0#4 ++ pa) (0#4 ++ pb)]
  | .pxor d pd pa pb => [vw d 35#7 false (0#4 ++ pd) (0#4 ++ pa) (0#4 ++ pb)]
  | .pnot d pd pa => [vw d 36#7 false (0#4 ++ pd) (0#4 ++ pa) 0#7]
  | .sel p o => [vw o.d (5#4 ++ p) o.u o.vd o.va o.vb]
  | .fadd t o => [vw o.d (12#5 ++ t.code) o.u o.vd o.va o.vb]
  | .fsub t o => [vw o.d (13#5 ++ t.code) o.u o.vd o.va o.vb]
  | .fmul t o => [vw o.d (14#5 ++ t.code) o.u o.vd o.va o.vb]
  | .fma t o => [vw o.d (15#5 ++ t.code) o.u o.vd o.va o.vb]
  | .fmin t o => [vw o.d (16#5 ++ t.code) o.u o.vd o.va o.vb]
  | .fmax t o => [vw o.d (17#5 ++ t.code) o.u o.vd o.va o.vb]
  | .fminm t o => [vw o.d (18#5 ++ t.code) o.u o.vd o.va o.vb]
  | .fmaxm t o => [vw o.d (19#5 ++ t.code) o.u o.vd o.va o.vb]
  | .fcmp t o => [vw o.d (20#5 ++ t.code) o.u (o.cc ++ o.pd) o.va o.vb]
  | .frcp t o => [vw o.d (21#5 ++ t.code) false o.vd o.va 0#7]
  | .frsq t o => [vw o.d (21#5 ++ t.code) false o.vd o.va 1#7]
  | .fsqrt t o => [vw o.d (21#5 ++ t.code) false o.vd o.va 2#7]
  | .fclass t o => [vw o.d (21#5 ++ t.code) false o.vd o.va 3#7]
  | .frnd t r o => [vw o.d (21#5 ++ t.code) false o.vd o.va (r.code ++ 4#4)]
  | .fdiv t o => [vw o.d (44#6 ++ t.code) o.u o.vd o.va o.vb]
  | .fscale t o => [vw o.d (45#6 ++ t.code) o.u o.vd o.va o.vb]
  | .fdot2 t o => [vw o.d (46#6 ++ t.code) o.u o.vd o.va o.vb]
  | .ftab tid o => [vw o.d 94#7 false o.vd o.va (0#3 ++ tid)]
  | .ld ty od o => [vw o.d 96#7 o.u o.vd o.va o.vb, mx ty.code od.code 0#4 0#4 o.off]
  | .st ty od o => [vw o.d 97#7 o.u o.vd o.va o.vb, mx ty.code od.code 0#4 0#4 o.off]
  | .ldk ty od k o => [vw o.d 98#7 o.u o.vd o.va o.vb, mx ty.code od.code 0#4 k o.off]
  | .stk ty od k o => [vw o.d 99#7 o.u o.vd o.va o.vb, mx ty.code od.code 0#4 k o.off]
  | .lds ty o => [vw o.d 100#7 o.u o.vd o.va o.vb, mx ty.code 0#2 0#4 0#4 o.off]
  | .sts ty o => [vw o.d 101#7 o.u o.vd o.va o.vb, mx ty.code 0#2 0#4 0#4 o.off]
  | .pf o => [vw o.d 102#7 o.u o.vd o.va o.vb, mx 0#4 0#2 0#4 0#4 o.off]
  | .atom op ty od o => [vw o.d 103#7 o.u o.vd o.va o.vb, mx ty.code od.code op.code 0#4 o.off]
  | .atomc ty od o => [vw o.d 104#7 o.u o.vd o.va o.vb, mx ty.code od.code 0#4 0#4 o.off]
  | .pwaddr t o => [vw o.d 105#7 o.u o.vd o.va o.vb, mx t.tyCode 0#2 0#4 0#4 o.off]
  | .pwclaim o => [vw o.d 106#7 o.u o.vd o.va o.vb, mx 0#4 0#2 0#4 0#4 o.off]
  | .pwflush o => [vw o.d 107#7 o.u o.vd o.va o.vb, mx 0#4 0#2 0#4 0#4 o.off]
  | .pwnorm o => [vw o.d 108#7 o.u o.vd o.va o.vb, mx 0#4 0#2 0#4 0#4 o.off]
  | .pwraw o => [vw o.d 109#7 o.u o.vd o.va o.vb, mx 4#4 0#2 0#4 0#4 o.off]
  | .pwdrop o => [vw o.d 110#7 o.u o.vd o.va o.vb, mx 0#4 0#2 0#4 0#4 o.off]
  | .cvt src dst rm sat o => [vw o.d 112#7 o.u o.vd o.va o.vb, fx src.code dst.code rm.code sat o.vc]
  | .pk src dst rm sat o => [vw o.d 113#7 o.u o.vd o.va o.vb, fx src.code dst.code rm.code sat o.vc]
  | .upk src dst rm sat o => [vw o.d 114#7 o.u o.vd o.va o.vb, fx src.code dst.code rm.code sat o.vc]
  | .qz src dst rm sat o => [vw o.d 115#7 o.u o.vd o.va o.vb, fx src.code dst.code rm.code sat o.vc]
  | .dq src dst rm sat o => [vw o.d 116#7 o.u o.vd o.va o.vb, fx src.code dst.code rm.code sat o.vc]
  | .mxq src dst rm sat o => [vw o.d 117#7 o.u o.vd o.va o.vb, fx src.code dst.code rm.code sat o.vc]
  | .mxdq src dst rm sat o => [vw o.d 118#7 o.u o.vd o.va o.vb, fx src.code dst.code rm.code sat o.vc]
  | .vote op o => [vw o.d 120#7 o.u o.vd o.va o.vb, gxw o.msrc o.midx op.code 0#4 false]
  | .shfl op ty o => [vw o.d 121#7 o.u o.vd o.va o.vb, gxw o.msrc o.midx op.code ty.code false]
  | .red op ty o => [vw o.d 122#7 o.u o.vd o.va o.vb, gxw o.msrc o.midx op.code ty.code false]
  | .scan op ty excl o => [vw o.d 123#7 o.u o.vd o.va o.vb, gxw o.msrc o.midx op.code ty.code excl]
  | .bcast ty o => [vw o.d 124#7 o.u o.vd o.va o.vb, gxw o.msrc o.midx 0#4 ty.code false]
  | .sadd o => [sw 0#5 o.d (o.sd ++ o.sa ++ o.sb ++ 0#6)]
  | .ssub o => [sw 0#5 o.d (o.sd ++ o.sa ++ o.sb ++ 1#6)]
  | .smul o => [sw 0#5 o.d (o.sd ++ o.sa ++ o.sb ++ 2#6)]
  | .smulhiI32 o => [sw 0#5 o.d (o.sd ++ o.sa ++ o.sb ++ 3#6)]
  | .smulhiB32 o => [sw 0#5 o.d (o.sd ++ o.sa ++ o.sb ++ 4#6)]
  | .sand o => [sw 0#5 o.d (o.sd ++ o.sa ++ o.sb ++ 5#6)]
  | .sor o => [sw 0#5 o.d (o.sd ++ o.sa ++ o.sb ++ 6#6)]
  | .sxor o => [sw 0#5 o.d (o.sd ++ o.sa ++ o.sb ++ 7#6)]
  | .sshl o => [sw 0#5 o.d (o.sd ++ o.sa ++ o.sb ++ 8#6)]
  | .sshr o => [sw 0#5 o.d (o.sd ++ o.sa ++ o.sb ++ 9#6)]
  | .ssra o => [sw 0#5 o.d (o.sd ++ o.sa ++ o.sb ++ 10#6)]
  | .sminI32 o => [sw 0#5 o.d (o.sd ++ o.sa ++ o.sb ++ 11#6)]
  | .sminB32 o => [sw 0#5 o.d (o.sd ++ o.sa ++ o.sb ++ 12#6)]
  | .smaxI32 o => [sw 0#5 o.d (o.sd ++ o.sa ++ o.sb ++ 13#6)]
  | .smaxB32 o => [sw 0#5 o.d (o.sd ++ o.sa ++ o.sb ++ 14#6)]
  | .smov d sd sa => [sw 0#5 d (sd ++ sa ++ 0#6 ++ 15#6)]
  | .spopc d sd sa => [sw 0#5 d (sd ++ sa ++ 0#6 ++ 16#6)]
  | .sclz d sd sa => [sw 0#5 d (sd ++ sa ++ 0#6 ++ 17#6)]
  | .saddB64 o => [sw 0#5 o.d (o.sd ++ o.sa ++ o.sb ++ 18#6)]
  | .ssubB64 o => [sw 0#5 o.d (o.sd ++ o.sa ++ o.sb ++ 19#6)]
  | .ssel o => [sw 0#5 o.d (o.sd ++ o.sa ++ o.sb ++ 20#6)]
  | .scmp cc o => [sw 0#5 o.d (o.sd ++ o.sa ++ o.sb ++ 2#2 ++ cc)]
  | .sli d sd imm => [sw 1#5 d (sd ++ imm)]
  | .slih d sd imm => [sw 2#5 d (sd ++ 0#2 ++ imm)]
  | .sbfe d sd sa pos wid sg => [sw 3#5 d (sd ++ sa ++ pos ++ wid ++ BitVec.ofBool sg ++ 0#1)]
  | .sbfi d sd sa pos wid => [sw 3#5 d (sd ++ sa ++ pos ++ wid ++ 1#2)]
  | .saddImm d sd sa imm => [sw 4#5 d (sd ++ sa ++ imm)]
  | .bra d off => [sw 5#5 d (0#6 ++ off)]
  | .brz d sn off => [sw 6#5 d (sn ++ off)]
  | .brnz d sn off => [sw 7#5 d (sn ++ off)]
  | .call d off => [sw 8#5 d (0#6 ++ off)]
  | .callv d v => [sw 9#5 d (v ++ 0#17)]
  | .split d j p off => [sw 10#5 d (j ++ p ++ off)]
  | .nop d => [sx 11#5 d (0#6) (0#6) (0#6) 0#6]
  | .ret d => [sx 11#5 d (0#6) (0#6) (0#6) 1#6]
  | .calli d sn => [sx 11#5 d (sn) (0#6) (0#6) 2#6]
  | .join d j => [sx 11#5 d (0#2 ++ j) (0#6) (0#6) 3#6]
  | .jwait d j => [sx 11#5 d (0#2 ++ j) (0#6) (0#6) 4#6]
  | .jset d j sn => [sx 11#5 d (0#2 ++ j) (sn) (0#6) 5#6]
  | .jget d sn j => [sx 11#5 d (sn) (0#2 ++ j) (0#6) 6#6]
  | .yield d => [sx 11#5 d (0#6) (0#6) (0#6) 7#6]
  | .brk d code => [sx 11#5 d (0#6) (code.extractLsb' 6 6) (code.extractLsb' 0 6) 8#6]
  | .trap d code => [sx 11#5 d (0#6) (code.extractLsb' 6 6) (code.extractLsb' 0 6) 9#6]
  | .sld d x y z acq w => [sw 12#5 d (x ++ y ++ z ++ 0#4 ++ BitVec.ofBool acq ++ BitVec.ofBool w)]
  | .sst d x y z rl w => [sw 12#5 d (x ++ y ++ z ++ 1#4 ++ BitVec.ofBool rl ++ BitVec.ofBool w)]
  | .satom op od w o => [sw 13#5 o.d (o.sd ++ o.sa ++ o.sb ++ op.code ++ od.code ++ BitVec.ofBool w)]
  | .lset d n sn => [sx 14#5 d (0#4 ++ n) (sn) (0#6) 0#6]
  | .lget d sn n => [sx 14#5 d (sn) (0#4 ++ n) (0#6) 1#6]
  | .kset d k sb sc => [sx 14#5 d (0#2 ++ k) (sb) (sc) 2#6]
  | .lnext d l off => [sw 15#5 d (l ++ 0#4 ++ off)]
  | .rel d => [sx 16#5 d (0#6) (0#6) (0#6) 0#6]
  | .acq d => [sx 16#5 d (0#6) (0#6) (0#6) 1#6]
  | .sync d => [sx 16#5 d (0#6) (0#6) (0#6) 2#6]
  | .xrel d => [sx 16#5 d (0#6) (0#6) (0#6) 3#6]
  | .xrelDram d => [sx 16#5 d (0#6) (0#6) (0#6) 4#6]
  | .bar d g sn => [sw 17#5 d (g ++ sn ++ 0#4 ++ 0#6)]
  | .arrive d g sn => [sw 17#5 d (g ++ sn ++ 0#4 ++ 1#6)]
  | .barw d g => [sw 17#5 d (g ++ 0#6 ++ 0#4 ++ 2#6)]
  | .gmask d g sd => [sw 17#5 d (g ++ sd ++ 0#4 ++ 3#6)]
  | .qpush d q sn n => [sx 18#5 d (0#2 ++ q) (sn) (0#3 ++ n) 0#6]
  | .qpop d sn q => [sx 18#5 d (sn) (0#2 ++ q) (0#6) 1#6]
  | .qfence d sn => [sx 18#5 d (sn) (0#6) (0#6) 2#6]
  | .twany d sn m => [sx 18#5 d (sn) (m) (0#6) 3#6]
  | .twall d m => [sx 18#5 d (0#6) (m) (0#6) 4#6]
  | .tffr d sn m => [sx 18#5 d (sn) (m) (0#6) 5#6]
  | .tget d sn => [sx 18#5 d (sn) (0#6) (0#6) 6#6]
  | .tclr d m => [sx 18#5 d (0#6) (m) (0#6) 7#6]
  | .mma d acc am a bm b g typ ax sp => [sw 19#5 d (acc ++ BitVec.ofBool am ++ a ++ BitVec.ofBool bm ++ b ++ g ++ typ.code ++ BitVec.ofBool ax ++ BitVec.ofBool sp)]
  | .mmc d acc am a bm b g cj => [sw 20#5 d (acc ++ BitVec.ofBool am ++ a ++ BitVec.ofBool bm ++ b ++ g ++ 1#2 ++ BitVec.ofBool cj ++ 0#1)]
  | .tld d t y z => [sx 21#5 d (0#1 ++ t) (y) (z) 0#6]
  | .tst d t y z => [sx 21#5 d (0#1 ++ t) (y) (z) 1#6]
  | .tmov d t t2 => [sx 21#5 d (0#1 ++ t) (0#1 ++ t2) (0#6) 2#6]
  | .tzero d t => [sx 21#5 d (0#1 ++ t) (0#6) (0#6) 3#6]
  | .amov d a a2 => [sx 21#5 d (0#1 ++ a) (0#1 ++ a2) (0#6) 4#6]
  | .ald d a y => [sx 21#5 d (0#1 ++ a) (y) (0#6) 5#6]
  | .ast d a y => [sx 21#5 d (0#1 ++ a) (y) (0#6) 6#6]
  | .azero d a => [sx 21#5 d (0#1 ++ a) (0#6) (0#6) 7#6]
  | .sign d g sn => [sx 21#5 d (0#3 ++ g) (sn) (0#6) 8#6]
  | .mprog d sn a => [sx 21#5 d (sn) (0#1 ++ a) (0#6) 9#6]
  | .exit d => [sx 22#5 d (0#6) (0#6) (0#6) 0#6]
  | .exitSucc d sn => [sx 22#5 d (sn) (0#6) (0#6) 1#6]
  | .phase d sn => [sx 22#5 d (sn) (0#6) (0#6) 2#6]
  | .gen d sn => [sx 22#5 d (sn) (0#6) (0#6) 3#6]
  | .rsys d sn n => [sx 22#5 d (sn) (n.extractLsb' 6 6) (n.extractLsb' 0 6) 4#6]
  | .wsys d sn n => [sx 22#5 d (sn) (n.extractLsb' 6 6) (n.extractLsb' 0 6) 5#6]
  | .kret d => [sx 22#5 d (0#6) (0#6) (0#6) 6#6]
  | .svc d c y => [sx 22#5 d (0#2 ++ c) (y) (0#6) 7#6]
  | .rsc d c y => [sx 22#5 d (0#2 ++ c) (y) (0#6) 8#6]
  | .halt d => [sx 22#5 d (0#6) (0#6) (0#6) 9#6]
  | .instructionLineFill _ _ => []
  | .pageTableWalk _ _ => []
  | .loadCompletion _ _ => []
  | .atomicCompletion _ _ => []
  | .sequencerCompletion _ _ => []
  | .ftabCompletion _ _ => []
  | .releaseCompletion _ _ => []
  | .acquireCompletion _ _ => []
  | .faultRecordPost _ => []
  | .registration _ => []
  | .recall _ => []
  | .domeRequest _ => []
  | .domeFill _ _ => []
  | .replicaInvalidate _ => []
  | .domeUncorrectableError _ => []
  | .l1Eviction _ _ => []
  | .plynwickRecall _ _ => []
  | .eyeMarginMeasure _ _ _ _ => []
  | .laneRepair _ _ _ => []
  | .counterDecay _ => []
  | .engineCommandStart _ _ _ => []
  | .copy _ _ _ => []
  | .copy2d _ _ _ => []
  | .gather _ _ _ => []
  | .scatter _ _ _ => []
  | .multicast _ _ _ => []
  | .collectiveReduce _ _ _ => []
  | .ingestBind _ _ _ => []
  | .engineCommandComplete _ _ _ => []
  | .engineFault _ _ _ => []
  | .tagWaitComplete _ _ => []
  | .qpopComplete _ _ => []
  | .ingestFrame _ => []
  | .gapRecordTimeout _ => []
  | .ingestConsumerReread _ => []
  | .pfcPauseRefresh _ => []
  | .barrierReleaseStep _ _ => []
  | .matrixOperationIssue _ _ _ => []
  | .matrixKStep _ _ _ => []
  | .matrixOperationComplete _ _ => []
  | .matrixTransferComplete _ _ => []
  | .preemptionRequest _ _ _ => []
  | .preemptionEntry _ _ => []
  | .variantSwitch _ _ => []
  | .phaseAdmissionTimeout _ _ => []
  | .queuedAdmissionTimeout _ => []
  | .taskRetire _ _ => []
  | .successorStart _ _ => []
  | .place _ => []
  | .generationSweepEnd _ => []
  | .placementAttempt _ => []
  | .queueHeadAgeExpiry _ => []
  | .controlInterval => []
  | .stealRequest _ => []
  | .timeSliceExpiry _ _ => []
  | .walkerTakeEntry _ => []
  | .kernelNode _ => []
  | .copyNode _ => []
  | .condNode _ => []
  | .whileNode _ => []
  | .waitqNode _ => []
  | .waitqPoll _ => []
  | .waitqTimeout _ => []
  | .signalNode _ => []
  | .endNode _ => []
  | .rdmaWrite _ _ _ => []
  | .rdmaRead _ _ _ => []
  | .remoteAccessTimeout _ _ => []
  | .bufferTableWrite _ _ _ => []
  | .wqErrClear _ _ => []
  | .registerWrite _ _ _ => []
  | .tlbinv => []
  | .bufinv => []
  | .recallCommand => []
  | .faultans => []
  | .load => []
  | .unload => []
  | .preempt => []
  | .restore => []
  | .killpd => []
  | .identify _ => []
  | .attest _ => []
  | .keyload _ => []
  | .keydestroy _ => []
  | .powertol _ => []
  | .clockplan _ => []
  | .evcfg _ => []
  | .evread _ => []
  | .resync _ => []
  | .settime _ => []
  | .admin _ _ => []
  | .streams _ _ _ => []
  | .debugBreakpoint _ _ _ _ => []
  | .debugStep _ _ _ _ => []
  | .debugReadTable _ _ => []
  | .debugStorageRead _ _ _ _ => []
  | .debugStorageWrite _ _ _ _ _ _ => []
  | .channel _ _ => []
  | .forensic _ => []
  | .reset _ => []
  | .idleEntry => []
  | .wake => []
  | .thermalLimit _ => []
  | .thermalEmergency _ => []
  | .hardTrip _ => []
  | .thermalLimitLift _ => []
  | .watchtowerAlarm _ => []
  | .powerUp => []
  | .illegalEncoding _ => []
  | .debugResume _ _ _ => []
  | .plynwickOperationCompletion _ _ => []
  | .transportConnection _ _ _ _ => []
  | .remoteAtomic _ _ _ => []
  | .malformedNode _ => []
  | .hostCommandUnknownOpcode => []
  | .unknownCommand _ _ => []

/-- Why a word is no instruction (R63 step 1). -/
inductive Reject where
  /-- Unassigned opcode, major or minor, or a code that no assigned value has. -/
  | unassigned
  /-- A non-zero reserved field. -/
  | reservedField
  /-- An operand form, register or combination that the encoding excludes. -/
  | illFormed
  deriving DecidableEq, Repr

/-- A V-set word with opcode 0x60 to 0x7F has an extension word (R50). -/
def isLong (w : Word) : Bool := !w.getLsbD 31 && w.getLsbD 28 && w.getLsbD 27

/-- A word fetched as a header is one when bits [31:27] are 0b11111 (R50). -/
def isHeader (w : Word) : Bool := w.extractLsb' 27 5 == 31#5

/-- The decoder: `w` is the word at the program counter and `x` the word after it, read for a long form only. -/
def decode (w x : Word) : Except Reject Instr :=
  match if w.getLsbD 31 then rawS w else rawV w x with
  | none => .error .unassigned
  | some i =>
    if !i.wf then .error .illFormed
    else if encode i = (if isLong w then [w, x] else [w]) then .ok i
    else .error .reservedField

/-- The decoder at a word of the opcode table: bits 31 to 0 are the first word, bits 63 to 32 the extension word. -/
def decodeTableWord (_nbits w : Nat) : Option Instr :=
  match decode (BitVec.ofNat 32 w) (BitVec.ofNat 32 (w / 2 ^ 32)) with
  | .ok i => some i
  | .error _ => none

end Sys2Proof
end

