-- ==== Sys2Proof/Config.lean ====
section
/-! DEFINITION. What a module's making fixes and the spec leaves to it, and the values no rule of the spec gives: opaque
constants, so that nothing can be proved of their values. -/

namespace Sys2Proof.Config

/-- Firmware version and serial number of the identity record (R373; log entry 5). -/
opaque firmware : BitVec 32
opaque serial : BitVec 128

/-- The boot nonce drawn at the n-th power-up (R373, R387; log entry 5). -/
opaque bootNonce : Nat → BitVec 64

/-- What a 64-byte half line holds when it was written under one key (none for plaintext) and is read under another
(R365; log entry 11): written key, key of the reader, physical address of the half, the data. -/
opaque otherKey : Option (BitVec 512) → Option (BitVec 512) → Nat → BitVec 512 → BitVec 512

/-- Whether every firmware image verifies at the n-th power-up (R387; log entry 5). -/
opaque firmwareGood : Nat → Bool

/-- Whether a signature verifies under a public key over a frame's bytes (R378; log entry 5). -/
opaque verifies : List Byte → List Byte → List Byte → Bool

/-- A signature under the module's identity key (R378, R379; log entry 5). -/
opaque signature : List Byte → List Byte

/-- What ATTEST reports of the images and of the identity key (R379; log entry 5). -/
opaque imageDigests : List Byte
opaque certificates : List Byte

/-- The public key of the n-th X448 key pair drawn (R379; log entry 5). -/
opaque x448Public : Nat → List Byte

/-- The key that a wrapped key yields under the n-th X448 key, a requester's public key and a boot nonce, if it unwraps
(R380; log entry 5). -/
opaque unwrap : Nat → List Byte → BitVec 64 → List Byte → Option (BitVec 512)

/-- Free values by the counter `fresh` (log entry 1). -/
opaque freeBits : Nat → BitVec 64

end Sys2Proof.Config
end

