-- ==== Sys2Proof/Machine/Assoc.lean ====
section
/-! DEFINITION. Finite maps as sorted association lists: keys strictly rising, so that equal maps are equal data. -/

namespace Sys2Proof.Machine

/-- A finite map from numbers, its keys strictly rising. -/
abbrev Map (α : Type) := List (Nat × α)

variable {α : Type}

def mapGet : Map α → Nat → Option α
  | [], _ => none
  | (k, v) :: m, i => if i = k then some v else mapGet m i

/-- The value at a key, or what an absent key stands for. -/
def mapGetD (m : Map α) (i : Nat) (d : α) : α := (mapGet m i).getD d

def mapSet : Map α → Nat → α → Map α
  | [], i, x => [(i, x)]
  | (k, v) :: m, i, x =>
    if i = k then (k, x) :: m else if i < k then (i, x) :: (k, v) :: m else (k, v) :: mapSet m i x

def mapDel : Map α → Nat → Map α
  | [], _ => []
  | (k, v) :: m, i => if i = k then mapDel m i else (k, v) :: mapDel m i

/-- Replace the value at a key that is present. -/
def mapUpd (m : Map α) (i : Nat) (f : α → α) : Map α :=
  match mapGet m i with
  | none => m
  | some v => mapSet m i (f v)

def mapKeys (m : Map α) : List Nat := m.map (·.1)

/-- Every value replaced, keys kept. -/
def mapAll (m : Map α) (f : Nat → α → α) : Map α := m.map fun p => (p.1, f p.1 p.2)

/-- The entries whose key and value pass a test. -/
def mapFilter (m : Map α) (f : Nat → α → Bool) : Map α := m.filter fun p => f p.1 p.2

/-- The lowest key from `n` up, below `n + fuel`, that a test accepts. -/
def firstFrom (f : Nat → Bool) : Nat → Nat → Option Nat
  | 0, _ => none
  | fuel + 1, n => if f n then some n else firstFrom f fuel (n + 1)

/-- The lowest number below `bound` that is no key. -/
def firstFree (m : Map α) (bound : Nat) : Option Nat :=
  firstFrom (fun i => (mapGet m i).isNone) bound 0

end Sys2Proof.Machine
end

