-- ==== Sys2Proof/Machine/Bits.lean ====
section
/-! DEFINITION. Bit fields, byte order, lane masks and sign extension (R4, R8). -/

namespace Sys2Proof.Machine

/-- Bits [hi:lo] of a number. -/
def fieldN (x hi lo : Nat) : Nat := x / 2 ^ lo % 2 ^ (hi + 1 - lo)

def bitN (x i : Nat) : Bool := x.testBit i

/-- A number with bits [hi:lo] replaced. -/
def setFieldN (x hi lo v : Nat) : Nat :=
  x % 2 ^ lo + v % 2 ^ (hi + 1 - lo) * 2 ^ lo + x / 2 ^ (hi + 1) * 2 ^ (hi + 1)

/-- The bytes of a number, lowest first (R4). -/
def bytesOf : Nat → Nat → List Byte
  | 0, _ => []
  | n + 1, x => BitVec.ofNat 8 x :: bytesOf n (x / 256)

/-- The number whose bytes, lowest first, are given (R4). -/
def ofBytes : List Byte → Nat
  | [] => 0
  | b :: bs => b.toNat + 256 * ofBytes bs

/-- The two words of a 64-bit value, low word first (R105). -/
def lo32 (x : BitVec 64) : Word := x.extractLsb' 0 32
def hi32 (x : BitVec 64) : Word := x.extractLsb' 32 32
def pair64 (lo hi : Word) : BitVec 64 := hi ++ lo

/-- The lanes of a mask, ascending. -/
def lanesOf (m : Word) : List Nat := (List.range 32).filter fun l => m.getLsbD l

/-- The mask of one lane. -/
def laneBit (l : Nat) : Word := BitVec.ofNat 32 (2 ^ l)

/-- The mask of a list of lanes. -/
def maskOf (l : List Nat) : Word := l.foldl (fun m i => m ||| laneBit i) 0#32

def lowestLane (m : Word) : Option Nat := (lanesOf m).head?

/-- All 32 lanes. -/
def allLanes : Word := 0xFFFFFFFF#32

def popCount {n : Nat} (x : BitVec n) : Nat := ((List.range n).filter fun i => x.getLsbD i).length

/-- Leading zero bits. -/
def clzN {n : Nat} (x : BitVec n) : Nat := if x.toNat = 0 then n else n - 1 - x.toNat.log2

/-- Bit reversal. -/
def bitRev (x : Word) : Word := (List.range 32).foldl (fun a i => if x.getLsbD i then a ||| laneBit (31 - i) else a) 0#32

/-- A 57-bit address as held in 64-bit registers (R21). -/
def canonical (a : BitVec 64) : Bool := (a.extractLsb' 0 57).signExtend 64 == a

/-- Shifts under R95: counts at or above the width give 0, or copies of the sign. -/
def shlR {n : Nat} (a : BitVec n) (k : Nat) : BitVec n := if n ≤ k then 0 else a <<< k
def shrR {n : Nat} (a : BitVec n) (k : Nat) : BitVec n := if n ≤ k then 0 else a >>> k
def sraR {n : Nat} (a : BitVec n) (k : Nat) : BitVec n := a.sshiftRight (if n ≤ k then n else k)

/-- Replace list element `i`. -/
def listSet {α : Type} (l : List α) (i : Nat) (x : α) : List α := l.set i x

/-- `n` bytes from place `i` of a list. -/
def sliceN {α : Type} (l : List α) (i n : Nat) : List α := (l.drop i).take n

/-- A little-endian number read from `n` bytes at place `i`. -/
def numAt (l : List Byte) (i n : Nat) : Nat := ofBytes (sliceN l i n)

/-- `n` zero bytes. -/
def zeroBytes (n : Nat) : List Byte := List.replicate n 0#8

/-- A list of bytes padded with zeros to a multiple of `k`. -/
def padTo (k : Nat) (l : List Byte) : List Byte := l ++ zeroBytes ((k - l.length % k) % k)

/-- Bytes `i` to `i + l.length - 1` of `x` replaced. -/
def putBytes {n : Nat} (x : BitVec n) (i : Nat) (l : List Byte) : BitVec n :=
  let v := x.toNat
  BitVec.ofNat n (v % 256 ^ i + ofBytes l * 256 ^ i + v / 256 ^ (i + l.length) * 256 ^ (i + l.length))

/-- `k` bytes of `x` from byte `i`. -/
def getBytes {n : Nat} (x : BitVec n) (i k : Nat) : List Byte := bytesOf k (x.toNat / 256 ^ i)

end Sys2Proof.Machine
end

