-- ==== Sys2Proof/Machine/Flags.lean ====
section
/-! DEFINITION. The sticky exception flags (R111) and the condition codes of comparisons (R52, R99). -/

namespace Sys2Proof.Machine

/-- The five sticky flags of `sys.fflags`: NX, UF, OF, DZ, NV in bits 4 to 0 (R111). -/
abbrev Fl := BitVec 5

def flNone : Fl := 0#5
def flNV : Fl := 1#5
def flDZ : Fl := 2#5
def flOF : Fl := 4#5
def flUF : Fl := 8#5
def flNX : Fl := 16#5

/-- A flag raised on a condition. -/
def flIf (b : Bool) (f : Fl) : Fl := if b then f else flNone

/-- The condition codes of `cmp` and `scmp`: eq, ne, signed lt le gt ge, unsigned lt le gt ge (R52). -/
def compareCC {n : Nat} (cc : BitVec 4) (a b : BitVec n) : Bool :=
  match cc.toNat with
  | 0 => a == b
  | 1 => a != b
  | 2 => a.slt b
  | 3 => a.sle b
  | 4 => b.slt a
  | 5 => b.sle a
  | 6 => a.ult b
  | 7 => a.ule b
  | 8 => b.ult a
  | 9 => b.ule a
  | _ => false

end Sys2Proof.Machine
end

