-- ==== Sys2Proof/Machine/State.lean ====
section
/-! DEFINITION. The state of the module: every piece of state the spec names, as plain data, and the machine right
after reset. A map that has no entry at a key stands for that piece's value at reset or at placement. -/

namespace Sys2Proof.Machine

/-! ## Tagged storage of a core (R299) -/

/-- A granule of one value with its generation tag. -/
structure Tagged (α : Type) where
  gen : BitVec 16
  val : α
  deriving DecidableEq, Repr

/-- A scratchpad granule or a tile row: 64 bytes with generation and format tags (R133, R299). -/
structure Row where
  gen : BitVec 16
  fmt : BitVec 4
  data : BitVec 512
  deriving DecidableEq, Repr

/-- Where a register of a band lives: a tagged granule of the core, the band's untagged keep bank (R304), or nowhere
(p0, whose writes are ignored, R96). -/
inductive Loc where
  | vrf (key : Nat)
  | srf (key : Nat)
  | prf (key : Nat)
  | keepV (key : Nat)
  | keepS (key : Nat)
  | keepP (key : Nat)
  | nowhere
  deriving DecidableEq, Repr

/-- A result that is not visible yet (R58, R111): the cycle it becomes so, its writes under a generation, its flags. -/
structure Pend where
  due : Nat
  gen : BitVec 16
  writes : List (Loc × Word)
  fl : Fl
  deriving DecidableEq, Repr

/-! ## Threads and sub-bands (R69 to R76) -/

/-- Hold of R69. -/
inductive Hold where
  | none | join | vcall
  deriving DecidableEq, Repr

/-- Why a deferred lane may not be resumed yet, or only after the others (R71, R76, R88). -/
inductive Mark where
  | none | held | parked | yielded
  deriving DecidableEq, Repr

structure Thread where
  exited : Bool
  parked : Bool
  pc : BitVec 64
  base : BitVec 64
  /-- Entries at depths 1 to 8; an absent one is 0. -/
  stack : Map (BitVec 64)
  depth : Nat
  hold : Hold
  mark : Mark
  /-- Cycle of the thread's last issue since its placement or restore (R57). -/
  last : Option Nat
  deriving DecidableEq, Repr

/-- The clause a sub-band is in (R55): its header's fields, the instructions left, and whether its wait has passed. -/
structure Clause where
  wait : BitVec 12
  seta : BitVec 4
  setb : BitVec 4
  pred : BitVec 3
  neg : Bool
  left : Nat
  waited : Bool
  /-- Part of a line it lies in was marked stale since its header was fetched (R68). -/
  old : Bool
  deriving DecidableEq, Repr

/-! ## Translation (R149 to R153) -/

/-- What a page gives an access: the attributes of its leaf entry and the access's byte offset in the buffer. -/
structure Trans where
  mty : Nat
  w : Bool
  x : Bool
  fmt : Nat
  pwd : Nat
  pwe : Bool
  pwr : Nat
  module : Nat
  buf : Nat
  off : Nat
  /-- Format base of the region (R132). -/
  fbase : BitVec 64
  deriving DecidableEq, Repr

/-- A TLB entry: protection domain, page address and size in bits, and the page's translation at its first byte. -/
structure TlbEntry where
  pd : Nat
  va : BitVec 64
  bits : Nat
  t : Trans
  deriving DecidableEq, Repr

/-- A fault record (R156). -/
structure FaultRec where
  addr : BitVec 64
  lanes : Word
  core : Nat
  slot : Nat
  entry : Nat
  gen : BitVec 16
  cause : Nat
  access : Nat
  pd : Nat
  pc : BitVec 64
  /-- Launch, task number and band index of the parked lanes (log entry 16). -/
  who : Nat × Nat × Nat
  deriving DecidableEq, Repr

/-! ## Memory operations as issued -/

/-- Plynwick block actions (R186, R187). -/
inductive PwOp where
  | claim | flush | norm | raw | drop
  deriving DecidableEq, Repr

/-- What a memory instruction does once its lanes are translated. -/
inductive MKind where
  | ld (ty : MTy) (od : Ord)
  | st (ty : MTy) (od : Ord)
  | atom (op : AOp) (ty : MTy) (od : Ord)
  | atomc (ty : MTy) (od : Ord)
  | sld (wide acq : Bool)
  | sst (wide rl : Bool)
  | satom (op : SAOp) (wide : Bool) (od : Ord)
  | pf
  | pw (op : PwOp)
  deriving DecidableEq, Repr

/-- One lane's access: address, operands read at issue, destination, and, once known, its translation, the value
sampled for it, the machine-check detail it met (0 for none) and the flags it raises. `t2` is the scale byte of an mxfp8 lane (R161). -/
structure LAcc where
  lane : Nat
  va : BitVec 64
  data : BitVec 64
  cmp : BitVec 64
  d0 : Loc
  d1 : Loc
  t : Option Trans
  t2 : Option Trans
  val : Option (BitVec 64)
  err : Nat
  fl : Fl
  deriving DecidableEq, Repr

/-- A memory instruction captured at issue (R162, R252, R165, R255), with its completion flag and rounding mode. -/
structure MemOp where
  kind : MKind
  acc : List LAcc
  /-- Lanes for which it counts: the Active lanes, the Present lanes of a uniform access (R233). -/
  lanes : Word
  pc : BitVec 64
  flag : Option Nat
  rm : BitVec 2
  deriving DecidableEq, Repr

/-- What holds a sub-band (STATE of R70). -/
inductive Wait where
  /-- STATE 0, or 1 by a clause wait, a distance or the uniform pipe. -/
  | ready
  /-- The line of the next word is missing (R67). -/
  | fetch
  /-- A hold that ends when another part of the core moves. -/
  | stalled
  /-- TLB walks of an issued memory instruction (R152). -/
  | translate (op : MemOp)
  /-- TLB walks for an instruction that issues again after them: addresses by lane (32 for every lane of the sub-band), and
  the access code. -/
  | walk (vas : List (Nat × BitVec 64)) (access : Nat)
  /-- Arrived at a cross-lane operation (R189). -/
  | member
  /-- Signed a matrix operation on g (R280). -/
  | signer (g : Nat)
  /-- Waiting at `bar` for the phase it arrived in to complete, and at `barw` (R204). -/
  | bar (gid phase : Nat)
  | barw (gid : Nat)
  /-- Held before a second arrival at a barrier in one phase (R203). -/
  | again (gid : Nat)
  /-- Arrived at a phase end (R296). -/
  | phase
  /-- An operation of the core that the sub-band waits for. -/
  | op (id : Nat)
  /-- Blocked in `jwait` (R86). -/
  | jwait (j : Nat)
  /-- STATE 4: parked until every record of its lanes is resumed (R156). -/
  | parked
  deriving DecidableEq, Repr

/-- A sub-band entry (R70); entries 256 + slot are the keep entries (R305). -/
structure Entry where
  slot : Nat
  frozen : Bool
  lanes : Word
  defer : Word
  wait : Wait
  age : BitVec 16
  ctx : Option Clause
  /-- The next instruction issues with its breakpoint suppressed (R92). -/
  skipBp : Bool
  deriving DecidableEq, Repr

/-! ## Bands -/

/-- A coefficient register (R147). -/
structure KReg where
  base : BitVec 57
  s0 : Word
  s1 : Word
  s2 : Word
  s3 : Word
  deriving DecidableEq, Repr

/-- The open cross-lane operation of a band (R189): the words, the mask, the generation-checked operands of the lanes
that have arrived, and which of them were Active. -/
structure XOp where
  word : Word
  ext : Word
  mask : Word
  pc : BitVec 64
  arrived : Word
  active : Word
  vals : List (Nat × BitVec 64)
  idx : List (Nat × Word)
  deriving DecidableEq, Repr

/-- A band's state at a barrier (R203, R206, R316): the participant word and the phase of its last arrival, and whether
it has arrived since its placement. -/
structure BarState where
  part : Word
  last : Nat
  ever : Bool
  deriving DecidableEq, Repr

structure Band where
  task : Nat
  index : Nat
  /-- Granules of eight registers of the pipe's vector file, in register order (R16). -/
  vgrans : List Nat
  threads : Map Thread
  /-- Counts of f0 to f11 (R55). -/
  flags : Map Nat
  j : Map Word
  arr : Map Word
  /-- Lanes of the last arrival at each j: the word after their join (R75). -/
  arrPc : Map (BitVec 64)
  lc : Map Word
  li : Map Word
  k : Map KReg
  /-- `sys.fround` RM (R110). -/
  rm : BitVec 2
  fflags : Fl
  mshape : Word
  kcause : Word
  kpc : BitVec 64
  klanes : Word
  kaddr : BitVec 64
  /-- `sys.kpc` was written by the handler since entry (R307). -/
  kpcSet : Bool
  /-- The entry was by a header check at a mid-clause start (R56, R307). -/
  kmid : Bool
  /-- The sub-band entry whose resumption R307 describes: that of a trap, none after a request. -/
  ktrap : Option Nat
  keep : Bool
  /-- Class 6 restored since the entry with code 3 (R307). -/
  restored : Bool
  /-- In keep mode, the threads' control state as frozen at the entry (R305); `threads` is then the handler's. -/
  frozen : Map Thread
  keepV : Map Word
  keepS : Map Word
  keepP : Map Bool
  halted : Bool
  xop : Option XOp
  bars : Map BarState
  /-- The holder of the turn in deterministic mode, by its lowest lane (R73). -/
  turn : Option Nat
  pend : List Pend
  nextSlot : Nat
  lastSlot : Nat
  /-- Machine-check details due at the next release of the band's threads (R361, R249). -/
  relFail : List Nat
  /-- A request for pre-emption that the band has still to take (R305, R308). -/
  pre : Bool
  /-- A step the debugger asked for (R93): the entry, and how many instructions. -/
  stepping : List Nat
  deriving DecidableEq, Repr

/-! ## Operations in flight -/

/-- Which release (R244, R250). -/
inductive RelKind where
  | plain | xrel | dram
  deriving DecidableEq, Repr

/-- What happens when a release completes. -/
inductive After where
  /-- Only the release itself: the lanes of an exit. -/
  | none
  /-- The fence's sub-band goes on. -/
  | fence
  /-- `sync`: the acquire follows. -/
  | sync
  /-- The store or atomic itself is performed. -/
  | access (op : MemOp)
  /-- The arrival of the band at a barrier (R204): group (256 local, 257 local in keep mode), participant word, the open
  phase at issue, whether the sub-band waits. -/
  | arrive (gid : Nat) (part : Word) (phase : Nat) (wait : Bool)
  /-- The pushed command becomes startable (R215): the queue and the command's number. -/
  | push (queue num : Nat)
  deriving DecidableEq, Repr

/-- A tile or accumulator transfer (R289, R291). -/
inductive XferOp where
  | tld | tst | ald | ast
  deriving DecidableEq, Repr

/-- An operand of a matrix operation, captured at issue of the signers (R268, R269). -/
inductive MatSrc where
  | tile (t : Nat)
  | map (base pitch : Word)
  deriving DecidableEq, Repr

structure MatOp where
  complex : Bool
  acc : Nat
  a : MatSrc
  b : MatSrc
  ty : AccTy
  ax : Bool
  sp : Bool
  conj : Bool
  mshape : Word
  deriving DecidableEq, Repr

/-- Element classes of R272. -/
inductive MatCls where
  | f16 | bf16 | f8 | f4 | i8 | i4 | f64 | ci8 | ci4
  deriving DecidableEq, Repr

/-- A matrix operation that has issued: its g register, class, slices of A and B per step (R268), the signers' lanes by
band index and the bands that signed in keep mode, the next step and the number of steps, the accumulator rows so far,
its flags, and whether the signers are released. -/
structure MatRun where
  g : Nat
  op : MatOp
  cls : MatCls
  sa : Nat
  sb : Nat
  signed : Map Word
  keeps : BitVec 16
  step : Nat
  last : Nat
  rows : List (BitVec 2048)
  rows2 : List (BitVec 2048)
  fl : Fl
  sat : Bool
  released : Bool
  deriving DecidableEq, Repr

inductive FKind where
  /-- Loads, performed at their completion. -/
  | load (op : MemOp)
  /-- Atomics after their release, performed and waiting to return. -/
  | atom (op : MemOp)
  /-- `lds`: lane, byte address, destination. -/
  | lds (ty : MTy) (acc : List LAcc)
  /-- `fdiv`, `fsqrt` (`seq`) and `ftab`: results computed at issue, written at completion. -/
  | result (seq : Bool) (pipe : Nat) (writes : List (Loc × Word)) (fl : Fl)
  | release (k : RelKind) (after : After)
  /-- `acq`, and the second half of `sync`. -/
  | acquire
  /-- `twany` and `twall` (R220): `ready` is the result once the condition has held. -/
  | tagWait (all : Bool) (mask : BitVec 64) (dest : Loc) (ready : Option Word)
  /-- A pending `qpop` (R219): queue, destination, and where it stands: its address and clause base (R305). -/
  | qpop (queue : Nat) (dest : Loc) (pc base : BitVec 64)
  /-- A transfer whose rows have moved: its tile or accumulator, the task's scratchpad granules it uses, and the machine
  check it met. -/
  | xfer (op : XferOp) (reg : Nat) (sp : List Nat) (err : Nat)
  /-- A signature on g, holding up flag B; tied to its operation once that has issued (R280). -/
  | sig (g : Nat) (op : Option Nat)
  /-- A matrix operation that has issued (R282 to R285). -/
  | mat (op : MatRun)
  | pw (op : PwOp) (acc : List LAcc)
  /-- An access to another module (R249). -/
  | remote (op : MemOp)
  deriving DecidableEq, Repr

/-- An operation in flight: the issuing band, its task's generation, its lanes, and the completion flag it holds up. -/
structure Flight where
  slot : Nat
  gen : BitVec 16
  lanes : Word
  flag : Option Nat
  kind : FKind
  deriving DecidableEq, Repr

/-! ## Tasks (R293) -/

/-- A command pushed to a queue register (R211): its words, its number among the task's pushes, the band and the address
of its `qpush`, its collective instance (R227), and whether the release of the push is complete (R215). -/
structure Cmd where
  words : List Word
  num : Nat
  slot : Nat
  inst : Nat
  pc : BitVec 64
  released : Bool
  deriving DecidableEq, Repr

/-- A command an engine has started: the elements done, whether it waits for a page-fault answer (R214), and, once it
has ended, its fault: cause and code, or done. -/
structure CmdRun where
  cmd : Cmd
  pos : Nat
  waiting : Bool
  done : Bool
  fault : Option (Nat × Nat)
  deriving DecidableEq, Repr

/-- A queue register (R209): port code, waiting commands oldest first, return words oldest first, command in progress. -/
structure Queue where
  port : Nat
  cmds : List Cmd
  ret : List Word
  cur : Option CmdRun
  deriving DecidableEq, Repr

/-- A `qfence` (R216): its mask and the number of the first later push. -/
structure QFence where
  mask : Word
  num : Nat
  deriving DecidableEq, Repr

/-- A convergence register with its open operation (R279, R280): band set, usable, what instructions before a cycle still
see, and what the signers recorded. -/
structure GReg where
  set : BitVec 16
  usable : Bool
  was : Option (Nat × BitVec 16 × Bool)
  /-- The open operation: instruction word, captured operands, and the lanes that have signed by band index. -/
  op : Option (Word × MatOp)
  signed : Map Word
  deriving DecidableEq, Repr

/-- A task's part in one barrier (R203): the word recorded by the first arrival of the open phase, the lanes that have
arrived and those whose release is done, by band index. For a local barrier `phase` counts its phases. -/
structure TaskBar where
  part : Option Word
  arrived : Map Word
  done : Map Word
  phase : Nat
  deriving DecidableEq, Repr

/-- The states of R293. A retired or killed task keeps no entry. -/
inductive TaskState where
  | placed | running | draining
  deriving DecidableEq, Repr

/-- A phase end in progress (R296): the address, the lanes arrived by band index, the lowest arrival's (band, lane) and
word, whether the result is posted, the variant chosen by the switch decision, the microsecond since which it waits. -/
structure PhaseEnd where
  pc : BitVec 64
  arrived : Map Word
  best : Nat
  word : Word
  posted : Bool
  admitted : Bool
  switchTo : Option Nat
  since : Nat
  deriving DecidableEq, Repr

/-- A request for pre-emption (R321): the save area and the code of `sys.kcause`. -/
structure PreReq where
  area : BitVec 64
  code : Nat
  deriving DecidableEq, Repr

structure Task where
  launch : Nat
  number : Nat
  variant : Nat
  nbands : Nat
  nv : Nat
  nt : Nat
  na : Nat
  /-- Scratchpad granules of 4 KiB and the byte offset of the run in the core's scratchpad (R16, R310). -/
  spGrans : Nat
  spBase : Nat
  /-- Thread-local bytes of a thread in the current variant (R77). -/
  tlm : Nat
  gen : BitVec 16
  /-- Band slot of each band, in band order. -/
  slots : List Nat
  /-- Physical granules of four tiles, and accumulators, in register order (R16). -/
  tileMap : List Nat
  accMap : List Nat
  state : TaskState
  /-- KIND, CAUSE, CODE and EFLT of the status word to come (R293). -/
  endKind : Nat
  endCause : Nat
  endCode : Nat
  eflt : Bool
  /-- The task's end was decided by a trap in keep mode or without a handler (R308, R327). -/
  ended : Bool
  par : BitVec 64
  tlbase : BitVec 64
  tlstride : Word
  ksave : BitVec 64
  kvec : BitVec 64
  /-- Copy tags (R210). -/
  done : BitVec 64
  fault : BitVec 64
  busy : Map Nat
  queues : Map Queue
  fences : List QFence
  pushes : Nat
  g : Map GReg
  /-- Ids of the groups besides group 0 (R201). -/
  groups : List Nat
  /-- Collective instances pushed: group 0 at 0, then the groups in order (R227). -/
  inst : Map Nat
  bars : Map TaskBar
  localBar : TaskBar
  /-- The local barrier of handlers in keep mode, apart from the frozen one (R305). -/
  keepBar : TaskBar
  phase : Option PhaseEnd
  succ : Option (BitVec 64)
  /-- Saved for R226 and R227 from the request until the restore's `kret` (R328). -/
  saved : Bool
  request : Option PreReq
  /-- Stopped by the debugger (R92). -/
  stopped : Bool
  /-- Energy per phase and peak current of the current variant (R348). -/
  energy : Nat
  current : Nat
  /-- Microsecond at which the task was placed or last began a time slice (R347). -/
  sliceFrom : Nat
  deriving DecidableEq, Repr

/-! ## L1, requests (R158, R243, R176) -/

/-- An L1 line (R158): line address, the buffer and offset it was reached through, data, valid bit, byte dirty mask, and
for each dirty byte the band slot that wrote it (R244). -/
structure L1Line where
  line : Nat
  buf : Nat
  off : Nat
  pd : Nat
  valid : Bool
  data : BitVec 1024
  dirty : BitVec 128
  writer : Map Nat
  deriving DecidableEq, Repr

/-- A decoded Plynwick block in the L1 (R176, R181): the code it carries (bytes), which elements are written with their
bits and the band slots that wrote them, and whether the core owns it. -/
structure PwBlock where
  buf : Nat
  block : Nat
  pd : Nat
  dim : Nat
  dbl : Bool
  rate : Nat
  code : List Byte
  written : Map (BitVec 64)
  writer : Map Nat
  owned : Bool
  deriving DecidableEq, Repr

/-- A request posted to a home dome and not performed yet: an uncached or remote store (R246). -/
structure Request where
  slot : Nat
  lanes : Word
  pd : Nat
  t : Trans
  bytes : List Byte
  deriving DecidableEq, Repr

/-- A registration on its way to the home dome (R243): the line, its buffer place and the mask of words. -/
structure Registration where
  line : Nat
  buf : Nat
  off : Nat
  pd : Nat
  words : Word
  slot : Nat
  deriving DecidableEq, Repr

/-- A line of the instruction buffer (R66): protection domain, virtual line address, data, stale mark (R68). -/
structure ILine where
  pd : Nat
  va : BitVec 64
  data : BitVec 1024
  stale : Bool
  deriving DecidableEq, Repr

structure Core where
  /-- LAST, SWEEP and HALF of `sys.gen` (R302). -/
  last : BitVec 16
  sweep : Bool
  half : Bool
  /-- Generations of marked allocations (R302). -/
  marked : List (BitVec 16)
  vrf : Map (Tagged Word)
  srf : Map (Tagged Word)
  prf : Map (Tagged Bool)
  tiles : Map Row
  accs : Map (Tagged (BitVec 2048))
  accStat : Map (Tagged Word)
  scratch : Map Row
  table : Map Entry
  bands : Map Band
  tasks : Map Task
  ibuf : List ILine
  tlb : List TlbEntry
  l1 : List L1Line
  pw : List PwBlock
  regs : List Registration
  requests : List Request
  flights : Map Flight
  nextOp : Nat
  /-- The cycle until which the sequencer of a pipe is busy (R124). -/
  seqBusy : Map Nat
  /-- The cycle from which the uniform pipe, and each pipe, takes the next instruction (R72). -/
  uniFree : Nat
  pipeFree : Map Nat
  /-- Address breakpoints (R92). -/
  bps : Map (BitVec 64)
  deriving DecidableEq, Repr

/-! ## Launches (R24, R200, R334 to R337) -/

/-- A group-table entry (R200): the tasks that ARRIVED counts, PHASE, CORES, its members in ascending task number (R201),
and the clusters of a completed phase not yet released (R352). -/
structure Group where
  came : List Nat
  phase : Word
  cores : Bool
  members : List Nat
  /-- Clusters whose waiting sub-bands the slew limiter has still to release, ascending. -/
  release : List Nat
  deriving DecidableEq, Repr

/-- A variant as the loader records it (R28 to R35, R46): its resources, budgets, port bindings, code place, and the
switch and carry records of its `phase` instructions. -/
structure Switch where
  at_ : Nat
  target : Nat
  resume : Nat
  /-- Class, first source, count and first target of each carry entry (R36, R47). -/
  carry : List (Nat × Nat × Nat × Nat)
  deriving DecidableEq, Repr

structure Variant where
  nbands : Nat
  nv : Nat
  nt : Nat
  na : Nat
  spGrans : Nat
  tlm : Nat
  energy : Nat
  current : Nat
  ports : List Nat
  code : Nat
  size : Nat
  switches : List Switch
  deriving DecidableEq, Repr

structure Kernel where
  variants : List Variant
  keep : Bool
  tlstride : Nat
  deriving DecidableEq, Repr

/-- A launch record (R48): flags det, ftz, gentrap; spire mask; parameters; groups: id, co-resident, their tasks as ranges of
start, end and step. -/
structure LaunchRec where
  kernel : Nat
  tasks : Nat
  threads : Nat
  det : Bool
  ftz : Bool
  gentrap : Bool
  spires : Nat
  params : BitVec 64
  groups : List (Nat × Bool × List (Nat × Nat × Nat))
  deriving DecidableEq, Repr

/-- A loaded object (R389): domain, code range, data range, kernels, launches, coefficient tables by id (R122), and the
page and buffer ranges the loader wrote. -/
structure Object where
  pd : Nat
  va : BitVec 64
  codeBytes : Nat
  bytes : Nat
  kernels : List Kernel
  launches : List LaunchRec
  keepEntry : BitVec 64
  coefs : Map (List Word)
  bufs : List Nat
  deriving DecidableEq, Repr

/-- A running launch: what the KERNEL node set, and the tasks' results and ends. -/
structure Launch where
  queue : Nat
  pd : Nat
  object : Nat
  kernel : Nat
  tasks : Nat
  threads : Nat
  det : Bool
  ftz : Bool
  gentrap : Bool
  prio : Nat
  /-- Physical number of each logical core (R334). -/
  cores : List Nat
  kvec : BitVec 64
  par : BitVec 64
  tlbase : BitVec 64
  resultReg : Nat
  combine : Nat
  /-- NEXT of the KERNEL node. -/
  next : Nat
  limit : Nat
  saveBase : BitVec 64
  saveStride : Nat
  slice : Nat
  groups : Map Group
  /-- Tasks whose every thread has exited (R204). -/
  exited : List Nat
  /-- The last result word of each task (R336). -/
  results : Map Word
  /-- Retirement status of each task that has retired for good (R337). -/
  retired : Map Word
  failed : Bool
  /-- Status 5 is due (R350). -/
  timedOut : Bool
  deriving DecidableEq, Repr

/-! ## Clusters and queues (R343 to R350) -/

/-- A queued task or a restore request (R343): the save area it restores, since when it stands first, whether it has stood
so for 64 µs, and since when it has failed only Admit. -/
structure QTask where
  launch : Nat
  number : Nat
  restore : Option (BitVec 64)
  firstSince : Option Nat
  aged : Bool
  admitSince : Option Nat
  deriving DecidableEq, Repr

/-- A placement chosen and admitted, to be performed by the core (R23): the task, the core, the variant. -/
structure Placing where
  task : QTask
  core : Nat
  variant : Nat
  /-- Pipes that a restore's record names (R26). -/
  pipes : Option (List Nat)
  /-- A pre-emption request that reached the core during the placement (R27). -/
  request : Option PreReq
  deriving DecidableEq, Repr

structure Cluster where
  queue : List QTask
  placing : List Placing
  charged : Nat
  /-- The task (launch, number) that has failed Admit in this interval (R343). -/
  blocked : Option (Nat × Nat)
  deriving DecidableEq, Repr

/-- A saved task: its launch, number, domain and save area (R320, R322). -/
structure SavedTask where
  launch : Nat
  number : Nat
  pd : Nat
  area : BitVec 64
  deriving DecidableEq, Repr

/-! ## Graph walkers (R332 to R341) -/

/-- A running graph: its address, the entry's sequence and completion record, the current node, w0 to w15, the launch of
its KERNEL node, the microsecond at which a WAITQ began, and a page-fault wait. -/
structure Graph where
  addr : BitVec 64
  seq : Word
  record : BitVec 64
  node : Nat
  w : Map Word
  launch : Option Nat
  waitFrom : Option Nat
  copyPos : Nat
  waiting : Bool
  deriving DecidableEq, Repr

/-- A work-queue descriptor (R330). -/
structure WorkQueue where
  rbase : BitVec 64
  tail : Word
  head : Word
  pd : Word
  tenant : BitVec 16
  key : BitVec 10
  log2n : BitVec 5
  prio : BitVec 3
  enable : Bool
  err : Bool
  deriving DecidableEq, Repr

/-! ## Domes and memory (R356 to R368) -/

/-- A line held in its home dome (R356): data, two dirty halves, key slot, owner records (core, word mask) oldest first,
sectors that hold a replica. -/
structure DomeLine where
  data : BitVec 1024
  dirty0 : Bool
  dirty1 : Bool
  key : Nat
  enc : Bool
  pd : Nat
  owners : List (Nat × Word)
  replicas : List Nat
  /-- Order of filling in the module. -/
  age : Nat
  deriving DecidableEq, Repr

/-- A protection-domain record (R374). -/
structure PdRec where
  root : BitVec 64
  ring : BitVec 64
  tail : Word
  head : Word
  log2n : Byte
  flags : Byte
  ebase : BitVec 64
  estride : Word
  deriving DecidableEq, Repr

/-- A routing-table entry (R377). -/
structure Route where
  v : Bool
  copyOnly : Bool
  ports : BitVec 16
  addr : BitVec 48
  deriving DecidableEq, Repr

/-- A key: the two halves of an AES-256-XTS pair (R365). -/
abbrev Key := BitVec 512

/-- A channel's status (R367): the word's fields, and the margin of each lane last measured. -/
structure Channel where
  offline : Bool
  marginEv : Bool
  /-- Lowest margin since the last read, once a lane was measured. -/
  minMargin : Option Nat
  rep0 : Option Nat
  rep1 : Option Nat
  margins : Map Nat
  /-- Lanes whose repair is due at the next refresh window. -/
  due : List Nat
  corrected : Nat
  deriving DecidableEq, Repr

/-- An ingest binding (R228). -/
structure Bind where
  core : Nat
  slot : Nat
  launch : Nat
  task : Nat
  queue : Nat
  pd : Nat
  policy : Nat
  pfc : Nat
  ring : BitVec 64
  udp : Nat
  vlan : Nat
  log2n : Nat
  hdr : Nat
  slotBytes : Nat
  ports : BitVec 16
  assert : Nat
  release : Nat
  deriving DecidableEq, Repr

/-- An ingest stream (R228 to R230): binding, consumer copy, highest accepted s, pause, pending gap record (s, cause,
count), counters. -/
structure Stream where
  bind : Option Bind
  consumer : Word
  highest : Option Word
  paused : Bool
  gap : Option (Word × Nat × Nat)
  accepted : Nat
  refused : Nat
  late : Nat
  badLen : Nat
  lost : Nat
  deriving DecidableEq, Repr

/-- A transport connection (R371). -/
structure Conn where
  endpoint : Nat
  pd : Nat
  key : Nat
  deriving DecidableEq, Repr

/-- An active or idle power state (R382). -/
inductive PState where
  | p0 | p1 | p2 | p3 | i1 | i2 | i3
  deriving DecidableEq, Repr

/-- A clock plan as applied (R383): bands in kHz, arithmetic clock in MHz, regulator frequency in kHz. -/
structure ClockPlan where
  bands : List (Nat × Nat)
  mhz : Nat
  regulator : Nat
  deriving DecidableEq, Repr

/-- What the module sends out: RDMA answers, register reads, management responses (status, body and signature), PFC frames,
atomics and accesses to other modules (R371, R378, R230, R249). -/
inductive Out where
  | rdmaDone (conn : Nat)
  | rdmaData (conn : Nat) (bytes : List Byte)
  | accessError (conn : Nat)
  | response (code : Nat) (nonce : BitVec 64) (status : Nat) (body sig : List Byte)
  | pfc (port prio quanta : Nat)
  | remoteStore (module addr : Nat) (bytes : List Byte)
  | remoteLoad (module addr size : Nat)
  | remoteAtomic (module addr : Nat) (a : RemoteAtomic)
  | remoteReply (module : Nat) (value : BitVec 64) (err : Bool)
  deriving DecidableEq, Repr

/-- A turn of the module: a band issues, or an event of the opcode table happens (log entry 2). -/
inductive Turn where
  | issue (core slot : Nat)
  | happen (i : Instr)
  deriving DecidableEq, Repr

/-- The sub-band that issues: core, band slot, entry (log entry 2). -/
structure Cursor where
  core : Nat
  slot : Nat
  entry : Nat
  deriving DecidableEq, Repr

/-- The ring of tiering records and the command ring (R372, R375, R376). -/
structure Rings where
  cmds : Map (List Byte)
  cmdTail : Word
  cmdHead : Word
  cmdStopped : Bool
  /-- The pre-emption that a PREEMPT at HEAD waits for: core, task slot, launch, task (R376). -/
  cmdWait : Option (Nat × Nat × Nat × Nat)
  tierAddr : BitVec 64
  tierLog2n : Byte
  tierTail : Word
  tierHead : Word
  /-- Tiering records on their way to the ring: page address, counter value, source (R368). -/
  tierPend : List (Nat × Nat × Nat)
  deriving DecidableEq, Repr

structure Power where
  state : PState
  tolerance : Nat
  cap : PState
  thermal : Option PState
  emergency : Bool
  pendState : Option PState
  plan : ClockPlan
  pendPlan : Option ClockPlan
  /-- Write-assist: the band issue slot is 5 cycles (R15). -/
  assist : Bool
  deriving DecidableEq, Repr

/-- Identity, management and watchtower (R373, R378, R385). -/
structure Mgmt where
  forensic : Bool
  moduleNo : BitVec 16
  bootNo : Nat
  time : BitVec 64
  /-- The module's microsecond count when SETTIME was accepted; none until then. -/
  timeSet : Option Nat
  pubKeys : Map (List Byte)
  nonces : Map (BitVec 64)
  admins : List Nat
  manufactured : Bool
  x448 : Option Nat
  alarm : Word
  halted : Bool
  powered : Bool
  deriving DecidableEq, Repr

structure State where
  /-- Device memory (R19, R20): plaintext under the key it was written with; an unlisted byte reads as 0 (R387). -/
  mem : List Host.Cell
  /-- Key under which each 64-byte half line was last encrypted; absent for plaintext (R365). -/
  halfKey : Map Key
  domes : Map DomeLine
  nextAge : Nat
  /-- Replicas of lines (R358): key 24 × line + sector. -/
  replicas : Map (BitVec 1024)
  /-- The core that owns each coded block (R181): key 2^28 × buffer + block. -/
  pwOwner : Map Nat
  /-- Deterministic marks by 4-byte word: launch and task (R258); lines marked overflowed, by line (R357). -/
  marks : Map (Nat × Nat)
  overflowed : Map Nat
  bufs : Map (BitVec 256)
  pds : Map PdRec
  wqs : Map WorkQueue
  routes : Map Route
  rings : Rings
  keys : Map Key
  chans : Map Channel
  tierCtl : Map Word
  counters : Map Nat
  posted : Map Nat
  streams : Map Stream
  /-- Unmatched UDP frames by Ethernet port (R229). -/
  unmatched : Map Nat
  conns : Map Conn
  objects : Map Object
  nextObject : Nat
  pool : Nat
  launches : Map Launch
  nextLaunch : Nat
  graphs : Map Graph
  /-- Queue last taken at each priority of each spire: key 8 × spire + priority (R332). -/
  lastTaken : Map Nat
  clusters : Map Cluster
  /-- The queue register each engine took a command from last (R208): key 4 × sector + engine. -/
  engines : Map Nat
  cores : Map Core
  faultWait : List FaultRec
  /-- Fault records posted and not answered (R156). -/
  faultOpen : List FaultRec
  /-- Saved tasks (R293 KIND 2), and how a domain ended: 2 lost, 3 killed (R381). -/
  savedTasks : List SavedTask
  pdEnd : Map Nat
  events : Map Nat
  eventSrc : Map Nat
  power : Power
  mgmt : Mgmt
  out : List Out
  turns : List Turn
  cur : Option Cursor
  /-- Arithmetic cycles and control intervals since power-up (log entry 3). -/
  cycle : Nat
  usec : Nat
  /-- Counter of free values (log entry 1). -/
  fresh : Nat
  deriving DecidableEq, Repr

/-- Why the machine stops. -/
inductive Fault where
  /-- Raised by the meaning of an encoded instruction when no sub-band stands at the cursor: the spec gives no effect to
  an instruction that no sub-band issues, and `step` never calls a meaning so (safe, log entry 8). -/
  | noSubBand
  deriving DecidableEq, Repr

/-- Why an instruction has no meaning. -/
inductive Refusal where
  /-- Raised by an arm of `exec` whose instruction has no meaning yet (safe). -/
  | notModelled (mnemonic : String)
  deriving DecidableEq, Repr

/-! ## The values that stand for absent entries, and reset -/

def Thread.fresh : Thread := ⟨true, false, 0, 0, [], 0, .none, .none, none⟩

def Entry.fresh : Entry := ⟨0, false, 0, 0, .ready, 0, none, false⟩

def KReg.fresh : KReg := ⟨0, 0, 0, 0, 0⟩

def BarState.fresh : BarState := ⟨0, 0, false⟩

/-- A band as placement starts it (R110, R147, R267, R304; log entry 4 for the keep registers). -/
def Band.fresh : Band :=
  { task := 0, index := 0, vgrans := [], threads := [], flags := [], j := [], arr := [], arrPc := [], lc := [], li := [],
    k := [], rm := 0, fflags := 0, mshape := 0x0FFF0000#32, kcause := 0, kpc := 0, klanes := 0, kaddr := 0,
    kpcSet := false, kmid := false, ktrap := none, keep := false, restored := false, frozen := [], keepV := [], keepS := [], keepP := [],
    halted := false, xop := none, bars := [], turn := none, pend := [], nextSlot := 0, lastSlot := 0,
    relFail := [], pre := false, stepping := [] }

def Queue.fresh : Queue := ⟨0, [], [], none⟩

def GReg.fresh : GReg := ⟨0, false, none, none, []⟩

def TaskBar.fresh : TaskBar := ⟨none, [], [], 0⟩

def Task.fresh : Task :=
  { launch := 0, number := 0, variant := 0, nbands := 0, nv := 0, nt := 0, na := 0, spGrans := 0, spBase := 0, tlm := 0,
    gen := 0, slots := [], tileMap := [], accMap := [], state := .placed, endKind := 0, endCause := 0, endCode := 0,
    eflt := false, ended := false, par := 0, tlbase := 0, tlstride := 0, ksave := 0, kvec := 0, done := 0, fault := 0,
    busy := [], queues := [], fences := [], pushes := 0, g := [], groups := [], inst := [], bars := [],
    localBar := TaskBar.fresh, keepBar := TaskBar.fresh, phase := none, succ := none, saved := false, request := none, stopped := false,
    energy := 0, current := 0, sliceFrom := 0 }

/-- A core after power-up: every tag 0, every granule zero, nothing placed (R299, R387). -/
def Core.fresh : Core :=
  { last := 0, sweep := false, half := false, marked := [], vrf := [], srf := [], prf := [], tiles := [], accs := [],
    accStat := [], scratch := [], table := [], bands := [], tasks := [], ibuf := [], tlb := [], l1 := [], pw := [],
    regs := [], requests := [], flights := [], nextOp := 0, seqBusy := [], uniFree := 0, pipeFree := [], bps := [] }

def Cluster.fresh : Cluster := ⟨[], [], 0, none⟩

/-- A work queue at reset (R330). -/
def WorkQueue.fresh : WorkQueue := ⟨0, 0, 0, 0, 0, 0, 0, 0, false, false⟩

def PdRec.fresh : PdRec := ⟨0, 0, 0, 0, 0, 0, 0, 0⟩

def Route.fresh : Route := ⟨false, false, 0, 0⟩

def Channel.fresh : Channel := ⟨false, false, none, none, none, [], [], 0⟩

def Stream.fresh : Stream := ⟨none, 0, none, false, none, 0, 0, 0, 0, 0⟩

def Rings.fresh : Rings := ⟨[], 0, 0, false, none, 0, 0, 0, 0, []⟩

/-- The nominal clock plan (R3, R15; log entry 7). -/
def ClockPlan.fresh : ClockPlan := ⟨[], 1050, 1000⟩

/-- The power controller once the module is up (R382; log entry 7). -/
def Power.fresh : Power := ⟨.p0, 0, .p0, none, false, none, ClockPlan.fresh, none, false⟩

def Mgmt.fresh : Mgmt := ⟨false, 0xFFFF#16, 0, 0, none, [], [], [], false, none, 0, false, true⟩

/-- The module right after power-up (R387): device memory zero, every tag 0, the module number unassigned, the time 0,
no task, graph, key or connection. -/
def State.reset : State :=
  { mem := [], halfKey := [], domes := [], nextAge := 0, replicas := [], pwOwner := [], marks := [], overflowed := [],
    bufs := [], pds := [], wqs := [], routes := [], rings := Rings.fresh, keys := [], chans := [], tierCtl := [],
    counters := [], posted := [], streams := [], unmatched := [], conns := [], objects := [], nextObject := 1, pool := 0, launches := [],
    nextLaunch := 1, graphs := [], lastTaken := [], clusters := [], engines := [], cores := [], faultWait := [],
    faultOpen := [], savedTasks := [], pdEnd := [], events := [], eventSrc := [], power := Power.fresh,
    mgmt := Mgmt.fresh, out := [], turns := [], cur := none, cycle := 0, usec := 0, fresh := 0 }

end Sys2Proof.Machine
end

