-- ==== Sys2Proof/Machine/Access.lean ====
section
/-! DEFINITION. Reading and replacing the parts of the state that stand in maps: cores, bands, tasks, entries,
threads, launches and clusters, and the event counters (R384). -/

namespace Sys2Proof.Machine

/-! ## The parts of a core -/

def State.core (s : State) (c : Nat) : Core := mapGetD s.cores c Core.fresh

def State.setCore (s : State) (c : Nat) (k : Core) : State := { s with cores := mapSet s.cores c k }

def State.updCore (s : State) (c : Nat) (f : Core → Core) : State := s.setCore c (f (s.core c))

def Core.band (k : Core) (b : Nat) : Band := mapGetD k.bands b Band.fresh

def Core.entry (k : Core) (e : Nat) : Entry := mapGetD k.table e Entry.fresh

def Core.task (k : Core) (t : Nat) : Task := mapGetD k.tasks t Task.fresh

def Core.updBand (k : Core) (b : Nat) (f : Band → Band) : Core := { k with bands := mapUpd k.bands b f }

def Core.updEntry (k : Core) (e : Nat) (f : Entry → Entry) : Core := { k with table := mapUpd k.table e f }

def Core.updTask (k : Core) (t : Nat) (f : Task → Task) : Core := { k with tasks := mapUpd k.tasks t f }

def State.updBand (s : State) (c b : Nat) (f : Band → Band) : State := s.updCore c (·.updBand b f)

def State.updEntry (s : State) (c e : Nat) (f : Entry → Entry) : State := s.updCore c (·.updEntry e f)

def State.updTask (s : State) (c t : Nat) (f : Task → Task) : State := s.updCore c (·.updTask t f)

def Band.thread (b : Band) (l : Nat) : Thread := mapGetD b.threads l Thread.fresh

/-- Replace the control state of the lanes of a mask. -/
def Band.updThreads (b : Band) (m : Word) (f : Nat → Thread → Thread) : Band :=
  { b with threads := (lanesOf m).foldl (fun t l => mapSet t l (f l (mapGetD t l Thread.fresh))) b.threads }

def State.updThreads (s : State) (c b : Nat) (m : Word) (f : Nat → Thread → Thread) : State :=
  s.updBand c b (·.updThreads m f)

/-- The task slot of a band: the band slot of its task's band 0 (log entry 12). -/
def Core.taskOfBand (k : Core) (b : Nat) : Nat := (k.band b).task

/-- Lanes of a band whose threads have not exited. -/
def Band.live (b : Band) : Word := maskOf ((lanesOf allLanes).filter fun l => !(b.thread l).exited)

/-- Entries of a band, lowest number first, its keep entry last. -/
def Core.entriesOf (k : Core) (b : Nat) : List Nat := (mapKeys k.table).filter fun e => (k.entry e).slot == b

def State.launch (s : State) (l : Nat) : Launch :=
  mapGetD s.launches l ⟨0, 0, 0, 0, 0, 0, false, false, false, 0, [], 0, 0, 0, 0, 0, 0, 0, 0, 0, 0, [], [], [], [], false, false⟩

def State.updLaunch (s : State) (l : Nat) (f : Launch → Launch) : State := { s with launches := mapUpd s.launches l f }

def State.cluster (s : State) (i : Nat) : Cluster := mapGetD s.clusters i Cluster.fresh

def State.updCluster (s : State) (i : Nat) (f : Cluster → Cluster) : State :=
  { s with clusters := mapSet s.clusters i (f (s.cluster i)) }

/-- The number of cores, and the places of a core (R13). -/
def numCores : Nat := 1536
def coreSpire (c : Nat) : Nat := c / 192
def coreSector (c : Nat) : Nat := c / 64
def coreCluster (c : Nat) : Nat := c / 4
def pipeOf (slot : Nat) : Nat := slot / 16

/-! ## Event counters (R384) -/

def counterMax : Nat := 2 ^ 48 - 1

/-- Add to every counter of a spire that counts a source. -/
def State.count (s : State) (spire src n : Nat) : State :=
  { s with events := (List.range 64).foldl (fun m i =>
      let k := 64 * spire + i
      if mapGetD s.eventSrc k 0 = src then mapSet m k (min counterMax (mapGetD m k 0 + n)) else m) s.events }

/-- Count for the spire of a core. -/
def State.countAt (s : State) (c src n : Nat) : State := s.count (coreSpire c) src n

/-- Let the arithmetic clock stand at a cycle, counted by source 1 (R384). -/
def State.clockTo (s : State) (t : Nat) : State :=
  if t ≤ s.cycle then s else
  { (List.range 8).foldl (fun s p => s.count p 1 (t - s.cycle)) s with cycle := t }

end Sys2Proof.Machine
end

