-- ==== Sys2Proof/Machine/Memory.lean ====
section
/-! DEFINITION. Device memory as a list of cells in canonical form: addresses strictly rising, no cell equal to what an
unlisted address reads as. An unlisted byte reads as 0, the content of all device memory after power-up (R387). -/

namespace Sys2Proof.Machine

/-- What an unlisted address reads as. -/
def Memory.blank : Byte := 0#8

/-- Addresses strictly rise from `lo`, and no cell holds the blank byte. -/
def Memory.wfFrom (lo : Nat) : List Host.Cell → Bool
  | [] => true
  | (a, b) :: m => decide (lo ≤ a) && b != Memory.blank && Memory.wfFrom (a + 1) m

/-- The canonical form. -/
def Memory.wf (m : List Host.Cell) : Bool := Memory.wfFrom 0 m

def Memory.read (m : List Host.Cell) (a : Nat) : Byte := mapGetD m a Memory.blank

def Memory.write (m : List Host.Cell) (a : Nat) (b : Byte) : List Host.Cell :=
  if b = Memory.blank then mapDel m a else mapSet m a b

/-- Consecutive bytes, lowest address first. -/
def Memory.readN (m : List Host.Cell) (a n : Nat) : List Byte := (List.range n).map fun i => Memory.read m (a + i)

def Memory.writeN (m : List Host.Cell) : Nat → List Byte → List Host.Cell
  | _, [] => m
  | a, b :: bs => Memory.writeN (Memory.write m a b) (a + 1) bs

/-- The 64-byte half line that starts at a physical address, as read under a key (R365). -/
def State.halfUnder (s : State) (key : Option Key) (pa : Nat) : BitVec 512 :=
  let d := BitVec.ofNat 512 (ofBytes (Memory.readN s.mem pa 64))
  let w := mapGet s.halfKey (pa / 64)
  if w = key then d else Config.otherKey w key pa d

/-- Write a half line under a key. -/
def State.putHalf (s : State) (key : Option Key) (pa : Nat) (d : BitVec 512) : State :=
  { s with mem := Memory.writeN s.mem pa (bytesOf 64 d.toNat)
           halfKey := match key with
             | none => mapDel s.halfKey (pa / 64)
             | some k => mapSet s.halfKey (pa / 64) k }

end Sys2Proof.Machine
end

