-- ==== Sys2Proof/Machine/Float.lean ====
section
/-! DEFINITION. Floating-point arithmetic on bit patterns (R109 to R121): exact dyadic values, one rounding, the flags
of R112 and the NaN rules of R114. A binary interchange format is given by its fraction and exponent widths. -/

namespace Sys2Proof.Machine

/-- A binary format: fraction bits, exponent bits (R109); the bias is 2^(eb-1) - 1. -/
structure FloatSpec where
  mb : Nat
  eb : Nat
  deriving DecidableEq, Repr

def f64S : FloatSpec := ⟨52, 11⟩
def f32S : FloatSpec := ⟨23, 8⟩
def f16S : FloatSpec := ⟨10, 5⟩
def bf16S : FloatSpec := ⟨7, 8⟩

def FloatSpec.bias (p : FloatSpec) : Nat := 2 ^ (p.eb - 1) - 1
/-- Exponent of the smallest normal. -/
def FloatSpec.emin (p : FloatSpec) : Int := 1 - (p.bias : Int)
/-- Exponent of the unit of the subnormals. -/
def FloatSpec.qmin (p : FloatSpec) : Int := p.emin - p.mb
/-- Bits of +∞. -/
def FloatSpec.infBits (p : FloatSpec) : Nat := (2 ^ p.eb - 1) * 2 ^ p.mb
/-- Bits of the canonical quiet NaN (R114). -/
def FloatSpec.nanBits (p : FloatSpec) : Nat := p.infBits + 2 ^ (p.mb - 1)
def FloatSpec.maxBits (p : FloatSpec) : Nat := p.infBits - 1
def FloatSpec.signBit (p : FloatSpec) : Nat := 2 ^ (p.mb + p.eb)
def FloatSpec.width (p : FloatSpec) : Nat := p.mb + p.eb + 1

/-- What a bit pattern stands for: a NaN, an infinity, or ± m × 2^e (zero when m = 0). -/
inductive FNum where
  | nan (signalling : Bool)
  | inf (neg : Bool)
  | num (neg : Bool) (m : Nat) (e : Int)
  deriving DecidableEq, Repr

/-- The value of a bit pattern. -/
def unpackF (p : FloatSpec) (b : Nat) : FNum :=
  let neg := b / p.signBit % 2 == 1
  let ex := b / 2 ^ p.mb % 2 ^ p.eb
  let fr := b % 2 ^ p.mb
  if ex == 2 ^ p.eb - 1 then
    if fr == 0 then .inf neg else .nan (decide (fr < 2 ^ (p.mb - 1)))
  else if ex == 0 then .num neg fr p.qmin
  else .num neg (fr + 2 ^ p.mb) (p.qmin + (ex : Int) - 1)

/-- A subnormal input read as a zero of its sign under `ftz` (R113). -/
def flushIn (p : FloatSpec) (ftz : Bool) : FNum → FNum
  | .num neg m e => if ftz && decide (m < 2 ^ p.mb) && e == p.qmin then .num neg 0 p.qmin else .num neg m e
  | x => x

def signed (p : FloatSpec) (neg : Bool) (mag : Nat) : Nat := if neg then p.signBit + mag else mag

/-- `m × 2^-sh`, plus less than one unit of it when `st`, rounded to an integer in mode `rm` for a value of sign `neg`;
and whether the result is inexact. With `st` the caller gives enough bits that `sh` is positive. -/
def roundShift (rm : Rnd) (neg : Bool) (m : Nat) (st : Bool) (sh : Int) : Nat × Bool :=
  if sh ≤ 0 then
    let q := m <<< (-sh).toNat
    let up := match rm with
      | .ru => st && !neg
      | .rd => st && neg
      | .rn | .rz | .ra => false
    (if up then q + 1 else q, st)
  else
    let k := sh.toNat
    let far := decide (m.log2 + 1 < k)
    let q := if far then 0 else m >>> k
    let rem := if far then m else m - (q <<< k)
    let inexact := st || rem != 0
    let gtHalf := !far && (decide (1 <<< (k - 1) < rem) || (rem == 1 <<< (k - 1) && st))
    let eqHalf := !far && rem == 1 <<< (k - 1) && !st
    let up := match rm with
      | .rn => gtHalf || (eqHalf && q % 2 == 1)
      | .ra => gtHalf || eqHalf
      | .rz => false
      | .ru => inexact && !neg
      | .rd => inexact && neg
    (if up then q + 1 else q, inexact)

/-- Whether overflow gives the largest finite value: the mode rounds toward zero for the sign (R112). -/
def towardZero (rm : Rnd) (neg : Bool) : Bool :=
  match rm with
  | .rn | .ra => false
  | .rz => true
  | .ru => neg
  | .rd => !neg

/-- Round ± m × 2^e (m > 0, plus a sticky amount) to the precision and exponent range of a format, the exponent
unbounded above: magnitude bits, whether inexact, whether tiny after rounding (R112). -/
def roundCore (p : FloatSpec) (rm : Rnd) (neg : Bool) (m : Nat) (e : Int) (st : Bool) : Nat × Bool × Bool :=
  let top : Int := (m.log2 : Int) + e
  let qu := top - p.mb
  let q := if qu < p.qmin then p.qmin else qu
  let (r, inexact) := roundShift rm neg m st (q - e)
  let tiny := if p.emin ≤ top then false
    else if top < p.emin - 1 then true
    else decide ((roundShift rm neg m st (qu - e)).1 < 2 ^ (p.mb + 1))
  ((q - p.qmin).toNat * 2 ^ p.mb + r, inexact, tiny)

/-- Round ± m × 2^e (m > 0, plus a sticky amount) to a format: bits and flags of R112; under `ftz` a tiny result
becomes a zero of its sign with UF and NX (R113). -/
def roundF (p : FloatSpec) (rm : Rnd) (ftz neg : Bool) (m : Nat) (e : Int) (st : Bool) : Nat × Fl :=
  let (bits, inexact, tiny) := roundCore p rm neg m e st
  if ftz && tiny then (signed p neg 0, flUF ||| flNX)
  else if p.infBits ≤ bits then
    (signed p neg (if towardZero rm neg then p.maxBits else p.infBits), flOF ||| flNX)
  else (signed p neg bits, flIf (tiny && inexact) flUF ||| flIf inexact flNX)

/-- Round a dyadic value, zero included (its sign kept). -/
def roundNum (p : FloatSpec) (rm : Rnd) (ftz neg : Bool) (m : Nat) (e : Int) : Nat × Fl :=
  if m == 0 then (signed p neg 0, flNone) else roundF p rm ftz neg m e false

def canonNaN (p : FloatSpec) (invalid : Bool) : Nat × Fl := (p.nanBits, flIf invalid flNV)

def FNum.isNaN : FNum → Bool
  | .nan _ => true
  | .inf _ | .num _ _ _ => false

def FNum.isSNaN : FNum → Bool
  | .nan s => s
  | .inf _ | .num _ _ _ => false

def FNum.isZero : FNum → Bool
  | .num _ m _ => m == 0
  | .inf _ | .nan _ => false

def FNum.negate : FNum → FNum
  | .nan s => .nan s
  | .inf n => .inf !n
  | .num n m e => .num (!n) m e

def FNum.neg : FNum → Bool
  | .nan _ => false
  | .inf n => n
  | .num n _ _ => n

/-- ± m × 2^e as an integer multiple of 2^low, for low ≤ e. -/
def scaled (neg : Bool) (m : Nat) (e low : Int) : Int :=
  let v : Int := (m <<< (e - low).toNat : Nat)
  if neg then -v else v

/-- The exact sum of finite dyadic terms as (sum, exponent). -/
def sumNums (l : List (Bool × Nat × Int)) : Int × Int :=
  let low := l.foldl (fun a t => if t.2.1 == 0 then a else if t.2.2 < a then t.2.2 else a) 4096
  (l.foldl (fun a t => if t.2.1 == 0 then a else a + scaled t.1 t.2.1 t.2.2 low) 0, low)

/-- The sign of an exact zero sum: the common sign of the terms, else + except when rounding down (R112). -/
def zeroSumSign (rm : Rnd) (l : List Bool) : Bool :=
  if l.all (fun b => b) then true else if l.all (fun b => !b) then false else rm == .rd

/-- The sum of terms that are no NaN, rounded once. -/
def addTerms (p : FloatSpec) (rm : Rnd) (ftz : Bool) (l : List FNum) : Nat × Fl :=
  let pinf := l.any (fun x => x == .inf false)
  let ninf := l.any (fun x => x == .inf true)
  if pinf && ninf then canonNaN p true
  else if pinf then (p.infBits, flNone)
  else if ninf then (signed p true p.infBits, flNone)
  else
    let ts := l.filterMap fun x => match x with
      | .num n m e => some (n, m, e)
      | .inf _ | .nan _ => none
    let (v, e) := sumNums ts
    if v == 0 then (signed p (zeroSumSign rm (ts.map (·.1))) 0, flNone)
    else roundF p rm ftz (decide (v < 0)) v.natAbs e false

/-- The exact product of two values; none when it is 0 × ∞ (R114). -/
def mulNum (a b : FNum) : Option FNum :=
  match a, b with
  | .inf n, .inf m => some (.inf (n != m))
  | .inf n, .num s m _ => if m == 0 then none else some (.inf (n != s))
  | .num s m _, .inf n => if m == 0 then none else some (.inf (n != s))
  | .num s m e, .num t k f => some (.num (s != t) (m * k) (e + f))
  | .nan s, _ => some (.nan s)
  | _, .nan s => some (.nan s)

def faddF (p : FloatSpec) (rm : Rnd) (ftz : Bool) (a b : Nat) : Nat × Fl :=
  let x := flushIn p ftz (unpackF p a)
  let y := flushIn p ftz (unpackF p b)
  if x.isNaN || y.isNaN then canonNaN p (x.isSNaN || y.isSNaN) else addTerms p rm ftz [x, y]

def fsubF (p : FloatSpec) (rm : Rnd) (ftz : Bool) (a b : Nat) : Nat × Fl :=
  let x := flushIn p ftz (unpackF p a)
  let y := flushIn p ftz (unpackF p b)
  if x.isNaN || y.isNaN then canonNaN p (x.isSNaN || y.isSNaN) else addTerms p rm ftz [x, y.negate]

def fmulF (p : FloatSpec) (rm : Rnd) (ftz : Bool) (a b : Nat) : Nat × Fl :=
  let x := flushIn p ftz (unpackF p a)
  let y := flushIn p ftz (unpackF p b)
  if x.isNaN || y.isNaN then canonNaN p (x.isSNaN || y.isSNaN)
  else match mulNum x y with
    | none => canonNaN p true
    | some (.inf n) => (signed p n p.infBits, flNone)
    | some (.num n m e) => roundNum p rm ftz n m e
    | some (.nan _) => canonNaN p false

/-- a × b + c with one rounding; 0 × ∞ is invalid whatever c holds (R114). -/
def fmaF (p : FloatSpec) (rm : Rnd) (ftz : Bool) (a b c : Nat) : Nat × Fl :=
  let x := flushIn p ftz (unpackF p a)
  let y := flushIn p ftz (unpackF p b)
  let z := flushIn p ftz (unpackF p c)
  let sn := x.isSNaN || y.isSNaN || z.isSNaN
  if x.isNaN || y.isNaN then canonNaN p sn
  else match mulNum x y with
    | none => canonNaN p true
    | some t => if z.isNaN then canonNaN p sn else addTerms p rm ftz [t, z]

/-- The dot product of `fdot2`: two products of 16-bit elements and an f32 addend, one f32 rounding (R121). -/
def fdot2F (h : FloatSpec) (rm : Rnd) (ftz : Bool) (a0 a1 b0 b1 c : Nat) : Nat × Fl :=
  let x0 := flushIn h ftz (unpackF h a0)
  let x1 := flushIn h ftz (unpackF h a1)
  let y0 := flushIn h ftz (unpackF h b0)
  let y1 := flushIn h ftz (unpackF h b1)
  let z := unpackF f32S c
  let all := [x0, x1, y0, y1, z]
  let sn := all.any (·.isSNaN)
  match mulNum x0 y0, mulNum x1 y1 with
  | some t0, some t1 =>
    if all.any (·.isNaN) then canonNaN f32S sn else addTerms f32S rm false [t0, t1, z]
  | _, _ => canonNaN f32S true

/-- The integer square root by bits, highest first. -/
def isqrtFrom (n : Nat) : Nat → Nat → Nat
  | 0, r => r
  | i + 1, r => isqrtFrom n i (if (r + 2 ^ i) * (r + 2 ^ i) ≤ n then r + 2 ^ i else r)

def isqrt (n : Nat) : Nat := isqrtFrom n (n.log2 / 2 + 1) 0

/-- a / b for finite non-zero magnitudes, as quotient, exponent and sticky bit, with more bits than any format. -/
def quotient (m : Nat) (e : Int) (k : Nat) (f : Int) : Nat × Int × Bool :=
  let sh := 64 + k.log2 + 1
  let n := m <<< sh
  (n / k, e - f - sh, n % k != 0)

def fdivF (p : FloatSpec) (rm : Rnd) (a b : Nat) : Nat × Fl :=
  match unpackF p a, unpackF p b with
  | .nan s, y => canonNaN p (s || y.isSNaN)
  | .inf _, .nan s => canonNaN p s
  | .num _ _ _, .nan s => canonNaN p s
  | .inf _, .inf _ => canonNaN p true
  | .inf n, .num t _ _ => (signed p (n != t) p.infBits, flNone)
  | .num n _ _, .inf t => (signed p (n != t) 0, flNone)
  | .num n m e, .num t k f =>
    if k == 0 then
      if m == 0 then canonNaN p true else (signed p (n != t) p.infBits, flDZ)
    else if m == 0 then (signed p (n != t) 0, flNone)
    else
      let (q, g, st) := quotient m e k f
      roundF p rm false (n != t) q g st

def frcpF (p : FloatSpec) (rm : Rnd) (ftz : Bool) (a : Nat) : Nat × Fl :=
  match flushIn p ftz (unpackF p a) with
  | .nan s => canonNaN p s
  | .inf n => (signed p n 0, flNone)
  | .num n m e =>
    if m == 0 then (signed p n p.infBits, flDZ)
    else
      let (q, g, st) := quotient 1 0 m e
      roundF p rm ftz n q g st

/-- m × 2^e with an even exponent. -/
def evenExp (m : Nat) (e : Int) : Nat × Int := if e % 2 == 0 then (m, e) else (2 * m, e - 1)

def fsqrtF (p : FloatSpec) (rm : Rnd) (ftz : Bool) (a : Nat) : Nat × Fl :=
  match flushIn p ftz (unpackF p a) with
  | .nan s => canonNaN p s
  | .inf n => if n then canonNaN p true else (p.infBits, flNone)
  | .num n m e =>
    if m == 0 then (signed p n 0, flNone)
    else if n then canonNaN p true
    else
      let (k, f) := evenExp m e
      let v := k <<< 128
      let r := isqrt v
      roundF p rm ftz false r (f / 2 - 64) (r * r != v)

def frsqF (p : FloatSpec) (rm : Rnd) (ftz : Bool) (a : Nat) : Nat × Fl :=
  match flushIn p ftz (unpackF p a) with
  | .nan s => canonNaN p s
  | .inf n => if n then canonNaN p true else (0, flNone)
  | .num n m e =>
    if m == 0 then (signed p n p.infBits, flDZ)
    else if n then canonNaN p true
    else
      let (k, f) := evenExp m e
      let sh := 2 * (70 + k.log2)
      let v := (1 <<< sh) / k
      let r := isqrt v
      roundF p rm ftz false r (-(f / 2) - (sh / 2 : Nat)) ((1 <<< sh) % k != 0 || r * r != v)

/-- Round to an integral value in the same format (R118). -/
def frndF (p : FloatSpec) (rm : Rnd) (ftz : Bool) (a : Nat) : Nat × Fl :=
  match flushIn p ftz (unpackF p a) with
  | .nan s => canonNaN p s
  | .inf n => (signed p n p.infBits, flNone)
  | .num n m e =>
    if m == 0 then (signed p n 0, flNone)
    else
      let r := (roundShift rm n m false (-e)).1
      if 0 ≤ e then ((roundNum p .rz false n m e).1, flNone) else ((roundNum p .rz false n r 0).1, flNone)

/-- a × 2^n with one rounding (R120). -/
def fscaleF (p : FloatSpec) (rm : Rnd) (a : Nat) (n : Int) : Nat × Fl :=
  match unpackF p a with
  | .nan s => canonNaN p s
  | .inf s => (signed p s p.infBits, flNone)
  | .num s m e => roundNum p rm false s m (e + n)

/-- The class mask of raw bits (R118). -/
def fclassF (p : FloatSpec) (a : Nat) : Nat :=
  match unpackF p a with
  | .nan s => if s then 1 else 2
  | .inf n => if n then 4 else 512
  | .num n m e =>
    if m == 0 then (if n then 32 else 64)
    else if decide (m < 2 ^ p.mb) && e == p.qmin then (if n then 16 else 128)
    else if n then 8 else 256

/-- Order of two values that are no NaN; with `zeros` −0 ranks below +0 (R117), else they are equal. -/
def ltNum (zeros : Bool) (a b : FNum) : Bool :=
  match a, b with
  | .inf n, .inf m => n && !m
  | .inf n, .num _ _ _ => n
  | .num _ _ _, .inf m => !m
  | .num s m e, .num t k f =>
    if m == 0 && k == 0 then zeros && s && !t
    else
      let (d, _) := sumNums [(s, m, e), (!t, k, f)]
      decide (d < 0)
  | .nan _, _ => false
  | _, .nan _ => false

/-- The bits an operand stands for after `flushIn` (R113, R117). -/
def flushBits (p : FloatSpec) (ftz : Bool) (b : Nat) : Nat :=
  match flushIn p ftz (unpackF p b) with
  | .num n m _ => if m == 0 then signed p n 0 else b
  | .inf _ | .nan _ => b

/-- `fmin`, `fmax` (number forms) and `fminm`, `fmaxm` (R117, R114). -/
def fminmaxF (p : FloatSpec) (ftz isMax number : Bool) (a b : Nat) : Nat × Fl :=
  let x := flushIn p ftz (unpackF p a)
  let y := flushIn p ftz (unpackF p b)
  let nv := flIf (x.isSNaN || y.isSNaN) flNV
  if x.isNaN && y.isNaN then (p.nanBits, nv)
  else if x.isNaN then (if number then flushBits p ftz b else p.nanBits, nv)
  else if y.isNaN then (if number then flushBits p ftz a else p.nanBits, nv)
  else
    let takeB := if isMax then ltNum true x y else ltNum true y x
    (flushBits p ftz (if takeB then b else a), flNone)

/-- `fcmp` (R117): result and flags. -/
def fcmpF (p : FloatSpec) (ftz : Bool) (cc : BitVec 4) (a b : Nat) : Bool × Fl :=
  let x := flushIn p ftz (unpackF p a)
  let y := flushIn p ftz (unpackF p b)
  let un := x.isNaN || y.isNaN
  let lt := ltNum false x y
  let gt := ltNum false y x
  let ordered := decide (2 ≤ cc.toNat) && decide (cc.toNat ≤ 5)
  let fl := flIf (un && (ordered || x.isSNaN || y.isSNaN)) flNV
  let r := match cc.toNat with
    | 0 => !un && !lt && !gt
    | 1 => un || lt || gt
    | 2 => !un && lt
    | 3 => !un && !gt
    | 4 => !un && gt
    | 5 => !un && !lt
    | 6 => un
    | 7 => !un
    | _ => false
  (r, fl)

end Sys2Proof.Machine
end

