-- ==== Sys2Proof/Machine/PwCode.lean ====
section
/-! DEFINITION. The Plynwick block code (R168 to R175) and the encode of a written block (R178), on exact integers. A code
is a number whose bit 0 is bit 0 of the block's first byte. -/

namespace Sys2Proof.Machine

/-- Dimension, element type (f64 when `dbl`), rate in bits per element (R168). -/
structure PwGeom where
  dim : Nat
  dbl : Bool
  rate : Nat
  deriving DecidableEq, Repr

/-- Elements of a block, element bytes, code bits and bytes (R168). -/
def PwGeom.elems (g : PwGeom) : Nat := 4 ^ g.dim
def PwGeom.esize (g : PwGeom) : Nat := if g.dbl then 8 else 4
def PwGeom.bits (g : PwGeom) : Nat := g.elems * g.rate
def PwGeom.bytes (g : PwGeom) : Nat := g.bits / 8

/-- The permitted geometries (R168). -/
def PwGeom.ok (g : PwGeom) : Bool :=
  match g.dim with
  | 1 => g.rate == 8 || g.rate == 16 || g.rate == 24 || g.rate == 32
  | 2 => g.rate % 2 == 0 && 2 ≤ g.rate && g.rate ≤ 32
  | 3 => 1 ≤ g.rate && g.rate ≤ 32
  | _ => false

def PwGeom.spec (g : PwGeom) : FloatSpec := if g.dbl then f64S else f32S
/-- Width of the exponent field, integer scale F, and the exponent range (R171). -/
def PwGeom.x (g : PwGeom) : Nat := g.spec.eb
def PwGeom.f (g : PwGeom) : Nat := if g.dbl then 62 else 30
def PwGeom.emax (g : PwGeom) : Int := g.spec.bias
def PwGeom.emin (g : PwGeom) : Int := 1 - (g.spec.bias : Int)

/-- Class of coefficient j: its non-zero base-4 digits (R172). -/
def pwClass (j : Nat) : Nat := [j % 4, j / 4 % 4, j / 16].foldl (fun a t => if t = 0 then a else a + 1) 0

/-- Bits of all coefficients at precision P. -/
def pwSum (g : PwGeom) (p : Nat) : Nat := (List.range g.elems).foldl (fun a j => a + (p - pwClass j)) 0

/-- The greatest precision from `p` down whose coefficients fit (R172); 0 when none fits. -/
def pwFit (g : PwGeom) (c : Int) : Nat → Nat
  | 0 => 0
  | p + 1 => if (pwSum g (p + 1) : Int) ≤ c then p + 1 else pwFit g c p

/-- Precision of the normal form, and of the escape form (R172, R175). -/
def pwPrec (g : PwGeom) (esc : Bool) : Nat :=
  pwFit g (if esc then (g.bits : Int) - 2 * g.x - 2 * g.elems else (g.bits : Int) - g.x) (g.f + 2)

/-- Quantisation shift of a coefficient. -/
def pwShift (g : PwGeom) (p j : Nat) : Nat := g.f + 2 + 2 * pwClass j - p

/-- Replace every line of a dimension (R173). -/
def pwLines (step : Int → Int → Int → Int → List Int) (x : List Int) (i : Nat) : List Int :=
  let st := 4 ^ i
  (List.range x.length).map fun j =>
    let t := j / st % 4
    let b := j - t * st
    (step (x.getD b 0) (x.getD (b + st) 0) (x.getD (b + 2 * st) 0) (x.getD (b + 3 * st) 0)).getD t 0

def pwFwdLine (y0 y1 y2 y3 : Int) : List Int :=
  let d0 := y0 - y1
  let s0 := y1 + d0 / 2
  let d1 := y2 - y3
  let s1 := y3 + d1 / 2
  let dd := s0 - s1
  [s1 + dd / 2, dd, d0, d1]

def pwInvLine (s dd d0 d1 : Int) : List Int :=
  let s1 := s - dd / 2
  let s0 := s1 + dd
  let y1 := s0 - d0 / 2
  let y3 := s1 - d1 / 2
  [y1 + d0, y1, y3 + d1, y3]

/-- The transform along dimensions 0, 1, 2 and its inverse (R173). -/
def pwForward (g : PwGeom) (x : List Int) : List Int := (List.range g.dim).foldl (pwLines pwFwdLine) x
def pwInverse (g : PwGeom) (x : List Int) : List Int := (List.range g.dim).reverse.foldl (pwLines pwInvLine) x

/-- `m / 2^k` rounded to nearest, ties to even. -/
def rneDiv (m : Int) (k : Nat) : Int :=
  let q := m / 2 ^ k
  let r := m - q * 2 ^ k
  if k = 0 then q else if 2 ^ (k - 1) < r ∨ (r = 2 ^ (k - 1) ∧ q % 2 = 1) then q + 1 else q

/-- `m × 2^e` rounded to an integer, to nearest even. -/
def rneScale (m e : Int) : Int := if 0 ≤ e then m * 2 ^ e.toNat else rneDiv m (-e).toNat

/-- A current value of an element: class 0 finite, 1 +∞, 2 -∞, 3 NaN; and m × 2^e when finite. -/
structure PwVal where
  cls : Nat
  m : Int
  e : Int
  deriving DecidableEq, Repr

/-- A carried code read: escape form, exponent, classes, clean integers (R176). -/
structure PwRead where
  esc : Bool
  e : Option Int
  cls : List Nat
  x : List Int
  deriving DecidableEq, Repr

/-- Two's-complement value of `n` bits. -/
def signedField (n v : Nat) : Int := if n = 0 then 0 else if 2 ^ (n - 1) ≤ v then (v : Int) - 2 ^ n else v

/-- The coefficients of fields that start at a bit, in ascending j. -/
def pwFields (p code : Nat) : Nat → List Nat → List Int
  | _, [] => []
  | at_, j :: js =>
    let a := p - pwClass j
    signedField a (code / 2 ^ at_ % 2 ^ a) :: pwFields p code (at_ + a) js

/-- Integers of the coefficients that start at a bit (R174). -/
def pwInts (g : PwGeom) (p code at_ : Nat) : List Int :=
  pwInverse g ((pwFields p code at_ (List.range g.elems)).zipIdx.map fun q => q.1 * 2 ^ pwShift g p q.2)

/-- The exponent of a field, none for 0 and for all ones (R171, R175). -/
def pwExpOf (g : PwGeom) (f : Nat) : Option Int :=
  if f = 0 ∨ f = 2 ^ g.x - 1 then none else some ((f : Int) - g.spec.bias)

/-- Whether the escape form has room for one class only (R175). -/
def pwSingle (g : PwGeom) : Bool := decide (g.bits < g.x + 2 * g.elems)

/-- Read a code (R174, R175). -/
def pwDecode (g : PwGeom) (code : Nat) : PwRead :=
  let zeros := List.replicate g.elems (0 : Int)
  let none0 := List.replicate g.elems 0
  let f := code % 2 ^ g.x
  if f = 0 then ⟨false, none, none0, zeros⟩
  else if f ≠ 2 ^ g.x - 1 then ⟨false, pwExpOf g f, none0, pwInts g (pwPrec g false) code g.x⟩
  else if pwSingle g then ⟨true, none, List.replicate g.elems (code / 2 ^ g.x % 4), zeros⟩
  else
    let cls := (List.range g.elems).map fun k => code / 2 ^ (g.x + 2 * k) % 4
    let top := g.x + 2 * g.elems
    match pwExpOf g (code / 2 ^ top % 2 ^ g.x) with
    | none => ⟨true, none, cls, zeros⟩
    | some e => ⟨true, some e, cls, pwInts g (pwPrec g true) code (top + g.x)⟩

/-- The bits a load returns for a class or a value (R174, R175). -/
def pwBits (g : PwGeom) (v : PwVal) : Nat :=
  match v.cls with
  | 1 => g.spec.infBits
  | 2 => g.spec.signBit + g.spec.infBits
  | 3 => g.spec.nanBits
  | _ => if v.m = 0 then 0 else (roundNum g.spec .rn false (decide (v.m < 0)) v.m.natAbs v.e).1

/-- The value of a stored element. -/
def pwOfBits (g : PwGeom) (b : Nat) : PwVal :=
  match unpackF g.spec b with
  | .nan _ => ⟨3, 0, 0⟩
  | .inf n => ⟨if n then 2 else 1, 0, 0⟩
  | .num n m e => ⟨0, if n then -(m : Int) else m, e⟩

/-- The clean value of element k. -/
def PwRead.val (g : PwGeom) (r : PwRead) (k : Nat) : PwVal :=
  ⟨r.cls.getD k 0, r.x.getD k 0, match r.e with | some e => e - g.f | none => 0⟩

/-- ExpOf of a non-zero value (R171). -/
def pwExp (g : PwGeom) (v : PwVal) : Int :=
  let l := (v.m.natAbs.log2 : Int) + v.e
  if l < g.emin then g.emin else if g.emax < l then g.emax else l

/-- The exponent of a set of finite values (R171). -/
def pwNeed (g : PwGeom) (v : List PwVal) : Option Int :=
  let big := (v.filter fun x => x.cls == 0 && x.m != 0).map (pwExp g)
  if big.isEmpty then none else some (big.foldl max g.emin)

/-- The exponent field of an exponent. -/
def pwExpField (g : PwGeom) : Option Int → Nat
  | none => 0
  | some e => (e + g.spec.bias).toNat

/-- Pack quantised coefficients from bit 0. -/
def pwPack (p : Nat) : List (Int × Nat) → Nat
  | [] => 0
  | (q, j) :: r =>
    let a := p - pwClass j
    (q % 2 ^ a).toNat + pwPack p r * 2 ^ a

/-- The code of a form, classes, exponent and quantised coefficients. -/
def pwAssemble (g : PwGeom) (esc : Bool) (cls : List Nat) (e : Option Int) (q : List Int) : Nat :=
  let p := pwPrec g esc
  let ones := 2 ^ g.x - 1
  let body := if e.isNone then 0 else pwPack p (q.zip (List.range g.elems))
  if !esc then pwExpField g e + body * 2 ^ g.x
  else if pwSingle g then
    let c := if cls.contains 3 || (cls.contains 1 && cls.contains 2) then 3
             else if cls.contains 1 then 1 else if cls.contains 2 then 2 else 0
    ones + c * 2 ^ g.x
  else
    let classes := cls.zipIdx.foldl (fun a c => a + c.1 * 2 ^ (2 * c.2)) 0
    ones + classes * 2 ^ g.x + (pwExpField g e + body * 2 ^ g.x) * 2 ^ (g.x + 2 * g.elems)

/-- FullEncode of R174, in a form. -/
def pwFull (g : PwGeom) (esc : Bool) (v : List PwVal) (e : Option Int) : Nat :=
  let p := pwPrec g esc
  let cls := v.map (·.cls)
  match e with
  | none => pwAssemble g esc cls none []
  | some e =>
    let x := v.map fun a => if a.cls ≠ 0 then 0 else rneScale a.m (a.e + g.f - e)
    let q := (pwForward g x).zipIdx.map fun c =>
      let a := p - pwClass c.2
      if a = 0 then 0 else
      let r := rneDiv c.1 (pwShift g p c.2)
      let hi : Int := 2 ^ (a - 1)
      if r < -hi then -hi else if hi - 1 < r then hi - 1 else r
    pwAssemble g esc cls (some e) q

/-- Encode of R178: the carried code and the written elements. -/
def pwEncode (g : PwGeom) (code : Nat) (written : List (Nat × BitVec 64)) : Nat :=
  let old := pwDecode g code
  let w := fun k => (written.find? (·.1 == k)).map fun p => pwOfBits g p.2.toNat
  let cur := (List.range g.elems).map fun k => (w k).getD (old.val g k)
  let cls := cur.map (·.cls)
  let esc := cls.any (· != 0) || old.esc
  let need := pwNeed g cur
  let p := pwPrec g esc
  let rise := match need, old.e with
    | none, _ => false
    | some _, none => true
    | some n, some e => decide (e < n)
  let top := match need, old.e with
    | none, e => e
    | n, none => n
    | some n, some e => some (max n e)
  if esc != old.esc || cls != old.cls || rise || (List.range g.elems).all (fun k => (w k).isSome) then
    pwFull g esc cur top
  else match old.e with
  | none => pwAssemble g esc cls none []
  | some e =>
    let gg := pwShift g p 0 + 3 * g.dim
    let x := (List.range g.elems).map fun k =>
      let ox := old.x.getD k 0
      match w k with
      | none => ox
      | some v => if v.cls ≠ 0 then ox else
        let sh := v.e + g.f - e
        let t := if 0 ≤ sh then rneDiv (v.m * 2 ^ sh.toNat - ox) gg
                 else rneDiv (v.m - ox * 2 ^ (-sh).toNat) (gg + (-sh).toNat)
        ox + t * 2 ^ gg
    let q := (pwForward g x).zipIdx.map fun c => (c.1 / 2 ^ pwShift g p c.2, p - pwClass c.2)
    if q.all fun c => if c.2 = 0 then c.1 == 0 else decide (-(2 ^ (c.2 - 1) : Int) ≤ c.1) && decide (c.1 < 2 ^ (c.2 - 1)) then
      pwAssemble g esc cls (some e) (q.map (·.1))
    else pwFull g esc cur (some (min (e + 1) g.emax))

/-- The code that `pwnorm` makes (R186). -/
def pwNormCode (g : PwGeom) (code : Nat) (written : List (Nat × BitVec 64)) : Nat :=
  let old := pwDecode g code
  let cur := (List.range g.elems).map fun k =>
    ((written.find? (·.1 == k)).map fun p => pwOfBits g p.2.toNat).getD (old.val g k)
  pwFull g ((cur.map (·.cls)).any (· != 0)) cur (pwNeed g cur)

end Sys2Proof.Machine
end

