-- ==== Sys2Proof/Machine/Home.lean ====
section
/-! DEFINITION. The home domes and the memory behind them (R354 to R368): the buffer table and its check stage, fills,
evictions, ownership and recalls (R243), replicas (R358), deterministic marks (R258, R357), access counters (R368). -/

namespace Sys2Proof.Machine

/-! ## The buffer table (R360, R362, R363) -/

/-- The fields of a buffer-table entry (R360). -/
structure Buf where
  v : Bool
  rd : Bool
  wr : Bool
  enc : Bool
  coded : Bool
  geom : PwGeom
  stripe : Nat
  hmask : Nat
  key : Nat
  owner : Nat
  len : Nat
  base : Nat
  deriving DecidableEq, Repr

def bufFields (x : BitVec 256) : Buf :=
  let n := x.toNat
  { v := bitN n 255, rd := bitN n 254, wr := bitN n 253, enc := bitN n 252, coded := bitN n 251
    geom := ⟨fieldN n 250 249, bitN n 248, fieldN n 247 243 + 1⟩
    stripe := fieldN n 242 240, hmask := fieldN n 239 236, key := fieldN n 233 224, owner := fieldN n 223 192
    len := fieldN n 187 160, base := fieldN n 155 128 }

/-- The reset value of an entry: HMASK 0x1, the rest 0 (R360). -/
def bufReset : BitVec 256 := BitVec.ofNat 256 (2 ^ 236)

def State.buf (s : State) (i : Nat) : Buf := bufFields (mapGetD s.bufs i bufReset)

/-- The bits that select a controller: HBM4 stacks hold 2^36 bytes, capacity controllers 2^39 (R20). -/
def unitBits (pa : Nat) : Nat := if pa < 2 ^ 40 then 36 else 39
def numUnits (pa : Nat) : Nat := if pa < 2 ^ 40 then 16 else 8
def unitBase (pa : Nat) : Nat := if pa < 2 ^ 40 then 0 else 2 ^ 42

/-- Physical address of a byte of a buffer, striped (R362, R363). -/
def Buf.place (b : Buf) (o : Nat) : Nat :=
  let base := b.base * 65536
  if b.stripe = 0 then base + o else
  let size := 2 ^ unitBits base
  let k0 := (base - unitBase base) / size
  let piece := o / 4096
  let unit := (k0 + piece % 2 ^ b.stripe) % numUnits base
  unitBase base + unit * size + (base - unitBase base) % size + piece / 2 ^ b.stripe * 4096 + o % 4096

/-- The coded offset of the block that an element-view offset lies in (R169). -/
def Buf.codedOff (b : Buf) (o : Nat) : Nat := o / (b.geom.elems * b.geom.esize) * b.geom.bytes

/-- Physical address of an offset (R362). -/
def Buf.pa (b : Buf) (o : Nat) : Nat := if b.coded then b.place (b.codedOff o) else b.place o

/-- What asks: a protection domain, and for RDMA connections and graph walkers the key slot of test 5 (R361). -/
structure Asker where
  pd : Nat
  key : Option Nat
  deriving DecidableEq, Repr

/-- The check stage (R361): 0 when every test passes, else the detail of machine check 0x0C. `n` bytes at offset `o`. -/
def State.check (s : State) (a : Asker) (write : Bool) (buf o n : Nat) : Nat :=
  let b := s.buf buf
  let last := if b.coded then b.codedOff o + b.geom.bytes else o + n
  if !b.v || b.owner != a.pd then 2
  else if !(if write then b.wr else b.rd) then 2
  else if b.len * 65536 < last then 2
  else if b.enc && (mapGet s.keys b.key).isNone then 3
  else match a.key with
    | some k => if b.enc && b.key != k then 3 else 0
    | none => 0

/-! ## Places of lines -/

/-- Home dome of a line (R354). -/
def homeDome (line : Nat) : Nat :=
  let h := (List.range 6).foldl (fun h i => Nat.xor h (fieldN line (6 * i + 5) (6 * i))) (fieldN line 36 36)
  24 * (h / 8) + 8 * (line % 3) + h % 8

def domeSector (d : Nat) : Nat := d / 8
def domeSpire (d : Nat) : Nat := d / 24

/-- Set of a line within its dome (log entry 10). -/
def domeSet (line : Nat) : Nat := line / 192 % 1024

/-- The memory port (0 to 15) or capacity controller (16 to 23) of an address (R368). -/
def portOf (pa : Nat) : Nat := (if pa < 2 ^ 40 then 0 else 16) + (pa - unitBase pa) / 2 ^ unitBits pa

/-- The HBM4 channel of an address, by 32 × stack + channel (R364). -/
def channelOf (hmask pa : Nat) : Nat :=
  let a := pa % 2 ^ 36
  let c := [fieldN a 19 14, fieldN a 25 20, fieldN a 31 26, fieldN a 35 32]
  let p := c.zipIdx.foldl (fun p x => if bitN hmask x.2 then Nat.xor p x.1 else p) (fieldN a 13 8)
  32 * (pa / 2 ^ 36) + fieldN p 5 1

/-! ## Access counters (R368) -/

/-- Count one dome fill or write-back; reaching THRESH with EN posts a tiering record once. -/
def State.countPage (s : State) (pa : Nat) : State :=
  let page := pa / 65536
  let n := min 0xFFFF (mapGetD s.counters page 0 + 1)
  let ctl := mapGetD s.tierCtl (portOf pa) 0xFFFF0000#32
  let th := fieldN ctl.toNat 31 16
  let hit := decide (th ≤ n) && (mapGet s.posted page).isNone
  let s := { s with counters := mapSet s.counters page n }
  if !hit then s
  else if !ctl.getLsbD 0 then { s with posted := mapSet s.posted page 0 }
  else { s with posted := mapSet s.posted page 1
                rings := { s.rings with tierPend := s.rings.tierPend ++ [(page * 65536, n, portOf pa)] } }

/-! ## Lines -/

/-- The key under which a buffer's data stands in memory. -/
def State.keyOf (s : State) (enc : Bool) (slot : Nat) : Option Key := if enc then mapGet s.keys slot else none

/-- Drop the replicas of a line (R359). -/
def State.dropReplicas (s : State) (ln : Nat) : State :=
  { s with replicas := mapFilter s.replicas fun k _ => k / 24 != ln
           domes := mapUpd s.domes ln fun d => { d with replicas := [] } }

/-- Merge bytes into a held line, marking the halves they touch dirty; its replicas are dropped first (R356, R359). -/
def State.putLine (s : State) (ln at_ : Nat) (bs : List Byte) : State :=
  let s := s.dropReplicas ln
  { s with domes := mapUpd s.domes ln fun d =>
      { d with data := putBytes d.data at_ bs
               dirty0 := d.dirty0 || (at_ < 64 && !bs.isEmpty)
               dirty1 := d.dirty1 || (64 < at_ + bs.length && !bs.isEmpty) } }

/-- Bytes of a held line. -/
def State.lineBytes (s : State) (ln at_ n : Nat) : List Byte :=
  match mapGet s.domes ln with
  | some d => getBytes d.data at_ n
  | none => zeroBytes n

/-- Words of a line that bytes `at_ .. at_ + n - 1` touch, as a mask. -/
def wordMask (at_ n : Nat) : Word := maskOf ((List.range 32).filter fun w => at_ < 4 * w + 4 && 4 * w < at_ + n)

/-- Whether a byte of a line lies in a word of a mask. -/
def inWords (m : Word) (i : Nat) : Bool := m.getLsbD (i / 4)

/-- Record a machine check due at the next release of a band's threads (R361, R249). -/
def State.failRelease (s : State) (c slot detail : Nat) : State :=
  s.updBand c slot fun b => { b with relFail := b.relFail ++ [detail] }

/-- Write back some dirty bytes of one L1 line to its home, checked (R361); a refused byte is discarded and its writer's
next release fails. The line must be held. -/
def State.backBytes (s : State) (c : Nat) (l : L1Line) (sel : Nat → Bool) : State :=
  let bytes := (List.range 128).filter fun i => l.dirty.getLsbD i && sel i
  if bytes.isEmpty then s else
  let d := s.check ⟨l.pd, none⟩ true l.buf l.off 128
  if d = 0 then bytes.foldl (fun s i => s.putLine l.line i (getBytes l.data i 1)) s
  else (bytes.filterMap fun i => mapGet l.writer i).dedup.foldl (fun s w => s.failRelease c w d) s

/-- The dirty bits of an L1 line cleared for some bytes. -/
def L1Line.clean (l : L1Line) (sel : Nat → Bool) : L1Line :=
  { l with dirty := (List.range 128).foldl (fun m i => if sel i then m &&& ~~~(BitVec.ofNat 128 (2 ^ i)) else m) l.dirty
           writer := mapFilter l.writer fun i _ => !sel i }

/-- Recall words of a held line from its owners but one (R243): each writes back its dirty bytes of them and gives them
up. -/
def State.recall (s : State) (ln : Nat) (words : Word) (but : Option Nat) : State :=
  match mapGet s.domes ln with
  | none => s
  | some d =>
    let s := (d.owners.filter fun o => some o.1 != but && o.2 &&& words != 0).foldl (fun s o =>
      let m := o.2 &&& words
      let s := ((s.core o.1).l1.filter (·.line == ln)).foldl (fun s l => s.backBytes o.1 l (inWords m)) s
      s.updCore o.1 fun k => { k with l1 := k.l1.map fun l => if l.line = ln then l.clean (inWords m) else l }) s
    { s with domes := mapUpd s.domes ln fun d =>
        { d with owners := (d.owners.map fun o => if some o.1 = but then o else (o.1, o.2 &&& ~~~words)).filter (·.2 != 0) } }

/-- Write the dirty halves of a held line to memory under its key (R356, R365). -/
def State.flushLine (s : State) (ln : Nat) : State :=
  match mapGet s.domes ln with
  | none => s
  | some d =>
    let key := s.keyOf d.enc d.key
    let s := if d.dirty0 then (s.countPage (ln * 128)).putHalf key (ln * 128) (d.data.extractLsb' 0 512) else s
    let s := if d.dirty1 then (s.countPage (ln * 128)).putHalf key (ln * 128 + 64) (d.data.extractLsb' 512 512) else s
    { s with domes := mapUpd s.domes ln fun d => { d with dirty0 := false, dirty1 := false } }

/-- Evict a line: recall its owners, drop its replicas, write back (R356). -/
def State.evictLine (s : State) (ln : Nat) : State :=
  let s := ((s.recall ln allLanes none).dropReplicas ln).flushLine ln
  { s with domes := mapDel s.domes ln }

/-- Whether a line holds a deterministic mark and is pinned (R357). -/
def State.marked (s : State) (ln : Nat) : Bool := s.marks.any fun p => p.1 / 32 == ln

/-- Make room in a line's set: the way filled longest ago among those not pinned goes (log entry 10). -/
def State.makeRoom (s : State) (ln : Nat) : State :=
  let same := s.domes.filter fun p => homeDome p.1 == homeDome ln && domeSet p.1 == domeSet ln
  if same.length < 16 then s else
  match (same.filter fun p => !s.marked p.1).foldl (fun (a : Option (Nat × DomeLine)) p =>
      match a with
      | none => some p
      | some q => if p.2.age < q.2.age then some p else a) none with
  | some p => s.evictLine p.1
  | none => s

/-- A fill of a line that is not held, through a buffer's key (R356): the state, or a machine check of detail 1 from a
channel out of service (R367). -/
def State.fill (s : State) (enc : Bool) (key pd hmask ln : Nat) : State × Nat :=
  if (mapGet s.domes ln).isSome then (s, 0) else
  if ln * 128 < 2 ^ 40 && (mapGetD s.chans (channelOf hmask (ln * 128)) Channel.fresh).offline then (s, 1) else
  let s := s.makeRoom ln
  let k := s.keyOf enc key
  let data := s.halfUnder k (ln * 128 + 64) ++ s.halfUnder k (ln * 128)
  let s := (s.countPage (ln * 128)).count (domeSpire (homeDome ln)) 6 1
  ({ s with nextAge := s.nextAge + 1
            domes := mapSet s.domes ln ⟨data, false, false, key, enc, pd, [], [], s.nextAge⟩ }, 0)

/-- A fill through a buffer. -/
def State.fillBuf (s : State) (b : Buf) (ln : Nat) : State × Nat := s.fill b.enc b.key b.owner b.hmask ln

/-! ## Reads and writes at the home dome -/

/-- Cut `n` bytes at `o` into pieces that stay within a 128-byte line. -/
def pieces : Nat → Nat → Nat → List (Nat × Nat)
  | 0, _, _ => []
  | fuel + 1, o, n =>
    if n = 0 then [] else
    let k := min n (128 - o % 128)
    (o, k) :: pieces fuel (o + k) (n - k)

def piecesOf (o n : Nat) : List (Nat × Nat) := pieces (n / 128 + 2) o n

/-- Read bytes of a buffer at their home, checked: a detail, or the bytes. `off` maps an offset to its physical
address. -/
def State.readAt (s : State) (a : Asker) (buf : Nat) (o n : Nat) : State × Nat × List Byte :=
  let b := s.buf buf
  (piecesOf o n).foldl (fun r p =>
    let (s, err, bs) := r
    if err != 0 then r else
    let e := s.check a false buf p.1 p.2
    if e != 0 then (s, e, []) else
    let pa := b.place p.1
    let (s, e) := s.fillBuf b (pa / 128)
    if e != 0 then (s, e, []) else (s, 0, bs ++ s.lineBytes (pa / 128) (pa % 128) p.2)) (s, 0, [])

/-- Write bytes of a buffer at their home, checked, after the recalls of R243 and R359: a detail, or 0. -/
def State.writeAt (s : State) (a : Asker) (buf : Nat) (o : Nat) (bs : List Byte) : State × Nat :=
  let b := s.buf buf
  (piecesOf o bs.length).foldl (fun r p =>
    let (s, err) := r
    if err != 0 then r else
    let e := s.check a true buf p.1 p.2
    if e != 0 then (s, e) else
    let pa := b.place p.1
    let (s, e) := s.fillBuf b (pa / 128)
    if e != 0 then (s, e) else
    ((s.recall (pa / 128) (wordMask (pa % 128) p.2) none).putLine (pa / 128) (pa % 128) (sliceN bs (p.1 - o) p.2), 0))
    (s, 0)

/-- Read physical bytes of one line at their home, as the page-table walker does (R151). -/
def State.readPhys (s : State) (pa n : Nat) : State × List Byte :=
  let (s, _) := s.fill false 0 0 0 (pa / 128)
  (s, s.lineBytes (pa / 128) (pa % 128) n)

/-! ## Deterministic marks (R258, R357) -/

/-- Mark records in a dome. -/
def State.markRecords (s : State) (d : Nat) : Nat :=
  ((s.marks.map fun p => p.1 / 32).dedup.filter fun ln => homeDome ln == d).length

/-- Mark the words of a line with a task of a deterministic launch; a line that finds its dome full of records is marked
overflowed. -/
def State.mark (s : State) (launch task ln : Nat) (words : Word) : State :=
  if words = 0 then s
  else if !s.marked ln && 2048 ≤ s.markRecords (homeDome ln) then
    { s with overflowed := mapSet s.overflowed ln launch }
  else { s with marks := (lanesOf words).foldl (fun m w => mapSet m (32 * ln + w) (launch, task)) s.marks }

/-- Whether an atomic of a launch's task at a word must trap (R258, R357). -/
def State.markBars (s : State) (launch task ln w : Nat) : Bool :=
  mapGet s.overflowed ln == some launch ||
  match mapGet s.marks (32 * ln + w) with
  | some (l, t) => l == launch && t != task
  | none => false

/-- Clear a launch's marks (R258). -/
def State.clearMarks (s : State) (launch : Nat) : State :=
  { s with marks := mapFilter s.marks fun _ v => v.1 != launch
           overflowed := mapFilter s.overflowed fun _ v => v != launch }

/-! ## Registration (R243, R356) -/

/-- A registration reaches its home: check, recall of the words from other owners, and of the oldest record when a fifth
would be needed, then the owner record. -/
def State.register (s : State) (c : Nat) (r : Registration) : State :=
  let e := s.check ⟨r.pd, none⟩ true r.buf r.off 128
  if e != 0 then s.failRelease c r.slot e else
  let (s, e) := s.fillBuf (s.buf r.buf) r.line
  if e != 0 then s.failRelease c r.slot e else
  let s := s.recall r.line r.words (some c)
  let owners := (mapGet s.domes r.line).elim [] fun (d : DomeLine) => d.owners
  let s := if owners.any (·.1 == c) || owners.length < 4 then s else
    match owners with
    | [] => s
    | o :: _ => s.recall r.line o.2 none
  let s := { s with domes := mapUpd s.domes r.line fun d =>
      { d with owners := if d.owners.any (·.1 == c) then d.owners.map fun (o : Nat × Word) => if o.1 = c then (c, o.2 ||| r.words) else o
                         else d.owners ++ [(c, r.words)] } }
  let k := s.core c
  let t := k.task (k.taskOfBand r.slot)
  if (s.launch t.launch).det then s.mark t.launch t.number r.line r.words else s

/-- Give up ownership of words of a line whose dirty bytes are all written back (R244 step 3). -/
def State.retire (s : State) (c ln : Nat) (words : Word) : State :=
  { s with domes := mapUpd s.domes ln fun d =>
      { d with owners := (d.owners.map fun (o : Nat × Word) => if o.1 = c then (c, o.2 &&& ~~~words) else o).filter (·.2 != 0) } }

/-! ## Plynwick blocks at their home (R169, R181, R182) -/

def PwBlock.geom (p : PwBlock) : PwGeom := ⟨p.dim, p.dbl, p.rate⟩

/-- The key of a block in the ownership map. -/
def pwKey (buf block : Nat) : Nat := 2 ^ 28 * buf + block

/-- Element-view offset of a block's first element. -/
def PwGeom.blockOff (g : PwGeom) (block : Nat) : Nat := block * (g.elems * g.esize)

/-- Read a block's code at its home. -/
def State.readCode (s : State) (a : Asker) (buf block : Nat) : State × Nat × List Byte :=
  let b := s.buf buf
  let e := s.check a false buf (b.geom.blockOff block) 1
  if e != 0 then (s, e, []) else
  (piecesOf (block * b.geom.bytes) b.geom.bytes).foldl (fun r p =>
    let (s, err, bs) := r
    if err != 0 then r else
    let pa := b.place p.1
    let (s, e) := s.fillBuf b (pa / 128)
    if e != 0 then (s, e, []) else (s, 0, bs ++ s.lineBytes (pa / 128) (pa % 128) p.2)) (s, 0, [])

/-- Write a block's code at its home. -/
def State.writeCode (s : State) (a : Asker) (buf block : Nat) (code : List Byte) : State × Nat :=
  let b := s.buf buf
  let o := block * b.geom.bytes
  let e := s.check a true buf (b.geom.blockOff block) 1
  if e != 0 then (s, e) else
  (piecesOf o code.length).foldl (fun r p =>
    let (s, err) := r
    if err != 0 then r else
    let pa := b.place p.1
    let (s, e) := s.fillBuf b (pa / 128)
    if e != 0 then (s, e) else
    ((s.recall (pa / 128) (wordMask (pa % 128) p.2) none).putLine (pa / 128) (pa % 128) (sliceN code (p.1 - o) p.2), 0))
    (s, 0)

/-- The code of a block held in an L1, as an encode would give it (R178). -/
def PwBlock.encoded (p : PwBlock) : List Byte :=
  if p.written.isEmpty then p.code else bytesOf p.geom.bytes (pwEncode p.geom (ofBytes p.code) p.written)

/-- Encode a written block and write its code to its home; a refusal is due at its writers' next release. -/
def State.pwWriteBack (s : State) (c : Nat) (p : PwBlock) : State :=
  if p.written.isEmpty then s else
  match s.writeCode ⟨p.pd, none⟩ p.buf p.block p.encoded with
  | (s, 0) => s
  | (s, e) => (p.writer.map (·.2)).dedup.foldl (fun s w => s.failRelease c w e) s

/-- Drop a block from a core's L1, giving up its ownership. -/
def State.pwForget (s : State) (c buf block : Nat) : State :=
  let s := s.updCore c fun k => { k with pw := k.pw.filter fun p => !(p.buf == buf && p.block == block) }
  if mapGet s.pwOwner (pwKey buf block) = some c then { s with pwOwner := mapDel s.pwOwner (pwKey buf block) } else s

/-- Recall a block from its owner, unless that is a core named (R181). -/
def State.pwRecall (s : State) (buf block : Nat) (but : Option Nat) : State :=
  match mapGet s.pwOwner (pwKey buf block) with
  | none => s
  | some o =>
    if some o = but then s else
    let s := ((s.core o).pw.filter fun p => p.buf == buf && p.block == block).foldl (fun s p => s.pwWriteBack o p) s
    s.pwForget o buf block

/-! ## Accesses of engines, hosts and walkers (R247, R371) -/

/-- Read bytes through a buffer; of a coded buffer, the code bytes of the blocks whose element view begins there, and 0
beyond them (log entry 13). -/
def State.readBuf (s : State) (a : Asker) (buf o n : Nat) : State × Nat × List Byte :=
  let b := s.buf buf
  if !b.coded then s.readAt a buf o n else
  let view := b.geom.elems * b.geom.esize
  (List.range (if n = 0 then 0 else (o + n - 1) / view - o / view + 1)).foldl (fun r i =>
    let (s, err, bs) := r
    if err != 0 then r else
    let blk := o / view + i
    let lo := max o (blk * view)
    let (s, e, code) := s.readCode a buf blk
    if e != 0 then (s, e, []) else
    let full := code ++ zeroBytes (view - code.length)
    (s, 0, bs ++ sliceN full (lo - blk * view) (min (o + n) ((blk + 1) * view) - lo))) (s, 0, [])

/-- Write bytes through a buffer; of a coded buffer, into the codes, each block recalled first (R181). -/
def State.writeBuf (s : State) (a : Asker) (buf o : Nat) (bs : List Byte) : State × Nat :=
  let b := s.buf buf
  if !b.coded then s.writeAt a buf o bs else
  let n := bs.length
  let view := b.geom.elems * b.geom.esize
  (List.range (if n = 0 then 0 else (o + n - 1) / view - o / view + 1)).foldl (fun r i =>
    let (s, err) := r
    if err != 0 then r else
    let blk := o / view + i
    let lo := max o (blk * view)
    let part := sliceN bs (lo - o) (min (o + n) ((blk + 1) * view) - lo)
    let s := s.pwRecall buf blk none
    let (s, e, code) := s.readCode a buf blk
    if e != 0 then (s, e) else
    let at_ := lo - blk * view
    let code := (code.take at_ ++ part ++ code.drop (at_ + part.length)).take code.length
    s.writeCode a buf blk (if code.length ≤ at_ then [] else code)) (s, 0)

end Sys2Proof.Machine
end

