-- ==== Sys2Proof/Machine/Translate.lean ====
section
/-! DEFINITION. Translation (R149 to R155): the page-table walk, the TLB of a core, and the causes of page faults. -/

namespace Sys2Proof.Machine

/-- Kinds of access by their codes in a fault record (R156). -/
def accLoad : Nat := 0
def accStore : Nat := 1
def accFetch : Nat := 2
def accAtomic : Nat := 3
def accULoad : Nat := 4
def accUStore : Nat := 5

/-- Whether an access of a code writes. -/
def accWrites (a : Nat) : Bool := a == accStore || a == accAtomic || a == accUStore

/-- Index of a virtual address at a level of the tree (R149). -/
def levelIndex (va : BitVec 64) : Nat → Nat
  | 3 => fieldN va.toNat 56 52
  | 2 => fieldN va.toNat 51 40
  | 1 => fieldN va.toNat 39 28
  | _ => fieldN va.toNat 27 16

/-- A leaf's reserved bits and codes, and the fields that are zero unless a code gives them a meaning (R150). -/
def leafReserved (n : Nat) : Bool :=
  let mty := fieldN n 126 124
  let fmt := fieldN n 118 115
  decide (4 < mty) || fieldN n 123 122 == 3 || decide (9 < fmt) || fieldN n 106 104 != 0 || fieldN n 75 64 != 0 ||
    fieldN n 11 0 != 0 || (fmt != 9 && fieldN n 114 107 != 0) || (mty != 4 && fieldN n 103 92 != 0)

/-- The page a leaf entry of a level describes, for the address that was walked (R149, R150). -/
def leafPage (pd : Nat) (va : BitVec 64) (n level : Nat) : TlbEntry :=
  let size := fieldN n 123 122
  let bits := match size with | 0 => 16 | 1 => 21 | _ => 30
  let own := va.toNat / 2 ^ (if level = 0 then 16 else 28) * 2 ^ (if level = 0 then 16 else 28)
  { pd, va := BitVec.ofNat 64 (va.toNat / 2 ^ bits * 2 ^ bits), bits
    t := { mty := fieldN n 126 124, w := bitN n 120, x := bitN n 119, fmt := fieldN n 118 115, pwd := fieldN n 114 113
           pwe := bitN n 112, pwr := fieldN n 111 107, module := fieldN n 103 92, buf := fieldN n 91 76
           off := fieldN n 63 38 * 65536
           fbase := BitVec.ofNat 64 own - BitVec.ofNat 64 (fieldN n 37 12 * 65536) } }

/-- The walk from a table page at a level down: a cause (1 or 6), or the page (R149 to R151). -/
def State.walkFrom (s : State) (pd : Nat) (va : BitVec 64) : Nat → Nat → State × Except Nat TlbEntry
  | level, table =>
    let (s, bs) := s.readPhys (table + 16 * levelIndex va level) 16
    let n := ofBytes bs
    if !bitN n 127 then (s, .error 1)
    else if bitN n 121 then
      let size := fieldN n 123 122
      let fits := match level with | 0 => size == 0 || size == 1 | 1 => size == 2 | _ => false
      if !fits || leafReserved n then (s, .error 6) else (s, .ok (leafPage pd va n level))
    else
      let ptr := fieldN n 43 16 * 65536
      if n != 2 ^ 127 + ptr then (s, .error 6) else
      match level with
      | 0 => (s, .error 6)
      | l + 1 => s.walkFrom pd va l ptr

/-- Walk for one address; a non-canonical one is cause 4 (R155), and a domain without a valid record has no entry
(log entry 14). -/
def State.walk (s : State) (pd : Nat) (va : BitVec 64) : State × Except Nat TlbEntry :=
  if !canonical va then (s, .error 4) else
  let r := mapGetD s.pds pd PdRec.fresh
  if !r.flags.getLsbD 0 then (s, .error 1) else s.walkFrom pd va 3 r.root.toNat

/-- What an entry gives an address in its page. -/
def TlbEntry.at (e : TlbEntry) (va : BitVec 64) : Trans := { e.t with off := e.t.off + va.toNat % 2 ^ e.bits }

/-- Whether an entry covers an address. -/
def TlbEntry.covers (e : TlbEntry) (pd : Nat) (va : BitVec 64) : Bool :=
  e.pd == pd && e.va.toNat / 2 ^ e.bits == va.toNat / 2 ^ e.bits

/-- The module number of this module. -/
def State.ownModule (s : State) (m : Nat) : Bool := s.mgmt.moduleNo.toNat == m

/-- Whether a page lies on another module. -/
def State.isRemote (s : State) (t : Trans) : Bool := t.mty == 4 && !s.ownModule t.module

/-- The cause with which a page refuses an access, 0 for none (R155). -/
def State.pageCause (s : State) (t : Trans) (access : Nat) : Nat :=
  if accWrites access && (!t.w || t.mty == 1) then 2
  else if access == accFetch && (!t.x || 2 ≤ t.mty) then 3
  else if s.isRemote t && (mapGetD s.routes t.module Route.fresh).copyOnly then 5
  else 0

/-- What a core's TLB knows of an address: nothing, a cause, or the translation. -/
def State.lookup (s : State) (c pd : Nat) (va : BitVec 64) (access : Nat) : Option (Except Nat Trans) :=
  if !canonical va then some (.error 4) else
  match (s.core c).tlb.find? (·.covers pd va) with
  | none => none
  | some e =>
    let t := e.at va
    match s.pageCause t access with
    | 0 => some (.ok t)
    | n => some (.error n)

/-- TLB entries of a core (R152). -/
def tlbSize : Nat := 512

/-- Keep a walked page; of a full TLB the entry kept longest goes (log entry 10). -/
def Core.keepPage (k : Core) (e : TlbEntry) : Core :=
  let l := k.tlb.filter fun x => !(x.pd == e.pd && x.va == e.va && x.bits == e.bits)
  { k with tlb := (if tlbSize ≤ l.length then l.drop 1 else l) ++ [e] }

/-- Translate through a core's TLB, walking when it misses (R152). -/
def State.translate (s : State) (c pd : Nat) (va : BitVec 64) (access : Nat) : State × Except Nat Trans :=
  match s.lookup c pd va access with
  | some r => (s, r)
  | none =>
    match s.walk pd va with
    | (s, .error n) => (s, .error n)
    | (s, .ok e) =>
      let t := e.at va
      let s := s.updCore c (·.keepPage e)
      match s.pageCause t access with
      | 0 => (s, .ok t)
      | n => (s, .error n)

/-- Translate for an agent outside the cores: engines, walkers, RDMA (R371). A copy-only module is no fault to them
(R153). -/
def State.translateFor (s : State) (pd : Nat) (va : BitVec 64) (write : Bool) : State × Except Nat Trans :=
  match s.walk pd va with
  | (s, .error n) => (s, .error n)
  | (s, .ok e) =>
    let t := e.at va
    if write && (!t.w || t.mty == 1) then (s, .error 2) else (s, .ok t)

end Sys2Proof.Machine
end

