-- ==== Sys2Proof/Machine/Cache.lean ====
section
/-! DEFINITION. The L1 of a core, its decoded Plynwick blocks and its scratchpad (R158, R176, R243 to R247), and the
requests a core posts to the domes. -/

namespace Sys2Proof.Machine

/-! ## Requests on their way to the domes -/

/-- The routing entry that carries accesses to a module, if it can be delivered (R377). -/
def State.routed (s : State) (m : Nat) : Bool :=
  let r := mapGetD s.routes m Route.fresh
  r.v && r.ports != 0

/-- Perform a posted store at its home (R246, R249); a refusal is due at the release of its lanes. -/
def State.performRequest (s : State) (c : Nat) (r : Request) : State :=
  if s.isRemote r.t then
    if s.routed r.t.module then
      { s with out := s.out ++ [.remoteStore r.t.module (2 ^ 44 * r.t.buf + r.t.off) r.bytes] }
    else s.failRelease c r.slot 4
  else
    match s.writeAt ⟨r.pd, none⟩ r.t.buf r.t.off r.bytes with
    | (s, 0) =>
      let pa := (s.buf r.t.buf).pa r.t.off
      let k := s.core c
      let t := k.task (k.taskOfBand r.slot)
      if (s.launch t.launch).det then s.mark t.launch t.number (pa / 128) (wordMask (pa % 128) r.bytes.length) else s
    | (s, e) => s.failRelease c r.slot e

/-- Let every registration and every posted store of a core reach the domes, in order. -/
def State.settle (s : State) (c : Nat) : State :=
  let k := s.core c
  let s := s.setCore c { k with regs := [], requests := [] }
  let s := k.regs.foldl (fun s r => s.register c r) s
  k.requests.foldl (fun s r => s.performRequest c r) s

/-! ## L1 lines (R158, R243) -/

def Core.l1Find (k : Core) (ln : Nat) : Option L1Line := k.l1.find? (·.line == ln)

def Core.l1Put (k : Core) (l : L1Line) : Core := { k with l1 := k.l1.filter (·.line != l.line) ++ [l] }

/-- Whether a line of the L1 gives bytes `i .. i + n - 1`. -/
def L1Line.has (l : L1Line) (i n : Nat) : Bool := l.valid || (List.range n).all fun j => l.dirty.getLsbD (i + j)

/-- Read a whole line at its home, or from a replica in the reader's sector (R358). -/
def State.readLine (s : State) (c pd : Nat) (t : Trans) : State × Nat × BitVec 1024 :=
  let b := s.buf t.buf
  let o := t.off / 128 * 128
  let ln := b.place o / 128
  let sector := coreSector c
  let replicable := t.mty == 1 && domeSector (homeDome ln) != sector
  match s.check ⟨pd, none⟩ false t.buf o 128 with
  | 0 =>
    match (if replicable then mapGet s.replicas (24 * ln + sector) else none) with
    | some d => (s.countAt c 7 1, 0, d)
    | none =>
      match s.fillBuf b ln with
      | (s, 0) =>
        let d := (mapGet s.domes ln).elim 0#1024 fun (x : DomeLine) => x.data
        if replicable then
          ({ s with replicas := mapSet s.replicas (24 * ln + sector) d
                    domes := mapUpd s.domes ln fun x => { x with replicas := x.replicas ++ [sector] } }, 0, d)
        else (s, 0, d)
      | (s, e) => (s, e, 0#1024)
  | e => (s, e, 0#1024)

/-- Bring a line into the L1, merging the home's data under the line's dirty bytes (R158). -/
def State.l1Fill (s : State) (c pd : Nat) (t : Trans) : State × Nat :=
  let ln := (s.buf t.buf).place t.off / 128
  match s.readLine c pd t with
  | (s, 0, d) =>
    let k := s.core c
    let old := (k.l1Find ln).getD ⟨ln, t.buf, t.off / 128 * 128, pd, false, 0, 0, []⟩
    let data := (List.range 128).foldl (fun x i =>
      if old.dirty.getLsbD i then putBytes x i (getBytes old.data i 1) else x) d
    ((s.setCore c (k.l1Put { old with valid := true, data })).countAt c 5 1, 0)
  | (s, e, _) => (s, e)

/-- A load through the L1: a detail, and the bytes (R246). -/
def State.l1Load (s : State) (c pd : Nat) (t : Trans) (n : Nat) : State × Nat × List Byte :=
  let ln := (s.buf t.buf).place t.off / 128
  let i := t.off % 128
  match (s.core c).l1Find ln with
  | some l => if l.has i n then (s, 0, getBytes l.data i n) else go s ln i
  | none => go s ln i
where
  go (s : State) (ln i : Nat) : State × Nat × List Byte :=
    match s.l1Fill c pd t with
    | (s, 0) => (s, 0, ((s.core c).l1Find ln).elim (zeroBytes n) fun l => getBytes l.data i n)
    | (s, e) => (s, e, zeroBytes n)

/-- A store into the L1: bytes, dirty bits, writers, and a registration of the words (R243). -/
def State.l1Store (s : State) (c slot pd : Nat) (t : Trans) (bs : List Byte) : State :=
  let ln := (s.buf t.buf).place t.off / 128
  let i := t.off % 128
  let k := s.core c
  let l := (k.l1Find ln).getD ⟨ln, t.buf, t.off / 128 * 128, pd, false, 0, 0, []⟩
  let l := (List.range bs.length).foldl (fun (l : L1Line) j =>
    { l with dirty := l.dirty ||| BitVec.ofNat 128 (2 ^ (i + j)), writer := mapSet l.writer (i + j) slot })
    { l with data := putBytes l.data i bs }
  s.setCore c { k.l1Put l with regs := k.regs ++ [⟨ln, t.buf, t.off / 128 * 128, pd, wordMask i bs.length, slot⟩] }

/-- Words of a line all of whose bytes are clean. -/
def L1Line.cleanWords (l : L1Line) : Word :=
  maskOf ((List.range 32).filter fun w => (List.range 4).all fun j => !l.dirty.getLsbD (4 * w + j))

/-- Write back the dirty bytes that some bands wrote, encode the written Plynwick blocks that hold an element of theirs,
and retire the registrations of the words left clean (R244 steps 2 and 3, R182). -/
def State.writeBack (s : State) (c : Nat) (who : Nat → Bool) : State :=
  let s := s.settle c
  let s := (s.core c).l1.foldl (fun s l =>
    let mine := fun i => (mapGet l.writer i).elim false who
    let s := s.backBytes c l mine
    let l' := l.clean mine
    let touched := maskOf ((List.range 32).filter fun w => (List.range 4).any fun j =>
      l.dirty.getLsbD (4 * w + j) && mine (4 * w + j))
    (s.updCore c fun k => { k with l1 := k.l1.map fun x => if x.line = l.line then l' else x }).retire c l.line
      (touched &&& l'.cleanWords)) s
  (s.core c).pw.foldl (fun s p =>
    if p.writer.any fun w => who w.2 then
      (s.pwWriteBack c p).updCore c fun k => { k with pw := k.pw.map fun q =>
        if q.buf == p.buf && q.block == p.block then { p with code := p.encoded, written := [], writer := [] } else q }
    else s) s

/-- Self-invalidation (R245): valid bits cleared, dirty bytes kept, decoded blocks the core does not own dropped. -/
def State.selfInvalidate (s : State) (c : Nat) : State :=
  s.updCore c fun k =>
    { k with l1 := (k.l1.map fun l => { l with valid := false }).filter (·.dirty != 0)
             pw := k.pw.filter fun p => mapGet s.pwOwner (pwKey p.buf p.block) == some c }

/-- Evict a superblock of four lines, and the Plynwick blocks whose code begins in it (R158, R177). -/
def State.evictSuper (s : State) (c sb : Nat) : State :=
  let s := s.settle c
  let s := ((s.core c).l1.filter fun l => l.line / 4 == sb).foldl (fun s l =>
    (s.backBytes c l fun _ => true).retire c l.line allLanes) s
  let s := s.updCore c fun k => { k with l1 := k.l1.filter fun l => l.line / 4 != sb }
  ((s.core c).pw.filter fun p => (s.buf p.buf).place (p.block * p.geom.bytes) / 512 == sb).foldl (fun s p =>
    (s.pwWriteBack c p).pwForget c p.buf p.block) s

/-! ## Loads and stores by memory type (R246) -/

/-- Whether an access of a page is served by the L1. -/
def State.cached (t : Trans) : Bool := t.mty ≤ 2

/-- Read `n` bytes for a thread: a detail, and the bytes. An acquiring read goes to the home, over which the bytes the
core holds dirty stand (R245). -/
def State.loadBytes (s : State) (c pd : Nat) (t : Trans) (n : Nat) (acq : Bool) : State × Nat × List Byte :=
  if s.isRemote t then
    if s.routed t.module then
      let x := (Config.freeBits s.fresh).toNat
      ({ s with fresh := s.fresh + 1, out := s.out ++ [.remoteLoad t.module (2 ^ 44 * t.buf + t.off) n] }, 0, bytesOf n x)
    else (s, 4, zeroBytes n)
  else if !State.cached t then (s.settle c).readAt ⟨pd, none⟩ t.buf t.off n
  else if acq then
    let s := s.settle c
    let ln := (s.buf t.buf).place t.off / 128
    match s.readAt ⟨pd, none⟩ t.buf t.off n with
    | (s, 0, bs) =>
      match (s.core c).l1Find ln with
      | none => (s, 0, bs)
      | some l => (s, 0, bs.zipIdx.map fun b =>
          if l.dirty.getLsbD (t.off % 128 + b.2) then (getBytes l.data (t.off % 128 + b.2) 1).headD b.1 else b.1)
    | r => r
  else s.l1Load c pd t n

/-- Write bytes for threads of a band: into the L1, or as a request posted to the home. -/
def State.storeBytes (s : State) (c slot : Nat) (lanes : Word) (pd : Nat) (t : Trans) (bs : List Byte) : State :=
  if State.cached t then s.l1Store c slot pd t bs
  else s.updCore c fun k => { k with requests := k.requests ++ [⟨slot, lanes, pd, t, bs⟩] }

/-- Mark bytes invalid in a core's L1 after an atomic or a releasing store at the home (R244, R254). -/
def State.l1Drop (s : State) (c ln : Nat) : State :=
  s.updCore c fun k => { k with l1 :=
    (k.l1.map fun l => if l.line = ln then { l with valid := false } else l).filter (fun l => l.line != ln || l.dirty != 0) }

/-- Perform a store at the home dome at once, as a release's own access (R244 step 4). -/
def State.storeHome (s : State) (c slot : Nat) (lanes : Word) (pd : Nat) (t : Trans) (bs : List Byte) : State :=
  let s := (s.settle c).performRequest c ⟨slot, lanes, pd, t, bs⟩
  s.l1Drop c ((s.buf t.buf).place t.off / 128)

/-! ## Plynwick blocks in the L1 (R176, R181) -/

def Trans.geom (t : Trans) : PwGeom := ⟨t.pwd, t.pwe, t.pwr + 1⟩

/-- Block and position of an offset (R169). -/
def Trans.block (t : Trans) : Nat := t.off / (t.geom.elems * t.geom.esize)
def Trans.pos (t : Trans) : Nat := t.off / t.geom.esize % t.geom.elems

def Core.pwFind (k : Core) (buf block : Nat) : Option PwBlock := k.pw.find? fun p => p.buf == buf && p.block == block

def Core.pwPut (k : Core) (p : PwBlock) : Core :=
  { k with pw := k.pw.filter (fun q => !(q.buf == p.buf && q.block == p.block)) ++ [p] }

/-- Decode a block into the L1 if absent (R176). -/
def State.pwFill (s : State) (c pd : Nat) (t : Trans) : State × Nat :=
  if ((s.core c).pwFind t.buf t.block).isSome then (s, 0) else
  match s.readCode ⟨pd, none⟩ t.buf t.block with
  | (s, 0, code) =>
    ((s.updCore c (·.pwPut ⟨t.buf, t.block, pd, t.pwd, t.pwe, t.pwr + 1, code, [], [], false⟩)).countAt c 5 1, 0)
  | (s, e, _) => (s, e)

/-- Obtain ownership, then decode (R181). -/
def State.pwOwn (s : State) (c pd : Nat) (t : Trans) : State × Nat :=
  let e := s.check ⟨pd, none⟩ true t.buf t.off 1
  if e != 0 then (s, e) else
  let s := s.pwRecall t.buf t.block (some c)
  match s.pwFill c pd t with
  | (s, 0) =>
    let s := { s with pwOwner := mapSet s.pwOwner (pwKey t.buf t.block) c }
    (s.updCore c fun k => { k with pw := k.pw.map fun (p : PwBlock) =>
      if p.buf == t.buf && p.block == t.block then { p with owned := true } else p }, 0)
  | r => r

/-- Load an element (R176). -/
def State.pwLoad (s : State) (c pd : Nat) (t : Trans) : State × Nat × Nat :=
  match s.pwFill c pd t with
  | (s, 0) =>
    match (s.core c).pwFind t.buf t.block with
    | none => (s, 0, 0)
    | some p => (s, 0, match mapGet p.written t.pos with
        | some v => v.toNat
        | none => pwBits p.geom ((pwDecode p.geom (ofBytes p.code)).val p.geom t.pos))
  | (s, e) => (s, e, 0)

/-- Store an element (R176, R181); a refusal is due at the writer's next release. -/
def State.pwStore (s : State) (c slot pd : Nat) (t : Trans) (v : BitVec 64) : State :=
  match s.pwOwn c pd t with
  | (s, 0) => s.updCore c fun k => { k with pw := k.pw.map fun (p : PwBlock) =>
      if p.buf == t.buf && p.block == t.block then
        { p with written := mapSet p.written t.pos v, writer := mapSet p.writer t.pos slot } else p }
  | (s, e) => s.failRelease c slot e

/-! ## The scratchpad (R16, R158, R299, R300) -/

/-- Bytes of a task's scratchpad from a byte of the core's, and whether every granule is of the generation. -/
def Core.spRead (k : Core) (gen : BitVec 16) (at_ n : Nat) : List Byte × Bool :=
  let row := fun g => match mapGet k.scratch g with
    | some r => if r.gen = gen then (r.data, true) else (0#512, false)
    | none => (0#512, gen == 0)
  ((List.range n).map fun i => (getBytes (row ((at_ + i) / 64)).1 ((at_ + i) % 64) 1).headD 0,
   (List.range n).all fun i => (row ((at_ + i) / 64)).2)

/-- The format tag of a granule, 0 when its generation fails (R133). -/
def Core.spFmt (k : Core) (gen : BitVec 16) (g : Nat) : BitVec 4 :=
  match mapGet k.scratch g with
  | some r => if r.gen = gen then r.fmt else 0
  | none => 0

/-- Write bytes, merging into granules of another generation with zero, and set both tags (R133, R300). -/
def Core.spWrite (k : Core) (gen : BitVec 16) (at_ : Nat) (bs : List Byte) (fmt : Nat → BitVec 4) : Core :=
  (pieces (bs.length / 64 + 2) at_ bs.length).foldl (fun k p =>
    (pieces64 p.1 p.2).foldl (fun k q =>
      let g := q.1 / 64
      let old := match mapGet k.scratch g with
        | some r => if r.gen = gen then r.data else 0#512
        | none => 0#512
      { k with scratch := mapSet k.scratch g ⟨gen, fmt g, putBytes old (q.1 % 64) (sliceN bs (q.1 - at_) q.2)⟩ }) k) k
where
  /-- A piece within a line, cut at its middle. -/
  pieces64 (o n : Nat) : List (Nat × Nat) :=
    let a := min n (64 - o % 64)
    if a = n then [(o, n)] else [(o, a), (o + a, n - a)]

end Sys2Proof.Machine
end

