-- ==== Sys2Proof/Machine/Ops.lean ====
section
/-! DEFINITION. The named operations over the registers, flags, sub-bands and threads of a core: generation-checked
reads and writes (R9, R299), results not visible yet (R58), the places of lanes (R71, R76), the end of a task, and taking
a trap and returning from keep mode (R305 to R308). -/

namespace Sys2Proof.Machine

/-! ## Registers -/

/-- Key of a vector register of a lane in the core's vector file (R16). -/
def Band.vKey (b : Band) (slot lane r : Nat) : Nat :=
  ((pipeOf slot * 64 + b.vgrans.getD (r / 8) 0) * 8 + r % 8) * 32 + lane

/-- Where a vector, uniform or predicate register of a band lives; in keep mode v120 to v127, s56 to s63, p6 and p7 name
the keep bank (R304). -/
def Band.vLoc (b : Band) (slot lane r : Nat) : Loc :=
  if b.keep && 120 ≤ r then .keepV (8 * lane + (r - 120)) else .vrf (b.vKey slot lane r)

def Band.sLoc (b : Band) (slot r : Nat) : Loc :=
  if b.keep && 56 ≤ r then .keepS (r - 56) else .srf (64 * slot + r)

def Band.pLoc (b : Band) (slot lane p : Nat) : Loc :=
  if p = 0 then .nowhere else if b.keep && 6 ≤ p then .keepP (2 * lane + (p - 6)) else .prf (8 * (32 * slot + lane) + p)

/-- A tagged granule read under a generation: zero on a mismatch (R9). -/
def readTagged {α : Type} (zero : α) (gen : BitVec 16) (t : Option (Tagged α)) : α × Bool :=
  match t with
  | some x => if x.gen = gen then (x.val, true) else (zero, false)
  | none => (zero, gen == 0)

/-- Read a place under a generation; predicates read 1 or 0. -/
def Core.readLoc (k : Core) (slot : Nat) (gen : BitVec 16) : Loc → Word × Bool
  | .vrf i => readTagged 0 gen (mapGet k.vrf i)
  | .srf i => readTagged 0 gen (mapGet k.srf i)
  | .prf i =>
    let r := readTagged false gen (mapGet k.prf i)
    (if r.1 then 1 else 0, r.2)
  | .keepV i => (mapGetD (k.band slot).keepV i 0, true)
  | .keepS i => (mapGetD (k.band slot).keepS i 0, true)
  | .keepP i => (if mapGetD (k.band slot).keepP i false then 1 else 0, true)
  | .nowhere => (1, true)

/-- Write a place, setting its tag (R9); a predicate takes whether the word is non-zero. -/
def Core.writeLoc (k : Core) (slot : Nat) (gen : BitVec 16) (l : Loc) (w : Word) : Core :=
  match l with
  | .vrf i => { k with vrf := mapSet k.vrf i ⟨gen, w⟩ }
  | .srf i => { k with srf := mapSet k.srf i ⟨gen, w⟩ }
  | .prf i => { k with prf := mapSet k.prf i ⟨gen, w != 0⟩ }
  | .keepV i => k.updBand slot fun b => { b with keepV := mapSet b.keepV i w }
  | .keepS i => k.updBand slot fun b => { b with keepS := mapSet b.keepS i w }
  | .keepP i => k.updBand slot fun b => { b with keepP := mapSet b.keepP i (w != 0) }
  | .nowhere => k

def Core.writeLocs (k : Core) (slot : Nat) (gen : BitVec 16) (l : List (Loc × Word)) : Core :=
  l.foldl (fun k p => k.writeLoc slot gen p.1 p.2) k

/-- A later-issued write to a place discards a result still on its way there (R58). -/
def Band.dropPend (b : Band) (l : List Loc) : Band :=
  { b with pend := b.pend.map fun p => { p with writes := p.writes.filter fun w => !l.contains w.1 } }

/-- Results of an instruction of latency 2 or 4: no instruction of the band can issue before they are visible (R57,
R58). -/
def State.writeNow (s : State) (c slot : Nat) (gen : BitVec 16) (l : List (Loc × Word)) : State :=
  (s.updBand c slot (·.dropPend (l.map (·.1)))).updCore c (·.writeLocs slot gen l)

/-- OR flags into `sys.fflags` (R111). -/
def State.raise (s : State) (c slot : Nat) (f : Fl) : State :=
  s.updBand c slot fun b => { b with fflags := b.fflags ||| f }

/-- Results that become visible at a later cycle (R58). -/
def State.writeLater (s : State) (c slot due : Nat) (gen : BitVec 16) (l : List (Loc × Word)) (f : Fl) : State :=
  s.updBand c slot fun b =>
    let b := b.dropPend (l.map (·.1))
    { b with pend := b.pend ++ [⟨due, gen, l, f⟩] }

/-- Make the results due by a cycle visible. A flag set in that very cycle is ORed in again later, over a `wsys` that
falls in the same cycle (R111). -/
def State.commit (s : State) (c slot now : Nat) : State :=
  let p := ((s.core c).band slot).pend
  let again := (p.filter fun x => x.due = now && x.fl != flNone).map fun x => { x with writes := [] }
  let s := s.updBand c slot fun b => { b with pend := again ++ p.filter fun x => now < x.due }
  (p.filter fun x => x.due ≤ now).foldl (fun s x =>
    (s.updCore c (·.writeLocs slot x.gen x.writes)).raise c slot x.fl) s

/-- Make every result visible: the band stands still longer than any latency. -/
def State.commitAll (s : State) (c slot : Nat) : State :=
  ((s.core c).band slot).pend.foldl (fun s x => s.commit c slot x.due) s

/-! ## Completion flags (R55) -/

def Band.flagCount (b : Band) (f : Nat) : Nat := mapGetD b.flags f 0

def State.addFlag (s : State) (c slot f : Nat) : State :=
  s.updBand c slot fun b => { b with flags := mapSet b.flags f (b.flagCount f + 1) }

def State.dropFlag (s : State) (c slot : Nat) : Option Nat → State
  | none => s
  | some f => s.updBand c slot fun b => { b with flags := mapSet b.flags f (b.flagCount f - 1) }

/-- Start an operation in flight. -/
def State.launchFlight (s : State) (c : Nat) (f : Flight) : State :=
  s.updCore c fun k => { k with flights := mapSet k.flights k.nextOp f, nextOp := k.nextOp + 1 }

def State.dropFlight (s : State) (c id : Nat) : State := s.updCore c fun k => { k with flights := mapDel k.flights id }

/-! ## Places of lanes (R71, R76) -/

/-- Wake the stalled sub-bands of a core: what held them may have passed. -/
def State.wakeStalled (s : State) (c : Nat) : State :=
  s.updCore c fun k => { k with table := mapAll k.table fun _ e => if e.wait = .stalled then { e with wait := .ready } else e }

/-- Deferred lanes of an entry that may be resumed now (R76). -/
def Core.resumable (k : Core) (e : Entry) : Word :=
  let b := k.band e.slot
  let free := maskOf ((lanesOf e.defer).filter fun l => (b.thread l).mark = .none)
  if free != 0 then free else maskOf ((lanesOf e.defer).filter fun l => (b.thread l).mark = .yielded)

/-- The group R76 resumes: greatest depth, lowest lane, and every eligible lane at that PC and depth. -/
def Core.resumeGroup (k : Core) (e : Entry) : Word :=
  let b := k.band e.slot
  let ok := lanesOf (k.resumable e)
  match ok.foldl (fun (a : Option Nat) l =>
      match a with
      | none => some l
      | some m => if (b.thread m).depth < (b.thread l).depth then some l else some m) none with
  | none => 0
  | some m => maskOf (ok.filter fun l => (b.thread l).pc = (b.thread m).pc && (b.thread l).depth = (b.thread m).depth)

/-- Make a group of deferred lanes the running lanes of their entry. -/
def State.resumeLanes (s : State) (c e : Nat) (g : Word) : State :=
  let en := (s.core c).entry e
  (s.updThreads c en.slot g fun _ t => { t with mark := .none }).updEntry c e fun en =>
    { en with lanes := g, defer := en.defer &&& ~~~g, wait := .ready, ctx := none, age := 0 }

/-- Whether the running lanes of an entry block for R76. -/
def Wait.blocks : Wait → Bool
  | .member | .signer _ | .jwait _ => true
  | .ready | .fetch | .stalled | .translate _ | .walk _ _ | .bar _ _ | .barw _ | .again _ | .phase | .op _ | .parked => false

/-- The mark of lanes that block and leave their entry to others (R76). -/
def Wait.blockMark : Wait → Mark
  | .jwait _ => .yielded
  | .member | .signer _ => .held
  | .ready | .fetch | .stalled | .translate _ | .walk _ _ | .bar _ _ | .barw _ | .again _ | .phase | .op _ | .parked => .none

/-- R76 and R71 for one entry: with no running lanes it resumes a group or, empty, is freed; with blocked running lanes
and others that may run, the blocked ones become deferred. -/
def State.rebalance (s : State) (c e : Nat) : State :=
  let k := s.core c
  match mapGet k.table e with
  | none => s
  | some en =>
    if en.frozen then s else
    let g := k.resumeGroup en
    if en.lanes = 0 then
      if g != 0 then s.resumeLanes c e g
      else if en.defer = 0 then s.updCore c fun k => { k with table := mapDel k.table e } else s
    else if en.wait.blocks && g != 0 then
      let s := s.updThreads c en.slot en.lanes fun _ t => { t with mark := en.wait.blockMark }
      (s.updEntry c e fun x => { x with defer := x.defer ||| en.lanes, lanes := 0 }).resumeLanes c e g
    else s

/-- The lowest free entry of the table. -/
def Core.freeEntry (k : Core) : Option Nat := firstFree k.table 256

/-- Let a group of lanes take an entry in the order of R71: the former's, a free one, the former's deferred lanes. The
lanes' PCs are set already; `mark` stands for lanes that become deferred. -/
def State.takeEntry (s : State) (c slot former : Nat) (g : Word) (w : Wait) (mark : Mark) : State × Option Nat :=
  if g = 0 then (s, none) else
  let k := s.core c
  let frz := (k.entry former).frozen
  let new : Entry := { Entry.fresh with slot, lanes := g, wait := w, frozen := frz }
  match mapGet k.table former with
  | some f =>
    if f.slot = slot && f.lanes = 0 then
      ((s.updEntry c former fun e => { e with lanes := g, wait := w, ctx := none, age := 0, skipBp := false }), some former)
    else match k.freeEntry with
      | some i => ((s.updCore c fun k => { k with table := mapSet k.table i new }), some i)
      | none => (((s.updThreads c slot g fun _ t => { t with mark }).updEntry c former fun e =>
          { e with defer := e.defer ||| g }).rebalance c former, none)
  | none =>
    match k.freeEntry with
    | some i => ((s.updCore c fun k => { k with table := mapSet k.table i new }), some i)
    | none => (s, none)

/-- The control state of a band's threads as its sub-bands stand, frozen or not (R305). -/
def Band.stood (b : Band) (frozen : Bool) (l : Nat) : Thread := if frozen then mapGetD b.frozen l Thread.fresh else b.thread l

/-- Replace the control state of the threads of sub-bands: the band's, or, for frozen ones, the state they were frozen in
(R305). -/
def State.updStood (s : State) (c slot : Nat) (frozen : Bool) (m : Word) (f : Nat → Thread → Thread) : State :=
  if frozen then s.updBand c slot fun b =>
    { b with frozen := (lanesOf m).foldl (fun t l => mapSet t l (f l (mapGetD t l Thread.fresh))) b.frozen }
  else s.updThreads c slot m f

/-- Set the PCs of lanes to the word after their instruction, in its clause (R55). -/
def State.advance (s : State) (c e words : Nat) : State :=
  let en := (s.core c).entry e
  let last := match en.ctx with | some x => decide (x.left ≤ 1) | none => true
  let s := s.updStood c en.slot en.frozen en.lanes fun _ t =>
    let pc := t.pc + BitVec.ofNat 64 (4 * words)
    { t with pc, base := if last then pc else t.base }
  s.updEntry c e fun en =>
    { en with ctx := if last then none else en.ctx.map fun x => { x with left := x.left - 1, waited := true } }

/-- The same for lanes that stand elsewhere than as running lanes: their clause is read again (R74). -/
def State.stepOver (s : State) (c slot : Nat) (g : Word) (words : Nat) : State :=
  s.updThreads c slot g fun _ t => { t with pc := t.pc + BitVec.ofNat 64 (4 * words) }

/-- A taken transfer of lanes to an address (R50). -/
def State.goTo (s : State) (c slot : Nat) (g : Word) (pc : BitVec 64) : State :=
  s.updThreads c slot g fun _ t => { t with pc, base := pc }

/-- Let a blocked sub-band, or its lanes deferred as held, go on after the instruction it blocked at (R76); `frozen` for
sub-bands that a band in keep mode left so. -/
def State.passBlock (s : State) (c slot : Nat) (g : Word) (words : Nat) (frozen : Bool) : State :=
  let k := s.core c
  let held := maskOf ((lanesOf g).filter fun l => ((k.band slot).stood frozen l).mark = .held)
  let s := s.updStood c slot frozen held fun _ t => { t with pc := t.pc + BitVec.ofNat 64 (4 * words), mark := .none }
  let run := (k.entriesOf slot).filter fun e => (k.entry e).lanes &&& g != 0 && (k.entry e).wait.blocks && (k.entry e).frozen == frozen
  let s := run.foldl (fun s e => (s.advance c e words).updEntry c e fun x => { x with wait := .ready, age := 0 }) s
  let s := s.updBand c slot fun b => { b with turn := none }
  (k.entriesOf slot).foldl (fun s e => s.rebalance c e) s

/-! ## The end of a task -/

/-- Slots of the bands of the task at a task slot. -/
def Core.taskBands (k : Core) (t : Nat) : List Nat := (k.task t).slots

/-- Free every entry of a band, keep entry included. -/
def Core.freeEntries (k : Core) (slot : Nat) : Core := { k with table := mapFilter k.table fun _ e => e.slot != slot }

/-- End a task at once with a kind, a cause and a code (R308, R327, R307); it then drains. -/
def State.endTask (s : State) (c t kind cause code : Nat) : State :=
  let s := ((s.core c).taskBands t).foldl (fun s b =>
    let s := s.updCore c (·.freeEntries b)
    s.updBand c b fun x =>
      { x with threads := mapAll x.threads fun _ t => { t with exited := true, parked := false, hold := .none, mark := .none }
               frozen := [], keep := false, xop := none }) s
  s.updTask c t fun x =>
    { x with state := .draining, ended := true, endKind := kind, endCause := cause, endCode := code, phase := none, request := none
             g := mapAll x.g fun _ g => { g with op := none, signed := [] } }

/-! ## Keep mode (R304 to R308) -/

/-- Withdraw a band's arrivals at its open cross-lane operation (R193, R305). -/
def State.withdrawMembers (s : State) (c slot : Nat) : State :=
  let s := s.updBand c slot fun b =>
    { b with xop := none
             threads := mapAll b.threads fun l t =>
               if t.mark = .held && b.xop.any (·.arrived.getLsbD l) then { t with mark := .none } else t }
  s.updCore c fun k => { k with table := mapAll k.table fun _ e =>
    if e.slot = slot && e.wait = .member then { e with wait := .ready } else e }

/-- Withdraw a band's signatures of operations that have not issued, with their flag counts (R286, R305). -/
def State.withdrawSigners (s : State) (c slot : Nat) : State :=
  let k := s.core c
  let t := k.taskOfBand slot
  let idx := (k.band slot).index
  let signers := (k.flights.filter fun p => p.2.slot == slot && (match p.2.kind with
    | .sig _ none => true
    | _ => false))
  let mine := signers.foldl (fun m p => m ||| p.2.lanes) 0#32
  let s := signers.foldl (fun s p => (s.dropFlag c slot p.2.flag).dropFlight c p.1) s
  let s := s.updTask c t fun x => { x with g := mapAll x.g fun _ g =>
    let signed := mapDel g.signed idx
    if signed.isEmpty then { g with op := none, signed } else { g with signed } }
  let s := s.updBand c slot fun b =>
    { b with threads := mapAll b.threads fun l t => if t.mark = .held && mine.getLsbD l then { t with mark := .none } else t }
  s.updCore c fun k => { k with table := mapAll k.table fun _ e =>
    if e.slot = slot && e.lanes &&& mine != 0 && !e.frozen then
      (match e.wait with | .signer _ => { e with wait := .ready } | _ => e) else e }

/-- Withdraw a band's pending `qpop`s: flag counts fall and each sub-band whose lanes issued one stands at it again
(R219, R305; log entry 15). -/
def State.withdrawPops (s : State) (c slot : Nat) : State :=
  ((s.core c).flights.filter fun p => p.2.slot == slot).reverse.foldl (fun s p =>
    match p.2.kind with
    | .qpop _ _ pc base =>
      let s := (s.dropFlag c slot p.2.flag).dropFlight c p.1
      ((s.core c).entriesOf slot).foldl (fun s e =>
        let en := (s.core c).entry e
        if en.lanes != 0 && en.lanes &&& ~~~p.2.lanes = 0 then
          (s.updThreads c slot en.lanes fun _ t => { t with pc, base }).updEntry c e fun x => { x with ctx := none, wait := .ready }
        else s) s
    | _ => s) s

/-- Instructions of a band that have issued and done nothing yet, for want of a translation or of their release, are left
to issue anew: the sub-band stands at them (R305). -/
def State.withdrawOps (s : State) (c slot : Nat) : State :=
  ((s.core c).entriesOf slot).foldl (fun s e =>
    match ((s.core c).entry e).wait with
    | .translate o => s.dropFlag c slot o.flag
    | .op id =>
      match mapGet (s.core c).flights id with
      | some f => (match f.kind with
        | .release _ (.access _) => (s.dropFlag c slot f.flag).dropFlight c id
        | _ => s)
      | none => s
    | _ => s) s

/-- A band enters keep mode (R305 to R307): its sub-bands freeze, its keep entry takes every Present lane at `sys.kvec`,
and the resume registers are written. `trap` is the trapping entry, none for a request. -/
def State.enterKeep (s : State) (c slot cause code : Nat) (trap : Option Nat) (kpc : BitVec 64) (klanes : Word)
    (kaddr : BitVec 64) : State :=
  let s := (((s.withdrawMembers c slot).withdrawSigners c slot).withdrawPops c slot).withdrawOps c slot
  let k := s.core c
  let b := k.band slot
  let t := k.task b.task
  let live := b.live
  let s := s.updCore c fun k => { k with table := mapAll k.table fun _ e =>
    if e.slot = slot then { e with frozen := true, wait := match e.wait with
      | .ready | .fetch | .stalled | .translate _ | .walk _ _ | .member | .op _ => .ready
      | .signer g => .signer g
      | .bar g p => .bar g p
      | .again g => .again g
      | .barw g => .barw g
      | .phase => .phase
      | .jwait j => .jwait j
      | .parked => .parked } else e }
  let s := s.updBand c slot fun b =>
    { b with keep := true, frozen := b.threads, kcause := BitVec.ofNat 32 (cause + 256 * code), kpc, klanes, kaddr
             kpcSet := false, kmid := cause == 2 && kpc != kaddr, ktrap := trap, restored := false, turn := none
             threads := mapAll b.threads fun _ x =>
               { x with pc := t.kvec, base := t.kvec, hold := .none, mark := .none, parked := false } }
  if live = 0 then s else
  s.updCore c fun k => { k with table := mapSet k.table (256 + slot) { Entry.fresh with slot, lanes := live } }

/-- Take a trap (R63, R305, R307, R308, R327): into keep mode; in keep mode, or without a handler, the task ends as
failed with the trap's cause and code. -/
def State.takeTrap (s : State) (c slot cause code : Nat) (trap : Option Nat) (kpc : BitVec 64) (klanes : Word)
    (kaddr : BitVec 64) : State :=
  let k := s.core c
  let b := k.band slot
  let s := s.countAt c 15 1
  if b.keep || (k.task b.task).kvec = 0 then s.endTask c b.task 1 cause code
  else s.enterKeep c slot cause code trap kpc klanes kaddr

/-- Let the lanes of `sys.klanes` resume at `sys.kpc` (R307). The band's frozen state is in place already; lanes that
stand elsewhere than in the trapping entry leave their places for it, and lanes of that entry outside the mask stay at
its instruction. -/
def State.resumeTrap (s : State) (c slot e : Nat) : State :=
  let b := (s.core c).band slot
  let g := b.klanes &&& b.live
  let header := (b.kcause.toNat % 256 == 2 && b.kpc == b.kaddr) || (b.kpcSet && !b.kmid)
  let s := s.updThreads c slot g fun _ t =>
    { t with pc := b.kpc, base := if header then b.kpc else t.base
             hold := .none, mark := .none, parked := false }
  let rest := ((s.core c).entry e).lanes &&& ~~~g
  let s := s.updBand c slot fun b => { b with arr := mapAll b.arr fun _ m => m &&& ~~~g }
  let s := ((s.core c).entriesOf slot).foldl (fun s i =>
    s.updEntry c i fun x => { x with lanes := x.lanes &&& ~~~g, defer := x.defer &&& ~~~g }) s
  let s := s.updEntry c e fun x => { x with lanes := g, ctx := none, wait := .ready, age := 0 }
  (s.takeEntry c slot e rest .ready .none).1

/-- Leave keep mode (R307): the frozen sub-bands resume as they stood. -/
def State.leaveKeep (s : State) (c slot : Nat) : State :=
  let b := (s.core c).band slot
  let s := s.updCore c fun k =>
    { k with table := mapAll (mapFilter k.table fun _ e => e.slot != slot || e.frozen) fun _ e =>
        if e.slot = slot then { e with frozen := false } else e }
  let s := s.updBand c slot fun x =>
    { x with keep := false, frozen := [], turn := none
             threads := mapAll x.frozen fun l t => { t with exited := t.exited || (x.thread l).exited, last := (x.thread l).last } }
  let s := match b.ktrap with
    | some e => s.resumeTrap c slot e
    | none => s
  ((s.core c).entriesOf slot).foldl (fun s i => s.rebalance c i) s

end Sys2Proof.Machine
end

