-- ==== Sys2Proof/Machine/Sched.lean ====
section
/-! DEFINITION. Resources of a core (R16, R25), power admission (R348, R349, R382), generations (R301, R302), and the
choice of a variant. -/

namespace Sys2Proof.Machine

/-! ## Resources -/

/-- What a variant takes: bands, vector granules per band, tile granules, accumulators, scratchpad granules (R16). -/
structure Need where
  bands : Nat
  vg : Nat
  tg : Nat
  na : Nat
  sp : Nat
  deriving DecidableEq, Repr

def Variant.needs (v : Variant) : Need := ⟨v.nbands, (v.nv + 7) / 8, (v.nt + 3) / 4, v.na, v.spGrans⟩

/-- Band slots of a pipe that are occupied. -/
def Core.pipeBands (k : Core) (p : Nat) : List Nat := (k.bands.filter fun b => pipeOf b.1 == p).map (·.1)

/-- The lowest `n` numbers below a bound that a list does not hold. -/
def lowestFree (used : List Nat) (bound n : Nat) : Option (List Nat) :=
  let l := ((List.range bound).filter fun i => !used.contains i).take n
  if l.length = n then some l else none

/-- Vector granules of a pipe in use, of 64. -/
def Core.vUsed (k : Core) (p : Nat) : List Nat := (k.pipeBands p).foldl (fun l b => l ++ (k.band b).vgrans) []

def Core.tileUsed (k : Core) : List Nat := k.tasks.foldl (fun l t => l ++ t.2.tileMap) []

def Core.accUsed (k : Core) : List Nat := k.tasks.foldl (fun l t => l ++ t.2.accMap) []

/-- Scratchpad granules of 4 KiB in use, but for one task's. -/
def Core.spUsed (k : Core) (but : Option Nat) : List Nat :=
  (k.tasks.filter fun t => some t.1 != but).foldl (fun l t =>
    l ++ (List.range t.2.spGrans).map (t.2.spBase / 4096 + ·)) []

/-- The first run of `n` free granules of the 64 (R16, R25). -/
def freeRun (used : List Nat) (n : Nat) : Option Nat :=
  firstFrom (fun i => i + n ≤ 64 && (List.range n).all fun j => !used.contains (i + j)) 65 0

/-- The pipes that bands take one after the other (R25): the pipe that can hold the band and has the fewest occupied
slots, the lowest on a tie; `fixed` gives the pipes of a restore (R26). -/
def Core.choosePipes (k : Core) (vg : Nat) (fixed : Option (List Nat)) (n : Nat) : Option (List Nat) :=
  (List.range n).foldl (fun acc i =>
    acc.bind fun ps =>
      let mine := fun p => (ps.filter (· == p)).length
      let can := fun p => (k.pipeBands p).length + mine p < 16 && (k.vUsed p).length + vg * (mine p + 1) ≤ 64
      let pick := match fixed with
        | some l => (List.range 4).filter fun p => can p && l.getD i 4 == p
        | none => (List.range 4).filter can
      (pick.foldl (fun (a : Option Nat) p => match a with
        | none => some p
        | some q => if (k.pipeBands p).length + mine p < (k.pipeBands q).length + mine q then some p else some q) none).map
        fun p => ps ++ [p]) (some [])

/-- Whether a need fits a core's free resources at once (R25). -/
def Core.fits (k : Core) (n : Need) (fixed : Option (List Nat)) : Bool :=
  (k.choosePipes n.vg fixed n.bands).isSome && (lowestFree k.tileUsed 8 n.tg).isSome &&
    (lowestFree k.accUsed 32 n.na).isSome && (n.sp == 0 || (freeRun (k.spUsed none) n.sp).isSome) &&
    n.bands + (k.table.filter fun e => e.1 < 256).length ≤ 256

/-- Grow or shrink a list of granules to `n`. -/
def regrow (mine used : List Nat) (bound n : Nat) : Option (List Nat) :=
  if n ≤ mine.length then some (mine.take n) else (lowestFree used bound (n - mine.length)).map (mine ++ ·)

/-- Reallocate a task for a variant on the same pipes, within its allocation and the core's free resources (R297). -/
def Core.realloc (k : Core) (t : Nat) (num : Nat) (v : Variant) : Option Core :=
  let n := v.needs
  let task := k.task t
  let bands := task.slots.foldl (fun (acc : Option Core) b => acc.bind fun k =>
    (regrow (k.band b).vgrans (k.vUsed (pipeOf b)) 64 n.vg).map fun g => k.updBand b fun x => { x with vgrans := g }) (some k)
  bands.bind fun k =>
    (regrow task.tileMap k.tileUsed 8 n.tg).bind fun tm =>
    (regrow task.accMap k.accUsed 32 n.na).bind fun am =>
    let used := k.spUsed (some t)
    let base := task.spBase / 4096
    let here := base + n.sp ≤ 64 && (List.range n.sp).all fun j => !used.contains (base + j)
    (if n.sp = 0 then some 0 else if here then some base else freeRun used n.sp).map fun sb =>
      k.updTask t fun x => { x with
        variant := num, nv := 8 * n.vg, nt := 4 * n.tg, na := n.na, spGrans := n.sp, spBase := 4096 * sb, tlm := v.tlm
        tileMap := tm, accMap := am, energy := v.energy, current := v.current }

/-! ## Launches and their kernels -/

def Object.fresh : Object := ⟨0, 0, 0, 0, [], [], 0, [], []⟩

def State.object (s : State) (h : Nat) : Object := mapGetD s.objects h Object.fresh

def State.kernelOf (s : State) (l : Launch) : Kernel := (s.object l.object).kernels.getD l.kernel ⟨[], false, 0⟩

/-- A variant of a launch's kernel. -/
def State.variantOf (s : State) (l : Launch) (n : Nat) : Option Variant := (s.kernelOf l).variants[n]?

/-- The variants a launch may take, in preference order, which is their order (R33): under `det`, variant 0 (R351). No task
of a `keep` kernel is ever placed (R326). -/
def State.preferred (s : State) (l : Launch) : List Nat :=
  let k := s.kernelOf l
  if k.keep then [] else if l.det then [0] else List.range k.variants.length

/-- Cores of a cluster that are logical cores of a launch (R342). -/
def Launch.coresIn (l : Launch) (cluster : Nat) : List Nat := l.cores.filter fun c => coreCluster c == cluster

/-- The first variant in preference order that fits one of some cores now, with the fitting core that holds the fewest
tasks, the lower number on a tie (R343); a restore takes its recorded variant and pipes (R322). -/
def State.chooseFor (s : State) (l : Launch) (cores : List Nat) (recorded : Option (Nat × Option (List Nat))) :
    Option (Nat × Nat) :=
  (match recorded with | some r => [r.1] | none => s.preferred l).firstM fun n =>
    (s.variantOf l n).bind fun v =>
      (cores.filter fun c => (s.core c).fits v.needs (recorded.bind (·.2))).foldl (fun (a : Option (Nat × Nat)) c =>
        match a with
        | none => some (c, n)
        | some q => if (s.core c).tasks.length < (s.core q.1).tasks.length then some (c, n) else a) none

/-! ## Power admission (R348, R349, R382) -/

/-- E_c in nJ, I_c in mA and the slew limit S of an active state (R382). -/
def PState.budget : PState → Nat × Nat × Nat
  | .p0 => (36000, 48000, 48)
  | .p1 => (27000, 36000, 32)
  | .p2 => (18000, 24000, 16)
  | .p3 | .i1 | .i2 | .i3 => (6000, 8000, 4)

/-- The current commitment of a cluster: of its tasks, and of those being placed. -/
def State.committed (s : State) (cluster : Nat) : Nat :=
  (List.range 4).foldl (fun n i => (s.core (4 * cluster + i)).tasks.foldl (fun n t => n + t.2.current) n)
    ((s.cluster cluster).placing.foldl (fun n p =>
      n + ((s.variantOf (s.launch p.task.launch) p.variant).map (·.current)).getD 0) 0)

/-- Whether a phase of some energy and current is admitted now, `own` being the current already committed for the task
(R349). -/
def State.admits (s : State) (cluster energy current own : Nat) : Bool :=
  let b := s.power.state.budget
  (s.cluster cluster).charged + energy ≤ b.1 && s.committed cluster - own + current ≤ b.2.1

def State.charge (s : State) (cluster energy : Nat) : State :=
  s.updCluster cluster fun c => { c with charged := c.charged + energy }

/-! ## Generations (R301, R302) -/

/-- The next generation from a last one, skipping live ones. -/
def nextGen (live : List (BitVec 16)) : Nat → BitVec 16 → BitVec 16
  | 0, g => g
  | fuel + 1, g =>
    let n := if g = 0xFFFF#16 then 1#16 else g + 1
    if live.contains n then nextGen live fuel n else n

def Core.liveGens (k : Core) : List (BitVec 16) := k.tasks.map (·.2.gen)

/-- Zero the granules whose tag a test accepts. -/
def Core.zeroTags (k : Core) (p : BitVec 16 → Bool) : Core :=
  { k with vrf := mapFilter k.vrf fun _ x => !p x.gen, srf := mapFilter k.srf fun _ x => !p x.gen
           prf := mapFilter k.prf fun _ x => !p x.gen, tiles := mapFilter k.tiles fun _ x => !p x.gen
           accs := mapFilter k.accs fun _ x => !p x.gen, accStat := mapFilter k.accStat fun _ x => !p x.gen
           scratch := mapFilter k.scratch fun _ x => !p x.gen }

/-- Whether a generation lies in the high half. -/
def highGen (g : BitVec 16) : Bool := g.getLsbD 15

/-- Take the next generation (R301); a value in the other half than the last starts a sweep of the half just left and
marks its live allocations (R302). -/
def Core.takeGen (k : Core) : Core × BitVec 16 :=
  let g := nextGen k.liveGens 256 k.last
  let crossed := k.last != 0 && highGen g != highGen k.last
  let k := { k with last := g }
  if !crossed then (k, g) else
  ({ k with sweep := true, half := !highGen g
            marked := k.marked ++ (k.liveGens.filter fun x => highGen x != highGen g && !k.marked.contains x) }, g)

/-- The end of a sweep: every granule of the swept half that no live allocation has is zero with tag 0 (R302). -/
def Core.endSweep (k : Core) : Core :=
  if !k.sweep then k else
  let half := k.half
  { k.zeroTags (fun g => g != 0 && highGen g == half && !k.liveGens.contains g) with sweep := false, half := false }

/-- Free a generation: the granules of a marked allocation are cleared (R302). -/
def Core.freeGen (k : Core) (g : BitVec 16) : Core :=
  if k.marked.contains g then { k.zeroTags (· == g) with marked := k.marked.filter (· != g) } else k

end Sys2Proof.Machine
end

