-- ==== Sys2Proof/Machine/Diverge.lean ====
section
/-! DEFINITION. Divergence, holds and ends: page-fault parking (R155, R156), joins and waits (R75, R85, R86), vector-call
holds (R82, R83), barriers (R203 to R206, R352), phase ends (R296, R297, R344), and the exit of lanes (R94, R294). -/

namespace Sys2Proof.Machine

/-! ## Fault records (R156, R374) -/

/-- The 32 bytes of a record. -/
def FaultRec.bytes (r : FaultRec) : List Byte :=
  bytesOf 8 r.addr.toNat ++ bytesOf 4 r.lanes.toNat ++ bytesOf 2 r.core ++ bytesOf 1 r.slot ++ bytesOf 1 r.entry ++
    bytesOf 2 r.gen.toNat ++ bytesOf 1 r.cause ++ bytesOf 1 r.access ++ bytesOf 4 r.pd ++ bytesOf 8 r.pc.toNat

/-- Write a record to its domain's ring if the ring has room (R374). -/
def State.postRecord (s : State) (r : FaultRec) : Option State :=
  let p := mapGetD s.pds r.pd PdRec.fresh
  if 2 ^ p.log2n.toNat ≤ (p.tail - p.head).toNat then none else
  let va := p.ring + BitVec.ofNat 64 (32 * (p.tail.toNat % 2 ^ p.log2n.toNat))
  match s.translateFor r.pd va true with
  | (_, .error _) => none
  | (s, .ok t) =>
    match s.writeBuf ⟨r.pd, none⟩ t.buf t.off r.bytes with
    | (s, 0) => some { s with pds := mapUpd s.pds r.pd fun q => { q with tail := q.tail + 1 }
                              faultOpen := s.faultOpen ++ [r] }
    | _ => none

/-- Post a record, or let it wait for room. -/
def State.raiseRecord (s : State) (r : FaultRec) : State :=
  match s.postRecord r with
  | some s => s
  | none => { s with faultWait := s.faultWait ++ [r] }

/-- Whether a record holds a lane of a task's band. -/
def FaultRec.holds (r : FaultRec) (who : Nat × Nat × Nat) (m : Word) : Bool := r.who == who && r.lanes &&& m != 0

/-- The identity of a band in fault records. -/
def Core.whoOf (k : Core) (slot : Nat) : Nat × Nat × Nat :=
  let t := k.task (k.taskOfBand slot)
  (t.launch, t.number, (k.band slot).index)

/-- Lanes of an entry parked on faulting addresses, each with its lane, address and cause (R155): they leave the
sub-band, and one record is posted per faulting page. -/
def State.park (s : State) (c e access : Nat) (pc : BitVec 64) (faults : List (Nat × BitVec 64 × Nat)) : State :=
  if faults.isEmpty then s else
  let k := s.core c
  let en := k.entry e
  let g := maskOf (faults.map (·.1)) &&& en.lanes
  let t := k.task (k.taskOfBand en.slot)
  let s := s.updEntry c e fun x => { x with lanes := x.lanes &&& ~~~g }
  let s := s.updThreads c en.slot g fun _ x => { x with parked := true }
  let (s, at_) := s.takeEntry c en.slot e g .parked .parked
  let s := s.countAt c 8 (popCount g)
  ((faults.map fun f => f.2.1.toNat / 65536).dedup).foldl (fun s p =>
    let mine := faults.filter fun f => f.2.1.toNat / 65536 == p
    let low := mine.foldl (fun a f => if f.1 < a.1 then f else a) (mine.headD (0, 0, 0))
    s.raiseRecord ⟨low.2.1, maskOf (mine.map (·.1)), c, en.slot, at_.getD 255, t.gen, low.2.2, access,
      (s.launch t.launch).pd, pc, k.whoOf en.slot⟩) s

/-- Resume the parked lanes of a core whose every record is answered (R156): they issue the instruction again. -/
def State.unpark (s : State) (c : Nat) : State :=
  let k := s.core c
  let open_ := fun (slot : Nat) (m : Word) => (s.faultOpen ++ s.faultWait).any fun r => r.holds (k.whoOf slot) m
  let s := k.table.foldl (fun s p =>
    if p.2.wait = .parked && !open_ p.2.slot p.2.lanes then
      let clear := fun (l : Nat) (t : Thread) => if p.2.lanes.getLsbD l then { t with parked := false } else t
      let s := if p.2.frozen then s.updBand c p.2.slot fun b => { b with frozen := mapAll b.frozen clear }
        else s.updThreads c p.2.slot p.2.lanes fun _ t => { t with parked := false }
      s.updEntry c p.1 fun x => { x with wait := .ready, ctx := none, age := 0 }
    else s) s
  k.table.foldl (fun s p =>
    if p.2.frozen then s else
    let b := k.band p.2.slot
    let free := maskOf ((lanesOf p.2.defer).filter fun l => (b.thread l).mark = .parked &&
      !open_ p.2.slot (maskOf ((lanesOf p.2.defer).filter fun m => (b.thread m).pc = (b.thread l).pc && (b.thread m).mark = .parked)))
    if free = 0 then s else
    (s.updThreads c p.2.slot free fun _ t => { t with parked := false, mark := .none }).rebalance c p.1) s

/-! ## Joins (R75, R85 to R87) -/

/-- Whether jN is complete: every non-exited lane of it has arrived. -/
def Band.complete (b : Band) (j : Nat) : Bool := mapGetD b.j j 0 &&& b.live &&& ~~~(mapGetD b.arr j 0) == 0

/-- Sub-bands in `jwait` that may pass (R86); a release of jN passes every one that waits on it. -/
def State.passWaits (s : State) (c slot : Nat) (released : Option Nat) : State :=
  let k := s.core c
  let b := k.band slot
  (k.entriesOf slot).foldl (fun s e =>
    let en := (s.core c).entry e
    match en.wait with
    | .jwait j =>
      if en.frozen then s else
      if released = some j || mapGetD b.j j 0 &&& b.live &&& ~~~en.lanes &&& ~~~(mapGetD b.arr j 0) = 0 then
        (s.advance c e 1).updEntry c e fun x => { x with wait := .ready, age := 0 }
      else s
    | _ => s) s

/-- Release jN if it is complete and lanes have arrived, or if `force` (R75, R87): the arrived lanes form one sub-band at
the word after the last arrival's join, the former being the sub-band whose action completed it. -/
def State.releaseJoin (s : State) (c slot former j : Nat) (force : Bool) : State :=
  let b := (s.core c).band slot
  let g := mapGetD b.arr j 0 &&& b.live
  if !b.complete j || (g = 0 && !force) then s else
  let s := (s.goTo c slot g (mapGetD b.arrPc j 0)).updThreads c slot g fun _ t => { t with hold := .none, mark := .none }
  let s := s.updBand c slot fun b => { b with arr := mapDel b.arr j }
  let s := (s.takeEntry c slot former g .ready .none).1
  s.passWaits c slot (some j)

/-- Running lanes of an entry arrive at jN (R75): every arrived lane stands for the word after the last arrival's join. -/
def State.arriveJoin (s : State) (c e j : Nat) (after : BitVec 64) : State :=
  let en := (s.core c).entry e
  let s := s.updThreads c en.slot en.lanes fun _ t => { t with hold := .join, pc := after, base := after }
  let s := s.updBand c en.slot fun b =>
    { b with arr := mapSet b.arr j (mapGetD b.arr j 0 ||| en.lanes), arrPc := mapSet b.arrPc j after, turn := none }
  let s := s.updThreads c en.slot (mapGetD ((s.core c).band en.slot).arr j 0) fun _ t => { t with pc := after, base := after }
  let s := s.updEntry c e fun x => { x with lanes := 0, ctx := none }
  (((s.releaseJoin c en.slot e j false).passWaits c en.slot none).rebalance c e)

/-! ## The return stack and vector-call holds (R77, R82, R83) -/

/-- A return-stack entry (R77). -/
def stackWord (pc : BitVec 64) (v : Bool) : BitVec 64 :=
  BitVec.ofNat 64 (pc.toNat % 2 ^ 57 / 4 * 4 + if v then 1 else 0)

/-- The return address of an entry, sign-extended. -/
def stackPc (x : BitVec 64) : BitVec 64 := ((BitVec.ofNat 64 (x.toNat / 4 * 4)).extractLsb' 0 57).signExtend 64

/-- Virtual address of the entry at depth d > 8 (R77, R78). -/
def Core.spillVa (k : Core) (slot lane d : Nat) : BitVec 64 :=
  let b := k.band slot
  let t := k.task b.task
  t.tlbase + BitVec.ofNat 64 ((32 * b.index + lane) * t.tlstride.toNat + t.tlm) - BitVec.ofNat 64 (8 * (d - 8))

/-- What a lane's stack holds at a depth; a spilled entry is looked up in memory and reads 0 where it cannot be
(log entry 17). -/
def State.peekStack (s : State) (c slot lane d : Nat) : BitVec 64 :=
  let k := s.core c
  if d ≤ 8 then mapGetD ((k.band slot).thread lane).stack d 0 else
  let pd := (s.launch (k.task (k.taskOfBand slot)).launch).pd
  match s.translate c pd (k.spillVa slot lane d) accLoad with
  | (s, .ok t) => BitVec.ofNat 64 (ofBytes (s.loadBytes c pd t 8 false).2.2)
  | (_, .error _) => 0

/-- Whether some lane of the band still has an entry pushed: that address, V = 1, at that depth. -/
def State.stillPushed (s : State) (c slot : Nat) (pc : BitVec 64) (d : Nat) : Bool :=
  let b := (s.core c).band slot
  (lanesOf b.live).any fun l => d ≤ (b.thread l).depth && s.peekStack c slot l d == stackWord pc true

/-- Release the lanes held on entries that no lane has any more (R83). -/
def State.releaseCalls (s : State) (c slot former : Nat) : State :=
  let held := (lanesOf ((s.core c).band slot).live).filter fun l => ((s.core c).band slot |>.thread l).hold = .vcall
  let key := fun l => (((s.core c).band slot).thread l).pc
  let dep := fun l => (((s.core c).band slot).thread l).depth
  held.foldl (fun s l =>
    if (((s.core c).band slot).thread l).hold != .vcall || s.stillPushed c slot (key l) (dep l + 1) then s else
    let g := maskOf (held.filter fun m => key m = key l && dep m = dep l)
    let s := (s.goTo c slot g (key l)).updThreads c slot g fun _ t => { t with hold := .none, mark := .none }
    (s.takeEntry c slot former g .ready .none).1) s

/-! ## Tasks of a launch -/

/-- Core and task slot of every placed task of a launch. -/
def State.tasksOf (s : State) (l : Nat) : List (Nat × Nat) :=
  s.cores.foldl (fun a k => a ++ (k.2.tasks.filter fun t => t.2.launch == l).map fun t => (k.1, t.1)) []

/-- The non-exited lanes of a task's bands by index. -/
def Core.bandLive (k : Core) (t i : Nat) : Word :=
  match (k.task t).slots[i]? with
  | some b => (k.band b).live
  | none => 0

/-! ## Barriers -/

/-- A barrier's number for the local barriers (R203). -/
def localGid : Nat := 256
def keepGid : Nat := 257

def Task.barOf (t : Task) (gid : Nat) : TaskBar :=
  if gid = localGid then t.localBar else if gid = keepGid then t.keepBar else mapGetD t.bars gid TaskBar.fresh

def Task.setBar (t : Task) (gid : Nat) (b : TaskBar) : Task :=
  if gid = localGid then { t with localBar := b } else if gid = keepGid then { t with keepBar := b }
  else { t with bars := mapSet t.bars gid b }

def Launch.group (l : Launch) (gid : Nat) : Group := mapGetD l.groups gid ⟨[], 0, false, [], []⟩

/-- The phase that is open at a barrier, as seen from a task. -/
def State.openPhase (s : State) (c t gid : Nat) : Nat :=
  let task := (s.core c).task t
  if gid < 256 then ((s.launch task.launch).group gid).phase.toNat else (task.barOf gid).phase

/-- Whether a group is usable by a task (R201). -/
def Launch.usable (l : Launch) (gid task : Nat) : Bool :=
  (mapGet l.groups gid).isSome && (l.group gid).cores && (l.group gid).members.contains task

/-- The waiting sub-bands of one task at a barrier become eligible, each with its acquire (R204, R205): those at `bar`
whose release is done and whose phase is over, those at `barw` of another phase; a second arrival is made anew. -/
def State.releaseBar (s : State) (c t gid : Nat) : State :=
  ((s.core c).taskBands t).foldl (fun s b =>
    ((s.core c).entriesOf b).foldl (fun s e =>
      let k := s.core c
      let en := k.entry e
      let releasing := k.flights.any fun f => f.2.slot == b && f.2.lanes &&& en.lanes != 0 && (match f.2.kind with
        | .release _ (.arrive g _ _ true) => g == gid
        | _ => false)
      let phase := s.openPhase c t gid
      let pass := match en.wait with
        | .bar g p => g == gid && p != phase && !releasing
        | .barw g => g == gid && (mapGetD (k.band b).bars g BarState.fresh).last != phase
        | _ => false
      if pass then
        let s := if gid < 256 then s.selfInvalidate c else s
        (s.advance c e 1).updEntry c e fun x => { x with wait := .ready, age := 0 }
      else if en.wait = .again gid then s.updEntry c e fun x => { x with wait := .ready, age := 0 }
      else s) s) s

/-- Start the next phase of a task's barrier record. -/
def TaskBar.next (b : TaskBar) : TaskBar := { TaskBar.fresh with phase := b.phase + 1 }

/-- Release the tasks of a launch in some clusters. -/
def State.releaseClusters (s : State) (l gid : Nat) (cl : List Nat) : State :=
  ((s.tasksOf l).filter fun p => cl.contains (coreCluster p.1)).foldl (fun s p => s.releaseBar p.1 p.2 gid) s

/-- A group's phase completes when every member has arrived (R204); across clusters the release is slew-limited (R352). A
task whose every thread has exited has arrived in every later phase; when all have, no phase is left to complete. -/
def State.checkGroup (s : State) (l gid : Nat) : State :=
  let la := s.launch l
  let g := la.group gid
  let gone := g.members.filter la.exited.contains
  if g.members.isEmpty || g.came.length < g.members.length || gone.length = g.members.length then s else
  let mine := (s.tasksOf l).filter fun p => g.members.contains ((s.core p.1).task p.2).number
  let s := mine.foldl (fun s p => s.updTask p.1 p.2 fun t => t.setBar gid (t.barOf gid).next) s
  let clusters := (mine.map fun p => coreCluster p.1).dedup.mergeSort
  let now := if clusters.length ≤ 1 then clusters else clusters.take s.power.state.budget.2.2
  let g' := { g with came := gone, phase := g.phase + 1, release := clusters.drop now.length }
  let s := s.updLaunch l fun x => { x with groups := mapSet x.groups gid g' }
  s.releaseClusters l gid now

/-- Count a task in ARRIVED of a group (R204). -/
def State.countArrival (s : State) (l gid task : Nat) : State :=
  let g := (s.launch l).group gid
  let g' := { g with came := g.came ++ [task] }
  (if g.came.contains task then s else s.updLaunch l fun x => { x with groups := mapUpd x.groups gid fun _ => g' }).checkGroup l gid

/-- A task arrives once every non-exited lane of every named band has arrived with its release done (R203, R204). -/
def State.checkBar (s : State) (c t gid : Nat) : State :=
  let k := s.core c
  let task := k.task t
  let b := task.barOf gid
  match b.part with
  | none => s
  | some w =>
    let all := (List.range 16).all fun i => !w.getLsbD i || k.bandLive t i &&& ~~~(mapGetD b.done i 0) == 0
    if !all then s
    else if gid < 256 then
      if ((s.launch task.launch).group gid).came.contains task.number then s else s.countArrival task.launch gid task.number
    else (s.updTask c t fun x => x.setBar gid b.next).releaseBar c t gid

/-- The release of an arrival in a phase is done: the lanes of a named band are counted (R205), and sub-bands whose phase
is over go on. -/
def State.arrived (s : State) (c slot gid : Nat) (part lanes : Word) (phase : Nat) : State :=
  let k := s.core c
  let t := k.taskOfBand slot
  let i := (k.band slot).index
  let b := (k.task t).barOf gid
  let s := if part.getLsbD i && s.openPhase c t gid == phase then
      s.updTask c t fun x => x.setBar gid { b with done := mapSet b.done i (mapGetD b.done i 0 ||| lanes) }
    else s
  (s.checkBar c t gid).releaseBar c t gid

/-- Barriers of a task looked at again after lanes have exited (R203). -/
def State.checkBars (s : State) (c t : Nat) : State :=
  (((mapKeys ((s.core c).task t).bars) ++ [localGid, keepGid]).foldl (fun s g => s.checkBar c t g) s)

/-- A task whose every thread has exited counts as arrived at every barrier of its groups (R204). -/
def State.leaveGroups (s : State) (c t : Nat) : State :=
  let task := (s.core c).task t
  if (s.launch task.launch).exited.contains task.number then s else
  let s := s.updLaunch task.launch fun l => { l with exited := l.exited ++ [task.number] }
  (0 :: task.groups).foldl (fun s gid => s.countArrival task.launch gid task.number) s

/-! ## Phase ends (R296, R297, R344) -/

/-- The switch record's choice at a phase end (R344). -/
def State.switchChoice (s : State) (c t : Nat) (pc : BitVec 64) : Option Nat :=
  let k := s.core c
  let task := k.task t
  let l := s.launch task.launch
  let cl := coreCluster c
  let order := s.preferred l
  let place := fun n => (order.idxOf? n).getD order.length
  match s.variantOf l task.variant with
  | none => none
  | some v =>
    let ob := s.object l.object
    let recs := (v.switches.filter fun r => ob.va + BitVec.ofNat 64 r.at_ == pc).map (·.target)
    let ok := fun n => match s.variantOf l n with
      | none => none
      | some w => k.realloc t n w
    let queued := (s.cluster cl).queue.any fun q => q.launch == task.launch && q.restore.isNone
    let noneDeep := (task.slots.all fun b => (lanesOf (k.band b).live).all fun i => ((k.band b).thread i).depth == 0)
    if l.det || !noneDeep then none
    else if !queued then
      ((recs.filter fun n => place n < place task.variant).mergeSort).find? fun n => (ok n).isSome
    else if (s.chooseFor l (l.coresIn cl) none).isSome then none
    else
      ((recs.filter fun n => place task.variant < place n).mergeSort).find? fun n =>
        match ok n with
        | none => false
        | some k' => order.any fun m => match s.variantOf l m with
          | some w => k'.fits w.needs none
          | none => false

/-- Each band's non-exited lanes form one sub-band in the band's lowest entry, at an address (R296 step 4, R298). In a band
in keep mode the frozen sub-bands are meant. -/
def State.gather (s : State) (c b : Nat) (at_ : Thread → BitVec 64 × BitVec 64) (ctx : Option Clause) : State :=
  let k := s.core c
  let bd := k.band b
  let mine := (k.entriesOf b).filter fun e => (k.entry e).frozen == bd.keep && e < 256
  match mine.head? with
  | none => s
  | some low =>
    let p := at_ (bd.stood bd.keep ((lowestLane ((k.entry low).lanes &&& bd.live)).getD 0))
    let s := s.updStood c b bd.keep bd.live fun _ x => { x with pc := p.1, base := p.2, mark := .none }
    let new := { Entry.fresh with slot := b, lanes := bd.live, frozen := bd.keep, ctx }
    s.updCore c fun k => { k with table := mapSet (mapFilter k.table fun e _ => !mine.contains e) low new }

/-- Release the sub-bands held at a phase end: they go on after the `phase` (R296 step 4). -/
def State.releasePhase (s : State) (c t : Nat) : State :=
  let s := s.updTask c t fun x => { x with phase := none }
  ((s.core c).taskBands t).foldl (fun s b =>
    let k := s.core c
    match (k.entriesOf b).find? fun e => (k.entry e).wait = .phase with
    | none => s
    | some e =>
      let s := s.advance c e 1
      let k := s.core c
      let th := (k.band b).stood (k.entry e).frozen ((lowestLane (k.entry e).lanes).getD 0)
      s.gather c b (fun _ => (th.pc, th.base)) (k.entry e).ctx) s

/-- Move a phase end on once every non-exited thread has arrived (R296): result word, switch decision, admission, release;
a switch itself waits for `VARIANT_SWITCH` (R297). -/
def State.tryPhase (s : State) (c t : Nat) : State :=
  let k := s.core c
  let task := k.task t
  match task.phase with
  | none => s
  | some p =>
    let all := (List.range task.nbands).all fun i => k.bandLive t i &&& ~~~(mapGetD p.arrived i 0) == 0
    if !all || p.arrived.isEmpty || task.state = .draining then s else
    let s := if p.posted then s else s.updLaunch task.launch fun l => { l with results := mapSet l.results task.number p.word }
    let p := if p.posted then p else { p with posted := true, since := s.usec, switchTo := s.switchChoice c t p.pc }
    let l := s.launch task.launch
    let v := (p.switchTo.bind (s.variantOf l)).map fun v => (v.energy, v.current)
    let (en, cu) := v.getD (task.energy, task.current)
    if p.admitted || s.admits (coreCluster c) en cu task.current then
      let s := if p.admitted then s else s.charge (coreCluster c) en
      let s := s.updTask c t fun x => { x with phase := some { p with admitted := true }, current := cu }
      if p.switchTo.isSome then s else s.releasePhase c t
    else (s.updTask c t fun x => { x with phase := some p }).countAt c 9 1

/-! ## The exit of lanes (R94, R191, R281, R294, R309) -/

/-- Held members of a band's open cross-lane operation take trap 0x07, detail 1, once for the band (R191, R305). -/
def State.trapMembers (s : State) (c slot : Nat) (detail : Nat) : State :=
  let k := s.core c
  let b := k.band slot
  let here := (b.xop.map (·.arrived)).getD 0
  let lanesAt := fun e => if (k.entry e).wait = .member then (k.entry e).lanes
    else maskOf ((lanesOf ((k.entry e).defer &&& here)).filter fun l => (b.thread l).mark = .held)
  let who := (k.entriesOf slot).filter fun e => lanesAt e != 0
  match who.foldl (fun (a : Option (Nat × Nat)) e =>
      let l := (lowestLane (lanesAt e)).getD 32
      match a with
      | none => some (e, l)
      | some q => if l < q.2 then some (e, l) else a) none with
  | none => s
  | some (e, l) => s.takeTrap c slot 7 detail (some e) (b.thread l).pc (lanesAt e) 0

/-- Sub-bands of a band that hold lanes of a mask take a trap at their instruction, once for the band (R281, R285,
R305). -/
def State.trapLanes (s : State) (c slot : Nat) (m : Word) (cause code : Nat) (addr : BitVec 64) : State :=
  let k := s.core c
  let b := k.band slot
  let mine := fun e => if (k.entry e).frozen then 0#32 else ((k.entry e).lanes ||| (k.entry e).defer) &&& m
  match ((k.entriesOf slot).filter fun e => mine e != 0).foldl (fun (a : Option (Nat × Nat)) e =>
      let l := (lowestLane (mine e)).getD 32
      match a with
      | none => some (e, l)
      | some q => if l < q.2 then some (e, l) else a) none with
  | none => s
  | some (e, l) => s.takeTrap c slot cause code (some e) (b.thread l).pc (mine e) addr

/-- Held signers of g in a band take a trap (R281). -/
def State.trapSigners (s : State) (c slot g cause code : Nat) (addr : BitVec 64) : State :=
  let b := (s.core c).band slot
  s.trapLanes c slot (mapGetD (mapGetD ((s.core c).task b.task).g g GReg.fresh).signed b.index 0) cause code addr

/-- Close an open operation of g, every band that has signed taking a trap (R281). -/
def State.closeMatrix (s : State) (c t g cause code : Nat) (addr : BitVec 64) : State :=
  let gr := mapGetD ((s.core c).task t).g g GReg.fresh
  let bands := gr.signed.filterMap fun p => ((s.core c).task t).slots[p.1]?
  let s := bands.foldl (fun s b => s.trapSigners c b g cause code addr) s
  let sigs := (s.core c).flights.filter fun f => bands.contains f.2.slot && (match f.2.kind with
    | .sig g' none => g' == g
    | _ => false)
  let s := sigs.foldl (fun s f => (s.dropFlag c f.2.slot f.2.flag).dropFlight c f.1) s
  s.updTask c t fun x => { x with g := mapUpd x.g g fun r => { r with op := none, signed := [] } }

/-- How a task ends once its last thread is gone (R293, R309): 2 when the last keep entry of every band that halted was a
request, else 1 with the lowest such band's cause; 0 when none halted. -/
def Core.endOf (k : Core) (t : Nat) : Nat × Nat × Nat :=
  let halted := (k.taskBands t).filter fun b => (k.band b).halted
  match halted.find? fun b => (k.band b).kcause.toNat % 256 != 0x0E with
  | some b => (1, (k.band b).kcause.toNat % 256, (k.band b).kcause.toNat / 256)
  | none => if halted.isEmpty then (0, 0, 0) else (2, 0, 0)

/-- Drain a task whose every thread has exited or halted (R293). A saved task, and one that a successor follows, does not
leave its groups. -/
def State.checkEnd (s : State) (c t : Nat) : State :=
  let k := s.core c
  let task := k.task t
  if task.state = .draining || !((k.taskBands t).all fun b => (k.band b).live = 0) then s else
  let (kind, cause, code) := k.endOf t
  let s := s.updTask c t fun x => { x with state := .draining, endKind := kind, endCause := cause, endCode := code, phase := none, request := none }
  if kind = 2 || (kind = 0 && task.succ.isSome) then s else s.leaveGroups c t

/-- Lanes of an entry exit (R294): with the release of R248 when `rel`. -/
def State.exitLanes (s : State) (c e : Nat) (g : Word) (rel : Bool) : State :=
  let k := s.core c
  let en := k.entry e
  let slot := en.slot
  let b := k.band slot
  let t := b.task
  let task := k.task t
  let s := if rel && g != 0 then s.launchFlight c ⟨slot, task.gen, g, none, .release .plain .none⟩ else s
  let s := s.updBand c slot fun x =>
    { x.updThreads g fun _ y => { y with exited := true, parked := false, hold := .none, mark := .none } with
      frozen := mapAll x.frozen fun l y => if g.getLsbD l then { y with exited := true } else y }
  let s := s.updCore c fun k => { k with table := mapAll k.table fun _ x =>
    if x.slot = slot then { x with lanes := x.lanes &&& ~~~g, defer := x.defer &&& ~~~g } else x }
  let s := match b.xop with
    | some x => if x.mask &&& g = 0 then s else (s.trapMembers c slot 1).withdrawMembers c slot
    | none => s
  let s := (List.range 8).foldl (fun s i =>
    let r := mapGetD ((s.core c).task t).g i GReg.fresh
    if r.op.isSome && r.set.getLsbD b.index then s.closeMatrix c t i 7 1 0 else s) s
  let s := if ((s.core c).band slot).keep then s else
    let s := (List.range 16).foldl (fun s j => s.releaseJoin c slot e j false) s
    (s.passWaits c slot none).releaseCalls c slot e
  let s := ((s.core c).entriesOf slot).foldl (fun s i => s.rebalance c i) s
  let s := s.updBand c slot fun x => { x with turn := none }
  ((s.checkBars c t).tryPhase c t).checkEnd c t

/-- Every Present lane of a band exits, as in keep mode (R294, R309). -/
def State.exitBand (s : State) (c slot : Nat) (rel halt : Bool) : State :=
  let live := ((s.core c).band slot).live
  let s := s.updBand c slot fun b => { b with halted := b.halted || halt }
  let s := s.exitLanes c (256 + slot) live rel
  s.updCore c fun k => { k with table := mapFilter k.table fun _ e => e.slot != slot }

end Sys2Proof.Machine
end

