-- ==== Sys2Proof/Machine/Operands.lean ====
section
/-! DEFINITION. Operand forms (R8, R51 to R54): what an issuing sub-band reads, the shape of an instruction's operands,
and the checks of R63 over them. -/

namespace Sys2Proof.Machine

/-- A sub-band that issues: where it stands, the registers as it reads them, its Present lanes and those that are Active
(R8), its address, its task and launch, the cycle of issue, and its clause. -/
structure Ctx where
  core : Nat
  slot : Nat
  e : Nat
  k : Core
  lanes : Word
  active : Word
  pc : BitVec 64
  t : Nat
  l : Launch
  now : Nat
  cl : Clause

def Ctx.b (x : Ctx) : Band := x.k.band x.slot
def Ctx.task (x : Ctx) : Task := x.k.task x.t
def Ctx.gen (x : Ctx) : BitVec 16 := x.task.gen
def Ctx.keep (x : Ctx) : Bool := x.b.keep
def Ctx.pd (x : Ctx) : Nat := x.l.pd

/-- A clause that stands for none. -/
def Clause.fresh : Clause := ⟨0, 15, 15, 0, false, 1, true, false⟩

/-! ## Reading registers -/

def readP (k : Core) (slot : Nat) (gen : BitVec 16) (l p : Nat) : Bool × Bool :=
  let r := k.readLoc slot gen ((k.band slot).pLoc slot l p)
  (r.1 != 0, r.2)

/-- The Present lanes that a clause's predicate and sense make Active (R8, R55). -/
def activeOf (k : Core) (slot : Nat) (gen : BitVec 16) (lanes : Word) (cl : Clause) : Word :=
  maskOf ((lanesOf lanes).filter fun l => (readP k slot gen l cl.pred.toNat).1 != cl.neg)

/-- The context of an entry's sub-band. -/
def State.ctx (s : State) (u : Cursor) (now : Nat) : Ctx :=
  let k := s.core u.core
  let en := k.entry u.entry
  let t := k.taskOfBand u.slot
  let cl := en.ctx.getD Clause.fresh
  { core := u.core, slot := u.slot, e := u.entry, k, lanes := en.lanes
    active := activeOf k u.slot (k.task t).gen en.lanes cl
    pc := ((k.band u.slot).thread ((lowestLane en.lanes).getD 0)).pc
    t, l := s.launch (k.task t).launch, now, cl }

/-- A vector register of a lane, and whether its generation matched. -/
def Ctx.readV (x : Ctx) (l r : Nat) : Word × Bool := x.k.readLoc x.slot x.gen (x.b.vLoc x.slot l r)
def Ctx.readS (x : Ctx) (r : Nat) : Word × Bool := x.k.readLoc x.slot x.gen (x.b.sLoc x.slot r)

def Ctx.v {n : Nat} (x : Ctx) (l : Nat) (r : BitVec n) : Word := (x.readV l r.toNat).1
def Ctx.s {n : Nat} (x : Ctx) (r : BitVec n) : Word := (x.readS r.toNat).1
def Ctx.p {n : Nat} (x : Ctx) (l : Nat) (r : BitVec n) : Bool := (readP x.k x.slot x.gen l r.toNat).1

/-- A register pair, named by its even register: the low word first (R105). -/
def Ctx.v64 {n : Nat} (x : Ctx) (l : Nat) (r : BitVec n) : BitVec 64 := pair64 (x.v l r) (x.readV l (r.toNat + 1)).1
def Ctx.s64 {n : Nat} (x : Ctx) (r : BitVec n) : BitVec 64 := pair64 (x.s r) (x.readS (r.toNat + 1)).1

/-- The last source: vb, or the uniform register vb[5:0] when U is 1 (R51). -/
def Ctx.last (x : Ctx) (l : Nat) (u : Bool) (vb : BitVec 7) : Word := if u then x.s (vb.extractLsb' 0 6) else x.v l vb
def Ctx.last64 (x : Ctx) (l : Nat) (u : Bool) (vb : BitVec 7) : BitVec 64 :=
  if u then x.s64 (vb.extractLsb' 0 6) else x.v64 l vb

/-! ## Places of results -/

def Ctx.vAt {n : Nat} (x : Ctx) (l : Nat) (r : BitVec n) : Loc := x.b.vLoc x.slot l r.toNat
def Ctx.vAt1 {n : Nat} (x : Ctx) (l : Nat) (r : BitVec n) : Loc := x.b.vLoc x.slot l (r.toNat + 1)
def Ctx.sAt {n : Nat} (x : Ctx) (r : BitVec n) : Loc := x.b.sLoc x.slot r.toNat
def Ctx.sAt1 {n : Nat} (x : Ctx) (r : BitVec n) : Loc := x.b.sLoc x.slot (r.toNat + 1)
def Ctx.pAt {n : Nat} (x : Ctx) (l : Nat) (p : BitVec n) : Loc := x.b.pLoc x.slot l p.toNat

/-- Results of a vector instruction in its Active lanes: one register, a pair, or a predicate. -/
def Ctx.each32 {n : Nat} (x : Ctx) (vd : BitVec n) (f : Nat → Word) : List (Loc × Word) :=
  (lanesOf x.active).map fun l => (x.vAt l vd, f l)
def Ctx.each64 {n : Nat} (x : Ctx) (vd : BitVec n) (f : Nat → BitVec 64) : List (Loc × Word) :=
  (lanesOf x.active).flatMap fun l => [(x.vAt l vd, lo32 (f l)), (x.vAt1 l vd, hi32 (f l))]
def Ctx.eachP {n : Nat} (x : Ctx) (pd : BitVec n) (f : Nat → Bool) : List (Loc × Word) :=
  (lanesOf x.active).map fun l => (x.pAt l pd, if f l then 1#32 else 0#32)

/-- Results in uniform registers. -/
def Ctx.toS {n : Nat} (x : Ctx) (sd : BitVec n) (w : Word) : List (Loc × Word) := [(x.sAt sd, w)]
def Ctx.toS64 {n : Nat} (x : Ctx) (sd : BitVec n) (w : BitVec 64) : List (Loc × Word) :=
  [(x.sAt sd, lo32 w), (x.sAt1 sd, hi32 w)]

/-! ## Shapes of operands and the checks of R63 -/

/-- A source read: a vector register or a predicate in the Active lanes, a predicate in every Present lane, a uniform
register. -/
inductive Src where
  | v (r : Nat)
  | p (r : Nat)
  | pAll (r : Nat)
  | s (r : Nat)
  deriving DecidableEq, Repr

/-- What issuing an instruction needs to know of it: its set (S-set when `uni`), distance, words, the bounded indices it
names, its sources, whether it is for keep mode only, whether an acquire in progress holds it back (R245), and what its
chapter checks before the register bound. -/
structure Shape where
  uni : Bool
  d : BitVec 2
  words : Nat := 1
  vs : List Nat := []
  ts : List Nat := []
  as : List Nat := []
  srcs : List Src := []
  priv : Bool := false
  mem : Bool := false
  pre : Ctx → Option Nat := fun _ => none

/-- Whether a source passes its generation check; a vector instruction without Active lanes reads none (R8, R55). -/
def Src.genOk (x : Ctx) (uni : Bool) : Src → Bool
  | .v r => (lanesOf x.active).all fun l => (x.readV l r).2
  | .p r => (lanesOf x.active).all fun l => (readP x.k x.slot x.gen l r).2
  | .pAll r => (lanesOf x.lanes).all fun l => (readP x.k x.slot x.gen l r).2
  | .s r => (!uni && x.active == 0) || (x.readS r).2

/-- Whether a vector register index is within the allocation, the keep bank counted (R63 step 3); 128 or more never is
(R107). -/
def Ctx.vOk (x : Ctx) (r : Nat) : Bool := decide (r < 128) && (decide (r < x.task.nv) || (x.keep && decide (120 ≤ r)))

/-- The checks of R63 up to the generation checks: the cause of the first that fails. -/
def check (i : Instr) (q : Shape) (x : Ctx) : Option Nat :=
  if !i.wf then some 0x01
  else if q.priv && !x.keep then some 0x09
  else match q.pre x with
    | some c => some c
    | none =>
      if !(q.vs.all x.vOk && q.ts.all (· < x.task.nt) && q.as.all (· < x.task.na)) then some 0x03
      else if x.l.gentrap && !((q.uni || Src.genOk x q.uni (.pAll x.cl.pred.toNat)) && q.srcs.all (Src.genOk x q.uni)) then some 0x04
      else none

/-! ## Shapes of the forms of R52 to R54 -/

def lastSrc (u : Bool) (vb : BitVec 7) : List Src := if u then [.s (vb.extractLsb' 0 6).toNat] else [.v vb.toNat]
def lastSrc64 (u : Bool) (vb : BitVec 7) : List Src :=
  if u then [.s (vb.extractLsb' 0 6).toNat, .s ((vb.extractLsb' 0 6).toNat + 1)] else [.v vb.toNat, .v (vb.toNat + 1)]
def lastV (u : Bool) (vb : BitVec 7) : List Nat := if u then [] else [vb.toNat]

def src64 (r : BitVec 7) : List Src := [.v r.toNat, .v (r.toNat + 1)]
def sSrc64 (r : BitVec 6) : List Src := [.s r.toNat, .s (r.toNat + 1)]

/-- Form VV; `acc` for form VA, whose destination is a source. -/
def shapeVV (o : VV) (wide acc : Bool := false) : Shape :=
  { uni := false, d := o.d, vs := [o.vd.toNat, o.va.toNat] ++ lastV o.u o.vb
    srcs := (if wide then src64 o.va ++ lastSrc64 o.u o.vb else .v o.va.toNat :: lastSrc o.u o.vb) ++
      (if acc then (if wide then src64 o.vd else [.v o.vd.toNat]) else []) }

def shapeVC (o : VC) (wide : Bool := false) : Shape :=
  { uni := false, d := o.d, vs := o.va.toNat :: lastV o.u o.vb
    srcs := if wide then src64 o.va ++ lastSrc64 o.u o.vb else .v o.va.toNat :: lastSrc o.u o.vb }

def shapeVU (o : VU) (wide : Bool := false) : Shape :=
  { uni := false, d := o.d, vs := [o.vd.toNat, o.va.toNat], srcs := if wide then src64 o.va else [.v o.va.toNat] }

def shapeS (d : BitVec 2) (srcs : List Src) : Shape := { uni := true, d, srcs }

def shapeS3 (o : S3) : Shape := shapeS o.d [.s o.sa.toNat, .s o.sb.toNat]

end Sys2Proof.Machine
end

