-- ==== Sys2Proof/Machine/Issue.lean ====
section
/-! DEFINITION. Issuing an instruction: the time it takes (R57, R72), the ages of the band's other sub-bands (R70), the
order of its checks (R63, R64, R92), and its outcome. -/

namespace Sys2Proof.Machine

/-! ## Time of issue -/

/-- Cycles of a band issue slot (R57, R15). -/
def State.slotLen (s : State) : Nat := if s.power.assist then 5 else 4

/-- The first cycle at which lanes may issue an instruction of distance D (R57). -/
def Band.due (b : Band) (len : Nat) (lanes : Word) (d : Nat) : Nat :=
  (lanesOf lanes).foldl (fun a l => match (b.thread l).last with
    | none => a
    | some t => max a (t + (d + 1) * len)) 0

/-- `fdiv` and `fsqrt` with an Active lane wait for the sequencer of their pipe (R124). -/
def State.seqFree (s : State) (u : Cursor) (i : Instr) : Nat :=
  match i with
  | .fdiv _ _ | .fsqrt _ _ =>
    if (s.ctx u s.cycle).active == 0 then 0 else mapGetD (s.core u.core).seqBusy (pipeOf u.slot) 0
  | _ => 0

/-- The cycle at which a sub-band's instruction issues: its band's next slot, its distance, its pipe, and the sequencer
(R57, R72, R124). -/
def State.issueTime (s : State) (u : Cursor) (i : Instr) (uni : Bool) (d : Nat) : Nat :=
  let k := s.core u.core
  let b := k.band u.slot
  max (max (max s.cycle b.nextSlot) (s.seqFree u i)) (max (b.due s.slotLen (k.entry u.entry).lanes d)
    (if uni then k.uniFree else mapGetD k.pipeFree (pipeOf u.slot) 0))

/-- Whether the flags of a wait mask are clear (R55). -/
def Band.clear (b : Band) (wait : BitVec 12) : Bool :=
  (List.range 12).all fun f => !wait.getLsbD f || b.flagCount f == 0

/-- Whether an entry's sub-band waits for nothing but its slot, its distance and its pipe. -/
def Core.poised (k : Core) (en : Entry) : Bool :=
  en.wait == .ready && en.lanes != 0 && !en.frozen && match en.ctx with
    | some c => c.waited || (k.band en.slot).clear c.wait
    | none => true

/-- A word of code as a core's instruction buffer holds it: a fetch of a header takes no stale line; the words after it
come from the line as held, for a sub-band that was in its clause when the line went stale (R66, R68). -/
def Core.codeWord (k : Core) (pd : Nat) (pc : BitVec 64) (old : Bool) : Option Word :=
  let here := k.ibuf.filter fun l => l.pd == pd && l.va.toNat / 128 == pc.toNat / 128
  let l := if old then (here.find? (·.stale)).or here.head? else here.find? fun l => !l.stale
  l.map fun l => BitVec.ofNat 32 (l.data.toNat / 2 ^ (8 * (pc.toNat % 128)))

/-- The field D of an instruction word (R51, R54). -/
def wordD (w : Word) : Nat := if w.msb then (w.extractLsb' 24 2).toNat else (w.extractLsb' 29 2).toNat

/-- The first cycle at which an entry's distance lets its next instruction issue. -/
def State.dueOf (s : State) (c : Nat) (en : Entry) : Nat :=
  let k := s.core c
  let b := k.band en.slot
  let pd := (s.launch (k.task b.task).launch).pd
  let w := (lowestLane en.lanes).bind fun l => k.codeWord pd (b.thread l).pc (en.ctx.elim false (·.old))
  b.due s.slotLen en.lanes (w.elim 0 wordD)

/-- The age of an entry at a cycle: slots of the band since it last issued or became eligible, saturating (R70). -/
def State.ageAt (s : State) (c : Nat) (en : Entry) (now : Nat) : Nat :=
  let k := s.core c
  let last := (k.band en.slot).lastSlot
  let due := s.dueOf c en
  min 0xFFFF (if !k.poised en || now < due then 0
    else if due ≤ last then en.age.toNat + (now - last) / s.slotLen
    else (now - due) / s.slotLen)

/-- The ages of a band's sub-bands once one of them issues at a cycle. -/
def State.ageBand (s : State) (u : Cursor) (now : Nat) : State :=
  ((s.core u.core).entriesOf u.slot).foldl (fun s e =>
    if ((s.core u.core).entry e).frozen then s else
    let age := if e = u.entry then 0 else s.ageAt u.core ((s.core u.core).entry e) now
    s.updEntry u.core e fun x => { x with age := BitVec.ofNat 16 age }) s

/-- An instruction takes its slot: the clock, the results that are visible now, the ages, the slot of the band and of the
pipe, the turn of deterministic mode (R73), and the task's first issue (R293). -/
def State.beginIssue (s : State) (u : Cursor) (i : Instr) (uni : Bool) (d : BitVec 2) : State :=
  let now := s.issueTime u i uni d.toNat
  let s := ((s.clockTo now).commit u.core u.slot now).ageBand u now
  let lanes := ((s.core u.core).entry u.entry).lanes
  let s := s.updThreads u.core u.slot lanes fun _ t => { t with last := some now }
  let s := s.updBand u.core u.slot fun b =>
    { b with nextSlot := now + s.slotLen, lastSlot := now, turn := lowestLane lanes, stepping := b.stepping.filter (· != u.entry) }
  let s := s.updEntry u.core u.entry fun e => { e with skipBp := false }
  let s := s.updCore u.core fun k =>
    let k := if uni then { k with uniFree := now + 1 } else { k with pipeFree := mapSet k.pipeFree (pipeOf u.slot) (now + 1) }
    k.updTask (k.taskOfBand u.slot) fun t => if t.state = .placed then { t with state := .running } else t
  s.countAt u.core (if uni then 3 else 2) 1

/-! ## Outcomes -/

/-- What an instruction does once it has passed the checks of R63: it is done; it traps, with a cause, a code and an
address; it traps with its own effect standing, the saved address being another; it has issued and its
lanes stay at it; it waits for translations
and issues again after them; or it waits without having issued. -/
inductive Res where
  | ok (s : State)
  | trap (cause code : Nat) (addr : BitVec 64)
  | trapAt (s : State) (cause code : Nat) (kpc : BitVec 64)
  | stay (f : State → State)
  | walk (vas : List (Nat × BitVec 64)) (access : Nat)
  | hold

/-- Whether lanes of a band wait for an acquiring operation (R245). -/
def Core.acquiring (k : Core) (slot : Nat) (lanes : Word) : Bool :=
  k.flights.any fun f => f.2.slot == slot && f.2.lanes &&& lanes != 0 && match f.2.kind with
    | .load o | .atom o | .remote o => (match o.kind with
      | .ld _ od | .atom _ _ od | .atomc _ od | .satom _ _ od => od == .acq || od == .ar
      | .sld _ acq => acq
      | .st _ _ | .sst _ _ | .pf | .pw _ => false)
    | .acquire | .tagWait _ _ _ _ => true
    | .release _ .sync => true
    | .release _ (.access o) => (match o.kind with
      | .atom _ _ od | .atomc _ od | .satom _ _ od => od == .ar
      | .ld _ _ | .st _ _ | .sld _ _ | .sst _ _ | .pf | .pw _ => false)
    | .lds _ _ | .result _ _ _ _ | .release _ .none | .release _ .fence | .release _ (.arrive _ _ _ _) | .release _ (.push _ _)
    | .qpop _ _ _ _ | .xfer _ _ _ _ | .sig _ _ | .mat _ | .pw _ _ => false

/-- A trap of an issuing sub-band at its instruction (R307). -/
def State.trapHere (s : State) (x : Ctx) (cause code : Nat) (addr : BitVec 64) : State :=
  s.takeTrap x.core x.slot cause code (some x.e) x.pc x.lanes addr

/-- A sub-band that could not issue keeps its place until something of its core moves. -/
def State.stall (s : State) (x : Ctx) : State := s.updEntry x.core x.e fun e => { e with wait := .stalled }

/-- Whether an address breakpoint stands at an instruction (R92). -/
def State.breaks (s : State) (u : Cursor) : Bool :=
  let k := s.core u.core
  let x := s.ctx u 0
  !(k.entry u.entry).skipBp && k.bps.any fun p => p.2 == x.pc

/-- An address breakpoint stops the task and is trap 0x0A (R64, R92, R307). -/
def State.breakHere (s : State) (u : Cursor) : State :=
  let x := s.ctx u s.cycle
  let s := s.updTask x.core x.t fun t => { t with stopped := true }
  let s := s.updEntry x.core x.e fun e => { e with skipBp := true }
  s.trapHere x 0x0A 0 0

/-- An instruction of the sub-band at the cursor, with what it does after its checks. -/
def issueAt (i : Instr) (q : Shape) (f : Ctx → State → Res) (s : State) (u : Cursor) : State :=
  if s.breaks u then s.breakHere u else
  let s1 := s.beginIssue u i q.uni q.d
  let x := s1.ctx u s1.cycle
  match check i q x with
  | some cause => s1.trapHere x cause 0 0
  | none =>
    if q.mem && x.k.acquiring x.slot x.lanes then s.stall x else
    match f x (s1.advance u.core u.entry q.words) with
    | .ok t => t
    | .trap cause code addr => s1.trapHere x cause code addr
    | .trapAt t cause code kpc => t.takeTrap x.core x.slot cause code (some x.e) kpc x.lanes 0
    | .stay g => g s1
    | .walk vas access => s.updEntry x.core x.e fun e => { e with wait := .walk vas access }
    | .hold => s.stall x

/-- Issue an instruction. -/
def issue (i : Instr) (q : Shape) (f : Ctx → State → Res) (s : State) : Host.Outcome State Fault Refusal :=
  match s.cur with
  | none => .fault .noSubBand
  | some u => .next (issueAt i q f s u)

/-- An instruction whose only effect is results of latency 2 or 4 (R58). -/
def State.done (s : State) (x : Ctx) (l : List (Loc × Word)) : Res := .ok (s.writeNow x.core x.slot x.gen l)

/-- The same with exception flags, set 4 cycles after issue (R111). -/
def State.doneFl (s : State) (x : Ctx) (l : List (Loc × Word)) (fl : Fl) : Res :=
  let s := s.writeNow x.core x.slot x.gen l
  if fl = flNone then .ok s else .ok (s.writeLater x.core x.slot (x.now + 4) x.gen [] fl)

/-- Results and flags visible 8 cycles later (R58). -/
def State.done8 (s : State) (x : Ctx) (l : List (Loc × Word)) (fl : Fl) : Res :=
  .ok (s.writeLater x.core x.slot (x.now + 8) x.gen l fl)

/-! ## Long-latency operations (R55) -/

/-- The completion flag that a header's flag field names. -/
def flagOf (f : BitVec 4) : Option Nat := if f.toNat < 12 then some f.toNat else none

/-- An operation goes in flight and holds up flag A (memory class) or flag B. -/
def State.start (s : State) (x : Ctx) (lanes : Word) (flag : Option Nat) (kind : FKind) : State :=
  let s := match flag with
    | some f => s.addFlag x.core x.slot f
    | none => s
  s.launchFlight x.core ⟨x.slot, x.gen, lanes, flag, kind⟩

def Ctx.flagA (x : Ctx) : Option Nat := flagOf x.cl.seta
def Ctx.flagB (x : Ctx) : Option Nat := flagOf x.cl.setb

end Sys2Proof.Machine
end

