-- ==== Sys2Proof/Machine/Fetch.lean ====
section
/-! DEFINITION. Instruction fetch (R66 to R68), the classes of instructions (R55), and which sub-band of a band goes
next (R72, R73, R93). -/

namespace Sys2Proof

/-- The memory class (R55). -/
def Instr.memClass : Instr → Bool
  | .ld _ _ _ | .ldk _ _ _ _ | .lds _ _ | .sld _ _ _ _ _ _ | .atom _ _ _ _ | .atomc _ _ _ | .satom _ _ _ _ | .qpop _ _ _
  | .twany _ _ _ | .twall _ _ | .pwclaim _ | .pwflush _ | .pwnorm _ | .pwraw _ | .pwdrop _ => true
  | _ => false

/-- The other long-latency instructions (R58). -/
def Instr.longClass : Instr → Bool
  | .fdiv _ _ | .fsqrt _ _ | .ftab _ _ | .mma _ _ _ _ _ _ _ _ _ _ | .mmc _ _ _ _ _ _ _ _ | .tld _ _ _ _ | .tst _ _ _ _
  | .ald _ _ _ | .ast _ _ _ => true
  | _ => false

/-- Whether a step is an encoded instruction or header: the steps that a sub-band takes. -/
def Instr.isCode (i : Instr) : Bool := match i with
  | .illegalEncoding _ => true
  | _ => !(encode i).isEmpty

namespace Machine

/-! ## The instruction buffer -/

/-- Protection domain of a band's task. -/
def State.pdOf (s : State) (c slot : Nat) : Nat := (s.launch ((s.core c).task ((s.core c).taskOfBand slot)).launch).pd

/-- The address of an entry's next word: the clause's header, or the word at its PC. -/
def Core.nextAddr (k : Core) (en : Entry) : BitVec 64 :=
  let b := k.band en.slot
  let l := (lowestLane en.lanes).getD 0
  let th := if en.frozen then mapGetD b.frozen l Thread.fresh else b.thread l
  if en.ctx.isNone then th.base else th.pc

/-- Whether a line is pinned: some entry's next word lies in it (R66). -/
def State.pinned (s : State) (c : Nat) (l : ILine) : Bool :=
  let k := s.core c
  k.table.any fun e => e.2.lanes != 0 && s.pdOf c e.2.slot == l.pd && (k.nextAddr e.2).toNat / 128 == l.va.toNat / 128

/-- Unpinned stale lines go (R68). -/
def State.dropStale (s : State) (c : Nat) : State :=
  s.updCore c fun k => { k with ibuf := k.ibuf.filter fun l => !l.stale || s.pinned c l }

/-- Lines of the buffer (R66). -/
def ibufSize : Nat := 512

/-- A filled line enters the buffer; of a full one, the unpinned line used longest ago goes. -/
def State.keepLine (s : State) (c : Nat) (l : ILine) : State :=
  let k := s.core c
  let rest := k.ibuf.filter fun x => x.stale || !(x.pd == l.pd && x.va == l.va)
  let rest := if rest.length < ibufSize then rest else
    match rest.find? fun x => !s.pinned c x with
    | some v => rest.filter (· != v)
    | none => rest
  s.updCore c fun k => { k with ibuf := rest ++ [l] }

/-- Lines used for a clause are the last used. -/
def State.touchLine (s : State) (c pd : Nat) (pc : BitVec 64) : State :=
  s.updCore c fun k =>
    let mine := fun (l : ILine) => l.pd == pd && l.va.toNat / 128 == pc.toNat / 128 && !l.stale
    { k with ibuf := (k.ibuf.filter fun l => !mine l) ++ k.ibuf.filter mine }

/-! ## Clauses -/

/-- The instructions of a clause from an address: address, word and extension word, or the first missing address. -/
def clauseWords (get : BitVec 64 → Option Word) : Nat → BitVec 64 → Except (BitVec 64) (List (BitVec 64 × Word × Word))
  | 0, _ => .ok []
  | n + 1, a =>
    match get a with
    | none => .error a
    | some w =>
      if isLong w then
        match get (a + 4) with
        | none => .error (a + 4)
        | some x => (clauseWords get n (a + 8)).map ((a, w, x) :: ·)
      else (clauseWords get n (a + 4)).map ((a, w, 0) :: ·)

/-- What an entry fetches next. -/
inductive Fetched where
  /-- A line is missing: the address in it. -/
  | miss (at_ : BitVec 64)
  /-- The word where a header must stand is none (R50). -/
  | bad (at_ : BitVec 64)
  /-- The header, the instruction, or the word that is no instruction (R63). -/
  | instr (i : Instr)
  deriving DecidableEq, Repr

/-- Decode a word where an instruction is expected; what does not decode, and a header, is an illegal encoding (R63). -/
def instrOf (w x : Word) : Instr :=
  if isHeader w then .illegalEncoding w else
  match decode w x with
  | .ok i => i
  | .error _ => .illegalEncoding w

/-- Fetch an entry's next header or instruction. -/
def State.fetched (s : State) (c e : Nat) : Fetched :=
  let k := s.core c
  let en := k.entry e
  let pd := s.pdOf c en.slot
  let a := k.nextAddr en
  match en.ctx with
  | none =>
    match k.codeWord pd a false with
    | none => .miss a
    | some w => if isHeader w then (match decode w 0 with | .ok i => .instr i | .error _ => .bad a) else .bad a
  | some cl =>
    match k.codeWord pd a cl.old with
    | none => .miss a
    | some w =>
      if isLong w then
        match k.codeWord pd (a + 4) cl.old with
        | none => .miss (a + 4)
        | some x => .instr (instrOf w x)
      else .instr (instrOf w 0)

/-- The first address of a missing line that an entry waits for: of its header, its clause or its instruction. -/
def State.missing (s : State) (c e : Nat) : Option (BitVec 64) :=
  let k := s.core c
  let en := k.entry e
  let pd := s.pdOf c en.slot
  match s.fetched c e with
  | .miss a => some a
  | .instr (.clause _ _ _ _ _ n) =>
    if en.ctx.isSome then none else
    match clauseWords (fun a => k.codeWord pd a false) (n.toNat + 1) (k.nextAddr en + 4) with
    | .error a => some a
    | .ok _ => none
  | _ => none

/-! ## Which sub-band goes next (R72, R73, R93) -/

/-- Entries of a band that may issue once their time comes. -/
def State.ready (s : State) (c slot : Nat) : List Nat :=
  let k := s.core c
  let b := k.band slot
  let t := k.task (k.taskOfBand slot)
  if t.state == .draining then [] else
  (k.entriesOf slot).filter fun e =>
    let en := k.entry e
    k.poised en && (!t.stopped || b.stepping.contains e)

/-- Whether an entry competes for the turn of deterministic mode (R73, R192, R280). -/
def Wait.competes : Wait → Bool
  | .member | .signer _ | .jwait _ | .bar _ _ | .barw _ | .again _ => false
  | .ready | .fetch | .stalled | .translate _ | .walk _ _ | .phase | .op _ | .parked => true

/-- The entry that holds the turn of a band in deterministic mode. -/
def Core.holder (k : Core) (slot : Nat) : Option Nat :=
  let b := k.band slot
  let es := (k.entriesOf slot).filter fun e => !(k.entry e).frozen && (k.entry e).wait.competes && (k.entry e).lanes != 0
  match b.turn.bind fun l => es.find? fun e => (k.entry e).lanes.getLsbD l with
  | some e => some e
  | none => es.foldl (fun (a : Option Nat) e =>
      let l := (lowestLane (k.entry e).lanes).getD 32
      match a with
      | none => some e
      | some f => if l < (lowestLane (k.entry f).lanes).getD 32 then some e else a) none

/-- The time at which an entry with a clause could issue. -/
def State.timeOf (s : State) (c e : Nat) : Nat :=
  match s.fetched c e with
  | .instr i =>
    let w := (encode i).headD 0
    s.issueTime ⟨c, ((s.core c).entry e).slot, e⟩ i w.msb (wordD w)
  | _ => 0

/-- The entry of a band that goes next: one that is to fetch a header, which takes no slot; else, of those that could
issue first, the oldest, and of these the one with the lowest lane. Under the debugger, the ones it named in order. -/
def State.pick (s : State) (c slot : Nat) : Option Nat :=
  let k := s.core c
  let b := k.band slot
  let t := k.task (k.taskOfBand slot)
  let es := s.ready c slot
  let es := if (s.launch t.launch).det && !b.keep && !t.stopped then es.filter fun e => k.holder slot == some e else es
  let es := if t.stopped then (b.stepping.filter es.contains).take 1 else es
  match es.find? fun e => (k.entry e).ctx.isNone with
  | some e => some e
  | none =>
    let first := (es.map (s.timeOf c)).foldl (fun (a : Option Nat) t => match a with
      | none => some t
      | some m => some (min m t)) none
    (es.filter fun e => some (s.timeOf c e) == first).foldl (fun (a : Option Nat) e =>
      match a with
      | none => some e
      | some f =>
        let now := first.getD 0
        let ae := s.ageAt c (k.entry e) now
        let af := s.ageAt c (k.entry f) now
        let le := (lowestLane (k.entry e).lanes).getD 32
        let lf := (lowestLane (k.entry f).lanes).getD 32
        if af < ae || (ae == af && le < lf) then some e else a) none

/-- Write the tiering records on their way to the ring of domain 0; one that finds it full, or that domain 0 cannot
translate, is dropped (R368, R375). -/
def State.postTiering (s : State) : State :=
  s.rings.tierPend.foldl (fun (s : State) r =>
    let g := s.rings
    if 2 ^ g.tierLog2n.toNat ≤ (g.tierTail - g.tierHead).toNat then s else
    match s.translateFor 0 (g.tierAddr + BitVec.ofNat 64 (16 * (g.tierTail.toNat % 2 ^ g.tierLog2n.toNat))) true with
    | (_, .error _) => s
    | (s, .ok t) =>
      match s.writeBuf ⟨0, none⟩ t.buf t.off (bytesOf 8 r.1 ++ bytesOf 2 r.2.1 ++ bytesOf 1 r.2.2 ++ zeroBytes 5) with
      | (s, 0) => { s with rings := { s.rings with tierTail := s.rings.tierTail + 1 } }
      | (s, _) => s) { s with rings := { s.rings with tierPend := [] } }

/-- What follows an issue: the core's stalled sub-bands look again, unless the one that issued has just stalled. -/
def State.afterIssue (s : State) (u : Cursor) : State :=
  let s := (s.dropStale u.core).postTiering
  if ((s.core u.core).entry u.entry).wait = .stalled then s else s.wakeStalled u.core

/-- What follows an event: every stalled sub-band looks again. -/
def State.afterEvent (s : State) : State := (mapKeys s.cores).foldl (fun s c => s.wakeStalled c) s.postTiering

end Machine

end Sys2Proof
end

