-- ==== Sys2Proof/Machine/Loaded.lean ====
section
/-! DEFINITION. A module that stands at one given instruction (log entry 18): the smallest state in which a sub-band's
next step runs it. -/

namespace Sys2Proof.Machine

/-- Where the words stand: the header's address, and the instruction's. -/
def loadBase : BitVec 64 := 0x10000#64

/-- The line of code: a header whose completion flags are f0 and f1, and the two words at the place of its first
instruction; a header word stands in the header's place. -/
def loadLine (w : Nat) : BitVec 1024 :=
  if isHeader (BitVec.ofNat 32 w) then BitVec.ofNat 1024 (w % 2 ^ 64)
  else BitVec.ofNat 1024 (0xF8000080 + w % 2 ^ 64 * 2 ^ 32)

/-- The task of the loaded program: one band, 128 vector registers, all tiles and accumulators. -/
def loadTask : Task :=
  { Task.fresh with launch := 1, number := 0, nbands := 1, nv := 128, nt := 32, na := 32, spGrans := 0, gen := 1
                    slots := [0], tileMap := [0, 1, 2, 3, 4, 5, 6, 7], accMap := List.range 32, state := .running }

/-- Its launch. -/
def loadLaunch : Launch :=
  ⟨0, 0, 0, 0, 1, 32, false, false, false, 0, [0], 0, 0, 0, 0, 0, 0, 0, 0, 0, 0,
   [(0, ⟨[], 0, false, [0], []⟩)], [], [], [], false, false⟩

def loadThread (header : Bool) : Thread :=
  { Thread.fresh with exited := false, pc := if header then loadBase else loadBase + 4, base := loadBase }

def loadBand (header : Bool) : Band :=
  { Band.fresh with vgrans := List.range 16, threads := (List.range 32).map fun l => (l, loadThread header) }

def loadEntry (header : Bool) : Entry :=
  { Entry.fresh with lanes := allLanes, ctx := if header then none else some ⟨0, 0, 1, 0, false, 1, true, false⟩ }

/-- The state with the word to be fetched next. -/
def State.loadedWith (s : State) (w : Nat) : State :=
  let h := isHeader (BitVec.ofNat 32 w)
  let k := s.core 0
  { s.setCore 0 { k with
      tasks := mapSet k.tasks 0 loadTask
      bands := mapSet k.bands 0 (loadBand h)
      table := mapSet k.table 0 (loadEntry h)
      ibuf := [⟨0, loadBase, loadLine w, false⟩], bps := [] } with
    launches := mapSet s.launches 1 loadLaunch
    turns := [.issue 0 0] }

end Sys2Proof.Machine
end

