-- ==== Sys2Proof/Machine/Clause.lean ====
section
/-! DEFINITION. Clause headers (R50, R55, R56) and words that are no instruction (R63). -/

namespace Sys2Proof.Machine

/-- Whether a header's completion flags can take the instructions of its clause, memory-class and other long-latency ones
(R56). -/
def Band.headerOk (b : Band) (sa sb : BitVec 4) (mem long : Nat) : Bool :=
  let a := sa.toNat
  let z := sb.toNat
  !(12 ≤ a && a ≤ 14) && !(12 ≤ z && z ≤ 14) && !(mem != 0 && a == 15) && !(long != 0 && z == 15) &&
    (if a = z then a == 15 || b.flagCount a + mem + long ≤ 63
     else (a == 15 || b.flagCount a + mem ≤ 63) && (z == 15 || b.flagCount z + long ≤ 63))

/-- A sub-band reaches a header: the check of R56 over its clause, or, mid-clause, over the rest of it (R74); then it
stands at its first instruction. A PC that lies at no instruction of the clause is fetched as a header. -/
def State.enterClause (s : State) (u : Cursor) (wait : BitVec 12) (sa sb : BitVec 4) (pred : BitVec 3) (neg : Bool) (n : Nat) :
    State :=
  let k := s.core u.core
  let en := k.entry u.entry
  let b := k.band u.slot
  let th := b.thread ((lowestLane en.lanes).getD 0)
  let pd := s.pdOf u.core u.slot
  match clauseWords (fun a => k.codeWord pd a false) (n + 1) (th.base + 4) with
  | .error _ => s.updEntry u.core u.entry fun e => { e with wait := .fetch }
  | .ok ws =>
    let s := (s.touchLine u.core pd th.base).touchLine u.core pd ((ws.getLastD (th.base, 0, 0)).1)
    let rest := if th.pc = th.base then ws else ws.dropWhile fun w => w.1 != th.pc
    match rest with
    | [] => s.updThreads u.core u.slot en.lanes fun _ t => { t with base := t.pc }
    | w :: _ =>
      let is := rest.map fun w => instrOf w.2.1 w.2.2
      let mem := (is.filter (·.memClass)).length
      let long := (is.filter (·.longClass)).length
      if b.headerOk sa sb mem long then
        (s.updThreads u.core u.slot en.lanes fun _ t => { t with pc := w.1, base := th.base }).updEntry u.core u.entry fun e =>
          { e with ctx := some ⟨wait, sa, sb, pred, neg, rest.length, false, false⟩ }
      else
        let kpc := if th.pc = th.base then th.base else w.1
        s.takeTrap u.core u.slot 0x02 0 (some u.entry) kpc en.lanes th.base

/-- CLAUSE (R50, R55, R56). -/
def execClause (w : BitVec 12) (a b : BitVec 4) (p : BitVec 3) (n : Bool) (c : BitVec 3) (s : State) :
    Host.Outcome State Fault Refusal :=
  match s.cur with
  | none => .fault .noSubBand
  | some u => .next (s.enterClause u w a b p n c.toNat)

/-- A word that is no header where one must stand: trap 0x02 at that word (R50, R307). -/
def State.badHeader (s : State) (u : Cursor) (at_ : BitVec 64) : State :=
  s.takeTrap u.core u.slot 0x02 0 (some u.entry) at_ ((s.core u.core).entry u.entry).lanes at_

/-- ILLEGAL_ENCODING (R63, R65): trap 0x01. -/
def execIllegalEncoding (w : Word) (s : State) : Host.Outcome State Fault Refusal :=
  issue (.illegalEncoding w) { uni := w.msb, d := BitVec.ofNat 2 (wordD w) } (fun _ _ => .trap 0x01 0 0) s

end Sys2Proof.Machine
end

