-- ==== Sys2Proof/Machine/Formats.lean ====
section
/-! DEFINITION. The narrow and scaled formats and the format conversions, per lane, on bit patterns (R125 to R145). -/

namespace Sys2Proof.Machine

/-- E4M3, E5M2 and E2M1 as formats (R126). -/
def narrowSpec : Fmt → FloatSpec
  | .e5m2 => ⟨2, 5⟩
  | .e2m1 => ⟨1, 2⟩
  | .f64 | .f32 | .f16 | .bf16 | .e4m3 | .e8m0 | .q16n | .i32 | .b32 | .i64 | .i8 | .i4 | .ci8 | .ci4 => ⟨3, 4⟩

/-- Largest finite magnitude of a narrow format (R126). -/
def narrowMax : Fmt → Nat
  | .e5m2 => 0x7B
  | .e2m1 => 0x7
  | .f64 | .f32 | .f16 | .bf16 | .e4m3 | .e8m0 | .q16n | .i32 | .b32 | .i64 | .i8 | .i4 | .ci8 | .ci4 => 0x7E

/-- Canonical NaN code of a narrow format; E2M1 has none and gives +0 (R126, R137). -/
def narrowNaN : Fmt → Nat
  | .e5m2 => 0x7E
  | .e2m1 => 0
  | .f64 | .f32 | .f16 | .bf16 | .e4m3 | .e8m0 | .q16n | .i32 | .b32 | .i64 | .i8 | .i4 | .ci8 | .ci4 => 0x7F

/-- The value of a narrow code (R126). The narrow formats have no signalling NaN (R145). -/
def unpackNarrow (f : Fmt) (b : Nat) : FNum :=
  let p := narrowSpec f
  let neg := b / p.signBit % 2 == 1
  let mag := b % p.signBit
  let ex := mag / 2 ^ p.mb
  let fr := mag % 2 ^ p.mb
  if f == .e4m3 && mag == 0x7F then .nan false
  else if f == .e5m2 && mag == 0x7C then .inf neg
  else if f == .e5m2 && decide (0x7C < mag) then .nan false
  else if ex == 0 then .num neg fr p.qmin
  else .num neg (fr + 2 ^ p.mb) (p.qmin + (ex : Int) - 1)

/-- Narrow(x, F, rm, sat) (R137). -/
def narrow (x : FNum) (f : Fmt) (rm : Rnd) (sat : Bool) : Nat × Fl :=
  let p := narrowSpec f
  match x with
  | .nan s => (narrowNaN f, flIf (s || f == .e2m1) flNV)
  | .inf n =>
    if sat || f == .e2m1 then (signed p n (narrowMax f), flNone)
    else if f == .e5m2 then (signed p n 0x7C, flNone)
    else (0x7F, flNV)
  | .num n m e =>
    if m == 0 then (signed p n 0, flNone)
    else
      let (bits, inexact, tiny) := roundCore p rm n m e false
      if narrowMax f < bits then
        let big := sat || f == .e2m1 || towardZero rm n
        ((if big then signed p n (narrowMax f) else if f == .e5m2 then signed p n 0x7C else 0x7F), flOF ||| flNX)
      else (signed p n bits, flIf (tiny && inexact) flUF ||| flIf inexact flNX)

/-- The interchange format of a floating side. -/
def fmtSpec : Fmt → FloatSpec
  | .f64 => f64S
  | .f16 => f16S
  | .bf16 => bf16S
  | .f32 | .e4m3 | .e5m2 | .e2m1 | .e8m0 | .q16n | .i32 | .b32 | .i64 | .i8 | .i4 | .ci8 | .ci4 => f32S

def half16 (f : Fmt) : Bool := f == .f16 || f == .bf16

/-- The low `n` bits of `x` as a two's-complement number. -/
def sext (n x : Nat) : Int :=
  let y := x % 2 ^ n
  if y < 2 ^ (n - 1) then y else (y : Int) - 2 ^ n

/-- The low `n` bits of an integer. -/
def lowBits (n : Nat) (v : Int) : Nat := (v % (2 ^ n : Int)).toNat

def clampInt (lo hi v : Int) : Int := if v < lo then lo else if hi < v then hi else v

/-- The value range of an integer format (R139). -/
def intRange : Fmt → Int × Int
  | .b32 => (0, 2 ^ 32 - 1)
  | .i64 => (-(2 ^ 63), 2 ^ 63 - 1)
  | .f64 | .f32 | .f16 | .bf16 | .e4m3 | .e5m2 | .e2m1 | .e8m0 | .q16n | .i32 | .i8 | .i4 | .ci8 | .ci4 =>
    (-(2 ^ 31), 2 ^ 31 - 1)

/-- An integer source of `cvt` (R139). -/
def intVal (f : Fmt) (x : Nat) : Int :=
  if f == .b32 then x % 2 ^ 32 else if f == .i64 then sext 64 x else sext 32 x

/-- Bits of an integer destination: 64 for i64, else 32. -/
def intWidth (f : Fmt) : Nat := if f == .i64 then 64 else 32

/-- A floating source as read, under `ftz` on 16-bit sides (R138). -/
def readFloat (f : Fmt) (ftz : Bool) (x : Nat) : FNum :=
  flushIn (fmtSpec f) (ftz && half16 f) (unpackF (fmtSpec f) (x % 2 ^ (fmtSpec f).width))

/-- A value converted to a floating format, with the saturation of R139. -/
def toFloat (x : FNum) (dst : Fmt) (rm : Rnd) (sat ftz : Bool) : Nat × Fl :=
  let p := fmtSpec dst
  match x with
  | .nan s => canonNaN p s
  | .inf n => (signed p n (if sat then p.maxBits else p.infBits), flNone)
  | .num n m e =>
    let (r, fl) := roundNum p rm (ftz && half16 dst) n m e
    (if sat && r == signed p n p.infBits then signed p n p.maxBits else r, fl)

/-- A value converted to an integer format (R139). -/
def toInt (x : FNum) (dst : Fmt) (rm : Rnd) : Nat × Fl :=
  let (lo, hi) := intRange dst
  let w := intWidth dst
  match x with
  | .nan _ => (0, flNV)
  | .inf n => (lowBits w (if n then lo else hi), flNV)
  | .num n m e =>
    let (q, inexact) := if m == 0 then (0, false) else roundShift rm n m false (-e)
    let y : Int := if n then -(q : Int) else q
    if y < lo || hi < y then (lowBits w (clampInt lo hi y), flNV) else (lowBits w y, flIf inexact flNX)

/-- `cvt` on one lane (R139). -/
def cvtVal (src dst : Fmt) (rm : Rnd) (sat ftz : Bool) (x : Nat) : Nat × Fl :=
  if floatFmt src then
    if floatFmt dst then toFloat (readFloat src ftz x) dst rm sat ftz else toInt (readFloat src ftz x) dst rm
  else
    let v := intVal src x
    if floatFmt dst then toFloat (.num (decide (v < 0)) v.natAbs 0) dst rm false ftz
    else if sat then
      let (lo, hi) := intRange dst
      (lowBits (intWidth dst) (clampInt lo hi v), flIf (decide (v < lo) || decide (hi < v)) flNV)
    else (lowBits (intWidth dst) v, flNone)

/-- Element `i` of `n`-bit elements. -/
def elem (n i x : Nat) : Nat := x / 2 ^ (n * i) % 2 ^ n

/-- Elements of `n` bits packed, element 0 lowest. -/
def packElems (n : Nat) : List Nat → Nat
  | [] => 0
  | x :: xs => x % 2 ^ n + 2 ^ n * packElems n xs

def orFlags (l : List (Nat × Fl)) : Fl := l.foldl (fun a x => a ||| x.2) flNone

def packRes (n : Nat) (l : List (Nat × Fl)) : Nat × Fl := (packElems n (l.map (·.1)), orFlags l)

/-- Cut(x, n) of a signed value (R140). -/
def cutInt (n : Nat) (sat complex : Bool) (v : Int) : Nat × Fl :=
  let hi : Int := 2 ^ (n - 1) - 1
  (lowBits n (if sat then clampInt (if complex then -hi else -hi - 1) hi v else v), flNone)

/-- `pk` on one lane (R140); `c0` and `c1` are the registers of the pair vc. -/
def pkVal (src dst : Fmt) (rm : Rnd) (sat ftz : Bool) (a last c0 c1 : Nat) : Nat × Fl :=
  let nar (f : Fmt) (x : Nat) := narrow (readFloat f ftz x) dst rm sat
  match src, dst with
  | .f32, .f16 | .f32, .bf16 => packRes 16 [cvtVal src dst rm sat ftz a, cvtVal src dst rm sat ftz last]
  | .f32, _ => packRes 8 [nar .f32 a, nar .f32 last, nar .f32 c0, nar .f32 c1]
  | .i32, .i8 => packRes 8 ([a, last, c0, c1].map fun x => cutInt 8 sat false (sext 32 x))
  | .i32, _ => packRes 8 ([a, last, c0, c1].map fun x => cutInt 8 sat true (sext 32 x))
  | .i8, d =>
    packRes 4 ([0, 1, 2, 3].flatMap fun j =>
      [cutInt 4 sat (d == .ci4) (sext 8 (elem 8 j a)), cutInt 4 sat (d == .ci4) (sext 8 (elem 8 j last))])
  | s, .e2m1 =>
    packRes 4 [nar s (elem 16 0 a), nar s (elem 16 0 last), nar s (elem 16 1 a), nar s (elem 16 1 last),
      nar s (elem 16 0 c0), nar s (elem 16 0 c1), nar s (elem 16 1 c0), nar s (elem 16 1 c1)]
  | s, _ => packRes 8 [nar s (elem 16 0 a), nar s (elem 16 1 a), nar s (elem 16 0 last), nar s (elem 16 1 last)]

/-- A part of a complex element, its reserved code read under R130. -/
def complexPart (n x : Nat) : Int := if x % 2 ^ n == 2 ^ (n - 1) then -(2 ^ (n - 1) - 1) else sext n x

/-- The two parts of a ci8 or ci4 element (R127). -/
def complexParts (f : Fmt) (x : Nat) : Int × Int :=
  if f == .ci8 then (complexPart 8 (x % 256), complexPart 8 (x / 256 % 256))
  else (complexPart 4 (x % 16), complexPart 4 (x / 16 % 16))

/-- Bits of an element of a packed format (R126). -/
def elemBits (f : Fmt) : Nat :=
  match f with
  | .f64 | .i64 => 64
  | .f32 | .i32 | .b32 => 32
  | .f16 | .bf16 | .ci8 => 16
  | .e4m3 | .e5m2 | .e8m0 | .i8 | .ci4 => 8
  | .e2m1 | .q16n | .i4 => 4

/-- `upk` on one lane (R141): the pair of a complex source in bits 63 to 0. -/
def upkVal (src dst : Fmt) (ftz : Bool) (a last : Nat) : Nat × Fl :=
  let n := elemBits src
  match src with
  | .f16 | .bf16 => cvtVal src .f32 .rn false ftz (elem 16 (last % 2) a)
  | .e4m3 | .e5m2 | .e2m1 =>
    let get (j : Nat) : Nat := (toFloat (unpackNarrow src (elem n j a)) dst .rn false false).1
    if dst == .f32 then (get (last % (32 / n)), flNone)
    else
      let j := last % (16 / n)
      (packElems 16 [get (2 * j), get (2 * j + 1)], flNone)
  | .ci8 | .ci4 =>
    let (re, im) := complexParts src (elem n (last % (32 / n)) a)
    (packElems 32 [lowBits 32 re, lowBits 32 im], flNone)
  | .i4 =>
    if dst == .i8 then
      let j := last % 2
      (packElems 8 ([0, 1, 2, 3].map fun k => lowBits 8 (sext 4 (elem 4 (4 * j + k) a))), flNone)
    else (lowBits 32 (sext 4 (elem 4 (last % 8) a)), flNone)
  | .f64 | .f32 | .e8m0 | .q16n | .i32 | .b32 | .i64 | .i8 => (lowBits 32 (sext 8 (elem 8 (last % 4) a)), flNone)

/-- Q16N magnitudes in FP16 (R128). -/
def q16nMags : List Nat := [0x2782, 0x2EA8, 0x3266, 0x3514, 0x374C, 0x38EE, 0x3A61, 0x3C00]

/-- Q16N block-scale factors in FP16 (R129). -/
def q16nG : List Nat :=
  [0x3C00, 0x3C2D, 0x3C5D, 0x3C8E, 0x3CC2, 0x3CF8, 0x3D30, 0x3D6B,
   0x3DA8, 0x3DE8, 0x3E2B, 0x3E71, 0x3EBA, 0x3F06, 0x3F56, 0x3FA9]

def numParts : FNum → Nat × Int
  | .num _ m e => (m, e)
  | .inf _ | .nan _ => (0, 0)

/-- The level of a Q16N code (R128). -/
def q16nLevel (c : Nat) : FNum :=
  let i := if 8 ≤ c then c - 8 else 7 - c
  let (m, e) := numParts (unpackF f16S (q16nMags.getD i 0))
  .num (decide (c < 8)) m e

/-- The block scale of a scale code (R129); zero for code 0. -/
def q16nScale (c : Nat) : Nat × Int :=
  if c == 0 then (0, 0)
  else
    let (m, e) := numParts (unpackF f16S (q16nG.getD (c % 16) 0))
    (m, e + ((c / 16 : Nat) : Int) - 15)

/-- The super-scale as read (R130): its magnitude, zero for an infinity or a NaN. -/
def q16nSuper (s : Nat) : Nat × Int := numParts (unpackF f32S (s % 2 ^ 31))

/-- The exact value of a Q16N element; an exact zero product is +0 (R129, R143). -/
def q16nValue (code c s : Nat) : FNum :=
  let (bm, be) := q16nScale c
  let (sm, se) := q16nSuper s
  match q16nLevel code with
  | .num n m e => .num (n && m * bm * sm != 0) (m * bm * sm) (e + be + se)
  | x => x

/-- `qz` to an integer part (R142): the value before packing. -/
def qzPart (big : Int) (rm : Rnd) (x s : FNum) : Int × Fl :=
  match x, s with
  | .nan _, _ => (0, flNV)
  | .inf n, .num false k _ => if k == 0 then (0, flNV) else (if n then -big else big, flNV)
  | .num n m e, .num false k f =>
    if k == 0 then (0, flNV)
    else if m == 0 then (0, flNone)
    else
      let (q, g, st) := quotient m e k f
      let (r, inexact) := roundShift rm n q st (-g)
      let y : Int := if n then -(r : Int) else r
      let z := clampInt (-big) big y
      (z, flIf (inexact || z != y) flNX)
  | _, _ => (0, flNV)

/-- `qz` on one lane (R142): `a` is the source, a pair for the complex targets. -/
def qzVal (dst : Fmt) (rm : Rnd) (a last c : Nat) : Nat × Fl :=
  match dst with
  | .q16n =>
    let (bm, be) := q16nScale (c % 256)
    let (sm, se) := q16nSuper last
    match unpackF f32S (a % 2 ^ 32) with
    | .nan _ => (8, flNV)
    | x =>
      let mag := match x with
        | .num _ m e => FNum.num false m e
        | y => y
      let above (j : Nat) : Bool :=
        let (m0, e0) := numParts (unpackF f16S (q16nMags.getD j 0))
        let (m1, e1) := numParts (unpackF f16S (q16nMags.getD (j + 1) 0))
        let (t, te) := sumNums [(false, m0, e0), (false, m1, e1)]
        (mag == .inf false || mag == .inf true) || ltNum false (.num false (t.natAbs * bm * sm) (te - 1 + be + se)) mag
      if bm * sm == 0 then (if x.neg then 7 else 8, flNone)
      else
        let i := ([0, 1, 2, 3, 4, 5, 6].filter above).length
        (if x.neg then 7 - i else 8 + i, flNone)
  | .ci8 | .ci4 =>
    let s := unpackF f32S last
    let w := if dst == .ci8 then 8 else 4
    let big : Int := if dst == .ci8 then 127 else 7
    let (re, f0) := qzPart big rm (unpackF f32S (a % 2 ^ 32)) s
    let (im, f1) := qzPart big rm (unpackF f32S (a / 2 ^ 32)) s
    (packElems w [lowBits w re, lowBits w im], f0 ||| f1)
  | .f64 | .f32 | .f16 | .bf16 | .e4m3 | .e5m2 | .e2m1 | .e8m0 | .i32 | .b32 | .i64 | .i8 | .i4 =>
    let w := if dst == .i4 then 4 else 8
    let (q, fl) := qzPart (if dst == .i4 then 7 else 127) rm (unpackF f32S (a % 2 ^ 32)) (unpackF f32S last)
    (lowBits w q, fl)

/-- A part times the scale, with the rules of `fmul` (R143). -/
def dqPart (rm : Rnd) (v : Int) (last : Nat) : Nat × Fl :=
  let s := unpackF f32S last
  match mulNum (.num (decide (v < 0)) v.natAbs 0) s with
  | none => canonNaN f32S true
  | some (.nan sg) => canonNaN f32S sg
  | some (.inf n) => (signed f32S n f32S.infBits, flNone)
  | some (.num n m e) => roundNum f32S rm false n m e

/-- `dq` on one lane (R143). -/
def dqVal (src : Fmt) (rm : Rnd) (a last c : Nat) : Nat × Fl :=
  match src with
  | .q16n =>
    match q16nValue (a % 16) (c % 256) last with
    | .num n m e => roundNum f32S rm false n m e
    | .inf _ | .nan _ => (0, flNone)
  | .ci8 | .ci4 =>
    let (re, im) := complexParts src a
    packRes 32 [dqPart rm re last, dqPart rm im last]
  | .f64 | .f32 | .f16 | .bf16 | .e4m3 | .e5m2 | .e2m1 | .e8m0 | .i32 | .b32 | .i64 | .i8 | .i4 =>
    dqPart rm (if src == .i4 then sext 4 a else sext 8 a) last

/-- emax of the MX element formats (R144). -/
def mxEmax : Fmt → Int
  | .e5m2 => 15
  | .e2m1 => 2
  | .f64 | .f32 | .f16 | .bf16 | .e4m3 | .e8m0 | .q16n | .i32 | .b32 | .i64 | .i8 | .i4 | .ci8 | .ci4 => 8

/-- `mxq` on one lane (R144). -/
def mxqVal (dst : Fmt) (rm : Rnd) (a last : Nat) : Nat × Fl :=
  match unpackF f32S (last % 2 ^ 31) with
  | .num _ m e =>
    let x : Int := if m == 0 then -127 else clampInt (-127) 127 ((m.log2 : Int) + e - mxEmax dst)
    let (q, fl) := match unpackF f32S a with
      | .num n k f => narrow (.num n k (f - x)) dst rm true
      | y => narrow y dst rm true
    (q + 256 * (x + 127).toNat, fl)
  | .inf _ | .nan _ => (0xFF00, flNV)

/-- `mxdq` on one lane (R145). -/
def mxdqVal (src : Fmt) (rm : Rnd) (a last : Nat) : Nat × Fl :=
  let c := last / 256 % 256
  let x := unpackNarrow src (a % 2 ^ elemBits src)
  if c == 0xFF then (f32S.nanBits, flNone)
  else match x with
    | .nan _ => (f32S.nanBits, flNone)
    | .inf n => (signed f32S n f32S.infBits, flNone)
    | .num n m e => roundNum f32S rm false n m (e + (c : Int) - 127)

end Sys2Proof.Machine
end

