-- ==== Sys2Proof/Machine/VectorFloat.lean ====
section
/-! DEFINITION. Floating-point instructions (R109 to R124). -/

namespace Sys2Proof

def FTy.spec : FTy → Machine.FloatSpec
  | .f64 => Machine.f64S
  | .f32 => Machine.f32S
  | .f16x2 => Machine.f16S
  | .bf16x2 => Machine.bf16S

def FTy.isWide : FTy → Bool
  | .f64 => true
  | .f32 | .f16x2 | .bf16x2 => false

def FTy.packed : FTy → Bool
  | .f16x2 | .bf16x2 => true
  | .f64 | .f32 => false

def FW.ty : FW → FTy
  | .f64 => .f64
  | .f32 => .f32

def FH.spec : FH → Machine.FloatSpec
  | .f16 => Machine.f16S
  | .bf16 => Machine.bf16S

namespace Machine

/-- The rounding mode of `sys.fround` (R110). -/
def rmOf (r : BitVec 2) : Rnd :=
  match r.toNat with
  | 0 => .rn
  | 1 => .rz
  | 2 => .ru
  | _ => .rd

def Ctx.rm (x : Ctx) : Rnd := rmOf x.b.rm

/-- `ftz` acts on the 16-bit types (R113). -/
def Ctx.ftz (x : Ctx) (t : FTy) : Bool := x.l.ftz && t.packed

/-- Operands of a floating type as numbers: a pair for .f64. -/
def Ctx.fa (x : Ctx) (t : FTy) (l : Nat) (r : BitVec 7) : Nat := if t.isWide then (x.v64 l r).toNat else (x.v l r).toNat
def Ctx.flast (x : Ctx) (t : FTy) (l : Nat) (u : Bool) (r : BitVec 7) : Nat :=
  if t.isWide then (x.last64 l u r).toNat else (x.last l u r).toNat

/-- An operation on each element of a type. -/
def perElem (t : FTy) (f : Nat → Nat × Fl) (a : Nat) : Nat × Fl :=
  if t.packed then packRes 16 [f (elem 16 0 a), f (elem 16 1 a)] else f a

def perElem3 (t : FTy) (f : Nat → Nat → Nat → Nat × Fl) (a b c : Nat) : Nat × Fl :=
  if t.packed then packRes 16 [f (elem 16 0 a) (elem 16 0 b) (elem 16 0 c), f (elem 16 1 a) (elem 16 1 b) (elem 16 1 c)]
  else f a b c

/-- The flags of all Active lanes. -/
def orLanes (x : Ctx) (f : Nat → Fl) : Fl := (lanesOf x.active).foldl (fun a l => a ||| f l) flNone

/-- Results of a floating type. -/
def Ctx.eachF (x : Ctx) (t : FTy) (vd : BitVec 7) (f : Nat → Nat) : List (Loc × Word) :=
  if t.isWide then x.each64 vd fun l => BitVec.ofNat 64 (f l) else x.each32 vd fun l => BitVec.ofNat 32 (f l)

/-- A floating result: visible after 4 cycles, 8 for .f64 (R58). -/
def State.fpDone (s : State) (x : Ctx) (t : FTy) (l : List (Loc × Word)) (fl : Fl) : Res :=
  if t.isWide then s.done8 x l fl else s.doneFl x l fl

/-- Two-source instructions, `acc` for form VA. -/
def fpBin (i : Instr) (t : FTy) (o : VV) (acc : Bool) (f : Ctx → Nat → Nat → Nat → Nat × Fl) (s : State) :
    Host.Outcome State Fault Refusal :=
  issue i (shapeVV o t.isWide acc) (fun x st =>
    let r := fun l => perElem3 t (f x) (x.fa t l o.va) (x.flast t l o.u o.vb) (x.fa t l o.vd)
    st.fpDone x t (x.eachF t o.vd fun l => (r l).1) (orLanes x fun l => (r l).2)) s

/-- One-source instructions. -/
def fpUn (i : Instr) (t : FTy) (o : VU) (f : Ctx → Nat → Nat × Fl) (s : State) : Host.Outcome State Fault Refusal :=
  issue i (shapeVU o t.isWide) (fun x st =>
    let r := fun l => perElem t (f x) (x.fa t l o.va)
    st.fpDone x t (x.eachF t o.vd fun l => (r l).1) (orLanes x fun l => (r l).2)) s

/-- `fdiv` and `fsqrt` go to the pipe's sequencer for 8 or 16 cycles (R124); with no Active lane they are complete. -/
def State.seqStart (s : State) (x : Ctx) (t : FTy) (vd : BitVec 7) (f : Nat → Nat × Fl) : Res :=
  if x.active == 0 then .ok s else
  let p := pipeOf x.slot
  let s := s.updCore x.core fun k => { k with seqBusy := mapSet k.seqBusy p (x.now + if t.isWide then 16 else 8) }
  .ok (s.start x x.active x.flagB (.result true p (x.eachF t vd fun l => (f l).1) (orLanes x fun l => (f l).2)))

/-! ## Coefficient tables (R122, R123) -/

/-- The table of an id in the object whose code section holds an address. -/
def State.tableAt (s : State) (pd : Nat) (pc : BitVec 64) (id : Nat) : List Word :=
  match s.objects.find? fun o => o.2.pd == pd && o.2.va.toNat ≤ pc.toNat && pc.toNat < o.2.va.toNat + o.2.codeBytes with
  | some o => mapGetD o.2.coefs id []
  | none => []

/-- The floor of a finite value. -/
def floorNum (neg : Bool) (m : Nat) (e : Int) : Int :=
  let v := if neg then -(m : Int) else m
  if 0 ≤ e then v * 2 ^ e.toNat else v / 2 ^ (-e).toNat

/-- The Horner steps from degree `j` down. -/
def ftabHorner (c : Nat → Nat) (f : Nat) : Nat → Nat → Nat
  | 0, y => y
  | j + 1, y => ftabHorner c f j (fmaF f32S .rn false y f (c j)).1

/-- `ftab` on one input; `w` gives the table's words. -/
def ftabF (w : Nat → Nat) (x : Nat) : Nat :=
  match unpackF f32S x with
  | .nan _ => f32S.nanBits
  | .inf n => if n then w 4 else w 5
  | .num _ _ _ =>
    let n := 2 ^ fieldN (w 3) 3 0
    let m := fieldN (w 3) 6 4
    let d := (fsubF f32S .rn false x (w 0)).1
    let u := (fmulF f32S .rn false d (w 2)).1
    let i : Option Nat := match unpackF f32S u with
      | .nan _ => none
      | .inf neg => some (if neg then 0 else n - 1)
      | .num neg k e => some (min (floorNum neg k e).toNat (n - 1))
    match i with
    | none => f32S.nanBits
    | some i =>
      let f := (fsubF f32S .rn false u (roundNum f32S .rn false false i 0).1).1
      let c := fun j => w (6 + i * (m + 1) + j)
      let y := ftabHorner c f m (c m)
      if (unpackF f32S y).isNaN then f32S.nanBits else y

/-! ## The instructions -/

/-- R116. -/
def execFadd (t : FTy) (o : VV) (s : State) : Host.Outcome State Fault Refusal :=
  fpBin (.fadd t o) t o false (fun x a b _ => faddF t.spec x.rm (x.ftz t) a b) s

/-- R116. -/
def execFsub (t : FTy) (o : VV) (s : State) : Host.Outcome State Fault Refusal :=
  fpBin (.fsub t o) t o false (fun x a b _ => fsubF t.spec x.rm (x.ftz t) a b) s

/-- R116. -/
def execFmul (t : FTy) (o : VV) (s : State) : Host.Outcome State Fault Refusal :=
  fpBin (.fmul t o) t o false (fun x a b _ => fmulF t.spec x.rm (x.ftz t) a b) s

/-- R116. -/
def execFma (t : FTy) (o : VV) (s : State) : Host.Outcome State Fault Refusal :=
  fpBin (.fma t o) t o true (fun x a b c => fmaF t.spec x.rm (x.ftz t) a b c) s

/-- R117. -/
def execFmin (t : FTy) (o : VV) (s : State) : Host.Outcome State Fault Refusal :=
  fpBin (.fmin t o) t o false (fun x a b _ => fminmaxF t.spec (x.ftz t) false true a b) s

/-- R117. -/
def execFmax (t : FTy) (o : VV) (s : State) : Host.Outcome State Fault Refusal :=
  fpBin (.fmax t o) t o false (fun x a b _ => fminmaxF t.spec (x.ftz t) true true a b) s

/-- R117. -/
def execFminm (t : FTy) (o : VV) (s : State) : Host.Outcome State Fault Refusal :=
  fpBin (.fminm t o) t o false (fun x a b _ => fminmaxF t.spec (x.ftz t) false false a b) s

/-- R117. -/
def execFmaxm (t : FTy) (o : VV) (s : State) : Host.Outcome State Fault Refusal :=
  fpBin (.fmaxm t o) t o false (fun x a b _ => fminmaxF t.spec (x.ftz t) true false a b) s

/-- R117: the packed types compare element 0 (R60). -/
def execFcmp (t : FTy) (o : VC) (s : State) : Host.Outcome State Fault Refusal :=
  issue (.fcmp t o) (shapeVC o t.isWide) (fun x st =>
    let r := fun l => fcmpF t.spec (x.ftz t) o.cc (x.fa t l o.va % 2 ^ t.spec.width) (x.flast t l o.u o.vb % 2 ^ t.spec.width)
    st.fpDone x t (x.eachP o.pd fun l => (r l).1) (orLanes x fun l => (r l).2)) s

/-- R118. -/
def execFrcp (t : FTy) (o : VU) (s : State) : Host.Outcome State Fault Refusal :=
  fpUn (.frcp t o) t o (fun x a => frcpF t.spec x.rm (x.ftz t) a) s

/-- R118. -/
def execFrsq (t : FTy) (o : VU) (s : State) : Host.Outcome State Fault Refusal :=
  fpUn (.frsq t o) t o (fun x a => frsqF t.spec x.rm (x.ftz t) a) s

/-- R118. -/
def execFrnd (t : FTy) (r : Rnd) (o : VU) (s : State) : Host.Outcome State Fault Refusal :=
  fpUn (.frnd t r o) t o (fun x a => frndF t.spec r (x.ftz t) a) s

/-- R118. -/
def execFclass (t : FTy) (o : VU) (s : State) : Host.Outcome State Fault Refusal :=
  fpUn (.fclass t o) t o (fun _ a => (fclassF t.spec a, flNone)) s

/-- R118, R124. -/
def execFsqrt (t : FTy) (o : VU) (s : State) : Host.Outcome State Fault Refusal :=
  issue (.fsqrt t o) (shapeVU o t.isWide) (fun x st =>
    st.seqStart x t o.vd fun l => perElem t (fun a => fsqrtF t.spec x.rm (x.ftz t) a) (x.fa t l o.va)) s

/-- R119, R124. -/
def execFdiv (t : FW) (o : VV) (s : State) : Host.Outcome State Fault Refusal :=
  issue (.fdiv t o) (shapeVV o t.ty.isWide) (fun x st =>
    st.seqStart x t.ty o.vd fun l => fdivF t.ty.spec x.rm (x.fa t.ty l o.va) (x.flast t.ty l o.u o.vb)) s

/-- R120: of a pair, the even register is the exponent. -/
def execFscale (t : FW) (o : VV) (s : State) : Host.Outcome State Fault Refusal :=
  issue (.fscale t o) { shapeVV o t.ty.isWide with
      srcs := (if t.ty.isWide then src64 o.va else [.v o.va.toNat]) ++ lastSrc o.u o.vb }
    (fun x st =>
      let r := fun l => fscaleF t.ty.spec x.rm (x.fa t.ty l o.va) (x.last l o.u o.vb).toInt
      st.fpDone x t.ty (x.eachF t.ty o.vd fun l => (r l).1) (orLanes x fun l => (r l).2)) s

/-- R121. -/
def execFdot2 (t : FH) (o : VV) (s : State) : Host.Outcome State Fault Refusal :=
  issue (.fdot2 t o) (shapeVV o false true) (fun x st =>
    let r := fun l =>
      let a := (x.v l o.va).toNat
      let b := (x.last l o.u o.vb).toNat
      fdot2F t.spec x.rm x.l.ftz (elem 16 0 a) (elem 16 1 a) (elem 16 0 b) (elem 16 1 b) (x.v l o.vd).toNat
    st.doneFl x (x.each32 o.vd fun l => BitVec.ofNat 32 (r l).1) (orLanes x fun l => (r l).2)) s

/-- R122, R123. -/
def execFtab (tid : BitVec 4) (o : VU) (s : State) : Host.Outcome State Fault Refusal :=
  issue (.ftab tid o) (shapeVU o) (fun x st =>
    let tb := st.tableAt x.pd x.pc tid.toNat
    if x.active == 0 then .ok st else
    .ok (st.start x x.active x.flagB (.result false (pipeOf x.slot)
      (x.each32 o.vd fun l => BitVec.ofNat 32 (ftabF (fun i => (tb.getD i 0).toNat) (x.v l o.va).toNat)) flNone))) s

end Machine

end Sys2Proof
end

