-- ==== Sys2Proof/Machine/Convert.lean ====
section
/-! DEFINITION. Format instructions (R135 to R145). -/

namespace Sys2Proof.Machine

/-- A format form: `wa` and `wd` say that va and vd name pairs, `last` and `vc` how the other sources are read (`vc`: 0
not, 1 one register, 2 a pair). -/
def shapeFV (o : FV) (wa last : Bool) (vc : Nat) : Shape :=
  { uni := false, d := o.d, words := 2
    vs := [o.vd.toNat, o.va.toNat] ++ (if last then lastV o.u o.vb else []) ++ (if vc = 0 then [] else [o.vc.toNat])
    srcs := (if wa then src64 o.va else [.v o.va.toNat]) ++ (if last then lastSrc o.u o.vb else []) ++
      (match vc with | 0 => [] | 1 => [.v o.vc.toNat] | _ => src64 o.vc) }

/-- A format instruction: `f` gives the result of a lane from its sources, a pair's bits above bit 31 when `wd`; `slow`
for an f64 side (R135). -/
def fmtOp (i : Instr) (o : FV) (wa wd last : Bool) (vc : Nat) (slow : Bool)
    (f : Ctx → Nat → Nat → Nat → Nat → Nat × Fl) (s : State) : Host.Outcome State Fault Refusal :=
  issue i (shapeFV o wa last vc) (fun x st =>
    let r := fun l => f x (if wa then (x.v64 l o.va).toNat else (x.v l o.va).toNat) (x.last l o.u o.vb).toNat
      (x.v l o.vc).toNat (x.readV l (o.vc.toNat + 1)).1.toNat
    let w := if wd then x.each64 o.vd fun l => BitVec.ofNat 64 (r l).1 else x.each32 o.vd fun l => BitVec.ofNat 32 (r l).1
    let fl := orLanes x fun l => (r l).2
    if slow then st.done8 x w fl else st.doneFl x w fl) s

/-- R139. -/
def execCvt (src dst : Fmt) (rm : Rnd) (sat : Bool) (o : FV) (s : State) : Host.Outcome State Fault Refusal :=
  fmtOp (.cvt src dst rm sat o) o (wideFmt src) (wideFmt dst) false 0 (src == .f64 || dst == .f64)
    (fun x a _ _ _ => cvtVal src dst rm sat x.l.ftz a) s

/-- R140. -/
def execPk (src dst : Fmt) (rm : Rnd) (sat : Bool) (o : FV) (s : State) : Host.Outcome State Fault Refusal :=
  fmtOp (.pk src dst rm sat o) o false false true (if pkUsesC src dst then 2 else 0) false
    (fun x a b c0 c1 => pkVal src dst rm sat x.l.ftz a b c0 c1) s

/-- R141. -/
def execUpk (src dst : Fmt) (rm : Rnd) (sat : Bool) (o : FV) (s : State) : Host.Outcome State Fault Refusal :=
  fmtOp (.upk src dst rm sat o) o false (complexFmt src) true 0 false (fun x a b _ _ => upkVal src dst x.l.ftz a b) s

/-- R142. -/
def execQz (src dst : Fmt) (rm : Rnd) (sat : Bool) (o : FV) (s : State) : Host.Outcome State Fault Refusal :=
  fmtOp (.qz src dst rm sat o) o (complexFmt dst) false true (if dst == .q16n then 1 else 0) false
    (fun _ a b c _ => qzVal dst rm a b c) s

/-- R143. -/
def execDq (src dst : Fmt) (rm : Rnd) (sat : Bool) (o : FV) (s : State) : Host.Outcome State Fault Refusal :=
  fmtOp (.dq src dst rm sat o) o false (complexFmt src) true (if src == .q16n then 1 else 0) false
    (fun _ a b c _ => dqVal src rm a b c) s

/-- R144. -/
def execMxq (src dst : Fmt) (rm : Rnd) (sat : Bool) (o : FV) (s : State) : Host.Outcome State Fault Refusal :=
  fmtOp (.mxq src dst rm sat o) o false false true 0 false (fun _ a b _ _ => mxqVal dst rm a b) s

/-- R145. -/
def execMxdq (src dst : Fmt) (rm : Rnd) (sat : Bool) (o : FV) (s : State) : Host.Outcome State Fault Refusal :=
  fmtOp (.mxdq src dst rm sat o) o false false true 0 false (fun _ a b _ _ => mxdqVal src rm a b) s

end Sys2Proof.Machine
end

