-- ==== Sys2Proof/Machine/PwAct.lean ====
section
/-! DEFINITION. What the Plynwick block instructions do to the blocks their lanes name (R184, R186, R187). -/

namespace Sys2Proof.Machine

/-- PWFLUSH of one block: a written one is encoded and written to its home; the block is dropped and its ownership given
up. -/
def State.pwFlush (s : State) (c pd : Nat) (t : Trans) : State × Nat :=
  match (s.core c).pwFind t.buf t.block with
  | none => (s, 0)
  | some p =>
    let r := if p.written.isEmpty then (s, 0) else s.writeCode ⟨pd, none⟩ p.buf p.block p.encoded
    (r.1.pwForget c t.buf t.block, r.2)

/-- PWNORM of one block: owned, fully encoded at the exponent its values need, written to its home, and settled. -/
def State.pwNorm (s : State) (c pd : Nat) (t : Trans) : State × Nat :=
  match s.pwOwn c pd t with
  | (s, 0) =>
    match (s.core c).pwFind t.buf t.block with
    | none => (s, 0)
    | some p =>
      let code := bytesOf p.geom.bytes (pwNormCode p.geom (ofBytes p.code) p.written)
      match s.writeCode ⟨pd, none⟩ p.buf p.block code with
      | (s, e) =>
        (s.updCore c fun k => { k with pw := k.pw.map fun (q : PwBlock) =>
          if q.buf == p.buf && q.block == p.block then { q with code, written := [], writer := [] } else q }, e)
  | r => r

/-- PWRAW of one lane: a word of the code this core would write, carries, or reads at the home (R187). -/
def State.pwRawWord (s : State) (c pd : Nat) (t : Trans) : State × Nat × Word :=
  let w := t.pos % (t.geom.bits / 32)
  match (s.core c).pwFind t.buf t.block with
  | some p => (s, 0, BitVec.ofNat 32 (ofBytes p.encoded / 2 ^ (32 * w)))
  | none =>
    match s.readCode ⟨pd, none⟩ t.buf t.block with
    | (s, e, code) => (s, e, BitVec.ofNat 32 (ofBytes code / 2 ^ (32 * w)))

/-- The action of an instruction on one block. -/
def State.pwBlockAct (s : State) (c pd : Nat) (op : PwOp) (t : Trans) : State × Nat :=
  match op with
  | .claim => s.pwOwn c pd t
  | .flush => s.pwFlush c pd t
  | .norm => s.pwNorm c pd t
  | .drop => (s.pwForget c t.buf t.block, 0)
  | .raw => (s, 0)

/-- The action of an instruction over its lanes: once for each distinct block, in ascending lane order; `pwraw` reads for
each lane. A lane keeps the detail of the machine check its block met. -/
def State.pwAct (s : State) (c pd : Nat) (op : PwOp) (acc : List LAcc) : State × List LAcc :=
  let r := acc.foldl (fun (r : State × List LAcc × List (Nat × Nat)) a =>
    match a.t with
    | none => (r.1, r.2.1 ++ [a], r.2.2)
    | some t =>
      match op with
      | .raw =>
        let q := r.1.pwRawWord c pd t
        (q.1, r.2.1 ++ [{ a with val := some (q.2.2.setWidth 64), err := q.2.1 }], r.2.2)
      | .claim | .flush | .norm | .drop =>
        match r.2.2.find? fun b => b.1 == pwKey t.buf t.block with
        | some b => (r.1, r.2.1 ++ [{ a with err := b.2 }], r.2.2)
        | none =>
          let q := r.1.pwBlockAct c pd op t
          (q.1, r.2.1 ++ [{ a with err := q.2 }], r.2.2 ++ [(pwKey t.buf t.block, q.2)])) (s, [], [])
  (r.1, r.2.1)

end Sys2Proof.Machine
end

