-- ==== Sys2Proof/Machine/MemAccess.lean ====
section
/-! DEFINITION. Loads, stores and prefetch of threads (R146 to R165): address forms, the checks of R154, parking, the
capture of an access and its performance. -/

namespace Sys2Proof

/-- Bytes of an access (R159). -/
def MTy.size : MTy → Nat
  | .b8 | .i8 => 1
  | .b16 | .i16 | .f16 | .bf16 => 2
  | .b32 | .i32 | .f32 => 4
  | .b64 | .i64 | .f64 => 8

def MTy.isFloat : MTy → Bool
  | .f16 | .bf16 | .f32 | .f64 => true
  | .b8 | .i8 | .b16 | .i16 | .b32 | .i32 | .b64 | .i64 => false

/-- The types whose access size depends on the page (R154). -/
def MTy.paged : MTy → Bool
  | .f16 | .bf16 | .f32 => true
  | .b8 | .i8 | .b16 | .i16 | .b32 | .i32 | .b64 | .i64 | .f64 => false

def MTy.byteWide : MTy → Bool
  | .b8 | .i8 => true
  | .b16 | .i16 | .b32 | .i32 | .b64 | .i64 | .f16 | .bf16 | .f32 | .f64 => false

/-- The conversion format of a floating type. -/
def MTy.fmt : MTy → Fmt
  | .f16 => .f16
  | .bf16 => .bf16
  | .f64 => .f64
  | .b8 | .i8 | .b16 | .i16 | .b32 | .i32 | .b64 | .i64 | .f32 => .f32

def Ord.acquires : Ord → Bool
  | .acq | .ar => true
  | .none | .rel => false

def Ord.releases : Ord → Bool
  | .rel | .ar => true
  | .none | .acq => false

namespace Machine

/-! ## Addresses (R146, R147) -/

def addrSrcs (o : MV) : List Src := if o.u then .v o.va.toNat :: sSrc64 (o.vb.extractLsb' 0 6) else src64 o.va

/-- The address of a lane. -/
def Ctx.addr (x : Ctx) (o : MV) (l : Nat) : BitVec 64 :=
  if o.u then x.s64 (o.vb.extractLsb' 0 6) + (x.v l o.va).setWidth 64 + o.off.signExtend 64
  else x.v64 l o.va + o.off.signExtend 64

/-- C(k) (R147). -/
def Band.kBase (b : Band) (k : Nat) : BitVec 64 :=
  let r := mapGetD b.k k KReg.fresh
  let term := fun (s : Word) (i : Nat) => s.signExtend 64 * (mapGetD b.li i 0).setWidth 64
  r.base.signExtend 64 + term r.s0 0 + term r.s1 1 + term r.s2 2 + term r.s3 3

def Ctx.kAddr (x : Ctx) (k : BitVec 4) (o : MV) (l : Nat) : BitVec 64 :=
  x.b.kBase k.toNat + (x.v l o.va).setWidth 64 + o.off.signExtend 64

/-- The scratchpad address of a lane. -/
def Ctx.spAddr (x : Ctx) (o : MV) (l : Nat) : Word :=
  (if o.u then x.s (o.vb.extractLsb' 0 6) else 0) + x.v l o.va + o.off.signExtend 32

/-- The address of `sld` and `sst`. -/
def Ctx.uniAddr (x : Ctx) (y z : BitVec 6) : BitVec 64 := x.s64 y + z.signExtend 64 * 4

/-! ## Kinds of access -/

def MKind.uniform : MKind → Bool
  | .sld _ _ | .sst _ _ | .satom _ _ _ => true
  | .ld _ _ | .st _ _ | .atom _ _ _ | .atomc _ _ | .pf | .pw _ => false

def MKind.isAtomic : MKind → Bool
  | .atom _ _ _ | .atomc _ _ | .satom _ _ _ => true
  | .ld _ _ | .st _ _ | .sld _ _ | .sst _ _ | .pf | .pw _ => false

def MKind.stores : MKind → Bool
  | .st _ _ | .sst _ _ | .atom _ _ _ | .atomc _ _ | .satom _ _ _ => true
  | .ld _ _ | .sld _ _ | .pf | .pw _ => false

def MKind.order : MKind → Ord
  | .ld _ o | .st _ o | .atom _ _ o | .atomc _ o | .satom _ _ o => o
  | .sld _ a => if a then .acq else .none
  | .sst _ r => if r then .rel else .none
  | .pf | .pw _ => .none

/-- The access code of a fault record (R156, R184). -/
def MKind.access : MKind → Nat
  | .ld _ _ => accLoad
  | .st _ _ => accStore
  | .atom _ _ _ | .atomc _ _ | .satom _ _ _ => accAtomic
  | .sld _ _ => accULoad
  | .sst _ _ => accUStore
  | .pf => accLoad
  | .pw .claim | .pw .norm => accStore
  | .pw .flush | .pw .raw | .pw .drop => accLoad

/-- The type an access moves. -/
def MKind.ty : MKind → MTy
  | .ld t _ | .st t _ | .atom _ t _ | .atomc t _ => t
  | .sld w _ | .sst w _ => if w then .b64 else .b32
  | .satom _ w _ => if w then .i64 else .i32
  | .pf => .b8
  | .pw _ => .b32

/-- Words of the instruction. -/
def MKind.words (k : MKind) : Nat := if k.uniform then 1 else 2

/-- Whether the alignment of a lane is checked only once its page is known (R154). -/
def MKind.lateAlign : MKind → Bool
  | .ld t _ | .st t _ => t.paged
  | .atom _ _ _ | .atomc _ _ | .sld _ _ | .sst _ _ | .satom _ _ _ | .pf | .pw _ => false

def MKind.isLoad : MKind → Bool
  | .ld _ _ => true
  | .st _ _ | .atom _ _ _ | .atomc _ _ | .sld _ _ | .sst _ _ | .satom _ _ _ | .pf | .pw _ => false

def MKind.isStore : MKind → Bool
  | .st _ _ => true
  | .ld _ _ | .atom _ _ _ | .atomc _ _ | .sld _ _ | .sst _ _ | .satom _ _ _ | .pf | .pw _ => false

/-! ## Formatted pages (R132, R160, R161) -/

/-- The byte of a unit of an mxfp8 region that an address is. -/
def mxByte (t : Trans) (va : BitVec 64) : Nat := (va - t.fbase).toNat % 2112

/-- Whether a lane decodes an mxfp8 element, and where its scale byte is. -/
def decodesMx (k : MKind) (t : Trans) (va : BitVec 64) : Bool := k.isLoad && k.ty == .f32 && t.fmt == 3 && decide (64 ≤ mxByte t va)

def mxScaleVa (t : Trans) (va : BitVec 64) : BitVec 64 :=
  va - BitVec.ofNat 64 (mxByte t va) + BitVec.ofNat 64 ((mxByte t va - 64) / 32)

/-- Whether a page decodes or encodes the type of an access: its size is then 1 byte. -/
def codedAccess (k : MKind) (t : Trans) (va : BitVec 64) : Bool :=
  ((t.fmt == 1 || t.fmt == 2) && k.ty.paged && (k.isLoad || k.isStore)) || decodesMx k t va

/-- Whether a page accepts an access (R160, R183, R184, R254). -/
def accepts (k : MKind) (t : Trans) (va : BitVec 64) : Bool :=
  let ty := k.ty
  match k with
  | .pf => true
  | .pw _ => t.fmt == 9 && (!t.pwe || va.toNat % 8 == 0)
  | .sld _ _ | .sst _ _ => t.fmt != 9
  | .atom _ _ _ | .atomc _ _ | .satom _ _ _ => t.fmt == 0
  | .ld _ _ | .st _ _ =>
    if t.fmt == 0 then true
    else if t.fmt == 1 || t.fmt == 2 then ty.byteWide || ty.paged
    else if t.fmt == 3 then ty.byteWide || decodesMx k t va
    else if t.fmt == 9 then (if t.pwe then ty == .f64 || ty == .b64 else ty == .f32 || ty == .b32)
    else !ty.isFloat

/-- The narrow format of an e4m3 or e5m2 page. -/
def narrowOf (t : Trans) : Fmt := if t.fmt == 1 then .e4m3 else .e5m2

/-! ## Values -/

/-- A loaded value as it is placed in a register or a pair (R160). -/
def placeVal (ty : MTy) (v : Nat) : BitVec 64 :=
  match ty with
  | .i8 => BitVec.ofNat 64 (lowBits 32 (sext 8 v))
  | .i16 => BitVec.ofNat 64 (lowBits 32 (sext 16 v))
  | .b8 | .b16 | .b32 | .i32 | .b64 | .i64 | .f16 | .bf16 | .f32 | .f64 => BitVec.ofNat 64 (v % 256 ^ ty.size)

/-- The registers a value goes to. -/
def LAcc.writes (a : LAcc) (ty : MTy) (v : BitVec 64) : List (Loc × Word) :=
  if ty.wide then [(a.d0, lo32 v), (a.d1, hi32 v)] else [(a.d0, lo32 v)]

/-- Whether two lanes' accesses overlap. -/
def LAcc.meets (a : LAcc) (n : Nat) (b : LAcc) (m : Nat) : Bool :=
  match a.t, b.t with
  | some t, some u => t.buf == u.buf && t.mty == u.mty && t.module == u.module && t.off < u.off + m && u.off < t.off + n
  | _, _ => false

/-- Read the value of a lane's load: the state, the lane with its value, flags or error (R161, R176, R246). -/
def State.sample (s : State) (c pd : Nat) (k : MKind) (a : LAcc) : State × LAcc :=
  match a.t, a.val with
  | none, _ => (s, { a with val := some 0 })
  | _, some _ => (s, a)
  | some t, none =>
    let acq := k.order.acquires
    let ty := k.ty
    if k.uniform || !codedAccess k t a.va then
      if t.fmt == 9 && k.isLoad then
        match s.pwLoad c pd t with
        | (s, e, v) => (s, { a with val := some (BitVec.ofNat 64 v), err := e })
      else
        match s.loadBytes c pd t ty.size acq with
        | (s, e, bs) => (s, { a with val := some (placeVal ty (ofBytes bs)), err := e })
    else if t.fmt == 3 then
      match s.loadBytes c pd t 1 acq with
      | (s, e, bs) =>
        match s.loadBytes c pd (a.t2.getD t) 1 acq with
        | (s, e2, bs2) =>
          let r := mxdqVal .e4m3 .rn (ofBytes bs) (256 * ofBytes bs2)
          (s, { a with val := some (BitVec.ofNat 64 r.1), err := max e e2, fl := r.2 })
    else
      match s.loadBytes c pd t 1 acq with
      | (s, e, bs) =>
        let v := (toFloat (unpackNarrow (narrowOf t) (ofBytes bs)) ty.fmt .rn false false).1
        (s, { a with val := some (BitVec.ofNat 64 v), err := e })

/-- Sample the lanes of an operation. -/
def State.sampleAll (s : State) (c pd : Nat) (k : MKind) (l : List LAcc) (p : LAcc → Bool) : State × List LAcc :=
  l.foldl (fun r a =>
    if p a then
      let q := r.1.sample c pd k a
      (q.1, r.2 ++ [q.2])
    else (r.1, r.2 ++ [a])) (s, [])

/-- Loads in flight of a band, older than an operation, take their value before a later access to the same bytes
(R159). -/
def State.sampleOlder (s : State) (c slot pd before : Nat) (l : List LAcc) (n : Nat) : State :=
  ((s.core c).flights.filter fun f => f.1 < before && f.2.slot == slot).foldl (fun s f =>
    let go := fun (op : MemOp) (mk : MemOp → FKind) =>
      let m := op.kind.ty.size
      let hit := fun (a : LAcc) => l.any fun b => a.meets m b n
      if op.kind.isAtomic || !op.acc.any hit then s else
      let r := s.sampleAll c pd op.kind op.acc hit
      r.1.updCore c fun k => { k with flights := mapUpd k.flights f.1 fun g => { g with kind := mk { op with acc := r.2 } } }
    match f.2.kind with
    | .load op => go op .load
    | .remote op => go op .remote
    | _ => s) s

/-! ## Stores (R161, R181, R246) -/

/-- The bytes a lane's store writes, and its flags. -/
def encodeStore (k : MKind) (t : Trans) (a : LAcc) (rm : BitVec 2) (ftz : Bool) : List Byte × Fl :=
  if codedAccess k t a.va then
    let r := narrow (readFloat k.ty.fmt ftz a.data.toNat) (narrowOf t) (rmOf rm) false
    (bytesOf 1 r.1, r.2)
  else (bytesOf k.ty.size a.data.toNat, flNone)

/-- Perform a lane's store; `home` for a releasing one, at the home dome (R244 step 4). -/
def State.storeLane (s : State) (c slot pd : Nat) (op : MemOp) (ftz home : Bool) (a : LAcc) : State × Fl :=
  match a.t with
  | none => (s, flNone)
  | some t =>
    if t.fmt == 9 then
      let v := if t.pwe then a.data else BitVec.ofNat 64 (a.data.toNat % 2 ^ 32)
      (s.pwStore c slot pd t v, flNone)
    else
      let r := encodeStore op.kind t a op.rm ftz
      let lanes := if op.kind.uniform then op.lanes else laneBit a.lane
      (if home then s.storeHome c slot lanes pd t r.1 else s.storeBytes c slot lanes pd t r.1, r.2)

/-- Perform the lanes of a store, lowest first, so that the highest leaves its value (R159); the Plynwick blocks that a
releasing one wrote are then encoded, each once (R182). -/
def State.storeAll (s : State) (c slot pd : Nat) (op : MemOp) (ftz home : Bool) : State :=
  let r := op.acc.foldl (fun (r : State × Fl) a =>
    let q := r.1.storeLane c slot pd op ftz home a
    (q.1, r.2 ||| q.2)) (s, flNone)
  let coded := op.acc.any fun a => a.t.any (·.fmt == 9)
  let s := if home && coded then r.1.writeBack c (· == slot) else r.1
  if r.2 = flNone then s
  else s.writeLater c slot (s.cycle + 4) ((r.1.core c).task ((r.1.core c).taskOfBand slot)).gen [] r.2

/-! ## Atomics (R252 to R255) -/

/-- The new value of an atomic on old and operand bits. -/
def atomNew (op : AOp) (ty : MTy) (old b : Nat) : Nat :=
  let n := 8 * ty.size
  let p := fmtSpec ty.fmt
  match op with
  | .add => if ty.isFloat then (faddF p .rn false old b).1 else (old + b) % 2 ^ n
  | .min => if ty.isFloat then (fminmaxF p false false true old b).1
      else if ty == .b32 || ty == .b64 then min old b else if sext n old ≤ sext n b then old else b
  | .max => if ty.isFloat then (fminmaxF p false true true old b).1
      else if ty == .b32 || ty == .b64 then max old b else if sext n old ≤ sext n b then b else old
  | .and => Nat.land old b
  | .or => Nat.lor old b
  | .xor => Nat.xor old b
  | .exch => b

/-- The new value of a lane's atomic: none when a compare fails. -/
def MKind.newVal (k : MKind) (a : LAcc) (old : Nat) : Option Nat :=
  let n := 2 ^ (8 * k.ty.size)
  let b := a.data.toNat % n
  let cas := if old = a.cmp.toNat % n then some b else none
  match k with
  | .atom op ty _ => some (atomNew op ty old b)
  | .atomc _ _ => cas
  | .satom op w _ =>
    let ty := if w then MTy.i64 else .i32
    match op with
    | .add => some (atomNew .add ty old b)
    | .min => some (atomNew .min ty old b)
    | .max => some (atomNew .max ty old b)
    | .and => some (atomNew .and ty old b)
    | .or => some (atomNew .or ty old b)
    | .xor => some (atomNew .xor ty old b)
    | .exch => some b
    | .cas => cas
  | .ld _ _ | .st _ _ | .sld _ _ | .sst _ _ | .pf | .pw _ => none

/-- An atomic as another module receives it (R249); `and` of a failing compare stays a compare. -/
def MKind.remote (k : MKind) (a : LAcc) : RemoteAtomic :=
  match k with
  | .atom op ty _ => ⟨op, ty, a.data, none⟩
  | .satom op w _ =>
    let ty := if w then MTy.i64 else .i32
    match op with
    | .add => ⟨.add, ty, a.data, none⟩
    | .min => ⟨.min, ty, a.data, none⟩
    | .max => ⟨.max, ty, a.data, none⟩
    | .and => ⟨.and, ty, a.data, none⟩
    | .or => ⟨.or, ty, a.data, none⟩
    | .xor => ⟨.xor, ty, a.data, none⟩
    | .exch => ⟨.exch, ty, a.data, none⟩
    | .cas => ⟨.exch, ty, a.data, some a.cmp⟩
  | .atomc ty _ => ⟨.exch, ty, a.data, some a.cmp⟩
  | .ld _ _ | .st _ _ | .sld _ _ | .sst _ _ | .pf | .pw _ => ⟨.exch, .b32, 0, none⟩

/-- A read-modify-write of bytes at their home, after the recall of R243: an error, and the old value. -/
def State.atomicAt (s : State) (a : Asker) (buf off size : Nat) (f : Nat → Option Nat) : State × Nat × Nat :=
  let pa := (s.buf buf).pa off
  let e := s.check a true buf off size
  if e != 0 then (s, e, 0) else
  let s := s.recall (pa / 128) (wordMask (pa % 128) size) none
  match s.readAt a buf off size with
  | (s, 0, bs) =>
    let old := ofBytes bs
    match f old with
    | none => (s, 0, old)
    | some v =>
      match s.writeAt a buf off (bytesOf size v) with
      | (s, e) => (s, e, old)
  | (s, e, _) => (s, e, 0)

/-- Perform a lane's atomic at its home dome (R252 to R254). -/
def State.atomLane (s : State) (c slot pd : Nat) (k : MKind) (a : LAcc) : State × LAcc :=
  match a.t with
  | none => (s, a)
  | some t =>
    let size := k.ty.size
    if s.isRemote t then
      if s.routed t.module then
        let v := (Config.freeBits s.fresh).toNat
        ({ s with fresh := s.fresh + 1, out := s.out ++ [.remoteAtomic t.module (2 ^ 44 * t.buf + t.off) (k.remote a)] },
          { a with val := some (placeVal k.ty v) })
      else (s, { a with val := some 0, err := 4 })
    else
      match s.atomicAt ⟨pd, none⟩ t.buf t.off size (k.newVal a) with
      | (s, e, old) =>
        let pa := (s.buf t.buf).pa t.off
        let ta := (s.core c).task ((s.core c).taskOfBand slot)
        let s := if e = 0 && (s.launch ta.launch).det && (k.newVal a old).isSome then
            s.mark ta.launch ta.number (pa / 128) (wordMask (pa % 128) size) else s
        (s.l1Drop c (pa / 128), { a with val := some (placeVal k.ty old), err := e })

/-- Perform an atomic's lanes in ascending order. -/
def State.atomAll (s : State) (c slot pd : Nat) (op : MemOp) : State × MemOp :=
  let r := op.acc.foldl (fun (r : State × List LAcc) a =>
    let q := r.1.atomLane c slot pd op.kind a
    (q.1, r.2 ++ [q.2])) (s.settle c, [])
  (r.1, { op with acc := r.2 })

/-- Whether some lane's word carries the mark of another task of a deterministic launch (R258). -/
def State.marksBar (s : State) (c slot : Nat) (op : MemOp) : Bool :=
  let ta := (s.core c).task ((s.core c).taskOfBand slot)
  (s.launch ta.launch).det && op.kind.isAtomic && op.acc.any fun a => match a.t with
    | none => false
    | some t =>
      let pa := (s.buf t.buf).pa t.off
      (lanesOf (wordMask (pa % 128) op.kind.ty.size)).any fun w => s.markBars ta.launch ta.number (pa / 128) w

/-! ## From issue to performance (R152, R154, R155) -/

/-- Translate the lanes of an operation: the lanes with their translations, the faults found, and whether some lane has to
wait for a walk. `walk` walks now. -/
def State.transAll (s : State) (c pd : Nat) (op : MemOp) (walk : Bool) :
    State × List LAcc × List (Nat × BitVec 64 × Nat) × Bool :=
  let tr := fun (s : State) (va : BitVec 64) =>
    if walk then
      let r := s.translate c pd va op.kind.access
      (r.1, some r.2)
    else (s, s.lookup c pd va op.kind.access)
  let who := fun (a : LAcc) => if op.kind.uniform then lanesOf op.lanes else [a.lane]
  op.acc.foldl (fun r a =>
    match tr r.1 a.va with
    | (s, none) => (s, r.2.1 ++ [a], r.2.2.1, true)
    | (s, some (.error n)) => (s, r.2.1, r.2.2.1 ++ (who a).map fun l => (l, a.va, n), r.2.2.2)
    | (s, some (.ok t)) =>
      if decodesMx op.kind t a.va then
        let v2 := mxScaleVa t a.va
        match tr s v2 with
        | (s, none) => (s, r.2.1 ++ [a], r.2.2.1, true)
        | (s, some (.error n)) => (s, r.2.1, r.2.2.1 ++ [(a.lane, v2, n)], r.2.2.2)
        | (s, some (.ok u)) => (s, r.2.1 ++ [{ a with t := some t, t2 := some u }], r.2.2.1, r.2.2.2)
      else (s, r.2.1 ++ [{ a with t := some t }], r.2.2.1, r.2.2.2)) (s, [], [], false)

/-- Steps 3 and 4 of R154 over the lanes that did not park, and the mark check of R258: cause and address. -/
def State.lateCheck (s : State) (c slot : Nat) (op : MemOp) : Option (Nat × BitVec 64) :=
  let bad := fun (p : Trans → LAcc → Bool) => op.acc.find? fun a => match a.t with
    | some t => p t a
    | none => false
  match if op.kind.lateAlign then bad fun t a => !codedAccess op.kind t a.va && a.va.toNat % op.kind.ty.size != 0 else none with
  | some a => some (0x05, a.va)
  | none =>
    match bad fun t a => !accepts op.kind t a.va with
    | some a => some (0x06, a.va)
    | none => if s.marksBar c slot op then some (0x08, 0) else none

/-- A releasing store of the same lanes to the same bytes is still on its way: a later access waits for it. -/
def Core.relMeets (k : Core) (slot : Nat) (lanes : Word) (acc : List LAcc) (n : Nat) : Bool :=
  k.flights.any fun f => f.2.slot == slot && match f.2.kind with
    | .release _ (.access o) => o.lanes &&& lanes != 0 && o.acc.any fun a => acc.any fun b => a.meets o.kind.ty.size b n
    | _ => false

def Core.relOverlaps (k : Core) (slot : Nat) (op : MemOp) : Bool := k.relMeets slot op.lanes op.acc op.kind.ty.size

/-- A lane's access moved to the first byte of its Plynwick block. -/
def LAcc.blockStart (a : LAcc) : LAcc :=
  { a with t := a.t.map fun t => { t with off := t.geom.blockOff t.block } }

/-- Put a captured operation into effect once its lanes are translated (R162, R252, R244). -/
def State.memAct (s : State) (c slot : Nat) (op : MemOp) : State :=
  let k := s.core c
  let ta := k.task (k.taskOfBand slot)
  let l := s.launch ta.launch
  let fl : Flight := ⟨slot, ta.gen, op.lanes, op.flag, .acquire⟩
  let remote := op.acc.any fun a => a.t.elim false s.isRemote
  let s := if op.kind.stores then s.sampleOlder c slot l.pd k.nextOp op.acc op.kind.ty.size else s
  match op.kind with
  | .ld _ _ | .sld _ _ => s.launchFlight c { fl with kind := if remote then .remote op else .load op }
  | .st _ _ | .sst _ _ =>
    if op.kind.order.releases then s.launchFlight c { fl with kind := .release .plain (.access op) }
    else s.storeAll c slot l.pd op l.ftz false
  | .atom _ _ _ | .atomc _ _ | .satom _ _ _ =>
    if op.kind.order.releases then s.launchFlight c { fl with kind := .release .plain (.access op) }
    else
      let r := s.atomAll c slot l.pd op
      r.1.launchFlight c { fl with kind := if remote then .remote r.2 else .atom r.2 }
  | .pw p =>
    let size := 4 ^ 3 * 8
    let s := s.sampleOlder c slot l.pd k.nextOp (op.acc.map LAcc.blockStart) size
    let r := s.pwAct c l.pd p op.acc
    r.1.launchFlight c { fl with kind := .pw p r.2 }
  | .pf => s

/-- The lanes of an entry are translated: the faulting ones park, the rest pass the late checks, go on and perform
(R154, R155, R157). The entry stands at the instruction. -/
def State.memPerform (s : State) (c e : Nat) (op : MemOp) (acc : List LAcc) (faults : List (Nat × BitVec 64 × Nat)) : State :=
  let en := (s.core c).entry e
  let slot := en.slot
  let parked := maskOf (faults.map (·.1))
  let rest := en.lanes &&& ~~~parked
  let op := { op with acc := acc.filter fun a => !parked.getLsbD a.lane
                      lanes := op.lanes &&& ~~~parked }
  let s := s.park c e op.kind.access op.pc faults
  if rest = 0 then s.dropFlag c slot op.flag else
  if (s.core c).relOverlaps slot op then
    (s.dropFlag c slot op.flag).updEntry c e fun x => { x with wait := .stalled } else
  match s.lateCheck c slot op with
  | some (cause, addr) => (s.dropFlag c slot op.flag).takeTrap c slot cause 0 (some e) op.pc rest addr
  | none =>
    let det := (s.launch ((s.core c).task ((s.core c).taskOfBand slot)).launch).det
    if det && op.kind.isAtomic && op.kind.order.releases && !op.acc.isEmpty then
      let id := (s.core c).nextOp
      (s.memAct c slot op).updEntry c e fun x => { x with wait := .op id }
    else
      let s := (s.updEntry c e fun x => { x with wait := .ready }).advance c e op.kind.words
      if op.acc.isEmpty then s.dropFlag c slot op.flag else s.memAct c slot op

/-- A memory instruction has issued: its flag rises; lanes that miss the TLB make the sub-band wait (R152, R157). -/
def State.memBegin (s : State) (c e : Nat) (op : MemOp) : State :=
  let slot := ((s.core c).entry e).slot
  let s := match op.flag with
    | some f => s.addFlag c slot f
    | none => s
  match s.transAll c (s.pdOf c slot) op false with
  | (s, acc, faults, miss) =>
    if miss then s.updEntry c e fun x => { x with wait := .translate op } else s.memPerform c e op acc faults

/-- Issue a captured operation: with no lane it is complete; step 1 of R154; then it begins. -/
def memIssue (x : Ctx) (t : State) (op : MemOp) : Res :=
  if op.acc.isEmpty then .ok t else
  match if op.kind.lateAlign then none else op.acc.find? fun a => a.va.toNat % op.kind.ty.size != 0 with
  | some a => .trap 0x05 0 a.va
  | none => .stay fun s => s.memBegin x.core x.e op

/-- The access of a lane: address, data, compare value, destination. -/
def Ctx.lacc (_x : Ctx) (l : Nat) (va data cmp : BitVec 64) (d0 d1 : Loc) : LAcc := ⟨l, va, data, cmp, d0, d1, none, none, none, 0, flNone⟩

/-- A register or a pair as data. -/
def Ctx.dataOf (x : Ctx) (ty : MTy) (l : Nat) (r : BitVec 7) : BitVec 64 := if ty.wide then x.v64 l r else (x.v l r).setWidth 64

/-- The shape of a vector memory instruction with address sources `a` and data sources `b`. -/
def shapeMem (o : MV) (a b : List Src) (vs : List Nat) : Shape :=
  { uni := false, d := o.d, words := 2, vs := o.va.toNat :: vs, srcs := a ++ b, mem := true }

def dataSrc (ty : MTy) (r : BitVec 7) : List Src := if ty.wide then src64 r else [.v r.toNat]

/-- A vector load. -/
def loadOp (i : Instr) (ty : MTy) (od : Ord) (o : MV) (a : List Src) (addr : Ctx → Nat → BitVec 64) (s : State) :
    Host.Outcome State Fault Refusal :=
  issue i (shapeMem o a [] [o.vd.toNat]) (fun x t =>
    memIssue x t ⟨.ld ty od, (lanesOf x.active).map fun l => x.lacc l (addr x l) 0 0 (x.vAt l o.vd) (x.vAt1 l o.vd),
      x.active, x.pc, x.flagA, x.b.rm⟩) s

/-- A vector store: the data is read at issue. -/
def storeOp (i : Instr) (ty : MTy) (od : Ord) (o : MV) (a : List Src) (addr : Ctx → Nat → BitVec 64) (s : State) :
    Host.Outcome State Fault Refusal :=
  issue i (shapeMem o a (dataSrc ty o.vd) [o.vd.toNat]) (fun x t =>
    memIssue x t ⟨.st ty od, (lanesOf x.active).map fun l => x.lacc l (addr x l) (x.dataOf ty l o.vd) 0 .nowhere .nowhere,
      x.active, x.pc, none, x.b.rm⟩) s

/-- LD (R162). -/
def execLd (ty : MTy) (od : Ord) (o : MV) (s : State) : Host.Outcome State Fault Refusal :=
  loadOp (.ld ty od o) ty od o (addrSrcs o) (fun x l => x.addr o l) s

/-- ST (R162). -/
def execSt (ty : MTy) (od : Ord) (o : MV) (s : State) : Host.Outcome State Fault Refusal :=
  storeOp (.st ty od o) ty od o (addrSrcs o) (fun x l => x.addr o l) s

/-- LDK (R162). -/
def execLdk (ty : MTy) (od : Ord) (k : BitVec 4) (o : MV) (s : State) : Host.Outcome State Fault Refusal :=
  loadOp (.ldk ty od k o) ty od o [.v o.va.toNat] (fun x l => x.kAddr k o l) s

/-- STK (R162). -/
def execStk (ty : MTy) (od : Ord) (k : BitVec 4) (o : MV) (s : State) : Host.Outcome State Fault Refusal :=
  storeOp (.stk ty od k o) ty od o [.v o.va.toNat] (fun x l => x.kAddr k o l) s

/-- Bytes of a task's scratchpad. -/
def Task.spBytes (t : Task) : Nat := 4096 * t.spGrans

def spSrcs (o : MV) : List Src := if o.u then [.v o.va.toNat, .s (o.vb.extractLsb' 0 6).toNat] else [.v o.va.toNat]

/-- A lane whose scratchpad access is misaligned or beyond the allocation (R154, R158). -/
def Ctx.spFault (x : Ctx) (ty : MTy) (o : MV) : Option Nat :=
  (lanesOf x.active).find? fun l =>
    let a := (x.spAddr o l).toNat
    a % ty.size != 0 || x.task.spBytes < a + ty.size

/-- LDS (R158, R162): the load performs at its completion. -/
def execLds (ty : MTy) (o : MV) (s : State) : Host.Outcome State Fault Refusal :=
  issue (.lds ty o) (shapeMem o (spSrcs o) [] [o.vd.toNat]) (fun x t =>
    match x.spFault ty o with
    | some l => .trap 0x05 0 ((x.spAddr o l).setWidth 64)
    | none =>
      if x.active == 0 then .ok t
      else if x.l.gentrap && (lanesOf x.active).any fun l =>
          !(x.k.spRead x.gen (x.task.spBase + (x.spAddr o l).toNat) ty.size).2 then .trap 0x04 0 0
      else .ok (t.start x x.active x.flagA (.lds ty ((lanesOf x.active).map fun l =>
        x.lacc l ((x.spAddr o l).setWidth 64) 0 0 (x.vAt l o.vd) (x.vAt1 l o.vd))))) s

/-- The format tag an `sts` sets (R134). -/
def spTag : MTy → BitVec 4
  | .f16 => 1
  | .bf16 => 2
  | .b8 | .i8 => 11
  | .f64 => 15
  | .b16 | .i16 | .b32 | .i32 | .b64 | .i64 | .f32 => 0

/-- Read a lane's scratchpad bytes. -/
def Core.spSample (k : Core) (t : Task) (ty : MTy) (a : LAcc) : LAcc :=
  match a.val with
  | some _ => a
  | none => { a with val := some (placeVal ty (ofBytes (k.spRead t.gen (t.spBase + a.va.toNat) ty.size).1)) }

/-- `lds` in flight of a band take their value before a later store to the same bytes (R159). -/
def State.spSampleOlder (s : State) (c slot : Nat) (l : List (Nat × Nat)) : State :=
  let k := s.core c
  let t := k.task (k.taskOfBand slot)
  s.updCore c fun k' => { k' with flights := mapAll k'.flights fun _ f =>
    match f.kind with
    | .lds ty acc =>
      if f.slot != slot then f else
      { f with kind := .lds ty (acc.map fun a =>
        if l.any fun b => a.va.toNat < b.1 + b.2 && b.1 < a.va.toNat + ty.size then k.spSample t ty a else a) }
    | _ => f }

/-- STS (R134, R158, R162). -/
def execSts (ty : MTy) (o : MV) (s : State) : Host.Outcome State Fault Refusal :=
  issue (.sts ty o) (shapeMem o (spSrcs o) (dataSrc ty o.vd) [o.vd.toNat]) (fun x t =>
    match x.spFault ty o with
    | some l => .trap 0x05 0 ((x.spAddr o l).setWidth 64)
    | none =>
      let at_ := fun l => (x.spAddr o l).toNat
      let t := t.spSampleOlder x.core x.slot ((lanesOf x.active).map fun l => (at_ l, ty.size))
      .ok (t.updCore x.core fun k => (lanesOf x.active).foldl (fun k l =>
        k.spWrite x.gen (x.task.spBase + at_ l) (bytesOf ty.size (x.dataOf ty l o.vd).toNat) (fun _ => spTag ty)) k)) s

/-- PF (R164): a lane that does not translate is dropped; nothing waits. -/
def execPf (o : MV) (s : State) : Host.Outcome State Fault Refusal :=
  issue (.pf o) { shapeMem o (addrSrcs o) [] [] with mem := false } (fun x t =>
    .ok ((lanesOf x.active).foldl (fun (t : State) l =>
      match t.translate x.core x.pd (x.addr o l) accLoad with
      | (t, .error _) => t
      | (t, .ok tr) =>
        if tr.fmt == 9 then (t.pwFill x.core x.pd tr).1
        else if tr.mty ≤ 2 then (t.l1Fill x.core x.pd tr).1 else t) t)) s

/-- SLD (R165). -/
def execSld (d : BitVec 2) (x y z : BitVec 6) (acq w : Bool) (s : State) : Host.Outcome State Fault Refusal :=
  issue (.sld d x y z acq w) { shapeS d (sSrc64 y) with mem := true } (fun q t =>
    memIssue q t ⟨.sld w acq, [q.lacc ((lowestLane q.lanes).getD 0) (q.uniAddr y z) 0 0 (q.sAt x) (q.sAt1 x)],
      q.lanes, q.pc, q.flagA, q.b.rm⟩) s

/-- SST (R165). -/
def execSst (d : BitVec 2) (x y z : BitVec 6) (rl w : Bool) (s : State) : Host.Outcome State Fault Refusal :=
  issue (.sst d x y z rl w) { shapeS d ((if w then sSrc64 x else [.s x.toNat]) ++ sSrc64 y) with mem := true } (fun q t =>
    memIssue q t ⟨.sst w rl, [q.lacc ((lowestLane q.lanes).getD 0) (q.uniAddr y z)
      (if w then q.s64 x else (q.s x).setWidth 64) 0 .nowhere .nowhere], q.lanes, q.pc, none, q.b.rm⟩) s

/-! ## The loop nest (R166, R167) -/

/-- LSET (R166). -/
def execLset (d n : BitVec 2) (sn : BitVec 6) (s : State) : Host.Outcome State Fault Refusal :=
  issue (.lset d n sn) (shapeS d [.s sn.toNat]) (fun x t =>
    .ok (t.updBand x.core x.slot fun b => { b with lc := mapSet b.lc n.toNat (x.s sn), li := mapSet b.li n.toNat 0 })) s

/-- LGET (R166). -/
def execLget (d : BitVec 2) (sn : BitVec 6) (n : BitVec 2) (s : State) : Host.Outcome State Fault Refusal :=
  issue (.lget d sn n) (shapeS d []) (fun x t => t.done x (x.toS sn (mapGetD x.b.li n.toNat 0))) s

/-- KSET (R166). -/
def execKset (d : BitVec 2) (k : BitVec 4) (sb sc : BitVec 6) (s : State) : Host.Outcome State Fault Refusal :=
  issue (.kset d k sb sc) (shapeS d (sSrc64 sb ++ (List.range 4).map fun i => .s (sc.toNat + i))) (fun x t =>
    let st := fun i => (x.readS (sc.toNat + i)).1
    .ok (t.updBand x.core x.slot fun b =>
      { b with k := mapSet b.k k.toNat ⟨(x.s64 sb).extractLsb' 0 57, st 0, st 1, st 2, st 3⟩ })) s

/-- LNEXT (R167). -/
def execLnext (d l : BitVec 2) (off : BitVec 18) (s : State) : Host.Outcome State Fault Refusal :=
  issue (.lnext d l off) (shapeS d []) (fun x t =>
    let li := mapGetD x.b.li l.toNat 0
    let lc := mapGetD x.b.lc l.toNat 0
    let pc := x.pc + 4 * off.signExtend 64
    if li.toNat + 1 < lc.toNat then
      .ok (((t.updBand x.core x.slot fun b => { b with li := mapSet b.li l.toNat (li + 1) }).goTo x.core x.slot x.lanes pc).updEntry
        x.core x.e fun e => { e with ctx := none })
    else .ok (t.updBand x.core x.slot fun b => { b with li := mapSet b.li l.toNat 0 })) s

/-! ## Atomics -/

/-- Sources of `atom` and `atomc`. -/
def atomShape (ty : MTy) (o : MV) (cmp : Bool) : Shape :=
  shapeMem o (src64 o.va) ((if ty.wide then lastSrc64 o.u o.vb else lastSrc o.u o.vb) ++ (if cmp then dataSrc ty o.vd else []))
    (o.vd.toNat :: lastV o.u o.vb)

def atomAccs (x : Ctx) (ty : MTy) (o : MV) : List LAcc :=
  (lanesOf x.active).map fun l => x.lacc l (x.v64 l o.va + o.off.signExtend 64)
    (if ty.wide then x.last64 l o.u o.vb else (x.last l o.u o.vb).setWidth 64) (x.dataOf ty l o.vd) (x.vAt l o.vd) (x.vAt1 l o.vd)

/-- ATOM (R252). -/
def execAtom (op : AOp) (ty : MTy) (od : Ord) (o : MV) (s : State) : Host.Outcome State Fault Refusal :=
  issue (.atom op ty od o) (atomShape ty o false) (fun x t =>
    memIssue x t ⟨.atom op ty od, atomAccs x ty o, x.active, x.pc, x.flagA, x.b.rm⟩) s

/-- ATOMC (R253). -/
def execAtomc (ty : MTy) (od : Ord) (o : MV) (s : State) : Host.Outcome State Fault Refusal :=
  issue (.atomc ty od o) (atomShape ty o true) (fun x t =>
    memIssue x t ⟨.atomc ty od, atomAccs x ty o, x.active, x.pc, x.flagA, x.b.rm⟩) s

/-- SATOM (R255). -/
def execSatom (op : SAOp) (od : Ord) (w : Bool) (o : S3) (s : State) : Host.Outcome State Fault Refusal :=
  let r := fun (r : BitVec 6) => if w then sSrc64 r else [Src.s r.toNat]
  issue (.satom op od w o) { shapeS o.d (sSrc64 o.sa ++ r o.sb ++ (if op == .cas then r o.sd else [])) with mem := true } (fun x t =>
    let val := fun (q : BitVec 6) => if w then x.s64 q else (x.s q).setWidth 64
    memIssue x t ⟨.satom op w od, [x.lacc ((lowestLane x.lanes).getD 0) (x.s64 o.sa) (val o.sb) (val o.sd) (x.sAt o.sd) (x.sAt1 o.sd)],
      x.lanes, x.pc, x.flagA, x.b.rm⟩) s

end Machine

end Sys2Proof
end

