-- ==== Sys2Proof/Machine/Completion.lean ====
section
/-! DEFINITION. Completions of the operations of a core (R58, R157, R162, R186, R245, R252), the traps they raise after
their instruction (R249, R323), and the events of fetch and translation (R67, R152). -/

namespace Sys2Proof.Machine

/-! ## Traps at a completion (R307, R323) -/

/-- Whether an entry of a wait is left ready when its band enters keep mode, so that a trap may describe it (R305). -/
def Wait.rests : Wait → Bool
  | .bar _ _ | .barw _ | .again _ | .phase | .jwait _ | .parked => false
  | .ready | .fetch | .stalled | .translate _ | .walk _ _ | .member | .signer _ | .op _ => true

/-- The entry of a band that holds a lane of a mask, preferring the lowest lane. -/
def Core.entryWith (k : Core) (slot : Nat) (m : Word) : Option (Nat × Nat) :=
  (lanesOf m).findSome? fun l =>
    ((k.entriesOf slot).find? fun e => !(k.entry e).frozen && ((k.entry e).lanes ||| (k.entry e).defer).getLsbD l).map fun e => (e, l)

/-- A trap found once an instruction of some lanes has gone on: at the next instruction of the sub-band that holds the
lowest of them. A task none of whose threads is left to take it ends as failed (log entry 19). -/
def State.asyncTrap (s : State) (c slot : Nat) (lanes : Word) (cause code : Nat) (addr : BitVec 64) : State :=
  let k := s.core c
  let b := k.band slot
  let task := k.task b.task
  if task.state = .draining then
    if task.ended || task.endKind != 0 then s
    else s.updTask c b.task fun t => { t with endKind := 1, endCause := cause, endCode := code }
  else if b.keep then s.takeTrap c slot cause code none 0 0 addr
  else match (k.entryWith slot (lanes &&& b.live)).or (k.entryWith slot b.live) with
    | none => s.endTask c b.task 1 cause code
    | some (e, l) =>
      let en := k.entry e
      let g := if en.lanes.getLsbD l then en.lanes
        else maskOf ((lanesOf en.defer).filter fun m => (b.thread m).pc = (b.thread l).pc)
      let at_ := if en.lanes.getLsbD l && en.wait.rests then some e else none
      s.takeTrap c slot cause code at_ (b.thread l).pc g addr

/-! ## Memory operations (R157, R162, R245, R252) -/

/-- Write the results of the lanes that met no machine check, and their flags. -/
def State.writeLanes (s : State) (c : Nat) (f : Flight) (ty : MTy) (acc : List LAcc) : State :=
  let good := acc.filter fun a => a.err == 0
  let s := s.updCore c (·.writeLocs f.slot f.gen (good.flatMap fun a => a.writes ty (a.val.getD 0)))
  let fl := good.foldl (fun x a => x ||| a.fl) flNone
  if fl = flNone then s else s.raise c f.slot fl

/-- An operation in flight is over: it is dropped, its flag falls, and a lane that met a machine check raises it. -/
def State.endFlight (s : State) (c id : Nat) (f : Flight) (acc : List LAcc) (whole : Bool) : State :=
  let s := (s.dropFlight c id).dropFlag c f.slot f.flag
  match acc.find? fun a => a.err != 0 with
  | none => s
  | some a =>
    let m := if whole then f.lanes else maskOf ((acc.filter fun x => x.err != 0).map (·.lane))
    s.asyncTrap c f.slot m 0x0C a.err a.va

/-- A memory operation has its values: they are written, and an acquire self-invalidates the L1. -/
def State.finishMem (s : State) (c id : Nat) (f : Flight) (op : MemOp) : State :=
  let s := s.writeLanes c f op.kind.ty op.acc
  let s := if op.kind.order.acquires then s.selfInvalidate c else s
  s.endFlight c id f op.acc op.kind.uniform

/-- A load takes its values, after older loads of the band to the same bytes (R159), and is finished. -/
def State.finishLoad (s : State) (c id : Nat) (f : Flight) (op : MemOp) : State :=
  let pd := s.pdOf c f.slot
  let s := s.sampleOlder c f.slot pd id op.acc op.kind.ty.size
  let r := s.sampleAll c pd op.kind op.acc fun _ => true
  r.1.finishMem c id f { op with acc := r.2 }

/-- `lds` takes its values from the scratchpad. -/
def State.finishLds (s : State) (c id : Nat) (f : Flight) (ty : MTy) (acc : List LAcc) : State :=
  let k := s.core c
  let acc := acc.map (k.spSample (k.task (k.taskOfBand f.slot)) ty)
  (s.writeLanes c f ty acc).endFlight c id f acc false

/-- Results computed at issue are written. -/
def State.finishResult (s : State) (c id : Nat) (f : Flight) (w : List (Loc × Word)) (fl : Fl) : State :=
  let s := s.updCore c (·.writeLocs f.slot f.gen w)
  let s := if fl = flNone then s else s.raise c f.slot fl
  (s.dropFlight c id).dropFlag c f.slot f.flag

/-- LOAD_COMPLETION (R162). -/
def execLoadCompletion (c id : Nat) (s : State) : Host.Outcome State Fault Refusal :=
  .next (match mapGet (s.core c).flights id with
    | some f => (match f.kind with
      | .load op => s.finishLoad c id f op
      | .remote op => if op.kind.isAtomic then s else s.finishLoad c id f op
      | .lds ty acc => s.finishLds c id f ty acc
      | _ => s)
    | none => s)

/-- ATOMIC_COMPLETION (R252). -/
def execAtomicCompletion (c id : Nat) (s : State) : Host.Outcome State Fault Refusal :=
  .next (match mapGet (s.core c).flights id with
    | some f => (match f.kind with
      | .atom op => s.finishMem c id f op
      | .remote op => if op.kind.isAtomic then s.finishMem c id f op else s
      | _ => s)
    | none => s)

/-- SEQUENCER_COMPLETION (R124). -/
def execSequencerCompletion (c id : Nat) (s : State) : Host.Outcome State Fault Refusal :=
  .next (match mapGet (s.core c).flights id with
    | some f => (match f.kind with
      | .result true _ w fl => s.finishResult c id f w fl
      | _ => s)
    | none => s)

/-- FTAB_COMPLETION (R123). -/
def execFtabCompletion (c id : Nat) (s : State) : Host.Outcome State Fault Refusal :=
  .next (match mapGet (s.core c).flights id with
    | some f => (match f.kind with
      | .result false _ w fl => s.finishResult c id f w fl
      | _ => s)
    | none => s)

/-- PLYNWICK_OPERATION_COMPLETION (R186). -/
def execPlynwickOperationCompletion (c id : Nat) (s : State) : Host.Outcome State Fault Refusal :=
  .next (match mapGet (s.core c).flights id with
    | some f => (match f.kind with
      | .pw _ acc => (s.writeLanes c f .b32 acc).endFlight c id f acc false
      | _ => s)
    | none => s)

/-- REMOTE_ACCESS_TIMEOUT (R377, R249): the remote lanes of an access not acknowledged take detail 4; of a release, the
posted stores of its lanes fail. -/
def execRemoteAccessTimeout (c id : Nat) (s : State) : Host.Outcome State Fault Refusal :=
  .next (match mapGet (s.core c).flights id with
    | some f => (match f.kind with
      | .remote op =>
        let fail := fun (a : LAcc) => if a.t.elim false s.isRemote then { a with val := some 0, err := 4 } else a
        let op := { op with acc := op.acc.map fail }
        if op.kind.isAtomic then s.finishMem c id f op else s.finishLoad c id f op
      | .release _ _ =>
        let lost := fun (r : Request) => r.slot == f.slot && r.lanes &&& f.lanes != 0 && s.isRemote r.t
        if (s.core c).requests.any lost then
          (s.updCore c fun k => { k with requests := k.requests.filter fun r => !lost r }).failRelease c f.slot 4
        else s
      | _ => s)
    | none => s)

/-! ## Fetch and translation (R67, R152) -/

/-- INSTRUCTION_LINE_FILL (R67): the line that an entry waits for is translated and read; a page that may not be fetched
parks the sub-band (R155). -/
def execInstructionLineFill (c e : Nat) (s : State) : Host.Outcome State Fault Refusal :=
  .next (match mapGet (s.core c).table e with
    | none => s
    | some en =>
      if en.wait != .fetch then s else
      match s.missing c e with
      | none => s.updEntry c e fun x => { x with wait := .ready }
      | some a =>
        let pd := s.pdOf c en.slot
        match s.translate c pd a accFetch with
        | (s, .error n) => s.park c e accFetch a ((lanesOf en.lanes).map fun l => (l, a, n)) |>.rebalance c e
        | (s, .ok t) =>
          match s.readLine c pd { t with off := t.off / 128 * 128 } with
          | (s, 0, d) =>
            (s.keepLine c ⟨pd, BitVec.ofNat 64 (a.toNat / 128 * 128), d, false⟩).updEntry c e fun x => { x with wait := .ready }
          | (s, n, _) =>
            let b := (s.core c).band en.slot
            let pc := (b.thread ((lowestLane en.lanes).getD 0)).pc
            (s.updEntry c e fun x => { x with wait := .ready }).takeTrap c en.slot 0x0C n (some e) pc en.lanes a)

/-- A walk for an instruction that issues again after it: the lanes whose address faults park, the rest issue. -/
def State.walkFor (s : State) (c e : Nat) (vas : List (Nat × BitVec 64)) (access : Nat) : State :=
  let en := (s.core c).entry e
  let pd := s.pdOf c en.slot
  let b := (s.core c).band en.slot
  let pc := (b.thread ((lowestLane en.lanes).getD 0)).pc
  let r := vas.foldl (fun (r : State × List (Nat × BitVec 64 × Nat)) a =>
    match r.1.translate c pd a.2 access with
    | (s, .error n) => (s, r.2 ++ (if 32 ≤ a.1 then lanesOf en.lanes else [a.1]).map fun l => (l, a.2, n))
    | (s, .ok _) => (s, r.2)) (s, [])
  ((r.1.updEntry c e fun x => { x with wait := .ready }).park c e access pc r.2).rebalance c e

/-- PAGE_TABLE_WALK (R152). -/
def execPageTableWalk (c e : Nat) (s : State) : Host.Outcome State Fault Refusal :=
  .next (match mapGet (s.core c).table e with
    | none => s
    | some en => (match en.wait with
      | .translate op =>
        let s := s.updEntry c e fun x => { x with wait := .ready }
        match s.transAll c (s.pdOf c en.slot) op true with
        | (s, acc, faults, _) => (s.memPerform c e op acc faults).rebalance c e
      | .walk vas access => s.walkFor c e vas access
      | _ => s))

end Sys2Proof.Machine
end

