-- ==== Sys2Proof/Machine/Control.lean ====
section
/-! DEFINITION. Branches, calls, divergence and the other control instructions (R80 to R90). -/

namespace Sys2Proof.Machine

/-- The address a signed word offset names (R79). -/
def offsetFrom {n : Nat} (pc : BitVec 64) (off : BitVec n) : BitVec 64 := pc + 4 * off.signExtend 64

/-- A taken transfer of running lanes ends their clause (R50). -/
def State.jump (s : State) (x : Ctx) (g : Word) (pc : BitVec 64) : State :=
  (s.goTo x.core x.slot g pc).updEntry x.core x.e fun e => { e with ctx := none }

/-- BRA (R80). -/
def execBra (d : BitVec 2) (off : BitVec 18) (s : State) : Host.Outcome State Fault Refusal :=
  issue (.bra d off) (shapeS d []) (fun x t => .ok (t.jump x x.lanes (offsetFrom x.pc off))) s

/-- A branch on a uniform register. -/
def branchIf (i : Instr) (d : BitVec 2) (sn : BitVec 6) (off : BitVec 18) (zero : Bool) (s : State) :
    Host.Outcome State Fault Refusal :=
  issue i (shapeS d [.s sn.toNat]) (fun x t =>
    .ok (if (x.s sn == 0) == zero then t.jump x x.lanes (offsetFrom x.pc off) else t)) s

/-- BRZ (R80). -/
def execBrz (d : BitVec 2) (sn : BitVec 6) (off : BitVec 18) (s : State) : Host.Outcome State Fault Refusal :=
  branchIf (.brz d sn off) d sn off true s

/-- BRNZ (R80). -/
def execBrnz (d : BitVec 2) (sn : BitVec 6) (off : BitVec 18) (s : State) : Host.Outcome State Fault Refusal :=
  branchIf (.brnz d sn off) d sn off false s

/-! ## The return stack (R77) -/

/-- Lanes' spilled entries: a misaligned one is trap 0x05, a missing translation a walk, a formatted page trap 0x06. -/
def State.spillFault (s : State) (x : Ctx) (l : List (Nat × BitVec 64)) (access : Nat) : Option Res :=
  match l.find? fun a => a.2.toNat % 8 != 0 with
  | some a => some (.trap 0x05 0 a.2)
  | none =>
    let look := l.map fun a => (a.2, s.lookup x.core x.pd a.2 access)
    if look.any fun r => match r.2 with | some (.ok _) => false | _ => true then some (.walk l access)
    else match look.find? fun r => match r.2 with | some (.ok t) => t.fmt != 0 | _ => false with
      | some r => some (.trap 0x06 0 r.1)
      | none => none

/-- The greatest depth of a task's threads (R77). -/
def Task.maxDepth (t : Task) : Nat := 8 + t.tlm / 8

/-- Where a lane's next push goes when it is spilled. -/
def Ctx.pushSpills (x : Ctx) (g : Word) : List (Nat × BitVec 64) :=
  (lanesOf g).filterMap fun l =>
    let d := (x.b.thread l).depth + 1
    if d ≤ 8 then none else some (l, x.k.spillVa x.slot l d)

/-- Push a return entry for lanes; the bound and the spills are checked already. -/
def State.push (s : State) (x : Ctx) (g : Word) (entry : BitVec 64) : State :=
  (lanesOf g).foldl (fun s l =>
    let d := (x.b.thread l).depth + 1
    let s := if d ≤ 8 then s else
      let va := x.k.spillVa x.slot l d
      match s.lookup x.core x.pd va accStore with
      | some (.ok t) => s.storeBytes x.core x.slot (laneBit l) x.pd t (bytesOf 8 entry.toNat)
      | _ => s
    s.updThreads x.core x.slot (laneBit l) fun _ t =>
      { t with depth := d, stack := if d ≤ 8 then mapSet t.stack d entry else t.stack }) s

/-- A call of all Present lanes (R81). -/
def callTo (i : Instr) (d : BitVec 2) (srcs : List Src) (target : Ctx → BitVec 64) (s : State) :
    Host.Outcome State Fault Refusal :=
  issue i (shapeS d srcs) (fun x t =>
    let dest := target x
    let l := x.pushSpills x.lanes
    if dest.toNat % 4 != 0 then .trap 0x05 0 dest
    else if (lanesOf x.lanes).any fun l => x.task.maxDepth < (x.b.thread l).depth + 1 then .trap 0x03 0 0
    else match t.spillFault x l accStore with
      | some r => r
      | none => .ok ((t.push x x.lanes (stackWord (x.pc + 4) false)).jump x x.lanes dest)) s

/-- CALL (R81). -/
def execCall (d : BitVec 2) (off : BitVec 18) (s : State) : Host.Outcome State Fault Refusal :=
  callTo (.call d off) d [] (fun x => offsetFrom x.pc off) s

/-- CALLI (R81). -/
def execCalli (d : BitVec 2) (sn : BitVec 6) (s : State) : Host.Outcome State Fault Refusal :=
  callTo (.calli d sn) d (sSrc64 sn) (fun x => x.s64 sn) s

/-- The groups of lanes that share a key, the group of the lowest lane first. -/
def groupsBy (key : Nat → BitVec 64) (lanes : List Nat) : List (BitVec 64 × Word) :=
  (lanes.foldl (fun (a : List (BitVec 64)) l => if a.contains (key l) then a else a ++ [key l]) []).map fun k =>
    (k, maskOf (lanes.filter fun l => key l == k))

/-- CALLV (R82). -/
def execCallv (d : BitVec 2) (v : BitVec 7) (s : State) : Host.Outcome State Fault Refusal :=
  issue (.callv d v) { uni := true, d, vs := [v.toNat], srcs := src64 v } (fun x t =>
    let next := x.pc + 4
    let act := lanesOf x.active
    let l := x.pushSpills x.active
    if act.isEmpty then .ok (t.jump x x.lanes next)
    else match act.find? fun l => (x.v64 l v).toNat % 4 != 0 with
      | some b => .trap 0x05 0 (x.v64 b v)
      | none =>
        if act.any fun l => x.task.maxDepth < (x.b.thread l).depth + 1 then .trap 0x03 0 0
        else match t.spillFault x l accStore with
          | some r => r
          | none =>
            let t := t.push x x.active (stackWord next true)
            let held := x.lanes &&& ~~~x.active
            let t := t.updThreads x.core x.slot held fun _ y => { y with hold := .vcall, pc := next, base := next }
            let gs := groupsBy (fun l => x.v64 l v) act
            let t := gs.foldl (fun (t : State) g => t.goTo x.core x.slot g.2 g.1) t
            let first := (gs.headD (0, 0)).2
            .ok (t.updEntry x.core x.e fun e =>
              { e with lanes := first, defer := e.defer ||| (x.active &&& ~~~first), ctx := none })) s

/-- Where a lane's entry stands that a `ret` pops, when it is spilled. -/
def Ctx.popSpills (x : Ctx) : List (Nat × BitVec 64) :=
  (lanesOf x.lanes).filterMap fun l =>
    let d := (x.b.thread l).depth
    if d ≤ 8 then none else some (l, x.k.spillVa x.slot l d)

/-- RET (R83). -/
def execRet (d : BitVec 2) (s : State) : Host.Outcome State Fault Refusal :=
  issue (.ret d) (shapeS d []) (fun x t =>
    let l := x.popSpills
    match t.spillFault x l accLoad with
    | some r => r
    | none =>
      let depth := fun l => (x.b.thread l).depth
      let r := l.foldl (fun (r : State × Nat × List (Nat × BitVec 64)) a =>
        match r.1.lookup x.core x.pd a.2 accLoad with
        | some (.ok tr) =>
          let q := r.1.loadBytes x.core x.pd tr 8 false
          (q.1, max r.2.1 q.2.1, r.2.2 ++ [(a.1, BitVec.ofNat 64 (ofBytes q.2.2))])
        | _ => r) (t, 0, [])
      let t := r.1
      if r.2.1 != 0 then .trap 0x0C r.2.1 ((l.headD (0, 0)).2) else
      let entry := fun l => if depth l ≤ 8 then mapGetD (x.b.thread l).stack (depth l) 0 else mapGetD r.2.2 l 0
      let ends := (lanesOf x.lanes).filter fun l => depth l == 0
      let pops := (lanesOf x.lanes).filter fun l => depth l != 0
      let t := t.updThreads x.core x.slot (maskOf pops) fun l y =>
        { y with depth := depth l - 1, pc := stackPc (entry l), base := stackPc (entry l)
                 hold := if (entry l).getLsbD 0 then .vcall else .none }
      let gs := groupsBy (fun l => stackPc (entry l)) (pops.filter fun l => !(entry l).getLsbD 0)
      let t := t.updEntry x.core x.e fun e => { e with lanes := (gs.headD (0, 0)).2 ||| maskOf ends, ctx := none }
      let t := (gs.drop 1).foldl (fun t g => (t.takeEntry x.core x.slot x.e g.2 .ready .none).1) t
      let t := if ends.isEmpty then t else t.exitLanes x.core x.e (maskOf ends) true
      .ok ((t.releaseCalls x.core x.slot x.e).rebalance x.core x.e)) s

/-! ## Split and join (R84 to R87) -/

/-- SPLIT (R84). -/
def execSplit (d : BitVec 2) (j : BitVec 4) (p : BitVec 3) (off : BitVec 17) (s : State) : Host.Outcome State Fault Refusal :=
  issue (.split d j p off) (shapeS d [.pAll p.toNat]) (fun x t =>
    let t := t.updBand x.core x.slot fun b => { b with j := mapSet b.j j.toNat x.lanes, arr := mapDel b.arr j.toNat }
    let taken := maskOf ((lanesOf x.lanes).filter fun l => x.p l p)
    let fall := x.lanes &&& ~~~taken
    let t := if taken = 0 then t
      else if fall = 0 then t.jump x x.lanes (offsetFrom x.pc off)
      else
        let t := t.jump x taken (offsetFrom x.pc off)
        let keeps := if x.l.det && (lowestLane x.lanes).any fall.getLsbD then fall else taken
        let t := t.updEntry x.core x.e fun e => { e with lanes := keeps }
        (t.takeEntry x.core x.slot x.e (x.lanes &&& ~~~keeps) .ready .none).1
    .ok (t.passWaits x.core x.slot none)) s

/-- JOIN (R85). -/
def execJoin (d : BitVec 2) (j : BitVec 4) (s : State) : Host.Outcome State Fault Refusal :=
  issue (.join d j) (shapeS d []) (fun x t => .ok (t.arriveJoin x.core x.e j.toNat (x.pc + 4))) s

/-- JWAIT (R86). -/
def execJwait (d : BitVec 2) (j : BitVec 4) (s : State) : Host.Outcome State Fault Refusal :=
  issue (.jwait d j) (shapeS d []) (fun x t =>
    if mapGetD x.b.j j.toNat 0 &&& x.b.live &&& ~~~x.lanes &&& ~~~(mapGetD x.b.arr j.toNat 0) = 0 then .ok t
    else .stay fun s =>
      ((s.updEntry x.core x.e fun e => { e with wait := .jwait j.toNat }).updBand x.core x.slot fun b =>
        { b with turn := none }).rebalance x.core x.e) s

/-- JSET (R87). -/
def execJset (d : BitVec 2) (j : BitVec 4) (sn : BitVec 6) (s : State) : Host.Outcome State Fault Refusal :=
  issue (.jset d j sn) (shapeS d [.s sn.toNat]) (fun x t =>
    let t := t.updBand x.core x.slot fun b => { b with j := mapSet b.j j.toNat (x.s sn) }
    .ok ((t.releaseJoin x.core x.slot x.e j.toNat true).passWaits x.core x.slot none)) s

/-- JGET (R87). -/
def execJget (d : BitVec 2) (sn : BitVec 6) (j : BitVec 4) (s : State) : Host.Outcome State Fault Refusal :=
  issue (.jget d sn j) (shapeS d []) (fun x t => t.done x (x.toS sn (mapGetD x.b.j j.toNat 0))) s

/-! ## Other control (R88 to R90) -/

/-- The lowest lane of the competing sub-band that follows a lane, wrapping to the lowest (R88). -/
def Core.nextTurn (k : Core) (slot lane : Nat) : Option Nat :=
  let ls := ((k.entriesOf slot).filter fun e =>
    !(k.entry e).frozen && (k.entry e).wait.competes && (k.entry e).lanes != 0).filterMap fun e => lowestLane (k.entry e).lanes
  let pick := fun (l : List Nat) => l.foldl (fun (a : Option Nat) n => match a with
    | none => some n
    | some m => some (min m n)) none
  (pick (ls.filter (lane < ·))).or (pick ls)

/-- YIELD (R88). -/
def execYield (d : BitVec 2) (s : State) : Host.Outcome State Fault Refusal :=
  issue (.yield d) (shapeS d []) (fun x t =>
    let low := (lowestLane x.lanes).getD 0
    let k := t.core x.core
    let t := if k.resumable (k.entry x.e) = 0 then t else
      let t := t.updThreads x.core x.slot x.lanes fun _ y => { y with mark := .yielded }
      let g := (t.core x.core).resumeGroup ((t.core x.core).entry x.e)
      (t.updEntry x.core x.e fun e => { e with lanes := 0, defer := e.defer ||| x.lanes }).resumeLanes x.core x.e g
    .ok (t.updBand x.core x.slot fun b => { b with turn := (t.core x.core).nextTurn x.slot low })) s

/-- NOP (R89). -/
def execNop (d : BitVec 2) (s : State) : Host.Outcome State Fault Refusal := issue (.nop d) (shapeS d []) (fun _ t => .ok t) s

/-- BRK (R90): trap 0x0A with its code, the word after the instruction being saved. -/
def execBrk (d : BitVec 2) (code : BitVec 12) (s : State) : Host.Outcome State Fault Refusal :=
  issue (.brk d code) (shapeS d []) (fun x t => .trapAt t 0x0A code.toNat (x.pc + 4)) s

/-- TRAP (R90): trap 0x0B with its code. -/
def execTrap (d : BitVec 2) (code : BitVec 12) (s : State) : Host.Outcome State Fault Refusal :=
  issue (.trap d code) (shapeS d []) (fun x t => .trapAt t 0x0B code.toNat (x.pc + 4)) s

end Sys2Proof.Machine
end

