-- ==== Sys2Proof/Machine/Tags.lean ====
section
/-! DEFINITION. Copy tags (R210) and the waits on them (R220). -/

namespace Sys2Proof.Machine

/-- A command that names a tag is over: its busy count falls, and DONE is set at 0, or at once with the fault bit by a
faulted one (R210, R213). -/
def Task.endTag (t : Task) (words : List Word) (fault : Bool) : Task :=
  let h := (words.headD 0).toNat
  if !bitN h 24 then t else
  let tag := fieldN h 23 18
  let n := mapGetD t.busy tag 0 - 1
  let bit := BitVec.ofNat 64 (2 ^ tag)
  { t with busy := mapSet t.busy tag n
           done := if n = 0 || fault then t.done ||| bit else t.done
           fault := if fault then t.fault ||| bit else t.fault }

/-- The lowest done tag of a mask, or 64 (R220). -/
def Task.lowestDone (t : Task) (mask : BitVec 64) : Nat :=
  ((List.range 64).find? fun i => mask.getLsbD i && t.done.getLsbD i).getD 64

/-- Whether some tag of a mask is busy. -/
def Task.anyBusy (t : Task) (mask : BitVec 64) : Bool :=
  (List.range 64).any fun i => mask.getLsbD i && mapGetD t.busy i 0 != 0

/-- The result of a tag wait whose condition holds (R220). -/
def Task.waitDone (t : Task) (all : Bool) (mask : BitVec 64) : Option Word :=
  if !t.anyBusy mask || (!all && t.lowestDone mask != 64) then some (BitVec.ofNat 32 (t.lowestDone mask)) else none

/-- Tag waits whose condition holds now are ready (R220). -/
def State.latchWaits (s : State) (c t : Nat) : State :=
  let task := (s.core c).task t
  s.updCore c fun k => { k with flights := mapAll k.flights fun _ f =>
    match f.kind with
    | .tagWait all mask dest none =>
      if k.taskOfBand f.slot = t then { f with kind := .tagWait all mask dest (task.waitDone all mask) } else f
    | _ => f }

end Sys2Proof.Machine
end

