-- ==== Sys2Proof/Machine/Fences.lean ====
section
/-! DEFINITION. Releases and acquires (R244, R245, R250), the fences (R256), and the barrier instructions (R202 to
R207). -/

namespace Sys2Proof.Machine

/-! ## Fences -/

/-- A sub-band starts an operation and waits for it. -/
def State.holdFor (s : State) (x : Ctx) (kind : FKind) : State :=
  let id := (s.core x.core).nextOp
  (s.start x x.lanes none kind).updEntry x.core x.e fun e => { e with wait := .op id }

/-- A fence. -/
def fence (i : Instr) (d : BitVec 2) (kind : FKind) (s : State) : Host.Outcome State Fault Refusal :=
  issue i (shapeS d []) (fun x _ => .stay fun s => s.holdFor x kind) s

/-- REL (R256). -/
def execRel (d : BitVec 2) (s : State) : Host.Outcome State Fault Refusal := fence (.rel d) d (.release .plain .fence) s

/-- ACQ (R256). -/
def execAcq (d : BitVec 2) (s : State) : Host.Outcome State Fault Refusal := fence (.acq d) d .acquire s

/-- SYNC (R256). -/
def execSync (d : BitVec 2) (s : State) : Host.Outcome State Fault Refusal := fence (.sync d) d (.release .plain .sync) s

/-- XREL (R256). -/
def execXrel (d : BitVec 2) (s : State) : Host.Outcome State Fault Refusal := fence (.xrel d) d (.release .xrel .fence) s

/-- XREL_DRAM (R256). -/
def execXrelDram (d : BitVec 2) (s : State) : Host.Outcome State Fault Refusal :=
  fence (.xrelDram d) d (.release .dram .fence) s

/-! ## Barriers -/

/-- The barrier that a participant word names (R203): the group, or the local barrier of the task or of its handlers. -/
def Ctx.barrier (x : Ctx) (g : BitVec 8) (w : Word) : Nat :=
  if !w.msb then g.toNat else if x.keep then keepGid else localGid

/-- Arrive at a barrier (R203): the participant word and the lanes are recorded, the release starts, and a `bar` waits for
the phase. -/
def State.arriveBar (s : State) (x : Ctx) (gid : Nat) (w : Word) (wait : Bool) : State :=
  let phase := s.openPhase x.core x.t gid
  let i := x.b.index
  let b := ((s.core x.core).task x.t).barOf gid
  let named := w.getLsbD i
  let b := { b with part := b.part.or (some w)
                    arrived := if named then mapSet b.arrived i (mapGetD b.arrived i 0 ||| x.lanes) else b.arrived }
  let s := s.updTask x.core x.t fun t => t.setBar gid b
  let s := if named && gid < 256 then s.updBand x.core x.slot fun y => { y with bars := mapSet y.bars gid ⟨w, phase, true⟩ } else s
  let s := s.start x x.lanes none (.release .plain (.arrive gid w phase wait))
  if wait then
    (s.updEntry x.core x.e fun e => { e with wait := .bar gid phase }).updBand x.core x.slot fun y => { y with turn := none }
  else s

/-- `bar` and `arrive`. -/
def arriveAt (i : Instr) (d : BitVec 2) (g : BitVec 8) (sn : BitVec 6) (wait : Bool) (s : State) :
    Host.Outcome State Fault Refusal :=
  issue i (shapeS d [.s sn.toNat]) (fun x t =>
    let w := x.s sn
    let gid := x.barrier g w
    let b := x.task.barOf gid
    if gid < 256 && !x.l.usable gid x.task.number then .trap 0x07 3 0
    else if w.getLsbD x.b.index && mapGetD b.arrived x.b.index 0 &&& x.lanes != 0 then
      .stay fun s => (s.updEntry x.core x.e fun e => { e with wait := .again gid }).updBand x.core x.slot fun y => { y with turn := none }
    else if b.part.any (· != w) then .trap 0x07 2 0
    else if wait then .stay fun s => s.arriveBar x gid w true
    else .ok (t.arriveBar x gid w false)) s

/-- BAR (R204). -/
def execBar (d : BitVec 2) (g : BitVec 8) (sn : BitVec 6) (s : State) : Host.Outcome State Fault Refusal :=
  arriveAt (.bar d g sn) d g sn true s

/-- ARRIVE (R204). -/
def execArrive (d : BitVec 2) (g : BitVec 8) (sn : BitVec 6) (s : State) : Host.Outcome State Fault Refusal :=
  arriveAt (.arrive d g sn) d g sn false s

/-- BARW (R204): it waits while the phase of the band's last arrival is open. -/
def execBarw (d : BitVec 2) (g : BitVec 8) (s : State) : Host.Outcome State Fault Refusal :=
  issue (.barw d g) (shapeS d []) (fun x t =>
    let b := mapGetD x.b.bars g.toNat BarState.fresh
    if !x.l.usable g.toNat x.task.number then .trap 0x07 3 0
    else if b.ever && b.last == t.openPhase x.core x.t g.toNat then
      .stay fun s => (s.updEntry x.core x.e fun e => { e with wait := .barw g.toNat }).updBand x.core x.slot fun y => { y with turn := none }
    else .ok (t.selfInvalidate x.core)) s

/-- The status of a group for a task (R207). -/
def Launch.status (l : Launch) (gid task : Nat) : Word :=
  let g := l.group gid
  let rank := match g.members.idxOf? task with
    | some i => min i 0xFFFF
    | none => 0
  BitVec.ofNat 32 (rank * 65536 + (if g.cores then 4 else 0) + (if g.members.contains task then 2 else 0) +
    (if (mapGet l.groups gid).isSome then 1 else 0))

/-- GMASK (R207). -/
def execGmask (d : BitVec 2) (g : BitVec 8) (sd : BitVec 6) (s : State) : Host.Outcome State Fault Refusal :=
  issue (.gmask d g sd) (shapeS d []) (fun x t => t.done x (x.toS sd (x.l.status g.toNat x.task.number))) s

/-! ## Completion of releases (R244, R250) -/

/-- Whether an operation must be over before a later release of its lanes performs (R244 steps 1 and 2, R283). -/
def FKind.beforeRelease : FKind → Bool
  | .load _ | .atom _ | .lds _ _ | .remote _ | .release _ _ | .pw _ _ | .xfer _ _ _ _ => true
  | .result _ _ _ _ | .acquire | .tagWait _ _ _ _ | .qpop _ _ _ _ | .sig _ _ | .mat _ => false

/-- Whether an operation must be over before a later acquire fence of its lanes completes (R245). -/
def FKind.beforeAcquire : FKind → Bool
  | .load _ | .atom _ | .remote _ => true
  | .release _ (.access op) => op.kind.isAtomic
  | .release _ _ | .lds _ _ | .result _ _ _ _ | .acquire | .tagWait _ _ _ _ | .qpop _ _ _ _ | .xfer _ _ _ _ | .sig _ _
  | .mat _ | .pw _ _ => false

/-- Whether an earlier operation of the same lanes holds one back. -/
def Core.heldBack (k : Core) (id : Nat) (f : Flight) (p : FKind → Bool) : Bool :=
  k.flights.any fun g => g.1 < id && g.2.slot == f.slot && g.2.lanes &&& f.lanes != 0 && p g.2.kind

/-- Write every dirty line of a domain to the array (R250). -/
def State.flushDomain (s : State) (pd : Nat) : State :=
  (s.domes.filter fun d => d.2.pd == pd).foldl (fun s d => s.flushLine d.1) s

/-- The write-back of a release: the bands it covers, and the array for `xrel.dram`. A local barrier leaves the core
alone (R205). -/
def State.performRelease (s : State) (c : Nat) (f : Flight) (k : RelKind) (here : Bool) : State :=
  if here then s else
  let task := (s.core c).taskBands ((s.core c).taskOfBand f.slot)
  match k with
  | .plain => s.writeBack c (· == f.slot)
  | .xrel => s.writeBack c task.contains
  | .dram => (s.writeBack c task.contains).flushDomain (s.pdOf c f.slot)

/-- The machine check a release meets (R249, R361): of the band, or for a task-wide one of the task. -/
def State.takeFail (s : State) (c : Nat) (f : Flight) (k : RelKind) : State × Option Nat :=
  let bands := match k with
    | .plain => [f.slot]
    | .xrel | .dram => (s.core c).taskBands ((s.core c).taskOfBand f.slot)
  match bands.find? fun b => !((s.core c).band b).relFail.isEmpty with
  | none => (s, none)
  | some b => (s.updBand c b fun x => { x with relFail := [] }, ((s.core c).band b).relFail.head?)

/-- Let the sub-band that waits for an operation go on after its instruction. -/
def State.passOp (s : State) (c id words : Nat) : State :=
  match (s.core c).table.find? fun e => e.2.wait == .op id with
  | none => s
  | some e => (s.advance c e.1 words).updEntry c e.1 fun x => { x with wait := .ready, age := 0 }

/-- A releasing store or atomic performs its own access (R244 step 4); an atomic of a deterministic launch is checked
first, and its sub-band held until then (R258). -/
def State.releasedAccess (s : State) (c id : Nat) (f : Flight) (op : MemOp) : State :=
  let pd := s.pdOf c f.slot
  let l := s.launch ((s.core c).task ((s.core c).taskOfBand f.slot)).launch
  if !op.kind.isAtomic then (s.storeAll c f.slot pd op l.ftz true).dropFlight c id
  else if s.marksBar c f.slot op then
    let e := (s.core c).table.find? fun e => e.2.wait == .op id
    ((s.dropFlight c id).dropFlag c f.slot f.flag).takeTrap c f.slot 0x08 0 (e.map (·.1)) op.pc op.lanes 0
  else
    let r := s.atomAll c f.slot pd op
    let remote := op.acc.any fun a => a.t.elim false s.isRemote
    let s := r.1.updCore c fun k => { k with flights := mapUpd k.flights id fun g =>
      { g with kind := if remote then .remote r.2 else .atom r.2 } }
    s.passOp c id op.kind.words

/-- A push whose release is over: its command may be started (R215). -/
def State.releasePush (s : State) (c t queue num : Nat) : State :=
  s.updTask c t fun x => { x with queues := mapUpd x.queues queue fun q =>
    { q with cmds := q.cmds.map fun m => if m.num = num then { m with released := true } else m } }

/-- A push whose release fails never becomes a command (log entry 20). -/
def State.dropPush (s : State) (c t queue num : Nat) : State :=
  let q := mapGetD ((s.core c).task t).queues queue Queue.fresh
  match q.cmds.find? (·.num == num) with
  | none => s
  | some m =>
    let rest := { q with cmds := q.cmds.filter (·.num != num) }
    (s.updTask c t fun x => { x.endTag m.words true with queues := mapSet x.queues queue rest }).latchWaits c t

/-- What follows a release that is over. -/
def State.afterRelease (s : State) (c id : Nat) (f : Flight) (a : After) : State :=
  match a with
  | .none => s.dropFlight c id
  | .fence => (s.dropFlight c id).passOp c id 1
  | .sync => s.updCore c fun k => { k with flights := mapUpd k.flights id fun g => { g with kind := .acquire } }
  | .access op => s.releasedAccess c id f op
  | .arrive gid part phase _ => (s.dropFlight c id).arrived c f.slot gid part f.lanes phase
  | .push queue num => (s.dropFlight c id).releasePush c ((s.core c).taskOfBand f.slot) queue num

/-- Arrivals of a band withdrawn from a barrier's open phase. -/
def State.unarrive (s : State) (c slot gid : Nat) (lanes : Word) : State :=
  let i := ((s.core c).band slot).index
  s.updTask c ((s.core c).taskOfBand slot) fun t =>
    let b := t.barOf gid
    t.setBar gid { b with arrived := mapSet b.arrived i (mapGetD b.arrived i 0 &&& ~~~lanes) }

/-- A release that does not complete (R249, R361): what it stood for has not happened, its sub-band goes on, and the
machine check is taken. -/
def State.failedRelease (s : State) (c id : Nat) (f : Flight) (a : After) (detail : Nat) : State :=
  let s := (s.dropFlight c id).dropFlag c f.slot f.flag
  let s := match a with
    | .arrive gid _ phase true =>
      let s := s.unarrive c f.slot gid f.lanes
      (((s.core c).entriesOf f.slot).filter fun e =>
        ((s.core c).entry e).wait == Wait.bar gid phase && ((s.core c).entry e).lanes &&& f.lanes != 0).foldl (fun (s : State) e =>
          (s.advance c e 1).updEntry c e fun x => { x with wait := .ready, age := 0 }) s
    | .arrive gid _ _ false => s.unarrive c f.slot gid f.lanes
    | .push queue num => s.dropPush c ((s.core c).taskOfBand f.slot) queue num
    | .access op => s.passOp c id op.kind.words
    | .none | .fence | .sync => s.passOp c id 1
  s.asyncTrap c f.slot f.lanes 0x0C detail 0

/-- Whether a release is that of an arrival at a local barrier. -/
def After.here : After → Bool
  | .arrive gid _ _ _ => 256 ≤ gid
  | .none | .fence | .sync | .access _ | .push _ _ => false

/-- RELEASE_COMPLETION (R244). -/
def execReleaseCompletion (c id : Nat) (s : State) : Host.Outcome State Fault Refusal :=
  .next (match mapGet (s.core c).flights id with
    | some f => (match f.kind with
      | .release k a =>
        if (s.core c).heldBack id f FKind.beforeRelease then s else
        let s := s.performRelease c f k a.here
        match if a.here then (s, none) else s.takeFail c f k with
        | (s, some detail) => s.failedRelease c id f a detail
        | (s, none) => s.afterRelease c id f a
      | _ => s)
    | none => s)

/-- ACQUIRE_COMPLETION (R245). -/
def execAcquireCompletion (c id : Nat) (s : State) : Host.Outcome State Fault Refusal :=
  .next (match mapGet (s.core c).flights id with
    | some f => (match f.kind with
      | .acquire =>
        if (s.core c).heldBack id f FKind.beforeAcquire then s
        else ((s.selfInvalidate c).dropFlight c id).passOp c id 1
      | _ => s)
    | none => s)

end Sys2Proof.Machine
end

