-- ==== Sys2Proof/Machine/Engines.lean ====
section
/-! DEFINITION. Queue registers and copy tags (R209, R210), the queue and tag instructions (R212 to R221), and the start
and end of engine commands (R208, R213 to R216). -/

namespace Sys2Proof.Machine

/-! ## Commands (R211) -/

/-- The header's fields. -/
structure Head where
  op : Nat
  n : Nat
  tagged : Bool
  tag : Nat
  low : Nat
  deriving DecidableEq, Repr

def headOf (w : Word) : Head :=
  let h := w.toNat
  ⟨fieldN h 31 28, fieldN h 27 25 + 1, bitN h 24, fieldN h 23 18, fieldN h 17 0⟩

def Cmd.head (m : Cmd) : Head := headOf (m.words.headD 0)

def Cmd.word (m : Cmd) (i : Nat) : Word := m.words.getD i 0

/-- Words i + 1, i of a command as an address or value. -/
def Cmd.pair (m : Cmd) (i : Nat) : BitVec 64 := pair64 (m.word i) (m.word (i + 1))

/-- The word count an op requires, and the port it is served by. -/
def opCount : Nat → Nat
  | 0 => 6 | 1 => 8 | 2 => 8 | 3 => 8 | 4 => 5 | 5 => 7 | _ => 6

def opPort : Nat → Nat
  | 0 | 1 => 1
  | n => n

/-- The group an op 4 or 5 names. -/
def Cmd.group (m : Cmd) : Nat := if m.head.op = 4 then fieldN m.head.low 15 8 else fieldN (m.word 6).toNat 7 0

/-- The address spaces an op names, each with the word index of its address; the spaces of words 1 and 2 come first. -/
def Cmd.spaces (m : Cmd) : List (Nat × Nat) :=
  let l := m.head.low
  match m.head.op with
  | 0 => [(fieldN l 17 16, 1), (fieldN l 15 14, 3)]
  | 1 => [(fieldN l 5 4, 1), (fieldN l 3 2, 3)]
  | 2 | 3 => [(fieldN l 17 16, 1), (fieldN l 15 14, 5)]
  | 4 => [(fieldN l 17 16, 1)]
  | 5 => [(fieldN l 17 16, 1), (fieldN l 15 14, 3)]
  | _ => []

/-- Bytes of an element type of a collective. -/
def collSize : Nat → Nat
  | 1 | 2 => 2
  | 3 => 8
  | _ => 4

/-- Bytes of a decoded type (R222). -/
def decSize : Nat → Nat
  | 1 | 2 => 2
  | 3 => 4
  | _ => 1

/-- Detail 4 of R212: a reserved op or code, or a field that must be zero (log entry 21 for the codes the spec leaves
without a meaning). -/
def Cmd.badField (m : Cmd) : Bool :=
  let h := m.head
  let l := h.low
  7 ≤ h.op || (!h.tagged && h.tag != 0) ||
  m.spaces.any (fun p => 2 ≤ p.1 || (p.1 = 1 && m.word (p.2 + 1) != 0)) ||
  match h.op with
  | 0 => fieldN l 10 0 != 0 || (!bitN l 13 && fieldN l 12 11 != 0)
  | 1 => fieldN l 1 0 != 0
  | 2 | 3 => fieldN l 10 0 != 0
  | 4 => fieldN l 7 0 != 0
  | 5 => fieldN l 8 0 != 0 || 5 < fieldN l 13 11 || fieldN l 10 9 = 3 || fieldN (m.word 6).toNat 31 8 != 0
  | _ => bitN l 0 || fieldN l 5 4 = 3 || fieldN (m.word 3).toNat 15 12 != 0 ||
      (fieldN l 5 4 = 2 && (m.words.drop 1).any (· != 0))

/-- Whether `n` bytes from a scratchpad address lie below an allocation; an empty range does. -/
def inScratch (bytes : Nat) (at_ : Int) (n : Nat) : Bool := n = 0 || (0 ≤ at_ && at_ + n ≤ bytes)

/-- Detail 7 of R212: every scratchpad range of the task's own that a command names. -/
def Cmd.badScratch (m : Cmd) (bytes : Nat) : Bool :=
  let l := m.head.low
  let here := fun (i : Nat) (n : Nat) => !inScratch bytes (m.word i).toNat n
  match m.head.op with
  | 0 =>
    let len := (m.word 5).toNat
    (fieldN l 17 16 = 1 && !bitN l 13 && here 1 len) ||
      (fieldN l 15 14 = 1 && here 3 (len * if bitN l 13 then decSize (fieldN l 12 11) else 1))
  | 1 =>
    let bad := fun (i : Nat) (pitch : Word) => (List.range (fieldN l 17 6 + 1)).any fun r =>
      !inScratch bytes ((m.word i).toNat + r * pitch.toInt) (m.word 5).toNat
    (fieldN l 5 4 = 1 && bad 1 (m.word 6)) || (fieldN l 3 2 = 1 && bad 3 (m.word 7))
  | 2 | 3 =>
    (fieldN l 17 16 = 1 && here 1 (4 * (m.word 7).toNat)) ||
      (fieldN l 15 14 = 1 && here 5 (2 ^ fieldN l 13 11 * (m.word 7).toNat))
  | 4 => fieldN l 17 16 = 1 && here 1 (m.word 4).toNat
  | 5 =>
    let n := collSize (fieldN l 13 11) * (m.word 5).toNat
    (fieldN l 17 16 = 1 && here 1 n) || (fieldN l 15 14 = 1 && here 3 n)
  | _ => false

/-- The detail with which a push is refused (R212, R218): 1, 2, 3, 4, 6, 7, 5 in this order. -/
def pushDetail (l : Launch) (t : Task) (port n : Nat) (m : Cmd) : Option Nat :=
  let h := m.head
  if port = 0 then some 1
  else if h.op < 7 && port != opPort h.op then some 2
  else if h.op < 7 && (h.n != n || opCount h.op != n) then some 3
  else if m.badField then some 4
  else if (h.op = 4 || h.op = 5) && !l.usable m.group t.number then some 6
  else if m.badScratch (4096 * t.spGrans) then some 7
  else if h.tagged && mapGetD t.busy h.tag 0 = 255 then some 5
  else none

/-- The 12-bit code of trap 0x0D (R212). -/
def engCode (h : Head) (detail : Nat) : Nat := (if h.tagged then 64 * h.tag else 32) + detail

/-! ## Queue instructions -/

/-- A push of a command of `count` words on a queue register: refused (R212), held up at a full register (R211), or its command joins
the queue, with the instance of its collective (R227) and its tag (R210), and its release starts (R209). -/
def State.pushCmd (t : State) (x : Ctx) (q count : Nat) (m : Cmd) : Res :=
  let qr := mapGetD x.task.queues q Queue.fresh
  match pushDetail x.l x.task qr.port count m with
  | some k => .trap 0x0D (engCode m.head k) 0
  | none =>
    if 16 ≤ qr.cmds.length then .hold else
    let m := if m.head.op = 5 then { m with inst := mapGetD x.task.inst m.group 0 } else m
    .ok ((t.updTask x.core x.t fun y =>
      { y with pushes := y.pushes + 1
               inst := if m.head.op = 5 then mapSet y.inst m.group (m.inst + 1) else y.inst
               busy := if m.head.tagged then mapSet y.busy m.head.tag (mapGetD y.busy m.head.tag 0 + 1) else y.busy
               queues := mapSet y.queues q { qr with cmds := qr.cmds ++ [m] } }).start x x.lanes none (.release .plain (.push q m.num)))

/-- QPUSH (R218). -/
def execQpush (d : BitVec 2) (q : BitVec 4) (sn : BitVec 6) (n : BitVec 3) (s : State) : Host.Outcome State Fault Refusal :=
  issue (.qpush d q sn n) { shapeS d ((List.range (n.toNat + 1)).map fun i => .s (sn.toNat + i)) with mem := true }
    (fun x t => t.pushCmd x q.toNat (n.toNat + 1)
      ⟨(List.range (n.toNat + 1)).map fun i => (x.readS (sn.toNat + i)).1, x.task.pushes, x.slot, 0, x.pc, false⟩) s

/-- QPOP (R219). -/
def execQpop (d : BitVec 2) (sn : BitVec 6) (q : BitVec 4) (s : State) : Host.Outcome State Fault Refusal :=
  issue (.qpop d sn q) (shapeS d []) (fun x t =>
    let qr := mapGetD x.task.queues q.toNat Queue.fresh
    if qr.port = 0 then .trap 0x0D 33 0
    else if qr.port != 6 then .trap 0x0D 34 0
    else
      let base := (x.b.thread ((lowestLane x.lanes).getD 0)).base
      .ok (t.start x x.lanes x.flagA (.qpop q.toNat (x.sAt sn) x.pc base))) s

/-- QFENCE (R216). -/
def execQfence (d : BitVec 2) (sn : BitVec 6) (s : State) : Host.Outcome State Fault Refusal :=
  issue (.qfence d sn) (shapeS d [.s sn.toNat]) (fun x t =>
    let mask := (x.s sn) &&& 0xFFFF#32
    if (lanesOf mask).any fun q => (mapGetD x.task.queues q Queue.fresh).port = 0 then .trap 0x0D 33 0
    else if mask = 0 then .ok t
    else .ok (t.updTask x.core x.t fun y => { y with fences := y.fences ++ [⟨mask, y.pushes⟩] })) s

/-! ## Tag instructions -/

/-- TWANY (R220). -/
def execTwany (d : BitVec 2) (sn m : BitVec 6) (s : State) : Host.Outcome State Fault Refusal :=
  issue (.twany d sn m) (shapeS d (sSrc64 m)) (fun x t =>
    .ok (t.start x x.lanes x.flagA (.tagWait false (x.s64 m) (x.sAt sn) (x.task.waitDone false (x.s64 m))))) s

/-- TWALL (R220). -/
def execTwall (d : BitVec 2) (m : BitVec 6) (s : State) : Host.Outcome State Fault Refusal :=
  issue (.twall d m) (shapeS d (sSrc64 m)) (fun x t =>
    .ok (t.start x x.lanes x.flagA (.tagWait true (x.s64 m) .nowhere (x.task.waitDone true (x.s64 m))))) s

/-- TFFR (R221). -/
def execTffr (d : BitVec 2) (sn m : BitVec 6) (s : State) : Host.Outcome State Fault Refusal :=
  issue (.tffr d sn m) (shapeS d (sSrc64 m)) (fun x t =>
    let n := x.task.lowestDone (x.s64 m)
    (if n = 64 then t else t.selfInvalidate x.core).done x (x.toS sn (BitVec.ofNat 32 n))) s

/-- TGET (R221). -/
def execTget (d : BitVec 2) (sn : BitVec 6) (s : State) : Host.Outcome State Fault Refusal :=
  issue (.tget d sn) (shapeS d []) (fun x t => t.done x (x.toS64 sn x.task.done)) s

/-- TCLR (R221). -/
def execTclr (d : BitVec 2) (m : BitVec 6) (s : State) : Host.Outcome State Fault Refusal :=
  issue (.tclr d m) (shapeS d (sSrc64 m)) (fun x t =>
    .ok (t.updTask x.core x.t fun y => { y with done := y.done &&& ~~~(x.s64 m), fault := y.fault &&& ~~~(x.s64 m) })) s

/-- TAG_WAIT_COMPLETE (R220). -/
def execTagWaitComplete (c id : Nat) (s : State) : Host.Outcome State Fault Refusal :=
  .next (match mapGet (s.core c).flights id with
    | some f => (match f.kind with
      | .tagWait _ _ dest (some v) =>
        let s := (s.updCore c (·.writeLocs f.slot f.gen [(dest, v)])).selfInvalidate c
        (s.dropFlight c id).dropFlag c f.slot f.flag
      | _ => s)
    | none => s)

/-- QPOP_COMPLETE (R219): the oldest pending `qpop` of a queue register takes its oldest word. -/
def execQpopComplete (c id : Nat) (s : State) : Host.Outcome State Fault Refusal :=
  .next (match mapGet (s.core c).flights id with
    | some f => (match f.kind with
      | .qpop q dest _ _ =>
        let k := s.core c
        let t := k.taskOfBand f.slot
        let qr := mapGetD (k.task t).queues q Queue.fresh
        let older := k.flights.any fun g => g.1 < id && k.taskOfBand g.2.slot == t && (match g.2.kind with
          | .qpop p _ _ _ => p == q
          | _ => false)
        match qr.ret with
        | [] => s
        | w :: rest =>
          if older then s else
          let s := s.updTask c t fun x => { x with queues := mapSet x.queues q { qr with ret := rest } }
          let s := s.updCore c (·.writeLocs f.slot f.gen [(dest, w)])
          (s.dropFlight c id).dropFlag c f.slot f.flag
      | _ => s)
    | none => s)

/-! ## Start and end of commands (R208, R213, R215, R216) -/

/-- The commands of a task that are not complete, by queue register. -/
def Task.unfinished (t : Task) : List (Nat × Nat) :=
  t.queues.flatMap fun q => (q.2.cmds.map fun m => (q.1, m.num)) ++ (match q.2.cur with | some r => [(q.1, r.cmd.num)] | none => [])

/-- Whether the fences of a task let a command of a queue register start. -/
def Task.fencesPass (t : Task) (q : Nat) (m : Cmd) : Bool :=
  t.fences.all fun f => !f.mask.getLsbD q || m.num < f.num ||
    t.unfinished.all fun u => !f.mask.getLsbD u.1 || f.num ≤ u.2

/-- Forget the fences that hold nothing any more. -/
def Task.pruneFences (t : Task) : Task :=
  { t with fences := t.fences.filter fun f => t.unfinished.any fun u => f.mask.getLsbD u.1 && u.2 < f.num }

/-- The members a multicast writes to: the group's other members that have not retired (R226). -/
def Launch.fillMembers (l : Launch) (gid me : Nat) : List Nat :=
  (l.group gid).members.filter fun m => m != me && (mapGet l.retired m).isNone

/-- Where a task of a launch stands, if it is placed. -/
def State.findTask (s : State) (l n : Nat) : Option (Nat × Nat) :=
  (s.tasksOf l).find? fun p => ((s.core p.1).task p.2).number == n

/-- Whether every destination of a multicast is placed and none is saved (R226). -/
def State.fillReady (s : State) (l me gid : Nat) : Bool :=
  ((s.launch l).fillMembers gid me).all fun n => match s.findTask l n with
    | some p => !((s.core p.1).task p.2).saved
    | none => false

/-- The oldest command of a queue register, if its engine may start it. -/
def State.startable (s : State) (c t q : Nat) : Option Cmd :=
  let task := (s.core c).task t
  let qr := mapGetD task.queues q Queue.fresh
  match qr.cur, qr.cmds with
  | none, m :: _ =>
    if m.released && task.fencesPass q m &&
        (m.head.op != 4 || s.fillReady task.launch task.number m.group) then some m else none
  | _, _ => none

/-- The engine of a sector, or for port code 6 of a spire, that serves a port (R208). -/
def engineOf (c port : Nat) : Nat :=
  match port with
  | 1 => 4 * coreSector c
  | 2 | 3 => 4 * coreSector c + 1
  | 4 | 5 => 4 * coreSector c + 2
  | _ => 12 * coreSpire c + 3

/-- The place of a queue register in an engine's round. -/
def queuePlace (c t q : Nat) : Nat := (c * 64 + t) * 16 + q

/-- The queue registers an engine may take a command from now. -/
def State.candidates (s : State) (eng : Nat) : List Nat :=
  s.cores.flatMap fun k => k.2.tasks.flatMap fun t => (t.2.queues.filter fun q =>
    engineOf k.1 q.2.port == eng && (s.startable k.1 t.1 q.1).isSome).map fun q => queuePlace k.1 t.1 q.1

/-- The next in round-robin order after the one taken last. -/
def nextRound (l : List Nat) (last : Option Nat) : Option Nat :=
  let least := fun (l : List Nat) => l.foldl (fun (a : Option Nat) n => match a with
    | none => some n
    | some m => some (min m n)) none
  match last with
  | none => least l
  | some n => (least (l.filter (n < ·))).or (least l)

/-- ENGINE_COMMAND_START (R208). -/
def execEngineCommandStart (c t q : Nat) (s : State) : Host.Outcome State Fault Refusal :=
  .next (
    let qr := mapGetD ((s.core c).task t).queues q Queue.fresh
    let eng := engineOf c qr.port
    match s.startable c t q with
    | none => s
    | some m =>
      if nextRound (s.candidates eng) (mapGet s.engines eng) != some (queuePlace c t q) then s else
      let qr := { qr with cmds := qr.cmds.drop 1, cur := some ⟨m, 0, false, false, none⟩ }
      { s.updTask c t fun x => { x with queues := mapSet x.queues q qr } with
        engines := mapSet s.engines eng (queuePlace c t q) })

/-- A command is over: its tag, its queue register, and the waits and fences that looked at it. -/
def State.endCommand (s : State) (c t q : Nat) (m : Cmd) (fault : Bool) : State :=
  (s.updTask c t fun x =>
    ({ x.endTag m.words fault with queues := mapUpd x.queues q fun r => { r with cur := none } }).pruneFences).latchWaits c t

/-- ENGINE_COMMAND_COMPLETE (R210). -/
def execEngineCommandComplete (c t q : Nat) (s : State) : Host.Outcome State Fault Refusal :=
  .next (match (mapGetD ((s.core c).task t).queues q Queue.fresh).cur with
    | some r => if r.done && r.fault.isNone then s.endCommand c t q r.cmd false else s
    | none => s)

/-- Deliver a fault of an engine command to the band that pushed it (R213); in keep mode it ends the task (R308, R329). -/
def State.engineTrap (s : State) (c t slot cause code : Nat) : State :=
  let b := (s.core c).band slot
  if b.live = 0 then s.updTask c t fun x => { x with eflt := true }
  else s.asyncTrap c slot b.live cause code 0

/-- ENGINE_FAULT (R213, R214). -/
def execEngineFault (c t q : Nat) (s : State) : Host.Outcome State Fault Refusal :=
  .next (match (mapGetD ((s.core c).task t).queues q Queue.fresh).cur with
    | some r => (match r.fault with
      | some (cause, code) => (s.endCommand c t q r.cmd true).engineTrap c t r.cmd.slot cause code
      | none => s)
    | none => s)

end Sys2Proof.Machine
end

