-- ==== Sys2Proof/Machine/EngineMem.lean ====
section
/-! DEFINITION. How an engine reads and writes memory and scratchpad (R214, R222, R247), and the format tags it leaves
(R134). -/

namespace Sys2Proof.Machine

/-- What an engine command acts for: core, task slot, queue register. -/
structure Eng where
  c : Nat
  t : Nat
  q : Nat
  deriving DecidableEq, Repr

def State.engTask (s : State) (g : Eng) : Task := (s.core g.c).task g.t
def State.engPd (s : State) (g : Eng) : Nat := (s.launch (s.engTask g).launch).pd

/-- One side of a transfer: in the task's scratchpad, or in memory; its address. -/
structure Side where
  scratch : Bool
  at_ : BitVec 64
  deriving DecidableEq, Repr

def Side.plus (x : Side) (n : Nat) : Side := { x with at_ := x.at_ + BitVec.ofNat 64 n }

/-- A side that a command names: a space code and the word index of the address. -/
def Cmd.side (m : Cmd) (p : Nat × Nat) : Side :=
  if p.1 = 1 then ⟨true, (m.word p.2).setWidth 64⟩ else ⟨false, m.pair p.2⟩

/-- Cut `n` bytes at `o` into pieces that stay within aligned blocks of `size` bytes. -/
def cutAt (size : Nat) : Nat → Nat → Nat → List (Nat × Nat)
  | 0, _, _ => []
  | fuel + 1, o, n =>
    if n = 0 then [] else
    let k := min n (size - o % size)
    (o, k) :: cutAt size fuel (o + k) (n - k)

def cuts (size o n : Nat) : List (Nat × Nat) := cutAt size (n / size + 2) o n

/-- The first byte of a memory range that does not translate: its place in the range and the cause. -/
def State.rangeFault (s : State) (pd : Nat) (va : BitVec 64) (n : Nat) (write : Bool) : State × Option (Nat × Nat) :=
  (cuts 65536 va.toNat n).foldl (fun r p =>
    match r.2 with
    | some _ => r
    | none =>
      match r.1.translateFor pd (BitVec.ofNat 64 p.1) write with
      | (s, .error cause) => (s, some (p.1 - va.toNat, cause))
      | (s, .ok _) => (s, none)) (s, none)

/-- The first fault of a side: none in the scratchpad. -/
def State.sideFault (s : State) (pd : Nat) (x : Side) (n : Nat) (write : Bool) : State × Option (Nat × Nat) :=
  if x.scratch then (s, none) else s.rangeFault pd x.at_ n write

/-- Read a memory range that translates: a detail, and the bytes before what was refused. What another module gives is a
free value (log entry 22). -/
def State.rangeReadAs (s : State) (a : Asker) (va : BitVec 64) (n : Nat) : State × Nat × List Byte :=
  (cuts 128 va.toNat n).foldl (fun r p =>
    if r.2.1 != 0 then r else
    match r.1.translateFor a.pd (BitVec.ofNat 64 p.1) false with
    | (s, .error _) => (s, 2, r.2.2)
    | (s, .ok t) =>
      if s.isRemote t then
        if s.routed t.module then
          let free := (List.range p.2).map fun i => (Config.freeBits (s.fresh + i)).extractLsb' 0 8
          ({ s with fresh := s.fresh + p.2, out := s.out ++ [.remoteLoad t.module (2 ^ 44 * t.buf + t.off) p.2] }, 0, r.2.2 ++ free)
        else (s, 4, r.2.2)
      else
        match s.readBuf a t.buf t.off p.2 with
        | (s, 0, bs) => (s, 0, r.2.2 ++ bs)
        | (s, e, _) => (s, e, r.2.2)) (s, 0, [])

def State.rangeRead (s : State) (pd : Nat) (va : BitVec 64) (n : Nat) : State × Nat × List Byte :=
  s.rangeReadAs ⟨pd, none⟩ va n

/-- Write a memory range that translates: a detail. Writes made for a task of a deterministic launch leave its marks
(R258). -/
def State.rangeWriteAs (s : State) (a : Asker) (who : Option (Nat × Nat)) (va : BitVec 64) (bs : List Byte) : State × Nat :=
  (cuts 128 va.toNat bs.length).foldl (fun r p =>
    if r.2 != 0 then r else
    match r.1.translateFor a.pd (BitVec.ofNat 64 p.1) true with
    | (s, .error _) => (s, 2)
    | (s, .ok t) =>
      let part := sliceN bs (p.1 - va.toNat) p.2
      if s.isRemote t then
        if s.routed t.module then ({ s with out := s.out ++ [.remoteStore t.module (2 ^ 44 * t.buf + t.off) part] }, 0)
        else (s, 4)
      else
        match s.writeBuf a t.buf t.off part with
        | (s, 0) =>
          let pa := (s.buf t.buf).pa t.off
          (match who with
            | some w => s.mark w.1 w.2 (pa / 128) (wordMask (pa % 128) p.2)
            | none => s, 0)
        | r => r) (s, 0)

def State.rangeWrite (s : State) (pd : Nat) (who : Option (Nat × Nat)) (va : BitVec 64) (bs : List Byte) : State × Nat :=
  s.rangeWriteAs ⟨pd, none⟩ who va bs

/-- Why an access of an agent outside the cores is not performed: a page fault at an address, or a refusal. -/
inductive Miss where
  | page (va : BitVec 64) (cause : Nat)
  | port (detail : Nat)
  deriving DecidableEq, Repr

/-- Read for a walker or a host. -/
def State.askRead (s : State) (a : Asker) (va : BitVec 64) (n : Nat) : State × Except Miss (List Byte) :=
  match s.rangeFault a.pd va n false with
  | (s, some f) => (s, .error (.page (va + BitVec.ofNat 64 f.1) f.2))
  | (s, none) =>
    match s.rangeReadAs a va n with
    | (s, 0, bs) => (s, .ok bs)
    | (s, e, _) => (s, .error (.port e))

/-- Write for a walker or a host: one that is not performed whole changes nothing. -/
def State.askWrite (s : State) (a : Asker) (va : BitVec 64) (bs : List Byte) : State × Option Miss :=
  match s.rangeFault a.pd va bs.length true with
  | (s, some f) => (s, some (.page (va + BitVec.ofNat 64 f.1) f.2))
  | (s, none) =>
    match s.rangeWriteAs a none va bs with
    | (s, 0) => (s, none)
    | (_, e) => (s, some (.port e))

/-- Whose marks an engine's writes leave. -/
def State.engMarks (s : State) (g : Eng) : Option (Nat × Nat) :=
  let t := s.engTask g
  if (s.launch t.launch).det then some (t.launch, t.number) else none

/-- Read a side. -/
def State.sideRead (s : State) (g : Eng) (x : Side) (n : Nat) : State × Nat × List Byte :=
  let t := s.engTask g
  if x.scratch then (s, 0, ((s.core g.c).spRead t.gen (t.spBase + x.at_.toNat) n).1) else s.rangeRead (s.engPd g) x.at_ n

/-- Write a side; in the scratchpad a granule's tag is that of the first of its bytes that is written. -/
def State.sideWrite (s : State) (g : Eng) (x : Side) (bs : List Byte) (tag : Nat → BitVec 4) : State × Nat :=
  let t := s.engTask g
  if x.scratch then
    let at_ := t.spBase + x.at_.toNat
    (s.updCore g.c fun k => k.spWrite t.gen at_ bs fun gr => tag (max (64 * gr) at_ - at_), 0)
  else s.rangeWrite (s.engPd g) (s.engMarks g) x.at_ bs

/-- What a byte of a page holds, as a format tag (R132, R134). -/
def rawTag (t : Trans) (va : BitVec 64) : BitVec 4 :=
  let o := (va - t.fbase).toNat
  match t.fmt with
  | 1 => 3
  | 2 => 4
  | 3 => if o % 2112 < 64 then 7 else 5
  | 4 => if o % 1088 < 64 then 7 else 6
  | 5 => if o % 8512 < 64 then 10 else if o % 8512 < 320 then 9 else 8
  | 6 => 13
  | 7 => 14
  | 8 => 12
  | _ => 0

/-- The format tag that a raw copy of the byte at a side's place gives. -/
def State.sideTag (s : State) (g : Eng) (x : Side) : BitVec 4 :=
  let t := s.engTask g
  if x.scratch then (s.core g.c).spFmt t.gen ((t.spBase + x.at_.toNat) / 64)
  else match s.translateFor (s.engPd g) x.at_ false with
    | (_, .ok t) => rawTag t x.at_
    | (_, .error _) => 0

/-! ## How a command stops -/

/-- A command goes on, waits for the answer to a page fault, or has faulted: cause and code. -/
inductive Stop where
  | go
  | wait
  | fault (cause code : Nat)
  deriving DecidableEq, Repr

/-- A refusal of a memory port: trap 0x0C (R214, R323). -/
def portStop (detail : Nat) : Stop := if detail = 0 then .go else .fault 0x0C (if detail = 4 then 4 else 5)

/-- A fault of trap 0x0D found during execution. -/
def Cmd.stop (m : Cmd) (detail : Nat) : Stop := .fault 0x0D (engCode m.head detail)

/-- Post the record of an engine's page fault (R214). -/
def State.engRecord (s : State) (g : Eng) (m : Cmd) (va : BitVec 64) (cause : Nat) (write : Bool) : State :=
  let k := s.core g.c
  s.raiseRecord ⟨va, 0, g.c, m.slot, 255, (s.engTask g).gen, cause, if write then 1 else 0, s.engPd g, m.pc, k.whoOf m.slot⟩

/-- Whether a record of a command's page fault is not answered yet. -/
def State.engOpen (s : State) (g : Eng) (m : Cmd) : Bool :=
  (s.faultOpen ++ s.faultWait).any fun r => r.lanes == 0 && r.who == (s.core g.c).whoOf m.slot && r.pc == m.pc

/-- Whether two ranges of `n` bytes overlap. -/
def Side.meets (x y : Side) (n : Nat) : Bool :=
  x.scratch == y.scratch && (x.at_.toNat < y.at_.toNat + n && y.at_.toNat < x.at_.toNat + n)

/-- Copy `n` bytes as R222 does, up to a page fault, which is recorded; of overlapping ranges nothing is copied before one.
The result says how many bytes are done. -/
def State.copyBytes (s : State) (g : Eng) (m : Cmd) (src dst : Side) (n : Nat) : State × Stop × Nat :=
  match s.sideFault (s.engPd g) src n false with
  | (s, fs) =>
    match s.sideFault (s.engPd g) dst n true with
    | (s, fd) =>
      let first := match fs, fd with
        | none, none => none
        | some a, none => some (a.1, a.2, false)
        | none, some b => some (b.1, b.2, true)
        | some a, some b => if a.1 ≤ b.1 then some (a.1, a.2, false) else some (b.1, b.2, true)
      let k := match first with
        | none => n
        | some f => if src.meets dst n then 0 else f.1
      let tag := fun i => s.sideTag g (src.plus i)
      match s.sideRead g src k with
      | (s, e, bs) =>
        match s.sideWrite g dst bs tag with
        | (s, e2) =>
          if e != 0 || e2 != 0 then (s, portStop (if e2 != 0 then e2 else e), k)
          else match first with
            | none => (s, .go, n)
            | some f => (s.engRecord g m ((if f.2.2 then dst else src).plus f.1).at_ f.2.1 f.2.2, .wait, k)

end Sys2Proof.Machine
end

