-- ==== Sys2Proof/Machine/Matrix.lean ====
section
/-! DEFINITION. The matrix instructions (R264 to R292): operands and their formats, the arithmetic of a K step, signing and
the life of an operation, and the tile and accumulator instructions. -/

namespace Sys2Proof.Machine

/-! ## Tiles and accumulators (R264 to R266) -/

/-- Key of a row of a task's tile in the core's tile file (R16). -/
def Task.tileKey (t : Task) (tile r : Nat) : Nat := 64 * (4 * t.tileMap.getD (tile / 4) 0 + tile % 4) + r

/-- The core's accumulator that a task's is. -/
def Task.accAt (t : Task) (a : Nat) : Nat := t.accMap.getD a 0
def Task.accKey (t : Task) (a r : Nat) : Nat := 64 * t.accAt a + r

/-- A tile row or scratchpad granule under a generation: data, format tag, and whether the generation matched (R9). -/
def readRow (gen : BitVec 16) (x : Option Row) : BitVec 512 × BitVec 4 × Bool :=
  match x with
  | some r => if r.gen = gen then (r.data, r.fmt, true) else (0, 0, false)
  | none => (0, 0, gen == 0)

def Core.tileRow (k : Core) (t : Task) (tile r : Nat) : BitVec 512 × BitVec 4 × Bool :=
  readRow t.gen (mapGet k.tiles (t.tileKey tile r))

def Core.putTileRow (k : Core) (t : Task) (tile r : Nat) (fmt : BitVec 4) (d : BitVec 512) : Core :=
  { k with tiles := mapSet k.tiles (t.tileKey tile r) ⟨t.gen, fmt, d⟩ }

def Core.accRow (k : Core) (t : Task) (a r : Nat) : BitVec 2048 × Bool := readTagged 0 t.gen (mapGet k.accs (t.accKey a r))

def Core.putAccRow (k : Core) (t : Task) (a r : Nat) (d : BitVec 2048) : Core :=
  { k with accs := mapSet k.accs (t.accKey a r) ⟨t.gen, d⟩ }

/-- The fields of a status word below GEN, which is its tag (R266). -/
def Core.accStatus (k : Core) (t : Task) (a : Nat) : Word × Bool := readTagged 0 t.gen (mapGet k.accStat (t.accAt a))

def Core.putStatus (k : Core) (t : Task) (a : Nat) (w : Word) : Core :=
  { k with accStat := mapSet k.accStat (t.accAt a) ⟨t.gen, w⟩ }

/-- The sticky bits of a status word, its STOP and its PROG. -/
def stickyOf (w : Word) : Word := w &&& 0x1F00#32
def statStop (w : Word) : Bool := w.getLsbD 15
def statProg (w : Word) : Nat := w.toNat % 128

/-- A status word. -/
def statusWord (sticky : Word) (stop : Bool) (prog : Nat) : Word :=
  sticky ||| (if stop then 0x8000#32 else 0) ||| BitVec.ofNat 32 (prog % 128)

/-- NV, OF, UF, NX and SAT as sticky bits. -/
def stickyFl (fl : Fl) (sat : Bool) : Word :=
  (if fl &&& flNV != 0 then 0x100#32 else 0) ||| (if fl &&& flOF != 0 then 0x200#32 else 0) |||
    (if fl &&& flUF != 0 then 0x400#32 else 0) ||| (if fl &&& flNX != 0 then 0x800#32 else 0) ||| (if sat then 0x1000#32 else 0)

/-! ## Shape and operands (R267 to R271) -/

def shapeKS (w : Word) : Nat := w.toNat % 64 + 1
def shapeMV (w : Word) : Nat := fieldN w.toNat 21 16
def shapeNV (w : Word) : Nat := fieldN w.toNat 27 22

/-- Whether an operation takes an accumulator pair (R265). -/
def MatOp.pair (o : MatOp) : Bool := o.complex || o.ty == .f64

def MatOp.accs (o : MatOp) : List Nat := if o.pair then [o.acc, o.acc + 1] else [o.acc]

/-- Where a row of an operand stands: a tile row, a byte of the task's scratchpad, a byte of another core's. -/
inductive RowAt where
  | tile (t r : Nat)
  | own (at_ : Nat)
  | cluster (core at_ : Nat)
  deriving DecidableEq, Repr

/-- The place of row r of slice j (R268 to R270). -/
def MatSrc.rowAt (m : MatSrc) (c j r : Nat) : RowAt :=
  match m with
  | .tile t => .tile (t + j) r
  | .map base pitch =>
    let o := 64 * fieldN pitch.toNat 15 4 * j + fieldN pitch.toNat 31 16 * r
    if base.msb then .cluster (4 * coreCluster c + fieldN base.toNat 29 28) (base.toNat % 2 ^ 18 + o)
    else .own (base.toNat % 2 ^ 31 + o)

def MatSrc.rot (m : MatSrc) : Nat :=
  match m with
  | .tile _ => 0
  | .map _ pitch => pitch.toNat % 16

/-- Whether a row is misaligned or out of range, or the base word has a reserved bit (R269, R270). -/
def MatSrc.badRow (m : MatSrc) (t : Task) (p : RowAt) : Bool :=
  match p with
  | .tile _ _ => false
  | .own a => a % 64 != 0 || t.spBytes < a + 64
  | .cluster _ a => a % 64 != 0 || 2 ^ 18 < a + 64 || (match m with
    | .map base _ => fieldN base.toNat 27 18 != 0
    | .tile _ => false)

/-- The logical quarters of a row read with a rotation code (R271). -/
def rotate (rot r : Nat) (d : BitVec 512) : BitVec 512 :=
  if rot = 0 || 4 < rot then d else
  BitVec.ofNat 512 ((List.range 4).foldl (fun n q =>
    n + fieldN d.toNat 511 0 / 2 ^ (128 * ((q + r / 2 ^ (rot - 1)) % 4)) % 2 ^ 128 * 2 ^ (128 * q)) 0)

/-- A row of an operand: data, tag, and whether its generation passes (R9, R270). -/
def State.matRow (s : State) (c t : Nat) (m : MatSrc) (j r : Nat) : BitVec 512 × BitVec 4 × Bool :=
  let k := s.core c
  let task := k.task t
  let x := match m.rowAt c j r with
    | .tile n i => if n < task.nt then k.tileRow task n i else (0, 0, false)
    | .own a => if a + 64 ≤ task.spBytes then readRow task.gen (mapGet k.scratch ((task.spBase + a) / 64)) else (0, 0, false)
    | .cluster o a =>
      let k' := s.core o
      match k'.tasks.find? fun (p : Nat × Task) => p.2.launch == task.launch && p.2.spBase ≤ a && a < p.2.spBase + p.2.spBytes with
      | none => (0, 0, true)
      | some p =>
        let x := readRow p.2.gen (mapGet k'.scratch (a / 64))
        (x.1, x.2.1, true)
  (rotate m.rot r x.1, x.2.1, x.2.2)

/-- Whether tags are those of scaled values, and of values or scale codes of a scaled operand. -/
def scaledTag (x : BitVec 4) : Bool := x == 5 || x == 6 || x == 8
def scaledRow (x : BitVec 4) : Bool := 5 ≤ x.toNat && x.toNat ≤ 9

/-- Slices of an operand per K step from a starting step (R268; log entry 24). -/
def State.sigma (s : State) (c t : Nat) (m : MatSrc) (sp : Bool) (s0 ks : Nat) : Nat :=
  let tag := fun j => (s.matRow c t m j 0).2.1
  if sp then 2
  else if s0 < ks && scaledTag (tag (2 * s0)) && (s0 == 0 || scaledRow (tag s0)) then 2 else 1

/-! ## Classes (R272) -/

/-- The class of a value tag. -/
def tagClass (x : BitVec 4) : Option MatCls :=
  match x.toNat with
  | 1 => some .f16
  | 2 => some .bf16
  | 3 | 4 | 5 => some .f8
  | 6 | 8 => some .f4
  | 11 => some .i8
  | 12 => some .i4
  | 13 => some .ci8
  | 14 => some .ci4
  | 15 => some .f64
  | _ => none

/-- Elements of a row. -/
def MatCls.elems : MatCls → Nat
  | .f16 | .bf16 | .ci8 => 32
  | .f8 | .i8 | .ci4 => 64
  | .f4 | .i4 => 128
  | .f64 => 8

/-- Products of a chunk. -/
def MatCls.chunk : MatCls → Nat
  | .f16 | .bf16 | .ci4 => 4
  | .f8 | .i8 => 8
  | .f4 | .i4 => 16
  | .ci8 => 2
  | .f64 => 1

def MatCls.ty : MatCls → AccTy
  | .f16 | .bf16 | .f8 | .f4 => .f32
  | .i8 | .i4 | .ci8 | .ci4 => .i32
  | .f64 => .f64

def MatCls.complex : MatCls → Bool
  | .ci8 | .ci4 => true
  | .f16 | .bf16 | .f8 | .f4 | .i8 | .i4 | .f64 => false

/-- Whether a class allows an operation's type and qualifiers; `mx` for a value tag 5 among its rows. -/
def MatCls.allows (k : MatCls) (o : MatOp) (mx : Bool) : Bool :=
  k.complex == o.complex && k.ty == o.ty && (!o.sp || k == .bf16 || (k == .f8 && !mx)) && (!o.ax || k == .bf16 || k == .f8)

/-! ## Elements (R273) -/

/-- Code of element k of a row: whole bytes of `n` bits, or 4-bit codes by R131. -/
def rowElem (row n k : Nat) : Nat :=
  if n = 4 then row / 2 ^ (8 * (16 * (k / 32) + k % 16) + 4 * (k % 32 / 16)) % 16 else row / 2 ^ (n * k) % 2 ^ n

/-- A value times 2^e. -/
def FNum.times2 (x : FNum) (e : Int) : FNum :=
  match x with
  | .num n m f => .num n m (f + e)
  | .inf n => .inf n
  | .nan s => .nan s

/-- An MX element under a scale code. -/
def mxElem (f : Fmt) (x c : Nat) : FNum := if c = 255 then .nan false else (unpackNarrow f x).times2 ((c : Int) - 127)

/-- A floating element of a value row with its tag and its scale row. A signalling FP64 NaN counts as any other NaN
(R276). -/
def floatElem (tag row scale k : Nat) : FNum :=
  match tag with
  | 1 => unpackF f16S (rowElem row 16 k)
  | 2 => unpackF bf16S (rowElem row 16 k)
  | 3 => unpackNarrow .e4m3 (rowElem row 8 k)
  | 4 => unpackNarrow .e5m2 (rowElem row 8 k)
  | 5 => mxElem .e4m3 (rowElem row 8 k) (rowElem scale 8 (k / 32))
  | 6 => mxElem .e2m1 (rowElem row 4 k) (rowElem scale 8 (k / 32))
  | 8 =>
    let b := q16nScale (rowElem scale 8 (k / 64))
    (match q16nLevel (rowElem row 4 k) with
    | .num n m e => .num (n && m * b.1 != 0) (m * b.1) (e + b.2)
    | .inf n => .inf n
    | .nan s => .nan s)
  | 15 => (match unpackF f64S (rowElem row 64 k) with
    | .nan _ => .nan false
    | .inf n => .inf n
    | .num n m e => .num n m e)
  | _ => .num false 0 0

/-- An integer element, real and imaginary. -/
def intElem (tag row k : Nat) : Int × Int :=
  match tag with
  | 11 => (sext 8 (rowElem row 8 k), 0)
  | 12 => (sext 4 (rowElem row 4 k), 0)
  | 13 => complexParts .ci8 (rowElem row 16 k)
  | 14 => complexParts .ci4 (rowElem row 8 k)
  | _ => (0, 0)

/-! ## Arithmetic (R275 to R278) -/

/-- The product of significands without the partial products of columns below t (R278). -/
def axMul (t a b : Nat) : Nat :=
  a * b - (List.range t).foldl (fun n i => (List.range (t - i)).foldl (fun n j =>
    if bitN a i && bitN b j then n + 2 ^ (i + j) else n) n) 0

/-- A product of elements, shortened when `t` is positive; none for 0 × ∞. -/
def matMul (t : Nat) (a b : FNum) : Option FNum :=
  match a, b with
  | .num s m e, .num u k f => some (.num (s != u) (axMul t m k) (e + f))
  | x, y => mulNum x y

/-- One floating chunk addition (R276): the sum so far, and the chunk's elements in pairs. -/
def chunkF (p : FloatSpec) (t : Nat) (d : Nat) (l : List (FNum × FNum)) : Nat × Fl :=
  let ps := l.map fun q => matMul t q.1 q.2
  let dn := unpackF p d
  let fin := ps.filterMap id
  let all := dn :: fin
  let clash := all.any (· == .inf false) && all.any (· == .inf true)
  if ps.any (·.isNone) || clash || l.any (fun q => q.1.isSNaN || q.2.isSNaN) then (p.nanBits, flNV)
  else if all.any (·.isNaN) then (p.nanBits, flNone)
  else addTerms p .rn false all

/-- One integer chunk addition: exact, then clamped (R277). -/
def chunkI (d : Nat) (x : Int) : Nat × Bool :=
  let v := sext 32 d + x
  let w := clampInt (-(2 ^ 31)) (2 ^ 31 - 1) v
  (lowBits 32 w, w != v)

/-- The complex product of two elements (R277). -/
def complexMul (conj : Bool) (a b : Int × Int) : Int × Int :=
  if conj then (a.1 * b.1 + a.2 * b.2, a.2 * b.1 - a.1 * b.2) else (a.1 * b.1 - a.2 * b.2, a.1 * b.2 + a.2 * b.1)

/-- A row as it enters a step: tag, code, and the code of its scale or metadata row. -/
structure StepRow where
  tag : Nat
  row : Nat
  aux : Nat
  deriving DecidableEq, Repr

/-- The position of B that kept value q of A multiplies under `.sp` (R274). -/
def spPos (mt q : Nat) : Nat := 4 * (q / 2) + mt / 2 ^ (2 * q) % 4

/-- The pairs of a step of one row of A and one of B, as numbers of elements: position in A's row, in B's rows (R268). -/
def stepPairs (sp : Bool) (mt e : Nat) : List (Nat × Nat) :=
  (List.range e).map fun q => (q, if sp then spPos mt q else q)

/-- Cut a list into pieces of `n`. -/
def chunksOf {α : Type} (n : Nat) : Nat → List α → List (List α)
  | 0, _ => []
  | fuel + 1, l => if l.isEmpty then [] else l.take n :: chunksOf n fuel (l.drop n)

/-- A floating element of B at a position over its rows of a step: two value rows under `.sp`. -/
def bFloat (sp : Bool) (e : Nat) (b : StepRow × StepRow) (k : Nat) : FNum :=
  if sp && e ≤ k then floatElem b.2.tag b.2.row 0 (k - e) else floatElem b.1.tag b.1.row b.1.aux k

/-- A step of one element of D under floating classes: its bits and flags. -/
def stepFloat (p : FloatSpec) (o : MatOp) (cls : MatCls) (a : StepRow) (b : StepRow × StepRow) (d : Nat) : Nat × Fl :=
  let t := if o.ax then (if cls == .bf16 then 4 else 1) else 0
  let e := cls.elems
  (chunksOf cls.chunk e (stepPairs o.sp a.aux e)).foldl (fun r ch =>
    let q := chunkF p t r.1 (ch.map fun x =>
      (floatElem a.tag a.row (if o.sp then 0 else a.aux) x.1, bFloat o.sp e b x.2))
    (q.1, r.2 ||| q.2)) (d, flNone)

/-- A step of one integer element: its real and imaginary words, and whether it was clamped. -/
def stepInt (o : MatOp) (cls : MatCls) (a : StepRow) (b : StepRow) (d : Nat × Nat) : (Nat × Nat) × Bool :=
  let e := cls.elems
  (chunksOf cls.chunk e (List.range e)).foldl (fun r ch =>
    let x := ch.foldl (fun (x : Int × Int) k =>
      let y := complexMul o.conj (intElem a.tag a.row k) (intElem b.tag b.row k)
      (x.1 + y.1, x.2 + y.2)) (0, 0)
    let u := chunkI r.1.1 x.1
    let v := if o.complex then chunkI r.1.2 x.2 else (r.1.2, false)
    ((u.1, v.1), r.2 || u.2 || v.2)) (d, false)

/-- One step of a row of D: its two accumulator rows, flags, and SAT. -/
def stepRow (o : MatOp) (cls : MatCls) (a : StepRow) (bs : List (StepRow × StepRow)) (d : BitVec 2048 × BitVec 2048) :
    (BitVec 2048 × BitVec 2048) × Fl × Bool :=
  let r := bs.zipIdx.foldl (fun (r : (Nat × Nat) × Fl × Bool) x =>
    let n := x.2
    match o.ty with
    | .f32 =>
      let q := stepFloat f32S o cls a x.1 (fieldN r.1.1 (32 * n + 31) (32 * n))
      ((setFieldN r.1.1 (32 * n + 31) (32 * n) q.1, r.1.2), r.2.1 ||| q.2, r.2.2)
    | .f64 =>
      let i := n % 32
      let w := if n < 32 then r.1.1 else r.1.2
      let q := stepFloat f64S o cls a x.1 (fieldN w (64 * i + 63) (64 * i))
      let w' := setFieldN w (64 * i + 63) (64 * i) q.1
      ((if n < 32 then w' else r.1.1, if n < 32 then r.1.2 else w'), r.2.1 ||| q.2, r.2.2)
    | .i32 =>
      let q := stepInt o cls a x.1.1 (fieldN r.1.1 (32 * n + 31) (32 * n), fieldN r.1.2 (32 * n + 31) (32 * n))
      ((setFieldN r.1.1 (32 * n + 31) (32 * n) q.1.1,
        if o.complex then setFieldN r.1.2 (32 * n + 31) (32 * n) q.1.2 else r.1.2), r.2.1, r.2.2 || q.2))
    ((d.1.toNat, d.2.toNat), flNone, false)
  ((BitVec.ofNat 2048 r.1.1, BitVec.ofNat 2048 r.1.2), r.2)

/-- The rows of a step of an operand: with σ = 2, the second slice's row beside each. -/
def State.stepRows (s : State) (c t : Nat) (m : MatSrc) (sigma st n : Nat) : List (StepRow × StepRow) :=
  (List.range (n + 1)).map fun r =>
    let x := s.matRow c t m (sigma * st) r
    let y := if sigma = 2 then s.matRow c t m (2 * st + 1) r else (0, 0, true)
    (⟨x.2.1.toNat, x.1.toNat, y.1.toNat⟩, ⟨y.2.1.toNat, y.1.toNat, 0⟩)

/-- The accumulator rows of an operation before its first step (R275). -/
def MatRun.withRows (r : MatRun) (k : Core) (task : Task) : MatRun :=
  if !r.rows.isEmpty then r else
  let rows := fun a => (List.range (shapeMV r.op.mshape + 1)).map fun i => (k.accRow task a i).1
  { r with rows := rows r.op.acc, rows2 := if r.op.pair then rows (r.op.acc + 1) else rows r.op.acc }

/-- One K step of an operation (R275). -/
def State.kStep (s : State) (c t : Nat) (r : MatRun) : MatRun :=
  let r := r.withRows (s.core c) ((s.core c).task t)
  let o := r.op
  let as := s.stepRows c t o.a r.sa r.step (shapeMV o.mshape)
  let bs := s.stepRows c t o.b r.sb r.step (shapeNV o.mshape)
  let out := ((r.rows.zip r.rows2).zip as).map fun x => stepRow o r.cls x.2.1 bs x.1
  { r with step := r.step + 1, rows := out.map (·.1.1), rows2 := out.map (·.1.2)
           fl := out.foldl (fun f x => f ||| x.2.1) r.fl, sat := r.sat || out.any (·.2.2) }

/-! ## Matrix order (R282) -/

/-- What an instruction of the class reads and writes: tiles, accumulators, granules of the task's scratchpad. -/
structure MatSet where
  rt : List Nat := []
  wt : List Nat := []
  ra : List Nat := []
  wa : List Nat := []
  rg : List Nat := []
  wg : List Nat := []

def meetN (a b : List Nat) : Bool := a.any b.contains

/-- Whether a later instruction may not issue while an earlier one is incomplete. -/
def MatSet.blocks (old new : MatSet) : Bool :=
  meetN old.wt (new.rt ++ new.wt) || meetN old.rt new.wt || meetN old.wa (new.ra ++ new.wa) || meetN old.ra new.wa ||
    meetN old.wg (new.rg ++ new.wg) || meetN old.rg new.wg

/-- Tiles and granules that an operand's slices from one up to another name. -/
def MatSrc.reads (m : MatSrc) (c lo hi n : Nat) : List Nat × List Nat :=
  match m with
  | .tile t => ((List.range (hi - lo)).map (t + lo + ·), [])
  | .map _ _ => ([], ((List.range (hi - lo)).flatMap fun j => (List.range (n + 1)).filterMap fun r =>
      match m.rowAt c (lo + j) r with
      | .own a => some (a / 64)
      | .tile _ _ | .cluster _ _ => none))

def MatOp.set (o : MatOp) (c sa sb s0 : Nat) : MatSet :=
  let ks := shapeKS o.mshape
  let a := o.a.reads c (sa * s0) (sa * ks) (shapeMV o.mshape)
  let b := o.b.reads c (sb * s0) (sb * ks) (shapeNV o.mshape)
  { rt := a.1 ++ b.1, rg := a.2 ++ b.2, ra := o.accs, wa := o.accs }

def FKind.matSet (k : FKind) (c : Nat) : MatSet :=
  match k with
  | .xfer .tld r sp _ => { wt := [r], rg := sp }
  | .xfer .tst r sp _ => { rt := [r], wg := sp }
  | .xfer .ald r _ _ => { wa := [r] }
  | .xfer .ast r _ _ => { ra := [r] }
  | .mat r => r.op.set c r.sa r.sb r.step
  | _ => {}

/-- Whether an earlier instruction of a task holds one with a set back. -/
def Core.matBlocked (k : Core) (c t : Nat) (new : MatSet) : Bool :=
  k.flights.any fun f => k.taskOfBand f.2.slot == t && (f.2.kind.matSet c).blocks new

/-! ## Signing (R279 to R281) -/

/-- What an instruction of a cycle sees of a convergence register: its set and whether it is usable. -/
def GReg.seen (g : GReg) (now : Nat) : BitVec 16 × Bool :=
  match g.was with
  | some (n, set, u) => if now < n then (set, u) else (g.set, g.usable)
  | none => (g.set, g.usable)

/-- A band set and whether it may be used (R279). -/
def bandSet (t : Task) (w : Word) : BitVec 16 × Bool :=
  let m := w.setWidth 16 &&& BitVec.ofNat 16 (2 ^ t.nbands - 1)
  let n := popCount m
  (m, 1 ≤ n && n ≤ 4)

/-- SIGN (R279). -/
def execSign (d : BitVec 2) (g : BitVec 3) (sn : BitVec 6) (s : State) : Host.Outcome State Fault Refusal :=
  issue (.sign d g sn) (shapeS d [.s sn.toNat]) (fun x t =>
    let r := mapGetD x.task.g g.toNat GReg.fresh
    let n := bandSet x.task (x.s sn)
    if n.2 == r.usable && (!n.2 || n.1 == r.set) then .ok t
    else if r.op.isSome then .trap 0x07 2 0
    else
      let r' := { r with set := n.1, usable := n.2, was := some (x.now + 2, r.set, r.usable) }
      .ok (t.updTask x.core x.t fun y => { y with g := mapSet y.g g.toNat r' })) s

/-- A sub-band signs an operation on g and is held (R280). -/
def State.signWith (s : State) (x : Ctx) (g : Nat) (w : Word) (o : MatOp) : State :=
  let s := s.start x x.lanes x.flagB (.sig g none)
  let r := mapGetD x.task.g g GReg.fresh
  let r' := { r with op := some (w, o), signed := mapSet r.signed x.b.index (mapGetD r.signed x.b.index 0 ||| x.lanes) }
  let s := s.updTask x.core x.t fun y => { y with g := mapSet y.g g r' }
  let s := s.updEntry x.core x.e fun e => { e with wait := .signer g }
  (s.updBand x.core x.slot fun y => { y with turn := none }).rebalance x.core x.e

/-- The registers of an operand-map source (R269). -/
def mapSrcs (m : Bool) (f : BitVec 5) : List Src := if m then [.s (2 * f.toNat), .s (2 * f.toNat + 1)] else []

/-- An operand as a signer records it. -/
def Ctx.matSrc (x : Ctx) (m : Bool) (f : BitVec 5) : MatSrc :=
  if m then .map (x.readS (2 * f.toNat)).1 (x.readS (2 * f.toNat + 1)).1 else .tile f.toNat

/-- `mma` and `mmc`: the checks of R281 at a signature, and the signature. -/
def signMatrix (i : Instr) (d : BitVec 2) (pair : Bool) (acc : BitVec 5) (am : Bool) (a : BitVec 5) (bm : Bool) (b : BitVec 5)
    (g : BitVec 3) (op : Ctx → MatOp) (s : State) : Host.Outcome State Fault Refusal :=
  issue i { uni := true, d, as := acc.toNat :: (if pair then [acc.toNat + 1] else [])
            ts := (if am then [] else [a.toNat]) ++ (if bm then [] else [b.toNat]), srcs := mapSrcs am a ++ mapSrcs bm b }
    (fun x _ =>
      let r := mapGetD x.task.g g.toNat GReg.fresh
      let v := r.seen x.now
      let o := op x
      let w := (encode i).headD 0
      if !v.2 || !v.1.getLsbD x.b.index then .trap 0x07 3 0
      else if (List.range 16).any fun n => v.1.getLsbD n && x.k.bandLive x.t n != allLanes then .trap 0x07 1 0
      else if r.op.any (· != (w, o)) then .trap 0x07 2 0
      else .stay fun s => s.signWith x g.toNat w o) s

/-- MMA (R287). -/
def execMma (d : BitVec 2) (acc : BitVec 5) (am : Bool) (a : BitVec 5) (bm : Bool) (b : BitVec 5) (g : BitVec 3) (typ : AccTy)
    (ax sp : Bool) (s : State) : Host.Outcome State Fault Refusal :=
  signMatrix (.mma d acc am a bm b g typ ax sp) d (typ == .f64) acc am a bm b g
    (fun x => ⟨false, acc.toNat, x.matSrc am a, x.matSrc bm b, typ, ax, sp, false, x.b.mshape⟩) s

/-- MMC (R287). -/
def execMmc (d : BitVec 2) (acc : BitVec 5) (am : Bool) (a : BitVec 5) (bm : Bool) (b : BitVec 5) (g : BitVec 3) (cj : Bool)
    (s : State) : Host.Outcome State Fault Refusal :=
  signMatrix (.mmc d acc am a bm b g cj) d true acc am a bm b g
    (fun x => ⟨true, acc.toNat, x.matSrc am a, x.matSrc bm b, .i32, false, false, cj, x.b.mshape⟩) s

/-! ## Issue of an operation (R281, R282, R284) -/

/-- Rows of an operand that an operation reads from a step on: slice and row. -/
def rowsRead (sigma s0 ks n : Nat) : List (Nat × Nat) :=
  (List.range (sigma * (ks - s0))).flatMap fun j => (List.range (n + 1)).map fun r => (sigma * s0 + j, r)

/-- The checks of R281 at issue: cause and address, or the class of the operands. -/
def State.matCheck (s : State) (c t : Nat) (o : MatOp) (sa sb s0 : Nat) : Except (Nat × Nat) MatCls :=
  let k := s.core c
  let task := k.task t
  let ks := shapeKS o.mshape
  let past := fun (m : MatSrc) (sigma : Nat) => match m with
    | .tile n => decide (min task.nt 32 < n + sigma * ks)
    | .map _ _ => false
  let ra := rowsRead sa s0 ks (shapeMV o.mshape)
  let rb := rowsRead sb s0 ks (shapeNV o.mshape)
  let bad := fun (m : MatSrc) (l : List (Nat × Nat)) => l.find? fun q => m.badRow task (m.rowAt c q.1 q.2)
  let stale := fun (m : MatSrc) (l : List (Nat × Nat)) => l.any fun q => !(s.matRow c t m q.1 q.2).2.2
  let tag := fun (m : MatSrc) (q : Nat × Nat) => (s.matRow c t m q.1 q.2).2.1
  let scaleA := sa == 2 && !o.sp
  let scaleB := sb == 2 && !o.sp
  let va := ra.filter fun q => sa == 1 || q.1 % 2 == 0
  let vb := rb.filter fun q => sb == 1 || o.sp || q.1 % 2 == 0
  let tags := va.map (tag o.a) ++ vb.map (tag o.b)
  let scale := fun (m : MatSrc) (q : Nat × Nat) => tag m (q.1 + 1, q.2) == (if tag m q == 8 then 9#4 else 7#4)
  let one := fun (m : MatSrc) (l : List (Nat × Nat)) (sc : Bool) => l.all fun q =>
    scaledTag (tag m q) == sc && (!sc || scale m q)
  if past o.a sa || past o.b sb then .error (0x03, 0)
  else if s0 = ks then .ok .f16
  else match (bad o.a ra).or (bad o.b rb) with
    | some _ => .error (0x05, 0)
    | none =>
      if (s.launch task.launch).gentrap && (stale o.a ra || stale o.b rb ||
          o.accs.any fun a => (List.range (shapeMV o.mshape + 1)).any fun r => !(k.accRow task a r).2) then .error (0x04, 0)
      else match tagClass (tags.headD 0) with
        | none => .error (0x06, 0)
        | some cls =>
          if tags.all (fun x => tagClass x == some cls) && cls.allows o (tags.contains 5) &&
              one o.a va scaleA && one o.b vb scaleB then .ok cls
          else .error (0x06, 0)

/-- The signers of an operation go on after their instruction (R280), in the bands that stand as they did. -/
def State.releaseSigners (s : State) (c t : Nat) (r : MatRun) : State :=
  r.signed.foldl (fun s p =>
    match ((s.core c).task t).slots[p.1]? with
    | none => s
    | some b =>
      let now := ((s.core c).band b).keep
      let was := r.keeps.getLsbD p.1
      if was && !now then s else s.passBlock c b p.2 1 (now && !was)) s

/-- Flights that hold the signatures of an operation. -/
def Core.sigsOf (k : Core) (id : Nat) : List (Nat × Flight) :=
  k.flights.filter fun f => match f.2.kind with
    | .sig _ o => o == some id
    | _ => false

/-- The signers' flag counts fall. -/
def State.dropSigs (s : State) (c id : Nat) : State :=
  ((s.core c).sigsOf id).foldl (fun s f => (s.dropFlag c f.2.slot f.2.flag).dropFlight c f.1) s

/-- Status words of an operation's accumulators. -/
def State.setStatus (s : State) (c t : Nat) (o : MatOp) (f : Word → Word) : State :=
  s.updCore c fun k =>
    let task := k.task t
    o.accs.foldl (fun k a => k.putStatus task a (f (k.accStatus task a).1)) k

/-- A fully signed operation issues (R282, R284): its starting step, the accumulator rows, the signers' ties. -/
def State.issueMatrix (s : State) (c t g : Nat) (r : GReg) (o : MatOp) (cls : MatCls) (sa sb s0 : Nat) : State :=
  let k := s.core c
  let task := k.task t
  let ks := shapeKS o.mshape
  let id := k.nextOp
  let keeps := (List.range 16).foldl (fun (m : BitVec 16) i => match task.slots[i]? with
    | some b => if (k.band b).keep then m ||| BitVec.ofNat 16 (2 ^ i) else m
    | none => m) 0
  let run : MatRun := ⟨g, o, cls, sa, sb, r.signed, keeps, s0, ks, [], [], flNone, false, s0 == ks⟩
  let s := s.launchFlight c ⟨task.slots.headD 0, task.gen, 0, none, .mat run⟩
  let s := s.updCore c fun k => { k with flights := mapAll k.flights fun _ f =>
    match f.kind with
    | .sig g' none => if g' = g && k.taskOfBand f.slot = t then { f with kind := .sig g (some id) } else f
    | _ => f }
  let s := s.updTask c t fun x => { x with g := mapUpd x.g g fun y => { y with op := none, signed := [] } }
  let s := if s0 = 0 then s.setStatus c t o fun w => statusWord (stickyOf w) (statStop w) 0 else s
  if s0 = ks then s.releaseSigners c t run else s

/-- MATRIX_OPERATION_ISSUE (R282). -/
def execMatrixOperationIssue (c t g : Nat) (s : State) : Host.Outcome State Fault Refusal :=
  .next (
    let k := s.core c
    let task := k.task t
    let r := mapGetD task.g g GReg.fresh
    match r.op with
    | none => s
    | some (_, o) =>
      let all := (List.range 16).all fun i => !r.set.getLsbD i || k.bandLive t i &&& ~~~(mapGetD r.signed i 0) == 0
      let ks := shapeKS o.mshape
      let st := (k.accStatus task o.acc).1
      let s0 := if statStop st then min (statProg st) ks else 0
      let sa := s.sigma c t o.a o.sp s0 ks
      let sb := s.sigma c t o.b o.sp s0 ks
      if !all || k.matBlocked c t (o.set c sa sb s0) then s else
      match s.matCheck c t o sa sb s0 with
      | .error e => s.closeMatrix c t g e.1 0 (BitVec.ofNat 64 e.2)
      | .ok cls => s.issueMatrix c t g r o cls sa sb s0)

/-- The rows of a completed operation written (R267, R275). -/
def Core.writeRows (k : Core) (t : Task) (a : Nat) (rows : List (BitVec 2048)) : Core :=
  rows.zipIdx.foldl (fun k x => k.putAccRow t a x.2 x.1) k

/-- An operation completes, stopped or at its end (R284, R285): rows, status, the signers' flags and flag counts. -/
def State.completeMatrix (s : State) (c t id : Nat) (r : MatRun) (stop : Bool) : State :=
  let task := (s.core c).task t
  let s := s.updCore c fun k =>
    let k := k.writeRows task r.op.acc r.rows
    if r.op.pair then k.writeRows task (r.op.acc + 1) r.rows2 else k
  let s := s.setStatus c t r.op fun w => statusWord (stickyOf w ||| stickyFl r.fl r.sat) stop r.step
  let fl := r.fl &&& (flNV ||| flOF ||| flUF ||| flNX)
  let s := r.signed.foldl (fun s p => match task.slots[p.1]? with
    | some b => if fl = flNone then s else s.raise c b fl
    | none => s) s
  (s.dropSigs c id).dropFlight c id

/-- Whether the unit serves an operation now: no operation of the core that issued earlier has a step left (R283). -/
def Core.unitTurn (k : Core) (id : Nat) : Bool :=
  !k.flights.any fun f => f.1 < id && match f.2.kind with
    | .mat r => decide (r.step < r.last)
    | _ => false

/-- Stop an operation between two steps (R285): it completes with the steps done so far, and its signers stand free at
their instruction. -/
def State.stopMatrix (s : State) (c t id : Nat) (r : MatRun) : State :=
  (s.completeMatrix c t id r true) |> fun s => r.signed.foldl (fun (s : State) p =>
    match ((s.core c).task t).slots[p.1]? with
    | none => s
    | some b =>
      let frozen := ((s.core c).band b).keep && !r.keeps.getLsbD p.1
      let s := s.updStood c b frozen p.2 fun _ y => if y.mark = .held then { y with mark := .none } else y
      s.updCore c fun k => { k with table := mapAll k.table fun _ e =>
        if e.slot = b && e.frozen == frozen && e.lanes &&& p.2 != 0 && e.wait == Wait.signer r.g then { e with wait := .ready } else e }) s

/-- An operand read of a step met an uncorrectable error: the operation stops before the step and its signers take trap
0x0C (R285, R323). -/
def State.matError (s : State) (c t id : Nat) (r : MatRun) : State :=
  r.signed.foldl (fun s p => match ((s.core c).task t).slots[p.1]? with
    | some b => s.trapLanes c b p.2 0x0C 1 0
    | none => s) (s.stopMatrix c t id r)

/-- MATRIX_K_STEP (R275, R285). The signers are released as the final step starts (R280); an error is met before. -/
def execMatrixKStep (c id : Nat) (err : Bool) (s : State) : Host.Outcome State Fault Refusal :=
  .next (match mapGet (s.core c).flights id with
    | some f => (match f.kind with
      | .mat r =>
        let t := (s.core c).taskOfBand f.slot
        if r.last ≤ r.step || !(s.core c).unitTurn id then s
        else if err then s.matError c t id r
        else
          let final := decide (r.step + 1 = r.last)
          let s := if final && !r.released then s.releaseSigners c t r else s
          let r' := { s.kStep c t r with released := r.released || final }
          let s := s.updCore c fun k => { k with flights := mapUpd k.flights id fun g => { g with kind := .mat r' } }
          let s := if final then s else s.setStatus c t r.op fun w => statusWord (stickyOf w) (statStop w) r'.step
          s.countAt c 4 1
      | _ => s)
    | none => s)

/-- MATRIX_OPERATION_COMPLETE (R284). -/
def execMatrixOperationComplete (c id : Nat) (s : State) : Host.Outcome State Fault Refusal :=
  .next (match mapGet (s.core c).flights id with
    | some f => (match f.kind with
      | .mat r => if r.step < r.last then s else s.completeMatrix c ((s.core c).taskOfBand f.slot) id r false
      | _ => s)
    | none => s)

/-! ## Tile and accumulator instructions (R283, R288 to R292) -/

/-- A transfer between rows of the core and memory or scratchpad: its rows' addresses. -/
structure Xfer where
  op : XferOp
  reg : Nat
  scratch : Bool
  addr : BitVec 64
  pitch : Nat
  rows : Nat
  fmt : BitVec 4

/-- Bytes of a row. -/
def Xfer.rowBytes (q : Xfer) : Nat :=
  match q.op with
  | .tld | .tst => 64
  | .ald | .ast => 256

def Xfer.stores (q : Xfer) : Bool := q.op == .tst || q.op == .ast

def Xfer.rowVa (q : Xfer) (r : Nat) : BitVec 64 := q.addr + BitVec.ofNat 64 (r * q.pitch)

/-- Byte of the task's scratchpad at which a row stands. -/
def Xfer.rowSp (q : Xfer) (r : Nat) : Nat := q.addr.toNat + r * q.pitch

/-- The rows cut into accesses of 64 bytes: row, byte of the row, address. -/
def Xfer.parts (q : Xfer) : List (Nat × Nat × BitVec 64) :=
  (List.range q.rows).flatMap fun r => (List.range (q.rowBytes / 64)).map fun i =>
    (r, 64 * i, q.rowVa r + BitVec.ofNat 64 (64 * i))

/-- Granules of the task's scratchpad that a transfer uses. -/
def Xfer.granules (q : Xfer) : List Nat := if q.scratch then (List.range q.rows).map fun r => q.rowSp r / 64 else []

/-- The access as the memory order sees it (R159, R283). -/
def Xfer.lacc (p : Nat × Nat × BitVec 64) (t : Trans) : LAcc := ⟨0, p.2.2, 0, 0, .nowhere, .nowhere, some t, none, none, 0, flNone⟩

/-- Read 64 bytes of a page. -/
def State.load64 (s : State) (c pd : Nat) (t : Trans) : State × Nat × List Byte :=
  (List.range 8).foldl (fun r i =>
    match r with
    | (s, 0, bs) => (match s.loadBytes c pd { t with off := t.off + 8 * i } 8 false with
      | (s, e, b) => (s, e, bs ++ b))
    | r => r) (s, 0, [])

/-- Whether a row of the source of a transfer passes its generation check. -/
def Xfer.genOk (q : Xfer) (k : Core) (task : Task) (r : Nat) : Bool :=
  match q.op with
  | .tld => !q.scratch || (readRow task.gen (mapGet k.scratch ((task.spBase + q.rowSp r) / 64))).2.2
  | .tst => (k.tileRow task q.reg r).2.2
  | .ald => true
  | .ast => (k.accRow task q.reg r).2

/-- Move the rows between a tile and the task's scratchpad (R289). -/
def Xfer.moveHere (q : Xfer) (k : Core) (task : Task) : Core :=
  (List.range q.rows).foldl (fun k' r =>
    let g := (task.spBase + q.rowSp r) / 64
    match q.op with
    | .tld =>
      let x := readRow task.gen (mapGet k.scratch g)
      k'.putTileRow task q.reg r (if q.fmt = 0 then x.2.1 else q.fmt) x.1
    | .tst =>
      let x := k.tileRow task q.reg r
      { k' with scratch := mapSet k'.scratch g ⟨task.gen, x.2.1, x.1⟩ }
    | .ald | .ast => k') k

/-- Read a row from memory into its tile or accumulator; a row that meets a machine check is not written (R323). -/
def Xfer.loadRow (q : Xfer) (c pd : Nat) (task : Task) (s : State) (r : Nat) (ts : List (Nat × Nat × BitVec 64 × Trans)) :
    State × Nat :=
  let x := (ts.filter fun p => p.1 == r).foldl (fun (x : State × Nat × List Byte) p =>
    match x with
    | (s, 0, bs) => (match s.load64 c pd p.2.2.2 with
      | (s, e, b) => (s, e, bs ++ b))
    | x => x) (s, 0, [])
  match x with
  | (s, 0, bs) =>
    let fmt := match ts.find? fun p => p.1 == r with
      | some p => if q.fmt = 0 then rawTag p.2.2.2 p.2.2.1 else q.fmt
      | none => q.fmt
    (s.updCore c fun k => match q.op with
      | .tld => k.putTileRow task q.reg r fmt (BitVec.ofNat 512 (ofBytes bs))
      | .ald => k.putAccRow task q.reg r (BitVec.ofNat 2048 (ofBytes bs))
      | .tst | .ast => k, 0)
  | (s, e, _) => (s, e)

/-- Write a row to memory. -/
def Xfer.storeRow (q : Xfer) (c slot pd : Nat) (lanes : Word) (k : Core) (task : Task) (s : State) (r : Nat)
    (ts : List (Nat × Nat × BitVec 64 × Trans)) : State :=
  let bytes := match q.op with
    | .tst => bytesOf 64 (k.tileRow task q.reg r).1.toNat
    | .ald | .ast | .tld => bytesOf 256 (k.accRow task q.reg r).1.toNat
  (ts.filter fun p => p.1 == r).foldl (fun s p => s.storeBytes c slot lanes pd p.2.2.2 (sliceN bytes p.2.1 64)) s

/-- Move every row of a translated transfer: the state, and the first machine check. -/
def Xfer.move (q : Xfer) (x : Ctx) (s : State) (ts : List (Nat × Nat × BitVec 64 × Trans)) : State × Nat :=
  let k := s.core x.core
  if q.scratch then (s.updCore x.core fun k => q.moveHere k x.task, 0)
  else if q.stores then
    ((List.range q.rows).foldl (fun s r => q.storeRow x.core x.slot x.pd x.lanes k x.task s r ts) s, 0)
  else (List.range q.rows).foldl (fun (a : State × Nat) r =>
    let b := q.loadRow x.core x.pd x.task a.1 r ts
    (b.1, if a.2 = 0 then b.2 else a.2)) (s, 0)

/-- The address of a row that is misaligned or passes the allocation. -/
def Xfer.badRow (q : Xfer) (task : Task) : Bool :=
  q.addr.toNat % 64 != 0 || q.pitch % 64 != 0 || (q.scratch && (List.range q.rows).any fun r => task.spBytes < q.rowSp r + 64)

/-- Perform a transfer: the data moves, and the transfer stays in flight with its flag until its completion (R283). -/
def Xfer.perform (q : Xfer) (x : Ctx) (s : State) (ts : List (Nat × Nat × BitVec 64 × Trans)) : State :=
  let pd := x.pd
  let acc := ts.map fun p => Xfer.lacc (p.1, p.2.1, p.2.2.1) p.2.2.2
  let s := s.sampleOlder x.core x.slot pd x.k.nextOp acc 64
  let s := if q.scratch && q.stores then s.spSampleOlder x.core x.slot ((List.range q.rows).map fun r => (q.rowSp r, 64)) else s
  let r := q.move x s ts
  let s := if q.op == .ald then r.1.updCore x.core fun k => k.putStatus x.task q.reg 0 else r.1
  s.start x x.lanes x.flagB (.xfer q.op q.reg q.granules r.2)

def Xfer.set (q : Xfer) : MatSet := (FKind.xfer q.op q.reg q.granules 0).matSet 0

/-- `tld`, `tst`, `ald`, `ast` (R283, R289, R291). -/
def transfer (x : Ctx) (t : State) (q : Xfer) : Res :=
  if x.k.matBlocked x.core x.t q.set then .hold
  else if q.badRow x.task then .trap 0x05 0 q.addr
  else if x.l.gentrap && (List.range q.rows).any fun r => !q.genOk x.k x.task r then .trap 0x04 0 0
  else if q.scratch then .ok (q.perform x t [])
  else
    let access := if q.stores then accUStore else accULoad
    let look := q.parts.map fun p => (p, t.lookup x.core x.pd p.2.2 access)
    if look.any fun r => match r.2 with | some (.ok _) => false | _ => true then
      .walk ((look.filter fun r => match r.2 with | some (.ok _) => false | _ => true).map fun r => (32, r.1.2.2)) access
    else
      let ts := look.filterMap fun r => match r.2 with
        | some (.ok tr) => some (r.1.1, r.1.2.1, r.1.2.2, tr)
        | _ => none
      if ts.any fun p => p.2.2.2.fmt == 9 then .trap 0x06 0 q.addr
      else if x.k.relMeets x.slot x.lanes (ts.map fun p => Xfer.lacc (p.1, p.2.1, p.2.2.1) p.2.2.2) 64 then .hold
      else .ok (q.perform x t ts)

/-- A tile transfer with its layout word (R289). -/
def Ctx.tileXfer (x : Ctx) (op : XferOp) (tile : BitVec 5) (y z : BitVec 6) : Xfer :=
  let w := (x.s z).toNat
  let sp := bitN w 31
  ⟨op, tile.toNat, sp, if sp then (x.s y).setWidth 64 else x.s64 y, w % 2 ^ 20, fieldN w 26 21 + 1, BitVec.ofNat 4 (fieldN w 30 27)⟩

def Ctx.accXfer (x : Ctx) (op : XferOp) (a : BitVec 5) (y : BitVec 6) : Xfer := ⟨op, a.toNat, false, x.s64 y, 256, 64, 0⟩

/-- Sources of a tile transfer: S[Y+1] is ignored when the address is a scratchpad's. -/
def tileSrcs (y z : BitVec 6) : List Src := [.s z.toNat, .s y.toNat]

/-- Under `.gentrap`, S[Y+1] is checked when it is part of the address. -/
def highStale (x : Ctx) (y z : BitVec 6) : Bool := x.l.gentrap && !(x.s z).msb && !(x.readS (y.toNat + 1)).2

/-- TLD (R289). -/
def execTld (d : BitVec 2) (t : BitVec 5) (y z : BitVec 6) (s : State) : Host.Outcome State Fault Refusal :=
  issue (.tld d t y z) { shapeS d (tileSrcs y z) with ts := [t.toNat], mem := true } (fun x s =>
    if highStale x y z then .trap 0x04 0 0 else transfer x s (x.tileXfer .tld t y z)) s

/-- TST (R289). -/
def execTst (d : BitVec 2) (t : BitVec 5) (y z : BitVec 6) (s : State) : Host.Outcome State Fault Refusal :=
  issue (.tst d t y z) { shapeS d (tileSrcs y z) with ts := [t.toNat], mem := true } (fun x s =>
    if highStale x y z then .trap 0x04 0 0 else transfer x s (x.tileXfer .tst t y z)) s

/-- ALD (R291). -/
def execAld (d : BitVec 2) (a : BitVec 5) (y : BitVec 6) (s : State) : Host.Outcome State Fault Refusal :=
  issue (.ald d a y) { shapeS d (sSrc64 y) with as := [a.toNat], mem := true } (fun x s => transfer x s (x.accXfer .ald a y)) s

/-- AST (R291). -/
def execAst (d : BitVec 2) (a : BitVec 5) (y : BitVec 6) (s : State) : Host.Outcome State Fault Refusal :=
  issue (.ast d a y) { shapeS d (sSrc64 y) with as := [a.toNat], mem := true } (fun x s => transfer x s (x.accXfer .ast a y)) s

/-- TMOV (R290). -/
def execTmov (d : BitVec 2) (t t2 : BitVec 5) (s : State) : Host.Outcome State Fault Refusal :=
  issue (.tmov d t t2) { shapeS d [] with ts := [t.toNat, t2.toNat] } (fun x s =>
    let rows := (List.range 64).map (x.k.tileRow x.task t2.toNat)
    if x.k.matBlocked x.core x.t { rt := [t2.toNat], wt := [t.toNat] } then .hold
    else if x.l.gentrap && rows.any (!·.2.2) then .trap 0x04 0 0
    else .ok (s.updCore x.core fun k =>
      rows.zipIdx.foldl (fun k r => k.putTileRow x.task t.toNat r.2 r.1.2.1 r.1.1) k)) s

/-- TZERO (R290). -/
def execTzero (d : BitVec 2) (t : BitVec 5) (s : State) : Host.Outcome State Fault Refusal :=
  issue (.tzero d t) { shapeS d [] with ts := [t.toNat] } (fun x s =>
    if x.k.matBlocked x.core x.t { wt := [t.toNat] } then .hold
    else .ok (s.updCore x.core fun k => (List.range 64).foldl (fun k r => k.putTileRow x.task t.toNat r 0 0) k)) s

/-- AMOV (R290). -/
def execAmov (d : BitVec 2) (a a2 : BitVec 5) (s : State) : Host.Outcome State Fault Refusal :=
  issue (.amov d a a2) { shapeS d [] with as := [a.toNat, a2.toNat] } (fun x s =>
    let rows := (List.range 64).map (x.k.accRow x.task a2.toNat)
    let st := x.k.accStatus x.task a2.toNat
    if x.k.matBlocked x.core x.t { ra := [a2.toNat], wa := [a.toNat] } then .hold
    else if x.l.gentrap && (!st.2 || rows.any (!·.2)) then .trap 0x04 0 0
    else .ok (s.updCore x.core fun k =>
      (rows.zipIdx.foldl (fun k r => k.putAccRow x.task a.toNat r.2 r.1.1) k).putStatus x.task a.toNat
        (statusWord (stickyOf st.1) false 0))) s

/-- AZERO (R290). -/
def execAzero (d : BitVec 2) (a : BitVec 5) (s : State) : Host.Outcome State Fault Refusal :=
  issue (.azero d a) { shapeS d [] with as := [a.toNat] } (fun x s =>
    if x.k.matBlocked x.core x.t { wa := [a.toNat] } then .hold
    else .ok (s.updCore x.core fun k =>
      ((List.range 64).foldl (fun k r => k.putAccRow x.task a.toNat r 0) k).putStatus x.task a.toNat 0)) s

/-- MPROG (R292): the status word as it stands, GEN its tag. -/
def execMprog (d : BitVec 2) (sn : BitVec 6) (a : BitVec 5) (s : State) : Host.Outcome State Fault Refusal :=
  issue (.mprog d sn a) { shapeS d [] with as := [a.toNat] } (fun x s =>
    let st := x.k.accStatus x.task a.toNat
    if x.l.gentrap && !st.2 then .trap 0x04 0 0
    else s.done x (x.toS sn (if (mapGet x.k.accStat (x.task.accAt a.toNat)).any (·.gen == x.gen) then
      BitVec.ofNat 32 (65536 * x.gen.toNat) ||| st.1 else 0))) s

/-- MATRIX_TRANSFER_COMPLETE (R283). -/
def execMatrixTransferComplete (c id : Nat) (s : State) : Host.Outcome State Fault Refusal :=
  .next (match mapGet (s.core c).flights id with
    | some f => (match f.kind with
      | .xfer _ _ _ err =>
        let s := (s.dropFlight c id).dropFlag c f.slot f.flag
        if err = 0 then s else s.asyncTrap c f.slot f.lanes 0x0C err 0
      | _ => s)
    | none => s)

end Sys2Proof.Machine
end

