-- ==== Sys2Proof/Machine/Records.lean ====
section
/-! DEFINITION. The records of `svc` and `rsc` (R314 to R319): their layout, what a save reads and what a restore
installs. -/

namespace Sys2Proof.Machine

/-! ## Layout (R314, R315) -/

/-- The place of a record: the core, the band slot that issues, its task. -/
structure RecAt where
  c : Nat
  slot : Nat
  t : Nat

def State.recBand (s : State) (q : RecAt) : Band := (s.core q.c).band q.slot
def State.recTask (s : State) (q : RecAt) : Task := (s.core q.c).task q.t

/-- Sizes of a record's parts: bitmap, tags, data, and the count of its header. -/
structure RecShape where
  bitmap : Nat
  tags : Nat
  data : Nat
  count : Nat
  deriving DecidableEq, Repr

def Task.recShape (t : Task) (c : Nat) : RecShape :=
  match c with
  | 0 => ⟨4 * t.nv, 0, 128 * t.nv, t.nv⟩
  | 1 => ⟨8, 0, 256, 64⟩
  | 2 => ⟨32, 0, 32, 8⟩
  | 3 => ⟨8 * t.nt, 32 * t.nt, 4096 * t.nt, t.nt⟩
  | 4 => ⟨16 * t.na, 0, 16384 * t.na + 4 * t.na, t.na⟩
  | 5 => ⟨(64 * t.spGrans + 7) / 8, (64 * t.spGrans + 1) / 2, t.spBytes, 64 * t.spGrans⟩
  | 6 => ⟨0, 0, 4224, 1⟩
  | _ => ⟨0, 0, 4480, 1⟩

def pad64 (n : Nat) : Nat := (n + 63) / 64 * 64

def RecShape.size (r : RecShape) : Nat := 64 + pad64 r.bitmap + pad64 r.tags + pad64 r.data

/-- Whether a class is held per band. -/
def bandClass (c : Nat) : Bool := c < 3 || c == 6

/-- The header's band byte. -/
def recBandByte (c index : Nat) : Nat := if bandClass c then index else 0xFF

/-- Bits as bytes, bit 0 lowest. -/
def bitBytes (n : Nat) (l : List Bool) : List Byte := bytesOf n (packElems 1 (l.map fun b => if b then 1 else 0))

/-- The record of parts already in bytes. -/
def recBytes (c index : Nat) (gen : BitVec 16) (r : RecShape) (bitmap tags data : List Byte) : List Byte :=
  (bytesOf 1 c ++ bytesOf 1 (recBandByte c index) ++ bytesOf 2 gen.toNat ++ bytesOf 4 r.data ++ bytesOf 4 r.bitmap ++
    bytesOf 4 r.tags ++ bytesOf 4 r.count ++ zeroBytes 44) ++ padTo 64 bitmap ++ padTo 64 tags ++ padTo 64 data

/-! ## Granules of the tagged classes -/

/-- A granule as saved: whether its tag is the task's generation, its format tag, its data (0 when it is not). -/
structure Gran where
  ok : Bool
  fmt : Nat
  data : Nat

def granOf {α : Type} (gen : BitVec 16) (f : α → Nat) (x : Option (Tagged α)) : Gran :=
  match x with
  | some y => if y.gen = gen then ⟨true, 0, f y.val⟩ else ⟨false, 0, 0⟩
  | none => ⟨false, 0, 0⟩

def rowGran (gen : BitVec 16) (x : Option Row) : Gran :=
  match x with
  | some y => if y.gen = gen then ⟨true, y.fmt.toNat, y.data.toNat⟩ else ⟨false, 0, 0⟩
  | none => ⟨false, 0, 0⟩

/-- Keys of the vector, uniform and predicate registers of a band, in record order. -/
def Band.vKeys (b : Band) (slot nv : Nat) : List Nat :=
  (List.range nv).flatMap fun r => (List.range 32).map fun l => b.vKey slot l r
def sKeys (slot : Nat) : List Nat := (List.range 64).map (64 * slot + ·)
def pKeys (slot : Nat) : List (Option Nat) :=
  (List.range 8).flatMap fun p => (List.range 32).map fun l => if p = 0 then none else some (8 * (32 * slot + l) + p)

/-- Keys of a task's tile rows, accumulator rows, status words and scratchpad granules. -/
def Task.tileKeys (t : Task) : List Nat := (List.range t.nt).flatMap fun i => (List.range 64).map (t.tileKey i)
def Task.accKeys (t : Task) : List Nat := (List.range t.na).flatMap fun a => (List.range 64).map (t.accKey a)
def Task.statKeys (t : Task) : List Nat := (List.range t.na).map t.accAt
def Task.spKeys (t : Task) : List Nat := (List.range (64 * t.spGrans)).map (t.spBase / 64 + ·)

/-- The granules of classes 0 to 3 and 5, and their bytes each (0 for one bit). -/
def State.grans (s : State) (q : RecAt) (c : Nat) : List Gran × Nat :=
  let k := s.core q.c
  let b := s.recBand q
  let t := s.recTask q
  match c with
  | 0 => ((b.vKeys q.slot t.nv).map fun i => granOf t.gen BitVec.toNat (mapGet k.vrf i), 4)
  | 1 => ((sKeys q.slot).map fun i => granOf t.gen BitVec.toNat (mapGet k.srf i), 4)
  | 2 => ((pKeys q.slot).map fun i => match i with
      | none => ⟨false, 0, 0⟩
      | some i => granOf t.gen (fun x => if x then 1 else 0) (mapGet k.prf i), 0)
  | 3 => (t.tileKeys.map fun i => rowGran t.gen (mapGet k.tiles i), 64)
  | _ => (t.spKeys.map fun i => rowGran t.gen (mapGet k.scratch i), 64)

/-- The bytes of a record of a tagged class but the accumulators. -/
def State.granRecord (s : State) (q : RecAt) (c : Nat) : List Byte :=
  let t := s.recTask q
  let r := t.recShape c
  let (g, n) := s.grans q c
  recBytes c (s.recBand q).index t.gen r (bitBytes r.bitmap (g.map (·.ok)))
    (if r.tags = 0 then [] else bytesOf r.tags (packElems 4 (g.map (·.fmt))))
    (if n = 0 then bytesOf r.data (packElems 1 (g.map (·.data))) else g.flatMap fun x => bytesOf n x.data)

/-- The record of the accumulators: rows, then status words with GEN. -/
def State.accRecord (s : State) (q : RecAt) : List Byte :=
  let k := s.core q.c
  let t := s.recTask q
  let r := t.recShape 4
  let rows := t.accKeys.map fun i => granOf t.gen BitVec.toNat (mapGet k.accs i)
  let st := t.statKeys.map fun i => granOf t.gen (fun w => w.toNat + 65536 * t.gen.toNat) (mapGet k.accStat i)
  let bits := (List.range t.na).flatMap fun a => (sliceN rows (64 * a) 64).map (·.ok) ++ [((st[a]?).map (·.ok)).getD false] ++
    List.replicate 63 false
  recBytes 4 (s.recBand q).index t.gen r (bitBytes r.bitmap bits) []
    ((rows.flatMap fun x => bytesOf 256 x.data) ++ st.flatMap fun x => bytesOf 4 x.data)

/-! ## Band control (R316) -/

def Hold.code : Hold → Nat
  | .none => 0
  | .join => 1
  | .vcall => 2

def holdOf : Nat → Hold
  | 1 => .join
  | 2 => .vcall
  | _ => .none

/-- STATE of R70. -/
def Wait.state : Wait → Nat
  | .ready => 0
  | .fetch | .stalled | .translate _ | .walk _ _ | .member | .signer _ | .op _ => 1
  | .bar _ _ | .barw _ | .again _ | .phase => 2
  | .jwait _ => 3
  | .parked => 4

def Wait.jidx : Wait → Nat
  | .jwait j => j
  | .ready | .fetch | .stalled | .translate _ | .walk _ _ | .member | .signer _ | .op _ | .bar _ _ | .barw _ | .again _
  | .phase | .parked => 0

def Thread.bytes (t : Thread) : List Byte :=
  bytesOf 8 t.pc.toNat ++ bytesOf 8 t.base.toNat ++
    ((List.range 8).flatMap fun d => bytesOf 8 (mapGetD t.stack (d + 1) 0).toNat) ++ bytesOf 2 t.depth ++
    bytesOf 1 t.hold.code ++ bytesOf 1 ((if t.exited then 1 else 0) + (if t.parked then 2 else 0)) ++ zeroBytes 12

def threadOf (l : List Byte) : Thread :=
  let st := numAt l 83 1
  { Thread.fresh with
    pc := BitVec.ofNat 64 (numAt l 0 8), base := BitVec.ofNat 64 (numAt l 8 8)
    stack := ((List.range 8).filterMap fun d =>
      let v := BitVec.ofNat 64 (numAt l (16 + 8 * d) 8)
      if v = 0 then none else some (d + 1, v))
    depth := numAt l 80 2, hold := holdOf (numAt l 82 1), exited := bitN st 0, parked := bitN st 1 }

/-- The barrier waits of a band's frozen sub-bands on a group: at `bar`, and at `barw`. -/
def heldAt (es : List Entry) (gid : Nat) : Nat :=
  (if es.any fun e => match e.wait with | .bar g _ => g == gid | _ => false then 1 else 0) +
    (if es.any fun e => match e.wait with | .barw g => g == gid | _ => false then 2 else 0)

/-- Words as bytes. -/
def wordBytes (l : List Word) : List Byte := l.flatMap fun w => bytesOf 4 w.toNat

/-- The record's data: the band as its sub-bands stand frozen. -/
def State.bandData (s : State) (q : RecAt) : List Byte :=
  let k := s.core q.c
  let b := s.recBand q
  let t := s.recTask q
  let es := ((k.entriesOf q.slot).map k.entry).filter (·.frozen)
  let gids := 0 :: t.groups
  ((List.range 32).flatMap fun l => (b.stood true l).bytes) ++
    wordBytes ((List.range 16).map fun j => mapGetD b.j j 0) ++ wordBytes ((List.range 16).map fun j => mapGetD b.arr j 0) ++
    (((List.range 32).flatMap fun i => match es[i]? with
      | none => zeroBytes 16
      | some e => bytesOf 4 e.lanes.toNat ++ bytesOf 4 e.defer.toNat ++ bytesOf 1 e.wait.state ++ bytesOf 1 e.wait.jidx ++
          bytesOf 2 e.age.toNat ++ zeroBytes 4)) ++
    wordBytes ((List.range 4).map fun i => mapGetD b.lc i 0) ++ wordBytes ((List.range 4).map fun i => mapGetD b.li i 0) ++
    ((List.range 16).flatMap fun i =>
      let r := mapGetD b.k i KReg.fresh
      bytesOf 8 (r.base.signExtend 64).toNat ++ wordBytes [r.s0, r.s1, r.s2, r.s3]) ++
    wordBytes [b.rm.setWidth 32 ||| (if (s.launch t.launch).ftz then 8 else 0), b.fflags.setWidth 32, b.mshape] ++ zeroBytes 4 ++
    ((List.range 5).flatMap fun i => match gids[i]? with
      | none => zeroBytes 16
      | some g =>
        let x := mapGetD b.bars g BarState.fresh
        bytesOf 4 g ++ bytesOf 4 x.part.toNat ++ bytesOf 4 x.last ++ bytesOf 4 (heldAt es g + if x.ever then 4 else 0))

/-! ## Task control (R317) -/

/-- The groups' ids as the record holds them. -/
def Task.groupIds (t : Task) : List Nat := (List.range 4).map fun i => t.groups.getD i 0

/-- Pipe index of each band. -/
def Task.pipesWord (t : Task) : Nat := packElems 2 (t.slots.map pipeOf)

def Task.taskData (t : Task) : List Byte :=
  bytesOf 4 t.number ++ bytesOf 1 t.variant ++ bytesOf 1 t.nbands ++ bytesOf 1 t.nv ++ bytesOf 1 t.nt ++ bytesOf 1 t.na ++
    zeroBytes 1 ++ bytesOf 2 t.spGrans ++ bytesOf 2 t.gen.toNat ++ zeroBytes 2 ++ (t.groupIds.flatMap fun g => bytesOf 1 g) ++
    bytesOf 8 t.tlbase.toNat ++ bytesOf 4 t.tlstride.toNat ++
    ((List.range 8).flatMap fun i =>
      let g := mapGetD t.g i GReg.fresh
      bytesOf 4 (g.set.toNat + if g.usable then 2 ^ 31 else 0)) ++
    bytesOf 8 t.done.toNat ++ bytesOf 8 t.fault.toNat ++
    ((List.range 5).flatMap fun i => bytesOf 4 (mapGetD t.inst i 0)) ++ bytesOf 4 t.pipesWord ++ zeroBytes 24 ++
    ((List.range 16).flatMap fun i =>
      let r := (mapGetD t.queues i Queue.fresh).ret
      bytesOf 4 r.length ++ zeroBytes 12 ++ wordBytes ((List.range 64).map fun j => r.getD j 0))

/-- The record of a class. -/
def State.record (s : State) (q : RecAt) (c : Nat) : List Byte :=
  let t := s.recTask q
  match c with
  | 4 => s.accRecord q
  | 6 => recBytes 6 (s.recBand q).index t.gen (t.recShape 6) [] [] (s.bandData q)
  | 7 => recBytes 7 0 t.gen (t.recShape 7) [] [] t.taskData
  | c => s.granRecord q c

/-! ## Quiescence (R318) -/

/-- Whether every completion flag of a band is clear. -/
def Band.quiet (b : Band) : Bool := b.flags.all fun f => f.2 == 0

/-- Whether every matrix-class instruction of a task that has issued has completed. -/
def Core.matQuiet (k : Core) (t : Nat) : Bool :=
  !k.flights.any fun f => k.taskOfBand f.2.slot == t && match f.2.kind with
    | .xfer _ _ _ _ | .mat _ => true
    | _ => false

def Task.tagsQuiet (t : Task) : Bool := t.busy.all fun b => b.2 == 0

def Task.queuesQuiet (t : Task) : Bool := t.queues.all fun q => q.2.cmds.isEmpty && q.2.cur.isNone

/-- Whether a multicast or collective that has started writes into a task (R226, R227, R328). -/
def State.inbound (s : State) (c t : Nat) : Bool :=
  let me := (s.core c).task t
  (s.tasksOf me.launch).any fun p =>
    let task := (s.core p.1).task p.2
    task.number != me.number && task.queues.any fun q => match q.2.cur with
      | some r => (r.cmd.head.op == 4 || r.cmd.head.op == 5) && !r.done && r.fault.isNone &&
          ((s.launch me.launch).group r.cmd.group).members.contains me.number
      | none => false

def State.quiescent (s : State) (q : RecAt) (c : Nat) : Bool :=
  let t := s.recTask q
  match c with
  | 3 | 4 => (s.core q.c).matQuiet q.t
  | 5 => !s.inbound q.c q.t && t.tagsQuiet
  | 7 => t.tagsQuiet && t.queuesQuiet
  | _ => (s.recBand q).quiet

/-! ## Restore (R319) -/

/-- Whether a record's header fits (R319). -/
def State.headerFits (s : State) (q : RecAt) (c : Nat) (l : List Byte) : Bool :=
  let t := s.recTask q
  numAt l 0 1 == c && (!bandClass c || numAt l 1 1 == (s.recBand q).index) &&
    (!(c == 0 || c == 3 || c == 4 || c == 5) || numAt l 16 4 == (t.recShape c).count)

/-- The parts of a record's bytes after its header. -/
def RecShape.parts (r : RecShape) (l : List Byte) : Nat × Nat × List Byte :=
  (ofBytes (sliceN l 64 r.bitmap), ofBytes (sliceN l (64 + pad64 r.bitmap) r.tags),
    sliceN l (64 + pad64 r.bitmap + pad64 r.tags) r.data)

/-- Install granules of a map: valid ones under the generation, the rest at tag 0. -/
def putGrans {β : Type} (m : Map β) (keys : List Nat) (bits : Nat) (f : Nat → β) : Map β :=
  keys.zipIdx.foldl (fun m p => if bitN bits p.2 then mapSet m p.1 (f p.2) else mapDel m p.1) m

/-- Install a tagged class but the accumulators. -/
def State.putGranules (s : State) (q : RecAt) (c : Nat) (l : List Byte) : State :=
  let b := s.recBand q
  let t := s.recTask q
  let (bits, tags, data) := (t.recShape c).parts l
  let word := fun i => BitVec.ofNat 32 (numAt data (4 * i) 4)
  let row := fun (i : Nat) => Row.mk t.gen (BitVec.ofNat 4 (elem 4 i tags)) (BitVec.ofNat 512 (numAt data (64 * i) 64))
  s.updCore q.c fun k => match c with
    | 0 => { k with vrf := putGrans k.vrf (b.vKeys q.slot t.nv) bits fun i => ⟨t.gen, word i⟩ }
    | 1 => { k with srf := putGrans k.srf (sKeys q.slot) bits fun i => ⟨t.gen, word i⟩ }
    | 2 => { k with prf := (pKeys q.slot).zipIdx.foldl (fun m p => match p.1 with
        | none => m
        | some key => if bitN bits p.2 then mapSet m key ⟨t.gen, bitN (ofBytes data) p.2⟩ else mapDel m key) k.prf }
    | 3 => { k with tiles := putGrans k.tiles t.tileKeys bits row }
    | _ => { k with scratch := putGrans k.scratch t.spKeys bits row }

/-- Install the accumulators. -/
def State.putAccs (s : State) (q : RecAt) (l : List Byte) : State :=
  let t := s.recTask q
  let (bits, _, data) := (t.recShape 4).parts l
  let rowBits := packElems 1 ((List.range (64 * t.na)).map fun i => if bitN bits (128 * (i / 64) + i % 64) then 1 else 0)
  let statBits := packElems 1 ((List.range t.na).map fun a => if bitN bits (128 * a + 64) then 1 else 0)
  s.updCore q.c fun k => { k with
    accs := putGrans k.accs t.accKeys rowBits fun i => ⟨t.gen, BitVec.ofNat 2048 (numAt data (256 * i) 256)⟩
    accStat := putGrans k.accStat t.statKeys statBits fun a => ⟨t.gen, BitVec.ofNat 32 (numAt data (16384 * t.na + 4 * a) 2)⟩ }

/-- A sub-band as a band-control record holds it. -/
structure SavedSub where
  lanes : Word
  defer : Word
  state : Nat
  jidx : Nat

def savedSub (d : List Byte) (i : Nat) : SavedSub :=
  let o := 3200 + 16 * i
  ⟨BitVec.ofNat 32 (numAt d o 4), BitVec.ofNat 32 (numAt d (o + 4) 4), numAt d (o + 8) 1, numAt d (o + 9) 1⟩

/-- The barrier entries of a record: gid, participant word, last phase, flags. -/
def savedBars (d : List Byte) (n : Nat) : List (Nat × Word × Nat × Nat) :=
  (List.range (min n 5)).map fun i =>
    let o := 4144 + 16 * i
    (numAt d o 4, BitVec.ofNat 32 (numAt d (o + 4) 4), numAt d (o + 8) 4, numAt d (o + 12) 4)

/-- What a restored sub-band waits for: at a barrier for the phase of its band's last arrival (R206), in `jwait`, parked;
one that was held for anything else issues its instruction again. -/
def SavedSub.wait (u : SavedSub) (bars : List (Nat × Word × Nat × Nat)) : Wait :=
  match u.state with
  | 2 => (match bars.find? fun b => bitN b.2.2.2 0 with
    | some b => .bar b.1 b.2.2.1
    | none => (match bars.find? fun b => bitN b.2.2.2 1 with
      | some b => .barw b.1
      | none => .ready))
  | 3 => .jwait u.jidx
  | 4 => .parked
  | _ => .ready

/-- Saved sub-bands take entries, the excess ones becoming deferred lanes of the band's first (R94). -/
def Core.takeSaved (k : Core) (slot : Nat) (subs : List SavedSub) (bars : List (Nat × Word × Nat × Nat)) : Core :=
  (subs.foldl (fun (a : Core × Option Nat) u =>
    let k := a.1
    let e := { Entry.fresh with slot, frozen := true, lanes := u.lanes, defer := u.defer, wait := u.wait bars }
    match k.freeEntry with
    | some i => ({ k with table := mapSet k.table i e }, a.2.or (some i))
    | none => (match a.2 with
      | none => a
      | some i =>
        let b := k.band slot
        let park := fun (l : Nat) (t : Thread) => if u.lanes.getLsbD l && u.state = 4 then { t with mark := .parked } else t
        ((k.updBand slot fun _ => { b with frozen := mapAll b.frozen park }).updEntry i fun x =>
          { x with defer := x.defer ||| u.lanes ||| u.defer }, a.2))) (k, none)).1

/-- The arrivals of a band in the open phase of a group, as far as its record tells them: the lanes held at `bar`, or,
when none is, every lane of a band whose last arrival was in that phase. -/
def State.rearrive (s : State) (q : RecAt) (subs : List SavedSub) (bars : List (Nat × Word × Nat × Nat)) : State :=
  let idx := (s.recBand q).index
  let live := maskOf ((lanesOf allLanes).filter fun l => !((s.recBand q).stood true l).exited)
  bars.foldl (fun s b =>
    if !bitN b.2.2.2 2 || b.2.2.1 != s.openPhase q.c q.t b.1 then s else
    let held := (subs.filter fun u => u.state == 2).foldl (fun m u => m ||| u.lanes) 0#32
    let m := if bitN b.2.2.2 0 then held else live
    s.updTask q.c q.t fun t =>
      let x := t.barOf b.1
      t.setBar b.1 { x with part := x.part.or (some b.2.1), arrived := mapSet x.arrived idx m, done := mapSet x.done idx m }) s

/-- Install a band-control record: the frozen state of the band, to take effect at `kret`. -/
def State.putBand (s : State) (q : RecAt) (l : List Byte) : State :=
  let t := s.recTask q
  let d := sliceN l 64 4224
  let word := fun o => BitVec.ofNat 32 (numAt d o 4)
  let ths := (List.range 32).map fun i => (i, threadOf (sliceN d (96 * i) 96))
  let bars := savedBars d (1 + t.groups.length)
  let words := fun (o n : Nat) => (List.range n).filterMap fun i =>
    let w := word (o + 4 * i)
    if w = 0 then none else some (i, w)
  let arr := words 3136 16
  let subs := (((List.range 32).map (savedSub d)).filter fun u => u.lanes ||| u.defer != 0)
  let subs := subs.mergeSort fun a b => (lowestLane (a.lanes ||| a.defer)).getD 32 ≤ (lowestLane (b.lanes ||| b.defer)).getD 32
  let s := s.updBand q.c q.slot fun b => { b with
    frozen := ths, j := words 3072 16, arr
    arrPc := arr.map fun p => (p.1, ((lowestLane p.2).bind fun l => (ths[l]?).map fun x => x.2.pc).getD 0)
    lc := words 3712 4, li := words 3728 4
    k := (List.range 16).map fun i =>
      let o := 3744 + 24 * i
      (i, ⟨BitVec.ofNat 57 (numAt d o 8), word (o + 8), word (o + 12), word (o + 16), word (o + 20)⟩)
    rm := (word 4128).setWidth 2, fflags := (word 4132).setWidth 5, mshape := word 4136
    bars := (bars.filter fun x => bitN x.2.2.2 2).foldl (fun m x => mapSet m x.1 ⟨x.2.1, x.2.2.1, true⟩) [], restored := true }
  let s := s.updCore q.c fun k =>
    { k with table := mapFilter k.table fun _ e => !(e.slot == q.slot && e.frozen) }.takeSaved q.slot subs bars
  s.rearrive q subs bars

/-- Whether a task-control record names the current task (R319). -/
def Task.sameTask (t : Task) (l : List Byte) : Bool :=
  let d := sliceN l 64 4480
  let mine := t.taskData
  sliceN d 0 12 == sliceN mine 0 12 && sliceN d 16 16 == sliceN mine 16 16 && sliceN d 100 4 == sliceN mine 100 4

/-- Install a task-control record. -/
def Task.putTask (t : Task) (l : List Byte) : Task :=
  let d := sliceN l 64 4480
  { t with
    g := (List.range 8).map fun i =>
      let w := numAt d (32 + 4 * i) 4
      (i, ⟨BitVec.ofNat 16 w, bitN w 31, none, none, []⟩)
    done := BitVec.ofNat 64 (numAt d 64 8), fault := BitVec.ofNat 64 (numAt d 72 8), busy := []
    inst := (List.range 5).map fun i => (i, numAt d (80 + 4 * i) 4)
    queues := (List.range 16).foldl (fun m i =>
      let o := 128 + 272 * i
      let ret := (List.range (min 64 (numAt d o 4))).map fun j => BitVec.ofNat 32 (numAt d (o + 16 + 4 * j) 4)
      if ret.isEmpty && (mapGet m i).isNone then m else mapSet m i { mapGetD m i Queue.fresh with ret }) t.queues }

end Sys2Proof.Machine
end

