-- ==== Sys2Proof/Machine/TaskSys.lean ====
section
/-! DEFINITION. The task and system instructions (R293 to R319): ends of threads, phases, system registers, the return from
keep mode, and the saving and restoring of storage. -/

namespace Sys2Proof.Machine

/-! ## Ends of threads (R294, R295, R309) -/

/-- EXIT (R294): in keep mode it ends every Present thread of the band. -/
def execExit (d : BitVec 2) (s : State) : Host.Outcome State Fault Refusal :=
  issue (.exit d) (shapeS d []) (fun x t =>
    .ok (if x.keep then t.exitBand x.core x.slot true false else t.exitLanes x.core x.e x.lanes true)) s

/-- EXIT_SUCC (R295). -/
def execExitSucc (d : BitVec 2) (sn : BitVec 6) (s : State) : Host.Outcome State Fault Refusal :=
  issue (.exitSucc d sn) { shapeS d (sSrc64 sn) with priv := true } (fun x t =>
    .ok ((t.updTask x.core x.t fun y => { y with succ := some (x.s64 sn) }).exitBand x.core x.slot true false)) s

/-- HALT (R309). -/
def execHalt (d : BitVec 2) (s : State) : Host.Outcome State Fault Refusal :=
  issue (.halt d) { shapeS d [] with priv := true } (fun x t => .ok (t.exitBand x.core x.slot false true)) s

/-! ## Phases and generations (R296, R302) -/

/-- An arrival recorded at a phase end: the word of the lowest (band, lane) is the result. -/
def PhaseEnd.arrive (p : PhaseEnd) (index : Nat) (lanes w : Word) : PhaseEnd :=
  let me := 32 * index + (lowestLane lanes).getD 0
  { p with arrived := mapSet p.arrived index (mapGetD p.arrived index 0 ||| lanes)
           best := if p.arrived.isEmpty then me else min p.best me
           word := if p.arrived.isEmpty || me < p.best then w else p.word }

/-- PHASE (R296); in keep mode it is trap 0x07, detail 4 (R308). -/
def execPhase (d : BitVec 2) (sn : BitVec 6) (s : State) : Host.Outcome State Fault Refusal :=
  issue (.phase d sn) (shapeS d [.s sn.toNat]) (fun x _ =>
    let p := x.task.phase.getD ⟨x.pc, [], 0, 0, false, false, none, 0⟩
    if x.keep then .trap 0x07 4 0
    else if p.pc != x.pc then .trap 0x07 2 0
    else .stay fun s =>
      let s := s.updTask x.core x.t fun y => { y with phase := some (p.arrive x.b.index x.lanes (x.s sn)) }
      (s.updEntry x.core x.e fun e => { e with wait := .phase }).tryPhase x.core x.t) s

/-- GEN (R302). -/
def execGen (d : BitVec 2) (sn : BitVec 6) (s : State) : Host.Outcome State Fault Refusal :=
  issue (.gen d sn) (shapeS d []) (fun x t => t.done x (x.toS sn (x.gen.setWidth 32))) s

/-! ## System registers (R310 to R312) -/

/-- `sys.gen` (R302). -/
def Core.genWord (k : Core) : Word :=
  k.last.setWidth 32 ||| (if k.half then 0x10000#32 else 0) ||| (if k.sweep then 0x20000#32 else 0)

/-- The value of a system register as an issuing sub-band reads it. -/
def Ctx.sysValue (x : Ctx) (n : BitVec 12) : BitVec 64 :=
  let w := fun (v : Word) => v.setWidth 64
  let t := x.task
  let b := x.b
  match n.toNat with
  | 0x000 => BitVec.ofNat 64 t.number
  | 0x001 => BitVec.ofNat 64 b.index
  | 0x002 => w (lo32 t.par)
  | 0x003 => w (hi32 t.par)
  | 0x004 => w x.k.genWord
  | 0x005 => BitVec.ofNat 64 t.variant
  | 0x006 => BitVec.ofNat 64 (x.core % 4 * 2 ^ 28 + t.spBase)
  | 0x007 => BitVec.ofNat 64 x.core
  | 0x008 => t.tlbase
  | 0x009 => w t.tlstride
  | 0x010 => w (b.rm.setWidth 32 ||| if x.l.ftz then 8 else 0)
  | 0x011 => w (b.fflags.setWidth 32)
  | 0x012 => w b.mshape
  | 0x013 => t.done
  | 0x020 => w b.kcause
  | 0x021 => b.kpc
  | 0x022 => w b.klanes
  | 0x023 => b.kaddr
  | 0x024 => t.ksave
  | 0x025 => t.kvec
  | _ => 0

/-- RSYS (R311). -/
def execRsys (d : BitVec 2) (sn : BitVec 6) (n : BitVec 12) (s : State) : Host.Outcome State Fault Refusal :=
  issue (.rsys d sn n) { shapeS d [] with priv := sysPrivileged n } (fun x t =>
    t.done x (if (sysWide n).getD false then x.toS64 sn (x.sysValue n) else x.toS sn (lo32 (x.sysValue n)))) s

/-- Whether a register is RO in the current mode (R310, R311). -/
def sysReadOnly (n : BitVec 12) (keep : Bool) : Bool :=
  decide (n.toNat < 0x010) || n == 0x013#12 || if keep then n == 0x020#12 || n == 0x023#12 || n == 0x024#12 else n == 0x025#12

/-- Whether a line of a buffer holds part of the range a value of `sys.ibinv` names (R312). -/
def ibinvHits (v : BitVec 64) (l : ILine) : Bool :=
  let first := fieldN v.toNat 56 7
  let line := fieldN l.va.toNat 56 7
  (line + 2 ^ 50 - first) % 2 ^ 50 < fieldN v.toNat 63 57 + 1

/-- Mark lines stale on every core; a sub-band in a clause goes on with the words it stands on (R68). -/
def State.ibinv (s : State) (v : BitVec 64) : State :=
  (mapKeys s.cores).foldl (fun s c =>
    let k := s.core c
    if k.ibuf.any (ibinvHits v) then
      (s.setCore c { k with
        ibuf := k.ibuf.map fun l => if ibinvHits v l then { l with stale := true } else l
        table := mapAll k.table fun _ e => { e with ctx := e.ctx.map fun x => { x with old := true } } }).dropStale c
    else s) s

/-- Write a system register. -/
def State.putSys (t : State) (x : Ctx) (n : BitVec 12) (v : BitVec 64) : State :=
  let band := fun (f : Band → Band) => t.updBand x.core x.slot f
  match n.toNat with
  | 0x010 => band fun b => { b with rm := v.setWidth 2 }
  | 0x011 => band fun b => { b with fflags := v.setWidth 5 }
  | 0x012 => band fun b => { b with mshape := v.setWidth 32 &&& 0x0FFF003F#32 }
  | 0x014 => t.ibinv v
  | 0x021 => band fun b => { b with kpc := v, kpcSet := true }
  | 0x022 => band fun b => { b with klanes := v.setWidth 32 &&& b.live }
  | 0x025 => t.updTask x.core x.t fun y => { y with kvec := v }
  | _ => t

/-- WSYS (R311, R312). A flag set in the cycle of the write stands over it (R111). -/
def execWsys (d : BitVec 2) (sn : BitVec 6) (n : BitVec 12) (s : State) : Host.Outcome State Fault Refusal :=
  let wide := (sysWide n).getD false
  issue (.wsys d sn n) { shapeS d (if wide then sSrc64 sn else [.s sn.toNat]) with
      priv := sysPrivileged n, pre := fun x => if sysReadOnly n x.keep then some 0x01 else none } (fun x t =>
    let v := if wide then x.s64 sn else (x.s sn).setWidth 64
    if (n == 0x021#12 || n == 0x025#12) && v.toNat % 4 != 0 then .trap 0x05 0 v
    else .ok ((t.putSys x n v).commit x.core x.slot x.now)) s

/-! ## The return from keep mode (R307) -/

/-- A band takes a request for pre-emption (R305, R321); without a handler its task ends (R327). -/
def State.takeRequest (s : State) (c slot code : Nat) : State :=
  let t := (s.core c).taskOfBand slot
  let s := s.updBand c slot fun b => { b with pre := false }
  if ((s.core c).task t).kvec = 0 then s.endTask c t 1 0x0E code else s.enterKeep c slot 0x0E code none 0 0 0

/-- Whether a request stands for some band of a task: the band has still to take it, or is in the handler for it. -/
def Core.saving (k : Core) (t : Nat) : Bool :=
  (k.taskBands t).any fun b => (k.band b).pre || ((k.band b).keep && ((k.band b).kcause == 0x10E#32 || (k.band b).kcause == 0x20E#32))

/-- A band in keep mode goes on where its sub-bands stood (R307): waits that are over by now pass; after a restore the
acquire comes first (R248, R322); a request that has waited is taken at once (R308). -/
def State.returnFrom (s : State) (c slot : Nat) : State :=
  let k := s.core c
  let b := k.band slot
  let t := b.task
  let restore := b.kcause == 0x30E#32
  let s := if restore then s.selfInvalidate c else s
  let s := if b.kcause.toNat % 256 = 0x0E then s.updTask c t fun y => { y with saved := false } else s
  let s := (s.leaveKeep c slot).unpark c
  let s := if (s.core c).saving t then s else s.updTask c t fun y => { y with request := none }
  let s := (0 :: (k.task t).groups ++ [localGid]).foldl (fun s g => s.releaseBar c t g) s
  let s := (List.range 16).foldl (fun s j => s.releaseJoin c slot (((s.core c).entriesOf slot).headD 256) j false) s
  let s := ((((s.passWaits c slot none).releaseCalls c slot (((s.core c).entriesOf slot).headD 256)).checkBars c t).tryPhase c t).checkEnd c t
  match b.pre, (k.task t).request with
  | true, some r => s.takeRequest c slot r.code
  | _, _ => s

/-- KRET (R307): after a restore, a band that has not restored class 6 ends the task. -/
def execKret (d : BitVec 2) (s : State) : Host.Outcome State Fault Refusal :=
  issue (.kret d) { shapeS d [] with priv := true } (fun x t =>
    .ok (if x.b.kcause == 0x30E#32 && !x.b.restored then t.endTask x.core x.t 6 0 0 else t.returnFrom x.core x.slot)) s

/-! ## Saving and restoring (R314 to R319) -/

/-- The 64-byte pieces of a record, each with its translation, or what the instruction does instead (R318). -/
def recPages (x : Ctx) (t : State) (a : BitVec 64) (size access : Nat) : Except Res (List (Nat × Trans)) :=
  if a.toNat % 64 != 0 then .error (.trap 0x05 0 a) else
  let look := (List.range (size / 64)).map fun i => (64 * i, t.lookup x.core x.pd (a + BitVec.ofNat 64 (64 * i)) access)
  let bad := fun (r : Option (Except Nat Trans)) => match r with | some (.ok _) => false | _ => true
  if look.any fun r => bad r.2 then
    .error (.walk (((look.filter fun r => bad r.2).map fun r => (a + BitVec.ofNat 64 r.1).toNat / 65536).dedup.map fun p =>
      (32, if p == a.toNat / 65536 then a else BitVec.ofNat 64 (65536 * p))) access)
  else
    let l := look.filterMap fun r => match r.2 with
      | some (.ok tr) => some (r.1, tr)
      | _ => none
    if l.any fun r => r.2.fmt != 0 then .error (.trap 0x06 0 a) else .ok l

/-- The accesses of a record as the memory order sees them. -/
def recAcc (l : List (Nat × Trans)) : List LAcc := l.map fun r => ⟨0, 0, 0, 0, .nowhere, .nowhere, some r.2, none, none, 0, flNone⟩

/-- Whether a record has to wait for earlier accesses of its lanes (R159). -/
def recWaits (x : Ctx) (l : List (Nat × Trans)) : Bool := x.k.relMeets x.slot x.lanes (recAcc l) 64

def Ctx.recAt (x : Ctx) : RecAt := ⟨x.core, x.slot, x.t⟩

/-- SVC (R314, R318). -/
def execSvc (d : BitVec 2) (c : BitVec 4) (y : BitVec 6) (s : State) : Host.Outcome State Fault Refusal :=
  issue (.svc d c y) { shapeS d (sSrc64 y) with priv := true, mem := true } (fun x t =>
    let a := x.s64 y
    let n := c.toNat
    let size := (x.task.recShape n).size
    match recPages x t a size accUStore with
    | .error r => r
    | .ok l =>
      if !t.quiescent x.recAt n || recWaits x l then .hold else
      let bytes := t.record x.recAt n
      let t := t.sampleOlder x.core x.slot x.pd x.k.nextOp (recAcc l) 64
      let t := l.foldl (fun t r => t.storeBytes x.core x.slot x.lanes x.pd r.2 (sliceN bytes r.1 64)) t
      t.done x (x.toS64 y (a + BitVec.ofNat 64 size))) s

/-- Read a record's bytes: a machine check, or the bytes. -/
def State.readRecord (s : State) (x : Ctx) (l : List (Nat × Trans)) : State × Nat × List Byte :=
  l.foldl (fun a r => match a with
    | (s, 0, bs) => (match s.load64 x.core x.pd r.2 with
      | (s, e, b) => (s, e, bs ++ b))
    | a => a) (s, 0, [])

/-- Install a record that fits. -/
def State.putRecord (s : State) (q : RecAt) (c : Nat) (l : List Byte) : State :=
  match c with
  | 4 => s.putAccs q l
  | 6 => s.putBand q l
  | 7 => s.updTask q.c q.t (·.putTask l)
  | c => s.putGranules q c l

/-- RSC (R314, R319). -/
def execRsc (d : BitVec 2) (c : BitVec 4) (y : BitVec 6) (s : State) : Host.Outcome State Fault Refusal :=
  issue (.rsc d c y) { shapeS d (sSrc64 y) with priv := true, mem := true } (fun x t =>
    let a := x.s64 y
    let n := c.toNat
    let size := (x.task.recShape n).size
    match recPages x t a size accULoad with
    | .error r => r
    | .ok l =>
      if recWaits x l then .hold else
      match (t.sampleOlder x.core x.slot x.pd x.k.nextOp (recAcc l) 64).readRecord x l with
      | (t, 0, bytes) =>
        if !t.headerFits x.recAt n bytes || (n == 7 && !x.task.sameTask bytes) then .trap 0x06 0 a
        else (t.putRecord x.recAt n bytes).done x (x.toS64 y (a + BitVec.ofNat 64 size))
      | (_, e, _) => .trap 0x0C e a) s

end Sys2Proof.Machine
end

