-- ==== Sys2Proof/Machine/Place.lean ====
section
/-! DEFINITION. The queues of the clusters (R24, R343), placing a task on a core (R25, R26, R322), and requests for
pre-emption (R305, R321, R325). -/

namespace Sys2Proof.Machine

/-! ## The order of a cluster's queue (R343) -/

def State.prioOf (s : State) (q : QTask) : Nat := (s.launch q.launch).prio

/-- Whether an arriving task stands before a queued one: by priority, restore requests first, and tasks of one launch by
number; else it comes after. -/
def State.before (s : State) (x y : QTask) : Bool :=
  s.prioOf y < s.prioOf x ||
    (s.prioOf x == s.prioOf y &&
      ((x.restore.isSome && y.restore.isNone) ||
        (x.restore.isSome == y.restore.isSome && x.launch == y.launch && x.number < y.number)))

def State.insertQ (s : State) (x : QTask) : List QTask → List QTask
  | [] => [x]
  | y :: r => if s.before x y then x :: y :: r else y :: s.insertQ x r

/-- The head stands first since now, if not for longer; no other task does. -/
def markHead (usec : Nat) : List QTask → List QTask
  | [] => []
  | x :: r => { x with firstSince := some (x.firstSince.getD usec) } :: r.map fun y => { y with firstSince := none }

def State.setQueue (s : State) (cl : Nat) (f : List QTask → List QTask) : State :=
  s.updCluster cl fun x => { x with queue := markHead s.usec (f x.queue) }

/-- Queue a task, or a restore request, at a cluster. -/
def State.enqueue (s : State) (cl : Nat) (q : QTask) : State := s.setQueue cl (s.insertQ q)

def QTask.is (q : QTask) (l n : Nat) : Bool := q.launch == l && q.number == n

/-- Take tasks out of every cluster's queue. -/
def State.dequeue (s : State) (gone : QTask → Bool) : State :=
  { s with clusters := mapAll s.clusters fun _ x => { x with queue := markHead s.usec (x.queue.filter fun q => !gone q) } }

/-- Withdraw the unplaced tasks of a launch; its restore requests stay (R337, R350). -/
def State.withdraw (s : State) (l : Nat) : State := s.dequeue fun q => q.launch == l && q.restore.isNone

/-! ## Placing (R25, R26) -/

/-- The control state of a band's threads at an address: lanes past the last thread have exited (R25). -/
def startThreads (threads index : Nat) (pc : BitVec 64) : Map Thread :=
  (List.range 32).map fun l => (l, { Thread.fresh with exited := decide (threads ≤ 32 * index + l), pc, base := pc })

/-- One sub-band for each band that has a thread, in the lowest free entries (R70). -/
def Core.startEntries (k : Core) (slots : List Nat) : Core :=
  slots.foldl (fun k b =>
    let live := (k.band b).live
    match live == 0, k.freeEntry with
    | false, some e => { k with table := mapSet k.table e { Entry.fresh with slot := b, lanes := live } }
    | _, _ => k) k

/-- Bind a band to the lowest free slot of a pipe with the lowest free granules (log entry 12). -/
def Core.addBand (k : Core) (pipe vg : Nat) (b : Nat → Band) : Core × Nat :=
  let slot := 16 * pipe + ((lowestFree ((k.pipeBands pipe).map (· % 16)) 16 1).bind (·[0]?)).getD 0
  ({ k with bands := mapSet k.bands slot { b slot with vgrans := (lowestFree (k.vUsed pipe) 64 vg).getD [] } }, slot)

/-- Ids of a task's groups besides group 0 (R201). -/
def Launch.groupsOf (l : Launch) (n : Nat) : List Nat :=
  (l.groups.filter fun g => g.1 != 0 && g.2.members.contains n).map (·.1)

/-- The queue registers that a variant binds (R34). -/
def Variant.bound (v : Variant) : Map Queue :=
  v.ports.zipIdx.filterMap fun p => if p.1 = 0 then none else some (p.2, { Queue.fresh with port := p.1 })

/-- Thread-local base of a task (R78). -/
def Launch.tlbaseOf (l : Launch) (v : Variant) (ts n : Nat) : BitVec 64 :=
  if ts = 0 then 0 else l.tlbase + BitVec.ofNat 64 (n * 32 * v.nbands * ts)

/-- Every band of a task enters keep mode on a request with a code (R305, R306). -/
def State.enterAll (s : State) (c t code : Nat) : State :=
  ((s.core c).taskBands t).foldl (fun s b => s.takeRequest c b code) s

/-- Place a task on a core that it fits, in a variant, with the acquire of R248. A restore takes the pipes recorded for it
and starts in keep mode (R26, R322). -/
def State.placeTask (s : State) (q : QTask) (c n : Nat) (pipes : Option (List Nat)) : State :=
  let l := s.launch q.launch
  match s.variantOf l n with
  | none => s
  | some v =>
    let d := v.needs
    let (k, g) := (s.core c).takeGen
    match k.choosePipes d.vg pipes d.bands, lowestFree k.tileUsed 8 d.tg, lowestFree k.accUsed 32 d.na,
        (if d.sp = 0 then some 0 else freeRun (k.spUsed none) d.sp) with
    | some ps, some tiles, some accs, some sp =>
      let ts := (s.kernelOf l).tlstride
      let pc := (s.object l.object).va + BitVec.ofNat 64 v.code
      let (k, slots) := ps.zipIdx.foldl (fun (r : Core × List Nat) p =>
        let a := r.1.addBand p.1 d.vg fun slot =>
          { Band.fresh with task := r.2.headD slot, index := p.2, threads := startThreads l.threads p.2 pc }
        (a.1, r.2 ++ [a.2])) (k, [])
      let task : Task := { Task.fresh with
        launch := q.launch, number := q.number, variant := n, nbands := v.nbands, nv := 8 * d.vg, nt := 4 * d.tg, na := d.na
        spGrans := d.sp, spBase := 4096 * sp, tlm := v.tlm, gen := g, slots, tileMap := tiles, accMap := accs
        par := l.par, tlbase := l.tlbaseOf v ts q.number, tlstride := BitVec.ofNat 32 ts
        ksave := q.restore.getD 0, kvec := l.kvec, queues := v.bound, groups := l.groupsOf q.number
        energy := v.energy, current := v.current, saved := q.restore.isSome, sliceFrom := s.usec }
      let t := slots.headD 0
      let k := { k with tasks := mapSet k.tasks t task }.startEntries slots
      let s := (s.setCore c k).selfInvalidate c
      if q.restore.isSome then s.enterAll c t 3 else s
    | _, _, _, _ => s

/-! ## Requests for pre-emption (R305, R308, R321, R329) -/

/-- Whether a placed task takes a request: not while it drains, nor while another request stands (R321, R329). -/
def State.takesRequest (s : State) (c t : Nat) : Bool :=
  match mapGet (s.core c).tasks t with
  | none => false
  | some x => x.state != .draining && x.request.isNone

/-- A request reaches a task: it counts as saved from now on (R328), and every band has still to take it. -/
def State.requestPre (s : State) (c t : Nat) (area : BitVec 64) (code : Nat) : State :=
  if !s.takesRequest c t then s else
  let s := s.updTask c t fun x => { x with saved := true, request := some ⟨area, code⟩, ksave := area }
  ((s.core c).taskBands t).foldl (fun s b => s.updBand c b fun y => { y with pre := true }) s

/-- The task at a core and band slot. -/
def State.taskAt (s : State) (c slot : Nat) : Option Nat := (mapGet (s.core c).bands slot).map (·.task)

/-- PREEMPTION_REQUEST (R321). -/
def execPreemptionRequest (c slot : Nat) (area : BitVec 64) (s : State) : Host.Outcome State Fault Refusal :=
  .next (match s.taskAt c slot with
    | some t => s.requestPre c t area 1
    | none => s)

/-- Emergency save area of a task (R374): none where its domain has none. -/
def State.emergencyArea (s : State) (pd c t : Nat) : Option (BitVec 64) :=
  let r := mapGetD s.pds pd PdRec.fresh
  if r.ebase = 0 then none else some (r.ebase + BitVec.ofNat 64 (r.estride.toNat * (64 * c + t)))

end Sys2Proof.Machine
end

