-- ==== Sys2Proof/Machine/Retire.lean ====
section
/-! DEFINITION. The end of tasks, launches and graphs (R293, R295, R336, R337, R341), and killed contexts (R324, R356). -/

namespace Sys2Proof.Machine

/-! ## The end of a graph (R341) -/

/-- What a walker's requests for a queue carry (R330, R332). -/
def State.walkAsker (s : State) (q : Nat) : Asker :=
  let w := mapGetD s.wqs q WorkQueue.fresh
  ⟨w.pd.toNat, some w.key.toNat⟩

/-- A graph ends: its completion record, if its entry names one; one that is not written stops the queue. -/
def State.endGraph (s : State) (q status num : Nat) (word : Word) : State :=
  match mapGet s.graphs q with
  | none => s
  | some g =>
    let s := { s with graphs := mapDel s.graphs q }
    if g.record = 0 then s else
    match s.askWrite (s.walkAsker q) g.record
        (bytesOf 4 g.seq.toNat ++ bytesOf 1 status ++ zeroBytes 1 ++ bytesOf 2 g.node ++ bytesOf 4 num ++ bytesOf 4 word.toNat) with
    | (s, none) => s
    | (s, some _) => { s with wqs := mapUpd s.wqs q fun w => { w with err := true } }

/-! ## The end of a launch (R336, R337, R350) -/

/-- Whether a retirement status counts as failed (R337). -/
def failing (w : Word) : Bool :=
  let kind := w.toNat % 8
  kind == 1 || kind == 3 || kind == 4 || kind == 6 || kind == 7 || w.getLsbD 28

/-- Whether a task of a launch is placed, being placed or queued. -/
def State.launchBusy (s : State) (l : Nat) : Bool :=
  !(s.tasksOf l).isEmpty ||
    s.clusters.any fun c => (c.2.queue.any fun q => q.launch == l) || c.2.placing.any fun p => p.task.launch == l

/-- Combine result words (R336): none for code 0, and 0 where no task posted one. -/
def combineWords (op : Nat) (ws : List Word) : Option Word :=
  let fold := fun (f : Word → Word → Word) => some (match ws with
    | [] => 0
    | w :: r => r.foldl f w)
  match op with
  | 1 => fold fun a _ => a
  | 2 => fold (· + ·)
  | 3 => fold fun a b => if a.toNat < b.toNat then b else a
  | 4 => fold fun a b => if b.toNat < a.toNat then b else a
  | 5 => fold (· ||| ·)
  | 6 => fold (· &&& ·)
  | _ => none

/-- Forget a launch: its marks (R258), and its saved tasks. -/
def State.closeLaunch (s : State) (l : Nat) : State :=
  let s := s.clearMarks l
  { s with launches := mapDel s.launches l, savedTasks := s.savedTasks.filter fun t => t.launch != l }

/-- The node of a launch completes once every task has retired, or ends its graph once those that were placed have
(R337). -/
def State.checkLaunch (s : State) (l : Nat) : State :=
  match mapGet s.launches l with
  | none => s
  | some x =>
    if x.failed || x.timedOut then
      if s.launchBusy l then s else
      let s := s.closeLaunch l
      match x.timedOut, x.retired.find? fun p => failing p.2 with
      | false, some p => s.endGraph x.queue 4 p.1 p.2
      | _, _ => s.endGraph x.queue 5 0 0
    else if x.retired.length < x.tasks then s
    else
      let s := s.closeLaunch l
      { s with graphs := mapUpd s.graphs x.queue fun g =>
          { g with node := x.next, launch := none
                   w := match combineWords x.combine (x.results.map (·.2)) with
                     | some v => mapSet g.w x.resultReg v
                     | none => g.w } }

/-! ## The end of a task (R293) -/

/-- The retirement status word with a kind. -/
def Task.statusWord (x : Task) (kind : Nat) : Word :=
  BitVec.ofNat 32 (kind % 8 + 256 * (x.endCause % 256) + 2 ^ 16 * (x.endCode % 4096) + if x.eflt then 2 ^ 28 else 0)

/-- The walker counts a status word (R337): a saved task, and one handed to a successor, have not retired. -/
def State.report (s : State) (l n : Nat) (w : Word) : State :=
  let kind := w.toNat % 8
  let bad := failing w
  let s := s.updLaunch l fun x =>
    { x with failed := x.failed || bad
             retired := if (!bad && (kind == 2 || kind == 5)) || (mapGet x.retired n).any failing then x.retired
               else mapSet x.retired n w }
  (if bad then s.withdraw l else s).checkLaunch l

/-- Free a task's allocation (R302): its bands, entries and what they still had in flight go. -/
def State.freeTask (s : State) (c t : Nat) : State :=
  s.updCore c fun k =>
    let mine := (k.taskBands t).contains
    { k with table := mapFilter k.table fun _ e => !mine e.slot, bands := mapFilter k.bands fun b _ => !mine b
             flights := mapFilter k.flights fun _ f => !mine f.slot, tasks := mapDel k.tasks t
             regs := k.regs.filter fun r => !mine r.slot, requests := k.requests.filter fun r => !mine r.slot }.freeGen
      (k.task t).gen

/-- Whether an operation in flight holds up draining: not one that can only be completed by what has not come. -/
def FKind.drains : FKind → Bool
  | .qpop _ _ _ _ | .tagWait _ _ _ none | .sig _ none => false
  | .tagWait _ _ _ (some _) | .sig _ (some _) | .load _ | .atom _ | .lds _ _ | .result _ _ _ _ | .release _ _ | .acquire
  | .xfer _ _ _ _ | .mat _ | .pw _ _ | .remote _ => true

/-- Whether draining has ended: every operation and asynchronous command of the task is done. -/
def Core.drained (k : Core) (t : Nat) : Bool :=
  match mapGet k.tasks t with
  | none => false
  | some x => x.state == .draining && x.queuesQuiet && !k.flights.any fun f => x.slots.contains f.2.slot && f.2.kind.drains

/-- Whether a successor follows a task (R295). -/
def Task.hands (x : Task) : Bool := x.succ.isSome && x.endKind == 0

/-- A task whose draining has ended retires with a kind: its posted stores are performed, its allocation is freed, and its
status goes to the walker. A saved task may be restored; a restore request for one that was not saved lapses. -/
def State.retireTask (s : State) (c t kind : Nat) : State :=
  let s := s.writeBack c ((s.core c).taskBands t).contains
  let x := (s.core c).task t
  let w := x.statusWord kind
  let kept := kind == 2 && !x.eflt
  let s := if kept then s else s.leaveGroups c t
  let s := s.freeTask c t
  let s := if kept then
      { s with savedTasks := s.savedTasks ++ [⟨x.launch, x.number, (s.launch x.launch).pd, x.ksave⟩] }
    else s.dequeue fun q => q.is x.launch x.number && q.restore.isSome
  s.report x.launch x.number w

/-- TASK_RETIRE (R293). -/
def execTaskRetire (c t : Nat) (s : State) : Host.Outcome State Fault Refusal :=
  .next (let k := s.core c
    if k.drained t && !(k.task t).hands then s.retireTask c t (k.task t).endKind else s)

/-! ## Successors (R295) -/

/-- Whether a task control block suits a task. -/
def Task.takesTcb (x : Task) (l : List Byte) : Bool :=
  numAt l 24 1 == x.nbands && numAt l 25 1 == x.nv && numAt l 26 1 == x.nt && numAt l 27 1 == x.na &&
    numAt l 28 2 == x.spGrans && decide (16 * numAt l 30 2 ≤ x.tlstride.toNat) && decide (numAt l 38 1 < 2) &&
    numAt l 39 25 == 0

/-- Read a task control block: on a plain page, 64-byte aligned. -/
def State.readTcb (s : State) (pd : Nat) (va : BitVec 64) : State × Option (List Byte) :=
  if va.toNat % 64 != 0 then (s, none) else
  match s.translateFor pd va false with
  | (s, .error _) => (s, none)
  | (s, .ok t) =>
    if t.fmt != 0 then (s, none) else
    match s.askRead ⟨pd, none⟩ va 64 with
    | (s, .ok l) => (s, some l)
    | (s, .error _) => (s, none)

/-- The successor's task: what it keeps of its predecessor, and what starts anew. -/
def Task.successor (x : Task) (l : List Byte) : Task :=
  { x with par := BitVec.ofNat 64 (numAt l 8 8), kvec := BitVec.ofNat 64 (numAt l 16 8), tlm := 16 * numAt l 30 2
           energy := numAt l 32 4, current := numAt l 36 2
           state := .placed, endKind := 0, endCause := 0, endCode := 0, eflt := false, ended := false, succ := none
           saved := false, request := none, phase := none, ksave := 0, localBar := TaskBar.fresh, keepBar := TaskBar.fresh
           bars := [] }

/-- Set up a successor in its predecessor's place: registers at tag 0, bands as placement starts them. -/
def State.startSuccessor (s : State) (c t : Nat) (l : List Byte) : State :=
  let x := (s.core c).task t
  let w := x.statusWord 5
  let n := (s.launch x.launch).threads
  let pc := BitVec.ofNat 64 (numAt l 0 8)
  let s := s.updCore c fun k =>
    let k := x.slots.zipIdx.foldl (fun (k : Core) p =>
      let b := k.band p.1
      { k with vrf := (b.vKeys p.1 x.nv).foldl mapDel k.vrf, srf := (sKeys p.1).foldl mapDel k.srf
               prf := (pKeys p.1).foldl (fun m i => i.elim m (mapDel m)) k.prf
               bands := mapSet k.bands p.1
                 { Band.fresh with task := t, index := p.2, vgrans := b.vgrans, threads := startThreads n p.2 pc } }) k
    { k with tasks := mapSet k.tasks t (x.successor l)
             flights := mapFilter k.flights fun _ f => !x.slots.contains f.slot }.startEntries x.slots
  let s := (s.charge (coreCluster c) (numAt l 32 4)).selfInvalidate c
  let s := if numAt l 38 1 = 1 then s.enterAll c t 4 else s
  s.report x.launch x.number w

/-- SUCCESSOR_START (R295): the successor waits until its first phase is admitted and its sub-bands find entries. -/
def execSuccessorStart (c t : Nat) (s : State) : Host.Outcome State Fault Refusal :=
  .next (let k := s.core c
    let x := k.task t
    if !k.drained t || !x.hands then s else
    match s.readTcb (s.launch x.launch).pd (x.succ.getD 0) with
    | (s, none) => s.retireTask c t 4
    | (s, some l) =>
      if !x.takesTcb l then s.retireTask c t 4
      else if !s.admits (coreCluster c) (numAt l 32 4) (numAt l 36 2) x.current then s.countAt c 9 1
      else if 256 < (k.table.filter fun e => e.1 < 256).length + x.nbands then s
      else (s.writeBack c x.slots.contains).startSuccessor c t l)

/-! ## Killed contexts (R324) -/

/-- Drop what bands of a core have stored and not performed. -/
def State.dropStores (s : State) (c : Nat) (who : Nat → Bool) : State :=
  let s := (s.core c).l1.foldl (fun s l =>
    let mine := fun i => (mapGet l.writer i).elim false who
    let l' := l.clean mine
    (s.updCore c fun k => { k with l1 := (k.l1.map fun x => if x.line = l.line then l' else x).filter fun x => x.valid || x.dirty != 0 }).retire
      c l.line l'.cleanWords) s
  ((s.core c).pw.filter fun p => p.writer.any fun w => who w.2).foldl (fun s p => s.pwForget c p.buf p.block) s

/-- Kill a context (R324); `how` is the state RESYNC reports of it (R381). -/
def State.killDomain (s : State) (pd how : Nat) : State :=
  let of := fun (l : Nat) => (s.launch l).pd == pd
  let tasks := s.cores.flatMap fun k => (k.2.tasks.filter fun t => of t.2.launch).map fun t => (k.1, t.1)
  let s := tasks.foldl (fun s p =>
    let s := s.dropStores p.1 ((s.core p.1).taskBands p.2).contains
    s.freeTask p.1 p.2) s
  let s := { s.dequeue (fun q => of q.launch) with
    streams := mapAll s.streams fun _ x => match x.bind with
      | some b => if b.pd = pd then { x with bind := none, highest := none, paused := false, gap := none } else x
      | none => x
    faultWait := s.faultWait.filter fun r => r.pd != pd, faultOpen := s.faultOpen.filter fun r => r.pd != pd
    savedTasks := s.savedTasks.filter fun t => t.pd != pd, pdEnd := mapSet s.pdEnd pd how }
  let s := { s with clusters := mapAll s.clusters fun _ x => { x with placing := x.placing.filter fun p => !of p.task.launch } }
  let s := (s.launches.filter fun l => l.2.pd == pd).foldl (fun s l => s.closeLaunch l.1) s
  (s.graphs.filter fun g => (mapGetD s.wqs g.1 WorkQueue.fresh).pd.toNat == pd).foldl (fun s g => s.endGraph g.1 9 0 0) s

/-- DOME_UNCORRECTABLE_ERROR (R356): a clean line is fetched again, a dirty one kills the context that owns it. -/
def execDomeUncorrectableError (line : Nat) (s : State) : Host.Outcome State Fault Refusal :=
  .next (match mapGet s.domes line with
    | none => s
    | some d =>
      if d.dirty0 || d.dirty1 then
        let s := s.dropReplicas line
        { s with domes := mapDel s.domes line }.killDomain d.pd 3
      else
        let k := s.keyOf d.enc d.key
        let data := s.halfUnder k (line * 128 + 64) ++ s.halfUnder k (line * 128)
        { s.countPage (line * 128) with domes := mapUpd s.domes line fun x => { x with data } })

end Sys2Proof.Machine
end

