-- ==== Sys2Proof/Machine/Preempt.lean ====
section
/-! DEFINITION. Taking a request for pre-emption (R285, R305, R321), variant switches (R297, R298), phases that are not
admitted (R350), the placement step and the end of a sweep (R25, R27, R302). -/

namespace Sys2Proof.Machine

/-! ## Pre-emption (R321) -/

/-- The holds at a phase end are withdrawn: the sub-bands stand at their `phase` (R321). -/
def State.withdrawPhase (s : State) (c t : Nat) : State :=
  let slots := (s.core c).taskBands t
  let s := s.updTask c t fun x => { x with phase := none }
  let free := fun (e : Entry) => if slots.contains e.slot && e.wait == Wait.phase then { e with wait := .ready, ctx := none } else e
  s.updCore c fun k => { k with table := mapAll k.table fun _ e => free e }

/-- Matrix operations of a task whose final step has not started stop (R285). -/
def State.stopAll (s : State) (c t : Nat) : State :=
  (s.core c).flights.foldl (fun s f => match f.2.kind with
    | .mat r => if (s.core c).taskOfBand f.2.slot == t && !r.released then s.stopMatrix c t f.1 r else s
    | _ => s) s

/-- PREEMPTION_ENTRY (R305): once a switch in progress is over, every band enters keep mode; a band in keep mode does so
after its `kret` (R308). -/
def execPreemptionEntry (c t : Nat) (s : State) : Host.Outcome State Fault Refusal :=
  .next (let x := (s.core c).task t
    match x.request with
    | none => s
    | some r =>
      if x.state == .draining || (x.phase.any fun p => p.admitted && p.switchTo.isSome) ||
          !(x.slots.any fun b => ((s.core c).band b).pre && !((s.core c).band b).keep) then s else
      let s := (s.stopAll c t).withdrawPhase c t
      x.slots.foldl (fun s b =>
        let y := (s.core c).band b
        if y.pre && !y.keep && ((s.core c).task t).state != .draining then s.takeRequest c b r.code else s) s)

/-! ## Variant switches (R298) -/

/-- Whether a task has come to rest for a switch (R297). -/
def State.restsForSwitch (s : State) (c t : Nat) : Bool :=
  let k := s.core c
  let x := k.task t
  (x.slots.all fun b => (k.band b).quiet) && k.matQuiet t && x.tagsQuiet && x.queuesQuiet && !s.inbound c t

/-- What a granule carries under a new generation, if it passes the old one. -/
def carryTag {α : Type} (old new : BitVec 16) (m : Map (Tagged α)) (i : Nat) : Option (Tagged α) :=
  (mapGet m i).bind fun x => if x.gen = old then some { x with gen := new } else none

def carryRow (old new : BitVec 16) (m : Map Row) (i : Nat) : Option Row :=
  (mapGet m i).bind fun x => if x.gen = old then some { x with gen := new } else none

/-- Copy granules by pairs of keys: a source that does not pass leaves its target at tag 0. -/
def putCarry {α : Type} (m : Map α) (src : Nat → Option α) (l : List (Nat × Nat)) : Map α :=
  l.foldl (fun m p => match src p.1 with
    | some x => mapSet m p.2 x
    | none => mapDel m p.2) m

/-- One carry entry: sources as they stood in the core before the switch, under the old generation; targets where the new
allocation has them. -/
def Core.carry (k k0 : Core) (t : Nat) (new : BitVec 16) (e : Nat × Nat × Nat × Nat) : Core :=
  let x := k0.task t
  let y := k.task t
  let n := List.range e.2.2.1
  let src := fun i => e.2.1 + i
  let dst := fun i => e.2.2.2 + i
  let lanes := List.range 32
  let rows := List.range 64
  match e.1 with
  | 0 => { k with vrf := putCarry k.vrf (carryTag x.gen new k0.vrf) (x.slots.flatMap fun b => n.flatMap fun i => lanes.map fun l =>
      ((k0.band b).vKey b l (src i), (k.band b).vKey b l (dst i))) }
  | 1 => { k with srf := putCarry k.srf (carryTag x.gen new k0.srf) (x.slots.flatMap fun b => n.map fun i =>
      (64 * b + src i, 64 * b + dst i)) }
  | 2 => { k with prf := putCarry k.prf (carryTag x.gen new k0.prf) (x.slots.flatMap fun b => n.flatMap fun i => lanes.map fun l =>
      (8 * (32 * b + l) + src i, 8 * (32 * b + l) + dst i)) }
  | 3 => { k with tiles := putCarry k.tiles (carryRow x.gen new k0.tiles) (n.flatMap fun i => rows.map fun r =>
      (x.tileKey (src i) r, y.tileKey (dst i) r)) }
  | 4 => { k with
      accs := putCarry k.accs (carryTag x.gen new k0.accs) (n.flatMap fun i => rows.map fun r =>
        (x.accKey (src i) r, y.accKey (dst i) r))
      accStat := putCarry k.accStat (carryTag x.gen new k0.accStat) (n.map fun i => (x.accAt (src i), y.accAt (dst i))) }
  | _ => { k with scratch := putCarry k.scratch (carryRow x.gen new k0.scratch) (n.map fun i =>
      (x.spBase / 64 + src i, y.spBase / 64 + dst i)) }

/-- Queue registers under another variant's bindings: one that keeps its port keeps its words. -/
def rebind (old new : Map Queue) : Map Queue :=
  mapAll new fun i q => match mapGet old i with
    | some o => if o.port = q.port then o else q
    | none => q

/-- Switch a task to a variant at a resume address (R298). -/
def State.switchTask (s : State) (c t n : Nat) (v : Variant) (sw : Switch) : Option State :=
  let s := ((s.core c).taskBands t).foldl (fun s b => s.commitAll c b) s
  let k0 := s.core c
  let x := k0.task t
  (k0.realloc t n v).map fun k =>
    let (k, g) := k.takeGen
    let k := sw.carry.foldl (fun k e => k.carry k0 t g e) k
    let k := k.updTask t fun y => { y with gen := g, phase := none, queues := rebind x.queues v.bound }
    let s := (s.setCore c (k.freeGen x.gen)).countAt c 10 1
    let pc := (s.object (s.launch x.launch).object).va + BitVec.ofNat 64 sw.resume
    x.slots.foldl (fun s b => s.gather c b (fun _ => (pc, pc)) none) s

/-- VARIANT_SWITCH (R298): the chosen switch of a phase end, once the task has come to rest; one that no longer fits leaves
the task in its variant (R297). -/
def execVariantSwitch (c t : Nat) (s : State) : Host.Outcome State Fault Refusal :=
  .next (let x := (s.core c).task t
    match x.phase with
    | none => s
    | some p =>
      match p.switchTo with
      | none => s
      | some n =>
        if !p.admitted || !s.restsForSwitch c t || (s.cluster (coreCluster c)).placing.any (·.core == c) then s else
        let l := s.launch x.launch
        let sw := (s.variantOf l x.variant).bind fun v => v.switches.find? fun r =>
          r.target == n && (s.object l.object).va + BitVec.ofNat 64 r.at_ == p.pc
        match s.variantOf l n, sw with
        | some v, some w => (match s.switchTask c t n v w with
          | some s => s
          | none => (s.updTask c t fun y => { y with current := ((s.variantOf l y.variant).map (·.current)).getD y.current }).releasePhase c t)
        | _, _ => s)

/-! ## A phase that is not admitted (R350) -/

/-- PHASE_ADMISSION_TIMEOUT (R296, R350): trap 0x0F in every band at the `phase`, which issues again after `kret`. -/
def execPhaseAdmissionTimeout (c t : Nat) (s : State) : Host.Outcome State Fault Refusal :=
  .next (let x := (s.core c).task t
    match x.phase with
    | none => s
    | some p =>
      if !p.posted || p.admitted || s.usec < p.since + (s.launch x.launch).limit then s else
      let at_ := (s.core c).table.filter fun e => x.slots.contains e.2.slot && e.2.wait == Wait.phase
      x.slots.foldl (fun s b =>
        if ((s.core c).task t).state == .draining then s else
        match (at_.filter fun e => e.2.slot == b).foldl (fun (a : Option (Nat × Entry)) e =>
            match a with
            | none => some e
            | some q => if (lowestLane e.2.lanes).getD 32 < (lowestLane q.2.lanes).getD 32 then some e else a) none with
        | none => s
        | some e => s.takeTrap c b 0x0F 0 (some e.1) p.pc e.2.lanes 0) (s.withdrawPhase c t))

/-! ## The placement step -/

/-- PLACE (R25, R27, R322): the first placement under way in a cluster; a request that met it applies to the placed task.
A domain without an emergency area loses its tasks (R374). -/
def execPlace (cl : Nat) (s : State) : Host.Outcome State Fault Refusal :=
  .next (match (s.cluster cl).placing with
    | [] => s
    | p :: r =>
      let s := s.updCluster cl fun x => { x with placing := r }
      let old := (s.core p.core).tasks
      let s := s.placeTask p.task p.core p.variant p.pipes
      let s := if p.task.restore.isNone then s else
        { s with savedTasks := s.savedTasks.filter fun t => !(t.launch == p.task.launch && t.number == p.task.number) }
      let pd := (s.launch p.task.launch).pd
      match p.request, ((s.core p.core).tasks.find? fun t => !old.any fun o => o.1 == t.1) with
      | some q, some t =>
        if q.code != 2 then s.requestPre p.core t.1 q.area q.code else
        (match s.emergencyArea pd p.core t.1 with
        | some a => s.requestPre p.core t.1 a 2
        | none => s.killDomain pd 3)
      | _, _ => s)

/-- GENERATION_SWEEP_END (R302). -/
def execGenerationSweepEnd (c : Nat) (s : State) : Host.Outcome State Fault Refusal :=
  .next (if (mapGet s.cores c).isNone then s else s.updCore c (·.endSweep))

end Sys2Proof.Machine
end

