-- ==== Sys2Proof/Machine/Dispatcher.lean ====
section
/-! DEFINITION. The dispatchers and cluster schedulers (R343 to R351) and the control interval (R349, R382, R383). -/

namespace Sys2Proof.Machine

/-! ## Save areas (R320, R322) -/

/-- What a save area's record asks for: variant, and the pipe of each band; none when the area is not valid. -/
def State.readArea (s : State) (pd : Nat) (area : BitVec 64) : State × Option (Nat × List Nat) :=
  match s.askRead ⟨pd, none⟩ area 64 with
  | (s, .error _) => (s, none)
  | (s, .ok h) =>
    if numAt h 0 4 != 0x53415645 || numAt h 4 4 < 64 + (Task.fresh.recShape 7).size then (s, none) else
    match s.askRead ⟨pd, none⟩ (area + 64) (Task.fresh.recShape 7).size with
    | (s, .error _) => (s, none)
    | (s, .ok l) =>
      let d := l.drop 64
      (s, some (numAt d 4 1, (List.range (numAt d 5 1)).map fun b => fieldN (numAt d 100 4) (2 * b + 1) (2 * b)))

/-! ## Co-resident groups (R335, R346) -/

/-- The id of the first co-resident group that a queued task waits to be placed with. -/
def State.groupOfQ (s : State) (q : QTask) : Option Nat :=
  if q.restore.isSome then none else
  ((s.launch q.launch).groups.find? fun g => g.2.cores && g.2.members.contains q.number).map (·.1)

/-- Whether a core is held for a waiting group against a task (R346); of two groups of equal priority that of the earlier
launch holds it. -/
def State.heldFor (s : State) (c : Nat) (q : QTask) : Bool :=
  let mine := (s.groupOfQ q).isSome
  s.clusters.any fun cl => cl.2.queue.any fun g =>
    (s.groupOfQ g).isSome && !(mine && g.launch == q.launch) && (s.launch g.launch).cores.contains c &&
      (s.prioOf q < s.prioOf g || (s.prioOf q == s.prioOf g && (!mine || g.launch < q.launch)))

/-- How many tasks of a variant an empty core holds (R335). -/
def Variant.cap (v : Variant) : Nat :=
  let n := v.needs
  let bands := (List.range 65).foldl (fun best i =>
    if i = best + 1 && (Core.fresh.choosePipes n.vg none (i * n.bands)).isSome then i else best) 0
  let lim := fun (total each : Nat) => if each = 0 then 64 else total / each
  min (min bands (lim 8 n.tg)) (min (lim 32 n.na) (lim 64 n.sp))

/-- The variant in which the members of co-resident groups are tested and placed: of greatest capacity, the earlier on a
tie; variant 0 of a deterministic launch. -/
def State.groupVariant (s : State) (l : Launch) : Nat :=
  if l.det then 0 else
  ((s.kernelOf l).variants.zipIdx.foldl (fun (a : Nat × Nat) v => if a.2 < v.1.cap then (v.2, v.1.cap) else a) (0, 0)).1

/-- The cores on which a task may be placed: the launch's logical cores among some, the one that a deterministic launch
fixes (R351). -/
def Launch.coresFor (l : Launch) (n : Nat) (l0 : List Nat) : List Nat :=
  if l.det then (l0.filter fun c => l.cores[n % l.cores.length]? == some c) else l0

/-! ## Placement attempts (R343, R346, R351) -/

/-- Admission of several phases at once, by cluster (R346). -/
def State.admitsAll (s : State) (l : List (Nat × Nat)) (energy current : Nat) : Bool :=
  ((l.map fun p => coreCluster p.2).dedup).all fun cl =>
    let n := (l.filter fun p => coreCluster p.2 == cl).length
    s.admits cl (n * energy) (n * current) 0

/-- Cores for the unplaced members of a group, one after the other; none where they do not all fit. -/
def State.seatGroup (s : State) (l : Launch) (id v : Nat) (members : List Nat) : Option (List (Nat × Nat)) :=
  (members.foldl (fun (a : Option (State × List (Nat × Nat))) m => a.bind fun r =>
    let q : QTask := ⟨id, m, none, none, false, none⟩
    ((r.1.chooseFor l ((l.coresFor m l.cores).filter fun c => !s.heldFor c q) (some (v, none)))).map fun p =>
      (r.1.placeTask q p.1 v none, r.2 ++ [(m, p.1)])) (some (s, []))).map (·.2)

/-- Begin a placement: the task leaves its queue. -/
def State.beginPlacing (s : State) (q : QTask) (c v : Nat) (pipes : Option (List Nat)) : State :=
  let s := s.dequeue fun x => x.is q.launch q.number && x.restore == q.restore
  s.updCluster (coreCluster c) fun x => { x with placing := x.placing ++ [⟨q, c, v, pipes, none⟩], blocked := x.blocked.filter (· != (q.launch, q.number)) }

/-- A task that fits fails Admit: it blocks every later task until the next interval. -/
def State.failAdmit (s : State) (cl : Nat) (q : QTask) : State :=
  let first := (s.cluster cl).blocked != some (q.launch, q.number)
  let s := s.updCluster cl fun x =>
    { x with blocked := some (q.launch, q.number)
             queue := x.queue.map fun y => if y == q then { y with admitSince := some (y.admitSince.getD s.usec) } else y }
  if first then s.count (cl / 48) 9 1 else s

/-- A task that fits no core has not failed only Admit (R350). -/
def State.unfit (s : State) (cl : Nat) (q : QTask) : State :=
  if q.admitSince.isNone then s else
  s.updCluster cl fun x => { x with queue := x.queue.map fun y => if y == q then { y with admitSince := none } else y }

/-- What an attempt does with one task: done with the attempt, or on to the next task. -/
def State.tryPlace (s : State) (cl : Nat) (q : QTask) (cores : List Nat) (rec : Option (Nat × Option (List Nat))) : State × Bool :=
  let l := s.launch q.launch
  match (s.chooseFor l cores rec).bind fun p => (s.variantOf l p.2).map fun v => (p.1, p.2, v) with
  | none => (s.unfit cl q, false)
  | some (c, n, v) =>
    if s.admits cl v.energy v.current 0 then ((s.charge cl v.energy).beginPlacing q c n (rec.bind (·.2)), true)
    else (s.failAdmit cl q, true)

/-- The same for the group that a task waits with. -/
def State.tryGroup (s : State) (cl gid : Nat) (q : QTask) : State × Bool :=
  let l := s.launch q.launch
  let queued := fun n => s.clusters.any fun x => x.2.queue.any fun y => y.is q.launch n && y.restore.isNone
  let n := s.groupVariant l
  let busy := l.cores.any fun c => !(s.cluster (coreCluster c)).placing.isEmpty
  match (if busy then none else s.seatGroup l q.launch n ((l.group gid).members.filter queued)), s.variantOf l n with
  | some seats, some v =>
    if s.admitsAll seats v.energy v.current then
      (seats.foldl (fun s p =>
        (s.charge (coreCluster p.2) v.energy).beginPlacing ⟨q.launch, p.1, none, none, false, none⟩ p.2 n none) s, true)
    else (s.failAdmit cl q, true)
  | _, _ => (s.unfit cl q, false)

/-- Whether a restore request still waits for the save it names (R329). -/
def State.saving (s : State) (q : QTask) : Bool := q.restore.isSome && (s.findTask q.launch q.number).isSome

/-- Whether a deterministic launch has a lower task queued for the same core (R351). -/
def State.notLowest (s : State) (cl : Nat) (q : QTask) : Bool :=
  let l := s.launch q.launch
  l.det && (s.cluster cl).queue.any fun y =>
    y.launch == q.launch && decide (y.number < q.number) && y.number % l.cores.length == q.number % l.cores.length

/-- A task whose save area is not valid is lost (R320): its walker takes KIND 7 for it. -/
def State.loseSaved (s : State) (l n : Nat) : State :=
  ({ s with savedTasks := s.savedTasks.filter fun t => !(t.launch == l && t.number == n) } : State).report l n 7

/-- Go through a cluster's queue in order until a task is placed, fails Admit, or blocks by its age. -/
def State.attempt (s : State) (cl : Nat) : List QTask → State
  | [] => s
  | q :: r =>
    let l := s.launch q.launch
    let valid := (mapGetD s.pds l.pd PdRec.fresh).flags.getLsbD 0
    let cores := (l.coresFor q.number (l.coresIn cl)).filter fun c => !s.heldFor c q
    let step : State × Bool :=
      if !valid || s.saving q || s.notLowest cl q then (s, false) else
      match q.restore, s.groupOfQ q with
      | some a, _ =>
        (match s.readArea l.pd a with
        | (s, none) =>
          let s := s.dequeue fun x => x.is q.launch q.number && x.restore.isSome
          (s.loseSaved q.launch q.number, true)
        | (s, some (n, ps)) => s.tryPlace cl q cores (some (n, some ps)))
      | none, some gid => s.tryGroup cl gid q
      | none, none => s.tryPlace cl q cores none
    if step.2 || q.aged || (s.cluster cl).blocked == some (q.launch, q.number) then step.1 else step.1.attempt cl r

/-- PLACEMENT_ATTEMPT (R343): one placement at a time (R27). -/
def execPlacementAttempt (cl : Nat) (s : State) : Host.Outcome State Fault Refusal :=
  .next (if (s.cluster cl).placing.isEmpty then s.attempt cl (s.cluster cl).queue else s)

/-- QUEUE_HEAD_AGE_EXPIRY (R343). -/
def execQueueHeadAgeExpiry (cl : Nat) (s : State) : Host.Outcome State Fault Refusal :=
  .next (match (s.cluster cl).queue with
    | q :: _ => if q.firstSince.any fun t => t + 64 ≤ s.usec then
        s.updCluster cl fun x => { x with queue := { q with aged := true } :: x.queue.drop 1 } else s
    | [] => s)

/-- QUEUED_ADMISSION_TIMEOUT (R350): the launch of a task that has failed only Admit for its limit places no more tasks, and
ends its graph with status 5 once those placed have ended. -/
def execQueuedAdmissionTimeout (cl : Nat) (s : State) : Host.Outcome State Fault Refusal :=
  .next (match (s.cluster cl).queue.find? fun q => q.admitSince.any fun t => t + (s.launch q.launch).limit ≤ s.usec with
    | some q => ((s.updLaunch q.launch fun l => { l with timedOut := true }).withdraw q.launch).checkLaunch q.launch
    | none => s)

/-! ## Donation (R345) -/

/-- Clusters of a sector. -/
def sectorClusters (sector : Nat) : List Nat := (List.range 16).map (16 * sector + ·)

/-- Whether a queued task may be shipped to a cluster. -/
def State.ships (s : State) (thief : Nat) (q : QTask) : Bool :=
  let l := s.launch q.launch
  !l.det && q.restore.isNone && (s.groupOfQ q).isNone && !(l.coresIn thief).isEmpty

/-- STEAL_REQUEST (R345). -/
def execStealRequest (cl : Nat) (s : State) : Host.Outcome State Fault Refusal :=
  .next (
    let idle := (s.cluster cl).queue.isEmpty && (List.range 4).any fun i => (s.core (4 * cl + i)).tasks.isEmpty
    let victim := (sectorClusters (cl / 16)).foldl (fun (a : Option Nat) v =>
      let n := (s.cluster v).queue.length
      match a with
      | none => if 2 ≤ n then some v else none
      | some u => if (s.cluster u).queue.length < n then some v else a) none
    match victim with
    | none => s
    | some v =>
      if !idle then s else
      let queue := (s.cluster v).queue
      let ok := queue.filter (s.ships cl)
      let out := ok.drop (ok.length - min ok.length (queue.length / 2))
      if out.isEmpty then s else
      let s := s.setQueue v fun l => l.filter fun q => !out.contains q
      out.foldl (fun s q => s.enqueue cl { q with firstSince := none, aged := false, admitSince := none }) s)

/-! ## Time slices (R347) -/

/-- TIME_SLICE_EXPIRY (R347): the walker's own pre-emption, with a restore request in the same cluster. -/
def execTimeSliceExpiry (c slot : Nat) (s : State) : Host.Outcome State Fault Refusal :=
  .next (match s.taskAt c slot with
    | none => s
    | some t =>
      let x := (s.core c).task t
      let l := s.launch x.launch
      let cl := coreCluster c
      let grouped := l.groups.any fun g => g.2.cores && g.2.members.contains x.number
      let waits := (s.cluster cl).queue.any fun q =>
        q.launch != x.launch && decide (l.prio ≤ s.prioOf q) &&
          (s.chooseFor (s.launch q.launch) ((s.launch q.launch).coresIn cl) none).isNone
      if l.slice = 0 || l.saveBase = 0 || l.det || grouped || s.usec < x.sliceFrom + l.slice || !waits || !s.takesRequest c t then s else
      let area := l.saveBase + BitVec.ofNat 64 (l.saveStride * x.number)
      (s.requestPre c t area 1).enqueue cl ⟨x.launch, x.number, some area, none, false, none⟩)

/-! ## The control interval (R349, R382, R383) -/

/-- Whether SRAM write-assist is on in a state (R382). -/
def PState.assists : PState → Bool
  | .p0 | .p1 => false
  | .p2 | .p3 | .i1 | .i2 | .i3 => true

def PState.idle : PState → Bool
  | .i1 | .i2 | .i3 => true
  | .p0 | .p1 | .p2 | .p3 => false

/-- Whether the module has nothing placed, no graph, no engine command and no bound stream (R382). -/
def State.idleNow (s : State) : Bool :=
  (s.cores.all fun k => k.2.tasks.isEmpty) && s.graphs.isEmpty && s.streams.all fun x => x.2.bind.isNone

/-- The pending power state and clock plan take effect. -/
def State.applyPower (s : State) : State :=
  let p := s.power
  let st := match p.pendState with
    | some x => if x.idle && !s.idleNow then p.state else x
    | none => p.state
  { s with power := { p with state := st, assist := st.assists, pendState := none
                             plan := p.pendPlan.getD p.plan, pendPlan := none } }

/-- Tasks held at a phase end that is not admitted yet, in cluster order (R343, R349): core and slot. -/
def State.heldPhases (s : State) : List (Nat × Nat) :=
  let l := s.cores.flatMap fun k => (k.2.tasks.filter fun t => t.2.phase.any fun p => p.posted && !p.admitted).map fun t =>
    (coreCluster k.1, 8 - (s.launch t.2.launch).prio, t.2.launch, t.2.number, k.1, t.1)
  let le := fun (a b : Nat × Nat × Nat × Nat × Nat × Nat) =>
    a.1 < b.1 || (a.1 == b.1 && (a.2.1 < b.2.1 || (a.2.1 == b.2.1 &&
      (a.2.2.1 < b.2.2.1 || (a.2.2.1 == b.2.2.1 && a.2.2.2.1 ≤ b.2.2.2.1)))))
  (l.mergeSort le).map fun x => (x.2.2.2.2.1, x.2.2.2.2.2)

/-- CONTROL_INTERVAL (R349): a new interval: power and clock changes take effect, charges and blocks are lifted, and blocked
phases are tested again. -/
def execControlInterval (s : State) : Host.Outcome State Fault Refusal :=
  .next (
    let s := { s with usec := s.usec + 1 }.applyPower
    let s := { s with clusters := mapAll s.clusters fun _ x => { x with charged := 0, blocked := none } }
    s.heldPhases.foldl (fun s p => s.tryPhase p.1 p.2) s)

end Sys2Proof.Machine
end

