-- ==== Sys2Proof/Machine/Domes.lean ====
section
/-! DEFINITION. What happens at the domes and the memory ports (R243, R352, R356 to R359, R361, R367, R368, R374). -/

namespace Sys2Proof.Machine

/-! ## Requests that reach a dome (R243, R361) -/

/-- REGISTRATION (R243): the oldest registration of a core. -/
def execRegistration (c : Nat) (s : State) : Host.Outcome State Fault Refusal :=
  .next (let k := s.core c
    match k.regs with
    | [] => s
    | r :: rs => (s.setCore c { k with regs := rs }).register c r)

/-- DOME_REQUEST (R361): the oldest posted store of a core. -/
def execDomeRequest (c : Nat) (s : State) : Host.Outcome State Fault Refusal :=
  .next (let k := s.core c
    match k.requests with
    | [] => s
    | r :: rs => (s.setCore c { k with requests := rs }).performRequest c r)

/-- RECALL (R243): every word of a line. -/
def execRecall (line : Nat) (s : State) : Host.Outcome State Fault Refusal := .next (s.recall line allLanes none)

/-- REPLICA_INVALIDATE (R359). -/
def execReplicaInvalidate (line : Nat) (s : State) : Host.Outcome State Fault Refusal := .next (s.dropReplicas line)

/-- L1_EVICTION (R158). -/
def execL1Eviction (c sb : Nat) (s : State) : Host.Outcome State Fault Refusal :=
  .next (if (mapGet s.cores c).isNone then s else s.evictSuper c sb)

/-- PLYNWICK_RECALL (R181). -/
def execPlynwickRecall (buf block : Nat) (s : State) : Host.Outcome State Fault Refusal := .next (s.pwRecall buf block none)

/-! ## Fills (R356, R362) -/

/-- The offset at which a buffer maps a physical address, if it does: `Buf.place` undone. -/
def Buf.offsetOf (b : Buf) (pa : Nat) : Option Nat :=
  let base := b.base * 65536
  let size := 2 ^ unitBits base
  let rel := pa - unitBase base
  let o :=
    if b.stripe = 0 then pa - base else
    let w := rel % size - (base - unitBase base) % size
    let j := (rel / size + numUnits base - (base - unitBase base) / size % numUnits base) % numUnits base
    (w / 4096 * 2 ^ b.stripe + j) * 4096 + w % 4096
  if b.place o = pa && o < b.len * 65536 then some o else none

/-- DOME_FILL (R356): a line of a valid buffer is brought in. -/
def execDomeFill (buf line : Nat) (s : State) : Host.Outcome State Fault Refusal :=
  .next (let b := s.buf buf
    if b.v && (b.offsetOf (128 * line)).isSome then (s.fillBuf b line).1 else s)

/-! ## Channels (R367) -/

def State.chan (s : State) (i : Nat) : Channel := mapGetD s.chans i Channel.fresh

/-- Whether a spare lane is left. -/
def Channel.spare (x : Channel) : Bool :=
  (if x.rep0.isSome then 1 else 0) + (if x.rep1.isSome then 1 else 0) + x.due.length < 2

/-- A lane's margin is measured, in 1/64 UI: a warning below 12, a repair due below 8, out of service at 0 with no spare
left. -/
def Channel.measure (x : Channel) (lane margin : Nat) : Channel :=
  let x := { x with margins := mapSet x.margins lane margin, minMargin := some (min margin (x.minMargin.getD margin))
                    marginEv := x.marginEv || margin < 12 }
  if 8 ≤ margin || x.due.contains lane then x
  else if x.spare then { x with due := x.due ++ [lane] }
  else { x with offline := x.offline || margin == 0 }

/-- EYE_MARGIN_MEASURE (R367). -/
def execEyeMarginMeasure (stack ch lane margin : Nat) (s : State) : Host.Outcome State Fault Refusal :=
  let i := 32 * stack + ch
  .next { s with chans := mapSet s.chans i ((s.chan i).measure lane margin) }

/-- A lane that is due moves onto the free spare of lowest number. -/
def Channel.repair (x : Channel) (lane : Nat) : Channel :=
  if !x.due.contains lane then x else
  let x := { x with due := x.due.erase lane, margins := mapDel x.margins lane }
  if x.rep0.isNone then { x with rep0 := some lane } else { x with rep1 := some lane }

/-- LANE_REPAIR (R367). -/
def execLaneRepair (stack ch lane : Nat) (s : State) : Host.Outcome State Fault Refusal :=
  let i := 32 * stack + ch
  .next { s with chans := mapUpd s.chans i fun x => x.repair lane }

/-! ## Access counters (R368) -/

/-- Pages whose counter stands below THRESH may post again. -/
def State.unpost (s : State) : State :=
  { s with posted := mapFilter s.posted fun p _ =>
      fieldN (mapGetD s.tierCtl (portOf (65536 * p)) 0xFFFF0000#32).toNat 31 16 ≤ mapGetD s.counters p 0 }

/-- COUNTER_DECAY (R368): the counters of a port or controller are halved, unless its DECAY is 0. -/
def execCounterDecay (port : Nat) (s : State) : Host.Outcome State Fault Refusal :=
  .next (if fieldN (mapGetD s.tierCtl port 0xFFFF0000#32).toNat 15 12 = 0 then s else
    { s with counters := mapAll s.counters fun p n => if portOf (65536 * p) = port then n / 2 else n }.unpost)

/-! ## Fault records and barriers -/

/-- FAULT_RECORD_POST (R374): the oldest record of a domain that waits for room. -/
def execFaultRecordPost (pd : Nat) (s : State) : Host.Outcome State Fault Refusal :=
  .next (match s.faultWait.find? fun r => r.pd == pd with
    | none => s
    | some r => match s.postRecord r with
      | some t => { t with faultWait := t.faultWait.erase r }
      | none => s)

/-- BARRIER_RELEASE_STEP (R352): the next clusters of a completed phase, at most S. -/
def execBarrierReleaseStep (l gid : Nat) (s : State) : Host.Outcome State Fault Refusal :=
  .next (let g := (s.launch l).group gid
    let now := g.release.take s.power.state.budget.2.2
    if now.isEmpty then s else
    (s.updLaunch l fun x => { x with groups := mapUpd x.groups gid fun g => { g with release := g.release.drop now.length } }).releaseClusters
      l gid now)

end Sys2Proof.Machine
end

