-- ==== Sys2Proof/Machine/EngineCmds.lean ====
section
/-! DEFINITION. The engine commands (R222 to R227): copy, 2-D copy, gather, scatter, multicast and collective reduce. -/

namespace Sys2Proof.Machine

/-! ## Performing the command in progress -/

/-- The command a queue register's engine performs. -/
def State.curCmd (s : State) (g : Eng) : Option CmdRun := (mapGetD (s.engTask g).queues g.q Queue.fresh).cur

/-- Record where a command stands: going on means that it is done. -/
def State.noteCmd (s : State) (g : Eng) (pos : Nat) (r : Stop) : State :=
  let upd := fun (x : CmdRun) => match r with
    | .go => { x with pos, waiting := false, done := true }
    | .wait => { x with pos, waiting := true }
    | .fault cause code => { x with pos, waiting := false, done := true, fault := some (cause, code) }
  s.updTask g.c g.t fun t => { t with queues := mapUpd t.queues g.q fun q => { q with cur := q.cur.map upd } }

/-- Perform a command of one of some ops, from the place it stands at, unless it waits for an answer. -/
def performCmd (g : Eng) (ops : List Nat) (f : State → CmdRun → State × Stop × Nat) (s : State) :
    Host.Outcome State Fault Refusal :=
  .next (match s.curCmd g with
    | none => s
    | some r =>
      if !ops.contains r.cmd.head.op || r.done || s.engOpen g r.cmd then s else
      match f s r with
      | (s, stop, pos) => s.noteCmd g pos stop)

/-! ## Copy (R222, R223) -/

/-- Elements and bytes of a unit of a page format (R132). -/
def unitOf : Nat → Nat × Nat
  | 3 => (2048, 2112)
  | 4 => (2048, 1088)
  | 5 => (16384, 8512)
  | _ => (1, 1)

/-- The 4-bit element k of a code area (R131). -/
def nibbleAt (area : List Byte) (k : Nat) : Nat :=
  let b := (area.getD (16 * (k / 32) + k % 32 % 16) 0).toNat
  if k % 32 / 16 = 0 then b % 16 else b / 16

/-- Element k of a unit as f32 bits (R223). -/
def unitElem (fmt : Nat) (u : List Byte) (k : Nat) : Nat :=
  match fmt with
  | 3 => (mxdqVal .e4m3 .rn (u.getD (64 + k) 0).toNat (256 * (u.getD (k / 32) 0).toNat)).1
  | 4 => (mxdqVal .e2m1 .rn (nibbleAt (u.drop 64) k) (256 * (u.getD (k / 32) 0).toNat)).1
  | _ => (dqVal .q16n .rn (nibbleAt (u.drop 320) k) (numAt u 0 4) (u.getD (64 + k / 64) 0).toNat).1

/-- The conversion format of a decoded type code. -/
def decFmt : Nat → Fmt
  | 1 => .f16
  | 2 => .bf16
  | _ => .f32

/-- The bits of the elements that a range of a page decodes to (R223). -/
def decodeRange (fmt ty n : Nat) (bs : List Byte) : List Nat :=
  if fmt = 1 || fmt = 2 then
    (bs.take n).map fun b => (toFloat (unpackNarrow (if fmt = 1 then .e4m3 else .e5m2) b.toNat) (decFmt ty) .rn false false).1
  else
    let e := unitOf fmt
    (List.range (n / e.1)).flatMap fun i =>
      let u := sliceN bs (i * e.2) e.2
      (List.range e.1).map fun k =>
        let v := unitElem fmt u k
        if ty = 3 then v else (toFloat (unpackF f32S v) (decFmt ty) .rn false false).1

/-- Whether a decoding copy is one of the table of R223. -/
def decodable (fmt ty n unitAt : Nat) : Bool :=
  match fmt with
  | 1 | 2 => 1 ≤ ty
  | 3 => ty == 3 && unitAt % 2112 == 0 && n % 2048 == 0
  | 4 => 1 ≤ ty && unitAt % 1088 == 0 && n % 2048 == 0
  | 5 => (ty == 1 || ty == 3) && unitAt % 8512 == 0 && n % 16384 == 0
  | _ => false

/-- A decoding copy (R223). -/
def State.copyDecode (s : State) (g : Eng) (m : Cmd) (src dst : Side) (ty n : Nat) : State × Stop × Nat :=
  if src.scratch || !dst.scratch then (s, m.stop 11, 0) else
  match s.translateFor (s.engPd g) src.at_ false with
  | (s, .error cause) => if n = 0 then (s, .go, 0) else (s.engRecord g m src.at_ cause false, .wait, 0)
  | (s, .ok t) =>
    if !decodable t.fmt ty n (src.at_ - t.fbase).toNat then (s, m.stop 11, 0) else
    let e := unitOf t.fmt
    let bytes := n / e.1 * e.2
    match s.rangeFault (s.engPd g) src.at_ bytes false with
    | (s, some f) => (s.engRecord g m (src.plus f.1).at_ f.2 false, .wait, 0)
    | (s, none) =>
      let same := (cuts 65536 src.at_.toNat bytes).all fun p => match (s.translateFor (s.engPd g) (BitVec.ofNat 64 p.1) false).2 with
        | .ok u => u.fmt == t.fmt
        | .error _ => false
      if !same then (s, m.stop 11, 0) else
      match s.sideRead g src bytes with
      | (s, 0, bs) =>
        let out := (decodeRange t.fmt ty n bs).flatMap fun v => bytesOf (decSize ty) v
        match s.sideWrite g dst out fun _ => if ty = 3 then 0 else BitVec.ofNat 4 ty with
        | (s, e) => (s, portStop e, 0)
      | (s, e, _) => (s, portStop e, 0)

/-- COPY (R222, R223). -/
def execCopy (c t q : Nat) (s : State) : Host.Outcome State Fault Refusal :=
  let g : Eng := ⟨c, t, q⟩
  performCmd g [0] (fun s r =>
    let m := r.cmd
    let l := m.head.low
    let src := m.side (fieldN l 17 16, 1)
    let dst := m.side (fieldN l 15 14, 3)
    let n := (m.word 5).toNat
    if bitN l 13 then s.copyDecode g m src dst (fieldN l 12 11) n else
    match s.copyBytes g m (src.plus r.pos) (dst.plus r.pos) (n - r.pos) with
    | (s, stop, k) => (s, stop, r.pos + k)) s

/-- Row r of a 2-D copy's side: pitches are signed; scratchpad addresses are 32 bits wide. -/
def Side.row (x : Side) (r : Nat) (pitch : Word) : Side :=
  let a := x.at_ + BitVec.ofNat 64 r * pitch.signExtend 64
  { x with at_ := if x.scratch then (a.setWidth 32).setWidth 64 else a }

/-- COPY_2D (R224): rows in ascending order. -/
def execCopy2d (c t q : Nat) (s : State) : Host.Outcome State Fault Refusal :=
  let g : Eng := ⟨c, t, q⟩
  performCmd g [1] (fun s r =>
    let m := r.cmd
    let l := m.head.low
    let src := m.side (fieldN l 5 4, 1)
    let dst := m.side (fieldN l 3 2, 3)
    let n := (m.word 5).toNat
    if n = 0 then (s, .go, 0) else
    (List.range (fieldN l 17 6 + 1)).foldl (fun a row =>
      let pos := a.2.2
      if a.2.1 != .go || (row + 1) * n ≤ pos then a else
      let o := pos - row * n
      match a.1.copyBytes g m ((src.row row (m.word 6)).plus o) ((dst.row row (m.word 7)).plus o) (n - o) with
      | (s, stop, k) => (s, stop, pos + k)) (s, .go, r.pos)) s

/-! ## Gather and scatter (R225) -/

/-- Element i of a gather or scatter. -/
def State.indexOne (s : State) (g : Eng) (m : Cmd) (gather : Bool) (i : Nat) : State × Stop :=
  let l := m.head.low
  let size := 2 ^ fieldN l 13 11
  let idx := (m.side (fieldN l 17 16, 1)).plus (4 * i)
  let near := (m.side (fieldN l 15 14, 5)).plus (size * i)
  match s.sideFault (s.engPd g) idx 4 false with
  | (s, some f) => (s.engRecord g m (idx.plus f.1).at_ f.2 false, .wait)
  | (s, none) =>
    match s.sideRead g idx 4 with
    | (s, 0, bs) =>
      let far : Side := ⟨false, m.pair 3 + BitVec.ofNat 64 (ofBytes bs * size)⟩
      if far.at_.toNat % min size 8 != 0 then (s, m.stop 12) else
      let src := if gather then far else near
      let dst := if gather then near else far
      match s.sideFault (s.engPd g) src size false with
      | (s, some f) => (s.engRecord g m (src.plus f.1).at_ f.2 false, .wait)
      | (s, none) =>
        match s.sideFault (s.engPd g) dst size true with
        | (s, some f) => (s.engRecord g m (dst.plus f.1).at_ f.2 true, .wait)
        | (s, none) =>
          match s.copyBytes g m src dst size with
          | (s, stop, _) => (s, stop)
    | (s, e, _) => (s, portStop e)

/-- The elements from the place the command stands at, in ascending order. -/
def State.indexAll (s : State) (g : Eng) (r : CmdRun) (gather : Bool) : State × Stop × Nat :=
  let m := r.cmd
  if (m.side (fieldN m.head.low 17 16, 1)).at_.toNat % 4 != 0 then (s, m.stop 12, r.pos) else
  (List.range ((m.word 7).toNat - r.pos)).foldl (fun a _ =>
    if a.2.1 != .go then a else
    match a.1.indexOne g m gather a.2.2 with
    | (s, .go) => (s, .go, a.2.2 + 1)
    | (s, stop) => (s, stop, a.2.2)) (s, .go, r.pos)

/-- GATHER (R225). -/
def execGather (c t q : Nat) (s : State) : Host.Outcome State Fault Refusal :=
  let g : Eng := ⟨c, t, q⟩
  performCmd g [2] (fun s r => s.indexAll g r true) s

/-- SCATTER (R225). -/
def execScatter (c t q : Nat) (s : State) : Host.Outcome State Fault Refusal :=
  let g : Eng := ⟨c, t, q⟩
  performCmd g [3] (fun s r => s.indexAll g r false) s

/-! ## Multicast (R226) -/

/-- MULTICAST (R226): the whole range is read, every destination's allocation checked, then every destination written. -/
def execMulticast (c t q : Nat) (s : State) : Host.Outcome State Fault Refusal :=
  let g : Eng := ⟨c, t, q⟩
  performCmd g [4] (fun s r =>
    let m := r.cmd
    let src := m.side (fieldN m.head.low 17 16, 1)
    let dst : Side := ⟨true, (m.word 3).setWidth 64⟩
    let n := (m.word 4).toNat
    let task := s.engTask g
    let places := ((s.launch task.launch).fillMembers m.group task.number).filterMap fun k => s.findTask task.launch k
    if !places.all fun p => inScratch (4096 * ((s.core p.1).task p.2).spGrans) dst.at_.toNat n then (s, m.stop 8, 0) else
    match s.sideFault (s.engPd g) src n false with
    | (s, some f) => (s.engRecord g m (src.plus f.1).at_ f.2 false, .wait, 0)
    | (s, none) =>
      let tag := fun i => s.sideTag g (src.plus i)
      match s.sideRead g src n with
      | (s, e, bs) =>
        let s := places.foldl (fun (s : State) p => (s.sideWrite ⟨p.1, p.2, 0⟩ dst bs tag).1) s
        (s, portStop e, 0)) s

/-! ## Collective reduce (R227) -/

/-- Combine two elements of a type (R227). -/
def collCombine (ty op a b : Nat) : Nat :=
  let float := fun (p : FloatSpec) => if op = 0 then (faddF p .rn false a b).1 else (fminmaxF p false (op == 2) true a b).1
  match ty with
  | 0 => float f32S
  | 1 => float f16S
  | 2 => float bf16S
  | 3 => float f64S
  | 4 => if op = 0 then (a + b) % 2 ^ 32 else if decide (sext 32 a ≤ sext 32 b) == (op == 1) then a else b
  | _ => if op = 0 then (a + b) % 2 ^ 32 else if op = 1 then min a b else max a b

/-- A member's part in a collective: where it stands and its command. -/
structure Part where
  g : Eng
  m : Cmd
  deriving DecidableEq, Repr

/-- The commands of an instance that have started, by member in ascending order. -/
def State.collParts (s : State) (l gid inst : Nat) : List Part :=
  ((s.launch l).group gid).members.filterMap fun n => (s.findTask l n).bind fun p =>
    if ((s.core p.1).task p.2).saved then none else
    ((s.core p.1).task p.2).queues.findSome? fun q => q.2.cur.bind fun r =>
      if r.cmd.head.op = 5 && r.cmd.group = gid && r.cmd.inst = inst && !r.done then some ⟨⟨p.1, p.2, q.1⟩, r.cmd⟩ else none

/-- Whether a member has retired, or has exited to retire, without pushing an instance. -/
def State.missed (s : State) (l gid inst n : Nat) : Bool :=
  (mapGet (s.launch l).retired n).isSome || (match s.findTask l n with
    | some p =>
      let t := (s.core p.1).task p.2
      t.state == .draining && t.succ.isNone && t.endKind != 2 && mapGetD t.inst gid 0 ≤ inst
    | none => false)

/-- End every member's command of an instance in the same way. -/
def State.noteParts (s : State) (ps : List Part) (r : Cmd → Stop) : State := ps.foldl (fun s p => s.noteCmd p.g 0 (r p.m)) s

/-- The sides and the element count of a collective. -/
def Cmd.collSrc (m : Cmd) : Side := m.side (fieldN m.head.low 17 16, 1)
def Cmd.collDst (m : Cmd) : Side := m.side (fieldN m.head.low 15 14, 3)

/-- The first page fault among the members' ranges, recorded. -/
def State.partsFault (s : State) (ps : List Part) (n : Nat) : State × Bool :=
  ps.foldl (fun r p =>
    if r.2 then r else
    match r.1.sideFault (r.1.engPd p.g) p.m.collSrc n false with
    | (s, some f) => (s.engRecord p.g p.m (p.m.collSrc.plus f.1).at_ f.2 false, true)
    | (s, none) =>
      match s.sideFault (s.engPd p.g) p.m.collDst n true with
      | (s, some f) => (s.engRecord p.g p.m (p.m.collDst.plus f.1).at_ f.2 true, true)
      | (s, none) => (s, false)) (s, false)

/-- Run an instance all of whose members have pushed it. -/
def State.runCollective (s : State) (ps : List Part) : State :=
  match ps with
  | [] => s
  | p0 :: _ =>
    let m0 := p0.m
    let ty := fieldN m0.head.low 13 11
    let op := fieldN m0.head.low 10 9
    let count := (m0.word 5).toNat
    let size := collSize ty
    let n := count * size
    let spec := fun (m : Cmd) => (fieldN m.head.low 13 9, (m.word 5).toNat)
    if ps.any fun p => spec p.m != spec m0 then s.noteParts ps fun m => m.stop 9
    else if ps.any fun p => p.m.collDst.scratch && !inScratch (4096 * (s.engTask p.g).spGrans) p.m.collDst.at_.toNat n then
      s.noteParts ps fun m => m.stop 8
    else match s.partsFault ps n with
      | (s, true) => s
      | (s, false) =>
        let r := ps.foldl (fun (r : State × Nat × List (List Byte)) p =>
          match r.1.sideRead p.g p.m.collSrc n with
          | (s, e, bs) => (s, max r.2.1 e, r.2.2 ++ [bs])) (s, 0, [])
        if r.2.1 != 0 then r.1.noteParts ps fun _ => portStop r.2.1 else
        let out := (List.range count).flatMap fun i =>
          let xs := r.2.2.map fun bs => numAt bs (i * size) size
          bytesOf size (xs.tail.foldl (collCombine ty op) (xs.headD 0))
        ps.foldl (fun (s : State) p =>
          match s.sideWrite p.g p.m.collDst out fun _ => 0 with
          | (s, e) => s.noteCmd p.g 0 (portStop e)) r.1

/-- COLLECTIVE_REDUCE (R227). -/
def execCollectiveReduce (c t q : Nat) (s : State) : Host.Outcome State Fault Refusal :=
  let g : Eng := ⟨c, t, q⟩
  .next (match s.curCmd g with
    | none => s
    | some r =>
      let m := r.cmd
      if m.head.op != 5 || r.done then s else
      let l := (s.engTask g).launch
      let ps := s.collParts l m.group m.inst
      let members := ((s.launch l).group m.group).members
      if members.any (s.missed l m.group m.inst) then s.noteParts ps fun m => m.stop 9
      else if ps.length < members.length || ps.any fun p => s.engOpen p.g p.m then s
      else s.runCollective ps)

end Sys2Proof.Machine
end

