-- ==== Sys2Proof/Machine/Group.lean ====
section
/-! DEFINITION. The cross-lane instructions (R188 to R199). -/

namespace Sys2Proof.Machine

/-! ## Arrival (R188 to R191) -/

/-- The member mask that an instruction names, as its sub-band reads it (R188). -/
def Ctx.members (x : Ctx) (o : GV) : Word := if o.msrc then x.s o.midx else mapGetD x.b.j (o.midx.toNat % 16) 0

/-- What each lane of a sub-band brings: its value and its index (R190). -/
structure Bring where
  val : Nat → BitVec 64
  idx : Nat → Word
  /-- Whether the lane's sources pass their generation checks. -/
  ok : Nat → Bool

/-- The operation with the lanes of an arrival added. -/
def Ctx.join (x : Ctx) (i : Instr) (m : Word) (b : Bring) : XOp :=
  let w := encode i
  let o := x.b.xop.getD ⟨w.headD 0, w.getD 1 0, m, x.pc, 0, 0, [], []⟩
  let g := x.lanes &&& m
  let a := g &&& x.active
  { o with arrived := o.arrived ||| g, active := o.active ||| a
           vals := o.vals ++ (lanesOf a).map fun l => (l, b.val l)
           idx := o.idx ++ (lanesOf a).map fun l => (l, b.idx l) }

/-- Whether an arrival differs from the open operation (R191). -/
def Ctx.mismatch (x : Ctx) (i : Instr) (m : Word) : Bool :=
  match x.b.xop with
  | some o => encode i != [o.word, o.ext] || o.mask != m
  | none => false

/-- A cross-lane instruction: the checks of R191, the arrival, and, with the last member, the results 8 cycles later. -/
def crossLane (i : Instr) (o : GV) (d : BitVec 2) (vs : List Nat) (b : Ctx → Bring)
    (result : Ctx → XOp → List (Loc × Word) × Fl) (s : State) : Host.Outcome State Fault Refusal :=
  issue i { uni := false, d, words := 2, vs, srcs := [] } (fun x t =>
    let m := x.members o
    if x.l.gentrap && o.msrc && !(x.readS o.midx.toNat).2 then .trap 0x04 0 0
    else if x.lanes &&& m = 0 then .ok t
    else if m &&& ~~~x.b.live != 0 then .trap 0x07 1 0
    else if x.mismatch i m then .trap 0x07 2 0
    else if x.l.gentrap && (lanesOf (x.active &&& m)).any fun l => !(b x).ok l then .trap 0x04 0 0
    else
      let q := x.join i m (b x)
      if q.arrived = m then
        let r := result x q
        let others := m &&& ~~~x.lanes
        let t := t.updBand x.core x.slot fun y => { y with xop := none }
        let t := t.writeLater x.core x.slot (x.now + 8) x.gen r.1 r.2
        .ok (if others = 0 then t else t.passBlock x.core x.slot others 2 false)
      else .stay fun s =>
        ((s.updBand x.core x.slot fun y => { y with xop := some q, turn := none }).updEntry x.core x.e fun e =>
          { e with wait := .member }).rebalance x.core x.e) s

/-- The contributing lanes, ascending, with their values. -/
def XOp.lanes (q : XOp) : List Nat := lanesOf q.active

def XOp.val (q : XOp) (l : Nat) : BitVec 64 := ((q.vals.find? fun p => p.1 == l).map (·.2)).getD 0

def XOp.index (q : XOp) (l : Nat) : Word := ((q.idx.find? fun p => p.1 == l).map (·.2)).getD 0

/-- One 32-bit or 64-bit result for each contributing lane. -/
def Ctx.group (x : Ctx) (q : XOp) (wide : Bool) (vd : BitVec 7) (f : Nat → BitVec 64) : List (Loc × Word) :=
  q.lanes.flatMap fun l =>
    if wide then [(x.vAt l vd, lo32 (f l)), (x.vAt1 l vd, hi32 (f l))] else [(x.vAt l vd, lo32 (f l))]

/-- A vector source, a pair for the 64-bit types, and whether it passes its checks. -/
def Ctx.value (x : Ctx) (wide : Bool) (va : BitVec 7) (l : Nat) : BitVec 64 := if wide then x.v64 l va else (x.v l va).setWidth 64

def Ctx.valueOk (x : Ctx) (wide : Bool) (va : BitVec 7) (l : Nat) : Bool :=
  (x.readV l va.toNat).2 && (!wide || (x.readV l (va.toNat + 1)).2)

/-! ## Votes, shuffles and broadcast (R195 to R197) -/

/-- VOTE (R195). -/
def execVote (op : VoteOp) (o : GV) (s : State) : Host.Outcome State Fault Refusal :=
  crossLane (.vote op o) o o.d (if op = .ballot then [o.vd.toNat] else [])
    (fun x => ⟨fun l => if x.p l (o.va.extractLsb' 0 3) then 1 else 0, fun _ => 0,
      fun l => (readP x.k x.slot x.gen l (o.va.extractLsb' 0 3).toNat).2⟩)
    (fun x q =>
      let on := fun l => q.val l != 0
      let put := fun (b : Bool) => q.lanes.map fun l => (x.pAt l (o.vd.extractLsb' 0 3), if b then 1#32 else 0#32)
      (match op with
        | .all => put (q.lanes.all on)
        | .any => put (q.lanes.any on)
        | .ballot => q.lanes.map fun l => (x.vAt l o.vd, maskOf (q.lanes.filter on)), flNone)) s

/-- The source lane of a shuffle (R196). -/
def shflLane (op : ShflOp) (l : Nat) (b : Nat) : Int :=
  match op with
  | .idx => b
  | .up => (l : Int) - b
  | .down => l + b
  | .xor => Nat.xor l b

/-- SHFL (R196). -/
def execShfl (op : ShflOp) (ty : MTy) (o : GV) (s : State) : Host.Outcome State Fault Refusal :=
  crossLane (.shfl op ty o) o o.d ([o.vd.toNat, o.va.toNat] ++ lastV o.u o.vb)
    (fun x => ⟨x.value ty.wide o.va, fun l => x.last l o.u o.vb,
      fun l => x.valueOk ty.wide o.va l && (if o.u then (x.readS (o.vb.extractLsb' 0 6).toNat).2 else (x.readV l o.vb.toNat).2)⟩)
    (fun x q => (x.group q ty.wide o.vd fun l =>
      let j := shflLane op l (q.index l).toNat
      if 0 ≤ j && j ≤ 31 && q.active.getLsbD j.toNat then q.val j.toNat else q.val l, flNone)) s

/-- BCAST (R197): the value the last arrival read decides the source lane. -/
def execBcast (ty : MTy) (o : GV) (s : State) : Host.Outcome State Fault Refusal :=
  let sb := o.vb.extractLsb' 0 6
  crossLane (.bcast ty o) o o.d [o.vd.toNat, o.va.toNat]
    (fun x => ⟨x.value ty.wide o.va, fun _ => 0, fun l => x.valueOk ty.wide o.va l && (x.readS sb.toNat).2⟩)
    (fun x q =>
      let j := (x.s sb).toNat
      let from_ := if j ≤ 31 && q.active.getLsbD j then j else q.lanes.headD 0
      (x.group q ty.wide o.vd fun _ => q.val from_, flNone)) s

/-! ## Reductions and scans (R198, R199) -/

/-- Combine two values of a type (R198). -/
def redCombine (op : RedOp) (ty : MTy) (rm : Rnd) (ftz : Bool) (a b : Nat) : Nat × Fl :=
  let n := 8 * ty.size
  let p := fmtSpec ty.fmt
  let ftz := ftz && half16 ty.fmt
  let signed := ty == .i32 || ty == .i64
  match op with
  | .add => if ty.isFloat then faddF p rm ftz a b else ((a + b) % 2 ^ n, flNone)
  | .min => if ty.isFloat then fminmaxF p ftz false true a b
      else (if signed then (if sext n a ≤ sext n b then a else b) else min a b, flNone)
  | .max => if ty.isFloat then fminmaxF p ftz true true a b
      else (if signed then (if sext n a ≤ sext n b then b else a) else max a b, flNone)
  | .and => (Nat.land a b, flNone)
  | .or => (Nat.lor a b, flNone)
  | .xor => (Nat.xor a b, flNone)

/-- A result as it is written: a NaN is canonical. -/
def redCanon (ty : MTy) (v : Nat) : Nat :=
  if ty.isFloat && (unpackF (fmtSpec ty.fmt) v).isNaN then (fmtSpec ty.fmt).nanBits else v

/-- One level of the tree: neighbours combined, the present one of a pair kept (R198). -/
def redLevel (f : Nat → Nat → Nat × Fl) : List (Option Nat) → List (Option Nat) × Fl
  | a :: b :: r =>
    let t := redLevel f r
    match a, b with
    | some x, some y => (some (f x y).1 :: t.1, (f x y).2 ||| t.2)
    | some x, none => (some x :: t.1, t.2)
    | none, y => (y :: t.1, t.2)
  | [a] => ([a], flNone)
  | [] => ([], flNone)

/-- The tree of R198. -/
def redTree (f : Nat → Nat → Nat × Fl) (l : List (Option Nat)) : Option Nat × Fl :=
  let r := (List.range 5).foldl (fun (r : List (Option Nat) × Fl) _ =>
    let t := redLevel f r.1
    (t.1, r.2 ||| t.2)) (l, flNone)
  ((r.1.headD none), r.2)

/-- The value a lane contributes to a reduction of a type. -/
def XOp.num (q : XOp) (ty : MTy) (l : Nat) : Nat := (q.val l).toNat % 256 ^ ty.size

/-- NV for a signalling contribution, even one that passes through untouched (R198). -/
def XOp.signals (q : XOp) (ty : MTy) : Fl :=
  flIf (ty.isFloat && q.lanes.any fun l => (unpackF (fmtSpec ty.fmt) (q.num ty l)).isSNaN) flNV

/-- RED (R198). -/
def execRed (op : RedOp) (ty : MTy) (o : GV) (s : State) : Host.Outcome State Fault Refusal :=
  crossLane (.red op ty o) o o.d [o.vd.toNat, o.va.toNat]
    (fun x => ⟨x.value ty.wide o.va, fun _ => 0, x.valueOk ty.wide o.va⟩)
    (fun x q =>
      let r := redTree (redCombine op ty (rmOf x.b.rm) x.l.ftz)
        ((List.range 32).map fun l => if q.active.getLsbD l then some (q.num ty l) else none)
      (x.group q ty.wide o.vd fun _ => BitVec.ofNat 64 (redCanon ty (r.1.getD 0)), r.2 ||| q.signals ty)) s

/-- The identity of an operation on a type (R199). -/
def redIdentity (op : RedOp) (ty : MTy) : Nat :=
  let n := 8 * ty.size
  let p := fmtSpec ty.fmt
  let signed := ty == .i32 || ty == .i64
  match op with
  | .add | .or | .xor => 0
  | .and => 2 ^ n - 1
  | .min => if ty.isFloat then p.infBits else if signed then 2 ^ (n - 1) - 1 else 2 ^ n - 1
  | .max => if ty.isFloat then p.signBit + p.infBits else if signed then 2 ^ (n - 1) else 0

/-- The prefixes of R199: each lane's result, and the flags. -/
def scanAll (f : Nat → Nat → Nat × Fl) (id : Nat) (excl : Bool) (xs : List (Nat × Nat)) : List (Nat × Nat) × Fl :=
  let r := xs.foldl (fun (r : List (Nat × Nat) × Option Nat × Fl) x =>
    let c := match r.2.1 with
      | none => (x.2, flNone)
      | some v => f v x.2
    (r.1 ++ [(x.1, if excl then r.2.1.getD id else c.1)], some c.1, r.2.2 ||| c.2)) ([], none, flNone)
  (r.1, r.2.2)

/-- SCAN (R199). -/
def execScan (op : RedOp) (ty : MTy) (excl : Bool) (o : GV) (s : State) : Host.Outcome State Fault Refusal :=
  crossLane (.scan op ty excl o) o o.d [o.vd.toNat, o.va.toNat]
    (fun x => ⟨x.value ty.wide o.va, fun _ => 0, x.valueOk ty.wide o.va⟩)
    (fun x q =>
      let r := scanAll (redCombine op ty (rmOf x.b.rm) x.l.ftz) (redIdentity op ty) excl (q.lanes.map fun l => (l, q.num ty l))
      (x.group q ty.wide o.vd fun l =>
        BitVec.ofNat 64 (redCanon ty (((r.1.find? fun p => p.1 == l).map (·.2)).getD 0)), r.2 ||| q.signals ty)) s

end Sys2Proof.Machine
end

