-- ==== Sys2Proof/Machine/Walker.lean ====
section
/-! DEFINITION. The graph walkers (R331 to R342, R351): taking entries, and the nodes of a graph. -/

namespace Sys2Proof.Machine

/-! ## Queues (R331, R332) -/

/-- The spire whose walker serves a queue (R22). -/
def queueSpire (q : Nat) : Nat := q % 8

/-- Whether a walker may take an entry of a queue. -/
def WorkQueue.ready (w : WorkQueue) : Bool := w.enable && !w.err && w.head != w.tail

/-- The queue whose entry is next: of highest priority, then round robin after the one taken last at it. -/
def State.nextQueue (s : State) (spire : Nat) : Option Nat :=
  if 64 ≤ (s.graphs.filter fun g => queueSpire g.1 == spire).length then none else
  let l := s.wqs.filter fun w => queueSpire w.1 == spire && w.2.ready && (mapGet s.graphs w.1).isNone
  let top := l.foldl (fun a w => max a w.2.prio.toNat) 0
  nextRound ((l.filter fun w => w.2.prio.toNat == top).map (·.1)) (mapGet s.lastTaken (8 * spire + top))

/-- Whether an entry's bytes are as they must be at a count (R331). -/
def entryOk (l : List Byte) (i : Nat) : Bool :=
  numAt l 0 8 % 64 == 0 && numAt l 10 2 == 0 && numAt l 12 4 == i && numAt l 16 8 % 16 == 0 && numAt l 24 8 == 0

/-- WALKER_TAKE_ENTRY (R332): an entry that is malformed, or cannot be read, stops its queue (R331). -/
def execWalkerTakeEntry (spire : Nat) (s : State) : Host.Outcome State Fault Refusal :=
  .next (match s.nextQueue spire with
    | none => s
    | some q =>
      let w := mapGetD s.wqs q WorkQueue.fresh
      let i := w.head.toNat % 2 ^ (min 16 w.log2n.toNat)
      let stop := fun (s : State) => { s with wqs := mapUpd s.wqs q fun w => { w with err := true } }
      match s.askRead (s.walkAsker q) (w.rbase + BitVec.ofNat 64 (32 * i)) 32 with
      | (s, .error _) => stop s
      | (s, .ok l) =>
        if !entryOk l w.head.toNat then stop s else
        { s with wqs := mapUpd s.wqs q fun w => { w with head := w.head + 1 }
                 lastTaken := mapSet s.lastTaken (8 * spire + w.prio.toNat) q, pdEnd := mapDel s.pdEnd w.pd.toNat
                 graphs := mapSet s.graphs q ⟨BitVec.ofNat 64 (numAt l 0 8), w.head, BitVec.ofNat 64 (numAt l 16 8), numAt l 8 2, [],
                   none, none, 0, false⟩ })

/-! ## Nodes (R333) -/

def Graph.nodeVa (g : Graph) : BitVec 64 := g.addr + BitVec.ofNat 64 (64 * g.node)

/-- The node that a running graph has reached, if the walker can read it. -/
def State.readNode (s : State) (q : Nat) (g : Graph) : State × Option (List Byte) :=
  if 0xFFFF ≤ g.node then (s, none) else
  match s.askRead (s.walkAsker q) g.nodeVa 64 with
  | (s, .ok l) => (s, some l)
  | (s, .error _) => (s, none)

def nodeType (l : List Byte) : Nat := numAt l 3 1
def nodeNext (l : List Byte) : Nat := numAt l 0 2

/-- Whether bytes `i` to `j - 1` of a node are zero. -/
def zeroIn (l : List Byte) (i j : Nat) : Bool := numAt l i (j - i) == 0

/-- What every node's header must hold; NEXT counts but for END. -/
def headerOkN (l : List Byte) : Bool := numAt l 2 1 == 0 && (nodeType l == 7 || nodeNext l != 0xFFFF)

def Graph.reg (g : Graph) (i : Nat) : Word := mapGetD g.w i 0

def State.updGraph (s : State) (q : Nat) (f : Graph → Graph) : State := { s with graphs := mapUpd s.graphs q f }

/-- Go to a node. -/
def State.goNode (s : State) (q n : Nat) : State :=
  s.updGraph q fun g => { g with node := n, launch := none, waitFrom := none, copyPos := 0, waiting := false }

/-- Perform the node that a graph has reached, if it is of a type: well-formed, by `f`; malformed, the graph ends with
status 1. Nothing happens while the graph waits for a fault record's answer or for its KERNEL node. -/
def atNode (q ty : Nat) (ok : List Byte → Bool) (f : Graph → List Byte → State → State) (s : State) :
    Host.Outcome State Fault Refusal :=
  .next (match mapGet s.graphs q with
    | none => s
    | some g =>
      if g.waiting || g.launch.isSome then s else
      match s.readNode q g with
      | (_, none) => s
      | (t, some l) =>
        if nodeType l != ty then s
        else if !headerOkN l || !ok l then t.endGraph q 1 0 0
        else f g l t)

/-- MALFORMED_NODE (R333): a reserved TYPE, or a node that cannot be read. -/
def execMalformedNode (q : Nat) (s : State) : Host.Outcome State Fault Refusal :=
  .next (match mapGet s.graphs q with
    | none => s
    | some g =>
      if g.waiting || g.launch.isSome then s else
      match s.readNode q g with
      | (t, none) => t.endGraph q 1 0 0
      | (t, some l) => if nodeType l = 0 || 8 ≤ nodeType l then t.endGraph q 1 0 0 else s)

/-! ## COND, WHILE, END (R338, R339) -/

/-- Whether a condition node's codes and zeros are as they must be. -/
def condOk (l : List Byte) : Bool := decide (numAt l 4 1 / 16 < 10) && numAt l 14 2 == 0 && numAt l 12 2 != 0xFFFF

def condHolds (g : Graph) (l : List Byte) : Bool :=
  compareCC (BitVec.ofNat 4 (numAt l 4 1 / 16)) (g.reg (numAt l 4 1 % 16)) (BitVec.ofNat 32 (numAt l 8 4))

/-- COND_NODE (R338). -/
def execCondNode (q : Nat) (s : State) : Host.Outcome State Fault Refusal :=
  atNode q 3 (fun l => condOk l && zeroIn l 5 8 && zeroIn l 16 64)
    (fun g l s => s.goNode q (if condHolds g l then numAt l 12 2 else nodeNext l)) s

/-- WHILE_NODE (R338). -/
def execWhileNode (q : Nat) (s : State) : Host.Outcome State Fault Refusal :=
  atNode q 4 (fun l => condOk l && decide (numAt l 5 1 < 16) && zeroIn l 6 8 && zeroIn l 20 64)
    (fun g l s =>
      let c := numAt l 5 1
      let limit := if numAt l 16 4 = 0 then 2 ^ 32 else numAt l 16 4
      if !condHolds g l then (s.updGraph q fun g => { g with w := mapSet g.w c 0 }).goNode q (nodeNext l)
      else if limit ≤ (g.reg c).toNat then s.endGraph q 6 0 0
      else (s.updGraph q fun g => { g with w := mapSet g.w c (g.reg c + 1) }).goNode q (numAt l 12 2)) s

/-- END_NODE (R339). -/
def execEndNode (q : Nat) (s : State) : Host.Outcome State Fault Refusal :=
  atNode q 7 (fun l => zeroIn l 4 64) (fun _ _ s => s.endGraph q 0 0 0) s

/-! ## COPY, WAITQ, SIGNAL (R339) -/

/-- A page fault of a walker's access: its record is posted and the graph waits; anything else ends the graph with
status 8. -/
def State.nodeMiss (s : State) (q : Nat) (g : Graph) (m : Miss) (write : Bool) : State :=
  match m with
  | .port _ => s.endGraph q 8 0 0
  | .page va cause =>
    (s.raiseRecord ⟨va, 0, 0xFFFF, 0xFF, 0xFF, 0, cause, if write then 1 else 0, (s.walkAsker q).pd, g.nodeVa, (0, q, 0)⟩).updGraph q
      fun g => { g with waiting := true }

/-- COPY_NODE (R339): bytes are copied up to a page fault; of overlapping ranges none before one (R222). -/
def execCopyNode (q : Nat) (s : State) : Host.Outcome State Fault Refusal :=
  atNode q 2 (fun l => zeroIn l 32 64)
    (fun g l s =>
      let a := s.walkAsker q
      let n := numAt l 24 8 - g.copyPos
      let src := BitVec.ofNat 64 (numAt l 8 8 + g.copyPos)
      let dst := BitVec.ofNat 64 (numAt l 16 8 + g.copyPos)
      match s.rangeFault a.pd src n false with
      | (s, fs) =>
        match s.rangeFault a.pd dst n true with
        | (s, fd) =>
          let first := match fs, fd with
            | none, none => none
            | some x, none => some (x.1, x.2, false)
            | none, some y => some (y.1, y.2, true)
            | some x, some y => if x.1 ≤ y.1 then some (x.1, x.2, false) else some (y.1, y.2, true)
          let meets := decide (src.toNat < dst.toNat + n) && decide (dst.toNat < src.toNat + n)
          let k := match first with
            | none => n
            | some f => if meets then 0 else f.1
          match s.rangeReadAs a src k with
          | (s, 0, bs) =>
            (match s.rangeWriteAs a none dst bs with
            | (s, 0) =>
              (match first with
              | none => s.goNode q (nodeNext l)
              | some f => (s.updGraph q fun g => { g with copyPos := g.copyPos + k }).nodeMiss q g
                  (.page ((if f.2.2 then dst else src) + BitVec.ofNat 64 f.1) f.2.1) f.2.2)
            | (s, _) => s.endGraph q 8 0 0)
          | (s, _, _) => s.endGraph q 8 0 0) s

/-- Whether a WAITQ node is well formed. -/
def waitqOk (l : List Byte) : Bool :=
  let cc := numAt l 4 1 / 16
  numAt l 4 1 % 16 == 0 && (cc < 2 || (6 ≤ cc && cc ≤ 9)) && zeroIn l 5 8 && zeroIn l 36 64 && numAt l 8 8 % 8 == 0

/-- Read the awaited word: the node completes when the condition holds. -/
def State.pollWord (s : State) (q : Nat) (g : Graph) (l : List Byte) : State :=
  match s.askRead (s.walkAsker q) (BitVec.ofNat 64 (numAt l 8 8)) 8 with
  | (s, .error m) => s.nodeMiss q g m false
  | (s, .ok bs) =>
    let v := BitVec.ofNat 64 (ofBytes bs) &&& BitVec.ofNat 64 (numAt l 24 8)
    if compareCC (BitVec.ofNat 4 (numAt l 4 1 / 16)) v (BitVec.ofNat 64 (numAt l 16 8)) then s.goNode q (nodeNext l) else s

/-- WAITQ_NODE (R339): the wait begins with the first read. -/
def execWaitqNode (q : Nat) (s : State) : Host.Outcome State Fault Refusal :=
  atNode q 5 waitqOk (fun g l s =>
    if g.waitFrom.isSome then s else (s.updGraph q fun g => { g with waitFrom := some s.usec }).pollWord q g l) s

/-- WAITQ_POLL (R339). -/
def execWaitqPoll (q : Nat) (s : State) : Host.Outcome State Fault Refusal :=
  atNode q 5 waitqOk (fun g l s => if g.waitFrom.isNone then s else s.pollWord q g l) s

/-- WAITQ_TIMEOUT (R339): status 7. -/
def execWaitqTimeout (q : Nat) (s : State) : Host.Outcome State Fault Refusal :=
  atNode q 5 waitqOk (fun g l s =>
    if numAt l 32 4 != 0 && g.waitFrom.any fun t => t + numAt l 32 4 ≤ s.usec then s.endGraph q 7 0 0 else s) s

/-- SIGNAL_NODE (R339): a 64-bit store or atomic add. -/
def execSignalNode (q : Nat) (s : State) : Host.Outcome State Fault Refusal :=
  atNode q 6 (fun l => zeroIn l 5 8 && zeroIn l 24 64 && numAt l 8 8 % 8 == 0)
    (fun g l s =>
      let a := s.walkAsker q
      let va := BitVec.ofNat 64 (numAt l 8 8)
      let b := numAt l 4 1
      let v : BitVec 64 := if bitN b 1 then (g.reg (b / 16)).setWidth 64 else BitVec.ofNat 64 (numAt l 16 8)
      let put := fun (s : State) (v : BitVec 64) => match s.askWrite a va (bytesOf 8 v.toNat) with
        | (s, none) => s.goNode q (nodeNext l)
        | (s, some m) => s.nodeMiss q g m true
      if !bitN b 0 then put s v else
      match s.askRead a va 8 with
      | (s, .error m) => s.nodeMiss q g m true
      | (s, .ok bs) => put s (BitVec.ofNat 64 (ofBytes bs) + v)) s

/-! ## KERNEL nodes (R334, R335, R342) -/

/-- Numbers of a range: start, end, step (R39, R48). -/
def rangeOf (r : Nat × Nat × Nat) : List Nat :=
  if r.2.1 < r.1 then [] else (List.range ((r.2.1 - r.1) / max 1 r.2.2 + 1)).map fun i => r.1 + i * max 1 r.2.2

/-- The logical cores of a launch (R334). -/
def logicalCores (spires cbase c : Nat) : List Nat :=
  if c = 0 then (List.range numCores).filter fun p => bitN spires (coreSpire p) else (List.range c).map (cbase + ·)

/-- The group table that a KERNEL node fills (R200, R201). -/
def groupTable (r : LaunchRec) (tasks : Nat) : Map Group :=
  let zero : Group := ⟨[], 0, r.groups.any fun g => g.1 == 0 && g.2.1, List.range tasks, []⟩
  (r.groups.filter (·.1 != 0)).foldl (fun m g =>
    mapSet m g.1 ⟨[], 0, g.2.1, ((g.2.2.flatMap rangeOf).filter (· < tasks)).dedup.mergeSort, []⟩) [(0, zero)]

/-- The object a handle names; 0 names the one whose range holds the node. -/
def State.nodeObject (s : State) (pd handle : Nat) (va : BitVec 64) : Option Nat :=
  if handle = 0 then
    (s.objects.find? fun o => o.2.pd == pd && o.2.va.toNat ≤ va.toNat && va.toNat < o.2.va.toNat + o.2.bytes).map (·.1)
  else if (mapGet s.objects handle).any fun o => o.pd == pd then some handle else none

/-- The launch that a KERNEL node describes, if it is valid (R335 check 1, R374). -/
def State.launchOf (s : State) (q : Nat) (g : Graph) (l : List Byte) : Option Launch :=
  let w := mapGetD s.wqs q WorkQueue.fresh
  let pd := w.pd.toNat
  (s.nodeObject pd (numAt l 4 4) g.nodeVa).bind fun h =>
    let ob := s.object h
    (ob.launches[numAt l 8 2]?).bind fun r =>
      (ob.kernels[r.kernel]?).bind fun k =>
        let cbase := numAt l 12 2
        let c := numAt l 14 2
        let cores := logicalCores r.spires cbase c
        let ok := (mapGetD s.pds pd PdRec.fresh).flags.getLsbD 0 && decide (cbase + c ≤ numCores) && (c != 0 || cbase == 0) &&
          (cores.all fun p => bitN r.spires (coreSpire p)) && (k.tlstride == 0 || numAt l 56 8 != 0)
        if !ok then none else
        let tasks := if numAt l 32 4 = 0 then r.tasks else numAt l 32 4
        some { queue := q, pd, object := h, kernel := r.kernel, tasks, threads := r.threads, det := r.det, ftz := r.ftz
               gentrap := r.gentrap, prio := w.prio.toNat, cores
               kvec := if numAt l 16 8 = 0 then ob.keepEntry else BitVec.ofNat 64 (numAt l 16 8)
               par := if numAt l 24 8 = 0 then r.params else BitVec.ofNat 64 (numAt l 24 8)
               tlbase := BitVec.ofNat 64 (numAt l 56 8), resultReg := numAt l 10 1, combine := numAt l 11 1, next := nodeNext l
               limit := if numAt l 36 2 = 0 then 1000 else numAt l 36 2, saveBase := BitVec.ofNat 64 (numAt l 40 8)
               saveStride := numAt l 48 4, slice := numAt l 52 4, groups := groupTable r tasks
               exited := [], results := [], retired := [], failed := false, timedOut := false }

/-- The co-residence test (R335 check 2). -/
def State.coResident (s : State) (x : Launch) : Bool :=
  let cap := ((s.variantOf x (s.groupVariant x)).map Variant.cap).getD 0
  x.groups.all fun g => !g.2.cores ||
    if x.det then (List.range x.cores.length).all fun j => (g.2.members.filter fun m => m % x.cores.length == j).length ≤ cap
    else g.2.members.length ≤ cap * x.cores.length

/-- The cluster that a dispatcher gives a task: of its sector, with a logical core, the fewest queued tasks (R24, R342). -/
def State.clusterFor (s : State) (x : Launch) (sector : Nat) : Nat :=
  ((sectorClusters sector).filter fun c => !(x.coresIn c).isEmpty).foldl (fun (a : Option Nat) c => match a with
    | none => some c
    | some b => if (s.cluster c).queue.length < (s.cluster b).queue.length then some c else some b) none |>.getD 0

/-- Distribute and Queue (R24, R342, R351). -/
def State.distribute (s : State) (id : Nat) (x : Launch) : State :=
  let sectors := (x.cores.map coreSector).dedup.mergeSort
  (List.range x.tasks).foldl (fun s i =>
    let cl := if x.det then coreCluster (x.cores.getD (i % x.cores.length) 0)
      else s.clusterFor x (sectors.getD (i % sectors.length) 0)
    s.enqueue cl ⟨id, i, none, none, false, none⟩) s

/-- KERNEL_NODE (R335). -/
def execKernelNode (q : Nat) (s : State) : Host.Outcome State Fault Refusal :=
  atNode q 1 (fun l => decide (numAt l 10 1 < 16) && decide (numAt l 11 1 < 7) && zeroIn l 38 40)
    (fun g l s =>
      match s.launchOf q g l with
      | none => s.endGraph q 3 0 0
      | some x =>
        if !s.coResident x then s.endGraph q 2 0 0 else
        let id := s.nextLaunch
        let s := { s with launches := mapSet s.launches id x, nextLaunch := id + 1, pdEnd := mapDel s.pdEnd x.pd }
        ((s.updGraph q fun g => { g with launch := some id }).distribute id x).checkLaunch id) s

end Sys2Proof.Machine
end

