-- ==== Sys2Proof/Machine/HostIO.lean ====
section
/-! DEFINITION. What the host and other modules reach directly (R249, R330, R360, R371 to R374, R377): RDMA, the register
space, transport connections. -/

namespace Sys2Proof.Machine

/-! ## Power while something arrives (R382) -/

/-- The lower of two active states. -/
def PState.rank : PState → Nat
  | .p0 => 0
  | .p1 => 1
  | .p2 => 2
  | .p3 => 3
  | .i1 => 4
  | .i2 => 5
  | .i3 => 6

/-- The highest state no higher than the cap and the thermal limit. -/
def Power.target (p : Power) : PState :=
  match p.thermal with
  | some t => if p.cap.rank < t.rank then t else p.cap
  | none => p.cap

/-- Wake the module from an idle state: the change takes effect at the next control interval. -/
def State.wakeUp (s : State) : State :=
  if s.power.state.idle || s.power.pendState.any PState.idle then
    { s with power := { s.power with pendState := some s.power.target } }
  else s

/-! ## The register space (R372) -/

def regBase : Nat := 0xF0000000000
def regEnd : Nat := 0x100000000000

/-- Bytes of a 32-byte work-queue descriptor (R330). -/
def WorkQueue.bytes (w : WorkQueue) : List Byte :=
  bytesOf 32 ((if w.err then 2 ^ 28 else 0) + (if w.enable then 2 ^ 29 else 0) + w.prio.toNat * 2 ^ 30 + w.log2n.toNat * 2 ^ 33 +
    w.key.toNat * 2 ^ 38 + w.tenant.toNat * 2 ^ 48 + w.pd.toNat * 2 ^ 64 + w.head.toNat * 2 ^ 128 + w.tail.toNat * 2 ^ 160 +
    w.rbase.toNat * 2 ^ 192)

/-- Bytes of a protection-domain record (R374). -/
def PdRec.bytes (p : PdRec) : List Byte :=
  bytesOf 8 p.root.toNat ++ bytesOf 8 p.ring.toNat ++ bytesOf 4 p.tail.toNat ++ bytesOf 4 p.head.toNat ++ [p.log2n, p.flags] ++
    zeroBytes 6 ++ bytesOf 8 p.ebase.toNat ++ bytesOf 4 p.estride.toNat ++ zeroBytes 20

/-- Bytes of a routing-table entry (R377). -/
def Route.bytes (r : Route) : List Byte :=
  bytesOf 16 (r.addr.toNat + r.ports.toNat * 2 ^ 96 + (if r.copyOnly then 2 ^ 126 else 0) + if r.v then 2 ^ 127 else 0)

/-- Bytes of the command ring's control (R372). -/
def Rings.bytes (g : Rings) : List Byte :=
  bytesOf 4 g.cmdTail.toNat ++ bytesOf 4 g.cmdHead.toNat ++ bytesOf 8 g.tierAddr.toNat ++ [g.tierLog2n] ++ zeroBytes 3 ++
    bytesOf 4 g.tierTail.toNat ++ bytesOf 4 g.tierHead.toNat ++ zeroBytes 36

/-- Module time in µs (R373): 0 until SETTIME. -/
def State.time (s : State) : BitVec 64 :=
  match s.mgmt.timeSet with
  | some t => s.mgmt.time + BitVec.ofNat 64 (s.usec - t)
  | none => 0

/-- The identity record's fields (R373). -/
def State.identity (s : State) : List Byte :=
  [0x53#8, 0x52#8, 0x46#8, 0x2D#8, 0x48#8, 0x39#8, 0x4D#8, 0#8, 0xB0#8, if s.mgmt.forensic then 1#8 else 0#8] ++
    bytesOf 2 s.mgmt.moduleNo.toNat ++ bytesOf 4 Config.firmware.toNat ++ bytesOf 16 Config.serial.toNat ++
    bytesOf 8 (Config.bootNonce s.mgmt.bootNo).toNat ++ bytesOf 8 s.time.toNat

/-- The ranges of the register space. -/
inductive RegKind where
  | identity | queue | domain | buffer | route | command | control
  deriving DecidableEq, Repr

/-- The range that an offset of the space lies in: its kind, base, size, and the bytes of one of its registers. -/
def regRange (o : Nat) : Option (RegKind × Nat × Nat × Nat) :=
  ([(.identity, 0, 0x1000, 0x1000), (.queue, 0x100000, 0x40000, 32), (.domain, 0x1000000, 0x40000, 64),
    (.buffer, 0x2000000, 0x200000, 32), (.route, 0x4000000, 0x10000, 16), (.command, 0x5000000, 0x4000, 64),
    (.control, 0x5004000, 64, 64)] : List (RegKind × Nat × Nat × Nat)).find? fun r => r.2.1 ≤ o && o < r.2.1 + r.2.2.1

/-- Bytes of register i of a range. -/
def State.regBytes (s : State) (k : RegKind) (i : Nat) : List Byte :=
  match k with
  | .identity => s.identity
  | .queue => (mapGetD s.wqs i WorkQueue.fresh).bytes
  | .domain => (mapGetD s.pds i PdRec.fresh).bytes
  | .buffer => bytesOf 32 (mapGetD s.bufs i bufReset).toNat
  | .route => (mapGetD s.routes i Route.fresh).bytes
  | .command => mapGetD s.rings.cmds i []
  | .control => s.rings.bytes

/-- A byte of the register space; a reserved one reads zero. -/
def State.regByte (s : State) (o : Nat) : Byte :=
  match regRange o with
  | none => 0
  | some (k, base, _, unit) => (s.regBytes k ((o - base) / unit)).getD ((o - base) % unit) 0

/-! ## Writes (R330, R360, R372, R374, R377) -/

/-- A list with bytes from place i replaced. -/
def overlay (l : List Byte) (i : Nat) (bs : List Byte) : List Byte := l.take i ++ bs ++ l.drop (i + bs.length)

/-- A write to a work-queue descriptor: while ENABLE is 1 only TAIL, ENABLE and ERR take it; ERR is cleared by a 1. -/
def WorkQueue.write (w : WorkQueue) (i : Nat) (bs : List Byte) : WorkQueue :=
  let n := ofBytes (overlay w.bytes i bs)
  let ones := ofBytes (overlay (zeroBytes 32) i bs)
  let f := fun hi lo => fieldN n hi lo
  let w' := { w with tail := BitVec.ofNat 32 (f 191 160), enable := bitN n 29, err := w.err && !bitN ones 28 }
  if w.enable then w' else
  { w' with rbase := BitVec.ofNat 64 (f 255 192), pd := BitVec.ofNat 32 (f 95 64), tenant := BitVec.ofNat 16 (f 63 48)
            key := BitVec.ofNat 10 (f 47 38), log2n := BitVec.ofNat 5 (f 37 33), prio := BitVec.ofNat 3 (f 32 30) }

/-- A write to a domain's record: TAIL belongs to the device. -/
def PdRec.write (p : PdRec) (i : Nat) (bs : List Byte) : PdRec :=
  let l := overlay p.bytes i bs
  { root := BitVec.ofNat 64 (numAt l 0 8), ring := BitVec.ofNat 64 (numAt l 8 8), tail := p.tail
    head := BitVec.ofNat 32 (numAt l 20 4), log2n := l.getD 24 0, flags := l.getD 25 0 &&& 1#8
    ebase := BitVec.ofNat 64 (numAt l 32 8), estride := BitVec.ofNat 32 (numAt l 40 4) }

def Route.write (r : Route) (i : Nat) (bs : List Byte) : Route :=
  let n := ofBytes (overlay r.bytes i bs)
  ⟨bitN n 127, bitN n 126, BitVec.ofNat 16 (fieldN n 111 96), BitVec.ofNat 48 (fieldN n 47 0)⟩

/-- A write to the ring control: the HEAD of the commands and the TAIL of the tiering ring belong to the device. A write of
TAIL makes a stopped ring read its entry again. -/
def Rings.write (g : Rings) (i : Nat) (bs : List Byte) : Rings :=
  let l := overlay g.bytes i bs
  { g with cmdTail := BitVec.ofNat 32 (numAt l 0 4), cmdStopped := g.cmdStopped && !(i < 4)
           tierAddr := BitVec.ofNat 64 (numAt l 8 8), tierLog2n := l.getD 16 0, tierHead := BitVec.ofNat 32 (numAt l 24 4) }

/-- Whether the driver interface takes a buffer-table entry (R20, R360, R363). -/
def bufAccepted (x : BitVec 256) : Bool :=
  let n := x.toNat
  let b := bufFields x
  let base := b.base * 65536
  let share := b.len / 2 ^ b.stripe * 65536
  let tier := decide (2 ^ 42 ≤ base) && decide (base < 2 ^ 43)
  let rel := (base - unitBase base) % 2 ^ unitBits base
  let k0 := (base - unitBase base) / 2 ^ unitBits base
  let top := if tier then 2 ^ 43 else 2 ^ 40
  let fits := if b.stripe = 0 then decide (base + b.len * 65536 ≤ top) else
    (List.range (2 ^ b.stripe)).all fun j =>
      unitBase base + (k0 + j) % numUnits base * 2 ^ unitBits base + rel + share ≤ top
  (tier || decide (base < 2 ^ 40)) && fits && (b.enc || b.owner == 0) && (!b.coded || b.geom.ok) &&
    decide (b.stripe ≤ if tier then 3 else 4) && b.len % 2 ^ b.stripe == 0 &&
    fieldN n 235 234 == 0 && fieldN n 191 188 == 0 && fieldN n 159 156 == 0 && fieldN n 127 0 == 0

/-- Write one register: none where it is refused. -/
def State.putReg (s : State) (k : RegKind) (r i : Nat) (bs : List Byte) : Option State :=
  match k with
  | .identity => some s
  | .queue =>
    let s := { s with wqs := mapSet s.wqs r ((mapGetD s.wqs r WorkQueue.fresh).write i bs) }
    some (if i < 24 && 20 < i + bs.length then s.wakeUp else s)
  | .domain => some { s with pds := mapSet s.pds r ((mapGetD s.pds r PdRec.fresh).write i bs) }
  | .buffer =>
    let x := BitVec.ofNat 256 (ofBytes (overlay (s.regBytes .buffer r) i bs))
    if bufAccepted x then some { s with bufs := mapSet s.bufs r x } else none
  | .route => some { s with routes := mapSet s.routes r ((mapGetD s.routes r Route.fresh).write i bs) }
  | .command => some { s with rings := { s.rings with cmds := mapSet s.rings.cmds r (overlay (padTo 64 (mapGetD s.rings.cmds r (zeroBytes 64))) i bs) } }
  | .control =>
    let s := { s with rings := s.rings.write i bs }
    some (if i < 4 then s.wakeUp else s)

/-- Write bytes of the register space, register by register: none where some of it is reserved or refused. -/
def State.regWrite (s : State) (o : Nat) (bs : List Byte) : Option State :=
  match regRange o with
  | none => if bs.isEmpty then some s else none
  | some (k, base, size, unit) =>
    if size < o - base + bs.length then none else
    (cuts unit (o - base) bs.length).foldl (fun (a : Option State) p => a.bind fun s =>
      s.putReg k (p.1 / unit) (p.1 % unit) (sliceN bs (p.1 - (o - base)) p.2)) (some s)

/-! ## Connections (R371) -/

def State.conn (s : State) (c : Nat) : Conn := mapGetD s.conns c ⟨0, 0, 0⟩

/-- Whether a connection's endpoint is on the admin list. -/
def State.isAdmin (s : State) (c : Nat) : Bool := (mapGet s.conns c).any fun x => s.mgmt.admins.contains x.endpoint

/-- Whether a range is within the TAIL field of a work queue of a connection's own domain. -/
def State.ownTail (s : State) (c o n : Nat) : Bool :=
  match regRange o with
  | some (.queue, base, _, unit) =>
    let i := (o - base) % unit
    20 ≤ i && i + n ≤ 24 && (mapGetD s.wqs ((o - base) / unit) WorkQueue.fresh).pd.toNat == (s.conn c).pd
  | _ => false

def State.send (s : State) (x : Out) : State := { s with out := s.out ++ [x] }

/-- Whether an access lies in the register space (log entry 25). -/
def inRegs (va : Nat) : Bool := regBase ≤ va && va < regEnd

/-- A write to the register space by a connection. -/
def State.connRegWrite (s : State) (c pa : Nat) (bs : List Byte) : State :=
  let o := pa - regBase
  if !inRegs pa || !(s.isAdmin c || s.ownTail c o bs.length) then s.send (.accessError c) else
  match s.regWrite o bs with
  | some t => t.send (.rdmaDone c)
  | none => s.send (.accessError c)

/-- RDMA_WRITE (R371). -/
def execRdmaWrite (c : Nat) (va : BitVec 64) (bs : List Byte) (s : State) : Host.Outcome State Fault Refusal :=
  .next (
    if (mapGet s.conns c).isNone then s.send (.accessError c) else
    let s := s.wakeUp
    if inRegs va.toNat then s.connRegWrite c va.toNat bs else
    match s.askWrite ⟨(s.conn c).pd, some (s.conn c).key⟩ va bs with
    | (s, none) => s.send (.rdmaDone c)
    | (s, some _) => s.send (.accessError c))

/-- RDMA_READ (R371). -/
def execRdmaRead (c : Nat) (va : BitVec 64) (n : Nat) (s : State) : Host.Outcome State Fault Refusal :=
  .next (
    if (mapGet s.conns c).isNone then s.send (.accessError c) else
    let s := s.wakeUp
    if inRegs va.toNat then
      let o := va.toNat - regBase
      if s.isAdmin c || s.ownTail c o n then s.send (.rdmaData c ((List.range n).map fun i => s.regByte (o + i)))
      else s.send (.accessError c)
    else
      match s.askRead ⟨(s.conn c).pd, some (s.conn c).key⟩ va n with
      | (s, .ok bs) => s.send (.rdmaData c bs)
      | (s, .error _) => s.send (.accessError c))

/-- REGISTER_WRITE (R372). -/
def execRegisterWrite (c pa : Nat) (bs : List Byte) (s : State) : Host.Outcome State Fault Refusal :=
  .next (s.connRegWrite c pa bs)

/-- BUFFER_TABLE_WRITE (R360). -/
def execBufferTableWrite (c i : Nat) (x : BitVec 256) (s : State) : Host.Outcome State Fault Refusal :=
  .next (if s.isAdmin c && bufAccepted x then { s with bufs := mapSet s.bufs i x }.send (.rdmaDone c) else s.send (.accessError c))

/-- WQ_ERR_CLEAR (R331). -/
def execWqErrClear (c q : Nat) (s : State) : Host.Outcome State Fault Refusal :=
  .next (if s.isAdmin c then { s with wqs := mapUpd s.wqs q fun w => { w with err := false } }.send (.rdmaDone c)
    else s.send (.accessError c))

/-- TRANSPORT_CONNECTION (R371). -/
def execTransportConnection (c endpoint pd key : Nat) (s : State) : Host.Outcome State Fault Refusal :=
  .next { s with conns := mapSet s.conns c ⟨endpoint, pd, key⟩ }

/-- The new value of an atomic from another module (R252, R253). -/
def remoteNew (a : RemoteAtomic) (old : Nat) : Option Nat :=
  let m := 2 ^ (8 * a.ty.size)
  match a.cmp with
  | some c => if old = c.toNat % m then some (a.operand.toNat % m) else none
  | none => some (atomNew a.op a.ty old (a.operand.toNat % m))

/-- REMOTE_ATOMIC (R249): the address names a buffer of this module and an offset in it (log entry 26). -/
def execRemoteAtomic (m addr : Nat) (a : RemoteAtomic) (s : State) : Host.Outcome State Fault Refusal :=
  .next (
    let buf := addr / 2 ^ 44
    match s.atomicAt ⟨(s.buf buf).owner, none⟩ buf (addr % 2 ^ 44) a.ty.size (remoteNew a) with
    | (s, e, old) => s.send (.remoteReply m (BitVec.ofNat 64 old) (e != 0)))

end Sys2Proof.Machine
end

