-- ==== Sys2Proof/Machine/Loader.lean ====
section
/-! DEFINITION. The loader (R37, R45 to R49, R122, R170, R327, R389): reading a Wormir object, placing it in a domain, and
taking it away. -/

namespace Sys2Proof.Machine

/-! ## The object's sections (R45, R46) -/

/-- A section: type, page-attribute index, bytes, and whether its zero fields are zero. -/
structure Sect where
  ty : Nat
  attr : Nat
  data : List Byte
  deriving DecidableEq, Repr

/-- Read the header and the section table; none for what R49 refuses. -/
def readSects (o : List Byte) : Option (List Sect) :=
  let size := numAt o 24 8
  let n := numAt o 8 4
  let at_ := numAt o 16 8
  if numAt o 0 4 != 0x524D5257 || numAt o 4 2 != 1 || 2 ≤ numAt o 6 2 || numAt o 12 4 != 0 || !zeroIn o 32 64 ||
      o.length < size || size < 64 || size < at_ + 32 * n then none else
  (List.range n).mapM fun i =>
    let e := sliceN o (at_ + 32 * i) 32
    let ty := numAt e 0 4
    let attr := numAt e 4 4
    if ty = 0 || 14 ≤ ty || (ty != 2 && attr != 0) || numAt e 28 4 != 0 || size < numAt e 8 8 + numAt e 16 8 then none
    else some ⟨ty, attr, sliceN o (numAt e 8 8) (numAt e 16 8)⟩

/-- The bytes of every section of a type, in table order. -/
def sectBytes (l : List Sect) (ty : Nat) : List Byte := (l.filter (·.ty == ty)).flatMap (·.data)

/-- Records of a size; none where bytes are left over. -/
def records (size : Nat) (l : List Byte) : Option (List (List Byte)) :=
  if l.length % size != 0 then none else some ((List.range (l.length / size)).map fun i => sliceN l (size * i) size)

/-! ## The records (R47, R48) -/

/-- A page-attribute set. -/
structure Attr where
  mty : Nat
  w : Bool
  size : Nat
  fmt : Nat
  geom : PwGeom
  deriving DecidableEq, Repr

/-- The default set (R37). -/
def Attr.default : Attr := ⟨0, true, 0, 0, ⟨0, false, 0⟩⟩

def attrOf (r : List Byte) : Option Attr :=
  let a : Attr := ⟨numAt r 4 1, numAt r 5 1 == 1, numAt r 6 1, numAt r 7 1, ⟨numAt r 8 1, numAt r 9 1 == 1, numAt r 10 1⟩⟩
  let pw := a.fmt == 9
  if 3 < a.mty || 1 < numAt r 5 1 || 2 < a.size || 9 < a.fmt || 1 < numAt r 9 1 || !zeroIn r 11 16 ||
      (!pw && !zeroIn r 8 11) || (pw && (!a.geom.ok || 1 < a.mty)) || (a.mty == 1 && a.w) then none else some a

/-- Byte size of a set's pages. -/
def Attr.page (a : Attr) : Nat := match a.size with | 0 => 2 ^ 16 | 1 => 2 ^ 21 | _ => 2 ^ 30

/-- A carry entry: class, first source, count, first target. -/
def carryOf (r : List Byte) : Option (Nat × Nat × Nat × Nat) :=
  if 5 < numAt r 0 1 || numAt r 1 1 != 0 then none else some (numAt r 0 1, numAt r 4 2, numAt r 2 2, numAt r 6 2)

/-- A switch record: offset of its `phase`, target, offset of its resume label, carry entries; offsets within the variants. -/
def switchOf (carry : List (Nat × Nat × Nat × Nat)) (r : List Byte) : Option Switch :=
  if !zeroIn r 5 8 || carry.length < numAt r 12 2 + numAt r 14 2 then none else
  some ⟨numAt r 0 4, numAt r 4 1, numAt r 8 4, sliceN carry (numAt r 12 2) (numAt r 14 2)⟩

/-- A variant record with its kernel and variant number. -/
def variantRec (sw : List Switch) (codeBytes : Nat) (r : List Byte) : Option (Nat × Nat × Variant) :=
  let ports := (List.range 16).map fun i => fieldN (numAt r 28 8) (4 * i + 3) (4 * i)
  if numAt r 3 1 != 0 || !zeroIn r 26 28 || !zeroIn r 44 64 || ports.any (6 < ·) || sw.length < numAt r 36 4 + numAt r 40 4 ||
      codeBytes < numAt r 4 4 + numAt r 8 4 then none else
  some (numAt r 0 2, numAt r 2 1,
    { nbands := numAt r 13 1, nv := numAt r 12 1, nt := numAt r 14 1, na := numAt r 15 1, spGrans := numAt r 16 2
      tlm := 16 * numAt r 18 2, energy := numAt r 20 4, current := numAt r 24 2, ports, code := numAt r 4 4, size := numAt r 8 4
      switches := sliceN sw (numAt r 36 4) (numAt r 40 4) })

/-- Offsets of switch records counted in the code section: of the `phase` in its own variant, of the label in the target. -/
def placeSwitches (vs : List Variant) (v : Variant) : Option Variant :=
  (v.switches.mapM fun (w : Switch) => (vs[w.target]?).map fun t =>
    ({ w with at_ := v.code + w.at_, resume := t.code + w.resume } : Switch)).map fun l => { v with switches := l }

/-- A kernel record. -/
def kernelRec (vars : List (Nat × Nat × Variant)) (i : Nat) (r : List Byte) : Option Kernel :=
  let first := numAt r 4 4
  let n := numAt r 8 1
  let mine := sliceN vars first n
  if n = 0 || 4 < n || mine.length < n || 1 < numAt r 9 1 || numAt r 10 2 != 0 || (mine.zipIdx.any fun v => v.1.1 != i || v.1.2.1 != v.2)
  then none else
  let vs := mine.map (·.2.2)
  (vs.mapM (placeSwitches vs)).map fun l => ⟨l, numAt r 9 1 == 1, numAt r 12 4⟩

/-- The group records of a section, in order (R48). -/
def groupRecs : Nat → List Byte → Option (List (Nat × Bool × List (Nat × Nat × Nat)))
  | 0, l => if l.isEmpty then some [] else none
  | fuel + 1, l =>
    if l.isEmpty then some [] else
    let n := numAt l 4 4
    if l.length < 8 + 12 * n || 255 < numAt l 0 2 || 1 < numAt l 2 1 || numAt l 3 1 != 0 || (numAt l 0 2 == 0 && n != 0) then none else
    (groupRecs fuel (l.drop (8 + 12 * n))).map fun r =>
      (numAt l 0 2, numAt l 2 1 == 1, (List.range n).map fun j =>
        (numAt l (8 + 12 * j) 4, numAt l (12 + 12 * j) 4, numAt l (16 + 12 * j) 4)) :: r

/-- The coefficient tables of a section: id and words (R48). -/
def coefRecs : Nat → List Byte → Option (List (Nat × List Word))
  | 0, l => if l.isEmpty then some [] else none
  | fuel + 1, l =>
    if l.isEmpty then some [] else
    let n := numAt l 4 4
    if l.length < 8 + 4 * n || 15 < numAt l 0 1 || !zeroIn l 1 4 || n < 6 || 1024 < n then none else
    (coefRecs fuel (l.drop (8 + 4 * n))).map fun r =>
      (numAt l 0 1, (List.range n).map fun j => BitVec.ofNat 32 (numAt l (8 + 4 * j) 4)) :: r

/-- Whether a coefficient table keeps R122. -/
def coefOk (w : List Word) : Bool :=
  let c := (w.getD 3 0).toNat
  c < 128 && c % 16 ≤ 8 && 6 + 2 ^ (c % 16) * (c / 16 + 1) ≤ w.length

/-- A symbol: its section (none for a constant) and value. -/
def symbolOf (n : Nat) (r : List Byte) : Option (Option Nat × Nat) :=
  let c := numAt r 4 2
  if 2 < numAt r 6 1 || numAt r 7 1 != 0 || (c != 0xFFFF && n ≤ c) then none else some (if c = 0xFFFF then none else some c, numAt r 8 8)

/-- A launch record, its `params` still a symbol. -/
def launchRec (kernels : Nat) (syms : Nat) (groups : List (Nat × Bool × List (Nat × Nat × Nat))) (r : List Byte) :
    Option (LaunchRec × Option Nat) :=
  let f := numAt r 6 2
  let p := numAt r 16 4
  if kernels ≤ numAt r 4 2 || 8 ≤ f || numAt r 15 1 != 0 || numAt r 28 4 != 0 || (p != 0xFFFFFFFF && syms ≤ p) ||
      groups.length < numAt r 20 4 + numAt r 24 4 then none else
  some (⟨numAt r 4 2, numAt r 8 4, numAt r 12 2, bitN f 0, bitN f 2, bitN f 1, numAt r 14 1, 0, sliceN groups (numAt r 20 4) (numAt r 24 4)⟩,
    if p = 0xFFFFFFFF then none else some p)

/-- A relocation (R49). -/
structure Reloc where
  sect : Nat
  lo : Nat
  width : Nat
  kind : Nat
  at_ : Nat
  sym : Nat
  addend : BitVec 64
  deriving DecidableEq, Repr

def relocOf (sects : List Sect) (syms : Nat) (r : List Byte) : Option Reloc :=
  let x : Reloc := ⟨numAt r 0 2, numAt r 2 1, numAt r 3 1, numAt r 4 1, numAt r 8 4, numAt r 12 4, BitVec.ofNat 64 (numAt r 16 8)⟩
  if sects.length ≤ x.sect || 2 < x.kind || !zeroIn r 5 8 || syms ≤ x.sym ||
      ((sects[x.sect]?).map (·.data.length)).getD 0 < x.at_ + (x.lo + x.width + 7) / 8 then none else some x

/-- An object as read. -/
structure Parsed where
  sects : List Sect
  attrs : List Attr
  kernels : List Kernel
  launches : List (LaunchRec × Option Nat)
  syms : List (Option Nat × Nat)
  relocs : List Reloc
  coefs : List (Nat × List Word)
  deriving DecidableEq, Repr

/-- Read an object; none for what is refused with status 6. -/
def parseObject (o : List Byte) : Option Parsed :=
  (readSects o).bind fun sects =>
  let b := sectBytes sects
  (records 16 (b 3)).bind fun a => (a.mapM attrOf).bind fun attrs =>
  (records 8 (b 7)).bind fun c => (c.mapM carryOf).bind fun carry =>
  (records 16 (b 6)).bind fun w => (w.mapM (switchOf carry)).bind fun sw =>
  (records 64 (b 5)).bind fun v => (v.mapM (variantRec sw (b 1).length)).bind fun vars =>
  (records 16 (b 4)).bind fun k => (k.zipIdx.mapM fun p => kernelRec vars p.2 p.1).bind fun kernels =>
  (records 16 (b 11)).bind fun y => (y.mapM (symbolOf sects.length)).bind fun syms =>
  (groupRecs (b 10).length (b 10)).bind fun groups =>
  (records 32 (b 9)).bind fun l => (l.mapM (launchRec kernels.length syms.length groups)).bind fun launches =>
  (records 24 (b 12)).bind fun r => (r.mapM (relocOf sects syms.length)).bind fun relocs =>
  (coefRecs (b 8).length (b 8)).bind fun coefs =>
  if (b 1).length % 4 != 0 || (sects.any fun x => x.ty == 2 && decide (max 1 attrs.length ≤ x.attr)) then none else
  some ⟨sects, attrs, kernels, launches, syms, relocs, coefs⟩

/-! ## Layout (R37, R170, R389) -/

/-- A section in the address space: its index, address, attributes (none for code), bytes as stored, and the bytes of address
space it takes. -/
structure Placed where
  sect : Nat
  va : Nat
  attr : Option Attr
  data : List Byte
  span : Nat
  deriving DecidableEq, Repr

def roundUp (n k : Nat) : Nat := (n + k - 1) / k * k

/-- Address space of a data segment: its bytes, or the element view of its codes. -/
def Attr.spanOf (a : Attr) (n : Nat) : Nat :=
  roundUp (if a.fmt = 9 then n / a.geom.bytes * (a.geom.elems * a.geom.esize) else n) a.page

/-- Code at the load address, then the data segments, each at the first boundary of its page size after the one before. -/
def Parsed.layout (p : Parsed) (va : Nat) : List Placed :=
  let code := (p.sects.zipIdx.filter fun x => x.1.ty == 1).foldl (fun (r : List Placed × Nat) x =>
    (r.1 ++ [⟨x.2, r.2, none, x.1.data, x.1.data.length⟩], r.2 + x.1.data.length)) ([], va)
  let start := va + roundUp (code.2 - va) (2 ^ 16)
  ((p.sects.zipIdx.filter fun x => x.1.ty == 2).foldl (fun (r : List Placed × Nat) x =>
    let a := p.attrs.getD x.1.attr Attr.default
    let at_ := roundUp r.2 a.page
    let span := a.spanOf x.1.data.length
    (r.1 ++ [⟨x.2, at_, some a, x.1.data, span⟩], at_ + span)) (code.1, start)).1

/-- The end of the range an object needs. -/
def layoutEnd (va : Nat) (l : List Placed) : Nat := l.foldl (fun e x => max e (x.va + roundUp x.span (2 ^ 16))) va

/-- A symbol's value: the address of its byte, or its constant. -/
def symValue (l : List Placed) (y : Option Nat × Nat) : BitVec 64 :=
  match y.1 with
  | none => BitVec.ofNat 64 y.2
  | some i => BitVec.ofNat 64 (((l.find? fun x => x.sect == i).map (·.va)).getD 0 + y.2)

/-- Apply a relocation; none where the value does not fit its field, signed or unsigned. -/
def applyReloc (syms : List (Option Nat × Nat)) (l0 : List Placed) (l : List Placed) (r : Reloc) : Option (List Placed) :=
  let v := symValue l0 (syms.getD r.sym (none, 0)) + r.addend
  let x := match r.kind with
    | 0 => v.toInt
    | 1 => ((lo32 v).toNat : Int)
    | _ => ((hi32 v).toNat : Int)
  let u := match r.kind with
    | 0 => v.toNat
    | 1 => (lo32 v).toNat
    | _ => (hi32 v).toNat
  if !(u < 2 ^ r.width || (0 < r.width && x < 0 && -(2 ^ (r.width - 1) : Int) ≤ x)) then none else
  let n := (r.lo + r.width + 7) / 8
  let put := fun (d : List Byte) =>
    overlay d r.at_ (bytesOf n (setFieldN (numAt d r.at_ n) (r.lo + r.width - 1) r.lo (u % 2 ^ r.width)))
  some (l.map fun (p : Placed) => if p.sect != r.sect then p else { p with data := put p.data })

/-! ## Memory of the loader's pool, and page tables (R149 to R151, R389; log entry 9) -/

/-- Where the pool begins: half way up the HBM4. -/
def poolBase : Nat := 2 ^ 39

/-- Take 64 KiB units. -/
def State.takePool (s : State) (units : Nat) : State × Nat := ({ s with pool := s.pool + units }, poolBase + 65536 * s.pool)

/-- Write plain bytes at a physical address of one line, at its home. -/
def State.writePhys (s : State) (pa : Nat) (bs : List Byte) : State :=
  let (s, _) := s.fill false 0 0 0 (pa / 128)
  (s.recall (pa / 128) (wordMask (pa % 128) bs.length) none).putLine (pa / 128) (pa % 128) bs

/-- Write a leaf at a level for an address, making the table pages it needs. -/
def State.putLeaf (s : State) (va : BitVec 64) (leaf n : Nat) : Nat → Nat → State
  | level, table =>
    let at_ := table + 16 * levelIndex va level
    if level = leaf then s.writePhys at_ (bytesOf 16 n) else
    match level with
    | 0 => s
    | l + 1 =>
      let (s, bs) := s.readPhys at_ 16
      let e := ofBytes bs
      if bitN e 127 && !bitN e 121 then s.putLeaf va leaf n l (fieldN e 43 16 * 65536) else
      let (s, t) := s.takePool 1
      (s.writePhys at_ (bytesOf 16 (2 ^ 127 + t))).putLeaf va leaf n l t

/-- The leaf of a page of a region (R150). -/
def leafOf (a : Option Attr) (w : Bool) (buf off back : Nat) : Nat :=
  let d := a.getD Attr.default
  2 ^ 127 + d.mty * 2 ^ 124 + d.size * 2 ^ 122 + 2 ^ 121 + (if w then 2 ^ 120 else 0) + (if a.isNone then 2 ^ 119 else 0) +
    d.fmt * 2 ^ 115 + (if d.fmt = 9 then d.geom.dim * 2 ^ 113 + (if d.geom.dbl then 2 ^ 112 else 0) + (d.geom.rate - 1) * 2 ^ 107 else 0) +
    buf * 2 ^ 76 + off * 2 ^ 38 + back * 2 ^ 12

/-- The replica entries that map a region: address, level, leaf (R149). A level-1 entry counts its format base from its own
256 MiB. -/
def leavesOf (va span : Nat) (a : Option Attr) (w : Bool) (buf : Nat) : List (BitVec 64 × Nat × Nat) :=
  let page := ((a.map Attr.page).getD (2 ^ 16))
  let big := decide (2 ^ 28 ≤ page)
  let step := if big then 2 ^ 28 else 2 ^ 16
  (List.range (span / step)).map fun i =>
    (BitVec.ofNat 64 (va + i * step), if big then 1 else 0,
      leafOf a w buf (i * step / page * page / 65536) (i * step / 65536))

/-- Map a region. -/
def State.mapRegion (s : State) (pd va span : Nat) (a : Option Attr) (w : Bool) (buf : Nat) : State :=
  (leavesOf va span a w buf).foldl (fun s e => s.putLeaf e.1 e.2.1 e.2.2 3 (mapGetD s.pds pd PdRec.fresh).root.toNat) s

/-- Whether some 64 KiB of a range is mapped in a domain. -/
def State.mapped (s : State) (pd va span : Nat) : Bool :=
  (List.range (span / 65536)).any fun i => match (s.walk pd (BitVec.ofNat 64 (va + 65536 * i))).2 with
    | .ok _ => true
    | .error c => c != 1

/-- A free buffer-table index of the upper half. -/
def State.freeBuf (s : State) : Option Nat := firstFrom (fun i => !(s.buf i).v) 32768 32768

/-- Write a buffer's bytes at its home, for the domain that owns it. -/
def State.fillBuffer (s : State) (pd buf : Nat) (bs : List Byte) : State :=
  let b := s.buf buf
  (piecesOf 0 bs.length).foldl (fun s p =>
    let pa := b.place p.1
    let (s, _) := s.fill b.enc b.key pd b.hmask (pa / 128)
    (s.recall (pa / 128) (wordMask (pa % 128) p.2) none).putLine (pa / 128) (pa % 128) (sliceN bs p.1 p.2)) s

/-- A new buffer of some 64 KiB units, that begins with some bytes; none where no entry is free. -/
def State.newBuffer (s : State) (pd : Nat) (key : Option Nat) (coded : Option PwGeom) (units : Nat) (bs : List Byte) :
    Option (State × Nat) :=
  s.freeBuf.map fun i =>
    let (s, pa) := s.takePool units
    let g := coded.getD ⟨0, false, 1⟩
    let x := 2 ^ 255 + 2 ^ 254 + 2 ^ 253 + (if key.isSome then 2 ^ 252 else 0) + (if coded.isSome then 2 ^ 251 else 0) +
      g.dim * 2 ^ 249 + (if g.dbl then 2 ^ 248 else 0) + (g.rate - 1) * 2 ^ 243 + 2 ^ 236 + key.getD 0 * 2 ^ 224 + pd * 2 ^ 192 +
      units * 2 ^ 160 + pa / 65536 * 2 ^ 128
    let s := { s with bufs := mapSet s.bufs i (BitVec.ofNat 256 x) }
    (s.fillBuffer pd i bs, i)

/-- Place one region: its buffer, its bytes, its pages. -/
def State.placeRegion (s : State) (pd : Nat) (key : Option Nat) (wcode : Bool) (x : Placed) : Option (State × Nat) :=
  let span := roundUp x.span (2 ^ 16)
  let coded := x.attr.bind fun a => if a.fmt = 9 then some a.geom else none
  let bytes := match coded with
    | some g => span / (g.elems * g.esize) * g.bytes
    | none => span
  (s.newBuffer pd key coded (roundUp bytes 65536 / 65536) x.data).map fun r =>
    (r.1.mapRegion pd x.va span x.attr ((x.attr.map (·.w)).getD wcode) r.2, r.2)

/-! ## LOAD and UNLOAD (R376, R389) -/

/-- The arguments of LOAD. -/
structure LoadArgs where
  obj : BitVec 64
  bytes : Nat
  pd : Nat
  va : Nat
  key : Nat
  flags : Nat
  deriving DecidableEq, Repr

/-- Join the code sections into one region. -/
def joinCode (l : List Placed) : List Placed :=
  match l.filter (·.attr.isNone) with
  | [] => l
  | c :: r => { c with data := (c :: r).flatMap (·.data), span := ((c :: r).flatMap (·.data)).length } :: l.filter (·.attr.isSome)

/-- Load an object: a status other than 0 with nothing loaded, or the state and the handle. -/
def State.loadObject (s : State) (a : LoadArgs) (o : List Byte) : Except Nat (State × Nat) :=
  match parseObject o with
  | none => .error 6
  | some p =>
    if p.coefs.any fun c => !coefOk c.2 then .error 5 else
    let l0 := p.layout a.va
    match p.relocs.foldl (fun (r : Option (List Placed)) x => r.bind fun l => applyReloc p.syms l0 l x) (some l0) with
    | none => .error 4
    | some l =>
      let stop := layoutEnd a.va l0
      let enc := a.pd != 0 || bitN a.flags 1
      if a.va % 65536 != 0 || s.mapped a.pd a.va (stop - a.va) || (enc && (mapGet s.keys a.key).isNone) then .error 7 else
      let key := if enc then some a.key else none
      let placed := (joinCode l).foldl (fun (r : Option (State × List Nat)) x => r.bind fun r =>
        (r.1.placeRegion a.pd key (bitN a.flags 0) x).map fun q => (q.1, r.2 ++ [q.2])) (some (s, []))
      let words := p.coefs.flatMap fun c => c.2.flatMap fun w => bytesOf 4 w.toNat
      match placed.bind fun r =>
          if words.isEmpty then some r else
          (r.1.newBuffer a.pd key none (roundUp words.length 65536 / 65536) words).map fun q => (q.1, r.2 ++ [q.2]) with
      | none => .error 7
      | some (s, bufs) =>
        let code := ((joinCode l).filter (·.attr.isNone)).foldl (fun n x => n + x.data.length) 0
        let entry := match p.kernels.find? (·.keep) with
          | some k => BitVec.ofNat 64 (a.va + ((k.variants[0]?).map (·.code)).getD 0)
          | none => 0
        let ob : Object := ⟨a.pd, BitVec.ofNat 64 a.va, code, stop - a.va, p.kernels,
          p.launches.map fun x => { x.1 with params := match x.2 with
            | some y => symValue l0 (p.syms.getD y (none, 0))
            | none => 0 },
          entry, p.coefs.foldl (fun m c => mapSet m c.1 c.2) [], bufs⟩
        .ok ({ s with objects := mapSet s.objects s.nextObject ob, nextObject := s.nextObject + 1 }, s.nextObject)

/-- Whether a running graph uses an object: a launch of its kernels, or nodes in its range. -/
def State.objectUsed (s : State) (h : Nat) : Bool :=
  let o := s.object h
  s.launches.any (fun l => l.2.object == h) ||
    s.graphs.any fun g => (mapGetD s.wqs g.1 WorkQueue.fresh).pd.toNat == o.pd && decide (o.va.toNat ≤ g.2.addr.toNat) &&
      decide (g.2.addr.toNat < o.va.toNat + o.bytes)

/-- Take an object away: its pages are unmapped, its buffers invalid, and no core keeps a translation or code of it. -/
def State.unloadObject (s : State) (h : Nat) : State :=
  let o := s.object h
  let lo := o.va.toNat
  let hits := fun (pd : Nat) (va n : Nat) => pd == o.pd && decide (va < lo + o.bytes) && decide (lo < va + n)
  let s := (List.range (o.bytes / 65536)).foldl (fun (s : State) i =>
    let va := BitVec.ofNat 64 (lo + 65536 * i)
    match s.walk o.pd va with
    | (s, .ok e) =>
      let big := decide (28 ≤ e.bits)
      s.putLeaf va (if big then 1 else 0) 0 3 (mapGetD s.pds o.pd PdRec.fresh).root.toNat
    | (s, .error _) => s) s
  { s with objects := mapDel s.objects h
           bufs := o.bufs.foldl (fun m i => mapUpd m i fun x => x &&& BitVec.ofNat 256 (2 ^ 255 - 1)) s.bufs
           cores := mapAll s.cores fun _ k =>
             { k with tlb := k.tlb.filter fun e => !hits e.pd e.va.toNat (2 ^ e.bits)
                      ibuf := k.ibuf.filter fun x => !hits x.pd x.va.toNat 128 } }

end Sys2Proof.Machine
end

