-- ==== Sys2Proof/Machine/HostCmds.lean ====
section
/-! DEFINITION. The host commands (R152, R156, R322, R324, R361, R369, R376, R389), one at a time in ring order. -/

namespace Sys2Proof.Machine

/-! ## The command ring (R376) -/

/-- The entry at HEAD, if the ring is served and holds one. -/
def State.cmdEntry (s : State) : Option (List Byte) :=
  if s.rings.cmdStopped || s.rings.cmdHead == s.rings.cmdTail then none
  else some (padTo 64 (mapGetD s.rings.cmds (s.rings.cmdHead.toNat % 256) (zeroBytes 64)))

/-- A command completes: its record is written for domain 0, and HEAD advances. A record that is refused is lost. -/
def State.cmdDone (s : State) (l : List Byte) (status result : Nat) : State :=
  let s := (s.askWrite ⟨0, none⟩ (BitVec.ofNat 64 (numAt l 8 8)) (bytesOf 4 (numAt l 4 4) ++ bytesOf 4 status ++ bytesOf 8 result)).1
  { s with rings := { s.rings with cmdHead := s.rings.cmdHead + 1, cmdWait := none } }

/-- Perform the command at HEAD if its opcode is meant: `f` gives a status and a result, or none while it goes on. A wrong
sequence stops the ring; a completion address that is not aligned is malformed. -/
def hostCommand (meant : Nat → Bool) (f : List Byte → State → State × Option (Nat × Nat)) (s : State) :
    Host.Outcome State Fault Refusal :=
  .next (match s.cmdEntry with
    | none => s
    | some l =>
      if numAt l 4 4 != s.rings.cmdHead.toNat then { s with rings := { s.rings with cmdStopped := true } }
      else if !meant (numAt l 0 4) then s
      else if numAt l 8 8 % 16 != 0 then s.cmdDone l 1 0
      else match f (l.drop 16) s with
        | (s, none) => s
        | (s, some r) => s.cmdDone l r.1 r.2)

/-- Whether a domain's record is valid (R374). -/
def State.pdValid (s : State) (pd : Nat) : Bool := (mapGetD s.pds pd PdRec.fresh).flags.getLsbD 0

/-- HOST_COMMAND_UNKNOWN_OPCODE (R376). -/
def execHostCommandUnknownOpcode (s : State) : Host.Outcome State Fault Refusal :=
  hostCommand (fun op => op == 0 || 9 < op) (fun _ s => (s, some (1, 0))) s

/-! ## Translations, buffers, lines -/

/-- Drop a domain's TLB entries of a range. -/
def State.dropPages (s : State) (pd va n : Nat) : State :=
  let meets := fun (e : TlbEntry) => e.pd == pd && decide (va < e.va.toNat + 2 ^ e.bits) && decide (e.va.toNat < va + n)
  { s with cores := mapAll s.cores fun _ k => { k with tlb := k.tlb.filter fun e => !meets e } }

/-- TLBINV (R152, R376). -/
def execTlbinv (s : State) : Host.Outcome State Fault Refusal :=
  hostCommand (· == 1) (fun a s =>
    if !s.pdValid (numAt a 0 4) then (s, some (2, 0)) else (s.dropPages (numAt a 0 4) (numAt a 4 8) (numAt a 12 8), some (0, 0))) s

/-- BUFINV (R361): every request that was checked has completed, and the domes read the entry anew. -/
def execBufinv (s : State) : Host.Outcome State Fault Refusal :=
  hostCommand (· == 2) (fun a s => (s, some (if numAt a 0 4 < 65536 then 0 else 1, 0))) s

/-- Recall a physical range (R369): the Plynwick blocks whose code lies in it, every owned word, and every dirty half. -/
def State.recallRange (s : State) (pa n : Nat) : State :=
  let meets := fun (at_ k : Nat) => decide (at_ < pa + n) && decide (pa < at_ + k)
  let s := (mapKeys s.cores).foldl (fun s c => s.settle c) s
  let s := s.pwOwner.foldl (fun (s : State) (p : Nat × Nat) =>
    let b := s.buf (p.1 / 2 ^ 28)
    let block := p.1 % 2 ^ 28
    if (piecesOf (block * b.geom.bytes) b.geom.bytes).any fun q => meets (b.place q.1) q.2 then
      s.pwRecall (p.1 / 2 ^ 28) block none else s) s
  (s.domes.filter fun d => meets (128 * d.1) 128).foldl (fun s d => (s.recall d.1 allLanes none).flushLine d.1) s

/-- RECALL_COMMAND (R369, R376). -/
def execRecallCommand (s : State) : Host.Outcome State Fault Refusal :=
  hostCommand (· == 3) (fun a s => (s.recallRange (numAt a 0 8) (numAt a 8 8), some (0, 0))) s

/-! ## Answers to fault records (R156) -/

/-- Resume what a record held: once every record of a group is answered, its lanes issue again; a graph goes on. -/
def State.resumeRecord (s : State) (r : FaultRec) : State :=
  let s := { s with faultOpen := s.faultOpen.erase r }
  if r.core = 0xFFFF then { s with graphs := mapUpd s.graphs r.who.2.1 fun g => { g with waiting := false } }
  else (mapKeys s.cores).foldl (fun s c => s.unpark c) s

/-- FAULTANS (R156). -/
def execFaultans (s : State) : Host.Outcome State Fault Refusal :=
  hostCommand (· == 4) (fun a s =>
    match s.faultOpen.find? fun r =>
        r.core == numAt a 0 2 && r.slot == numAt a 2 1 && r.entry == numAt a 3 1 && r.addr.toNat == numAt a 4 8 with
    | none => (s, some (3, 0))
    | some r =>
      match numAt a 12 1 with
      | 0 => (s.resumeRecord r, some (0, 0))
      | 1 => (s.killDomain r.pd 3, some (0, 0))
      | _ => (s, some (1, 0))) s

/-! ## Objects (R389) -/

/-- LOAD (R389). -/
def execLoad (s : State) : Host.Outcome State Fault Refusal :=
  hostCommand (· == 5) (fun a s =>
    let x : LoadArgs := ⟨BitVec.ofNat 64 (numAt a 0 8), numAt a 8 8, numAt a 16 4, numAt a 20 8, numAt a 28 2, numAt a 30 2⟩
    if 4 ≤ x.flags then (s, some (1, 0))
    else if !s.pdValid x.pd then (s, some (2, 0)) else
    match s.askRead ⟨0, none⟩ x.obj x.bytes with
    | (s, .error _) => (s, some (6, 0))
    | (s, .ok o) =>
      match s.loadObject x o with
      | .error e => (s, some (e, 0))
      | .ok r => (r.1, some (0, r.2))) s

/-- UNLOAD (R376): it waits until no graph uses the object. -/
def execUnload (s : State) : Host.Outcome State Fault Refusal :=
  hostCommand (· == 6) (fun a s =>
    let h := numAt a 0 4
    if (mapGet s.objects h).isNone then (s, some (3, 0))
    else if s.objectUsed h then (s, none) else (s.unloadObject h, some (0, 0))) s

/-! ## Tasks and domains (R321, R322, R324) -/

/-- Whether the save that a PREEMPT waits for still runs. -/
def State.stillSaving (s : State) (w : Nat × Nat × Nat × Nat) : Bool :=
  match mapGet (s.core w.1).tasks w.2.1 with
  | none => false
  | some x => x.launch == w.2.2.1 && x.number == w.2.2.2 && (x.request.isSome || x.state == .draining)

/-- PREEMPT (R321, R353, R388): status 3 at once where no task takes the request; else it completes when the save has
ended, with status 3 for a task that was not saved. -/
def execPreempt (s : State) : Host.Outcome State Fault Refusal :=
  hostCommand (· == 7) (fun a s =>
    let c := numAt a 0 2
    match s.rings.cmdWait, s.taskAt c (numAt a 2 1) with
    | some w, _ =>
      if s.stillSaving w then (s, none) else
      let saved := (s.savedTasks.any fun t => t.launch == w.2.2.1 && t.number == w.2.2.2) ||
        (match s.findTask w.2.2.1 w.2.2.2 with
          | some p => ((s.core p.1).task p.2).saved
          | none => false)
      (s, some (if saved then 0 else 3, 0))
    | none, none => (s, some (3, 0))
    | none, some t =>
      if !s.takesRequest c t then (s, some (3, 0)) else
      let x := (s.core c).task t
      let s := s.requestPre c t (BitVec.ofNat 64 (numAt a 3 8)) 1
      ({ s with rings := { s.rings with cmdWait := some (c, t, x.launch, x.number) } }, none)) s

/-- The task that a save area of a domain is for: one whose save to it still runs, or a saved one. -/
def State.taskOfArea (s : State) (pd : Nat) (area : BitVec 64) : Option (Nat × Nat × Bool) :=
  let running := s.cores.findSome? fun k => (k.2.tasks.find? fun t =>
    (s.launch t.2.launch).pd == pd && t.2.ksave == area && (t.2.request.isSome || (t.2.state == .draining && t.2.endKind == 2))).map fun t =>
      (t.2.launch, t.2.number, true)
  running.or ((s.savedTasks.find? fun t => t.pd == pd && t.area == area).map fun t => (t.launch, t.number, false))

/-- The cluster at which a host's restore request is queued: that of the core a deterministic launch fixes; else, of those
with a logical core of the launch, the one with the fewest queued tasks. -/
def State.restoreCluster (s : State) (l : Launch) (n : Nat) : Nat :=
  let cl := ((l.coresFor n l.cores).map coreCluster).dedup
  cl.foldl (fun best x => if (s.cluster x).queue.length < (s.cluster best).queue.length then x else best) (cl.headD 0)

/-- RESTORE (R320, R322, R329): the request is held while the save it names still runs. -/
def execRestore (s : State) : Host.Outcome State Fault Refusal :=
  hostCommand (· == 8) (fun a s =>
    let pd := numAt a 0 4
    let area := BitVec.ofNat 64 (numAt a 4 8)
    if !s.pdValid pd then (s, some (2, 0)) else
    let put := fun (s : State) (l n : Nat) =>
      (s.enqueue (s.restoreCluster (s.launch l) n) ⟨l, n, some area, none, false, none⟩, some (0, 0))
    match s.taskOfArea pd area with
    | none => (s, some (3, 0))
    | some (l, n, true) => put s l n
    | some (l, n, false) =>
      match s.readArea pd area with
      | (s, none) => (s.loseSaved l n, some (3, 0))
      | (s, some _) => put s l n) s

/-- KILLPD (R324). -/
def execKillpd (s : State) : Host.Outcome State Fault Refusal :=
  hostCommand (· == 9) (fun a s =>
    if !s.pdValid (numAt a 0 4) then (s, some (2, 0)) else (s.killDomain (numAt a 0 4) 3, some (0, 0))) s

end Sys2Proof.Machine
end

