-- ==== Sys2Proof/Machine/Ingest.lean ====
section
/-! DEFINITION. Ingest (R228 to R231): binding streams, placing frames, gap records and priority flow control. -/

namespace Sys2Proof.Machine

def State.stream (s : State) (n : Nat) : Stream := mapGetD s.streams n Stream.fresh

def State.updStream (s : State) (n : Nat) (f : Stream → Stream) : State :=
  { s with streams := mapSet s.streams n (f (s.stream n)) }

/-! ## The ring (R228) -/

def Bind.slots (b : Bind) : Nat := 2 ^ b.log2n

/-- Address of slot j, of its status entry, and of the consumer word. -/
def Bind.slotVa (b : Bind) (j : Nat) : BitVec 64 := b.ring + BitVec.ofNat 64 (j * b.slotBytes)
def Bind.statusVa (b : Bind) (j : Nat) : BitVec 64 := b.ring + BitVec.ofNat 64 (b.slots * b.slotBytes + 8 * j)
def Bind.consumerVa (b : Bind) : BitVec 64 := b.statusVa b.slots

/-- Bytes of the whole region. -/
def Bind.bytes (b : Bind) : Nat := b.slots * b.slotBytes + 8 * b.slots + 4

/-- The stream's port set: every port when PORTS is 0. -/
def Bind.portList (b : Bind) : List Nat := (List.range 16).filter fun p => b.ports == 0 || b.ports.getLsbD p

/-- Whether a region lies in one coherent or uncached mapping of a domain: every page of it translates, to the same kind of
page of one buffer, the places following one another (R228). -/
def State.oneMapping (s : State) (pd : Nat) (va : BitVec 64) (n : Nat) : Bool :=
  match s.translateFor pd va true with
  | (_, .error _) => false
  | (_, .ok t) =>
    (t.mty == 0 || t.mty == 3) && (cuts 65536 va.toNat n).all fun p =>
      match (s.translateFor pd (BitVec.ofNat 64 p.1) true).2 with
      | .ok u => u.mty == t.mty && u.buf == t.buf && u.off == t.off + (p.1 - va.toNat)
      | .error _ => false

/-- The binding that a command describes. -/
def Cmd.binding (m : Cmd) (g : Eng) (launch task pd : Nat) : Bind :=
  let l := m.head.low
  let w3 := (m.word 3).toNat
  let w4 := (m.word 4).toNat
  let w5 := (m.word 5).toNat
  { core := g.c, slot := g.t, launch, task, queue := g.q, pd, policy := fieldN l 5 4, pfc := fieldN l 3 1, ring := m.pair 1
    udp := fieldN w3 31 16, vlan := fieldN w3 11 0, log2n := fieldN w4 31 24, hdr := 4 * fieldN w4 23 16
    slotBytes := 64 * fieldN w4 15 0, ports := BitVec.ofNat 16 (fieldN w5 31 16), assert := fieldN w5 15 8
    release := fieldN w5 7 0 }

/-- Whether a bind is refused (R228; log entry 21 for field values out of their ranges). -/
def State.refuseBind (s : State) (n : Nat) (b : Bind) : Bool :=
  20 < b.log2n || b.hdr == 0 || 256 < b.hdr || b.slotBytes == 0 || 65536 < b.slotBytes || b.ring.toNat % 64 != 0 ||
  !s.oneMapping b.pd b.ring b.bytes ||
  (s.streams.any fun x => x.1 != n && match x.2.bind with
    | some o => o.vlan == b.vlan && o.udp == b.udp && o.portList.any b.portList.contains
    | none => false) ||
  (match (s.stream n).bind with | some o => o.pd != b.pd | none => false) ||
  (b.policy == 1 && b.assert ≤ b.release)

/-- Read the consumer word into the engine's copy (R229). -/
def State.readConsumer (s : State) (n : Nat) (b : Bind) : State :=
  match s.rangeRead b.pd b.consumerVa 4 with
  | (s, 0, bs) => s.updStream n fun x => { x with consumer := BitVec.ofNat 32 (ofBytes bs) }
  | (s, _, _) => s

/-- INGEST_BIND (R228). -/
def execIngestBind (c t q : Nat) (s : State) : Host.Outcome State Fault Refusal :=
  let g : Eng := ⟨c, t, q⟩
  performCmd g [6] (fun s r =>
    let m := r.cmd
    let n := fieldN m.head.low 17 6
    let task := s.engTask g
    let pd := s.engPd g
    if fieldN m.head.low 5 4 = 2 then
      match (s.stream n).bind with
      | some o => if o.pd != pd then (s, m.stop 10, 0)
          else (s.updStream n fun x => { x with bind := none, highest := none, paused := false, gap := none }, .go, 0)
      | none => (s, m.stop 10, 0)
    else
      let b := m.binding g task.launch task.number pd
      if s.refuseBind n b then (s, m.stop 10, 0) else
      ((s.updStream n fun x => { x with bind := some b, highest := none, paused := false, gap := none }).readConsumer n b, .go, 0)) s

/-! ## Gap records (R230) -/

/-- Post words to the return queue of the binding queue register while its task lives (R209, R228). -/
def State.postReturn (s : State) (n : Nat) (b : Bind) (ws : List Word) : State :=
  match s.findTask b.launch b.task with
  | none => s
  | some p =>
    ws.foldl (fun s w =>
      let qr := mapGetD ((s.core p.1).task p.2).queues b.queue Queue.fresh
      if qr.port != 6 then s
      else if 64 ≤ qr.ret.length then s.updStream n fun x => { x with lost := x.lost + 1 }
      else
        let qr := { qr with ret := qr.ret ++ [w] }
        s.updTask p.1 p.2 fun t => { t with queues := mapSet t.queues b.queue qr }) s

/-- Post the pending record of a stream, if it has one. -/
def State.postGap (s : State) (n : Nat) : State :=
  match (s.stream n).bind, (s.stream n).gap with
  | some b, some g =>
    (s.postReturn n b [g.1, BitVec.ofNat 32 (n * 2 ^ 20 + g.2.1 * 2 ^ 16 + g.2.2)]).updStream n fun x => { x with gap := none }
  | _, _ => s

/-- A refusal or a drop: it extends the pending record or begins another, and is counted. -/
def State.gapAt (s : State) (n : Nat) (q : Word) (cause : Nat) : State :=
  let s := s.updStream n fun x => match cause with
    | 1 => { x with refused := x.refused + 1 }
    | 2 => { x with late := x.late + 1 }
    | _ => { x with badLen := x.badLen + 1 }
  match (s.stream n).gap with
  | some g =>
    if g.2.1 = cause && q = g.1 + BitVec.ofNat 32 g.2.2 then
      s.updStream n fun x => { x with gap := some (g.1, cause, min 0xFFFF (g.2.2 + 1)) }
    else (s.postGap n).updStream n fun x => { x with gap := some (q, cause, 1) }
  | none => s.updStream n fun x => { x with gap := some (q, cause, 1) }

/-- GAP_RECORD_TIMEOUT (R230). -/
def execGapRecordTimeout (n : Nat) (s : State) : Host.Outcome State Fault Refusal := .next (s.postGap n)

/-! ## Priority flow control (R230) -/

/-- Occupancy: accepted frames not consumed. -/
def Stream.occupancy (x : Stream) : Nat :=
  match x.highest with
  | some h => (h + 1 - x.consumer).toNat
  | none => 0

/-- Send a PFC frame on every port of the stream's set. -/
def State.sendPfc (s : State) (b : Bind) (quanta : Nat) : State :=
  { s with out := s.out ++ b.portList.map fun p => .pfc p b.pfc quanta }

/-- Assert or lift the pause of a stream as its occupancy asks. -/
def State.checkPause (s : State) (n : Nat) (b : Bind) : State :=
  let x := s.stream n
  if b.policy != 1 then s
  else if !x.paused && (b.assert * b.slots + 255) / 256 ≤ x.occupancy then
    b.portList.foldl (fun s p => s.count (p / 2) 13 1) ((s.sendPfc b 0xFFFF).updStream n fun y => { y with paused := true })
  else if x.paused && x.occupancy ≤ b.release * b.slots / 256 then
    (s.sendPfc b 0).updStream n fun y => { y with paused := false }
  else s

/-- PFC_PAUSE_REFRESH (R230). -/
def execPfcPauseRefresh (n : Nat) (s : State) : Host.Outcome State Fault Refusal :=
  .next (match (s.stream n).bind with
    | some b => if (s.stream n).paused then s.sendPfc b 0xFFFF else s
    | none => s)

/-- INGEST_CONSUMER_REREAD (R229). -/
def execIngestConsumerReread (n : Nat) (s : State) : Host.Outcome State Fault Refusal :=
  .next (match (s.stream n).bind with
    | some b => (s.readConsumer n b).checkPause n b
    | none => s)

/-! ## Frames (R229, R231) -/

/-- The stream a frame matches: bound, on a port of its set, with its VLAN and UDP port. -/
def State.matchFrame (s : State) (f : EthFrame) : Option (Nat × Bind) :=
  s.streams.findSome? fun x => x.2.bind.bind fun b =>
    if b.vlan == f.vlan && b.udp == f.udp && b.portList.contains f.port then some (x.1, b) else none

/-- Place an accepted frame: the payload, then the status entry. A region that no longer takes it loses the frame, which
is counted (log entry 23). -/
def State.acceptFrame (s : State) (n : Nat) (b : Bind) (f : EthFrame) (q : Word) : State :=
  let j := q.toNat % b.slots
  let body := f.payload.drop b.hdr
  match s.rangeFault b.pd (b.slotVa j) body.length true, s.rangeFault b.pd (b.statusVa j) 8 true with
  | (s, none), (_, none) =>
    (match s.rangeWrite b.pd none (b.slotVa j) body with
    | (s, 0) =>
      (match s.rangeWrite b.pd none (b.statusVa j) (bytesOf 4 q.toNat ++ bytesOf 4 body.length) with
      | (s, 0) =>
        let s := s.updStream n fun x =>
          { x with accepted := x.accepted + 1
                   highest := match x.highest with
                     | some h => if (q - h).toNat < 2 ^ 31 then some q else some h
                     | none => some q }
        (s.count (f.port / 2) 11 1).checkPause n b
      | (s, _) => s.updStream n fun x => { x with lost := x.lost + 1 })
    | (s, _) => s.updStream n fun x => { x with lost := x.lost + 1 })
  | (s, _), _ => s.updStream n fun x => { x with lost := x.lost + 1 }

/-- INGEST_FRAME (R229). -/
def execIngestFrame (f : EthFrame) (s : State) : Host.Outcome State Fault Refusal :=
  .next (match s.matchFrame f with
    | none => { s with unmatched := mapSet s.unmatched f.port (mapGetD s.unmatched f.port 0 + 1) }
    | some (n, b) =>
      let q := BitVec.ofNat 32 (numAt f.payload 0 4)
      if f.payload.length < b.hdr || b.hdr + b.slotBytes < f.payload.length then s.gapAt n q 3 else
      let d := (q - (s.stream n).consumer).toNat
      if d < b.slots then s.acceptFrame n b f q
      else if 2 ^ 31 ≤ d then s.gapAt n q 2
      else
        let s := (s.readConsumer n b).checkPause n b
        let d := (q - (s.stream n).consumer).toNat
        if d < b.slots then s.acceptFrame n b f q
        else if 2 ^ 31 ≤ d then s.gapAt n q 2
        else (s.gapAt n q 1).count (f.port / 2) 12 1)

end Sys2Proof.Machine
end

