-- ==== Sys2Proof/Machine/Mgmt.lean ====
section
/-! DEFINITION. Management frames (R366, R373, R378 to R384) and the debugger's operations (R70, R92, R93, R303); bringing the
module up (R387). -/

namespace Sys2Proof.Machine

/-! ## Power-up (R387) -/

/-- The module once power has returned: as after reset, but for what is held in fuses, the count of power-ups, and the
domains that a hard trip or a halt ended (R381). -/
def State.powerCycle (s : State) : State :=
  { State.reset with
    mgmt := { Mgmt.fresh with bootNo := s.mgmt.bootNo + 1, pubKeys := s.mgmt.pubKeys, manufactured := s.mgmt.manufactured
                              halted := !Config.firmwareGood (s.mgmt.bootNo + 1) }
    pdEnd := s.pdEnd.filter fun p => p.2 == 2
    out := s.out, turns := s.turns, fresh := s.fresh }

/-! ## Frames (R378, R388) -/

/-- The bytes a frame's signature covers. -/
def frameBytes (f : Frame) (code : Nat) : List Byte :=
  bytesOf 2 code ++ bytesOf 2 f.body.length ++ bytesOf 1 f.slot ++ zeroBytes 3 ++ bytesOf 8 f.nonce.toNat ++ bytesOf 8 f.boot.toNat ++ f.body

/-- Answer a frame; the response is signed with the identity key. -/
def State.answer (s : State) (code : Nat) (f : Frame) (status : Nat) (body : List Byte) : State :=
  s.send (.response code f.nonce status body
    (Config.signature (bytesOf 2 code ++ bytesOf 8 f.nonce.toNat ++ bytesOf 1 status ++ body)))

/-- Whether a frame's signature verifies under its key slot. -/
def State.verified (s : State) (code : Nat) (f : Frame) : Bool :=
  (mapGet s.mgmt.pubKeys f.slot).any fun k => Config.verifies k (frameBytes f code) f.sig

/-- Whether a frame's boot nonce is current and its nonce above the last of its slot. -/
def State.freshFrame (s : State) (f : Frame) : Bool :=
  f.boot == Config.bootNonce s.mgmt.bootNo && (mapGet s.mgmt.nonces f.slot).all fun n => decide (n.toNat < f.nonce.toNat)

/-- A frame arrives: it wakes the module (R382), and, once accepted, `act` gives the new state, the status and the body of the
response. A halted module answers IDENTIFY and RESYNC only, until RESET (R385). -/
def manage (code : Nat) (signed : Bool) (f : Frame) (act : State → State × Nat × List Byte) (s : State) :
    Host.Outcome State Fault Refusal :=
  .next (
    if !s.mgmt.powered || (s.mgmt.halted && code != 9 && code != 0x10) then s else
    let s := s.wakeUp
    if signed && !s.verified code f then s.answer code f 1 []
    else if !s.freshFrame f then s.answer code f 2 []
    else
      let (s, status, body) := act { s with mgmt := { s.mgmt with nonces := mapSet s.mgmt.nonces f.slot f.nonce } }
      s.answer code f status body)

/-- A response with a status alone. -/
def State.status (s : State) (n : Nat) : State × Nat × List Byte := (s, n, [])

/-! ## Identity and keys -/

def State.identityRecord (s : State) : List Byte := s.identity ++ zeroBytes 4048

/-- The bitmap of occupied key slots. -/
def State.keyBitmap (s : State) : List Byte := bytesOf 128 (s.keys.foldl (fun n k => n ||| 2 ^ k.1) 0)

/-- IDENTIFY (R378): unsigned, answered at any time. -/
def execIdentify (f : Frame) (s : State) : Host.Outcome State Fault Refusal :=
  .next (if !s.mgmt.powered then s else
    let s := if s.mgmt.halted then s else s.wakeUp
    s.answer 1 f 0 s.identityRecord)

/-- ATTEST (R379): a fresh X448 key pair becomes current. -/
def execAttest (f : Frame) (s : State) : Host.Outcome State Fault Refusal :=
  manage 2 true f (fun s =>
    if f.body.length != 32 then s.status 3 else
    let n := s.fresh
    ({ s with fresh := n + 1, mgmt := { s.mgmt with x448 := some n } }, 0,
      s.identityRecord ++ f.body ++ Config.imageDigests ++ s.keyBitmap ++ Config.x448Public n ++ Config.certificates)) s

/-- KEYLOAD (R380). -/
def execKeyload (f : Frame) (s : State) : Host.Outcome State Fault Refusal :=
  manage 3 true f (fun s =>
    let k := numAt f.body 0 2
    if f.body.length != 130 || 1024 ≤ k then s.status 3
    else if (mapGet s.keys k).isSome || s.mgmt.forensic then s.status 4 else
    match s.mgmt.x448.bind fun n => Config.unwrap n (sliceN f.body 2 56) (Config.bootNonce s.mgmt.bootNo) (sliceN f.body 58 72) with
    | none => s.status 4
    | some key =>
      if key.extractLsb' 0 256 == key.extractLsb' 256 256 then s.status 4 else
      ({ s with keys := mapSet s.keys k key }.status 0)) s

/-- Drop, without write-back, every dome line whose key slot is k, and its replicas (R366). -/
def State.dropKeyLines (s : State) (k : Nat) : State :=
  let mine := fun (d : DomeLine) => d.enc && d.key == k
  let gone := (s.domes.filter fun d => mine d.2).map (·.1)
  { s with domes := mapFilter s.domes fun _ d => !mine d, replicas := mapFilter s.replicas fun i _ => !gone.contains (i / 24) }

/-- KEYDESTROY (R366). -/
def execKeydestroy (f : Frame) (s : State) : Host.Outcome State Fault Refusal :=
  manage 4 true f (fun s =>
    let k := numAt f.body 0 2
    if f.body.length != 2 || 1024 ≤ k then s.status 3 else
    ({ s with keys := mapDel s.keys k }.dropKeyLines k).status 0) s

/-! ## Power and clock (R382, R383) -/

/-- The active state of a code. -/
def pstateOf : Nat → PState
  | 0 => .p0
  | 1 => .p1
  | 2 => .p2
  | _ => .p3

/-- POWERTOL (R382): the lower of the cap and the thermal limit governs from the next control interval. -/
def execPowertol (f : Frame) (s : State) : Host.Outcome State Fault Refusal :=
  manage 5 true f (fun s =>
    if f.body.length != 5 || 3 < numAt f.body 4 1 then s.status 3 else
    let p := { s.power with tolerance := numAt f.body 0 4, cap := pstateOf (numAt f.body 4 1) }
    { s with power := { p with pendState := some p.target } }.status 0) s

/-- Whether no harmonic of a frequency in kHz, up to the 20th, lies in a band. -/
def avoids (bands : List (Nat × Nat)) (khz : Nat) : Bool :=
  (List.range 20).all fun i => bands.all fun b => !(decide (b.1 ≤ (i + 1) * khz) && decide ((i + 1) * khz ≤ b.2))

/-- The highest value that passes, from a first one down through some steps. -/
def highest (f : Nat → Bool) (top steps : Nat) : Option Nat := ((List.range (steps + 1)).map (top - ·)).find? f

/-- CLOCKPLAN (R383): a regulator for which no frequency avoids every band takes one that the spec does not state. -/
def execClockplan (f : Frame) (s : State) : Host.Outcome State Fault Refusal :=
  manage 6 true f (fun s =>
    let n := numAt f.body 0 4
    let bands := (List.range n).map fun i => (numAt f.body (4 + 16 * i) 8, numAt f.body (12 + 16 * i) 8)
    let top := numAt f.body (4 + 16 * n) 4
    if 32 < n || f.body.length != 8 + 16 * n || top < 1000 || 1050 < top then s.status 3
    else if s.power.emergency || !avoids bands 2100000 then s.status 4 else
    match highest (fun m => avoids bands (1000 * m)) top (top - 1000), highest (avoids bands) 1000 500 with
    | none, _ => s.status 4
    | some m, r =>
      let plan : ClockPlan := ⟨bands, m, r.getD (Config.freeBits s.fresh).toNat⟩
      { s with fresh := s.fresh + 1, power := { s.power with pendPlan := some plan } }.status 0) s

/-! ## Event counters, time, state (R378, R381, R384) -/

/-- EVCFG (R384). -/
def execEvcfg (f : Frame) (s : State) : Host.Outcome State Fault Refusal :=
  manage 7 true f (fun s =>
    let i := 64 * numAt f.body 0 1 + numAt f.body 1 1
    if f.body.length != 3 || 8 ≤ numAt f.body 0 1 || 64 ≤ numAt f.body 1 1 || 16 ≤ numAt f.body 2 1 then s.status 3 else
    { s with eventSrc := mapSet s.eventSrc i (numAt f.body 2 1), events := mapSet s.events i 0 }.status 0) s

/-- EVREAD (R378). -/
def execEvread (f : Frame) (s : State) : Host.Outcome State Fault Refusal :=
  manage 8 true f (fun s =>
    if f.body.length != 1 || 8 ≤ numAt f.body 0 1 then s.status 3 else
    (s, 0, (List.range 64).flatMap fun i => bytesOf 8 (mapGetD s.events (64 * numAt f.body 0 1 + i) 0))) s

/-- A domain as RESYNC reports it (R381): how it ended, else running, or saved when nothing of it is placed. -/
def State.domainEntry (s : State) (pd : Nat) : List Byte :=
  let placed := (s.cores.flatMap fun k => k.2.tasks.filter fun t => (s.launch t.2.launch).pd == pd).length
  let saved := (s.savedTasks.filter fun t => t.pd == pd).length
  let graphs := (s.graphs.filter fun g => (mapGetD s.wqs g.1 WorkQueue.fresh).pd.toNat == pd).length
  bytesOf 4 pd ++ bytesOf 1 ((mapGet s.pdEnd pd).getD (if placed = 0 && saved != 0 then 1 else 0)) ++ bytesOf 1 graphs ++
    zeroBytes 2 ++ bytesOf 4 placed ++ bytesOf 4 saved

/-- Domains that RESYNC lists: the valid ones, and those lost. -/
def State.listedDomains (s : State) : List Nat :=
  (List.range 4096).filter fun p => s.pdValid p || mapGet s.pdEnd p == some 2

def ClockPlan.bytes (p : ClockPlan) : List Byte :=
  bytesOf 4 p.bands.length ++ (p.bands.flatMap fun b => bytesOf 8 b.1 ++ bytesOf 8 b.2) ++ bytesOf 4 p.mhz ++ bytesOf 4 p.regulator

/-- RESYNC (R381). -/
def execResync (f : Frame) (s : State) : Host.Outcome State Fault Refusal :=
  manage 9 true f (fun s =>
    (s, 0, s.identityRecord ++ bytesOf 1 s.power.state.rank ++ bytesOf 4 s.power.tolerance ++ bytesOf 1 s.power.cap.rank ++
      s.power.plan.bytes ++ s.keyBitmap ++ bytesOf 4 s.mgmt.alarm.toNat ++ bytesOf 4 s.rings.cmdHead.toNat ++
      s.listedDomains.flatMap s.domainEntry)) s

/-- SETTIME (R373, R378). -/
def execSettime (f : Frame) (s : State) : Host.Outcome State Fault Refusal :=
  manage 0x0A true f (fun s =>
    if f.body.length != 8 then s.status 3 else
    { s with mgmt := { s.mgmt with time := BitVec.ofNat 64 (numAt f.body 0 8), timeSet := some s.usec } }.status 0) s

/-- ADMIN (R378): the first after manufacture, which installs slot 0, needs no signature. -/
def execAdmin (f : Frame) (a : AdminBody) (s : State) : Host.Outcome State Fault Refusal :=
  manage 0x0B (s.mgmt.manufactured || a.keySlot != 0) f (fun s =>
    if 4 ≤ a.keySlot || 4096 ≤ a.module then s.status 3 else
    { s with mgmt := { s.mgmt with pubKeys := mapSet s.mgmt.pubKeys a.keySlot a.publicKey, admins := a.admins
                                   moduleNo := BitVec.ofNat 16 a.module, manufactured := true } }.status 0) s

/-! ## Streams, channels (R228, R367, R368) -/

/-- A stream as STREAMS returns it: whether it is bound, its binding, its counters. -/
def Stream.bytes (x : Stream) : List Byte :=
  (match x.bind with
    | none => zeroBytes 32
    | some b => [1#8] ++ bytesOf 1 b.policy ++ bytesOf 1 b.pfc ++ bytesOf 1 b.log2n ++ bytesOf 4 b.pd ++ bytesOf 8 b.ring.toNat ++
        bytesOf 2 b.udp ++ bytesOf 2 b.vlan ++ bytesOf 2 b.hdr ++ bytesOf 4 b.slotBytes ++ bytesOf 2 b.ports.toNat ++
        bytesOf 1 b.assert ++ bytesOf 1 b.release ++ bytesOf 2 b.queue) ++
    [x.accepted, x.refused, x.late, x.badLen, x.lost].flatMap (bytesOf 8)

/-- STREAMS (R228): the streams of a range, and the unmatched frames of each Ethernet port. -/
def execStreams (f : Frame) (first n : Nat) (s : State) : Host.Outcome State Fault Refusal :=
  manage 0x0C true f (fun s =>
    if 4096 < first + n then s.status 3 else
    (s, 0, ((List.range n).flatMap fun i => (mapGetD s.streams (first + i) Stream.fresh).bytes) ++
      (List.range 16).flatMap fun p => bytesOf 8 (mapGetD s.unmatched p 0))) s

/-- A channel's status word (R367). -/
def Channel.word (x : Channel) : Nat :=
  (if x.offline then 2 ^ 31 else 0) + (if x.marginEv then 2 ^ 30 else 0) +
    ((if x.rep0.isSome then 1 else 0) + (if x.rep1.isSome then 1 else 0)) * 2 ^ 28 + x.minMargin.getD 0 % 64 * 2 ^ 20 +
    x.rep1.getD 0 % 128 * 2 ^ 13 + x.rep0.getD 0 % 128 * 2 ^ 6

/-- CHANNEL (R367, R368): the status words of a stack's channels, and the tiering control registers of its port and of the
capacity-tier controllers. The lowest margin seen starts anew. -/
def execChannel (f : Frame) (stack : Nat) (s : State) : Host.Outcome State Fault Refusal :=
  manage 0x0E true f (fun s =>
    if 16 ≤ stack then s.status 3 else
    let ctl := fun p => bytesOf 4 (mapGetD s.tierCtl p 0xFFFF0000#32).toNat
    let body := ((List.range 32).flatMap fun i => bytesOf 4 (s.chan (32 * stack + i)).word) ++ ctl stack ++
      (List.range 8).flatMap fun i => ctl (16 + i)
    ({ s with chans := mapAll s.chans fun i x => if i / 32 = stack then { x with minMargin := none } else x }, 0, body)) s

/-- FORENSIC (R303): only while every key slot is empty. -/
def execForensic (f : Frame) (s : State) : Host.Outcome State Fault Refusal :=
  manage 0x0F true f (fun s =>
    if !s.keys.isEmpty then s.status 4 else { s with mgmt := { s.mgmt with forensic := true } }.status 0) s

/-- RESET (R378): device memory and everything but the fuses is lost. -/
def execReset (f : Frame) (s : State) : Host.Outcome State Fault Refusal :=
  manage 0x10 true f (fun s => s.powerCycle.status 0) s

/-- UNKNOWN_COMMAND (R378): an accepted frame of an unassigned code. -/
def execUnknownCommand (f : Frame) (code : BitVec 16) (s : State) : Host.Outcome State Fault Refusal :=
  if 1 ≤ code.toNat && code.toNat ≤ 0x10 then .next s else manage code.toNat true f (fun s => s.status 5) s

/-! ## The debugger (R70, R92, R93, R303) -/

/-- DEBUG_BREAKPOINT (R92): set an address breakpoint, or clear it. -/
def execDebugBreakpoint (f : Frame) (c i : Nat) (addr : Option (BitVec 64)) (s : State) : Host.Outcome State Fault Refusal :=
  manage 0x0D true f (fun s =>
    if numCores ≤ c || 8 ≤ i then s.status 3 else
    (s.updCore c fun k => { k with bps := match addr with
      | some a => mapSet k.bps i a
      | none => mapDel k.bps i }).status 0) s

/-- DEBUG_RESUME (R92): the matched instruction issues once with its breakpoint suppressed. -/
def execDebugResume (f : Frame) (c slot : Nat) (s : State) : Host.Outcome State Fault Refusal :=
  manage 0x0D true f (fun s =>
    match s.taskAt c slot with
    | none => s.status 3
    | some t =>
      if !((s.core c).task t).stopped then s.status 4 else
      (((s.core c).taskBands t).foldl (fun s b => s.updBand c b fun y => { y with stepping := [] })
        (s.updTask c t fun x => { x with stopped := false })).status 0) s

/-- The sub-bands of a band in ascending order of lowest lane. -/
def Core.byLane (k : Core) (slot : Nat) : List Nat :=
  (k.entriesOf slot).mergeSort fun a b => (lowestLane (k.entry a).lanes).getD 32 ≤ (lowestLane (k.entry b).lanes).getD 32

/-- DEBUG_STEP (R93): an entry of a stopped task's band, or each of them, issues one instruction; one that is blocked does not.
The response gives each entry with its STATE. -/
def execDebugStep (f : Frame) (c slot : Nat) (entry : Option Nat) (s : State) : Host.Outcome State Fault Refusal :=
  manage 0x0D true f (fun s =>
    let k := s.core c
    match s.taskAt c slot with
    | none => s.status 3
    | some t =>
      let es := match entry with
        | some e => (k.entriesOf slot).filter (· == e)
        | none => k.byLane slot
      if !(k.task t).stopped then s.status 4
      else if es.isEmpty then s.status 3 else
      (s.updBand c slot fun b => { b with stepping := es.filter fun e => k.poised (k.entry e) }, 0,
        es.flatMap fun e => bytesOf 2 e ++ bytesOf 1 (k.entry e).wait.state)) s

/-- An entry of the sub-band table as two words (R70). -/
def State.tableWord (s : State) (c i : Nat) : Nat :=
  match mapGet (s.core c).table i with
  | none => 0
  | some e => e.defer.toNat * 2 ^ 64 + 2 ^ 63 + e.slot * 2 ^ 57 + e.wait.state * 2 ^ 54 + e.wait.jidx * 2 ^ 50 +
      s.ageAt c e s.cycle * 2 ^ 32 + e.lanes.toNat

/-- DEBUG_READ_TABLE (R70). -/
def execDebugReadTable (f : Frame) (c : Nat) (s : State) : Host.Outcome State Fault Refusal :=
  manage 0x0D true f (fun s =>
    if numCores ≤ c then s.status 3 else (s, 0, (List.range 256).flatMap fun i => bytesOf 16 (s.tableWord c i))) s

/-- Bytes of a granule. -/
def storeSize : StoreRef → Nat
  | .vector _ _ _ | .uniform _ _ | .status _ => 4
  | .predicate _ _ _ => 1
  | .tile _ _ | .scratch _ => 64
  | .acc _ _ => 256

/-- A granule as it stands: its tag and content; tag 0 and zero where nothing was written since power-up. -/
def Core.granule (k : Core) (r : StoreRef) : BitVec 16 × List Byte :=
  let word := fun (x : Option (Tagged Word)) => x.elim (0#16, zeroBytes 4) fun t => (t.gen, bytesOf 4 t.val.toNat)
  let row := fun (x : Option Row) => x.elim (0#16, zeroBytes 64) fun t => (t.gen, bytesOf 64 t.data.toNat)
  match r with
  | .vector p e l => word (mapGet k.vrf ((512 * p + e) * 32 + l))
  | .uniform b i => word (mapGet k.srf (64 * b + i))
  | .predicate b l i => (mapGet k.prf (8 * (32 * b + l) + i)).elim (0#16, zeroBytes 1) fun t => (t.gen, [if t.val then 1#8 else 0#8])
  | .tile t i => row (mapGet k.tiles (64 * t + i))
  | .acc a i => (mapGet k.accs (64 * a + i)).elim (0#16, zeroBytes 256) fun t => (t.gen, bytesOf 256 t.val.toNat)
  | .status a => word (mapGet k.accStat a)
  | .scratch g => row (mapGet k.scratch g)

/-- Whether a granule is of a task's allocation. -/
def Core.owns (k : Core) (x : Task) (r : StoreRef) : Bool :=
  match r with
  | .vector p e l => (x.slots.any fun b => pipeOf b == p && (k.band b).vgrans.contains (e / 8)) && decide (l < 32)
  | .uniform b i => x.slots.contains b && decide (i < 64)
  | .predicate b l i => x.slots.contains b && decide (l < 32) && decide (0 < i) && decide (i < 8)
  | .tile t i => x.tileMap.contains (t / 4) && decide (i < 64)
  | .acc a i => x.accMap.contains a && decide (i < 64)
  | .status a => x.accMap.contains a
  | .scratch g => decide (x.spBase / 64 ≤ g) && decide (g < x.spBase / 64 + 64 * x.spGrans)

/-- Write a granule under a generation. A row keeps its format tag where the generation matched, else has format 0. -/
def Core.putGranule (k : Core) (r : StoreRef) (gen : BitVec 16) (l : List Byte) : Core :=
  let n := ofBytes l
  let fmt := fun (x : Option Row) => x.elim 0#4 fun t => if t.gen = gen then t.fmt else 0
  match r with
  | .vector p e i => { k with vrf := mapSet k.vrf ((512 * p + e) * 32 + i) ⟨gen, BitVec.ofNat 32 n⟩ }
  | .uniform b i => { k with srf := mapSet k.srf (64 * b + i) ⟨gen, BitVec.ofNat 32 n⟩ }
  | .predicate b i p => { k with prf := mapSet k.prf (8 * (32 * b + i) + p) ⟨gen, bitN n 0⟩ }
  | .tile t i => { k with tiles := mapSet k.tiles (64 * t + i) ⟨gen, fmt (mapGet k.tiles (64 * t + i)), BitVec.ofNat 512 n⟩ }
  | .acc a i => { k with accs := mapSet k.accs (64 * a + i) ⟨gen, BitVec.ofNat 2048 n⟩ }
  | .status a => { k with accStat := mapSet k.accStat a ⟨gen, BitVec.ofNat 32 n⟩ }
  | .scratch g => { k with scratch := mapSet k.scratch g ⟨gen, fmt (mapGet k.scratch g), BitVec.ofNat 512 n⟩ }

/-- DEBUG_STORAGE_READ (R303): in forensic mode the raw content with its tag, else the content under a live generation. -/
def execDebugStorageRead (f : Frame) (c : Nat) (r : StoreRef) (gen : BitVec 16) (s : State) : Host.Outcome State Fault Refusal :=
  manage 0x0D true f (fun s =>
    let k := s.core c
    let g := k.granule r
    (s, 0, if s.mgmt.forensic then g.2 ++ bytesOf 2 g.1.toNat
      else if g.1 == gen && k.liveGens.contains gen then g.2 else zeroBytes (storeSize r))) s

/-- DEBUG_STORAGE_WRITE (R300, R303): to a granule of a task that is stopped or in keep mode, under its generation. -/
def execDebugStorageWrite (f : Frame) (c : Nat) (r : StoreRef) (gen : BitVec 16) (lo : Nat) (bs : List Byte) (s : State) :
    Host.Outcome State Fault Refusal :=
  manage 0x0D true f (fun s =>
    let k := s.core c
    match k.tasks.find? fun t => t.2.gen == gen with
    | none => s.status 4
    | some (_, x) =>
      if !x.stopped && !x.slots.all (fun b => (k.band b).keep) then s.status 4
      else if !k.owns x r || storeSize r < lo + bs.length then s.status 3 else
      let g := k.granule r
      let old := if g.1 == gen then g.2 else zeroBytes (storeSize r)
      (s.setCore c (k.putGranule r gen (overlay old lo bs))).status 0) s

end Sys2Proof.Machine
end

