-- ==== Sys2Proof/Machine/Plynwick.lean ====
section
/-! DEFINITION. The Plynwick instructions (R184 to R187). -/

namespace Sys2Proof.Machine

/-- The element number that coordinates name under a descriptor word (R185). -/
def pwElement (desc c : Word) : Nat :=
  let b0 := fieldN desc.toNat 14 0
  let b1 := fieldN desc.toNat 29 15
  let n := c.toNat
  match fieldN desc.toNat 31 30 with
  | 2 =>
    let i0 := fieldN n 15 0
    let i1 := fieldN n 31 16
    16 * (i0 / 4 + b0 * (i1 / 4)) + i0 % 4 + 4 * (i1 % 4)
  | 3 =>
    let i0 := fieldN n 9 0
    let i1 := fieldN n 20 10
    let i2 := fieldN n 31 21
    64 * (i0 / 4 + b0 * (i1 / 4 + b1 * (i2 / 4))) + i0 % 4 + 4 * (i1 % 4) + 16 * (i2 % 4)
  | _ => n

/-- PWADDR (R185). -/
def execPwaddr (ty : FW) (o : MV) (s : State) : Host.Outcome State Fault Refusal :=
  let sb := o.vb.extractLsb' 0 6
  issue (.pwaddr ty o)
    { uni := false, d := o.d, words := 2, vs := [o.vd.toNat, o.va.toNat]
      srcs := .v o.va.toNat :: sSrc64 sb ++ [.s (sb.toNat + 2)] } (fun x t =>
    let desc := (x.readS (sb.toNat + 2)).1
    let size := if ty = .f64 then 8 else 4
    t.done x (x.each64 o.vd fun l =>
      x.s64 sb + o.off.signExtend 64 + BitVec.ofNat 64 (pwElement desc (x.v l o.va) * size))) s

/-- A block instruction: the destination is written by `pwraw` alone. -/
def pwIssue (i : Instr) (op : PwOp) (o : MV) (s : State) : Host.Outcome State Fault Refusal :=
  issue i { shapeMem o (addrSrcs o) [] (if op = .raw then [o.vd.toNat] else []) with priv := op = .drop } (fun x t =>
    memIssue x t ⟨.pw op, (lanesOf x.active).map fun l =>
      x.lacc l (x.addr o l) 0 0 (if op = .raw then x.vAt l o.vd else .nowhere) .nowhere, x.active, x.pc, x.flagA, x.b.rm⟩) s

/-- PWCLAIM (R186). -/
def execPwclaim (o : MV) (s : State) : Host.Outcome State Fault Refusal := pwIssue (.pwclaim o) .claim o s

/-- PWFLUSH (R186). -/
def execPwflush (o : MV) (s : State) : Host.Outcome State Fault Refusal := pwIssue (.pwflush o) .flush o s

/-- PWNORM (R186). -/
def execPwnorm (o : MV) (s : State) : Host.Outcome State Fault Refusal := pwIssue (.pwnorm o) .norm o s

/-- PWRAW (R187). -/
def execPwraw (o : MV) (s : State) : Host.Outcome State Fault Refusal := pwIssue (.pwraw o) .raw o s

/-- PWDROP (R186): keep mode only. -/
def execPwdrop (o : MV) (s : State) : Host.Outcome State Fault Refusal := pwIssue (.pwdrop o) .drop o s

end Sys2Proof.Machine
end

