-- ==== Sys2Proof/Machine/PowerCtl.lean ====
section
/-! DEFINITION. Power states, temperature and the watchtower (R325, R382, R385 to R387). -/

namespace Sys2Proof.Machine

/-! ## Idle states (R382) -/

/-- The deepest idle state whose exit latency is within a tolerance in ns. -/
def deepestIdle (ns : Nat) : Option PState :=
  if 5000000 ≤ ns then some .i3 else if 200000 ≤ ns then some .i2 else if 20000 ≤ ns then some .i1 else none

/-- IDLE_ENTRY (R382): from the next control interval. -/
def execIdleEntry (s : State) : Host.Outcome State Fault Refusal :=
  .next (if !s.idleNow || s.power.state.idle then s else
    match deepestIdle s.power.tolerance with
    | none => s
    | some p => { s with power := { s.power with pendState := some p } })

/-- WAKE (R382). -/
def execWake (s : State) : Host.Outcome State Fault Refusal := .next s.wakeUp

/-! ## Temperature (R325, R386) -/

/-- Set the thermal limit; it governs from the next control interval, also of a module that wakes later. -/
def State.limitTo (s : State) (l : Option PState) : State :=
  let p := { s.power with thermal := l }
  { s with power := { p with pendState := if p.state.idle || p.pendState.any PState.idle then p.pendState else some p.target } }

/-- THERMAL_LIMIT (R386). -/
def execThermalLimit (temp : Nat) (s : State) : Host.Outcome State Fault Refusal :=
  .next (if temp < 95 || s.power.thermal.isSome then s else s.limitTo (some .p2))

/-- Pre-emption of every task into its domain's emergency area; a domain without one loses its tasks (R325, R329, R374). -/
def State.saveAll (s : State) : State :=
  let tasks := s.cores.flatMap fun k => k.2.tasks.map fun t => (k.1, t.1)
  let s := { s with clusters := mapAll s.clusters fun _ x =>
    { x with placing := x.placing.map fun p => { p with request := p.request.or (some ⟨0, 2⟩) } } }
  tasks.foldl (fun s p =>
    if !s.takesRequest p.1 p.2 then s else
    let pd := (s.launch ((s.core p.1).task p.2).launch).pd
    match s.emergencyArea pd p.1 p.2 with
    | some a => s.requestPre p.1 p.2 a 2
    | none => s.killDomain pd 3) s

/-- THERMAL_EMERGENCY (R325, R386). -/
def execThermalEmergency (temp : Nat) (s : State) : Host.Outcome State Fault Refusal :=
  .next (if temp < 105 || s.power.emergency then s else
    let s := s.limitTo (some .p3)
    { s with power := { s.power with emergency := true } }.saveAll)

/-- THERMAL_LIMIT_LIFT (R386): each limit 5 °C below the threshold that set it. -/
def execThermalLimitLift (temp : Nat) (s : State) : Host.Outcome State Fault Refusal :=
  .next (match s.power.thermal with
    | none => s
    | some l =>
      if temp ≤ 90 then
        let s := s.limitTo none
        { s with power := { s.power with emergency := false } }
      else if temp ≤ 100 && l == .p3 then
        let s := s.limitTo (some .p2)
        { s with power := { s.power with emergency := false } }
      else s)

/-! ## Power lost, and the watchtower (R385 to R387) -/

/-- The domains that run, or have saved tasks, are lost (R381). -/
def State.loseDomains (s : State) : State :=
  let pds := (s.cores.flatMap fun k => k.2.tasks.map fun t => (s.launch t.2.launch).pd) ++ s.launches.map (·.2.pd) ++
    s.graphs.map (fun g => (mapGetD s.wqs g.1 WorkQueue.fresh).pd.toNat) ++ s.savedTasks.map (·.pd)
  { s with pdEnd := pds.foldl (fun m p => mapSet m p 2) s.pdEnd }

/-- HARD_TRIP (R325, R386): the module is off, and device memory is lost. -/
def execHardTrip (temp : Nat) (s : State) : Host.Outcome State Fault Refusal :=
  .next (if temp < 110 || !s.mgmt.powered then s else
    let s := s.loseDomains
    { State.reset with
      mgmt := { Mgmt.fresh with bootNo := s.mgmt.bootNo, pubKeys := s.mgmt.pubKeys, manufactured := s.mgmt.manufactured, powered := false }
      pdEnd := s.pdEnd.filter fun p => p.2 == 2
      out := s.out, turns := s.turns, fresh := s.fresh })

/-- WATCHTOWER_ALARM (R385): the key slots are emptied, the first alarm word is latched, the module halts. -/
def execWatchtowerAlarm (word : BitVec 32) (s : State) : Host.Outcome State Fault Refusal :=
  .next (if !s.mgmt.powered then s else
    let s := s.loseDomains
    { s with keys := [], mgmt := { s.mgmt with alarm := if s.mgmt.alarm = 0 then word else s.mgmt.alarm, halted := true } })

/-- POWER_UP (R387). -/
def execPowerUp (s : State) : Host.Outcome State Fault Refusal :=
  .next (if s.mgmt.powered then s else s.powerCycle)

end Sys2Proof.Machine
end

