-- ==== Sys2Proof/Machine/VectorInt.lean ====
section
/-! DEFINITION. Vector integer, comparison, bit-field, predicate and indexed-register instructions (R95 to R102, R106 to
R108). -/

namespace Sys2Proof.Machine

/-- High words of 64-bit products (R98). -/
def mulHighS (a b : Word) : Word := (a.signExtend 64 * b.signExtend 64).extractLsb' 32 32
def mulHighU (a b : Word) : Word := (a.setWidth 64 * b.setWidth 64).extractLsb' 32 32

/-- The lesser and the greater, signed and unsigned (R98). -/
def minS (a b : Word) : Word := if b.slt a then b else a
def minU (a b : Word) : Word := if b.ult a then b else a
def maxS (a b : Word) : Word := if a.slt b then b else a
def maxU (a b : Word) : Word := if a.ult b then b else a

/-- Position and bits of a field under a control word (R101). -/
def fieldOf (c : Word) : Nat × Nat :=
  let p := (c.extractLsb' 0 8).toNat
  let w := min (c.extractLsb' 8 8).toNat 32
  if w = 0 || 32 ≤ p then (p, 0) else (p, min w (32 - p))

/-- Bits [p+n-1:p] of a word, extended (R101, R104). -/
def extractField (a : Word) (p n : Nat) (sg : Bool) : Word :=
  if n = 0 then 0 else
  let e := a.toNat / 2 ^ p % 2 ^ n
  if sg && e.testBit (n - 1) then BitVec.ofNat 32 (e + 2 ^ 32 - 2 ^ n) else BitVec.ofNat 32 e

/-- Bits [p+n-1:p] of a word replaced by the low bits of another (R101, R104). -/
def insertField (old a : Word) (p n : Nat) : Word :=
  if n = 0 then old else BitVec.ofNat 32 (setFieldN old.toNat (p + n - 1) p (a.toNat % 2 ^ n))

def bfExtract (a c : Word) (sg : Bool) : Word := extractField a (fieldOf c).1 (fieldOf c).2 sg
def bfInsert (a c old : Word) : Word := insertField old a (fieldOf c).1 (fieldOf c).2

/-! ## The forms -/

/-- Form VV on words. -/
def vec32 (i : Instr) (o : VV) (f : Word → Word → Word) (s : State) : Host.Outcome State Fault Refusal :=
  issue i (shapeVV o) (fun x t => t.done x (x.each32 o.vd fun l => f (x.v l o.va) (x.last l o.u o.vb))) s

/-- Form VA on words: the destination is the third source. -/
def vecAcc (i : Instr) (o : VV) (f : Word → Word → Word → Word) (s : State) : Host.Outcome State Fault Refusal :=
  issue i (shapeVV o false true) (fun x t => t.done x (x.each32 o.vd fun l => f (x.v l o.va) (x.last l o.u o.vb) (x.v l o.vd))) s

/-- Form VV on pairs. -/
def vec64 (i : Instr) (o : VV) (f : BitVec 64 → BitVec 64 → BitVec 64) (s : State) : Host.Outcome State Fault Refusal :=
  issue i (shapeVV o true) (fun x t => t.done x (x.each64 o.vd fun l => f (x.v64 l o.va) (x.last64 l o.u o.vb))) s

/-- Form VS. -/
def vecUnary (i : Instr) (o : VU) (f : Word → Word) (s : State) : Host.Outcome State Fault Refusal :=
  issue i (shapeVU o) (fun x t => t.done x (x.each32 o.vd fun l => f (x.v l o.va))) s

/-- A result without vector sources. -/
def vecConst (i : Instr) (d : BitVec 2) (vd : BitVec 7) (srcs : List Src) (f : Ctx → Nat → Word) (s : State) :
    Host.Outcome State Fault Refusal :=
  issue i { uni := false, d, vs := [vd.toNat], srcs } (fun x t => t.done x (x.each32 vd (f x))) s

/-- Form VP. -/
def predOp (i : Instr) (d : BitVec 2) (pd pa pb : BitVec 3) (f : Bool → Bool → Bool) (s : State) :
    Host.Outcome State Fault Refusal :=
  issue i { uni := false, d, srcs := [.p pa.toNat, .p pb.toNat] }
    (fun x t => t.done x (x.eachP pd fun l => f (x.p l pa) (x.p l pb))) s

/-- The shape of an indexed access: its data sources are checked with the index (R107). -/
def shapeIdx (o : VV) (_base : BitVec 7) : Shape :=
  { uni := false, d := o.d, vs := [o.vd.toNat, o.va.toNat] ++ lastV o.u o.vb, srcs := lastSrc o.u o.vb }

/-- The index source's generation, then the bound of the computed indices, then the generation of the registers read
through them (R107). -/
def indexPre (o : VV) (base : BitVec 7) (reads : Bool) (x : Ctx) : Option Nat :=
  if !(lastV o.u o.vb).all x.vOk then some 0x03
  else if x.l.gentrap && !(lastSrc o.u o.vb).all (Src.genOk x false) then some 0x04
  else
    let n := fun l => base.toNat + (x.last l o.u o.vb).toNat
    if !((lanesOf x.active).all fun l => x.vOk (n l)) then some 0x03
    else if !(x.vOk o.vd.toNat && x.vOk o.va.toNat) then some 0x03
    else if reads && x.l.gentrap && !((lanesOf x.active).all fun l => (x.readV l (n l)).2) then some 0x04
    else none

/-! ## The instructions -/

/-- R98. -/
def execAddB32 (o : VV) (s : State) : Host.Outcome State Fault Refusal :=
  vec32 (.addB32 o) o (fun a b => a + b) s

/-- R98. -/
def execSubB32 (o : VV) (s : State) : Host.Outcome State Fault Refusal :=
  vec32 (.subB32 o) o (fun a b => a - b) s

/-- R98. -/
def execAddB64 (o : VV) (s : State) : Host.Outcome State Fault Refusal :=
  vec64 (.addB64 o) o (fun a b => a + b) s

/-- R98. -/
def execSubB64 (o : VV) (s : State) : Host.Outcome State Fault Refusal :=
  vec64 (.subB64 o) o (fun a b => a - b) s

/-- R98. -/
def execMulB32 (o : VV) (s : State) : Host.Outcome State Fault Refusal :=
  vec32 (.mulB32 o) o (fun a b => a * b) s

/-- R98. -/
def execMulhiI32 (o : VV) (s : State) : Host.Outcome State Fault Refusal :=
  vec32 (.mulhiI32 o) o (fun a b => mulHighS a b) s

/-- R98. -/
def execMulhiB32 (o : VV) (s : State) : Host.Outcome State Fault Refusal :=
  vec32 (.mulhiB32 o) o (fun a b => mulHighU a b) s

/-- R98. -/
def execMadB32 (o : VV) (s : State) : Host.Outcome State Fault Refusal :=
  vecAcc (.madB32 o) o (fun a b c => a * b + c) s

/-- R98. -/
def execAndB32 (o : VV) (s : State) : Host.Outcome State Fault Refusal :=
  vec32 (.andB32 o) o (fun a b => a &&& b) s

/-- R98. -/
def execOrB32 (o : VV) (s : State) : Host.Outcome State Fault Refusal :=
  vec32 (.orB32 o) o (fun a b => a ||| b) s

/-- R98. -/
def execXorB32 (o : VV) (s : State) : Host.Outcome State Fault Refusal :=
  vec32 (.xorB32 o) o (fun a b => a ^^^ b) s

/-- R98. -/
def execAndnB32 (o : VV) (s : State) : Host.Outcome State Fault Refusal :=
  vec32 (.andnB32 o) o (fun a b => a &&& ~~~b) s

/-- R98. -/
def execShlB32 (o : VV) (s : State) : Host.Outcome State Fault Refusal :=
  vec32 (.shlB32 o) o (fun a b => shlR a b.toNat) s

/-- R98. -/
def execShrB32 (o : VV) (s : State) : Host.Outcome State Fault Refusal :=
  vec32 (.shrB32 o) o (fun a b => shrR a b.toNat) s

/-- R98. -/
def execSraB32 (o : VV) (s : State) : Host.Outcome State Fault Refusal :=
  vec32 (.sraB32 o) o (fun a b => sraR a b.toNat) s

/-- R98. -/
def execShlB64 (o : VV) (s : State) : Host.Outcome State Fault Refusal :=
  vec64 (.shlB64 o) o (fun a b => shlR a b.toNat) s

/-- R98. -/
def execShrB64 (o : VV) (s : State) : Host.Outcome State Fault Refusal :=
  vec64 (.shrB64 o) o (fun a b => shrR a b.toNat) s

/-- R98. -/
def execSraB64 (o : VV) (s : State) : Host.Outcome State Fault Refusal :=
  vec64 (.sraB64 o) o (fun a b => sraR a b.toNat) s

/-- R98. -/
def execMinI32 (o : VV) (s : State) : Host.Outcome State Fault Refusal :=
  vec32 (.minI32 o) o (fun a b => minS a b) s

/-- R98. -/
def execMinB32 (o : VV) (s : State) : Host.Outcome State Fault Refusal :=
  vec32 (.minB32 o) o (fun a b => minU a b) s

/-- R98. -/
def execMaxI32 (o : VV) (s : State) : Host.Outcome State Fault Refusal :=
  vec32 (.maxI32 o) o (fun a b => maxS a b) s

/-- R98. -/
def execMaxB32 (o : VV) (s : State) : Host.Outcome State Fault Refusal :=
  vec32 (.maxB32 o) o (fun a b => maxU a b) s

/-- R99. -/
def execCmp32 (o : VC) (s : State) : Host.Outcome State Fault Refusal :=
  issue (.cmp32 o) (shapeVC o) (fun x t => t.done x (x.eachP o.pd fun l => compareCC o.cc (x.v l o.va) (x.last l o.u o.vb))) s

/-- R99. -/
def execCmp64 (o : VC) (s : State) : Host.Outcome State Fault Refusal :=
  issue (.cmp64 o) (shapeVC o true) (fun x t => t.done x (x.eachP o.pd fun l => compareCC o.cc (x.v64 l o.va) (x.last64 l o.u o.vb))) s

/-- R101. -/
def execBfeB32 (o : VV) (s : State) : Host.Outcome State Fault Refusal :=
  vec32 (.bfeB32 o) o (fun a b => bfExtract a b false) s

/-- R101. -/
def execBfeI32 (o : VV) (s : State) : Host.Outcome State Fault Refusal :=
  vec32 (.bfeI32 o) o (fun a b => bfExtract a b true) s

/-- R101. -/
def execBfiB32 (o : VV) (s : State) : Host.Outcome State Fault Refusal :=
  vecAcc (.bfiB32 o) o (fun a b c => bfInsert a b c) s

/-- R100. -/
def execMov (o : VU) (s : State) : Host.Outcome State Fault Refusal :=
  vecUnary (.mov o) o (fun a => a) s

/-- R100. -/
def execAbsI32 (o : VU) (s : State) : Host.Outcome State Fault Refusal :=
  vecUnary (.absI32 o) o (fun a => if a.msb then -a else a) s

/-- R100. -/
def execPopc (o : VU) (s : State) : Host.Outcome State Fault Refusal :=
  vecUnary (.popc o) o (fun a => BitVec.ofNat 32 (popCount a)) s

/-- R100. -/
def execClz (o : VU) (s : State) : Host.Outcome State Fault Refusal :=
  vecUnary (.clz o) o (fun a => BitVec.ofNat 32 (clzN a)) s

/-- R100. -/
def execBrev (o : VU) (s : State) : Host.Outcome State Fault Refusal :=
  vecUnary (.brev o) o (fun a => bitRev a) s

/-- R100. -/
def execLid (d : BitVec 2) (vd : BitVec 7) (s : State) : Host.Outcome State Fault Refusal :=
  vecConst (.lid d vd) d vd [] (fun _ l => BitVec.ofNat 32 l) s

/-- R100. -/
def execLi (d : BitVec 2) (vd : BitVec 7) (imm : BitVec 14) (s : State) : Host.Outcome State Fault Refusal :=
  vecConst (.li d vd imm) d vd [] (fun _ _ => imm.signExtend 32) s

/-- R100. -/
def execMovs (d : BitVec 2) (vd : BitVec 7) (sn : BitVec 6) (s : State) : Host.Outcome State Fault Refusal :=
  vecConst (.movs d vd sn) d vd [.s sn.toNat] (fun x _ => x.s sn) s

/-- R106, R107, R108. -/
def execVmovr (o : VV) (s : State) : Host.Outcome State Fault Refusal :=
  issue (.vmovr o) { shapeIdx o o.va with pre := indexPre o o.va true }
    (fun x t => t.done x (x.each32 o.vd fun l => (x.readV l (o.va.toNat + (x.last l o.u o.vb).toNat)).1)) s

/-- R106, R107, R108. -/
def execVmovw (o : VV) (s : State) : Host.Outcome State Fault Refusal :=
  issue (.vmovw o) { shapeIdx o o.vd with pre := indexPre o o.vd false, srcs := .v o.va.toNat :: lastSrc o.u o.vb }
    (fun x t => t.done x ((lanesOf x.active).map fun l =>
      (x.b.vLoc x.slot l (o.vd.toNat + (x.last l o.u o.vb).toNat), x.v l o.va))) s

/-- R102. -/
def execPand (d : BitVec 2) (pd pa pb : BitVec 3) (s : State) : Host.Outcome State Fault Refusal :=
  predOp (.pand d pd pa pb) d pd pa pb (fun a b => a && b) s

/-- R102. -/
def execPor (d : BitVec 2) (pd pa pb : BitVec 3) (s : State) : Host.Outcome State Fault Refusal :=
  predOp (.por d pd pa pb) d pd pa pb (fun a b => a || b) s

/-- R102. -/
def execPxor (d : BitVec 2) (pd pa pb : BitVec 3) (s : State) : Host.Outcome State Fault Refusal :=
  predOp (.pxor d pd pa pb) d pd pa pb (fun a b => a != b) s

/-- R102. -/
def execPnot (d : BitVec 2) (pd pa : BitVec 3) (s : State) : Host.Outcome State Fault Refusal :=
  predOp (.pnot d pd pa) d pd pa pa (fun a _ => !a) s

/-- R98. -/
def execSel (p : BitVec 3) (o : VV) (s : State) : Host.Outcome State Fault Refusal :=
  issue (.sel p o) { shapeVV o with srcs := .p p.toNat :: .v o.va.toNat :: lastSrc o.u o.vb }
    (fun x t => t.done x (x.each32 o.vd fun l => if x.p l p then x.v l o.va else x.last l o.u o.vb)) s

end Sys2Proof.Machine
end

