-- ==== Sys2Proof/Machine/UniformInt.lean ====
section
/-! DEFINITION. Uniform integer instructions (R95, R103, R104). -/

namespace Sys2Proof.Machine

/-- A word into a uniform register. -/
def uniOne (i : Instr) (d : BitVec 2) (sd : BitVec 6) (srcs : List Src) (f : Ctx → Word) (s : State) :
    Host.Outcome State Fault Refusal :=
  issue i (shapeS d srcs) (fun x t => t.done x (x.toS sd (f x))) s

/-- Two words to a word. -/
def uni32 (i : Instr) (o : S3) (f : Word → Word → Word) (s : State) : Host.Outcome State Fault Refusal :=
  uniOne i o.d o.sd [.s o.sa.toNat, .s o.sb.toNat] (fun x => f (x.s o.sa) (x.s o.sb)) s

/-- Two pairs to a pair. -/
def uni64 (i : Instr) (o : S3) (f : BitVec 64 → BitVec 64 → BitVec 64) (s : State) : Host.Outcome State Fault Refusal :=
  issue i (shapeS o.d (sSrc64 o.sa ++ sSrc64 o.sb)) (fun x t => t.done x (x.toS64 o.sd (f (x.s64 o.sa) (x.s64 o.sb)))) s

/-- R103. -/
def execSadd (o : S3) (s : State) : Host.Outcome State Fault Refusal :=
  uni32 (.sadd o) o (fun a b => a + b) s

/-- R103. -/
def execSsub (o : S3) (s : State) : Host.Outcome State Fault Refusal :=
  uni32 (.ssub o) o (fun a b => a - b) s

/-- R103. -/
def execSmul (o : S3) (s : State) : Host.Outcome State Fault Refusal :=
  uni32 (.smul o) o (fun a b => a * b) s

/-- R103. -/
def execSmulhiI32 (o : S3) (s : State) : Host.Outcome State Fault Refusal :=
  uni32 (.smulhiI32 o) o (fun a b => mulHighS a b) s

/-- R103. -/
def execSmulhiB32 (o : S3) (s : State) : Host.Outcome State Fault Refusal :=
  uni32 (.smulhiB32 o) o (fun a b => mulHighU a b) s

/-- R103. -/
def execSand (o : S3) (s : State) : Host.Outcome State Fault Refusal :=
  uni32 (.sand o) o (fun a b => a &&& b) s

/-- R103. -/
def execSor (o : S3) (s : State) : Host.Outcome State Fault Refusal :=
  uni32 (.sor o) o (fun a b => a ||| b) s

/-- R103. -/
def execSxor (o : S3) (s : State) : Host.Outcome State Fault Refusal :=
  uni32 (.sxor o) o (fun a b => a ^^^ b) s

/-- R103. -/
def execSshl (o : S3) (s : State) : Host.Outcome State Fault Refusal :=
  uni32 (.sshl o) o (fun a b => shlR a b.toNat) s

/-- R103. -/
def execSshr (o : S3) (s : State) : Host.Outcome State Fault Refusal :=
  uni32 (.sshr o) o (fun a b => shrR a b.toNat) s

/-- R103. -/
def execSsra (o : S3) (s : State) : Host.Outcome State Fault Refusal :=
  uni32 (.ssra o) o (fun a b => sraR a b.toNat) s

/-- R103. -/
def execSminI32 (o : S3) (s : State) : Host.Outcome State Fault Refusal :=
  uni32 (.sminI32 o) o (fun a b => minS a b) s

/-- R103. -/
def execSminB32 (o : S3) (s : State) : Host.Outcome State Fault Refusal :=
  uni32 (.sminB32 o) o (fun a b => minU a b) s

/-- R103. -/
def execSmaxI32 (o : S3) (s : State) : Host.Outcome State Fault Refusal :=
  uni32 (.smaxI32 o) o (fun a b => maxS a b) s

/-- R103. -/
def execSmaxB32 (o : S3) (s : State) : Host.Outcome State Fault Refusal :=
  uni32 (.smaxB32 o) o (fun a b => maxU a b) s

/-- R103. -/
def execSmov (d : BitVec 2) (sd sa : BitVec 6) (s : State) : Host.Outcome State Fault Refusal :=
  uniOne (.smov d sd sa) d sd [.s sa.toNat] (fun x => let a := x.s sa; a) s

/-- R103. -/
def execSpopc (d : BitVec 2) (sd sa : BitVec 6) (s : State) : Host.Outcome State Fault Refusal :=
  uniOne (.spopc d sd sa) d sd [.s sa.toNat] (fun x => let a := x.s sa; BitVec.ofNat 32 (popCount a)) s

/-- R103. -/
def execSclz (d : BitVec 2) (sd sa : BitVec 6) (s : State) : Host.Outcome State Fault Refusal :=
  uniOne (.sclz d sd sa) d sd [.s sa.toNat] (fun x => let a := x.s sa; BitVec.ofNat 32 (clzN a)) s

/-- R103. -/
def execSaddB64 (o : S3) (s : State) : Host.Outcome State Fault Refusal :=
  uni64 (.saddB64 o) o (fun a b => a + b) s

/-- R103. -/
def execSsubB64 (o : S3) (s : State) : Host.Outcome State Fault Refusal :=
  uni64 (.ssubB64 o) o (fun a b => a - b) s

/-- R103. -/
def execSsel (o : S3) (s : State) : Host.Outcome State Fault Refusal :=
  uniOne (.ssel o) o.d o.sd [.s o.sd.toNat, .s o.sa.toNat, .s o.sb.toNat]
    (fun x => if x.s o.sd != 0 then x.s o.sa else x.s o.sb) s

/-- R103. -/
def execScmp (cc : BitVec 4) (o : S3) (s : State) : Host.Outcome State Fault Refusal :=
  uni32 (.scmp cc o) o (fun a b => if compareCC cc a b then 1#32 else 0#32) s

/-- R103. -/
def execSli (d : BitVec 2) (sd : BitVec 6) (imm : BitVec 18) (s : State) : Host.Outcome State Fault Refusal :=
  uniOne (.sli d sd imm) d sd [] (fun _ => imm.signExtend 32) s

/-- R103. -/
def execSlih (d : BitVec 2) (sd : BitVec 6) (imm : BitVec 16) (s : State) : Host.Outcome State Fault Refusal :=
  uniOne (.slih d sd imm) d sd [.s sd.toNat] (fun x => imm ++ (x.s sd).extractLsb' 0 16) s

/-- R104: the field holds the width less one. -/
def execSbfe (d : BitVec 2) (sd sa : BitVec 6) (pos wid : BitVec 5) (sg : Bool) (s : State) : Host.Outcome State Fault Refusal :=
  uniOne (.sbfe d sd sa pos wid sg) d sd [.s sa.toNat]
    (fun x => extractField (x.s sa) pos.toNat (min (wid.toNat + 1) (32 - pos.toNat)) sg) s

/-- R104. -/
def execSbfi (d : BitVec 2) (sd sa : BitVec 6) (pos wid : BitVec 5) (s : State) : Host.Outcome State Fault Refusal :=
  uniOne (.sbfi d sd sa pos wid) d sd [.s sd.toNat, .s sa.toNat]
    (fun x => insertField (x.s sd) (x.s sa) pos.toNat (min (wid.toNat + 1) (32 - pos.toNat))) s

/-- R103. -/
def execSaddImm (d : BitVec 2) (sd sa : BitVec 6) (imm : BitVec 12) (s : State) : Host.Outcome State Fault Refusal :=
  uniOne (.saddImm d sd sa imm) d sd [.s sa.toNat] (fun x => x.s sa + imm.signExtend 32) s

end Sys2Proof.Machine
end

