-- ==== Sys2Proof/Machine/Dispatch.lean ====
section
/-! DEFINITION. The meaning of every step, one arm per constructor. -/

namespace Sys2Proof.Machine

def exec (i : Instr) (s : State) : Host.Outcome State Fault Refusal :=
  match i with
  | .clause w a b p n c => Sys2Proof.Machine.execClause w a b p n c s
  | .addB32 o => Sys2Proof.Machine.execAddB32 o s
  | .subB32 o => Sys2Proof.Machine.execSubB32 o s
  | .addB64 o => Sys2Proof.Machine.execAddB64 o s
  | .subB64 o => Sys2Proof.Machine.execSubB64 o s
  | .mulB32 o => Sys2Proof.Machine.execMulB32 o s
  | .mulhiI32 o => Sys2Proof.Machine.execMulhiI32 o s
  | .mulhiB32 o => Sys2Proof.Machine.execMulhiB32 o s
  | .madB32 o => Sys2Proof.Machine.execMadB32 o s
  | .andB32 o => Sys2Proof.Machine.execAndB32 o s
  | .orB32 o => Sys2Proof.Machine.execOrB32 o s
  | .xorB32 o => Sys2Proof.Machine.execXorB32 o s
  | .andnB32 o => Sys2Proof.Machine.execAndnB32 o s
  | .shlB32 o => Sys2Proof.Machine.execShlB32 o s
  | .shrB32 o => Sys2Proof.Machine.execShrB32 o s
  | .sraB32 o => Sys2Proof.Machine.execSraB32 o s
  | .shlB64 o => Sys2Proof.Machine.execShlB64 o s
  | .shrB64 o => Sys2Proof.Machine.execShrB64 o s
  | .sraB64 o => Sys2Proof.Machine.execSraB64 o s
  | .minI32 o => Sys2Proof.Machine.execMinI32 o s
  | .minB32 o => Sys2Proof.Machine.execMinB32 o s
  | .maxI32 o => Sys2Proof.Machine.execMaxI32 o s
  | .maxB32 o => Sys2Proof.Machine.execMaxB32 o s
  | .cmp32 o => Sys2Proof.Machine.execCmp32 o s
  | .cmp64 o => Sys2Proof.Machine.execCmp64 o s
  | .bfeB32 o => Sys2Proof.Machine.execBfeB32 o s
  | .bfeI32 o => Sys2Proof.Machine.execBfeI32 o s
  | .bfiB32 o => Sys2Proof.Machine.execBfiB32 o s
  | .mov o => Sys2Proof.Machine.execMov o s
  | .absI32 o => Sys2Proof.Machine.execAbsI32 o s
  | .popc o => Sys2Proof.Machine.execPopc o s
  | .clz o => Sys2Proof.Machine.execClz o s
  | .brev o => Sys2Proof.Machine.execBrev o s
  | .lid d vd => Sys2Proof.Machine.execLid d vd s
  | .li d vd imm => Sys2Proof.Machine.execLi d vd imm s
  | .vmovr o => Sys2Proof.Machine.execVmovr o s
  | .vmovw o => Sys2Proof.Machine.execVmovw o s
  | .movs d vd sn => Sys2Proof.Machine.execMovs d vd sn s
  | .pand d pd pa pb => Sys2Proof.Machine.execPand d pd pa pb s
  | .por d pd pa pb => Sys2Proof.Machine.execPor d pd pa pb s
  | .pxor d pd pa pb => Sys2Proof.Machine.execPxor d pd pa pb s
  | .pnot d pd pa => Sys2Proof.Machine.execPnot d pd pa s
  | .sel p o => Sys2Proof.Machine.execSel p o s
  | .fadd t o => Sys2Proof.Machine.execFadd t o s
  | .fsub t o => Sys2Proof.Machine.execFsub t o s
  | .fmul t o => Sys2Proof.Machine.execFmul t o s
  | .fma t o => Sys2Proof.Machine.execFma t o s
  | .fmin t o => Sys2Proof.Machine.execFmin t o s
  | .fmax t o => Sys2Proof.Machine.execFmax t o s
  | .fminm t o => Sys2Proof.Machine.execFminm t o s
  | .fmaxm t o => Sys2Proof.Machine.execFmaxm t o s
  | .fcmp t o => Sys2Proof.Machine.execFcmp t o s
  | .frcp t o => Sys2Proof.Machine.execFrcp t o s
  | .frsq t o => Sys2Proof.Machine.execFrsq t o s
  | .fsqrt t o => Sys2Proof.Machine.execFsqrt t o s
  | .fclass t o => Sys2Proof.Machine.execFclass t o s
  | .frnd t r o => Sys2Proof.Machine.execFrnd t r o s
  | .fdiv t o => Sys2Proof.Machine.execFdiv t o s
  | .fscale t o => Sys2Proof.Machine.execFscale t o s
  | .fdot2 t o => Sys2Proof.Machine.execFdot2 t o s
  | .ftab tid o => Sys2Proof.Machine.execFtab tid o s
  | .ld ty od o => Sys2Proof.Machine.execLd ty od o s
  | .st ty od o => Sys2Proof.Machine.execSt ty od o s
  | .ldk ty od k o => Sys2Proof.Machine.execLdk ty od k o s
  | .stk ty od k o => Sys2Proof.Machine.execStk ty od k o s
  | .lds ty o => Sys2Proof.Machine.execLds ty o s
  | .sts ty o => Sys2Proof.Machine.execSts ty o s
  | .pf o => Sys2Proof.Machine.execPf o s
  | .atom op ty od o => Sys2Proof.Machine.execAtom op ty od o s
  | .atomc ty od o => Sys2Proof.Machine.execAtomc ty od o s
  | .pwaddr t o => Sys2Proof.Machine.execPwaddr t o s
  | .pwclaim o => Sys2Proof.Machine.execPwclaim o s
  | .pwflush o => Sys2Proof.Machine.execPwflush o s
  | .pwnorm o => Sys2Proof.Machine.execPwnorm o s
  | .pwraw o => Sys2Proof.Machine.execPwraw o s
  | .pwdrop o => Sys2Proof.Machine.execPwdrop o s
  | .cvt src dst rm sat o => Sys2Proof.Machine.execCvt src dst rm sat o s
  | .pk src dst rm sat o => Sys2Proof.Machine.execPk src dst rm sat o s
  | .upk src dst rm sat o => Sys2Proof.Machine.execUpk src dst rm sat o s
  | .qz src dst rm sat o => Sys2Proof.Machine.execQz src dst rm sat o s
  | .dq src dst rm sat o => Sys2Proof.Machine.execDq src dst rm sat o s
  | .mxq src dst rm sat o => Sys2Proof.Machine.execMxq src dst rm sat o s
  | .mxdq src dst rm sat o => Sys2Proof.Machine.execMxdq src dst rm sat o s
  | .vote op o => Sys2Proof.Machine.execVote op o s
  | .shfl op ty o => Sys2Proof.Machine.execShfl op ty o s
  | .red op ty o => Sys2Proof.Machine.execRed op ty o s
  | .scan op ty excl o => Sys2Proof.Machine.execScan op ty excl o s
  | .bcast ty o => Sys2Proof.Machine.execBcast ty o s
  | .sadd o => Sys2Proof.Machine.execSadd o s
  | .ssub o => Sys2Proof.Machine.execSsub o s
  | .smul o => Sys2Proof.Machine.execSmul o s
  | .smulhiI32 o => Sys2Proof.Machine.execSmulhiI32 o s
  | .smulhiB32 o => Sys2Proof.Machine.execSmulhiB32 o s
  | .sand o => Sys2Proof.Machine.execSand o s
  | .sor o => Sys2Proof.Machine.execSor o s
  | .sxor o => Sys2Proof.Machine.execSxor o s
  | .sshl o => Sys2Proof.Machine.execSshl o s
  | .sshr o => Sys2Proof.Machine.execSshr o s
  | .ssra o => Sys2Proof.Machine.execSsra o s
  | .sminI32 o => Sys2Proof.Machine.execSminI32 o s
  | .sminB32 o => Sys2Proof.Machine.execSminB32 o s
  | .smaxI32 o => Sys2Proof.Machine.execSmaxI32 o s
  | .smaxB32 o => Sys2Proof.Machine.execSmaxB32 o s
  | .smov d sd sa => Sys2Proof.Machine.execSmov d sd sa s
  | .spopc d sd sa => Sys2Proof.Machine.execSpopc d sd sa s
  | .sclz d sd sa => Sys2Proof.Machine.execSclz d sd sa s
  | .saddB64 o => Sys2Proof.Machine.execSaddB64 o s
  | .ssubB64 o => Sys2Proof.Machine.execSsubB64 o s
  | .ssel o => Sys2Proof.Machine.execSsel o s
  | .scmp cc o => Sys2Proof.Machine.execScmp cc o s
  | .sli d sd imm => Sys2Proof.Machine.execSli d sd imm s
  | .slih d sd imm => Sys2Proof.Machine.execSlih d sd imm s
  | .sbfe d sd sa pos wid sg => Sys2Proof.Machine.execSbfe d sd sa pos wid sg s
  | .sbfi d sd sa pos wid => Sys2Proof.Machine.execSbfi d sd sa pos wid s
  | .saddImm d sd sa imm => Sys2Proof.Machine.execSaddImm d sd sa imm s
  | .bra d off => Sys2Proof.Machine.execBra d off s
  | .brz d sn off => Sys2Proof.Machine.execBrz d sn off s
  | .brnz d sn off => Sys2Proof.Machine.execBrnz d sn off s
  | .call d off => Sys2Proof.Machine.execCall d off s
  | .callv d v => Sys2Proof.Machine.execCallv d v s
  | .split d j p off => Sys2Proof.Machine.execSplit d j p off s
  | .nop d => Sys2Proof.Machine.execNop d s
  | .ret d => Sys2Proof.Machine.execRet d s
  | .calli d sn => Sys2Proof.Machine.execCalli d sn s
  | .join d j => Sys2Proof.Machine.execJoin d j s
  | .jwait d j => Sys2Proof.Machine.execJwait d j s
  | .jset d j sn => Sys2Proof.Machine.execJset d j sn s
  | .jget d sn j => Sys2Proof.Machine.execJget d sn j s
  | .yield d => Sys2Proof.Machine.execYield d s
  | .brk d code => Sys2Proof.Machine.execBrk d code s
  | .trap d code => Sys2Proof.Machine.execTrap d code s
  | .sld d x y z acq w => Sys2Proof.Machine.execSld d x y z acq w s
  | .sst d x y z rl w => Sys2Proof.Machine.execSst d x y z rl w s
  | .satom op od w o => Sys2Proof.Machine.execSatom op od w o s
  | .lset d n sn => Sys2Proof.Machine.execLset d n sn s
  | .lget d sn n => Sys2Proof.Machine.execLget d sn n s
  | .kset d k sb sc => Sys2Proof.Machine.execKset d k sb sc s
  | .lnext d l off => Sys2Proof.Machine.execLnext d l off s
  | .rel d => Sys2Proof.Machine.execRel d s
  | .acq d => Sys2Proof.Machine.execAcq d s
  | .sync d => Sys2Proof.Machine.execSync d s
  | .xrel d => Sys2Proof.Machine.execXrel d s
  | .xrelDram d => Sys2Proof.Machine.execXrelDram d s
  | .bar d g sn => Sys2Proof.Machine.execBar d g sn s
  | .arrive d g sn => Sys2Proof.Machine.execArrive d g sn s
  | .barw d g => Sys2Proof.Machine.execBarw d g s
  | .gmask d g sd => Sys2Proof.Machine.execGmask d g sd s
  | .qpush d q sn n => Sys2Proof.Machine.execQpush d q sn n s
  | .qpop d sn q => Sys2Proof.Machine.execQpop d sn q s
  | .qfence d sn => Sys2Proof.Machine.execQfence d sn s
  | .twany d sn m => Sys2Proof.Machine.execTwany d sn m s
  | .twall d m => Sys2Proof.Machine.execTwall d m s
  | .tffr d sn m => Sys2Proof.Machine.execTffr d sn m s
  | .tget d sn => Sys2Proof.Machine.execTget d sn s
  | .tclr d m => Sys2Proof.Machine.execTclr d m s
  | .mma d acc am a bm b g typ ax sp => Sys2Proof.Machine.execMma d acc am a bm b g typ ax sp s
  | .mmc d acc am a bm b g cj => Sys2Proof.Machine.execMmc d acc am a bm b g cj s
  | .tld d t y z => Sys2Proof.Machine.execTld d t y z s
  | .tst d t y z => Sys2Proof.Machine.execTst d t y z s
  | .tmov d t t2 => Sys2Proof.Machine.execTmov d t t2 s
  | .tzero d t => Sys2Proof.Machine.execTzero d t s
  | .amov d a a2 => Sys2Proof.Machine.execAmov d a a2 s
  | .ald d a y => Sys2Proof.Machine.execAld d a y s
  | .ast d a y => Sys2Proof.Machine.execAst d a y s
  | .azero d a => Sys2Proof.Machine.execAzero d a s
  | .sign d g sn => Sys2Proof.Machine.execSign d g sn s
  | .mprog d sn a => Sys2Proof.Machine.execMprog d sn a s
  | .exit d => Sys2Proof.Machine.execExit d s
  | .exitSucc d sn => Sys2Proof.Machine.execExitSucc d sn s
  | .phase d sn => Sys2Proof.Machine.execPhase d sn s
  | .gen d sn => Sys2Proof.Machine.execGen d sn s
  | .rsys d sn n => Sys2Proof.Machine.execRsys d sn n s
  | .wsys d sn n => Sys2Proof.Machine.execWsys d sn n s
  | .kret d => Sys2Proof.Machine.execKret d s
  | .svc d c y => Sys2Proof.Machine.execSvc d c y s
  | .rsc d c y => Sys2Proof.Machine.execRsc d c y s
  | .halt d => Sys2Proof.Machine.execHalt d s
  | .illegalEncoding word => Sys2Proof.Machine.execIllegalEncoding word s
  | .plynwickOperationCompletion core opid => Sys2Proof.Machine.execPlynwickOperationCompletion core opid s
  | .malformedNode queue => Sys2Proof.Machine.execMalformedNode queue s
  | .hostCommandUnknownOpcode => Sys2Proof.Machine.execHostCommandUnknownOpcode s
  | .instructionLineFill core entry => Sys2Proof.Machine.execInstructionLineFill core entry s
  | .pageTableWalk core entry => Sys2Proof.Machine.execPageTableWalk core entry s
  | .loadCompletion core opid => Sys2Proof.Machine.execLoadCompletion core opid s
  | .atomicCompletion core opid => Sys2Proof.Machine.execAtomicCompletion core opid s
  | .sequencerCompletion core opid => Sys2Proof.Machine.execSequencerCompletion core opid s
  | .ftabCompletion core opid => Sys2Proof.Machine.execFtabCompletion core opid s
  | .releaseCompletion core opid => Sys2Proof.Machine.execReleaseCompletion core opid s
  | .acquireCompletion core opid => Sys2Proof.Machine.execAcquireCompletion core opid s
  | .faultRecordPost pd => Sys2Proof.Machine.execFaultRecordPost pd s
  | .registration core => Sys2Proof.Machine.execRegistration core s
  | .recall line => Sys2Proof.Machine.execRecall line s
  | .domeRequest core => Sys2Proof.Machine.execDomeRequest core s
  | .domeFill buf line => Sys2Proof.Machine.execDomeFill buf line s
  | .replicaInvalidate line => Sys2Proof.Machine.execReplicaInvalidate line s
  | .domeUncorrectableError line => Sys2Proof.Machine.execDomeUncorrectableError line s
  | .l1Eviction core superblock => Sys2Proof.Machine.execL1Eviction core superblock s
  | .plynwickRecall buf block => Sys2Proof.Machine.execPlynwickRecall buf block s
  | .eyeMarginMeasure stack channel lane margin => Sys2Proof.Machine.execEyeMarginMeasure stack channel lane margin s
  | .laneRepair stack channel lane => Sys2Proof.Machine.execLaneRepair stack channel lane s
  | .counterDecay port => Sys2Proof.Machine.execCounterDecay port s
  | .engineCommandStart core slot queue => Sys2Proof.Machine.execEngineCommandStart core slot queue s
  | .copy core slot queue => Sys2Proof.Machine.execCopy core slot queue s
  | .copy2d core slot queue => Sys2Proof.Machine.execCopy2d core slot queue s
  | .gather core slot queue => Sys2Proof.Machine.execGather core slot queue s
  | .scatter core slot queue => Sys2Proof.Machine.execScatter core slot queue s
  | .multicast core slot queue => Sys2Proof.Machine.execMulticast core slot queue s
  | .collectiveReduce core slot queue => Sys2Proof.Machine.execCollectiveReduce core slot queue s
  | .ingestBind core slot queue => Sys2Proof.Machine.execIngestBind core slot queue s
  | .engineCommandComplete core slot queue => Sys2Proof.Machine.execEngineCommandComplete core slot queue s
  | .engineFault core slot queue => Sys2Proof.Machine.execEngineFault core slot queue s
  | .tagWaitComplete core opid => Sys2Proof.Machine.execTagWaitComplete core opid s
  | .qpopComplete core opid => Sys2Proof.Machine.execQpopComplete core opid s
  | .ingestFrame frame => Sys2Proof.Machine.execIngestFrame frame s
  | .gapRecordTimeout stream => Sys2Proof.Machine.execGapRecordTimeout stream s
  | .ingestConsumerReread stream => Sys2Proof.Machine.execIngestConsumerReread stream s
  | .pfcPauseRefresh stream => Sys2Proof.Machine.execPfcPauseRefresh stream s
  | .barrierReleaseStep launch gid => Sys2Proof.Machine.execBarrierReleaseStep launch gid s
  | .matrixOperationIssue core slot g => Sys2Proof.Machine.execMatrixOperationIssue core slot g s
  | .matrixKStep core opid err => Sys2Proof.Machine.execMatrixKStep core opid err s
  | .matrixOperationComplete core opid => Sys2Proof.Machine.execMatrixOperationComplete core opid s
  | .matrixTransferComplete core opid => Sys2Proof.Machine.execMatrixTransferComplete core opid s
  | .preemptionRequest core slot area => Sys2Proof.Machine.execPreemptionRequest core slot area s
  | .preemptionEntry core slot => Sys2Proof.Machine.execPreemptionEntry core slot s
  | .variantSwitch core slot => Sys2Proof.Machine.execVariantSwitch core slot s
  | .phaseAdmissionTimeout core slot => Sys2Proof.Machine.execPhaseAdmissionTimeout core slot s
  | .queuedAdmissionTimeout cluster => Sys2Proof.Machine.execQueuedAdmissionTimeout cluster s
  | .taskRetire core slot => Sys2Proof.Machine.execTaskRetire core slot s
  | .successorStart core slot => Sys2Proof.Machine.execSuccessorStart core slot s
  | .place cluster => Sys2Proof.Machine.execPlace cluster s
  | .generationSweepEnd core => Sys2Proof.Machine.execGenerationSweepEnd core s
  | .placementAttempt cluster => Sys2Proof.Machine.execPlacementAttempt cluster s
  | .queueHeadAgeExpiry cluster => Sys2Proof.Machine.execQueueHeadAgeExpiry cluster s
  | .controlInterval => Sys2Proof.Machine.execControlInterval s
  | .stealRequest cluster => Sys2Proof.Machine.execStealRequest cluster s
  | .timeSliceExpiry core slot => Sys2Proof.Machine.execTimeSliceExpiry core slot s
  | .walkerTakeEntry spire => Sys2Proof.Machine.execWalkerTakeEntry spire s
  | .kernelNode queue => Sys2Proof.Machine.execKernelNode queue s
  | .copyNode queue => Sys2Proof.Machine.execCopyNode queue s
  | .condNode queue => Sys2Proof.Machine.execCondNode queue s
  | .whileNode queue => Sys2Proof.Machine.execWhileNode queue s
  | .waitqNode queue => Sys2Proof.Machine.execWaitqNode queue s
  | .waitqPoll queue => Sys2Proof.Machine.execWaitqPoll queue s
  | .waitqTimeout queue => Sys2Proof.Machine.execWaitqTimeout queue s
  | .signalNode queue => Sys2Proof.Machine.execSignalNode queue s
  | .endNode queue => Sys2Proof.Machine.execEndNode queue s
  | .rdmaWrite conn va bytes => Sys2Proof.Machine.execRdmaWrite conn va bytes s
  | .rdmaRead conn va len => Sys2Proof.Machine.execRdmaRead conn va len s
  | .remoteAccessTimeout core opid => Sys2Proof.Machine.execRemoteAccessTimeout core opid s
  | .bufferTableWrite conn index value => Sys2Proof.Machine.execBufferTableWrite conn index value s
  | .wqErrClear conn queue => Sys2Proof.Machine.execWqErrClear conn queue s
  | .registerWrite conn pa bytes => Sys2Proof.Machine.execRegisterWrite conn pa bytes s
  | .tlbinv => Sys2Proof.Machine.execTlbinv s
  | .bufinv => Sys2Proof.Machine.execBufinv s
  | .recallCommand => Sys2Proof.Machine.execRecallCommand s
  | .faultans => Sys2Proof.Machine.execFaultans s
  | .load => Sys2Proof.Machine.execLoad s
  | .unload => Sys2Proof.Machine.execUnload s
  | .preempt => Sys2Proof.Machine.execPreempt s
  | .restore => Sys2Proof.Machine.execRestore s
  | .killpd => Sys2Proof.Machine.execKillpd s
  | .identify f => Sys2Proof.Machine.execIdentify f s
  | .attest f => Sys2Proof.Machine.execAttest f s
  | .keyload f => Sys2Proof.Machine.execKeyload f s
  | .keydestroy f => Sys2Proof.Machine.execKeydestroy f s
  | .powertol f => Sys2Proof.Machine.execPowertol f s
  | .clockplan f => Sys2Proof.Machine.execClockplan f s
  | .evcfg f => Sys2Proof.Machine.execEvcfg f s
  | .evread f => Sys2Proof.Machine.execEvread f s
  | .resync f => Sys2Proof.Machine.execResync f s
  | .settime f => Sys2Proof.Machine.execSettime f s
  | .admin f a => Sys2Proof.Machine.execAdmin f a s
  | .streams f first count => Sys2Proof.Machine.execStreams f first count s
  | .debugBreakpoint f core index addr => Sys2Proof.Machine.execDebugBreakpoint f core index addr s
  | .debugStep f core slot entry => Sys2Proof.Machine.execDebugStep f core slot entry s
  | .debugReadTable f core => Sys2Proof.Machine.execDebugReadTable f core s
  | .debugStorageRead f core ref gen => Sys2Proof.Machine.execDebugStorageRead f core ref gen s
  | .debugStorageWrite f core ref gen lo bytes => Sys2Proof.Machine.execDebugStorageWrite f core ref gen lo bytes s
  | .channel f stack => Sys2Proof.Machine.execChannel f stack s
  | .forensic f => Sys2Proof.Machine.execForensic f s
  | .reset f => Sys2Proof.Machine.execReset f s
  | .idleEntry => Sys2Proof.Machine.execIdleEntry s
  | .wake => Sys2Proof.Machine.execWake s
  | .thermalLimit temp => Sys2Proof.Machine.execThermalLimit temp s
  | .thermalEmergency temp => Sys2Proof.Machine.execThermalEmergency temp s
  | .hardTrip temp => Sys2Proof.Machine.execHardTrip temp s
  | .thermalLimitLift temp => Sys2Proof.Machine.execThermalLimitLift temp s
  | .watchtowerAlarm word => Sys2Proof.Machine.execWatchtowerAlarm word s
  | .powerUp => Sys2Proof.Machine.execPowerUp s
  | .debugResume f core slot => Sys2Proof.Machine.execDebugResume f core slot s
  | .transportConnection conn endpoint pd key => Sys2Proof.Machine.execTransportConnection conn endpoint pd key s
  | .remoteAtomic module addr a => Sys2Proof.Machine.execRemoteAtomic module addr a s
  | .unknownCommand f code => Sys2Proof.Machine.execUnknownCommand f code s

end Sys2Proof.Machine
end

