-- ==== Sys2Proof/Machine/Turns.lean ====
section
/-! DEFINITION. Which turn the module takes when none is given (log entry 2): the first event that would change something,
else the control interval whose time has come, else the sub-band whose turn comes first, else the next interval. -/

namespace Sys2Proof.Machine

/-! ## What a module that is off or halted does (R385 to R387) -/

/-- Whether cores, engines and walkers run. -/
def State.runs (s : State) : Bool := s.mgmt.powered && !s.mgmt.halted

/-- The events that a halted module takes part in. -/
def Instr.whileHalted (i : Instr) : Bool := match i with
  | .identify _ | .resync _ | .reset _ | .hardTrip _ | .watchtowerAlarm _ => true
  | _ => false

/-- Whether an event can happen: to a module that is off only that power returns. -/
def State.allows (s : State) (i : Instr) : Bool :=
  if s.mgmt.powered then !s.mgmt.halted || Instr.whileHalted i else i == .powerUp

/-! ## The turn taken when none is given -/

/-- What an event does. -/
abbrev Event := State → Host.Outcome State Fault Refusal

/-- Of two turns with their times, and the times at which their bands last issued, the earlier one; on a tie that of the
band that waits longer (R72). -/
def earlier (a : Option (Nat × Nat × Turn)) (b : Nat × Nat × Turn) : Option (Nat × Nat × Turn) :=
  match a with
  | some x => if b.1 < x.1 || (b.1 == x.1 && decide (b.2.1 < x.2.1)) then some b else some x
  | none => some b

/-- The time at which a band's next turn comes: that of its last issue for the fetch of a header. -/
def State.turnTime (s : State) (c slot e : Nat) : Nat :=
  if ((s.core c).entry e).ctx.isNone then ((s.core c).band slot).lastSlot else s.timeOf c e

/-- The band whose turn comes first. -/
def State.firstIssue (s : State) : Option Turn :=
  ((s.cores.foldl (fun a p => p.2.bands.foldl (fun a b =>
    match s.pick p.1 b.1 with
    | some e => earlier a (s.turnTime p.1 b.1 e, b.2.lastSlot, .issue p.1 b.1)
    | none => a) a) none)).map (·.2.2)

/-- The event due at an entry of a sub-band table. -/
def entryEvents (c e : Nat) (en : Entry) : List Event :=
  match en.wait with
  | .fetch => [execInstructionLineFill c e]
  | .translate _ | .walk _ _ => [execPageTableWalk c e]
  | .ready | .stalled | .member | .signer _ | .bar _ _ | .barw _ | .again _ | .phase | .op _ | .jwait _ | .parked => []

/-- The event that completes an operation in flight. -/
def flightEvents (c id : Nat) (k : FKind) : List Event :=
  match k with
  | .load _ | .lds _ _ | .remote _ => [execLoadCompletion c id]
  | .atom _ => [execAtomicCompletion c id]
  | .result true _ _ _ => [execSequencerCompletion c id]
  | .result false _ _ _ => [execFtabCompletion c id]
  | .release _ _ => [execReleaseCompletion c id]
  | .acquire => [execAcquireCompletion c id]
  | .tagWait _ _ _ _ => [execTagWaitComplete c id]
  | .qpop _ _ _ _ => [execQpopComplete c id]
  | .xfer _ _ _ _ => [execMatrixTransferComplete c id]
  | .mat _ => [execMatrixKStep c id false, execMatrixOperationComplete c id]
  | .pw _ _ => [execPlynwickOperationCompletion c id]
  | .sig _ _ => []

/-- Events of a queue register. -/
def queueEvents (c t q : Nat) : List Event :=
  [execEngineFault c t q, execEngineCommandComplete c t q, execCopy c t q, execCopy2d c t q, execGather c t q, execScatter c t q,
    execMulticast c t q, execCollectiveReduce c t q, execIngestBind c t q, execEngineCommandStart c t q]

/-- Events of a placed task. -/
def taskEvents (c t : Nat) (x : Task) : List Event :=
  (x.g.map fun g => execMatrixOperationIssue c t g.1) ++ (x.queues.flatMap fun q => queueEvents c t q.1) ++
    [execVariantSwitch c t, execPhaseAdmissionTimeout c t, execSuccessorStart c t, execTaskRetire c t,
      execTimeSliceExpiry c t]

/-- Events of a core. -/
def coreEvents (c : Nat) (k : Core) : List Event :=
  (k.tasks.map fun t => execPreemptionEntry c t.1) ++ (k.table.flatMap fun e => entryEvents c e.1 e.2) ++ (k.flights.flatMap fun f => flightEvents c f.1 f.2.kind) ++
    [execRegistration c, execDomeRequest c] ++ (k.tasks.flatMap fun t => taskEvents c t.1 t.2) ++
    if k.sweep then [execGenerationSweepEnd c] else []

/-- Events of a running graph. -/
def graphEvents (q : Nat) : List Event :=
  [execMalformedNode q, execKernelNode q, execCopyNode q, execCondNode q, execWhileNode q, execWaitqTimeout q, execWaitqPoll q, execWaitqNode q,
    execSignalNode q, execEndNode q]

/-- The host commands. -/
def ringEvents : List Event :=
  [execTlbinv, execBufinv, execRecallCommand, execFaultans, execLoad, execUnload, execPreempt, execRestore, execKillpd, execHostCommandUnknownOpcode]

/-- Events that may be due, in the order in which they are looked at. -/
def State.dueEvents (s : State) : List Event :=
  (s.cores.flatMap fun p => coreEvents p.1 p.2) ++
    (s.launches.flatMap fun l => l.2.groups.map fun g => execBarrierReleaseStep l.1 g.1) ++
    (s.clusters.flatMap fun c => [execPlace c.1, execQueueHeadAgeExpiry c.1, execQueuedAdmissionTimeout c.1, execPlacementAttempt c.1,
      execStealRequest c.1]) ++
    (s.graphs.flatMap fun g => graphEvents g.1) ++ (List.range 8).map execWalkerTakeEntry ++ ringEvents ++
    (s.faultWait.map fun r => execFaultRecordPost r.pd) ++
    (s.streams.flatMap fun x => [execGapRecordTimeout x.1, execIngestConsumerReread x.1])

/-- Whether an event changes anything. -/
def State.changedBy (s : State) (f : Event) : Bool :=
  match f s with
  | .next t => decide (t ≠ s)
  | .fault _ | .refused _ => false

/-- The event that is due, if any. -/
def State.dueEvent (s : State) : Option Event :=
  (s.dueEvents.find? s.changedBy).or
    (if s.usec * s.power.plan.mhz + s.power.plan.mhz ≤ s.cycle then some execControlInterval else none)

end Sys2Proof.Machine
end

