-- ==== Sys2Proof/Machine/Step.lean ====
section
/-! DEFINITION. One step of the module: the turn at the head of the queue, or the one that is due (log entry 2). -/

namespace Sys2Proof.Machine

/-- A sub-band takes its turn: it fetches and passes a header, or fetches and issues an instruction (R50, R66, R67). -/
def stepIssue (u : Cursor) (s : State) : Host.Outcome State Fault Refusal :=
  let s := { s with cur := some u }
  match s.missing u.core u.entry with
  | some _ => .next (s.updEntry u.core u.entry fun e => { e with wait := .fetch })
  | none =>
    match s.fetched u.core u.entry with
    | .miss _ => .next (s.updEntry u.core u.entry fun e => { e with wait := .fetch })
    | .bad a => .next ((s.badHeader u a).afterIssue u)
    | .instr i =>
      match exec i s with
      | .next t => .next (t.afterIssue u)
      | .fault f => .fault f
      | .refused r => .refused r

/-- An event happens; what only a sub-band can do is none, nor is what a module that is off or halted takes no part in. -/
def stepEvent (i : Instr) (s : State) : Host.Outcome State Fault Refusal :=
  if i.isCode || !s.allows i then .next s else
  match exec i { s with cur := none } with
  | .next t => .next t.afterEvent
  | .fault f => .fault f
  | .refused r => .refused r

/-- A turn. -/
def stepTurn (t : Turn) (s : State) : Host.Outcome State Fault Refusal :=
  match t with
  | .issue c b =>
    if !s.runs then .next s else
    match s.pick c b with
    | none => .next s
    | some e => stepIssue ⟨c, b, e⟩ s
  | .happen i => stepEvent i s

/-- What the module does when no turn is given: nothing while it is off or halted. -/
def stepDue (s : State) : Host.Outcome State Fault Refusal :=
  if !s.runs then .next s else
  let t := { s with cur := none }
  match t.dueEvent, s.firstIssue with
  | none, some u => stepTurn u s
  | e, _ => match (e.getD execControlInterval) t with
    | .next t => .next t.afterEvent
    | .fault f => .fault f
    | .refused r => .refused r

def step (s : State) : Host.Outcome State Fault Refusal :=
  match s.turns with
  | t :: ts => stepTurn t { s with turns := ts }
  | [] => stepDue s

/-- A state whose next step fetches and runs an instruction: a task with one band of 32 threads stands on core 0 at it
(log entry 18). -/
def State.withFetchWord (s : State) (_nbits w : Nat) : State := s.loadedWith w

end Sys2Proof.Machine
end

