-- ==== Sys2Proof/Safety.lean ====
section
/-! DEFINITION. The terms in which claims speak of runs: when an encoded instruction issues and what its sub-band then sees,
what a byte of memory reads as, and the invariant of the module. -/

namespace Sys2Proof.Machine

/-! ## Issuing -/

/-- The state once the sub-band at a cursor has taken its issue slot for an instruction. -/
@[irreducible] def State.begun (s : State) (u : Cursor) (i : Instr) (q : Shape) : State := s.beginIssue u i q.uni q.d

/-- What the sub-band reads then. -/
@[irreducible] def State.seen (s : State) (u : Cursor) (i : Instr) (q : Shape) : Ctx := (s.begun u i q).ctx u (s.begun u i q).cycle

/-- The state begun, with the sub-band past its instruction. -/
@[irreducible] def State.passed (s : State) (u : Cursor) (i : Instr) (q : Shape) : State :=
  (s.begun u i q).advance u.core u.entry q.words

/-- A sub-band of a placed band stands at the cursor, with lanes, and not frozen. -/
def State.stands (s : State) (u : Cursor) : Bool :=
  s.cur == some u && (mapGet (s.core u.core).bands u.slot).isSome && (mapGet (s.core u.core).table u.entry).isSome &&
    ((s.core u.core).entry u.entry).slot == u.slot && ((s.core u.core).entry u.entry).lanes != 0 &&
    !((s.core u.core).entry u.entry).frozen

/-- An instruction issues: its sub-band stands at the cursor, no breakpoint is there (R92), it passes the checks of R63, and
no acquire in progress holds it back (R245). -/
def State.issues (s : State) (u : Cursor) (i : Instr) (q : Shape) : Bool :=
  s.stands u && !s.breaks u && (Sys2Proof.Machine.check i q (s.seen u i q)).isNone &&
    !(q.mem && (s.seen u i q).k.acquiring u.slot (s.seen u i q).lanes)

/-! ## Memory as it reads -/

/-- A byte of device memory at its home: the dome's where a dome holds its line, else the array's. -/
def State.homeByte (s : State) (pa : Nat) : Byte :=
  match mapGet s.domes (pa / 128) with
  | some d => (getBytes d.data (pa % 128) 1).headD 0
  | none => Memory.read s.mem pa

/-- A byte of device memory as a core reads it: its L1's where that holds the byte, else that at its home. -/
def State.byteAt (s : State) (c pa : Nat) : Byte :=
  match (s.core c).l1Find (pa / 128) with
  | some l => if l.has (pa % 128) 1 then (getBytes l.data (pa % 128) 1).headD 0 else s.homeByte pa
  | none => s.homeByte pa

/-- A byte of a core's scratchpad under a generation. -/
def State.spByte (s : State) (c : Nat) (gen : BitVec 16) (a : Nat) : Byte := ((s.core c).spRead gen a 1).1.headD 0

/-- Every byte of memory, scratchpads included, reads as before, and nothing new is on its way to memory. -/
structure KeepsMemory (s t : State) : Prop where
  home : ∀ pa, t.homeByte pa = s.homeByte pa
  bytes : ∀ c pa, t.byteAt c pa = s.byteAt c pa
  scratch : ∀ c gen a, t.spByte c gen a = s.spByte c gen a
  posted : ∀ c, (t.core c).requests = (s.core c).requests
  coded : ∀ c, (t.core c).pw = (s.core c).pw

/-! ## Registers as they read -/

/-- A register or predicate of a band as its task reads it. -/
def State.reg (s : State) (c slot : Nat) (gen : BitVec 16) (l : Loc) : Word × Bool := (s.core c).readLoc slot gen l

/-- Whether a place is in a core's register files, not in a band's keep bank. -/
def Loc.shared : Loc → Bool
  | .vrf _ | .srf _ | .prf _ => true
  | .keepV _ | .keepS _ | .keepP _ | .nowhere => false

/-- The word a place holds once a word was written: of a predicate, whether it is zero. -/
def Loc.held (l : Loc) (w : Word) : Word :=
  match l with
  | .prf _ | .keepP _ => if w != 0 then 1 else 0
  | .nowhere => 1
  | .vrf _ | .srf _ | .keepV _ | .keepS _ => w

/-- Every register but the places named, of one band, reads as before. -/
def KeepsRegs (s t : State) (c slot : Nat) (but : List Loc) : Prop :=
  ∀ c' slot' gen l, ¬(c' = c ∧ l ∈ but ∧ (slot' = slot ∨ l.shared = true)) → t.reg c' slot' gen l = s.reg c' slot' gen l

/-- Every status, flag, mode and special register of every band and task is as before: completion flags, rounding mode and
exception flags, shape, rejoin masks, loop nest, and the registers of keep mode; copy tags, save area and vector of the
tasks; the accumulators, their status words and the tiles. -/
structure KeepsSystem (s t : State) : Prop where
  band : ∀ c b, (fun (x y : Band) => x.flags = y.flags ∧ x.rm = y.rm ∧ x.fflags = y.fflags ∧ x.mshape = y.mshape ∧ x.j = y.j ∧
    x.arr = y.arr ∧ x.lc = y.lc ∧ x.li = y.li ∧ x.k = y.k ∧ x.kcause = y.kcause ∧ x.kpc = y.kpc ∧ x.klanes = y.klanes ∧
    x.kaddr = y.kaddr ∧ x.keep = y.keep) ((t.core c).band b) ((s.core c).band b)
  task : ∀ c, (t.core c).tasks = (s.core c).tasks
  matrix : ∀ c, (t.core c).accs = (s.core c).accs ∧ (t.core c).accStat = (s.core c).accStat ∧ (t.core c).tiles = (s.core c).tiles

/-- Every sub-band and every thread stands as before. -/
structure KeepsThreads (s t : State) : Prop where
  table : ∀ c, (t.core c).table = (s.core c).table
  threads : ∀ c b, ((t.core c).band b).threads = ((s.core c).band b).threads
  frozen : ∀ c b, ((t.core c).band b).frozen = ((s.core c).band b).frozen

/-- All of the module but its cores, its clock and its event counters. -/
def State.outside (s : State) : State := { s with cores := [], cycle := 0, events := [] }

/-! ## What an instruction gives -/

/-- An instruction that issued goes to a state in which the places of its results read their results, its sub-band is past
it, and no other register, no special register, no thread and no byte of memory differs from what it met at its issue. An
older result on its way to the same place is dropped (R58); its exception flags are set 4 cycles after its issue (R111). -/
structure State.Gives (s : State) (u : Cursor) (i : Instr) (q : Shape) (results : List (Loc × Word)) (fl : Fl) (t : State) :
    Prop where
  result : ∀ p ∈ results, t.reg u.core u.slot (s.seen u i q).gen p.1 = (p.1.held p.2, true)
  coming : ((t.core u.core).band u.slot).pend =
    ((((s.passed u i q).core u.core).band u.slot).dropPend (results.map (·.1))).pend ++
      if fl = flNone then [] else [⟨(s.seen u i q).now + 4, (s.seen u i q).gen, [], fl⟩]
  regs : KeepsRegs (s.passed u i q) t u.core u.slot (results.map (·.1))
  system : KeepsSystem (s.passed u i q) t
  threads : KeepsThreads (s.passed u i q) t
  memory : KeepsMemory s t
  outside : t.outside = s.outside

/-- The same of results and exception flags that become visible at a later cycle (R58, R111): they are on their way, an older
result on its way to the same place is dropped, and all that can be read is as the instruction met it. -/
structure State.GivesLater (s : State) (u : Cursor) (i : Instr) (q : Shape) (cycles : Nat) (results : List (Loc × Word)) (fl : Fl)
    (t : State) : Prop where
  coming : ((t.core u.core).band u.slot).pend =
    ((((s.passed u i q).core u.core).band u.slot).dropPend (results.map (·.1))).pend ++
      [⟨(s.seen u i q).now + cycles, (s.seen u i q).gen, results, fl⟩]
  regs : KeepsRegs (s.passed u i q) t u.core u.slot []
  system : KeepsSystem (s.passed u i q) t
  threads : KeepsThreads (s.passed u i q) t
  memory : KeepsMemory s t
  outside : t.outside = s.outside

/-- A state with a completion flag of a band raised by one, when an operation names one (R55). -/
def State.flagged (s : State) (c slot : Nat) : Option Nat → State
  | some f => s.addFlag c slot f
  | none => s

/-- An instruction that issued goes to a state in which an operation is in flight that holds up a completion flag, its
sub-band is past it, and nothing else that the core's threads can read differs from what it met. -/
structure State.Starts (s : State) (u : Cursor) (i : Instr) (q : Shape) (lanes : Word) (flag : Option Nat) (kind : FKind)
    (t : State) : Prop where
  flight : (t.core u.core).flights = mapSet ((s.passed u i q).core u.core).flights ((s.passed u i q).core u.core).nextOp
    ⟨u.slot, (s.seen u i q).gen, lanes, flag, kind⟩
  regs : KeepsRegs (s.passed u i q) t u.core u.slot []
  system : KeepsSystem ((s.passed u i q).flagged u.core u.slot flag) t
  threads : KeepsThreads (s.passed u i q) t
  memory : KeepsMemory s t
  outside : t.outside = s.outside

/-- Results at distinct places; any number may go nowhere. -/
def Distinct (ps : List (Loc × Word)) : Prop := ps.Pairwise fun a b => a.1 = b.1 → a.1 = .nowhere

/-- A completion of an operation in flight (R55): its results read at their places, its exception flags are ORed in (R111), it is
in flight no more, its completion flag has fallen by one, and no other register, operation, thread or byte differs. -/
structure State.Delivers (s : State) (c id : Nat) (f : Flight) (results : List (Loc × Word)) (fl : Fl) (t : State) : Prop where
  result : ∀ p ∈ results, t.reg c f.slot f.gen p.1 = (p.1.held p.2, true)
  flags : ((t.core c).band f.slot).fflags = ((s.core c).band f.slot).fflags ||| fl
  lowered : ∀ n, ((t.core c).band f.slot).flagCount n =
    ((s.core c).band f.slot).flagCount n - if f.flag = some n then 1 else 0
  gone : (t.core c).flights = mapDel (s.core c).flights id
  regs : KeepsRegs s t c f.slot (results.map (·.1))
  threads : KeepsThreads s t
  memory : KeepsMemory s t
  outside : t.outside = s.outside

/-! ## The invariant -/

/-- Device memory stands in its canonical form. -/
def State.Inv (s : State) : Prop := Memory.wf s.mem = true

end Sys2Proof.Machine
end

