-- ==== Sys2Proof/Safety/Control.lean ====
section
/-! DEFINITION. What the claims about control and traps say of bands, threads and sub-bands once an instruction has issued. -/

namespace Sys2Proof.Machine

/-- A core but its bands and its sub-band table. -/
def Core.rest (k : Core) : Core := { k with bands := [], table := [] }

/-- An instruction that issued goes to a state in which its band and its sub-band's entry are as two functions make them of
what they are past the instruction; no other band, sub-band, register, part of a core or byte of memory differs. -/
structure State.Changes (s : State) (u : Cursor) (i : Instr) (q : Shape) (f : Band → Band) (g : Entry → Entry) (t : State) :
    Prop where
  band : (t.core u.core).band u.slot = f (((s.passed u i q).core u.core).band u.slot)
  bands : ∀ c b, ¬(c = u.core ∧ b = u.slot) → (t.core c).band b = ((s.passed u i q).core c).band b
  entry : (t.core u.core).entry u.entry = g (((s.passed u i q).core u.core).entry u.entry)
  entries : ∀ c e, ¬(c = u.core ∧ e = u.entry) → (t.core c).entry e = ((s.passed u i q).core c).entry e
  rest : ∀ c, (t.core c).rest = ((s.passed u i q).core c).rest
  memory : KeepsMemory s t
  outside : t.outside = s.outside

/-- Threads of a band, lanes of a mask standing at an address, at which a clause begins (R50). -/
def Band.standAt (m : Word) (pc : BitVec 64) (b : Band) : Band := b.updThreads m fun _ y => { y with pc := pc, base := pc }

/-- A sub-band in no clause. -/
def Entry.outside (e : Entry) : Entry := { e with ctx := none }

/-- A state with the entries pushed beyond depth 8 stored to thread-local memory, lane by lane (R77). -/
def State.spilled (s : State) (x : Ctx) (g : Word) (entry : BitVec 64) : State :=
  (lanesOf g).foldl (fun s l =>
    let d := (x.b.thread l).depth + 1
    if d ≤ 8 then s else
      match s.lookup x.core x.pd (x.k.spillVa x.slot l d) accStore with
      | some (.ok t) => s.storeBytes x.core x.slot (laneBit l) x.pd t (bytesOf 8 entry.toNat)
      | _ => s) s

/-- An instruction that issued goes to a state in which its band's threads and its sub-band's entry are as two functions make
them of what they are past the instruction, memory reads as in a state `m`, and no other thread, sub-band or register
differs. -/
structure State.Redirects (s : State) (u : Cursor) (i : Instr) (q : Shape) (m : State) (f : Nat → Thread → Thread)
    (g : Entry → Entry) (t : State) : Prop where
  threads : ∀ l, ((t.core u.core).band u.slot).thread l = f l ((((s.passed u i q).core u.core).band u.slot).thread l)
  others : ∀ c b, ¬(c = u.core ∧ b = u.slot) → ((t.core c).band b).threads = (((s.passed u i q).core c).band b).threads
  frozen : ∀ c b, ((t.core c).band b).frozen = (((s.passed u i q).core c).band b).frozen
  entry : (t.core u.core).entry u.entry = g (((s.passed u i q).core u.core).entry u.entry)
  entries : ∀ c e, ¬(c = u.core ∧ e = u.entry) → (t.core c).entry e = ((s.passed u i q).core c).entry e
  regs : KeepsRegs (s.passed u i q) t u.core u.slot []
  system : KeepsSystem (s.passed u i q) t
  memory : KeepsMemory m t
  outside : t.outside = s.outside

/-- No register, no thread, no sub-band, no byte of memory and nothing outside the cores differs: only what a core holds of its
tasks and bands beside them, and the operations in flight, may. -/
structure KeepsAll (s t : State) : Prop where
  regs : ∀ c slot, KeepsRegs s t c slot []
  threads : KeepsThreads s t
  memory : KeepsMemory s t
  outside : t.outside = s.outside

/-- An instruction that issued leaves its sub-band at it, waiting: no thread, no other sub-band, no register, no byte of memory
and nothing outside the cores differs from what it met. -/
structure State.Waits (s : State) (u : Cursor) (i : Instr) (q : Shape) (w : Wait) (t : State) : Prop where
  entry : (t.core u.core).entry u.entry = { ((s.begun u i q).core u.core).entry u.entry with wait := w }
  entries : ∀ c e, ¬(c = u.core ∧ e = u.entry) → (t.core c).entry e = ((s.begun u i q).core c).entry e
  threads : ∀ c b, ((t.core c).band b).threads = (((s.begun u i q).core c).band b).threads
  frozen : ∀ c b, ((t.core c).band b).frozen = (((s.begun u i q).core c).band b).frozen
  regs : KeepsRegs (s.begun u i q) t u.core u.slot []
  memory : KeepsMemory s t
  outside : t.outside = s.outside

/-- A state in which the places of some results of a band read them, and all else reads as in a state `m`. -/
structure State.Puts (m : State) (c slot : Nat) (gen : BitVec 16) (results : List (Loc × Word)) (t : State) : Prop where
  result : ∀ p ∈ results, t.reg c slot gen p.1 = (p.1.held p.2, true)
  regs : KeepsRegs m t c slot (results.map (·.1))
  system : KeepsSystem m t
  threads : KeepsThreads m t
  memory : KeepsMemory m t
  outside : t.outside = m.outside

/-- No load of a band in flight reads bytes that accesses of a size touch, so none takes its value before them (R159). -/
def Core.clearOf (k : Core) (slot : Nat) (acc : List LAcc) (n : Nat) : Prop :=
  ∀ f ∈ k.flights, f.2.slot = slot → ∀ op, f.2.kind = .load op ∨ f.2.kind = .remote op →
    op.kind.isAtomic = true ∨ ∀ a ∈ op.acc, ∀ b ∈ acc, a.meets op.kind.ty.size b n = false

/-- The bytes of a record stored in 64-byte pieces (R318). -/
def State.storesRecord (s : State) (x : Ctx) (l : List (Nat × Trans)) (bytes : List Byte) : State :=
  l.foldl (fun t r => t.storeBytes x.core x.slot x.lanes x.pd r.2 (sliceN bytes r.1 64)) s

/-- A thread with a return entry pushed, at an address (R77, R81). -/
def Thread.pushed (entry pc : BitVec 64) (y : Thread) : Thread :=
  { y with depth := y.depth + 1, stack := (if y.depth < 8 then mapSet y.stack (y.depth + 1) entry else y.stack), pc := pc, base := pc }

/-! ## Divergence -/

/-- A band but the places of its lanes: their threads, the rejoin masks and what has arrived at them, and whose turn it is. -/
def Band.unplaced (b : Band) : Band := { b with threads := [], j := [], arr := [], arrPc := [], turn := none }

/-- Nothing differs between two states but where the lanes of one band stand: their threads, none of which exits, the entries
of their sub-bands, and the band's rejoin masks. -/
structure State.Moves (s : State) (c slot : Nat) (t : State) : Prop where
  cores : ∀ d, d ≠ c → t.core d = s.core d
  rest : (t.core c).rest = (s.core c).rest
  bands : ∀ b, b ≠ slot → (t.core c).band b = (s.core c).band b
  band : ((t.core c).band slot).unplaced = ((s.core c).band slot).unplaced
  exited : ∀ l, (((t.core c).band slot).thread l).exited = (((s.core c).band slot).thread l).exited
  entries : ∀ e x, mapGet (s.core c).table e = some x → x.slot ≠ slot → mapGet (t.core c).table e = some x
  cycle : t.cycle = s.cycle
  outside : t.outside = s.outside
  regs : KeepsRegs s t c slot []
  memory : KeepsMemory s t

/-- The spilled entries that a `ret` pops, read one after the other: the state with the lines so read, a machine check, and the
entries by lane (R77, R83). -/
def State.readEntries (s : State) (x : Ctx) : State × Nat × List (Nat × BitVec 64) :=
  x.popSpills.foldl (fun r a =>
    match r.1.lookup x.core x.pd a.2 accLoad with
    | some (.ok tr) =>
      let q := r.1.loadBytes x.core x.pd tr 8 false
      (q.1, max r.2.1 q.2.1, r.2.2 ++ [(a.1, BitVec.ofNat 64 (ofBytes q.2.2))])
    | _ => r) (s, 0, [])

/-- The top entry of a lane's return stack, in the thread or among those read. -/
def Ctx.topEntry (x : Ctx) (r : List (Nat × BitVec 64)) (l : Nat) : BitVec 64 :=
  if (x.b.thread l).depth ≤ 8 then mapGetD (x.b.thread l).stack (x.b.thread l).depth 0 else mapGetD r l 0

/-- A thread wherever it stands among the deferred lanes of its entry (R76). -/
def Thread.unmarked (y : Thread) : Thread := { y with mark := .none }

/-- Every register, accumulator, tile and byte of scratchpad is as before, and every byte of device memory at its home; no thread
that has exited is live again, and which bands halted (R309) and which successor a task named (R295) stand. -/
structure KeepsStorage (s t : State) : Prop where
  files : ∀ c, (fun (x y : Core) => x.vrf = y.vrf ∧ x.srf = y.srf ∧ x.prf = y.prf ∧ x.scratch = y.scratch ∧ x.accs = y.accs ∧
    x.accStat = y.accStat ∧ x.tiles = y.tiles) (t.core c) (s.core c)
  banks : ∀ c b, (fun (x y : Band) => x.keepV = y.keepV ∧ x.keepS = y.keepS ∧ x.keepP = y.keepP ∧ x.halted = y.halted)
    ((t.core c).band b) ((s.core c).band b)
  succ : ∀ c n, ((t.core c).task n).succ = ((s.core c).task n).succ
  home : ∀ pa, t.homeByte pa = s.homeByte pa
  exited : ∀ c b l, (((s.core c).band b).thread l).exited = true → (((t.core c).band b).thread l).exited = true

/-! ## Taking an issue slot -/

/-- The results of a band that are visible at a cycle (R58, R111). -/
def Band.dueBy (b : Band) (now : Nat) : List Pend := b.pend.filter fun x => x.due ≤ now

/-- Where a running lane's thread stands once its sub-band has issued at a cycle: at its instruction, or past its words (R50, R55,
R57). -/
def Thread.issued (y : Thread) (words : Option Nat) (now left : Nat) : Thread :=
  match words with
  | none => { y with last := some now }
  | some n => { y with last := some now, pc := y.pc + BitVec.ofNat 64 (4 * n)
                       base := if left ≤ 1 then y.pc + BitVec.ofNat 64 (4 * n) else y.base }

/-- The clause a sub-band is in then. -/
def Clause.issued (y : Option Clause) (words : Option Nat) : Option Clause :=
  match words with
  | none => y
  | some _ => if y.elim 0 (·.left) ≤ 1 then none else y.map fun x => { x with left := x.left - 1, waited := true }

/-- What is not the instruction's own effect when one issues at a cycle, and goes past its words if it has any effect: the clock
and the times of the band (R57, R72), the results visible now (R58, R111), the running lanes at their next word and the clause at
its next instruction (R50, R55), the ages (R70), the task's first issue (R293). -/
structure State.Slot (s : State) (u : Cursor) (words : Option Nat) (now : Nat) (t : State) : Prop where
  cycle : t.cycle = max s.cycle now
  lanes : ∀ l ∈ lanesOf ((s.core u.core).entry u.entry).lanes, ((t.core u.core).band u.slot).thread l =
    (((s.core u.core).band u.slot).thread l).issued words now (((s.core u.core).entry u.entry).ctx.elim 0 (·.left))
  threads : ∀ l, l ∉ lanesOf ((s.core u.core).entry u.entry).lanes →
    ((t.core u.core).band u.slot).thread l = ((s.core u.core).band u.slot).thread l
  band : let y := (s.core u.core).band u.slot
    let z := (t.core u.core).band u.slot
    z.lastSlot = now ∧ z.nextSlot = now + s.slotLen ∧ (∀ x ∈ y.pend, now < x.due → x ∈ z.pend) ∧
      z.fflags = (y.dueBy now).foldl (fun f x => f ||| x.fl) y.fflags ∧ z.flags = y.flags ∧ z.rm = y.rm ∧ z.mshape = y.mshape ∧ z.j = y.j ∧
      z.arr = y.arr ∧ z.lc = y.lc ∧ z.li = y.li ∧ z.k = y.k ∧ z.kcause = y.kcause ∧ z.kpc = y.kpc ∧ z.klanes = y.klanes ∧
      z.kaddr = y.kaddr ∧ z.keep = y.keep ∧ z.frozen = y.frozen ∧ z.task = y.task ∧ z.index = y.index
  entry : let y := (s.core u.core).entry u.entry
    let z := (t.core u.core).entry u.entry
    z.lanes = y.lanes ∧ z.defer = y.defer ∧ z.slot = y.slot ∧ z.frozen = y.frozen ∧ z.wait = y.wait ∧ z.age = 0 ∧
      z.ctx = Clause.issued y.ctx words
  entries : ∀ e, e ≠ u.entry → { (t.core u.core).entry e with age := 0 } = { (s.core u.core).entry e with age := 0 }
  cores : ∀ c, c ≠ u.core → t.core c = s.core c
  bands : ∀ b, b ≠ u.slot → (t.core u.core).band b = (s.core u.core).band b
  tasks : ∀ n, { (t.core u.core).task n with state := .placed } = { (s.core u.core).task n with state := .placed } ∧
    ((t.core u.core).task n).state = if n = ((s.core u.core).band u.slot).task ∧ (mapGet (s.core u.core).tasks n).isSome = true ∧
      ((s.core u.core).task n).state = .placed then .running else ((s.core u.core).task n).state
  matrix : (t.core u.core).accs = (s.core u.core).accs ∧ (t.core u.core).accStat = (s.core u.core).accStat ∧
    (t.core u.core).tiles = (s.core u.core).tiles ∧ (t.core u.core).flights = (s.core u.core).flights
  regs : KeepsRegs s t u.core u.slot (((s.core u.core).band u.slot).dueBy now |>.flatMap fun x => x.writes.map (·.1))
  memory : KeepsMemory s t
  outside : t.outside = s.outside

/-! ## Traps -/

/-- No `qpop` of a band is pending. -/
def Core.noPops (k : Core) (slot : Nat) : Prop :=
  ∀ f ∈ k.flights, f.2.slot = slot → ∀ q d a b, f.2.kind ≠ .qpop q d a b

/-- A band has entered keep mode (R305 to R307): the resume registers are written, its sub-bands stand frozen, its keep entry
holds every lane that has not exited, at `sys.kvec`, and no other register, band, part of memory or special register differs. -/
structure State.Enters (s : State) (c slot cause code : Nat) (kpc : BitVec 64) (klanes : Word) (kaddr : BitVec 64) (t : State) :
    Prop where
  keep : ((t.core c).band slot).keep = true
  cause : ((t.core c).band slot).kcause = BitVec.ofNat 32 (cause + 256 * code)
  pc : ((t.core c).band slot).kpc = kpc
  lanes : ((t.core c).band slot).klanes = klanes
  addr : ((t.core c).band slot).kaddr = kaddr
  handler : ((s.core c).band slot).live ≠ 0 →
    (t.core c).entry (256 + slot) = { Entry.fresh with slot := slot, lanes := ((s.core c).band slot).live }
  vector : ∀ l, (((s.core c).band slot).thread l).exited = false →
    let y := ((t.core c).band slot).thread l
    let v := ((s.core c).task ((s.core c).band slot).task).kvec
    y.pc = v ∧ y.base = v ∧ y.hold = .none ∧ y.exited = false
  frozen : ∀ l, let y := mapGetD ((t.core c).band slot).frozen l Thread.fresh
    let z := ((s.core c).band slot).thread l
    y.exited = z.exited ∧ y.parked = z.parked ∧ y.depth = z.depth ∧ y.stack = z.stack ∧ y.hold = z.hold ∧
      ((s.core c).noPops slot → y.pc = z.pc ∧ y.base = z.base)
  stands : ∀ e, e ≠ 256 + slot → let x := (s.core c).entry e
    let y := (t.core c).entry e
    y.slot = x.slot ∧ y.lanes = x.lanes ∧ y.defer = x.defer ∧
      ((mapGet (s.core c).table e).isSome = true → x.slot = slot → y.frozen = true)
  special : let y := (t.core c).band slot
    let z := (s.core c).band slot
    y.rm = z.rm ∧ y.fflags = z.fflags ∧ y.mshape = z.mshape ∧ y.j = z.j ∧ y.arr = z.arr ∧ y.lc = z.lc ∧ y.li = z.li ∧ y.k = z.k
  bands : ∀ d b, ¬(d = c ∧ b = slot) → (t.core d).band b = (s.core d).band b
  tasks : ∀ d n, { (t.core d).task n with g := [] } = { (s.core d).task n with g := [] }
  matrix : ∀ d, (t.core d).accs = (s.core d).accs ∧ (t.core d).accStat = (s.core d).accStat ∧ (t.core d).tiles = (s.core d).tiles
  regs : KeepsRegs s t c slot []
  memory : KeepsMemory s t
  outside : t.outside = s.outside

/-- A task has ended with a kind, a cause and a code (R293, R308, R327): it drains, every thread of its bands has exited, and no
register and no byte of memory differs. -/
structure State.Ends (s : State) (c task kind cause code : Nat) (t : State) : Prop where
  state : ((t.core c).task task).state = .draining
  kind : ((t.core c).task task).endKind = kind
  cause : ((t.core c).task task).endCause = cause
  code : ((t.core c).task task).endCode = code
  exited : ∀ b ∈ ((s.core c).task task).slots, ∀ l, (((t.core c).band b).thread l).exited = true
  regs : ∀ d slot, KeepsRegs s t d slot []
  memory : KeepsMemory s t
  outside : t.outside = s.outside

/-- A trap has been taken (R305, R307, R308, R327): into keep mode; in keep mode, or without a handler, the task has ended as
failed with the trap's cause and code. -/
def State.Traps (s : State) (c slot cause code : Nat) (kpc : BitVec 64) (klanes : Word) (kaddr : BitVec 64) (t : State) : Prop :=
  if ((s.core c).band slot).keep = false ∧ ((s.core c).task ((s.core c).band slot).task).kvec ≠ 0 then
    s.Enters c slot cause code kpc klanes kaddr t
  else (mapGet (s.core c).tasks ((s.core c).band slot).task).isSome = true →
    s.Ends c ((s.core c).band slot).task 1 cause code t

end Sys2Proof.Machine

namespace Sys2Proof

/-! ## Instructions for keep mode only (R310, R314) -/

/-- The instructions that trap 0x09 outside keep mode. -/
def Instr.keepOnly : Instr → Bool
  | .exitSucc _ _ | .kret _ | .svc _ _ _ | .rsc _ _ _ | .halt _ => true
  | .rsys _ _ n | .wsys _ _ n => sysPrivileged n
  | _ => false

end Sys2Proof
end

