-- ==== Sys2Proof/Safety/Memory.lean ====
section
/-! DEFINITION. The memory instructions as claims speak of them: for each its accesses, their translation, and the bytes that stores
leave. -/

namespace Sys2Proof.Machine

/-- A memory instruction that captures its accesses at issue (R162, R165, R186, R252 to R255): its fields, what it does, its accesses
and their lanes, and whether it holds up flag A. -/
structure MemForm where
  shape : Shape
  kind : MKind
  acc : Ctx → List LAcc
  lanes : Ctx → Word
  flag : Bool

/-- An access of a lane: its address, its data and what it compares with, and where its value goes. -/
def access (l : Nat) (va data cmp : BitVec 64) (d0 d1 : Loc) : LAcc := ⟨l, va, data, cmp, d0, d1, none, none, none, 0, flNone⟩

/-- The address of a lane of `ld`, `st` and the block instructions (R146): a pair of V, or under `.u` a pair of S and an index in V. -/
def Ctx.laneVa (x : Ctx) (o : MV) (l : Nat) : BitVec 64 :=
  if o.u then x.s64 (o.vb.extractLsb' 0 6) + (x.v l o.va).setWidth 64 + o.off.signExtend 64 else x.v64 l o.va + o.off.signExtend 64

def vLoad (ty : MTy) (od : Ord) (o : MV) (a : List Src) (va : Ctx → Nat → BitVec 64) : MemForm :=
  ⟨shapeMem o a [] [o.vd.toNat], .ld ty od, fun x => (lanesOf x.active).map fun l => access l (va x l) 0 0 (x.vAt l o.vd) (x.vAt1 l o.vd),
    fun x => x.active, true⟩

def vStore (ty : MTy) (od : Ord) (o : MV) (a : List Src) (va : Ctx → Nat → BitVec 64) : MemForm :=
  ⟨shapeMem o a (dataSrc ty o.vd) [o.vd.toNat], .st ty od, fun x => (lanesOf x.active).map fun l => access l (va x l)
    (if ty.wide then x.v64 l o.vd else (x.v l o.vd).setWidth 64) 0 .nowhere .nowhere, fun x => x.active, false⟩

def vAtom (ty : MTy) (o : MV) (cmp : Bool) (k : MKind) : MemForm :=
  ⟨atomShape ty o cmp, k, fun x => (lanesOf x.active).map fun l => access l (x.v64 l o.va + o.off.signExtend 64)
    (if ty.wide then x.last64 l o.u o.vb else (x.last l o.u o.vb).setWidth 64)
    (if ty.wide then x.v64 l o.vd else (x.v l o.vd).setWidth 64) (x.vAt l o.vd) (x.vAt1 l o.vd), fun x => x.active, true⟩

def vBlock (op : PwOp) (o : MV) : MemForm :=
  ⟨{ shapeMem o (addrSrcs o) [] (if op = .raw then [o.vd.toNat] else []) with priv := op = .drop }, .pw op,
    fun x => (lanesOf x.active).map fun l => access l (x.laneVa o l) 0 0 (if op = .raw then x.vAt l o.vd else .nowhere) .nowhere,
    fun x => x.active, true⟩

def memForm : Instr → Option MemForm
  | .ld ty od o => some (vLoad ty od o (addrSrcs o) fun x l => x.laneVa o l)
  | .st ty od o => some (vStore ty od o (addrSrcs o) fun x l => x.laneVa o l)
  | .ldk ty od k o => some (vLoad ty od o [.v o.va.toNat] fun x l => x.b.kBase k.toNat + (x.v l o.va).setWidth 64 + o.off.signExtend 64)
  | .stk ty od k o => some (vStore ty od o [.v o.va.toNat] fun x l => x.b.kBase k.toNat + (x.v l o.va).setWidth 64 + o.off.signExtend 64)
  | .sld d x y z acq w => some ⟨{ shapeS d (sSrc64 y) with mem := true }, .sld w acq,
      fun c => [access ((lowestLane c.lanes).getD 0) (c.s64 y + z.signExtend 64 * 4) 0 0 (c.sAt x) (c.sAt1 x)], fun c => c.lanes, true⟩
  | .sst d x y z rl w => some ⟨{ shapeS d ((if w then sSrc64 x else [.s x.toNat]) ++ sSrc64 y) with mem := true }, .sst w rl,
      fun c => [access ((lowestLane c.lanes).getD 0) (c.s64 y + z.signExtend 64 * 4) (if w then c.s64 x else (c.s x).setWidth 64) 0
        .nowhere .nowhere], fun c => c.lanes, false⟩
  | .atom op ty od o => some (vAtom ty o false (.atom op ty od))
  | .atomc ty od o => some (vAtom ty o true (.atomc ty od))
  | .satom op od w o =>
      let r := fun (r : BitVec 6) => if w then sSrc64 r else [Src.s r.toNat]
      some ⟨{ shapeS o.d (sSrc64 o.sa ++ r o.sb ++ (if op == .cas then r o.sd else [])) with mem := true }, .satom op w od,
        fun c => [access ((lowestLane c.lanes).getD 0) (c.s64 o.sa) (if w then c.s64 o.sb else (c.s o.sb).setWidth 64)
          (if w then c.s64 o.sd else (c.s o.sd).setWidth 64) (c.sAt o.sd) (c.sAt1 o.sd)], fun c => c.lanes, true⟩
  | .pwclaim o => some (vBlock .claim o)
  | .pwflush o => some (vBlock .flush o)
  | .pwnorm o => some (vBlock .norm o)
  | .pwraw o => some (vBlock .raw o)
  | .pwdrop o => some (vBlock .drop o)
  | _ => none

/-- The accesses of an instruction with the translations a core's TLB has for them (R152); an element of an mxfp8 page takes its scale
byte's with it (R132). -/
def Translates (m : State) (c pd : Nat) (k : MKind) (a b : LAcc) : Prop :=
  ∃ t, m.lookup c pd a.va k.access = some (.ok t) ∧
    if decodesMx k t a.va then ∃ v, m.lookup c pd (mxScaleVa t a.va) k.access = some (.ok v) ∧ b = { a with t := some t, t2 := some v }
    else b = { a with t := some t }

/-- An operation whose accesses may be performed at once (R154, R159): it meets no releasing store of its lanes still on its way, no
older load in flight, and no check after translation stops it. -/
structure State.Performs (m : State) (c slot : Nat) (op : MemOp) : Prop where
  apart : (m.core c).relOverlaps slot op = false
  clear : (m.core c).clearOf slot op.acc op.kind.ty.size
  passes : m.lateCheck c slot op = none

/-- The physical address of an access of a page served by the L1: its line's, and the byte in it. -/
def State.placeOf (s : State) (t : Trans) : Nat := (s.buf t.buf).place t.off / 128 * 128 + t.off % 128

/-- A byte of memory once bytes have been stored at an address over what it was. -/
def putByte (at_ : Nat) (bs : List Byte) (pa : Nat) (old : Byte) : Byte :=
  if at_ ≤ pa ∧ pa < at_ + bs.length then bs.getD (pa - at_) 0 else old

/-- What a byte is after the stores of the lanes of an instruction, lowest lane first (R159). -/
def State.putLanes (s : State) (k : MKind) (acc : List LAcc) (pa : Nat) (old : Byte) : Byte :=
  acc.foldl (fun b a => match a.t with
    | some t => putByte (s.placeOf t) (bytesOf k.ty.size a.data.toNat) pa b
    | none => b) old

/-- The number whose bytes a core reads at an address. -/
def State.wordAt (s : State) (c pa n : Nat) : Nat := ofBytes ((List.range n).map fun j => s.byteAt c (pa + j))

/-- The number that a lane of a load reads there. -/
def State.laneWord (s : State) (c n : Nat) (a : LAcc) : Nat := a.t.elim 0 fun t => s.wordAt c (s.placeOf t) n

/-- A store's page holds its bytes as they are, in the L1 (R158, R160). -/
def Trans.plain (t : Trans) : Prop := t.mty ≤ 2 ∧ t.fmt = 0

/-- A core's L1 holds the bytes of an access, which its line has whole (R246). -/
def State.holds (s : State) (c : Nat) (t : Trans) (n : Nat) : Prop :=
  t.off % 128 + n ≤ 128 ∧ ∃ l, (s.core c).l1Find (s.placeOf t / 128) = some l ∧ l.has (t.off % 128) n = true

end Sys2Proof.Machine
end

