-- ==== Sys2Proof/Safety/Matrix.lean ====
section
/-! DEFINITION. The tile and accumulator transfers as claims speak of them: their rows, and the bytes they move. -/

namespace Sys2Proof.Machine

/-- A transfer of rows (R289, R291): its fields, its rows' layout, and whether `.gentrap` stops it for the high word of its address. -/
structure XferForm where
  shape : Shape
  xfer : Ctx → Xfer
  stale : Ctx → Bool

def xferForm : Instr → Option XferForm
  | .tld d t y z => some ⟨{ shapeS d [.s z.toNat, .s y.toNat] with ts := [t.toNat], mem := true }, fun x => x.tileXfer .tld t y z,
      fun x => x.l.gentrap && !(x.s z).msb && !(x.readS (y.toNat + 1)).2⟩
  | .tst d t y z => some ⟨{ shapeS d [.s z.toNat, .s y.toNat] with ts := [t.toNat], mem := true }, fun x => x.tileXfer .tst t y z,
      fun x => x.l.gentrap && !(x.s z).msb && !(x.readS (y.toNat + 1)).2⟩
  | .ald d a y => some ⟨{ shapeS d (sSrc64 y) with as := [a.toNat], mem := true }, fun x => x.accXfer .ald a y, fun _ => false⟩
  | .ast d a y => some ⟨{ shapeS d (sSrc64 y) with as := [a.toNat], mem := true }, fun x => x.accXfer .ast a y, fun _ => false⟩
  | _ => none

/-- A transfer whose address is misaligned, or a row of which passes the allocation. -/
def Xfer.bad (w : Xfer) (t : Task) : Prop :=
  w.addr.toNat % 64 ≠ 0 ∨ w.pitch % 64 ≠ 0 ∨ (w.scratch = true ∧ ∃ r < w.rows, t.spBytes < w.addr.toNat + r * w.pitch + 64)

/-- A row that a transfer reads and whose generation is not the task's. -/
def Xfer.stale (w : Xfer) (k : Core) (t : Task) : Prop := ∃ r < w.rows, w.genOk k t r = false

/-- The granule of the core's scratchpad that a row is. -/
def Xfer.granule (w : Xfer) (t : Task) (r : Nat) : Nat := (t.spBase + (w.addr.toNat + r * w.pitch)) / 64

/-- What a granule of scratchpad reads as under a generation: its bytes, its format tag, and whether the generation matched. -/
def Core.granuleRow (k : Core) (gen : BitVec 16) (g : Nat) : BitVec 512 × BitVec 4 × Bool := readRow gen (mapGet k.scratch g)

/-- The accesses of a transfer, as the memory order sees them. -/
def Xfer.accesses (w : Xfer) (tr : Nat × Nat × BitVec 64 → Trans) : List LAcc :=
  w.parts.map fun p => access 0 p.2.2 0 0 .nowhere .nowhere |> fun a => { a with t := some (tr p) }

/-- The bytes of a row that a store moves. -/
def Xfer.rowBytesOf (w : Xfer) (k : Core) (t : Task) (r : Nat) : List Byte :=
  if w.op = .tst then bytesOf 64 (k.tileRow t w.reg r).1.toNat else bytesOf 256 (k.accRow t w.reg r).1.toNat

/-- What a byte of memory is after the rows of a transfer are stored, part by part. -/
def State.putParts (s : State) (w : Xfer) (k : Core) (t : Task) (tr : Nat × Nat × BitVec 64 → Trans) (pa : Nat) (old : Byte) : Byte :=
  w.parts.foldl (fun b p => putByte (s.placeOf (tr p)) (sliceN (w.rowBytesOf k t p.1) p.2.1 64) pa b) old

/-- The word of a page at a byte of it. -/
def Trans.plus (t : Trans) (n : Nat) : Trans := { t with off := t.off + n }

/-- A row that a load has written: each byte of each part, as its word of memory reads. -/
def State.rowLoaded (s : State) (c : Nat) (w : Xfer) (tr : Nat × Nat × BitVec 64 → Trans) (r : Nat) (v : Nat) : Prop :=
  ∀ p ∈ w.parts, p.1 = r → ∀ j < 64, BitVec.ofNat 8 (v / 256 ^ (p.2.1 + j)) = s.byteAt c (s.placeOf ((tr p).plus (8 * (j / 8))) + j % 8)

end Sys2Proof.Machine
end

