-- ==== Sys2Proof/Safety/Engine.lean ====
section
/-! DEFINITION. The terms in which claims speak of engines, releases and what reaches the module from outside. -/

namespace Sys2Proof.Machine

/-! ## Steps -/

/-- An outcome, with what follows a next state done to it. -/
def followed (f : State → State) : Host.Outcome State Fault Refusal → Host.Outcome State Fault Refusal
  | .next s => .next (f s)
  | .fault e => .fault e
  | .refused r => .refused r

/-! ## Engines -/

/-- No register, accumulator, tile or sub-band, no operation in flight and no thread, flag or special register of a band differs. -/
structure KeepsBands (s t : State) : Prop where
  core : ∀ c, (fun x y : Core => x.vrf = y.vrf ∧ x.srf = y.srf ∧ x.prf = y.prf ∧ x.accs = y.accs ∧ x.accStat = y.accStat ∧ x.tiles = y.tiles ∧
    x.table = y.table ∧ x.flights = y.flights) (t.core c) (s.core c)
  band : ∀ c b, { (t.core c).band b with relFail := [] } = { (s.core c).band b with relFail := [] }

/-- What the event of a command's op does (R214, R222 to R228): nothing while it is done or its page fault is not answered; else the
command is then done or waits for the answer to a page fault, and no band differs. -/
def State.RunsCommand (s : State) (g : Eng) (r : CmdRun) (op : Nat) (ev : Instr) : Prop :=
  r.cmd.head.op = op →
    (r.done = true ∨ s.engOpen g r.cmd = true → exec ev s = .next s) ∧
    (r.done = false → s.engOpen g r.cmd = false → ∃ t x, exec ev s = .next t ∧ t.curCmd g = some x ∧ x.cmd = r.cmd ∧
      (x.done = true ∨ x.waiting = true) ∧ KeepsBands s t)

/-! ## Releases -/

/-- The bands whose stores a release covers (R250). -/
def relBands (s : State) (c : Nat) (f : Flight) : RelKind → List Nat
  | .plain => [f.slot]
  | .xrel | .dram => (s.core c).taskBands ((s.core c).taskOfBand f.slot)

/-! ## What reaches the module from outside -/

/-- What the event of a management frame does (R378, R385): nothing at a module that is off, or halted and not to answer the code; a
frame whose signature, where it needs one, does not verify is answered with status 1, one that is not fresh with status 2; an accepted
one advances its slot's nonce and is answered as `P` says of the state in which its command runs, the state after it, the status and the
body. Every response is signed. -/
def State.Answers (s : State) (f : Frame) (code : Nat) (signed : Bool) (ev : Instr)
    (P : State → State → Nat → List Byte → Prop) : Prop :=
  let out := fun (st : Nat) (body : List Byte) => s.out ++ [.response code f.nonce st body
    (Config.signature (bytesOf 2 code ++ bytesOf 8 f.nonce.toNat ++ bytesOf 1 st ++ body))]
  let hears := s.mgmt.powered = true ∧ (s.mgmt.halted = true → code = 9 ∨ code = 0x10)
  let signs := signed = true → s.verified code f = true
  (¬hears → exec ev s = .next s) ∧
  (hears → ¬signs → ∃ t, exec ev s = .next t ∧ t.out = out 1 [] ∧ t.mgmt = s.mgmt ∧ t.cores = s.cores ∧ t.keys = s.keys) ∧
  (hears → signs → s.freshFrame f = false → ∃ t, exec ev s = .next t ∧ t.out = out 2 [] ∧ t.mgmt = s.mgmt ∧ t.cores = s.cores ∧
    t.keys = s.keys) ∧
  (hears → signs → s.freshFrame f = true → ∃ m t st body, exec ev s = .next t ∧ t.out = out st body ∧ m.cores = s.cores ∧ m.keys = s.keys ∧
    m.mgmt = { s.mgmt with nonces := mapSet s.mgmt.nonces f.slot f.nonce } ∧
    { m with mgmt := s.mgmt, power := s.power } = s ∧ P m t st body)

/-- The command at HEAD of the command ring is served (R376): its bytes, with the sequence that HEAD asks for, an opcode, and a
completion address that is aligned. -/
def State.commands (s : State) (l : List Byte) (op : Nat) : Prop :=
  s.cmdEntry = some l ∧ numAt l 4 4 = s.rings.cmdHead.toNat ∧ numAt l 0 4 = op ∧ numAt l 8 8 % 16 = 0

/-! ## Graphs -/

/-- A graph at a node, as it starts there (R333). -/
def Graph.atNode (g : Graph) (n : Nat) : Graph :=
  { g with node := n, launch := none, waitFrom := none, copyPos := 0, waiting := false }

/-- An event takes a graph to a node with some words of its registers, and no band differs. -/
def State.GoesTo (s : State) (q : Nat) (g : Graph) (ev : Instr) (n : Nat) (w : Map Word) : Prop :=
  ∃ u, exec ev s = .next u ∧ mapGet u.graphs q = some { g.atNode n with w } ∧ KeepsBands s u

end Sys2Proof.Machine
end

