-- ==== Sys2Proof/Safety/Floating.lean ====
section
/-! DEFINITION. The floating instructions as claims speak of them: for each its type, form and the function of its rule on
one element. -/

namespace Sys2Proof.Machine

/-- Results of a floating type: visible at once, or, of .f64, 8 cycles later (R58, R115). -/
def State.GivesTyped (s : State) (u : Cursor) (i : Instr) (q : Shape) (wide : Bool) (results : List (Loc × Word)) (fl : Fl)
    (t : State) : Prop := if wide then s.GivesLater u i q 8 results fl t else s.Gives u i q results fl t

/-- Two sources, or three in form VA (R116, R117). -/
def floatTwo : Instr → Option (FTy × VV × Bool × (Ctx → Nat → Nat → Nat → Nat × Fl))
  | .fadd t o => some (t, o, false, fun x a b _ => faddF t.spec x.rm (x.ftz t) a b)
  | .fsub t o => some (t, o, false, fun x a b _ => fsubF t.spec x.rm (x.ftz t) a b)
  | .fmul t o => some (t, o, false, fun x a b _ => fmulF t.spec x.rm (x.ftz t) a b)
  | .fma t o => some (t, o, true, fun x a b c => fmaF t.spec x.rm (x.ftz t) a b c)
  | .fmin t o => some (t, o, false, fun x a b _ => fminmaxF t.spec (x.ftz t) false true a b)
  | .fmax t o => some (t, o, false, fun x a b _ => fminmaxF t.spec (x.ftz t) true true a b)
  | .fminm t o => some (t, o, false, fun x a b _ => fminmaxF t.spec (x.ftz t) false false a b)
  | .fmaxm t o => some (t, o, false, fun x a b _ => fminmaxF t.spec (x.ftz t) true false a b)
  | _ => none

/-- One source (R118). -/
def floatOne : Instr → Option (FTy × VU × (Ctx → Nat → Nat × Fl))
  | .frcp t o => some (t, o, fun x a => frcpF t.spec x.rm (x.ftz t) a)
  | .frsq t o => some (t, o, fun x a => frsqF t.spec x.rm (x.ftz t) a)
  | .frnd t r o => some (t, o, fun x a => frndF t.spec r (x.ftz t) a)
  | .fclass t o => some (t, o, fun _ a => (fclassF t.spec a, flNone))
  | _ => none

/-- A non-negative number divided by a power of two and rounded to an integer in a mode, for a value of a sign (R112). -/
def roundQuotient (rm : Rnd) (neg : Bool) (m k : Nat) : Nat :=
  let down := m / 2 ^ k
  let up := if m % 2 ^ k = 0 then down else down + 1
  let rest := 2 * (m % 2 ^ k)
  match rm with
  | .rz => down
  | .ru => if neg then down else up
  | .rd => if neg then up else down
  | .ra => if rest < 2 ^ k then down else down + 1
  | .rn => if rest < 2 ^ k then down else if 2 ^ k < rest then down + 1 else down + down % 2

/-! ## Format instructions -/

/-- How a format instruction reads and writes: whether va and vd name pairs, whether there is a last source, the registers of vc
(0 none, 1 one, 2 a pair), whether a side is f64, and the result of a lane (R135 to R145). -/
structure FmtForm where
  o : FV
  wa : Bool
  wd : Bool
  last : Bool
  vc : Nat
  slow : Bool
  f : Ctx → Nat → Nat → Nat → Nat → Nat × Fl

def formatOp : Instr → Option FmtForm
  | .cvt s d rm sat o => some ⟨o, wideFmt s, wideFmt d, false, 0, s == .f64 || d == .f64, fun x a _ _ _ => cvtVal s d rm sat x.l.ftz a⟩
  | .pk s d rm sat o => some ⟨o, false, false, true, if pkUsesC s d then 2 else 0, false,
      fun x a b c0 c1 => pkVal s d rm sat x.l.ftz a b c0 c1⟩
  | .upk s d _ _ o => some ⟨o, false, complexFmt s, true, 0, false, fun x a b _ _ => upkVal s d x.l.ftz a b⟩
  | .qz _ d rm _ o => some ⟨o, complexFmt d, false, true, if d == .q16n then 1 else 0, false, fun _ a b c _ => qzVal d rm a b c⟩
  | .dq s _ rm _ o => some ⟨o, false, complexFmt s, true, if s == .q16n then 1 else 0, false, fun _ a b c _ => dqVal s rm a b c⟩
  | .mxq _ d rm _ o => some ⟨o, false, false, true, 0, false, fun _ a b _ _ => mxqVal d rm a b⟩
  | .mxdq s _ rm _ o => some ⟨o, false, false, true, 0, false, fun _ a b _ _ => mxdqVal s rm a b⟩
  | _ => none

/-- The value of an integer format's register contents, and the range of the format (R139). -/
def intValue (f : Fmt) (x : Nat) : Int :=
  match f with
  | .i32 => (BitVec.ofNat 32 x).toInt
  | .i64 => (BitVec.ofNat 64 x).toInt
  | _ => (BitVec.ofNat 32 x).toNat

def intLow (f : Fmt) : Int := match f with | .i32 => -(2 ^ 31) | .i64 => -(2 ^ 63) | _ => 0
def intHigh (f : Fmt) : Int := match f with | .i32 => 2 ^ 31 - 1 | .i64 => 2 ^ 63 - 1 | _ => 2 ^ 32 - 1

end Sys2Proof.Machine
end

