-- ==== Sys2Proof/Safety/Group.lean ====
section
/-! DEFINITION. The cross-lane instructions as claims speak of them: for each its operands, what a lane brings, and the results of
a complete operation. -/

namespace Sys2Proof.Machine

/-- A cross-lane instruction (R190, R194): its fields, its vector operands, what the lanes of a sub-band bring, and the results of
the operation that the last arrival, which reads them as `x`, completes. -/
structure CrossForm where
  o : GV
  vs : List Nat
  bring : Ctx → Bring
  result : Ctx → XOp → List (Loc × Word) × Fl

/-- The value a lane contributed, and whether one that contributed brought a value other than zero (R195). -/
def XOp.brought (q : XOp) (l : Nat) : Bool := q.val l != 0

def crossForm : Instr → Option CrossForm
  | .vote op o => some ⟨o, if op = .ballot then [o.vd.toNat] else [],
      fun x => ⟨fun l => if x.p l (o.va.extractLsb' 0 3) then 1 else 0, fun _ => 0,
        fun l => (readP x.k x.slot x.gen l (o.va.extractLsb' 0 3).toNat).2⟩,
      fun x q => (match op with
        | .all => (lanesOf q.active).map fun l => (x.pAt l (o.vd.extractLsb' 0 3), if (lanesOf q.active).all q.brought then 1 else 0)
        | .any => (lanesOf q.active).map fun l => (x.pAt l (o.vd.extractLsb' 0 3), if (lanesOf q.active).any q.brought then 1 else 0)
        | .ballot => (lanesOf q.active).map fun l => (x.vAt l o.vd, maskOf ((lanesOf q.active).filter q.brought)), flNone)⟩
  | .shfl op ty o => some ⟨o, [o.vd.toNat, o.va.toNat] ++ lastV o.u o.vb,
      fun x => ⟨x.value ty.wide o.va, fun l => x.last l o.u o.vb, fun l => x.valueOk ty.wide o.va l &&
        (if o.u then (x.readS (o.vb.extractLsb' 0 6).toNat).2 else (x.readV l o.vb.toNat).2)⟩,
      fun x q => (x.group q ty.wide o.vd fun l =>
        let b := (q.index l).toNat
        let j : Int := match op with
          | .idx => b
          | .up => (l : Int) - b
          | .down => l + b
          | .xor => Nat.xor l b
        if 0 ≤ j && j ≤ 31 && q.active.getLsbD j.toNat then q.val j.toNat else q.val l, flNone)⟩
  | .bcast ty o => some ⟨o, [o.vd.toNat, o.va.toNat],
      fun x => ⟨x.value ty.wide o.va, fun _ => 0, fun l => x.valueOk ty.wide o.va l && (x.readS (o.vb.extractLsb' 0 6).toNat).2⟩,
      fun x q =>
        let j := (x.s (o.vb.extractLsb' 0 6)).toNat
        (x.group q ty.wide o.vd fun _ => q.val (if j ≤ 31 && q.active.getLsbD j then j else (lanesOf q.active).headD 0), flNone)⟩
  | .red op ty o => some ⟨o, [o.vd.toNat, o.va.toNat],
      fun x => ⟨x.value ty.wide o.va, fun _ => 0, x.valueOk ty.wide o.va⟩,
      fun x q =>
        let r := redTree (redCombine op ty (rmOf x.b.rm) x.l.ftz)
          ((List.range 32).map fun l => if q.active.getLsbD l then some (q.num ty l) else none)
        (x.group q ty.wide o.vd fun _ => BitVec.ofNat 64 (redCanon ty (r.1.getD 0)), r.2 ||| q.signals ty)⟩
  | .scan op ty excl o => some ⟨o, [o.vd.toNat, o.va.toNat],
      fun x => ⟨x.value ty.wide o.va, fun _ => 0, x.valueOk ty.wide o.va⟩,
      fun x q =>
        let r := scanAll (redCombine op ty (rmOf x.b.rm) x.l.ftz) (redIdentity op ty) excl ((lanesOf q.active).map fun l => (l, q.num ty l))
        (x.group q ty.wide o.vd fun l => BitVec.ofNat 64 (redCanon ty (((r.1.find? fun p => p.1 == l).map (·.2)).getD 0)),
          r.2 ||| q.signals ty)⟩
  | _ => none

/-- Every source that an arrival reads passes its generation check (R191). -/
def Ctx.broughtOk (x : Ctx) (f : CrossForm) (m : Word) : Prop :=
  x.l.gentrap = true → (f.o.msrc = true → (x.readS f.o.midx.toNat).2 = true) ∧ ∀ l ∈ lanesOf (x.active &&& m), (f.bring x).ok l = true

end Sys2Proof.Machine
end

