-- ==== Sys2Proof/Safety/Integer.lean ====
section
/-! DEFINITION. The integer rules as claims speak of them: for each instruction its form and the function of its rule, in
the rule's own arithmetic. -/

namespace Sys2Proof.Machine

/-! ## Arithmetic of the rules -/

/-- Bits [63:32] of a product of integers (R98). -/
def highWord (p : Int) : Word := BitVec.ofInt 32 (p / 2 ^ 32)

/-- Shifts by a whole unsigned count (R95). -/
def leftBy {n : Nat} (a : BitVec n) (k : Nat) : BitVec n := BitVec.ofNat n (if k < n then a.toNat * 2 ^ k else 0)
def rightBy {n : Nat} (a : BitVec n) (k : Nat) : BitVec n := BitVec.ofNat n (if k < n then a.toNat / 2 ^ k else 0)
def arithRightBy {n : Nat} (a : BitVec n) (k : Nat) : BitVec n :=
  BitVec.ofInt n (if k < n then a.toInt / 2 ^ k else if a.toInt < 0 then -1 else 0)

/-- Whether the condition of a code holds (R52, R99): eq, ne, then lt, le, gt, ge signed and unsigned. -/
def holds {n : Nat} (cc : BitVec 4) (a b : BitVec n) : Bool :=
  match cc.toNat with
  | 0 => a.toNat = b.toNat
  | 1 => a.toNat ≠ b.toNat
  | 2 => a.toInt < b.toInt
  | 3 => a.toInt ≤ b.toInt
  | 4 => a.toInt > b.toInt
  | 5 => a.toInt ≥ b.toInt
  | 6 => a.toNat < b.toNat
  | 7 => a.toNat ≤ b.toNat
  | 8 => a.toNat > b.toNat
  | 9 => a.toNat ≥ b.toNat
  | _ => false

/-- Position and bits taken of a field under the control word of R101. -/
def fieldPos (c : Word) : Nat := (c.extractLsb' 0 8).toNat
def fieldBits (c : Word) : Nat :=
  let w := min (c.extractLsb' 8 8).toNat 32
  if w = 0 ∨ 32 ≤ fieldPos c then 0 else min w (32 - fieldPos c)

/-- The n bits of a word from bit p up, as a number (R101, R104). -/
def bitsFrom (a : Word) (p n : Nat) : Nat := a.toNat / 2 ^ p % 2 ^ n

/-- Those bits zero-extended or sign-extended. -/
def zeroField (a : Word) (p n : Nat) : Word := BitVec.ofNat 32 (bitsFrom a p n)
def signField (a : Word) (p n : Nat) : Word :=
  BitVec.ofInt 32 (if 0 < n ∧ 2 ^ (n - 1) ≤ bitsFrom a p n then (bitsFrom a p n : Int) - 2 ^ n else bitsFrom a p n)

/-- The word whose n bits from bit p up are the low bits of another, its other bits being an old word's. -/
def putField (old a : Word) (p n : Nat) : Word :=
  BitVec.ofFnLE fun (i : Fin 32) => if p ≤ i.val ∧ i.val < p + n then a.getLsbD (i.val - p) else old.getLsbD i.val

/-! ## The tables of R98, R100, R101 and R103 -/

/-- Form VV on words: V[vd] := f a b. -/
def wordOp : Instr → Option (VV × (Word → Word → Word))
  | .addB32 o => some (o, fun a b => a + b)
  | .subB32 o => some (o, fun a b => a - b)
  | .mulB32 o => some (o, fun a b => a * b)
  | .mulhiI32 o => some (o, fun a b => highWord (a.toInt * b.toInt))
  | .mulhiB32 o => some (o, fun a b => highWord (a.toNat * b.toNat))
  | .andB32 o => some (o, fun a b => a &&& b)
  | .orB32 o => some (o, fun a b => a ||| b)
  | .xorB32 o => some (o, fun a b => a ^^^ b)
  | .andnB32 o => some (o, fun a b => a &&& ~~~b)
  | .shlB32 o => some (o, fun a b => leftBy a b.toNat)
  | .shrB32 o => some (o, fun a b => rightBy a b.toNat)
  | .sraB32 o => some (o, fun a b => arithRightBy a b.toNat)
  | .minI32 o => some (o, fun a b => if a.toInt ≤ b.toInt then a else b)
  | .minB32 o => some (o, fun a b => if a.toNat ≤ b.toNat then a else b)
  | .maxI32 o => some (o, fun a b => if b.toInt ≤ a.toInt then a else b)
  | .maxB32 o => some (o, fun a b => if b.toNat ≤ a.toNat then a else b)
  | .bfeB32 o => some (o, fun a c => zeroField a (fieldPos c) (fieldBits c))
  | .bfeI32 o => some (o, fun a c => signField a (fieldPos c) (fieldBits c))
  | _ => none

/-- Form VV on pairs. -/
def pairOp : Instr → Option (VV × (BitVec 64 → BitVec 64 → BitVec 64))
  | .addB64 o => some (o, fun a b => a + b)
  | .subB64 o => some (o, fun a b => a - b)
  | .shlB64 o => some (o, fun a b => leftBy a b.toNat)
  | .shrB64 o => some (o, fun a b => rightBy a b.toNat)
  | .sraB64 o => some (o, fun a b => arithRightBy a b.toNat)
  | _ => none

/-- Form VA: V[vd] := f a b of the old V[vd]. -/
def accOp : Instr → Option (VV × (Word → Word → Word → Word))
  | .madB32 o => some (o, fun a b old => a * b + old)
  | .bfiB32 o => some (o, fun a c old => putField old a (fieldPos c) (fieldBits c))
  | _ => none

/-- Form VS. -/
def unaryOp : Instr → Option (VU × (Word → Word))
  | .mov o => some (o, fun a => a)
  | .absI32 o => some (o, fun a => BitVec.ofInt 32 |a.toInt|)
  | .popc o => some (o, fun a => BitVec.ofNat 32 ((List.finRange 32).countP fun i => a[i]))
  | .clz o => some (o, fun a => BitVec.ofNat 32 ((List.range 33).findIdx fun k => 2 ^ (31 - k) ≤ a.toNat ∨ k = 32))
  | .brev o => some (o, fun a => a.reverse)
  | _ => none

/-- Results without vector sources: distance, destination, uniform sources, and the word of a lane. -/
def laneOp : Instr → Option (BitVec 2 × BitVec 7 × List (BitVec 6) × (List Word → Nat → Word))
  | .lid d vd => some (d, vd, [], fun _ l => BitVec.ofNat 32 l)
  | .li d vd imm => some (d, vd, [], fun _ _ => BitVec.ofInt 32 imm.toInt)
  | .movs d vd sn => some (d, vd, [sn], fun w _ => w.headD 0)
  | _ => none

/-- Form VP. -/
def predicateOp : Instr → Option (BitVec 2 × BitVec 3 × BitVec 3 × BitVec 3 × (Bool → Bool → Bool))
  | .pand d pd pa pb => some (d, pd, pa, pb, fun a b => a && b)
  | .por d pd pa pb => some (d, pd, pa, pb, fun a b => a || b)
  | .pxor d pd pa pb => some (d, pd, pa, pb, fun a b => a ^^ b)
  | .pnot d pd pa => some (d, pd, pa, pa, fun a _ => !a)
  | _ => none

/-- Uniform words: S[sd] := f a b. -/
def uniformOp : Instr → Option (S3 × (Word → Word → Word))
  | .sadd o => some (o, fun a b => a + b)
  | .ssub o => some (o, fun a b => a - b)
  | .smul o => some (o, fun a b => a * b)
  | .smulhiI32 o => some (o, fun a b => highWord (a.toInt * b.toInt))
  | .smulhiB32 o => some (o, fun a b => highWord (a.toNat * b.toNat))
  | .sand o => some (o, fun a b => a &&& b)
  | .sor o => some (o, fun a b => a ||| b)
  | .sxor o => some (o, fun a b => a ^^^ b)
  | .sshl o => some (o, fun a b => leftBy a b.toNat)
  | .sshr o => some (o, fun a b => rightBy a b.toNat)
  | .ssra o => some (o, fun a b => arithRightBy a b.toNat)
  | .sminI32 o => some (o, fun a b => if a.toInt ≤ b.toInt then a else b)
  | .sminB32 o => some (o, fun a b => if a.toNat ≤ b.toNat then a else b)
  | .smaxI32 o => some (o, fun a b => if b.toInt ≤ a.toInt then a else b)
  | .smaxB32 o => some (o, fun a b => if b.toNat ≤ a.toNat then a else b)
  | .scmp cc o => some (o, fun a b => if holds cc a b then 1 else 0)
  | _ => none

/-- Uniform instructions of other forms: distance, destination, sources, and the word of the sub-band as it reads. -/
def uniformOther : Instr → Option (BitVec 2 × BitVec 6 × List (BitVec 6) × (List Word → Word))
  | .smov d sd sa => some (d, sd, [sa], fun w => w.headD 0)
  | .spopc d sd sa => some (d, sd, [sa], fun w => BitVec.ofNat 32 ((List.finRange 32).countP fun i => (w.headD 0)[i]))
  | .sclz d sd sa => some (d, sd, [sa], fun w =>
      BitVec.ofNat 32 ((List.range 33).findIdx fun k => 2 ^ (31 - k) ≤ (w.headD 0).toNat ∨ k = 32))
  | .ssel o => some (o.d, o.sd, [o.sd, o.sa, o.sb], fun w => if w.headD 0 ≠ 0 then w.getD 1 0 else w.getD 2 0)
  | .sli d sd imm => some (d, sd, [], fun _ => BitVec.ofInt 32 imm.toInt)
  | .slih d sd imm => some (d, sd, [sd], fun w => BitVec.ofNat 32 (imm.toNat * 2 ^ 16 + (w.headD 0).toNat % 2 ^ 16))
  | .sbfe d sd sa pos wid sg => some (d, sd, [sa], fun w =>
      let n := min (wid.toNat + 1) (32 - pos.toNat)
      if sg then signField (w.headD 0) pos.toNat n else zeroField (w.headD 0) pos.toNat n)
  | .sbfi d sd sa pos wid => some (d, sd, [sd, sa], fun w =>
      putField (w.headD 0) (w.getD 1 0) pos.toNat (min (wid.toNat + 1) (32 - pos.toNat)))
  | .saddImm d sd sa imm => some (d, sd, [sa], fun w => BitVec.ofInt 32 ((w.headD 0).toInt + imm.toInt))
  | _ => none

end Sys2Proof.Machine
end

