-- ==== Sys2Proof/Certificates/Slice0/Obligations.lean ====
section
/-! DEFINITION. The statements for the provers. -/

open Sys2Proof Sys2Proof.Machine

/-! ## Encodings, steps and reset -/

/-- R50 to R54, R60 to R62: of every instruction, the words that its encoding gives are one, or two where the opcode is that of a long form,
and decode to it, with every operand at every value that its encoding admits; and a word that decodes to an instruction is what the
instruction's encoding gives, so that each word has one meaning and none with a bit set that must be 0. -/
def Obligations.RoundTrip : Prop :=
  (∀ i : Instr, i.wf = true → ∀ w ws x, encode i = w :: ws → ws.length = (isLong w).toNat ∧ decode w (ws.headD x) = .ok i) ∧
  ∀ w x i, decode w x = .ok i → i.wf = true ∧ encode i = (if isLong w then [w, x] else [w])

/-- R50 to R62: words as the spec writes them decode to the instructions that they stand for. -/
def Obligations.DecodeWords : Prop :=
  decode 0xF8000780 0 = .ok (.clause 0 0 15 0 false 0) ∧
  decode 0x18220104 0xA0000040 = .ok (.ld .f32 .none ⟨0, true, 8, 2, 4, 0x40⟩) ∧
  decode 0x08408184 0 = .ok (.pand 0 2 3 4) ∧
  decode 0b0_10_0000001_1_1001010_0110100_0100110 0 = .ok (.addB32 ⟨2, true, 74, 52, 38⟩) ∧
  decode 0b0_01_0111101_0_0000011_0000100_0000101 0 = .ok (.fma .f32 ⟨1, false, 3, 4, 5⟩) ∧
  decode 0b0_00_1110000_0_1001001_0110100_0000000 0b0000_0001_001_1_0000000000000_0000000 =
    .ok (.cvt .f64 .f32 .rz true ⟨0, false, 73, 52, 0, 0⟩) ∧
  decode 0b0_00_1111010_0_0000001_0000010_0000000 0b0_000011_0000_1010_0_0000000000000000 =
    .ok (.red .add .f32 ⟨0, false, 1, 2, 0, false, 3⟩) ∧
  decode 0b1_00000_00_000001_000010_000011_000000 0 = .ok (.sadd ⟨0, 1, 2, 3⟩) ∧
  decode 0b1_00101_00_000000_111111111111111110 0 = .ok (.bra 0 (-2)) ∧
  decode 0b1_10001_00_00000101_000111_0000_000000 0 = .ok (.bar 0 5 7) ∧
  decode 0b1_10010_00_000011_000101_000010_000000 0 = .ok (.qpush 0 3 5 2) ∧
  decode 0b1_10011_00_00010_0_00100_1_00101_011_00_1_0 0 = .ok (.mma 0 2 false 4 true 5 3 .f32 true false) ∧
  decode 0b1_10110_00_000010_000000_010011_000100 0 = .ok (.rsys 0 2 0x013) ∧
  (∀ x, decode 0 x = .error .unassigned)

/-- R40, R50, R63, R66, R67: a step whose turn a sub-band has decodes the word at its address and runs it: in a clause an instruction, or
the illegal encoding that the word is; at a clause's start the header, once the whole clause has been fetched, or the trap of a word that
is no header. A sub-band whose line is missing waits for it. An event that the module allows happens in its turn. With no turn given and no
event due, the sub-band whose time comes first has the turn (log entry 2). -/
def Obligations.StepRunsDecoded : Prop :=
  (∀ (s m : State) (c b e : Nat) (ts : List Turn) (u : Cursor) (en : Entry) (get : Bool → BitVec 64 → Option Word) (a : BitVec 64),
    s.turns = .issue c b :: ts → s.runs = true → ({ s with turns := ts } : State).pick c b = some e → u = ⟨c, b, e⟩ →
    m = { s with turns := ts, cur := some u } → en = (m.core c).entry e →
    get = (fun old a => (m.core c).codeWord (m.pdOf c en.slot) a old) → a = (m.core c).nextAddr en →
    (∀ cl w x, en.ctx = some cl → get cl.old a = some w → (if isLong w then get cl.old (a + 4) = some x else x = 0) →
      (∀ i, isHeader w = false → decode w x = .ok i → step s = followed (·.afterIssue u) (exec i m)) ∧
      (isHeader w = true ∨ (∀ i, decode w x ≠ .ok i) → step s = followed (·.afterIssue u) (exec (.illegalEncoding w) m))) ∧
    (∀ w, en.ctx = none → get false a = some w →
      (∀ r k j p q n, isHeader w = true → decode w 0 = .ok (.clause r k j p q n) →
        (∀ l, clauseWords (get false) (n.toNat + 1) (a + 4) = .ok l → step s = followed (·.afterIssue u) (exec (.clause r k j p q n) m)) ∧
        (∀ v, clauseWords (get false) (n.toNat + 1) (a + 4) = .error v →
          step s = .next (m.updEntry c e fun x => { x with wait := .fetch }))) ∧
      (isHeader w = false ∨ (∀ i, decode w 0 ≠ .ok i) → step s = .next ((m.badHeader u a).afterIssue u))) ∧
    ((∃ cl w, en.ctx = some cl ∧ (get cl.old a = none ∨ (get cl.old a = some w ∧ isLong w = true ∧ get cl.old (a + 4) = none))) ∨
        (en.ctx = none ∧ get false a = none) →
      step s = .next (m.updEntry c e fun x => { x with wait := .fetch }))) ∧
  (∀ (s : State) (i : Instr) (ts : List Turn), s.turns = .happen i :: ts →
    step s = if i.isCode = false ∧ s.allows i = true then followed (·.afterEvent) (exec i { s with turns := ts, cur := none })
      else .next { s with turns := ts }) ∧
  ∀ s : State, s.turns = [] → (s.runs = false → step s = .next s) ∧
    ∀ v, s.runs = true → ({ s with cur := none } : State).dueEvent.isNone = true → s.firstIssue = some v → step s = step { s with turns := [v] }

/-- R19, R134, R302, R330, R373, R377, R387: at reset device memory and every scratchpad read 0, its list of cells has its canonical form, every
granule of a scratchpad carries tag 0, no key slot holds a key, no generation has been issued, no route, work queue or task stands, the module number is
unassigned and the time 0; the module is powered and neither halted nor in forensic mode. -/
def Obligations.Reset : Prop :=
  Memory.wf State.reset.mem = true ∧
  (∀ pa, State.reset.homeByte pa = 0) ∧ (∀ c pa, State.reset.byteAt c pa = 0) ∧
  (∀ c gen a, State.reset.spByte c gen a = 0 ∧ (State.reset.core c).spFmt gen a = 0 ∧ ((State.reset.core c).spRead gen a 1).2 = (gen == 0)) ∧
  State.reset.keys = [] ∧ (∀ c, (State.reset.core c).genWord = 0) ∧
  (∀ m, mapGetD State.reset.routes m Route.fresh = ⟨false, false, 0, 0⟩) ∧
  (∀ q, mapGetD State.reset.wqs q WorkQueue.fresh = ⟨0, 0, 0, 0, 0, 0, 0, 0, false, false⟩) ∧
  (∀ c, (State.reset.core c).tasks = [] ∧ (State.reset.core c).bands = [] ∧ (State.reset.core c).table = []) ∧
  State.reset.mgmt.moduleNo = 0xFFFF ∧ State.reset.time = 0 ∧ State.reset.mgmt.powered = true ∧ State.reset.mgmt.halted = false ∧
  State.reset.mgmt.forensic = false

/-- R19, R20: every step keeps the canonical form of device memory: cells at rising addresses, none that reads as an unlisted one. -/
def Obligations.MemoryKeepsForm : Prop :=
  ∀ s t : State, Memory.wf s.mem = true → step s = .next t → Memory.wf t.mem = true

/-! ## Integer instructions -/

/-- R98, R101, R105: form VV on words writes f of its two sources in every Active lane, and nothing else; the same of form VV on pairs, and of
form VA, whose old destination is read before the write. -/
def Obligations.VectorOps : Prop :=
  (∀ (s : State) (u : Cursor) (i : Instr) (o : VV) (f : Word → Word → Word) (q : Shape) (x : Ctx),
     wordOp i = some (o, f) → q = shapeVV o → x = s.seen u i q → s.issues u i q = true →
     ∃ t, exec i s = .next t ∧ s.Gives u i q (x.each32 o.vd fun l => f (x.v l o.va) (x.last l o.u o.vb)) flNone t) ∧
  (∀ (s : State) (u : Cursor) (i : Instr) (o : VV) (f : BitVec 64 → BitVec 64 → BitVec 64) (q : Shape) (x : Ctx),
     pairOp i = some (o, f) → q = shapeVV o true → x = s.seen u i q → s.issues u i q = true →
     ∃ t, exec i s = .next t ∧ s.Gives u i q (x.each64 o.vd fun l => f (x.v64 l o.va) (x.last64 l o.u o.vb)) flNone t) ∧
  (∀ (s : State) (u : Cursor) (i : Instr) (o : VV) (f : Word → Word → Word → Word) (q : Shape) (x : Ctx),
     accOp i = some (o, f) → q = shapeVV o false true → x = s.seen u i q → s.issues u i q = true →
     ∃ t, exec i s = .next t ∧ s.Gives u i q (x.each32 o.vd fun l => f (x.v l o.va) (x.last l o.u o.vb) (x.v l o.vd)) flNone t)

/-- R100: form VS, the lane number, the immediate and the broadcast move. -/
def Obligations.VectorOneSource : Prop :=
  (∀ (s : State) (u : Cursor) (i : Instr) (o : VU) (f : Word → Word) (q : Shape) (x : Ctx),
    unaryOp i = some (o, f) → q = shapeVU o → x = s.seen u i q → s.issues u i q = true →
    ∃ t, exec i s = .next t ∧ s.Gives u i q (x.each32 o.vd fun l => f (x.v l o.va)) flNone t) ∧
  (∀ (s : State) (u : Cursor) (i : Instr) (d : BitVec 2) (vd : BitVec 7) (srcs : List (BitVec 6)) (f : List Word → Nat → Word)
      (q : Shape) (x : Ctx),
    laneOp i = some (d, vd, srcs, f) → q = { uni := false, d := d, vs := [vd.toNat], srcs := srcs.map (Src.s ·.toNat) } →
    x = s.seen u i q → s.issues u i q = true →
    ∃ t, exec i s = .next t ∧ s.Gives u i q (x.each32 vd (f (srcs.map x.s))) flNone t)

/-- R99: comparisons of words and of pairs write a predicate in every Active lane; a write to p0 changes nothing. -/
def Obligations.VectorCompare : Prop :=
  ∀ (s : State) (u : Cursor) (o : VC),
    (∀ (q : Shape) (x : Ctx), q = shapeVC o → x = s.seen u (.cmp32 o) q → s.issues u (.cmp32 o) q = true →
      ∃ t, exec (.cmp32 o) s = .next t ∧
        s.Gives u (.cmp32 o) q (x.eachP o.pd fun l => holds o.cc (x.v l o.va) (x.last l o.u o.vb)) flNone t) ∧
    (∀ (q : Shape) (x : Ctx), q = shapeVC o true → x = s.seen u (.cmp64 o) q → s.issues u (.cmp64 o) q = true →
      ∃ t, exec (.cmp64 o) s = .next t ∧
        s.Gives u (.cmp64 o) q (x.eachP o.pd fun l => holds o.cc (x.v64 l o.va) (x.last64 l o.u o.vb)) flNone t)

/-- R102: predicate logic. -/
def Obligations.PredicateLogic : Prop :=
  ∀ (s : State) (u : Cursor) (i : Instr) (d : BitVec 2) (pd pa pb : BitVec 3) (f : Bool → Bool → Bool) (q : Shape) (x : Ctx),
    predicateOp i = some (d, pd, pa, pb, f) → q = { uni := false, d := d, srcs := [.p pa.toNat, .p pb.toNat] } →
    x = s.seen u i q → s.issues u i q = true →
    ∃ t, exec i s = .next t ∧ s.Gives u i q (x.eachP pd fun l => f (x.p l pa) (x.p l pb)) flNone t

/-- R98, R106, R107: select by a predicate, and reads and writes of a register chosen by an index, which go ahead when the
computed indices are in bound. -/
def Obligations.VectorSelectAndIndex : Prop :=
  ∀ (s : State) (u : Cursor) (o : VV),
    (∀ (p : BitVec 3) (q : Shape) (x : Ctx),
      q = { shapeVV o with srcs := .p p.toNat :: .v o.va.toNat :: lastSrc o.u o.vb } → x = s.seen u (.sel p o) q →
      s.issues u (.sel p o) q = true →
      ∃ t, exec (.sel p o) s = .next t ∧
        s.Gives u (.sel p o) q (x.each32 o.vd fun l => if x.p l p then x.v l o.va else x.last l o.u o.vb) flNone t) ∧
    (∀ (q : Shape) (x : Ctx), q = { shapeIdx o o.va with pre := indexPre o o.va true } → x = s.seen u (.vmovr o) q →
      s.issues u (.vmovr o) q = true →
      (∀ l ∈ lanesOf x.active, x.vOk (o.va.toNat + (x.last l o.u o.vb).toNat)) ∧
      ∃ t, exec (.vmovr o) s = .next t ∧
        s.Gives u (.vmovr o) q (x.each32 o.vd fun l => (x.readV l (o.va.toNat + (x.last l o.u o.vb).toNat)).1) flNone t) ∧
    (∀ (q : Shape) (x : Ctx), q = { shapeIdx o o.vd with pre := indexPre o o.vd false, srcs := .v o.va.toNat :: lastSrc o.u o.vb } →
      x = s.seen u (.vmovw o) q → s.issues u (.vmovw o) q = true →
      (∀ l ∈ lanesOf x.active, x.vOk (o.vd.toNat + (x.last l o.u o.vb).toNat)) ∧
      ∃ t, exec (.vmovw o) s = .next t ∧
        s.Gives u (.vmovw o) q ((lanesOf x.active).map fun l =>
          (x.b.vLoc x.slot l (o.vd.toNat + (x.last l o.u o.vb).toNat), x.v l o.va)) flNone t)

/-- R103, R104: uniform instructions write one uniform register, or a pair, once for the sub-band. -/
def Obligations.UniformOps : Prop :=
  (∀ (s : State) (u : Cursor) (i : Instr) (o : S3) (f : Word → Word → Word) (q : Shape) (x : Ctx),
    uniformOp i = some (o, f) → q = shapeS3 o → x = s.seen u i q → s.issues u i q = true →
    ∃ t, exec i s = .next t ∧ s.Gives u i q (x.toS o.sd (f (x.s o.sa) (x.s o.sb))) flNone t) ∧
  (∀ (s : State) (u : Cursor) (i : Instr) (o : S3) (f : BitVec 64 → BitVec 64 → BitVec 64) (q : Shape) (x : Ctx),
    (i, f) ∈ [(.saddB64 o, (· + ·)), (.ssubB64 o, (· - ·))] → q = shapeS o.d (sSrc64 o.sa ++ sSrc64 o.sb) →
    x = s.seen u i q → s.issues u i q = true →
    ∃ t, exec i s = .next t ∧ s.Gives u i q (x.toS64 o.sd (f (x.s64 o.sa) (x.s64 o.sb))) flNone t) ∧
  (∀ (s : State) (u : Cursor) (i : Instr) (d : BitVec 2) (sd : BitVec 6) (srcs : List (BitVec 6)) (f : List Word → Word)
      (q : Shape) (x : Ctx),
    uniformOther i = some (d, sd, srcs, f) → q = shapeS d (srcs.map (Src.s ·.toNat)) → x = s.seen u i q →
    s.issues u i q = true →
    ∃ t, exec i s = .next t ∧ s.Gives u i q (x.toS sd (f (srcs.map x.s))) flNone t)

/-! ## Floating-point instructions -/

/-- R112 to R118: two-source and one-source floating instructions, element by element; the exception flags are those of every
Active lane and element (R111). -/
def Obligations.FloatOps : Prop :=
  (∀ (s : State) (u : Cursor) (i : Instr) (ty : FTy) (o : VV) (acc : Bool) (f : Ctx → Nat → Nat → Nat → Nat × Fl) (q : Shape)
      (x : Ctx) (r : Nat → Nat × Fl),
    floatTwo i = some (ty, o, acc, f) → q = shapeVV o ty.isWide acc → x = s.seen u i q → s.issues u i q = true →
    r = (fun l => perElem3 ty (f x) (x.fa ty l o.va) (x.flast ty l o.u o.vb) (x.fa ty l o.vd)) →
    ∃ t, exec i s = .next t ∧
      s.GivesTyped u i q ty.isWide (x.eachF ty o.vd fun l => (r l).1) (orLanes x fun l => (r l).2) t) ∧
  (∀ (s : State) (u : Cursor) (i : Instr) (ty : FTy) (o : VU) (f : Ctx → Nat → Nat × Fl) (q : Shape) (x : Ctx) (r : Nat → Nat × Fl),
    floatOne i = some (ty, o, f) → q = shapeVU o ty.isWide → x = s.seen u i q → s.issues u i q = true →
    r = (fun l => perElem ty (f x) (x.fa ty l o.va)) →
    ∃ t, exec i s = .next t ∧
      s.GivesTyped u i q ty.isWide (x.eachF ty o.vd fun l => (r l).1) (orLanes x fun l => (r l).2) t)

/-- R117, R120, R121: comparison, scaling by a power of two, and the two-element dot product. -/
def Obligations.FloatCompareScaleDot : Prop :=
  ∀ (s : State) (u : Cursor),
    (∀ (ty : FTy) (o : VC) (q : Shape) (x : Ctx) (r : Nat → Bool × Fl), q = shapeVC o ty.isWide → x = s.seen u (.fcmp ty o) q →
      s.issues u (.fcmp ty o) q = true →
      r = (fun l => fcmpF ty.spec (x.ftz ty) o.cc (x.fa ty l o.va % 2 ^ ty.spec.width) (x.flast ty l o.u o.vb % 2 ^ ty.spec.width)) →
      ∃ t, exec (.fcmp ty o) s = .next t ∧
        s.GivesTyped u (.fcmp ty o) q ty.isWide (x.eachP o.pd fun l => (r l).1) (orLanes x fun l => (r l).2) t) ∧
    (∀ (w : FW) (o : VV) (q : Shape) (x : Ctx) (r : Nat → Nat × Fl),
      q = { shapeVV o w.ty.isWide with srcs := (if w.ty.isWide then src64 o.va else [.v o.va.toNat]) ++ lastSrc o.u o.vb } →
      x = s.seen u (.fscale w o) q → s.issues u (.fscale w o) q = true →
      r = (fun l => fscaleF w.ty.spec x.rm (x.fa w.ty l o.va) (x.last l o.u o.vb).toInt) →
      ∃ t, exec (.fscale w o) s = .next t ∧
        s.GivesTyped u (.fscale w o) q w.ty.isWide (x.eachF w.ty o.vd fun l => (r l).1) (orLanes x fun l => (r l).2) t) ∧
    (∀ (h : FH) (o : VV) (q : Shape) (x : Ctx) (r : Nat → Nat × Fl), q = shapeVV o false true → x = s.seen u (.fdot2 h o) q →
      s.issues u (.fdot2 h o) q = true →
      r = (fun l => fdot2F h.spec x.rm x.l.ftz (elem 16 0 (x.v l o.va).toNat) (elem 16 1 (x.v l o.va).toNat)
        (elem 16 0 (x.last l o.u o.vb).toNat) (elem 16 1 (x.last l o.u o.vb).toNat) (x.v l o.vd).toNat) →
      ∃ t, exec (.fdot2 h o) s = .next t ∧
        s.Gives u (.fdot2 h o) q (x.each32 o.vd fun l => BitVec.ofNat 32 (r l).1) (orLanes x fun l => (r l).2) t)

/-- R119, R123, R124: division, square root and table evaluation with an Active lane go in flight on flag B; with none they
are complete. -/
def Obligations.FloatLongLatency : Prop :=
  ∀ (s : State) (u : Cursor),
    (∀ (w : FW) (o : VV) (q : Shape) (x : Ctx) (r : Nat → Nat × Fl), q = shapeVV o w.ty.isWide → x = s.seen u (.fdiv w o) q →
      s.issues u (.fdiv w o) q = true →
      r = (fun l => fdivF w.ty.spec x.rm (x.fa w.ty l o.va) (x.flast w.ty l o.u o.vb)) →
      ∃ t, exec (.fdiv w o) s = .next t ∧ if x.active = 0 then t = s.passed u (.fdiv w o) q else
        s.Starts u (.fdiv w o) q x.active x.flagB
          (.result true (pipeOf x.slot) (x.eachF w.ty o.vd fun l => (r l).1) (orLanes x fun l => (r l).2)) t) ∧
    (∀ (ty : FTy) (o : VU) (q : Shape) (x : Ctx) (r : Nat → Nat × Fl), q = shapeVU o ty.isWide → x = s.seen u (.fsqrt ty o) q →
      s.issues u (.fsqrt ty o) q = true →
      r = (fun l => perElem ty (fun a => fsqrtF ty.spec x.rm (x.ftz ty) a) (x.fa ty l o.va)) →
      ∃ t, exec (.fsqrt ty o) s = .next t ∧ if x.active = 0 then t = s.passed u (.fsqrt ty o) q else
        s.Starts u (.fsqrt ty o) q x.active x.flagB
          (.result true (pipeOf x.slot) (x.eachF ty o.vd fun l => (r l).1) (orLanes x fun l => (r l).2)) t) ∧
    (∀ (id : BitVec 4) (o : VU) (q : Shape) (x : Ctx), q = shapeVU o → x = s.seen u (.ftab id o) q →
      s.issues u (.ftab id o) q = true →
      ∃ t, exec (.ftab id o) s = .next t ∧ if x.active = 0 then t = s.passed u (.ftab id o) q else
        s.Starts u (.ftab id o) q x.active x.flagB
          (.result false (pipeOf x.slot) (x.each32 o.vd fun l =>
            BitVec.ofNat 32 (ftabF (fun n => ((s.tableAt x.pd x.pc id.toNat).getD n 0).toNat) (x.v l o.va).toNat)) flNone) t)

/-- R123, R124: the completion of a division, a square root or a table evaluation writes its results and its exception flags
together and lowers its flag. -/
def Obligations.FloatCompletion : Prop :=
  ∀ (s : State) (c id : Nat) (f : Flight) (seq : Bool) (p : Nat) (w : List (Loc × Word)) (fl : Fl),
    mapGet (s.core c).flights id = some f → f.kind = .result seq p w fl → (mapGet (s.core c).bands f.slot).isSome = true →
    Distinct w →
    ∃ t, exec (if seq then .sequencerCompletion c id else .ftabCompletion c id) s = .next t ∧ s.Delivers c id f w fl t

/-- R112, R114, R118: the rounding of every arithmetic result: a number is cut at a bit in the mode, and is inexact when bits are lost. A NaN
that an arithmetic instruction produces is the canonical quiet NaN of its format. -/
def Obligations.RoundingAndNaN : Prop :=
  (∀ (rm : Rnd) (neg : Bool) (m k : Nat), 0 < k →
     roundShift rm neg m false k = (roundQuotient rm neg m k, decide (m % 2 ^ k ≠ 0))) ∧
  (∀ p ∈ [f64S, f32S, f16S, bf16S], ∀ (rm : Rnd) (ftz : Bool) (a b c : Nat) (n : Int),
     ∀ r ∈ [faddF p rm ftz a b, fsubF p rm ftz a b, fmulF p rm ftz a b, fmaF p rm ftz a b c, fdivF p rm a b, frcpF p rm ftz a,
         frsqF p rm ftz a, fsqrtF p rm ftz a, frndF p rm ftz a, fscaleF p rm a n],
       (unpackF p r.1).isNaN = true → r.1 = p.nanBits)

/-- R124, R137, R140, R142 to R145: the spec's tables of bit-exact outcomes, but for the flags of the row of 470.0 with `.rz`, which R137 does
not give (log entry 27). -/
def Obligations.ExampleTables : Prop :=
  (fmulF f32S .rn false 0x3F800001 0x3F7FFFFE = (0x3F800000, flNX) ∧
   faddF f32S .rn false 0x3F800000 0xBF800000 = (0, flNone) ∧
   fmaF f32S .rn false 0x3F800001 0x3F7FFFFE 0xBF800000 = (0xA8800000, flNone) ∧
   faddF f32S .rn false 0x7F7FFFFF 0x7F7FFFFF = (0x7F800000, flOF ||| flNX) ∧
   faddF f32S .rz false 0x7F7FFFFF 0x7F7FFFFF = (0x7F7FFFFF, flOF ||| flNX) ∧
   faddF f32S .rn false 0x7F800001 0x3F800000 = (0x7FC00000, flNV) ∧
   fminmaxF f32S false false true 0x7FC00000 0x40000000 = (0x40000000, flNone) ∧
   fminmaxF f32S false false false 0x7FC00000 0x40000000 = (0x7FC00000, flNone) ∧
   fminmaxF f32S false false true 0x00000000 0x80000000 = (0x80000000, flNone) ∧
   fmulF f16S .rn false 0x0001 0x3800 = (0x0000, flUF ||| flNX) ∧
   fmulF f16S .rn true 0x0001 0x3800 = (0x0000, flNone) ∧
   fdivF f32S .rn 0x3F800000 0x00000000 = (0x7F800000, flDZ) ∧
   frsqF f32S .rn false 0x80000000 = (0xFF800000, flDZ)) ∧
  (let one := fun (x : Nat) (d : Fmt) (rm : Rnd) (sat : Bool) => (pkVal .f32 d rm sat false x 0 0 0).1 % 256
   let fl := fun (x : Nat) (d : Fmt) (rm : Rnd) (sat : Bool) => (pkVal .f32 d rm sat false x 0 0 0).2
   (one 0x3F800000 .e4m3 .rn false, fl 0x3F800000 .e4m3 .rn false) = (0x38, flNone) ∧
   (one 0x43E80000 .e4m3 .rn false, fl 0x43E80000 .e4m3 .rn false) = (0x7E, flNX) ∧
   (one 0x43EB0000 .e4m3 .rn false, fl 0x43EB0000 .e4m3 .rn false) = (0x7F, flOF ||| flNX) ∧
   (one 0x43EB0000 .e4m3 .rn true, fl 0x43EB0000 .e4m3 .rn true) = (0x7E, flOF ||| flNX) ∧
   (one 0x43EB0000 .e4m3 .rz false) = 0x7E ∧
   (one 0x3A83126F .e4m3 .rn false, fl 0x3A83126F .e4m3 .rn false) = (0x01, flUF ||| flNX) ∧
   (one 0x80000000 .e4m3 .rn false, fl 0x80000000 .e4m3 .rn false) = (0x80, flNone) ∧
   (one 0x477FE000 .e5m2 .rn false, fl 0x477FE000 .e5m2 .rn false) = (0x7C, flOF ||| flNX) ∧
   (one 0x477FE000 .e5m2 .rn true, fl 0x477FE000 .e5m2 .rn true) = (0x7B, flOF ||| flNX) ∧
   mxqVal .e2m1 .rn 0x40A00000 0x40A00000 = (0x7F06, flNX) ∧ (mxdqVal .e2m1 .rn 0x7F06 0x7F06).1 = 0x40800000 ∧
   mxqVal .e2m1 .rn 0xC02CCCCD 0x40A00000 = (0x7F0D, flNX) ∧ (mxdqVal .e2m1 .rn 0x7F0D 0x7F0D).1 = 0xC0400000 ∧
   mxqVal .e2m1 .rn 0x3E800000 0x40A00000 = (0x7F00, flUF ||| flNX) ∧
   mxqVal .e2m1 .rn 0x40E00000 0x40A00000 = (0x7F07, flOF ||| flNX) ∧ (mxdqVal .e2m1 .rn 0x7F07 0x7F07).1 = 0x40C00000 ∧
   qzVal .q16n .rn 0x3F000000 0x3F800000 240 = (12, flNone) ∧ (dqVal .q16n .rn 12 0x3F800000 240).1 = 0x3EE98000 ∧
   qzVal .q16n .rn 0xBE4CCCCD 0x3F800000 240 = (5, flNone) ∧ (dqVal .q16n .rn 5 0x3F800000 240).1 = 0xBE4CC000 ∧
   qzVal .q16n .rn 0x00000000 0x3F800000 240 = (8, flNone) ∧ (dqVal .q16n .rn 8 0x3F800000 240).1 = 0x3CF04000 ∧
   qzVal .q16n .rn 0x80000000 0x3F800000 240 = (7, flNone) ∧ (dqVal .q16n .rn 7 0x3F800000 240).1 = 0xBCF04000 ∧
   qzVal .q16n .rn 0x3FD9999A 0x3F800000 240 = (15, flNone) ∧ (dqVal .q16n .rn 15 0x3F800000 240).1 = 0x3F800000 ∧
   qzVal .q16n .rn 0x7FC00000 0x3F800000 240 = (8, flNV) ∧
   dqVal .q16n .rn 12 0x3F800000 0 = (0, flNone) ∧ dqVal .q16n .rn 12 0x7F800000 240 = (0, flNone) ∧
   qzVal .q16n .rn 0x3F000000 0x7F800000 240 = (8, flNone) ∧ qzVal .q16n .rn 0xBF000000 0x7F800000 240 = (7, flNone))

/-! ## Format instructions -/

/-- R135 to R145: a format instruction writes its result, a pair's when it has one, in every Active lane, 8 cycles later when
a side is f64.
R139: integer to integer: widening extends, narrowing keeps the low bits, or with sat clamps to the range and sets NV when it
clamps. -/
def Obligations.FormatOps : Prop :=
  (∀ (s : State) (u : Cursor) (i : Instr) (m : FmtForm) (q : Shape) (x : Ctx) (r : Nat → Nat × Fl), formatOp i = some m →
     q = shapeFV m.o m.wa m.last m.vc → x = s.seen u i q → s.issues u i q = true →
     r = (fun l => m.f x (if m.wa then (x.v64 l m.o.va).toNat else (x.v l m.o.va).toNat) (x.last l m.o.u m.o.vb).toNat
       (x.v l m.o.vc).toNat (x.readV l (m.o.vc.toNat + 1)).1.toNat) →
     ∃ t, exec i s = .next t ∧ s.GivesTyped u i q m.slow
       (if m.wd then x.each64 m.o.vd fun l => BitVec.ofNat 64 (r l).1 else x.each32 m.o.vd fun l => BitVec.ofNat 32 (r l).1)
       (orLanes x fun l => (r l).2) t) ∧
  (∀ (src dst : Fmt) (sat ftz : Bool) (x : Nat), src ∈ [Fmt.i32, .b32, .i64] → dst ∈ [Fmt.i32, .b32, .i64] →
     cvtPair src dst .rn sat = true → x < (if src = .i64 then 2 ^ 64 else 2 ^ 32) →
     let y := intValue src x
     let kept := sat = false ∨ (intLow dst ≤ y ∧ y ≤ intHigh dst)
     (kept → cvtVal src dst .rn sat ftz x = ((y % (if dst = .i64 then 2 ^ 64 else 2 ^ 32)).toNat, flNone)) ∧
     (¬kept → cvtVal src dst .rn sat ftz x =
       (((if y < intLow dst then intLow dst else intHigh dst) % (if dst = .i64 then 2 ^ 64 else 2 ^ 32)).toNat, flNV)))

/-! ## Control instructions -/

/-- R80, R167: a taken branch, or an `lnext` whose loop has an iteration left, stands the running lanes at the word at the
signed offset, in no clause; one that is not taken only goes past the instruction. -/
def Obligations.Branches : Prop :=
  ∀ (s : State) (u : Cursor) (d : BitVec 2) (off : BitVec 18) (q : Shape) (x : Ctx) (to_ : BitVec 64),
    (∀ i, i = .bra d off → q = shapeS d [] → x = s.seen u i q → s.issues u i q = true → to_ = x.pc + 4 * off.signExtend 64 →
      ∃ t, exec i s = .next t ∧ s.Changes u i q (Band.standAt x.lanes to_) Entry.outside t) ∧
    (∀ i sn, i = .brz d sn off → q = shapeS d [.s sn.toNat] → x = s.seen u i q → s.issues u i q = true →
      to_ = x.pc + 4 * off.signExtend 64 → ∃ t, exec i s = .next t ∧
        if x.s sn = 0 then s.Changes u i q (Band.standAt x.lanes to_) Entry.outside t else s.Changes u i q id id t) ∧
    (∀ i sn, i = .brnz d sn off → q = shapeS d [.s sn.toNat] → x = s.seen u i q → s.issues u i q = true →
      to_ = x.pc + 4 * off.signExtend 64 → ∃ t, exec i s = .next t ∧
        if x.s sn = 0 then s.Changes u i q id id t else s.Changes u i q (Band.standAt x.lanes to_) Entry.outside t) ∧
    (∀ i l, i = .lnext d l off → q = shapeS d [] → x = s.seen u i q → s.issues u i q = true →
      to_ = x.pc + 4 * off.signExtend 64 → ∃ t, exec i s = .next t ∧
        let li := mapGetD x.b.li l.toNat 0
        if li.toNat + 1 < (mapGetD x.b.lc l.toNat 0).toNat then
          s.Changes u i q (fun b => Band.standAt x.lanes to_ { b with li := mapSet b.li l.toNat (li + 1) }) Entry.outside t
        else s.Changes u i q (fun b => { b with li := mapSet b.li l.toNat 0 }) id t)

/-- R89: `nop` takes one slot of its band and has no effect. -/
def Obligations.NopTakesOneSlot : Prop :=
  ∀ (s : State) (u : Cursor) (d : BitVec 2) (i : Instr) (q : Shape), i = .nop d → q = shapeS d [] → s.issues u i q = true →
    s.Slot u (some 1) (s.issueTime u i q.uni q.d.toNat) (s.passed u i q) ∧
    ∃ t, exec i s = .next t ∧ s.Changes u i q id id t

/-- R166: the loop nest and the coefficient registers. -/
def Obligations.LoopNest : Prop :=
  ∀ (s : State) (u : Cursor) (i : Instr) (q : Shape) (x : Ctx), x = s.seen u i q → s.issues u i q = true →
    (∀ d n sn, i = .lset d n sn → q = shapeS d [.s sn.toNat] → ∃ t, exec i s = .next t ∧
      s.Changes u i q (fun b => { b with lc := mapSet b.lc n.toNat (x.s sn), li := mapSet b.li n.toNat 0 }) id t) ∧
    (∀ d sn n, i = .lget d sn n → q = shapeS d [] → ∃ t, exec i s = .next t ∧
      s.Gives u i q (x.toS sn (mapGetD x.b.li n.toNat 0)) flNone t) ∧
    (∀ d k sb sc, i = .kset d k sb sc → q = shapeS d (sSrc64 sb ++ (List.range 4).map fun i => .s (sc.toNat + i)) →
      ∃ t, exec i s = .next t ∧ s.Changes u i q (fun b => { b with k := mapSet b.k k.toNat ⟨(x.s64 sb).extractLsb' 0 57,
        (x.readS sc.toNat).1, (x.readS (sc.toNat + 1)).1, (x.readS (sc.toNat + 2)).1, (x.readS (sc.toNat + 3)).1⟩ }) id t)

/-! ## Issue and traps -/

/-- R57, R58, R70, R111, R293: what every instruction does as it issues, whatever its own effect. -/
def Obligations.IssueFrame : Prop :=
  ∀ (s : State) (u : Cursor) (i : Instr) (q : Shape), s.stands u = true →
    s.Slot u none (s.issueTime u i q.uni q.d.toNat) (s.begun u i q) ∧
    s.Slot u (some q.words) (s.issueTime u i q.uni q.d.toNat) (s.passed u i q)

/-- R305, R307, R308, R327: what taking a trap saves and where it goes. -/
def Obligations.TrapEntry : Prop :=
  ∀ (s : State) (c slot cause code : Nat) (trap : Option Nat) (kpc : BitVec 64) (klanes : Word) (kaddr : BitVec 64),
    (mapGet (s.core c).bands slot).isSome = true →
    s.Traps c slot cause code kpc klanes kaddr (s.takeTrap c slot cause code trap kpc klanes kaddr)

/-- R63, R64, R92: before any effect of an instruction, an address breakpoint stops the task and is trap 0x0A; else an encoding that
is not well-formed is trap 0x01, and an instruction for keep mode only, outside it, is trap 0x09; all at the instruction. -/
def Obligations.ChecksComeFirst : Prop :=
  ∀ (s : State) (u : Cursor) (i : Instr), i.isCode = true → (∀ w a b p n c, i ≠ .clause w a b p n c) → s.stands u = true →
    let pc := (((s.core u.core).band u.slot).thread ((lowestLane ((s.core u.core).entry u.entry).lanes).getD 0)).pc
    let lanes := ((s.core u.core).entry u.entry).lanes
    let task := ((s.core u.core).band u.slot).task
    (s.breaks u = true → ∃ t, exec i s = .next t ∧
      ((s.updTask u.core task fun t => { t with stopped := true }).updEntry u.core u.entry fun e => { e with skipBp := true }).Traps
        u.core u.slot 0x0A 0 pc lanes 0 t) ∧
    (s.breaks u = false → ∃ q : Shape,
      (i.wf = false → ∃ t, exec i s = .next t ∧ (s.begun u i q).Traps u.core u.slot 0x01 0 pc lanes 0 t) ∧
      (i.wf = true → i.keepOnly = true → ((s.core u.core).band u.slot).keep = false →
        ∃ t, exec i s = .next t ∧ (s.begun u i q).Traps u.core u.slot 0x09 0 pc lanes 0 t) ∧
      ∀ cause, check i q (s.seen u i q) = some cause →
        ∃ t, exec i s = .next t ∧ (s.begun u i q).Traps u.core u.slot cause 0 pc lanes 0 t)

/-- R65, R90: `brk` is trap 0x0A and `trap` 0x0B, with the code and the word after the instruction saved; a word that decodes to
nothing is trap 0x01 at the word. -/
def Obligations.TrapInstructions : Prop :=
  ∀ (s : State) (u : Cursor) (i : Instr) (q : Shape) (x : Ctx), x = s.seen u i q → s.issues u i q = true →
    (∀ d code, i = .brk d code → q = shapeS d [] →
      ∃ t, exec i s = .next t ∧ (s.passed u i q).Traps u.core u.slot 0x0A code.toNat (x.pc + 4) x.lanes 0 t) ∧
    (∀ d code, i = .trap d code → q = shapeS d [] →
      ∃ t, exec i s = .next t ∧ (s.passed u i q).Traps u.core u.slot 0x0B code.toNat (x.pc + 4) x.lanes 0 t) ∧
    (∀ w, i = .illegalEncoding w → q = { uni := w.msb, d := BitVec.ofNat 2 (wordD w) } →
      ∃ t, exec i s = .next t ∧ (s.begun u i q).Traps u.core u.slot 0x01 0 x.pc x.lanes 0 t)

/-- R77, R81: a call to an aligned address within the bound of the return stack pushes the return address in every running lane and
stands them at the target; entries beyond depth 8 are stored to thread-local memory once their pages translate. A misaligned target
is trap 0x05 and a depth beyond the bound trap 0x03, before any effect. R77, R82: `callv` calls in each Active lane the address of its pair, with V = 1 in the entry; the other lanes are held at the
return address; the first group, of the lowest Active lane, runs, and the others are deferred. With no Active lane it is a transfer
to the next word. A misaligned target is trap 0x05, and a depth beyond the bound trap 0x03, before any effect. -/
def Obligations.Calls : Prop :=
  (∀ (s : State) (u : Cursor) (i : Instr) (q : Shape) (x : Ctx) (target : BitVec 64),
     ((∃ d off, i = .call d off ∧ q = shapeS d [] ∧ target = x.pc + 4 * off.signExtend 64) ∨
       (∃ d sn, i = .calli d sn ∧ q = shapeS d (sSrc64 sn) ∧ target = x.s64 sn)) →
     x = s.seen u i q → s.issues u i q = true →
     (target.toNat % 4 ≠ 0 → ∃ t, exec i s = .next t ∧ (s.begun u i q).Traps u.core u.slot 0x05 0 x.pc x.lanes target t) ∧
     (target.toNat % 4 = 0 → (∃ l ∈ lanesOf x.lanes, 8 + x.task.tlm / 8 < (x.b.thread l).depth + 1) →
       ∃ t, exec i s = .next t ∧ (s.begun u i q).Traps u.core u.slot 0x03 0 x.pc x.lanes 0 t) ∧
     (target.toNat % 4 = 0 → (∀ l ∈ lanesOf x.lanes, (x.b.thread l).depth + 1 ≤ 8 + x.task.tlm / 8) →
       (s.passed u i q).spillFault x (x.pushSpills x.lanes) accStore = none →
       ∃ t entry, exec i s = .next t ∧ entry = BitVec.ofNat 64 ((x.pc + 4).toNat % 2 ^ 57 / 4 * 4) ∧
         s.Redirects u i q ((s.passed u i q).spilled x x.lanes entry)
           (fun l y => if l ∈ lanesOf x.lanes then y.pushed entry target else y) Entry.outside t)) ∧
  (∀ (s : State) (u : Cursor) (d : BitVec 2) (v : BitVec 7) (i : Instr) (q : Shape) (x : Ctx), i = .callv d v →
     q = { uni := true, d := d, vs := [v.toNat], srcs := src64 v } → x = s.seen u i q → s.issues u i q = true →
     (x.active = 0 → ∃ t, exec i s = .next t ∧ s.Changes u i q (Band.standAt x.lanes (x.pc + 4)) Entry.outside t) ∧
     (∀ b, (lanesOf x.active).find? (fun l => (x.v64 l v).toNat % 4 ≠ 0) = some b →
       ∃ t, exec i s = .next t ∧ (s.begun u i q).Traps u.core u.slot 0x05 0 x.pc x.lanes (x.v64 b v) t) ∧
     ((∀ l ∈ lanesOf x.active, (x.v64 l v).toNat % 4 = 0) → (∃ l ∈ lanesOf x.active, 8 + x.task.tlm / 8 < (x.b.thread l).depth + 1) →
       ∃ t, exec i s = .next t ∧ (s.begun u i q).Traps u.core u.slot 0x03 0 x.pc x.lanes 0 t) ∧
     (∀ a, (lanesOf x.active).head? = some a → (∀ l ∈ lanesOf x.active, (x.v64 l v).toNat % 4 = 0) →
       (∀ l ∈ lanesOf x.active, (x.b.thread l).depth + 1 ≤ 8 + x.task.tlm / 8) →
       (s.passed u i q).spillFault x (x.pushSpills x.active) accStore = none →
       ∃ t entry first, exec i s = .next t ∧ entry = BitVec.ofNat 64 ((x.pc + 4).toNat % 2 ^ 57 / 4 * 4 + 1) ∧
         first = maskOf ((lanesOf x.active).filter fun l => x.v64 l v = x.v64 a v) ∧
         s.Redirects u i q ((s.passed u i q).spilled x x.active entry)
           (fun l y => if l ∈ lanesOf x.active then y.pushed entry (x.v64 l v)
             else if l ∈ lanesOf x.lanes then { y with hold := .vcall, pc := x.pc + 4, base := x.pc + 4 } else y)
           (fun e => { e with lanes := first, defer := e.defer ||| (x.active &&& ~~~first), ctx := none }) t))

/-! ## Divergence -/

/-- R76: the deferred lanes that resume share the PC and the depth of the lowest of the resumable lanes whose depth is greatest, and
every resumable lane at that PC and depth is among them; while a lane that no wait holds is deferred, none that yielded is
resumable. -/
def Obligations.ResumeGroup : Prop :=
  ∀ (k : Core) (e : Entry) (b : Band) (ok g : List Nat), b = k.band e.slot → ok = lanesOf (k.resumable e) → g = lanesOf (k.resumeGroup e) →
    (∀ l, l ∈ ok ↔ l ∈ lanesOf e.defer ∧ ((b.thread l).mark = .none ∨
      (b.thread l).mark = .yielded ∧ ∀ l' ∈ lanesOf e.defer, (b.thread l').mark ≠ .none)) ∧
    (ok = [] → g = []) ∧
    (ok ≠ [] → ∃ a ∈ ok, (∀ l ∈ ok, (b.thread l).depth ≤ (b.thread a).depth ∧ ((b.thread l).depth = (b.thread a).depth → a ≤ l)) ∧
      ∀ l, l ∈ g ↔ l ∈ ok ∧ (b.thread l).pc = (b.thread a).pc ∧ (b.thread l).depth = (b.thread a).depth)

/-- R84: `split` records the running lanes in its rejoin mask; the lanes whose predicate is 1 go to the target, the others past the
instruction; when both are some, one group keeps the sub-band and the other takes a free entry, or is deferred when there is
none. -/
def Obligations.Split : Prop :=
  ∀ (s : State) (u : Cursor) (d : BitVec 2) (j : BitVec 4) (p : BitVec 3) (off : BitVec 17) (i : Instr) (q : Shape) (x : Ctx)
      (m : State) (taken fall keeps : Word), i = .split d j p off → q = shapeS d [.pAll p.toNat] → x = s.seen u i q →
    s.issues u i q = true → m = s.passed u i q → ((s.core u.core).entry u.entry).wait = .ready →
    taken = maskOf ((lanesOf x.lanes).filter fun l => x.p l p) → fall = x.lanes &&& ~~~taken →
    keeps = (if x.l.det && (lowestLane x.lanes).any fall.getLsbD then fall else taken) →
    ∃ t0 t : State, exec i s = .next t ∧ t = t0.passWaits u.core u.slot none ∧ m.Moves u.core u.slot t0 ∧ m.Moves u.core u.slot t ∧
      let b := (t0.core u.core).band u.slot
      let y := (m.core u.core).band u.slot
      let e := (t0.core u.core).entry u.entry
      let z := (m.core u.core).entry u.entry
      b.j = mapSet y.j j.toNat x.lanes ∧ b.arr = mapDel y.arr j.toNat ∧ b.arrPc = y.arrPc ∧
      (∀ l, (b.thread l).unmarked = (if l ∈ lanesOf taken then
        { y.thread l with pc := x.pc + 4 * off.signExtend 64, base := x.pc + 4 * off.signExtend 64 } else y.thread l).unmarked) ∧
      (taken = 0 → e = z) ∧ (taken ≠ 0 → fall = 0 → e = Entry.outside z) ∧
      (taken ≠ 0 → fall ≠ 0 → match (m.core u.core).freeEntry with
        | some n => e = { z with lanes := keeps, ctx := none } ∧
          (t0.core u.core).entry n = { Entry.fresh with slot := u.slot, lanes := x.lanes &&& ~~~keeps }
        | none => e = { z with lanes := keeps, ctx := none, defer := z.defer ||| (x.lanes &&& ~~~keeps) })

/-- R85 to R87: `join` makes its lanes arrive, whatever arrived before standing at the last arrival's next word; `jwait` goes on or
waits; `jset` and `jget` write and read the mask.
R86: the sub-bands of a band that wait at a `jwait` go on when every other live lane of its mask has arrived, or when the mask
was released; those that do not, and every other sub-band, stay.
R75: a rejoin mask every live lane of which has arrived is released: the arrived lanes stand at the word after the last
arrival's join, held no more, in the entry of the sub-band that completed it if that has no running lane left, else in a free one;
a mask with lanes to come is not. -/
def Obligations.Joins : Prop :=
  (∀ (s : State) (u : Cursor) (d : BitVec 2) (j : BitVec 4) (i : Instr) (q : Shape) (x : Ctx) (m : State), x = s.seen u i q →
     s.issues u i q = true → m = s.passed u i q →
     let y := (m.core u.core).band u.slot
     (i = .join d j → q = shapeS d [] → ∃ t0 t : State, exec i s = .next t ∧
       t = ((t0.releaseJoin u.core u.slot u.entry j.toNat false).passWaits u.core u.slot none).rebalance u.core u.entry ∧
       m.Moves u.core u.slot t0 ∧ m.Moves u.core u.slot t ∧
       let b := (t0.core u.core).band u.slot
       let z := (m.core u.core).entry u.entry
       b.j = y.j ∧ b.arr = mapSet y.arr j.toNat (mapGetD y.arr j.toNat 0 ||| z.lanes) ∧ b.arrPc = mapSet y.arrPc j.toNat (x.pc + 4) ∧
       (∀ l, b.thread l = if l ∈ lanesOf z.lanes then { y.thread l with hold := .join, pc := x.pc + 4, base := x.pc + 4 }
         else if l ∈ lanesOf (mapGetD y.arr j.toNat 0) then { y.thread l with pc := x.pc + 4, base := x.pc + 4 } else y.thread l) ∧
       (t0.core u.core).entry u.entry = { z with lanes := 0, ctx := none }) ∧
     (i = .jwait d j → q = shapeS d [] → ∃ t, exec i s = .next t ∧
       if mapGetD x.b.j j.toNat 0 &&& x.b.live &&& ~~~x.lanes &&& ~~~(mapGetD x.b.arr j.toNat 0) = 0 then s.Changes u i q id id t
       else ∃ t0 : State, t = t0.rebalance u.core u.entry ∧ (s.begun u i q).Moves u.core u.slot t ∧
         (t0.core u.core).entry u.entry = { ((s.begun u i q).core u.core).entry u.entry with wait := .jwait j.toNat } ∧
         ((t0.core u.core).band u.slot).threads = (((s.begun u i q).core u.core).band u.slot).threads) ∧
     (∀ sn, i = .jset d j sn → q = shapeS d [.s sn.toNat] → ∃ t0 t : State, exec i s = .next t ∧
       t = (t0.releaseJoin u.core u.slot u.entry j.toNat true).passWaits u.core u.slot none ∧ t0.Moves u.core u.slot t ∧
       s.Changes u i q (fun b => { b with j := mapSet b.j j.toNat (x.s sn) }) id t0) ∧
     (∀ sn, i = .jget d sn j → q = shapeS d [] → ∃ t, exec i s = .next t ∧
       s.Gives u i q (x.toS sn (mapGetD x.b.j j.toNat 0)) flNone t)) ∧
  (∀ (s : State) (c slot e : Nat) (r : Option Nat) (b : Band) (x : Entry) (j : Nat), b = (s.core c).band slot → x = (s.core c).entry e →
     e ∈ (s.core c).entriesOf slot → ((s.core c).entriesOf slot).Nodup →
     s.Moves c slot (s.passWaits c slot r) ∧
     ((∀ n, x.wait ≠ .jwait n) ∨ x.frozen = true → ((s.passWaits c slot r).core c).entry e = x) ∧
     (x.wait = .jwait j → x.frozen = false →
       if r = some j ∨ mapGetD b.j j 0 &&& b.live &&& ~~~x.lanes &&& ~~~(mapGetD b.arr j 0) = 0 then
         (((s.passWaits c slot r).core c).entry e).wait = .ready ∧ (((s.passWaits c slot r).core c).entry e).lanes = x.lanes
       else ((s.passWaits c slot r).core c).entry e = x)) ∧
  (∀ (s : State) (c slot former j : Nat) (force : Bool) (b : Band) (f : Entry) (g : Word), b = (s.core c).band slot →
     g = mapGetD b.arr j 0 &&& b.live → mapGet (s.core c).table former = some f → f.slot = slot →
     (mapGet (s.core c).bands slot).isSome = true →
     (b.complete j = false ∨ (g = 0 ∧ force = false) → s.releaseJoin c slot former j force = s) ∧
     (b.complete j = true → g ≠ 0 → (f.lanes = 0 ∨ (s.core c).freeEntry.isSome = true) →
       ∃ t, s.releaseJoin c slot former j force = t.passWaits c slot (some j) ∧ s.Moves c slot t ∧
         ((t.core c).band slot).arr = mapDel b.arr j ∧ ((t.core c).band slot).j = b.j ∧
         (∀ l, ((t.core c).band slot).thread l = if l ∈ lanesOf g then
           { b.thread l with pc := mapGetD b.arrPc j 0, base := mapGetD b.arrPc j 0, hold := .none, mark := .none } else b.thread l) ∧
         if f.lanes = 0 then (t.core c).entry former = { f with lanes := g, wait := .ready, ctx := none, age := 0, skipBp := false }
         else ∃ n, (s.core c).freeEntry = some n ∧ (t.core c).entry n = { Entry.fresh with slot := slot, lanes := g, frozen := f.frozen }))

/-- R77, R83: `ret` with an entry in every running lane pops it and goes to its address; a lane whose entry came from a `callv` is
held there; the lowest lane that is not, and those that return to the same address with it, run on. An entry that cannot be read is
a machine check. A lane at depth 0 exits. -/
def Obligations.Return : Prop :=
  ∀ (s : State) (u : Cursor) (d : BitVec 2) (i : Instr) (q : Shape) (x : Ctx) (r : State × Nat × List (Nat × BitVec 64)),
    i = .ret d → q = shapeS d [] → x = s.seen u i q → s.issues u i q = true → ((s.core u.core).entry u.entry).wait = .ready →
    r = (s.passed u i q).readEntries x → (s.passed u i q).spillFault x x.popSpills accLoad = none →
    (r.2.1 ≠ 0 → ∃ t, exec i s = .next t ∧ (s.begun u i q).Traps u.core u.slot 0x0C r.2.1 x.pc x.lanes (x.popSpills.headD (0, 0)).2 t) ∧
    (r.2.1 = 0 → (∀ l ∈ lanesOf x.lanes, (x.b.thread l).depth ≠ 0) → ∃ t0 t : State, exec i s = .next t ∧
      t = (t0.releaseCalls u.core u.slot u.entry).rebalance u.core u.entry ∧ r.1.Moves u.core u.slot t0 ∧ r.1.Moves u.core u.slot t ∧
      (∀ l, (((t0.core u.core).band u.slot).thread l).unmarked =
        let y := ((r.1.core u.core).band u.slot).thread l
        let a := x.topEntry r.2.2 l
        if l ∈ lanesOf x.lanes then
          { y with depth := (x.b.thread l).depth - 1, pc := stackPc a, base := stackPc a,
                   hold := if a.getLsbD 0 then .vcall else .none, mark := .none } else y.unmarked) ∧
      ((t0.core u.core).entry u.entry).lanes =
        let free := (lanesOf x.lanes).filter fun l => !(x.topEntry r.2.2 l).getLsbD 0
        match free with
        | [] => 0
        | a :: _ => maskOf (free.filter fun l => stackPc (x.topEntry r.2.2 l) = stackPc (x.topEntry r.2.2 a))) ∧
    (r.2.1 = 0 → ∃ t, exec i s = .next t ∧ KeepsStorage r.1 t ∧
      ∀ l ∈ lanesOf x.lanes, (x.b.thread l).depth = 0 → (((t.core u.core).band u.slot).thread l).exited = true)

/-- R76, R88: `yield` with no deferred lane that may resume only goes past the instruction; else its lanes are deferred as yielded and
a group of R76 runs in their place. The turn goes to the next competing sub-band. -/
def Obligations.Yield : Prop :=
  ∀ (s : State) (u : Cursor) (d : BitVec 2) (i : Instr) (q : Shape) (x : Ctx) (m : State), i = .yield d → q = shapeS d [] →
    x = s.seen u i q → s.issues u i q = true → m = s.passed u i q → ∃ t0 t : State, exec i s = .next t ∧ m.Moves u.core u.slot t ∧
      t = t0.updBand u.core u.slot (fun b => { b with turn := (t0.core u.core).nextTurn u.slot ((lowestLane x.lanes).getD 0) }) ∧
      let z := (m.core u.core).entry u.entry
      if (m.core u.core).resumable z = 0 then t0 = m else
        let b := ((m.core u.core).band u.slot).updThreads x.lanes fun _ y => { y with mark := .yielded }
        ∃ g, g = ((m.core u.core).updBand u.slot fun _ => b).resumeGroup z ∧
          (t0.core u.core).entry u.entry = { z with lanes := g, defer := (z.defer ||| x.lanes) &&& ~~~g, wait := .ready, ctx := none, age := 0 } ∧
          ∀ l, ((t0.core u.core).band u.slot).thread l = if l ∈ lanesOf g then (b.thread l).unmarked else b.thread l

/-- R50, R55, R56: a clause header whose completion flags can take its instructions stands its sub-band at the first of them, in the
clause; else it is trap 0x02 at the header. -/
def Obligations.ClauseHeaders : Prop :=
  ∀ (s : State) (u : Cursor) (w : BitVec 12) (a b : BitVec 4) (p : BitVec 3) (n : Bool) (c : BitVec 3) (th : Thread)
      (ws : List (BitVec 64 × Word × Word)) (y : Band) (z : Entry) (is : List Instr), s.stands u = true →
    y = (s.core u.core).band u.slot → z = (s.core u.core).entry u.entry → th = y.thread ((lowestLane z.lanes).getD 0) →
    clauseWords (fun a => (s.core u.core).codeWord (s.pdOf u.core u.slot) a false) (c.toNat + 1) (th.base + 4) = .ok ws → ws ≠ [] →
    th.pc = th.base → is = ws.map (fun w => instrOf w.2.1 w.2.2) →
    ∃ m t : State, exec (.clause w a b p n c) s = .next t ∧ (∀ d, { m.core d with ibuf := [] } = { s.core d with ibuf := [] }) ∧
      m.outside = s.outside ∧
      if y.headerOk a b (is.filter (·.memClass)).length (is.filter (·.longClass)).length then
        m.Moves u.core u.slot t ∧
        (t.core u.core).entry u.entry = { z with ctx := some ⟨w, a, b, p, n, ws.length, false, false⟩ } ∧
        ∀ l, ((t.core u.core).band u.slot).thread l =
          if l ∈ lanesOf z.lanes then { y.thread l with pc := (ws.headD (0, 0, 0)).1, base := th.base } else y.thread l
      else m.Traps u.core u.slot 0x02 0 th.base z.lanes th.base t

/-- R94, R294, R295, R309: `exit` ends the running lanes; in keep mode it, `exit_succ`, which names the task's successor, and `halt`,
which ends without a release, end every thread of the band. -/
def Obligations.Exits : Prop :=
  ∀ (s : State) (u : Cursor) (d : BitVec 2) (i : Instr) (q : Shape) (x : Ctx) (m : State), x = s.seen u i q → s.issues u i q = true →
    m = s.passed u i q →
    (i = .exit d → q = shapeS d [] → x.keep = false → ∃ t, exec i s = .next t ∧ KeepsStorage m t ∧
      ∀ l ∈ lanesOf x.lanes, (((t.core u.core).band u.slot).thread l).exited = true) ∧
    (u.entry = 256 + u.slot → x.keep = true →
      (i = .exit d → q = shapeS d [] → ∃ t, exec i s = .next t ∧ KeepsStorage m t ∧
        ∀ l < 32, (((t.core u.core).band u.slot).thread l).exited = true) ∧
      (∀ sn, i = .exitSucc d sn → q = { shapeS d (sSrc64 sn) with priv := true } → (mapGet (s.core u.core).tasks x.t).isSome = true →
        ∃ t, exec i s = .next t ∧ KeepsStorage (m.updTask u.core x.t fun y => { y with succ := some (x.s64 sn) }) t ∧
          ((t.core u.core).task x.t).succ = some (x.s64 sn) ∧
          ∀ l < 32, (((t.core u.core).band u.slot).thread l).exited = true) ∧
      (i = .halt d → q = { shapeS d [] with priv := true } →
        ∃ t, exec i s = .next t ∧ KeepsStorage (m.updBand u.core u.slot fun b => { b with halted := true }) t ∧
          ((t.core u.core).band u.slot).halted = true ∧
          ∀ l < 32, (((t.core u.core).band u.slot).thread l).exited = true))

/-! ## System registers, keep mode and the save area -/

/-- R302, R310, R311: `gen` gives the task's generation; `rsys` gives a system register, a pair for a 64-bit one. -/
def Obligations.SystemReads : Prop :=
  ∀ (s : State) (u : Cursor) (d : BitVec 2) (sn : BitVec 6) (i : Instr) (q : Shape) (x : Ctx), x = s.seen u i q → s.issues u i q = true →
    (i = .gen d sn → q = shapeS d [] → ∃ t, exec i s = .next t ∧ s.Gives u i q (x.toS sn (x.gen.setWidth 32)) flNone t) ∧
    (∀ n v, i = .rsys d sn n → q = { shapeS d [] with priv := sysPrivileged n } → v = x.sysValue n →
      ∃ t, exec i s = .next t ∧
        s.Gives u i q (if sysWide n = some true then x.toS64 sn v else x.toS sn (v.setWidth 32)) flNone t) ∧
    x.sysValue 0x000 = BitVec.ofNat 64 x.task.number ∧ x.sysValue 0x001 = BitVec.ofNat 64 x.b.index ∧
    x.sysValue 0x002 = (x.task.par.setWidth 32).setWidth 64 ∧ x.sysValue 0x003 = x.task.par >>> 32 ∧
    x.sysValue 0x005 = BitVec.ofNat 64 x.task.variant ∧ x.sysValue 0x007 = BitVec.ofNat 64 u.core ∧
    x.sysValue 0x008 = x.task.tlbase ∧ x.sysValue 0x009 = x.task.tlstride.setWidth 64 ∧
    x.sysValue 0x010 = (x.b.rm.setWidth 64 ||| if x.l.ftz then 8 else 0) ∧ x.sysValue 0x011 = x.b.fflags.setWidth 64 ∧
    x.sysValue 0x012 = x.b.mshape.setWidth 64 ∧ x.sysValue 0x013 = x.task.done ∧ x.sysValue 0x020 = x.b.kcause.setWidth 64 ∧
    x.sysValue 0x021 = x.b.kpc ∧ x.sysValue 0x022 = x.b.klanes.setWidth 64 ∧ x.sysValue 0x023 = x.b.kaddr ∧
    x.sysValue 0x024 = x.task.ksave ∧ x.sysValue 0x025 = x.task.kvec

/-- R296, R308: `phase` at the address of the task's open phase end, or at none open, records its lanes as arrived there, with the
word of the lowest lane of the lowest band that has arrived, and waits; the phase end then moves on if it can. At another address
it is trap 0x07 with detail 2, and in keep mode with detail 4. -/
def Obligations.Phases : Prop :=
  ∀ (s : State) (u : Cursor) (d : BitVec 2) (sn : BitVec 6) (i : Instr) (q : Shape) (x : Ctx) (p : PhaseEnd), i = .phase d sn →
    q = shapeS d [.s sn.toNat] → x = s.seen u i q → s.issues u i q = true →
    p = x.task.phase.getD ⟨x.pc, [], 0, 0, false, false, none, 0⟩ →
    (x.keep = true → ∃ t, exec i s = .next t ∧ (s.begun u i q).Traps u.core u.slot 0x07 4 x.pc x.lanes 0 t) ∧
    (x.keep = false → p.pc ≠ x.pc → ∃ t, exec i s = .next t ∧ (s.begun u i q).Traps u.core u.slot 0x07 2 x.pc x.lanes 0 t) ∧
    (x.keep = false → p.pc = x.pc → (mapGet (s.core u.core).tasks x.t).isSome = true →
      ∃ (t0 t : State) (p' : PhaseEnd), exec i s = .next t ∧ t = t0.tryPhase u.core x.t ∧ s.Waits u i q .phase t0 ∧
      (t0.core u.core).task x.t = { x.task with phase := some p' } ∧
      p'.pc = x.pc ∧ p'.arrived = mapSet p.arrived x.b.index (mapGetD p.arrived x.b.index 0 ||| x.lanes) ∧
      (let me := 32 * x.b.index + (lowestLane x.lanes).getD 0
       if p.arrived = [] ∨ me < p.best then p'.word = x.s sn ∧ p'.best = me else p'.word = p.word ∧ p'.best = p.best) ∧
      ((∃ n < x.task.nbands, (t0.core u.core).bandLive x.t n &&& ~~~(mapGetD p'.arrived n 0) ≠ 0) → t = t0))

/-- R111, R310 to R312: `wsys` writes its register; the address registers take aligned values only, a misaligned one being trap 0x05;
`sys.klanes` takes lanes that have not exited; `sys.ibinv` makes every line in its range stale in every core's buffer. -/
def Obligations.SystemWrites : Prop :=
  ∀ (s : State) (u : Cursor) (d : BitVec 2) (sn : BitVec 6) (n : BitVec 12) (i : Instr) (q : Shape) (x : Ctx) (w : Bool) (v : BitVec 64),
    i = .wsys d sn n → w = (sysWide n).getD false →
    q = { shapeS d (if w then sSrc64 sn else [.s sn.toNat]) with
      priv := sysPrivileged n, pre := fun x => if sysReadOnly n x.keep then some 0x01 else none } →
    x = s.seen u i q → s.issues u i q = true → v = (if w then x.s64 sn else (x.s sn).setWidth 64) →
    ((n = 0x021 ∨ n = 0x025) → v.toNat % 4 ≠ 0 → ∃ t, exec i s = .next t ∧ (s.begun u i q).Traps u.core u.slot 0x05 0 x.pc x.lanes v t) ∧
    (¬((n = 0x021 ∨ n = 0x025) ∧ v.toNat % 4 ≠ 0) → ∃ t0 t : State, exec i s = .next t ∧ t = t0.commit u.core u.slot x.now ∧
      (n = 0x010 → s.Changes u i q (fun b => { b with rm := v.setWidth 2 }) id t0) ∧
      (n = 0x011 → s.Changes u i q (fun b => { b with fflags := v.setWidth 5 }) id t0) ∧
      (n = 0x012 → s.Changes u i q (fun b => { b with mshape := v.setWidth 32 &&& 0x0FFF003F#32 }) id t0) ∧
      (n = 0x021 → s.Changes u i q (fun b => { b with kpc := v, kpcSet := true }) id t0) ∧
      (n = 0x022 → s.Changes u i q (fun b => { b with klanes := v.setWidth 32 &&& b.live }) id t0) ∧
      (n = 0x025 → (mapGet (s.core u.core).tasks x.t).isSome = true →
        (t0.core u.core).task x.t = { ((s.passed u i q).core u.core).task x.t with kvec := v } ∧
        (∀ e, e ≠ x.t → (t0.core u.core).task e = ((s.passed u i q).core u.core).task e) ∧
        (∀ c, { t0.core c with tasks := [] } = { (s.passed u i q).core c with tasks := [] }) ∧ t0.outside = s.outside) ∧
      (n = 0x014 → (∀ c, ∀ l ∈ (t0.core c).ibuf, ibinvHits v l = true → l.stale = true) ∧ t0.outside = s.outside ∧
        ∀ c, (fun (y z : Core) => y.bands = z.bands ∧ y.tasks = z.tasks ∧ { y.rest with ibuf := [] } = { z.rest with ibuf := [] })
          (t0.core c) ((s.passed u i q).core c)))

/-- R307: `kret` returns from keep mode, but a restored band that has not restored its own state ends the task with kind 6. A band
that leaves keep mode has its threads and sub-bands as they were frozen, but for threads that exited in keep mode; with a trapping
sub-band, the live lanes of `sys.klanes` stand at `sys.kpc` as its lanes, and no other sub-band holds them. -/
def Obligations.KeepReturn : Prop :=
  (∀ (s : State) (u : Cursor) (d : BitVec 2) (i : Instr) (q : Shape) (x : Ctx), i = .kret d → q = { shapeS d [] with priv := true } →
    x = s.seen u i q → s.issues u i q = true →
    if x.b.kcause = 0x30E ∧ x.b.restored = false then (mapGet (s.core u.core).tasks x.t).isSome = true →
      ∃ t, exec i s = .next t ∧ (s.passed u i q).Ends u.core x.t 6 0 0 t
    else exec i s = .next ((s.passed u i q).returnFrom u.core u.slot)) ∧
  (∀ (s : State) (c slot : Nat) (b : Band) (k : Core), k = s.core c → b = k.band slot → (mapGet k.bands slot).isSome = true →
    (∀ n x, b.ktrap = some n → (n, x) ∈ k.table → x.slot = slot) → ∃ t0 : State, t0.Moves c slot (s.leaveKeep c slot) ∧
      let z := (t0.core c).band slot
      let g := match b.ktrap with
        | some _ => b.klanes &&& z.live
        | none => 0
      z.keep = false ∧ z.frozen = [] ∧
      (∀ l y, l < 32 → mapGet b.frozen l = some y → (z.thread l).exited = (y.exited || (b.thread l).exited) ∧
        if l ∈ lanesOf g then (z.thread l).pc = b.kpc ∧ (z.thread l).hold = .none ∧ (z.thread l).mark = .none ∧ (z.thread l).parked = false
        else z.thread l = { y with exited := y.exited || (b.thread l).exited, last := (b.thread l).last }) ∧
      (∀ e x, mapGet k.table e = some x → x.slot ≠ slot → mapGet (t0.core c).table e = some x) ∧
      (∀ e x, mapGet k.table e = some x → x.slot = slot → x.frozen = true →
        ∃ w, mapGet (t0.core c).table e = some w ∧ w.frozen = false ∧ w.slot = slot ∧
          if b.ktrap = some e then w.lanes = g ∧ w.wait = .ready ∧ w.ctx = none else
            w = { x with frozen := false, lanes := x.lanes &&& ~~~g, defer := x.defer &&& ~~~g }) ∧
      (∀ e w, mapGet (t0.core c).table e = some w → w.slot = slot → ∃ x, (e, x) ∈ k.table ∧ x.slot = slot ∧ x.frozen = true) ∧
      KeepsRegs s t0 c slot [] ∧ KeepsMemory s t0 ∧ t0.outside = s.outside ∧ (∀ d n, ¬(d = c ∧ n = slot) → (t0.core d).band n = (s.core d).band n))

/-- R314, R318, R319: `svc` stores the record of its class in 64-byte pieces, and `rsc` reads one and installs it; both move the
register pair past the record. A record at an address that is not a multiple of 64 is trap 0x05, one that the band does not fit
trap 0x06, and one that cannot be read trap 0x0C, before any effect. -/
def Obligations.SaveRestore : Prop :=
  ∀ (s : State) (u : Cursor) (d : BitVec 2) (c : BitVec 4) (y : BitVec 6) (i : Instr) (q : Shape) (x : Ctx) (m : State) (a : BitVec 64)
      (size : Nat), q = { shapeS d (sSrc64 y) with priv := true, mem := true } → x = s.seen u i q → s.issues u i q = true →
    m = s.passed u i q → a = x.s64 y → size = (x.task.recShape c.toNat).size →
    ((i = .svc d c y ∨ i = .rsc d c y) → a.toNat % 64 ≠ 0 →
      ∃ t, exec i s = .next t ∧ (s.begun u i q).Traps u.core u.slot 0x05 0 x.pc x.lanes a t) ∧
    (i = .svc d c y → ∀ l, recPages x m a size accUStore = .ok l → m.quiescent x.recAt c.toNat = true → recWaits x l = false →
      (m.core u.core).clearOf u.slot (recAcc l) 64 → ∃ t, exec i s = .next t ∧
        (m.storesRecord x l (m.record x.recAt c.toNat)).Puts u.core u.slot x.gen (x.toS64 y (a + BitVec.ofNat 64 size)) t) ∧
    (i = .rsc d c y → ∀ l, recPages x m a size accULoad = .ok l → recWaits x l = false →
      (m.core u.core).clearOf u.slot (recAcc l) 64 → ∀ r, r = m.readRecord x l →
      (r.2.1 = 0 → r.1.headerFits x.recAt c.toNat r.2.2 = true → (c = 7 → x.task.sameTask r.2.2 = true) → ∃ t m1, exec i s = .next t ∧
        m1 = r.1.putRecord x.recAt c.toNat r.2.2 ∧ ((mapGet (m1.core u.core).bands u.slot).isSome = true →
        m1.Puts u.core u.slot x.gen (x.toS64 y (a + BitVec.ofNat 64 size)) t)) ∧
      (r.2.1 = 0 → ¬(r.1.headerFits x.recAt c.toNat r.2.2 = true ∧ (c = 7 → x.task.sameTask r.2.2 = true)) →
        ∃ t, exec i s = .next t ∧ (s.begun u i q).Traps u.core u.slot 0x06 0 x.pc x.lanes a t) ∧
      (r.2.1 ≠ 0 → ∃ t, exec i s = .next t ∧ (s.begun u i q).Traps u.core u.slot 0x0C r.2.1 x.pc x.lanes a t))

/-! ## Cross-lane operations and synchronisation -/

/-- R188 to R199: a cross-lane instruction of a sub-band with no member does nothing; an exited member is trap 0x07 with detail 1, an
arrival that differs from the open operation the same trap with detail 2. Any other arrival is recorded with its values; it waits for
the other members, or, as the last, closes the operation, whose results are on their way, and lets the other members go on. -/
def Obligations.CrossLane : Prop :=
  ∀ (s : State) (u : Cursor) (i : Instr) (f : CrossForm) (q : Shape) (x : Ctx) (m : Word) (y : XOp), crossForm i = some f →
    q = { uni := false, d := f.o.d, words := 2, vs := f.vs, srcs := [] } → x = s.seen u i q → s.issues u i q = true →
    m = x.members f.o → x.broughtOk f m → y = x.join i m (f.bring x) →
    (x.lanes &&& m = 0 → ∃ t, exec i s = .next t ∧ s.Changes u i q id id t) ∧
    (x.lanes &&& m ≠ 0 → m &&& ~~~x.b.live ≠ 0 →
      ∃ t, exec i s = .next t ∧ (s.begun u i q).Traps u.core u.slot 0x07 1 x.pc x.lanes 0 t) ∧
    (x.lanes &&& m ≠ 0 → m &&& ~~~x.b.live = 0 → x.mismatch i m = true →
      ∃ t, exec i s = .next t ∧ (s.begun u i q).Traps u.core u.slot 0x07 2 x.pc x.lanes 0 t) ∧
    (x.lanes &&& m ≠ 0 → m &&& ~~~x.b.live = 0 → x.mismatch i m = false →
      (y.arrived = m → ∃ t0 t : State, exec i s = .next t ∧
        t = (if m &&& ~~~x.lanes = 0 then t0 else t0.passBlock u.core u.slot (m &&& ~~~x.lanes) 2 false) ∧
        t0.Moves u.core u.slot t ∧ ((t0.core u.core).band u.slot).xop = none ∧ s.GivesLater u i q 8 (f.result x y).1 (f.result x y).2 t0) ∧
      (y.arrived ≠ m → ∃ t0 t : State, exec i s = .next t ∧ t = t0.rebalance u.core u.entry ∧ t0.Moves u.core u.slot t ∧
        ((t0.core u.core).band u.slot).xop = some y ∧ s.Waits u i q .member t0 ∧ KeepsSystem (s.begun u i q) t0))

/-- R256: each fence starts its operation and holds its sub-band until that completes. -/
def Obligations.Fences : Prop :=
  ∀ (s : State) (u : Cursor) (d : BitVec 2) (i : Instr) (k : FKind) (q : Shape) (x : Ctx),
    (i, k) ∈ [(.rel d, .release .plain .fence), (.acq d, .acquire), (.sync d, .release .plain .sync), (.xrel d, .release .xrel .fence),
      (.xrelDram d, .release .dram .fence)] → q = shapeS d [] → x = s.seen u i q → s.issues u i q = true →
    ∃ t n, exec i s = .next t ∧ n = ((s.begun u i q).core u.core).nextOp ∧ s.Waits u i q (.op n) t ∧ KeepsSystem (s.begun u i q) t ∧
      (t.core u.core).flights = mapSet ((s.begun u i q).core u.core).flights n ⟨u.slot, x.gen, x.lanes, none, k⟩

/-- R203 to R205: `bar` and `arrive` record the participant word and their lanes at the barrier it names, and start the release of the
arrival; `bar` waits for the phase. A group that the task may not use is trap 0x07 with detail 3, another participant word the same
trap with detail 2; lanes that have arrived in the phase wait to arrive again.
R204, R205, R207: `barw` waits while the phase of its band's last arrival is open, and else passes with the acquire; `gmask` gives
the status of a group. -/
def Obligations.Barriers : Prop :=
  (∀ (s : State) (u : Cursor) (d : BitVec 2) (g : BitVec 8) (sn : BitVec 6) (i : Instr) (q : Shape) (x : Ctx) (w : Word) (gid : Nat)
       (b : TaskBar) (wait : Bool), (i, wait) ∈ [(.bar d g sn, true), (.arrive d g sn, false)] → q = shapeS d [.s sn.toNat] →
     x = s.seen u i q → s.issues u i q = true → w = x.s sn →
     gid = (if w.msb = false then g.toNat else if x.keep then 257 else 256) → b = x.task.barOf gid →
     (gid < 256 → x.l.usable gid x.task.number = false →
       ∃ t, exec i s = .next t ∧ (s.begun u i q).Traps u.core u.slot 0x07 3 x.pc x.lanes 0 t) ∧
     ((gid < 256 → x.l.usable gid x.task.number = true) →
       let named := w.getLsbD x.b.index
       (named = true → mapGetD b.arrived x.b.index 0 &&& x.lanes ≠ 0 →
         ∃ t, exec i s = .next t ∧ s.Waits u i q (.again gid) t ∧ KeepsSystem (s.begun u i q) t) ∧
       (¬(named = true ∧ mapGetD b.arrived x.b.index 0 &&& x.lanes ≠ 0) →
         (∀ w', b.part = some w' → w' ≠ w → ∃ t, exec i s = .next t ∧ (s.begun u i q).Traps u.core u.slot 0x07 2 x.pc x.lanes 0 t) ∧
         ((b.part = none ∨ b.part = some w) → (mapGet (s.core u.core).tasks x.t).isSome = true → ∃ t phase n, exec i s = .next t ∧
           phase = (s.begun u i q).openPhase u.core x.t gid ∧ n = ((s.begun u i q).core u.core).nextOp ∧
           (wait = true → s.Waits u i q (.bar gid phase) t) ∧ (wait = false → KeepsAll (s.passed u i q) t) ∧
           (t.core u.core).task x.t = x.task.setBar gid { b with
             part := some w, arrived := if named then mapSet b.arrived x.b.index (mapGetD b.arrived x.b.index 0 ||| x.lanes) else b.arrived } ∧
           (named = true → gid < 256 → ((t.core u.core).band u.slot).bars = mapSet x.b.bars gid ⟨w, phase, true⟩) ∧
           (t.core u.core).flights = mapSet ((s.begun u i q).core u.core).flights n
             ⟨u.slot, x.gen, x.lanes, none, .release .plain (.arrive gid w phase wait)⟩)))) ∧
  (∀ (s : State) (u : Cursor) (d : BitVec 2) (g : BitVec 8) (i : Instr) (q : Shape) (x : Ctx), q = shapeS d [] → x = s.seen u i q →
     s.issues u i q = true →
     (i = .barw d g → let b := mapGetD x.b.bars g.toNat BarState.fresh
       (x.l.usable g.toNat x.task.number = false → ∃ t, exec i s = .next t ∧ (s.begun u i q).Traps u.core u.slot 0x07 3 x.pc x.lanes 0 t) ∧
       (x.l.usable g.toNat x.task.number = true → b.ever = true → b.last = (s.begun u i q).openPhase u.core x.t g.toNat →
         ∃ t, exec i s = .next t ∧ s.Waits u i q (.barw g.toNat) t ∧ KeepsSystem (s.begun u i q) t) ∧
       (x.l.usable g.toNat x.task.number = true → ¬(b.ever = true ∧ b.last = (s.begun u i q).openPhase u.core x.t g.toNat) →
         ∃ t, exec i s = .next t ∧ t = (s.passed u i q).selfInvalidate u.core ∧ ∀ l ∈ (t.core u.core).l1, l.valid = false ∧ l.dirty ≠ 0)) ∧
     (∀ sd, i = .gmask d g sd → ∃ t w, exec i s = .next t ∧ s.Gives u i q (x.toS sd w) flNone t ∧
       w.getLsbD 0 = (mapGet x.l.groups g.toNat).isSome ∧ w.getLsbD 1 = (x.l.group g.toNat).members.contains x.task.number ∧
       w.getLsbD 2 = (x.l.group g.toNat).cores ∧ (w.extractLsb' 3 13) = 0 ∧
       (w.extractLsb' 16 16).toNat = min 0xFFFF (((x.l.group g.toNat).members.idxOf? x.task.number).getD 0)))

/-! ## Queues, tags and the matrix unit -/

/-- R211, R212, R216, R218, R219: a `qpush` that R212 refuses is trap 0x0D with its detail; at a full queue register it waits; else
its command joins the queue, counted at its tag, and its release starts. A `qpop` from a register bound to no ingest port is trap
0x0D; else it starts an operation that holds up flag A. `qfence` names the older commands of its queue registers.
R210, R220, R221: `twany` and `twall` start a wait on the tags of a mask, which `Task.waitDone` says is over; `tffr` gives the
lowest done tag of a mask, or 64, `tget` all done tags, and `tclr` clears tags and their fault bits. A wait for any tag is over when a
tag of the mask is done or none is busy, a wait for all when none is busy. -/
def Obligations.QueuesAndTags : Prop :=
  (∀ (s : State) (u : Cursor) (d : BitVec 2) (g : BitVec 4) (sn : BitVec 6) (n : BitVec 3) (i : Instr) (q : Shape) (x : Ctx) (qr : Queue),
     x = s.seen u i q → s.issues u i q = true → (mapGet (s.core u.core).tasks x.t).isSome = true →
     qr = mapGetD x.task.queues g.toNat Queue.fresh →
     (i = .qpush d g sn n → q = { shapeS d ((List.range (n.toNat + 1)).map fun j => .s (sn.toNat + j)) with mem := true } →
       ∀ m : Cmd, m = ⟨(List.range (n.toNat + 1)).map fun j => (x.readS (sn.toNat + j)).1, x.task.pushes, x.slot,
           (if (headOf (x.readS sn.toNat).1).op = 5 then mapGetD x.task.inst
             (Cmd.group ⟨(List.range (n.toNat + 1)).map fun j => (x.readS (sn.toNat + j)).1, 0, 0, 0, 0, false⟩) 0 else 0), x.pc, false⟩ →
       (∀ k, pushDetail x.l x.task qr.port (n.toNat + 1) m = some k → ∃ t, exec i s = .next t ∧
         (s.begun u i q).Traps u.core u.slot 0x0D ((if m.head.tagged then 64 * m.head.tag else 32) + k) x.pc x.lanes 0 t) ∧
       (qr.port = 0 → pushDetail x.l x.task qr.port (n.toNat + 1) m = some 1) ∧
       (pushDetail x.l x.task qr.port (n.toNat + 1) m = none → 16 ≤ qr.cmds.length →
         exec i s = .next (s.updEntry u.core u.entry fun e => { e with wait := .stalled })) ∧
       (pushDetail x.l x.task qr.port (n.toNat + 1) m = none → qr.cmds.length < 16 → ∃ t : State, exec i s = .next t ∧
         KeepsAll (s.passed u i q) t ∧ (t.core u.core).flights = mapSet ((s.passed u i q).core u.core).flights
           ((s.passed u i q).core u.core).nextOp ⟨u.slot, x.gen, x.lanes, none, .release .plain (.push g.toNat m.num)⟩ ∧
         (t.core u.core).task x.t = { x.task with
           pushes := x.task.pushes + 1
           queues := mapSet x.task.queues g.toNat { qr with cmds := qr.cmds ++ [m] }
           busy := if m.head.tagged then mapSet x.task.busy m.head.tag (mapGetD x.task.busy m.head.tag 0 + 1) else x.task.busy
           inst := if m.head.op = 5 then mapSet x.task.inst m.group (m.inst + 1) else x.task.inst })) ∧
     (i = .qpop d sn g → q = shapeS d [] →
       (qr.port = 0 → ∃ t, exec i s = .next t ∧ (s.begun u i q).Traps u.core u.slot 0x0D 33 x.pc x.lanes 0 t) ∧
       (qr.port ≠ 0 → qr.port ≠ 6 → ∃ t, exec i s = .next t ∧ (s.begun u i q).Traps u.core u.slot 0x0D 34 x.pc x.lanes 0 t) ∧
       (qr.port = 6 → ∃ t, exec i s = .next t ∧ s.Starts u i q x.lanes (flagOf x.cl.seta)
         (.qpop g.toNat (x.sAt sn) x.pc (x.b.thread ((lowestLane x.lanes).getD 0)).base) t)) ∧
     (i = .qfence d sn → q = shapeS d [.s sn.toNat] →
       let unbound := ∃ r < 16, (x.s sn).getLsbD r = true ∧ (mapGetD x.task.queues r Queue.fresh).port = 0
       (unbound → ∃ t, exec i s = .next t ∧ (s.begun u i q).Traps u.core u.slot 0x0D 33 x.pc x.lanes 0 t) ∧
       (¬unbound → ∃ t : State, exec i s = .next t ∧ KeepsAll (s.passed u i q) t ∧ (t.core u.core).flights = ((s.passed u i q).core u.core).flights ∧
         (t.core u.core).task x.t = { x.task with fences := x.task.fences ++
           if (x.s sn) &&& 0xFFFF#32 = 0 then [] else [⟨(x.s sn) &&& 0xFFFF#32, x.task.pushes⟩] }))) ∧
  ((∀ (s : State) (u : Cursor) (d : BitVec 2) (sn m : BitVec 6) (i : Instr) (q : Shape) (x : Ctx) (v : BitVec 64),
     x = s.seen u i q → s.issues u i q = true → v = x.s64 m →
     (i = .twany d sn m → q = shapeS d (sSrc64 m) →
       ∃ t, exec i s = .next t ∧ s.Starts u i q x.lanes (flagOf x.cl.seta) (.tagWait false v (x.sAt sn) (x.task.waitDone false v)) t) ∧
     (i = .twall d m → q = shapeS d (sSrc64 m) →
       ∃ t, exec i s = .next t ∧ s.Starts u i q x.lanes (flagOf x.cl.seta) (.tagWait true v .nowhere (x.task.waitDone true v)) t) ∧
     (i = .tffr d sn m → q = shapeS d (sSrc64 m) → ∃ t n, exec i s = .next t ∧ n ≤ 64 ∧
       (n < 64 → v.getLsbD n = true ∧ x.task.done.getLsbD n = true) ∧ (∀ j < n, (v &&& x.task.done).getLsbD j = false) ∧
       (if n = 64 then s.passed u i q else (s.passed u i q).selfInvalidate u.core).Puts u.core u.slot x.gen (x.toS sn (BitVec.ofNat 32 n)) t) ∧
     (i = .tget d sn → q = shapeS d [] → ∃ t, exec i s = .next t ∧ s.Gives u i q (x.toS64 sn x.task.done) flNone t) ∧
     (i = .tclr d m → q = shapeS d (sSrc64 m) → (mapGet (s.core u.core).tasks x.t).isSome = true →
       ∃ t : State, exec i s = .next t ∧ KeepsAll (s.passed u i q) t ∧ (t.core u.core).flights = ((s.passed u i q).core u.core).flights ∧
         (t.core u.core).task x.t = { x.task with done := x.task.done &&& ~~~v, fault := x.task.fault &&& ~~~v })) ∧
   (∀ (y : Task) (all : Bool) (v : BitVec 64),
     (y.waitDone all v).isSome = true ↔ (∀ j < 64, v.getLsbD j = true → mapGetD y.busy j 0 = 0) ∨
       all = false ∧ ∃ j < 64, v.getLsbD j = true ∧ y.done.getLsbD j = true))

/-- R9, R265, R266, R282, R290, R292: `tzero`, `tmov`, `azero` and `amov` write the 64 rows of a tile or an accumulator with their tags,
and an accumulator's status word, whose STOP and PROG become 0; nothing else differs. They wait for earlier instructions of the class
that they may not pass; under `.gentrap`, a source row of another generation is trap 0x04. -/
def Obligations.TilesAndAccumulators : Prop :=
  ∀ (s : State) (u : Cursor) (d : BitVec 2) (a b : BitVec 5) (sn : BitVec 6) (i : Instr) (q : Shape) (x : Ctx) (m : State) (w : MatSet),
    x = s.seen u i q → s.issues u i q = true → m = s.passed u i q →
    ((i = .tzero d a ∧ q = { shapeS d [] with ts := [a.toNat] } ∧ w = { wt := [a.toNat] }) ∨
      (i = .tmov d a b ∧ q = { shapeS d [] with ts := [a.toNat, b.toNat] } ∧ w = { rt := [b.toNat], wt := [a.toNat] }) ∨
      (i = .azero d a ∧ q = { shapeS d [] with as := [a.toNat] } ∧ w = { wa := [a.toNat] }) ∨
      (i = .amov d a b ∧ q = { shapeS d [] with as := [a.toNat, b.toNat] } ∧ w = { ra := [b.toNat], wa := [a.toNat] }) →
      (x.k.matBlocked u.core x.t w = true → exec i s = .next (s.updEntry u.core u.entry fun e => { e with wait := .stalled })) ∧
      (x.k.matBlocked u.core x.t w = false → x.l.gentrap = true →
        ((i = .tmov d a b ∧ ∃ r < 64, (x.k.tileRow x.task b.toNat r).2.2 = false) ∨
          (i = .amov d a b ∧ ((x.k.accStatus x.task b.toNat).2 = false ∨ ∃ r < 64, (x.k.accRow x.task b.toNat r).2 = false))) →
        ∃ t, exec i s = .next t ∧ (s.begun u i q).Traps u.core u.slot 0x04 0 x.pc x.lanes 0 t) ∧
      (x.k.matBlocked u.core x.t w = false → (i = .tzero d a ∨ i = .tmov d a b) →
        (x.l.gentrap = false ∨ i = .tzero d a ∨ ∀ r < 64, (x.k.tileRow x.task b.toNat r).2.2 = true) →
        ∃ t : State, exec i s = .next t ∧ (∀ r < 64, (t.core u.core).tileRow x.task a.toNat r =
            if i = .tzero d a then (0, 0, true) else ((x.k.tileRow x.task b.toNat r).1, (x.k.tileRow x.task b.toNat r).2.1, true)) ∧
          (∀ n, (∀ r < 64, n ≠ x.task.tileKey a.toNat r) → mapGet (t.core u.core).tiles n = mapGet (m.core u.core).tiles n) ∧
          (∀ c, c ≠ u.core → t.core c = m.core c) ∧ { t.core u.core with tiles := [] } = { m.core u.core with tiles := [] } ∧
          t.outside = s.outside) ∧
      (x.k.matBlocked u.core x.t w = false → (i = .azero d a ∨ i = .amov d a b) →
        (x.l.gentrap = false ∨ i = .azero d a ∨ ((x.k.accStatus x.task b.toNat).2 = true ∧ ∀ r < 64, (x.k.accRow x.task b.toNat r).2 = true)) →
        ∃ t : State, exec i s = .next t ∧ (∀ r < 64, (t.core u.core).accRow x.task a.toNat r =
            if i = .azero d a then (0, true) else ((x.k.accRow x.task b.toNat r).1, true)) ∧
          (t.core u.core).accStatus x.task a.toNat =
            (if i = .azero d a then 0 else (x.k.accStatus x.task b.toNat).1 &&& 0x1F00#32, true) ∧
          (∀ n, (∀ r < 64, n ≠ x.task.accKey a.toNat r) → mapGet (t.core u.core).accs n = mapGet (m.core u.core).accs n) ∧
          (∀ n, n ≠ x.task.accAt a.toNat → mapGet (t.core u.core).accStat n = mapGet (m.core u.core).accStat n) ∧
          (∀ c, c ≠ u.core → t.core c = m.core c) ∧
          { t.core u.core with accs := [], accStat := [] } = { m.core u.core with accs := [], accStat := [] } ∧ t.outside = s.outside))

/-- R292: `mprog` writes the status word of its accumulator as it stands, whatever operation is under way, and 0 when another generation
left it, which under `.gentrap` is trap 0x04 instead (R9). -/
def Obligations.MprogStatus : Prop :=
  ∀ (s : State) (u : Cursor) (d : BitVec 2) (sn : BitVec 6) (a : BitVec 5) (i : Instr) (q : Shape) (x : Ctx), i = .mprog d sn a →
    q = { shapeS d [] with as := [a.toNat] } → x = s.seen u i q → s.issues u i q = true →
    (x.l.gentrap = true → (x.k.accStatus x.task a.toNat).2 = false →
      ∃ t, exec i s = .next t ∧ (s.begun u i q).Traps u.core u.slot 0x04 0 x.pc x.lanes 0 t) ∧
    (¬(x.l.gentrap = true ∧ (x.k.accStatus x.task a.toNat).2 = false) → ∃ t, exec i s = .next t ∧
      s.Gives u i q (x.toS sn (match mapGet x.k.accStat (x.task.accAt a.toNat) with
        | some y => if y.gen = x.gen then BitVec.ofNat 32 (65536 * x.gen.toNat) ||| y.val else 0
        | none => 0)) flNone t)

/-- R279 to R281: `sign` gives a convergence register a band set, usable when it names 1 to 4 bands, two cycles later; what it names
already it names on, and a change under an operation not fully signed is trap 0x07 with detail 2. `mma` and `mmc` are trap 0x07: with
detail 3 where the register is not usable or does not name the band, with detail 1 where a named band lacks a live lane, with detail 2
where the operation partly signed is another; else they sign, and their sub-band is held. -/
def Obligations.Signing : Prop :=
  ∀ (s : State) (u : Cursor) (d : BitVec 2) (g : BitVec 3) (i : Instr) (q : Shape) (x : Ctx) (r : GReg),
    x = s.seen u i q → s.issues u i q = true → (mapGet (s.core u.core).tasks x.t).isSome = true → r = mapGetD x.task.g g.toNat GReg.fresh →
    (∀ sn w n, i = .sign d g sn → q = shapeS d [.s sn.toNat] → w = (x.s sn).setWidth 16 &&& BitVec.ofNat 16 (2 ^ x.task.nbands - 1) →
      n = popCount w →
      let usable := decide (1 ≤ n) && decide (n ≤ 4)
      let same := usable = r.usable ∧ (usable = true → w = r.set)
      (¬same → r.op ≠ none → ∃ t, exec i s = .next t ∧ (s.begun u i q).Traps u.core u.slot 0x07 2 x.pc x.lanes 0 t) ∧
      (same ∨ r.op = none → ∃ t : State, exec i s = .next t ∧ KeepsAll (s.passed u i q) t ∧
        (t.core u.core).flights = ((s.passed u i q).core u.core).flights ∧
        (t.core u.core).task x.t = if same then x.task else { x.task with
          g := mapSet x.task.g g.toNat { r with set := w, usable := usable, was := some (x.now + 2, r.set, r.usable) } })) ∧
    (∀ (acc a b : BitVec 5) (am bm ax sp cj : Bool) (typ : AccTy) (o : MatOp) (pair : Bool),
      ((i = .mma d acc am a bm b g typ ax sp ∧ pair = (typ == .f64) ∧
          o = ⟨false, acc.toNat, x.matSrc am a, x.matSrc bm b, typ, ax, sp, false, x.b.mshape⟩) ∨
        (i = .mmc d acc am a bm b g cj ∧ pair = true ∧
          o = ⟨true, acc.toNat, x.matSrc am a, x.matSrc bm b, .i32, false, false, cj, x.b.mshape⟩)) →
      q = { uni := true, d, as := acc.toNat :: (if pair then [acc.toNat + 1] else []),
            ts := (if am then [] else [a.toNat]) ++ (if bm then [] else [b.toNat]), srcs := mapSrcs am a ++ mapSrcs bm b } →
      let v := if r.was.any (fun y => x.now < y.1) then (r.was.getD (0, 0, false)).2 else (r.set, r.usable)
      let named := v.2 = true ∧ v.1.getLsbD x.b.index = true
      let whole := ∀ n < 16, v.1.getLsbD n = true → x.k.bandLive x.t n = allLanes
      let agrees := r.op = none ∨ r.op = some ((encode i).headD 0, o)
      (¬named → ∃ t, exec i s = .next t ∧ (s.begun u i q).Traps u.core u.slot 0x07 3 x.pc x.lanes 0 t) ∧
      (named → ¬whole → ∃ t, exec i s = .next t ∧ (s.begun u i q).Traps u.core u.slot 0x07 1 x.pc x.lanes 0 t) ∧
      (named → whole → ¬agrees → ∃ t, exec i s = .next t ∧ (s.begun u i q).Traps u.core u.slot 0x07 2 x.pc x.lanes 0 t) ∧
      (named → whole → agrees → ∃ t0 t : State, exec i s = .next t ∧ t = t0.rebalance u.core u.entry ∧
        s.Waits u i q (.signer g.toNat) t0 ∧
        (t0.core u.core).flights = mapSet ((s.begun u i q).core u.core).flights ((s.begun u i q).core u.core).nextOp
          ⟨u.slot, x.gen, x.lanes, flagOf x.cl.setb, .sig g.toNat none⟩ ∧
        (t0.core u.core).task x.t = { x.task with g := mapSet x.task.g g.toNat { r with
          op := some ((encode i).headD 0, o)
          signed := mapSet r.signed x.b.index (mapGetD r.signed x.b.index 0 ||| x.lanes) } }))

/-! ## Memory -/

/-- R152, R154, R159, R162, R165, R186, R244, R252 to R255: a memory instruction with no lane does nothing; a misaligned lane is trap
0x05 at issue, but where alignment waits for the page; a lane whose page the TLB lacks makes the sub-band wait, its operation captured;
a check after translation traps with its cause. Else loads and releasing accesses start, stores and block actions are performed, and
atomics are performed and start. -/
def Obligations.MemoryAccess : Prop :=
  ∀ (s : State) (u : Cursor) (i : Instr) (f : MemForm) (q : Shape) (x : Ctx) (m : State) (flag : Option Nat) (op : MemOp),
    memForm i = some f → q = f.shape → x = s.seen u i q → s.issues u i q = true → m = s.passed u i q →
    flag = (if f.flag then flagOf x.cl.seta else none) → op = ⟨f.kind, f.acc x, f.lanes x, x.pc, flag, x.b.rm⟩ →
    (f.acc x = [] → exec i s = .next m) ∧
    (∀ a, f.kind.lateAlign = false → (f.acc x).find? (fun a => a.va.toNat % f.kind.ty.size != 0) = some a →
      ∃ t, exec i s = .next t ∧ (s.begun u i q).Traps u.core u.slot 0x05 0 x.pc x.lanes a.va t) ∧
    (f.acc x ≠ [] → (f.kind.lateAlign = false → ∀ a ∈ f.acc x, a.va.toNat % f.kind.ty.size = 0) →
      ((∀ a ∈ f.acc x, (s.begun u i q).lookup u.core x.pd a.va f.kind.access = none) →
        ∃ t, exec i s = .next t ∧ s.Waits u i q (.translate op) t) ∧
      ∀ acc, List.Forall₂ (Translates (s.begun u i q) u.core x.pd f.kind) (f.acc x) acc →
        (∀ cause addr, (s.begun u i q).lateCheck u.core u.slot { op with acc } = some (cause, addr) →
          ((s.begun u i q).core u.core).relOverlaps u.slot { op with acc } = false → ∃ b t : State, exec i s = .next t ∧
          KeepsAll (s.begun u i q) b ∧ b.Traps u.core u.slot cause 0 x.pc x.lanes addr t) ∧
        ((s.begun u i q).Performs u.core u.slot { op with acc } → ((s.core u.core).entry u.entry).wait = .ready →
          let remote := acc.any fun a => a.t.any s.isRemote
          let releases := f.kind.stores = true ∧ f.kind.order.releases = true
          (f.kind.isAtomic = true → releases → x.l.det = true → ∃ t, exec i s = .next t ∧
            s.Waits u i q (.op ((s.begun u i q).core u.core).nextOp) t) ∧
          (releases → ¬(f.kind.isAtomic = true ∧ x.l.det = true) → ∃ t, exec i s = .next t ∧
            s.Starts u i q (f.lanes x) flag (.release .plain (.access { op with acc })) t) ∧
          ((∃ ty od, f.kind = .ld ty od) ∨ (∃ w acq, f.kind = .sld w acq) → ∃ t, exec i s = .next t ∧
            s.Starts u i q (f.lanes x) flag (if remote then .remote { op with acc } else .load { op with acc }) t) ∧
          ∃ b : State, KeepsAll m b ∧ KeepsSystem (m.flagged u.core u.slot flag) b ∧
            (f.kind.stores = true → ¬releases → f.kind.isAtomic = false →
              exec i s = .next (b.storeAll u.core u.slot x.pd { op with acc } x.l.ftz false)) ∧
            (f.kind.isAtomic = true → ¬releases → ∃ r, r = b.atomAll u.core u.slot x.pd { op with acc } ∧ exec i s = .next
              (r.1.launchFlight u.core ⟨u.slot, x.gen, f.lanes x, flag, if remote then .remote r.2 else .atom r.2⟩)) ∧
            (∀ p, f.kind = .pw p → (b.core u.core).clearOf u.slot (acc.map LAcc.blockStart) 512 → ∃ r, r = b.pwAct u.core x.pd p acc ∧
              exec i s = .next (r.1.launchFlight u.core ⟨u.slot, x.gen, f.lanes x, flag, .pw p r.2⟩))))

/-! What a memory instruction does, by its form. -/

/-- R158, R159: the stores of an instruction to pages served by the L1 leave their bytes there as their core reads them, the highest
lane's last; no other core, no other byte and no home sees them yet.
R158, R160, R162, R186, R249, R252: the completion of a load whose bytes the L1 holds, of a load from scratchpad, of an atomic and of a
block instruction writes the values of its lanes and lowers its flag; a remote access that is not acknowledged is trap 0x0C with
detail 4. -/
def Obligations.StoresAndCompletions : Prop :=
  (∀ (s : State) (c slot pd : Nat) (op : MemOp) (ftz : Bool),
     (∀ a ∈ op.acc, ∃ t, a.t = some t ∧ t.plain ∧ t.off % 128 + op.kind.ty.size ≤ 128) →
     ∀ t : State, t = s.storeAll c slot pd op ftz false →
       (∀ d pa, t.byteAt d pa = if d = c then s.putLanes op.kind op.acc pa (s.byteAt d pa) else s.byteAt d pa) ∧
       (∀ pa, t.homeByte pa = s.homeByte pa) ∧ (∀ d gen a, t.spByte d gen a = s.spByte d gen a) ∧ t.outside = s.outside) ∧
  (∀ (s : State) (c id : Nat) (f : Flight) (acc : List LAcc), mapGet (s.core c).flights id = some f → (mapGet (s.core c).bands f.slot).isSome = true →
     (∀ op, f.kind = .load op → acc = op.acc → op.kind.order.acquires = false → (s.core c).clearOf f.slot op.acc op.kind.ty.size →
       (∀ a ∈ acc, a.val = none ∧ a.err = 0 ∧ a.fl = flNone ∧ ∃ t, a.t = some t ∧ t.plain ∧ s.holds c t op.kind.ty.size) →
       ∀ w, w = acc.flatMap (fun a => a.writes op.kind.ty (placeVal op.kind.ty (s.laneWord c op.kind.ty.size a))) → Distinct w →
       ∃ t, exec (.loadCompletion c id) s = .next t ∧ s.Delivers c id f w flNone t) ∧
     (∀ ty, f.kind = .lds ty acc → (∀ a ∈ acc, a.val = none ∧ a.err = 0 ∧ a.fl = flNone) → ∀ y, y = (s.core c).task ((s.core c).taskOfBand f.slot) →
       ∀ w, w = acc.flatMap (fun a => a.writes ty (placeVal ty (ofBytes ((List.range ty.size).map fun j =>
         s.spByte c y.gen (y.spBase + a.va.toNat + j))))) → Distinct w →
       ∃ t, exec (.loadCompletion c id) s = .next t ∧ s.Delivers c id f w flNone t) ∧
     (∀ op, (f.kind = .atom op ∨ f.kind = .remote op ∧ op.kind.isAtomic = true) → acc = op.acc → op.kind.order.acquires = false →
       (∀ a ∈ acc, a.err = 0 ∧ a.fl = flNone) → ∀ w, w = acc.flatMap (fun a => a.writes op.kind.ty (a.val.getD 0)) → Distinct w →
       ∃ t, exec (.atomicCompletion c id) s = .next t ∧ s.Delivers c id f w flNone t) ∧
     (∀ p, f.kind = .pw p acc → (∀ a ∈ acc, a.err = 0 ∧ a.fl = flNone) →
       ∀ w, w = acc.flatMap (fun a => a.writes .b32 (a.val.getD 0)) → Distinct w →
       ∃ t, exec (.plynwickOperationCompletion c id) s = .next t ∧ s.Delivers c id f w flNone t) ∧
     (∀ op a l, f.kind = .remote op → op.kind.isAtomic = true → op.kind.uniform = false → op.kind.order.acquires = false → acc = op.acc →
       acc = a :: l → (∀ b ∈ acc, b.t.any s.isRemote = true) →
       ∃ b, KeepsAll s b ∧ (b.core c).flights = mapDel (s.core c).flights id ∧
         exec (.remoteAccessTimeout c id) s = .next (b.asyncTrap c f.slot (maskOf (acc.map (·.lane))) 0x0C 4 a.va)))

/-- R134, R154, R158, R162: an access to scratchpad that is misaligned or passes the allocation is trap 0x05; an `lds` of a granule of
another generation is trap 0x04 under `.gentrap`; else it starts. `sts` leaves the bytes of its lanes in their task's scratchpad, the
highest lane's last, and no other byte of the task differs.
R164, R185: `pf` asks nothing of a lane whose page faults or is not served by the L1, and brings the line of another into the L1;
`pwaddr` gives each lane the address of its element. -/
def Obligations.Scratchpad : Prop :=
  (∀ (s : State) (u : Cursor) (i : Instr) (ty : MTy) (o : MV) (q : Shape) (x : Ctx) (m : State) (va : Nat → Word) (bad : Nat → Bool),
     x = s.seen u i q → s.issues u i q = true → m = s.passed u i q →
     (∀ l, va l = (if o.u then x.s (o.vb.extractLsb' 0 6) else 0) + x.v l o.va + o.off.signExtend 32) →
     (∀ l, bad l = ((va l).toNat % ty.size != 0 || decide (4096 * x.task.spGrans < (va l).toNat + ty.size))) →
     ((i = .lds ty o ∧ q = shapeMem o (spSrcs o) [] [o.vd.toNat]) ∨
       (i = .sts ty o ∧ q = shapeMem o (spSrcs o) (dataSrc ty o.vd) [o.vd.toNat]) →
       ∀ l, (lanesOf x.active).find? bad = some l →
         ∃ t, exec i s = .next t ∧ (s.begun u i q).Traps u.core u.slot 0x05 0 x.pc x.lanes ((va l).setWidth 64) t) ∧
     ((lanesOf x.active).find? bad = none →
       (i = .lds ty o → q = shapeMem o (spSrcs o) [] [o.vd.toNat] →
         let stale := ∃ l ∈ lanesOf x.active, (x.k.spRead x.gen (x.task.spBase + (va l).toNat) ty.size).2 = false
         (x.active = 0 → exec i s = .next m) ∧
         (x.active ≠ 0 → x.l.gentrap = true → stale →
           ∃ t, exec i s = .next t ∧ (s.begun u i q).Traps u.core u.slot 0x04 0 x.pc x.lanes 0 t) ∧
         (x.active ≠ 0 → ¬(x.l.gentrap = true ∧ stale) → ∃ t, exec i s = .next t ∧
           s.Starts u i q x.active (flagOf x.cl.seta) (.lds ty ((lanesOf x.active).map fun l =>
             access l ((va l).setWidth 64) 0 0 (x.vAt l o.vd) (x.vAt1 l o.vd))) t)) ∧
       (i = .sts ty o → q = shapeMem o (spSrcs o) (dataSrc ty o.vd) [o.vd.toNat] → ∃ t, exec i s = .next t ∧
         (∀ a, t.spByte u.core x.gen a = (lanesOf x.active).foldl (fun b l => putByte (x.task.spBase + (va l).toNat)
           (bytesOf ty.size (if ty.wide then x.v64 l o.vd else (x.v l o.vd).setWidth 64).toNat) a b) (m.spByte u.core x.gen a)) ∧
         (∀ c, c ≠ u.core → t.core c = m.core c) ∧
         { t.core u.core with scratch := [], flights := [] } = { m.core u.core with scratch := [], flights := [] } ∧ t.outside = s.outside))) ∧
  (∀ (s : State) (u : Cursor) (i : Instr) (ty : FW) (o : MV) (q : Shape) (x : Ctx) (m : State) (va : Nat → BitVec 64),
     x = s.seen u i q → s.issues u i q = true → m = s.passed u i q →
     (∀ l, va l = if o.u then x.s64 (o.vb.extractLsb' 0 6) + (x.v l o.va).setWidth 64 + o.off.signExtend 64 else x.v64 l o.va + o.off.signExtend 64) →
     (i = .pf o → q = ({ shapeMem o (addrSrcs o) [] [] with mem := false } : Shape) →
       ((∀ l ∈ lanesOf x.active, (∃ n, m.lookup u.core x.pd (va l) 0 = some (.error n)) ∨
         ∃ t, m.lookup u.core x.pd (va l) 0 = some (.ok t) ∧ 2 < t.mty ∧ t.fmt ≠ 9) → exec i s = .next m) ∧
       (∀ l t, lanesOf x.active = [l] → m.lookup u.core x.pd (va l) 0 = some (.ok t) → t.mty ≤ 2 → t.fmt ≠ 9 →
         exec i s = .next (m.l1Fill u.core x.pd t).1)) ∧
     (i = .pwaddr ty o → q = {
         uni := false, d := o.d, words := 2, vs := [o.vd.toNat, o.va.toNat]
         srcs := .v o.va.toNat :: sSrc64 (o.vb.extractLsb' 0 6) ++ [.s ((o.vb.extractLsb' 0 6).toNat + 2)] } →
       ∃ t, exec i s = .next t ∧ s.Gives u i q (x.each64 o.vd fun l => x.s64 (o.vb.extractLsb' 0 6) + o.off.signExtend 64 +
         BitVec.ofNat 64 (pwElement (x.readS ((o.vb.extractLsb' 0 6).toNat + 2)).1 (x.v l o.va) * if ty = .f64 then 8 else 4)) flNone t))

/-- R281, R283, R289, R291: a transfer whose rows are in use waits; one that is misaligned or passes the allocation is trap 0x05, and one
of a stale row under `.gentrap` trap 0x04, before any row moves. Else it starts with flag B: between a tile and the scratchpad every row
has moved with its format tag; a store to memory leaves the bytes of its rows; a load from lines the L1 holds leaves every row it read. -/
def Obligations.MatrixTransfers : Prop :=
  ∀ (s : State) (u : Cursor) (i : Instr) (f : XferForm) (q : Shape) (x : Ctx) (m : State) (w : Xfer), xferForm i = some f → q = f.shape →
    x = s.seen u i q → s.issues u i q = true → m = s.passed u i q → w = f.xfer x →
    let flag := flagOf x.cl.setb
    let starts := fun (t : State) => (t.core u.core).bands = ((m.flagged u.core u.slot flag).core u.core).bands ∧
      ∃ err, (w.op = .tst ∨ w.op = .ast ∨ w.scratch = true → err = 0) ∧
        mapGet (t.core u.core).flights (m.core u.core).nextOp = some ⟨u.slot, x.gen, x.lanes, flag, .xfer w.op w.reg w.granules err⟩
    (f.stale x = true → ∃ t, exec i s = .next t ∧ (s.begun u i q).Traps u.core u.slot 0x04 0 x.pc x.lanes 0 t) ∧
    (f.stale x = false → x.k.matBlocked u.core x.t w.set = true →
      exec i s = .next (s.updEntry u.core u.entry fun e => { e with wait := .stalled })) ∧
    (f.stale x = false → x.k.matBlocked u.core x.t w.set = false →
      (w.bad x.task → ∃ t, exec i s = .next t ∧ (s.begun u i q).Traps u.core u.slot 0x05 0 x.pc x.lanes w.addr t) ∧
      (¬w.bad x.task → x.l.gentrap = true → w.stale x.k x.task →
        ∃ t, exec i s = .next t ∧ (s.begun u i q).Traps u.core u.slot 0x04 0 x.pc x.lanes 0 t) ∧
      (¬w.bad x.task → ¬(x.l.gentrap = true ∧ w.stale x.k x.task) →
        (w.scratch = true → ∃ t : State, exec i s = .next t ∧ starts t ∧ (∀ c, c ≠ u.core → t.core c = m.core c) ∧ t.outside = s.outside ∧
          (w.op = .tld → (∀ r < w.rows, let g := x.k.granuleRow x.gen (w.granule x.task r)
              (t.core u.core).tileRow x.task w.reg r = (g.1, if w.fmt = 0 then g.2.1 else w.fmt, true)) ∧
            (∀ n, (∀ r < w.rows, n ≠ x.task.tileKey w.reg r) → mapGet (t.core u.core).tiles n = mapGet (m.core u.core).tiles n) ∧
            { t.core u.core with tiles := [], bands := [], flights := [], nextOp := 0 } =
              { m.core u.core with tiles := [], bands := [], flights := [], nextOp := 0 }) ∧
          (w.op = .tst → (∀ g, (∀ r < w.rows, g ≠ w.granule x.task r) → mapGet (t.core u.core).scratch g = mapGet (m.core u.core).scratch g) ∧
            (∀ r < w.rows, (∀ r' < w.rows, w.granule x.task r' = w.granule x.task r → r' ≤ r) →
              (t.core u.core).granuleRow x.gen (w.granule x.task r) =
                ((x.k.tileRow x.task w.reg r).1, (x.k.tileRow x.task w.reg r).2.1, true)) ∧
            { t.core u.core with scratch := [], bands := [], flights := [], nextOp := 0 } =
              { m.core u.core with scratch := [], bands := [], flights := [], nextOp := 0 })) ∧
        (w.scratch = false → ∀ tr : Nat × Nat × BitVec 64 → Trans,
          (∀ p ∈ w.parts, m.lookup u.core x.pd p.2.2 (if w.op = .tst ∨ w.op = .ast then 5 else 4) = some (.ok (tr p))) →
          ((∃ p ∈ w.parts, (tr p).fmt = 9) →
            ∃ t, exec i s = .next t ∧ (s.begun u i q).Traps u.core u.slot 0x06 0 x.pc x.lanes w.addr t) ∧
          ((∀ p ∈ w.parts, (tr p).mty ≤ 2 ∧ (tr p).fmt ≠ 9 ∧ (tr p).off % 128 + 64 ≤ 128) →
            x.k.relMeets u.slot x.lanes (w.accesses tr) 64 = false → (m.core u.core).clearOf u.slot (w.accesses tr) 64 →
            (w.op = .tst ∨ w.op = .ast → ∃ t : State, exec i s = .next t ∧ starts t ∧
              (∀ c pa, t.byteAt c pa = if c = u.core then m.putParts w x.k x.task tr pa (m.byteAt c pa) else m.byteAt c pa) ∧
              (∀ pa, t.homeByte pa = m.homeByte pa) ∧ (∀ c gen a, t.spByte c gen a = m.spByte c gen a) ∧
              KeepsSystem (m.flagged u.core u.slot flag) t ∧ KeepsThreads m t ∧ KeepsRegs m t u.core u.slot [] ∧ t.outside = s.outside) ∧
            (w.op = .tld ∨ w.op = .ald → (∀ p ∈ w.parts, ∀ n < 8, m.holds u.core ((tr p).plus (8 * n)) 8) →
              ∃ t : State, exec i s = .next t ∧ starts t ∧ (∀ c, c ≠ u.core → t.core c = m.core c) ∧ t.outside = s.outside ∧
                (w.op = .tld → (∀ r < w.rows, m.rowLoaded u.core w tr r ((t.core u.core).tileRow x.task w.reg r).1.toNat ∧
                    ((t.core u.core).tileRow x.task w.reg r).2.2 = true ∧
                    (w.fmt ≠ 0 → ((t.core u.core).tileRow x.task w.reg r).2.1 = w.fmt)) ∧
                  (∀ n, (∀ r < w.rows, n ≠ x.task.tileKey w.reg r) → mapGet (t.core u.core).tiles n = mapGet (m.core u.core).tiles n) ∧
                  { t.core u.core with tiles := [], bands := [], flights := [], nextOp := 0 } =
                    { m.core u.core with tiles := [], bands := [], flights := [], nextOp := 0 }) ∧
                (w.op = .ald → (∀ r < 64, m.rowLoaded u.core w tr r ((t.core u.core).accRow x.task w.reg r).1.toNat ∧
                    ((t.core u.core).accRow x.task w.reg r).2 = true) ∧
                  (t.core u.core).accStatus x.task w.reg = (0, true) ∧
                  (∀ n, (∀ r < 64, n ≠ x.task.accKey w.reg r) → mapGet (t.core u.core).accs n = mapGet (m.core u.core).accs n) ∧
                  (∀ n, n ≠ x.task.accAt w.reg → mapGet (t.core u.core).accStat n = mapGet (m.core u.core).accStat n) ∧
                  { t.core u.core with accs := [], accStat := [], bands := [], flights := [], nextOp := 0 } =
                    { m.core u.core with accs := [], accStat := [], bands := [], flights := [], nextOp := 0 }))))))

/-! ## Events -/

/-- R158, R181, R243, R356, R359, R361: what the events of the caches leave.
R219, R220, R244, R245: what the completions of transfers, tag waits, pops, releases and acquires leave. -/
def Obligations.CacheEvents : Prop :=
  (∀ s : State,
     (∀ c r rs m, (s.core c).regs = r :: rs → m = s.setCore c { s.core c with regs := rs } →
       (∀ e, m.check ⟨r.pd, none⟩ true r.buf r.off 128 = e → e ≠ 0 → ∃ t, exec (.registration c) s = .next t ∧
         (mapGet (s.core c).bands r.slot = none ∨ ((t.core c).band r.slot).relFail = ((s.core c).band r.slot).relFail ++ [e]) ∧
         (t.core c).regs = rs ∧ t.domes = s.domes) ∧
       (m.check ⟨r.pd, none⟩ true r.buf r.off 128 = 0 → (mapGet s.domes r.line).isSome = true → ∃ t, exec (.registration c) s = .next t ∧
         ∃ d o, mapGet t.domes r.line = some d ∧ (c, o) ∈ d.owners ∧ o &&& r.words = r.words)) ∧
     (∀ c r rs, (s.core c).requests = r :: rs →
       (s.isRemote r.t = true → s.routed r.t.module = true → ∃ t, exec (.domeRequest c) s = .next t ∧ (t.core c).requests = rs ∧
         t.out = s.out ++ [.remoteStore r.t.module (2 ^ 44 * r.t.buf + r.t.off) r.bytes] ∧ t.mem = s.mem ∧ t.domes = s.domes) ∧
       (s.isRemote r.t = true → s.routed r.t.module = false → ∃ t, exec (.domeRequest c) s = .next t ∧ (t.core c).requests = rs ∧
         (mapGet (s.core c).bands r.slot = none ∨ ((t.core c).band r.slot).relFail = ((s.core c).band r.slot).relFail ++ [4]) ∧
         t.outside = s.outside) ∧
       (s.isRemote r.t = false → ∀ o n d, o = r.t.off → n = r.bytes.length → 0 < n → o % 128 + n ≤ 128 →
         ((s.setCore c { s.core c with requests := rs }).check ⟨r.pd, none⟩ true r.t.buf o n = 0 →
           mapGet s.domes ((s.buf r.t.buf).place o / 128) = some d → d.owners = [] → (s.buf r.t.buf).place o % 128 + n ≤ 128 →
           ∃ t, exec (.domeRequest c) s = .next t ∧ (t.core c).requests = rs ∧
             ∀ pa, t.homeByte pa = putByte ((s.buf r.t.buf).place o) r.bytes pa (s.homeByte pa)))) ∧
     (∀ line, ∃ t, exec (.recall line) s = .next t ∧ ∀ d, mapGet t.domes line = some d → d.owners = []) ∧
     (∀ line, ∃ t, exec (.replicaInvalidate line) s = .next t ∧ (∀ sector < 24, mapGet t.replicas (24 * line + sector) = none) ∧
       (∀ k, k / 24 ≠ line → mapGet t.replicas k = mapGet s.replicas k) ∧ ∀ pa, t.homeByte pa = s.homeByte pa) ∧
     (∀ buf line, (s.buf buf).v = true → ((s.buf buf).offsetOf (128 * line)).isSome = true → mapGet s.domes line = none →
       (line * 128 < 2 ^ 40 → (s.chan (channelOf (s.buf buf).hmask (line * 128))).offline = false) →
       (s.domes.filter fun p => homeDome p.1 == homeDome line && domeSet p.1 == domeSet line).length < 16 →
       ∃ t, exec (.domeFill buf line) s = .next t ∧ ∃ d, mapGet t.domes line = some d ∧ d.dirty0 = false ∧ d.dirty1 = false ∧ d.owners = [] ∧
         d.pd = (s.buf buf).owner ∧ d.data.extractLsb' 0 512 = s.halfUnder (s.keyOf (s.buf buf).enc (s.buf buf).key) (line * 128) ∧
         d.data.extractLsb' 512 512 = s.halfUnder (s.keyOf (s.buf buf).enc (s.buf buf).key) (line * 128 + 64) ∧ t.mem = s.mem) ∧
     (∀ c sb, (mapGet s.cores c).isSome = true → ∃ t, exec (.l1Eviction c sb) s = .next t ∧ ∀ l ∈ (t.core c).l1, l.line / 4 ≠ sb) ∧
     (∀ buf block o, mapGet s.pwOwner (pwKey buf block) = some o → ∃ t, exec (.plynwickRecall buf block) s = .next t ∧
       mapGet t.pwOwner (pwKey buf block) ≠ some o ∧ ∀ p ∈ (t.core o).pw, ¬(p.buf = buf ∧ p.block = block)) ∧
     (∀ line d, mapGet s.domes line = some d →
       (d.dirty0 = false → d.dirty1 = false → ∃ t, exec (.domeUncorrectableError line) s = .next t ∧
         ∃ e, mapGet t.domes line = some e ∧ e.data.extractLsb' 0 512 = s.halfUnder (s.keyOf d.enc d.key) (line * 128) ∧
           e.data.extractLsb' 512 512 = s.halfUnder (s.keyOf d.enc d.key) (line * 128 + 64) ∧ e.owners = d.owners) ∧
       (d.dirty0 = true ∨ d.dirty1 = true → ∃ t, exec (.domeUncorrectableError line) s = .next t ∧ mapGet t.pdEnd d.pd = some 3 ∧
         ∀ l x, mapGet s.launches l = some x → x.pd = d.pd → mapGet t.launches l = none))) ∧
  (∀ (s : State) (c id : Nat) (f : Flight), mapGet (s.core c).flights id = some f → (mapGet (s.core c).bands f.slot).isSome = true →
     let lowered := fun t : State => ∀ n, ((t.core c).band f.slot).flagCount n =
       ((s.core c).band f.slot).flagCount n - if f.flag = some n then 1 else 0
     let fresh := fun t : State => ∀ l ∈ (t.core c).l1, l.valid = false
     (∀ op reg sp, f.kind = .xfer op reg sp 0 → ∃ t, exec (.matrixTransferComplete c id) s = .next t ∧ s.Delivers c id f [] flNone t) ∧
     (∀ all m d v, f.kind = .tagWait all m d (some v) → ∃ t, exec (.tagWaitComplete c id) s = .next t ∧
       t.reg c f.slot f.gen d = (d.held v, true) ∧ (t.core c).flights = mapDel (s.core c).flights id ∧ lowered t ∧ fresh t ∧ t.outside = s.outside) ∧
     (∀ q d pc b w rest tn, f.kind = .qpop q d pc b → tn = (s.core c).taskOfBand f.slot →
       (mapGetD ((s.core c).task tn).queues q Queue.fresh).ret = w :: rest →
       (mapGet (s.core c).tasks tn).isSome = true →
       (∀ g ∈ (s.core c).flights, g.1 < id → (s.core c).taskOfBand g.2.slot = tn → ∀ d' pc' b', g.2.kind ≠ .qpop q d' pc' b') →
       ∃ t, exec (.qpopComplete c id) s = .next t ∧ t.reg c f.slot f.gen d = (d.held w, true) ∧
         (mapGetD ((t.core c).task tn).queues q Queue.fresh).ret = rest ∧ (t.core c).flights = mapDel (s.core c).flights id ∧ lowered t ∧
         KeepsMemory s t ∧ t.outside = s.outside) ∧
     (f.kind = .acquire →
       ((s.core c).heldBack id f FKind.beforeAcquire = true → exec (.acquireCompletion c id) s = .next s) ∧
       ((s.core c).heldBack id f FKind.beforeAcquire = false → ∃ t, exec (.acquireCompletion c id) s = .next t ∧
         (t.core c).flights = mapDel (s.core c).flights id ∧ fresh t ∧
         ∀ e x, (s.core c).table.find? (fun e => e.2.wait == .op id) = some (e, x) → ((t.core c).entry e).wait = .ready)) ∧
     (∀ k a, f.kind = .release k a →
       ((s.core c).heldBack id f FKind.beforeRelease = true → exec (.releaseCompletion c id) s = .next s) ∧
       ((s.core c).heldBack id f FKind.beforeRelease = false →
         (a.here = true → ∃ t, exec (.releaseCompletion c id) s = .next t ∧ KeepsStorage s t) ∧
         ((∀ b ∈ relBands s c f k, (((s.performRelease c f k false).core c).band b).relFail = []) →
           a = .none ∨ a = .fence ∨ a = .sync ∨ (∃ q n, a = .push q n) →
           ∃ t, exec (.releaseCompletion c id) s = .next t ∧
             (∀ l ∈ (t.core c).l1, ∀ i w, mapGet l.writer i = some w → w ∉ relBands s c f k) ∧
             (if a = .sync then ∃ g, mapGet (t.core c).flights id = some g ∧ g.kind = .acquire else mapGet (t.core c).flights id = none)))))

/-- R267, R275, R280, R282, R284, R285, R352: the events of the matrix unit and of group barriers. -/
def Obligations.MatrixEvents : Prop :=
  ∀ s : State,
    (∀ c t g r w o, mapGetD ((s.core c).task t).g g GReg.fresh = r → r.op = some (w, o) →
      (∀ i < 16, r.set.getLsbD i = true → (s.core c).bandLive t i &&& ~~~(mapGetD r.signed i 0) = 0) →
      ∀ s0 sa sb, s0 = (if statStop ((s.core c).accStatus ((s.core c).task t) o.acc).1 then
          min (statProg ((s.core c).accStatus ((s.core c).task t) o.acc).1) (shapeKS o.mshape) else 0) →
        sa = s.sigma c t o.a o.sp s0 (shapeKS o.mshape) → sb = s.sigma c t o.b o.sp s0 (shapeKS o.mshape) →
        (s.core c).matBlocked c t (o.set c sa sb s0) = false → ∀ cls, s.matCheck c t o sa sb s0 = .ok cls →
        ∃ t', exec (.matrixOperationIssue c t g) s = .next t' ∧ (s0 < shapeKS o.mshape →
          ∃ f m, mapGet (t'.core c).flights (s.core c).nextOp = some f ∧ f.kind = .mat m ∧ m.op = o ∧ m.step = s0 ∧ m.last = shapeKS o.mshape ∧
            m.signed = r.signed ∧ m.released = false ∧ ((mapGet (s.core c).tasks t).isSome = true →
              (mapGetD ((t'.core c).task t).g g GReg.fresh).op = none ∧ (mapGetD ((t'.core c).task t).g g GReg.fresh).signed = []))) ∧
    (∀ c id f r, mapGet (s.core c).flights id = some f → f.kind = .mat r → r.step < r.last → (s.core c).unitTurn id = true →
      ∃ t, exec (.matrixKStep c id false) s = .next t ∧ (r.step + 1 < r.last → ∃ g m, mapGet (t.core c).flights id = some g ∧ g.kind = .mat m ∧
        m.step = r.step + 1 ∧ m.op = r.op ∧ m.signed = r.signed ∧ m.last = r.last ∧
        ∀ a ∈ r.op.accs, statProg ((t.core c).accStatus ((t.core c).task ((s.core c).taskOfBand f.slot)) a).1 = (r.step + 1) % 128)) ∧
    (∀ c id f r task, mapGet (s.core c).flights id = some f → f.kind = .mat r → r.last ≤ r.step →
      task = (s.core c).task ((s.core c).taskOfBand f.slot) → r.rows.length ≤ 64 →
      (r.op.pair = true → r.rows2.length ≤ 64 ∧ task.accAt r.op.acc ≠ task.accAt (r.op.acc + 1)) →
      ∃ t, exec (.matrixOperationComplete c id) s = .next t ∧ mapGet (t.core c).flights id = none ∧
        (∀ i d, r.rows[i]? = some d → (t.core c).accRow task r.op.acc i = (d, true)) ∧
        (r.op.pair = true → ∀ i d, r.rows2[i]? = some d → (t.core c).accRow task (r.op.acc + 1) i = (d, true)) ∧
        ∀ a ∈ r.op.accs, statProg ((t.core c).accStatus task a).1 = r.step % 128 ∧ statStop ((t.core c).accStatus task a).1 = false) ∧
    (∀ l gid x, mapGet s.launches l = some x → ∃ t, exec (.barrierReleaseStep l gid) s = .next t ∧ KeepsStorage s t ∧
      ((mapGet x.groups gid).isSome = true → (t.launch l).group gid =
        { x.group gid with release := (x.group gid).release.drop s.power.state.budget.2.2 }))

/-- R208, R210, R213, R214, R222 to R228: what the events of an engine's command do.
R228 to R231: what the events of ingest do. -/
def Obligations.EngineEvents : Prop :=
  (∀ (s : State) (g : Eng) (q : Queue), mapGet (s.engTask g).queues g.q = some q →
     (∀ m eng, s.startable g.c g.t g.q = some m → eng = engineOf g.c q.port →
       nextRound (s.candidates eng) (mapGet s.engines eng) = some (queuePlace g.c g.t g.q) →
       ∃ t, exec (.engineCommandStart g.c g.t g.q) s = .next t ∧ t.curCmd g = some ⟨m, 0, false, false, none⟩ ∧
         (mapGetD (t.engTask g).queues g.q Queue.fresh).cmds = q.cmds.drop 1 ∧ mapGet t.engines eng = some (queuePlace g.c g.t g.q) ∧
         KeepsBands s t) ∧
     (∀ r, q.cur = some r →
       s.RunsCommand g r 0 (.copy g.c g.t g.q) ∧ s.RunsCommand g r 1 (.copy2d g.c g.t g.q) ∧ s.RunsCommand g r 2 (.gather g.c g.t g.q) ∧
       s.RunsCommand g r 3 (.scatter g.c g.t g.q) ∧ s.RunsCommand g r 4 (.multicast g.c g.t g.q) ∧ s.RunsCommand g r 6 (.ingestBind g.c g.t g.q) ∧
       (∀ src dst n gen, r.cmd.head.op = 0 → r.done = false → r.pos = 0 → s.engOpen g r.cmd = false → bitN r.cmd.head.low 13 = false →
         src = r.cmd.side (fieldN r.cmd.head.low 17 16, 1) → dst = r.cmd.side (fieldN r.cmd.head.low 15 14, 3) → src.scratch = true →
         dst.scratch = true → n = (r.cmd.word 5).toNat → gen = (s.engTask g).gen → ∃ t x, exec (.copy g.c g.t g.q) s = .next t ∧
           t.curCmd g = some x ∧ x.done = true ∧ x.fault = r.fault ∧
           (∀ i < n, t.spByte g.c gen ((s.engTask g).spBase + dst.at_.toNat + i) = s.spByte g.c gen ((s.engTask g).spBase + src.at_.toNat + i)) ∧
           ∀ a, (¬∃ i < n, a = (s.engTask g).spBase + dst.at_.toNat + i) → t.spByte g.c gen a = s.spByte g.c gen a) ∧
       (r.cmd.head.op = 5 → r.done = false → ∀ l ps ms, l = (s.engTask g).launch → ps = s.collParts l r.cmd.group r.cmd.inst →
         ms = ((s.launch l).group r.cmd.group).members →
         (ms.any (s.missed l r.cmd.group r.cmd.inst) = true → ⟨g, r.cmd⟩ ∈ ps → ∃ t x, exec (.collectiveReduce g.c g.t g.q) s = .next t ∧
           t.curCmd g = some x ∧ x.done = true ∧ x.fault = some (0x0D, engCode r.cmd.head 9) ∧ KeepsBands s t) ∧
         (ms.any (s.missed l r.cmd.group r.cmd.inst) = false → ps.length < ms.length → exec (.collectiveReduce g.c g.t g.q) s = .next s)) ∧
       (r.done = true → r.fault = none → ∃ t, exec (.engineCommandComplete g.c g.t g.q) s = .next t ∧ t.curCmd g = none ∧
         (r.cmd.head.tagged = true → ∀ n, n = mapGetD (s.engTask g).busy r.cmd.head.tag 0 - 1 →
           mapGetD (t.engTask g).busy r.cmd.head.tag 0 = n ∧ (n = 0 → (t.engTask g).done.getLsbD r.cmd.head.tag = true))) ∧
       (∀ cause code, r.fault = some (cause, code) → ((s.core g.c).band r.cmd.slot).live = 0 →
         ∃ t, exec (.engineFault g.c g.t g.q) s = .next t ∧ t.curCmd g = none ∧ (t.engTask g).eflt = true ∧
           (r.cmd.head.tagged = true → (t.engTask g).fault.getLsbD r.cmd.head.tag = true ∧ (t.engTask g).done.getLsbD r.cmd.head.tag = true)) ∧
       (∀ cause code, r.fault = some (cause, code) → ((s.core g.c).band r.cmd.slot).live ≠ 0 →
         exec (.engineFault g.c g.t g.q) s =
           .next ((s.endCommand g.c g.t g.q r.cmd true).asyncTrap g.c r.cmd.slot ((s.core g.c).band r.cmd.slot).live cause code 0)))) ∧
  (∀ s : State,
     (∀ f, s.matchFrame f = none → ∃ t, exec (.ingestFrame f) s = .next t ∧ mapGetD t.unmatched f.port 0 = mapGetD s.unmatched f.port 0 + 1 ∧
       t.streams = s.streams ∧ t.mem = s.mem) ∧
     (∀ f n b q d, s.matchFrame f = some (n, b) → q = BitVec.ofNat 32 (numAt f.payload 0 4) → d = (q - (s.stream n).consumer).toNat →
       (f.payload.length < b.hdr ∨ b.hdr + b.slotBytes < f.payload.length → ∃ t, exec (.ingestFrame f) s = .next t ∧
         (t.stream n).badLen = (s.stream n).badLen + 1 ∧ (t.stream n).accepted = (s.stream n).accepted) ∧
       (b.hdr ≤ f.payload.length → f.payload.length ≤ b.hdr + b.slotBytes →
         (d < b.slots → exec (.ingestFrame f) s = .next (s.acceptFrame n b f q)) ∧
         (b.slots ≤ d → 2 ^ 31 ≤ d → ∃ t, exec (.ingestFrame f) s = .next t ∧
           (t.stream n).late = (s.stream n).late + 1 ∧ (t.stream n).accepted = (s.stream n).accepted))) ∧
     (∀ n b gp, (s.stream n).bind = some b → (s.stream n).gap = some gp → ∃ t, exec (.gapRecordTimeout n) s = .next t ∧
       (t.stream n).gap = none ∧ t.mem = s.mem ∧ KeepsBands s t) ∧
     (∀ n b, (s.stream n).bind = some b →
       (∀ m bs, s.rangeRead b.pd b.consumerVa 4 = (m, 0, bs) → b.policy ≠ 1 → ∃ t, exec (.ingestConsumerReread n) s = .next t ∧
         (t.stream n).consumer = BitVec.ofNat 32 (ofBytes bs) ∧ KeepsBands s t) ∧
       ((s.stream n).paused = true → ∃ t, exec (.pfcPauseRefresh n) s = .next t ∧
         t.out = s.out ++ b.portList.map (fun p => .pfc p b.pfc 0xFFFF) ∧ t.streams = s.streams) ∧
       ((s.stream n).paused = false → exec (.pfcPauseRefresh n) s = .next s)))

/-- R228, R366 to R368, R373, R378 to R384, R387: what an accepted management frame of each command does, and how a frame that is not
accepted is answered.
R70, R92, R93, R300, R303: what an accepted frame of each of the debugger's operations does. -/
def Obligations.ManagementEvents : Prop :=
  (∀ (s : State) (f : Frame),
     (s.mgmt.powered = true → ∃ t, exec (.identify f) s = .next t ∧ t.cores = s.cores ∧ t.mgmt = s.mgmt ∧
       ∃ sig, t.out = s.out ++ [.response 1 f.nonce 0 s.identityRecord sig]) ∧
     s.Answers f 2 true (.attest f) (fun m t st body => (f.body.length ≠ 32 → st = 3) ∧
       (f.body.length = 32 → st = 0 ∧ t.mgmt.x448 = some m.fresh ∧ t.fresh = m.fresh + 1 ∧
         body = m.identityRecord ++ f.body ++ Config.imageDigests ++ m.keyBitmap ++ Config.x448Public m.fresh ++ Config.certificates)) ∧
     s.Answers f 3 true (.keyload f) (fun m t st _ => ∀ k, k = numAt f.body 0 2 →
       (f.body.length ≠ 130 ∨ 1024 ≤ k → st = 3 ∧ t.keys = m.keys) ∧
       (f.body.length = 130 → k < 1024 → (mapGet m.keys k).isSome = true ∨ m.mgmt.forensic = true → st = 4 ∧ t.keys = m.keys) ∧
       (f.body.length = 130 → k < 1024 → mapGet m.keys k = none → m.mgmt.forensic = false → ∀ n key, m.mgmt.x448 = some n →
         Config.unwrap n (sliceN f.body 2 56) (Config.bootNonce m.mgmt.bootNo) (sliceN f.body 58 72) = some key →
           (key.extractLsb' 0 256 = key.extractLsb' 256 256 → st = 4 ∧ t.keys = m.keys) ∧
           (key.extractLsb' 0 256 ≠ key.extractLsb' 256 256 → st = 0 ∧ mapGet t.keys k = some key ∧
             ∀ j, j ≠ k → mapGet t.keys j = mapGet m.keys j))) ∧
     s.Answers f 4 true (.keydestroy f) (fun m t st _ => ∀ k, k = numAt f.body 0 2 →
       (f.body.length ≠ 2 ∨ 1024 ≤ k → st = 3 ∧ t.keys = m.keys) ∧
       (f.body.length = 2 → k < 1024 → st = 0 ∧ mapGet t.keys k = none ∧ (∀ j, j ≠ k → mapGet t.keys j = mapGet m.keys j) ∧
         (∀ d ∈ t.domes, d ∈ m.domes ∧ ¬(d.2.enc = true ∧ d.2.key = k)) ∧ t.mem = m.mem)) ∧
     s.Answers f 5 true (.powertol f) (fun m t st _ =>
       (f.body.length ≠ 5 ∨ 3 < numAt f.body 4 1 → st = 3 ∧ t.power = m.power) ∧
       (f.body.length = 5 → numAt f.body 4 1 ≤ 3 → st = 0 ∧ t.power.tolerance = numAt f.body 0 4 ∧ t.power.cap.rank = numAt f.body 4 1 ∧
         ∃ x, t.power.pendState = some x ∧ x.rank = max (numAt f.body 4 1) ((m.power.thermal.map PState.rank).getD 0))) ∧
     s.Answers f 6 true (.clockplan f) (fun m t st _ => ∀ n bands top, n = numAt f.body 0 4 → top = numAt f.body (4 + 16 * n) 4 →
       bands = (List.range n).map (fun i => (numAt f.body (4 + 16 * i) 8, numAt f.body (12 + 16 * i) 8)) →
       (32 < n ∨ f.body.length ≠ 8 + 16 * n ∨ top < 1000 ∨ 1050 < top → st = 3 ∧ t.power = m.power) ∧
       (n ≤ 32 → f.body.length = 8 + 16 * n → 1000 ≤ top → top ≤ 1050 →
         (m.power.emergency = true ∨ avoids bands 2100000 = false → st = 4 ∧ t.power = m.power) ∧
         (m.power.emergency = false → avoids bands 2100000 = true → ∀ mhz, 1000 ≤ mhz → mhz ≤ top → avoids bands (1000 * mhz) = true →
           (∀ k, mhz < k → k ≤ top → avoids bands (1000 * k) = false) → st = 0 ∧ ∃ plan, t.power.pendPlan = some plan ∧
             plan.bands = bands ∧ plan.mhz = mhz ∧ ∀ khz, 500 ≤ khz → khz ≤ 1000 → avoids bands khz = true →
               (∀ k, khz < k → k ≤ 1000 → avoids bands k = false) → plan.regulator = khz))) ∧
     s.Answers f 7 true (.evcfg f) (fun m t st _ => ∀ p i src, p = numAt f.body 0 1 → i = numAt f.body 1 1 → src = numAt f.body 2 1 →
       (f.body.length ≠ 3 ∨ 8 ≤ p ∨ 64 ≤ i ∨ 16 ≤ src → st = 3 ∧ t.events = m.events) ∧
       (f.body.length = 3 → p < 8 → i < 64 → src < 16 → st = 0 ∧ mapGet t.eventSrc (64 * p + i) = some src ∧
         mapGet t.events (64 * p + i) = some 0 ∧ ∀ j, j ≠ 64 * p + i → mapGet t.events j = mapGet m.events j)) ∧
     s.Answers f 8 true (.evread f) (fun m t st body => (f.body.length ≠ 1 ∨ 8 ≤ numAt f.body 0 1 → st = 3) ∧ t.events = m.events ∧
       (f.body.length = 1 → numAt f.body 0 1 < 8 → st = 0 ∧
         body = (List.range 64).flatMap fun i => bytesOf 8 (mapGetD m.events (64 * numAt f.body 0 1 + i) 0))) ∧
     s.Answers f 9 true (.resync f) (fun m t st body => st = 0 ∧ t.keys = m.keys ∧ t.power = m.power ∧ ∃ r, body = m.identityRecord ++
       bytesOf 1 m.power.state.rank ++ bytesOf 4 m.power.tolerance ++ bytesOf 1 m.power.cap.rank ++ m.power.plan.bytes ++ m.keyBitmap ++
       bytesOf 4 m.mgmt.alarm.toNat ++ bytesOf 4 m.rings.cmdHead.toNat ++ r) ∧
     s.Answers f 0x0A true (.settime f) (fun m t st _ => (f.body.length ≠ 8 → st = 3 ∧ t.mgmt = m.mgmt) ∧
       (f.body.length = 8 → st = 0 ∧ t.time = BitVec.ofNat 64 (numAt f.body 0 8))) ∧
     (∀ a, s.Answers f 0x0B (s.mgmt.manufactured || a.keySlot != 0) (.admin f a) (fun m t st _ =>
       (4 ≤ a.keySlot ∨ 4096 ≤ a.module → st = 3 ∧ t.mgmt = m.mgmt) ∧
       (a.keySlot < 4 → a.module < 4096 → st = 0 ∧ mapGet t.mgmt.pubKeys a.keySlot = some a.publicKey ∧ t.mgmt.admins = a.admins ∧
         t.mgmt.moduleNo.toNat = a.module ∧ t.mgmt.manufactured = true))) ∧
     (∀ first n, s.Answers f 0x0C true (.streams f first n) (fun m t st body => t.streams = m.streams ∧ (4096 < first + n → st = 3) ∧
       (first + n ≤ 4096 → st = 0 ∧ body = ((List.range n).flatMap fun i => (m.stream (first + i)).bytes) ++
         (List.range 16).flatMap fun p => bytesOf 8 (mapGetD m.unmatched p 0)))) ∧
     (∀ k, s.Answers f 0x0E true (.channel f k) (fun m t st body => (16 ≤ k → st = 3) ∧
       (k < 16 → st = 0 ∧ (∃ r, body = ((List.range 32).flatMap fun i => bytesOf 4 (m.chan (32 * k + i)).word) ++ r) ∧
         ∀ i, (t.chan i).rep0 = (m.chan i).rep0 ∧ (t.chan i).rep1 = (m.chan i).rep1 ∧ (t.chan i).offline = (m.chan i).offline))) ∧
     s.Answers f 0x0F true (.forensic f) (fun m t st _ => (m.keys ≠ [] → st = 4 ∧ t.mgmt = m.mgmt) ∧
       (m.keys = [] → st = 0 ∧ t.mgmt.forensic = true)) ∧
     s.Answers f 0x10 true (.reset f) (fun m t st _ => st = 0 ∧ t.mem = [] ∧ t.keys = [] ∧ t.cores = State.reset.cores ∧ t.graphs = [] ∧
       t.launches = [] ∧ t.mgmt.bootNo = m.mgmt.bootNo + 1 ∧ t.mgmt.pubKeys = m.mgmt.pubKeys) ∧
     (∀ code : BitVec 16, code = 0 ∨ 0x10 < code.toNat → s.Answers f code.toNat true (.unknownCommand f code)
       (fun m t st body => st = 5 ∧ body = [] ∧ t.mgmt = m.mgmt))) ∧
  (∀ (s : State) (f : Frame) (c : Nat),
     (∀ i a, s.Answers f 0x0D true (.debugBreakpoint f c i a) (fun m t st _ => (numCores ≤ c ∨ 8 ≤ i → st = 3 ∧ t.cores = m.cores) ∧
       (c < numCores → i < 8 → (mapGet m.cores c).isSome = true → st = 0 ∧ mapGet (t.core c).bps i = a ∧
         ∀ j, j ≠ i → mapGet (t.core c).bps j = mapGet (m.core c).bps j))) ∧
     (∀ b e, s.Answers f 0x0D true (.debugStep f c b e) (fun m t st _ => (m.taskAt c b = none → st = 3) ∧
       (∀ n, m.taskAt c b = some n → (((m.core c).task n).stopped = false → st = 4 ∧ t.cores = m.cores) ∧
         (((m.core c).task n).stopped = true → ∀ i, e = some i → i ∈ (m.core c).entriesOf b → st = 0 ∧
           ((m.core c).poised ((m.core c).entry i) = true → i ∈ ((t.core c).band b).stepping))))) ∧
     (∀ b, s.Answers f 0x0D true (.debugResume f c b) (fun m t st _ => (m.taskAt c b = none → st = 3) ∧
       (∀ n, m.taskAt c b = some n → (((m.core c).task n).stopped = false → st = 4 ∧ t.cores = m.cores) ∧
         (((m.core c).task n).stopped = true → st = 0 ∧ ((t.core c).task n).stopped = false)))) ∧
     s.Answers f 0x0D true (.debugReadTable f c) (fun m t st body => t.cores = m.cores ∧ (numCores ≤ c → st = 3) ∧
       (c < numCores → st = 0 ∧ body = (List.range 256).flatMap fun i => bytesOf 16 (m.tableWord c i))) ∧
     (∀ r g, s.Answers f 0x0D true (.debugStorageRead f c r g) (fun m t st body => t.cores = m.cores ∧ st = 0 ∧
       (m.mgmt.forensic = true → body = ((m.core c).granule r).2 ++ bytesOf 2 ((m.core c).granule r).1.toNat) ∧
       (m.mgmt.forensic = false → ((m.core c).granule r).1 = g → g ∈ (m.core c).liveGens → body = ((m.core c).granule r).2) ∧
       (m.mgmt.forensic = false → ((m.core c).granule r).1 ≠ g ∨ g ∉ (m.core c).liveGens → body = zeroBytes (storeSize r)))) ∧
     (∀ r g lo bs, s.Answers f 0x0D true (.debugStorageWrite f c r g lo bs) (fun m t st _ =>
       ((∀ x ∈ (m.core c).tasks, x.2.gen ≠ g) → st = 4 ∧ t.cores = m.cores) ∧
       (∀ x, (m.core c).tasks.find? (fun x => x.2.gen == g) = some x →
         (x.2.stopped = false → (∃ b ∈ x.2.slots, ((m.core c).band b).keep = false) → st = 4 ∧ t.cores = m.cores) ∧
         (x.2.stopped = true ∨ (∀ b ∈ x.2.slots, ((m.core c).band b).keep = true) → (m.core c).owns x.2 r = true →
           lo + bs.length ≤ storeSize r → st = 0 ∧ t = (m.setCore c ((m.core c).putGranule r g (overlay
             (if ((m.core c).granule r).1 = g then ((m.core c).granule r).2 else zeroBytes (storeSize r)) lo bs))).answer 0x0D f 0 [])))))

/-- R382, R385, R387: what the events of power and of the watchtower do; a limit governs from the next control
interval. -/
def Obligations.PowerEvents : Prop :=
  ∀ s : State,
    (∀ x, s.idleNow = true → s.power.state.idle = false → deepestIdle s.power.tolerance = some x →
      ∃ t, exec .idleEntry s = .next t ∧ t.power.pendState = some x ∧ x.idle = true ∧ t.cores = s.cores ∧ t.mem = s.mem) ∧
    (s.idleNow = false ∨ s.power.tolerance < 20000 → exec .idleEntry s = .next s) ∧
    (s.power.state.idle = true → ∃ t x, exec .wake s = .next t ∧ t.power.pendState = some x ∧
      x.rank = max s.power.cap.rank ((s.power.thermal.map PState.rank).getD 0) ∧ t.cores = s.cores ∧ t.mem = s.mem) ∧
    (∀ w, s.mgmt.powered = true → ∃ t, exec (.watchtowerAlarm w) s = .next t ∧ t.keys = [] ∧ t.mgmt.halted = true ∧
      t.mgmt.alarm = (if s.mgmt.alarm = 0 then w else s.mgmt.alarm) ∧ t.cores = s.cores ∧
      ∀ k ∈ s.cores, ∀ x ∈ k.2.tasks, mapGet t.pdEnd (s.launch x.2.launch).pd = some 2) ∧
    (s.mgmt.powered = false → ∃ t, exec .powerUp s = .next t ∧ t.mgmt.powered = true ∧ t.mem = [] ∧ t.keys = [] ∧
      t.cores = State.reset.cores ∧ t.mgmt.bootNo = s.mgmt.bootNo + 1 ∧ t.mgmt.pubKeys = s.mgmt.pubKeys ∧
      t.mgmt.halted = !Config.firmwareGood (s.mgmt.bootNo + 1) ∧ t.mgmt.alarm = 0)

/-- R386: the hottest die temperature sets the thermal limit to P2 at 95 °C and to P3 at 105 °C, where the saves of R325 begin, and powers
the module off at 110 °C; each limit is lifted 5 °C below the threshold that set it, and not above. Below a threshold its event does nothing. -/
def Obligations.DieTemperature : Prop :=
  ∀ (s : State) (temp : Nat),
    (temp < 95 → exec (.thermalLimit temp) s = .next s) ∧
      (95 ≤ temp → s.power.thermal = none → ∃ t, exec (.thermalLimit temp) s = .next t ∧ t.power.thermal = some .p2 ∧
        t.power.target.rank = max s.power.cap.rank 2 ∧ t.cores = s.cores ∧ t.mem = s.mem ∧
        (s.power.state.idle = false → s.power.pendState.any PState.idle = false → t.power.pendState = some t.power.target)) ∧
      (temp < 105 → exec (.thermalEmergency temp) s = .next s) ∧
      (105 ≤ temp → s.power.emergency = false → (∀ x ∈ s.cores, x.2.tasks = []) → (∀ x ∈ s.clusters, x.2.placing = []) →
        ∃ t, exec (.thermalEmergency temp) s = .next t ∧ t.power.emergency = true ∧ t.power.thermal = some .p3 ∧ t.cores = s.cores) ∧
      (105 ≤ temp → s.power.emergency = false → ∃ t, exec (.thermalEmergency temp) s = .next (State.saveAll t) ∧
        t.power.emergency = true ∧ t.power.thermal = some .p3 ∧ t.cores = s.cores ∧ t.clusters = s.clusters) ∧
      (∀ x, s.power.thermal = some x →
        (temp ≤ 90 → ∃ t, exec (.thermalLimitLift temp) s = .next t ∧ t.power.thermal = none ∧ t.power.emergency = false ∧
          t.cores = s.cores) ∧
        (90 < temp → temp ≤ 100 → x = .p3 → ∃ t, exec (.thermalLimitLift temp) s = .next t ∧ t.power.thermal = some .p2 ∧
          t.power.emergency = false ∧ t.cores = s.cores) ∧
        (90 < temp → x ≠ .p3 ∨ 100 < temp → exec (.thermalLimitLift temp) s = .next s)) ∧
      (110 ≤ temp → s.mgmt.powered = true → ∃ t, exec (.hardTrip temp) s = .next t ∧ t.mgmt.powered = false ∧ t.mem = [] ∧ t.keys = [] ∧
        t.cores = State.reset.cores ∧ t.mgmt.bootNo = s.mgmt.bootNo ∧ t.mgmt.pubKeys = s.mgmt.pubKeys ∧
        ∀ k ∈ s.cores, ∀ x ∈ k.2.tasks, mapGet t.pdEnd (s.launch x.2.launch).pd = some 2) ∧
      (temp < 110 → exec (.hardTrip temp) s = .next s)

/-- R152, R156, R321, R322, R324, R361, R369, R376, R389: what the host commands do, one at a time in ring order.
R249, R330, R331, R360, R371, R372: what reaches the module over its connections. -/
def Obligations.HostEvents : Prop :=
  ((∀ (m : State) (l : List Byte) (st r : Nat), (m.cmdDone l st r).rings.cmdHead = m.rings.cmdHead + 1 ∧ (m.cmdDone l st r).rings.cmdWait = none ∧
     KeepsBands m (m.cmdDone l st r)) ∧
   ∀ (s : State) (l a : List Byte), a = l.drop 16 →
     (∀ ev ∈ [Instr.tlbinv, .bufinv, .recallCommand, .faultans, .load, .unload, .preempt, .restore, .killpd, .hostCommandUnknownOpcode],
       (s.cmdEntry = none → exec ev s = .next s) ∧
       (s.cmdEntry = some l → numAt l 4 4 ≠ s.rings.cmdHead.toNat → ∃ t, exec ev s = .next t ∧ t.rings.cmdStopped = true ∧ t.cores = s.cores)) ∧
     (∀ op, op = 0 ∨ 9 < op → s.commands l op → exec .hostCommandUnknownOpcode s = .next (s.cmdDone l 1 0)) ∧
     (s.commands l 1 → (s.pdValid (numAt a 0 4) = false → exec .tlbinv s = .next (s.cmdDone l 2 0)) ∧
       (s.pdValid (numAt a 0 4) = true → ∃ m : State, exec .tlbinv s = .next (m.cmdDone l 0 0) ∧ (∀ c, { m.core c with tlb := [] } =
         { s.core c with tlb := [] }) ∧ ∀ c e, e ∈ (m.core c).tlb ↔ e ∈ (s.core c).tlb ∧ ¬(e.pd = numAt a 0 4 ∧
           numAt a 4 8 < e.va.toNat + 2 ^ e.bits ∧ e.va.toNat < numAt a 4 8 + numAt a 12 8))) ∧
     (s.commands l 2 → exec .bufinv s = .next (s.cmdDone l (if numAt a 0 4 < 65536 then 0 else 1) 0)) ∧
     (s.commands l 3 → ∃ m, exec .recallCommand s = .next (m.cmdDone l 0 0) ∧ m = s.recallRange (numAt a 0 8) (numAt a 8 8) ∧ KeepsBands s m) ∧
     (s.commands l 4 → ∀ o, o = s.faultOpen.find? (fun r => r.core == numAt a 0 2 && r.slot == numAt a 2 1 && r.entry == numAt a 3 1 &&
         r.addr.toNat == numAt a 4 8) → (o = none → exec .faultans s = .next (s.cmdDone l 3 0)) ∧
       (∀ r, o = some r → (numAt a 12 1 = 0 → exec .faultans s = .next ((s.resumeRecord r).cmdDone l 0 0)) ∧
         (numAt a 12 1 = 1 → exec .faultans s = .next ((s.killDomain r.pd 3).cmdDone l 0 0)) ∧
         (1 < numAt a 12 1 → exec .faultans s = .next (s.cmdDone l 1 0)))) ∧
     (s.commands l 5 → ∀ x : LoadArgs, x = ⟨BitVec.ofNat 64 (numAt a 0 8), numAt a 8 8, numAt a 16 4, numAt a 20 8, numAt a 28 2, numAt a 30 2⟩ →
       (4 ≤ x.flags → exec .load s = .next (s.cmdDone l 1 0)) ∧
       (x.flags < 4 → s.pdValid x.pd = false → exec .load s = .next (s.cmdDone l 2 0)) ∧
       (x.flags < 4 → s.pdValid x.pd = true → ∀ m,
         (∀ e, s.askRead ⟨0, none⟩ x.obj x.bytes = (m, .error e) → exec .load s = .next (m.cmdDone l 6 0)) ∧
         ∀ o, s.askRead ⟨0, none⟩ x.obj x.bytes = (m, .ok o) →
           (∀ e, m.loadObject x o = .error e → exec .load s = .next (m.cmdDone l e 0)) ∧
           ∀ n h, m.loadObject x o = .ok (n, h) → exec .load s = .next (n.cmdDone l 0 h))) ∧
     (s.commands l 6 → ∀ h, h = numAt a 0 4 → (mapGet s.objects h = none → exec .unload s = .next (s.cmdDone l 3 0)) ∧
       ((mapGet s.objects h).isSome = true → s.objectUsed h = true → exec .unload s = .next s) ∧
       ((mapGet s.objects h).isSome = true → s.objectUsed h = false → exec .unload s = .next ((s.unloadObject h).cmdDone l 0 0))) ∧
     (s.commands l 7 → ∀ c, c = numAt a 0 2 → s.rings.cmdWait = none → (s.taskAt c (numAt a 2 1) = none → exec .preempt s = .next (s.cmdDone l 3 0)) ∧
       (∀ n, s.taskAt c (numAt a 2 1) = some n → (s.takesRequest c n = false → exec .preempt s = .next (s.cmdDone l 3 0)) ∧
         (s.takesRequest c n = true → ∃ t m, m = s.requestPre c n (BitVec.ofNat 64 (numAt a 3 8)) 1 ∧ exec .preempt s = .next t ∧
           t.rings.cmdWait = some (c, n, ((s.core c).task n).launch, ((s.core c).task n).number) ∧
           t.rings.cmdHead = s.rings.cmdHead ∧ t.cores = m.cores))) ∧
     (s.commands l 7 → ∀ w, s.rings.cmdWait = some w → (s.stillSaving w = true → exec .preempt s = .next s) ∧
       (s.stillSaving w = false → (s.savedTasks.any fun t => t.launch == w.2.2.1 && t.number == w.2.2.2) = true →
         exec .preempt s = .next (s.cmdDone l 0 0)) ∧
       (s.stillSaving w = false → (s.savedTasks.any fun t => t.launch == w.2.2.1 && t.number == w.2.2.2) = false →
         s.findTask w.2.2.1 w.2.2.2 = none → exec .preempt s = .next (s.cmdDone l 3 0))) ∧
     (s.commands l 8 → ∀ pd area, pd = numAt a 0 4 → area = BitVec.ofNat 64 (numAt a 4 8) →
       (s.pdValid pd = false → exec .restore s = .next (s.cmdDone l 2 0)) ∧
       (s.pdValid pd = true → (s.taskOfArea pd area = none → exec .restore s = .next (s.cmdDone l 3 0)) ∧
         (∀ k n, s.taskOfArea pd area = some (k, n, true) → exec .restore s =
           .next ((s.enqueue (s.restoreCluster (s.launch k) n) ⟨k, n, some area, none, false, none⟩).cmdDone l 0 0)) ∧
         (∀ k n, s.taskOfArea pd area = some (k, n, false) →
           (∀ m, s.readArea pd area = (m, none) → exec .restore s = .next ((m.loseSaved k n).cmdDone l 3 0)) ∧
           ∀ m v, s.readArea pd area = (m, some v) → exec .restore s =
             .next ((m.enqueue (m.restoreCluster (m.launch k) n) ⟨k, n, some area, none, false, none⟩).cmdDone l 0 0)))) ∧
     (s.commands l 9 → (s.pdValid (numAt a 0 4) = false → exec .killpd s = .next (s.cmdDone l 2 0)) ∧
       (s.pdValid (numAt a 0 4) = true → exec .killpd s = .next ((s.killDomain (numAt a 0 4) 3).cmdDone l 0 0)))) ∧
  (∀ (s : State) (c : Nat),
     (∀ e pd key, ∃ t, exec (.transportConnection c e pd key) s = .next t ∧ mapGet t.conns c = some ⟨e, pd, key⟩ ∧
       (∀ d, d ≠ c → mapGet t.conns d = mapGet s.conns d) ∧ t.cores = s.cores ∧ t.mem = s.mem) ∧
     (mapGet s.conns c = none → (∀ va bs, exec (.rdmaWrite c va bs) s = .next (s.send (.accessError c))) ∧
       (∀ va n, exec (.rdmaRead c va n) s = .next (s.send (.accessError c)))) ∧
     (∀ x a, mapGet s.conns c = some x → a = Asker.mk x.pd (some x.key) → ∀ va : BitVec 64,
       (inRegs va.toNat = false → (∀ bs m, s.wakeUp.askWrite a va bs = (m, none) → exec (.rdmaWrite c va bs) s = .next (m.send (.rdmaDone c))) ∧
         (∀ bs m e, s.wakeUp.askWrite a va bs = (m, some e) → exec (.rdmaWrite c va bs) s = .next (m.send (.accessError c))) ∧
         (∀ n m bs, s.wakeUp.askRead a va n = (m, .ok bs) → exec (.rdmaRead c va n) s = .next (m.send (.rdmaData c bs))) ∧
         (∀ n m e, s.wakeUp.askRead a va n = (m, .error e) → exec (.rdmaRead c va n) s = .next (m.send (.accessError c)))) ∧
       (inRegs va.toNat = true → ∀ o, o = va.toNat - regBase →
         (∀ bs, exec (.rdmaWrite c va bs) s = .next (s.wakeUp.connRegWrite c va.toNat bs)) ∧
         (∀ n, s.isAdmin c = true ∨ s.ownTail c o n = true → ∃ t, exec (.rdmaRead c va n) s = .next t ∧
           t.out = s.out ++ [.rdmaData c ((List.range n).map fun i => s.wakeUp.regByte (o + i))]) ∧
         (∀ n, s.isAdmin c = false → s.ownTail c o n = false → exec (.rdmaRead c va n) s = .next (s.wakeUp.send (.accessError c))))) ∧
     (∀ pa bs, (inRegs pa = false ∨ (s.isAdmin c = false ∧ s.ownTail c (pa - regBase) bs.length = false) →
         exec (.registerWrite c pa bs) s = .next (s.send (.accessError c))) ∧
       (inRegs pa = true → s.isAdmin c = true ∨ s.ownTail c (pa - regBase) bs.length = true →
         (∀ t, s.regWrite (pa - regBase) bs = some t → exec (.registerWrite c pa bs) s = .next (t.send (.rdmaDone c))) ∧
         (s.regWrite (pa - regBase) bs = none → exec (.registerWrite c pa bs) s = .next (s.send (.accessError c))))) ∧
     (∀ i x, (s.isAdmin c = true → bufAccepted x = true → ∃ t, exec (.bufferTableWrite c i x) s = .next t ∧ mapGet t.bufs i = some x ∧
         (∀ j, j ≠ i → mapGet t.bufs j = mapGet s.bufs j) ∧ t.out = s.out ++ [.rdmaDone c] ∧ t.cores = s.cores ∧ t.mem = s.mem) ∧
       (s.isAdmin c = false ∨ bufAccepted x = false → exec (.bufferTableWrite c i x) s = .next (s.send (.accessError c)))) ∧
     (∀ q w, mapGet s.wqs q = some w → (s.isAdmin c = true → ∃ t, exec (.wqErrClear c q) s = .next t ∧
         mapGet t.wqs q = some { w with err := false } ∧ (∀ p, p ≠ q → mapGet t.wqs p = mapGet s.wqs p) ∧ t.out = s.out ++ [.rdmaDone c]) ∧
       (s.isAdmin c = false → exec (.wqErrClear c q) s = .next (s.send (.accessError c)))) ∧
     (∀ n addr a, ∃ t m e old, s.atomicAt ⟨(s.buf (addr / 2 ^ 44)).owner, none⟩ (addr / 2 ^ 44) (addr % 2 ^ 44) a.ty.size (remoteNew a) = (m, e, old) ∧
       exec (.remoteAtomic n addr a) s = .next t ∧ t = m.send (.remoteReply n (BitVec.ofNat 64 old) (e != 0)) ∧ KeepsBands s t))

/-- R331 to R335, R338, R339: what the events of the graph walkers do. -/
def Obligations.WalkerEvents : Prop :=
  (∀ (s : State) (q st n : Nat) (w : Word), mapGet (s.endGraph q st n w).graphs q = none ∧ KeepsBands s (s.endGraph q st n w)) ∧
  (∀ (s : State) (spire q : Nat) (w : WorkQueue), s.nextQueue spire = some q → mapGet s.wqs q = some w → ∀ m r,
    s.askRead (s.walkAsker q) (w.rbase + BitVec.ofNat 64 (32 * (w.head.toNat % 2 ^ (min 16 w.log2n.toNat)))) 32 = (m, r) →
      (∀ l, r = .ok l → entryOk l w.head.toNat = true → ∃ t g, exec (.walkerTakeEntry spire) s = .next t ∧
        mapGet t.wqs q = some { w with head := w.head + 1 } ∧ mapGet t.graphs q = some g ∧ g.addr = BitVec.ofNat 64 (numAt l 0 8) ∧
        g.seq = w.head ∧ g.record = BitVec.ofNat 64 (numAt l 16 8) ∧ g.node = numAt l 8 2 ∧ g.w = [] ∧ g.launch = none ∧ KeepsBands s t) ∧
      ((∀ l, r = .ok l → entryOk l w.head.toNat = false) → ∃ t, exec (.walkerTakeEntry spire) s = .next t ∧
        mapGet t.wqs q = some { w with err := true } ∧ t.graphs = s.graphs ∧ KeepsBands s t)) ∧
  ∀ (s : State) (q : Nat) (g : Graph), mapGet s.graphs q = some g → g.waiting = false → g.launch = none →
    (∀ t, s.readNode q g = (t, none) → exec (.malformedNode q) s = .next (t.endGraph q 1 0 0)) ∧
    ∀ t l, s.readNode q g = (t, some l) →
      (nodeType l = 0 ∨ 8 ≤ nodeType l → exec (.malformedNode q) s = .next (t.endGraph q 1 0 0)) ∧
      (headerOkN l = false → ∀ p ∈ [(Instr.kernelNode q, 1), (.copyNode q, 2), (.condNode q, 3), (.whileNode q, 4), (.waitqNode q, 5),
        (.waitqPoll q, 5), (.waitqTimeout q, 5), (.signalNode q, 6), (.endNode q, 7)], nodeType l = p.2 →
          exec p.1 s = .next (t.endGraph q 1 0 0)) ∧
      (headerOkN l = true →
        (nodeType l = 1 → numAt l 10 1 < 16 → numAt l 11 1 < 7 → zeroIn l 38 40 = true →
          (t.launchOf q g l = none → exec (.kernelNode q) s = .next (t.endGraph q 3 0 0)) ∧
          ∀ x, t.launchOf q g l = some x → (t.coResident x = false → exec (.kernelNode q) s = .next (t.endGraph q 2 0 0)) ∧
            (t.coResident x = true → ∃ m : State, mapGet m.launches t.nextLaunch = some x ∧
              mapGet m.graphs q = some { g with launch := some t.nextLaunch } ∧ m.cores = t.cores ∧ m.clusters = t.clusters ∧
              exec (.kernelNode q) s = .next ((m.distribute t.nextLaunch x).checkLaunch t.nextLaunch))) ∧
        (nodeType l = 2 → zeroIn l 32 64 = true → ∀ src dst n, src = BitVec.ofNat 64 (numAt l 8 8 + g.copyPos) →
          dst = BitVec.ofNat 64 (numAt l 16 8 + g.copyPos) → n = numAt l 24 8 - g.copyPos → ∀ a b c d bs,
            t.rangeFault (t.walkAsker q).pd src n false = (a, none) → a.rangeFault (t.walkAsker q).pd dst n true = (b, none) →
            b.rangeReadAs (t.walkAsker q) src n = (c, 0, bs) → c.rangeWriteAs (t.walkAsker q) none dst bs = (d, 0) →
              s.GoesTo q g (.copyNode q) (nodeNext l) g.w) ∧
        (nodeType l = 3 → condOk l = true → zeroIn l 5 8 = true → zeroIn l 16 64 = true →
          s.GoesTo q g (.condNode q) (if condHolds g l then numAt l 12 2 else nodeNext l) g.w) ∧
        (nodeType l = 4 → condOk l = true → numAt l 5 1 < 16 → zeroIn l 6 8 = true → zeroIn l 20 64 = true → ∀ c limit, c = numAt l 5 1 →
          limit = (if numAt l 16 4 = 0 then 2 ^ 32 else numAt l 16 4) →
            (condHolds g l = false → s.GoesTo q g (.whileNode q) (nodeNext l) (mapSet g.w c 0)) ∧
            (condHolds g l = true → limit ≤ (g.reg c).toNat → exec (.whileNode q) s = .next (t.endGraph q 6 0 0)) ∧
            (condHolds g l = true → (g.reg c).toNat < limit → s.GoesTo q g (.whileNode q) (numAt l 12 2) (mapSet g.w c (g.reg c + 1)))) ∧
        (nodeType l = 5 → waitqOk l = true → ∀ m r va, va = BitVec.ofNat 64 (numAt l 8 8) →
          let holds := fun bs => compareCC (BitVec.ofNat 4 (numAt l 4 1 / 16)) (BitVec.ofNat 64 (ofBytes bs) &&& BitVec.ofNat 64 (numAt l 24 8))
            (BitVec.ofNat 64 (numAt l 16 8))
          (g.waitFrom = none → (t.updGraph q fun g => { g with waitFrom := some t.usec }).askRead (t.walkAsker q) va 8 = (m, .ok r) →
            (holds r = true → s.GoesTo q g (.waitqNode q) (nodeNext l) g.w) ∧
            (holds r = false → exec (.waitqNode q) s = .next m ∧ mapGet m.graphs q = some { g with waitFrom := some t.usec })) ∧
          (∀ u, g.waitFrom = some u → t.askRead (t.walkAsker q) va 8 = (m, .ok r) →
            (holds r = true → s.GoesTo q g (.waitqPoll q) (nodeNext l) g.w) ∧ (holds r = false → exec (.waitqPoll q) s = .next m)) ∧
          (∀ u, g.waitFrom = some u → numAt l 32 4 ≠ 0 → u + numAt l 32 4 ≤ t.usec → exec (.waitqTimeout q) s = .next (t.endGraph q 7 0 0))) ∧
        (nodeType l = 6 → zeroIn l 5 8 = true → zeroIn l 24 64 = true → numAt l 8 8 % 8 = 0 → ∀ va v m, va = BitVec.ofNat 64 (numAt l 8 8) →
          v = (if bitN (numAt l 4 1) 1 then (g.reg (numAt l 4 1 / 16)).setWidth 64 else BitVec.ofNat 64 (numAt l 16 8)) →
            (bitN (numAt l 4 1) 0 = false → t.askWrite (t.walkAsker q) va (bytesOf 8 v.toNat) = (m, none) →
              s.GoesTo q g (.signalNode q) (nodeNext l) g.w) ∧
            (bitN (numAt l 4 1) 0 = true → ∀ n bs, t.askRead (t.walkAsker q) va 8 = (n, .ok bs) →
              n.askWrite (t.walkAsker q) va (bytesOf 8 (BitVec.ofNat 64 (ofBytes bs) + v).toNat) = (m, none) →
                s.GoesTo q g (.signalNode q) (nodeNext l) g.w)) ∧
        (nodeType l = 7 → zeroIn l 4 64 = true → exec (.endNode q) s = .next (t.endGraph q 0 0 0)))

/-- R67, R152, R155, R156, R367, R368, R374: what the events of fetch, translation, fault records, channels and access counters do. -/
def Obligations.TranslationAndChannelEvents : Prop :=
  ∀ s : State,
    (∀ c e en, mapGet (s.core c).table e = some en → en.wait = .fetch →
      (s.missing c e = none → ∃ t, exec (.instructionLineFill c e) s = .next t ∧ ((t.core c).entry e) = { en with wait := .ready }) ∧
      (∀ a pd m, s.missing c e = some a → pd = s.pdOf c en.slot →
        (∀ n, s.translate c pd a accFetch = (m, .error n) → exec (.instructionLineFill c e) s =
          .next ((m.park c e accFetch a ((lanesOf en.lanes).map fun l => (l, a, n))).rebalance c e)) ∧
        (∀ t n d, s.translate c pd a accFetch = (m, .ok t) → m.readLine c pd { t with off := t.off / 128 * 128 } = (n, 0, d) →
          ∃ u, exec (.instructionLineFill c e) s = .next u ∧ ((u.core c).entry e) = { en with wait := .ready } ∧
            ⟨pd, BitVec.ofNat 64 (a.toNat / 128 * 128), d, false⟩ ∈ (u.core c).ibuf ∧
            (∀ b, { (u.core c).band b with relFail := [] } = { (s.core c).band b with relFail := [] }) ∧ (u.core c).vrf = (s.core c).vrf ∧ (u.core c).tasks = (s.core c).tasks) ∧
        (∀ t n x d, x ≠ 0 → s.translate c pd a accFetch = (m, .ok t) → m.readLine c pd { t with off := t.off / 128 * 128 } = (n, x, d) →
          exec (.instructionLineFill c e) s = .next ((n.updEntry c e fun x => { x with wait := .ready }).takeTrap c en.slot 0x0C x (some e)
            (((n.core c).band en.slot).thread ((lowestLane en.lanes).getD 0)).pc en.lanes a)))) ∧
    (∀ c e en op m acc faults b, mapGet (s.core c).table e = some en → en.wait = .translate op →
      (s.updEntry c e fun x => { x with wait := .ready }).transAll c ((s.updEntry c e fun x => { x with wait := .ready }).pdOf c en.slot) op true =
        (m, acc, faults, b) → exec (.pageTableWalk c e) s = .next ((m.memPerform c e op acc faults).rebalance c e)) ∧
    (∀ c e en vas access, mapGet (s.core c).table e = some en → en.wait = .walk vas access →
      exec (.pageTableWalk c e) s = .next (s.walkFor c e vas access)) ∧
    (∀ pd r p, s.faultWait.find? (fun r => r.pd == pd) = some r → p = mapGetD s.pds r.pd PdRec.fresh →
      ((p.tail - p.head).toNat < 2 ^ p.log2n.toNat → ∀ m t n, s.translateFor r.pd (p.ring + BitVec.ofNat 64 (32 * (p.tail.toNat % 2 ^ p.log2n.toNat))) true =
          (m, .ok t) → m.writeBuf ⟨r.pd, none⟩ t.buf t.off r.bytes = (n, 0) → ∃ u, exec (.faultRecordPost pd) s = .next u ∧
            u.faultWait = s.faultWait.erase r ∧ u.faultOpen = s.faultOpen ++ [r] ∧ (mapGet s.pds r.pd = some p →
              mapGet u.pds r.pd = some { p with tail := p.tail + 1 }) ∧ KeepsBands s u) ∧
      (2 ^ p.log2n.toNat ≤ (p.tail - p.head).toNat → exec (.faultRecordPost pd) s = .next s)) ∧
    (∀ k ch lane margin, ∃ t y, exec (.eyeMarginMeasure k ch lane margin) s = .next t ∧ mapGet t.chans (32 * k + ch) = some y ∧
      (∀ i, i ≠ 32 * k + ch → mapGet t.chans i = mapGet s.chans i) ∧ t.cores = s.cores ∧ t.mem = s.mem ∧
      let x := s.chan (32 * k + ch)
      mapGet y.margins lane = some margin ∧ y.minMargin = some (min margin (x.minMargin.getD margin)) ∧ (margin < 12 → y.marginEv = true) ∧
        (12 ≤ margin → y.marginEv = x.marginEv) ∧ (8 ≤ margin → y.due = x.due ∧ y.offline = x.offline) ∧
        (margin < 8 → lane ∉ x.due → x.rep0 = none → x.rep1 = none → x.due = [] → y.due = [lane] ∧ y.offline = x.offline) ∧
        (margin = 0 → lane ∉ x.due → x.rep0.isSome = true → x.rep1.isSome = true → y.offline = true)) ∧
    (∀ k ch lane x, mapGet s.chans (32 * k + ch) = some x → ∃ t y, exec (.laneRepair k ch lane) s = .next t ∧
      mapGet t.chans (32 * k + ch) = some y ∧ (∀ i, i ≠ 32 * k + ch → mapGet t.chans i = mapGet s.chans i) ∧
        (lane ∉ x.due → y = x) ∧ (lane ∈ x.due → y.due = x.due.erase lane ∧ mapGet y.margins lane = none ∧
          (x.rep0 = none → y.rep0 = some lane ∧ y.rep1 = x.rep1) ∧ (x.rep0.isSome = true → y.rep1 = some lane ∧ y.rep0 = x.rep0))) ∧
    (∀ p, (fieldN (mapGetD s.tierCtl p 0xFFFF0000#32).toNat 15 12 = 0 → exec (.counterDecay p) s = .next s) ∧
      (fieldN (mapGetD s.tierCtl p 0xFFFF0000#32).toNat 15 12 ≠ 0 → ∃ t, exec (.counterDecay p) s = .next t ∧ t.cores = s.cores ∧ t.mem = s.mem ∧
        ∀ i, mapGet t.counters i = (mapGet s.counters i).map fun n => if portOf (65536 * i) = p then n / 2 else n))

/-- R285, R295 to R298, R302, R305, R321, R350: what the events of a placed task do.
R24 to R27, R78, R302, R343, R345, R347, R349, R350, R382: what the events of the dispatchers, the cluster schedulers and the control
interval do. -/
def Obligations.SchedulingEvents : Prop :=
  ((∀ (s : State) (c slot code : Nat), (mapGet (s.core c).bands slot).isSome = true → ∀ m : State,
     m = s.updBand c slot (fun b => { b with pre := false }) → ∀ n, n = (s.core c).taskOfBand slot →
       (((s.core c).task n).kvec ≠ 0 → m.Enters c slot 0x0E code 0 0 0 (s.takeRequest c slot code)) ∧
       (((s.core c).task n).kvec = 0 → (mapGet (s.core c).tasks n).isSome = true → m.Ends c n 1 0x0E code (s.takeRequest c slot code))) ∧
   ∀ (s : State) (c n : Nat) (x : Task), mapGet (s.core c).tasks n = some x →
     (∀ slot area, s.taskAt c slot = some n → (s.takesRequest c n = false → exec (.preemptionRequest c slot area) s = .next s) ∧
       (s.takesRequest c n = true → ∃ u, exec (.preemptionRequest c slot area) s = .next u ∧ ((u.core c).task n).request = some ⟨area, 1⟩ ∧
         ((u.core c).task n).saved = true ∧ ((u.core c).task n).ksave = area ∧
         ∀ b ∈ x.slots, (mapGet (s.core c).bands b).isSome = true → ((u.core c).band b).pre = true)) ∧
     (x.request = none → exec (.preemptionEntry c n) s = .next s) ∧
     (∀ r, x.request = some r → x.state ≠ .draining → (∀ p, x.phase = some p → p.admitted = true → p.switchTo = none) →
       (∃ b ∈ x.slots, ((s.core c).band b).pre = true ∧ ((s.core c).band b).keep = false) →
       ∃ F : State → Nat → State, exec (.preemptionEntry c n) s = .next (x.slots.foldl F ((s.stopAll c n).withdrawPhase c n)) ∧ ∀ m b,
         (((m.core c).band b).pre = true → ((m.core c).band b).keep = false → ((m.core c).task n).state ≠ .draining →
           F m b = m.takeRequest c b r.code) ∧
         (((m.core c).band b).pre = false ∨ ((m.core c).band b).keep = true ∨ ((m.core c).task n).state = .draining → F m b = m)) ∧
     (∀ p, x.phase = some p →
       (∀ k v w, p.switchTo = some k → p.admitted = true → s.restsForSwitch c n = true →
         (s.cluster (coreCluster c)).placing.any (·.core == c) = false → s.variantOf (s.launch x.launch) k = some v →
         ((s.variantOf (s.launch x.launch) x.variant).bind fun v => v.switches.find? fun r => r.target == k &&
           (s.object (s.launch x.launch).object).va + BitVec.ofNat 64 r.at_ == p.pc) = some w →
             (∀ t, s.switchTask c n k v w = some t → exec (.variantSwitch c n) s = .next t) ∧
             (s.switchTask c n k v w = none → ∃ m, exec (.variantSwitch c n) s = .next (State.releasePhase m c n) ∧
               ∀ f : Task → Task, (∀ y z, f { y with current := z } = f y) → f ((m.core c).task n) = f x)) ∧
       (p.switchTo = none ∨ p.admitted = false ∨ s.restsForSwitch c n = false → exec (.variantSwitch c n) s = .next s) ∧
       (p.posted = true → p.admitted = false → p.since + (s.launch x.launch).limit ≤ s.usec →
         ∃ F : State → Nat → State, exec (.phaseAdmissionTimeout c n) s = .next (x.slots.foldl F (s.withdrawPhase c n)) ∧ ∀ m b,
           (((m.core c).task n).state = .draining → F m b = m) ∧
           (∀ e en, ((m.core c).task n).state ≠ .draining → (e, en) ∈ (s.core c).table → en.slot = b → b ∈ x.slots → en.wait = Wait.phase →
             (∀ d dn, (d, dn) ∈ (s.core c).table → dn.slot = b → dn.wait = Wait.phase → (d, dn) ≠ (e, en) →
               (lowestLane en.lanes).getD 32 < (lowestLane dn.lanes).getD 32) →
             F m b = m.takeTrap c b 0x0F 0 (some e) p.pc en.lanes 0)) ∧
       (p.posted = false ∨ p.admitted = true ∨ s.usec < p.since + (s.launch x.launch).limit →
         exec (.phaseAdmissionTimeout c n) s = .next s)) ∧
     ((s.core c).drained n = true → x.hands = false → ∃ t, exec (.taskRetire c n) s = .next t ∧ t = s.retireTask c n x.endKind ∧
       mapGet (t.core c).tasks n = none) ∧
     ((s.core c).drained n = false ∨ x.hands = true → exec (.taskRetire c n) s = .next s) ∧
     ((s.core c).drained n = true → x.hands = true → ∀ m l, s.readTcb (s.launch x.launch).pd (x.succ.getD 0) = (m, l) →
       (l = none ∨ (∃ b, l = some b ∧ x.takesTcb b = false) → exec (.successorStart c n) s = .next (m.retireTask c n 4)) ∧
       (∀ b, l = some b → x.takesTcb b = true →
         m.admits (coreCluster c) (numAt b 32 4) (numAt b 36 2) x.current = true →
         ((s.core c).table.filter fun e => e.1 < 256).length + x.nbands ≤ 256 → numAt b 38 1 = 0 →
           ∃ t, exec (.successorStart c n) s = .next t ∧ (t.core c).task n = x.successor b))) ∧
  (∀ (s : State) (cl : Nat),
     ((s.cluster cl).placing = [] → exec (.place cl) s = .next s) ∧
     (∀ p ps m, (s.cluster cl).placing = p :: ps → p.task.restore = none → p.request = none → m = s.updCluster cl (fun x => { x with placing := ps }) →
       exec (.place cl) s = .next (m.placeTask p.task p.core p.variant p.pipes) ∧
       ∀ v d k g bs tiles accs sp l, l = s.launch p.task.launch → s.variantOf l p.variant = some v → d = v.needs → (s.core p.core).takeGen = (k, g) →
         k.choosePipes d.vg p.pipes d.bands = some bs → bs ≠ [] → lowestFree k.tileUsed 8 d.tg = some tiles → lowestFree k.accUsed 32 d.na = some accs →
         (if d.sp = 0 then some 0 else freeRun (k.spUsed none) d.sp) = some sp →
           ∃ t n x, exec (.place cl) s = .next t ∧ mapGet (t.core p.core).tasks n = some x ∧ n ∈ x.slots ∧ x.launch = p.task.launch ∧
             x.number = p.task.number ∧ x.variant = p.variant ∧ x.nbands = v.nbands ∧ x.gen = g ∧ x.tileMap = tiles ∧ x.accMap = accs ∧
             x.spBase = 4096 * sp ∧ x.par = l.par ∧ x.kvec = l.kvec ∧ x.saved = false ∧ x.request = none ∧ x.state = .placed ∧
             x.tlbase = l.tlbaseOf v (s.kernelOf l).tlstride p.task.number ∧ (t.cluster cl).placing = ps) ∧
     (∀ c k, mapGet s.cores c = some k → ∃ t, exec (.generationSweepEnd c) s = .next t ∧ (t.core c).sweep = false ∧
       (k.sweep = false → t.core c = k) ∧ (∀ d, d ≠ c → t.core d = s.core d) ∧ t.mem = s.mem) ∧
     ((s.cluster cl).placing ≠ [] → exec (.placementAttempt cl) s = .next s) ∧
     ((s.cluster cl).placing = [] → exec (.placementAttempt cl) s = .next (s.attempt cl (s.cluster cl).queue) ∧
       ∀ q r l, (s.cluster cl).queue = q :: r → l = s.launch q.launch → (mapGetD s.pds l.pd PdRec.fresh).flags.getLsbD 0 = true →
         q.restore = none → s.groupOfQ q = none → s.notLowest cl q = false → ∀ c n v,
           s.chooseFor l ((l.coresFor q.number (l.coresIn cl)).filter fun c => !s.heldFor c q) none = some (c, n) → s.variantOf l n = some v →
             (s.admits cl v.energy v.current 0 = true → ∃ t, exec (.placementAttempt cl) s = .next t ∧ t = (s.charge cl v.energy).beginPlacing q c n none ∧
               ⟨q, c, n, none, none⟩ ∈ (t.cluster (coreCluster c)).placing ∧
               ∀ d, ∀ y ∈ (t.cluster d).queue, y.is q.launch q.number = false ∨ y.restore ≠ none) ∧
             (s.admits cl v.energy v.current 0 = false → ∃ t, exec (.placementAttempt cl) s = .next t ∧
               (t.cluster cl).blocked = some (q.launch, q.number) ∧ (t.cluster cl).placing = [])) ∧
     (∀ q r, (s.cluster cl).queue = q :: r → (∀ u, q.firstSince = some u → u + 64 ≤ s.usec → ∃ t, exec (.queueHeadAgeExpiry cl) s = .next t ∧
         (t.cluster cl).queue = { q with aged := true } :: r ∧ t.cores = s.cores) ∧
       (∀ u, q.firstSince = some u → s.usec < u + 64 → exec (.queueHeadAgeExpiry cl) s = .next s)) ∧
     (∀ o, o = (s.cluster cl).queue.find? (fun q => q.admitSince.any fun t => t + (s.launch q.launch).limit ≤ s.usec) →
       (o = none → exec (.queuedAdmissionTimeout cl) s = .next s) ∧
       (∀ q, o = some q → exec (.queuedAdmissionTimeout cl) s =
         .next (((s.updLaunch q.launch fun l => { l with timedOut := true }).withdraw q.launch).checkLaunch q.launch))) ∧
     (∀ v out, (s.cluster cl).queue = [] → (∃ i < 4, (s.core (4 * cl + i)).tasks = []) → v ∈ sectorClusters (cl / 16) → 2 ≤ (s.cluster v).queue.length →
       (∀ u ∈ sectorClusters (cl / 16), u ≠ v → (s.cluster u).queue.length < (s.cluster v).queue.length) →
       out = ((s.cluster v).queue.filter (s.ships cl)).drop (((s.cluster v).queue.filter (s.ships cl)).length -
         min ((s.cluster v).queue.filter (s.ships cl)).length ((s.cluster v).queue.length / 2)) →
         (out = [] → exec (.stealRequest cl) s = .next s) ∧
         (out ≠ [] → exec (.stealRequest cl) s = .next (out.foldl (fun s q => s.enqueue cl { q with firstSince := none, aged := false, admitSince := none })
           (s.setQueue v fun l => l.filter fun q => !out.contains q)))) ∧
     ((s.cluster cl).queue ≠ [] ∨ (∀ v ∈ sectorClusters (cl / 16), (s.cluster v).queue.length < 2) → exec (.stealRequest cl) s = .next s) ∧
     (∀ c slot n x l, s.taskAt c slot = some n → x = (s.core c).task n → l = s.launch x.launch →
       (l.slice = 0 ∨ l.saveBase = 0 ∨ l.det = true ∨ s.usec < x.sliceFrom + l.slice ∨ s.takesRequest c n = false →
         exec (.timeSliceExpiry c slot) s = .next s) ∧
       (l.slice ≠ 0 → l.saveBase ≠ 0 → l.det = false → (∀ g ∈ l.groups, g.2.cores = true → x.number ∉ g.2.members) →
         x.sliceFrom + l.slice ≤ s.usec → s.takesRequest c n = true →
         (∃ q ∈ (s.cluster (coreCluster c)).queue, q.launch ≠ x.launch ∧ l.prio ≤ s.prioOf q ∧
           s.chooseFor (s.launch q.launch) ((s.launch q.launch).coresIn (coreCluster c)) none = none) →
         ∀ area, area = l.saveBase + BitVec.ofNat 64 (l.saveStride * x.number) → exec (.timeSliceExpiry c slot) s =
           .next ((s.requestPre c n area 1).enqueue (coreCluster c) ⟨x.launch, x.number, some area, none, false, none⟩))) ∧
     ∃ m : State, exec .controlInterval s = .next (m.heldPhases.foldl (fun s p => s.tryPhase p.1 p.2) m) ∧ m.usec = s.usec + 1 ∧ m.cores = s.cores ∧
       m.power.pendState = none ∧ (∀ x, s.power.pendState = some x → x.idle = false ∨ s.idleNow = true → m.power.state = x) ∧
       (∀ x, s.power.pendState = some x → x.idle = true → s.idleNow = false → m.power.state = s.power.state) ∧
       (s.power.pendState = none → m.power.state = s.power.state) ∧ m.power.plan = s.power.pendPlan.getD s.power.plan ∧
       m.power.assist = m.power.state.assists ∧ ∀ d x, mapGet m.clusters d = some x → x.charged = 0 ∧ x.blocked = none)
end

