-- ==== Sys2Proof/Laws/Map.lean ====
section
/-! SUPPORT. Finite maps: what a read after an update gives. -/

-- One theorem at a time: the package compiles as one text, and a thread for each open proof asks for a stack of its own.
set_option Elab.async false

namespace Sys2Proof.Machine

variable {α : Type}

@[simp] theorem mapGet_nil (i : Nat) : mapGet ([] : Map α) i = none := rfl

theorem mapGet_mapSet (m : Map α) (i j : Nat) (x : α) :
    mapGet (mapSet m i x) j = if j = i then some x else mapGet m j := by
  induction m with
  | nil => simp [mapSet, mapGet]
  | cons p m ih =>
    obtain ⟨k, v⟩ := p
    rcases Nat.lt_trichotomy i k with h | h | h
    · simp only [mapSet, Nat.ne_of_lt h, h, if_true, if_false, mapGet]
    · subst h
      simp only [mapSet, if_true, mapGet]
      by_cases hj : j = i <;> simp [hj]
    · simp only [mapSet, Nat.ne_of_gt h, Nat.not_lt.2 (Nat.le_of_lt h), if_false, mapGet, ih]
      by_cases hj : j = k
      · simp [hj, Nat.ne_of_lt h]
      · simp [hj]

@[simp] theorem mapGet_mapSet_self (m : Map α) (i : Nat) (x : α) : mapGet (mapSet m i x) i = some x := by
  simp [mapGet_mapSet]

theorem mapGet_mapSet_ne (m : Map α) {i j : Nat} (x : α) (h : j ≠ i) : mapGet (mapSet m i x) j = mapGet m j := by
  simp [mapGet_mapSet, h]

theorem mapGetD_mapSet (m : Map α) (i j : Nat) (x d : α) :
    mapGetD (mapSet m i x) j d = if j = i then x else mapGetD m j d := by
  unfold mapGetD
  rw [mapGet_mapSet]
  split <;> rfl

theorem mapGet_mapUpd (m : Map α) (i j : Nat) (f : α → α) :
    mapGet (mapUpd m i f) j = if j = i then (mapGet m i).map f else mapGet m j := by
  unfold mapUpd
  cases h : mapGet m i with
  | none => by_cases hj : j = i <;> simp [hj, h]
  | some v => simp [mapGet_mapSet]

theorem mapGetD_mapUpd_ne (m : Map α) {i j : Nat} (f : α → α) (d : α) (h : j ≠ i) :
    mapGetD (mapUpd m i f) j d = mapGetD m j d := by
  simp [mapGetD, mapGet_mapUpd, h]

theorem mapGet_mapAll (m : Map α) (f : Nat → α → α) (i : Nat) : mapGet (mapAll m f) i = (mapGet m i).map (f i) := by
  induction m with
  | nil => rfl
  | cons p m ih =>
    obtain ⟨k, v⟩ := p
    simp only [mapAll, List.map_cons, mapGet] at *
    by_cases hi : i = k
    · simp [hi]
    · simp [hi, ih]

theorem mapGet_mapDel (m : Map α) (i j : Nat) : mapGet (mapDel m i) j = if j = i then none else mapGet m j := by
  induction m with
  | nil => simp [mapDel]
  | cons p m ih =>
    obtain ⟨k, v⟩ := p
    by_cases hk : i = k
    · subst hk
      simp only [mapDel, if_true, mapGet, ih]
      by_cases hj : j = i <;> simp [hj]
    · simp only [mapDel, hk, if_false, mapGet, ih]
      by_cases hj : j = k
      · simp [hj, Ne.symm hk]
      · simp [hj]

theorem mapGet_mapFilter_keys (m : Map α) (p : Nat → Bool) (i : Nat) :
    mapGet (mapFilter m fun k _ => p k) i = if p i then mapGet m i else none := by
  induction m with
  | nil => simp [mapFilter]
  | cons q m ih =>
    obtain ⟨k, v⟩ := q
    simp only [mapFilter, List.filter_cons] at *
    by_cases hi : i = k
    · subst hi; cases hp : p i <;> simp [hp, mapGet, ih]
    · cases hp : p k <;> simp [hi, mapGet, ih]

end Sys2Proof.Machine
end

