-- ==== Sys2Proof/Laws/State.lean ====
section
/-! SUPPORT. What the updates of the state and of a core leave: every field, true by rfl. -/

-- One theorem at a time: the package compiles as one text, and a thread for each open proof asks for a stack of its own.
set_option Elab.async false

namespace Sys2Proof.Machine

@[simp] theorem State.setCore_fields (s : State) (c : Nat) (k : Core) :
    (s.setCore c k).mem = s.mem ∧ (s.setCore c k).halfKey = s.halfKey ∧ (s.setCore c k).domes = s.domes ∧
    (s.setCore c k).nextAge = s.nextAge ∧ (s.setCore c k).replicas = s.replicas ∧ (s.setCore c k).pwOwner = s.pwOwner ∧
    (s.setCore c k).marks = s.marks ∧ (s.setCore c k).overflowed = s.overflowed ∧ (s.setCore c k).bufs = s.bufs ∧
    (s.setCore c k).pds = s.pds ∧ (s.setCore c k).wqs = s.wqs ∧ (s.setCore c k).routes = s.routes ∧
    (s.setCore c k).rings = s.rings ∧ (s.setCore c k).keys = s.keys ∧ (s.setCore c k).chans = s.chans ∧
    (s.setCore c k).tierCtl = s.tierCtl ∧ (s.setCore c k).counters = s.counters ∧ (s.setCore c k).posted = s.posted ∧
    (s.setCore c k).streams = s.streams ∧ (s.setCore c k).unmatched = s.unmatched ∧ (s.setCore c k).conns = s.conns ∧
    (s.setCore c k).objects = s.objects ∧ (s.setCore c k).nextObject = s.nextObject ∧ (s.setCore c k).pool = s.pool ∧
    (s.setCore c k).launches = s.launches ∧ (s.setCore c k).nextLaunch = s.nextLaunch ∧ (s.setCore c k).graphs = s.graphs ∧
    (s.setCore c k).lastTaken = s.lastTaken ∧ (s.setCore c k).clusters = s.clusters ∧ (s.setCore c k).engines = s.engines ∧
    (s.setCore c k).faultWait = s.faultWait ∧ (s.setCore c k).faultOpen = s.faultOpen ∧
    (s.setCore c k).savedTasks = s.savedTasks ∧ (s.setCore c k).pdEnd = s.pdEnd ∧ (s.setCore c k).events = s.events ∧
    (s.setCore c k).eventSrc = s.eventSrc ∧ (s.setCore c k).power = s.power ∧ (s.setCore c k).mgmt = s.mgmt ∧
    (s.setCore c k).out = s.out ∧ (s.setCore c k).turns = s.turns ∧ (s.setCore c k).cur = s.cur ∧
    (s.setCore c k).cycle = s.cycle ∧ (s.setCore c k).usec = s.usec ∧ (s.setCore c k).fresh = s.fresh := by
  and_intros <;> rfl

@[simp] theorem State.updCore_fields (s : State) (c : Nat) (f : Core → Core) :
    (s.updCore c f).mem = s.mem ∧ (s.updCore c f).halfKey = s.halfKey ∧ (s.updCore c f).domes = s.domes ∧
    (s.updCore c f).nextAge = s.nextAge ∧ (s.updCore c f).replicas = s.replicas ∧ (s.updCore c f).pwOwner = s.pwOwner ∧
    (s.updCore c f).marks = s.marks ∧ (s.updCore c f).overflowed = s.overflowed ∧ (s.updCore c f).bufs = s.bufs ∧
    (s.updCore c f).pds = s.pds ∧ (s.updCore c f).wqs = s.wqs ∧ (s.updCore c f).routes = s.routes ∧
    (s.updCore c f).rings = s.rings ∧ (s.updCore c f).keys = s.keys ∧ (s.updCore c f).chans = s.chans ∧
    (s.updCore c f).tierCtl = s.tierCtl ∧ (s.updCore c f).counters = s.counters ∧ (s.updCore c f).posted = s.posted ∧
    (s.updCore c f).streams = s.streams ∧ (s.updCore c f).unmatched = s.unmatched ∧ (s.updCore c f).conns = s.conns ∧
    (s.updCore c f).objects = s.objects ∧ (s.updCore c f).nextObject = s.nextObject ∧ (s.updCore c f).pool = s.pool ∧
    (s.updCore c f).launches = s.launches ∧ (s.updCore c f).nextLaunch = s.nextLaunch ∧ (s.updCore c f).graphs = s.graphs ∧
    (s.updCore c f).lastTaken = s.lastTaken ∧ (s.updCore c f).clusters = s.clusters ∧ (s.updCore c f).engines = s.engines ∧
    (s.updCore c f).faultWait = s.faultWait ∧ (s.updCore c f).faultOpen = s.faultOpen ∧
    (s.updCore c f).savedTasks = s.savedTasks ∧ (s.updCore c f).pdEnd = s.pdEnd ∧ (s.updCore c f).events = s.events ∧
    (s.updCore c f).eventSrc = s.eventSrc ∧ (s.updCore c f).power = s.power ∧ (s.updCore c f).mgmt = s.mgmt ∧
    (s.updCore c f).out = s.out ∧ (s.updCore c f).turns = s.turns ∧ (s.updCore c f).cur = s.cur ∧
    (s.updCore c f).cycle = s.cycle ∧ (s.updCore c f).usec = s.usec ∧ (s.updCore c f).fresh = s.fresh := by
  and_intros <;> rfl

@[simp] theorem State.updBand_fields (s : State) (c b : Nat) (f : Band → Band) :
    (s.updBand c b f).mem = s.mem ∧ (s.updBand c b f).halfKey = s.halfKey ∧ (s.updBand c b f).domes = s.domes ∧
    (s.updBand c b f).nextAge = s.nextAge ∧ (s.updBand c b f).replicas = s.replicas ∧
    (s.updBand c b f).pwOwner = s.pwOwner ∧ (s.updBand c b f).marks = s.marks ∧
    (s.updBand c b f).overflowed = s.overflowed ∧ (s.updBand c b f).bufs = s.bufs ∧ (s.updBand c b f).pds = s.pds ∧
    (s.updBand c b f).wqs = s.wqs ∧ (s.updBand c b f).routes = s.routes ∧ (s.updBand c b f).rings = s.rings ∧
    (s.updBand c b f).keys = s.keys ∧ (s.updBand c b f).chans = s.chans ∧ (s.updBand c b f).tierCtl = s.tierCtl ∧
    (s.updBand c b f).counters = s.counters ∧ (s.updBand c b f).posted = s.posted ∧ (s.updBand c b f).streams = s.streams ∧
    (s.updBand c b f).unmatched = s.unmatched ∧ (s.updBand c b f).conns = s.conns ∧ (s.updBand c b f).objects = s.objects ∧
    (s.updBand c b f).nextObject = s.nextObject ∧ (s.updBand c b f).pool = s.pool ∧
    (s.updBand c b f).launches = s.launches ∧ (s.updBand c b f).nextLaunch = s.nextLaunch ∧
    (s.updBand c b f).graphs = s.graphs ∧ (s.updBand c b f).lastTaken = s.lastTaken ∧
    (s.updBand c b f).clusters = s.clusters ∧ (s.updBand c b f).engines = s.engines ∧
    (s.updBand c b f).faultWait = s.faultWait ∧ (s.updBand c b f).faultOpen = s.faultOpen ∧
    (s.updBand c b f).savedTasks = s.savedTasks ∧ (s.updBand c b f).pdEnd = s.pdEnd ∧ (s.updBand c b f).events = s.events ∧
    (s.updBand c b f).eventSrc = s.eventSrc ∧ (s.updBand c b f).power = s.power ∧ (s.updBand c b f).mgmt = s.mgmt ∧
    (s.updBand c b f).out = s.out ∧ (s.updBand c b f).turns = s.turns ∧ (s.updBand c b f).cur = s.cur ∧
    (s.updBand c b f).cycle = s.cycle ∧ (s.updBand c b f).usec = s.usec ∧ (s.updBand c b f).fresh = s.fresh := by
  and_intros <;> rfl

@[simp] theorem State.updEntry_fields (s : State) (c e : Nat) (f : Entry → Entry) :
    (s.updEntry c e f).mem = s.mem ∧ (s.updEntry c e f).halfKey = s.halfKey ∧ (s.updEntry c e f).domes = s.domes ∧
    (s.updEntry c e f).nextAge = s.nextAge ∧ (s.updEntry c e f).replicas = s.replicas ∧
    (s.updEntry c e f).pwOwner = s.pwOwner ∧ (s.updEntry c e f).marks = s.marks ∧
    (s.updEntry c e f).overflowed = s.overflowed ∧ (s.updEntry c e f).bufs = s.bufs ∧ (s.updEntry c e f).pds = s.pds ∧
    (s.updEntry c e f).wqs = s.wqs ∧ (s.updEntry c e f).routes = s.routes ∧ (s.updEntry c e f).rings = s.rings ∧
    (s.updEntry c e f).keys = s.keys ∧ (s.updEntry c e f).chans = s.chans ∧ (s.updEntry c e f).tierCtl = s.tierCtl ∧
    (s.updEntry c e f).counters = s.counters ∧ (s.updEntry c e f).posted = s.posted ∧
    (s.updEntry c e f).streams = s.streams ∧ (s.updEntry c e f).unmatched = s.unmatched ∧
    (s.updEntry c e f).conns = s.conns ∧ (s.updEntry c e f).objects = s.objects ∧
    (s.updEntry c e f).nextObject = s.nextObject ∧ (s.updEntry c e f).pool = s.pool ∧
    (s.updEntry c e f).launches = s.launches ∧ (s.updEntry c e f).nextLaunch = s.nextLaunch ∧
    (s.updEntry c e f).graphs = s.graphs ∧ (s.updEntry c e f).lastTaken = s.lastTaken ∧
    (s.updEntry c e f).clusters = s.clusters ∧ (s.updEntry c e f).engines = s.engines ∧
    (s.updEntry c e f).faultWait = s.faultWait ∧ (s.updEntry c e f).faultOpen = s.faultOpen ∧
    (s.updEntry c e f).savedTasks = s.savedTasks ∧ (s.updEntry c e f).pdEnd = s.pdEnd ∧
    (s.updEntry c e f).events = s.events ∧ (s.updEntry c e f).eventSrc = s.eventSrc ∧ (s.updEntry c e f).power = s.power ∧
    (s.updEntry c e f).mgmt = s.mgmt ∧ (s.updEntry c e f).out = s.out ∧ (s.updEntry c e f).turns = s.turns ∧
    (s.updEntry c e f).cur = s.cur ∧ (s.updEntry c e f).cycle = s.cycle ∧ (s.updEntry c e f).usec = s.usec ∧
    (s.updEntry c e f).fresh = s.fresh := by
  and_intros <;> rfl

@[simp] theorem State.updTask_fields (s : State) (c t : Nat) (f : Task → Task) :
    (s.updTask c t f).mem = s.mem ∧ (s.updTask c t f).halfKey = s.halfKey ∧ (s.updTask c t f).domes = s.domes ∧
    (s.updTask c t f).nextAge = s.nextAge ∧ (s.updTask c t f).replicas = s.replicas ∧
    (s.updTask c t f).pwOwner = s.pwOwner ∧ (s.updTask c t f).marks = s.marks ∧
    (s.updTask c t f).overflowed = s.overflowed ∧ (s.updTask c t f).bufs = s.bufs ∧ (s.updTask c t f).pds = s.pds ∧
    (s.updTask c t f).wqs = s.wqs ∧ (s.updTask c t f).routes = s.routes ∧ (s.updTask c t f).rings = s.rings ∧
    (s.updTask c t f).keys = s.keys ∧ (s.updTask c t f).chans = s.chans ∧ (s.updTask c t f).tierCtl = s.tierCtl ∧
    (s.updTask c t f).counters = s.counters ∧ (s.updTask c t f).posted = s.posted ∧ (s.updTask c t f).streams = s.streams ∧
    (s.updTask c t f).unmatched = s.unmatched ∧ (s.updTask c t f).conns = s.conns ∧ (s.updTask c t f).objects = s.objects ∧
    (s.updTask c t f).nextObject = s.nextObject ∧ (s.updTask c t f).pool = s.pool ∧
    (s.updTask c t f).launches = s.launches ∧ (s.updTask c t f).nextLaunch = s.nextLaunch ∧
    (s.updTask c t f).graphs = s.graphs ∧ (s.updTask c t f).lastTaken = s.lastTaken ∧
    (s.updTask c t f).clusters = s.clusters ∧ (s.updTask c t f).engines = s.engines ∧
    (s.updTask c t f).faultWait = s.faultWait ∧ (s.updTask c t f).faultOpen = s.faultOpen ∧
    (s.updTask c t f).savedTasks = s.savedTasks ∧ (s.updTask c t f).pdEnd = s.pdEnd ∧ (s.updTask c t f).events = s.events ∧
    (s.updTask c t f).eventSrc = s.eventSrc ∧ (s.updTask c t f).power = s.power ∧ (s.updTask c t f).mgmt = s.mgmt ∧
    (s.updTask c t f).out = s.out ∧ (s.updTask c t f).turns = s.turns ∧ (s.updTask c t f).cur = s.cur ∧
    (s.updTask c t f).cycle = s.cycle ∧ (s.updTask c t f).usec = s.usec ∧ (s.updTask c t f).fresh = s.fresh := by
  and_intros <;> rfl

@[simp] theorem State.updThreads_fields (s : State) (c b : Nat) (m : Word) (f : Nat → Thread → Thread) :
    (s.updThreads c b m f).mem = s.mem ∧ (s.updThreads c b m f).halfKey = s.halfKey ∧
    (s.updThreads c b m f).domes = s.domes ∧ (s.updThreads c b m f).nextAge = s.nextAge ∧
    (s.updThreads c b m f).replicas = s.replicas ∧ (s.updThreads c b m f).pwOwner = s.pwOwner ∧
    (s.updThreads c b m f).marks = s.marks ∧ (s.updThreads c b m f).overflowed = s.overflowed ∧
    (s.updThreads c b m f).bufs = s.bufs ∧ (s.updThreads c b m f).pds = s.pds ∧ (s.updThreads c b m f).wqs = s.wqs ∧
    (s.updThreads c b m f).routes = s.routes ∧ (s.updThreads c b m f).rings = s.rings ∧
    (s.updThreads c b m f).keys = s.keys ∧ (s.updThreads c b m f).chans = s.chans ∧
    (s.updThreads c b m f).tierCtl = s.tierCtl ∧ (s.updThreads c b m f).counters = s.counters ∧
    (s.updThreads c b m f).posted = s.posted ∧ (s.updThreads c b m f).streams = s.streams ∧
    (s.updThreads c b m f).unmatched = s.unmatched ∧ (s.updThreads c b m f).conns = s.conns ∧
    (s.updThreads c b m f).objects = s.objects ∧ (s.updThreads c b m f).nextObject = s.nextObject ∧
    (s.updThreads c b m f).pool = s.pool ∧ (s.updThreads c b m f).launches = s.launches ∧
    (s.updThreads c b m f).nextLaunch = s.nextLaunch ∧ (s.updThreads c b m f).graphs = s.graphs ∧
    (s.updThreads c b m f).lastTaken = s.lastTaken ∧ (s.updThreads c b m f).clusters = s.clusters ∧
    (s.updThreads c b m f).engines = s.engines ∧ (s.updThreads c b m f).faultWait = s.faultWait ∧
    (s.updThreads c b m f).faultOpen = s.faultOpen ∧ (s.updThreads c b m f).savedTasks = s.savedTasks ∧
    (s.updThreads c b m f).pdEnd = s.pdEnd ∧ (s.updThreads c b m f).events = s.events ∧
    (s.updThreads c b m f).eventSrc = s.eventSrc ∧ (s.updThreads c b m f).power = s.power ∧
    (s.updThreads c b m f).mgmt = s.mgmt ∧ (s.updThreads c b m f).out = s.out ∧ (s.updThreads c b m f).turns = s.turns ∧
    (s.updThreads c b m f).cur = s.cur ∧ (s.updThreads c b m f).cycle = s.cycle ∧ (s.updThreads c b m f).usec = s.usec ∧
    (s.updThreads c b m f).fresh = s.fresh := by
  and_intros <;> rfl

@[simp] theorem State.updLaunch_fields (s : State) (l : Nat) (f : Launch → Launch) :
    (s.updLaunch l f).mem = s.mem ∧ (s.updLaunch l f).halfKey = s.halfKey ∧ (s.updLaunch l f).domes = s.domes ∧
    (s.updLaunch l f).nextAge = s.nextAge ∧ (s.updLaunch l f).replicas = s.replicas ∧
    (s.updLaunch l f).pwOwner = s.pwOwner ∧ (s.updLaunch l f).marks = s.marks ∧
    (s.updLaunch l f).overflowed = s.overflowed ∧ (s.updLaunch l f).bufs = s.bufs ∧ (s.updLaunch l f).pds = s.pds ∧
    (s.updLaunch l f).wqs = s.wqs ∧ (s.updLaunch l f).routes = s.routes ∧ (s.updLaunch l f).rings = s.rings ∧
    (s.updLaunch l f).keys = s.keys ∧ (s.updLaunch l f).chans = s.chans ∧ (s.updLaunch l f).tierCtl = s.tierCtl ∧
    (s.updLaunch l f).counters = s.counters ∧ (s.updLaunch l f).posted = s.posted ∧ (s.updLaunch l f).streams = s.streams ∧
    (s.updLaunch l f).unmatched = s.unmatched ∧ (s.updLaunch l f).conns = s.conns ∧ (s.updLaunch l f).objects = s.objects ∧
    (s.updLaunch l f).nextObject = s.nextObject ∧ (s.updLaunch l f).pool = s.pool ∧
    (s.updLaunch l f).nextLaunch = s.nextLaunch ∧ (s.updLaunch l f).graphs = s.graphs ∧
    (s.updLaunch l f).lastTaken = s.lastTaken ∧ (s.updLaunch l f).clusters = s.clusters ∧
    (s.updLaunch l f).engines = s.engines ∧ (s.updLaunch l f).cores = s.cores ∧ (s.updLaunch l f).faultWait = s.faultWait ∧
    (s.updLaunch l f).faultOpen = s.faultOpen ∧ (s.updLaunch l f).savedTasks = s.savedTasks ∧
    (s.updLaunch l f).pdEnd = s.pdEnd ∧ (s.updLaunch l f).events = s.events ∧ (s.updLaunch l f).eventSrc = s.eventSrc ∧
    (s.updLaunch l f).power = s.power ∧ (s.updLaunch l f).mgmt = s.mgmt ∧ (s.updLaunch l f).out = s.out ∧
    (s.updLaunch l f).turns = s.turns ∧ (s.updLaunch l f).cur = s.cur ∧ (s.updLaunch l f).cycle = s.cycle ∧
    (s.updLaunch l f).usec = s.usec ∧ (s.updLaunch l f).fresh = s.fresh := by
  and_intros <;> rfl

@[simp] theorem State.updCluster_fields (s : State) (i : Nat) (f : Cluster → Cluster) :
    (s.updCluster i f).mem = s.mem ∧ (s.updCluster i f).halfKey = s.halfKey ∧ (s.updCluster i f).domes = s.domes ∧
    (s.updCluster i f).nextAge = s.nextAge ∧ (s.updCluster i f).replicas = s.replicas ∧
    (s.updCluster i f).pwOwner = s.pwOwner ∧ (s.updCluster i f).marks = s.marks ∧
    (s.updCluster i f).overflowed = s.overflowed ∧ (s.updCluster i f).bufs = s.bufs ∧ (s.updCluster i f).pds = s.pds ∧
    (s.updCluster i f).wqs = s.wqs ∧ (s.updCluster i f).routes = s.routes ∧ (s.updCluster i f).rings = s.rings ∧
    (s.updCluster i f).keys = s.keys ∧ (s.updCluster i f).chans = s.chans ∧ (s.updCluster i f).tierCtl = s.tierCtl ∧
    (s.updCluster i f).counters = s.counters ∧ (s.updCluster i f).posted = s.posted ∧
    (s.updCluster i f).streams = s.streams ∧ (s.updCluster i f).unmatched = s.unmatched ∧
    (s.updCluster i f).conns = s.conns ∧ (s.updCluster i f).objects = s.objects ∧
    (s.updCluster i f).nextObject = s.nextObject ∧ (s.updCluster i f).pool = s.pool ∧
    (s.updCluster i f).launches = s.launches ∧ (s.updCluster i f).nextLaunch = s.nextLaunch ∧
    (s.updCluster i f).graphs = s.graphs ∧ (s.updCluster i f).lastTaken = s.lastTaken ∧
    (s.updCluster i f).engines = s.engines ∧ (s.updCluster i f).cores = s.cores ∧
    (s.updCluster i f).faultWait = s.faultWait ∧ (s.updCluster i f).faultOpen = s.faultOpen ∧
    (s.updCluster i f).savedTasks = s.savedTasks ∧ (s.updCluster i f).pdEnd = s.pdEnd ∧
    (s.updCluster i f).events = s.events ∧ (s.updCluster i f).eventSrc = s.eventSrc ∧ (s.updCluster i f).power = s.power ∧
    (s.updCluster i f).mgmt = s.mgmt ∧ (s.updCluster i f).out = s.out ∧ (s.updCluster i f).turns = s.turns ∧
    (s.updCluster i f).cur = s.cur ∧ (s.updCluster i f).cycle = s.cycle ∧ (s.updCluster i f).usec = s.usec ∧
    (s.updCluster i f).fresh = s.fresh := by
  and_intros <;> rfl

@[simp] theorem State.count_fields (s : State) (p n i : Nat) :
    (s.count p n i).mem = s.mem ∧ (s.count p n i).halfKey = s.halfKey ∧ (s.count p n i).domes = s.domes ∧
    (s.count p n i).nextAge = s.nextAge ∧ (s.count p n i).replicas = s.replicas ∧ (s.count p n i).pwOwner = s.pwOwner ∧
    (s.count p n i).marks = s.marks ∧ (s.count p n i).overflowed = s.overflowed ∧ (s.count p n i).bufs = s.bufs ∧
    (s.count p n i).pds = s.pds ∧ (s.count p n i).wqs = s.wqs ∧ (s.count p n i).routes = s.routes ∧
    (s.count p n i).rings = s.rings ∧ (s.count p n i).keys = s.keys ∧ (s.count p n i).chans = s.chans ∧
    (s.count p n i).tierCtl = s.tierCtl ∧ (s.count p n i).counters = s.counters ∧ (s.count p n i).posted = s.posted ∧
    (s.count p n i).streams = s.streams ∧ (s.count p n i).unmatched = s.unmatched ∧ (s.count p n i).conns = s.conns ∧
    (s.count p n i).objects = s.objects ∧ (s.count p n i).nextObject = s.nextObject ∧ (s.count p n i).pool = s.pool ∧
    (s.count p n i).launches = s.launches ∧ (s.count p n i).nextLaunch = s.nextLaunch ∧ (s.count p n i).graphs = s.graphs ∧
    (s.count p n i).lastTaken = s.lastTaken ∧ (s.count p n i).clusters = s.clusters ∧ (s.count p n i).engines = s.engines ∧
    (s.count p n i).cores = s.cores ∧ (s.count p n i).faultWait = s.faultWait ∧ (s.count p n i).faultOpen = s.faultOpen ∧
    (s.count p n i).savedTasks = s.savedTasks ∧ (s.count p n i).pdEnd = s.pdEnd ∧ (s.count p n i).eventSrc = s.eventSrc ∧
    (s.count p n i).power = s.power ∧ (s.count p n i).mgmt = s.mgmt ∧ (s.count p n i).out = s.out ∧
    (s.count p n i).turns = s.turns ∧ (s.count p n i).cur = s.cur ∧ (s.count p n i).cycle = s.cycle ∧
    (s.count p n i).usec = s.usec ∧ (s.count p n i).fresh = s.fresh := by
  and_intros <;> rfl

@[simp] theorem State.countAt_fields (s : State) (c n i : Nat) :
    (s.countAt c n i).mem = s.mem ∧ (s.countAt c n i).halfKey = s.halfKey ∧ (s.countAt c n i).domes = s.domes ∧
    (s.countAt c n i).nextAge = s.nextAge ∧ (s.countAt c n i).replicas = s.replicas ∧
    (s.countAt c n i).pwOwner = s.pwOwner ∧ (s.countAt c n i).marks = s.marks ∧
    (s.countAt c n i).overflowed = s.overflowed ∧ (s.countAt c n i).bufs = s.bufs ∧ (s.countAt c n i).pds = s.pds ∧
    (s.countAt c n i).wqs = s.wqs ∧ (s.countAt c n i).routes = s.routes ∧ (s.countAt c n i).rings = s.rings ∧
    (s.countAt c n i).keys = s.keys ∧ (s.countAt c n i).chans = s.chans ∧ (s.countAt c n i).tierCtl = s.tierCtl ∧
    (s.countAt c n i).counters = s.counters ∧ (s.countAt c n i).posted = s.posted ∧ (s.countAt c n i).streams = s.streams ∧
    (s.countAt c n i).unmatched = s.unmatched ∧ (s.countAt c n i).conns = s.conns ∧ (s.countAt c n i).objects = s.objects ∧
    (s.countAt c n i).nextObject = s.nextObject ∧ (s.countAt c n i).pool = s.pool ∧
    (s.countAt c n i).launches = s.launches ∧ (s.countAt c n i).nextLaunch = s.nextLaunch ∧
    (s.countAt c n i).graphs = s.graphs ∧ (s.countAt c n i).lastTaken = s.lastTaken ∧
    (s.countAt c n i).clusters = s.clusters ∧ (s.countAt c n i).engines = s.engines ∧ (s.countAt c n i).cores = s.cores ∧
    (s.countAt c n i).faultWait = s.faultWait ∧ (s.countAt c n i).faultOpen = s.faultOpen ∧
    (s.countAt c n i).savedTasks = s.savedTasks ∧ (s.countAt c n i).pdEnd = s.pdEnd ∧
    (s.countAt c n i).eventSrc = s.eventSrc ∧ (s.countAt c n i).power = s.power ∧ (s.countAt c n i).mgmt = s.mgmt ∧
    (s.countAt c n i).out = s.out ∧ (s.countAt c n i).turns = s.turns ∧ (s.countAt c n i).cur = s.cur ∧
    (s.countAt c n i).cycle = s.cycle ∧ (s.countAt c n i).usec = s.usec ∧ (s.countAt c n i).fresh = s.fresh := by
  and_intros <;> rfl

@[simp] theorem Core.updBand_fields (k : Core) (b : Nat) (f : Band → Band) :
    (k.updBand b f).last = k.last ∧ (k.updBand b f).sweep = k.sweep ∧ (k.updBand b f).half = k.half ∧
    (k.updBand b f).marked = k.marked ∧ (k.updBand b f).vrf = k.vrf ∧ (k.updBand b f).srf = k.srf ∧
    (k.updBand b f).prf = k.prf ∧ (k.updBand b f).tiles = k.tiles ∧ (k.updBand b f).accs = k.accs ∧
    (k.updBand b f).accStat = k.accStat ∧ (k.updBand b f).scratch = k.scratch ∧ (k.updBand b f).table = k.table ∧
    (k.updBand b f).tasks = k.tasks ∧ (k.updBand b f).ibuf = k.ibuf ∧ (k.updBand b f).tlb = k.tlb ∧
    (k.updBand b f).l1 = k.l1 ∧ (k.updBand b f).pw = k.pw ∧ (k.updBand b f).regs = k.regs ∧
    (k.updBand b f).requests = k.requests ∧ (k.updBand b f).flights = k.flights ∧ (k.updBand b f).nextOp = k.nextOp ∧
    (k.updBand b f).seqBusy = k.seqBusy ∧ (k.updBand b f).uniFree = k.uniFree ∧ (k.updBand b f).pipeFree = k.pipeFree ∧
    (k.updBand b f).bps = k.bps := by
  and_intros <;> rfl

@[simp] theorem Core.updEntry_fields (k : Core) (e : Nat) (f : Entry → Entry) :
    (k.updEntry e f).last = k.last ∧ (k.updEntry e f).sweep = k.sweep ∧ (k.updEntry e f).half = k.half ∧
    (k.updEntry e f).marked = k.marked ∧ (k.updEntry e f).vrf = k.vrf ∧ (k.updEntry e f).srf = k.srf ∧
    (k.updEntry e f).prf = k.prf ∧ (k.updEntry e f).tiles = k.tiles ∧ (k.updEntry e f).accs = k.accs ∧
    (k.updEntry e f).accStat = k.accStat ∧ (k.updEntry e f).scratch = k.scratch ∧ (k.updEntry e f).bands = k.bands ∧
    (k.updEntry e f).tasks = k.tasks ∧ (k.updEntry e f).ibuf = k.ibuf ∧ (k.updEntry e f).tlb = k.tlb ∧
    (k.updEntry e f).l1 = k.l1 ∧ (k.updEntry e f).pw = k.pw ∧ (k.updEntry e f).regs = k.regs ∧
    (k.updEntry e f).requests = k.requests ∧ (k.updEntry e f).flights = k.flights ∧ (k.updEntry e f).nextOp = k.nextOp ∧
    (k.updEntry e f).seqBusy = k.seqBusy ∧ (k.updEntry e f).uniFree = k.uniFree ∧ (k.updEntry e f).pipeFree = k.pipeFree ∧
    (k.updEntry e f).bps = k.bps := by
  and_intros <;> rfl

@[simp] theorem Core.updTask_fields (k : Core) (t : Nat) (f : Task → Task) :
    (k.updTask t f).last = k.last ∧ (k.updTask t f).sweep = k.sweep ∧ (k.updTask t f).half = k.half ∧
    (k.updTask t f).marked = k.marked ∧ (k.updTask t f).vrf = k.vrf ∧ (k.updTask t f).srf = k.srf ∧
    (k.updTask t f).prf = k.prf ∧ (k.updTask t f).tiles = k.tiles ∧ (k.updTask t f).accs = k.accs ∧
    (k.updTask t f).accStat = k.accStat ∧ (k.updTask t f).scratch = k.scratch ∧ (k.updTask t f).table = k.table ∧
    (k.updTask t f).bands = k.bands ∧ (k.updTask t f).ibuf = k.ibuf ∧ (k.updTask t f).tlb = k.tlb ∧
    (k.updTask t f).l1 = k.l1 ∧ (k.updTask t f).pw = k.pw ∧ (k.updTask t f).regs = k.regs ∧
    (k.updTask t f).requests = k.requests ∧ (k.updTask t f).flights = k.flights ∧ (k.updTask t f).nextOp = k.nextOp ∧
    (k.updTask t f).seqBusy = k.seqBusy ∧ (k.updTask t f).uniFree = k.uniFree ∧ (k.updTask t f).pipeFree = k.pipeFree ∧
    (k.updTask t f).bps = k.bps := by
  and_intros <;> rfl

end Sys2Proof.Machine
end

