-- ==== Sys2Proof/Laws/Regs.lean ====
section
/-! SUPPORT. Registers: what reading a place gives after results were written, and what the parts of the state read as after
an update. -/

-- One theorem at a time: the package compiles as one text, and a thread for each open proof asks for a stack of its own.
set_option Elab.async false

namespace Sys2Proof.Machine

/-! ## Parts -/

@[simp] theorem State.core_setCore_self (s : State) (c : Nat) (k : Core) : (s.setCore c k).core c = k := by
  simp [State.core, State.setCore, mapGetD_mapSet]

theorem State.core_setCore (s : State) (c d : Nat) (k : Core) : (s.setCore c k).core d = if d = c then k else s.core d := by
  simp [State.core, State.setCore, mapGetD_mapSet]

theorem State.core_updCore (s : State) (c d : Nat) (f : Core → Core) :
    (s.updCore c f).core d = if d = c then f (s.core d) else s.core d := by
  rw [State.updCore, State.core_setCore]
  split <;> simp [*]

@[simp] theorem State.core_updCore_self (s : State) (c : Nat) (f : Core → Core) : (s.updCore c f).core c = f (s.core c) := by
  simp [State.updCore]

theorem Core.band_updBand (k : Core) (b d : Nat) (f : Band → Band) :
    (k.updBand b f).band d = if d = b ∧ (mapGet k.bands b).isSome then f (k.band d) else k.band d := by
  simp only [Core.band, Core.updBand, mapGetD, mapGet_mapUpd]
  by_cases h : d = b
  · subst h
    cases mapGet k.bands d <;> simp
  · simp [h]

/-- A projection that an update of bands leaves alone. -/
theorem Core.band_updBand_proj {β : Type} (p : Band → β) (k : Core) (b d : Nat) (f : Band → Band) (h : ∀ x, p (f x) = p x) :
    p ((k.updBand b f).band d) = p (k.band d) := by
  rw [Core.band_updBand]
  split <;> simp [h]

/-! ## Places -/

/-- Reading another place than the one written gives what it gave. -/
theorem Core.readLoc_writeLoc_ne (k : Core) (slot slot' : Nat) (gen gen' : BitVec 16) (l l' : Loc) (w : Word)
    (h : ¬(l' = l ∧ (slot' = slot ∨ l'.shared = true))) :
    (k.writeLoc slot gen l w).readLoc slot' gen' l' = k.readLoc slot' gen' l' := by
  have hb : ∀ f : Band → Band, (∀ x, (f x).keepV = x.keepV) → ((k.updBand slot f).band slot').keepV = (k.band slot').keepV :=
    fun f hf => Core.band_updBand_proj (·.keepV) k slot slot' f hf
  have hs : ∀ f : Band → Band, (∀ x, (f x).keepS = x.keepS) → ((k.updBand slot f).band slot').keepS = (k.band slot').keepS :=
    fun f hf => Core.band_updBand_proj (·.keepS) k slot slot' f hf
  have hp : ∀ f : Band → Band, (∀ x, (f x).keepP = x.keepP) → ((k.updBand slot f).band slot').keepP = (k.band slot').keepP :=
    fun f hf => Core.band_updBand_proj (·.keepP) k slot slot' f hf
  cases l with
  | vrf i => cases l' <;> simp only [Core.writeLoc, Core.readLoc, Core.band] <;> try rfl
             rename_i j
             have : j ≠ i := by rintro rfl; simp [Loc.shared] at h
             rw [mapGet_mapSet_ne _ _ this]
  | srf i => cases l' <;> simp only [Core.writeLoc, Core.readLoc, Core.band] <;> try rfl
             rename_i j
             have : j ≠ i := by rintro rfl; simp [Loc.shared] at h
             rw [mapGet_mapSet_ne _ _ this]
  | prf i => cases l' <;> simp only [Core.writeLoc, Core.readLoc, Core.band] <;> try rfl
             rename_i j
             have : j ≠ i := by rintro rfl; simp [Loc.shared] at h
             simp [mapGet_mapSet_ne _ _ this]
  | keepV i =>
    cases l' with
    | keepV j =>
      simp only [Core.writeLoc, Core.readLoc, Core.band_updBand]
      split
      · rename_i hb
        have : j ≠ i := by rintro rfl; exact h ⟨rfl, .inl hb.1⟩
        simp [mapGetD_mapSet, this]
      · rfl
    | keepS j => exact congrArg (fun z => (mapGetD z j 0, true)) (hs _ fun _ => rfl)
    | keepP j => exact congrArg (fun z => ((if mapGetD z j false then 1 else 0 : Word), true)) (hp _ fun _ => rfl)
    | _ => rfl
  | keepS i =>
    cases l' with
    | keepS j =>
      simp only [Core.writeLoc, Core.readLoc, Core.band_updBand]
      split
      · rename_i hb
        have : j ≠ i := by rintro rfl; exact h ⟨rfl, .inl hb.1⟩
        simp [mapGetD_mapSet, this]
      · rfl
    | keepV j => exact congrArg (fun z => (mapGetD z j 0, true)) (hb _ fun _ => rfl)
    | keepP j => exact congrArg (fun z => ((if mapGetD z j false then 1 else 0 : Word), true)) (hp _ fun _ => rfl)
    | _ => rfl
  | keepP i =>
    cases l' with
    | keepP j =>
      simp only [Core.writeLoc, Core.readLoc, Core.band_updBand]
      split
      · rename_i hb
        have : j ≠ i := by rintro rfl; exact h ⟨rfl, .inl hb.1⟩
        simp [mapGetD_mapSet, this]
      · rfl
    | keepV j => exact congrArg (fun z => (mapGetD z j 0, true)) (hb _ fun _ => rfl)
    | keepS j => exact congrArg (fun z => (mapGetD z j 0, true)) (hs _ fun _ => rfl)
    | _ => rfl
  | nowhere => rfl

/-- Reading the place written gives what was written. A band's keep bank is written only where the band is placed. -/
theorem Core.readLoc_writeLoc (k : Core) (slot : Nat) (gen : BitVec 16) (l : Loc) (w : Word)
    (h : l.shared = true ∨ (mapGet k.bands slot).isSome ∨ l = .nowhere) :
    (k.writeLoc slot gen l w).readLoc slot gen l = (l.held w, true) := by
  cases l <;> simp_all [Core.writeLoc, Core.readLoc, Loc.held, Loc.shared, readTagged, Core.band_updBand, mapGetD_mapSet]

@[simp] theorem Core.isSome_bands_updBand (k : Core) (b d : Nat) (f : Band → Band) :
    (mapGet (k.updBand b f).bands d).isSome = (mapGet k.bands d).isSome := by
  simp only [Core.updBand, mapGet_mapUpd]
  split
  · rename_i h; subst h; simp
  · rfl

theorem Core.isSome_bands_writeLoc (k : Core) (slot : Nat) (gen : BitVec 16) (l : Loc) (w : Word) (d : Nat) :
    (mapGet (k.writeLoc slot gen l w).bands d).isSome = (mapGet k.bands d).isSome := by
  cases l <;> simp [Core.writeLoc]

/-- Reading a place that a list of results does not name. -/
theorem Core.readLoc_writeLocs_ne (k : Core) (slot slot' : Nat) (gen gen' : BitVec 16) (ps : List (Loc × Word)) (l : Loc)
    (h : ¬(l ∈ ps.map (·.1) ∧ (slot' = slot ∨ l.shared = true))) :
    (k.writeLocs slot gen ps).readLoc slot' gen' l = k.readLoc slot' gen' l := by
  induction ps generalizing k with
  | nil => rfl
  | cons p ps ih =>
    rw [Core.writeLocs, List.foldl_cons, ← Core.writeLocs, ih, Core.readLoc_writeLoc_ne]
    · rintro ⟨rfl, h'⟩; exact h ⟨by simp, h'⟩
    · rintro ⟨h1, h2⟩; exact h ⟨by simp [h1], h2⟩

/-- Reading a place that a list of results at distinct places names. -/
theorem Core.readLoc_writeLocs (k : Core) (slot : Nat) (gen : BitVec 16) (ps : List (Loc × Word)) (p : Loc × Word)
    (hp : p ∈ ps) (hd : Distinct ps) (h : p.1.shared = true ∨ (mapGet k.bands slot).isSome ∨ p.1 = .nowhere) :
    (k.writeLocs slot gen ps).readLoc slot gen p.1 = (p.1.held p.2, true) := by
  by_cases hn : p.1 = .nowhere
  · rw [hn]; rfl
  induction ps generalizing k with
  | nil => simp at hp
  | cons q ps ih =>
    rw [Core.writeLocs, List.foldl_cons, ← Core.writeLocs]
    simp only [Distinct, List.pairwise_cons] at hd
    rcases List.mem_cons.1 hp with rfl | hp
    · rw [Core.readLoc_writeLocs_ne, Core.readLoc_writeLoc _ _ _ _ _ h]
      rintro ⟨h', -⟩
      obtain ⟨z, hz, he⟩ := List.mem_map.1 h'
      exact hn (hd.1 z hz he.symm)
    · exact ih _ hp hd.2 (by simpa [Core.isSome_bands_writeLoc] using h)

end Sys2Proof.Machine
end

