-- ==== Sys2Proof/Laws/Issue.lean ====
section
/-! SUPPORT. Issuing: what a meaning comes to once its instruction issues, and what taking a slot, going on and writing
results leave alone. -/

-- One theorem at a time: the package compiles as one text, and a thread for each open proof asks for a stack of its own.
set_option Elab.async false

namespace Sys2Proof.Machine

/-! ## Memory left alone -/

/-- Nothing that memory reads from differs. -/
structure MemSame (s t : State) : Prop where
  mem : t.mem = s.mem
  domes : t.domes = s.domes
  core : ∀ c, (t.core c).l1 = (s.core c).l1 ∧ (t.core c).pw = (s.core c).pw ∧ (t.core c).requests = (s.core c).requests ∧
    (t.core c).scratch = (s.core c).scratch

theorem MemSame.refl (s : State) : MemSame s s := ⟨rfl, rfl, fun _ => ⟨rfl, rfl, rfl, rfl⟩⟩

theorem MemSame.trans {a b c : State} (h : MemSame a b) (g : MemSame b c) : MemSame a c :=
  ⟨g.mem.trans h.mem, g.domes.trans h.domes, fun d => ⟨(g.core d).1.trans (h.core d).1, (g.core d).2.1.trans (h.core d).2.1,
    (g.core d).2.2.1.trans (h.core d).2.2.1, (g.core d).2.2.2.trans (h.core d).2.2.2⟩⟩

theorem MemSame.keeps {s t : State} (h : MemSame s t) : KeepsMemory s t := by
  have hh : ∀ pa, t.homeByte pa = s.homeByte pa := fun pa => by simp only [State.homeByte, h.mem, h.domes]
  refine ⟨hh, fun c pa => ?_, fun c gen a => ?_, fun c => (h.core c).2.2.1, fun c => (h.core c).2.1⟩
  · simp only [State.byteAt, Core.l1Find, (h.core c).1, hh]
  · simp only [State.spByte, Core.spRead, (h.core c).2.2.2]

/-- An update of a core that leaves its L1, its coded blocks, its posted stores and its scratchpad. -/
theorem MemSame.updCore (s : State) (c : Nat) (f : Core → Core)
    (hf : ∀ k, (f k).l1 = k.l1 ∧ (f k).pw = k.pw ∧ (f k).requests = k.requests ∧ (f k).scratch = k.scratch) :
    MemSame s (s.updCore c f) := by
  refine ⟨rfl, rfl, fun d => ?_⟩
  rw [State.core_updCore]
  split
  · exact hf _
  · exact ⟨rfl, rfl, rfl, rfl⟩

theorem MemSame.updBand (s : State) (c b : Nat) (f : Band → Band) : MemSame s (s.updBand c b f) :=
  MemSame.updCore s c _ fun _ => ⟨rfl, rfl, rfl, rfl⟩

theorem MemSame.updEntry (s : State) (c e : Nat) (f : Entry → Entry) : MemSame s (s.updEntry c e f) :=
  MemSame.updCore s c _ fun _ => ⟨rfl, rfl, rfl, rfl⟩

theorem MemSame.updTask (s : State) (c t : Nat) (f : Task → Task) : MemSame s (s.updTask c t f) :=
  MemSame.updCore s c _ fun _ => ⟨rfl, rfl, rfl, rfl⟩

theorem MemSame.updThreads (s : State) (c b : Nat) (m : Word) (f : Nat → Thread → Thread) : MemSame s (s.updThreads c b m f) := by
  rw [State.updThreads]
  exact MemSame.updBand _ _ _ _

theorem MemSame.foldl {α : Type} (f : State → α → State) (hf : ∀ s a, MemSame s (f s a)) (l : List α) (s : State) :
    MemSame s (l.foldl f s) := by
  induction l generalizing s with
  | nil => exact MemSame.refl s
  | cons a l ih => exact (hf s a).trans (ih _)

theorem MemSame.count (s : State) (p n i : Nat) : MemSame s (s.count p n i) := ⟨rfl, rfl, fun _ => ⟨rfl, rfl, rfl, rfl⟩⟩

theorem MemSame.countAt (s : State) (c n i : Nat) : MemSame s (s.countAt c n i) := MemSame.count s _ n i

theorem MemSame.cycle {s t : State} (h : MemSame s t) (n : Nat) : MemSame s { t with cycle := n } := ⟨h.mem, h.domes, h.core⟩

theorem MemSame.clockTo (s : State) (n : Nat) : MemSame s (s.clockTo n) := by
  unfold State.clockTo
  split
  · exact MemSame.refl s
  · exact (MemSame.foldl _ (fun s' p => MemSame.count s' p 1 _) _ s).cycle n

theorem Core.writeLoc_mem (k : Core) (slot : Nat) (gen : BitVec 16) (l : Loc) (w : Word) :
    (k.writeLoc slot gen l w).l1 = k.l1 ∧ (k.writeLoc slot gen l w).pw = k.pw ∧
      (k.writeLoc slot gen l w).requests = k.requests ∧ (k.writeLoc slot gen l w).scratch = k.scratch := by
  cases l <;> exact ⟨rfl, rfl, rfl, rfl⟩

theorem Core.writeLocs_mem (ps : List (Loc × Word)) (k : Core) (slot : Nat) (gen : BitVec 16) :
    (k.writeLocs slot gen ps).l1 = k.l1 ∧ (k.writeLocs slot gen ps).pw = k.pw ∧
      (k.writeLocs slot gen ps).requests = k.requests ∧ (k.writeLocs slot gen ps).scratch = k.scratch := by
  induction ps generalizing k with
  | nil => exact ⟨rfl, rfl, rfl, rfl⟩
  | cons p ps ih =>
    obtain ⟨h1, h2, h3, h4⟩ := ih (k.writeLoc slot gen p.1 p.2)
    obtain ⟨g1, g2, g3, g4⟩ := Core.writeLoc_mem k slot gen p.1 p.2
    exact ⟨h1.trans g1, h2.trans g2, h3.trans g3, h4.trans g4⟩

theorem MemSame.writeLocs (s : State) (c slot : Nat) (gen : BitVec 16) (ps : List (Loc × Word)) :
    MemSame s (s.updCore c (·.writeLocs slot gen ps)) := MemSame.updCore s c _ fun k => Core.writeLocs_mem ps k slot gen

theorem MemSame.writeNow (s : State) (c slot : Nat) (gen : BitVec 16) (ps : List (Loc × Word)) :
    MemSame s (s.writeNow c slot gen ps) := (MemSame.updBand s c slot _).trans (MemSame.writeLocs _ c slot gen ps)

theorem MemSame.writeLater (s : State) (c slot due : Nat) (gen : BitVec 16) (ps : List (Loc × Word)) (f : Fl) :
    MemSame s (s.writeLater c slot due gen ps f) := MemSame.updBand s c slot _

theorem MemSame.raise (s : State) (c slot : Nat) (f : Fl) : MemSame s (s.raise c slot f) := MemSame.updBand s c slot _

theorem MemSame.commit (s : State) (c slot now : Nat) : MemSame s (s.commit c slot now) := by
  unfold State.commit
  exact (MemSame.updBand s c slot _).trans (MemSame.foldl _ (fun s x => (MemSame.writeLocs s c slot _ _).trans (MemSame.raise _ c slot _)) _ _)

theorem MemSame.ageBand (s : State) (u : Cursor) (now : Nat) : MemSame s (s.ageBand u now) := by
  unfold State.ageBand
  refine MemSame.foldl _ (fun s e => ?_) _ _
  dsimp only
  split
  · exact MemSame.refl s
  · exact MemSame.updEntry s _ _ _

/-- Taking a slot leaves memory alone. -/
theorem MemSame.beginIssue (s : State) (u : Cursor) (i : Instr) (uni : Bool) (d : BitVec 2) :
    MemSame s (s.beginIssue u i uni d) := by
  unfold State.beginIssue
  refine MemSame.trans ?_ (MemSame.countAt _ _ _ _)
  refine MemSame.trans ?_ (MemSame.updCore _ _ _ fun k => by split <;> exact ⟨rfl, rfl, rfl, rfl⟩)
  refine MemSame.trans ?_ (MemSame.updEntry _ _ _ _)
  refine MemSame.trans ?_ (MemSame.updBand _ _ _ _)
  refine MemSame.trans ?_ (MemSame.updThreads _ _ _ _ _)
  exact ((MemSame.clockTo s _).trans (MemSame.commit _ _ _ _)).trans (MemSame.ageBand _ _ _)

theorem MemSame.updStood (s : State) (c slot : Nat) (fr : Bool) (m : Word) (f : Nat → Thread → Thread) :
    MemSame s (s.updStood c slot fr m f) := by
  unfold State.updStood
  split
  · exact MemSame.updBand s c slot fun b =>
      { b with frozen := (lanesOf m).foldl (fun t l => mapSet t l (f l (mapGetD t l Thread.fresh))) b.frozen }
  · exact MemSame.updThreads s c slot m f

theorem MemSame.advance (s : State) (c e n : Nat) : MemSame s (s.advance c e n) :=
  (MemSame.updStood s _ _ _ _ _).trans (MemSame.updEntry _ _ _ _)

/-- So does going past the instruction. -/
theorem MemSame.passed (s : State) (u : Cursor) (i : Instr) (q : Shape) : MemSame s (s.passed u i q) := by
  rw [State.passed, State.begun]
  exact (MemSame.beginIssue s u i q.uni q.d).trans (MemSame.advance _ _ _ _)

/-! ## What is outside the cores -/

@[simp] theorem State.outside_updCore (s : State) (c : Nat) (f : Core → Core) : (s.updCore c f).outside = s.outside := rfl
@[simp] theorem State.outside_updBand (s : State) (c b : Nat) (f : Band → Band) : (s.updBand c b f).outside = s.outside := rfl
@[simp] theorem State.outside_updEntry (s : State) (c e : Nat) (f : Entry → Entry) : (s.updEntry c e f).outside = s.outside := rfl
@[simp] theorem State.outside_updTask (s : State) (c t : Nat) (f : Task → Task) : (s.updTask c t f).outside = s.outside := rfl
@[simp] theorem State.outside_count (s : State) (p n i : Nat) : (s.count p n i).outside = s.outside := rfl
@[simp] theorem State.outside_countAt (s : State) (c n i : Nat) : (s.countAt c n i).outside = s.outside := rfl
@[simp] theorem State.outside_cycle (s : State) (n : Nat) : ({ s with cycle := n } : State).outside = s.outside := rfl

@[simp] theorem State.outside_updThreads (s : State) (c b : Nat) (m : Word) (f : Nat → Thread → Thread) :
    (s.updThreads c b m f).outside = s.outside := by rw [State.updThreads, State.outside_updBand]

theorem State.outside_foldl {α : Type} (f : State → α → State) (hf : ∀ s a, (f s a).outside = s.outside) (l : List α) (s : State) :
    (l.foldl f s).outside = s.outside := by
  induction l generalizing s with
  | nil => rfl
  | cons a l ih => rw [List.foldl_cons, ih, hf]

@[simp] theorem State.outside_clockTo (s : State) (n : Nat) : (s.clockTo n).outside = s.outside := by
  unfold State.clockTo
  split
  · rfl
  · rw [State.outside_cycle, State.outside_foldl]
    exact fun s p => State.outside_count _ _ _ _

@[simp] theorem State.outside_raise (s : State) (c slot : Nat) (f : Fl) : (s.raise c slot f).outside = s.outside := by
  rw [State.raise, State.outside_updBand]

@[simp] theorem State.outside_commit (s : State) (c slot now : Nat) : (s.commit c slot now).outside = s.outside := by
  unfold State.commit
  dsimp only
  rw [State.outside_foldl, State.outside_updBand]
  intro s x
  rw [State.outside_raise, State.outside_updCore]

@[simp] theorem State.outside_ageBand (s : State) (u : Cursor) (now : Nat) : (s.ageBand u now).outside = s.outside := by
  unfold State.ageBand
  refine State.outside_foldl _ (fun s e => ?_) _ _
  dsimp only
  split
  · rfl
  · rw [State.outside_updEntry]

@[simp] theorem State.outside_beginIssue (s : State) (u : Cursor) (i : Instr) (uni : Bool) (d : BitVec 2) :
    (s.beginIssue u i uni d).outside = s.outside := by
  unfold State.beginIssue
  simp only [State.outside_countAt, State.outside_updCore, State.outside_updEntry, State.outside_updBand, State.outside_updThreads,
    State.outside_ageBand, State.outside_commit, State.outside_clockTo]

@[simp] theorem State.outside_advance (s : State) (c e n : Nat) : (s.advance c e n).outside = s.outside := by
  simp only [State.advance, State.updStood, State.outside_updEntry]
  split
  · rw [State.outside_updBand]
  · rw [State.outside_updThreads]

@[simp] theorem State.outside_passed (s : State) (u : Cursor) (i : Instr) (q : Shape) : (s.passed u i q).outside = s.outside := by
  rw [State.passed, State.outside_advance, State.begun, State.outside_beginIssue]

@[simp] theorem State.outside_writeNow (s : State) (c slot : Nat) (gen : BitVec 16) (ps : List (Loc × Word)) :
    (s.writeNow c slot gen ps).outside = s.outside := by
  rw [State.writeNow, State.outside_updCore, State.outside_updBand]

@[simp] theorem State.outside_writeLater (s : State) (c slot due : Nat) (gen : BitVec 16) (ps : List (Loc × Word)) (f : Fl) :
    (s.writeLater c slot due gen ps f).outside = s.outside := by rw [State.writeLater, State.outside_updBand]

@[simp] theorem State.outside_launchFlight (s : State) (c : Nat) (f : Flight) : (s.launchFlight c f).outside = s.outside := by
  rw [State.launchFlight, State.outside_updCore]

@[simp] theorem State.outside_dropFlight (s : State) (c id : Nat) : (s.dropFlight c id).outside = s.outside := by
  rw [State.dropFlight, State.outside_updCore]

@[simp] theorem State.outside_addFlag (s : State) (c slot f : Nat) : (s.addFlag c slot f).outside = s.outside := by
  rw [State.addFlag, State.outside_updBand]

@[simp] theorem State.outside_dropFlag (s : State) (c slot : Nat) (f : Option Nat) : (s.dropFlag c slot f).outside = s.outside := by
  cases f
  · rfl
  · rw [State.dropFlag, State.outside_updBand]

@[simp] theorem State.outside_flagged (s : State) (c slot : Nat) (f : Option Nat) : (s.flagged c slot f).outside = s.outside := by
  cases f
  · rfl
  · rw [State.flagged, State.outside_addFlag]

/-! ## Bands and their projections -/

/-- A projection of a band that an update of bands leaves alone. -/
theorem State.band_updBand_proj {β : Type} (p : Band → β) (s : State) (c b : Nat) (f : Band → Band) (h : ∀ x, p (f x) = p x)
    (d e : Nat) : p (((s.updBand c b f).core d).band e) = p ((s.core d).band e) := by
  rw [State.updBand, State.core_updCore]
  split
  · exact Core.band_updBand_proj p _ b e f h
  · rfl

theorem Core.band_writeLoc_proj {β : Type} (p : Band → β) (hV : ∀ b x, p { b with keepV := x } = p b)
    (hS : ∀ b x, p { b with keepS := x } = p b) (hP : ∀ b x, p { b with keepP := x } = p b) (k : Core) (slot : Nat)
    (gen : BitVec 16) (l : Loc) (w : Word) (e : Nat) : p ((k.writeLoc slot gen l w).band e) = p (k.band e) := by
  cases l with
  | vrf | srf | prf | nowhere => rfl
  | keepV => exact Core.band_updBand_proj p _ _ _ _ fun _ => hV _ _
  | keepS => exact Core.band_updBand_proj p _ _ _ _ fun _ => hS _ _
  | keepP => exact Core.band_updBand_proj p _ _ _ _ fun _ => hP _ _

theorem Core.band_writeLocs_proj {β : Type} (p : Band → β) (hV : ∀ b x, p { b with keepV := x } = p b)
    (hS : ∀ b x, p { b with keepS := x } = p b) (hP : ∀ b x, p { b with keepP := x } = p b) (ps : List (Loc × Word)) (k : Core)
    (slot : Nat) (gen : BitVec 16) (e : Nat) : p ((k.writeLocs slot gen ps).band e) = p (k.band e) := by
  induction ps generalizing k with
  | nil => rfl
  | cons q ps ih => rw [Core.writeLocs, List.foldl_cons, ← Core.writeLocs, ih, Core.band_writeLoc_proj p hV hS hP]

/-- A projection of bands that neither results on their way nor the keep banks are part of. -/
theorem State.band_writeNow_proj {β : Type} (p : Band → β) (hV : ∀ b x, p { b with keepV := x } = p b)
    (hS : ∀ b x, p { b with keepS := x } = p b) (hP : ∀ b x, p { b with keepP := x } = p b)
    (hQ : ∀ b x, p { b with pend := x } = p b) (s : State) (c slot : Nat) (gen : BitVec 16) (ps : List (Loc × Word)) (d e : Nat) :
    p (((s.writeNow c slot gen ps).core d).band e) = p ((s.core d).band e) := by
  rw [State.writeNow, State.core_updCore]
  split
  · rw [Core.band_writeLocs_proj p hV hS hP, State.band_updBand_proj p]
    exact fun _ => hQ _ _
  · exact State.band_updBand_proj p _ _ _ _ (fun _ => hQ _ _) d e

/-- A part of a core that neither its bands nor its register files are. -/
theorem Core.writeLoc_part {β : Type} (p : Core → β) (hV : ∀ k x, p { k with vrf := x } = p k)
    (hS : ∀ k x, p { k with srf := x } = p k) (hP : ∀ k x, p { k with prf := x } = p k)
    (hB : ∀ k x, p { k with bands := x } = p k) (k : Core) (slot : Nat) (gen : BitVec 16) (l : Loc) (w : Word) :
    p (k.writeLoc slot gen l w) = p k := by
  cases l with
  | vrf => exact hV _ _
  | srf => exact hS _ _
  | prf => exact hP _ _
  | nowhere => rfl
  | keepV | keepS | keepP => exact hB _ _

theorem State.part_writeNow {β : Type} (p : Core → β) (hV : ∀ k x, p { k with vrf := x } = p k)
    (hS : ∀ k x, p { k with srf := x } = p k) (hP : ∀ k x, p { k with prf := x } = p k)
    (hB : ∀ k x, p { k with bands := x } = p k) (s : State) (c slot : Nat) (gen : BitVec 16) (ps : List (Loc × Word)) (d : Nat) :
    p ((s.writeNow c slot gen ps).core d) = p (s.core d) := by
  have h : ∀ (ps : List (Loc × Word)) (k : Core), p (k.writeLocs slot gen ps) = p k := fun ps => by
    induction ps with
    | nil => exact fun _ => rfl
    | cons q ps ih =>
      intro k
      rw [Core.writeLocs, List.foldl_cons, ← Core.writeLocs, ih, Core.writeLoc_part p hV hS hP hB]
  have g : p ((s.updBand c slot (·.dropPend (ps.map (·.1)))).core d) = p (s.core d) := by
    rw [State.updBand, State.core_updCore]
    split
    · exact hB _ _
    · rfl
  rw [State.writeNow, State.core_updCore]
  split
  · rw [h, g]
  · exact g

theorem State.part_updBand {β : Type} (p : Core → β) (hB : ∀ k x, p { k with bands := x } = p k) (s : State) (c slot : Nat)
    (f : Band → Band) (d : Nat) : p ((s.updBand c slot f).core d) = p (s.core d) := by
  rw [State.updBand, State.core_updCore]
  split
  · exact hB _ _
  · rfl

/-! ## The meaning of an instruction that issues -/

/-- An instruction that issues does what its meaning gives once its checks are passed. -/
theorem issue_of_issues {s : State} {u : Cursor} {i : Instr} {q : Shape} (h : s.issues u i q = true) (f : Ctx → State → Res) :
    issue i q f s = .next (match f (s.seen u i q) (s.passed u i q) with
      | .ok t => t
      | .trap cause code addr => (s.begun u i q).trapHere (s.seen u i q) cause code addr
      | .trapAt t cause code kpc =>
        t.takeTrap u.core u.slot cause code (some u.entry) kpc (s.seen u i q).lanes 0
      | .stay g => g (s.begun u i q)
      | .walk vas access => s.updEntry u.core u.entry fun e => { e with wait := .walk vas access }
      | .hold => s.stall (s.seen u i q)) := by
  simp only [State.issues, State.stands, Bool.and_eq_true, beq_iff_eq, Bool.not_eq_true', Option.isNone_iff_eq_none] at h
  obtain ⟨⟨⟨⟨⟨⟨⟨⟨h1, -⟩, -⟩, -⟩, -⟩, -⟩, h2⟩, h3⟩, h4⟩ := h
  simp only [issue, h1, issueAt, h2, Bool.false_eq_true, if_false]
  simp only [State.seen, State.passed, State.begun] at h3 h4 ⊢
  rw [h3]
  simp only [show ((s.beginIssue u i q.uni q.d).ctx u (s.beginIssue u i q.uni q.d).cycle).slot = u.slot from rfl]
  rw [h4]
  rfl

/-- What results in place come to: each place reads its result, and all else is as it was. -/
theorem State.readLoc_writeNow (s : State) (c slot : Nat) (gen : BitVec 16) (ps : List (Loc × Word)) (p : Loc × Word)
    (hp : p ∈ ps) (hd : Distinct ps)
    (h : p.1.shared = true ∨ (mapGet (s.core c).bands slot).isSome ∨ p.1 = .nowhere) :
    (s.writeNow c slot gen ps).reg c slot gen p.1 = (p.1.held p.2, true) := by
  unfold State.writeNow State.reg
  rw [State.core_updCore_self]
  refine Core.readLoc_writeLocs _ _ _ _ _ hp hd ?_
  rw [State.updBand, State.core_updCore_self]
  simpa using h

end Sys2Proof.Machine
end

