-- ==== Sys2Proof/Laws/Gives.lean ====
section
/-! SUPPORT. Results of an instruction that issues: what `State.writeNow` and `State.writeLater` on the state it leaves come
to, as `State.Gives` and `State.GivesLater` say it. -/

-- One theorem at a time: the package compiles as one text, and a thread for each open proof asks for a stack of its own.
set_option Elab.async false

namespace Sys2Proof.Machine

/-! ## Placed bands stay placed -/

theorem State.placed_updCore (s : State) (c : Nat) (f : Core → Core) (b : Nat)
    (h : ∀ k, (mapGet (f k).bands b).isSome = (mapGet k.bands b).isSome) (d : Nat) :
    (mapGet ((s.updCore c f).core d).bands b).isSome = (mapGet (s.core d).bands b).isSome := by
  rw [State.core_updCore]
  split
  · exact h _
  · rfl

theorem State.placed_updBand (s : State) (c slot : Nat) (f : Band → Band) (b d : Nat) :
    (mapGet ((s.updBand c slot f).core d).bands b).isSome = (mapGet (s.core d).bands b).isSome :=
  State.placed_updCore s c _ b (fun k => Core.isSome_bands_updBand k slot b f) d

theorem State.placed_updThreads (s : State) (c slot : Nat) (m : Word) (f : Nat → Thread → Thread) (b d : Nat) :
    (mapGet ((s.updThreads c slot m f).core d).bands b).isSome = (mapGet (s.core d).bands b).isSome := by
  rw [State.updThreads, State.placed_updBand]

theorem State.placed_updEntry (s : State) (c e : Nat) (f : Entry → Entry) (b d : Nat) :
    (mapGet ((s.updEntry c e f).core d).bands b).isSome = (mapGet (s.core d).bands b).isSome :=
  State.placed_updCore s c (·.updEntry e f) b (fun _ => rfl) d

theorem State.placed_advance (s : State) (c e n b d : Nat) :
    (mapGet ((s.advance c e n).core d).bands b).isSome = (mapGet (s.core d).bands b).isSome := by
  simp only [State.advance, State.updStood, State.placed_updEntry]
  split
  · exact State.placed_updBand _ _ _ _ _ _
  · exact State.placed_updThreads _ _ _ _ _ _ _

/-- In keep mode a band is placed. -/
theorem Core.placed_of_keep {k : Core} {b : Nat} (h : (k.band b).keep = true) : (mapGet k.bands b).isSome = true := by
  simp only [Core.band, mapGetD] at h
  cases hb : mapGet k.bands b
  · simp [hb, Band.fresh] at h
  · rfl

theorem State.ctx_b (s : State) (u : Cursor) (n : Nat) : (s.ctx u n).b = (s.core u.core).band u.slot := rfl

theorem State.passed_placed (s : State) (u : Cursor) (i : Instr) (q : Shape) (h : (s.seen u i q).b.keep = true) :
    (mapGet ((s.passed u i q).core u.core).bands u.slot).isSome = true := by
  rw [State.passed, State.placed_advance]
  rw [State.seen, State.ctx_b] at h
  exact Core.placed_of_keep h

/-! ## Frames of `writeNow` and `writeLater` -/

theorem KeepsRegs.writeNow (s : State) (c slot : Nat) (gen : BitVec 16) (ps : List (Loc × Word)) :
    KeepsRegs s (s.writeNow c slot gen ps) c slot (ps.map (·.1)) := by
  intro c' slot' gen' l h
  unfold State.reg State.writeNow
  have hb : ∀ d, ((s.updBand c slot (·.dropPend (ps.map (·.1)))).core d).readLoc slot' gen' l = (s.core d).readLoc slot' gen' l := by
    intro d
    have hv := State.band_updBand_proj (·.keepV) s c slot (·.dropPend (ps.map (·.1))) (fun _ => rfl) d slot'
    have hs := State.band_updBand_proj (·.keepS) s c slot (·.dropPend (ps.map (·.1))) (fun _ => rfl) d slot'
    have hp := State.band_updBand_proj (·.keepP) s c slot (·.dropPend (ps.map (·.1))) (fun _ => rfl) d slot'
    have h1 := State.part_updBand (·.vrf) (fun _ _ => rfl) s c slot (·.dropPend (ps.map (·.1))) d
    have h2 := State.part_updBand (·.srf) (fun _ _ => rfl) s c slot (·.dropPend (ps.map (·.1))) d
    have h3 := State.part_updBand (·.prf) (fun _ _ => rfl) s c slot (·.dropPend (ps.map (·.1))) d
    cases l <;> simp_all [Core.readLoc]
  rw [State.core_updCore]
  split
  · rename_i hc
    subst hc
    rw [Core.readLoc_writeLocs_ne, hb]
    rintro ⟨h1, h2⟩
    exact h ⟨rfl, h1, h2⟩
  · exact hb _

theorem KeepsRegs.updBand (s : State) (c slot : Nat) (f : Band → Band) (hv : ∀ x, (f x).keepV = x.keepV)
    (hs : ∀ x, (f x).keepS = x.keepS) (hp : ∀ x, (f x).keepP = x.keepP) (c' slot' : Nat) (ls : List Loc) :
    KeepsRegs s (s.updBand c slot f) c' slot' ls := by
  intro d e gen l _
  unfold State.reg
  have h1 := State.part_updBand (·.vrf) (fun _ _ => rfl) s c slot f d
  have h2 := State.part_updBand (·.srf) (fun _ _ => rfl) s c slot f d
  have h3 := State.part_updBand (·.prf) (fun _ _ => rfl) s c slot f d
  have h4 := State.band_updBand_proj (·.keepV) s c slot f hv d e
  have h5 := State.band_updBand_proj (·.keepS) s c slot f hs d e
  have h6 := State.band_updBand_proj (·.keepP) s c slot f hp d e
  cases l <;> simp_all [Core.readLoc]

theorem KeepsSystem.writeNow (s : State) (c slot : Nat) (gen : BitVec 16) (ps : List (Loc × Word)) :
    KeepsSystem s (s.writeNow c slot gen ps) where
  band d b := by
    have h := State.band_writeNow_proj (fun x => (x.flags, x.rm, x.fflags, x.mshape, x.j, x.arr, x.lc, x.li, x.k, x.kcause, x.kpc,
      x.klanes, x.kaddr, x.keep)) (fun _ _ => rfl) (fun _ _ => rfl) (fun _ _ => rfl) (fun _ _ => rfl) s c slot gen ps d b
    simpa only [Prod.mk.injEq] using h
  task d := State.part_writeNow (·.tasks) (fun _ _ => rfl) (fun _ _ => rfl) (fun _ _ => rfl) (fun _ _ => rfl) s c slot gen ps d
  matrix d := ⟨State.part_writeNow (·.accs) (fun _ _ => rfl) (fun _ _ => rfl) (fun _ _ => rfl) (fun _ _ => rfl) s c slot gen ps d,
    State.part_writeNow (·.accStat) (fun _ _ => rfl) (fun _ _ => rfl) (fun _ _ => rfl) (fun _ _ => rfl) s c slot gen ps d,
    State.part_writeNow (·.tiles) (fun _ _ => rfl) (fun _ _ => rfl) (fun _ _ => rfl) (fun _ _ => rfl) s c slot gen ps d⟩

theorem KeepsThreads.writeNow (s : State) (c slot : Nat) (gen : BitVec 16) (ps : List (Loc × Word)) :
    KeepsThreads s (s.writeNow c slot gen ps) where
  table d := State.part_writeNow (·.table) (fun _ _ => rfl) (fun _ _ => rfl) (fun _ _ => rfl) (fun _ _ => rfl) s c slot gen ps d
  threads d b := State.band_writeNow_proj (·.threads) (fun _ _ => rfl) (fun _ _ => rfl) (fun _ _ => rfl) (fun _ _ => rfl)
    s c slot gen ps d b
  frozen d b := State.band_writeNow_proj (·.frozen) (fun _ _ => rfl) (fun _ _ => rfl) (fun _ _ => rfl) (fun _ _ => rfl)
    s c slot gen ps d b

/-- An update of a band that leaves what `KeepsSystem` names. -/
theorem KeepsSystem.updBand (s : State) (c slot : Nat) (f : Band → Band)
    (h : ∀ x, (fun (x : Band) => (x.flags, x.rm, x.fflags, x.mshape, x.j, x.arr, x.lc, x.li, x.k, x.kcause, x.kpc,
      x.klanes, x.kaddr, x.keep)) (f x) = (x.flags, x.rm, x.fflags, x.mshape, x.j, x.arr, x.lc, x.li, x.k, x.kcause, x.kpc,
      x.klanes, x.kaddr, x.keep)) : KeepsSystem s (s.updBand c slot f) where
  band d b := by
    have h := State.band_updBand_proj (fun x => (x.flags, x.rm, x.fflags, x.mshape, x.j, x.arr, x.lc, x.li, x.k, x.kcause, x.kpc,
      x.klanes, x.kaddr, x.keep)) s c slot f h d b
    simpa only [Prod.mk.injEq] using h
  task d := State.part_updBand (·.tasks) (fun _ _ => rfl) s c slot f d
  matrix d := ⟨State.part_updBand (·.accs) (fun _ _ => rfl) s c slot f d,
    State.part_updBand (·.accStat) (fun _ _ => rfl) s c slot f d, State.part_updBand (·.tiles) (fun _ _ => rfl) s c slot f d⟩

theorem KeepsThreads.updBand (s : State) (c slot : Nat) (f : Band → Band) (h : ∀ x, (f x).threads = x.threads)
    (g : ∀ x, (f x).frozen = x.frozen) : KeepsThreads s (s.updBand c slot f) where
  table d := State.part_updBand (·.table) (fun _ _ => rfl) s c slot f d
  threads d b := State.band_updBand_proj (·.threads) s c slot f h d b
  frozen d b := State.band_updBand_proj (·.frozen) s c slot f g d b

/-! ## What an instruction gives -/

theorem Core.pend_writeLocs (ps : List (Loc × Word)) (k : Core) (slot : Nat) (gen : BitVec 16) (e : Nat) :
    ((k.writeLocs slot gen ps).band e).pend = (k.band e).pend :=
  Core.band_writeLocs_proj (·.pend) (fun _ _ => rfl) (fun _ _ => rfl) (fun _ _ => rfl) ps k slot gen e

theorem State.band_updBand_self (s : State) (c b : Nat) (f : Band → Band) (h : (mapGet (s.core c).bands b).isSome = true) :
    ((s.updBand c b f).core c).band b = f ((s.core c).band b) := by
  rw [State.updBand, State.core_updCore_self, Core.band_updBand]
  simp [h]

theorem State.pend_writeNow (s : State) (c slot : Nat) (gen : BitVec 16) (ps : List (Loc × Word))
    (h : (mapGet (s.core c).bands slot).isSome = true) :
    (((s.writeNow c slot gen ps).core c).band slot).pend = (((s.core c).band slot).dropPend (ps.map (·.1))).pend := by
  rw [State.writeNow, State.core_updCore_self, Core.pend_writeLocs, State.band_updBand_self _ _ _ _ h]

theorem State.placed_writeNow (s : State) (c slot : Nat) (gen : BitVec 16) (ps : List (Loc × Word)) (b d : Nat) :
    (mapGet ((s.writeNow c slot gen ps).core d).bands b).isSome = (mapGet (s.core d).bands b).isSome := by
  rw [State.writeNow, State.placed_updCore, State.placed_updBand]
  intro k
  induction ps generalizing k with
  | nil => rfl
  | cons p ps ih => rw [Core.writeLocs, List.foldl_cons, ← Core.writeLocs, ih, Core.isSome_bands_writeLoc]

theorem State.pend_writeLater (s : State) (c slot due : Nat) (gen : BitVec 16) (ps : List (Loc × Word)) (f : Fl)
    (h : (mapGet (s.core c).bands slot).isSome = true) :
    (((s.writeLater c slot due gen ps f).core c).band slot).pend =
      (((s.core c).band slot).dropPend (ps.map (·.1))).pend ++ [⟨due, gen, ps, f⟩] := by
  rw [State.writeLater, State.band_updBand_self _ _ _ _ h]

/-! ## The state an instruction goes to -/

theorem KeepsRegs.refl (s : State) (c slot : Nat) (ls : List Loc) : KeepsRegs s s c slot ls := fun _ _ _ _ _ => rfl

theorem KeepsRegs.trans {a b d : State} {c slot : Nat} {ls : List Loc} (h : KeepsRegs a b c slot ls) (g : KeepsRegs b d c slot ls) :
    KeepsRegs a d c slot ls := fun c' slot' gen l hn => (g c' slot' gen l hn).trans (h c' slot' gen l hn)

theorem KeepsSystem.trans {a b d : State} (h : KeepsSystem a b) (g : KeepsSystem b d) : KeepsSystem a d where
  band c e := by
    have h := h.band c e
    have g := g.band c e
    dsimp only at h g ⊢
    simp only [g, h, and_self]
  task c := (g.task c).trans (h.task c)
  matrix c := ⟨(g.matrix c).1.trans (h.matrix c).1, (g.matrix c).2.1.trans (h.matrix c).2.1, (g.matrix c).2.2.trans (h.matrix c).2.2⟩

theorem KeepsThreads.trans {a b d : State} (h : KeepsThreads a b) (g : KeepsThreads b d) : KeepsThreads a d where
  table c := (g.table c).trans (h.table c)
  threads c e := (g.threads c e).trans (h.threads c e)
  frozen c e := (g.frozen c e).trans (h.frozen c e)

theorem KeepsRegs.writeLater (s : State) (c slot due : Nat) (gen : BitVec 16) (ps : List (Loc × Word)) (f : Fl) (c' slot' : Nat)
    (ls : List Loc) : KeepsRegs s (s.writeLater c slot due gen ps f) c' slot' ls := by
  rw [State.writeLater]
  refine KeepsRegs.updBand s c slot _ ?_ ?_ ?_ c' slot' ls <;> intro <;> rfl

theorem KeepsSystem.writeLater (s : State) (c slot due : Nat) (gen : BitVec 16) (ps : List (Loc × Word)) (f : Fl) :
    KeepsSystem s (s.writeLater c slot due gen ps f) := by
  rw [State.writeLater]
  refine KeepsSystem.updBand s c slot _ ?_
  intro; rfl

theorem KeepsThreads.writeLater (s : State) (c slot due : Nat) (gen : BitVec 16) (ps : List (Loc × Word)) (f : Fl) :
    KeepsThreads s (s.writeLater c slot due gen ps f) := by
  rw [State.writeLater]
  refine KeepsThreads.updBand s c slot _ ?_ ?_ <;> intro <;> rfl

theorem State.seen_core (s : State) (u : Cursor) (i : Instr) (q : Shape) : (s.seen u i q).core = u.core := by
  rw [State.seen, State.ctx]

theorem State.seen_slot (s : State) (u : Cursor) (i : Instr) (q : Shape) : (s.seen u i q).slot = u.slot := by
  rw [State.seen, State.ctx]

/-- Results at distinct places that are a band's own, and flags, as `State.doneFl` writes them. -/
theorem State.gives_doneFl (s : State) (u : Cursor) (i : Instr) (q : Shape) (ps : List (Loc × Word)) (fl : Fl) (hd : Distinct ps)
    (hp : (mapGet ((s.passed u i q).core u.core).bands u.slot).isSome = true)
    (hk : ∀ p ∈ ps, p.1.shared = true ∨ (s.seen u i q).b.keep = true ∨ p.1 = .nowhere) :
    ∃ t, (s.passed u i q).doneFl (s.seen u i q) ps fl = .ok t ∧ s.Gives u i q ps fl t := by
  have hr : ∀ p ∈ ps, ((s.passed u i q).writeNow u.core u.slot (s.seen u i q).gen ps).reg u.core u.slot (s.seen u i q).gen p.1 =
      (p.1.held p.2, true) := fun p hp =>
    State.readLoc_writeNow _ _ _ _ _ _ hp hd ((hk p hp).imp_right (Or.imp_left (State.passed_placed s u i q)))
  unfold State.doneFl
  have hm := (MemSame.passed s u i q).trans (MemSame.writeNow (s.passed u i q) u.core u.slot (s.seen u i q).gen ps)
  have hg := KeepsRegs.writeNow (s.passed u i q) u.core u.slot (s.seen u i q).gen ps
  have hs := KeepsSystem.writeNow (s.passed u i q) u.core u.slot (s.seen u i q).gen ps
  have ht := KeepsThreads.writeNow (s.passed u i q) u.core u.slot (s.seen u i q).gen ps
  have hq := State.pend_writeNow (s.passed u i q) u.core u.slot (s.seen u i q).gen ps hp
  have hw := State.placed_writeNow (s.passed u i q) u.core u.slot (s.seen u i q).gen ps u.slot u.core
  rw [hp] at hw
  have ho := (State.outside_writeNow (s.passed u i q) u.core u.slot (s.seen u i q).gen ps).trans (State.outside_passed s u i q)
  rw [State.seen_core, State.seen_slot]
  generalize (s.passed u i q).writeNow u.core u.slot (s.seen u i q).gen ps = t at *
  dsimp only
  by_cases hf : fl = flNone
  · rw [if_pos hf]
    exact ⟨t, rfl, hr, by rw [hq, hf, if_pos rfl, List.append_nil], hg, hs, ht, hm.keeps, ho⟩
  · rw [if_neg hf]
    refine ⟨_, rfl, fun p hp => ?_, ?_, hg.trans (KeepsRegs.writeLater _ _ _ _ _ _ _ _ _ _),
      hs.trans (KeepsSystem.writeLater _ _ _ _ _ _ _), ht.trans (KeepsThreads.writeLater _ _ _ _ _ _ _),
      (hm.trans (MemSame.writeLater _ _ _ _ _ _ _)).keeps, (State.outside_writeLater _ _ _ _ _ _ _).trans ho⟩
    · exact (KeepsRegs.writeLater t u.core u.slot _ _ [] fl u.core u.slot [] u.core u.slot _ p.1 (by simp)).trans (hr p hp)
    · rw [State.pend_writeLater _ _ _ _ _ _ _ hw, if_neg hf, List.map_nil, ← hq]
      simp [Band.dropPend]

/-- Results and flags on their way, as `State.done8` writes them. -/
theorem State.gives_done8 (s : State) (u : Cursor) (i : Instr) (q : Shape) (ps : List (Loc × Word)) (fl : Fl)
    (hp : (mapGet ((s.passed u i q).core u.core).bands u.slot).isSome = true) :
    ∃ t, (s.passed u i q).done8 (s.seen u i q) ps fl = .ok t ∧ s.GivesLater u i q 8 ps fl t := by
  rw [State.done8, State.seen_core, State.seen_slot]
  exact ⟨_, rfl, State.pend_writeLater _ _ _ _ _ _ _ hp, KeepsRegs.writeLater _ _ _ _ _ _ _ _ _ _,
    KeepsSystem.writeLater _ _ _ _ _ _ _, KeepsThreads.writeLater _ _ _ _ _ _ _,
    ((MemSame.passed s u i q).trans (MemSame.writeLater _ _ _ _ _ _ _)).keeps, by
      rw [State.outside_writeLater, State.outside_passed]⟩

/-! ## Places of results are distinct and a band's own -/

theorem lanesOf_lt {m : Word} {l : Nat} (h : l ∈ lanesOf m) : l < 32 := by
  simp only [lanesOf, List.mem_filter, List.mem_range] at h; exact h.1

theorem lanesOf_nodup (m : Word) : (lanesOf m).Nodup := List.Nodup.filter _ List.nodup_range

theorem Band.vLoc_own (b : Band) (slot l r : Nat) : (b.vLoc slot l r).shared = true ∨ b.keep = true ∨ b.vLoc slot l r = .nowhere := by
  unfold Band.vLoc
  split <;> simp_all [Loc.shared]

theorem Band.sLoc_own (b : Band) (slot r : Nat) : (b.sLoc slot r).shared = true ∨ b.keep = true ∨ b.sLoc slot r = .nowhere := by
  unfold Band.sLoc
  split <;> simp_all [Loc.shared]

theorem Band.pLoc_own (b : Band) (slot l p : Nat) : (b.pLoc slot l p).shared = true ∨ b.keep = true ∨ b.pLoc slot l p = .nowhere := by
  unfold Band.pLoc
  split
  · simp
  · split <;> simp_all [Loc.shared]

/-- Registers of two lanes, or two registers of a granule, are at two places. -/
theorem Band.vLoc_ne (b : Band) (slot : Nat) {l l' r r' : Nat} (hl : l < 32) (hl' : l' < 32) (hr : r < 128) (hr' : r' < 128)
    (h : l ≠ l' ∨ (r ≠ r' ∧ r / 8 = r' / 8)) : b.vLoc slot l r ≠ b.vLoc slot l' r' := by
  unfold Band.vLoc
  split <;> split <;> simp only [ne_eq, Loc.keepV.injEq, Loc.vrf.injEq, reduceCtorEq, not_false_eq_true]
  · rename_i h1 h2
    simp only [Bool.and_eq_true, decide_eq_true_eq] at h1 h2
    omega
  · unfold Band.vKey
    rcases h with h | ⟨h1, h2⟩
    · omega
    · rw [h2]; omega

theorem Band.sLoc_ne (b : Band) (slot : Nat) {r r' : Nat} (h : r ≠ r') : b.sLoc slot r ≠ b.sLoc slot r' := by
  unfold Band.sLoc
  split <;> split <;> simp only [ne_eq, Loc.keepS.injEq, Loc.srf.injEq, reduceCtorEq, not_false_eq_true]
  · rename_i h1 h2
    simp only [Bool.and_eq_true, decide_eq_true_eq] at h1 h2
    omega
  · omega

theorem Band.pLoc_ne (b : Band) (slot : Nat) {l l' p : Nat} (hp : p < 8) (h : l ≠ l') :
    b.pLoc slot l p = b.pLoc slot l' p → b.pLoc slot l p = .nowhere := by
  unfold Band.pLoc
  by_cases h0 : p = 0
  · simp [h0]
  · simp only [h0, if_false]
    by_cases hk : (b.keep && decide (6 ≤ p)) = true
    · simp only [hk, if_true, Loc.keepP.injEq]; omega
    · simp only [hk, if_false, Loc.prf.injEq, Bool.false_eq_true]; omega

theorem Ctx.each32_own {n : Nat} (x : Ctx) (vd : BitVec n) (f : Nat → Word) :
    ∀ p ∈ x.each32 vd f, p.1.shared = true ∨ x.b.keep = true ∨ p.1 = .nowhere := by
  intro p hp
  obtain ⟨l, -, rfl⟩ := List.mem_map.1 hp
  exact Band.vLoc_own _ _ _ _

theorem Ctx.each32_distinct (x : Ctx) (vd : BitVec 7) (f : Nat → Word) : Distinct (x.each32 vd f) := by
  refine List.pairwise_map.2 ((lanesOf_nodup x.active).imp_of_mem ?_)
  intro a b ha hb hne h
  exact absurd h (Band.vLoc_ne _ _ (lanesOf_lt ha) (lanesOf_lt hb) vd.isLt vd.isLt (.inl hne))

theorem Ctx.eachP_own {n : Nat} (x : Ctx) (pd : BitVec n) (f : Nat → Bool) :
    ∀ p ∈ x.eachP pd f, p.1.shared = true ∨ x.b.keep = true ∨ p.1 = .nowhere := by
  intro p hp
  obtain ⟨l, -, rfl⟩ := List.mem_map.1 hp
  exact Band.pLoc_own _ _ _ _

theorem Ctx.eachP_distinct (x : Ctx) (pd : BitVec 3) (f : Nat → Bool) : Distinct (x.eachP pd f) := by
  refine List.pairwise_map.2 ((lanesOf_nodup x.active).imp_of_mem ?_)
  intro a b _ _ hne h
  exact Band.pLoc_ne _ _ pd.isLt hne h

theorem Ctx.each64_own {n : Nat} (x : Ctx) (vd : BitVec n) (f : Nat → BitVec 64) :
    ∀ p ∈ x.each64 vd f, p.1.shared = true ∨ x.b.keep = true ∨ p.1 = .nowhere := by
  intro p hp
  obtain ⟨l, -, hp⟩ := List.mem_flatMap.1 hp
  rcases List.mem_cons.1 hp with rfl | hp
  · exact Band.vLoc_own _ _ _ _
  · rw [List.mem_singleton.1 hp]; exact Band.vLoc_own _ _ _ _

theorem Ctx.each64_distinct (x : Ctx) (vd : BitVec 7) (f : Nat → BitVec 64) (he : vd.toNat % 2 = 0) : Distinct (x.each64 vd f) := by
  have hv := vd.isLt
  refine List.pairwise_flatMap.2 ⟨fun l hl => ?_, (lanesOf_nodup x.active).imp_of_mem ?_⟩
  · simp only [List.pairwise_cons, List.mem_singleton, forall_eq, List.not_mem_nil, false_implies, implies_true,
      List.Pairwise.nil, and_true]
    intro h
    exact absurd h (Band.vLoc_ne _ _ (lanesOf_lt hl) (lanesOf_lt hl) hv (by omega) (.inr ⟨by omega, by omega⟩))
  · intro a b ha hb hne p hp p' hp' h
    have key : ∀ r r', r < 128 → r' < 128 → x.b.vLoc x.slot a r ≠ x.b.vLoc x.slot b r' := fun r r' h h' =>
      Band.vLoc_ne _ _ (lanesOf_lt ha) (lanesOf_lt hb) h h' (.inl hne)
    simp only [List.mem_cons, List.not_mem_nil, or_false] at hp hp'
    rcases hp with rfl | rfl <;> rcases hp' with rfl | rfl <;>
      exact absurd h (key _ _ (by omega) (by omega))

theorem Ctx.toS_distinct {n : Nat} (x : Ctx) (sd : BitVec n) (w : Word) : Distinct (x.toS sd w) := List.pairwise_singleton _ _

theorem Ctx.toS_own {n : Nat} (x : Ctx) (sd : BitVec n) (w : Word) :
    ∀ p ∈ x.toS sd w, p.1.shared = true ∨ x.b.keep = true ∨ p.1 = .nowhere := by
  intro p hp
  rw [List.mem_singleton.1 hp]; exact Band.sLoc_own _ _ _

theorem Ctx.toS64_distinct {n : Nat} (x : Ctx) (sd : BitVec n) (w : BitVec 64) : Distinct (x.toS64 sd w) := by
  simp only [Distinct, Ctx.toS64, List.pairwise_cons, List.mem_singleton, forall_eq, List.not_mem_nil, false_implies, implies_true,
      List.Pairwise.nil, and_true]
  intro h
  exact absurd h (Band.sLoc_ne _ _ (by omega))

theorem Ctx.toS64_own {n : Nat} (x : Ctx) (sd : BitVec n) (w : BitVec 64) :
    ∀ p ∈ x.toS64 sd w, p.1.shared = true ∨ x.b.keep = true ∨ p.1 = .nowhere := by
  intro p hp
  rcases List.mem_cons.1 hp with rfl | hp
  · exact Band.sLoc_own _ _ _
  · rw [List.mem_singleton.1 hp]; exact Band.sLoc_own _ _ _

theorem toNat_even {n : Nat} {r : BitVec n} (h : evenReg r = true) : r.toNat % 2 = 0 := by
  have : r.toNat.testBit 0 = false := by simpa [evenReg, BitVec.getLsbD] using h
  rw [Nat.testBit_zero] at this
  simp only [decide_eq_false_iff_not] at this
  omega

/-- Registers chosen by an index within the bound are at distinct places. -/
theorem Ctx.index_distinct (x : Ctx) (n : Nat → Nat) (f : Nat → Word) (h : ∀ l ∈ lanesOf x.active, x.vOk (n l) = true) :
    Distinct ((lanesOf x.active).map fun l => (x.b.vLoc x.slot l (n l), f l)) := by
  refine List.pairwise_map.2 ((lanesOf_nodup _).imp_of_mem ?_)
  intro a b ha hb hne he
  have h128 : ∀ l ∈ lanesOf x.active, n l < 128 := by
    intro l hl
    have := h l hl
    simp only [Ctx.vOk, Bool.and_eq_true, decide_eq_true_eq] at this; exact this.1
  exact absurd he (Band.vLoc_ne _ _ (lanesOf_lt ha) (lanesOf_lt hb) (h128 _ ha) (h128 _ hb) (.inl hne))

theorem Ctx.index_own (x : Ctx) (n : Nat → Nat) (f : Nat → Word) :
    ∀ p ∈ (lanesOf x.active).map fun l => (x.b.vLoc x.slot l (n l), f l),
      p.1.shared = true ∨ x.b.keep = true ∨ p.1 = .nowhere := by
  intro p hp
  obtain ⟨l, -, rfl⟩ := List.mem_map.1 hp
  exact Band.vLoc_own _ _ _ _

/-! ## The checks that an instruction that issues has passed -/

theorem check_wf {i : Instr} {q : Shape} {x : Ctx} (h : Sys2Proof.Machine.check i q x = none) : i.wf = true := by
  cases hw : i.wf
  · simp [Sys2Proof.Machine.check, hw] at h
  · rfl

theorem check_pre {i : Instr} {q : Shape} {x : Ctx} (h : Sys2Proof.Machine.check i q x = none) : q.pre x = none := by
  unfold Sys2Proof.Machine.check at h
  split at h; · simp at h
  split at h; · simp at h
  split at h; · simp at h
  assumption

theorem State.check_of_issues {s : State} {u : Cursor} {i : Instr} {q : Shape} (h : s.issues u i q = true) :
    Sys2Proof.Machine.check i q (s.seen u i q) = none := by
  simp only [State.issues, Bool.and_eq_true, Option.isNone_iff_eq_none] at h
  exact h.1.2

theorem State.wf_of_issues {s : State} {u : Cursor} {i : Instr} {q : Shape} (h : s.issues u i q = true) : i.wf = true :=
  check_wf (s.check_of_issues h)

/-! ## A band that issues stays placed -/

theorem State.placed_foldl {α : Type} (f : State → α → State) (c b : Nat)
    (hf : ∀ s a, (mapGet ((f s a).core c).bands b).isSome = (mapGet (s.core c).bands b).isSome) (l : List α) (s : State) :
    (mapGet ((l.foldl f s).core c).bands b).isSome = (mapGet (s.core c).bands b).isSome := by
  induction l generalizing s with
  | nil => rfl
  | cons a l ih => rw [List.foldl_cons, ih, hf]

theorem State.placed_writeLocs (s : State) (c slot : Nat) (gen : BitVec 16) (ps : List (Loc × Word)) (b d : Nat) :
    (mapGet ((s.updCore c (·.writeLocs slot gen ps)).core d).bands b).isSome = (mapGet (s.core d).bands b).isSome := by
  refine State.placed_updCore s c _ b (fun k => ?_) d
  induction ps generalizing k with
  | nil => rfl
  | cons p ps ih => rw [Core.writeLocs, List.foldl_cons, ← Core.writeLocs, ih, Core.isSome_bands_writeLoc]

theorem State.core_cycle (s : State) (n d : Nat) : ({ s with cycle := n } : State).core d = s.core d := rfl

theorem State.core_count (s : State) (p n i d : Nat) : (s.count p n i).core d = s.core d := rfl

theorem State.placed_clockTo (s : State) (n b d : Nat) :
    (mapGet ((s.clockTo n).core d).bands b).isSome = (mapGet (s.core d).bands b).isSome := by
  unfold State.clockTo
  split
  · rfl
  · rw [State.core_cycle]
    exact State.placed_foldl _ d b (fun s' p => by rw [State.core_count]) _ _

theorem State.placed_commit (s : State) (c slot now b d : Nat) :
    (mapGet ((s.commit c slot now).core d).bands b).isSome = (mapGet (s.core d).bands b).isSome := by
  unfold State.commit
  dsimp only
  rw [State.placed_foldl, State.placed_updBand]
  intro s x
  rw [State.raise, State.placed_updBand, State.placed_writeLocs]

theorem State.placed_ageBand (s : State) (u : Cursor) (now b d : Nat) :
    (mapGet ((s.ageBand u now).core d).bands b).isSome = (mapGet (s.core d).bands b).isSome := by
  unfold State.ageBand
  refine State.placed_foldl _ d b (fun s e => ?_) _ _
  dsimp only
  split
  · rfl
  · exact State.placed_updEntry _ _ _ _ _ _

theorem State.placed_passed (s : State) (u : Cursor) (i : Instr) (q : Shape) (b d : Nat) :
    (mapGet ((s.passed u i q).core d).bands b).isSome = (mapGet (s.core d).bands b).isSome := by
  rw [State.passed, State.placed_advance, State.begun, State.beginIssue, State.countAt]
  dsimp only
  rw [State.core_count, State.placed_updCore _ _ _ _ (fun k => ?_),
    State.placed_updEntry, State.placed_updBand, State.placed_updThreads, State.placed_ageBand, State.placed_commit,
    State.placed_clockTo]
  split <;> rfl

theorem State.placed_of_issues {s : State} {u : Cursor} {i : Instr} {q : Shape} (h : s.issues u i q = true) :
    (mapGet ((s.passed u i q).core u.core).bands u.slot).isSome = true := by
  rw [State.placed_passed]
  simp only [State.issues, State.stands, Bool.and_eq_true] at h
  exact h.1.1.1.1.1.1.1.2

/-! ## The outcome of an instruction with results -/

theorem State.done_eq (s : State) (x : Ctx) (ps : List (Loc × Word)) : s.done x ps = s.doneFl x ps flNone := rfl

/-- The outcome of an instruction whose meaning, once it issues, is done. -/
theorem issue_ok {s t : State} {u : Cursor} {i : Instr} {q : Shape} (h : s.issues u i q = true) (f : Ctx → State → Res)
    (hf : f (s.seen u i q) (s.passed u i q) = .ok t) : issue i q f s = .next t := by
  rw [issue_of_issues h, hf]

/-- An instruction whose meaning writes results and flags goes to a state that gives them. -/
theorem issue_gives_fl {s : State} {u : Cursor} {i : Instr} {q : Shape} (h : s.issues u i q = true) (f : Ctx → State → Res)
    (ps : List (Loc × Word)) (fl : Fl) (hf : f (s.seen u i q) (s.passed u i q) = (s.passed u i q).doneFl (s.seen u i q) ps fl)
    (hd : Distinct ps) (hk : ∀ p ∈ ps, p.1.shared = true ∨ (s.seen u i q).b.keep = true ∨ p.1 = .nowhere) :
    ∃ t, issue i q f s = .next t ∧ s.Gives u i q ps fl t := by
  obtain ⟨t, ht, hg⟩ := State.gives_doneFl s u i q ps fl hd (State.placed_of_issues h) hk
  exact ⟨t, issue_ok h f (hf.trans ht), hg⟩

theorem issue_gives {s : State} {u : Cursor} {i : Instr} {q : Shape} (h : s.issues u i q = true) (f : Ctx → State → Res)
    (ps : List (Loc × Word)) (hf : f (s.seen u i q) (s.passed u i q) = (s.passed u i q).done (s.seen u i q) ps)
    (hd : Distinct ps) (hk : ∀ p ∈ ps, p.1.shared = true ∨ (s.seen u i q).b.keep = true ∨ p.1 = .nowhere) :
    ∃ t, issue i q f s = .next t ∧ s.Gives u i q ps flNone t :=
  issue_gives_fl h f ps flNone (hf.trans (State.done_eq _ _ _)) hd hk

theorem issue_gives8 {s : State} {u : Cursor} {i : Instr} {q : Shape} (h : s.issues u i q = true) (f : Ctx → State → Res)
    (ps : List (Loc × Word)) (fl : Fl) (hf : f (s.seen u i q) (s.passed u i q) = (s.passed u i q).done8 (s.seen u i q) ps fl) :
    ∃ t, issue i q f s = .next t ∧ s.GivesLater u i q 8 ps fl t := by
  obtain ⟨t, ht, hg⟩ := State.gives_done8 s u i q ps fl (State.placed_of_issues h)
  exact ⟨t, issue_ok h f (hf.trans ht), hg⟩

/-! ## Operations in flight -/

theorem State.part_launchFlight {β : Type} (p : Core → β) (hf : ∀ k x y, p { k with flights := x, nextOp := y } = p k) (s : State)
    (c : Nat) (f : Flight) (d : Nat) : p ((s.launchFlight c f).core d) = p (s.core d) := by
  rw [State.launchFlight, State.core_updCore]
  split
  · exact hf _ _ _
  · rfl

theorem KeepsRegs.launchFlight (s : State) (c : Nat) (f : Flight) (c' slot : Nat) (ls : List Loc) :
    KeepsRegs s (s.launchFlight c f) c' slot ls := by
  intro d e gen l _
  exact State.part_launchFlight (fun k => k.readLoc e gen l) (fun k x y => by cases l <;> rfl) s c f d

theorem KeepsSystem.launchFlight (s : State) (c : Nat) (f : Flight) : KeepsSystem s (s.launchFlight c f) where
  band d b := by
    have h := State.part_launchFlight (fun k => k.band b) (fun _ _ _ => rfl) s c f d
    dsimp only at h ⊢
    simp only [h, and_self]
  task := State.part_launchFlight (·.tasks) (fun _ _ _ => rfl) s c f
  matrix d := ⟨State.part_launchFlight (·.accs) (fun _ _ _ => rfl) s c f d,
    State.part_launchFlight (·.accStat) (fun _ _ _ => rfl) s c f d, State.part_launchFlight (·.tiles) (fun _ _ _ => rfl) s c f d⟩

theorem KeepsThreads.launchFlight (s : State) (c : Nat) (f : Flight) : KeepsThreads s (s.launchFlight c f) where
  table := State.part_launchFlight (·.table) (fun _ _ _ => rfl) s c f
  threads d b := State.part_launchFlight (fun k => (k.band b).threads) (fun _ _ _ => rfl) s c f d
  frozen d b := State.part_launchFlight (fun k => (k.band b).frozen) (fun _ _ _ => rfl) s c f d

theorem MemSame.launchFlight (s : State) (c : Nat) (f : Flight) : MemSame s (s.launchFlight c f) :=
  MemSame.updCore s c _ fun _ => ⟨rfl, rfl, rfl, rfl⟩

theorem State.start_eq (s : State) (x : Ctx) (lanes : Word) (flag : Option Nat) (kind : FKind) :
    s.start x lanes flag kind = (s.flagged x.core x.slot flag).launchFlight x.core ⟨x.slot, x.gen, lanes, flag, kind⟩ := by
  cases flag <;> rfl

theorem State.part_flagged {β : Type} (p : Core → β) (hB : ∀ k x, p { k with bands := x } = p k) (s : State) (c slot : Nat)
    (f : Option Nat) (d : Nat) : p ((s.flagged c slot f).core d) = p (s.core d) := by
  cases f
  · rfl
  · exact State.part_updBand p hB _ _ _ _ _

theorem KeepsRegs.flagged (s : State) (c slot : Nat) (f : Option Nat) (c' slot' : Nat) (ls : List Loc) :
    KeepsRegs s (s.flagged c slot f) c' slot' ls := by
  cases f
  · exact KeepsRegs.refl _ _ _ _
  · rw [State.flagged, State.addFlag]
    refine KeepsRegs.updBand _ _ _ _ ?_ ?_ ?_ _ _ _ <;> intro <;> rfl

theorem KeepsThreads.flagged (s : State) (c slot : Nat) (f : Option Nat) : KeepsThreads s (s.flagged c slot f) := by
  cases f
  · exact ⟨fun _ => rfl, fun _ _ => rfl, fun _ _ => rfl⟩
  · rw [State.flagged, State.addFlag]
    refine KeepsThreads.updBand _ _ _ _ ?_ ?_ <;> intro <;> rfl

theorem MemSame.flagged (s : State) (c slot : Nat) (f : Option Nat) : MemSame s (s.flagged c slot f) := by
  cases f
  · exact MemSame.refl s
  · exact MemSame.updBand _ _ _ _

/-- A part of a core that an instruction's own bookkeeping on the state it leaves may precede. -/
theorem State.starts_of (s t : State) (u : Cursor) (i : Instr) (q : Shape) (lanes : Word) (flag : Option Nat) (kind : FKind)
    (hf : (t.core u.core).flights = ((s.passed u i q).core u.core).flights ∧ (t.core u.core).nextOp = ((s.passed u i q).core u.core).nextOp)
    (hr : KeepsRegs (s.passed u i q) t u.core u.slot []) (hb : ∀ c, (t.core c).bands = ((s.passed u i q).core c).bands)
    (hs : KeepsSystem (s.passed u i q) t) (ht : KeepsThreads (s.passed u i q) t) (hm : MemSame (s.passed u i q) t)
    (ho : t.outside = s.outside) : s.Starts u i q lanes flag kind (t.start (s.seen u i q) lanes flag kind) := by
  rw [State.start_eq, State.seen_core, State.seen_slot]
  refine ⟨?_, hr.trans ((KeepsRegs.flagged _ _ _ _ _ _ _).trans (KeepsRegs.launchFlight _ _ _ _ _ _)),
    KeepsSystem.trans ?_ (KeepsSystem.launchFlight _ _ _), ht.trans ((KeepsThreads.flagged _ _ _ _).trans (KeepsThreads.launchFlight _ _ _)),
    ((MemSame.passed s u i q).trans (hm.trans ((MemSame.flagged _ _ _ _).trans (MemSame.launchFlight _ _ _)))).keeps,
    by rw [State.outside_launchFlight, State.outside_flagged, ho]⟩
  · have h1 := State.part_flagged (·.flights) (fun _ _ => rfl) t u.core u.slot flag u.core
    have h2 := State.part_flagged (·.nextOp) (fun _ _ => rfl) t u.core u.slot flag u.core
    rw [State.launchFlight, State.core_updCore_self]
    dsimp only at h1 h2 ⊢
    rw [h1, h2, hf.1, hf.2]
  · cases flag with
    | none => exact hs
    | some f =>
      have hband : ∀ c e, ((t.addFlag u.core u.slot f).core c).band e = (((s.passed u i q).addFlag u.core u.slot f).core c).band e := by
        intro c e
        have hc : (t.core c).band e = ((s.passed u i q).core c).band e := by rw [Core.band, hb]; rfl
        simp only [State.addFlag, State.updBand, State.core_updCore]
        split
        · simp only [Core.band_updBand, hb, hc]
        · exact hc
      refine ⟨fun c e => ?_, fun c => ?_, fun c => ?_⟩
      · have := hband c e
        simp only [State.flagged, this, and_self]
      · exact (State.part_updBand (·.tasks) (fun _ _ => rfl) _ _ _ _ _).trans ((hs.task c).trans
          (State.part_updBand (·.tasks) (fun _ _ => rfl) _ _ _ _ _).symm)
      · exact ⟨(State.part_updBand (·.accs) (fun _ _ => rfl) _ _ _ _ _).trans ((hs.matrix c).1.trans
          (State.part_updBand (·.accs) (fun _ _ => rfl) _ _ _ _ _).symm),
          (State.part_updBand (·.accStat) (fun _ _ => rfl) _ _ _ _ _).trans ((hs.matrix c).2.1.trans
          (State.part_updBand (·.accStat) (fun _ _ => rfl) _ _ _ _ _).symm),
          (State.part_updBand (·.tiles) (fun _ _ => rfl) _ _ _ _ _).trans ((hs.matrix c).2.2.trans
          (State.part_updBand (·.tiles) (fun _ _ => rfl) _ _ _ _ _).symm)⟩

theorem State.starts (s : State) (u : Cursor) (i : Instr) (q : Shape) (lanes : Word) (flag : Option Nat) (kind : FKind) :
    s.Starts u i q lanes flag kind ((s.passed u i q).start (s.seen u i q) lanes flag kind) :=
  State.starts_of s _ u i q lanes flag kind ⟨rfl, rfl⟩ (KeepsRegs.refl _ _ _ _) (fun _ => rfl)
    ⟨fun _ _ => ⟨rfl, rfl, rfl, rfl, rfl, rfl, rfl, rfl, rfl, rfl, rfl, rfl, rfl, rfl⟩, fun _ => rfl, fun _ => ⟨rfl, rfl, rfl⟩⟩
    ⟨fun _ => rfl, fun _ _ => rfl, fun _ _ => rfl⟩ (MemSame.refl _)
    (State.outside_passed _ _ _ _)

end Sys2Proof.Machine
end

