-- ==== Sys2Proof/Laws/Deliver.lean ====
section
/-! SUPPORT. Completions of operations in flight: what writing their results, raising their flags and dropping them comes to. -/

-- One theorem at a time: the package compiles as one text, and a thread for each open proof asks for a stack of its own.
set_option Elab.async false

namespace Sys2Proof.Machine

theorem State.part_dropFlight {β : Type} (p : Core → β) (hf : ∀ k x, p { k with flights := x } = p k) (s : State)
    (c id d : Nat) : p ((s.dropFlight c id).core d) = p (s.core d) := by
  rw [State.dropFlight, State.core_updCore]
  split
  · exact hf _ _
  · rfl

theorem State.part_dropFlag {β : Type} (p : Core → β) (hB : ∀ k x, p { k with bands := x } = p k) (s : State) (c slot : Nat)
    (f : Option Nat) (d : Nat) : p ((s.dropFlag c slot f).core d) = p (s.core d) := by
  cases f
  · rfl
  · exact State.part_updBand p hB _ _ _ _ _

theorem State.band_dropFlag_proj {β : Type} (p : Band → β) (h : ∀ b x, p { b with flags := x } = p b) (s : State) (c slot : Nat)
    (f : Option Nat) (d e : Nat) : p (((s.dropFlag c slot f).core d).band e) = p ((s.core d).band e) := by
  cases f
  · rfl
  · exact State.band_updBand_proj p _ _ _ _ (fun _ => h _ _) _ _

theorem KeepsRegs.dropFlag (s : State) (c slot : Nat) (f : Option Nat) (c' slot' : Nat) (ls : List Loc) :
    KeepsRegs s (s.dropFlag c slot f) c' slot' ls := by
  cases f
  · exact KeepsRegs.refl _ _ _ _
  · rw [State.dropFlag]
    refine KeepsRegs.updBand _ _ _ _ ?_ ?_ ?_ _ _ _ <;> intro <;> rfl

theorem KeepsRegs.dropFlight (s : State) (c id : Nat) (c' slot : Nat) (ls : List Loc) :
    KeepsRegs s (s.dropFlight c id) c' slot ls := by
  intro d e gen l _
  exact State.part_dropFlight (fun k => k.readLoc e gen l) (fun k x => by cases l <;> rfl) s c id d

theorem KeepsRegs.raise (s : State) (c slot : Nat) (f : Fl) (c' slot' : Nat) (ls : List Loc) :
    KeepsRegs s (s.raise c slot f) c' slot' ls := by
  rw [State.raise]
  refine KeepsRegs.updBand _ _ _ _ ?_ ?_ ?_ _ _ _ <;> intro <;> rfl

theorem KeepsRegs.writeLocs (s : State) (c slot : Nat) (gen : BitVec 16) (ps : List (Loc × Word)) :
    KeepsRegs s (s.updCore c (·.writeLocs slot gen ps)) c slot (ps.map (·.1)) := by
  intro c' slot' gen' l h
  unfold State.reg
  rw [State.core_updCore]
  split
  · rename_i hc
    subst hc
    rw [Core.readLoc_writeLocs_ne]
    rintro ⟨h1, h2⟩
    exact h ⟨rfl, h1, h2⟩
  · rfl

theorem KeepsThreads.dropFlag (s : State) (c slot : Nat) (f : Option Nat) : KeepsThreads s (s.dropFlag c slot f) where
  table := State.part_dropFlag (·.table) (fun _ _ => rfl) s c slot f
  threads := State.band_dropFlag_proj (·.threads) (fun _ _ => rfl) s c slot f
  frozen := State.band_dropFlag_proj (·.frozen) (fun _ _ => rfl) s c slot f

theorem KeepsThreads.dropFlight (s : State) (c id : Nat) : KeepsThreads s (s.dropFlight c id) where
  table := State.part_dropFlight (·.table) (fun _ _ => rfl) s c id
  threads d b := State.part_dropFlight (fun k => (k.band b).threads) (fun _ _ => rfl) s c id d
  frozen d b := State.part_dropFlight (fun k => (k.band b).frozen) (fun _ _ => rfl) s c id d

theorem KeepsThreads.raise (s : State) (c slot : Nat) (f : Fl) : KeepsThreads s (s.raise c slot f) := by
  rw [State.raise]
  refine KeepsThreads.updBand _ _ _ _ ?_ ?_ <;> intro <;> rfl

/-- A part of a core that neither its bands nor its register files are. -/
theorem State.part_writeLocs {β : Type} (p : Core → β) (hV : ∀ k x, p { k with vrf := x } = p k)
    (hS : ∀ k x, p { k with srf := x } = p k) (hP : ∀ k x, p { k with prf := x } = p k)
    (hB : ∀ k x, p { k with bands := x } = p k) (s : State) (c slot : Nat) (gen : BitVec 16) (ps : List (Loc × Word)) (d : Nat) :
    p ((s.updCore c (·.writeLocs slot gen ps)).core d) = p (s.core d) := by
  rw [State.core_updCore]
  split
  · have h : ∀ (ps : List (Loc × Word)) (k : Core), p (k.writeLocs slot gen ps) = p k := fun ps => by
      induction ps with
      | nil => exact fun _ => rfl
      | cons q ps ih =>
        intro k
        rw [Core.writeLocs, List.foldl_cons, ← Core.writeLocs, ih, Core.writeLoc_part p hV hS hP hB]
    exact h _ _
  · rfl

theorem State.band_writeLocs_proj {β : Type} (p : Band → β) (hV : ∀ b x, p { b with keepV := x } = p b)
    (hS : ∀ b x, p { b with keepS := x } = p b) (hP : ∀ b x, p { b with keepP := x } = p b) (s : State) (c slot : Nat)
    (gen : BitVec 16) (ps : List (Loc × Word)) (d e : Nat) :
    p (((s.updCore c (·.writeLocs slot gen ps)).core d).band e) = p ((s.core d).band e) := by
  rw [State.core_updCore]
  split
  · exact Core.band_writeLocs_proj p hV hS hP _ _ _ _ _
  · rfl

theorem KeepsThreads.writeLocs (s : State) (c slot : Nat) (gen : BitVec 16) (ps : List (Loc × Word)) :
    KeepsThreads s (s.updCore c (·.writeLocs slot gen ps)) where
  table := State.part_writeLocs (·.table) (fun _ _ => rfl) (fun _ _ => rfl) (fun _ _ => rfl) (fun _ _ => rfl) s c slot gen ps
  threads := State.band_writeLocs_proj (·.threads) (fun _ _ => rfl) (fun _ _ => rfl) (fun _ _ => rfl) s c slot gen ps
  frozen := State.band_writeLocs_proj (·.frozen) (fun _ _ => rfl) (fun _ _ => rfl) (fun _ _ => rfl) s c slot gen ps

theorem MemSame.dropFlight (s : State) (c id : Nat) : MemSame s (s.dropFlight c id) := by
  rw [State.dropFlight]
  exact MemSame.updCore s c _ fun _ => ⟨rfl, rfl, rfl, rfl⟩

theorem MemSame.dropFlag (s : State) (c slot : Nat) (f : Option Nat) : MemSame s (s.dropFlag c slot f) := by
  cases f
  · exact MemSame.refl s
  · rw [State.dropFlag]; exact MemSame.updBand _ _ _ _

/-- Results at distinct places written, flags raised, and the operation dropped with its completion flag. -/
theorem State.delivers (s : State) (c id : Nat) (f : Flight) (w : List (Loc × Word)) (fl : Fl)
    (hp : (mapGet (s.core c).bands f.slot).isSome = true) (hd : Distinct w) (r : State)
    (hr : r = s.updCore c (·.writeLocs f.slot f.gen w)) (t : State)
    (ht : t = ((if fl = flNone then r else r.raise c f.slot fl).dropFlight c id).dropFlag c f.slot f.flag) :
    s.Delivers c id f w fl t := by
  have hres : ∀ p ∈ w, r.reg c f.slot f.gen p.1 = (p.1.held p.2, true) := fun p hp' => by
    rw [hr, State.reg, State.core_updCore_self]
    exact Core.readLoc_writeLocs _ _ _ _ _ hp' hd (.inr (.inl hp))
  have hpr : (mapGet (r.core c).bands f.slot).isSome = true := by rw [hr, State.placed_writeLocs, hp]
  have hregs := KeepsRegs.writeLocs s c f.slot f.gen w
  have hth := KeepsThreads.writeLocs s c f.slot f.gen w
  have hm := MemSame.writeLocs s c f.slot f.gen w
  have ho := State.outside_updCore s c (·.writeLocs f.slot f.gen w)
  have hfl := State.part_writeLocs (·.flights) (fun _ _ => rfl) (fun _ _ => rfl) (fun _ _ => rfl) (fun _ _ => rfl) s c f.slot f.gen w c
  have hff := State.band_writeLocs_proj (·.fflags) (fun _ _ => rfl) (fun _ _ => rfl) (fun _ _ => rfl) s c f.slot f.gen w c f.slot
  have hfg := State.band_writeLocs_proj (·.flags) (fun _ _ => rfl) (fun _ _ => rfl) (fun _ _ => rfl) s c f.slot f.gen w c f.slot
  rw [← hr] at hregs hth hm ho hfl hff hfg
  clear hr
  obtain ⟨r', hr'⟩ : ∃ r', r' = if fl = flNone then r else r.raise c f.slot fl := ⟨_, rfl⟩
  rw [← hr'] at ht
  have h2 : KeepsRegs r r' c f.slot [] ∧ KeepsThreads r r' ∧ MemSame r r' ∧ r'.outside = r.outside ∧
      (r'.core c).flights = (r.core c).flights ∧ ((r'.core c).band f.slot).fflags = ((r.core c).band f.slot).fflags ||| fl ∧
      ((r'.core c).band f.slot).flags = ((r.core c).band f.slot).flags ∧ (mapGet (r'.core c).bands f.slot).isSome = true := by
    rw [hr']
    split
    · rename_i h0
      exact ⟨KeepsRegs.refl _ _ _ _, ⟨fun _ => rfl, fun _ _ => rfl, fun _ _ => rfl⟩, MemSame.refl _, rfl, rfl, by simp [h0, flNone], rfl, hpr⟩
    · refine ⟨KeepsRegs.raise _ _ _ _ _ _ _, KeepsThreads.raise _ _ _ _, MemSame.raise _ _ _ _, State.outside_raise _ _ _ _,
        ?_, ?_, ?_, ?_⟩
      · rw [State.raise]; exact State.part_updBand (·.flights) (fun _ _ => rfl) _ _ _ _ _
      · rw [State.raise, State.band_updBand_self _ _ _ _ hpr]
      · rw [State.raise, State.band_updBand_self _ _ _ _ hpr]
      · rw [State.raise, State.placed_updBand, hpr]
  obtain ⟨a1, a2, a3, a4, a5, a6, a7, a8⟩ := h2
  clear hr'
  subst ht
  have hpd : (mapGet ((r'.dropFlight c id).core c).bands f.slot).isSome = true := by
    rw [show mapGet ((r'.dropFlight c id).core c).bands f.slot = mapGet (r'.core c).bands f.slot from
      State.part_dropFlight (fun k => mapGet k.bands f.slot) (fun _ _ => rfl) r' c id c, a8]
  have hbd : ((r'.dropFlight c id).core c).band f.slot = (r'.core c).band f.slot :=
    State.part_dropFlight (fun k => k.band f.slot) (fun _ _ => rfl) r' c id c
  have hkr := (KeepsRegs.dropFlight r' c id c f.slot []).trans (KeepsRegs.dropFlag (r'.dropFlight c id) c f.slot f.flag c f.slot [])
  refine ⟨fun p hp => ?_, ?_, fun n => ?_, ?_, ?_, ?_, ?_, ?_⟩
  · exact (hkr _ _ _ _ (by simp)).trans ((a1 _ _ _ _ (by simp)).trans (hres p hp))
  · rw [State.band_dropFlag_proj (·.fflags) (fun _ _ => rfl), hbd, a6, hff]
  · cases hg : f.flag with
    | none => simp only [State.dropFlag, Band.flagCount, hbd, a7, hfg, reduceCtorEq, if_false, Nat.sub_zero]
    | some g =>
      rw [State.dropFlag, State.band_updBand_self _ _ _ _ hpd]
      simp only [Band.flagCount, hbd, a7, hfg, mapGetD_mapSet, Option.some.injEq]
      by_cases h : n = g
      · subst h; simp
      · simp [h, Ne.symm h]
  · rw [State.part_dropFlag (·.flights) (fun _ _ => rfl), State.dropFlight, State.core_updCore_self]
    dsimp only
    rw [a5, hfl]
  · exact KeepsRegs.trans hregs (KeepsRegs.trans (fun _ _ _ _ _ => a1 _ _ _ _ (by simp)) fun _ _ _ _ _ => hkr _ _ _ _ (by simp))
  · exact hth.trans (a2.trans ((KeepsThreads.dropFlight _ _ _).trans (KeepsThreads.dropFlag _ _ _ _)))
  · exact (hm.trans (a3.trans ((MemSame.dropFlight _ _ _).trans (MemSame.dropFlag _ _ _ _)))).keeps
  · rw [State.outside_dropFlag, State.outside_dropFlight, a4, ho]

end Sys2Proof.Machine
end

