-- ==== Sys2Proof/Laws/Control.lean ====
section
/-! SUPPORT. What updates of a band and of an entry come to, as `State.Changes` says it. -/

-- One theorem at a time: the package compiles as one text, and a thread for each open proof asks for a stack of its own.
set_option Elab.async false

namespace Sys2Proof.Machine

theorem Core.entry_updEntry (k : Core) (e d : Nat) (g : Entry → Entry) :
    (k.updEntry e g).entry d = if d = e ∧ (mapGet k.table e).isSome then g (k.entry e) else k.entry d := by
  simp only [Core.entry, Core.updEntry, mapGetD, mapGet_mapUpd]
  by_cases h : d = e
  · subst h; cases mapGet k.table d <;> simp
  · simp [h]

theorem State.entry_updEntry_self (s : State) (c e : Nat) (g : Entry → Entry) (h : (mapGet (s.core c).table e).isSome = true) :
    ((s.updEntry c e g).core c).entry e = g ((s.core c).entry e) := by
  rw [State.updEntry, State.core_updCore_self, Core.entry_updEntry]
  simp [h]

theorem State.entry_updEntry_ne (s : State) (c e : Nat) (g : Entry → Entry) (d f : Nat) (h : ¬(d = c ∧ f = e)) :
    ((s.updEntry c e g).core d).entry f = (s.core d).entry f := by
  rw [State.updEntry, State.core_updCore]
  split
  · subst d
    rw [Core.entry_updEntry, if_neg (by tauto)]
  · rfl

theorem State.band_updEntry (s : State) (c e : Nat) (g : Entry → Entry) (d b : Nat) :
    ((s.updEntry c e g).core d).band b = (s.core d).band b := by
  rw [State.updEntry, State.core_updCore]; split
  · subst d; rfl
  · rfl

theorem State.table_updBand (s : State) (c b : Nat) (f : Band → Band) (d : Nat) :
    ((s.updBand c b f).core d).table = (s.core d).table := State.part_updBand (·.table) (fun _ _ => rfl) s c b f d

theorem State.band_updBand_ne (s : State) (c b : Nat) (f : Band → Band) (d e : Nat) (h : ¬(d = c ∧ e = b)) :
    ((s.updBand c b f).core d).band e = (s.core d).band e := by
  rw [State.updBand, State.core_updCore]; split
  · subst d; rw [Core.band_updBand, if_neg (by tauto)]
  · rfl

theorem State.rest_updBand (s : State) (c b : Nat) (f : Band → Band) (d : Nat) :
    ((s.updBand c b f).core d).rest = (s.core d).rest := by
  rw [State.updBand, State.core_updCore]; split
  · subst d; rfl
  · rfl

theorem State.rest_updEntry (s : State) (c b : Nat) (f : Entry → Entry) (d : Nat) :
    ((s.updEntry c b f).core d).rest = (s.core d).rest := by
  rw [State.updEntry, State.core_updCore]; split
  · subst d; rfl
  · rfl

/-! ## The entry that issues stays in the table -/

theorem State.tabled_updCore (s : State) (c : Nat) (f : Core → Core) (e : Nat)
    (h : ∀ k, (mapGet (f k).table e).isSome = (mapGet k.table e).isSome) (d : Nat) :
    (mapGet ((s.updCore c f).core d).table e).isSome = (mapGet (s.core d).table e).isSome := by
  rw [State.core_updCore]
  split
  · exact h _
  · rfl

theorem State.tabled_updBand (s : State) (c slot : Nat) (f : Band → Band) (e d : Nat) :
    (mapGet ((s.updBand c slot f).core d).table e).isSome = (mapGet (s.core d).table e).isSome := by
  rw [State.table_updBand]

theorem State.tabled_updThreads (s : State) (c slot : Nat) (m : Word) (f : Nat → Thread → Thread) (e d : Nat) :
    (mapGet ((s.updThreads c slot m f).core d).table e).isSome = (mapGet (s.core d).table e).isSome := by
  rw [State.updThreads, State.tabled_updBand]

theorem Core.isSome_table_updEntry (k : Core) (e d : Nat) (g : Entry → Entry) :
    (mapGet (k.updEntry e g).table d).isSome = (mapGet k.table d).isSome := by
  simp only [Core.updEntry, mapGet_mapUpd]
  split
  · rename_i h; subst h; cases mapGet k.table d <;> rfl
  · rfl

theorem State.tabled_updEntry (s : State) (c e : Nat) (g : Entry → Entry) (f d : Nat) :
    (mapGet ((s.updEntry c e g).core d).table f).isSome = (mapGet (s.core d).table f).isSome :=
  State.tabled_updCore s c (·.updEntry e g) f (fun k => Core.isSome_table_updEntry k e f g) d

theorem State.tabled_advance (s : State) (c e n f d : Nat) :
    (mapGet ((s.advance c e n).core d).table f).isSome = (mapGet (s.core d).table f).isSome := by
  simp only [State.advance, State.updStood, State.tabled_updEntry]
  split
  · exact State.tabled_updBand _ _ _ _ _ _
  · exact State.tabled_updThreads _ _ _ _ _ _ _

theorem State.tabled_foldl {α : Type} (f : State → α → State) (c b : Nat)
    (hf : ∀ s a, (mapGet ((f s a).core c).table b).isSome = (mapGet (s.core c).table b).isSome) (l : List α) (s : State) :
    (mapGet ((l.foldl f s).core c).table b).isSome = (mapGet (s.core c).table b).isSome := by
  induction l generalizing s with
  | nil => rfl
  | cons a l ih => rw [List.foldl_cons, ih, hf]

theorem State.tabled_clockTo (s : State) (n b d : Nat) :
    (mapGet ((s.clockTo n).core d).table b).isSome = (mapGet (s.core d).table b).isSome := by
  unfold State.clockTo
  split
  · rfl
  · rw [State.core_cycle]
    exact State.tabled_foldl _ d b (fun s' p => by rw [State.core_count]) _ _

theorem Core.table_writeLocs (ps : List (Loc × Word)) (k : Core) (slot : Nat) (gen : BitVec 16) :
    (k.writeLocs slot gen ps).table = k.table := by
  induction ps generalizing k with
  | nil => rfl
  | cons p ps ih => rw [Core.writeLocs, List.foldl_cons, ← Core.writeLocs, ih,
      Core.writeLoc_part (·.table) (fun _ _ => rfl) (fun _ _ => rfl) (fun _ _ => rfl) (fun _ _ => rfl)]

theorem State.tabled_commit (s : State) (c slot now b d : Nat) :
    (mapGet ((s.commit c slot now).core d).table b).isSome = (mapGet (s.core d).table b).isSome := by
  unfold State.commit
  dsimp only
  rw [State.tabled_foldl, State.tabled_updBand]
  intro s x
  rw [State.raise, State.tabled_updBand, State.tabled_updCore _ _ _ _ fun k => by rw [Core.table_writeLocs]]

theorem State.tabled_ageBand (s : State) (u : Cursor) (now b d : Nat) :
    (mapGet ((s.ageBand u now).core d).table b).isSome = (mapGet (s.core d).table b).isSome := by
  unfold State.ageBand
  refine State.tabled_foldl _ d b (fun s e => ?_) _ _
  dsimp only
  split
  · rfl
  · exact State.tabled_updEntry _ _ _ _ _ _

theorem State.tabled_passed (s : State) (u : Cursor) (i : Instr) (q : Shape) (b d : Nat) :
    (mapGet ((s.passed u i q).core d).table b).isSome = (mapGet (s.core d).table b).isSome := by
  rw [State.passed, State.tabled_advance, State.begun, State.beginIssue, State.countAt]
  dsimp only
  rw [State.core_count, State.tabled_updCore _ _ _ _ (fun k => ?_),
    State.tabled_updEntry, State.tabled_updBand, State.tabled_updThreads, State.tabled_ageBand, State.tabled_commit,
    State.tabled_clockTo]
  split <;> rfl

theorem State.tabled_of_issues {s : State} {u : Cursor} {i : Instr} {q : Shape} (h : s.issues u i q = true) :
    (mapGet ((s.passed u i q).core u.core).table u.entry).isSome = true := by
  rw [State.tabled_passed]
  simp only [State.issues, State.stands, Bool.and_eq_true] at h
  exact h.1.1.1.1.1.1.2

/-! ## Changes of a band and of its sub-band -/

theorem changes_both {s : State} {u : Cursor} {i : Instr} {q : Shape} (h : s.issues u i q = true) (f : Band → Band) (g : Entry → Entry) :
    s.Changes u i q f g (((s.passed u i q).updBand u.core u.slot f).updEntry u.core u.entry g) where
  band := by rw [State.band_updEntry, State.band_updBand_self _ _ _ _ (State.placed_of_issues h)]
  bands c b hn := by rw [State.band_updEntry, State.band_updBand_ne _ _ _ _ _ _ hn]
  entry := by
    rw [State.entry_updEntry_self _ _ _ _ (by rw [State.tabled_updBand]; exact State.tabled_of_issues h)]
    rw [Core.entry, State.table_updBand]; rfl
  entries c e hn := by rw [State.entry_updEntry_ne _ _ _ _ _ _ hn, Core.entry, State.table_updBand]; rfl
  rest c := by rw [State.rest_updEntry, State.rest_updBand]
  memory := ((MemSame.passed s u i q).trans ((MemSame.updBand _ _ _ _).trans (MemSame.updEntry _ _ _ _))).keeps
  outside := by rw [State.outside_updEntry, State.outside_updBand, State.outside_passed]

theorem changes_band {s : State} {u : Cursor} {i : Instr} {q : Shape} (h : s.issues u i q = true) (f : Band → Band) :
    s.Changes u i q f id ((s.passed u i q).updBand u.core u.slot f) where
  band := by rw [State.band_updBand_self _ _ _ _ (State.placed_of_issues h)]
  bands c b hn := by rw [State.band_updBand_ne _ _ _ _ _ _ hn]
  entry := by rw [Core.entry, State.table_updBand]; rfl
  entries c e hn := by rw [Core.entry, State.table_updBand]; rfl
  rest c := by rw [State.rest_updBand]
  memory := ((MemSame.passed s u i q).trans (MemSame.updBand _ _ _ _)).keeps
  outside := by rw [State.outside_updBand, State.outside_passed]

theorem changes_none (s : State) (u : Cursor) (i : Instr) (q : Shape) : s.Changes u i q id id (s.passed u i q) where
  band := rfl
  bands _ _ _ := rfl
  entry := rfl
  entries _ _ _ := rfl
  rest _ := rfl
  memory := (MemSame.passed s u i q).keeps
  outside := State.outside_passed _ _ _ _

theorem mapSet_mapSet {α : Type} (m : Map α) (i : Nat) (x y : α) : mapSet (mapSet m i x) i y = mapSet m i y := by
  induction m with
  | nil => simp [mapSet]
  | cons p m ih =>
    obtain ⟨k, v⟩ := p
    rcases Nat.lt_trichotomy i k with h | h | h
    · simp [mapSet, Nat.ne_of_lt h, h]
    · simp [mapSet, h]
    · simp [mapSet, Nat.ne_of_gt h, Nat.not_lt.2 (Nat.le_of_lt h), ih]

theorem mapUpd_mapUpd {α : Type} (m : Map α) (i : Nat) (f g : α → α) : mapUpd (mapUpd m i f) i g = mapUpd m i fun x => g (f x) := by
  unfold mapUpd
  cases h : mapGet m i with
  | none => simp [h]
  | some v => simp [mapSet_mapSet]

theorem State.updCore_updCore (s : State) (c : Nat) (f g : Core → Core) : (s.updCore c f).updCore c g = s.updCore c fun k => g (f k) := by
  have h : ∀ (k k' : Core), (s.setCore c k).setCore c k' = s.setCore c k' := fun k k' => by
    simp only [State.setCore, mapSet_mapSet]
  rw [State.updCore, State.updCore, State.core_setCore_self, h, State.updCore]

theorem State.updBand_updBand (s : State) (c b : Nat) (f g : Band → Band) :
    (s.updBand c b f).updBand c b g = s.updBand c b fun x => g (f x) := by
  simp only [State.updBand, State.updCore_updCore, Core.updBand, mapUpd_mapUpd]

theorem State.updEntry_updEntry (s : State) (c e : Nat) (f g : Entry → Entry) :
    (s.updEntry c e f).updEntry c e g = s.updEntry c e fun x => g (f x) := by
  simp only [State.updEntry, State.updCore_updCore, Core.updEntry, mapUpd_mapUpd]

theorem State.updEntry_updBand (s : State) (c b e : Nat) (f : Band → Band) (g : Entry → Entry) :
    (s.updEntry c e g).updBand c b f = (s.updBand c b f).updEntry c e g := by
  simp only [State.updEntry, State.updBand, State.updCore_updCore, Core.updEntry, Core.updBand]

theorem State.seen_e (s : State) (u : Cursor) (i : Instr) (q : Shape) : (s.seen u i q).e = u.entry := by
  rw [State.seen, State.ctx]

theorem State.goTo_eq (t : State) (c b : Nat) (m : Word) (pc : BitVec 64) : t.goTo c b m pc = t.updBand c b (Band.standAt m pc) := rfl

theorem State.jump_eq (t : State) (s : State) (u : Cursor) (i : Instr) (q : Shape) (m : Word) (pc : BitVec 64) :
    t.jump (s.seen u i q) m pc = (t.updBand u.core u.slot (Band.standAt m pc)).updEntry u.core u.entry Entry.outside := by
  rw [State.seen, State.jump, State.ctx]; rfl

end Sys2Proof.Machine
end

