-- ==== Sys2Proof/Laws/Trap.lean ====
section
/-! SUPPORT. Entering keep mode: what the withdrawals of R305 leave alone, and what the entry leaves. -/

-- One theorem at a time: the package compiles as one text, and a thread for each open proof asks for a stack of its own.
set_option Elab.async false

namespace Sys2Proof.Machine

/-! ## Threads under updates -/

theorem thread_foldl_mapSet (ls : List Nat) (f : Nat → Thread → Thread) (m : Map Thread) (l : Nat) (hn : ls.Nodup) :
    mapGetD (ls.foldl (fun t l => mapSet t l (f l (mapGetD t l Thread.fresh))) m) l Thread.fresh =
      if l ∈ ls then f l (mapGetD m l Thread.fresh) else mapGetD m l Thread.fresh := by
  induction ls generalizing m with
  | nil => simp
  | cons a ls ih =>
    obtain ⟨ha, hn⟩ := List.nodup_cons.1 hn
    rw [List.foldl_cons, ih _ hn]
    simp only [mapGetD_mapSet, List.mem_cons]
    by_cases h1 : l = a
    · subst h1; simp [ha]
    · by_cases h2 : l ∈ ls <;> simp [h1, h2]

/-- The threads of a band after an update of the lanes of a mask. -/
theorem Band.thread_updThreads (b : Band) (m : Word) (f : Nat → Thread → Thread) (l : Nat) :
    (b.updThreads m f).thread l = if l ∈ lanesOf m then f l (b.thread l) else b.thread l :=
  thread_foldl_mapSet _ f _ _ (lanesOf_nodup m)

theorem mapGet_mapAll_isSome {α : Type} (m : Map α) (f : Nat → α → α) (i : Nat) :
    (mapGet (mapAll m f) i).isSome = (mapGet m i).isSome := by rw [mapGet_mapAll]; cases mapGet m i <;> rfl

/-! ## What the withdrawals leave alone -/

/-- A core but its bands, its tasks, its sub-band table and its operations in flight. -/
def Core.bare (k : Core) : Core := { k with bands := [], tasks := [], table := [], flights := [], nextOp := 0 }

/-- A band but its threads, flags, turn and open cross-lane operation. -/
def Band.bare (b : Band) : Band := { b with threads := [], flags := [], xop := none, turn := none }

/-- A task but its convergence registers. -/
def Task.bare (t : Task) : Task := { t with g := [] }

def Entry.bare (e : Entry) : Entry := { e with wait := .ready, ctx := none }

/-- A change of one band's waiting and signing only; `κ` is what is kept of a thread. -/
structure Withdrawn (κ : Thread → Thread) (s t : State) (c slot : Nat) : Prop where
  core : ∀ d, d ≠ c → t.core d = s.core d
  bare : (t.core c).bare = (s.core c).bare
  others : ∀ b, b ≠ slot → (t.core c).band b = (s.core c).band b
  placed : ∀ b, (mapGet (t.core c).bands b).isSome = (mapGet (s.core c).bands b).isSome
  band : ((t.core c).band slot).bare = ((s.core c).band slot).bare
  threads : ∀ l, κ (((t.core c).band slot).thread l) = κ (((s.core c).band slot).thread l)
  table : ∀ e, (mapGet (t.core c).table e).map Entry.bare = (mapGet (s.core c).table e).map Entry.bare
  tasks : ∀ n, ((t.core c).task n).bare = ((s.core c).task n).bare
  flights : ∀ f ∈ (t.core c).flights, f ∈ (s.core c).flights
  outside : t.outside = s.outside

variable {κ : Thread → Thread}

theorem Withdrawn.refl (s : State) (c slot : Nat) : Withdrawn κ s s c slot :=
  ⟨fun _ _ => rfl, rfl, fun _ _ => rfl, fun _ => rfl, rfl, fun _ => rfl, fun _ => rfl, fun _ => rfl, fun _ h => h, rfl⟩

theorem Withdrawn.trans {a b d : State} {c slot : Nat} (h : Withdrawn κ a b c slot) (g : Withdrawn κ b d c slot) :
    Withdrawn κ a d c slot where
  core n hn := (g.core n hn).trans (h.core n hn)
  bare := g.bare.trans h.bare
  others n hn := (g.others n hn).trans (h.others n hn)
  placed n := (g.placed n).trans (h.placed n)
  band := g.band.trans h.band
  threads l := (g.threads l).trans (h.threads l)
  table e := (g.table e).trans (h.table e)
  tasks n := (g.tasks n).trans (h.tasks n)
  flights f hf := h.flights f (g.flights f hf)
  outside := g.outside.trans h.outside

theorem Withdrawn.foldl {α : Type} (f : State → α → State) (c slot : Nat) (l : List α)
    (hf : ∀ s, ∀ a ∈ l, Withdrawn κ s (f s a) c slot) (s : State) :
    Withdrawn κ s (l.foldl f s) c slot := by
  induction l generalizing s with
  | nil => exact .refl s c slot
  | cons a l ih => exact (hf s a (by simp)).trans (ih (fun s b hb => hf s b (by simp [hb])) _)

theorem Withdrawn.updBand (s : State) (c slot : Nat) (f : Band → Band) (hb : ∀ b, (f b).bare = b.bare)
    (ht : ∀ b l, κ ((f b).thread l) = κ (b.thread l)) : Withdrawn κ s (s.updBand c slot f) c slot where
  core d hd := by rw [State.updBand, State.core_updCore, if_neg hd]
  bare := by rw [State.updBand, State.core_updCore_self]; rfl
  others b hb := State.band_updBand_ne _ _ _ _ _ _ (by tauto)
  placed b := State.placed_updBand _ _ _ _ _ _
  band := State.band_updBand_proj Band.bare s c slot f hb c slot
  threads l := State.band_updBand_proj (fun b => κ (b.thread l)) s c slot f (fun b => ht b l) c slot
  table e := by rw [State.table_updBand]
  tasks n := State.part_updBand (fun k => (k.task n).bare) (fun _ _ => rfl) s c slot f c
  flights f h := by rwa [State.part_updBand (·.flights) (fun _ _ => rfl)] at h
  outside := State.outside_updBand _ _ _ _

theorem Withdrawn.updTable (s : State) (c slot : Nat) (f : Nat → Entry → Entry) (hf : ∀ e x, (f e x).bare = x.bare) :
    Withdrawn κ s (s.updCore c fun k => { k with table := mapAll k.table f }) c slot where
  core d hd := by rw [State.core_updCore, if_neg hd]
  bare := by rw [State.core_updCore_self]; rfl
  others b hb := by rw [State.core_updCore_self]; rfl
  placed b := by rw [State.core_updCore_self]
  band := by rw [State.core_updCore_self]; rfl
  threads l := by rw [State.core_updCore_self]; rfl
  table e := by
    rw [State.core_updCore_self]
    simp only [mapGet_mapAll, Option.map_map, Function.comp_def, hf]
  tasks n := by rw [State.core_updCore_self]; rfl
  flights f h := by rwa [State.core_updCore_self] at h
  outside := State.outside_updCore _ _ _

theorem Withdrawn.updEntry (s : State) (c slot e : Nat) (f : Entry → Entry) (hf : ∀ x, (f x).bare = x.bare) :
    Withdrawn κ s (s.updEntry c e f) c slot where
  core d hd := by rw [State.updEntry, State.core_updCore, if_neg hd]
  bare := by rw [State.updEntry, State.core_updCore_self]; rfl
  others b hb := State.band_updEntry _ _ _ _ _ _
  placed b := State.placed_updEntry _ _ _ _ _ _
  band := by rw [State.band_updEntry]
  threads l := by rw [State.band_updEntry]
  table d := by
    rw [State.updEntry, State.core_updCore_self]
    simp only [Core.updEntry, mapGet_mapUpd]
    split
    · rename_i h; subst h; cases mapGet (s.core c).table d <;> simp [hf]
    · rfl
  tasks n := by rw [State.updEntry, State.core_updCore_self]; rfl
  flights f h := by rwa [State.updEntry, State.core_updCore_self] at h
  outside := State.outside_updEntry _ _ _ _

theorem Core.task_updTask_key {β : Type} (p : Task → β) (k : Core) (t n : Nat) (f : Task → Task) (h : ∀ x, p (f x) = p x) :
    p ((k.updTask t f).task n) = p (k.task n) := by
  simp only [Core.task, Core.updTask, mapGetD, mapGet_mapUpd]
  split
  · rename_i e; subst e; cases mapGet k.tasks n <;> simp [h]
  · rfl

theorem Withdrawn.updTask (s : State) (c slot t : Nat) (f : Task → Task)
    (hf : ∀ x, (f x).bare = x.bare) :
    Withdrawn κ s (s.updTask c t f) c slot where
  core d hd := by rw [State.updTask, State.core_updCore, if_neg hd]
  bare := by rw [State.updTask, State.core_updCore_self]; rfl
  others b hb := by rw [State.updTask, State.core_updCore_self]; rfl
  placed b := by rw [State.updTask, State.core_updCore_self]; rfl
  band := by rw [State.updTask, State.core_updCore_self]; rfl
  threads l := by rw [State.updTask, State.core_updCore_self]; rfl
  table d := by rw [State.updTask, State.core_updCore_self]; rfl
  tasks n := by
    rw [State.updTask, State.core_updCore_self]
    exact Core.task_updTask_key Task.bare _ t n f hf
  flights f h := by rwa [State.updTask, State.core_updCore_self] at h
  outside := State.outside_updTask _ _ _ _

theorem mem_of_mem_mapDel {α : Type} (m : Map α) (i : Nat) (x : Nat × α) (h : x ∈ mapDel m i) : x ∈ m := by
  induction m with
  | nil => exact h
  | cons p m ih =>
    obtain ⟨k, v⟩ := p
    simp only [mapDel] at h
    split at h
    · exact List.mem_cons_of_mem _ (ih h)
    · rcases List.mem_cons.1 h with h | h
      · simp [h]
      · exact List.mem_cons_of_mem _ (ih h)

theorem Withdrawn.dropFlight (s : State) (c slot id : Nat) : Withdrawn κ s (s.dropFlight c id) c slot where
  core d hd := by rw [State.dropFlight, State.core_updCore, if_neg hd]
  bare := by rw [State.dropFlight, State.core_updCore_self]; rfl
  others b hb := by rw [State.dropFlight, State.core_updCore_self]; rfl
  placed b := by rw [State.dropFlight, State.core_updCore_self]
  band := by rw [State.dropFlight, State.core_updCore_self]; rfl
  threads l := by rw [State.dropFlight, State.core_updCore_self]; rfl
  table d := by rw [State.dropFlight, State.core_updCore_self]
  tasks n := by rw [State.dropFlight, State.core_updCore_self]; rfl
  flights f h := by
    rw [State.dropFlight, State.core_updCore_self] at h
    exact mem_of_mem_mapDel _ _ _ h
  outside := State.outside_dropFlight _ _ _

theorem Withdrawn.dropFlag (s : State) (c slot : Nat) (f : Option Nat) : Withdrawn κ s (s.dropFlag c slot f) c slot := by
  cases f with
  | none => exact .refl _ _ _
  | some f => exact .updBand _ _ _ _ (fun _ => rfl) (fun _ _ => rfl)

theorem Band.thread_mapAll {b b' : Band} {f : Nat → Thread → Thread} (e : b'.threads = mapAll b.threads f) (l : Nat)
    (h : f l Thread.fresh = Thread.fresh) : b'.thread l = f l (b.thread l) := by
  simp only [Band.thread, mapGetD, e, mapGet_mapAll]
  cases mapGet b.threads l <;> simp [h]

theorem Withdrawn.updThreads (s : State) (c slot : Nat) (m : Word) (f : Nat → Thread → Thread) (h : ∀ l y, κ (f l y) = κ y) :
    Withdrawn κ s (s.updThreads c slot m f) c slot := by
  rw [State.updThreads]
  refine .updBand _ _ _ _ (fun _ => rfl) fun b l => ?_
  rw [Band.thread_updThreads]
  split
  · exact h _ _
  · rfl

theorem Withdrawn.members (hκ : ∀ (y : Thread) m, κ { y with mark := m } = κ y) (s : State) (c slot : Nat) :
    Withdrawn κ s (s.withdrawMembers c slot) c slot := by
  unfold State.withdrawMembers
  dsimp only
  refine .trans ?_ (.updTable _ _ _ _ fun e x => by split <;> rfl)
  refine .updBand _ _ _ _ (fun _ => rfl) fun b l => ?_
  rw [Band.thread_mapAll (b := b) (f := fun l t =>
    if t.mark = .held && b.xop.any (·.arrived.getLsbD l) then { t with mark := .none } else t) rfl l (by simp [Thread.fresh])]
  split
  · exact hκ _ _
  · rfl

theorem Withdrawn.signers (hκ : ∀ (y : Thread) m, κ { y with mark := m } = κ y) (s : State) (c slot : Nat) :
    Withdrawn κ s (s.withdrawSigners c slot) c slot := by
  unfold State.withdrawSigners
  dsimp only
  refine .trans ?_ (.updTable _ _ _ _ fun e x => by split <;> (try split) <;> rfl)
  generalize List.foldl (fun m (p : Nat × Flight) => m ||| p.2.lanes) 0#32 _ = w
  refine .trans ?_ (.updBand _ _ _ _ (fun _ => rfl) fun b l => ?_)
  · refine .trans ?_ (.updTask _ _ _ _ _ fun _ => rfl)
    exact .foldl _ _ _ _ (fun s p _ => .trans (.dropFlag _ _ _ _) (.dropFlight _ _ _ _)) _
  · rw [Band.thread_mapAll (b := b) (f := fun l t =>
      if t.mark = .held && w.getLsbD l then { t with mark := .none } else t) rfl l (by simp [Thread.fresh])]
    split
    · exact hκ _ _
    · rfl

theorem Withdrawn.ops (s : State) (c slot : Nat) : Withdrawn κ s (s.withdrawOps c slot) c slot := by
  unfold State.withdrawOps
  refine .foldl _ _ _ _ (fun s e _ => ?_) _
  split
  · exact .dropFlag _ _ _ _
  · split
    · split
      · exact .trans (.dropFlag _ _ _ _) (.dropFlight _ _ _ _)
      · exact .refl _ _ _
    · exact .refl _ _ _
  · exact .refl _ _ _

theorem Withdrawn.pops (s : State) (c slot : Nat)
    (hκ : (∀ (y : Thread) p b, κ { y with pc := p, base := b } = κ y) ∨ (s.core c).noPops slot) :
    Withdrawn κ s (s.withdrawPops c slot) c slot := by
  unfold State.withdrawPops
  refine .foldl _ _ _ _ (fun t p hp => ?_) _
  simp only [List.mem_reverse, List.mem_filter, beq_iff_eq] at hp
  split
  · rename_i q d pc base hk
    refine .trans (.trans (.dropFlag _ _ _ _) (.dropFlight _ _ _ _)) (.foldl _ _ _ _ (fun s e _ => ?_) _)
    dsimp only
    split
    · rcases hκ with hκ | hκ
      · exact .trans (.updThreads _ _ _ _ _ fun _ y => hκ y _ _) (.updEntry _ _ _ _ _ fun _ => rfl)
      · exact absurd hk (hκ p hp.1 hp.2 _ _ _ _)
    · exact .refl _ _ _
  · exact .refl _ _ _

theorem Withdrawn.all (hm : ∀ (y : Thread) m, κ { y with mark := m } = κ y) (s : State) (c slot : Nat)
    (hκ : (∀ (y : Thread) p b, κ { y with pc := p, base := b } = κ y) ∨ (s.core c).noPops slot) :
    Withdrawn κ s ((((s.withdrawMembers c slot).withdrawSigners c slot).withdrawPops c slot).withdrawOps c slot) c slot := by
  have h : Withdrawn κ s ((s.withdrawMembers c slot).withdrawSigners c slot) c slot :=
    (Withdrawn.members hm s c slot).trans (Withdrawn.signers hm _ _ _)
  refine (h.trans (Withdrawn.pops _ _ _ (hκ.imp_right fun g f hf => g f (h.flights f hf)))).trans (Withdrawn.ops _ _ _)

/-! ## The entry to keep mode -/

theorem Core.bare_parts {k k' : Core} (h : k'.bare = k.bare) : k'.vrf = k.vrf ∧ k'.srf = k.srf ∧ k'.prf = k.prf ∧ k'.l1 = k.l1 ∧
    k'.pw = k.pw ∧ k'.requests = k.requests ∧ k'.scratch = k.scratch ∧ k'.accs = k.accs ∧ k'.accStat = k.accStat ∧
    k'.tiles = k.tiles := by
  simp only [Core.bare, Core.mk.injEq] at h
  tauto

theorem Band.bare_parts {b b' : Band} (h : b'.bare = b.bare) : b'.rm = b.rm ∧ b'.fflags = b.fflags ∧ b'.mshape = b.mshape ∧
    b'.j = b.j ∧ b'.arr = b.arr ∧ b'.lc = b.lc ∧ b'.li = b.li ∧ b'.k = b.k ∧ b'.keepV = b.keepV ∧ b'.keepS = b.keepS ∧
    b'.keepP = b.keepP ∧ b'.task = b.task ∧ b'.index = b.index := by
  simp only [Band.bare, Band.mk.injEq] at h
  tauto

theorem memSame_of_bare {s t : State} (hc : ∀ d, (t.core d).bare = (s.core d).bare) (ho : t.outside = s.outside) : MemSame s t := by
  have h1 : t.outside.mem = s.outside.mem := by rw [ho]
  have h2 : t.outside.domes = s.outside.domes := by rw [ho]
  refine ⟨h1, h2, fun d => ?_⟩
  have h := Core.bare_parts (hc d)
  tauto

theorem keepsRegs_of_bare {s t : State} (hc : ∀ d, (t.core d).bare = (s.core d).bare)
    (hb : ∀ d b, ((t.core d).band b).keepV = ((s.core d).band b).keepV ∧ ((t.core d).band b).keepS = ((s.core d).band b).keepS ∧
      ((t.core d).band b).keepP = ((s.core d).band b).keepP) (c slot : Nat) (ls : List Loc) : KeepsRegs s t c slot ls := by
  intro d b gen l _
  have h := Core.bare_parts (hc d)
  have g := hb d b
  unfold State.reg
  cases l <;> simp only [Core.readLoc, h, g]

theorem Band.live_congr {b b' : Band} (h : ∀ l, (b'.thread l).exited = (b.thread l).exited) : b'.live = b.live := by
  simp only [Band.live, h]

/-- What a band is once its sub-bands have frozen and its threads stand at the vector. -/
def Band.vectored (b : Band) (cause code : Nat) (trap : Option Nat) (kpc : BitVec 64) (klanes : Word) (kaddr vec : BitVec 64) : Band :=
  { b with keep := true, frozen := b.threads, kcause := BitVec.ofNat 32 (cause + 256 * code), kpc, klanes, kaddr
           kpcSet := false, kmid := cause == 2 && kpc != kaddr, ktrap := trap, restored := false, turn := none
           threads := mapAll b.threads fun _ x =>
             { x with pc := vec, base := vec, hold := .none, mark := .none, parked := false } }

/-- What an entry is once its band has frozen. -/
def Entry.freeze (slot : Nat) (e : Entry) : Entry :=
  if e.slot = slot then { e with frozen := true, wait := match e.wait with
      | .ready | .fetch | .stalled | .translate _ | .walk _ _ | .member | .op _ => .ready
      | .signer g => .signer g
      | .bar g p => .bar g p
      | .again g => .again g
      | .barw g => .barw g
      | .phase => .phase
      | .jwait j => .jwait j
      | .parked => .parked } else e

theorem State.enterKeep_eq (s : State) (c slot cause code : Nat) (trap : Option Nat) (kpc : BitVec 64) (klanes : Word)
    (kaddr : BitVec 64) : s.enterKeep c slot cause code trap kpc klanes kaddr =
    let w := (((s.withdrawMembers c slot).withdrawSigners c slot).withdrawPops c slot).withdrawOps c slot
    let b := (w.core c).band slot
    let t := (w.updCore c fun k => { k with table := mapAll k.table fun _ e => e.freeze slot }).updBand c slot fun b =>
      b.vectored cause code trap kpc klanes kaddr ((w.core c).task ((w.core c).band slot).task).kvec
    if b.live = 0 then t else
      t.updCore c fun k => { k with table := mapSet k.table (256 + slot) { Entry.fresh with slot, lanes := b.live } } := rfl

/-- The parts of a state once a band has frozen and its handler is to run. -/
theorem State.vector_parts (w : State) (c slot : Nat) (f : Band → Band) (live : Word)
    (hp : (mapGet (w.core c).bands slot).isSome = true) :
    let t := (w.updCore c fun k => { k with table := mapAll k.table fun _ e => e.freeze slot }).updBand c slot f
    let r := if live = 0 then t else
      t.updCore c fun k => { k with table := mapSet k.table (256 + slot) { Entry.fresh with slot, lanes := live } }
    (∀ d, d ≠ c → r.core d = w.core d) ∧ (r.core c).bare = (w.core c).bare ∧ (r.core c).tasks = (w.core c).tasks ∧
    (r.core c).band slot = f ((w.core c).band slot) ∧ (∀ b, b ≠ slot → (r.core c).band b = (w.core c).band b) ∧
    (live ≠ 0 → (r.core c).entry (256 + slot) = { Entry.fresh with slot, lanes := live }) ∧
    (∀ e, e ≠ 256 + slot → mapGet (r.core c).table e = (mapGet (w.core c).table e).map (Entry.freeze slot)) ∧
    r.outside = w.outside := by
  intro t r
  have hb : (t.core c).band slot = f ((w.core c).band slot) := by
    simp only [t]
    rw [State.band_updBand_self _ _ _ _ (by rw [State.core_updCore_self]; exact hp), State.core_updCore_self]; rfl
  have hbn : ∀ b, b ≠ slot → (t.core c).band b = (w.core c).band b := by
    intro b hb
    simp only [t]
    rw [State.band_updBand_ne _ _ _ _ _ _ (by tauto), State.core_updCore_self]; rfl
  have ht : ∀ d, d ≠ c → t.core d = w.core d := by
    intro d hd
    simp only [t]
    rw [State.updBand, State.core_updCore, if_neg hd, State.core_updCore, if_neg hd]
  have hbare : (t.core c).bare = (w.core c).bare := by
    simp only [t]
    rw [State.updBand, State.core_updCore_self, State.core_updCore_self]; rfl
  have htask : (t.core c).tasks = (w.core c).tasks := by
    simp only [t]
    rw [State.updBand, State.core_updCore_self, State.core_updCore_self]; rfl
  have htab : (t.core c).table = mapAll (w.core c).table fun _ e => e.freeze slot := by
    simp only [t]
    rw [State.table_updBand, State.core_updCore_self]
  have ho : t.outside = w.outside := by
    simp only [t]
    rw [State.outside_updBand, State.outside_updCore]
  have htab' : ∀ e, mapGet (t.core c).table e = (mapGet (w.core c).table e).map (Entry.freeze slot) := fun e => by
    rw [htab, mapGet_mapAll]
  clear_value t
  by_cases hl : live = 0
  · simp only [r, hl, if_true, ne_eq, not_true_eq_false, false_implies, true_and]
    exact ⟨ht, hbare, htask, hb, hbn, fun e _ => htab' e, ho⟩
  · simp only [r, hl, if_false, ne_eq, not_false_eq_true, true_implies]
    refine ⟨fun d hd => ?_, ?_, ?_, ?_, fun b hb => ?_, ?_, fun e he => ?_, ?_⟩
    · rw [State.core_updCore, if_neg hd, ht d hd]
    · rw [State.core_updCore_self]; exact hbare
    · rw [State.core_updCore_self]; exact htask
    · rw [State.core_updCore_self]; exact hb
    · rw [State.core_updCore_self]; exact hbn b hb
    · rw [State.core_updCore_self]
      simp only [Core.entry, mapGetD, mapGet_mapSet_self, Option.getD_some]
    · rw [State.core_updCore_self]
      simp only [mapGet_mapSet_ne _ _ he, htab']
    · rw [State.outside_updCore]; exact ho

theorem Entry.freeze_parts (slot : Nat) (e : Entry) : (e.freeze slot).slot = e.slot ∧ (e.freeze slot).lanes = e.lanes ∧
    (e.freeze slot).defer = e.defer ∧ (e.slot = slot → (e.freeze slot).frozen = true) := by
  unfold Entry.freeze
  split <;> simp_all

theorem State.enters (s : State) (c slot cause code : Nat) (trap : Option Nat) (kpc : BitVec 64) (klanes : Word)
    (kaddr : BitVec 64) (hp : (mapGet (s.core c).bands slot).isSome = true) :
    s.Enters c slot cause code kpc klanes kaddr (s.enterKeep c slot cause code trap kpc klanes kaddr) := by
  have hw := Withdrawn.all (κ := fun y => { y with pc := 0, base := 0, mark := .none }) (fun _ _ => rfl) s c slot (.inl fun _ _ _ => rfl)
  have hw2 : (s.core c).noPops slot → _ := fun h =>
    Withdrawn.all (κ := fun y => { y with mark := .none }) (fun _ _ => rfl) s c slot (.inr h)
  rw [State.enterKeep_eq]
  generalize (((s.withdrawMembers c slot).withdrawSigners c slot).withdrawPops c slot).withdrawOps c slot = w at *
  have hex : ∀ l, (((w.core c).band slot).thread l).exited = (((s.core c).band slot).thread l).exited ∧
      (((w.core c).band slot).thread l).parked = (((s.core c).band slot).thread l).parked ∧
      (((w.core c).band slot).thread l).depth = (((s.core c).band slot).thread l).depth ∧
      (((w.core c).band slot).thread l).stack = (((s.core c).band slot).thread l).stack ∧
      (((w.core c).band slot).thread l).hold = (((s.core c).band slot).thread l).hold := by
    intro l
    have := hw.threads l
    simp only [Thread.mk.injEq] at this
    tauto
  have hlive : ((w.core c).band slot).live = ((s.core c).band slot).live := Band.live_congr fun l => (hex l).1
  have hp' : (mapGet (w.core c).bands slot).isSome = true := by rw [hw.placed]; exact hp
  have hbw := Band.bare_parts hw.band
  have hkvec : ((w.core c).task ((w.core c).band slot).task).kvec = ((s.core c).task ((s.core c).band slot).task).kvec := by
    have h1 := hw.tasks ((s.core c).band slot).task
    have h2 : ((w.core c).band slot).task = ((s.core c).band slot).task := by tauto
    rw [h2]
    simp only [Task.bare, Task.mk.injEq] at h1
    tauto
  have hparts := State.vector_parts w c slot (fun b => b.vectored cause code trap kpc klanes kaddr
    ((w.core c).task ((w.core c).band slot).task).kvec) ((w.core c).band slot).live hp'
  dsimp only at hparts ⊢
  generalize (if ((w.core c).band slot).live = 0 then _ else _ : State) = r at *
  obtain ⟨hcore, hbare, htasks, hband, hbands, hent, htab, hout⟩ := hparts
  have hcb : ∀ d, (r.core d).bare = (s.core d).bare := by
    intro d
    by_cases hd : d = c
    · subst hd; exact hbare.trans hw.bare
    · rw [hcore d hd, hw.core d hd]
  have ho : r.outside = s.outside := hout.trans hw.outside
  have hbs : ∀ d b, ¬(d = c ∧ b = slot) → (r.core d).band b = (s.core d).band b := by
    intro d b hn
    by_cases hd : d = c
    · subst hd
      have hb : b ≠ slot := by tauto
      rw [hbands b hb, hw.others b hb]
    · rw [hcore d hd, hw.core d hd]
  refine ⟨by rw [hband]; rfl, by rw [hband]; rfl, by rw [hband]; rfl, by rw [hband]; rfl, by rw [hband]; rfl, ?_, ?_, ?_, ?_, ?_,
    hbs, ?_, ?_, ?_, (memSame_of_bare hcb ho).keeps, ho⟩
  · rw [← hlive]; exact hent
  · intro l hl
    have hl' : (((w.core c).band slot).thread l).exited = false := by rw [(hex l).1]; exact hl
    rw [hband, ← hkvec]
    simp only [Band.vectored, Band.thread, mapGetD, mapGet_mapAll] at hl' ⊢
    cases hm : mapGet ((w.core c).band slot).threads l with
    | none => simp [hm, Thread.fresh] at hl'
    | some y => simpa [hm] using hl'
  · intro l
    have h := hex l
    have hf : mapGetD ((r.core c).band slot).frozen l Thread.fresh = ((w.core c).band slot).thread l := by rw [hband]; rfl
    dsimp only
    rw [hf]
    refine ⟨h.1, h.2.1, h.2.2.1, h.2.2.2.1, h.2.2.2.2, fun hn => ?_⟩
    have := (hw2 hn).threads l
    simp only [Thread.mk.injEq] at this
    tauto
  · intro e he
    have h1 := htab e he
    have h2 := hw.table e
    dsimp only
    simp only [Core.entry, mapGetD, h1]
    cases hs : mapGet (s.core c).table e with
    | none =>
      rw [hs] at h2
      cases hm : mapGet (w.core c).table e with
      | none => simp
      | some y => simp [hm] at h2
    | some z =>
      rw [hs] at h2
      cases hm : mapGet (w.core c).table e with
      | none => simp [hm] at h2
      | some y =>
        simp only [hm, Option.map_some, Option.some.injEq, Entry.bare, Entry.mk.injEq] at h2
        have h3 := Entry.freeze_parts slot y
        simp only [Option.map_some, Option.getD_some, Option.isSome_some, true_implies]
        rw [h3.1, h3.2.1, h3.2.2.1]
        refine ⟨h2.1, h2.2.2.1, h2.2.2.2.1, fun he => h3.2.2.2 ?_⟩
        rw [h2.1, he]
  · dsimp only
    rw [hband]
    have := hbw
    simp only [Band.vectored]
    tauto
  · intro d n
    by_cases hd : d = c
    · subst hd
      have h1 : (r.core d).task n = (w.core d).task n := by simp only [Core.task, htasks]
      rw [h1]
      exact hw.tasks n
    · rw [hcore d hd, hw.core d hd]
  · intro d
    have := Core.bare_parts (hcb d)
    tauto
  · refine keepsRegs_of_bare hcb (fun d b => ?_) _ _ _
    by_cases hd : d = c ∧ b = slot
    · obtain ⟨rfl, rfl⟩ := hd
      rw [hband]
      simp only [Band.vectored]
      tauto
    · rw [hbs d b hd]; exact ⟨rfl, rfl, rfl⟩

/-! ## The end of a task -/

/-- A band all of whose threads have gone (R308). -/
def Band.emptied (x : Band) : Band :=
  { x with threads := mapAll x.threads fun _ t => { t with exited := true, parked := false, hold := .none, mark := .none }
           frozen := [], keep := false, xop := none }

theorem Band.emptied_exited (b : Band) (l : Nat) : (b.emptied.thread l).exited = true := by
  simp only [Band.emptied, Band.thread, mapGetD, mapGet_mapAll]
  cases mapGet b.threads l <;> rfl

/-- Only control state of one core's bands, tasks and sub-bands differs. -/
structure Emptied (s t : State) (c : Nat) : Prop where
  core : ∀ d, d ≠ c → t.core d = s.core d
  bare : (t.core c).bare = (s.core c).bare
  bank : ∀ b, ((t.core c).band b).keepV = ((s.core c).band b).keepV ∧ ((t.core c).band b).keepS = ((s.core c).band b).keepS ∧
    ((t.core c).band b).keepP = ((s.core c).band b).keepP
  exited : ∀ b, (∀ l, (((s.core c).band b).thread l).exited = true) → ∀ l, (((t.core c).band b).thread l).exited = true
  tasks : (t.core c).tasks = (s.core c).tasks
  outside : t.outside = s.outside

theorem Emptied.one (s : State) (c b : Nat) :
    Emptied s ((s.updCore c (·.freeEntries b)).updBand c b Band.emptied) c ∧
      ∀ l, ((((s.updCore c (·.freeEntries b)).updBand c b Band.emptied).core c).band b |>.thread l).exited = true := by
  have hself : ∀ e, (((s.updCore c (·.freeEntries b)).updBand c b Band.emptied).core c).band e =
      if e = b ∧ (mapGet (s.core c).bands e).isSome then ((s.core c).band e).emptied else (s.core c).band e := by
    intro e
    rw [State.updBand, State.core_updCore_self, State.core_updCore_self, Core.band_updBand]
    by_cases he : e = b
    · subst he; rfl
    · simp only [he, false_and, if_false]; rfl
  refine ⟨⟨fun d hd => ?_, ?_, fun e => ?_, fun e he l => ?_, ?_, ?_⟩, fun l => ?_⟩
  · rw [State.updBand, State.core_updCore, if_neg hd, State.core_updCore, if_neg hd]
  · rw [State.updBand, State.core_updCore_self, State.core_updCore_self]; rfl
  · rw [hself]; split <;> exact ⟨rfl, rfl, rfl⟩
  · rw [hself]; split
    · exact Band.emptied_exited _ _
    · exact he l
  · rw [State.updBand, State.core_updCore_self, State.core_updCore_self]; rfl
  · rw [State.outside_updBand, State.outside_updCore]
  · rw [hself]
    split
    · exact Band.emptied_exited _ _
    · rename_i h
      simp only [true_and, Bool.not_eq_true, Option.isSome_eq_false_iff, Option.isNone_iff_eq_none] at h
      simp [Core.band, mapGetD, h, Band.fresh, Band.thread, Thread.fresh]

theorem Emptied.all (ls : List Nat) (s : State) (c : Nat) :
    let t := ls.foldl (fun s b => (s.updCore c (·.freeEntries b)).updBand c b Band.emptied) s
    Emptied s t c ∧ ∀ b ∈ ls, ∀ l, (((t.core c).band b).thread l).exited = true := by
  induction ls generalizing s with
  | nil => exact ⟨⟨fun _ _ => rfl, rfl, fun _ => ⟨rfl, rfl, rfl⟩, fun _ h => h, rfl, rfl⟩, by simp⟩
  | cons a ls ih =>
    intro t
    obtain ⟨h1, h2⟩ := Emptied.one s c a
    obtain ⟨g1, g2⟩ := ih ((s.updCore c (·.freeEntries a)).updBand c a Band.emptied)
    refine ⟨⟨fun d hd => (g1.core d hd).trans (h1.core d hd), g1.bare.trans h1.bare, fun e => ?_, fun e he => ?_,
      g1.tasks.trans h1.tasks, g1.outside.trans h1.outside⟩, fun b hb => ?_⟩
    · have := h1.bank e
      have := g1.bank e
      dsimp only [t, List.foldl_cons]
      simp_all only [and_self]
    · exact g1.exited e (h1.exited e he)
    · rcases List.mem_cons.1 hb with rfl | hb
      · exact g1.exited b h2
      · exact g2 b hb

theorem State.ends (s : State) (c task kind cause code : Nat) (h : (mapGet (s.core c).tasks task).isSome = true) :
    s.Ends c task kind cause code (s.endTask c task kind cause code) := by
  have e : s.endTask c task kind cause code =
    (((s.core c).task task).slots.foldl (fun s b => (s.updCore c (·.freeEntries b)).updBand c b Band.emptied) s).updTask c task fun x =>
      { x with state := .draining, ended := true, endKind := kind, endCause := cause, endCode := code, phase := none, request := none
               g := mapAll x.g fun _ g => { g with op := none, signed := [] } } := rfl
  rw [e]
  obtain ⟨hE, hx⟩ := Emptied.all ((s.core c).task task).slots s c
  generalize ((s.core c).task task).slots.foldl (fun s b => (s.updCore c (·.freeEntries b)).updBand c b Band.emptied) s = t at *
  have hs : (mapGet (t.core c).tasks task).isSome = true := by rw [hE.tasks]; exact h
  obtain ⟨y, hy⟩ := Option.isSome_iff_exists.1 hs
  have ht : ∀ f : Task → Task, ((t.updTask c task f).core c).task task = f y := by
    intro f
    rw [State.updTask, State.core_updCore_self]
    simp [Core.task, Core.updTask, mapGetD, mapGet_mapUpd, hy]
  have hbare : ∀ (f : Task → Task) d, ((t.updTask c task f).core d).bare = (s.core d).bare := by
    intro f d
    rw [State.updTask, State.core_updCore]
    split
    · rename_i hd; subst hd; exact hE.bare
    · rename_i hd; rw [hE.core d hd]
  have hband : ∀ (f : Task → Task) d b, ((t.updTask c task f).core d).band b = (t.core d).band b := by
    intro f d b
    rw [State.updTask, State.core_updCore]
    split
    · rename_i hd; subst hd; rfl
    · rfl
  have hout : ∀ (f : Task → Task), (t.updTask c task f).outside = s.outside := fun f => by rw [State.outside_updTask, hE.outside]
  refine ⟨by rw [ht], by rw [ht], by rw [ht], by rw [ht], fun b hb l => ?_, fun d slot => ?_, ?_, hout _⟩
  · rw [hband]; exact hx b hb l
  · refine keepsRegs_of_bare (hbare _) (fun d b => ?_) _ _ _
    rw [hband]
    by_cases hd : d = c
    · subst hd; exact hE.bank b
    · rw [hE.core d hd]; exact ⟨rfl, rfl, rfl⟩
  · exact (memSame_of_bare (hbare _) (hout _)).keeps

theorem KeepsMemory.trans {a b d : State} (h : KeepsMemory a b) (g : KeepsMemory b d) : KeepsMemory a d :=
  ⟨fun p => (g.home p).trans (h.home p), fun c p => (g.bytes c p).trans (h.bytes c p),
    fun c n p => (g.scratch c n p).trans (h.scratch c n p), fun c => (g.posted c).trans (h.posted c), fun c => (g.coded c).trans (h.coded c)⟩

/-- Every trap. -/
theorem State.traps (s : State) (c slot cause code : Nat) (trap : Option Nat) (kpc : BitVec 64) (klanes : Word)
    (kaddr : BitVec 64) (hp : (mapGet (s.core c).bands slot).isSome = true) :
    s.Traps c slot cause code kpc klanes kaddr (s.takeTrap c slot cause code trap kpc klanes kaddr) := by
  have hc : ∀ d, (s.countAt c 15 1).core d = s.core d := fun d => rfl
  unfold State.Traps
  split
  · rename_i h
    have e : s.takeTrap c slot cause code trap kpc klanes kaddr = (s.countAt c 15 1).enterKeep c slot cause code trap kpc klanes kaddr := by
      unfold State.takeTrap
      simp only [h.1, Bool.false_or, decide_eq_true_eq, h.2, if_false]
    have hE := State.enters (s.countAt c 15 1) c slot cause code trap kpc klanes kaddr (by rw [hc]; exact hp)
    rw [← e] at hE
    exact ⟨hE.keep, hE.cause, hE.pc, hE.lanes, hE.addr, hE.handler, hE.vector, hE.frozen, hE.stands, hE.special, hE.bands,
      hE.tasks, hE.matrix, hE.regs,
      (MemSame.countAt s c 15 1).keeps.trans hE.memory, hE.outside⟩
  · rename_i h
    intro ht
    have e : s.takeTrap c slot cause code trap kpc klanes kaddr = (s.countAt c 15 1).endTask c ((s.core c).band slot).task 1 cause code := by
      unfold State.takeTrap
      have : (((s.core c).band slot).keep || decide (((s.core c).task ((s.core c).band slot).task).kvec = 0)) = true := by
        rw [not_and_or, Bool.not_eq_false, not_not] at h
        simpa using h
      simp only [this, if_true]
    have hE := State.ends (s.countAt c 15 1) c ((s.core c).band slot).task 1 cause code (by rw [hc]; exact ht)
    rw [← e] at hE
    exact ⟨hE.state, hE.kind, hE.cause, hE.code, hE.exited, hE.regs, (MemSame.countAt s c 15 1).keeps.trans hE.memory, hE.outside⟩

end Sys2Proof.Machine
end

