-- ==== Sys2Proof/Laws/Slot.lean ====
section
/-! SUPPORT. Taking an issue slot: what each part of `State.beginIssue` leaves, and `State.Slot` for the whole. -/

-- One theorem at a time: the package compiles as one text, and a thread for each open proof asks for a stack of its own.
set_option Elab.async false

namespace Sys2Proof.Machine

/-! ## Results that become visible -/

/-- A projection of bands that results, flags and what is on its way are no part of. -/
theorem State.band_commit_proj {β : Type} (p : Band → β) (hV : ∀ b x, p { b with keepV := x } = p b)
    (hS : ∀ b x, p { b with keepS := x } = p b) (hP : ∀ b x, p { b with keepP := x } = p b)
    (hQ : ∀ b x, p { b with pend := x } = p b) (hF : ∀ b x, p { b with fflags := x } = p b) (s : State) (c slot now : Nat) (d e : Nat) :
    p (((s.commit c slot now).core d).band e) = p ((s.core d).band e) := by
  unfold State.commit
  dsimp only
  have h : ∀ (l : List Pend) (s : State), p (((l.foldl (fun (s : State) (x : Pend) => (s.updCore c (·.writeLocs slot x.gen x.writes)).raise c slot x.fl) s).core d).band e) =
      p ((s.core d).band e) := by
    intro l
    induction l with
    | nil => exact fun _ => rfl
    | cons a l ih =>
      intro s
      rw [List.foldl_cons, ih, State.raise, State.band_updBand_proj p _ _ _ _ fun _ => hF _ _, State.band_writeLocs_proj p hV hS hP]
  rw [h, State.band_updBand_proj p _ _ _ _ fun _ => hQ _ _]

theorem State.part_commit {β : Type} (p : Core → β) (hV : ∀ k x, p { k with vrf := x } = p k)
    (hS : ∀ k x, p { k with srf := x } = p k) (hP : ∀ k x, p { k with prf := x } = p k)
    (hB : ∀ k x, p { k with bands := x } = p k) (s : State) (c slot now d : Nat) :
    p ((s.commit c slot now).core d) = p (s.core d) := by
  have hw : ∀ (gen : BitVec 16) (ps : List (Loc × Word)) (k : Core), p (k.writeLocs slot gen ps) = p k := fun gen ps => by
    induction ps with
    | nil => exact fun _ => rfl
    | cons q ps ih =>
      intro k
      rw [Core.writeLocs, List.foldl_cons, ← Core.writeLocs, ih, Core.writeLoc_part p hV hS hP hB]
  have h : ∀ (l : List Pend) (s : State), p ((l.foldl (fun (s : State) (x : Pend) => (s.updCore c (·.writeLocs slot x.gen x.writes)).raise c slot x.fl) s).core d) =
      p (s.core d) := by
    intro l
    induction l with
    | nil => exact fun _ => rfl
    | cons a l ih =>
      intro s
      rw [List.foldl_cons, ih, State.raise, State.part_updBand p hB, State.core_updCore]
      split
      · rename_i hd; subst hd; exact hw _ _ _
      · rfl
  unfold State.commit
  dsimp only
  rw [h, State.part_updBand p hB]

theorem State.core_commit_ne (s : State) (c slot now d : Nat) (hd : d ≠ c) : (s.commit c slot now).core d = s.core d := by
  have h : ∀ (l : List Pend) (s : State), (l.foldl (fun (s : State) (x : Pend) => (s.updCore c (·.writeLocs slot x.gen x.writes)).raise c slot x.fl) s).core d =
      s.core d := by
    intro l
    induction l with
    | nil => exact fun _ => rfl
    | cons a l ih =>
      intro s
      rw [List.foldl_cons, ih, State.raise, State.updBand, State.core_updCore, if_neg hd, State.core_updCore, if_neg hd]
  unfold State.commit
  dsimp only
  rw [h, State.updBand, State.core_updCore, if_neg hd]

theorem State.band_commit_ne (s : State) (c slot now d e : Nat) (hn : ¬(d = c ∧ e = slot)) :
    ((s.commit c slot now).core d).band e = (s.core d).band e := by
  by_cases hd : d = c
  · subst hd
    have he : e ≠ slot := by tauto
    have h : ∀ (l : List Pend) (s : State), ((l.foldl (fun (s : State) (x : Pend) => (s.updCore d (·.writeLocs slot x.gen x.writes)).raise d slot x.fl) s).core d).band e =
        (s.core d).band e := by
      intro l
      induction l with
      | nil => exact fun _ => rfl
      | cons a l ih =>
        intro s
        rw [List.foldl_cons, ih, State.raise, State.band_updBand_ne _ _ _ _ _ _ hn, State.core_updCore_self]
        generalize s.core d = k
        generalize a.writes = ps
        induction ps generalizing k with
        | nil => rfl
        | cons q ps ih =>
          rw [Core.writeLocs, List.foldl_cons, ← Core.writeLocs, ih]
          rcases q with ⟨l, w⟩
          cases l <;> simp only [Core.writeLoc]
          · rfl
          · rfl
          · rfl
          all_goals rw [Core.band_updBand, if_neg (by tauto)]
    unfold State.commit
    dsimp only
    rw [h, State.band_updBand_ne _ _ _ _ _ _ hn]
  · rw [State.core_commit_ne _ _ _ _ _ hd]

theorem State.pend_commit (s : State) (c slot now : Nat) (hp : (mapGet (s.core c).bands slot).isSome = true) (x : Pend)
    (hx : x ∈ ((s.core c).band slot).pend) (hd : now < x.due) : x ∈ (((s.commit c slot now).core c).band slot).pend := by
  have h : ∀ (l : List Pend) (s : State), ((((l.foldl (fun (s : State) (x : Pend) => (s.updCore c (·.writeLocs slot x.gen x.writes)).raise c slot x.fl) s).core c).band slot)).pend =
      ((s.core c).band slot).pend := by
    intro l
    induction l with
    | nil => exact fun _ => rfl
    | cons a l ih =>
      intro s
      rw [List.foldl_cons, ih, State.raise,
        State.band_updBand_proj (·.pend) _ _ _ (fun b => { b with fflags := b.fflags ||| a.fl }) (fun _ => rfl),
        State.band_writeLocs_proj (·.pend) (fun _ _ => rfl) (fun _ _ => rfl) (fun _ _ => rfl)]
  unfold State.commit
  dsimp only
  rw [h, State.band_updBand_self _ _ _ _ hp]
  simp only [List.mem_append, List.mem_filter, decide_eq_true_eq]
  exact .inr ⟨hx, hd⟩

theorem State.fflags_commit (s : State) (c slot now : Nat) (hp : (mapGet (s.core c).bands slot).isSome = true) :
    (((s.commit c slot now).core c).band slot).fflags =
      (((s.core c).band slot).dueBy now).foldl (fun f x => f ||| x.fl) ((s.core c).band slot).fflags := by
  have h : ∀ (l : List Pend) (s : State), (mapGet (s.core c).bands slot).isSome = true →
      ((((l.foldl (fun (s : State) (x : Pend) => (s.updCore c (·.writeLocs slot x.gen x.writes)).raise c slot x.fl) s).core c).band slot)).fflags =
      l.foldl (fun f x => f ||| x.fl) ((s.core c).band slot).fflags := by
    intro l
    induction l with
    | nil => exact fun _ _ => rfl
    | cons a l ih =>
      intro s hs
      rw [List.foldl_cons, ih, List.foldl_cons]
      · congr 1
        rw [State.raise, State.band_updBand_self]
        · exact congrArg (· ||| a.fl) (State.band_writeLocs_proj (·.fflags) (fun _ _ => rfl) (fun _ _ => rfl) (fun _ _ => rfl) s c slot a.gen a.writes c slot)
        · rw [State.placed_writeLocs]; exact hs
      · rw [State.raise, State.placed_updBand, State.placed_writeLocs]; exact hs
  unfold State.commit
  dsimp only
  rw [h _ _ (by rw [State.placed_updBand]; exact hp)]
  refine congrArg (fun f => List.foldl (fun f (x : Pend) => f ||| x.fl) f _) (State.band_updBand_proj (·.fflags) s c slot _ ?_ c slot)
  intro; rfl

theorem KeepsRegs.mono {s t : State} {c slot : Nat} {l m : List Loc} (h : KeepsRegs s t c slot l) (hs : ∀ x ∈ l, x ∈ m) :
    KeepsRegs s t c slot m := fun c' slot' gen x hx => h c' slot' gen x fun ⟨h1, h2, h3⟩ => hx ⟨h1, hs _ h2, h3⟩

theorem KeepsRegs.commit (s : State) (c slot now : Nat) :
    KeepsRegs s (s.commit c slot now) c slot ((((s.core c).band slot).dueBy now).flatMap fun x => x.writes.map (·.1)) := by
  have h : ∀ (l : List Pend) (s : State), KeepsRegs s (l.foldl (fun (s : State) (x : Pend) => (s.updCore c (·.writeLocs slot x.gen x.writes)).raise c slot x.fl) s) c slot
      (l.flatMap fun x => x.writes.map (·.1)) := by
    intro l
    induction l with
    | nil => exact fun s => KeepsRegs.refl _ _ _ _
    | cons a l ih =>
      intro s
      rw [List.foldl_cons]
      refine KeepsRegs.trans (KeepsRegs.trans ((KeepsRegs.writeLocs s c slot a.gen a.writes).mono ?_) ?_) ((ih _).mono ?_)
      · intro x hx; simp only [List.flatMap_cons, List.mem_append]; exact .inl hx
      · rw [State.raise]
        refine KeepsRegs.updBand _ _ _ _ ?_ ?_ ?_ _ _ _ <;> intro <;> rfl
      · intro x hx; simp only [List.flatMap_cons, List.mem_append]; exact .inr hx
  unfold State.commit
  dsimp only
  refine KeepsRegs.trans ?_ (h _ _)
  refine KeepsRegs.updBand _ _ _ _ ?_ ?_ ?_ _ _ _ <;> intro <;> rfl

/-! ## Ages -/

/-- Only ages of a core's entries differ. -/
structure Aged (s t : State) (c : Nat) : Prop where
  core : ∀ d, d ≠ c → t.core d = s.core d
  same : { t.core c with table := [] } = { s.core c with table := [] }
  table : ∀ e, (mapGet (t.core c).table e).map (fun (x : Entry) => { x with age := 0 }) =
    (mapGet (s.core c).table e).map (fun (x : Entry) => { x with age := 0 })
  rest : { t with cores := [] } = { s with cores := [] }

theorem Aged.refl (s : State) (c : Nat) : Aged s s c := ⟨fun _ _ => rfl, rfl, fun _ => rfl, rfl⟩

theorem Aged.trans {a b d : State} {c : Nat} (h : Aged a b c) (g : Aged b d c) : Aged a d c :=
  ⟨fun n hn => (g.core n hn).trans (h.core n hn), g.same.trans h.same, fun e => (g.table e).trans (h.table e), g.rest.trans h.rest⟩

theorem Aged.updEntry (s : State) (c e : Nat) (n : BitVec 16) : Aged s (s.updEntry c e fun x => { x with age := n }) c where
  core d hd := by rw [State.updEntry, State.core_updCore, if_neg hd]
  same := by rw [State.updEntry, State.core_updCore_self]; rfl
  table d := by
    rw [State.updEntry, State.core_updCore_self]
    simp only [Core.updEntry, mapGet_mapUpd]
    split
    · rename_i h; subst h; cases mapGet (s.core c).table d <;> rfl
    · rfl
  rest := rfl

/-- One entry's age, once its band's ages are taken. -/
def ageStep (u : Cursor) (now : Nat) (s : State) (e : Nat) : State :=
  if ((s.core u.core).entry e).frozen then s else
    s.updEntry u.core e fun x => { x with age := BitVec.ofNat 16 (if e = u.entry then 0 else s.ageAt u.core ((s.core u.core).entry e) now) }

theorem State.ageBand_eq (s : State) (u : Cursor) (now : Nat) :
    s.ageBand u now = ((s.core u.core).entriesOf u.slot).foldl (ageStep u now) s := rfl

theorem Aged.step (u : Cursor) (now : Nat) (s : State) (e : Nat) : Aged s (ageStep u now s e) u.core := by
  unfold ageStep
  split
  · exact .refl _ _
  · exact .updEntry _ _ _ _

theorem Aged.fold (u : Cursor) (now : Nat) (l : List Nat) (s : State) : Aged s (l.foldl (ageStep u now) s) u.core := by
  induction l generalizing s with
  | nil => exact .refl _ _
  | cons a l ih => exact (Aged.step u now s a).trans (ih _)

theorem Aged.entry {s t : State} {c : Nat} (h : Aged s t c) (e : Nat) :
    { (t.core c).entry e with age := 0 } = { (s.core c).entry e with age := 0 } := by
  have := h.table e
  simp only [Core.entry, mapGetD]
  cases h1 : mapGet (t.core c).table e <;> cases h2 : mapGet (s.core c).table e <;> simp_all

/-- The entry that issues has age 0. -/
theorem age_fold (u : Cursor) (now : Nat) (l : List Nat) (s : State) (hf : ((s.core u.core).entry u.entry).frozen = false)
    (ht : (mapGet (s.core u.core).table u.entry).isSome = true)
    (h : u.entry ∈ l ∨ ((s.core u.core).entry u.entry).age = 0) : (((l.foldl (ageStep u now) s).core u.core).entry u.entry).age = 0 := by
  induction l generalizing s with
  | nil => simpa using h
  | cons a l ih =>
    have hA := Aged.step u now s a
    have he := hA.entry u.entry
    have hfr : (((ageStep u now s a).core u.core).entry u.entry).frozen = false := by
      have : (((ageStep u now s a).core u.core).entry u.entry).frozen = ((s.core u.core).entry u.entry).frozen := by
        simp only [Entry.mk.injEq] at he; tauto
      rw [this, hf]
    have hta : (mapGet ((ageStep u now s a).core u.core).table u.entry).isSome = true := by
      have h3 := hA.table u.entry
      cases h1 : mapGet ((ageStep u now s a).core u.core).table u.entry
      · rw [h1] at h3
        cases h2 : mapGet (s.core u.core).table u.entry <;> simp_all
      · rfl
    rw [List.foldl_cons]
    refine ih _ hfr hta ?_
    by_cases ha : a = u.entry
    · right
      subst ha
      rw [ageStep, if_neg (by rw [hf]; simp), State.entry_updEntry_self _ _ _ _ ht]
      simp
    · rcases h with h | h
      · left
        rcases List.mem_cons.1 h with h | h
        · exact absurd h.symm ha
        · exact h
      · right
        rw [ageStep]
        split
        · exact h
        · rw [State.entry_updEntry_ne _ _ _ _ _ _ (by tauto)]; exact h

/-! ## The whole slot -/

theorem mem_of_mapGet {α : Type} {m : Map α} {i : Nat} {x : α} (h : mapGet m i = some x) : (i, x) ∈ m := by
  induction m with
  | nil => simp at h
  | cons p m ih =>
    obtain ⟨k, v⟩ := p
    simp only [mapGet] at h
    split at h
    · rename_i hk; subst hk; simp only [Option.some.injEq] at h; subst h; simp
    · exact List.mem_cons_of_mem _ (ih h)

/-- The state of a band's slot once its results and ages are in place. -/
def State.timed (s : State) (u : Cursor) (now : Nat) : State := ((s.clockTo now).commit u.core u.slot now).ageBand u now

/-- What a band is once it takes its slot. -/
def Band.take (b : Band) (lanes : Word) (now len : Nat) (turn : Option Nat) (e : Nat) : Band :=
  { b.updThreads lanes fun _ t => { t with last := some now } with
    nextSlot := now + len, lastSlot := now, turn := turn, stepping := b.stepping.filter (· != e) }

/-- What a core is once an instruction takes its slot. -/
def Core.takeSlot (k : Core) (slot : Nat) (uni : Bool) (now : Nat) : Core :=
  let k := if uni then { k with uniFree := now + 1 } else { k with pipeFree := mapSet k.pipeFree (pipeOf slot) (now + 1) }
  k.updTask (k.taskOfBand slot) fun t => if t.state = .placed then { t with state := .running } else t

theorem State.take_eq (a : State) (c b e now : Nat) (lanes : Word) :
    ((a.updThreads c b lanes fun _ t => { t with last := some now }).updBand c b fun x =>
      { x with nextSlot := now + (a.updThreads c b lanes fun _ t => { t with last := some now }).slotLen, lastSlot := now
               turn := lowestLane lanes, stepping := x.stepping.filter (· != e) }) =
      a.updBand c b fun x => x.take lanes now a.slotLen (lowestLane lanes) e := by
  rw [State.updThreads, State.updBand_updBand]; rfl

theorem State.begun_eq (s : State) (u : Cursor) (i : Instr) (q : Shape) :
    s.begun u i q =
    let now := s.issueTime u i q.uni q.d.toNat
    let a := s.timed u now
    let lanes := ((a.core u.core).entry u.entry).lanes
    ((((a.updBand u.core u.slot fun b => b.take lanes now a.slotLen (lowestLane lanes) u.entry).updEntry u.core u.entry
      fun e => { e with skipBp := false }).updCore u.core (·.takeSlot u.slot q.uni now))).countAt u.core (if q.uni then 3 else 2) 1 := by
  rw [State.begun, State.beginIssue]
  dsimp only
  rw [State.take_eq, ← State.timed]
  rfl

/-- What is kept of a band while its results and ages are put in place. -/
def Band.still (b : Band) : Band := { b with keepV := [], keepS := [], keepP := [], pend := [], fflags := 0 }

theorem core_clockTo (s : State) (now d : Nat) : (s.clockTo now).core d = s.core d := by
  unfold State.clockTo
  split
  · rfl
  · rw [State.core_cycle]
    generalize List.range 8 = l
    have h : ∀ (f : State → Nat → State) (hf : ∀ s p, (f s p).core d = s.core d) (z : State), (l.foldl f z).core d = z.core d := by
      induction l with
      | nil => exact fun _ _ _ => rfl
      | cons a l ih => intro f hf z; rw [List.foldl_cons, ih f hf, hf]
    exact h _ (fun s p => State.core_count _ _ _ _ _) s

theorem cycle_clockTo (s : State) (now : Nat) : (s.clockTo now).cycle = max s.cycle now := by
  unfold State.clockTo
  split
  · rename_i h; exact (Nat.max_eq_left h).symm
  · rename_i h; exact (Nat.max_eq_right (Nat.le_of_lt (Nat.lt_of_not_le h))).symm

theorem power_clockTo (s : State) (now : Nat) : (s.clockTo now).power = s.power := by
  have h : (s.clockTo now).outside.power = s.outside.power := by rw [State.outside_clockTo]
  exact h

theorem rest_commit (s : State) (c slot now : Nat) : { s.commit c slot now with cores := [] } = { s with cores := [] } := by
  have h : ∀ (l : List Pend) (s : State), { l.foldl (fun (s : State) (x : Pend) => (s.updCore c (·.writeLocs slot x.gen x.writes)).raise c slot x.fl) s with cores := [] } =
      { s with cores := [] } := by
    intro l
    induction l with
    | nil => exact fun _ => rfl
    | cons a l ih => intro s; rw [List.foldl_cons, ih]; rfl
  unfold State.commit
  dsimp only
  rw [h]; rfl

/-- The parts of a state once the clock and results are in place. -/
structure Settled (s m : State) (u : Cursor) (now : Nat) : Prop where
  core : ∀ d, d ≠ u.core → m.core d = s.core d
  others : ∀ b, b ≠ u.slot → (m.core u.core).band b = (s.core u.core).band b
  still : ((m.core u.core).band u.slot).still = ((s.core u.core).band u.slot).still
  fflags : ((m.core u.core).band u.slot).fflags = (((s.core u.core).band u.slot).dueBy now).foldl (fun f x => f ||| x.fl) ((s.core u.core).band u.slot).fflags
  pend : ∀ x ∈ ((s.core u.core).band u.slot).pend, now < x.due → x ∈ ((m.core u.core).band u.slot).pend
  table : (m.core u.core).table = (s.core u.core).table
  parts : (m.core u.core).tasks = (s.core u.core).tasks ∧ (m.core u.core).accs = (s.core u.core).accs ∧
      (m.core u.core).accStat = (s.core u.core).accStat ∧ (m.core u.core).tiles = (s.core u.core).tiles ∧
      (m.core u.core).flights = (s.core u.core).flights
  regs : KeepsRegs s m u.core u.slot ((((s.core u.core).band u.slot).dueBy now).flatMap fun x => x.writes.map (·.1))
  memory : MemSame s m
  outside : m.outside = s.outside
  cycle : m.cycle = max s.cycle now
  placed : (mapGet (m.core u.core).bands u.slot).isSome = (mapGet (s.core u.core).bands u.slot).isSome

theorem Settled.commit (s : State) (u : Cursor) (now : Nat) (hp : (mapGet (s.core u.core).bands u.slot).isSome = true) :
    Settled s ((s.clockTo now).commit u.core u.slot now) u now := by
  have hcl : ∀ d, (s.clockTo now).core d = s.core d := core_clockTo s now
  have hKR := KeepsRegs.commit (s.clockTo now) u.core u.slot now
  have hMS := (MemSame.clockTo s now).trans (MemSame.commit (s.clockTo now) u.core u.slot now)
  have ho : ((s.clockTo now).commit u.core u.slot now).outside = s.outside := by
    rw [State.outside_commit, State.outside_clockTo]
  have hr : ((s.clockTo now).commit u.core u.slot now).cycle = max s.cycle now :=
    (congrArg State.cycle (rest_commit (s.clockTo now) u.core u.slot now)).trans (cycle_clockTo s now)
  generalize s.clockTo now = z at *
  refine ⟨fun d hd => ?_, fun b hb => ?_, ?_, ?_, fun x hx hd => ?_, ?_, ⟨?_, ?_, ?_, ?_, ?_⟩, ?_, hMS, ho, hr, ?_⟩
  · rw [State.core_commit_ne _ _ _ _ _ hd, hcl]
  · rw [State.band_commit_ne _ _ _ _ _ _ (by tauto), hcl]
  · rw [State.band_commit_proj Band.still (fun _ _ => rfl) (fun _ _ => rfl) (fun _ _ => rfl) (fun _ _ => rfl) (fun _ _ => rfl), hcl]
  · rw [State.fflags_commit _ _ _ _ (by rw [hcl]; exact hp), hcl]
  · exact State.pend_commit z u.core u.slot now (by rw [hcl]; exact hp) x (by rw [hcl]; exact hx) hd
  · rw [State.part_commit (·.table) (fun _ _ => rfl) (fun _ _ => rfl) (fun _ _ => rfl) (fun _ _ => rfl), hcl]
  · rw [State.part_commit (·.tasks) (fun _ _ => rfl) (fun _ _ => rfl) (fun _ _ => rfl) (fun _ _ => rfl), hcl]
  · rw [State.part_commit (·.accs) (fun _ _ => rfl) (fun _ _ => rfl) (fun _ _ => rfl) (fun _ _ => rfl), hcl]
  · rw [State.part_commit (·.accStat) (fun _ _ => rfl) (fun _ _ => rfl) (fun _ _ => rfl) (fun _ _ => rfl), hcl]
  · rw [State.part_commit (·.tiles) (fun _ _ => rfl) (fun _ _ => rfl) (fun _ _ => rfl) (fun _ _ => rfl), hcl]
  · rw [State.part_commit (·.flights) (fun _ _ => rfl) (fun _ _ => rfl) (fun _ _ => rfl) (fun _ _ => rfl), hcl]
  · rw [hcl] at hKR
    intro d b gen l hn
    refine (hKR d b gen l hn).trans ?_
    unfold State.reg; rw [hcl]
  · rw [State.placed_commit, hcl]

theorem Aged.reg {s t : State} {c : Nat} (h : Aged s t c) (d b : Nat) (gen : BitVec 16) (l : Loc) : t.reg d b gen l = s.reg d b gen l := by
  unfold State.reg
  by_cases hd : d = c
  · subst hd
    have h2 := h.same
    simp only [Core.mk.injEq] at h2
    cases l <;> simp only [Core.readLoc, Core.band, h2]; rfl
  · rw [h.core d hd]

theorem Aged.memSame {s t : State} {c : Nat} (h : Aged s t c) : MemSame s t := by
  have h1 := congrArg State.mem h.rest
  have h2 := congrArg State.domes h.rest
  refine ⟨h1, h2, fun d => ?_⟩
  by_cases hd : d = c
  · subst hd
    have h2 := h.same
    simp only [Core.mk.injEq] at h2
    tauto
  · rw [h.core d hd]; exact ⟨rfl, rfl, rfl, rfl⟩

theorem Aged.outside {s t : State} {c : Nat} (h : Aged s t c) : t.outside = s.outside := by
  have h1 := congrArg (fun x : State => { x with cycle := 0, events := [] }) h.rest
  exact h1

theorem Entry.of_aged {x y : Entry} (h : { x with age := 0 } = { y with age := 0 }) : x.slot = y.slot ∧ x.frozen = y.frozen ∧
    x.lanes = y.lanes ∧ x.defer = y.defer ∧ x.wait = y.wait ∧ x.ctx = y.ctx ∧ x.skipBp = y.skipBp := by
  simp only [Entry.mk.injEq] at h; tauto

theorem Band.still_parts {y z : Band} (h : z.still = y.still) : z.threads = y.threads ∧ z.flags = y.flags ∧ z.rm = y.rm ∧
    z.mshape = y.mshape ∧ z.j = y.j ∧ z.arr = y.arr ∧ z.lc = y.lc ∧ z.li = y.li ∧ z.k = y.k ∧ z.kcause = y.kcause ∧
    z.kpc = y.kpc ∧ z.klanes = y.klanes ∧ z.kaddr = y.kaddr ∧ z.keep = y.keep ∧ z.frozen = y.frozen ∧ z.task = y.task ∧
    z.index = y.index := by
  simp only [Band.still, Band.mk.injEq] at h; tauto

/-- Going past an instruction, for a sub-band that is not frozen. -/
theorem State.advance_eq (b : State) (c e words : Nat) (hf : ((b.core c).entry e).frozen = false) :
    b.advance c e words =
      let en := (b.core c).entry e
      let last := decide (en.ctx.elim 0 (·.left) ≤ 1)
      (b.updBand c en.slot (·.updThreads en.lanes fun _ t =>
        { t with pc := t.pc + BitVec.ofNat 64 (4 * words), base := if last then t.pc + BitVec.ofNat 64 (4 * words) else t.base })).updEntry c e
        fun en => { en with ctx := if last then none else en.ctx.map fun x => { x with left := x.left - 1, waited := true } } := by
  unfold State.advance State.updStood
  dsimp only
  rw [if_neg (by rw [hf]; simp)]
  cases h : ((b.core c).entry e).ctx with
  | none => rfl
  | some x => rfl

theorem Core.takeSlot_parts (k : Core) (slot : Nat) (uni : Bool) (now : Nat) :
    (k.takeSlot slot uni now).bands = k.bands ∧ (k.takeSlot slot uni now).table = k.table ∧ (k.takeSlot slot uni now).accs = k.accs ∧
    (k.takeSlot slot uni now).accStat = k.accStat ∧ (k.takeSlot slot uni now).tiles = k.tiles ∧
    (k.takeSlot slot uni now).flights = k.flights ∧ (k.takeSlot slot uni now).vrf = k.vrf ∧ (k.takeSlot slot uni now).srf = k.srf ∧
    (k.takeSlot slot uni now).prf = k.prf ∧ (k.takeSlot slot uni now).l1 = k.l1 ∧ (k.takeSlot slot uni now).pw = k.pw ∧
    (k.takeSlot slot uni now).requests = k.requests ∧ (k.takeSlot slot uni now).scratch = k.scratch := by
  unfold Core.takeSlot
  cases uni <;> exact ⟨rfl, rfl, rfl, rfl, rfl, rfl, rfl, rfl, rfl, rfl, rfl, rfl, rfl⟩

theorem Core.takeSlot_task (k : Core) (slot : Nat) (uni : Bool) (now n : Nat) :
    { (k.takeSlot slot uni now).task n with state := .placed } = { k.task n with state := .placed } ∧
    ((k.takeSlot slot uni now).task n).state = if n = (k.band slot).task ∧ (mapGet k.tasks n).isSome = true ∧
      (k.task n).state = .placed then .running else (k.task n).state := by
  have h : (k.takeSlot slot uni now).task n =
      (k.updTask (k.band slot).task fun t => if t.state = .placed then { t with state := .running } else t).task n := by
    unfold Core.takeSlot
    cases uni <;> rfl
  rw [h]
  simp only [Core.task, Core.updTask, mapGetD, mapGet_mapUpd]
  by_cases hn : n = (k.band slot).task
  · simp only [hn, if_true, true_and]
    cases mapGet k.tasks (k.band slot).task with
    | none => simp [Task.fresh]
    | some y =>
      by_cases hy : y.state = .placed
      · simp [hy]
      · simp [hy]
  · simp [hn]

theorem slot_of (s a : State) (u : Cursor) (uni : Bool) (now : Nat) (h : s.stands u = true) (m : State) (hS : Settled s m u now)
    (hA : Aged m a u.core) (hage : ((a.core u.core).entry u.entry).age = 0) (hlen : a.slotLen = s.slotLen)
    (hp : (mapGet (a.core u.core).bands u.slot).isSome = true) (ht : (mapGet (a.core u.core).table u.entry).isSome = true)
    (hc : a.cycle = max s.cycle now) (n : Nat) :
    s.Slot u none now ((((a.updBand u.core u.slot fun b => b.take ((a.core u.core).entry u.entry).lanes now a.slotLen
      (lowestLane ((a.core u.core).entry u.entry).lanes) u.entry).updEntry u.core u.entry
      fun e => { e with skipBp := false }).updCore u.core (·.takeSlot u.slot uni now)).countAt u.core n 1) := by
  simp only [State.stands, Bool.and_eq_true, Bool.not_eq_true'] at h
  obtain ⟨⟨⟨⟨⟨-, -⟩, -⟩, hs⟩, -⟩, hf⟩ := h
  have hE := Entry.of_aged ((hA.entry u.entry).trans (by rw [Core.entry, hS.table]; rfl : _ = { (s.core u.core).entry u.entry with age := 0 }))
  have hbandA : ∀ b, (a.core u.core).band b = (m.core u.core).band b := fun b => by
    have h2 := hA.same
    simp only [Core.mk.injEq] at h2
    simp only [Core.band, h2]
  generalize hB : ((((a.updBand u.core u.slot fun b => b.take ((a.core u.core).entry u.entry).lanes now a.slotLen
      (lowestLane ((a.core u.core).entry u.entry).lanes) u.entry).updEntry u.core u.entry
      fun e => { e with skipBp := false }).updCore u.core (·.takeSlot u.slot uni now)).countAt u.core n 1) = B
  have hcB : ∀ d, d ≠ u.core → B.core d = a.core d := fun d hd => by
    rw [← hB, State.countAt, State.core_count, State.core_updCore, if_neg hd, State.updEntry, State.core_updCore, if_neg hd, State.updBand,
      State.core_updCore, if_neg hd]
  have hkB : B.core u.core = (((a.core u.core).updBand u.slot fun b => b.take ((a.core u.core).entry u.entry).lanes now a.slotLen
      (lowestLane ((a.core u.core).entry u.entry).lanes) u.entry).updEntry u.entry fun e => { e with skipBp := false }).takeSlot u.slot uni now := by
    rw [← hB, State.countAt, State.core_count, State.core_updCore_self, State.updEntry, State.core_updCore_self, State.updBand,
      State.core_updCore_self]
  have hoB : B.outside = s.outside := by
    rw [← hB, State.outside_countAt, State.outside_updCore, State.outside_updEntry, State.outside_updBand, hA.outside, hS.outside]
  have hcycB : B.cycle = max s.cycle now := by
    have h1 : ∀ (z : State) c f, (z.updCore c f).cycle = z.cycle := fun _ _ _ => rfl
    have h2 : ∀ (z : State) c i j, (z.countAt c i j).cycle = z.cycle := fun _ _ _ _ => rfl
    rw [← hB, h2, h1, State.updEntry, h1, State.updBand, h1, hc]
  have hP := Core.takeSlot_parts (((a.core u.core).updBand u.slot fun b => b.take ((a.core u.core).entry u.entry).lanes now a.slotLen
      (lowestLane ((a.core u.core).entry u.entry).lanes) u.entry).updEntry u.entry fun e => { e with skipBp := false }) u.slot uni now
  have hT := Core.takeSlot_task (((a.core u.core).updBand u.slot fun b => b.take ((a.core u.core).entry u.entry).lanes now a.slotLen
      (lowestLane ((a.core u.core).entry u.entry).lanes) u.entry).updEntry u.entry fun e => { e with skipBp := false }) u.slot uni now
  rw [← hkB] at hP hT
  clear hB
  obtain ⟨hbands, htable, haccs, hstat, htiles, hfl, hvrf, hsrf, hprf, hl1, hpw, hreq, hscr⟩ := hP
  have hbandB : ∀ b, (B.core u.core).band b = ((a.core u.core).updBand u.slot fun b => b.take ((a.core u.core).entry u.entry).lanes now a.slotLen
      (lowestLane ((a.core u.core).entry u.entry).lanes) u.entry).band b := fun b => by simp only [Core.band, hbands]; rfl
  have hentB : ∀ e, (B.core u.core).entry e = ((a.core u.core).updEntry u.entry fun e => { e with skipBp := false }).entry e := fun e => by
    simp only [Core.entry, htable]; rfl
  have hpB : (mapGet (B.core u.core).bands u.slot).isSome = true := by
    rw [hbands]; exact (Core.isSome_bands_updBand _ _ _ _).trans hp
  have htB : (mapGet (B.core u.core).table u.entry).isSome = true := by
    rw [htable]; exact (Core.isSome_table_updEntry _ _ _ _).trans ht
  have heB : (B.core u.core).entry u.entry = { (a.core u.core).entry u.entry with skipBp := false } := by
    rw [hentB, Core.entry_updEntry]; simp [ht]
  have hbB : (B.core u.core).band u.slot = ((m.core u.core).band u.slot).take ((s.core u.core).entry u.entry).lanes now s.slotLen
      (lowestLane ((s.core u.core).entry u.entry).lanes) u.entry := by
    rw [hbandB, Core.band_updBand, hE.2.2.1, hlen, hbandA]; simp [hp]
  have hth := Band.still_parts hS.still
  have hcF : ∀ d, d ≠ u.core → B.core d = s.core d := fun d hd => by rw [hcB d hd, hA.core d hd, hS.core d hd]
  have hbnF : ∀ b, b ≠ u.slot → (B.core u.core).band b = (s.core u.core).band b := fun b hb => by
    rw [hbandB, Core.band_updBand, if_neg (by tauto), hbandA, hS.others b hb]
  have henF : ∀ e, e ≠ u.entry → { (B.core u.core).entry e with age := 0 } = { (s.core u.core).entry e with age := 0 } := by
    intro e he
    rw [hentB, Core.entry_updEntry, if_neg (by tauto), hA.entry, Core.entry, hS.table]; rfl
  have hmA := hS.memory.trans hA.memSame
  have hregA : KeepsRegs s a u.core u.slot ((((s.core u.core).band u.slot).dueBy now).flatMap fun x => x.writes.map (·.1)) :=
    fun d b gen l hn => (hA.reg d b gen l).trans (hS.regs d b gen l hn)
  have hsame := hA.same
  simp only [Core.mk.injEq] at hsame
  have hkeep : ((B.core u.core).band u.slot).keepV = ((a.core u.core).band u.slot).keepV ∧
      ((B.core u.core).band u.slot).keepS = ((a.core u.core).band u.slot).keepS ∧
      ((B.core u.core).band u.slot).keepP = ((a.core u.core).band u.slot).keepP := by
    rw [hbB, hbandA]; exact ⟨rfl, rfl, rfl⟩
  have hthread : ∀ l, ((B.core u.core).band u.slot).thread l = if l ∈ lanesOf ((s.core u.core).entry u.entry).lanes then
      { ((s.core u.core).band u.slot).thread l with last := some now } else ((s.core u.core).band u.slot).thread l := by
    intro l
    have h0 : ((m.core u.core).band u.slot).thread l = ((s.core u.core).band u.slot).thread l := by
      simp only [Band.thread, hth.1]
    have h1 : (((m.core u.core).band u.slot).take ((s.core u.core).entry u.entry).lanes now s.slotLen
        (lowestLane ((s.core u.core).entry u.entry).lanes) u.entry).thread l =
        (((m.core u.core).band u.slot).updThreads ((s.core u.core).entry u.entry).lanes fun _ t => { t with last := some now }).thread l := rfl
    rw [hbB, h1, Band.thread_updThreads, h0]
  refine ⟨hcycB, fun l hl => ?_, fun l hl => ?_, ?_, ?_, henF, hcF, hbnF, fun n => ?_, ?_, ?_, ?_, hoB⟩
  · rw [hthread, if_pos hl]; rfl
  · rw [hthread, if_neg hl]
  · dsimp only
    rw [hbB]
    refine ⟨rfl, rfl, hS.pend, hS.fflags, ?_⟩
    simp only [Band.updThreads, Band.take]
    tauto
  · dsimp only
    rw [heB]
    exact ⟨hE.2.2.1, hE.2.2.2.1, hE.1, hE.2.1, hE.2.2.2.2.1, hage, hE.2.2.2.2.2.1⟩
  · have h2 := hT n
    have h3 : ((((a.core u.core).updBand u.slot fun b => b.take ((a.core u.core).entry u.entry).lanes now a.slotLen
      (lowestLane ((a.core u.core).entry u.entry).lanes) u.entry).updEntry u.entry fun e => { e with skipBp := false })).task n = (s.core u.core).task n := by
      simp only [Core.task, Core.updEntry, Core.updBand, hsame, hS.parts]
    have h4 : ((((a.core u.core).updBand u.slot fun b => b.take ((a.core u.core).entry u.entry).lanes now a.slotLen
      (lowestLane ((a.core u.core).entry u.entry).lanes) u.entry).updEntry u.entry fun e => { e with skipBp := false })).tasks = (s.core u.core).tasks := by
      simp only [Core.updEntry, Core.updBand, hsame, hS.parts]
    have h5 : (((((a.core u.core).updBand u.slot fun b => b.take ((a.core u.core).entry u.entry).lanes now a.slotLen
      (lowestLane ((a.core u.core).entry u.entry).lanes) u.entry).updEntry u.entry fun e => { e with skipBp := false })).band u.slot).task =
        ((s.core u.core).band u.slot).task := by
      refine (Core.band_updBand_proj (·.task) (a.core u.core) u.slot u.slot _ ?_).trans ?_
      · intro; rfl
      · exact (congrArg Band.task (hbandA u.slot)).trans (by tauto)
    rw [h3, h4, h5] at h2
    exact h2
  · simp only [haccs, hstat, htiles, hfl]
    simp only [Core.updEntry, Core.updBand, hsame, hS.parts, and_self]
  · intro d b gen l hn
    refine Eq.trans ?_ (hregA d b gen l hn)
    unfold State.reg
    by_cases hd : d = u.core
    · subst hd
      have hkb : ((B.core u.core).band b).keepV = ((a.core u.core).band b).keepV ∧ ((B.core u.core).band b).keepS = ((a.core u.core).band b).keepS ∧
          ((B.core u.core).band b).keepP = ((a.core u.core).band b).keepP := by
        by_cases hb : b = u.slot
        · subst hb; exact hkeep
        · rw [hbnF b hb, hbandA, hS.others b hb]; exact ⟨rfl, rfl, rfl⟩
      cases l <;> simp only [Core.readLoc, hkb, hvrf, hsrf, hprf] <;> rfl
    · rw [hcF d hd, hA.core d hd, hS.core d hd]
  · refine MemSame.keeps ⟨?_, ?_, fun d => ?_⟩
    · have h := congrArg State.mem hoB; exact h
    · have h := congrArg State.domes hoB; exact h
    · by_cases hd : d = u.core
      · subst hd
        have h := hmA.core u.core
        simp only [hl1, hpw, hreq, hscr]
        exact h
      · rw [hcF d hd]; exact ⟨rfl, rfl, rfl, rfl⟩

/-- Going past the words. -/
theorem State.Slot.advance {s B : State} {u : Cursor} {now : Nat} (h : s.stands u = true) (hB : s.Slot u none now B)
    (hpB : (mapGet (B.core u.core).bands u.slot).isSome = true) (htB : (mapGet (B.core u.core).table u.entry).isSome = true) (words : Nat) :
    s.Slot u (some words) now (B.advance u.core u.entry words) := by
  simp only [State.stands, Bool.and_eq_true, Bool.not_eq_true'] at h
  obtain ⟨⟨⟨⟨⟨-, -⟩, -⟩, hs⟩, -⟩, hf⟩ := h
  obtain ⟨hel, hed, hes, hef, hew, hea, hec⟩ := hB.entry
  rw [State.advance_eq _ _ _ _ (by rw [hef]; exact hf)]
  have hslot : ((B.core u.core).entry u.entry).slot = u.slot := by rw [hes]; simpa using hs
  have hec : ((B.core u.core).entry u.entry).ctx = ((s.core u.core).entry u.entry).ctx := hec
  dsimp only
  rw [hslot, hel, hec]
  generalize hg : (fun (_ : Nat) (t : Thread) => ({ t with
      pc := t.pc + BitVec.ofNat 64 (4 * words)
      base := if decide ((((s.core u.core).entry u.entry).ctx.elim 0 (·.left)) ≤ 1) = true then t.pc + BitVec.ofNat 64 (4 * words) else t.base } : Thread)) = g
  generalize hk : (fun (en : Entry) => ({ en with ctx := (if decide ((((s.core u.core).entry u.entry).ctx.elim 0 (·.left)) ≤ 1) = true then none
      else en.ctx.map (fun x => { x with left := x.left - 1, waited := true })) } : Entry)) = g'
  have hbF : (((B.updBand u.core u.slot (·.updThreads ((s.core u.core).entry u.entry).lanes g)).updEntry u.core u.entry g').core u.core).band u.slot =
      ((B.core u.core).band u.slot).updThreads ((s.core u.core).entry u.entry).lanes g := by
    rw [State.band_updEntry, State.band_updBand_self _ _ _ _ hpB]
  have heF : (((B.updBand u.core u.slot (·.updThreads ((s.core u.core).entry u.entry).lanes g)).updEntry u.core u.entry g').core u.core).entry u.entry =
      g' ((B.core u.core).entry u.entry) := by
    rw [State.entry_updEntry_self _ _ _ _ (by rw [State.tabled_updBand]; exact htB), Core.entry, State.table_updBand]; rfl
  have hcF : ∀ d, d ≠ u.core → ((B.updBand u.core u.slot (·.updThreads ((s.core u.core).entry u.entry).lanes g)).updEntry u.core u.entry g').core d = B.core d := by
    intro d hd
    rw [State.updEntry, State.core_updCore, if_neg hd, State.updBand, State.core_updCore, if_neg hd]
  have hbnF : ∀ b, b ≠ u.slot → (((B.updBand u.core u.slot (·.updThreads ((s.core u.core).entry u.entry).lanes g)).updEntry u.core u.entry g').core u.core).band b =
      (B.core u.core).band b := by
    intro b hb
    rw [State.band_updEntry, State.band_updBand_ne _ _ _ _ _ _ (by tauto)]
  have hoF : ((B.updBand u.core u.slot (·.updThreads ((s.core u.core).entry u.entry).lanes g)).updEntry u.core u.entry g').outside = B.outside := by
    rw [State.outside_updEntry, State.outside_updBand]
  have hbareF : (((B.updBand u.core u.slot (·.updThreads ((s.core u.core).entry u.entry).lanes g)).updEntry u.core u.entry g').core u.core).rest = (B.core u.core).rest := by
    rw [State.rest_updEntry, State.rest_updBand]
  have hcycF : ((B.updBand u.core u.slot (·.updThreads ((s.core u.core).entry u.entry).lanes g)).updEntry u.core u.entry g').cycle = B.cycle := by
    have h1 : ∀ (z : State) c f, (z.updCore c f).cycle = z.cycle := fun _ _ _ => rfl
    rw [State.updEntry, h1, State.updBand, h1]
  have henF : ∀ e, e ≠ u.entry → (((B.updBand u.core u.slot (·.updThreads ((s.core u.core).entry u.entry).lanes g)).updEntry u.core u.entry g').core u.core).entry e =
      (B.core u.core).entry e := by
    intro e he
    rw [State.entry_updEntry_ne _ _ _ _ _ _ (by tauto), Core.entry, State.table_updBand]; rfl
  generalize (B.updBand u.core u.slot (·.updThreads ((s.core u.core).entry u.entry).lanes g)).updEntry u.core u.entry g' = F at *
  simp only [Core.rest, Core.mk.injEq] at hbareF
  have hkeep : ((F.core u.core).band u.slot).keepV = ((B.core u.core).band u.slot).keepV ∧
      ((F.core u.core).band u.slot).keepS = ((B.core u.core).band u.slot).keepS ∧
      ((F.core u.core).band u.slot).keepP = ((B.core u.core).band u.slot).keepP := by
    rw [hbF]; exact ⟨rfl, rfl, rfl⟩
  have hthread : ∀ l, ((F.core u.core).band u.slot).thread l = if l ∈ lanesOf ((s.core u.core).entry u.entry).lanes then
      g l (((B.core u.core).band u.slot).thread l) else ((B.core u.core).band u.slot).thread l := by
    intro l
    rw [hbF, Band.thread_updThreads]
  refine ⟨hcycF.trans hB.cycle, fun l hl => ?_, fun l hl => ?_, ?_, ?_, fun e he => ?_, fun d hd => (hcF d hd).trans (hB.cores d hd),
    fun b hb => (hbnF b hb).trans (hB.bands b hb), fun n => ?_, ?_, ?_, ?_, hoF.trans hB.outside⟩
  · rw [hthread, if_pos hl, hB.lanes l hl, ← hg]
    simp only [Thread.issued, decide_eq_true_eq]
  · rw [hthread, if_neg hl, hB.threads l hl]
  · have h := hB.band
    dsimp only at h ⊢
    rw [hbF]
    exact h
  · dsimp only
    rw [heF, ← hk]
    refine ⟨hel, hed, hes, hef, hew, hea, ?_⟩
    simp only [decide_eq_true_eq, Clause.issued, hec]
  · rw [henF e he]; exact hB.entries e he
  · have h1 : (F.core u.core).task n = (B.core u.core).task n := by simp only [Core.task, hbareF]
    rw [h1]; exact hB.tasks n
  · simp only [hbareF]; exact hB.matrix
  · intro d b gen l hn
    refine Eq.trans ?_ (hB.regs d b gen l hn)
    unfold State.reg
    by_cases hd : d = u.core
    · subst hd
      have hkb : ((F.core u.core).band b).keepV = ((B.core u.core).band b).keepV ∧ ((F.core u.core).band b).keepS = ((B.core u.core).band b).keepS ∧
          ((F.core u.core).band b).keepP = ((B.core u.core).band b).keepP := by
        by_cases hb : b = u.slot
        · subst hb; exact hkeep
        · rw [hbnF b hb]; exact ⟨rfl, rfl, rfl⟩
      cases l <;> simp only [Core.readLoc, hbareF, hkb]
    · rw [hcF d hd]
  · refine KeepsMemory.trans hB.memory (MemSame.keeps ⟨?_, ?_, fun d => ?_⟩)
    · have h := congrArg State.mem hoF; exact h
    · have h := congrArg State.domes hoF; exact h
    · by_cases hd : d = u.core
      · subst hd
        simp only [hbareF, and_self]
      · rw [hcF d hd]; exact ⟨rfl, rfl, rfl, rfl⟩

/-- An instruction that issues takes its slot. -/
theorem State.slot_begun (s : State) (u : Cursor) (i : Instr) (q : Shape) (h : s.stands u = true) :
    s.Slot u none (s.issueTime u i q.uni q.d.toNat) (s.begun u i q) := by
  have h' := h
  simp only [State.stands, Bool.and_eq_true, Bool.not_eq_true'] at h'
  obtain ⟨⟨⟨⟨⟨-, hp⟩, ht⟩, hs⟩, -⟩, hf⟩ := h'
  rw [State.begun_eq]
  dsimp only
  generalize s.issueTime u i q.uni q.d.toNat = now
  have hS := Settled.commit s u now hp
  have hA := Aged.fold u now (((((s.clockTo now).commit u.core u.slot now).core u.core).entriesOf u.slot)) ((s.clockTo now).commit u.core u.slot now)
  have hage := age_fold u now (((((s.clockTo now).commit u.core u.slot now).core u.core).entriesOf u.slot)) ((s.clockTo now).commit u.core u.slot now)
  have ht' : (mapGet ((s.timed u now).core u.core).table u.entry).isSome = true := by
    rw [State.timed, State.tabled_ageBand, hS.table]; exact ht
  have hp' : (mapGet ((s.timed u now).core u.core).bands u.slot).isSome = true := by
    rw [State.timed, State.placed_ageBand, hS.placed]; exact hp
  have hpow : ((s.clockTo now).commit u.core u.slot now).power = s.power :=
    (congrArg State.power (rest_commit (s.clockTo now) u.core u.slot now)).trans (power_clockTo s now)
  rw [← State.ageBand_eq] at hA hage
  rw [← State.timed] at hA hage
  generalize (s.clockTo now).commit u.core u.slot now = m at *
  generalize s.timed u now = a at *
  have hent : ∀ e, (m.core u.core).entry e = (s.core u.core).entry e := fun e => by rw [Core.entry, hS.table]; rfl
  refine slot_of s a u q.uni now h m hS hA (hage (by rw [hent]; exact hf) (by rw [hS.table]; exact ht) (.inl ?_)) ?_ hp' ht' ?_ _
  · rw [Core.entriesOf, hS.table]
    obtain ⟨x, hx⟩ := Option.isSome_iff_exists.1 ht
    refine List.mem_filter.2 ⟨List.mem_map.2 ⟨(u.entry, x), mem_of_mapGet hx, rfl⟩, ?_⟩
    rw [hent, hs]
  · have h1 := congrArg State.power hA.rest
    have h2 : a.power = s.power := h1.trans hpow
    simp only [State.slotLen, h2]
  · have h1 := congrArg State.cycle hA.rest
    exact h1.trans hS.cycle

/-- An instruction that issues takes its slot and goes past its words. -/
theorem State.slot_passed (s : State) (u : Cursor) (i : Instr) (q : Shape) (h : s.stands u = true) :
    s.Slot u (some q.words) (s.issueTime u i q.uni q.d.toNat) (s.passed u i q) := by
  rw [State.passed]
  have h' := h
  simp only [State.stands, Bool.and_eq_true, Bool.not_eq_true'] at h'
  obtain ⟨⟨⟨⟨⟨-, hp⟩, ht⟩, -⟩, -⟩, -⟩ := h'
  refine State.Slot.advance h (State.slot_begun s u i q h) ?_ ?_ _
  · have := State.placed_passed s u i q u.slot u.core
    rw [State.passed, State.placed_advance] at this
    rw [this]; exact hp
  · have := State.tabled_passed s u i q u.entry u.core
    rw [State.passed, State.tabled_advance] at this
    rw [this]; exact ht

/-! ## What an issuing sub-band sees, and what stops it -/

theorem State.stands_parts {s : State} {u : Cursor} (h : s.stands u = true) : s.cur = some u ∧
    (mapGet (s.core u.core).bands u.slot).isSome = true ∧ (mapGet (s.core u.core).table u.entry).isSome = true ∧
    ((s.core u.core).entry u.entry).slot = u.slot ∧ ((s.core u.core).entry u.entry).lanes ≠ 0 ∧
    ((s.core u.core).entry u.entry).frozen = false := by
  simp only [State.stands, Bool.and_eq_true, Bool.not_eq_true', beq_iff_eq, bne_iff_ne] at h
  tauto

theorem State.placed_begun (s : State) (u : Cursor) (i : Instr) (q : Shape) (h : s.stands u = true) :
    (mapGet ((s.begun u i q).core u.core).bands u.slot).isSome = true := by
  have := State.placed_passed s u i q u.slot u.core
  rw [State.passed, State.placed_advance] at this
  rw [this]; exact (State.stands_parts h).2.1

theorem State.seen_lanes (s : State) (u : Cursor) (i : Instr) (q : Shape) (h : s.stands u = true) :
    (s.seen u i q).lanes = ((s.core u.core).entry u.entry).lanes := by
  have := (s.slot_begun u i q h).entry.1
  rw [State.seen, State.ctx]; exact this

theorem State.seen_pc (s : State) (u : Cursor) (i : Instr) (q : Shape) (h : s.stands u = true) :
    (s.seen u i q).pc = (((s.core u.core).band u.slot).thread ((lowestLane ((s.core u.core).entry u.entry).lanes).getD 0)).pc := by
  have hs := s.slot_begun u i q h
  have hl := hs.entry.1
  have : (s.seen u i q).pc = (((s.begun u i q).core u.core).band u.slot |>.thread ((lowestLane (((s.begun u i q).core u.core).entry u.entry).lanes).getD 0)).pc := by
    rw [State.seen, State.ctx]
  rw [this, hl]
  generalize (lowestLane ((s.core u.core).entry u.entry).lanes).getD 0 = l
  by_cases hm : l ∈ lanesOf ((s.core u.core).entry u.entry).lanes
  · rw [hs.lanes l hm]; rfl
  · rw [hs.threads l hm]

theorem State.seen_keep (s : State) (u : Cursor) (i : Instr) (q : Shape) (h : s.stands u = true) :
    (s.seen u i q).keep = ((s.core u.core).band u.slot).keep := by
  have hs := (s.slot_begun u i q h).band
  dsimp only at hs
  rw [State.seen, Ctx.keep, State.ctx_b]
  tauto

theorem issue_of_check {s : State} {u : Cursor} {i : Instr} {q : Shape} (f : Ctx → State → Res) (h : s.stands u = true)
    (hb : s.breaks u = false) {cause : Nat} (hc : Sys2Proof.Machine.check i q (s.seen u i q) = some cause) :
    issue i q f s = .next ((s.begun u i q).takeTrap u.core u.slot cause 0 (some u.entry) (s.seen u i q).pc (s.seen u i q).lanes 0) := by
  rw [issue, (State.stands_parts h).1]
  dsimp only
  rw [issueAt, hb]
  rw [State.seen, State.begun] at hc
  simp only [Bool.false_eq_true, if_false, hc, State.trapHere]
  rw [State.seen, State.begun, State.ctx]

theorem issue_breaks {s : State} {u : Cursor} {i : Instr} {q : Shape} (f : Ctx → State → Res) (h : s.stands u = true)
    (hb : s.breaks u = true) : issue i q f s = .next (s.breakHere u) := by
  rw [issue, (State.stands_parts h).1]
  dsimp only
  rw [issueAt, hb]
  rfl

end Sys2Proof.Machine
end

