-- ==== Sys2Proof/Laws/Stack.lean ====
section
/-! SUPPORT. The return stack: pushing entries in lanes, spilled ones stored to memory. -/

-- One theorem at a time: the package compiles as one text, and a thread for each open proof asks for a stack of its own.
set_option Elab.async false

namespace Sys2Proof.Machine

/-! ## Stores of a core -/

/-- What a store of a core makes of the core. -/
def Core.stored (k : Core) (place slot : Nat) (lanes : Word) (pd : Nat) (t : Trans) (bs : List Byte) : Core :=
  if State.cached t then
    let ln := place / 128
    let i := t.off % 128
    let l := (k.l1Find ln).getD ⟨ln, t.buf, t.off / 128 * 128, pd, false, 0, 0, []⟩
    let l := (List.range bs.length).foldl (fun (l : L1Line) j =>
      { l with dirty := l.dirty ||| BitVec.ofNat 128 (2 ^ (i + j)), writer := mapSet l.writer (i + j) slot })
      { l with data := putBytes l.data i bs }
    { k.l1Put l with regs := k.regs ++ [⟨ln, t.buf, t.off / 128 * 128, pd, wordMask i bs.length, slot⟩] }
  else { k with requests := k.requests ++ [⟨slot, lanes, pd, t, bs⟩] }

theorem State.storeBytes_eq (s : State) (c slot : Nat) (lanes : Word) (pd : Nat) (t : Trans) (bs : List Byte) :
    s.storeBytes c slot lanes pd t bs = s.updCore c (·.stored ((s.buf t.buf).place t.off) slot lanes pd t bs) := by
  unfold State.storeBytes Core.stored
  by_cases h : State.cached t = true
  · simp only [h, if_true]; rfl
  · simp only [h, if_false, Bool.false_eq_true]

theorem Core.stored_updBand (k : Core) (place slot : Nat) (lanes : Word) (pd : Nat) (t : Trans) (bs : List Byte) (b : Nat) (f : Band → Band) :
    (k.updBand b f).stored place slot lanes pd t bs = (k.stored place slot lanes pd t bs).updBand b f := by
  unfold Core.stored
  split <;> rfl

theorem Core.stored_parts (k : Core) (place slot : Nat) (lanes : Word) (pd : Nat) (t : Trans) (bs : List Byte) :
    let r := k.stored place slot lanes pd t bs
    r.bands = k.bands ∧ r.table = k.table ∧ r.tasks = k.tasks ∧ r.accs = k.accs ∧ r.accStat = k.accStat ∧ r.tiles = k.tiles ∧
      r.vrf = k.vrf ∧ r.srf = k.srf ∧ r.prf = k.prf ∧ r.tlb = k.tlb ∧ r.scratch = k.scratch ∧ r.pw = k.pw ∧ r.flights = k.flights ∧
      r.nextOp = k.nextOp := by
  unfold Core.stored
  split <;> exact ⟨rfl, rfl, rfl, rfl, rfl, rfl, rfl, rfl, rfl, rfl, rfl, rfl, rfl, rfl⟩

theorem State.storeBytes_updBand (s : State) (c slot : Nat) (lanes : Word) (pd : Nat) (t : Trans) (bs : List Byte) (b : Nat) (f : Band → Band) :
    (s.updBand c b f).storeBytes c slot lanes pd t bs = (s.storeBytes c slot lanes pd t bs).updBand c b f := by
  rw [State.storeBytes_eq, State.storeBytes_eq, State.updBand, State.updBand, State.updCore_updCore, State.updCore_updCore]
  exact congrArg (s.updCore c) (funext fun k => Core.stored_updBand _ _ _ _ _ _ _ _ _)

theorem State.lookup_updBand (s : State) (c b : Nat) (f : Band → Band) (d pd : Nat) (va : BitVec 64) (a : Nat) :
    (s.updBand c b f).lookup d pd va a = s.lookup d pd va a := by
  have h : ((s.updBand c b f).core d).tlb = (s.core d).tlb := State.part_updBand (·.tlb) (fun _ _ => rfl) s c b f d
  unfold State.lookup
  rw [h]
  rfl

/-! ## Pushing -/

theorem lanesOf_laneBit {l : Nat} (h : l < 32) : lanesOf (laneBit l) = [l] := by
  revert h; revert l; decide

theorem Band.updThreads_laneBit (b : Band) {l : Nat} (h : l < 32) (f : Nat → Thread → Thread) :
    b.updThreads (laneBit l) f = { b with threads := mapSet b.threads l (f l (b.thread l)) } := by
  rw [Band.updThreads, lanesOf_laneBit h]; rfl

/-- One lane's push. -/
def pushOne (x : Ctx) (entry : BitVec 64) (l : Nat) (t : Thread) : Thread :=
  let d := (x.b.thread l).depth + 1
  { t with depth := d, stack := if d ≤ 8 then mapSet t.stack d entry else t.stack }

theorem State.push_updBand (s : State) (x : Ctx) (g : Word) (entry : BitVec 64) (f' : Band → Band) :
    (s.push x g entry).updBand x.core x.slot f' = (s.spilled x g entry).updBand x.core x.slot fun b => f' (b.updThreads g (pushOne x entry)) := by
  have key : ∀ (ls : List Nat) (hl : ∀ l ∈ ls, l < 32) (s : State) (f : Band → Band),
      ls.foldl (fun s l =>
        let d := (x.b.thread l).depth + 1
        let s := if d ≤ 8 then s else
          let va := x.k.spillVa x.slot l d
          match s.lookup x.core x.pd va accStore with
          | some (.ok t) => s.storeBytes x.core x.slot (laneBit l) x.pd t (bytesOf 8 entry.toNat)
          | _ => s
        s.updThreads x.core x.slot (laneBit l) fun _ t =>
          { t with depth := d, stack := if d ≤ 8 then mapSet t.stack d entry else t.stack }) (s.updBand x.core x.slot f) =
      (ls.foldl (fun s l =>
        let d := (x.b.thread l).depth + 1
        if d ≤ 8 then s else
          match s.lookup x.core x.pd (x.k.spillVa x.slot l d) accStore with
          | some (.ok t) => s.storeBytes x.core x.slot (laneBit l) x.pd t (bytesOf 8 entry.toNat)
          | _ => s) s).updBand x.core x.slot fun b =>
            { f b with threads := ls.foldl (fun t l => mapSet t l (pushOne x entry l (mapGetD t l Thread.fresh))) (f b).threads } := by
    intro ls
    induction ls with
    | nil => intro _ s f; rfl
    | cons l ls ih =>
      intro hl s f
      have hl0 : l < 32 := hl l (by simp)
      rw [List.foldl_cons, List.foldl_cons]
      have step : ∀ z : State, ((z.updBand x.core x.slot f).updThreads x.core x.slot (laneBit l) fun _ t =>
          { t with depth := (x.b.thread l).depth + 1, stack := if (x.b.thread l).depth + 1 ≤ 8 then mapSet t.stack ((x.b.thread l).depth + 1) entry else t.stack }) =
          z.updBand x.core x.slot fun b => { f b with threads := mapSet (f b).threads l (pushOne x entry l ((f b).thread l)) } := by
        intro z
        rw [State.updThreads, State.updBand_updBand]
        exact congrArg (z.updBand x.core x.slot) (funext fun b => Band.updThreads_laneBit _ hl0 _)
      dsimp only
      by_cases hd : (x.b.thread l).depth + 1 ≤ 8
      · simp only [hd, if_true] at step ⊢
        rw [step, ih fun m hm => hl m (by simp [hm])]
        rfl
      · simp only [hd, if_false] at step ⊢
        rw [State.lookup_updBand]
        split
        · rw [State.storeBytes_updBand, step, ih fun m hm => hl m (by simp [hm])]
          rfl
        · rw [step, ih fun m hm => hl m (by simp [hm])]
          rfl
  have hg : ∀ l ∈ lanesOf g, l < 32 := fun l hl => lanesOf_lt hl
  unfold State.push State.spilled
  simp only [Band.updThreads]
  cases hls : lanesOf g with
  | nil => rfl
  | cons l ls =>
    rw [hls] at hg
    have hl0 : l < 32 := hg l (by simp)
    rw [List.foldl_cons, List.foldl_cons]
    have step : ∀ z : State, (z.updThreads x.core x.slot (laneBit l) fun _ t =>
        { t with depth := (x.b.thread l).depth + 1, stack := if (x.b.thread l).depth + 1 ≤ 8 then mapSet t.stack ((x.b.thread l).depth + 1) entry else t.stack }) =
        z.updBand x.core x.slot fun b => { b with threads := mapSet b.threads l (pushOne x entry l (b.thread l)) } := by
      intro z
      rw [State.updThreads]
      exact congrArg (z.updBand x.core x.slot) (funext fun b => Band.updThreads_laneBit _ hl0 _)
    have hk := fun z => key ls (fun m hm => hg m (by simp [hm])) z fun b => { b with threads := mapSet b.threads l (pushOne x entry l (b.thread l)) }
    dsimp only at hk
    by_cases hd : (x.b.thread l).depth + 1 ≤ 8
    · simp only [hd, if_true] at step ⊢
      rw [step]
      refine (congrArg (fun z => State.updBand z x.core x.slot f') (hk _)).trans ?_
      rw [State.updBand_updBand]
      rfl
    · simp only [hd, if_false] at step ⊢
      rw [step]
      refine (congrArg (fun z => State.updBand z x.core x.slot f') (hk _)).trans ?_
      rw [State.updBand_updBand]
      rfl

/-! ## Frames -/

theorem State.part_storeBytes {β : Type} (p : Core → β) (hp : ∀ k place slot lanes pd t bs, p (Core.stored k place slot lanes pd t bs) = p k)
    (s : State) (c slot : Nat) (lanes : Word) (pd : Nat) (t : Trans) (bs : List Byte) (d : Nat) :
    p ((s.storeBytes c slot lanes pd t bs).core d) = p (s.core d) := by
  rw [State.storeBytes_eq, State.core_updCore]
  split
  · rename_i h; subst h; exact hp _ _ _ _ _ _ _
  · rfl

theorem State.part_spilled {β : Type} (p : Core → β) (hp : ∀ k place slot lanes pd t bs, p (Core.stored k place slot lanes pd t bs) = p k)
    (s : State) (x : Ctx) (g : Word) (entry : BitVec 64) (d : Nat) : p ((s.spilled x g entry).core d) = p (s.core d) := by
  unfold State.spilled
  generalize lanesOf g = ls
  induction ls generalizing s with
  | nil => rfl
  | cons l ls ih =>
    rw [List.foldl_cons, ih]
    dsimp only
    split
    · rfl
    · split
      · exact State.part_storeBytes p hp _ _ _ _ _ _ _ _
      · rfl

theorem State.outside_spilled (s : State) (x : Ctx) (g : Word) (entry : BitVec 64) : (s.spilled x g entry).outside = s.outside := by
  unfold State.spilled
  generalize lanesOf g = ls
  induction ls generalizing s with
  | nil => rfl
  | cons l ls ih =>
    rw [List.foldl_cons, ih]
    dsimp only
    split
    · rfl
    · split
      · rw [State.storeBytes_eq, State.outside_updCore]
      · rfl

/-- The parts of cores that stores leave alone. -/
structure SameButStores (s m : State) : Prop where
  bands : ∀ d, (m.core d).bands = (s.core d).bands
  table : ∀ d, (m.core d).table = (s.core d).table
  tasks : ∀ d, (m.core d).tasks = (s.core d).tasks
  matrix : ∀ d, (m.core d).accs = (s.core d).accs ∧ (m.core d).accStat = (s.core d).accStat ∧ (m.core d).tiles = (s.core d).tiles
  files : ∀ d, (m.core d).vrf = (s.core d).vrf ∧ (m.core d).srf = (s.core d).srf ∧ (m.core d).prf = (s.core d).prf
  outside : m.outside = s.outside

theorem SameButStores.refl (s : State) : SameButStores s s :=
  ⟨fun _ => rfl, fun _ => rfl, fun _ => rfl, fun _ => ⟨rfl, rfl, rfl⟩, fun _ => ⟨rfl, rfl, rfl⟩, rfl⟩

theorem SameButStores.spilled (s : State) (x : Ctx) (g : Word) (entry : BitVec 64) : SameButStores s (s.spilled x g entry) where
  bands := State.part_spilled (·.bands) (fun k a b c d e f => (Core.stored_parts k a b c d e f).1) s x g entry
  table := State.part_spilled (·.table) (fun k a b c d e f => (Core.stored_parts k a b c d e f).2.1) s x g entry
  tasks := State.part_spilled (·.tasks) (fun k a b c d e f => (Core.stored_parts k a b c d e f).2.2.1) s x g entry
  matrix d := ⟨State.part_spilled (·.accs) (fun k a b c d e f => (Core.stored_parts k a b c d e f).2.2.2.1) s x g entry d,
    State.part_spilled (·.accStat) (fun k a b c d e f => (Core.stored_parts k a b c d e f).2.2.2.2.1) s x g entry d,
    State.part_spilled (·.tiles) (fun k a b c d e f => (Core.stored_parts k a b c d e f).2.2.2.2.2.1) s x g entry d⟩
  files d := ⟨State.part_spilled (·.vrf) (fun k a b c d e f => (Core.stored_parts k a b c d e f).2.2.2.2.2.2.1) s x g entry d,
    State.part_spilled (·.srf) (fun k a b c d e f => (Core.stored_parts k a b c d e f).2.2.2.2.2.2.2.1) s x g entry d,
    State.part_spilled (·.prf) (fun k a b c d e f => (Core.stored_parts k a b c d e f).2.2.2.2.2.2.2.2.1) s x g entry d⟩
  outside := State.outside_spilled _ _ _ _

theorem SameButStores.regs {s m : State} (h : SameButStores s m) (c slot : Nat) (ls : List Loc) : KeepsRegs s m c slot ls := by
  intro d b gen l _
  have h1 := h.files d
  have h2 := h.bands d
  unfold State.reg
  cases l <;> simp only [Core.readLoc, Core.band, h1, h2]
  rfl

theorem SameButStores.system {s m : State} (h : SameButStores s m) : KeepsSystem s m where
  band d b := by
    have h2 := h.bands d
    simp only [Core.band, h2, and_self]
  task := h.tasks
  matrix := h.matrix

/-- Updates of the threads of the band that issued, and of its entry, on a state that stores made. -/
theorem redirects_of {s : State} {u : Cursor} {i : Instr} {q : Shape} (h : s.issues u i q = true) {m : State}
    (hm : SameButStores (s.passed u i q) m) (F : Band → Band) (hF : ∀ b, { F b with threads := [] } = { b with threads := [] })
    (f : Nat → Thread → Thread) (hf : ∀ l, (F (((s.passed u i q).core u.core).band u.slot)).thread l =
      f l ((((s.passed u i q).core u.core).band u.slot).thread l)) (g : Entry → Entry) :
    s.Redirects u i q m f g ((m.updBand u.core u.slot F).updEntry u.core u.entry g) := by
  have hp : (mapGet (m.core u.core).bands u.slot).isSome = true := by rw [hm.bands]; exact State.placed_of_issues h
  have ht : (mapGet (m.core u.core).table u.entry).isSome = true := by rw [hm.table]; exact State.tabled_of_issues h
  have hb : ∀ c b, (m.core c).band b = ((s.passed u i q).core c).band b := fun c b => by rw [Core.band, hm.bands]; rfl
  have hF' : ∀ b, (F b).flags = b.flags ∧ (F b).rm = b.rm ∧ (F b).fflags = b.fflags ∧ (F b).mshape = b.mshape ∧ (F b).j = b.j ∧
      (F b).arr = b.arr ∧ (F b).lc = b.lc ∧ (F b).li = b.li ∧ (F b).k = b.k ∧ (F b).kcause = b.kcause ∧ (F b).kpc = b.kpc ∧
      (F b).klanes = b.klanes ∧ (F b).kaddr = b.kaddr ∧ (F b).keep = b.keep ∧ (F b).frozen = b.frozen ∧ (F b).keepV = b.keepV ∧
      (F b).keepS = b.keepS ∧ (F b).keepP = b.keepP := by
    intro b
    have := hF b
    simp only [Band.mk.injEq] at this
    tauto
  refine ⟨fun l => ?_, fun c b hn => ?_, fun c b => ?_, ?_, fun c e hn => ?_, ?_, ?_, ?_, ?_⟩
  · rw [State.band_updEntry, State.band_updBand_self _ _ _ _ hp, hb, hf]
  · rw [State.band_updEntry, State.band_updBand_ne _ _ _ _ _ _ hn, hb]
  · rw [State.band_updEntry, State.band_updBand_proj (·.frozen) _ _ _ _ (fun b => by have := hF' b; tauto), hb]
  · rw [State.entry_updEntry_self _ _ _ _ (by rw [State.tabled_updBand]; exact ht), Core.entry, State.table_updBand, hm.table]; rfl
  · rw [State.entry_updEntry_ne _ _ _ _ _ _ hn, Core.entry, State.table_updBand, hm.table]; rfl
  · refine (hm.regs _ _ _).trans ((KeepsRegs.updBand m u.core u.slot F (fun b => by have := hF' b; tauto) (fun b => by have := hF' b; tauto)
      (fun b => by have := hF' b; tauto) _ _ _).trans ?_)
    intro d b gen l _
    unfold State.reg
    rw [State.updEntry, State.core_updCore]
    split
    · rename_i hd; subst hd; cases l <;> rfl
    · rfl
  · refine hm.system.trans ((KeepsSystem.updBand m u.core u.slot F fun b => ?_).trans ⟨fun c b => ?_, fun c => ?_, fun c => ?_⟩)
    · have := hF' b
      simp only [Prod.mk.injEq]; tauto
    · simp only [State.band_updEntry, and_self]
    · rw [State.updEntry, State.core_updCore]
      split
      · rename_i hd; subst hd; rfl
      · rfl
    · rw [State.updEntry, State.core_updCore]
      split
      · rename_i hd; subst hd; exact ⟨rfl, rfl, rfl⟩
      · exact ⟨rfl, rfl, rfl⟩
  · exact ((MemSame.updBand _ _ _ _).trans (MemSame.updEntry _ _ _ _)).keeps
  · rw [State.outside_updEntry, State.outside_updBand, hm.outside, State.outside_passed]

/-- Depth and stack of a thread are at an issue what they are past it. -/
theorem State.seen_stack (s : State) (u : Cursor) (i : Instr) (q : Shape) (h : s.stands u = true) (l : Nat) :
    ((s.seen u i q).b.thread l).depth = ((((s.passed u i q).core u.core).band u.slot).thread l).depth ∧
    ((s.seen u i q).b.thread l).stack = ((((s.passed u i q).core u.core).band u.slot).thread l).stack := by
  have h1 := s.slot_begun u i q h
  have h2 := s.slot_passed u i q h
  rw [State.seen, State.ctx_b]
  by_cases hl : l ∈ lanesOf ((s.core u.core).entry u.entry).lanes
  · rw [h1.lanes l hl, h2.lanes l hl]; exact ⟨rfl, rfl⟩
  · rw [h1.threads l hl, h2.threads l hl]; exact ⟨rfl, rfl⟩

end Sys2Proof.Machine
end

