-- ==== Sys2Proof/Laws/Lanes.lean ====
section
/-! SUPPORT. Lane masks: membership, and lanes grouped by a key. -/

-- One theorem at a time: the package compiles as one text, and a thread for each open proof asks for a stack of its own.
set_option Elab.async false

namespace Sys2Proof.Machine

theorem mem_lanesOf {m : Word} {l : Nat} : l ∈ lanesOf m ↔ m.getLsbD l = true := by
  simp only [lanesOf, List.mem_filter, List.mem_range]
  exact ⟨And.right, fun h => ⟨by_contra fun hn => by simp [BitVec.getLsbD_of_ge _ _ (Nat.le_of_not_lt hn)] at h, h⟩⟩

theorem getLsbD_laneBit {i l : Nat} (hi : i < 32) : (laneBit i).getLsbD l = decide (l = i) := by
  by_cases hl : l < 32
  · have h : ∀ i < 32, ∀ l < 32, (laneBit i).getLsbD l = decide (l = i) := by decide +kernel
    exact h i hi l hl
  · rw [BitVec.getLsbD_of_ge _ _ (by omega)]; simp; omega

theorem getLsbD_maskOf {ls : List Nat} (h : ∀ l ∈ ls, l < 32) (l : Nat) : (maskOf ls).getLsbD l = decide (l ∈ ls) := by
  have key : ∀ (ls : List Nat) (m : Word), (∀ l ∈ ls, l < 32) →
      (ls.foldl (fun m i => m ||| laneBit i) m).getLsbD l = (m.getLsbD l || decide (l ∈ ls)) := by
    intro ls
    induction ls with
    | nil => intro m _; simp
    | cons a ls ih =>
      intro m hm
      rw [List.foldl_cons, ih _ fun x hx => hm x (by simp [hx]), BitVec.getLsbD_or, getLsbD_laneBit (hm a (by simp))]
      by_cases h1 : l = a <;> simp [h1]
  rw [maskOf, key ls 0#32 h]; simp

theorem mem_lanesOf_maskOf {ls : List Nat} (h : ∀ l ∈ ls, l < 32) {l : Nat} : l ∈ lanesOf (maskOf ls) ↔ l ∈ ls := by
  rw [mem_lanesOf, getLsbD_maskOf h]; simp

theorem mem_lanesOf_diff {a b : Word} {l : Nat} : l ∈ lanesOf (a &&& ~~~b) ↔ l ∈ lanesOf a ∧ l ∉ lanesOf b := by
  simp only [mem_lanesOf, BitVec.getLsbD_and, BitVec.getLsbD_not, Bool.and_eq_true, Bool.not_eq_true', decide_eq_true_eq]
  constructor
  · rintro ⟨h1, -, h2⟩; exact ⟨h1, by simp [h2]⟩
  · rintro ⟨h1, h2⟩
    exact ⟨h1, by_contra fun hn => by simp [BitVec.getLsbD_of_ge _ _ (Nat.le_of_not_lt hn)] at h1, by simpa using h2⟩

theorem maskOf_zero {ls : List Nat} (h : ∀ l ∈ ls, l < 32) : maskOf ls = 0 ↔ ls = [] := by
  constructor
  · intro h0
    by_contra hn
    obtain ⟨a, ha⟩ := List.exists_mem_of_ne_nil _ hn
    have := (mem_lanesOf_maskOf h).2 ha
    rw [h0, mem_lanesOf] at this; simp at this
  · rintro rfl; rfl

theorem word_ext {a b : Word} (h : ∀ l, l ∈ lanesOf a ↔ l ∈ lanesOf b) : a = b := by
  apply BitVec.eq_of_getLsbD_eq
  intro i _
  have := h i
  rw [mem_lanesOf, mem_lanesOf] at this
  exact Bool.eq_iff_iff.2 this

/-! ## Groups -/

/-- The keys of lanes, each once, that of the lowest first. -/
def keysOf (key : Nat → BitVec 64) (ls : List Nat) : List (BitVec 64) :=
  ls.foldl (fun (a : List (BitVec 64)) l => if a.contains (key l) then a else a ++ [key l]) []

theorem groupsBy_eq (key : Nat → BitVec 64) (ls : List Nat) :
    groupsBy key ls = (keysOf key ls).map fun k => (k, maskOf (ls.filter fun l => key l == k)) := rfl

theorem keysOf_mem (key : Nat → BitVec 64) (ls : List Nat) {l : Nat} (h : l ∈ ls) : key l ∈ keysOf key ls := by
  have key' : ∀ (ls : List Nat) (a : List (BitVec 64)), (∀ k ∈ a, k ∈ ls.foldl (fun (a : List (BitVec 64)) l => if a.contains (key l) then a else a ++ [key l]) a) ∧
      (∀ l ∈ ls, key l ∈ ls.foldl (fun (a : List (BitVec 64)) l => if a.contains (key l) then a else a ++ [key l]) a) := by
    intro ls
    induction ls with
    | nil => intro a; simp
    | cons x ls ih =>
      intro a
      rw [List.foldl_cons]
      have hx : key x ∈ (if a.contains (key x) then a else a ++ [key x]) := by
        split <;> simp_all
      have ha : ∀ k ∈ a, k ∈ (if a.contains (key x) then a else a ++ [key x]) := by
        intro k hk; split <;> simp_all
      refine ⟨fun k hk => (ih _).1 k (ha k hk), fun l hl => ?_⟩
      rcases List.mem_cons.1 hl with rfl | hl
      · exact (ih _).1 _ hx
      · exact (ih _).2 l hl
  exact (key' ls []).2 l h

theorem keysOf_head (key : Nat → BitVec 64) (a : Nat) (ls : List Nat) : ∃ r, keysOf key (a :: ls) = key a :: r := by
  have h : ∀ (ls : List Nat) (k : BitVec 64) (r : List (BitVec 64)),
      ∃ r', ls.foldl (fun (a : List (BitVec 64)) l => if a.contains (key l) then a else a ++ [key l]) (k :: r) = k :: r' := by
    intro ls
    induction ls with
    | nil => intro k r; exact ⟨r, rfl⟩
    | cons x ls ih =>
      intro k r
      rw [List.foldl_cons]
      split
      · exact ih k r
      · rw [List.cons_append]; exact ih k _
  exact h ls (key a) []

/-- What standing each group at its key does to a band, thread by thread. -/
theorem groups_band (key : Nat → BitVec 64) (ls : List Nat) (hls : ∀ l ∈ ls, l < 32) (b : Band) :
    let z := (groupsBy key ls).foldl (fun (b : Band) g => Band.standAt g.2 g.1 b) b
    { z with threads := [] } = { b with threads := [] } ∧
      ∀ l, z.thread l = if l ∈ ls then { b.thread l with pc := key l, base := key l } else b.thread l := by
  have h : ∀ (ks : List (BitVec 64)) (b : Band),
      let z := (ks.map fun k => (k, maskOf (ls.filter fun l => key l == k))).foldl (fun (b : Band) g => Band.standAt g.2 g.1 b) b
      { z with threads := [] } = { b with threads := [] } ∧
      ∀ l, z.thread l = if l ∈ ls ∧ key l ∈ ks then { b.thread l with pc := key l, base := key l } else b.thread l := by
    intro ks
    induction ks with
    | nil => intro b; simp
    | cons k ks ih =>
      intro b
      obtain ⟨h1, h2⟩ := ih (Band.standAt (maskOf (ls.filter fun l => key l == k)) k b)
      refine ⟨h1.trans rfl, fun l => ?_⟩
      have h3 : (Band.standAt (maskOf (ls.filter fun l => key l == k)) k b).thread l =
          if l ∈ ls ∧ key l = k then { b.thread l with pc := key l, base := key l } else b.thread l := by
        have hm : l ∈ lanesOf (maskOf (ls.filter fun l => key l == k)) ↔ l ∈ ls ∧ key l = k := by
          rw [mem_lanesOf_maskOf fun l hl => hls l (List.mem_of_mem_filter hl)]
          simp only [List.mem_filter, beq_iff_eq]
        rw [Band.standAt, Band.thread_updThreads]
        by_cases hh : l ∈ ls ∧ key l = k
        · rw [if_pos hh, if_pos (hm.2 hh), hh.2]
        · rw [if_neg hh, if_neg (fun h => hh (hm.1 h))]
      rw [List.map_cons, List.foldl_cons, h2, h3]
      by_cases ha : l ∈ ls <;> by_cases hb : key l = k <;> by_cases hc : key l ∈ ks <;> simp [ha, hb, hc]
  obtain ⟨h1, h2⟩ := h (keysOf key ls) b
  refine ⟨h1, fun l => ?_⟩
  rw [groupsBy_eq, h2]
  by_cases ha : l ∈ ls
  · simp [ha, keysOf_mem key ls ha]
  · simp [ha]

theorem State.foldl_updBand {α : Type} (ls : List α) (s : State) (c b : Nat) (f : α → Band → Band) :
    ls.foldl (fun s a => s.updBand c b (f a)) s = if ls = [] then s else s.updBand c b fun y => ls.foldl (fun y a => f a y) y := by
  cases ls with
  | nil => rfl
  | cons a ls =>
    have h : ∀ (ls : List α) (g : Band → Band) (s : State), ls.foldl (fun s a => s.updBand c b (f a)) (s.updBand c b g) =
        s.updBand c b fun y => ls.foldl (fun y a => f a y) (g y) := by
      intro ls
      induction ls with
      | nil => intro g s; rfl
      | cons a ls ih => intro g s; rw [List.foldl_cons, State.updBand_updBand, ih]; rfl
    rw [List.foldl_cons, h]; simp

end Sys2Proof.Machine
end

