-- ==== Sys2Proof/Laws/Moves.lean ====
section
/-! SUPPORT. Lanes that move: every operation of divergence changes only where the lanes of its band stand. -/

-- One theorem at a time: the package compiles as one text, and a thread for each open proof asks for a stack of its own.
set_option Elab.async false

namespace Sys2Proof.Machine

/-- An entry of a band, or one that is free. -/
def State.owns (s : State) (c slot e : Nat) : Prop := ∀ x, mapGet (s.core c).table e = some x → x.slot = slot

/-- `State.Moves`, with what a chain of such operations needs to know. -/
structure Moved (s : State) (c slot : Nat) (t : State) : Prop where
  moves : s.Moves c slot t
  owns : ∀ e, s.owns c slot e → t.owns c slot e
  placed : ∀ d b, (mapGet (t.core d).bands b).isSome = (mapGet (s.core d).bands b).isSome
  tasks : ∀ d, (t.core d).tasks = (s.core d).tasks

theorem Band.unplaced_parts {b b' : Band} (h : b'.unplaced = b.unplaced) : b'.task = b.task ∧ b'.index = b.index ∧
    b'.vgrans = b.vgrans ∧ b'.flags = b.flags ∧ b'.lc = b.lc ∧ b'.li = b.li ∧ b'.k = b.k ∧ b'.rm = b.rm ∧ b'.fflags = b.fflags ∧
    b'.mshape = b.mshape ∧ b'.kcause = b.kcause ∧ b'.kpc = b.kpc ∧ b'.klanes = b.klanes ∧ b'.kaddr = b.kaddr ∧ b'.keep = b.keep ∧
    b'.frozen = b.frozen ∧ b'.keepV = b.keepV ∧ b'.keepS = b.keepS ∧ b'.keepP = b.keepP ∧ b'.halted = b.halted ∧ b'.xop = b.xop ∧
    b'.bars = b.bars ∧ b'.pend = b.pend := by
  simp only [Band.unplaced, Band.mk.injEq] at h
  tauto

theorem Core.rest_parts {k k' : Core} (h : k'.rest = k.rest) : k'.vrf = k.vrf ∧ k'.srf = k.srf ∧ k'.prf = k.prf ∧ k'.l1 = k.l1 ∧
    k'.pw = k.pw ∧ k'.requests = k.requests ∧ k'.scratch = k.scratch ∧ k'.accs = k.accs ∧ k'.accStat = k.accStat ∧
    k'.tiles = k.tiles ∧ k'.tasks = k.tasks ∧ k'.flights = k.flights ∧ k'.nextOp = k.nextOp ∧ k'.tlb = k.tlb := by
  simp only [Core.rest, Core.mk.injEq] at h
  tauto

/-- The frame follows from the shape of the change. -/
theorem Moved.of {s t : State} {c slot : Nat} (cores : ∀ d, d ≠ c → t.core d = s.core d) (rest : (t.core c).rest = (s.core c).rest)
    (bands : ∀ b, b ≠ slot → (t.core c).band b = (s.core c).band b)
    (band : ((t.core c).band slot).unplaced = ((s.core c).band slot).unplaced)
    (exited : ∀ l, (((t.core c).band slot).thread l).exited = (((s.core c).band slot).thread l).exited)
    (entries : ∀ e x, mapGet (s.core c).table e = some x → x.slot ≠ slot → mapGet (t.core c).table e = some x)
    (owns : ∀ e, s.owns c slot e → t.owns c slot e)
    (placed : ∀ b, (mapGet (t.core c).bands b).isSome = (mapGet (s.core c).bands b).isSome)
    (cycle : t.cycle = s.cycle) (outside : t.outside = s.outside) : Moved s c slot t := by
  have hr : ∀ d, (t.core d).rest = (s.core d).rest := fun d => by
    by_cases hd : d = c
    · subst hd; exact rest
    · rw [cores d hd]
  have hb : ∀ d b, ((t.core d).band b).unplaced = ((s.core d).band b).unplaced := fun d b => by
    by_cases hd : d = c
    · subst hd
      by_cases hb : b = slot
      · subst hb; exact band
      · rw [bands b hb]
    · rw [cores d hd]
  refine ⟨⟨cores, rest, bands, band, exited, entries, cycle, outside, ?_, ?_⟩, owns, fun d b => ?_, fun d => by have := Core.rest_parts (hr d); tauto⟩
  · intro d b gen l _
    have h := Core.rest_parts (hr d)
    have g := Band.unplaced_parts (hb d b)
    unfold State.reg
    cases l <;> simp only [Core.readLoc, h, g]
  · have h1 : t.outside.mem = s.outside.mem := by rw [outside]
    have h2 : t.outside.domes = s.outside.domes := by rw [outside]
    exact MemSame.keeps ⟨h1, h2, fun d => by have h := Core.rest_parts (hr d); tauto⟩
  · by_cases hd : d = c
    · subst hd; exact placed b
    · rw [cores d hd]

theorem Moved.refl (s : State) (c slot : Nat) : Moved s c slot s :=
  .of (fun _ _ => rfl) rfl (fun _ _ => rfl) rfl (fun _ => rfl) (fun _ _ h _ => h) (fun _ h => h) (fun _ => rfl) rfl rfl

theorem Moved.trans {a b d : State} {c slot : Nat} (h : Moved a c slot b) (g : Moved b c slot d) : Moved a c slot d :=
  .of (fun d hd => (g.moves.cores d hd).trans (h.moves.cores d hd)) (g.moves.rest.trans h.moves.rest)
    (fun b hb => (g.moves.bands b hb).trans (h.moves.bands b hb)) (g.moves.band.trans h.moves.band)
    (fun l => (g.moves.exited l).trans (h.moves.exited l)) (fun e x hx hn => g.moves.entries e x (h.moves.entries e x hx hn) hn)
    (fun e he => g.owns e (h.owns e he)) (fun b => (g.placed c b).trans (h.placed c b)) (g.moves.cycle.trans h.moves.cycle)
    (g.moves.outside.trans h.moves.outside)

theorem Moved.foldl {α : Type} (f : State → α → State) (c slot : Nat) (ls : List α) (s : State)
    (hf : ∀ t, Moved s c slot t → ∀ a ∈ ls, Moved t c slot (f t a)) : Moved s c slot (ls.foldl f s) := by
  suffices h : ∀ (ms : List α) (t : State), (∀ a ∈ ms, a ∈ ls) → Moved s c slot t → Moved s c slot (ms.foldl f t) from
    h ls s (fun _ h => h) (.refl s c slot)
  intro ms
  induction ms with
  | nil => intro t _ h; exact h
  | cons a ms ih =>
    intro t hm h
    rw [List.foldl_cons]
    exact ih _ (fun b hb => hm b (by simp [hb])) (h.trans (hf t h a (hm a (by simp))))

theorem Moved.updBand (s : State) (c slot : Nat) (f : Band → Band) (hf : ∀ b, (f b).unplaced = b.unplaced)
    (he : ∀ b l, ((f b).thread l).exited = (b.thread l).exited) : Moved s c slot (s.updBand c slot f) := by
  have ht : ((s.updBand c slot f).core c).table = (s.core c).table := State.table_updBand s c slot f c
  refine .of (fun d hd => ?_) (State.rest_updBand _ _ _ _ _) (fun b hb => State.band_updBand_ne _ _ _ _ _ _ (by tauto))
    (State.band_updBand_proj Band.unplaced s c slot f hf c slot)
    (fun l => State.band_updBand_proj (fun b => (b.thread l).exited) s c slot f (fun b => he b l) c slot)
    (fun e x h _ => by rw [ht]; exact h) (fun e h x hx => h x (by rwa [ht] at hx)) (fun b => State.placed_updBand _ _ _ _ _ _) rfl rfl
  rw [State.updBand, State.core_updCore, if_neg hd]

theorem Moved.updThreads (s : State) (c slot : Nat) (m : Word) (f : Nat → Thread → Thread) (hf : ∀ l y, (f l y).exited = y.exited) :
    Moved s c slot (s.updThreads c slot m f) := by
  rw [State.updThreads]
  refine .updBand s c slot _ (fun _ => rfl) fun b l => ?_
  rw [Band.thread_updThreads]
  split
  · exact hf _ _
  · rfl

theorem Moved.updTable (s : State) (c slot : Nat) (f : Core → Core) (hf : ∀ k, f k = { k with table := (f k).table })
    (he : ∀ e x, mapGet (s.core c).table e = some x → x.slot ≠ slot → mapGet (f (s.core c)).table e = some x)
    (ho : ∀ e, s.owns c slot e → ∀ x, mapGet (f (s.core c)).table e = some x → x.slot = slot) : Moved s c slot (s.updCore c f) := by
  have hk : (s.updCore c f).core c = { s.core c with table := (f (s.core c)).table } := by rw [State.core_updCore_self]; exact hf _
  refine .of (fun d hd => by rw [State.core_updCore, if_neg hd]) (by rw [hk]; rfl) (fun b _ => by rw [hk]; rfl) (by rw [hk]; rfl)
    (fun l => by rw [hk]; rfl) (fun e x h hn => by rw [hk]; exact he e x h hn) (fun e h x hx => by rw [hk] at hx; exact ho e h x hx)
    (fun b => by rw [hk]) rfl rfl

theorem Moved.updEntry (s : State) (c slot e : Nat) (g : Entry → Entry) (h : s.owns c slot e) (hg : ∀ x, (g x).slot = x.slot) :
    Moved s c slot (s.updEntry c e g) := by
  refine .updTable s c slot (·.updEntry e g) (fun k => rfl) (fun d x hx hn => ?_) (fun d hd x hx => ?_)
  · simp only [Core.updEntry, mapGet_mapUpd]
    rw [if_neg]
    · exact hx
    · rintro rfl; exact hn (h x hx)
  · simp only [Core.updEntry, mapGet_mapUpd] at hx
    split at hx
    · rename_i hde
      subst hde
      cases hm : mapGet (s.core c).table d with
      | none => rw [hm] at hx; simp at hx
      | some y => rw [hm] at hx; simp only [Option.map_some, Option.some.injEq] at hx; rw [← hx, hg]; exact h y hm
    · exact hd x hx

theorem Moved.setEntry (s : State) (c slot e : Nat) (x : Entry) (h : s.owns c slot e) (hx : x.slot = slot) :
    Moved s c slot (s.updCore c fun k => { k with table := mapSet k.table e x }) := by
  refine .updTable s c slot _ (fun k => rfl) (fun d y hy hn => ?_) (fun d hd y hy => ?_)
  · dsimp only
    rw [mapGet_mapSet, if_neg]
    · exact hy
    · rintro rfl; exact hn (h y hy)
  · dsimp only at hy
    rw [mapGet_mapSet] at hy
    split at hy
    · simp only [Option.some.injEq] at hy; rw [← hy, hx]
    · exact hd y hy

theorem Moved.delEntry (s : State) (c slot e : Nat) (h : s.owns c slot e) :
    Moved s c slot (s.updCore c fun k => { k with table := mapDel k.table e }) := by
  refine .updTable s c slot _ (fun k => rfl) (fun d y hy hn => ?_) (fun d hd y hy => ?_)
  · dsimp only
    rw [mapGet_mapDel, if_neg]
    · exact hy
    · rintro rfl; exact hn (h y hy)
  · dsimp only at hy
    rw [mapGet_mapDel] at hy
    split at hy
    · simp at hy
    · exact hd y hy

theorem State.owns_of_slot {s : State} {c slot e : Nat} (h : ((s.core c).entry e).slot = slot) : s.owns c slot e := by
  intro x hx
  rw [← h, Core.entry, mapGetD, hx]; rfl

theorem State.owns_entriesOf {s : State} {c slot e : Nat} (h : e ∈ (s.core c).entriesOf slot) : s.owns c slot e := by
  simp only [Core.entriesOf, List.mem_filter, beq_iff_eq] at h
  exact State.owns_of_slot h.2

/-- An entry in the table that a band owns is the band's. -/
theorem State.slot_of_owns {s : State} {c slot e : Nat} {x : Entry} (h : s.owns c slot e) (hx : mapGet (s.core c).table e = some x) :
    ((s.core c).entry e).slot = slot := by
  have := h x hx
  rw [Core.entry, mapGetD, hx]; exact this

/-! ## The operations -/

theorem Moved.threadsEntry (s : State) (c slot : Nat) (m : Word) (f : Nat → Thread → Thread) (e : Nat) (g : Entry → Entry)
    (hf : ∀ l y, (f l y).exited = y.exited) (h : s.owns c slot e) (hg : ∀ x, (g x).slot = x.slot) :
    Moved s c slot ((s.updThreads c slot m f).updEntry c e g) :=
  (Moved.updThreads s c slot m f hf).trans (.updEntry _ c slot e g ((Moved.updThreads s c slot m f hf).owns e h) hg)

theorem Moved.advance (s : State) (c slot e n : Nat) (h : ((s.core c).entry e).slot = slot) (hf : ((s.core c).entry e).frozen = false) :
    Moved s c slot (s.advance c e n) := by
  unfold State.advance
  dsimp only
  rw [h, hf, State.updStood, if_neg (by simp)]
  exact .threadsEntry s c slot _ _ e _ (fun _ _ => rfl) (State.owns_of_slot h) fun _ => rfl

theorem Moved.resumeLanes (s : State) (c slot e : Nat) (g : Word) (h : ((s.core c).entry e).slot = slot) :
    Moved s c slot (s.resumeLanes c e g) := by
  unfold State.resumeLanes
  dsimp only
  rw [h]
  exact .threadsEntry s c slot _ _ e _ (fun _ _ => rfl) (State.owns_of_slot h) fun _ => rfl

theorem Moved.rebalance (s : State) (c slot e : Nat) (h : s.owns c slot e) : Moved s c slot (s.rebalance c e) := by
  unfold State.rebalance
  dsimp only
  split
  · exact .refl _ _ _
  · rename_i en hen
    have hs : ((s.core c).entry e).slot = slot := State.slot_of_owns h hen
    have hen' : en.slot = slot := h en hen
    split
    · exact .refl _ _ _
    · split
      · split
        · exact .resumeLanes s c slot e _ hs
        · split
          · exact .delEntry s c slot e h
          · exact .refl _ _ _
      · split
        · rw [hen']
          have h1 := Moved.updThreads s c slot en.lanes (fun _ t => { t with mark := en.wait.blockMark }) fun _ _ => rfl
          have h2 := Moved.updEntry _ c slot e (fun x => { x with defer := x.defer ||| en.lanes, lanes := 0 }) (h1.owns e h) fun _ => rfl
          refine (h1.trans h2).trans (.resumeLanes _ c slot e _ ?_)
          refine State.slot_of_owns (x := { en with defer := en.defer ||| en.lanes, lanes := 0 }) ((h1.trans h2).owns e h) ?_
          rw [State.updEntry, State.core_updCore_self]
          simp only [Core.updEntry, mapGet_mapUpd, if_true]
          rw [State.updThreads, State.table_updBand, hen]; rfl
        · exact .refl _ _ _

theorem State.owns_free {s : State} {c slot i : Nat} (h : (s.core c).freeEntry = some i) : s.owns c slot i := by
  have key : ∀ (f : Nat → Bool) (n lo i : Nat), firstFrom f n lo = some i → f i = true := by
    intro f n
    induction n with
    | zero => intro lo i h; simp [firstFrom] at h
    | succ n ih =>
      intro lo i h
      unfold firstFrom at h
      split at h
      · simp only [Option.some.injEq] at h; subst h; assumption
      · exact ih _ _ h
  have := key _ _ _ _ h
  intro x hx
  rw [hx] at this; simp at this

theorem Moved.takeEntry (s : State) (c slot former : Nat) (g : Word) (w : Wait) (m : Mark)
    (h : s.owns c slot former) : Moved s c slot (s.takeEntry c slot former g w m).1 := by
  unfold State.takeEntry
  dsimp only
  split
  · exact .refl _ _ _
  · split
    · split
      · exact .updEntry s c slot former _ h fun _ => rfl
      · split
        · rename_i i hi
          exact .setEntry s c slot i _ (State.owns_free hi) rfl
        · have h1 := Moved.updThreads s c slot g (fun _ t => { t with mark := m }) fun _ _ => rfl
          have h2 := Moved.updEntry _ c slot former (fun e => { e with defer := e.defer ||| g }) (h1.owns former h) fun _ => rfl
          exact (h1.trans h2).trans (.rebalance _ c slot former ((h1.trans h2).owns former h))
    · split
      · rename_i i hi
        exact .setEntry s c slot i _ (State.owns_free hi) rfl
      · exact .refl _ _ _

theorem Moved.jump (s : State) (x : Ctx) (g : Word) (pc : BitVec 64) (h : s.owns x.core x.slot x.e) :
    Moved s x.core x.slot (s.jump x g pc) := by
  unfold State.jump State.goTo
  exact .threadsEntry s _ _ _ _ _ _ (fun _ _ => rfl) h fun _ => rfl

theorem Moved.passWaits (s : State) (c slot : Nat) (r : Option Nat) : Moved s c slot (s.passWaits c slot r) := by
  unfold State.passWaits
  dsimp only
  refine .foldl _ c slot _ s fun t ht e he => ?_
  have ho : t.owns c slot e := ht.owns e (State.owns_entriesOf he)
  split
  · rename_i j hj
    split
    · exact .refl _ _ _
    · rename_i hf
      split
      · cases hm : mapGet (t.core c).table e with
        | none => rw [Core.entry, mapGetD, hm] at hj; simp [Entry.fresh] at hj
        | some x =>
          have h1 := Moved.advance t c slot e 1 (State.slot_of_owns ho hm) (by simpa using hf)
          exact h1.trans (.updEntry _ c slot e _ (h1.owns e ho) fun _ => rfl)
      · exact .refl _ _ _
  · exact .refl _ _ _

theorem Moved.releaseJoin (s : State) (c slot former j : Nat) (f : Bool) (h : s.owns c slot former) :
    Moved s c slot (s.releaseJoin c slot former j f) := by
  unfold State.releaseJoin
  dsimp only
  split
  · exact .refl _ _ _
  · generalize mapGetD ((s.core c).band slot).arr j 0 &&& ((s.core c).band slot).live = g
    generalize mapGetD ((s.core c).band slot).arrPc j 0 = pc
    have h1 := Moved.updThreads s c slot g (fun _ t => { t with pc := pc, base := pc }) fun _ _ => rfl
    have h2 := h1.trans (.updThreads _ c slot g (fun _ t => { t with hold := .none, mark := .none }) fun _ _ => rfl)
    have h3 := h2.trans (.updBand _ c slot (fun b => { b with arr := mapDel b.arr j }) (fun _ => rfl) fun _ _ => rfl)
    have h4 := h3.trans (.takeEntry _ c slot former g .ready .none (h3.owns _ h))
    exact h4.trans (.passWaits _ c slot _)

theorem Moved.arriveJoin (s : State) (c slot e j : Nat) (after : BitVec 64) (h : ((s.core c).entry e).slot = slot) :
    Moved s c slot (s.arriveJoin c e j after) := by
  unfold State.arriveJoin
  dsimp only
  rw [h]
  have ho := State.owns_of_slot h
  have h1 := Moved.updThreads s c slot ((s.core c).entry e).lanes (fun _ t => { t with hold := .join, pc := after, base := after }) fun _ _ => rfl
  have h2 := h1.trans (.updBand _ c slot (fun b => { b with arr := mapSet b.arr j (mapGetD b.arr j 0 ||| ((s.core c).entry e).lanes), arrPc := mapSet b.arrPc j after, turn := none }) (fun _ => rfl) fun _ _ => rfl)
  have h3 := h2.trans (.updThreads _ c slot (mapGetD (((State.updBand (s.updThreads c slot ((s.core c).entry e).lanes fun _ t => { t with hold := .join, pc := after, base := after }) c slot
    (fun b => { b with arr := mapSet b.arr j (mapGetD b.arr j 0 ||| ((s.core c).entry e).lanes), arrPc := mapSet b.arrPc j after, turn := none })).core c).band slot).arr j 0) (fun _ t => { t with pc := after, base := after }) fun _ _ => rfl)
  have h4 := h3.trans (.updEntry _ c slot e (fun x => { x with lanes := 0, ctx := none }) (h3.owns _ ho) fun _ => rfl)
  have h5 := h4.trans (.releaseJoin _ c slot e j false (h4.owns _ ho))
  have h6 := h5.trans (.passWaits _ c slot none)
  exact h6.trans (.rebalance _ c slot e (h6.owns _ ho))

theorem Moved.releaseCalls (s : State) (c slot former : Nat) (h : s.owns c slot former) : Moved s c slot (s.releaseCalls c slot former) := by
  unfold State.releaseCalls
  dsimp only
  refine .foldl _ c slot _ s fun t ht l _ => ?_
  split
  · exact .refl _ _ _
  · generalize maskOf _ = g
    generalize Thread.pc _ = pc
    have h1 := Moved.updThreads t c slot g (fun _ t => { t with pc := pc, base := pc }) fun _ _ => rfl
    have h2 := h1.trans (.updThreads _ c slot g (fun _ t => { t with hold := .none, mark := .none }) fun _ _ => rfl)
    exact h2.trans (.takeEntry _ c slot former g .ready .none (h2.owns _ (ht.owns _ h)))

end Sys2Proof.Machine
end

