-- ==== Sys2Proof/Laws/Storage.lean ====
section
/-! SUPPORT. What leaves registers, the bytes at their home and exited threads alone: the operations of divergence, barriers,
phases, traps and ends. -/

-- One theorem at a time: the package compiles as one text, and a thread for each open proof asks for a stack of its own.
set_option Elab.async false

namespace Sys2Proof.Machine

theorem KeepsStorage.refl (s : State) : KeepsStorage s s :=
  ⟨fun _ => ⟨rfl, rfl, rfl, rfl, rfl, rfl, rfl⟩, fun _ _ => ⟨rfl, rfl, rfl, rfl⟩, fun _ _ => rfl, fun _ => rfl, fun _ _ _ h => h⟩

theorem KeepsStorage.trans {a b d : State} (h : KeepsStorage a b) (g : KeepsStorage b d) : KeepsStorage a d where
  files c := by have := h.files c; have := g.files c; simp_all
  banks c n := by have := h.banks c n; have := g.banks c n; simp_all
  succ c n := (g.succ c n).trans (h.succ c n)
  home pa := (g.home pa).trans (h.home pa)
  exited c n l x := g.exited c n l (h.exited c n l x)

theorem KeepsStorage.foldl {α : Type} {s a : State} {f : State → α → State} {ls : List α} (h : KeepsStorage s a)
    (hf : ∀ x b, KeepsStorage s x → KeepsStorage s (f x b)) : KeepsStorage s (ls.foldl f a) := by
  induction ls generalizing a with
  | nil => exact h
  | cons b ls ih => exact ih (hf _ _ h)

theorem KeepsStorage.ite {s t v : State} {p : Prop} [Decidable p] (h : KeepsStorage s t) (g : KeepsStorage s v) :
    KeepsStorage s (if p then t else v) := by split <;> assumption

/-- What changes only the parts of a state that hold no bytes. -/
theorem KeepsStorage.outer {s a t : State} (h : KeepsStorage s a) (hc : t.cores = a.cores) (hm : t.mem = a.mem) (hd : t.domes = a.domes) :
    KeepsStorage s t := by
  have hk : ∀ c, t.core c = a.core c := fun c => by simp only [State.core, hc]
  refine ⟨fun c => by rw [hk]; exact h.files c, fun c b => by rw [hk]; exact h.banks c b, fun c n => by rw [hk]; exact h.succ c n, fun pa => ?_, fun c b l x => by rw [hk]; exact h.exited c b l x⟩
  rw [← h.home]; simp only [State.homeByte, hm, hd]

theorem KeepsStorage.updCore {s a : State} {c : Nat} {f : Core → Core} (h : KeepsStorage s a)
    (hf : ∀ k, (f k).vrf = k.vrf ∧ (f k).srf = k.srf ∧ (f k).prf = k.prf ∧ (f k).scratch = k.scratch ∧ (f k).accs = k.accs ∧
      (f k).accStat = k.accStat ∧ (f k).tiles = k.tiles)
    (hb : ∀ k b, ((f k).band b).keepV = (k.band b).keepV ∧ ((f k).band b).keepS = (k.band b).keepS ∧
      ((f k).band b).keepP = (k.band b).keepP ∧ ((f k).band b).halted = (k.band b).halted)
    (ht : ∀ k n, ((f k).task n).succ = (k.task n).succ)
    (he : ∀ k b l, ((k.band b).thread l).exited = true → (((f k).band b).thread l).exited = true) : KeepsStorage s (a.updCore c f) := by
  refine h.trans ⟨fun d => ?_, fun d b => ?_, fun d n => ?_, fun _ => rfl, fun d b l h => ?_⟩
  · rw [State.core_updCore]; split
    · rename_i hd; subst hd; exact hf _
    · simp
  · rw [State.core_updCore]; split
    · rename_i hd; subst hd; exact hb _ _
    · simp
  · rw [State.core_updCore]; split
    · rename_i hd; subst hd; exact ht _ _
    · simp
  · rw [State.core_updCore]; split
    · rename_i hd; subst hd; exact he _ _ _ h
    · exact h

/-- A change of a core that leaves its bands and its storage alone. -/
theorem KeepsStorage.inCore {s a : State} {c : Nat} {f : Core → Core} (h : KeepsStorage s a)
    (hf : ∀ k, (f k).vrf = k.vrf ∧ (f k).srf = k.srf ∧ (f k).prf = k.prf ∧ (f k).scratch = k.scratch ∧ (f k).accs = k.accs ∧
      (f k).accStat = k.accStat ∧ (f k).tiles = k.tiles ∧ (f k).bands = k.bands ∧ (f k).tasks = k.tasks := by
        exact fun _ => ⟨rfl, rfl, rfl, rfl, rfl, rfl, rfl, rfl, rfl⟩) : KeepsStorage s (a.updCore c f) := by
  have hb : ∀ k b, (f k).band b = k.band b := fun k b => by simp only [Core.band, (hf k).2.2.2.2.2.2.2.1]
  exact h.updCore (fun k => by have := hf k; tauto) (fun k b => by rw [hb]; simp)
    (fun k n => by simp only [Core.task, (hf k).2.2.2.2.2.2.2.2]) fun k b l h => by rwa [hb]

theorem KeepsStorage.updBand {s a : State} {c slot : Nat} {f : Band → Band} (h : KeepsStorage s a)
    (hf : ∀ b, (f b).keepV = b.keepV ∧ (f b).keepS = b.keepS ∧ (f b).keepP = b.keepP ∧ (f b).halted = b.halted)
    (he : ∀ b l, (b.thread l).exited = true → ((f b).thread l).exited = true) : KeepsStorage s (a.updBand c slot f) := by
  refine h.updCore (fun _ => ⟨rfl, rfl, rfl, rfl, rfl, rfl, rfl⟩) (fun k b => ?_) (fun _ _ => rfl) fun k b l h => ?_
  · rw [Core.band_updBand]; split
    · rename_i hb; rw [hb.1]; exact hf _
    · simp
  · rw [Core.band_updBand]; split
    · rename_i hb; obtain ⟨rfl, -⟩ := hb; exact he _ _ h
    · exact h

/-- A change of a band that leaves its threads and its keep bank alone. -/
theorem KeepsStorage.inBand {s a : State} {c slot : Nat} {f : Band → Band} (h : KeepsStorage s a)
    (hf : ∀ b, (f b).keepV = b.keepV ∧ (f b).keepS = b.keepS ∧ (f b).keepP = b.keepP ∧ (f b).halted = b.halted ∧
      (f b).threads = b.threads := by exact fun _ => ⟨rfl, rfl, rfl, rfl, rfl⟩) :
    KeepsStorage s (a.updBand c slot f) :=
  h.updBand (fun b => by have := hf b; tauto) fun b l h => by rw [Band.thread, (hf b).2.2.2.2]; exact h

theorem KeepsStorage.updThreads {s a : State} {c slot : Nat} {m : Word} {f : Nat → Thread → Thread} (h : KeepsStorage s a)
    (hf : ∀ l y, y.exited = true → (f l y).exited = true := by exact fun _ _ h => h) : KeepsStorage s (a.updThreads c slot m f) := by
  rw [State.updThreads]
  refine h.updBand (fun _ => ⟨rfl, rfl, rfl, rfl⟩) fun b l h => ?_
  rw [Band.thread_updThreads]
  split
  · exact hf _ _ h
  · exact h

theorem KeepsStorage.updStood {s a : State} {c slot : Nat} {fr : Bool} {m : Word} {f : Nat → Thread → Thread} (h : KeepsStorage s a)
    (hf : ∀ l y, y.exited = true → (f l y).exited = true := by exact fun _ _ h => h) : KeepsStorage s (a.updStood c slot fr m f) := by
  unfold State.updStood
  split
  · exact h.inBand
  · exact h.updThreads hf

theorem KeepsStorage.updEntry {s a : State} {c e : Nat} {f : Entry → Entry} (h : KeepsStorage s a) : KeepsStorage s (a.updEntry c e f) :=
  h.inCore

theorem KeepsStorage.updTask {s a : State} {c t : Nat} {f : Task → Task} (h : KeepsStorage s a)
    (hf : ∀ x, (f x).succ = x.succ := by exact fun _ => rfl) : KeepsStorage s (a.updTask c t f) := by
  refine h.updCore (fun _ => ⟨rfl, rfl, rfl, rfl, rfl, rfl, rfl⟩) (fun _ _ => ⟨rfl, rfl, rfl, rfl⟩) (fun k n => ?_) fun _ _ _ h => h
  exact Core.task_updTask_key (·.succ) k t n f hf

theorem Task.succ_setBar (t : Task) (gid : Nat) (b : TaskBar) : (t.setBar gid b).succ = t.succ := by
  unfold Task.setBar; split
  · rfl
  · split <;> rfl

theorem KeepsStorage.updLaunch {s a : State} {l : Nat} {f : Launch → Launch} (h : KeepsStorage s a) : KeepsStorage s (a.updLaunch l f) :=
  h.outer rfl rfl rfl

theorem KeepsStorage.countAt {s a : State} {c n i : Nat} (h : KeepsStorage s a) : KeepsStorage s (a.countAt c n i) := h.outer rfl rfl rfl

theorem KeepsStorage.dropFlight {s a : State} {c id : Nat} (h : KeepsStorage s a) : KeepsStorage s (a.dropFlight c id) :=
  h.inCore

theorem KeepsStorage.launchFlight {s a : State} {c : Nat} {f : Flight} (h : KeepsStorage s a) : KeepsStorage s (a.launchFlight c f) :=
  h.inCore

theorem KeepsStorage.dropFlag {s a : State} {c slot : Nat} {f : Option Nat} (h : KeepsStorage s a) : KeepsStorage s (a.dropFlag c slot f) := by
  cases f with
  | none => exact h
  | some f => exact h.inBand

theorem KeepsStorage.addFlag {s a : State} {c slot f : Nat} (h : KeepsStorage s a) : KeepsStorage s (a.addFlag c slot f) :=
  h.inBand

theorem KeepsStorage.selfInvalidate {s a : State} {c : Nat} (h : KeepsStorage s a) : KeepsStorage s (a.selfInvalidate c) :=
  h.inCore

/-! ## Places of lanes -/

theorem KeepsStorage.advance {s a : State} {c e n : Nat} (h : KeepsStorage s a) : KeepsStorage s (a.advance c e n) := by
  unfold State.advance
  dsimp only
  exact h.updStood.updEntry

theorem KeepsStorage.resumeLanes {s a : State} {c e : Nat} {g : Word} (h : KeepsStorage s a) : KeepsStorage s (a.resumeLanes c e g) := by
  unfold State.resumeLanes
  dsimp only
  exact h.updThreads.updEntry

theorem KeepsStorage.rebalance {s a : State} {c e : Nat} (h : KeepsStorage s a) : KeepsStorage s (a.rebalance c e) := by
  unfold State.rebalance
  dsimp only
  split
  · exact h
  · refine .ite h (.ite (.ite h.resumeLanes (.ite (h.inCore) h)) (.ite ?_ h))
    exact h.updThreads.updEntry.resumeLanes

theorem KeepsStorage.takeEntry {s a : State} {c slot former : Nat} {g : Word} {w : Wait} {m : Mark} (h : KeepsStorage s a) :
    KeepsStorage s (a.takeEntry c slot former g w m).1 := by
  unfold State.takeEntry
  dsimp only
  split
  · exact h
  · split
    · split
      · dsimp only
        exact h.updEntry
      · split
        · dsimp only
          exact h.inCore
        · exact h.updThreads.updEntry.rebalance
    · split
      · dsimp only
        exact h.inCore
      · exact h

theorem KeepsStorage.passBlock {s a : State} {c slot : Nat} {g : Word} {n : Nat} {fr : Bool} (h : KeepsStorage s a) :
    KeepsStorage s (a.passBlock c slot g n fr) := by
  unfold State.passBlock
  dsimp only
  refine .foldl ?_ fun x e h => h.rebalance
  refine .inBand ?_
  refine .foldl ?_ fun x e h => h.advance.updEntry
  exact h.updStood

/-! ## Traps and ends -/

theorem Band.exited_mapAll {b b' : Band} {f : Nat → Thread → Thread} (e : b'.threads = mapAll b.threads f)
    (hf : ∀ l y, y.exited = true → (f l y).exited = true) (l : Nat) (h : (b.thread l).exited = true) : (b'.thread l).exited = true := by
  unfold Band.thread mapGetD at *
  rw [e, mapGet_mapAll]
  cases hm : mapGet b.threads l with
  | none => rfl
  | some y => rw [hm] at h; exact hf l y h

/-- A change of a band's threads, each in the same way. -/
theorem KeepsStorage.allThreads {s a : State} {c slot : Nat} {f : Band → Band} (g : Band → Nat → Thread → Thread) (h : KeepsStorage s a)
    (hf : ∀ b, (f b).keepV = b.keepV ∧ (f b).keepS = b.keepS ∧ (f b).keepP = b.keepP ∧ (f b).halted = b.halted ∧
      (f b).threads = mapAll b.threads (g b))
    (hg : ∀ b l y, y.exited = true → (g b l y).exited = true) : KeepsStorage s (a.updBand c slot f) :=
  h.updBand (fun b => by have := hf b; tauto) fun b l h => Band.exited_mapAll (hf b).2.2.2.2 (hg b) l h

theorem KeepsStorage.endTask {s a : State} {c t kind cause code : Nat} (h : KeepsStorage s a) : KeepsStorage s (a.endTask c t kind cause code) := by
  unfold State.endTask
  dsimp only
  refine .updTask (.foldl h fun x b h => ?_)
  refine .allThreads (fun _ _ t => { t with exited := true, parked := false, hold := .none, mark := .none }) ?_ (fun _ => ⟨rfl, rfl, rfl, rfl, rfl⟩) fun _ _ _ _ => rfl
  exact h.inCore

theorem KeepsStorage.withdrawMembers {s a : State} {c slot : Nat} (h : KeepsStorage s a) : KeepsStorage s (a.withdrawMembers c slot) := by
  unfold State.withdrawMembers
  dsimp only
  refine .inCore ?_
  exact .allThreads (fun b l t => if t.mark = .held && b.xop.any (·.arrived.getLsbD l) then { t with mark := .none } else t) h
    (fun _ => ⟨rfl, rfl, rfl, rfl, rfl⟩) fun b l y h => by split <;> exact h

theorem KeepsStorage.withdrawSigners {s a : State} {c slot : Nat} (h : KeepsStorage s a) : KeepsStorage s (a.withdrawSigners c slot) := by
  unfold State.withdrawSigners
  dsimp only
  refine .inCore ?_
  generalize List.foldl (fun m (p : Nat × Flight) => m ||| p.2.lanes) 0#32 _ = mine
  refine .allThreads (fun b l t => if t.mark = .held && mine.getLsbD l then { t with mark := .none } else t) ?_
    (fun _ => ⟨rfl, rfl, rfl, rfl, rfl⟩) fun b l y h => by split <;> exact h
  exact .updTask (.foldl h fun x p h => h.dropFlag.dropFlight)

theorem KeepsStorage.withdrawPops {s a : State} {c slot : Nat} (h : KeepsStorage s a) : KeepsStorage s (a.withdrawPops c slot) := by
  unfold State.withdrawPops
  refine .foldl h fun x p h => ?_
  dsimp only
  split
  · refine .foldl h.dropFlag.dropFlight fun x e h => ?_
    split
    · exact h.updThreads.updEntry
    · exact h
  · exact h

theorem KeepsStorage.withdrawOps {s a : State} {c slot : Nat} (h : KeepsStorage s a) : KeepsStorage s (a.withdrawOps c slot) := by
  unfold State.withdrawOps
  refine .foldl h fun x e h => ?_
  split
  · exact h.dropFlag
  · split
    · split
      · exact h.dropFlag.dropFlight
      · exact h
    · exact h
  · exact h

theorem KeepsStorage.enterKeep {s a : State} {c slot cause code : Nat} {trap : Option Nat} {kpc : BitVec 64} {klanes : Word}
    {kaddr : BitVec 64} (h : KeepsStorage s a) : KeepsStorage s (a.enterKeep c slot cause code trap kpc klanes kaddr) := by
  have h1 : KeepsStorage s ((((a.withdrawMembers c slot).withdrawSigners c slot).withdrawPops c slot).withdrawOps c slot) :=
    h.withdrawMembers.withdrawSigners.withdrawPops.withdrawOps
  rw [State.enterKeep_eq]
  dsimp only
  generalize (((a.withdrawMembers c slot).withdrawSigners c slot).withdrawPops c slot).withdrawOps c slot = b at *
  generalize ((b.core c).task ((b.core c).band slot).task).kvec = v
  have h2 : KeepsStorage s (b.updCore c fun k => { k with table := mapAll k.table fun _ e => e.freeze slot }) := h1.inCore
  have h3 : KeepsStorage s ((b.updCore c fun k => { k with table := mapAll k.table fun _ e => e.freeze slot }).updBand c slot fun b =>
      b.vectored cause code trap kpc klanes kaddr v) :=
    h2.allThreads (fun _ _ x => { x with pc := v, base := v, hold := .none, mark := .none, parked := false })
      (fun _ => ⟨rfl, rfl, rfl, rfl, rfl⟩) fun _ _ _ h => h
  exact .ite h3 h3.inCore

theorem KeepsStorage.takeTrap {s a : State} {c slot cause code : Nat} {trap : Option Nat} {kpc : BitVec 64} {klanes : Word}
    {kaddr : BitVec 64} (h : KeepsStorage s a) : KeepsStorage s (a.takeTrap c slot cause code trap kpc klanes kaddr) := by
  unfold State.takeTrap
  exact .ite h.countAt.endTask h.countAt.enterKeep

/-! ## Joins, calls, barriers, phases -/

theorem KeepsStorage.passWaits {s a : State} {c slot : Nat} {r : Option Nat} (h : KeepsStorage s a) : KeepsStorage s (a.passWaits c slot r) := by
  unfold State.passWaits
  refine .foldl h fun x e h => ?_
  dsimp only
  split
  · exact .ite h (.ite h.advance.updEntry h)
  · exact h

theorem KeepsStorage.goTo {s a : State} {c slot : Nat} {g : Word} {pc : BitVec 64} (h : KeepsStorage s a) : KeepsStorage s (a.goTo c slot g pc) := by
  unfold State.goTo
  exact h.updThreads

theorem KeepsStorage.releaseJoin {s a : State} {c slot former j : Nat} {f : Bool} (h : KeepsStorage s a) :
    KeepsStorage s (a.releaseJoin c slot former j f) := by
  unfold State.releaseJoin
  refine .ite h ?_
  exact .passWaits (.takeEntry (.inBand (.updThreads h.goTo)))

theorem KeepsStorage.releaseCalls {s a : State} {c slot former : Nat} (h : KeepsStorage s a) : KeepsStorage s (a.releaseCalls c slot former) := by
  unfold State.releaseCalls
  refine .foldl h fun x l h => .ite h (.takeEntry (.updThreads h.goTo))

theorem KeepsStorage.releaseBar {s a : State} {c t gid : Nat} (h : KeepsStorage s a) : KeepsStorage s (a.releaseBar c t gid) := by
  unfold State.releaseBar
  refine .foldl h fun x b h => .foldl h fun x e h => ?_
  dsimp only
  exact .ite (KeepsStorage.ite h.selfInvalidate h).advance.updEntry (.ite h.updEntry h)

theorem KeepsStorage.releaseClusters {s a : State} {l gid : Nat} {cl : List Nat} (h : KeepsStorage s a) :
    KeepsStorage s (a.releaseClusters l gid cl) := by
  unfold State.releaseClusters
  exact .foldl h fun x p h => h.releaseBar

theorem KeepsStorage.checkGroup {s a : State} {l gid : Nat} (h : KeepsStorage s a) : KeepsStorage s (a.checkGroup l gid) := by
  unfold State.checkGroup
  exact .ite h (.releaseClusters (.updLaunch (.foldl h fun x p h => h.updTask fun _ => Task.succ_setBar _ _ _)))

theorem KeepsStorage.countArrival {s a : State} {l gid t : Nat} (h : KeepsStorage s a) : KeepsStorage s (a.countArrival l gid t) := by
  unfold State.countArrival
  exact (KeepsStorage.ite h h.updLaunch).checkGroup

theorem KeepsStorage.checkBar {s a : State} {c t gid : Nat} (h : KeepsStorage s a) : KeepsStorage s (a.checkBar c t gid) := by
  unfold State.checkBar
  dsimp only
  split
  · exact h
  · exact .ite h (.ite (.ite h h.countArrival) (h.updTask fun _ => Task.succ_setBar _ _ _).releaseBar)

theorem KeepsStorage.arrived {s a : State} {c slot gid : Nat} {part lanes : Word} {phase : Nat} (h : KeepsStorage s a) :
    KeepsStorage s (a.arrived c slot gid part lanes phase) := by
  unfold State.arrived
  dsimp only
  exact (KeepsStorage.ite (h.updTask fun _ => Task.succ_setBar _ _ _) h).checkBar.releaseBar

theorem KeepsStorage.checkBars {s a : State} {c t : Nat} (h : KeepsStorage s a) : KeepsStorage s (a.checkBars c t) := by
  unfold State.checkBars
  exact .foldl h fun x g h => h.checkBar

theorem KeepsStorage.leaveGroups {s a : State} {c t : Nat} (h : KeepsStorage s a) : KeepsStorage s (a.leaveGroups c t) := by
  unfold State.leaveGroups
  exact .ite h (.foldl h.updLaunch fun x g h => h.countArrival)

theorem KeepsStorage.gather {s a : State} {c b : Nat} {f : Thread → BitVec 64 × BitVec 64} {x : Option Clause} (h : KeepsStorage s a) :
    KeepsStorage s (a.gather c b f x) := by
  unfold State.gather
  dsimp only
  split
  · exact h
  · exact .inCore h.updStood

theorem KeepsStorage.releasePhase {s a : State} {c t : Nat} (h : KeepsStorage s a) : KeepsStorage s (a.releasePhase c t) := by
  unfold State.releasePhase
  refine .foldl h.updTask fun x b h => ?_
  dsimp only
  split
  · exact h
  · exact h.advance.gather

theorem KeepsStorage.charge {s a : State} {cl n : Nat} (h : KeepsStorage s a) : KeepsStorage s (a.charge cl n) := h.outer rfl rfl rfl

theorem KeepsStorage.tryPhase {s a : State} {c t : Nat} (h : KeepsStorage s a) : KeepsStorage s (a.tryPhase c t) := by
  unfold State.tryPhase
  dsimp only
  split
  · exact h
  · refine .ite h (.ite (.ite ?_ ?_) ?_)
    · exact (KeepsStorage.ite (.ite h h.updLaunch) (KeepsStorage.ite h h.updLaunch).charge).updTask
    · exact (KeepsStorage.ite (.ite h h.updLaunch) (KeepsStorage.ite h h.updLaunch).charge).updTask.releasePhase
    · exact (KeepsStorage.ite h h.updLaunch).updTask.countAt

theorem KeepsStorage.trapMembers {s a : State} {c slot d : Nat} (h : KeepsStorage s a) : KeepsStorage s (a.trapMembers c slot d) := by
  unfold State.trapMembers
  dsimp only
  split
  · exact h
  · exact h.takeTrap

theorem KeepsStorage.trapLanes {s a : State} {c slot : Nat} {m : Word} {cause code : Nat} {ad : BitVec 64} (h : KeepsStorage s a) :
    KeepsStorage s (a.trapLanes c slot m cause code ad) := by
  unfold State.trapLanes
  dsimp only
  split
  · exact h
  · exact h.takeTrap

theorem KeepsStorage.trapSigners {s a : State} {c slot g cause code : Nat} {ad : BitVec 64} (h : KeepsStorage s a) :
    KeepsStorage s (a.trapSigners c slot g cause code ad) := by
  unfold State.trapSigners
  exact h.trapLanes

theorem KeepsStorage.closeMatrix {s a : State} {c t g cause code : Nat} {ad : BitVec 64} (h : KeepsStorage s a) :
    KeepsStorage s (a.closeMatrix c t g cause code ad) := by
  unfold State.closeMatrix
  dsimp only
  exact .updTask (.foldl (.foldl h fun x b h => h.trapSigners) fun x f h => h.dropFlag.dropFlight)

theorem KeepsStorage.checkEnd {s a : State} {c t : Nat} (h : KeepsStorage s a) : KeepsStorage s (a.checkEnd c t) := by
  unfold State.checkEnd
  refine .ite h ?_
  dsimp only
  exact .ite h.updTask h.updTask.leaveGroups

/-- What follows once lanes of a band are marked as exited. -/
def State.afterExit (s : State) (x : State) (c e : Nat) (g : Word) : State :=
  let k := x.core c
  let slot := (k.entry e).slot
  let b := k.band slot
  let t := b.task
  let s := s.updCore c fun k => { k with table := mapAll k.table fun _ x =>
    if x.slot = slot then { x with lanes := x.lanes &&& ~~~g, defer := x.defer &&& ~~~g } else x }
  let s := match b.xop with
    | some x => if x.mask &&& g = 0 then s else (s.trapMembers c slot 1).withdrawMembers c slot
    | none => s
  let s := (List.range 8).foldl (fun s i =>
    let r := mapGetD ((s.core c).task t).g i GReg.fresh
    if r.op.isSome && r.set.getLsbD b.index then s.closeMatrix c t i 7 1 0 else s) s
  let s := if ((s.core c).band slot).keep then s else
    let s := (List.range 16).foldl (fun s j => s.releaseJoin c slot e j false) s
    (s.passWaits c slot none).releaseCalls c slot e
  let s := ((s.core c).entriesOf slot).foldl (fun s i => s.rebalance c i) s
  let s := s.updBand c slot fun x => { x with turn := none }
  ((s.checkBars c t).tryPhase c t).checkEnd c t

theorem KeepsStorage.afterExit {s a : State} (x : State) {c e : Nat} {g : Word} (h : KeepsStorage s a) : KeepsStorage s (a.afterExit x c e g) := by
  unfold State.afterExit
  dsimp only
  refine .checkEnd (.tryPhase (.checkBars (.inBand (.foldl ?_ fun x i h => h.rebalance))))
  have h1 : KeepsStorage s (a.updCore c fun k => { k with table := mapAll k.table fun _ y =>
      if y.slot = ((x.core c).entry e).slot then { y with lanes := y.lanes &&& ~~~g, defer := y.defer &&& ~~~g } else y }) :=
    h.inCore
  refine .ite (.foldl ?_ fun x i h => .ite h.closeMatrix h)
    (.releaseCalls (.passWaits (.foldl (.foldl ?_ fun x i h => .ite h.closeMatrix h) fun x j h => h.releaseJoin)))
  all_goals
    split
    · exact .ite h1 h1.trapMembers.withdrawMembers
    · exact h1

/-- A band once lanes of it have exited. -/
def Band.leaving (g : Word) (x : Band) : Band :=
  { x.updThreads g fun _ y => { y with exited := true, parked := false, hold := .none, mark := .none } with
    frozen := mapAll x.frozen fun l y => if g.getLsbD l then { y with exited := true } else y }

theorem Band.thread_leaving (b : Band) (g : Word) (l : Nat) : (b.leaving g).thread l =
    if l ∈ lanesOf g then { b.thread l with exited := true, parked := false, hold := .none, mark := .none } else b.thread l :=
  Band.thread_updThreads b g (fun _ y => { y with exited := true, parked := false, hold := .none, mark := .none }) l

theorem State.exited_leaving (s : State) (c slot : Nat) {g : Word} {l : Nat} (hl : l ∈ lanesOf g) :
    (((s.updBand c slot (Band.leaving g)).core c).band slot |>.thread l).exited = true := by
  cases h : mapGet (s.core c).bands slot with
  | none =>
    rw [State.updBand, State.core_updCore_self, Core.band_updBand, if_neg (by simp [h]), Core.band, mapGetD, h]; rfl
  | some b =>
    rw [State.band_updBand_self _ _ _ _ (by simp [h]), Band.thread_leaving, if_pos hl]

theorem State.exitLanes_eq (s : State) (c e : Nat) (g : Word) (rel : Bool) : s.exitLanes c e g rel =
    ((if rel && g != 0 then s.launchFlight c ⟨((s.core c).entry e).slot, ((s.core c).task ((s.core c).band ((s.core c).entry e).slot).task).gen, g, none, .release .plain .none⟩
      else s).updBand c ((s.core c).entry e).slot (Band.leaving g)).afterExit s c e g := rfl

/-- Nothing is read differently once lanes have exited. -/
theorem KeepsStorage.exitLanes {s a : State} {c e : Nat} {g : Word} {rel : Bool} (h : KeepsStorage s a) :
    KeepsStorage s (a.exitLanes c e g rel) := by
  rw [State.exitLanes_eq]
  refine .afterExit a (.updBand (.ite h.launchFlight h) (fun _ => ⟨rfl, rfl, rfl, rfl⟩) fun b l h => ?_)
  rw [Band.thread_leaving]; split
  · rfl
  · exact h

/-- They have exited. -/
theorem State.exited_exitLanes (s : State) (c e : Nat) (g : Word) (rel : Bool) (l : Nat) (hl : l ∈ lanesOf g) :
    (((s.exitLanes c e g rel).core c).band ((s.core c).entry e).slot |>.thread l).exited = true := by
  rw [State.exitLanes_eq]
  refine (KeepsStorage.afterExit s (.refl _)).exited _ _ _ ?_
  exact State.exited_leaving _ _ _ hl

theorem KeepsStorage.exitBand {s a : State} {c slot : Nat} {rel halt : Bool}
    (h : KeepsStorage s (a.updBand c slot fun b => { b with halted := b.halted || halt })) : KeepsStorage s (a.exitBand c slot rel halt) := by
  unfold State.exitBand
  exact h.exitLanes.inCore

/-- A band all of whose live lanes have exited has no live lane. -/
theorem State.exited_all {s t : State} {c slot : Nat} (h : KeepsStorage s t)
    (hl : ∀ l ∈ lanesOf ((s.core c).band slot).live, (((t.core c).band slot).thread l).exited = true) :
    ∀ l < 32, (((t.core c).band slot).thread l).exited = true := by
  intro l hlt
  by_cases he : (((s.core c).band slot).thread l).exited = true
  · exact h.exited _ _ _ he
  · refine hl l ?_
    rw [Band.live, mem_lanesOf_maskOf fun l hl => lanesOf_lt (List.mem_of_mem_filter hl), List.mem_filter, mem_lanesOf]
    refine ⟨?_, by simpa using he⟩
    have : ∀ l < 32, allLanes.getLsbD l = true := by decide
    exact this l hlt

theorem State.exited_exitBand (s : State) (c slot : Nat) (rel halt : Bool) (he : ((s.core c).entry (256 + slot)).slot = slot) :
    ∀ l < 32, (((s.exitBand c slot rel halt).core c).band slot |>.thread l).exited = true := by
  have h0 : KeepsStorage (s.updBand c slot fun b => { b with halted := b.halted || halt }) (s.exitBand c slot rel halt) := .exitBand (.refl _)
  have h2 : ∀ m : State, m = (s.updBand c slot fun b => { b with halted := b.halted || halt }) →
      ((m.core c).entry (256 + slot)).slot = slot ∧ ((m.core c).band slot).live = ((s.core c).band slot).live := by
    rintro m rfl
    refine ⟨?_, ?_⟩
    · rw [Core.entry, State.table_updBand]; exact he
    · refine State.band_updBand_proj (·.live) s c slot _ (fun _ => ?_) c slot
      rfl
  unfold State.exitBand at h0 ⊢
  dsimp only at h0 ⊢
  generalize (s.updBand c slot fun b => { b with halted := b.halted || halt }) = m at *
  obtain ⟨h3, h4⟩ := h2 m rfl
  refine State.exited_all h0 fun l hl => ?_
  rw [State.core_updCore_self]
  rw [h4] at hl
  have h1 := State.exited_exitLanes m c (256 + slot) ((s.core c).band slot).live rel l hl
  rw [h3] at h1
  generalize m.exitLanes c (256 + slot) ((s.core c).band slot).live rel = r at *
  exact h1

end Sys2Proof.Machine
end

