-- ==== Sys2Proof/Laws/Places.lean ====
section
/-! SUPPORT. The places of lanes: the entry of a sub-band that issued, and what taking an entry comes to. -/

-- One theorem at a time: the package compiles as one text, and a thread for each open proof asks for a stack of its own.
set_option Elab.async false

namespace Sys2Proof.Machine

/-- What issues stands. -/
theorem State.stands_of_issues {s : State} {u : Cursor} {i : Instr} {q : Shape} (h : s.issues u i q = true) : s.stands u = true := by
  simp only [State.issues, Bool.and_eq_true] at h; exact h.1.1.1

/-- An instruction whose effect is a trap at it. -/
theorem issue_trap {s : State} {u : Cursor} {i : Instr} {q : Shape} (h : s.issues u i q = true) (f : Ctx → State → Res) {cause code : Nat}
    {addr : BitVec 64} (hf : f (s.seen u i q) (s.passed u i q) = .trap cause code addr) :
    ∃ t, issue i q f s = .next t ∧ (s.begun u i q).Traps u.core u.slot cause code (s.seen u i q).pc (s.seen u i q).lanes addr t := by
  refine ⟨_, issue_of_issues h _, ?_⟩
  rw [hf]
  dsimp only [State.trapHere]
  rw [State.seen_core, State.seen_slot]
  exact State.traps _ _ _ _ _ _ _ _ _ (State.placed_begun s u i q (State.stands_of_issues h))

/-- An instruction whose lanes stay at it. -/
theorem issue_stay {s : State} {u : Cursor} {i : Instr} {q : Shape} (h : s.issues u i q = true) (f : Ctx → State → Res) {g : State → State}
    (hf : f (s.seen u i q) (s.passed u i q) = .stay g) : issue i q f s = .next (g (s.begun u i q)) := by
  rw [issue_of_issues h, hf]

/-- The entry of a sub-band past its instruction. -/
theorem State.passed_entry {s : State} {u : Cursor} (i : Instr) (q : Shape) (h : s.stands u = true) :
    let z := ((s.passed u i q).core u.core).entry u.entry
    let y := (s.core u.core).entry u.entry
    z.slot = u.slot ∧ z.lanes = y.lanes ∧ z.frozen = false ∧ z.wait = y.wait ∧ z.lanes ≠ 0 := by
  have h2 := (s.slot_passed u i q h).entry
  simp only [State.stands, Bool.and_eq_true, Bool.not_eq_true', bne_iff_ne, ne_eq, beq_iff_eq] at h
  dsimp only at h2 ⊢
  obtain ⟨a, b, c, d, e, f⟩ := h2
  exact ⟨c.trans h.1.1.2, a, d.trans h.2, e, by rw [a]; exact h.1.2⟩

theorem State.begun_entry {s : State} {u : Cursor} (i : Instr) (q : Shape) (h : s.stands u = true) :
    let z := ((s.begun u i q).core u.core).entry u.entry
    let y := (s.core u.core).entry u.entry
    z.slot = u.slot ∧ z.lanes = y.lanes ∧ z.frozen = false ∧ z.wait = y.wait := by
  have h2 := (s.slot_begun u i q h).entry
  simp only [State.stands, Bool.and_eq_true, Bool.not_eq_true', bne_iff_ne, ne_eq, beq_iff_eq] at h
  dsimp only at h2 ⊢
  obtain ⟨a, b, c, d, e, f⟩ := h2
  exact ⟨c.trans h.1.1.2, a, d.trans h.2, e⟩

theorem State.owns_passed {s : State} {u : Cursor} (i : Instr) (q : Shape) (h : s.stands u = true) : (s.passed u i q).owns u.core u.slot u.entry :=
  State.owns_of_slot (State.passed_entry i q h).1

/-! ## Taking an entry (R71) -/

theorem State.takeEntry_free {s : State} {c slot former : Nat} {g : Word} {w : Wait} {m : Mark} {f : Entry} (hf : mapGet (s.core c).table former = some f)
    (hl : f.lanes ≠ 0) (hg : g ≠ 0) {i : Nat} (hi : (s.core c).freeEntry = some i) :
    (s.takeEntry c slot former g w m).1 = s.updCore c fun k => { k with table := mapSet k.table i { Entry.fresh with slot := slot, lanes := g, wait := w, frozen := f.frozen } } := by
  have he : (s.core c).entry former = f := by rw [Core.entry, mapGetD, hf]; rfl
  unfold State.takeEntry
  dsimp only
  rw [if_neg hg, hf]
  dsimp only
  rw [if_neg (by rw [Bool.and_eq_true, decide_eq_true_eq, decide_eq_true_eq]; exact fun h => hl h.2), hi]
  dsimp only
  rw [he]

theorem State.rebalance_runs {s : State} {c e : Nat} {f : Entry} (hf : mapGet (s.core c).table e = some f) (hl : f.lanes ≠ 0) (hw : f.wait.blocks = false) :
    s.rebalance c e = s := by
  unfold State.rebalance
  dsimp only
  rw [hf]
  dsimp only
  split
  · rfl
  · rw [hw]; simp

theorem State.takeEntry_defer {s : State} {c slot former : Nat} {g : Word} {w : Wait} {m : Mark} {f : Entry} (hf : mapGet (s.core c).table former = some f)
    (hl : f.lanes ≠ 0) (hg : g ≠ 0) (hw : f.wait.blocks = false) (hi : (s.core c).freeEntry = none) :
    (s.takeEntry c slot former g w m).1 = (s.updThreads c slot g fun _ t => { t with mark := m }).updEntry c former fun e => { e with defer := e.defer ||| g } := by
  unfold State.takeEntry
  dsimp only
  rw [if_neg hg, hf]
  dsimp only
  rw [if_neg (by rw [Bool.and_eq_true, decide_eq_true_eq, decide_eq_true_eq]; exact fun h => hl h.2), hi]
  dsimp only
  refine State.rebalance_runs (f := { f with defer := f.defer ||| g }) ?_ hl hw
  rw [State.updEntry, State.core_updCore_self]
  simp only [Core.updEntry, mapGet_mapUpd, if_true]
  rw [State.updThreads, State.table_updBand, hf]; rfl

theorem State.takeEntry_former {s : State} {c slot former : Nat} {g : Word} {w : Wait} {m : Mark} {f : Entry} (hf : mapGet (s.core c).table former = some f)
    (hl : f.lanes = 0) (hg : g ≠ 0) (hs : f.slot = slot) :
    (s.takeEntry c slot former g w m).1 = s.updEntry c former fun e => { e with lanes := g, wait := w, ctx := none, age := 0, skipBp := false } := by
  unfold State.takeEntry
  dsimp only
  rw [if_neg hg, hf]
  dsimp only
  rw [if_pos (by simp [hl, hs])]

theorem Core.entry_of {k : Core} {e : Nat} {f : Entry} (h : mapGet k.table e = some f) : k.entry e = f := by rw [Core.entry, mapGetD, h]; rfl
theorem Core.get_entry {k : Core} {e : Nat} (h : (mapGet k.table e).isSome = true) : mapGet k.table e = some (k.entry e) := by
  obtain ⟨x, hx⟩ := Option.isSome_iff_exists.1 h
  rw [Core.entry_of hx, hx]

/-- Lanes resumed in an entry (R76). -/
theorem State.resumeLanes_spec {s : State} {c slot e : Nat} {x : Entry} (g : Word) (ht : mapGet (s.core c).table e = some x) (hs : x.slot = slot)
    (hp : (mapGet (s.core c).bands slot).isSome = true) :
    ((s.resumeLanes c e g).core c).entry e = { x with lanes := g, defer := x.defer &&& ~~~g, wait := .ready, ctx := none, age := 0 } ∧
    ∀ l, (((s.resumeLanes c e g).core c).band slot).thread l =
      if l ∈ lanesOf g then (((s.core c).band slot).thread l).unmarked else ((s.core c).band slot).thread l := by
  have he := Core.entry_of ht
  unfold State.resumeLanes
  dsimp only
  rw [he, hs]
  refine ⟨?_, fun l => ?_⟩
  · rw [State.entry_updEntry_self _ _ _ _ (by rw [State.tabled_updThreads, ht]; rfl), State.updThreads, Core.entry, State.table_updBand, ← Core.entry, he, hs]
  · rw [State.band_updEntry, State.updThreads, State.band_updBand_self _ _ _ _ hp, Band.thread_updThreads]; rfl

theorem State.threads_updBand (s : State) (c b : Nat) (f : Band → Band) (d e : Nat) (hf : ∀ x, (f x).threads = x.threads) :
    (((s.updBand c b f).core d).band e).threads = ((s.core d).band e).threads := State.band_updBand_proj (·.threads) s c b f hf d e

theorem Core.resumeGroup_congr (k k' : Core) (e : Entry) (h : k.band e.slot = k'.band e.slot) : k.resumeGroup e = k'.resumeGroup e := by
  unfold Core.resumeGroup Core.resumable
  rw [h]

/-! ## Tasks stay placed over an issue -/

theorem State.hasTask_updCore (s : State) (c : Nat) (f : Core → Core) (n : Nat)
    (h : ∀ k, (mapGet (f k).tasks n).isSome = (mapGet k.tasks n).isSome) (d : Nat) :
    (mapGet ((s.updCore c f).core d).tasks n).isSome = (mapGet (s.core d).tasks n).isSome := by
  rw [State.core_updCore]
  split
  · exact h _
  · rfl

theorem State.hasTask_foldl {α : Type} (f : State → α → State) (d n : Nat)
    (hf : ∀ s a, (mapGet ((f s a).core d).tasks n).isSome = (mapGet (s.core d).tasks n).isSome) (l : List α) (s : State) :
    (mapGet ((l.foldl f s).core d).tasks n).isSome = (mapGet (s.core d).tasks n).isSome := by
  induction l generalizing s with
  | nil => rfl
  | cons a l ih => rw [List.foldl_cons, ih, hf]

theorem State.hasTask_updBand (s : State) (c b : Nat) (f : Band → Band) (d n : Nat) :
    (mapGet ((s.updBand c b f).core d).tasks n).isSome = (mapGet (s.core d).tasks n).isSome :=
  State.hasTask_updCore s c (·.updBand b f) n (fun _ => rfl) d

theorem State.hasTask_updEntry (s : State) (c b : Nat) (f : Entry → Entry) (d n : Nat) :
    (mapGet ((s.updEntry c b f).core d).tasks n).isSome = (mapGet (s.core d).tasks n).isSome :=
  State.hasTask_updCore s c (·.updEntry b f) n (fun _ => rfl) d

theorem State.hasTask_begun (s : State) (u : Cursor) (i : Instr) (q : Shape) (d n : Nat) :
    (mapGet ((s.begun u i q).core d).tasks n).isSome = (mapGet (s.core d).tasks n).isSome := by
  rw [State.begun, State.beginIssue, State.countAt]
  dsimp only
  rw [State.core_count, State.hasTask_updCore _ _ _ _ (fun k => ?_), State.hasTask_updEntry, State.hasTask_updBand, State.updThreads,
    State.hasTask_updBand]
  · unfold State.ageBand
    rw [State.hasTask_foldl]
    · unfold State.commit
      dsimp only
      rw [State.hasTask_foldl, State.hasTask_updBand]
      · unfold State.clockTo
        split
        · rfl
        · rw [State.core_cycle]
          exact State.hasTask_foldl _ _ _ (fun s' p => by rw [State.core_count]) _ _
      · intro s x
        rw [State.raise, State.hasTask_updBand, State.hasTask_updCore]
        intro k
        have : (k.writeLocs u.slot x.gen x.writes).tasks = k.tasks := by
          generalize x.writes = ps
          induction ps generalizing k with
          | nil => rfl
          | cons p ps ih => rw [Core.writeLocs, List.foldl_cons, ← Core.writeLocs, ih,
              Core.writeLoc_part (·.tasks) (fun _ _ => rfl) (fun _ _ => rfl) (fun _ _ => rfl) (fun _ _ => rfl)]
        rw [this]
    · intro s e
      dsimp only
      split
      · rfl
      · rw [State.hasTask_updEntry]
  · have h : ∀ (k : Core) (t : Nat) (f : Task → Task), (mapGet (k.updTask t f).tasks n).isSome = (mapGet k.tasks n).isSome := by
      intro k t f
      simp only [Core.updTask, mapGet_mapUpd]
      split
      · rename_i h; subst h; cases mapGet k.tasks n <;> rfl
      · rfl
    rw [h]
    split <;> rfl

theorem State.hasTask_passed (s : State) (u : Cursor) (i : Instr) (q : Shape) (d n : Nat) :
    (mapGet ((s.passed u i q).core d).tasks n).isSome = (mapGet (s.core d).tasks n).isSome := by
  rw [State.passed, State.advance]
  dsimp only
  rw [State.hasTask_updEntry, State.updStood]
  split
  · rw [State.hasTask_updBand, State.hasTask_begun]
  · rw [State.updThreads, State.hasTask_updBand, State.hasTask_begun]

end Sys2Proof.Machine
end

