-- ==== Sys2Proof/Laws/Waits.lean ====
section
/-! SUPPORT. Sub-bands that wait at their instruction. -/

-- One theorem at a time: the package compiles as one text, and a thread for each open proof asks for a stack of its own.
set_option Elab.async false

namespace Sys2Proof.Machine

variable {s t : State} {u : Cursor} {i : Instr} {q : Shape} {w : Wait}

theorem MemSame.begun (s : State) (u : Cursor) (i : Instr) (q : Shape) : MemSame s (s.begun u i q) := by
  rw [State.begun]; exact MemSame.beginIssue s u i q.uni q.d

theorem State.outside_begun (s : State) (u : Cursor) (i : Instr) (q : Shape) : (s.begun u i q).outside = s.outside := by
  rw [State.begun, State.outside_beginIssue]

theorem State.part_updEntry {β : Type} (p : Core → β) (hT : ∀ k x, p { k with table := x } = p k) (s : State) (c e : Nat)
    (g : Entry → Entry) (d : Nat) : p ((s.updEntry c e g).core d) = p (s.core d) := by
  rw [State.updEntry, State.core_updCore]
  split
  · exact hT _ _
  · rfl

theorem State.part_updTask {β : Type} (p : Core → β) (hT : ∀ k x, p { k with tasks := x } = p k) (s : State) (c e : Nat)
    (g : Task → Task) (d : Nat) : p ((s.updTask c e g).core d) = p (s.core d) := by
  rw [State.updTask, State.core_updCore]
  split
  · exact hT _ _
  · rfl

theorem KeepsRegs.updEntry (s : State) (c e : Nat) (g : Entry → Entry) (c' slot : Nat) (ls : List Loc) :
    KeepsRegs s (s.updEntry c e g) c' slot ls := fun d b gen l _ => by
  unfold State.reg
  exact State.part_updEntry (fun k => k.readLoc b gen l) (fun _ _ => by cases l <;> rfl) s c e g d

theorem KeepsRegs.updTask (s : State) (c e : Nat) (g : Task → Task) (c' slot : Nat) (ls : List Loc) :
    KeepsRegs s (s.updTask c e g) c' slot ls := fun d b gen l _ => by
  unfold State.reg
  exact State.part_updTask (fun k => k.readLoc b gen l) (fun _ _ => by cases l <;> rfl) s c e g d

theorem State.tabled_begun (h : s.stands u = true) : (mapGet ((s.begun u i q).core u.core).table u.entry).isSome = true := by
  have := State.tabled_passed s u i q u.entry u.core
  rw [State.passed, State.tabled_advance] at this
  rw [this]; exact (State.stands_parts h).2.2.1

/-- Its sub-band waits at an instruction. -/
theorem waits_entry (h : s.stands u = true) (w : Wait) :
    s.Waits u i q w ((s.begun u i q).updEntry u.core u.entry fun e => { e with wait := w }) where
  entry := State.entry_updEntry_self _ _ _ _ (State.tabled_begun h)
  entries c e he := State.entry_updEntry_ne _ _ _ _ _ _ he
  threads c b := by rw [State.band_updEntry]
  frozen c b := by rw [State.band_updEntry]
  regs := KeepsRegs.updEntry _ _ _ _ _ _ _
  memory := ((MemSame.begun s u i q).trans (MemSame.updEntry _ _ _ _)).keeps
  outside := by rw [State.outside_updEntry, State.outside_begun]

/-- What else happens to the band, but to its threads and its keep bank. -/
theorem State.Waits.updBand (h : s.Waits u i q w t) (c slot : Nat) (f : Band → Band) (ht : ∀ b, (f b).threads = b.threads := by intro; rfl)
    (hf : ∀ b, (f b).frozen = b.frozen := by intro; rfl) (hv : ∀ b, (f b).keepV = b.keepV := by intro; rfl)
    (hs : ∀ b, (f b).keepS = b.keepS := by intro; rfl) (hp : ∀ b, (f b).keepP = b.keepP := by intro; rfl) :
    s.Waits u i q w (t.updBand c slot f) where
  entry := by rw [Core.entry, State.table_updBand]; exact h.entry
  entries d e he := by rw [Core.entry, State.table_updBand]; exact h.entries d e he
  threads d b := (State.band_updBand_proj (·.threads) t c slot f ht d b).trans (h.threads d b)
  frozen d b := (State.band_updBand_proj (·.frozen) t c slot f hf d b).trans (h.frozen d b)
  regs := h.regs.trans (KeepsRegs.updBand t c slot f hv hs hp _ _ _)
  memory := h.memory.trans (MemSame.updBand _ _ _ _).keeps
  outside := (State.outside_updBand _ _ _ _).trans h.outside

/-- To a task. -/
theorem State.Waits.updTask (h : s.Waits u i q w t) (c n : Nat) (f : Task → Task) : s.Waits u i q w (t.updTask c n f) where
  entry := (State.part_updTask (·.entry u.entry) (fun _ _ => rfl) t c n f _).trans h.entry
  entries d e he := (State.part_updTask (·.entry e) (fun _ _ => rfl) t c n f d).trans (h.entries d e he)
  threads d b := (State.part_updTask (fun k => (k.band b).threads) (fun _ _ => rfl) t c n f d).trans (h.threads d b)
  frozen d b := (State.part_updTask (fun k => (k.band b).frozen) (fun _ _ => rfl) t c n f d).trans (h.frozen d b)
  regs := h.regs.trans (KeepsRegs.updTask t c n f _ _ _)
  memory := h.memory.trans (MemSame.updTask _ _ _ _).keeps
  outside := (State.outside_updTask _ _ _ _).trans h.outside

/-- An operation starts. -/
theorem State.Waits.launchFlight (h : s.Waits u i q w t) (c : Nat) (f : Flight) : s.Waits u i q w (t.launchFlight c f) where
  entry := (State.part_launchFlight (·.entry u.entry) (fun _ _ _ => rfl) t c f _).trans h.entry
  entries d e he := (State.part_launchFlight (·.entry e) (fun _ _ _ => rfl) t c f d).trans (h.entries d e he)
  threads d b := (State.part_launchFlight (fun k => (k.band b).threads) (fun _ _ _ => rfl) t c f d).trans (h.threads d b)
  frozen d b := (State.part_launchFlight (fun k => (k.band b).frozen) (fun _ _ _ => rfl) t c f d).trans (h.frozen d b)
  regs := h.regs.trans (KeepsRegs.launchFlight t c f _ _ _)
  memory := h.memory.trans (MemSame.launchFlight _ _ _).keeps
  outside := (State.outside_launchFlight _ _ _).trans h.outside

/-- The entry of a sub-band and what happens to its band, in either order. -/
theorem State.updBand_updEntry (s : State) (c b e : Nat) (f : Band → Band) (g : Entry → Entry) :
    (s.updBand c b f).updEntry c e g = (s.updEntry c e g).updBand c b f := by
  rw [State.updBand, State.updEntry, State.updEntry, State.updBand, State.updCore_updCore, State.updCore_updCore]; rfl

theorem State.updTask_updEntry (s : State) (c n e : Nat) (f : Task → Task) (g : Entry → Entry) :
    (s.updTask c n f).updEntry c e g = (s.updEntry c e g).updTask c n f := by
  rw [State.updTask, State.updEntry, State.updEntry, State.updTask, State.updCore_updCore, State.updCore_updCore]; rfl

theorem State.launchFlight_updEntry (s : State) (c e : Nat) (f : Flight) (g : Entry → Entry) :
    (s.launchFlight c f).updEntry c e g = (s.updEntry c e g).launchFlight c f := by
  rw [State.launchFlight, State.updEntry, State.updEntry, State.launchFlight, State.updCore_updCore, State.updCore_updCore]; rfl

/-- A task that a core has, updated. -/
theorem State.task_updTask_self (s : State) (c n : Nat) (f : Task → Task) (h : (mapGet (s.core c).tasks n).isSome = true) :
    ((s.updTask c n f).core c).task n = f ((s.core c).task n) := by
  rw [State.updTask, State.core_updCore_self]
  obtain ⟨x, hx⟩ := Option.isSome_iff_exists.1 h
  simp [Core.updTask, Core.task, mapGetD, mapGet_mapUpd, hx]

theorem KeepsMemory.refl (s : State) : KeepsMemory s s := (MemSame.refl s).keeps

theorem KeepsAll.refl (s : State) : KeepsAll s s := ⟨fun _ _ => KeepsRegs.refl _ _ _ _, ⟨fun _ => rfl, fun _ _ => rfl, fun _ _ => rfl⟩,
  KeepsMemory.refl s, rfl⟩

theorem KeepsAll.trans {a b d : State} (h : KeepsAll a b) (g : KeepsAll b d) : KeepsAll a d :=
  ⟨fun c n => (h.regs c n).trans (g.regs c n), h.threads.trans g.threads, h.memory.trans g.memory, g.outside.trans h.outside⟩

theorem KeepsAll.updTask (s : State) (c n : Nat) (f : Task → Task) : KeepsAll s (s.updTask c n f) where
  regs _ _ := KeepsRegs.updTask _ _ _ _ _ _ _
  threads := ⟨fun d => State.part_updTask (·.table) (fun _ _ => rfl) s c n f d,
    fun d b => State.part_updTask (fun k => (k.band b).threads) (fun _ _ => rfl) s c n f d,
    fun d b => State.part_updTask (fun k => (k.band b).frozen) (fun _ _ => rfl) s c n f d⟩
  memory := (MemSame.updTask _ _ _ _).keeps
  outside := State.outside_updTask _ _ _ _

theorem KeepsAll.launchFlight (s : State) (c : Nat) (f : Flight) : KeepsAll s (s.launchFlight c f) where
  regs _ _ := KeepsRegs.launchFlight _ _ _ _ _ _
  threads := KeepsThreads.launchFlight _ _ _
  memory := (MemSame.launchFlight _ _ _).keeps
  outside := State.outside_launchFlight _ _ _

theorem KeepsAll.updBand (s : State) (c slot : Nat) (f : Band → Band) (ht : ∀ b, (f b).threads = b.threads := by intro; rfl)
    (hf : ∀ b, (f b).frozen = b.frozen := by intro; rfl) (hv : ∀ b, (f b).keepV = b.keepV := by intro; rfl)
    (hs : ∀ b, (f b).keepS = b.keepS := by intro; rfl) (hp : ∀ b, (f b).keepP = b.keepP := by intro; rfl) :
    KeepsAll s (s.updBand c slot f) where
  regs _ _ := KeepsRegs.updBand _ _ _ _ hv hs hp _ _ _
  threads := KeepsThreads.updBand _ _ _ _ ht hf
  memory := (MemSame.updBand _ _ _ _).keeps
  outside := State.outside_updBand _ _ _ _

/-- What waits over a state that differs from what the instruction met as `KeepsAll` says. -/
theorem KeepsAll.waits {m : State} (h : KeepsAll (s.begun u i q) m) (hs : s.stands u = true) (w : Wait) :
    s.Waits u i q w (m.updEntry u.core u.entry fun e => { e with wait := w }) where
  entry := by
    have ht : (mapGet (m.core u.core).table u.entry).isSome = true := by rw [h.threads.table]; exact State.tabled_begun hs
    rw [State.entry_updEntry_self _ _ _ _ ht, Core.entry, h.threads.table]; rfl
  entries c e he := by rw [State.entry_updEntry_ne _ _ _ _ _ _ he, Core.entry, h.threads.table]; rfl
  threads c b := by rw [State.band_updEntry]; exact h.threads.threads c b
  frozen c b := by rw [State.band_updEntry]; exact h.threads.frozen c b
  regs := (h.regs _ _).trans (KeepsRegs.updEntry _ _ _ _ _ _ _)
  memory := ((MemSame.begun s u i q).keeps.trans h.memory).trans (MemSame.updEntry _ _ _ _).keeps
  outside := by rw [State.outside_updEntry, h.outside, State.outside_begun]

theorem KeepsSystem.refl (s : State) : KeepsSystem s s :=
  ⟨fun _ _ => ⟨rfl, rfl, rfl, rfl, rfl, rfl, rfl, rfl, rfl, rfl, rfl, rfl, rfl, rfl⟩, fun _ => rfl, fun _ => ⟨rfl, rfl, rfl⟩⟩

theorem KeepsSystem.updEntry (s : State) (c e : Nat) (g : Entry → Entry) : KeepsSystem s (s.updEntry c e g) where
  band d b := by rw [State.band_updEntry]; exact (KeepsSystem.refl s).band d b
  task d := State.part_updEntry (·.tasks) (fun _ _ => rfl) s c e g d
  matrix d := ⟨State.part_updEntry (·.accs) (fun _ _ => rfl) s c e g d, State.part_updEntry (·.accStat) (fun _ _ => rfl) s c e g d,
    State.part_updEntry (·.tiles) (fun _ _ => rfl) s c e g d⟩

/-- Going past an instruction leaves the rest of a core alone. -/
theorem State.part_passed {β : Type} (p : Core → β) (hT : ∀ k x, p { k with table := x } = p k) (hB : ∀ k x, p { k with bands := x } = p k)
    (s : State) (u : Cursor) (i : Instr) (q : Shape) (d : Nat) : p ((s.passed u i q).core d) = p ((s.begun u i q).core d) := by
  rw [State.passed, State.advance]
  dsimp only
  rw [State.part_updEntry p hT, State.updStood]
  split
  · rw [State.part_updBand p hB]
  · rw [State.updThreads, State.part_updBand p hB]

theorem State.openPhase_passed (s : State) (u : Cursor) (i : Instr) (q : Shape) (c t g : Nat) :
    (s.passed u i q).openPhase c t g = (s.begun u i q).openPhase c t g := by
  have ho := congrArg (fun x : State => x.launches) ((State.outside_passed s u i q).trans (State.outside_begun s u i q).symm)
  have hl : (s.passed u i q).launches = (s.begun u i q).launches := ho
  have ht : ((s.passed u i q).core c).task t = ((s.begun u i q).core c).task t := State.part_passed (·.task t) (fun _ _ => rfl) (fun _ _ => rfl) _ _ _ _ _
  unfold State.openPhase State.launch
  rw [hl, ht]

/-- Results in place over a state. -/
theorem State.puts (m : State) (c slot : Nat) (gen : BitVec 16) (ps : List (Loc × Word)) (hd : Distinct ps)
    (hp : ∀ p ∈ ps, p.1.shared = true ∨ (mapGet (m.core c).bands slot).isSome = true ∨ p.1 = .nowhere) :
    m.Puts c slot gen ps (m.writeNow c slot gen ps) where
  result p h := State.readLoc_writeNow m c slot gen ps p h hd (hp p h)
  regs := KeepsRegs.writeNow m c slot gen ps
  system := KeepsSystem.writeNow m c slot gen ps
  threads := KeepsThreads.writeNow m c slot gen ps
  memory := (MemSame.writeNow m c slot gen ps).keeps
  outside := State.outside_writeNow _ _ _ _ _

/-- Older loads that a later access does not touch are left alone. -/
theorem State.sampleOlder_clear (s : State) (c slot pd before : Nat) (l : List LAcc) (n : Nat) (h : (s.core c).clearOf slot l n) :
    s.sampleOlder c slot pd before l n = s := by
  unfold State.sampleOlder
  have key : ∀ ks : List (Nat × Flight), (∀ f ∈ ks, f ∈ (s.core c).flights ∧ f.2.slot = slot) →
      ks.foldl (fun s f =>
        let go := fun (op : MemOp) (mk : MemOp → FKind) =>
          let m := op.kind.ty.size
          let hit := fun (a : LAcc) => l.any fun b => a.meets m b n
          if op.kind.isAtomic || !op.acc.any hit then s else
          let r := s.sampleAll c pd op.kind op.acc hit
          r.1.updCore c fun k => { k with flights := mapUpd k.flights f.1 fun g => { g with kind := mk { op with acc := r.2 } } }
        match f.2.kind with
        | .load op => go op .load
        | .remote op => go op .remote
        | _ => s) s = s := by
    intro ks
    induction ks with
    | nil => intro _; rfl
    | cons f ks ih =>
      intro hk
      have hf := hk f (List.mem_cons_self ..)
      have hgo : ∀ op, f.2.kind = .load op ∨ f.2.kind = .remote op →
          (op.kind.isAtomic || !op.acc.any fun a => l.any fun b => a.meets op.kind.ty.size b n) = true := fun op ho => by
        rcases h f hf.1 hf.2 op ho with h | h
        · rw [h]; rfl
        · rw [Bool.or_eq_true]; right
          rw [Bool.not_eq_true', List.any_eq_false]
          intro a ha
          rw [Bool.not_eq_true, List.any_eq_false]
          intro b hb
          rw [h a ha b hb]; simp
      rw [List.foldl_cons]
      refine (congrArg (List.foldl _ · ks) ?_).trans (ih fun g hg => hk g (List.mem_cons_of_mem _ hg))
      dsimp only
      split
      · rename_i op ho; rw [if_pos (hgo op (.inl ho))]
      · rename_i op ho; rw [if_pos (hgo op (.inr ho))]
      · rfl
  refine key _ fun f hf => ?_
  simp only [List.mem_filter, Bool.and_eq_true, beq_iff_eq] at hf
  exact ⟨hf.1, hf.2.2⟩

end Sys2Proof.Machine
end

