-- ==== Sys2Proof/Laws/Keep.lean ====
section
/-! SUPPORT. System registers, the phase, and returning from keep mode. -/

-- One theorem at a time: the package compiles as one text, and a thread for each open proof asks for a stack of its own.
set_option Elab.async false

namespace Sys2Proof.Machine

theorem lo32_setWidth (x : BitVec 64) : lo32 x = x.setWidth 32 := by
  unfold lo32; ext i hi; simp

theorem sysTable (x : Ctx) (c : Nat) (h : x.core = c) :
    x.sysValue 0x000 = BitVec.ofNat 64 x.task.number ∧ x.sysValue 0x001 = BitVec.ofNat 64 x.b.index ∧
    x.sysValue 0x002 = (x.task.par.setWidth 32).setWidth 64 ∧ x.sysValue 0x003 = x.task.par >>> 32 ∧
    x.sysValue 0x005 = BitVec.ofNat 64 x.task.variant ∧ x.sysValue 0x007 = BitVec.ofNat 64 c ∧
    x.sysValue 0x008 = x.task.tlbase ∧ x.sysValue 0x009 = x.task.tlstride.setWidth 64 ∧
    x.sysValue 0x010 = (x.b.rm.setWidth 64 ||| if x.l.ftz then 8 else 0) ∧ x.sysValue 0x011 = x.b.fflags.setWidth 64 ∧
    x.sysValue 0x012 = x.b.mshape.setWidth 64 ∧ x.sysValue 0x013 = x.task.done ∧ x.sysValue 0x020 = x.b.kcause.setWidth 64 ∧
    x.sysValue 0x021 = x.b.kpc ∧ x.sysValue 0x022 = x.b.klanes.setWidth 64 ∧ x.sysValue 0x023 = x.b.kaddr ∧
    x.sysValue 0x024 = x.task.ksave ∧ x.sysValue 0x025 = x.task.kvec := by
  subst h
  have h3 : (hi32 x.task.par).setWidth 64 = x.task.par >>> 32 := by
    generalize x.task.par = v
    apply BitVec.eq_of_toNat_eq
    have := v.isLt
    simp [hi32, Nat.shiftRight_eq_div_pow]
    omega
  have h10 : ∀ (r : BitVec 2) (f : Bool), (r.setWidth 32 ||| if f then (8 : Word) else 0).setWidth 64 = (r.setWidth 64 ||| if f then 8 else 0) := by
    intro r f; cases f <;> revert r <;> decide
  refine ⟨rfl, rfl, congrArg (BitVec.setWidth 64) (lo32_setWidth _), h3, rfl, rfl, rfl, rfl, h10 _ _, ?_, rfl, rfl, rfl, rfl, rfl, rfl, rfl, rfl⟩
  · show ((x.b.fflags.setWidth 32).setWidth 64) = _
    generalize x.b.fflags = r; revert r; decide

theorem State.tryPhase_open (s : State) (c t : Nat) (p : PhaseEnd) (h : ((s.core c).task t).phase = some p)
    (hn : ∃ n < ((s.core c).task t).nbands, (s.core c).bandLive t n &&& ~~~(mapGetD p.arrived n 0) ≠ 0) : s.tryPhase c t = s := by
  obtain ⟨n, hn, hb⟩ := hn
  unfold State.tryPhase
  dsimp only
  rw [h]
  dsimp only
  rw [if_pos]
  simp only [Bool.or_eq_true, Bool.not_eq_true', List.all_eq_false]
  exact .inl (.inl ⟨n, List.mem_range.2 hn, by simpa using hb⟩)

theorem State.core_of_not_mem (s : State) (c : Nat) (h : c ∉ mapKeys s.cores) : s.core c = Core.fresh := by
  unfold State.core mapGetD
  have : mapGet s.cores c = none := by
    generalize s.cores = m at h
    induction m with
    | nil => rfl
    | cons p m ih =>
      simp only [mapKeys, List.map_cons, List.mem_cons, not_or] at h
      rw [show mapGet (p :: m) c = if c = p.1 then some p.2 else mapGet m c from rfl, if_neg h.1, ih h.2]
  rw [this]; rfl

def ibMarked (v : BitVec 64) (k : Core) : Prop := ∀ l ∈ k.ibuf, ibinvHits v l = true → l.stale = true

def ibSame (y z : Core) : Prop := y.bands = z.bands ∧ y.tasks = z.tasks ∧ { y.rest with ibuf := [] } = { z.rest with ibuf := [] }

def ibStep (v : BitVec 64) (s : State) (c : Nat) : State :=
    let k := s.core c
    if k.ibuf.any (ibinvHits v) then
      (s.setCore c { k with
        ibuf := k.ibuf.map fun l => if ibinvHits v l then { l with stale := true } else l
        table := mapAll k.table fun _ e => { e with ctx := e.ctx.map fun x => { x with old := true } } }).dropStale c
    else s

theorem ibStep_spec (v : BitVec 64) (s : State) (c : Nat) : ibMarked v ((ibStep v s c).core c) ∧
    (∀ d, d ≠ c → (ibStep v s c).core d = s.core d) ∧ (∀ d, ibSame ((ibStep v s c).core d) (s.core d)) ∧
    (ibStep v s c).outside = s.outside := by
  unfold ibStep
  dsimp only
  split
  · unfold State.dropStale
    refine ⟨?_, fun d hd => ?_, fun d => ?_, rfl⟩
    · rw [State.core_updCore_self, State.core_setCore_self]
      intro l hl hv
      simp only [List.mem_filter, List.mem_map] at hl
      obtain ⟨⟨a, ha, rfl⟩, -⟩ := hl
      split
      · rfl
      · rename_i hn
        rw [if_neg hn] at hv
        exact absurd hv hn
    · rw [State.core_updCore, if_neg hd, State.core_setCore, if_neg hd]
    · rw [State.core_updCore]
      split
      · rename_i h; subst h
        rw [State.core_setCore_self]
        exact ⟨rfl, rfl, rfl⟩
      · rename_i h
        rw [State.core_setCore, if_neg h]
        exact ⟨rfl, rfl, rfl⟩
  · rename_i h
    refine ⟨fun l hl hv => ?_, fun _ _ => rfl, fun _ => ⟨rfl, rfl, rfl⟩, rfl⟩
    exact absurd (List.any_eq_true.2 ⟨l, hl, hv⟩) h

theorem ibFold (v : BitVec 64) (ks : List Nat) (s : State) :
    (∀ c, c ∈ ks ∨ ibMarked v (s.core c) → ibMarked v ((ks.foldl (ibStep v) s).core c)) ∧
    (∀ d, ibSame ((ks.foldl (ibStep v) s).core d) (s.core d)) ∧ (ks.foldl (ibStep v) s).outside = s.outside := by
  induction ks generalizing s with
  | nil => exact ⟨fun c h => h.resolve_left (by simp), fun _ => ⟨rfl, rfl, rfl⟩, rfl⟩
  | cons k ks ih =>
    obtain ⟨h1, h2, h3⟩ := ih (ibStep v s k)
    obtain ⟨g1, g2, g3, g4⟩ := ibStep_spec v s k
    refine ⟨fun c h => h1 c ?_, fun d => ⟨(h2 d).1.trans (g3 d).1, (h2 d).2.1.trans (g3 d).2.1, (h2 d).2.2.trans (g3 d).2.2⟩, h3.trans g4⟩
    by_cases hc : c = k
    · subst hc; exact .inr g1
    · rw [g2 c hc]
      rcases h with h | h
      · rcases List.mem_cons.1 h with h | h
        · exact absurd h hc
        · exact .inl h
      · exact .inr h

theorem State.ibinv_spec (s : State) (v : BitVec 64) : (∀ c, ibMarked v ((s.ibinv v).core c)) ∧ (∀ c, ibSame ((s.ibinv v).core c) (s.core c)) ∧
    (s.ibinv v).outside = s.outside := by
  obtain ⟨h1, h2, h3⟩ := ibFold v (mapKeys s.cores) s
  refine ⟨fun c => h1 c ?_, h2, h3⟩
  by_cases hc : c ∈ mapKeys s.cores
  · exact .inl hc
  · rw [State.core_of_not_mem s c hc]
    exact .inr fun l hl => absurd hl (by simp [Core.fresh])

theorem mem_mapGet {α : Type} {m : Map α} {e : Nat} {x : α} (h : mapGet m e = some x) : (e, x) ∈ m := by
  induction m with
  | nil => cases h
  | cons p m ih =>
    obtain ⟨k, v⟩ := p
    simp only [mapGet] at h
    split at h
    · rename_i hk; subst hk; cases h; exact List.mem_cons_self ..
    · exact List.mem_cons_of_mem _ (ih h)

theorem mapGet_filter_first {α : Type} (m : Map α) (p : Nat → α → Bool) (e : Nat) (x : α) (h : mapGet m e = some x) (hp : p e x = true) :
    mapGet (mapFilter m p) e = some x := by
  induction m with
  | nil => cases h
  | cons q m ih =>
    obtain ⟨k, v⟩ := q
    simp only [mapGet] at h
    simp only [mapFilter, List.filter_cons] at *
    split at h
    · rename_i hk; subst hk; cases h
      rw [if_pos hp]; simp [mapGet]
    · rename_i hk
      split
      · simp only [mapGet, if_neg hk]; exact ih h
      · exact ih h

theorem mem_mapSet {α : Type} {m : Map α} {i : Nat} {y : α} {p : Nat × α} (h : p ∈ mapSet m i y) : p ∈ m ∨ p = (i, y) := by
  induction m with
  | nil => exact .inr (List.mem_singleton.1 h)
  | cons q m ih =>
    obtain ⟨k, v⟩ := q
    simp only [mapSet] at h
    split at h
    · rename_i hk; subst hk
      rcases List.mem_cons.1 h with h | h
      · exact .inr h
      · exact .inl (List.mem_cons_of_mem _ h)
    · split at h
      · rcases List.mem_cons.1 h with h | h
        · exact .inr h
        · exact .inl h
      · rcases List.mem_cons.1 h with h | h
        · exact .inl (by rw [h]; exact List.mem_cons_self ..)
        · rcases ih h with h | h
          · exact .inl (List.mem_cons_of_mem _ h)
          · exact .inr h

theorem mem_mapUpd {α : Type} {m : Map α} {i : Nat} {f : α → α} {p : Nat × α} (h : p ∈ mapUpd m i f) :
    p ∈ m ∨ ∃ v, (p.1, v) ∈ m ∧ p.2 = f v := by
  unfold mapUpd at h
  split at h
  · exact .inl h
  · rename_i v hv
    rcases mem_mapSet h with h | h
    · exact .inl h
    · exact .inr ⟨v, by rw [h]; exact mem_mapGet hv, by rw [h]⟩

theorem foldEntries (f : Entry → Entry) (hf : ∀ x, f (f x) = f x) (c : Nat) (L : List Nat) (s : State) :
    ∃ T : Map Entry, ((L.foldl (fun s i => s.updEntry c i f) s).core c = { s.core c with table := T } ∧
      (∀ d, d ≠ c → (L.foldl (fun s i => s.updEntry c i f) s).core d = s.core d)) ∧
      (∀ e, mapGet T e = (mapGet (s.core c).table e).map fun x => if e ∈ L then f x else x) ∧
      (∀ p ∈ T, ∃ x, (p.1, x) ∈ (s.core c).table ∧ (p.2 = x ∨ p.2 = f x)) := by
  induction L generalizing s with
  | nil => exact ⟨(s.core c).table, ⟨rfl, fun _ _ => rfl⟩, fun e => by simp, fun p hp => ⟨p.2, hp, .inl rfl⟩⟩
  | cons i L ih =>
    obtain ⟨T, h1, h2, h3⟩ := ih (s.updEntry c i f)
    have hk : (s.updEntry c i f).core c = { s.core c with table := mapUpd (s.core c).table i f } := by
      rw [State.updEntry, State.core_updCore_self]; rfl
    rw [hk] at h1 h2 h3
    refine ⟨T, ⟨h1.1, fun d hd => ?_⟩, fun e => ?_, fun p hp => ?_⟩
    · rw [List.foldl_cons, h1.2 d hd, State.updEntry, State.core_updCore, if_neg hd]
    · rw [h2, mapGet_mapUpd]
      by_cases he : e = i
      · subst he
        rw [if_pos rfl]
        cases mapGet (s.core c).table e <;> simp [hf]
      · rw [if_neg he]
        simp [he]
    · obtain ⟨x, hx, hp⟩ := h3 p hp
      rcases mem_mapUpd hx with hx | ⟨v, hv, hxv⟩
      · exact ⟨x, hx, hp⟩
      · dsimp only at hxv hv
        subst hxv
        rw [hf, or_self] at hp
        exact ⟨v, hv, .inr hp⟩

/-- The threads and the table of a band that leaves keep mode, before lanes resume at the trap. -/
theorem leave_first (s : State) (c slot : Nat) (b : Band) (hb : b = (s.core c).band slot) (hp : (mapGet (s.core c).bands slot).isSome = true) :
    let s1 := (s.updCore c fun k =>
      { k with table := mapAll (mapFilter k.table fun _ e => e.slot != slot || e.frozen) fun _ e =>
          if e.slot = slot then { e with frozen := false } else e }).updBand c slot fun x =>
      { x with keep := false, frozen := [], turn := none, threads := mapAll x.frozen fun l t => { t with exited := t.exited || (x.thread l).exited, last := (x.thread l).last } }
    (s1.core c).band slot = { b with keep := false, frozen := [], turn := none, threads := mapAll b.frozen fun l t => { t with exited := t.exited || (b.thread l).exited, last := (b.thread l).last } } ∧
    (∀ e x, mapGet (s.core c).table e = some x → (x.slot ≠ slot → mapGet (s1.core c).table e = some x) ∧
      (x.slot = slot → x.frozen = true → mapGet (s1.core c).table e = some { x with frozen := false })) ∧
    (∀ p ∈ (s1.core c).table, ∃ x, (p.1, x) ∈ (s.core c).table ∧ (x.slot = slot → x.frozen = true) ∧
      p.2 = if x.slot = slot then { x with frozen := false } else x) ∧
    KeepsRegs s s1 c slot [] ∧ MemSame s s1 ∧ s1.outside = s.outside ∧
    (∀ d n, ¬(d = c ∧ n = slot) → (s1.core d).band n = (s.core d).band n) ∧
    (mapGet (s1.core c).bands slot).isSome = true := by
  intro s1
  have hT : (s1.core c).table = mapAll (mapFilter (s.core c).table fun _ e => e.slot != slot || e.frozen) fun _ e =>
          if e.slot = slot then { e with frozen := false } else e := by
    show ((State.updBand _ _ _ _).core c).table = _
    rw [State.table_updBand, State.core_updCore_self]
  refine ⟨?_, fun e x hx => ⟨fun hs => ?_, fun hs hf => ?_⟩, fun p hp => ?_, ?_, ?_, rfl, fun d n hn => ?_, ?_⟩
  · rw [State.band_updBand_self _ _ _ _ (by rw [State.core_updCore_self]; exact hp), State.core_updCore_self]
    subst hb; rfl
  · rw [hT, mapGet_mapAll, mapGet_filter_first _ _ _ _ hx (by simp [hs]), Option.map_some, if_neg hs]
  · rw [hT, mapGet_mapAll, mapGet_filter_first _ _ _ _ hx (by simp [hf]), Option.map_some, if_pos hs]
  · rw [hT] at hp
    simp only [mapAll, List.mem_map] at hp
    obtain ⟨a, ha, rfl⟩ := hp
    simp only [mapFilter, List.mem_filter, Bool.or_eq_true, bne_iff_ne] at ha
    exact ⟨a.2, ha.1, fun h => ha.2.resolve_left fun h' => h' h, rfl⟩
  · refine KeepsRegs.trans ?_ (KeepsRegs.updBand _ c slot _ ?_ ?_ ?_ _ _ _)
    rotate_left
    · intro; rfl
    · intro; rfl
    · intro; rfl
    intro d n gen l _
    unfold State.reg
    rw [State.core_updCore]
    split
    · rename_i h; subst h; cases l <;> rfl
    · rfl
  · refine MemSame.trans (MemSame.updCore s c _ ?_) (MemSame.updBand _ _ _ _)
    intro k; exact ⟨rfl, rfl, rfl, rfl⟩
  · rw [State.band_updBand_ne _ _ _ _ _ _ hn, State.core_updCore]
    split
    · rename_i h; subst h; rfl
    · rfl
  · rw [State.placed_updBand, State.core_updCore_self]; exact hp

theorem mem_keys {α : Type} {m : Map α} {e : Nat} {x : α} (h : mapGet m e = some x) : e ∈ mapKeys m :=
  List.mem_map.2 ⟨(e, x), mem_mapGet h, rfl⟩

theorem mem_entriesOf {k : Core} {slot e : Nat} {x : Entry} (h : mapGet k.table e = some x) (hs : x.slot = slot) : e ∈ k.entriesOf slot := by
  simp only [Core.entriesOf, List.mem_filter, beq_iff_eq]
  exact ⟨mem_keys h, by rw [Core.entry_of h, hs]⟩

theorem slot_of_entriesOf {k : Core} {slot e : Nat} {x : Entry} (h : e ∈ k.entriesOf slot) (hx : mapGet k.table e = some x) : x.slot = slot := by
  simp only [Core.entriesOf, List.mem_filter, beq_iff_eq, Core.entry_of hx] at h
  exact h.2

/-- Lanes that resume at a trap, before the rest of the trapping sub-band finds a place. -/
theorem resume_first (s : State) (c slot n : Nat) (b : Band) (hb : b = (s.core c).band slot) (hp : (mapGet (s.core c).bands slot).isSome = true)
    (hown : s.owns c slot n) :
    ∃ t : State, Moved t c slot (s.resumeTrap c slot n) ∧
      let g := b.klanes &&& b.live
      let z := (t.core c).band slot
      (z.keep = b.keep ∧ z.frozen = b.frozen ∧ z.live = b.live) ∧
      (∀ l, (z.thread l).exited = (b.thread l).exited ∧ if l ∈ lanesOf g then (z.thread l).pc = b.kpc ∧ (z.thread l).hold = .none ∧ (z.thread l).mark = .none ∧
        (z.thread l).parked = false else z.thread l = b.thread l) ∧
      (∀ e x, mapGet (s.core c).table e = some x → (x.slot ≠ slot → mapGet (t.core c).table e = some x) ∧
        (x.slot = slot → if e = n then ∃ w, mapGet (t.core c).table e = some w ∧ w.frozen = x.frozen ∧ w.slot = slot ∧ w.lanes = g ∧ w.wait = .ready ∧ w.ctx = none
          else mapGet (t.core c).table e = some { x with lanes := x.lanes &&& ~~~g, defer := x.defer &&& ~~~g })) ∧
      (∀ p ∈ (t.core c).table, ∃ x, (p.1, x) ∈ (s.core c).table ∧ x.slot = p.2.slot) ∧
      KeepsRegs s t c slot [] ∧ MemSame s t ∧ t.outside = s.outside ∧
      (∀ d m, ¬(d = c ∧ m = slot) → (t.core d).band m = (s.core d).band m) := by
  subst hb
  unfold State.resumeTrap
  dsimp only
  generalize hg : ((s.core c).band slot).klanes &&& ((s.core c).band slot).live = g
  generalize ((((s.core c).band slot).kcause.toNat % 256 == 2 && ((s.core c).band slot).kpc == ((s.core c).band slot).kaddr) ||
    (((s.core c).band slot).kpcSet && !((s.core c).band slot).kmid)) = hd
  generalize hF : (fun (_ : Nat) (t : Thread) => { t with pc := ((s.core c).band slot).kpc, base := if hd = true then ((s.core c).band slot).kpc else t.base, hold := .none, mark := .none, parked := false }) = F
  rw [State.updThreads, State.updBand_updBand]
  have hFe : ∀ l y, (F l y).exited = y.exited := fun l y => by rw [← hF]
  have hFp : ∀ l y, (F l y).pc = ((s.core c).band slot).kpc ∧ (F l y).hold = .none ∧ (F l y).mark = .none ∧ (F l y).parked = false :=
    fun l y => by rw [← hF]; exact ⟨rfl, rfl, rfl, rfl⟩
  clear hF
  generalize hs3 : s.updBand c slot (fun x => { x.updThreads g F with arr := mapAll (x.updThreads g F).arr fun _ m => m &&& ~~~g }) = s3
  have h3b : (s3.core c).band slot = { ((s.core c).band slot).updThreads g F with
      arr := mapAll (((s.core c).band slot).updThreads g F).arr fun _ m => m &&& ~~~g } := by
    rw [← hs3, State.band_updBand_self _ _ _ _ hp]
  have h3t : (s3.core c).table = (s.core c).table := by rw [← hs3, State.table_updBand]
  have h3o : s3.owns c slot n := fun x hx => hown x (by rwa [h3t] at hx)
  obtain ⟨T, ⟨hT1, hT2⟩, hT3, hT4⟩ := foldEntries (fun x => { x with lanes := x.lanes &&& ~~~g, defer := x.defer &&& ~~~g })
    (fun x => by simp only [BitVec.and_assoc, BitVec.and_self]) c ((s3.core c).entriesOf slot) s3
  have hTm : MemSame s3 (((s3.core c).entriesOf slot).foldl (fun s i => s.updEntry c i fun x => { x with lanes := x.lanes &&& ~~~g, defer := x.defer &&& ~~~g }) s3) :=
    MemSame.foldl _ (fun _ _ => MemSame.updEntry _ _ _ _) _ _
  have hTo : (((s3.core c).entriesOf slot).foldl (fun s i => s.updEntry c i fun x => { x with lanes := x.lanes &&& ~~~g, defer := x.defer &&& ~~~g }) s3).outside = s3.outside :=
    State.outside_foldl _ (fun _ _ => State.outside_updEntry _ _ _ _) _ _
  generalize hs4 : ((s3.core c).entriesOf slot).foldl (fun s i => s.updEntry c i fun x => { x with lanes := x.lanes &&& ~~~g, defer := x.defer &&& ~~~g }) s3 = s4 at *
  have h4k : ∀ d, s4.core d = { s3.core d with table := (s4.core d).table } := fun d => by
    by_cases h : d = c
    · subst h; rw [hT1]
    · rw [hT2 d h]
  have h4b : ∀ d m, (s4.core d).band m = (s3.core d).band m := fun d m => by rw [h4k d]; rfl
  have h4t : (s4.core c).table = T := by rw [hT1]
  have h4r : KeepsRegs s3 s4 c slot [] := fun d m gen l _ => by
    unfold State.reg; rw [h4k d]; cases l <;> rfl
  have h4o : s4.owns c slot n := fun x hx => by
    rw [h4t, hT3] at hx
    obtain ⟨y, hy, rfl⟩ := Option.map_eq_some_iff.1 hx
    have := h3o y hy
    split <;> exact this
  refine ⟨s4.updEntry c n fun x => { x with lanes := g, ctx := none, wait := .ready, age := 0 }, Moved.takeEntry _ _ _ _ _ _ _ ?_, ?_, fun l => ?_, fun e x hx => ⟨fun hs => ?_, fun hs => ?_⟩, fun p hp => ?_, ?_, ?_, ?_, fun d m hm => ?_⟩
  · intro x hx
    rw [State.updEntry, State.core_updCore_self] at hx
    simp only [Core.updEntry, mapGet_mapUpd, if_pos] at hx
    obtain ⟨y, hy, rfl⟩ := Option.map_eq_some_iff.1 hx
    exact h4o y hy
  · rw [State.band_updEntry, h4b, h3b]
    refine ⟨rfl, rfl, ?_⟩
    refine Band.live_congr fun l => ?_
    show ((((s.core c).band slot).updThreads g F).thread l).exited = _
    rw [Band.thread_updThreads]
    split
    · exact hFe _ _
    · rfl
  · rw [State.band_updEntry, h4b, h3b]
    have : ∀ A : Map Word, Band.thread { ((s.core c).band slot).updThreads g F with arr := A } l = (((s.core c).band slot).updThreads g F).thread l := fun _ => rfl
    rw [this, Band.thread_updThreads]
    split
    · exact ⟨hFe _ _, hFp _ _⟩
    · exact ⟨rfl, rfl⟩
  · rw [State.updEntry, State.core_updCore_self]
    simp only [Core.updEntry, mapGet_mapUpd]
    rw [if_neg (by rintro rfl; exact hs (hown x hx)), h4t, hT3, h3t, hx, Option.map_some, if_neg]
    exact fun h => hs (slot_of_entriesOf h (by rw [h3t]; exact hx))
  · rw [State.updEntry, State.core_updCore_self]
    have hT := hT3 e
    rw [h3t, hx, Option.map_some, if_pos (mem_entriesOf (by rw [h3t]; exact hx) hs)] at hT
    simp only [Core.updEntry, mapGet_mapUpd, h4t]
    by_cases he : e = n
    · subst he
      rw [if_pos rfl, if_pos rfl, hT]
      exact ⟨_, rfl, rfl, hs, rfl, rfl, rfl⟩
    · rw [if_neg he, if_neg he, hT]
  · rw [State.updEntry, State.core_updCore_self] at hp
    rcases mem_mapUpd hp with h | ⟨v, hv, h⟩
    · rw [h4t] at h
      obtain ⟨x, hx, hxp⟩ := hT4 p h
      rw [h3t] at hx
      exact ⟨x, hx, by rcases hxp with h | h <;> rw [h]⟩
    · rw [h4t] at hv
      obtain ⟨x, hx, hxp⟩ := hT4 _ hv
      rw [h3t] at hx
      dsimp only at hx hxp
      exact ⟨x, hx, by rw [h]; rcases hxp with h | h <;> rw [h]⟩
  · refine KeepsRegs.trans ?_ (h4r.trans (KeepsRegs.updEntry _ _ _ _ _ _ _))
    rw [← hs3]
    refine KeepsRegs.updBand s c slot _ ?_ ?_ ?_ _ _ _ <;> intro <;> rfl
  · rw [← hs3] at hTm
    exact ((MemSame.updBand _ _ _ _).trans hTm).trans (MemSame.updEntry _ _ _ _)
  · rw [State.outside_updEntry, hTo, ← hs3, State.outside_updBand]
  · rw [State.band_updEntry, h4b, ← hs3, State.band_updBand_ne _ _ _ _ _ _ hm]

theorem foldRebalance (s : State) (c slot : Nat) : Moved s c slot (((s.core c).entriesOf slot).foldl (fun s i => s.rebalance c i) s) :=
  .foldl _ c slot _ s fun t ht e he => .rebalance t c slot e (ht.owns e (State.owns_entriesOf he))

theorem placed_storesRecord (m : State) (x : Ctx) (l : List (Nat × Trans)) (bs : List Byte) (c slot : Nat) :
    (mapGet ((m.storesRecord x l bs).core c).bands slot).isSome = (mapGet (m.core c).bands slot).isSome := by
  unfold State.storesRecord
  refine State.placed_foldl _ _ _ (fun s r => ?_) l m
  refine State.part_storeBytes (fun k => (mapGet k.bands slot).isSome) (fun k _ _ _ _ _ _ => ?_) _ _ _ _ _ _ _ _
  rw [(Core.stored_parts k _ _ _ _ _ _).1]

end Sys2Proof.Machine
end

