-- ==== Sys2Proof/Laws/Queue.lean ====
section
/-! SUPPORT. Queues and tags. -/

-- One theorem at a time: the package compiles as one text, and a thread for each open proof asks for a stack of its own.
set_option Elab.async false

namespace Sys2Proof.Machine

theorem seen_task (s : State) (u : Cursor) (i : Instr) (q : Shape) :
    ((s.passed u i q).core u.core).task (s.seen u i q).t = (s.seen u i q).task := by
  have : (s.seen u i q).task = ((s.begun u i q).core u.core).task (s.seen u i q).t := by rw [State.seen]; rfl
  rw [this]; exact State.part_passed (·.task (s.seen u i q).t) (fun _ _ => rfl) (fun _ _ => rfl) _ _ _ _ _

theorem issue_hold {s : State} {u : Cursor} {i : Instr} {q : Shape} {f : Ctx → State → Res} (h : s.issues u i q = true)
    (hf : f (s.seen u i q) (s.passed u i q) = .hold) :
    issue i q f s = .next (s.updEntry u.core u.entry fun e => { e with wait := .stalled }) := by
  rw [issue_of_issues h, hf]
  dsimp only
  rw [State.stall, State.seen_core, State.seen_e]

theorem push_spec (P : State) (x : Ctx) (g num : Nat) (F : Task → Task) (ht : (mapGet (P.core x.core).tasks x.t).isSome = true) (t : State)
    (h : t = (P.updTask x.core x.t F).start x x.lanes none (.release .plain (.push g num))) :
    KeepsAll P t ∧ (t.core x.core).flights = mapSet (P.core x.core).flights (P.core x.core).nextOp
      ⟨x.slot, x.gen, x.lanes, none, .release .plain (.push g num)⟩ ∧ (t.core x.core).task x.t = F ((P.core x.core).task x.t) := by
  rw [h, State.start]
  refine ⟨(KeepsAll.updTask _ _ _ _).trans (KeepsAll.launchFlight _ _ _), ?_, ?_⟩
  · rw [State.launchFlight, State.core_updCore_self, State.part_updTask (·.flights) fun _ _ => rfl, State.part_updTask (·.nextOp) fun _ _ => rfl]
  · rw [State.part_launchFlight (·.task x.t) fun _ _ _ => rfl, State.task_updTask_self _ _ _ _ ht]

/-- A push whose checks and count are those of another command. -/
theorem pushCmd_eq (t : State) (x : Ctx) (q count : Nat) (m0 m : Cmd)
    (hd : pushDetail x.l x.task (mapGetD x.task.queues q Queue.fresh).port count m0 =
      pushDetail x.l x.task (mapGetD x.task.queues q Queue.fresh).port count m) (hh : m0.head = m.head)
    (hm : (if m0.head.op = 5 then { m0 with inst := mapGetD x.task.inst m0.group 0 } else m0) = m) :
    (∀ k, pushDetail x.l x.task (mapGetD x.task.queues q Queue.fresh).port count m = some k →
      t.pushCmd x q count m0 = .trap 0x0D (engCode m.head k) 0) ∧
    (pushDetail x.l x.task (mapGetD x.task.queues q Queue.fresh).port count m = none →
      16 ≤ (mapGetD x.task.queues q Queue.fresh).cmds.length → t.pushCmd x q count m0 = .hold) ∧
    (pushDetail x.l x.task (mapGetD x.task.queues q Queue.fresh).port count m = none →
      (mapGetD x.task.queues q Queue.fresh).cmds.length < 16 → t.pushCmd x q count m0 = .ok ((t.updTask x.core x.t fun y => { y with
        pushes := y.pushes + 1
        inst := if m.head.op = 5 then mapSet y.inst m.group (m.inst + 1) else y.inst
        busy := if m.head.tagged then mapSet y.busy m.head.tag (mapGetD y.busy m.head.tag 0 + 1) else y.busy
        queues := mapSet y.queues q { mapGetD x.task.queues q Queue.fresh with
          cmds := (mapGetD x.task.queues q Queue.fresh).cmds ++ [m] } }).start x x.lanes none (.release .plain (.push q m.num)))) := by
  unfold State.pushCmd
  dsimp only
  rw [hd, hm, hh]
  refine ⟨fun k hk => by rw [hk], fun hk hl => by rw [hk]; dsimp only; rw [if_pos hl], fun hk hl => by rw [hk]; dsimp only; rw [if_neg (by omega)]⟩

theorem lowestDone_spec (y : Task) (v : BitVec 64) : y.lowestDone v ≤ 64 ∧
    (y.lowestDone v < 64 → v.getLsbD (y.lowestDone v) = true ∧ y.done.getLsbD (y.lowestDone v) = true) ∧
    ∀ j < y.lowestDone v, (v &&& y.done).getLsbD j = false := by
  unfold Task.lowestDone
  cases hf : (List.range 64).find? fun i => v.getLsbD i && y.done.getLsbD i with
  | none =>
    rw [Option.getD_none]
    refine ⟨Nat.le_refl _, fun h => absurd h (Nat.lt_irrefl _), fun j hj => ?_⟩
    have := List.find?_eq_none.mp hf j (List.mem_range.mpr hj)
    rw [BitVec.getLsbD_and]; simpa using this
  | some n =>
    rw [Option.getD_some]
    have h1 := List.find?_some hf
    have h2 := List.mem_range.mp (List.mem_of_find?_eq_some hf)
    simp only [Bool.and_eq_true] at h1
    refine ⟨by omega, fun _ => h1, fun j hj => ?_⟩
    rw [BitVec.getLsbD_and]
    have := (List.find?_range_eq_some.mp hf).2.2 j hj
    revert this; cases v.getLsbD j <;> cases y.done.getLsbD j <;> simp

end Sys2Proof.Machine
end

