-- ==== Sys2Proof/Laws/Matrix.lean ====
section
/-! SUPPORT. Tiles, accumulators and the two-sided signing of matrix operations. -/

-- One theorem at a time: the package compiles as one text, and a thread for each open proof asks for a stack of its own.
set_option Elab.async false

namespace Sys2Proof.Machine

theorem mapGet_foldSet_ne {α : Type} (L : List Nat) (key : Nat → Nat) (val : Nat → α) (m : Map α) (n : Nat) (h : ∀ r ∈ L, n ≠ key r) :
    mapGet (L.foldl (fun m r => mapSet m (key r) (val r)) m) n = mapGet m n := by
  induction L generalizing m with
  | nil => rfl
  | cons r L ih =>
    rw [List.foldl_cons, ih _ fun r' h' => h r' (List.mem_cons_of_mem _ h'), mapGet_mapSet_ne _ _ (h r (List.mem_cons_self ..))]

theorem mapGet_foldSet {α : Type} (L : List Nat) (key : Nat → Nat) (val : Nat → α) (m : Map α) (r : Nat) (h : r ∈ L)
    (hk : ∀ a ∈ L, ∀ b ∈ L, key a = key b → a = b) :
    mapGet (L.foldl (fun m r => mapSet m (key r) (val r)) m) (key r) = some (val r) := by
  induction L generalizing m with
  | nil => cases h
  | cons a L ih =>
    rw [List.foldl_cons]
    by_cases hr : r ∈ L
    · exact ih _ hr fun x hx y hy => hk x (List.mem_cons_of_mem _ hx) y (List.mem_cons_of_mem _ hy)
    · have ha : r = a := by simpa [hr] using h
      rw [mapGet_foldSet_ne L key val _ _ fun x hx he => hr (by
        rw [hk r h x (List.mem_cons_of_mem _ hx) he]; exact hx), ha, mapGet_mapSet_self]

theorem zipIdx_map_range {α : Type} (n : Nat) (f : Nat → α) : ((List.range n).map f).zipIdx = (List.range n).map fun r => (f r, r) := by
  apply List.ext_getElem
  · simp
  · intro i h1 h2; simp

theorem foldl_putTileRow (t : Task) (tile : Nat) (fmt : Nat → BitVec 4) (v : Nat → BitVec 512) (L : List Nat) (k : Core) :
    L.foldl (fun k r => k.putTileRow t tile r (fmt r) (v r)) k =
      { k with tiles := L.foldl (fun m r => mapSet m (t.tileKey tile r) ⟨t.gen, fmt r, v r⟩) k.tiles } := by
  induction L generalizing k with
  | nil => rfl
  | cons r L ih => rw [List.foldl_cons, List.foldl_cons, ih]; rfl

theorem foldl_putAccRow (t : Task) (a : Nat) (v : Nat → BitVec 2048) (L : List Nat) (k : Core) :
    L.foldl (fun k r => k.putAccRow t a r (v r)) k =
      { k with accs := L.foldl (fun m r => mapSet m (t.accKey a r) ⟨t.gen, v r⟩) k.accs } := by
  induction L generalizing k with
  | nil => rfl
  | cons r L ih => rw [List.foldl_cons, List.foldl_cons, ih]; rfl

/-- The rows of a tile written. -/
theorem Core.tile_written (k : Core) (t : Task) (a N : Nat) (hN : N ≤ 64) (fmt : Nat → BitVec 4) (v : Nat → BitVec 512) (w : Core)
    (hw : w = (List.range N).foldl (fun k r => k.putTileRow t a r (fmt r) (v r)) k) :
    (∀ r < N, w.tileRow t a r = (v r, fmt r, true)) ∧
      (∀ n, (∀ r < N, n ≠ t.tileKey a r) → mapGet w.tiles n = mapGet k.tiles n) ∧ { w with tiles := [] } = { k with tiles := [] } := by
  rw [foldl_putTileRow] at hw
  subst hw
  refine ⟨fun r hr => ?_, fun n hn => mapGet_foldSet_ne (List.range N) (t.tileKey a) _ _ _ fun r hr => hn r (List.mem_range.mp hr), rfl⟩
  rw [Core.tileRow]
  dsimp only
  rw [mapGet_foldSet _ _ (fun r => (⟨t.gen, fmt r, v r⟩ : Row)) _ r (List.mem_range.mpr hr), readRow]
  · dsimp only
    rw [if_pos rfl]
  · intro x hx y hy h
    rw [List.mem_range] at hx hy
    simp only [Task.tileKey] at h; omega

theorem Core.acc_written (k : Core) (t : Task) (a N : Nat) (hN : N ≤ 64) (v : Nat → BitVec 2048) (st : Word) (w : Core)
    (hw : w = ((List.range N).foldl (fun k r => k.putAccRow t a r (v r)) k).putStatus t a st) :
    (∀ r < N, w.accRow t a r = (v r, true)) ∧ w.accStatus t a = (st, true) ∧
      (∀ n, (∀ r < N, n ≠ t.accKey a r) → mapGet w.accs n = mapGet k.accs n) ∧
      (∀ n, n ≠ t.accAt a → mapGet w.accStat n = mapGet k.accStat n) ∧
      { w with accs := [], accStat := [] } = { k with accs := [], accStat := [] } := by
  rw [foldl_putAccRow, Core.putStatus] at hw
  subst hw
  refine ⟨fun r hr => ?_, ?_, fun n hn => mapGet_foldSet_ne (List.range N) (t.accKey a) _ _ _ fun r hr => hn r (List.mem_range.mp hr),
    fun n hn => mapGet_mapSet_ne _ _ hn, rfl⟩
  · rw [Core.accRow]
    dsimp only
    rw [mapGet_foldSet _ _ (fun r => (⟨t.gen, v r⟩ : Tagged (BitVec 2048))) _ r (List.mem_range.mpr hr), readTagged]
    · dsimp only
      rw [if_pos rfl]
    · intro x hx y hy h
      rw [List.mem_range] at hx hy
      simp only [Task.accKey] at h; omega
  · rw [Core.accStatus]
    dsimp only
    rw [mapGet_mapSet_self, readTagged]
    dsimp only
    rw [if_pos rfl]

theorem any_map_range {α : Type} (n : Nat) (f : Nat → α) (p : α → Bool) : ((List.range n).map f).any p = true ↔ ∃ r < n, p (f r) = true := by
  simp [List.any_eq_true]

theorem KeepsAll.flagged (s : State) (c slot : Nat) (f : Option Nat) : KeepsAll s (s.flagged c slot f) := by
  cases f with
  | none => exact KeepsAll.refl s
  | some n =>
    rw [State.flagged, State.addFlag]
    exact KeepsAll.updBand _ _ _ _

theorem seen_was (r : GReg) (now : Nat) : r.seen now = if r.was.any (fun y => now < y.1) then (r.was.getD (0, 0, false)).2 else (r.set, r.usable) := by
  unfold GReg.seen
  cases r.was with
  | none => rfl
  | some y => simp

theorem whole_iff (x : Ctx) (v : BitVec 16) :
    ((List.range 16).any fun n => v.getLsbD n && x.k.bandLive x.t n != allLanes) = false ↔
      ∀ n < 16, v.getLsbD n = true → x.k.bandLive x.t n = allLanes := by
  rw [List.any_eq_false]
  simp

theorem agrees_iff (r : GReg) (p : Word × MatOp) : r.op.any (· != p) = false ↔ r.op = none ∨ r.op = some p := by
  cases r.op <;> simp

theorem signWith_spec (m : State) (x : Ctx) (g : Nat) (w : Word) (o : MatOp) (ht : (mapGet (m.core x.core).tasks x.t).isSome = true) :
    ∃ M : State, KeepsAll m M ∧
      (M.core x.core).flights = mapSet (m.core x.core).flights (m.core x.core).nextOp ⟨x.slot, x.gen, x.lanes, x.flagB, .sig g none⟩ ∧
      (M.core x.core).task x.t = { (m.core x.core).task x.t with g := mapSet ((m.core x.core).task x.t).g g { mapGetD x.task.g g GReg.fresh with
          op := some (w, o)
          signed := mapSet (mapGetD x.task.g g GReg.fresh).signed x.b.index
            (mapGetD (mapGetD x.task.g g GReg.fresh).signed x.b.index 0 ||| x.lanes) } } ∧
      m.signWith x g w o = ((M.updEntry x.core x.e fun e => { e with wait := .signer g }).updBand x.core x.slot
        fun y => { y with turn := none }).rebalance x.core x.e := by
  let m1 := m.start x x.lanes x.flagB (.sig g none)
  have h1 : KeepsAll m m1 := by
    show KeepsAll m (m.start x x.lanes x.flagB (.sig g none))
    rw [State.start_eq]
    exact (KeepsAll.flagged _ _ _ _).trans (KeepsAll.launchFlight _ _ _)
  have h2 : (m1.core x.core).flights = mapSet (m.core x.core).flights (m.core x.core).nextOp ⟨x.slot, x.gen, x.lanes, x.flagB, .sig g none⟩ ∧
      (m1.core x.core).tasks = (m.core x.core).tasks := by
    show ((m.start x x.lanes x.flagB (.sig g none)).core x.core).flights = _ ∧ ((m.start x x.lanes x.flagB (.sig g none)).core x.core).tasks = _
    rw [State.start_eq, State.launchFlight, State.core_updCore_self, State.part_flagged (·.flights) fun _ _ => rfl,
      State.part_flagged (·.nextOp) fun _ _ => rfl]
    refine ⟨rfl, ?_⟩
    exact State.part_flagged (·.tasks) (fun _ _ => rfl) _ _ _ _ _
  have ht1 : (m1.core x.core).task x.t = (m.core x.core).task x.t := by rw [Core.task, h2.2]; rfl
  refine ⟨m1.updTask x.core x.t fun y => { y with g := mapSet y.g g { mapGetD x.task.g g GReg.fresh with
          op := some (w, o)
          signed := mapSet (mapGetD x.task.g g GReg.fresh).signed x.b.index
            (mapGetD (mapGetD x.task.g g GReg.fresh).signed x.b.index 0 ||| x.lanes) } }, h1.trans (KeepsAll.updTask _ _ _ _), ?_, ?_, rfl⟩
  · rw [State.part_updTask (·.flights) fun _ _ => rfl]; exact h2.1
  · rw [State.task_updTask_self _ _ _ _ (by rw [h2.2]; exact ht), ht1]

end Sys2Proof.Machine
end

