-- ==== Sys2Proof/Laws/Access.lean ====
section
/-! SUPPORT. Starting a memory access. -/

-- One theorem at a time: the package compiles as one text, and a thread for each open proof asks for a stack of its own.
set_option Elab.async false

namespace Sys2Proof.Machine

theorem memForm_exec (s : State) (i : Instr) (f : MemForm) (h : memForm i = some f) :
    exec i s = issue i f.shape (fun x t => memIssue x t ⟨f.kind, f.acc x, f.lanes x, x.pc, if f.flag then x.flagA else none, x.b.rm⟩) s := by
  cases i <;> simp only [memForm, reduceCtorEq, Option.some.injEq] at h <;> subst h <;> try rfl

theorem State.lookup_flagged (s : State) (c slot : Nat) (f : Option Nat) (d pd : Nat) (va : BitVec 64) (a : Nat) :
    (s.flagged c slot f).lookup d pd va a = s.lookup d pd va a := by
  cases f
  · rfl
  · exact State.lookup_updBand _ _ _ _ _ _ _ _

theorem transAll_ok (m : State) (c pd : Nat) (op : MemOp) (acc : List LAcc) (h : List.Forall₂ (Translates m c pd op.kind) op.acc acc) :
    m.transAll c pd op false = (m, acc, [], false) := by
  unfold State.transAll
  dsimp only
  generalize op.acc = l at h
  suffices H : ∀ pre, l.foldl (fun (r : State × List LAcc × List (Nat × BitVec 64 × Nat) × Bool) a =>
      match (if false = true then ((r.1.translate c pd a.va op.kind.access).1, some (r.1.translate c pd a.va op.kind.access).2) else (r.1, r.1.lookup c pd a.va op.kind.access)) with
      | (s, none) => (s, r.2.1 ++ [a], r.2.2.1, true)
      | (s, some (.error n)) => (s, r.2.1, r.2.2.1 ++ (if op.kind.uniform then lanesOf op.lanes else [a.lane]).map (fun l => (l, a.va, n)), r.2.2.2)
      | (s, some (.ok t)) =>
        if decodesMx op.kind t a.va then
          match (if false = true then ((s.translate c pd (mxScaleVa t a.va) op.kind.access).1, some (s.translate c pd (mxScaleVa t a.va) op.kind.access).2) else (s, s.lookup c pd (mxScaleVa t a.va) op.kind.access)) with
          | (s, none) => (s, r.2.1 ++ [a], r.2.2.1, true)
          | (s, some (.error n)) => (s, r.2.1, r.2.2.1 ++ [(a.lane, mxScaleVa t a.va, n)], r.2.2.2)
          | (s, some (.ok u)) => (s, r.2.1 ++ [{ a with t := some t, t2 := some u }], r.2.2.1, r.2.2.2)
        else (s, r.2.1 ++ [{ a with t := some t }], r.2.2.1, r.2.2.2)) (m, pre, [], false) = (m, pre ++ acc, [], false) by
    exact H []
  induction h with
  | nil => intro pre; simp
  | @cons a b _ _ hab _ ih =>
    intro pre
    obtain ⟨t, h1, h2⟩ := hab
    rw [List.foldl_cons]
    simp only [Bool.false_eq_true, if_false, h1]
    by_cases hx : decodesMx op.kind t a.va = true
    · rw [if_pos hx] at h2
      obtain ⟨v, h3, rfl⟩ := h2
      rw [if_pos hx]
      simp only [Bool.false_eq_true, if_false, h3] at ih ⊢
      rw [ih, List.append_assoc]; rfl
    · rw [if_neg hx] at h2
      subst h2
      rw [if_neg hx]
      simp only [Bool.false_eq_true, if_false] at ih ⊢
      rw [ih, List.append_assoc]; rfl

theorem transAll_miss (m : State) (c pd : Nat) (op : MemOp) (h : ∀ a ∈ op.acc, m.lookup c pd a.va op.kind.access = none) (hne : op.acc ≠ []) :
    m.transAll c pd op false = (m, op.acc, [], true) := by
  unfold State.transAll
  dsimp only
  generalize op.acc = l at h hne
  suffices H : ∀ (l pre : List LAcc) (b : Bool), (∀ a ∈ l, m.lookup c pd a.va op.kind.access = none) → (l ≠ [] ∨ b = true) → l.foldl (fun (r : State × List LAcc × List (Nat × BitVec 64 × Nat) × Bool) a =>
      match (if false = true then ((r.1.translate c pd a.va op.kind.access).1, some (r.1.translate c pd a.va op.kind.access).2) else (r.1, r.1.lookup c pd a.va op.kind.access)) with
      | (s, none) => (s, r.2.1 ++ [a], r.2.2.1, true)
      | (s, some (.error n)) => (s, r.2.1, r.2.2.1 ++ (if op.kind.uniform then lanesOf op.lanes else [a.lane]).map (fun l => (l, a.va, n)), r.2.2.2)
      | (s, some (.ok t)) =>
        if decodesMx op.kind t a.va then
          match (if false = true then ((s.translate c pd (mxScaleVa t a.va) op.kind.access).1, some (s.translate c pd (mxScaleVa t a.va) op.kind.access).2) else (s, s.lookup c pd (mxScaleVa t a.va) op.kind.access)) with
          | (s, none) => (s, r.2.1 ++ [a], r.2.2.1, true)
          | (s, some (.error n)) => (s, r.2.1, r.2.2.1 ++ [(a.lane, mxScaleVa t a.va, n)], r.2.2.2)
          | (s, some (.ok u)) => (s, r.2.1 ++ [{ a with t := some t, t2 := some u }], r.2.2.1, r.2.2.2)
        else (s, r.2.1 ++ [{ a with t := some t }], r.2.2.1, r.2.2.2)) (m, pre, [], b) = (m, pre ++ l, [], true) by
    exact H l [] false h (.inl hne)
  intro l
  induction l with
  | nil => intro pre b _ hb; simp only [ne_eq, not_true_eq_false, false_or] at hb; simp [hb]
  | cons a l ih =>
    intro pre b h _
    rw [List.foldl_cons]
    simp only [Bool.false_eq_true, if_false, h a (List.mem_cons_self ..)] at ih ⊢
    rw [ih _ _ (fun a h' => h a (List.mem_cons_of_mem _ h')) (.inr rfl), List.append_assoc]; rfl

theorem mapUpd_congr {α : Type} (m : Map α) (i : Nat) (f g : α → α) (h : ∀ x, mapGet m i = some x → f x = g x) : mapUpd m i f = mapUpd m i g := by
  unfold mapUpd
  cases hm : mapGet m i with
  | none => rfl
  | some v => dsimp only; rw [h v hm]

/-- Going past an instruction that an operation holds up a flag of. -/
theorem ready_advance (b : State) (c slot e n : Nat) (flag : Option Nat) (hf : ((b.core c).entry e).frozen = false)
    (hs : ((b.core c).entry e).slot = slot) (hw : ((b.core c).entry e).wait = .ready) :
    ((b.flagged c slot flag).updEntry c e fun x => { x with wait := .ready }).advance c e n = (b.advance c e n).flagged c slot flag := by
  have hent : ∀ x, mapGet (b.core c).table e = some x → x = (b.core c).entry e := fun x hx => by rw [Core.entry, mapGetD, hx]; rfl
  have hE : (((b.flagged c slot flag).updEntry c e fun x => { x with wait := .ready }).core c).entry e = (b.core c).entry e := by
    have ht : ((b.flagged c slot flag).core c).table = (b.core c).table := State.part_flagged (·.table) (fun _ _ => rfl) _ _ _ _ _
    rw [State.updEntry, State.core_updCore_self, Core.updEntry, Core.entry, ht, mapUpd_congr _ _ _ (fun x => x) fun x hx => ?_]
    · rw [Core.entry, mapGetD, mapGetD, mapGet_mapUpd, if_pos rfl]
      cases mapGet (b.core c).table e <;> rfl
    · have h2 := hent x hx
      have : x.wait = .ready := by rw [h2]; exact hw
      cases x; simp_all
  rw [State.advance_eq _ _ _ _ (by rw [hE]; exact hf), State.advance_eq _ _ _ _ hf, hE]
  have hready : ∀ (k : Core) (g : Entry → Entry), k.table = (b.core c).table → mapUpd (mapUpd k.table e fun x => { x with wait := .ready }) e g =
      mapUpd k.table e g := by
    intro k g hk
    rw [mapUpd_mapUpd]
    refine mapUpd_congr _ _ _ _ fun x hx => ?_
    rw [hk] at hx
    have h2 := hent x hx
    have : x.wait = .ready := by rw [h2]; exact hw
    have h3 : ({ x with wait := .ready } : Entry) = x := by cases x; simp_all
    rw [h3]
  dsimp only
  cases flag with
  | none =>
    simp only [State.flagged, State.updBand, State.updEntry, State.updCore_updCore]
    rw [State.updCore, State.updCore]
    congr 1
    simp only [Core.updEntry, Core.updBand]
    rw [hready _ _ rfl]
  | some f =>
    simp only [State.flagged, State.addFlag, State.updBand, State.updEntry, State.updCore_updCore]
    rw [State.updCore, State.updCore]
    congr 1
    simp only [Core.updEntry, Core.updBand, hs]
    rw [hready _ _ rfl, mapUpd_mapUpd, mapUpd_mapUpd]
    rfl

theorem State.entry_flagged (s : State) (c slot : Nat) (f : Option Nat) (d e : Nat) :
    ((s.flagged c slot f).core d).entry e = (s.core d).entry e :=
  State.part_flagged (·.entry e) (fun _ _ => rfl) _ _ _ _ _

theorem State.taskOf_flagged (s : State) (c slot : Nat) (f : Option Nat) (d b : Nat) :
    ((s.flagged c slot f).core d).taskOfBand b = (s.core d).taskOfBand b := by
  cases f
  · rfl
  · rw [State.flagged, State.addFlag, Core.taskOfBand, Core.taskOfBand]
    refine State.band_updBand_proj (·.task) _ _ _ _ ?_ _ _
    intro; rfl

theorem State.launch_flagged (s : State) (c slot : Nat) (f : Option Nat) : (s.flagged c slot f).launch = s.launch := by
  cases f <;> rfl

theorem State.task_flagged (s : State) (c slot : Nat) (f : Option Nat) (d t : Nat) :
    ((s.flagged c slot f).core d).task t = (s.core d).task t :=
  State.part_flagged (·.task t) (fun _ _ => rfl) _ _ _ _ _

theorem State.pdOf_flagged (s : State) (c slot : Nat) (f : Option Nat) (d b : Nat) : (s.flagged c slot f).pdOf d b = s.pdOf d b := by
  rw [State.pdOf, State.pdOf, State.taskOf_flagged, State.task_flagged, State.launch_flagged]

/-- What becomes of an operation all of whose lanes translate. -/
theorem memBegin_eq (b : State) (c e slot : Nat) (op : MemOp) (acc : List LAcc) (hs : ((b.core c).entry e).slot = slot)
    (hl : ((b.core c).entry e).lanes ≠ 0) (hT : List.Forall₂ (Translates b c (b.pdOf c slot) op.kind) op.acc acc) :
    b.memBegin c e op =
      let b' := b.flagged c slot op.flag
      let op' : MemOp := { op with acc := acc }
      if (b'.core c).relOverlaps slot op' then (b'.dropFlag c slot op.flag).updEntry c e fun x => { x with wait := .stalled } else
      match b'.lateCheck c slot op' with
      | some (cause, addr) => (b'.dropFlag c slot op.flag).takeTrap c slot cause 0 (some e) op.pc ((b.core c).entry e).lanes addr
      | none =>
        if (b'.launch ((b'.core c).task ((b'.core c).taskOfBand slot)).launch).det && op.kind.isAtomic && op.kind.order.releases && !acc.isEmpty then
          (b'.memAct c slot op').updEntry c e fun x => { x with wait := .op (b'.core c).nextOp }
        else if acc.isEmpty then ((b'.updEntry c e fun x => { x with wait := .ready }).advance c e op.kind.words).dropFlag c slot op.flag
        else ((b'.updEntry c e fun x => { x with wait := .ready }).advance c e op.kind.words).memAct c slot op' := by
  have hT' : List.Forall₂ (Translates (b.flagged c slot op.flag) c ((b.flagged c slot op.flag).pdOf c slot) op.kind) op.acc acc := by
    refine hT.imp ?_
    rintro x y ⟨t, h1, h2⟩
    refine ⟨t, by rw [State.lookup_flagged, State.pdOf_flagged]; exact h1, ?_⟩
    split at h2
    · rw [if_pos ‹_›]
      obtain ⟨v, h3, h4⟩ := h2
      exact ⟨v, by rw [State.lookup_flagged, State.pdOf_flagged]; exact h3, h4⟩
    · rw [if_neg ‹_›]; exact h2
  have h0 : b.memBegin c e op = (if ((b.flagged c slot op.flag).transAll c ((b.flagged c slot op.flag).pdOf c slot) op false).2.2.2 then
      ((b.flagged c slot op.flag).transAll c ((b.flagged c slot op.flag).pdOf c slot) op false).1.updEntry c e fun x => { x with wait := .translate op }
      else ((b.flagged c slot op.flag).transAll c ((b.flagged c slot op.flag).pdOf c slot) op false).1.memPerform c e op
        ((b.flagged c slot op.flag).transAll c ((b.flagged c slot op.flag).pdOf c slot) op false).2.1
        ((b.flagged c slot op.flag).transAll c ((b.flagged c slot op.flag).pdOf c slot) op false).2.2.1) := by
    unfold State.memBegin
    dsimp only
    rw [hs]
    cases op.flag <;> rfl
  rw [h0, transAll_ok _ _ _ _ _ hT']
  dsimp only
  rw [if_neg (by simp)]
  unfold State.memPerform
  dsimp only
  have hm : maskOf (([] : List (Nat × BitVec 64 × Nat)).map (·.1)) = 0 := rfl
  have hf : (acc.filter fun a => !(0#32).getLsbD a.lane) = acc := by simp
  have hz : ∀ w : Word, w &&& ~~~0 = w := fun w => by
    rw [show (~~~0 : Word) = BitVec.allOnes 32 by decide, BitVec.and_allOnes]
  rw [State.entry_flagged, hm, hs, hz, hz, State.park]
  simp only [List.isEmpty_nil, if_true, hl, if_false]
  have hf2 : (acc.filter fun a => !(0 : Word).getLsbD a.lane) = acc := by simp
  rw [hf2]
  all_goals rfl

theorem memBegin_miss (b : State) (c e slot : Nat) (op : MemOp) (hs : ((b.core c).entry e).slot = slot)
    (hT : ∀ a ∈ op.acc, b.lookup c (b.pdOf c slot) a.va op.kind.access = none) (hne : op.acc ≠ []) :
    b.memBegin c e op = (b.flagged c slot op.flag).updEntry c e fun x => { x with wait := .translate op } := by
  have h0 : b.memBegin c e op = (if ((b.flagged c slot op.flag).transAll c ((b.flagged c slot op.flag).pdOf c slot) op false).2.2.2 then
      ((b.flagged c slot op.flag).transAll c ((b.flagged c slot op.flag).pdOf c slot) op false).1.updEntry c e fun x => { x with wait := .translate op }
      else ((b.flagged c slot op.flag).transAll c ((b.flagged c slot op.flag).pdOf c slot) op false).1.memPerform c e op
        ((b.flagged c slot op.flag).transAll c ((b.flagged c slot op.flag).pdOf c slot) op false).2.1
        ((b.flagged c slot op.flag).transAll c ((b.flagged c slot op.flag).pdOf c slot) op false).2.2.1) := by
    unfold State.memBegin
    dsimp only
    rw [hs]
    cases op.flag <;> rfl
  rw [h0, transAll_miss _ _ _ _ (fun a ha => by rw [State.lookup_flagged, State.pdOf_flagged]; exact hT a ha) hne, if_pos rfl]

theorem State.buf_flagged (s : State) (c slot : Nat) (f : Option Nat) : (s.flagged c slot f).buf = s.buf := by
  cases f <;> rfl

theorem State.markBars_flagged (s : State) (c slot : Nat) (f : Option Nat) : (s.flagged c slot f).markBars = s.markBars := by
  cases f <;> rfl

theorem State.isRemote_flagged (s : State) (c slot : Nat) (f : Option Nat) : (s.flagged c slot f).isRemote = s.isRemote := by
  cases f <;> rfl

theorem State.marksBar_flagged (s : State) (c slot : Nat) (f : Option Nat) (op : MemOp) :
    (s.flagged c slot f).marksBar c slot op = s.marksBar c slot op := by
  simp only [State.marksBar, State.taskOf_flagged, State.task_flagged, State.launch_flagged, State.buf_flagged, State.markBars_flagged]

theorem State.lateCheck_flagged (s : State) (c slot : Nat) (f : Option Nat) (op : MemOp) :
    (s.flagged c slot f).lateCheck c slot op = s.lateCheck c slot op := by
  unfold State.lateCheck
  dsimp only
  rw [State.marksBar_flagged]

theorem Core.relOverlaps_congr {k k' : Core} (h : k'.flights = k.flights) (slot : Nat) (op : MemOp) : k'.relOverlaps slot op = k.relOverlaps slot op := by
  simp only [Core.relOverlaps, Core.relMeets, h]

theorem Core.clearOf_congr {k k' : Core} (h : k'.flights = k.flights) {slot : Nat} {l : List LAcc} {n : Nat} (hc : k.clearOf slot l n) : k'.clearOf slot l n := by
  unfold Core.clearOf; rw [h]; exact hc

/-- What an operation does that takes no value yet. -/
theorem memAct_start (M : State) (c slot : Nat) (op : MemOp) (hc : (M.core c).clearOf slot op.acc op.kind.ty.size) :
    (op.kind.stores = true → op.kind.order.releases = true → M.memAct c slot op =
      M.launchFlight c ⟨slot, ((M.core c).task ((M.core c).taskOfBand slot)).gen, op.lanes, op.flag, .release .plain (.access op)⟩) ∧
    ((∃ ty od, op.kind = .ld ty od) ∨ (∃ w acq, op.kind = .sld w acq) → M.memAct c slot op =
      M.launchFlight c ⟨slot, ((M.core c).task ((M.core c).taskOfBand slot)).gen, op.lanes, op.flag,
        if op.acc.any (fun a => a.t.elim false M.isRemote) then .remote op else .load op⟩) ∧
    (op.kind.stores = true → op.kind.order.releases = false → op.kind.isAtomic = false → M.memAct c slot op =
      M.storeAll c slot (M.launch ((M.core c).task ((M.core c).taskOfBand slot)).launch).pd op
        (M.launch ((M.core c).task ((M.core c).taskOfBand slot)).launch).ftz false) ∧
    (op.kind.isAtomic = true → op.kind.order.releases = false → M.memAct c slot op =
      (M.atomAll c slot (M.launch ((M.core c).task ((M.core c).taskOfBand slot)).launch).pd op).1.launchFlight c
        ⟨slot, ((M.core c).task ((M.core c).taskOfBand slot)).gen, op.lanes, op.flag,
          if op.acc.any (fun a => a.t.elim false M.isRemote) then .remote (M.atomAll c slot (M.launch ((M.core c).task ((M.core c).taskOfBand slot)).launch).pd op).2
            else .atom (M.atomAll c slot (M.launch ((M.core c).task ((M.core c).taskOfBand slot)).launch).pd op).2⟩) ∧
    (∀ p, op.kind = .pw p → (M.core c).clearOf slot (op.acc.map LAcc.blockStart) 512 → M.memAct c slot op =
      (M.pwAct c (M.launch ((M.core c).task ((M.core c).taskOfBand slot)).launch).pd p op.acc).1.launchFlight c
        ⟨slot, ((M.core c).task ((M.core c).taskOfBand slot)).gen, op.lanes, op.flag,
          .pw p (M.pwAct c (M.launch ((M.core c).task ((M.core c).taskOfBand slot)).launch).pd p op.acc).2⟩) := by
  have hst : ∀ (pd before : Nat), (if op.kind.stores = true then M.sampleOlder c slot pd before op.acc op.kind.ty.size else M) = M := fun pd before => by
    split
    · exact State.sampleOlder_clear _ _ _ _ _ _ _ hc
    · rfl
  unfold State.memAct
  dsimp only
  rw [hst]
  obtain ⟨kind, acc, lanes, pc, flag, rm⟩ := op
  dsimp only
  refine ⟨fun h1 h2 => ?_, fun h => ?_, fun h1 h2 h3 => ?_, fun h1 h2 => ?_, fun p h1 h2 => ?_⟩
  · cases kind <;> simp_all [MKind.stores]
  · rcases h with ⟨ty, od, rfl⟩ | ⟨w, acq, rfl⟩ <;> rfl
  · cases kind <;> simp_all [MKind.stores, MKind.isAtomic]
  · cases kind <;> simp_all [MKind.isAtomic]
  · subst h1
    dsimp only
    rw [show 4 ^ 3 * 8 = 512 from rfl, State.sampleOlder_clear _ _ _ _ _ _ _ h2]

theorem KeepsAll.dropFlag (s : State) (c slot : Nat) (f : Option Nat) : KeepsAll s (s.dropFlag c slot f) := by
  cases f with
  | none => exact KeepsAll.refl s
  | some n => rw [State.dropFlag]; exact KeepsAll.updBand _ _ _ _

theorem State.bandTask_passed (s : State) (u : Cursor) (i : Instr) (q : Shape) (d b : Nat) :
    ((s.passed u i q).core d).taskOfBand b = ((s.begun u i q).core d).taskOfBand b := by
  rw [State.passed, State.advance, Core.taskOfBand, Core.taskOfBand]
  dsimp only
  rw [State.band_updEntry, State.updStood]
  split
  · refine State.band_updBand_proj (·.task) _ _ _ _ ?_ _ _
    intro; rfl
  · rw [State.updThreads]
    refine State.band_updBand_proj (·.task) _ _ _ _ ?_ _ _
    intro; rfl

/-- What an instruction saw of its task and launch is as it goes past it. -/
theorem State.passed_task (s : State) (u : Cursor) (i : Instr) (q : Shape) (flag : Option Nat) :
    let M := (s.passed u i q).flagged u.core u.slot flag
    (M.core u.core).taskOfBand u.slot = (s.seen u i q).t ∧ (M.core u.core).task (s.seen u i q).t = (s.seen u i q).task ∧
      M.launch (s.seen u i q).task.launch = (s.seen u i q).l ∧ (M.core u.core).flights = ((s.begun u i q).core u.core).flights ∧
      M.isRemote = s.isRemote := by
  have h1 : (s.seen u i q).t = ((s.begun u i q).core u.core).taskOfBand u.slot := by rw [State.seen]; rfl
  have h2 : (s.seen u i q).task = ((s.begun u i q).core u.core).task (s.seen u i q).t := by rw [State.seen]; rfl
  have h3 : (s.seen u i q).l = (s.begun u i q).launch (s.seen u i q).task.launch := by rw [State.seen]; rfl
  have ho := State.outside_passed s u i q
  have hb := State.outside_begun s u i q
  refine ⟨?_, ?_, ?_, ?_, ?_⟩
  · rw [State.taskOf_flagged, State.bandTask_passed, h1]
  · rw [State.task_flagged, h2]
    exact State.part_passed (·.task (s.seen u i q).t) (fun _ _ => rfl) (fun _ _ => rfl) _ _ _ _ _
  · rw [State.launch_flagged, h3, State.launch, State.launch, show (s.passed u i q).launches = (s.begun u i q).launches from
      (congrArg (fun x : State => x.launches) ho).trans (congrArg (fun x : State => x.launches) hb).symm]
  · exact (State.part_flagged (·.flights) (fun _ _ => rfl) _ _ _ _ _).trans (State.part_passed (·.flights) (fun _ _ => rfl) (fun _ _ => rfl) _ _ _ _ _)
  · rw [State.isRemote_flagged]
    funext t
    unfold State.isRemote State.ownModule
    have hm : (s.passed u i q).mgmt = s.mgmt := by
      have := congrArg (fun x : State => x.mgmt) ho
      exact this
    rw [hm]

theorem memForm_words (i : Instr) (f : MemForm) (h : memForm i = some f) : f.kind.words = f.shape.words := by
  cases i <;> simp only [memForm, reduceCtorEq, Option.some.injEq] at h <;> subst h <;> rfl

theorem memForm_kinds (i : Instr) (f : MemForm) (h : memForm i = some f) : f.kind ≠ .pf := by
  cases i <;> simp only [memForm, reduceCtorEq, Option.some.injEq] at h <;> subst h <;> simp [vLoad, vStore, vAtom, vBlock]

end Sys2Proof.Machine
end

