-- ==== Sys2Proof/Laws/Bytes.lean ====
section
/-! SUPPORT. Bytes of lines and granules, and of the L1 and the scratchpad once bytes are written to them. -/

-- One theorem at a time: the package compiles as one text, and a thread for each open proof asks for a stack of its own.
set_option Elab.async false

namespace Sys2Proof.Machine

/-! ## Bytes of numbers -/

/-- A byte of a number. -/
def byteOf (v j : Nat) : Byte := BitVec.ofNat 8 (v / 256 ^ j)

theorem byteOf_add {a b i : Nat} (ha : a < 256 ^ i) (j : Nat) :
    byteOf (a + 256 ^ i * b) j = if j < i then byteOf a j else byteOf b (j - i) := by
  unfold byteOf
  split
  · rename_i h
    have : 256 ^ i = 256 ^ j * (256 * 256 ^ (i - j - 1)) := by
      rw [← Nat.pow_succ', ← Nat.pow_add]; congr 1; omega
    rw [this, Nat.mul_assoc, Nat.mul_comm (256 ^ j), Nat.add_mul_div_right _ _ (Nat.pos_of_ne_zero (by simp))]
    apply BitVec.eq_of_toNat_eq
    simp only [BitVec.toNat_ofNat]
    rw [show 2 ^ 8 = 256 from rfl, Nat.mul_assoc, Nat.add_mul_mod_self_left]
  · rename_i h
    have : 256 ^ j = 256 ^ i * 256 ^ (j - i) := by rw [← Nat.pow_add]; congr 1; omega
    rw [this, ← Nat.div_div_eq_div_mul, Nat.add_mul_div_left _ _ (Nat.pos_of_ne_zero (by simp)), Nat.div_eq_of_lt ha, Nat.zero_add]

theorem byteOf_mod {v i j : Nat} (h : j < i) : byteOf (v % 256 ^ i) j = byteOf v j := by
  conv_rhs => rw [← Nat.mod_add_div v (256 ^ i)]
  rw [byteOf_add (Nat.mod_lt _ (Nat.pos_of_ne_zero (by simp))), if_pos h]

theorem byteOf_div (v i j : Nat) : byteOf (v / 256 ^ i) j = byteOf v (i + j) := by
  rw [byteOf, byteOf, Nat.div_div_eq_div_mul, ← Nat.pow_add]

theorem ofBytes_lt (l : List Byte) : ofBytes l < 256 ^ l.length := by
  induction l with
  | nil => simp [ofBytes]
  | cons b l ih =>
    rw [ofBytes, List.length_cons, Nat.pow_succ]
    have := b.isLt
    omega

theorem byteOf_ofBytes (l : List Byte) (j : Nat) : byteOf (ofBytes l) j = l.getD j 0 := by
  induction l generalizing j with
  | nil => simp [ofBytes, byteOf]
  | cons b l ih =>
    have hb : b.toNat < 256 ^ 1 := b.isLt
    rw [ofBytes, show 256 * ofBytes l = 256 ^ 1 * ofBytes l by rw [Nat.pow_one], byteOf_add hb]
    cases j with
    | zero => simp [byteOf]
    | succ j => rw [if_neg (by omega), Nat.add_sub_cancel, ih]; rfl

theorem getBytes_one {n : Nat} (x : BitVec n) (i : Nat) : getBytes x i 1 = [byteOf x.toNat i] := rfl

theorem bytesOf_eq (n x : Nat) : bytesOf n x = (List.range n).map (byteOf x) := by
  induction n generalizing x with
  | zero => rfl
  | succ n ih =>
    rw [bytesOf, ih, List.range_succ_eq_map, List.map_cons, List.map_map]
    congr 1
    · rw [byteOf, Nat.pow_zero, Nat.div_one]
    · refine List.map_congr_left fun j _ => ?_
      have := byteOf_div x 1 j
      rw [Nat.pow_one] at this
      rw [this, Function.comp_apply, Nat.add_comm]

theorem bytesOf_length (n x : Nat) : (bytesOf n x).length = n := by simp [bytesOf_eq]

/-- A byte of a value some of whose bytes were replaced. -/
theorem byte_putBytes {N : Nat} (x : BitVec (8 * N)) (i : Nat) (l : List Byte) (j : Nat) (hj : j < N) :
    byteOf (putBytes x i l).toNat j = if i ≤ j ∧ j < i + l.length then l.getD (j - i) 0 else byteOf x.toNat j := by
  have hp : 2 ^ (8 * N) = 256 ^ N := by rw [Nat.pow_mul]
  unfold putBytes
  dsimp only
  rw [BitVec.toNat_ofNat, hp, byteOf_mod hj]
  have hv : x.toNat % 256 ^ i + ofBytes l * 256 ^ i + x.toNat / 256 ^ (i + l.length) * 256 ^ (i + l.length) =
      x.toNat % 256 ^ i + 256 ^ i * (ofBytes l + 256 ^ l.length * (x.toNat / 256 ^ (i + l.length))) := by
    rw [Nat.pow_add]; ring
  rw [hv, byteOf_add (Nat.mod_lt _ (Nat.pos_of_ne_zero (by simp)))]
  by_cases h1 : j < i
  · rw [if_pos h1, byteOf_mod h1, if_neg (by omega)]
  · rw [if_neg h1, byteOf_add (ofBytes_lt l)]
    by_cases h2 : j < i + l.length
    · rw [if_pos (by omega), if_pos ⟨by omega, h2⟩, byteOf_ofBytes]
    · rw [if_neg (by omega), if_neg (by omega), byteOf_div]; congr 1; omega

/-! ## The L1 -/

theorem Core.l1Find_put (k : Core) (l : L1Line) (ln : Nat) : (k.l1Put l).l1Find ln = if ln = l.line then some l else k.l1Find ln := by
  unfold Core.l1Find Core.l1Put
  dsimp only
  rw [List.find?_append]
  by_cases h : ln = l.line
  · rw [if_pos h]
    have : (k.l1.filter (·.line != l.line)).find? (·.line == ln) = none := by
      rw [List.find?_eq_none]
      intro x hx
      rw [List.mem_filter] at hx
      rw [h]; simpa using hx.2
    rw [this]; simp [h]
  · rw [if_neg h]
    have h2 : [l].find? (·.line == ln) = none := by simp [Ne.symm h]
    rw [h2, Option.or_none, List.find?_filter]
    congr 1
    funext x
    by_cases hx : x.line = ln
    · simp [hx, h]
    · simp [hx]

theorem dirty_fold (l : L1Line) (i n slot : Nat) :
    let w := (List.range n).foldl (fun (l : L1Line) j =>
      { l with dirty := l.dirty ||| BitVec.ofNat 128 (2 ^ (i + j)), writer := mapSet l.writer (i + j) slot }) l
    w.data = l.data ∧ w.valid = l.valid ∧ w.line = l.line ∧
      ∀ j < 128, w.dirty.getLsbD j = (l.dirty.getLsbD j || decide (i ≤ j ∧ j < i + n)) := by
  induction n with
  | zero => refine ⟨rfl, rfl, rfl, fun j _ => ?_⟩; rw [decide_eq_false (by omega), Bool.or_false]; rfl
  | succ n ih =>
    rw [List.range_succ, List.foldl_append, List.foldl_cons, List.foldl_nil]
    dsimp only at ih ⊢
    obtain ⟨h1, h2, h3, h4⟩ := ih
    refine ⟨h1, h2, h3, fun j hj => ?_⟩
    rw [BitVec.getLsbD_or, h4 j hj, Bool.or_assoc]
    congr 1
    rw [BitVec.getLsbD, BitVec.toNat_ofNat]
    have : (2 ^ (i + n) % 2 ^ 128).testBit j = decide (j = i + n) := by
      rw [Nat.testBit_mod_two_pow, Nat.testBit_two_pow]
      by_cases h : i + n = j <;> simp [h, hj]
      intro h'; exact absurd h'.symm h
    rw [this]
    by_cases h : j = i + n
    · simp [h]
    · have : (i ≤ j ∧ j < i + n) ↔ (i ≤ j ∧ j < i + (n + 1)) := by omega
      simp only [h, decide_false, Bool.or_false, this]

/-- The bytes that a core reads after a store to its L1. -/
theorem State.byteAt_storeBytes (s : State) (c slot : Nat) (lanes : Word) (pd : Nat) (t : Trans) (bs : List Byte) (ht : t.mty ≤ 2)
    (hl : t.off % 128 + bs.length ≤ 128) (d pa : Nat) :
    (s.storeBytes c slot lanes pd t bs).byteAt d pa = if d = c then putByte (s.placeOf t) bs pa (s.byteAt d pa) else s.byteAt d pa := by
  have hc : State.cached t = true := by simp [State.cached, ht]
  rw [State.storeBytes, hc, if_pos rfl, State.l1Store]
  dsimp only
  generalize hln : (s.buf t.buf).place t.off / 128 = ln
  generalize hw0 : ((s.core c).l1Find ln).getD ⟨ln, t.buf, t.off / 128 * 128, pd, false, 0, 0, []⟩ = l0
  have hl0 : l0.line = ln := by
    rw [← hw0]
    cases hf : (s.core c).l1Find ln with
    | none => rfl
    | some x =>
      have := List.find?_some hf
      simpa using this
  have hd := dirty_fold { l0 with data := putBytes l0.data (t.off % 128) bs } (t.off % 128) bs.length slot
  dsimp only at hd
  generalize (List.range bs.length).foldl (fun (l : L1Line) j =>
      { l with dirty := l.dirty ||| BitVec.ofNat 128 (2 ^ (t.off % 128 + j)), writer := mapSet l.writer (t.off % 128 + j) slot })
    { l0 with data := putBytes l0.data (t.off % 128) bs } = l1 at hd ⊢
  obtain ⟨h1, h2, h3, h4⟩ := hd
  have hplace : s.placeOf t = 128 * ln + t.off % 128 := by rw [State.placeOf, hln]; omega
  have hhome : ∀ k, (s.setCore c k).homeByte pa = s.homeByte pa := fun _ => rfl
  unfold State.byteAt
  rw [hhome, State.core_setCore]
  by_cases hdc : d = c
  · subst hdc
    rw [if_pos rfl, if_pos rfl]
    have hfind : ∀ (k : Core) (y : List Registration), ({ k with regs := y } : Core).l1Find (pa / 128) = k.l1Find (pa / 128) := fun _ _ => rfl
    rw [hfind, Core.l1Find_put]
    rw [h3, hl0, hplace]
    by_cases hp : pa / 128 = ln
    · rw [if_pos hp]
      dsimp only
      have hj : pa % 128 < 128 := Nat.mod_lt _ (by omega)
      have hsplit : pa = 128 * ln + pa % 128 := by omega
      have hhas : l1.has (pa % 128) 1 =
          (l0.has (pa % 128) 1 || decide (t.off % 128 ≤ pa % 128 ∧ pa % 128 < t.off % 128 + bs.length)) := by
        simp only [L1Line.has, List.range_one, List.all_cons, List.all_nil, Bool.and_true, Nat.add_zero, h2, h4 _ hj, Bool.or_assoc]
      rw [hhas, h1, getBytes_one, byte_putBytes (N := 128) _ _ _ _ hj]
      unfold putByte
      by_cases hin : t.off % 128 ≤ pa % 128 ∧ pa % 128 < t.off % 128 + bs.length
      · rw [decide_eq_true hin, Bool.or_true, if_pos rfl, if_pos hin, if_pos (by omega)]
        rw [List.headD_cons]; congr 1; omega
      · rw [decide_eq_false hin, Bool.or_false, if_neg hin, List.headD_cons,
          if_neg (show ¬(128 * ln + t.off % 128 ≤ pa ∧ pa < 128 * ln + t.off % 128 + bs.length) by omega)]
        rw [hp]
        cases hf : (s.core d).l1Find ln with
        | none => rw [hf] at hw0; rw [← hw0]; simp [L1Line.has]
        | some x => rw [hf] at hw0; rw [← hw0]; rfl
    · rw [if_neg hp]
      unfold putByte
      rw [if_neg (by omega)]
  · rw [if_neg hdc, if_neg hdc]

/-! ## The scratchpad -/

/-- A granule of scratchpad under a generation. -/
def Core.spRow (k : Core) (gen : BitVec 16) (g : Nat) : BitVec 512 :=
  match mapGet k.scratch g with
  | some r => if r.gen = gen then r.data else 0
  | none => 0

/-- A byte of scratchpad under a generation. -/
def Core.spByte (k : Core) (gen : BitVec 16) (a : Nat) : Byte := byteOf (k.spRow gen (a / 64)).toNat (a % 64)

theorem Core.spRead_one (k : Core) (gen : BitVec 16) (a : Nat) : (k.spRead gen a 1).1.headD 0 = k.spByte gen a := by
  unfold Core.spRead Core.spByte Core.spRow
  dsimp only
  rw [List.range_one, List.map_cons, List.map_nil, List.headD_cons, getBytes_one, List.headD_cons, Nat.add_zero]
  cases mapGet k.scratch (a / 64) with
  | none => rfl
  | some r => dsimp only; split <;> rfl

theorem getD_sliceN (l : List Byte) (i n j : Nat) (hj : j < n) : (sliceN l i n).getD j 0 = l.getD (i + j) 0 := by
  rw [sliceN, List.getD_eq_getElem?_getD, List.getD_eq_getElem?_getD, List.getElem?_take, if_pos hj, List.getElem?_drop]

theorem length_sliceN (l : List Byte) (i n : Nat) (h : i + n ≤ l.length) : (sliceN l i n).length = n := by
  rw [sliceN, List.length_take, List.length_drop]; omega

/-- Bytes written in one granule. -/
theorem spByte_put (k : Core) (gen : BitVec 16) (o : Nat) (f : BitVec 4) (sl : List Byte) (h : o % 64 + sl.length ≤ 64) (a : Nat) :
    ({ k with scratch := mapSet k.scratch (o / 64) ⟨gen, f, putBytes (k.spRow gen (o / 64)) (o % 64) sl⟩ } : Core).spByte gen a =
      if o ≤ a ∧ a < o + sl.length then sl.getD (a - o) 0 else k.spByte gen a := by
  unfold Core.spByte
  by_cases hg : a / 64 = o / 64
  · have : ({ k with scratch := mapSet k.scratch (o / 64) ⟨gen, f, putBytes (k.spRow gen (o / 64)) (o % 64) sl⟩ } : Core).spRow gen (a / 64) =
        putBytes (k.spRow gen (o / 64)) (o % 64) sl := by
      unfold Core.spRow
      dsimp only
      rw [hg, mapGet_mapSet_self]
      dsimp only
      rw [if_pos rfl]
    rw [this, byte_putBytes (N := 64) _ _ _ _ (Nat.mod_lt _ (by omega)), hg]
    by_cases hin : o ≤ a ∧ a < o + sl.length
    · rw [if_pos hin, if_pos (by omega)]; congr 1; omega
    · rw [if_neg hin, if_neg (by omega)]
  · have : ({ k with scratch := mapSet k.scratch (o / 64) ⟨gen, f, putBytes (k.spRow gen (o / 64)) (o % 64) sl⟩ } : Core).spRow gen (a / 64) =
        k.spRow gen (a / 64) := by
      unfold Core.spRow
      dsimp only
      rw [mapGet_mapSet_ne _ _ hg]
    rw [this, if_neg (by omega)]

/-- Bytes written in the granules of a piece of a line. -/
theorem spByte_pieces64 (k : Core) (gen : BitVec 16) (at_ : Nat) (bs : List Byte) (fmt : Nat → BitVec 4) (o n : Nat) (h1 : n ≤ 128 - o % 128)
    (h2 : at_ ≤ o) (h3 : o + n ≤ at_ + bs.length) (a : Nat) :
    ((Core.spWrite.pieces64 o n).foldl (fun k q =>
      { k with scratch := mapSet k.scratch (q.1 / 64) ⟨gen, fmt (q.1 / 64), putBytes (k.spRow gen (q.1 / 64)) (q.1 % 64) (sliceN bs (q.1 - at_) q.2)⟩ }) k).spByte gen a =
      if o ≤ a ∧ a < o + n then bs.getD (a - at_) 0 else k.spByte gen a := by
  have step : ∀ (k : Core) (o n : Nat), o % 64 + n ≤ 64 → at_ ≤ o → o + n ≤ at_ + bs.length →
      ({ k with scratch := mapSet k.scratch (o / 64) ⟨gen, fmt (o / 64), putBytes (k.spRow gen (o / 64)) (o % 64) (sliceN bs (o - at_) n)⟩ } : Core).spByte gen a =
        if o ≤ a ∧ a < o + n then bs.getD (a - at_) 0 else k.spByte gen a := by
    intro k o n h h2 h3
    have hl : (sliceN bs (o - at_) n).length = n := length_sliceN _ _ _ (by omega)
    rw [spByte_put _ _ _ _ _ (by rw [hl]; exact h), hl]
    by_cases hin : o ≤ a ∧ a < o + n
    · rw [if_pos hin, if_pos hin, getD_sliceN _ _ _ _ (by omega)]; congr 1; omega
    · rw [if_neg hin, if_neg hin]
  unfold Core.spWrite.pieces64
  dsimp only
  split
  · rw [List.foldl_cons, List.foldl_nil]
    exact step k o n (by omega) h2 h3
  · rename_i hne
    have hm : min n (64 - o % 64) = 64 - o % 64 := by omega
    rw [hm, List.foldl_cons, List.foldl_cons, List.foldl_nil]
    rw [step _ (o + (64 - o % 64)) (n - (64 - o % 64)) (by omega) (by omega) (by omega), step k o (64 - o % 64) (by omega) h2 (by omega)]
    by_cases hin : o ≤ a ∧ a < o + n
    · rw [if_pos hin]
      by_cases hh : a < o + (64 - o % 64)
      · rw [if_neg (by omega), if_pos ⟨hin.1, hh⟩]
      · rw [if_pos (by omega)]
    · rw [if_neg hin, if_neg (by omega), if_neg (by omega)]

/-- A byte of scratchpad after bytes are written. -/
theorem spByte_spWrite (k : Core) (gen : BitVec 16) (at_ : Nat) (bs : List Byte) (fmt : Nat → BitVec 4) (a : Nat) :
    (k.spWrite gen at_ bs fmt).spByte gen a = if at_ ≤ a ∧ a < at_ + bs.length then bs.getD (a - at_) 0 else k.spByte gen a := by
  have key : ∀ (fuel o n : Nat) (k : Core), n = 0 ∨ o % 128 + n ≤ 128 * fuel → at_ ≤ o → o + n ≤ at_ + bs.length →
      ((pieces fuel o n).foldl (fun k p => (Core.spWrite.pieces64 p.1 p.2).foldl (fun k q =>
        { k with scratch := mapSet k.scratch (q.1 / 64) ⟨gen, fmt (q.1 / 64), putBytes (k.spRow gen (q.1 / 64)) (q.1 % 64) (sliceN bs (q.1 - at_) q.2)⟩ }) k) k).spByte gen a =
        if o ≤ a ∧ a < o + n then bs.getD (a - at_) 0 else k.spByte gen a := by
    intro fuel
    induction fuel with
    | zero =>
      intro o n k h _ _
      rw [pieces, List.foldl_nil, if_neg (by omega)]
    | succ fuel ih =>
      intro o n k h h2 h3
      rw [pieces]
      by_cases hn : n = 0
      · rw [if_pos hn, List.foldl_nil, if_neg (by omega)]
      · rw [if_neg hn]
        dsimp only
        rw [List.foldl_cons]
        generalize hm : min n (128 - o % 128) = m
        have hm1 : m ≤ n := by omega
        have hm2 : m ≤ 128 - o % 128 := by omega
        have hb : n - m = 0 ∨ (o + m) % 128 + (n - m) ≤ 128 * fuel := by
          by_cases hc : n ≤ 128 - o % 128
          · exact .inl (by omega)
          · have : m = 128 - o % 128 := by omega
            exact .inr (by omega)
        rw [ih (o + m) (n - m) _ hb (by omega) (by omega), spByte_pieces64 k gen at_ bs fmt o m hm2 h2 (by omega)]
        by_cases hin : o ≤ a ∧ a < o + n
        · rw [if_pos hin]
          by_cases hh : a < o + m
          · rw [if_neg (by omega), if_pos ⟨hin.1, hh⟩]
          · rw [if_pos (by omega)]
        · rw [if_neg hin, if_neg (by omega), if_neg (by omega)]
  have := key (bs.length / 64 + 2) at_ bs.length k (.inr (by omega)) (Nat.le_refl _) (Nat.le_refl _)
  unfold Core.spWrite
  exact this

end Sys2Proof.Machine
end

