-- ==== Sys2Proof/Laws/Completions.lean ====
section
/-! SUPPORT. What the end of a memory access leaves, and the scratchpad. -/

-- One theorem at a time: the package compiles as one text, and a thread for each open proof asks for a stack of its own.
set_option Elab.async false

namespace Sys2Proof.Machine

theorem plain_store (k : MKind) (t : Trans) (a : LAcc) (rm : BitVec 2) (ftz : Bool) (h : t.plain) :
    encodeStore k t a rm ftz = (bytesOf k.ty.size a.data.toNat, flNone) := by
  have : codedAccess k t a.va = false := by simp [codedAccess, decodesMx, h.2]
  rw [encodeStore, this]; rfl

theorem storeLane_plain (s : State) (c slot pd : Nat) (op : MemOp) (ftz : Bool) (a : LAcc) (t : Trans) (ht : a.t = some t) (h : t.plain) :
    s.storeLane c slot pd op ftz false a =
      (s.storeBytes c slot (if op.kind.uniform then op.lanes else laneBit a.lane) pd t (bytesOf op.kind.ty.size a.data.toNat), flNone) := by
  rw [State.storeLane, ht]
  dsimp only
  rw [if_neg (by simp [h.2]), plain_store _ _ _ _ _ h]
  rfl

theorem outside_storeBytes (s : State) (c slot : Nat) (lanes : Word) (pd : Nat) (t : Trans) (bs : List Byte) :
    (s.storeBytes c slot lanes pd t bs).outside = s.outside := by
  rw [State.storeBytes_eq, State.outside_updCore]

theorem spByte_storeBytes (s : State) (c slot : Nat) (lanes : Word) (pd : Nat) (t : Trans) (bs : List Byte) (h : t.mty ≤ 2) (d : Nat) (gen : BitVec 16) (a : Nat) :
    (s.storeBytes c slot lanes pd t bs).spByte d gen a = s.spByte d gen a := by
  have hc : State.cached t = true := by simp [State.cached, h]
  rw [State.storeBytes, hc, if_pos rfl, State.l1Store]
  dsimp only
  unfold State.spByte
  rw [State.core_setCore]
  split
  · subst d; rfl
  · rfl

theorem fl_fold (l : List LAcc) (h : ∀ a ∈ l, a.fl = flNone) : l.foldl (fun x a => x ||| a.fl) flNone = flNone := by
  induction l with
  | nil => rfl
  | cons a l ih =>
    rw [List.foldl_cons, h a (List.mem_cons_self ..), show (flNone ||| flNone) = flNone from rfl]
    exact ih fun b hb => h b (List.mem_cons_of_mem _ hb)

/-- The values of lanes that met no error are written, and the operation is over. -/
theorem ends_clean (s : State) (c id : Nat) (f : Flight) (ty : MTy) (acc : List LAcc) (whole : Bool) (w : List (Loc × Word))
    (h : ∀ a ∈ acc, a.err = 0 ∧ a.fl = flNone) (hw : w = acc.flatMap fun a => a.writes ty (a.val.getD 0)) :
    (s.writeLanes c f ty acc).endFlight c id f acc whole =
      ((s.updCore c (·.writeLocs f.slot f.gen w)).dropFlight c id).dropFlag c f.slot f.flag := by
  have hg : (acc.filter fun a => a.err == 0) = acc := by
    rw [List.filter_eq_self]; intro a ha; rw [(h a ha).1]; rfl
  have hn : acc.find? (fun a => a.err != 0) = none := by
    rw [List.find?_eq_none]; intro a ha; rw [(h a ha).1]; simp
  unfold State.endFlight State.writeLanes
  dsimp only
  rw [hg, hn, fl_fold acc fun a ha => (h a ha).2, if_pos rfl, hw]

theorem delivers_clean (s : State) (c id : Nat) (f : Flight) (w : List (Loc × Word)) (hp : (mapGet (s.core c).bands f.slot).isSome = true) (hd : Distinct w) :
    s.Delivers c id f w flNone (((s.updCore c (·.writeLocs f.slot f.gen w)).dropFlight c id).dropFlag c f.slot f.flag) :=
  State.delivers s c id f w flNone hp hd _ rfl _ rfl

theorem finishMem_clean (s : State) (c id : Nat) (f : Flight) (op : MemOp) (w : List (Loc × Word)) (h : ∀ a ∈ op.acc, a.err = 0 ∧ a.fl = flNone)
    (ha : op.kind.order.acquires = false) (hw : w = op.acc.flatMap fun a => a.writes op.kind.ty (a.val.getD 0)) :
    s.finishMem c id f op = ((s.updCore c (·.writeLocs f.slot f.gen w)).dropFlight c id).dropFlag c f.slot f.flag := by
  unfold State.finishMem
  dsimp only
  rw [ha, if_neg (by simp)]
  exact ends_clean s c id f _ _ _ w h hw

/-- A load that its core's L1 serves takes the bytes there. -/
theorem sample_held (s : State) (c pd : Nat) (k : MKind) (a : LAcc) (t : Trans) (ht : a.t = some t) (hp : t.plain) (hv : a.val = none)
    (hh : s.holds c t k.ty.size) (ha : k.order.acquires = false) :
    s.sample c pd k a = (s, { a with val := some (placeVal k.ty (s.wordAt c (s.placeOf t) k.ty.size)), err := 0 }) := by
  have hcod : codedAccess k t a.va = false := by simp [codedAccess, decodesMx, hp.2]
  have hrem : s.isRemote t = false := by
    have : t.mty ≠ 4 := by have := hp.1; omega
    simp [State.isRemote, this]
  have hc : State.cached t = true := by simp [State.cached, hp.1]
  obtain ⟨h1, l, hl, hhas⟩ := hh
  have hplace : s.placeOf t / 128 = (s.buf t.buf).place t.off / 128 := by rw [State.placeOf]; omega
  have hmod : s.placeOf t % 128 = t.off % 128 := by rw [State.placeOf]; omega
  rw [hplace] at hl
  have hbytes : getBytes l.data (t.off % 128) k.ty.size = (List.range k.ty.size).map fun j => s.byteAt c (s.placeOf t + j) := by
    rw [getBytes, bytesOf_eq]
    refine List.map_congr_left fun j hj => ?_
    rw [List.mem_range] at hj
    rw [byteOf_div]
    unfold State.byteAt
    have e1 : (s.placeOf t + j) / 128 = (s.buf t.buf).place t.off / 128 := by rw [← hplace]; omega
    have e2 : (s.placeOf t + j) % 128 = t.off % 128 + j := by omega
    rw [e1, hl]
    dsimp only
    rw [e2, if_pos, getBytes_one, List.headD_cons]
    simp only [L1Line.has, Bool.or_eq_true, List.all_eq_true, List.mem_range] at hhas ⊢
    rcases hhas with hh | hh
    · exact .inl hh
    · exact .inr fun x hx => by rw [show x = 0 by omega, Nat.add_zero]; exact hh j hj
  unfold State.sample
  rw [ht, hv]
  dsimp only
  rw [hcod, if_pos (by simp), if_neg (by simp [hp.2]), State.loadBytes, hrem, if_neg (by simp), hc, if_neg (by simp), ha, if_neg (by simp), State.l1Load]
  rw [hl]
  dsimp only
  rw [hhas, if_pos rfl, hbytes]
  rfl

theorem sampleAll_held (s : State) (c pd : Nat) (k : MKind) (l : List LAcc) (ha : k.order.acquires = false)
    (h : ∀ a ∈ l, a.val = none ∧ ∃ t, a.t = some t ∧ t.plain ∧ s.holds c t k.ty.size) :
    s.sampleAll c pd k l (fun _ => true) = (s, l.map fun a => { a with val := some (placeVal k.ty (s.laneWord c k.ty.size a)), err := 0 }) := by
  unfold State.sampleAll
  suffices H : ∀ pre, l.foldl (fun r a => if (fun _ => true) a = true then ((r.1.sample c pd k a).1, r.2 ++ [(r.1.sample c pd k a).2]) else (r.1, r.2 ++ [a])) (s, pre) =
      (s, pre ++ l.map fun a => { a with val := some (placeVal k.ty (s.laneWord c k.ty.size a)), err := 0 }) by
    exact H []
  induction l with
  | nil => intro pre; simp
  | cons a l ih =>
    intro pre
    obtain ⟨hv, t, ht, hp, hh⟩ := h a (List.mem_cons_self ..)
    rw [List.foldl_cons, sample_held s c pd k a t ht hp hv hh ha]
    dsimp only
    rw [if_pos rfl, ih (fun b hb => h b (List.mem_cons_of_mem _ hb)), List.map_cons, List.append_assoc, State.laneWord, ht]
    rfl

theorem sts_fold (L : List Nat) (k : Core) (gen : BitVec 16) (at_ : Nat → Nat) (bs : Nat → List Byte) (f : BitVec 4) (a : Nat) :
    (L.foldl (fun k l => k.spWrite gen (at_ l) (bs l) fun _ => f) k).spByte gen a =
      L.foldl (fun b l => putByte (at_ l) (bs l) a b) (k.spByte gen a) := by
  induction L generalizing k with
  | nil => rfl
  | cons l L ih => rw [List.foldl_cons, List.foldl_cons, ih, spByte_spWrite]; rfl

theorem foldl_keeps {α β γ : Type} (p : α → γ) (f : α → β → α) (h : ∀ a b, p (f a b) = p a) (L : List β) (a : α) : p (L.foldl f a) = p a := by
  induction L generalizing a with
  | nil => rfl
  | cons b L ih => rw [List.foldl_cons, ih, h]

theorem spWrite_part {β : Type} (p : Core → β) (hp : ∀ k x, p { k with scratch := x } = p k) (k : Core) (gen : BitVec 16) (at_ : Nat) (bs : List Byte)
    (f : Nat → BitVec 4) : p (k.spWrite gen at_ bs f) = p k := by
  unfold Core.spWrite
  exact foldl_keeps p _ (fun k _ => foldl_keeps p _ (fun k _ => hp _ _) _ k) _ k

end Sys2Proof.Machine
end

