-- ==== Sys2Proof/Laws/Quiet.lean ====
section
/-! SUPPORT. What no access of memory touches, whoever makes it: all but memory, the domes, the L1s' contents, the counters of pages
and events, the frames sent out, and what a refused store leaves for the next release. -/

-- One theorem at a time: the package compiles as one text, and a thread for each open proof asks for a stack of its own.
set_option Elab.async false

namespace Sys2Proof.Machine

/-- A state without what accesses of memory change. -/
def State.still (s : State) : State :=
  { s with cores := [], mem := [], halfKey := [], domes := [], replicas := [], counters := [], posted := [],
           rings := { s.rings with tierPend := [] }, events := [], nextAge := 0, out := [], fresh := 0, marks := [], overflowed := [],
           pwOwner := [] }

/-- A core without what they change. -/
def Core.calm (k : Core) : Core := { k with l1 := [], pw := [], bands := [], regs := [], requests := [], tlb := [] }

def Band.calm (b : Band) : Band := { b with relFail := [] }

structure Quiet (s t : State) : Prop where
  still : t.still = s.still
  core : ∀ c, (t.core c).calm = (s.core c).calm
  band : ∀ c b, ((t.core c).band b).calm = ((s.core c).band b).calm ∧
    (mapGet (t.core c).bands b).isSome = (mapGet (s.core c).bands b).isSome
  lines : ∀ c, (t.core c).l1.map (·.line) = (s.core c).l1.map (·.line)

theorem Quiet.refl (s : State) : Quiet s s := ⟨rfl, fun _ => rfl, fun _ _ => ⟨rfl, rfl⟩, fun _ => rfl⟩

theorem Quiet.trans {a b d : State} (h : Quiet a b) (g : Quiet b d) : Quiet a d :=
  ⟨g.still.trans h.still, fun c => (g.core c).trans (h.core c),
    fun c e => ⟨(g.band c e).1.trans (h.band c e).1, (g.band c e).2.trans (h.band c e).2⟩, fun c => (g.lines c).trans (h.lines c)⟩

/-- Only what is outside the cores differs, and nothing that is still. -/
theorem Quiet.outer {s t : State} (h : t.still = s.still) (hc : t.cores = s.cores) : Quiet s t := by
  have : t.core = s.core := by funext c; unfold State.core; rw [hc]
  exact ⟨h, fun c => by rw [this], fun c b => by rw [this]; exact ⟨rfl, rfl⟩, fun c => by rw [this]⟩

theorem Quiet.updCore (s : State) (c : Nat) (f : Core → Core) (h1 : ∀ k, (f k).calm = k.calm) (h2 : ∀ k, (f k).bands = k.bands)
    (h3 : ∀ k, (f k).l1.map (·.line) = k.l1.map (·.line)) : Quiet s (s.updCore c f) where
  still := rfl
  core d := by
    rw [State.core_updCore]
    split
    · exact h1 _
    · rfl
  band d b := by
    rw [State.core_updCore]
    split
    · unfold Core.band; rw [h2]; exact ⟨rfl, rfl⟩
    · exact ⟨rfl, rfl⟩
  lines d := by
    rw [State.core_updCore]
    split
    · exact h3 _
    · rfl

theorem Quiet.foldl {α : Type} {f : State → α → State} (l : List α) (h : ∀ s, ∀ a ∈ l, Quiet s (f s a)) (s : State) : Quiet s (l.foldl f s) := by
  induction l generalizing s with
  | nil => exact Quiet.refl s
  | cons a l ih =>
    rw [List.foldl_cons]
    exact (h s a (List.mem_cons_self ..)).trans (ih (fun s b hb => h s b (List.mem_cons_of_mem _ hb)) _)

/-- The same of a fold whose state is a part of what it carries. -/
theorem Quiet.foldlP {α β : Type} {f : State × β → α → State × β} (l : List α) (h : ∀ r, ∀ a ∈ l, Quiet r.1 (f r a).1) (r : State × β) :
    Quiet r.1 (l.foldl f r).1 := by
  induction l generalizing r with
  | nil => exact Quiet.refl _
  | cons a l ih =>
    rw [List.foldl_cons]
    exact (h r a (List.mem_cons_self ..)).trans (ih (fun r b hb => h r b (List.mem_cons_of_mem _ hb)) _)

theorem Quiet.ite {s t v : State} {p : Prop} [Decidable p] (h : Quiet s t) (g : Quiet s v) : Quiet s (if p then t else v) := by
  split
  · exact h
  · exact g

theorem Quiet.iteP {β : Type} {s : State} {t v : State × β} {p : Prop} [Decidable p] (h : Quiet s t.1) (g : Quiet s v.1) :
    Quiet s (if p then t else v).1 := by
  split
  · exact h
  · exact g

/-! ## The home domes -/

theorem Quiet.failRelease (s : State) (c slot d : Nat) : Quiet s (s.failRelease c slot d) where
  still := rfl
  core e := by
    rw [State.failRelease, State.updBand, State.core_updCore]
    split <;> rfl
  band e b := by
    rw [State.failRelease, State.updBand, State.core_updCore]
    split
    · simp only [Core.updBand, Core.band, mapGetD, mapGet_mapUpd]
      by_cases h : b = slot
      · rw [if_pos h, h]
        cases mapGet (s.core e).bands slot <;> exact ⟨rfl, rfl⟩
      · rw [if_neg h]; exact ⟨rfl, rfl⟩
    · exact ⟨rfl, rfl⟩
  lines e := by
    rw [State.failRelease, State.updBand, State.core_updCore]
    split <;> rfl

theorem Quiet.dropReplicas (s : State) (ln : Nat) : Quiet s (s.dropReplicas ln) := .outer rfl rfl

theorem Quiet.setDomes (s : State) (x : Map DomeLine) : Quiet s { s with domes := x } := .outer rfl rfl

theorem Quiet.putLine (s : State) (ln at_ : Nat) (bs : List Byte) : Quiet s (s.putLine ln at_ bs) := .outer rfl rfl

theorem Quiet.count (s : State) (p n i : Nat) : Quiet s (s.count p n i) := .outer rfl rfl

theorem Quiet.countAt (s : State) (c n i : Nat) : Quiet s (s.countAt c n i) := .outer rfl rfl

theorem Quiet.countPage (s : State) (pa : Nat) : Quiet s (s.countPage pa) := by
  unfold State.countPage
  dsimp only
  split
  · exact .outer rfl rfl
  · split <;> exact .outer rfl rfl

theorem Quiet.putHalf (s : State) (key : Option Key) (pa : Nat) (d : BitVec 512) : Quiet s (s.putHalf key pa d) := .outer rfl rfl

theorem Quiet.backBytes (s : State) (c : Nat) (l : L1Line) (sel : Nat → Bool) : Quiet s (s.backBytes c l sel) := by
  unfold State.backBytes
  dsimp only
  exact .ite (.refl s) (.ite (.foldl _ (fun s i _ => .putLine _ _ _ _) s) (.foldl _ (fun s i _ => .failRelease _ _ _ _) s))

theorem Quiet.cleanLines (s : State) (c ln : Nat) (sel : Nat → Bool) :
    Quiet s (s.updCore c fun k => { k with l1 := k.l1.map fun l => if l.line = ln then l.clean sel else l }) := by
  refine .updCore _ _ _ (fun _ => rfl) (fun _ => rfl) fun k => ?_
  dsimp only
  rw [List.map_map]
  refine List.map_congr_left fun l _ => ?_
  simp only [Function.comp]
  split <;> rfl

theorem Quiet.recall (s : State) (ln : Nat) (words : Word) (but : Option Nat) : Quiet s (s.recall ln words but) := by
  unfold State.recall
  cases mapGet s.domes ln with
  | none => exact .refl s
  | some d =>
    dsimp only
    refine .trans (.foldl _ ?_ s) (Quiet.setDomes _ _)
    intro s o _
    exact (Quiet.foldl _ (fun s l _ => .backBytes _ _ _ _) s).trans (.cleanLines _ _ _ _)

theorem Quiet.flushLine (s : State) (ln : Nat) : Quiet s (s.flushLine ln) := by
  unfold State.flushLine
  cases mapGet s.domes ln with
  | none => exact .refl s
  | some d =>
    dsimp only
    refine .trans ?_ (Quiet.setDomes _ _)
    refine .trans (b := if d.dirty0 = true then (s.countPage (ln * 128)).putHalf (s.keyOf d.enc d.key) (ln * 128) (d.data.extractLsb' 0 512) else s) ?_ ?_
    · exact .ite ((Quiet.countPage _ _).trans (.putHalf _ _ _ _)) (.refl s)
    · exact .ite ((Quiet.countPage _ _).trans (.putHalf _ _ _ _)) (.refl _)

theorem Quiet.evictLine (s : State) (ln : Nat) : Quiet s (s.evictLine ln) := by
  unfold State.evictLine
  exact ((Quiet.recall _ _ _ _).trans ((Quiet.dropReplicas _ _).trans (.flushLine _ _))).trans (Quiet.setDomes _ _)

theorem Quiet.makeRoom (s : State) (ln : Nat) : Quiet s (s.makeRoom ln) := by
  unfold State.makeRoom
  dsimp only
  split
  · exact .refl s
  · split
    · exact .evictLine _ _
    · exact .refl s

theorem Quiet.fill (s : State) (enc : Bool) (key pd hmask ln : Nat) : Quiet s (s.fill enc key pd hmask ln).1 := by
  unfold State.fill
  split
  · exact .refl s
  · split
    · exact .refl s
    · dsimp only
      refine .trans (b := ((s.makeRoom ln).countPage (ln * 128)).count (domeSpire (homeDome ln)) 6 1) ?_ (.outer rfl rfl)
      exact (Quiet.makeRoom s ln).trans ((Quiet.countPage _ _).trans (.count _ _ _ _))

theorem Quiet.fillBuf (s : State) (b : Buf) (ln : Nat) : Quiet s (s.fillBuf b ln).1 := .fill _ _ _ _ _ _

theorem Quiet.readAt (s : State) (a : Asker) (buf o n : Nat) : Quiet s (s.readAt a buf o n).1 := by
  unfold State.readAt
  refine Quiet.foldlP _ (fun r p _ => ?_) (s, 0, [])
  dsimp only
  refine .iteP (.refl _) (.iteP (.refl _) ?_)
  exact .iteP (.fillBuf _ _ _) (.fillBuf _ _ _)

theorem Quiet.writeAt (s : State) (a : Asker) (buf o : Nat) (bs : List Byte) : Quiet s (s.writeAt a buf o bs).1 := by
  unfold State.writeAt
  refine Quiet.foldlP _ (fun r p _ => ?_) (s, 0)
  dsimp only
  refine .iteP (.refl _) (.iteP (.refl _) ?_)
  exact .iteP (.fillBuf _ _ _) ((Quiet.fillBuf _ _ _).trans ((Quiet.recall _ _ _ _).trans (.putLine _ _ _ _)))

theorem Quiet.readPhys (s : State) (pa n : Nat) : Quiet s (s.readPhys pa n).1 := Quiet.fill _ _ _ _ _ _

theorem Quiet.mark (s : State) (launch task ln : Nat) (words : Word) : Quiet s (s.mark launch task ln words) := by
  unfold State.mark
  split
  · exact .refl s
  · split <;> exact .outer rfl rfl

/-! ## Plynwick blocks -/

theorem Quiet.readCode (s : State) (a : Asker) (buf block : Nat) : Quiet s (s.readCode a buf block).1 := by
  unfold State.readCode
  dsimp only
  refine .iteP (.refl s) ?_
  refine Quiet.foldlP _ (fun r p _ => ?_) (s, 0, [])
  refine .iteP (.refl _) ?_
  exact .iteP (.fillBuf _ _ _) (.fillBuf _ _ _)

theorem Quiet.writeCode (s : State) (a : Asker) (buf block : Nat) (code : List Byte) : Quiet s (s.writeCode a buf block code).1 := by
  unfold State.writeCode
  dsimp only
  refine .iteP (.refl s) ?_
  refine Quiet.foldlP _ (fun r p _ => ?_) (s, 0)
  refine .iteP (.refl _) ?_
  exact .iteP (.fillBuf _ _ _) ((Quiet.fillBuf _ _ _).trans ((Quiet.recall _ _ _ _).trans (.putLine _ _ _ _)))

theorem Quiet.pwWriteBack (s : State) (c : Nat) (p : PwBlock) : Quiet s (s.pwWriteBack c p) := by
  unfold State.pwWriteBack
  split
  · exact .refl s
  · have h := Quiet.writeCode s ⟨p.pd, none⟩ p.buf p.block p.encoded
    split
    · rename_i h'; rw [h'] at h; exact h
    · rename_i h'; rw [h'] at h; exact h.trans (.foldl _ (fun s w _ => .failRelease _ _ _ _) _)

theorem Quiet.pwForget (s : State) (c buf block : Nat) : Quiet s (s.pwForget c buf block) := by
  unfold State.pwForget
  dsimp only
  refine .trans (b := s.updCore c fun k => { k with pw := k.pw.filter fun p => !(p.buf == buf && p.block == block) }) ?_ ?_
  · exact .updCore _ _ _ (fun _ => rfl) (fun _ => rfl) (fun _ => rfl)
  · exact .ite (.outer rfl rfl) (.refl _)

theorem Quiet.pwRecall (s : State) (buf block : Nat) (but : Option Nat) : Quiet s (s.pwRecall buf block but) := by
  unfold State.pwRecall
  split
  · exact .refl s
  · exact .ite (.refl s) ((Quiet.foldl _ (fun s p _ => .pwWriteBack _ _ _) s).trans (.pwForget _ _ _ _))

theorem Quiet.readBuf (s : State) (a : Asker) (buf o n : Nat) : Quiet s (s.readBuf a buf o n).1 := by
  unfold State.readBuf
  dsimp only
  refine .iteP (.readAt _ _ _ _ _) ?_
  refine Quiet.foldlP _ (fun r p _ => ?_) (s, 0, [])
  refine .iteP (.refl _) ?_
  exact .iteP (.readCode _ _ _ _) (.readCode _ _ _ _)

theorem Quiet.writeBuf (s : State) (a : Asker) (buf o : Nat) (bs : List Byte) : Quiet s (s.writeBuf a buf o bs).1 := by
  unfold State.writeBuf
  dsimp only
  refine .iteP (.writeAt _ _ _ _ _) ?_
  refine Quiet.foldlP _ (fun r p _ => ?_) (s, 0)
  refine .iteP (.refl _) ?_
  refine .iteP ?_ ?_
  · exact (Quiet.pwRecall _ _ _ none).trans (.readCode _ _ _ _)
  · exact (Quiet.pwRecall _ _ _ none).trans ((Quiet.readCode _ _ _ _).trans (.writeCode _ _ _ _ _))

/-! ## Translation and ranges -/

theorem Quiet.walkFrom (pd : Nat) (va : BitVec 64) (l : Nat) : ∀ (s : State) (table : Nat), Quiet s (s.walkFrom pd va l table).1 := by
  induction l with
  | zero =>
    intro s table
    unfold State.walkFrom
    dsimp only
    have h := Quiet.readPhys s (table + 16 * levelIndex va 0) 16
    repeat' first | exact h | split
  | succ l ih =>
    intro s table
    unfold State.walkFrom
    dsimp only
    have h := Quiet.readPhys s (table + 16 * levelIndex va (l + 1)) 16
    repeat' first | exact h | exact h.trans (ih _ _) | split

theorem Quiet.walk (s : State) (pd : Nat) (va : BitVec 64) : Quiet s (s.walk pd va).1 := by
  unfold State.walk
  dsimp only
  exact .iteP (.refl s) (.iteP (.refl s) (.walkFrom _ _ _ _ _))

theorem Quiet.translateFor (s : State) (pd : Nat) (va : BitVec 64) (w : Bool) : Quiet s (s.translateFor pd va w).1 := by
  unfold State.translateFor
  have h := Quiet.walk s pd va
  split
  · rename_i h'; rw [h'] at h; exact h
  · rename_i h'; rw [h'] at h; exact .iteP h h

theorem Quiet.translate (s : State) (c pd : Nat) (va : BitVec 64) (a : Nat) : Quiet s (s.translate c pd va a).1 := by
  unfold State.translate
  split
  · exact .refl s
  · have h := Quiet.walk s pd va
    split
    · rename_i h'; rw [h'] at h; exact h
    · rename_i e h'; rw [h'] at h
      have h2 := h.trans (Quiet.updCore _ c (·.keepPage e) (fun _ => rfl) (fun _ => rfl) (fun _ => rfl))
      dsimp only
      split <;> exact h2

theorem Quiet.rangeFault (s : State) (pd : Nat) (va : BitVec 64) (n : Nat) (w : Bool) : Quiet s (s.rangeFault pd va n w).1 := by
  unfold State.rangeFault
  refine Quiet.foldlP _ (fun r p _ => ?_) (s, none)
  split
  · exact .refl _
  · have h := Quiet.translateFor r.1 pd (BitVec.ofNat 64 p.1) w
    split <;> (rename_i h'; rw [h'] at h; exact h)

theorem Quiet.rangeReadAs (s : State) (a : Asker) (va : BitVec 64) (n : Nat) : Quiet s (s.rangeReadAs a va n).1 := by
  unfold State.rangeReadAs
  refine Quiet.foldlP _ (fun r p _ => ?_) (s, 0, [])
  refine .iteP (.refl _) ?_
  have h := Quiet.translateFor r.1 a.pd (BitVec.ofNat 64 p.1) false
  split
  · rename_i h'; rw [h'] at h; exact h
  · rename_i t h'; rw [h'] at h
    refine .iteP ?_ ?_
    · exact .iteP (h.trans (.outer rfl rfl)) h
    · have h2 := fun (s : State) => Quiet.readBuf s a t.buf t.off p.2
      split <;> (rename_i h''; have := h.trans (h2 _); rw [h''] at this; exact this)

theorem Quiet.rangeWriteAs (s : State) (a : Asker) (who : Option (Nat × Nat)) (va : BitVec 64) (bs : List Byte) :
    Quiet s (s.rangeWriteAs a who va bs).1 := by
  unfold State.rangeWriteAs
  refine Quiet.foldlP _ (fun r p _ => ?_) (s, 0)
  refine .iteP (.refl _) ?_
  have h := Quiet.translateFor r.1 a.pd (BitVec.ofNat 64 p.1) true
  split
  · rename_i h'; rw [h'] at h; exact h
  · rename_i t h'; rw [h'] at h
    dsimp only
    refine .iteP ?_ ?_
    · exact .iteP (h.trans (.outer rfl rfl)) h
    · have h2 := fun (s : State) (l : List Byte) => Quiet.writeBuf s a t.buf t.off l
      split
      · rename_i h''
        have h3 := h.trans (h2 _ (sliceN bs (p.1 - va.toNat) p.2))
        rw [h''] at h3
        cases who with
        | none => exact h3
        | some w => exact h3.trans (.mark _ _ _ _ _)
      · have h3 := h.trans (h2 _ (sliceN bs (p.1 - va.toNat) p.2))
        exact h3

theorem Quiet.askRead (s : State) (a : Asker) (va : BitVec 64) (n : Nat) : Quiet s (s.askRead a va n).1 := by
  unfold State.askRead
  have h := Quiet.rangeFault s a.pd va n false
  split
  · rename_i h'; rw [h'] at h; exact h
  · rename_i s' h'; rw [h'] at h
    have h2 := h.trans (Quiet.rangeReadAs s' a va n)
    split <;> (rename_i h''; rw [h''] at h2; exact h2)

theorem Quiet.askWrite (s : State) (a : Asker) (va : BitVec 64) (bs : List Byte) : Quiet s (s.askWrite a va bs).1 := by
  unfold State.askWrite
  have h := Quiet.rangeFault s a.pd va bs.length true
  split
  · rename_i h'; rw [h'] at h; exact h
  · rename_i s' h'; rw [h'] at h
    have h2 := h.trans (Quiet.rangeWriteAs s' a none va bs)
    split
    · rename_i h''; rw [h''] at h2; exact h2
    · exact h

end Sys2Proof.Machine
end

