-- ==== Sys2Proof/Laws/Caches.lean ====
section
/-! SUPPORT. What write-backs, recalls and the end of a domain leave in the domes. -/

-- One theorem at a time: the package compiles as one text, and a thread for each open proof asks for a stack of its own.
set_option Elab.async false

namespace Sys2Proof.Machine

theorem relFail_failRelease (s : State) (c slot d : Nat) :
    mapGet (s.core c).bands slot = none ∨ (((s.failRelease c slot d).core c).band slot).relFail = ((s.core c).band slot).relFail ++ [d] := by
  cases h : mapGet (s.core c).bands slot with
  | none => exact .inl rfl
  | some b =>
    refine .inr ?_
    rw [State.failRelease, State.updBand, State.core_updCore_self]
    simp only [Core.updBand, Core.band, mapGetD, mapGet_mapUpd, h, if_true]
    rfl

/-- The lines that the domes hold are the same. -/
def SameKeys (s t : State) : Prop := ∀ k, (mapGet t.domes k).isSome = (mapGet s.domes k).isSome

theorem SameKeys.trans {a b d : State} (h : SameKeys a b) (g : SameKeys b d) : SameKeys a d := fun k => (g k).trans (h k)

theorem SameKeys.upd (s : State) (ln : Nat) (f : DomeLine → DomeLine) : SameKeys s { s with domes := mapUpd s.domes ln f } := fun k => by
  dsimp only
  rw [mapGet_mapUpd]
  split
  · rename_i h; subst h; cases mapGet s.domes k <;> rfl
  · rfl

theorem SameKeys.foldl {α : Type} {f : State → α → State} (l : List α) (h : ∀ s a, SameKeys s (f s a)) (s : State) : SameKeys s (l.foldl f s) := by
  induction l generalizing s with
  | nil => exact fun _ => rfl
  | cons a l ih => rw [List.foldl_cons]; exact (h s a).trans (ih _)

theorem SameKeys.putLine (s : State) (ln a : Nat) (bs : List Byte) : SameKeys s (s.putLine ln a bs) :=
  SameKeys.trans (b := s.dropReplicas ln) (.upd s ln _) (.upd _ ln _)

theorem SameKeys.failRelease (s : State) (c i d : Nat) : SameKeys s (s.failRelease c i d) := fun _ => rfl

theorem SameKeys.backBytes (s : State) (c : Nat) (l : L1Line) (sel : Nat → Bool) : SameKeys s (s.backBytes c l sel) := by
  unfold State.backBytes
  dsimp only
  split
  · exact fun _ => rfl
  · split
    · exact .foldl _ (fun s i => .putLine _ _ _ _) s
    · exact .foldl _ (fun s i => .failRelease _ _ _ _) s

theorem SameKeys.recall (s : State) (ln : Nat) (w : Word) (but : Option Nat) : SameKeys s (s.recall ln w but) := by
  unfold State.recall
  cases mapGet s.domes ln with
  | none => exact fun _ => rfl
  | some d =>
    dsimp only
    refine SameKeys.trans (.foldl _ ?_ s) (.upd _ ln _)
    intro s o
    exact SameKeys.trans (.foldl _ (fun s l => .backBytes _ _ _ _) s) (fun _ => rfl)

theorem recall_free (s : State) (ln : Nat) (w : Word) (but : Option Nat) (d : DomeLine) (hd : mapGet s.domes ln = some d) (ho : d.owners = []) :
    s.recall ln w but = { s with domes := mapUpd s.domes ln fun d =>
      { d with owners := (d.owners.map fun o => if some o.1 = but then o else (o.1, o.2 &&& ~~~w)).filter (·.2 != 0) } } := by
  unfold State.recall
  rw [hd]
  dsimp only
  rw [ho]
  rfl

theorem domes_mark (s : State) (a b c : Nat) (w : Word) : (s.mark a b c w).domes = s.domes ∧ (s.mark a b c w).mem = s.mem ∧
    (s.mark a b c w).cores = s.cores := by
  unfold State.mark
  split
  · exact ⟨rfl, rfl, rfl⟩
  · split <;> exact ⟨rfl, rfl, rfl⟩

theorem launches_endGraph (s : State) (q st n : Nat) (w : Word) : (s.endGraph q st n w).launches = s.launches ∧ (s.endGraph q st n w).pdEnd = s.pdEnd := by
  unfold State.endGraph
  cases mapGet s.graphs q with
  | none => exact ⟨rfl, rfl⟩
  | some g =>
    dsimp only
    split
    · exact ⟨rfl, rfl⟩
    · have h := fun (s : State) (a : Asker) (va : BitVec 64) (bs : List Byte) =>
        (⟨congrArg (·.launches) (Quiet.askWrite s a va bs).still, congrArg (·.pdEnd) (Quiet.askWrite s a va bs).still⟩ :
          (s.askWrite a va bs).1.launches = s.launches ∧ (s.askWrite a va bs).1.pdEnd = s.pdEnd)
      generalize hm : ({ s with graphs := mapDel s.graphs q } : State) = m
      have hl : m.launches = s.launches ∧ m.pdEnd = s.pdEnd := by rw [← hm]; exact ⟨rfl, rfl⟩
      rw [← hl.1, ← hl.2]
      have h2 := h m (m.walkAsker q) g.record
        (bytesOf 4 g.seq.toNat ++ bytesOf 1 st ++ zeroBytes 1 ++ bytesOf 2 g.node ++ bytesOf 4 n ++ bytesOf 4 w.toNat)
      split
      · rename_i h'; rw [h'] at h2; exact h2
      · rename_i h'; rw [h'] at h2; exact h2

theorem foldl_launches (L : List Nat) (s : State) : (L.foldl State.closeLaunch s).pdEnd = s.pdEnd ∧
    ∀ l, mapGet (L.foldl State.closeLaunch s).launches l = if l ∈ L then none else mapGet s.launches l := by
  induction L generalizing s with
  | nil => exact ⟨rfl, fun l => by simp⟩
  | cons a L ih =>
    rw [List.foldl_cons]
    refine ⟨(ih _).1.trans rfl, fun l => ?_⟩
    rw [(ih _).2]
    have : mapGet (s.closeLaunch a).launches l = if l = a then none else mapGet s.launches l := mapGet_mapDel _ _ _
    rw [this]
    by_cases h1 : l ∈ L
    · simp [h1]
    · by_cases h2 : l = a <;> simp [h1, h2]

theorem halves (a b : BitVec 512) (x : BitVec 1024) (hx : x = a ++ b) : x.extractLsb' 0 512 = b ∧ x.extractLsb' 512 512 = a := by
  subst hx
  refine ⟨?_, ?_⟩
  · ext i hi
    rw [BitVec.getElem_extractLsb', BitVec.getLsbD_append, Nat.zero_add, if_pos hi, BitVec.getLsbD_eq_getElem hi]
  · ext i hi
    rw [BitVec.getElem_extractLsb', BitVec.getLsbD_append, if_neg (by omega), Nat.add_sub_cancel_left, BitVec.getLsbD_eq_getElem hi]

theorem launches_dropStores (s : State) (c : Nat) (w : Nat → Bool) : (s.dropStores c w).launches = s.launches := by
  unfold State.dropStores
  dsimp only
  have h1 : ∀ (L : List L1Line) (s : State), (L.foldl (fun s l =>
    let mine := fun i => (mapGet l.writer i).elim false w
    let l' := l.clean mine
    (s.updCore c fun k => { k with l1 := (k.l1.map fun x => if x.line = l.line then l' else x).filter fun x => x.valid || x.dirty != 0 }).retire
      c l.line l'.cleanWords) s).launches = s.launches := by
    intro L
    induction L with
    | nil => exact fun _ => rfl
    | cons a L ih => intro s; rw [List.foldl_cons, ih]; rfl
  generalize hm : List.foldl _ s (s.core c).l1 = m
  have h2 : m.launches = s.launches := by rw [← hm]; exact h1 _ s
  rw [← h2]
  exact congrArg (·.launches) (Quiet.foldl _ (fun (s : State) (p : PwBlock) _ => Quiet.pwForget s c p.buf p.block) m).still

theorem killDomain_ends (s : State) (pd how : Nat) : mapGet (s.killDomain pd how).pdEnd pd = some how ∧
    ∀ l x, mapGet s.launches l = some x → x.pd = pd → mapGet (s.killDomain pd how).launches l = none := by
  unfold State.killDomain
  dsimp only
  have h1 : ∀ (L : List (Nat × Nat)) (s : State), (L.foldl (fun (s : State) (p : Nat × Nat) =>
      (s.dropStores p.1 ((s.core p.1).taskBands p.2).contains).freeTask p.1 p.2) s).launches = s.launches := by
    intro L
    induction L with
    | nil => exact fun _ => rfl
    | cons a L ih => intro s; rw [List.foldl_cons, ih]; exact launches_dropStores _ _ _
  generalize hm : List.foldl (fun (s : State) (p : Nat × Nat) => (s.dropStores p.1 ((s.core p.1).taskBands p.2).contains).freeTask p.1 p.2) s _ = m
  have hl : m.launches = s.launches := by rw [← hm]; exact h1 _ s
  have h2 : ∀ (G : Map Graph) (s : State), (G.foldl (fun (s : State) g => s.endGraph g.1 9 0 0) s).launches = s.launches ∧
      (G.foldl (fun (s : State) g => s.endGraph g.1 9 0 0) s).pdEnd = s.pdEnd := by
    intro G
    induction G with
    | nil => exact fun _ => ⟨rfl, rfl⟩
    | cons a G ih =>
      intro s
      rw [List.foldl_cons]
      exact ⟨(ih _).1.trans (launches_endGraph _ _ _ _ _).1, (ih _).2.trans (launches_endGraph _ _ _ _ _).2⟩
  rw [(h2 _ _).1, (h2 _ _).2]
  have h3 : ∀ o : State, o.launches = s.launches → mapGet o.pdEnd pd = some how →
      mapGet ((o.launches.filter fun l => l.2.pd == pd).foldl (fun (s : State) l => s.closeLaunch l.1) o).pdEnd pd = some how ∧
      ∀ l x, mapGet s.launches l = some x → x.pd = pd →
        mapGet ((o.launches.filter fun l => l.2.pd == pd).foldl (fun (s : State) l => s.closeLaunch l.1) o).launches l = none := by
    intro o hol hop
    have h3 := foldl_launches ((o.launches.filter fun l => l.2.pd == pd).map (·.1)) o
    rw [List.foldl_map] at h3
    refine ⟨by rw [h3.1]; exact hop, fun l x hx hp => ?_⟩
    rw [h3.2 l, if_pos]
    refine List.mem_map.2 ⟨(l, x), List.mem_filter.2 ⟨?_, by simpa using hp⟩, rfl⟩
    exact mem_of_mapGet (by rw [hol]; exact hx)
  exact h3 _ hl (mapGet_mapSet_self _ _ _)

end Sys2Proof.Machine
end

