-- ==== Sys2Proof/Laws/Engine.lean ====
section
/-! SUPPORT. What the engines and ingest leave alone, and where their commands stand. -/

-- One theorem at a time: the package compiles as one text, and a thread for each open proof asks for a stack of its own.
set_option Elab.async false

namespace Sys2Proof.Machine

theorem KeepsBands.refl (s : State) : KeepsBands s s := ⟨fun _ => ⟨rfl, rfl, rfl, rfl, rfl, rfl, rfl, rfl⟩, fun _ _ => rfl⟩

/-- What an engine's work keeps of every core. -/
structure Served (s t : State) : Prop where
  core : ∀ c, { (t.core c).calm with scratch := [] } = { (s.core c).calm with scratch := [] }
  band : ∀ c b, ((t.core c).band b).calm = ((s.core c).band b).calm

theorem Served.of {s t : State} (h : Quiet s t) : Served s t :=
  ⟨fun c => congrArg (fun k : Core => { k with scratch := [] }) (h.core c), fun c b => (h.band c b).1⟩

theorem Served.refl (s : State) : Served s s := ⟨fun _ => rfl, fun _ _ => rfl⟩

theorem Served.trans {a b d : State} (h : Served a b) (g : Served b d) : Served a d :=
  ⟨fun c => (g.core c).trans (h.core c), fun c b => (g.band c b).trans (h.band c b)⟩

theorem Served.outer {s t : State} (h : t.cores = s.cores) : Served s t := by
  have : t.core = s.core := by funext c; unfold State.core; rw [h]
  exact ⟨fun c => by rw [this], fun c b => by rw [this]⟩

theorem Served.tasks {s t : State} (h : Served s t) (c : Nat) : (t.core c).tasks = (s.core c).tasks := by
  have := congrArg (fun k : Core => k.tasks) (h.core c)
  exact this

theorem Served.keeps {s t : State} (h : Served s t) : KeepsBands s t := by
  refine ⟨fun c => ?_, h.band⟩
  have := h.core c
  simp only [Core.calm, Core.mk.injEq] at this
  tauto

theorem Served.foldl {α : Type} {f : State → α → State} (l : List α) (h : ∀ s, ∀ a ∈ l, Served s (f s a)) (s : State) : Served s (l.foldl f s) := by
  induction l generalizing s with
  | nil => exact .refl s
  | cons a l ih => exact (h s a List.mem_cons_self).trans (ih (fun s b hb => h s b (List.mem_cons_of_mem _ hb)) _)

theorem Served.foldlP {α β : Type} {f : State × β → α → State × β} (l : List α) (h : ∀ r, ∀ a ∈ l, Served r.1 (f r a).1) (r : State × β) :
    Served r.1 (l.foldl f r).1 := by
  induction l generalizing r with
  | nil => exact .refl _
  | cons a l ih => exact (h r a List.mem_cons_self).trans (ih (fun r b hb => h r b (List.mem_cons_of_mem _ hb)) _)

theorem Served.ite {s t v : State} {p : Prop} [Decidable p] (h : Served s t) (g : Served s v) : Served s (if p then t else v) := by
  split <;> assumption

theorem Served.iteP {β : Type} {s : State} {t v : State × β} {p : Prop} [Decidable p] (h : Served s t.1) (g : Served s v.1) :
    Served s (if p then t else v).1 := by
  split <;> assumption

theorem Served.sideFault (s : State) (pd : Nat) (x : Side) (n : Nat) (w : Bool) : Served s (s.sideFault pd x n w).1 := by
  unfold State.sideFault; exact .iteP (.refl _) (.of (.rangeFault _ _ _ _ _))

theorem Served.sideRead (s : State) (g : Eng) (x : Side) (n : Nat) : Served s (s.sideRead g x n).1 := by
  unfold State.sideRead; exact .iteP (.refl _) (.of (.rangeReadAs _ _ _ _))

theorem Served.sideWrite (s : State) (g : Eng) (x : Side) (bs : List Byte) (tag : Nat → BitVec 4) : Served s (s.sideWrite g x bs tag).1 := by
  unfold State.sideWrite
  refine .iteP ?_ (.of (.rangeWriteAs _ _ _ _ _))
  have h := fun c => spWrite_part (fun k : Core => ({ k.calm with scratch := [] } : Core)) (fun _ _ => rfl) (s.core c)
  have h2 := fun c b => spWrite_part (fun k : Core => (k.band b).calm) (fun _ _ => rfl) (s.core c)
  refine ⟨fun c => ?_, fun c b => ?_⟩
  · rw [State.core_updCore]
    split
    · rename_i hc; subst hc; exact h _ _ _ _ _
    · rfl
  · rw [State.core_updCore]
    split
    · rename_i hc; subst hc; exact h2 _ _ _ _ _ _
    · rfl

theorem Served.raiseRecord (s : State) (r : FaultRec) : Served s (s.raiseRecord r) := by
  unfold State.raiseRecord
  have : ∀ t, s.postRecord r = some t → Served s t := by
    intro t ht
    unfold State.postRecord at ht
    dsimp only at ht
    split at ht
    · cases ht
    · split at ht
      · cases ht
      · rename_i m u hm
        have h1 := Quiet.translateFor s r.pd ((mapGetD s.pds r.pd PdRec.fresh).ring + BitVec.ofNat 64 (32 * ((mapGetD s.pds r.pd PdRec.fresh).tail.toNat % 2 ^ (mapGetD s.pds r.pd PdRec.fresh).log2n.toNat))) true
        rw [hm] at h1
        have h2 := Quiet.writeBuf m ⟨r.pd, none⟩ u.buf u.off r.bytes
        split at ht
        · rename_i n hn
          rw [hn] at h2
          cases ht
          exact (Served.of (h1.trans h2)).trans (.outer rfl)
        · cases ht
  split
  · rename_i t ht; exact this t ht
  · exact .outer rfl

theorem Served.copyBytes (s : State) (g : Eng) (m : Cmd) (src dst : Side) (n : Nat) : Served s (s.copyBytes g m src dst n).1 := by
  unfold State.copyBytes
  have h1 := Served.sideFault s (s.engPd g) src n false
  generalize s.sideFault (s.engPd g) src n false = a at h1 ⊢
  obtain ⟨a, fs⟩ := a
  dsimp only at h1 ⊢
  have h2 := Served.sideFault a (a.engPd g) dst n true
  generalize a.sideFault (a.engPd g) dst n true = b at h2 ⊢
  obtain ⟨b, fd⟩ := b
  dsimp only at h2 ⊢
  have h := fun k => h1.trans (h2.trans ((Served.sideRead b g src k).trans (Served.sideWrite (b.sideRead g src k).1 g dst (b.sideRead g src k).2.2 fun i => b.sideTag g (src.plus i))))
  refine .iteP (h _) ?_
  split
  · exact h _
  · exact (h _).trans (.raiseRecord _ _)

theorem Served.copyDecode (s : State) (g : Eng) (m : Cmd) (src dst : Side) (ty n : Nat) : Served s (s.copyDecode g m src dst ty n).1 := by
  unfold State.copyDecode
  refine .iteP (.refl _) ?_
  have h1 := Quiet.translateFor s (s.engPd g) src.at_ false
  split
  · rename_i a cause ha
    rw [ha] at h1
    exact .iteP (.of h1) ((Served.of h1).trans (.raiseRecord _ _))
  · rename_i a t ha
    rw [ha] at h1
    dsimp only at h1 ⊢
    refine .iteP (.of h1) ?_
    have h2 := Quiet.rangeFault a (a.engPd g) src.at_ (n / (unitOf t.fmt).1 * (unitOf t.fmt).2) false
    split
    · rename_i b f hb
      rw [hb] at h2
      exact (Served.of (h1.trans h2)).trans (.raiseRecord _ _)
    · rename_i b hb
      rw [hb] at h2
      have h12 := Served.of (h1.trans h2)
      refine .iteP h12 ?_
      have h3 := Served.sideRead b g src (n / (unitOf t.fmt).1 * (unitOf t.fmt).2)
      split
      · rename_i d bs hd
        rw [hd] at h3
        dsimp only
        exact h12.trans (h3.trans (.sideWrite _ _ _ _ _))
      · rename_i d e bs _ hd
        rw [hd] at h3
        exact h12.trans h3

theorem Served.indexOne (s : State) (g : Eng) (m : Cmd) (gather : Bool) (i : Nat) : Served s (s.indexOne g m gather i).1 := by
  unfold State.indexOne
  dsimp only
  have h1 := Served.sideFault s (s.engPd g) ((m.side (fieldN m.head.low 17 16, 1)).plus (4 * i)) 4 false
  split
  · rename_i a f ha
    rw [ha] at h1
    exact h1.trans (.raiseRecord _ _)
  · rename_i a ha
    rw [ha] at h1
    have h2 := Served.sideRead a g ((m.side (fieldN m.head.low 17 16, 1)).plus (4 * i)) 4
    split
    · rename_i b bs hb
      rw [hb] at h2
      have h12 := h1.trans h2
      refine .iteP h12 ?_
      generalize (if gather = true then _ else _ : Side) = src
      generalize (if gather = true then _ else _ : Side) = dst
      have h3 := Served.sideFault b (b.engPd g) src (2 ^ fieldN m.head.low 13 11) false
      split
      · rename_i d f hd
        rw [hd] at h3
        exact h12.trans (h3.trans (.raiseRecord _ _))
      · rename_i d hd
        rw [hd] at h3
        have h4 := Served.sideFault d (d.engPd g) dst (2 ^ fieldN m.head.low 13 11) true
        split
        · rename_i e f he
          rw [he] at h4
          exact h12.trans (h3.trans (h4.trans (.raiseRecord _ _)))
        · rename_i e he
          rw [he] at h4
          exact h12.trans (h3.trans (h4.trans (.copyBytes _ _ _ _ _ _)))
    · rename_i b e bs _ hb
      rw [hb] at h2
      exact h1.trans h2

theorem Served.indexAll (s : State) (g : Eng) (r : CmdRun) (gather : Bool) : Served s (s.indexAll g r gather).1 := by
  unfold State.indexAll
  dsimp only
  refine .iteP (.refl _) ?_
  refine Served.foldlP _ (fun a x _ => ?_) (s, Stop.go, r.pos)
  refine .iteP (.refl _) ?_
  have h := Served.indexOne a.1 g r.cmd gather a.2.2
  split
  · rename_i b hb; rw [hb] at h; exact h
  · rename_i b st _ hb; rw [hb] at h; exact h

theorem engTask_some {s : State} {g : Eng} {q : Queue} (h : mapGet (s.engTask g).queues g.q = some q) : (mapGet (s.core g.c).tasks g.t).isSome = true := by
  unfold State.engTask Core.task mapGetD at h
  cases hm : mapGet (s.core g.c).tasks g.t with
  | none => rw [hm] at h; cases h
  | some x => rfl

/-- Where the command stands once its stop is noted. -/
theorem noteCmd_cur (s : State) (g : Eng) (q : Queue) (r : CmdRun) (pos : Nat) (st : Stop) (hq : mapGet (s.engTask g).queues g.q = some q) (hr : q.cur = some r) :
    ∃ x, (s.noteCmd g pos st).curCmd g = some x ∧ x.cmd = r.cmd ∧ (x.done = true ∨ x.waiting = true) ∧ (st = .go → x.done = true ∧ x.fault = r.fault) ∧
      (∀ a b, st = .fault a b → x.done = true ∧ x.fault = some (a, b)) ∧
      ∃ q', mapGet ((s.noteCmd g pos st).engTask g).queues g.q = some q' ∧ q'.cur = some x := by
  have ht := engTask_some hq
  have h1 : ((s.noteCmd g pos st).engTask g) = { s.engTask g with queues := mapUpd (s.engTask g).queues g.q fun q => { q with cur := q.cur.map fun (x : CmdRun) => match st with
    | .go => { x with pos, waiting := false, done := true }
    | .wait => { x with pos, waiting := true }
    | .fault cause code => { x with pos, waiting := false, done := true, fault := some (cause, code) } } } := by
    unfold State.noteCmd State.engTask
    rw [State.task_updTask_self _ _ _ _ ht]
    all_goals rfl
  unfold State.curCmd mapGetD
  rw [h1]
  dsimp only
  rw [mapGet_mapUpd, if_pos rfl, hq, Option.map_some, Option.getD_some, hr, Option.map_some]
  cases st with
  | go => exact ⟨_, rfl, rfl, .inl rfl, fun _ => ⟨rfl, rfl⟩, fun a b h => (by cases h), _, rfl, rfl⟩
  | wait => exact ⟨_, rfl, rfl, .inr rfl, fun h => (by cases h), fun a b h => (by cases h), _, rfl, rfl⟩
  | fault a b => exact ⟨_, rfl, rfl, .inl rfl, fun h => (by cases h), fun a' b' h => (by cases h; exact ⟨rfl, rfl⟩), _, rfl, rfl⟩

theorem KeepsBands.updTask (s : State) (c n : Nat) (f : Task → Task) : KeepsBands s (s.updTask c n f) := by
  refine ⟨fun d => ?_, fun d b => ?_⟩
  · have := State.part_updTask (fun x : Core => (x.vrf, x.srf, x.prf, x.accs, x.accStat, x.tiles, x.table, x.flights)) (fun _ _ => rfl) s c n f d
    simp only [Prod.mk.injEq] at this
    exact this
  · exact congrArg (fun b : Band => { b with relFail := [] }) (State.part_updTask (fun x : Core => x.band b) (fun _ _ => rfl) s c n f d)

theorem KeepsBands.outer {s t : State} (h : t.cores = s.cores) : KeepsBands s t := (Served.outer h).keeps

theorem KeepsBands.trans {a b d : State} (h : KeepsBands a b) (g : KeepsBands b d) : KeepsBands a d := by
  refine ⟨fun c => ?_, fun c i => (g.band c i).trans (h.band c i)⟩
  obtain ⟨h1, h2, h3, h4, h5, h6, h7, h8⟩ := h.core c
  obtain ⟨g1, g2, g3, g4, g5, g6, g7, g8⟩ := g.core c
  exact ⟨g1.trans h1, g2.trans h2, g3.trans h3, g4.trans h4, g5.trans h5, g6.trans h6, g7.trans h7, g8.trans h8⟩

/-- What performs a command keeps the bands; the command is then done or waits. -/
theorem performs (s : State) (g : Eng) (q : Queue) (r : CmdRun) (ops : List Nat) (op : Nat) (f : State → CmdRun → State × Stop × Nat)
    (hq : mapGet (s.engTask g).queues g.q = some q) (hr : q.cur = some r) (ho : ops.contains op = true) (hf : Served s (f s r).1) (ev : Instr)
    (he : exec ev s = performCmd g ops f s) : s.RunsCommand g r op ev := by
  have hcur : s.curCmd g = some r := by rw [State.curCmd, mapGetD, hq]; exact hr
  intro hop
  refine ⟨fun h => ?_, fun h1 h2 => ?_⟩
  · rw [he, performCmd, hcur]
    dsimp only
    rw [hop, ho]
    rcases h with h | h <;> rw [h] <;> simp
  · rw [he, performCmd, hcur]
    dsimp only
    rw [hop, ho, h1, h2, if_neg (by simp)]
    generalize f s r = a at hf ⊢
    obtain ⟨m, st, pos⟩ := a
    dsimp only at hf ⊢
    have hq' : mapGet (m.engTask g).queues g.q = some q := by rw [← hq]; unfold State.engTask Core.task; rw [hf.tasks]
    obtain ⟨x, hx, h3, h4, -⟩ := noteCmd_cur m g q r pos st hq' hr
    exact ⟨_, x, rfl, hx, h3, h4, hf.keeps.trans (KeepsBands.updTask _ _ _ _)⟩

theorem served_fill (s : State) (n : Nat) (b : Bind) : Served s (s.readConsumer n b) := by
  unfold State.readConsumer
  have h := Quiet.rangeReadAs s ⟨b.pd, none⟩ b.consumerVa 4
  split
  · rename_i m bs hm
    have hm' : s.rangeReadAs ⟨b.pd, none⟩ b.consumerVa 4 = (m, 0, bs) := hm
    rw [hm'] at h
    exact (Served.of h).trans (.outer rfl)
  · rename_i m e bs _ hm
    have hm' : s.rangeReadAs ⟨b.pd, none⟩ b.consumerVa 4 = (m, e, bs) := hm
    rw [hm'] at h
    exact .of h

theorem spRead_get (k : Core) (gen : BitVec 16) (at_ n i : Nat) (h : i < n) : ((k.spRead gen at_ n).1).getD i 0 = k.spByte gen (at_ + i) := by
  rw [← Core.spRead_one]
  unfold Core.spRead
  dsimp only
  rw [List.getD_eq_getElem?_getD, List.getElem?_map, List.getElem?_range h]
  rfl

theorem spRead_length (k : Core) (gen : BitVec 16) (at_ n : Nat) : ((k.spRead gen at_ n).1).length = n := by
  unfold Core.spRead
  dsimp only
  rw [List.length_map, List.length_range]

/-- A copy inside the scratchpad. -/
theorem copyBytes_scratch (s : State) (g : Eng) (m : Cmd) (src dst : Side) (n : Nat) (h1 : src.scratch = true) (h2 : dst.scratch = true) :
    ∃ tag, s.copyBytes g m src dst n = (s.updCore g.c fun k => k.spWrite (s.engTask g).gen ((s.engTask g).spBase + dst.at_.toNat)
      ((s.core g.c).spRead (s.engTask g).gen ((s.engTask g).spBase + src.at_.toNat) n).1 tag, .go, n) := by
  refine ⟨fun gr => s.sideTag g (src.plus (max (64 * gr) ((s.engTask g).spBase + dst.at_.toNat) - ((s.engTask g).spBase + dst.at_.toNat))), ?_⟩
  unfold State.copyBytes State.sideFault
  rw [h1, h2]
  simp only [if_true]
  unfold State.sideRead
  rw [h1]
  simp only [if_true]
  unfold State.sideWrite
  rw [h2]
  simp only [if_true]
  rfl

/-- The fields of a task that the end of a command leaves. -/
theorem endCommand_task (s : State) (g : Eng) (m : Cmd) (b : Bool) (q : Queue) (hq : mapGet (s.engTask g).queues g.q = some q) :
    ∃ fs, (s.endCommand g.c g.t g.q m b).engTask g =
      { (s.engTask g).endTag m.words b with queues := mapUpd (s.engTask g).queues g.q (fun r => { r with cur := none }), fences := fs } := by
  have ht := engTask_some hq
  have he : ∀ t : Task, (t.endTag m.words b).queues = t.queues := by
    intro t; unfold Task.endTag; dsimp only; generalize (!bitN _ 24) = z; cases z <;> rfl
  refine ⟨({ (s.engTask g).endTag m.words b with queues := mapUpd ((s.engTask g).endTag m.words b).queues g.q fun r => { r with cur := none } } : Machine.Task).pruneFences.fences, ?_⟩
  unfold State.endCommand State.latchWaits State.engTask
  rw [State.core_updCore_self]
  show (State.core (State.updTask s g.c g.t _) g.c).task g.t = _
  rw [State.task_updTask_self _ _ _ _ ht, ← he ((s.core g.c).task g.t)]
  rfl

theorem bands_endCommand (s : State) (c t q : Nat) (m : Cmd) (b : Bool) (d i : Nat) : ((s.endCommand c t q m b).core d).band i = (s.core d).band i := by
  unfold State.endCommand State.latchWaits
  rw [State.core_updCore]
  split
  · rename_i h; subst h
    exact State.part_updTask (fun k : Core => k.band i) (fun _ _ => rfl) _ _ _ _ _
  · exact State.part_updTask (fun k : Core => k.band i) (fun _ _ => rfl) _ _ _ _ _

theorem tag_lt (m : Cmd) : m.head.tag < 64 := Nat.mod_lt _ (by decide)

theorem tag_bit (n : Nat) (h : n < 64) : (BitVec.ofNat 64 (2 ^ n)).getLsbD n = true := by
  rw [BitVec.getLsbD_ofNat, decide_eq_true h, Nat.testBit_two_pow_self]; rfl

theorem noteCmd_other (s : State) (g g' : Eng) (pos : Nat) (st : Stop) (h : g' ≠ g) (q : Queue) (hq : mapGet (s.engTask g).queues g.q = some q) :
    mapGet ((s.noteCmd g' pos st).engTask g).queues g.q = some q := by
  have key : ∀ f : Map Queue → Map Queue, (∀ m, mapGet (f m) g.q = mapGet m g.q ∨ ¬(g.c = g'.c ∧ g.t = g'.t)) →
      mapGet ((s.updTask g'.c g'.t fun t => { t with queues := f t.queues }).engTask g).queues g.q = some q := by
    intro f hf
    rw [← hq, State.engTask, State.updTask, State.core_updCore]
    split
    · rename_i hc
      simp only [Core.updTask, Core.task, mapGetD, mapGet_mapUpd]
      by_cases htt : g.t = g'.t
      · rw [if_pos htt, State.engTask, Core.task, mapGetD, hc, htt]
        cases hm : mapGet (s.core g'.c).tasks g'.t with
        | none => rfl
        | some x =>
          rcases hf x.queues with h | h
          · exact h
          · exact (h ⟨hc, htt⟩).elim
      · rw [if_neg htt, State.engTask, Core.task, mapGetD, hc]
    · rfl
  refine key (fun m => mapUpd m g'.q _) fun m => ?_
  by_cases hh : g.c = g'.c ∧ g.t = g'.t
  · left
    rw [mapGet_mapUpd, if_neg]
    intro hqq
    apply h
    obtain ⟨a, b, d⟩ := g
    obtain ⟨a', b', d'⟩ := g'
    simp only at hh hqq
    rw [hh.1, hh.2, hqq]
  · exact .inr hh

theorem noteParts_cur (g : Eng) (m : Cmd) (st : Cmd → Stop) (a b : Nat) (hst : st m = .fault a b) (ps : List Part) : ∀ (s : State) (q : Queue) (r : CmdRun)
    (_ : mapGet (s.engTask g).queues g.q = some q) (_ : q.cur = some r) (_ : ∀ p ∈ ps, p.g = g → p.m = m),
    KeepsBands s (s.noteParts ps st) ∧ ∃ q' x, mapGet ((s.noteParts ps st).engTask g).queues g.q = some q' ∧ q'.cur = some x ∧ x.cmd = r.cmd ∧
      ((∃ p ∈ ps, p.g = g) ∨ (r.done = true ∧ r.fault = some (a, b)) → x.done = true ∧ x.fault = some (a, b)) := by
  induction ps with
  | nil =>
    intro s q r hq hr hm
    refine ⟨KeepsBands.refl s, q, r, hq, hr, rfl, ?_⟩
    rintro (⟨p, hp, -⟩ | h)
    · exact (List.not_mem_nil hp).elim
    · exact h
  | cons p ps ih =>
    intro s q r hq hr hm
    have hm' : ∀ p ∈ ps, p.g = g → p.m = m := fun p hp => hm p (List.mem_cons_of_mem _ hp)
    unfold State.noteParts
    rw [List.foldl_cons]
    by_cases hg : p.g = g
    · rw [hg, hm p List.mem_cons_self hg, hst]
      obtain ⟨x, -, h2, -, -, h5, q', h6, h7⟩ := noteCmd_cur s g q r 0 (.fault a b) hq hr
      obtain ⟨k, q'', y, h8, h9, h10, h11⟩ := ih _ q' x h6 h7 hm'
      exact ⟨(KeepsBands.updTask _ _ _ _).trans k, q'', y, h8, h9, h10.trans h2, fun _ => h11 (.inr (h5 a b rfl))⟩
    · obtain ⟨k, q'', y, h8, h9, h10, h11⟩ := ih _ q r (noteCmd_other s g p.g 0 (st p.m) hg q hq) hr hm'
      refine ⟨(KeepsBands.updTask _ _ _ _).trans k, q'', y, h8, h9, h10, fun h => h11 ?_⟩
      rcases h with ⟨p', hp', hpg⟩ | h
      · rcases List.mem_cons.1 hp' with rfl | hp'
        · exact (hg hpg).elim
        · exact .inl ⟨p', hp', hpg⟩
      · exact .inr h

theorem findSome_part (c t : Nat) (P : CmdRun → Bool) (L : Map Queue) (c' t' qk : Nat) (m : Cmd) (q : Queue) (r : CmdRun)
    (h : L.findSome? (fun q => q.2.cur.bind fun r => if P r then some (⟨⟨c, t, q.1⟩, r.cmd⟩ : Part) else none) = some ⟨⟨c', t', qk⟩, m⟩)
    (hq : mapGet L qk = some q) (hr : q.cur = some r) (hP : P r = true) : m = r.cmd := by
  induction L with
  | nil => cases h
  | cons e L ih =>
    rw [List.findSome?_cons] at h
    rw [mapGet] at hq
    split at h
    · rename_i b hb
      obtain ⟨x, hx, hb'⟩ := Option.bind_eq_some_iff.1 hb
      split at hb'
      · cases hb'
        cases h
        rw [if_pos rfl] at hq
        cases hq
        rw [hx] at hr
        cases hr
        rfl
      · cases hb'
    · rename_i hb
      split at hq
      · cases hq
        rw [hr] at hb
        simp only [Option.bind_some, hP, if_true] at hb
        cases hb
      · exact ih h hq

theorem collParts_cmd (s : State) (l gid inst : Nat) (g : Eng) (q : Queue) (r : CmdRun) (hq : mapGet (s.engTask g).queues g.q = some q) (hr : q.cur = some r)
    (hop : r.cmd.head.op = 5) (hd : r.done = false) (hg : r.cmd.group = gid) (hi : r.cmd.inst = inst)
    (m : Cmd) (h : ⟨g, m⟩ ∈ s.collParts l gid inst) : m = r.cmd := by
  unfold State.collParts at h
  obtain ⟨n, -, h⟩ := List.mem_filterMap.1 h
  obtain ⟨p, hp, h⟩ := Option.bind_eq_some_iff.1 h
  split at h
  · cases h
  · have hloc : ∀ L : Map Queue, L.findSome? (fun q => q.2.cur.bind fun r => if r.cmd.head.op = 5 && r.cmd.group = gid && r.cmd.inst = inst && !r.done
        then some (⟨⟨p.1, p.2, q.1⟩, r.cmd⟩ : Part) else none) = some ⟨g, m⟩ → g.c = p.1 ∧ g.t = p.2 := by
      intro L
      induction L with
      | nil => intro h; cases h
      | cons e L ih =>
        intro h
        rw [List.findSome?_cons] at h
        split at h
        · rename_i b hb
          obtain ⟨x, hx, hb'⟩ := Option.bind_eq_some_iff.1 hb
          split at hb'
          · cases hb'
            cases h
            exact ⟨rfl, rfl⟩
          · cases hb'
        · exact ih h
    have hl := hloc _ h
    unfold State.engTask at hq
    rw [hl.1, hl.2] at hq
    exact findSome_part p.1 p.2 (fun r => r.cmd.head.op = 5 && r.cmd.group = gid && r.cmd.inst = inst && !r.done) _ g.c g.t g.q m q r h hq hr
      (by rw [hop, hg, hi, hd]; simp)

theorem stream_upd (s : State) (n : Nat) (f : Stream → Stream) : (s.updStream n f).stream n = f (s.stream n) := by
  rw [State.updStream, State.stream]
  dsimp only
  rw [mapGetD_mapSet, if_pos rfl]

theorem postReturn_stream (s : State) (n : Nat) (b : Bind) (ws : List Word) : ∃ l, ((s.postReturn n b ws).stream n) = { s.stream n with lost := l } ∧
    (s.postReturn n b ws).mem = s.mem ∧ KeepsBands s (s.postReturn n b ws) := by
  unfold State.postReturn
  split
  · exact ⟨_, rfl, rfl, .refl s⟩
  · rename_i p hp
    clear hp
    induction ws generalizing s with
    | nil => exact ⟨_, rfl, rfl, .refl s⟩
    | cons w ws ih =>
      rw [List.foldl_cons]
      dsimp only
      split
      · exact ih s
      · split
        · obtain ⟨l, h1, h2, h3⟩ := ih (s.updStream n fun x => { x with lost := x.lost + 1 })
          exact ⟨l, h1.trans (by rw [stream_upd]), h2, KeepsBands.trans (b := s.updStream n fun x => { x with lost := x.lost + 1 }) (.outer rfl) h3⟩
        · obtain ⟨l, h1, h2, h3⟩ := ih (s.updTask p.1 p.2 fun t => { t with queues := mapSet t.queues b.queue (let qr := mapGetD ((s.core p.1).task p.2).queues b.queue Queue.fresh; { qr with ret := qr.ret ++ [w] }) })
          exact ⟨l, h1, h2, (KeepsBands.updTask _ _ _ _).trans h3⟩

theorem postGap_stream (s : State) (n : Nat) : (∃ l, ((s.postGap n).stream n) = { s.stream n with lost := l, gap := ((s.postGap n).stream n).gap }) ∧
    (s.postGap n).mem = s.mem ∧ KeepsBands s (s.postGap n) ∧ ((s.stream n).bind.isSome = true → ((s.postGap n).stream n).gap = none) := by
  unfold State.postGap
  split
  · rename_i b g hb hg
    obtain ⟨l, h1, h2, h3⟩ := postReturn_stream s n b [g.1, BitVec.ofNat 32 (n * 2 ^ 20 + g.2.1 * 2 ^ 16 + g.2.2)]
    refine ⟨⟨l, ?_⟩, h2, h3.trans (.outer rfl), fun _ => ?_⟩
    · rw [stream_upd, h1]
    · rw [stream_upd]
  · rename_i h
    refine ⟨⟨_, rfl⟩, rfl, .refl s, fun hb => ?_⟩
    obtain ⟨b, hb⟩ := Option.isSome_iff_exists.1 hb
    cases hg : (s.stream n).gap with
    | none => rfl
    | some g => exact (h b g hb hg).elim

theorem gapAt_stream (s : State) (n : Nat) (q : Word) (cause : Nat) (hc : cause = 2 ∨ cause = 3) :
    ((s.gapAt n q cause).stream n).accepted = (s.stream n).accepted ∧ ((s.gapAt n q cause).stream n).late = (s.stream n).late + (if cause = 2 then 1 else 0) ∧
    ((s.gapAt n q cause).stream n).badLen = (s.stream n).badLen + (if cause = 3 then 1 else 0) := by
  unfold State.gapAt
  dsimp only
  generalize hm : State.updStream s n _ = m
  have h0 : (m.stream n).accepted = (s.stream n).accepted ∧ (m.stream n).late = (s.stream n).late + (if cause = 2 then 1 else 0) ∧
      (m.stream n).badLen = (s.stream n).badLen + (if cause = 3 then 1 else 0) := by
    rw [← hm, stream_upd]
    rcases hc with rfl | rfl <;> exact ⟨rfl, rfl, rfl⟩
  have h1 := (postGap_stream m n).1
  split
  · split
    · rw [stream_upd]; exact h0
    · obtain ⟨l, hl⟩ := h1
      rw [stream_upd, hl]; exact h0
  · rw [stream_upd]; exact h0

end Sys2Proof.Machine
end

