-- ==== Sys2Proof/Laws/Group.lean ====
section
/-! SUPPORT. Cross-lane operations and arrivals at barriers. -/

-- One theorem at a time: the package compiles as one text, and a thread for each open proof asks for a stack of its own.
set_option Elab.async false

namespace Sys2Proof.Machine

theorem crossForm_exec (s : State) (i : Instr) (f : CrossForm) (h : crossForm i = some f) :
    exec i s = crossLane i f.o f.o.d f.vs f.bring f.result s := by
  unfold crossForm at h
  split at h
  all_goals first
    | (cases h; rfl)
    | cases h

theorem State.entry_updEntry_proj {β : Type} (p : Entry → β) (s : State) (c a : Nat) (g : Entry → Entry) (hg : ∀ x, p (g x) = p x) (d e : Nat) :
    p (((s.updEntry c a g).core d).entry e) = p ((s.core d).entry e) := by
  rw [State.updEntry, State.core_updCore]
  split
  · rename_i h; subst h
    rw [Core.entry_updEntry]
    split
    · rename_i h; rw [hg, h.1]
    · rfl
  · rfl

theorem State.entry_updStood (s : State) (c slot : Nat) (fr : Bool) (m : Word) (f : Nat → Thread → Thread) (d e : Nat) :
    ((s.updStood c slot fr m f).core d).entry e = (s.core d).entry e := by
  unfold State.updStood
  split
  · rw [Core.entry, State.table_updBand]; rfl
  · rw [State.updThreads, Core.entry, State.table_updBand]; rfl

theorem State.entry_advance_proj {β : Type} (p : Entry → β) (hp : ∀ x y, p { x with ctx := y } = p x) (s : State) (c a n d e : Nat) :
    p (((s.advance c a n).core d).entry e) = p ((s.core d).entry e) := by
  unfold State.advance
  dsimp only
  rw [State.entry_updEntry_proj p _ _ _ _ fun x => hp _ _, State.entry_updStood]

theorem foldl_advance (s : State) (c slot words : Nat) (ls : List Nat)
    (hl : ∀ e ∈ ls, ((s.core c).entry e).slot = slot ∧ ((s.core c).entry e).frozen = false) :
    Moved s c slot (ls.foldl (fun s e => (s.advance c e words).updEntry c e fun x => { x with wait := .ready, age := 0 }) s) := by
  induction ls generalizing s with
  | nil => exact .refl _ _ _
  | cons a ls ih =>
    obtain ⟨h1, h2⟩ := hl a (List.mem_cons_self ..)
    have ha := Moved.advance s c slot a words h1 h2
    have hb : Moved (s.advance c a words) c slot ((s.advance c a words).updEntry c a fun x => { x with wait := .ready, age := 0 }) :=
      .updEntry _ c slot a _ (ha.owns a (State.owns_of_slot h1)) fun _ => rfl
    rw [List.foldl_cons]
    refine (ha.trans hb).trans (ih _ fun e he => ?_)
    obtain ⟨g1, g2⟩ := hl e (List.mem_cons_of_mem _ he)
    constructor
    · refine (State.entry_updEntry_proj (·.slot) _ _ _ _ ?_ _ _).trans ((State.entry_advance_proj (·.slot) (fun _ _ => rfl) _ _ _ _ _ _).trans g1)
      intro; rfl
    · refine (State.entry_updEntry_proj (·.frozen) _ _ _ _ ?_ _ _).trans ((State.entry_advance_proj (·.frozen) (fun _ _ => rfl) _ _ _ _ _ _).trans g2)
      intro; rfl

theorem Moved.passBlock (s : State) (c slot : Nat) (g : Word) (words : Nat) : Moved s c slot (s.passBlock c slot g words false) := by
  unfold State.passBlock
  dsimp only
  rw [State.updStood, if_neg (by simp)]
  have h1 := Moved.updThreads s c slot (maskOf ((lanesOf g).filter fun l => (((s.core c).band slot).stood false l).mark = .held))
    (fun _ t => { t with pc := t.pc + BitVec.ofNat 64 (4 * words), mark := .none }) fun _ _ => rfl
  have ht : ((s.updThreads c slot (maskOf ((lanesOf g).filter fun l => (((s.core c).band slot).stood false l).mark = .held))
    (fun _ t => { t with pc := t.pc + BitVec.ofNat 64 (4 * words), mark := .none })).core c).table = (s.core c).table := by
    rw [State.updThreads, State.table_updBand]
  generalize s.updThreads c slot _ _ = s1 at *
  have h2 := foldl_advance s1 c slot words (((s.core c).entriesOf slot).filter fun e => ((s.core c).entry e).lanes &&& g != 0 &&
    ((s.core c).entry e).wait.blocks && ((s.core c).entry e).frozen == false) fun e he => by
      simp only [List.mem_filter, Core.entriesOf, Bool.and_eq_true, beq_iff_eq] at he
      rw [Core.entry, ht, ← Core.entry]
      exact ⟨he.1.2, he.2.2⟩
  have h12 := h1.trans h2
  generalize List.foldl _ s1 _ = s2 at *
  have h3 : Moved s2 c slot (s2.updBand c slot fun b => { b with turn := none }) := .updBand _ _ _ _ (fun _ => rfl) fun _ _ => rfl
  have h123 := h12.trans h3
  generalize s2.updBand c slot _ = s3 at *
  exact h123.trans (.foldl _ c slot _ s3 fun t ht e he => .rebalance t c slot e (ht.owns e (h123.owns e (State.owns_entriesOf he))))

theorem statusBits (r : Nat) (a b c : Bool) (hr : r < 65536) :
    let w := BitVec.ofNat 32 (r * 65536 + (if a = true then 4 else 0) + (if b = true then 2 else 0) + (if c = true then 1 else 0))
    w.getLsbD 0 = c ∧ w.getLsbD 1 = b ∧ w.getLsbD 2 = a ∧ w.extractLsb' 3 13 = 0 ∧ (w.extractLsb' 16 16).toNat = r := by
  intro w
  have hw : w.toNat = r * 65536 + (if a = true then 4 else 0) + (if b = true then 2 else 0) + (if c = true then 1 else 0) := by
    show (BitVec.ofNat 32 _).toNat = _
    rw [BitVec.toNat_ofNat, Nat.mod_eq_of_lt]
    cases a <;> cases b <;> cases c <;> simp <;> omega
  have hbit : ∀ i, w.getLsbD i = decide (w.toNat / 2 ^ i % 2 = 1) := fun i => by
    rw [BitVec.getLsbD, Nat.testBit_eq_decide_div_mod_eq]
  refine ⟨?_, ?_, ?_, ?_, ?_⟩
  · rw [hbit, hw]; cases a <;> cases b <;> cases c <;> simp <;> omega
  · rw [hbit, hw]; cases a <;> cases b <;> cases c <;> simp <;> omega
  · rw [hbit, hw]; cases a <;> cases b <;> cases c <;> simp <;> omega
  · apply BitVec.eq_of_toNat_eq
    rw [BitVec.extractLsb'_toNat, hw, Nat.shiftRight_eq_div_pow]
    cases a <;> cases b <;> cases c <;> simp <;> omega
  · rw [BitVec.extractLsb'_toNat, hw, Nat.shiftRight_eq_div_pow]
    cases a <;> cases b <;> cases c <;> simp <;> omega

theorem barrier_eq (x : Ctx) (g : BitVec 8) (w : Word) : x.barrier g w = if w.msb = false then g.toNat else if x.keep then 257 else 256 := by
  unfold Ctx.barrier
  cases w.msb <;> rfl

theorem arriveBar_spec (m : State) (x : Ctx) (gid : Nat) (w : Word) (wait : Bool) (b : TaskBar)
    (ht : (mapGet (m.core x.core).tasks x.t).isSome = true) (hp : (mapGet (m.core x.core).bands x.slot).isSome = true)
    (hb : ((m.core x.core).task x.t).barOf gid = b) (hw : b.part = none ∨ b.part = some w) :
    let named := w.getLsbD x.b.index
    let phase := m.openPhase x.core x.t gid
    ∃ M : State, KeepsAll m M ∧
      (M.core x.core).task x.t = ((m.core x.core).task x.t).setBar gid { b with
        part := some w, arrived := if named then mapSet b.arrived x.b.index (mapGetD b.arrived x.b.index 0 ||| x.lanes) else b.arrived } ∧
      (named = true → gid < 256 → ((M.core x.core).band x.slot).bars = mapSet ((m.core x.core).band x.slot).bars gid ⟨w, phase, true⟩) ∧
      (M.core x.core).flights = mapSet (m.core x.core).flights (m.core x.core).nextOp
        ⟨x.slot, x.gen, x.lanes, none, .release .plain (.arrive gid w phase wait)⟩ ∧
      m.arriveBar x gid w wait = if wait then (M.updEntry x.core x.e fun e => { e with wait := .bar gid phase }).updBand x.core x.slot
        (fun y => { y with turn := none }) else M := by
  intro named phase
  have hpart : b.part.or (some w) = some w := by rcases hw with h | h <;> rw [h] <;> rfl
  let B : TaskBar := { b with part := some w, arrived := if named then mapSet b.arrived x.b.index (mapGetD b.arrived x.b.index 0 ||| x.lanes) else b.arrived }
  let m1 := m.updTask x.core x.t fun t => t.setBar gid B
  have hk1 : KeepsAll m m1 := KeepsAll.updTask _ _ _ _
  have ht1 : (m1.core x.core).task x.t = ((m.core x.core).task x.t).setBar gid B := State.task_updTask_self _ _ _ _ ht
  have hf1 : (m1.core x.core).flights = (m.core x.core).flights ∧ (m1.core x.core).nextOp = (m.core x.core).nextOp :=
    ⟨State.part_updTask (·.flights) (fun _ _ => rfl) _ _ _ _ _, State.part_updTask (·.nextOp) (fun _ _ => rfl) _ _ _ _ _⟩
  have hb1 : (m1.core x.core).band x.slot = (m.core x.core).band x.slot := State.part_updTask (·.band x.slot) (fun _ _ => rfl) _ _ _ _ _
  have hp1 : (mapGet (m1.core x.core).bands x.slot).isSome = true := by
    rw [show (mapGet (m1.core x.core).bands x.slot) = (mapGet (m.core x.core).bands x.slot) from State.part_updTask (fun k => mapGet k.bands x.slot) (fun _ _ => rfl) _ _ _ _ _]
    exact hp
  let f : Flight := ⟨x.slot, x.gen, x.lanes, none, .release .plain (.arrive gid w phase wait)⟩
  have heq : ∀ m2 : State, m2 = (if named && gid < 256 then m1.updBand x.core x.slot fun y => { y with bars := mapSet y.bars gid ⟨w, phase, true⟩ } else m1) →
      m.arriveBar x gid w wait = if wait then ((m2.launchFlight x.core f).updEntry x.core x.e fun e => { e with wait := .bar gid phase }).updBand x.core x.slot
        (fun y => { y with turn := none }) else m2.launchFlight x.core f := by
    intro m2 h2
    unfold State.arriveBar
    dsimp only
    rw [hb, hpart, h2]
    rfl
  by_cases hn : (named && decide (gid < 256)) = true
  · rw [if_pos hn] at heq
    refine ⟨_, (hk1.trans (KeepsAll.updBand m1 x.core x.slot fun y => { y with bars := mapSet y.bars gid ⟨w, phase, true⟩ })).trans (KeepsAll.launchFlight _ _ _), ?_, fun _ _ => ?_, ?_, heq _ rfl⟩
    · rw [State.part_launchFlight (·.task x.t) fun _ _ _ => rfl, State.part_updBand (·.task x.t) fun _ _ => rfl]; exact ht1
    · rw [State.part_launchFlight (fun k => (k.band x.slot).bars) fun _ _ _ => rfl, State.band_updBand_self _ _ _ _ hp1, hb1]
    · rw [State.launchFlight, State.core_updCore_self, State.part_updBand (·.flights) fun _ _ => rfl, State.part_updBand (·.nextOp) fun _ _ => rfl, hf1.1, hf1.2]
  · rw [if_neg hn] at heq
    refine ⟨_, hk1.trans (KeepsAll.launchFlight _ _ _), ?_, fun h1 h2 => absurd (by simp [h1, h2]) hn, ?_, heq _ rfl⟩
    · rw [State.part_launchFlight (·.task x.t) fun _ _ _ => rfl]; exact ht1
    · rw [State.launchFlight, State.core_updCore_self, hf1.1, hf1.2]

theorem State.bars_passed (s : State) (u : Cursor) (i : Instr) (q : Shape) (d b : Nat) :
    (((s.passed u i q).core d).band b).bars = (((s.begun u i q).core d).band b).bars := by
  rw [State.passed, State.advance]
  dsimp only
  rw [State.band_updEntry, State.updStood]
  split
  · refine State.band_updBand_proj (·.bars) _ _ _ _ ?_ _ _
    intro; rfl
  · rw [State.updThreads]
    refine State.band_updBand_proj (·.bars) _ _ _ _ ?_ _ _
    intro; rfl

end Sys2Proof.Machine
end

