-- ==== Sys2Proof/Laws/Power.lean ====
section
/-! SUPPORT. What a change of the power state keeps, and what a loss of power leaves. -/

-- One theorem at a time: the package compiles as one text, and a thread for each open proof asks for a stack of its own.
set_option Elab.async false

namespace Sys2Proof.Machine

theorem target_rank (p : Power) : p.target.rank = max p.cap.rank ((p.thermal.map PState.rank).getD 0) := by
  unfold Power.target
  cases p.thermal with
  | none => simp
  | some x => simp only [Option.map_some, Option.getD_some]; split <;> omega

theorem deepest_idle {n : Nat} {x : PState} (h : deepestIdle n = some x) : x.idle = true := by
  unfold deepestIdle at h
  repeat' split at h
  all_goals first | (cases h; rfl) | cases h

theorem lost_mem (l : List Nat) (m : Map Nat) (p : Nat) (h : p ∈ l) : mapGet (l.foldl (fun m p => mapSet m p 2) m) p = some 2 := by
  have key : ∀ (l : List Nat) (m : Map Nat), mapGet m p = some 2 → mapGet (l.foldl (fun m p => mapSet m p 2) m) p = some 2 := by
    intro l
    induction l with
    | nil => exact fun m h => h
    | cons a l ih =>
      intro m h
      refine ih _ ?_
      rw [mapGet_mapSet]; split <;> [rfl; exact h]
  induction l generalizing m with
  | nil => cases h
  | cons a l ih =>
    rcases List.mem_cons.1 h with rfl | h
    · exact key l _ (mapGet_mapSet_self _ _ _)
    · exact ih _ h

theorem loses (s : State) (k : Nat × Core) (hk : k ∈ s.cores) (x : Nat × Machine.Task) (hx : x ∈ k.2.tasks) :
    mapGet s.loseDomains.pdEnd (s.launch x.2.launch).pd = some 2 := by
  unfold State.loseDomains
  refine lost_mem _ _ _ ?_
  simp only [List.mem_append, List.mem_flatMap, List.mem_map]
  exact .inl (.inl (.inl ⟨k, hk, x, hx, rfl⟩))

theorem limit_keeps (s : State) (l : Option PState) : (s.limitTo l).cores = s.cores ∧ (s.limitTo l).mem = s.mem ∧
    (s.limitTo l).clusters = s.clusters ∧ (s.limitTo l).power.thermal = l := ⟨rfl, rfl, rfl, rfl⟩

theorem mapGet_filter_two (m : Map Nat) (p : Nat) (h : mapGet m p = some 2) : mapGet (m.filter fun p => p.2 == 2) p = some 2 := by
  induction m with
  | nil => exact h
  | cons a m ih =>
    obtain ⟨i, v⟩ := a
    change (if p = i then some v else mapGet m p) = some 2 at h
    rw [List.filter_cons]
    by_cases hi : p = i
    · rw [if_pos hi] at h
      cases h
      rw [if_pos (by rfl)]
      exact if_pos hi
    · rw [if_neg hi] at h
      split
      · exact (if_neg hi).trans (ih h)
      · exact ih h

theorem wakeUp_power (s : State) : ∃ p, s.wakeUp = { s with power := p } := by
  unfold State.wakeUp; split
  · exact ⟨_, rfl⟩
  · exact ⟨s.power, rfl⟩

end Sys2Proof.Machine
end

