-- ==== Sys2Proof/Laws/Release.lean ====
section
/-! SUPPORT. What a release leaves in an L1, and the end of operations that carry a flag. -/

-- One theorem at a time: the package compiles as one text, and a thread for each open proof asks for a stack of its own.
set_option Elab.async false

namespace Sys2Proof.Machine

theorem flights_passOp (s : State) (c id n d : Nat) : ((s.passOp c id n).core d).flights = (s.core d).flights ∧ ((s.passOp c id n).core d).l1 = (s.core d).l1 := by
  unfold State.passOp
  split
  · exact ⟨rfl, rfl⟩
  · unfold State.advance
    dsimp only
    rw [State.part_updEntry (·.flights) fun _ _ => rfl, State.part_updEntry (·.l1) fun _ _ => rfl, State.part_updEntry (·.flights) fun _ _ => rfl, State.part_updEntry (·.l1) fun _ _ => rfl]
    unfold State.updStood
    split
    · exact ⟨State.part_updBand (·.flights) (fun _ _ => rfl) _ _ _ _ _, State.part_updBand (·.l1) (fun _ _ => rfl) _ _ _ _ _⟩
    · unfold State.updThreads
      exact ⟨State.part_updBand (·.flights) (fun _ _ => rfl) _ _ _ _ _, State.part_updBand (·.l1) (fun _ _ => rfl) _ _ _ _ _⟩

theorem flagCount_dropFlag (s : State) (c slot : Nat) (f : Option Nat) (hp : (mapGet (s.core c).bands slot).isSome = true) (n : Nat) :
    (((s.dropFlag c slot f).core c).band slot).flagCount n = ((s.core c).band slot).flagCount n - if f = some n then 1 else 0 := by
  cases f with
  | none => rfl
  | some m =>
    obtain ⟨b, hb⟩ := Option.isSome_iff_exists.1 hp
    rw [State.dropFlag, State.updBand, State.core_updCore_self]
    simp only [Core.updBand, Core.band, mapGetD, mapGet_mapUpd, hb, if_true, Option.map_some, Option.getD_some, Band.flagCount, mapGet_mapSet]
    by_cases h : n = m
    · subst h; simp
    · have : ¬ m = n := fun h' => h h'.symm
      simp [h, this]

/-- No more of the bytes of a core's L1 stand as written. -/
def Fewer (s t : State) (c : Nat) : Prop :=
  ∀ x ∈ (t.core c).l1, ∃ l ∈ (s.core c).l1, ∀ i w, mapGet x.writer i = some w → mapGet l.writer i = some w

theorem Fewer.of_eq {s t : State} {c : Nat} (h : (t.core c).l1 = (s.core c).l1) : Fewer s t c := fun x hx => ⟨x, by rw [← h]; exact hx, fun _ _ h => h⟩

theorem Fewer.trans {a b d : State} {c : Nat} (h : Fewer a b c) (g : Fewer b d c) : Fewer a d c := fun x hx => by
  obtain ⟨y, hy, hxy⟩ := g x hx
  obtain ⟨z, hz, hyz⟩ := h y hy
  exact ⟨z, hz, fun i w hw => hyz i w (hxy i w hw)⟩

theorem Fewer.foldl {α : Type} {c : Nat} {f : State → α → State} (l : List α) (h : ∀ s, ∀ a ∈ l, Fewer s (f s a) c) (s : State) : Fewer s (l.foldl f s) c := by
  induction l generalizing s with
  | nil => exact .of_eq rfl
  | cons a l ih => exact (h s a List.mem_cons_self).trans (ih (fun s b hb => h s b (List.mem_cons_of_mem _ hb)) _)

theorem l1_failRelease (s : State) (c slot d e : Nat) : ((s.failRelease c slot d).core e).l1 = (s.core e).l1 :=
  State.part_updBand (·.l1) (fun _ _ => rfl) _ _ _ _ _

theorem l1_backBytes (s : State) (c : Nat) (l : L1Line) (sel : Nat → Bool) (e : Nat) : ((s.backBytes c l sel).core e).l1 = (s.core e).l1 := by
  unfold State.backBytes
  dsimp only
  split
  · rfl
  · split
    · exact foldl_keeps (fun s : State => (s.core e).l1) (fun s i => s.putLine l.line i (getBytes l.data i 1)) (fun _ _ => rfl) _ _
    · exact foldl_keeps (fun s : State => (s.core e).l1) (fun (s : State) w => s.failRelease c w _) (fun s a => l1_failRelease s _ _ _ _) _ _

theorem Fewer.clean (s : State) (o ln c : Nat) (sel : Nat → Bool) :
    Fewer s (s.updCore o fun k => { k with l1 := k.l1.map fun l => if l.line = ln then l.clean sel else l }) c := by
  by_cases h : c = o
  · subst h
    intro x hx
    rw [State.core_updCore_self] at hx
    obtain ⟨l, hl, rfl⟩ := List.mem_map.1 hx
    refine ⟨l, hl, fun i w hw => ?_⟩
    split at hw
    · have := (mapGet_mapFilter_keys l.writer (fun i => !sel i) i).symm.trans hw
      split at this
      · exact this
      · cases this
    · exact hw
  · exact .of_eq (by rw [State.core_updCore, if_neg h])

theorem Fewer.recall (s : State) (ln : Nat) (w : Word) (but : Option Nat) (c : Nat) : Fewer s (s.recall ln w but) c := by
  unfold State.recall
  split
  · exact .of_eq rfl
  · dsimp only
    refine Fewer.trans (b := _) (.foldl _ (fun s o _ => ?_) s) (.of_eq rfl)
    refine Fewer.trans (b := _) (.of_eq (foldl_keeps (fun s : State => (s.core c).l1) (fun (s : State) l => s.backBytes o.1 l (inWords (o.2 &&& w))) (fun s l => l1_backBytes s _ _ _ _) _ _)) (.clean _ _ _ _ _)

theorem l1_flushLine (s : State) (ln e : Nat) : ((s.flushLine ln).core e).l1 = (s.core e).l1 := by
  have hcp : ∀ (s : State) pa, ((s.countPage pa).core e).l1 = (s.core e).l1 := by
    intro s pa; unfold State.countPage; dsimp only; split; rfl; split <;> rfl
  unfold State.flushLine
  split
  · rfl
  · dsimp only
    split <;> split <;> first | rfl | exact hcp _ _ | exact (hcp _ _).trans (hcp _ _)

theorem Fewer.makeRoom (s : State) (ln c : Nat) : Fewer s (s.makeRoom ln) c := by
  unfold State.makeRoom
  dsimp only
  split
  · exact .of_eq rfl
  · split
    · rename_i p _
      exact Fewer.trans (b := s.recall p.1 allLanes none) (.recall _ _ _ _ _) (.of_eq (l1_flushLine ((s.recall p.1 allLanes none).dropReplicas p.1) p.1 c))
    · exact .of_eq rfl

theorem Fewer.fill (s : State) (enc : Bool) (key pd hm ln c : Nat) : Fewer s (s.fill enc key pd hm ln).1 c := by
  unfold State.fill
  split
  · exact .of_eq rfl
  · split
    · exact .of_eq rfl
    · dsimp only
      refine (Fewer.makeRoom s ln c).trans (.of_eq ?_)
      unfold State.countPage; dsimp only; split; rfl; split <;> rfl

theorem Fewer.ite {s t v : State} {c : Nat} {p : Prop} [Decidable p] (h : Fewer s t c) (g : Fewer s v c) : Fewer s (if p then t else v) c := by
  split
  · exact h
  · exact g

theorem Fewer.iteP {β : Type} {s : State} {t v : State × β} {c : Nat} {p : Prop} [Decidable p] (h : Fewer s t.1 c) (g : Fewer s v.1 c) :
    Fewer s (if p then t else v).1 c := by
  split
  · exact h
  · exact g

theorem Fewer.foldlP {α β : Type} {c : Nat} {f : State × β → α → State × β} (l : List α) (h : ∀ r, ∀ a ∈ l, Fewer r.1 (f r a).1 c) (r : State × β) :
    Fewer r.1 (l.foldl f r).1 c := by
  induction l generalizing r with
  | nil => exact .of_eq rfl
  | cons a l ih =>
    rw [List.foldl_cons]
    exact (h r a List.mem_cons_self).trans (ih (fun r b hb => h r b (List.mem_cons_of_mem _ hb)) _)

theorem Fewer.writeCode (s : State) (a : Asker) (buf block : Nat) (code : List Byte) (c : Nat) : Fewer s (s.writeCode a buf block code).1 c := by
  unfold State.writeCode
  dsimp only
  refine .iteP (.of_eq rfl) ?_
  refine Fewer.foldlP _ (fun r p _ => ?_) (s, 0)
  refine .iteP (.of_eq rfl) ?_
  exact .iteP (.fill _ _ _ _ _ _ _) ((Fewer.fill _ _ _ _ _ _ _).trans ((Fewer.recall _ _ _ _ _).trans (.of_eq rfl)))

theorem Fewer.pwWriteBack (s : State) (o : Nat) (p : PwBlock) (c : Nat) : Fewer s (s.pwWriteBack o p) c := by
  unfold State.pwWriteBack
  split
  · exact .of_eq rfl
  · have h := Fewer.writeCode s ⟨p.pd, none⟩ p.buf p.block p.encoded c
    split
    · rename_i h'; rw [h'] at h; exact h
    · rename_i h'; rw [h'] at h; exact h.trans (.foldl _ (fun s w _ => .of_eq (l1_failRelease _ _ _ _ _)) _)

theorem l1_retire (s : State) (c ln : Nat) (w : Word) (e : Nat) : ((s.retire c ln w).core e).l1 = (s.core e).l1 := rfl

/-- After the write-back of a release, no byte of the L1 stands as written by the bands it covers. -/
theorem clean_writeBack (s : State) (c : Nat) (who : Nat → Bool) :
    ∀ l ∈ ((s.writeBack c who).core c).l1, ∀ i w, mapGet l.writer i = some w → who w = false := by
  unfold State.writeBack
  dsimp only
  generalize s.settle c = m
  have step : ∀ (s : State) (l : L1Line), (((fun (s : State) (l : L1Line) =>
      let mine := fun i => (mapGet l.writer i).elim false who
      let s := s.backBytes c l mine
      let l' := l.clean mine
      let touched := maskOf ((List.range 32).filter fun w => (List.range 4).any fun j =>
        l.dirty.getLsbD (4 * w + j) && mine (4 * w + j))
      (s.updCore c fun k => { k with l1 := k.l1.map fun x => if x.line = l.line then l' else x }).retire c l.line
        (touched &&& l'.cleanWords)) s l).core c).l1 =
      (s.core c).l1.map fun x => if x.line = l.line then l.clean (fun i => (mapGet l.writer i).elim false who) else x := by
    intro s l
    dsimp only
    rw [l1_retire, State.core_updCore_self]
    dsimp only
    rw [l1_backBytes]
  have hclean : ∀ l : L1Line, ∀ i w, mapGet (l.clean (fun i => (mapGet l.writer i).elim false who)).writer i = some w → who w = false := by
    intro l i w hw
    have := (mapGet_mapFilter_keys l.writer (fun i => !(mapGet l.writer i).elim false who) i).symm.trans hw
    split at this
    · rename_i hs
      rw [this] at hs
      simpa using hs
    · cases this
  have fold : ∀ (f : State → L1Line → State) (hf : ∀ s l, ((f s l).core c).l1 = (s.core c).l1.map fun x => if x.line = l.line then l.clean (fun i => (mapGet l.writer i).elim false who) else x)
      (L : List L1Line) (s : State), ∀ x ∈ ((L.foldl f s).core c).l1,
        (x ∈ (s.core c).l1 ∧ ∀ l ∈ L, x.line ≠ l.line) ∨ ∀ i w, mapGet x.writer i = some w → who w = false := by
    intro f hf L
    induction L with
    | nil => exact fun s x hx => .inl ⟨hx, fun l hl => (List.not_mem_nil hl).elim⟩
    | cons a L ih =>
      intro s x hx
      rw [List.foldl_cons] at hx
      rcases ih _ x hx with ⟨h1, h2⟩ | h
      · rw [hf] at h1
        obtain ⟨y, hy, hyx⟩ := List.mem_map.1 h1
        split at hyx
        · rw [← hyx]; exact .inr (hclean a)
        · rename_i hne
          subst hyx
          exact .inl ⟨hy, fun l hl => by
            rcases List.mem_cons.1 hl with rfl | hl
            · exact hne
            · exact h2 l hl⟩
      · exact .inr h
  have h1 := fold _ step (m.core c).l1 m
  generalize List.foldl _ m (m.core c).l1 = n at h1 ⊢
  have h2 : ∀ x ∈ (n.core c).l1, ∀ i w, mapGet x.writer i = some w → who w = false := by
    intro x hx
    rcases h1 x hx with ⟨hx, hne⟩ | h
    · exact (hne x hx rfl).elim
    · exact h
  have h3 : Fewer n ((n.core c).pw.foldl (fun (s : State) (p : PwBlock) =>
    if p.writer.any fun w => who w.2 then
      (s.pwWriteBack c p).updCore c fun k => { k with pw := k.pw.map fun q =>
        if q.buf == p.buf && q.block == p.block then { p with code := p.encoded, written := [], writer := [] } else q }
    else s) n) c := .foldl _ (fun s p _ => by
      split
      · refine (Fewer.pwWriteBack s c p c).trans (.of_eq ?_)
        rw [State.core_updCore_self]
      · exact .of_eq rfl) n
  intro l hl i w hw
  obtain ⟨y, hy, hyl⟩ := h3 l hl
  exact h2 y hy i w (hyl i w hw)

theorem l1_flushDomain (s : State) (pd e : Nat) : ((s.flushDomain pd).core e).l1 = (s.core e).l1 := by
  unfold State.flushDomain
  exact foldl_keeps (fun s : State => (s.core e).l1) (fun (s : State) (d : Nat × DomeLine) => s.flushLine d.1) (fun s d => l1_flushLine s d.1 e) _ _

/-- The bands that a release covers. -/
theorem takeFail_none (s : State) (c : Nat) (f : Flight) (k : RelKind)
    (h : ∀ b ∈ relBands s c f k, ((s.core c).band b).relFail = []) : s.takeFail c f k = (s, none) := by
  unfold State.takeFail
  dsimp only
  have : (relBands s c f k).find? (fun b => !((s.core c).band b).relFail.isEmpty) = none := List.find?_eq_none.2 fun b hb => by rw [h b hb]; simp
  unfold relBands at this
  cases k <;> dsimp only at this ⊢ <;> rw [this]

theorem delivers_none (s : State) (c id : Nat) (f : Flight) (hp : (mapGet (s.core c).bands f.slot).isSome = true) :
    s.Delivers c id f [] flNone ((s.dropFlight c id).dropFlag c f.slot f.flag) := by
  have hbd : ((s.dropFlight c id).core c).band f.slot = (s.core c).band f.slot :=
    State.part_dropFlight (fun k => k.band f.slot) (fun _ _ => rfl) s c id c
  have hpd : (mapGet ((s.dropFlight c id).core c).bands f.slot).isSome = true := by
    rw [show mapGet ((s.dropFlight c id).core c).bands f.slot = mapGet (s.core c).bands f.slot from
      State.part_dropFlight (fun k => mapGet k.bands f.slot) (fun _ _ => rfl) s c id c, hp]
  refine ⟨fun p hp => (List.not_mem_nil hp).elim, ?_, fun n => ?_, ?_, ?_, ?_, ?_, ?_⟩
  · rw [State.band_dropFlag_proj (·.fflags) (fun _ _ => rfl), hbd]; simp [flNone]
  · rw [flagCount_dropFlag _ _ _ _ hpd, hbd]
  · rw [State.part_dropFlag (·.flights) (fun _ _ => rfl), State.dropFlight, State.core_updCore_self]
  · exact (KeepsRegs.dropFlight s c id c f.slot []).trans (KeepsRegs.dropFlag (s.dropFlight c id) c f.slot f.flag c f.slot [])
  · exact (KeepsThreads.dropFlight _ _ _).trans (KeepsThreads.dropFlag _ _ _ _)
  · exact ((MemSame.dropFlight _ _ _).trans (MemSame.dropFlag _ _ _ _)).keeps
  · rw [State.outside_dropFlag, State.outside_dropFlight]

/-- Two states whose registers, bands and operations in flight are the same stand so after a completion. -/
theorem settled (m : State) (c id : Nat) (f : Flight) (hp : (mapGet (m.core c).bands f.slot).isSome = true) (n : State)
    (h : (n.core c).vrf = (m.core c).vrf ∧ (n.core c).srf = (m.core c).srf ∧ (n.core c).prf = (m.core c).prf ∧ (n.core c).bands = (m.core c).bands ∧
      (n.core c).flights = (m.core c).flights) (ho : n.outside = m.outside) :
    (∀ g d, ((n.dropFlight c id).dropFlag c f.slot f.flag).reg c f.slot g d = ((m.dropFlight c id).dropFlag c f.slot f.flag).reg c f.slot g d) ∧
    (∀ i, ((((n.dropFlight c id).dropFlag c f.slot f.flag).core c).band f.slot).flagCount i = ((((m.dropFlight c id).dropFlag c f.slot f.flag).core c).band f.slot).flagCount i) ∧
    (((n.dropFlight c id).dropFlag c f.slot f.flag).core c).flights = (((m.dropFlight c id).dropFlag c f.slot f.flag).core c).flights ∧
    ((n.dropFlight c id).dropFlag c f.slot f.flag).outside = ((m.dropFlight c id).dropFlag c f.slot f.flag).outside := by
  have K : ∀ x : State, KeepsRegs x ((x.dropFlight c id).dropFlag c f.slot f.flag) c f.slot [] := fun x =>
    (KeepsRegs.dropFlight x c id c f.slot []).trans (KeepsRegs.dropFlag (x.dropFlight c id) c f.slot f.flag c f.slot [])
  have hb : ∀ x : State, (((x.dropFlight c id).core c).bands) = (x.core c).bands := fun x => State.part_dropFlight (·.bands) (fun _ _ => rfl) _ _ _ _
  have hF : ∀ x : State, ((((x.dropFlight c id).dropFlag c f.slot f.flag).core c).flights) = mapDel (x.core c).flights id := fun x => by
    rw [State.part_dropFlag (·.flights) (fun _ _ => rfl), State.dropFlight, State.core_updCore_self]
  refine ⟨fun g d => ?_, fun i => ?_, ?_, ?_⟩
  · rw [K n c f.slot g d (by simp), K m c f.slot g d (by simp)]
    unfold State.reg Core.readLoc
    obtain ⟨h1, h2, h3, h4, h5⟩ := h
    rw [Core.band, h4, h1, h2, h3, ← Core.band]
  · rw [flagCount_dropFlag _ _ _ _ (by rw [hb, h.2.2.2.1]; exact hp), flagCount_dropFlag _ _ _ _ (by rw [hb]; exact hp), Core.band, Core.band, hb, hb, h.2.2.2.1]
  · rw [hF, hF, h.2.2.2.2]
  · rw [State.outside_dropFlag, State.outside_dropFlight, State.outside_dropFlag, State.outside_dropFlight, ho]

theorem Quiet.register (s : State) (c : Nat) (r : Registration) : Quiet s (s.register c r) := by
  unfold State.register
  dsimp only
  refine .ite (.failRelease _ _ _ _) ?_
  refine .ite ((Quiet.fillBuf _ _ _).trans (.failRelease _ _ _ _)) ?_
  refine (Quiet.fillBuf s (s.buf r.buf) r.line).trans ?_
  generalize (s.fillBuf (s.buf r.buf) r.line).1 = m
  refine (Quiet.recall m r.line r.words (some c)).trans ?_
  generalize m.recall r.line r.words (some c) = n
  refine Quiet.trans (b := if (((mapGet n.domes r.line).elim [] fun d => d.owners).any (·.1 == c) || ((mapGet n.domes r.line).elim [] fun d => d.owners).length < 4) = true then n else
    match (mapGet n.domes r.line).elim [] fun d => d.owners with
    | [] => n
    | o :: _ => n.recall r.line o.2 none) ?_ ?_
  · refine .ite (.refl _) ?_
    split
    · exact .refl _
    · exact .recall _ _ _ _
  · exact .ite (Quiet.trans (Quiet.setDomes _ _) (.mark _ _ _ _ _)) (.setDomes _ _)

theorem Quiet.performRequest (s : State) (c : Nat) (r : Request) : Quiet s (s.performRequest c r) := by
  unfold State.performRequest
  refine .ite (.ite (.outer rfl rfl) (.failRelease _ _ _ _)) ?_
  have h := Quiet.writeAt s ⟨r.pd, none⟩ r.t.buf r.t.off r.bytes
  split
  · rename_i h'; rw [h'] at h; exact .ite (h.trans (.mark _ _ _ _ _)) h
  · rename_i h'; rw [h'] at h; exact h.trans (.failRelease _ _ _ _)

theorem Quiet.settle (s : State) (c : Nat) : Quiet s (s.settle c) := by
  unfold State.settle
  dsimp only
  refine Quiet.trans (b := s.setCore c { s.core c with regs := [], requests := [] }) ?_ ?_
  · exact ⟨rfl, fun d => by rw [State.core_setCore]; split <;> [(rename_i h; rw [h]; rfl); rfl],
      fun d b => by rw [State.core_setCore]; split <;> [(rename_i h; rw [h]; exact ⟨rfl, rfl⟩); exact ⟨rfl, rfl⟩],
      fun d => by rw [State.core_setCore]; split <;> [(rename_i h; rw [h]); rfl]⟩
  · exact (Quiet.foldl _ (fun s r _ => Quiet.register s c r) _).trans (Quiet.foldl _ (fun s r _ => Quiet.performRequest s c r) _)

/-- What a write-back keeps of a core. -/
theorem calm_writeBack (s : State) (c : Nat) (who : Nat → Bool) : Quiet s (s.writeBack c who) := by
  unfold State.writeBack
  dsimp only
  refine (Quiet.settle s c).trans ?_
  refine (Quiet.foldl _ (fun (s : State) (l : L1Line) _ => ?_) (s.settle c)).trans (Quiet.foldl _ (fun (s : State) (p : PwBlock) _ => ?_) _)
  · refine Quiet.trans (b := s.backBytes c l fun i => (mapGet l.writer i).elim false who) (.backBytes _ _ _ _) ?_
    refine Quiet.trans (b := (s.backBytes c l fun i => (mapGet l.writer i).elim false who).updCore c fun k =>
      { k with l1 := k.l1.map fun x => if x.line = l.line then l.clean (fun i => (mapGet l.writer i).elim false who) else x })
      (Quiet.updCore _ c _ (fun _ => rfl) (fun _ => rfl) fun k => ?_) (.outer rfl rfl)
    rw [List.map_map]
    refine List.map_congr_left fun x _ => ?_
    simp only [Function.comp]
    split
    · rename_i h; exact h.symm
    · rfl
  · split
    · exact (Quiet.pwWriteBack s c p).trans (Quiet.updCore _ c _ (fun _ => rfl) (fun _ => rfl) fun k => rfl)
    · exact .refl _

theorem l1_performRelease (s : State) (c : Nat) (f : Flight) (k : RelKind) :
    ∀ l ∈ ((s.performRelease c f k false).core c).l1, ∀ i w, mapGet l.writer i = some w → w ∉ relBands s c f k := by
  intro l hl i w hw
  cases k
  · have := clean_writeBack s c (· == f.slot) l hl i w hw
    simpa [relBands] using this
  · have := clean_writeBack s c ((s.core c).taskBands ((s.core c).taskOfBand f.slot)).contains l hl i w hw
    simpa [relBands] using this
  · have := clean_writeBack s c ((s.core c).taskBands ((s.core c).taskOfBand f.slot)).contains l (by rw [← l1_flushDomain _ (s.pdOf c f.slot)]; exact hl) i w hw
    simpa [relBands] using this

theorem calm_performRelease (s : State) (c : Nat) (f : Flight) (k : RelKind) : Quiet s (s.performRelease c f k false) := by
  cases k
  · exact calm_writeBack s c (· == f.slot)
  · exact calm_writeBack s c _
  · exact (calm_writeBack _ _ _).trans (Quiet.foldl _ (fun s (d : Nat × DomeLine) _ => Quiet.flushLine s d.1) _)

theorem flights_performRelease (s : State) (c : Nat) (f : Flight) (k : RelKind) : ((s.performRelease c f k false).core c).flights = (s.core c).flights :=
  by
  have := congrArg (fun k : Core => k.flights) ((calm_performRelease s c f k).core c)
  exact this

theorem relBands_performRelease (s : State) (c : Nat) (f : Flight) (k k' : RelKind) :
    relBands (s.performRelease c f k false) c f k' = relBands s c f k' := by
  have h := calm_performRelease s c f k
  generalize s.performRelease c f k false = m at h
  have ht : (m.core c).tasks = (s.core c).tasks := by
    have := congrArg (fun k : Core => k.tasks) (h.core c)
    exact this
  have hb : ((m.core c).band f.slot).task = ((s.core c).band f.slot).task := by
    have := congrArg (fun k : Band => k.task) (h.band c f.slot).1
    exact this
  unfold relBands
  cases k' <;> simp only [Core.taskBands, Core.task, Core.taskOfBand, ht, hb]

theorem find_op {k : Core} {id e : Nat} {x : Entry} (h : k.table.find? (fun e => e.2.wait == .op id) = some (e, x)) :
    ∃ y, mapGet k.table e = some y := by
  have : ∀ m : Map Entry, m.find? (fun e => e.2.wait == .op id) = some (e, x) → ∃ y, mapGet m e = some y := by
    intro m
    induction m with
    | nil => intro h; cases h
    | cons p m ih =>
      intro h
      rw [mapGet]
      split
      · exact ⟨_, rfl⟩
      · rename_i hne
        rw [List.find?_cons] at h
        split at h
        · cases h; exact (hne rfl).elim
        · exact ih h
  exact this _ h

theorem passOp_wait (s : State) (c id n e : Nat) (x : Entry) (h : (s.core c).table.find? (fun e => e.2.wait == .op id) = some (e, x)) :
    (((s.passOp c id n).core c).entry e).wait = .ready := by
  obtain ⟨y, hy⟩ := find_op h
  unfold State.passOp
  rw [h]
  dsimp only
  have : (mapGet ((s.advance c e n).core c).table e).isSome = true := by
    unfold State.advance
    dsimp only
    rw [State.updEntry, State.core_updCore_self, Core.updEntry]
    dsimp only
    rw [mapGet_mapUpd, if_pos rfl]
    have : mapGet ((State.updStood s c ((s.core c).entry e).slot ((s.core c).entry e).frozen ((s.core c).entry e).lanes fun _ t =>
        let pc := t.pc + BitVec.ofNat 64 (4 * n)
        { t with pc, base := if (match ((s.core c).entry e).ctx with | some x => decide (x.left ≤ 1) | none => true) = true then pc else t.base }).core c).table e = some y := by
      rw [← hy]
      unfold State.updStood
      split
      · exact State.part_updBand (fun k => mapGet k.table e) (fun _ _ => rfl) _ _ _ _ _
      · unfold State.updThreads
        exact State.part_updBand (fun k => mapGet k.table e) (fun _ _ => rfl) _ _ _ _ _
    exact (Option.isSome_map ..).trans (by
      refine (congrArg Option.isSome ?_ : _ = (some y).isSome); exact this)
  obtain ⟨z, hz⟩ := Option.isSome_iff_exists.1 this
  rw [State.updEntry, State.core_updCore_self, Core.updEntry, Core.entry, mapGetD]
  dsimp only
  rw [mapGet_mapUpd, if_pos rfl, hz]
  rfl

end Sys2Proof.Machine
end

