-- ==== Sys2Proof/Laws/HostCmd.lean ====
section
/-! SUPPORT. What the commands and accesses of the host keep. -/

-- One theorem at a time: the package compiles as one text, and a thread for each open proof asks for a stack of its own.
set_option Elab.async false

namespace Sys2Proof.Machine

theorem hostCommand_at {s : State} {l : List Byte} {op : Nat} {ev : Instr} {meant : Nat → Bool} {f : List Byte → State → State × Option (Nat × Nat)}
    (h : s.commands l op) (hm : meant op = true) (he : exec ev s = hostCommand meant f s) :
    exec ev s = .next (match f (l.drop 16) s with | (s, none) => s | (s, some r) => s.cmdDone l r.1 r.2) := by
  obtain ⟨h1, h2, h3, h4⟩ := h
  rw [he, hostCommand, h1]
  dsimp only
  rw [if_neg (by simp [h2]), h3, hm, h4]
  rfl

theorem cmdDone_keeps (m : State) (l : List Byte) (st r : Nat) : (m.cmdDone l st r).rings.cmdHead = m.rings.cmdHead + 1 ∧
    (m.cmdDone l st r).rings.cmdWait = none ∧ KeepsBands m (m.cmdDone l st r) := by
  unfold State.cmdDone
  have h := Quiet.askWrite m ⟨0, none⟩ (BitVec.ofNat 64 (numAt l 8 8)) (bytesOf 4 (numAt l 4 4) ++ bytesOf 4 st ++ bytesOf 8 r)
  generalize (m.askWrite ⟨0, none⟩ (BitVec.ofNat 64 (numAt l 8 8)) (bytesOf 4 (numAt l 4 4) ++ bytesOf 4 st ++ bytesOf 8 r)).1 = n at h ⊢
  have h1 := congrArg (fun s : State => s.rings.cmdHead) h.still
  refine ⟨congrArg (· + 1) h1, rfl, ?_⟩
  exact (Served.of h).keeps.trans (KeepsBands.outer rfl)

theorem fold_pwRecall (f : State → Nat × Nat → Bool) (L : List (Nat × Nat)) (a : State) :
    Quiet a (L.foldl (fun s p => if f s p = true then s.pwRecall (p.1 / 2 ^ 28) (p.1 % 2 ^ 28) none else s) a) :=
  Quiet.foldl _ (fun _ _ _ => Quiet.ite (Quiet.pwRecall _ _ _ _) (Quiet.refl _)) a

theorem recallRange_keeps (s : State) (pa n : Nat) : Quiet s (s.recallRange pa n) := by
  unfold State.recallRange
  dsimp only
  refine Quiet.trans (b := (mapKeys s.cores).foldl (fun s c => s.settle c) s) (Quiet.foldl _ (fun (s : State) c _ => Quiet.settle s c) s) ?_
  generalize (mapKeys s.cores).foldl (fun s c => s.settle c) s = a
  refine Quiet.trans ?_ (Quiet.foldl _ (fun (s : State) (d : Nat × DomeLine) _ => (Quiet.recall _ _ _ _).trans (Quiet.flushLine _ _)) _)
  exact fold_pwRecall _ _ _

theorem mapAll_core (s : State) (f : Nat → Core → Core) (hf : ∀ c, f c Core.fresh = Core.fresh) (c : Nat) :
    ({ s with cores := mapAll s.cores f } : State).core c = f c (s.core c) := by
  unfold State.core mapGetD
  rw [mapGet_mapAll]
  cases mapGet s.cores c with
  | none => exact (hf c).symm
  | some k => rfl

theorem quiet_atomicAt (s : State) (a : Asker) (buf off size : Nat) (f : Nat → Option Nat) : Quiet s (s.atomicAt a buf off size f).1 := by
  unfold State.atomicAt
  dsimp only
  refine .iteP (.refl _) ?_
  have h1 := Quiet.recall s ((s.buf buf).pa off / 128) (wordMask ((s.buf buf).pa off % 128) size) none
  have h2 := Quiet.readAt (s.recall ((s.buf buf).pa off / 128) (wordMask ((s.buf buf).pa off % 128) size) none) a buf off size
  split
  · rename_i b bs hb
    rw [hb] at h2
    split
    · exact h1.trans h2
    · exact h1.trans (h2.trans (Quiet.writeAt _ _ _ _ _))
  · rename_i b e bs _ hb
    rw [hb] at h2
    exact h1.trans h2

end Sys2Proof.Machine
end

