-- ==== Sys2Proof/Laws/Manage.lean ====
section
/-! SUPPORT. How a management frame is answered. -/

-- One theorem at a time: the package compiles as one text, and a thread for each open proof asks for a stack of its own.
set_option Elab.async false

namespace Sys2Proof.Machine

theorem manages {s : State} {f : Frame} {code : Nat} {signed : Bool} {ev : Instr} {act : State → State × Nat × List Byte}
    {P : State → State → Nat → List Byte → Prop} (he : exec ev s = manage code signed f act s)
    (hP : ∀ m, { m with mgmt := s.mgmt, power := s.power } = s → m.mgmt = { s.mgmt with nonces := mapSet s.mgmt.nonces f.slot f.nonce } →
      (act m).1.out = s.out ∧ P m ((act m).1.answer code f (act m).2.1 (act m).2.2) (act m).2.1 (act m).2.2) :
    s.Answers f code signed ev P := by
  obtain ⟨p, hp⟩ := wakeUp_power s
  refine ⟨fun h => ?_, fun h1 h2 => ?_, fun h1 h2 h3 => ?_, fun h1 h2 h3 => ?_⟩
  · rw [he, manage, if_pos]
    simp only [not_and_or, Bool.or_eq_true, Bool.not_eq_true', Bool.and_eq_true, bne_iff_ne, Bool.not_eq_true] at h ⊢
    rcases h with h | h
    · exact .inl h
    · rw [not_forall] at h; obtain ⟨h, h'⟩ := h
      rw [not_or] at h'
      exact .inr ⟨⟨h, h'.1⟩, h'.2⟩
  all_goals
    have h0 : (!s.mgmt.powered || (s.mgmt.halted && code != 9 && code != 0x10)) = false := by
      rw [h1.1]
      cases hh : s.mgmt.halted with
      | false => rfl
      | true => rcases h1.2 hh with h | h <;> rw [h] <;> rfl
    rw [he, manage, h0, hp]
    simp only [Bool.false_eq_true, if_false]
  · simp only [Classical.not_imp, Bool.not_eq_true] at h2
    have hv : (signed && !({ s with power := p } : State).verified code f) = true := by
      rw [show ({ s with power := p } : State).verified code f = s.verified code f from rfl, h2.1, h2.2]; rfl
    rw [if_pos hv]
    exact ⟨_, rfl, rfl, rfl, rfl, rfl⟩
  all_goals
    have hv : (signed && !({ s with power := p } : State).verified code f) = false := by
      rw [show ({ s with power := p } : State).verified code f = s.verified code f from rfl]
      cases hs : signed with
      | false => rfl
      | true => rw [h2 hs]; rfl
    have hf : ({ s with power := p } : State).freshFrame f = s.freshFrame f := rfl
    rw [if_neg (by rw [hv]; simp), hf, h3]
  · exact ⟨_, rfl, rfl, rfl, rfl, rfl⟩
  · simp only [Bool.not_true, Bool.false_eq_true, if_false]
    have h6 := hP { s with power := p, mgmt := { s.mgmt with nonces := mapSet s.mgmt.nonces f.slot f.nonce } } rfl rfl
    have h7 : ∀ m : State, m = { s with power := p, mgmt := { s.mgmt with nonces := mapSet s.mgmt.nonces f.slot f.nonce } } →
      m.cores = s.cores ∧ m.keys = s.keys ∧ m.mgmt = { s.mgmt with nonces := mapSet s.mgmt.nonces f.slot f.nonce } ∧
        { m with mgmt := s.mgmt, power := s.power } = s := by rintro m rfl; exact ⟨rfl, rfl, rfl, rfl⟩
    generalize ({ s with power := p, mgmt := { s.mgmt with nonces := mapSet s.mgmt.nonces f.slot f.nonce } } : State) = m at h6 h7 ⊢
    obtain ⟨h4, h5⟩ := h6
    obtain ⟨h8, h9, h10, h11⟩ := h7 m rfl
    refine ⟨m, (act m).1.answer code f (act m).2.1 (act m).2.2, (act m).2.1, (act m).2.2, rfl, ?_, h8, h9, h10, h11, h5⟩
    rw [State.answer, State.send]
    dsimp only
    rw [← h4]

theorem highest_eq (f : Nat → Bool) (top n v : Nat) (h1 : top - n ≤ v) (h2 : v ≤ top) (h3 : f v = true)
    (h4 : ∀ k, v < k → k ≤ top → f k = false) : highest f top n = some v := by
  have : (List.range (n + 1)).find? (f ∘ fun x => top - x) = some (top - v) := by
    refine List.find?_range_eq_some.2 ⟨?_, ?_, ?_⟩
    · simp only [Function.comp_apply]; rw [show top - (top - v) = v by omega]; exact h3
    · simp only [List.mem_range]; omega
    · intro j hj
      simp only [Function.comp_apply, Bool.not_eq_eq_eq_not, Bool.not_true]
      exact h4 _ (by omega) (by omega)
  unfold highest
  rw [List.find?_map, this, Option.map_some, show top - (top - v) = v by omega]

theorem pstateOf_rank (n : Nat) (h : n ≤ 3) : (pstateOf n).rank = n := by
  interval_cases n <;> rfl

theorem taskAt_band {s : State} {c b n : Nat} (h : s.taskAt c b = some n) : (mapGet (s.core c).bands b).isSome = true := by
  unfold State.taskAt at h
  cases hb : mapGet (s.core c).bands b with
  | none => rw [hb] at h; cases h
  | some x => rfl

theorem stopped_some {s : State} {c n : Nat} (h : ((s.core c).task n).stopped = true) : (mapGet (s.core c).tasks n).isSome = true := by
  unfold Core.task mapGetD at h
  cases hb : mapGet (s.core c).tasks n with
  | none => rw [hb] at h; cases h
  | some x => rfl

end Sys2Proof.Machine
end

