-- ==== Sys2Proof/Laws/MatrixStep.lean ====
section
/-! SUPPORT. The status words and the rows that a matrix step writes. -/

-- One theorem at a time: the package compiles as one text, and a thread for each open proof asks for a stack of its own.
set_option Elab.async false

namespace Sys2Proof.Machine

theorem prog_word (a : Word) (b : Bool) (p : Nat) : statProg (statusWord (stickyOf a) b p) = p % 128 ∧ statStop (statusWord (stickyOf a) b p) = b := by
  unfold statProg statusWord stickyOf statStop
  refine ⟨?_, ?_⟩
  · rw [BitVec.toNat_or, BitVec.toNat_or, BitVec.toNat_and, show (128 : Nat) = 2 ^ 7 from rfl, Nat.or_mod_two_pow, Nat.or_mod_two_pow, Nat.and_mod_two_pow]
    have h1 : (if b = true then 0x8000#32 else 0).toNat % 2 ^ 7 = 0 := by cases b <;> rfl
    have h2 : (BitVec.ofNat 32 (p % 2 ^ 7)).toNat % 2 ^ 7 = p % 2 ^ 7 := by rw [BitVec.toNat_ofNat]; omega
    rw [h1, h2, show (0x1F00#32).toNat % 2 ^ 7 = 0 from rfl, Nat.and_zero, Nat.zero_or, Nat.zero_or]
  · rw [BitVec.getLsbD_or, BitVec.getLsbD_or, BitVec.getLsbD_and]
    have h2 : (BitVec.ofNat 32 (p % 128)).getLsbD 15 = false := by
      rw [BitVec.getLsbD_ofNat]
      simp only [Nat.reduceLT, decide_true, Bool.true_and]
      exact Nat.testBit_lt_two_pow (Nat.lt_of_lt_of_le (Nat.mod_lt p (by omega)) (by omega))
    rw [h2, show (0x1F00#32).getLsbD 15 = false from rfl]
    cases b <;> simp

theorem stick_or (a : Word) (fl : Fl) (sat : Bool) : ∃ b, stickyOf a ||| stickyFl fl sat = stickyOf b := by
  refine ⟨stickyOf a ||| stickyFl fl sat, ?_⟩
  have : stickyFl fl sat = stickyOf (stickyFl fl sat) := by
    unfold stickyFl stickyOf
    cases (fl &&& flNV != 0) <;> cases (fl &&& flOF != 0) <;> cases (fl &&& flUF != 0) <;> cases (fl &&& flNX != 0) <;> cases sat <;> rfl
  rw [this]
  unfold stickyOf
  ext i hi
  simp only [BitVec.getElem_and, BitVec.getElem_or]
  cases a[i] <;> cases (stickyFl fl sat)[i] <;> cases (0x1F00#32)[i] <;> rfl

/-- The status words of an operation's accumulators, once set. -/
theorem status_set (s : State) (c t : Nat) (o : MatOp) (f : Word → Word) (p : Word → Prop) (hp : ∀ w, p (f w)) :
    ∀ a ∈ o.accs, p (((s.setStatus c t o f).core c).accStatus ((s.core c).task t) a).1 := by
  have one : ∀ (k : Core) (T : Task) (a b : Nat) (w : Word), ((k.putStatus T a w).accStatus T b) = if T.accAt b = T.accAt a then (w, true) else k.accStatus T b := by
    intro k T a b w
    unfold Core.accStatus Core.putStatus
    dsimp only
    rw [mapGet_mapSet]
    split
    · rename_i h; unfold readTagged; simp
    · rfl
  intro a ha
  unfold State.setStatus
  rw [State.core_updCore_self]
  dsimp only
  unfold MatOp.accs at ha ⊢
  generalize s.core c = k at *
  generalize k.task t = T
  by_cases hpr : o.pair = true
  · rw [if_pos hpr] at ha ⊢
    rw [List.foldl_cons, List.foldl_cons, List.foldl_nil, one, one]
    rcases List.mem_cons.1 ha with rfl | ha
    · split
      · exact hp _
      · rw [one, if_pos rfl]; exact hp _
    · rw [List.mem_singleton.1 ha, if_pos rfl]; exact hp _
  · rw [if_neg hpr] at ha ⊢
    rw [List.foldl_cons, List.foldl_nil, one, List.mem_singleton.1 ha, if_pos rfl]; exact hp _

theorem setStatus_part {β : Type} (p : Core → β) (hp : ∀ k x, p { k with accStat := x } = p k) (s : State) (c t : Nat) (o : MatOp) (f : Word → Word) (d : Nat) :
    p ((s.setStatus c t o f).core d) = p (s.core d) := by
  unfold State.setStatus
  rw [State.core_updCore]
  split
  · rename_i h
    subst h
    exact foldl_keeps p (fun (k : Core) a => k.putStatus _ a (f (k.accStatus _ a).1)) (fun k a => hp k _) _ _
  · rfl

theorem writeRows_zip (t : Task) (a : Nat) (rows : List (BitVec 2048)) : ∀ (k : Core) (n key : Nat),
    mapGet ((rows.zipIdx n).foldl (fun (k : Core) x => k.putAccRow t a x.2 x.1) k).accs key =
      if t.accKey a n ≤ key ∧ key < t.accKey a n + rows.length then some ⟨t.gen, rows.getD (key - t.accKey a n) 0⟩ else mapGet k.accs key := by
  induction rows with
  | nil => intro k n key; rw [if_neg (by simp)]; rfl
  | cons r rows ih =>
    intro k n key
    rw [List.zipIdx_cons, List.foldl_cons, ih]
    have : t.accKey a (n + 1) = t.accKey a n + 1 := by simp only [Task.accKey]; omega
    rw [this, List.length_cons]
    by_cases h : key = t.accKey a n
    · subst h
      rw [if_neg (by omega), if_pos (by omega), Core.putAccRow]
      dsimp only
      rw [mapGet_mapSet, if_pos rfl, Nat.sub_self]
      rfl
    · by_cases h2 : t.accKey a n + 1 ≤ key ∧ key < t.accKey a n + 1 + rows.length
      · rw [if_pos h2, if_pos (by omega), show key - t.accKey a n = key - (t.accKey a n + 1) + 1 by omega]
        rfl
      · rw [if_neg h2, if_neg (by omega), Core.putAccRow]
        dsimp only
        rw [mapGet_mapSet, if_neg h]

theorem accRow_writeRows (k : Core) (t : Task) (a b i : Nat) (rows : List (BitVec 2048)) (hl : rows.length ≤ 64) (hi : i < 64) :
    (k.writeRows t a rows).accRow t b i = if t.accAt b = t.accAt a ∧ i < rows.length then (rows.getD i 0, true) else k.accRow t b i := by
  unfold Core.writeRows Core.accRow
  rw [writeRows_zip]
  have hk : ∀ a i, t.accKey a i = 64 * t.accAt a + i := fun _ _ => rfl
  by_cases h : t.accAt b = t.accAt a ∧ i < rows.length
  · rw [if_pos (by simp only [hk]; rw [h.1]; omega), if_pos h, show t.accKey b i - t.accKey a 0 = i by simp only [hk]; rw [h.1]; omega]
    simp [readTagged]
  · rw [if_neg (by simp only [hk]; intro h'; apply h; constructor <;> omega), if_neg h]

theorem Moved_releaseBar (s : State) (c t gid : Nat) : (s.releaseBar c t gid).outside = s.outside := by
  unfold State.releaseBar
  refine State.outside_foldl _ (fun s b => ?_) _ _
  refine State.outside_foldl _ (fun s e => ?_) _ _
  have key : ∀ z : Bool, (if z = true then ((if gid < 256 then s.selfInvalidate c else s).advance c e 1).updEntry c e fun x => { x with wait := .ready, age := 0 }
      else if ((s.core c).entry e).wait = Wait.again gid then s.updEntry c e fun x => { x with wait := .ready, age := 0 } else s).outside = s.outside := by
    intro z
    split
    · rw [State.outside_updEntry, State.outside_advance]
      split <;> rfl
    · split <;> rfl
  exact key _

end Sys2Proof.Machine
end

