-- ==== Sys2Proof/Laws/Memory.lean ====
section
/-! SUPPORT. Device memory: every operation keeps the canonical form; a read after a write. -/

-- One theorem at a time: the package compiles as one text, and a thread for each open proof asks for a stack of its own.
set_option Elab.async false

namespace Sys2Proof.Machine

theorem Memory.wfFrom_mono {m : List Host.Cell} {a b : Nat} (h : Memory.wfFrom b m = true) (hab : a ≤ b) :
    Memory.wfFrom a m = true := by
  cases m with
  | nil => rfl
  | cons p m =>
    obtain ⟨k, v⟩ := p
    simp only [Memory.wfFrom, Bool.and_eq_true, decide_eq_true_eq] at *
    exact ⟨⟨by omega, h.1.2⟩, h.2⟩

theorem Memory.wfFrom_mapSet {m : List Host.Cell} {lo a : Nat} {b : Byte} (h : Memory.wfFrom lo m = true) (ha : lo ≤ a)
    (hb : b ≠ Memory.blank) : Memory.wfFrom lo (mapSet m a b) = true := by
  induction m generalizing lo with
  | nil => simp [mapSet, Memory.wfFrom, ha, hb]
  | cons p m ih =>
    obtain ⟨k, v⟩ := p
    simp only [Memory.wfFrom, Bool.and_eq_true, decide_eq_true_eq, bne_iff_ne, ne_eq] at h
    obtain ⟨⟨h1, h2⟩, h3⟩ := h
    rcases Nat.lt_trichotomy a k with hk | hk | hk
    · have : a ≠ k := by omega
      simp only [mapSet, this, hk, if_true, if_false, Memory.wfFrom, Bool.and_eq_true, decide_eq_true_eq, bne_iff_ne, ne_eq]
      exact ⟨⟨ha, hb⟩, ⟨by omega, h2⟩, h3⟩
    · subst hk
      simp only [mapSet, if_true, Memory.wfFrom, Bool.and_eq_true, decide_eq_true_eq, bne_iff_ne, ne_eq]
      exact ⟨⟨ha, hb⟩, h3⟩
    · have h4 : a ≠ k := by omega
      have h5 : ¬ a < k := by omega
      simp only [mapSet, h4, h5, if_false, Memory.wfFrom, Bool.and_eq_true, decide_eq_true_eq, bne_iff_ne, ne_eq]
      exact ⟨⟨h1, h2⟩, ih h3 (by omega)⟩

theorem Memory.wfFrom_mapDel {m : List Host.Cell} {lo : Nat} (a : Nat) (h : Memory.wfFrom lo m = true) :
    Memory.wfFrom lo (mapDel m a) = true := by
  induction m generalizing lo with
  | nil => rfl
  | cons p m ih =>
    obtain ⟨k, v⟩ := p
    simp only [Memory.wfFrom, Bool.and_eq_true, decide_eq_true_eq, bne_iff_ne, ne_eq] at h
    obtain ⟨⟨h1, h2⟩, h3⟩ := h
    by_cases hk : a = k
    · subst hk
      simp only [mapDel, if_true]
      exact Memory.wfFrom_mono (ih h3) (by omega)
    · simp only [mapDel, hk, if_false, Memory.wfFrom, Bool.and_eq_true, decide_eq_true_eq, bne_iff_ne, ne_eq]
      exact ⟨⟨h1, h2⟩, ih h3⟩

/-- A write keeps the canonical form. -/
theorem Memory.wf_write {m : List Host.Cell} (a : Nat) (b : Byte) (h : Memory.wf m = true) :
    Memory.wf (Memory.write m a b) = true := by
  unfold Memory.write
  split
  · exact Memory.wfFrom_mapDel a h
  · rename_i hb; exact Memory.wfFrom_mapSet h (Nat.zero_le _) hb

/-- So does a write of consecutive bytes. -/
theorem Memory.wf_writeN {m : List Host.Cell} (a : Nat) (bs : List Byte) (h : Memory.wf m = true) :
    Memory.wf (Memory.writeN m a bs) = true := by
  induction bs generalizing m a with
  | nil => exact h
  | cons b bs ih => exact ih (a + 1) (Memory.wf_write a b h)

/-- So does the write of a half line, the one operation that writes the array. -/
theorem State.wf_putHalf {s : State} (key : Option Key) (pa : Nat) (d : BitVec 512) (h : Memory.wf s.mem = true) :
    Memory.wf (s.putHalf key pa d).mem = true := Memory.wf_writeN pa _ h

/-- A byte reads as it was written last, and every other byte as before. -/
theorem Memory.read_write (m : List Host.Cell) (a c : Nat) (b : Byte) :
    Memory.read (Memory.write m a b) c = if c = a then b else Memory.read m c := by
  unfold Memory.read Memory.write
  split
  · rename_i hb
    rw [mapGetD, mapGet_mapDel]
    split
    · exact hb.symm
    · rfl
  · rw [mapGetD_mapSet]

/-- The same of consecutive bytes: those before the first are untouched. -/
theorem Memory.read_writeN_lt (m : List Host.Cell) (a c : Nat) (bs : List Byte) (hc : c < a) :
    Memory.read (Memory.writeN m a bs) c = Memory.read m c := by
  induction bs generalizing m a with
  | nil => rfl
  | cons b bs ih =>
    rw [Memory.writeN, ih _ (a + 1) (by omega), Memory.read_write]
    simp [Nat.ne_of_lt hc]

/-- Consecutive bytes read as they were written; every other byte as before. -/
theorem Memory.read_writeN (m : List Host.Cell) (a c : Nat) (bs : List Byte) :
    Memory.read (Memory.writeN m a bs) c =
      if a ≤ c ∧ c < a + bs.length then bs.getD (c - a) Memory.blank else Memory.read m c := by
  induction bs generalizing m a with
  | nil => rw [if_neg (by simp only [List.length_nil]; omega)]; rfl
  | cons b bs ih =>
    rw [Memory.writeN]
    by_cases hc : c = a
    · subst hc
      rw [Memory.read_writeN_lt _ (c + 1) c bs (by omega), Memory.read_write]
      simp
    · rw [ih _ (a + 1), Memory.read_write]
      simp only [hc, if_false, List.length_cons]
      by_cases h1 : a + 1 ≤ c ∧ c < a + 1 + bs.length
      · rw [if_pos h1, if_pos ⟨by omega, by omega⟩]
        obtain ⟨n, hn⟩ : ∃ n, c - a = n + 1 := ⟨c - a - 1, by omega⟩
        rw [hn, show c - (a + 1) = n by omega]
        rfl
      · rw [if_neg h1, if_neg (by omega)]

end Sys2Proof.Machine
end

