-- ==== Sys2Proof/Laws/PerInstr.lean ====
section
/-! SUPPORT. For every instruction, decoding what encoding it gives. -/

-- One theorem at a time: the package compiles as one text, and a thread for each open proof asks for a stack of its own.
set_option Elab.async false

namespace Sys2Proof

/-! ## Fields of joined words -/

theorem ext_low {n m : Nat} (x : BitVec n) (y : BitVec m) (s k : Nat) (h : s + k ≤ m) :
    (x ++ y).extractLsb' s k = y.extractLsb' s k := by
  ext i hi
  rw [BitVec.getElem_extractLsb', BitVec.getElem_extractLsb', BitVec.getLsbD_append, if_pos (by omega)]

theorem ext_high {n m : Nat} (x : BitVec n) (y : BitVec m) (s k : Nat) (h : m ≤ s) :
    (x ++ y).extractLsb' s k = x.extractLsb' (s - m) k := by
  ext i hi
  rw [BitVec.getElem_extractLsb', BitVec.getElem_extractLsb', BitVec.getLsbD_append, if_neg (by omega),
    show s + i - m = s - m + i by omega]

theorem ext_all {n : Nat} (x : BitVec n) : x.extractLsb' 0 n = x := BitVec.extractLsb'_eq_self

theorem get_low {n m : Nat} (x : BitVec n) (y : BitVec m) (s : Nat) (h : s < m) : (x ++ y).getLsbD s = y.getLsbD s := by
  rw [BitVec.getLsbD_append, if_pos h]

theorem get_high {n m : Nat} (x : BitVec n) (y : BitVec m) (s : Nat) (h : m ≤ s) : (x ++ y).getLsbD s = x.getLsbD (s - m) := by
  rw [BitVec.getLsbD_append, if_neg (by omega)]

/-! ## Fields of the words (R51 to R54) -/

theorem vw_op (d : BitVec 2) (op : BitVec 7) (u : Bool) (vd va vb : BitVec 7) : BitVec.extractLsb' 22 7 (vw d op u vd va vb) = op := by
  unfold vw
  repeat (first | rw [ext_high _ _ _ _ (by decide)] | rw [ext_low _ _ _ _ (by decide)])
  exact ext_all _

theorem vw_d (d : BitVec 2) (op : BitVec 7) (u : Bool) (vd va vb : BitVec 7) : vD (vw d op u vd va vb) = d := by
  unfold vw vD
  repeat (first | rw [ext_high _ _ _ _ (by decide)] | rw [ext_low _ _ _ _ (by decide)])
  exact ext_all _

theorem vw_vd (d : BitVec 2) (op : BitVec 7) (u : Bool) (vd va vb : BitVec 7) : vVd (vw d op u vd va vb) = vd := by
  unfold vw vVd
  repeat (first | rw [ext_high _ _ _ _ (by decide)] | rw [ext_low _ _ _ _ (by decide)])
  exact ext_all _

theorem vw_va (d : BitVec 2) (op : BitVec 7) (u : Bool) (vd va vb : BitVec 7) : vVa (vw d op u vd va vb) = va := by
  unfold vw vVa
  repeat (first | rw [ext_high _ _ _ _ (by decide)] | rw [ext_low _ _ _ _ (by decide)])
  exact ext_all _

theorem vw_vb (d : BitVec 2) (op : BitVec 7) (u : Bool) (vd va vb : BitVec 7) : vVb (vw d op u vd va vb) = vb := by
  unfold vw vVb
  repeat (first | rw [ext_high _ _ _ _ (by decide)] | rw [ext_low _ _ _ _ (by decide)])
  exact ext_all _

theorem vw_u (d : BitVec 2) (op : BitVec 7) (u : Bool) (vd va vb : BitVec 7) : BitVec.getLsbD (vw d op u vd va vb) 21 = u := by
  unfold vw
  repeat (first | rw [get_high _ _ _ (by decide)] | rw [get_low _ _ _ (by decide)])
  cases u <;> rfl

theorem vw_cc (d : BitVec 2) (op : BitVec 7) (u : Bool) (cc : BitVec 4) (pd : BitVec 3) (va vb : BitVec 7) : BitVec.extractLsb' 17 4 (vw d op u (cc ++ pd) va vb) = cc := by
  unfold vw
  repeat (first | rw [ext_high _ _ _ _ (by decide)] | rw [ext_low _ _ _ _ (by decide)])
  exact ext_all _

theorem vw_pd (d : BitVec 2) (op : BitVec 7) (u : Bool) (cc : BitVec 4) (pd : BitVec 3) (va vb : BitVec 7) : BitVec.extractLsb' 14 3 (vw d op u (cc ++ pd) va vb) = pd := by
  unfold vw
  repeat (first | rw [ext_high _ _ _ _ (by decide)] | rw [ext_low _ _ _ _ (by decide)])
  exact ext_all _

theorem vw_op3 (d : BitVec 2) (op : BitVec 7) (u : Bool) (vd va vb : BitVec 7) : BitVec.extractLsb' 22 3 (vw d op u vd va vb) = BitVec.extractLsb' 0 3 op := by
  unfold vw
  repeat (first | rw [ext_high _ _ _ _ (by decide)] | rw [ext_low _ _ _ _ (by decide)])

theorem vw_op2 (d : BitVec 2) (op : BitVec 7) (u : Bool) (vd va vb : BitVec 7) : BitVec.extractLsb' 22 2 (vw d op u vd va vb) = BitVec.extractLsb' 0 2 op := by
  unfold vw
  repeat (first | rw [ext_high _ _ _ _ (by decide)] | rw [ext_low _ _ _ _ (by decide)])

theorem vw_op1 (d : BitVec 2) (op : BitVec 7) (u : Bool) (vd va vb : BitVec 7) : BitVec.extractLsb' 22 1 (vw d op u vd va vb) = BitVec.extractLsb' 0 1 op := by
  unfold vw
  repeat (first | rw [ext_high _ _ _ _ (by decide)] | rw [ext_low _ _ _ _ (by decide)])

theorem vw_vb4 (d : BitVec 2) (op : BitVec 7) (u : Bool) (vd va vb : BitVec 7) : BitVec.extractLsb' 0 4 (vw d op u vd va vb) = BitVec.extractLsb' 0 4 vb := by
  unfold vw
  repeat (first | rw [ext_high _ _ _ _ (by decide)] | rw [ext_low _ _ _ _ (by decide)])

theorem vw_vb43 (d : BitVec 2) (op : BitVec 7) (u : Bool) (vd va vb : BitVec 7) : BitVec.extractLsb' 4 3 (vw d op u vd va vb) = BitVec.extractLsb' 4 3 vb := by
  unfold vw
  repeat (first | rw [ext_high _ _ _ _ (by decide)] | rw [ext_low _ _ _ _ (by decide)])

theorem vw_vb3 (d : BitVec 2) (op : BitVec 7) (u : Bool) (vd va vb : BitVec 7) : BitVec.extractLsb' 0 3 (vw d op u vd va vb) = BitVec.extractLsb' 0 3 vb := by
  unfold vw
  repeat (first | rw [ext_high _ _ _ _ (by decide)] | rw [ext_low _ _ _ _ (by decide)])

theorem vw_vb6 (d : BitVec 2) (op : BitVec 7) (u : Bool) (vd va vb : BitVec 7) : BitVec.extractLsb' 0 6 (vw d op u vd va vb) = BitVec.extractLsb' 0 6 vb := by
  unfold vw
  repeat (first | rw [ext_high _ _ _ _ (by decide)] | rw [ext_low _ _ _ _ (by decide)])

theorem vw_va3 (d : BitVec 2) (op : BitVec 7) (u : Bool) (vd va vb : BitVec 7) : BitVec.extractLsb' 7 3 (vw d op u vd va vb) = BitVec.extractLsb' 0 3 va := by
  unfold vw
  repeat (first | rw [ext_high _ _ _ _ (by decide)] | rw [ext_low _ _ _ _ (by decide)])

theorem vw_vd3 (d : BitVec 2) (op : BitVec 7) (u : Bool) (vd va vb : BitVec 7) : BitVec.extractLsb' 14 3 (vw d op u vd va vb) = BitVec.extractLsb' 0 3 vd := by
  unfold vw
  repeat (first | rw [ext_high _ _ _ _ (by decide)] | rw [ext_low _ _ _ _ (by decide)])

theorem vw_VV (o : VV) (op : BitVec 7) : getVV (vw o.d op o.u o.vd o.va o.vb) = o := by
  unfold getVV; rw [vw_d, vw_vd, vw_va, vw_vb, vw_u]

theorem vw_VC (o : VC) (op : BitVec 7) : getVC (vw o.d op o.u (o.cc ++ o.pd) o.va o.vb) = o := by
  unfold getVC; rw [vw_d, vw_cc, vw_pd, vw_va, vw_vb, vw_u]

theorem vw_VU (o : VU) (op : BitVec 7) (u : Bool) (vb : BitVec 7) : getVU (vw o.d op u o.vd o.va vb) = o := by
  unfold getVU; rw [vw_d, vw_vd, vw_va]

theorem mx_ty (ty : BitVec 4) (od : BitVec 2) (s k : BitVec 4) (off : BitVec 18) : BitVec.extractLsb' 28 4 (mx ty od s k off) = ty := by
  unfold mx
  repeat (first | rw [ext_high _ _ _ _ (by decide)] | rw [ext_low _ _ _ _ (by decide)])
  exact ext_all _

theorem mx_od (ty : BitVec 4) (od : BitVec 2) (s k : BitVec 4) (off : BitVec 18) : BitVec.extractLsb' 26 2 (mx ty od s k off) = od := by
  unfold mx
  repeat (first | rw [ext_high _ _ _ _ (by decide)] | rw [ext_low _ _ _ _ (by decide)])
  exact ext_all _

theorem mx_sub (ty : BitVec 4) (od : BitVec 2) (s k : BitVec 4) (off : BitVec 18) : BitVec.extractLsb' 22 4 (mx ty od s k off) = s := by
  unfold mx
  repeat (first | rw [ext_high _ _ _ _ (by decide)] | rw [ext_low _ _ _ _ (by decide)])
  exact ext_all _

theorem mx_k (ty : BitVec 4) (od : BitVec 2) (s k : BitVec 4) (off : BitVec 18) : BitVec.extractLsb' 18 4 (mx ty od s k off) = k := by
  unfold mx
  repeat (first | rw [ext_high _ _ _ _ (by decide)] | rw [ext_low _ _ _ _ (by decide)])
  exact ext_all _

theorem mx_off (ty : BitVec 4) (od : BitVec 2) (s k : BitVec 4) (off : BitVec 18) : BitVec.extractLsb' 0 18 (mx ty od s k off) = off := by
  unfold mx
  repeat (first | rw [ext_high _ _ _ _ (by decide)] | rw [ext_low _ _ _ _ (by decide)])
  exact ext_all _

theorem fx_src (a b : BitVec 4) (rm : BitVec 3) (sat : Bool) (vc : BitVec 7) : BitVec.extractLsb' 28 4 (fx a b rm sat vc) = a := by
  unfold fx
  repeat (first | rw [ext_high _ _ _ _ (by decide)] | rw [ext_low _ _ _ _ (by decide)])
  exact ext_all _

theorem fx_dst (a b : BitVec 4) (rm : BitVec 3) (sat : Bool) (vc : BitVec 7) : BitVec.extractLsb' 24 4 (fx a b rm sat vc) = b := by
  unfold fx
  repeat (first | rw [ext_high _ _ _ _ (by decide)] | rw [ext_low _ _ _ _ (by decide)])
  exact ext_all _

theorem fx_rm (a b : BitVec 4) (rm : BitVec 3) (sat : Bool) (vc : BitVec 7) : BitVec.extractLsb' 21 3 (fx a b rm sat vc) = rm := by
  unfold fx
  repeat (first | rw [ext_high _ _ _ _ (by decide)] | rw [ext_low _ _ _ _ (by decide)])
  exact ext_all _

theorem fx_vc (a b : BitVec 4) (rm : BitVec 3) (sat : Bool) (vc : BitVec 7) : BitVec.extractLsb' 0 7 (fx a b rm sat vc) = vc := by
  unfold fx
  repeat (first | rw [ext_high _ _ _ _ (by decide)] | rw [ext_low _ _ _ _ (by decide)])
  exact ext_all _

theorem fx_sat (a b : BitVec 4) (rm : BitVec 3) (sat : Bool) (vc : BitVec 7) : BitVec.getLsbD (fx a b rm sat vc) 20 = sat := by
  unfold fx
  repeat (first | rw [get_high _ _ _ (by decide)] | rw [get_low _ _ _ (by decide)])
  cases sat <;> rfl

theorem gx_midx (ms : Bool) (mi : BitVec 6) (s t : BitVec 4) (ex : Bool) : BitVec.extractLsb' 25 6 (gxw ms mi s t ex) = mi := by
  unfold gxw
  repeat (first | rw [ext_high _ _ _ _ (by decide)] | rw [ext_low _ _ _ _ (by decide)])
  exact ext_all _

theorem gx_sub (ms : Bool) (mi : BitVec 6) (s t : BitVec 4) (ex : Bool) : BitVec.extractLsb' 21 4 (gxw ms mi s t ex) = s := by
  unfold gxw
  repeat (first | rw [ext_high _ _ _ _ (by decide)] | rw [ext_low _ _ _ _ (by decide)])
  exact ext_all _

theorem gx_ty (ms : Bool) (mi : BitVec 6) (s t : BitVec 4) (ex : Bool) : BitVec.extractLsb' 17 4 (gxw ms mi s t ex) = t := by
  unfold gxw
  repeat (first | rw [ext_high _ _ _ _ (by decide)] | rw [ext_low _ _ _ _ (by decide)])
  exact ext_all _

theorem gx_excl (ms : Bool) (mi : BitVec 6) (s t : BitVec 4) (ex : Bool) : BitVec.getLsbD (gxw ms mi s t ex) 16 = ex := by
  unfold gxw
  repeat (first | rw [get_high _ _ _ (by decide)] | rw [get_low _ _ _ (by decide)])
  cases ex <;> rfl

theorem gx_msrc (ms : Bool) (mi : BitVec 6) (s t : BitVec 4) (ex : Bool) : BitVec.getLsbD (gxw ms mi s t ex) 31 = ms := by
  unfold gxw
  repeat (first | rw [get_high _ _ _ (by decide)] | rw [get_low _ _ _ (by decide)])
  cases ms <;> rfl

theorem vw_MV (o : MV) (op : BitVec 7) (ty : BitVec 4) (od : BitVec 2) (s k : BitVec 4) :
    getMV (vw o.d op o.u o.vd o.va o.vb) (mx ty od s k o.off) = o := by
  unfold getMV; rw [vw_d, vw_vd, vw_va, vw_vb, vw_u, mx_off]

theorem vw_FV (o : FV) (op : BitVec 7) (a b : BitVec 4) (rm : BitVec 3) (sat : Bool) :
    getFV (vw o.d op o.u o.vd o.va o.vb) (fx a b rm sat o.vc) = o := by
  unfold getFV; rw [vw_d, vw_vd, vw_va, vw_vb, vw_u, fx_vc]

theorem vw_GV (o : GV) (op : BitVec 7) (s t : BitVec 4) (ex : Bool) :
    getGV (vw o.d op o.u o.vd o.va o.vb) (gxw o.msrc o.midx s t ex) = o := by
  unfold getGV; rw [vw_d, vw_vd, vw_va, vw_vb, vw_u, gx_midx, gx_msrc]

theorem vw_long (d : BitVec 2) (op : BitVec 7) (u : Bool) (vd va vb : BitVec 7) :
    isLong (vw d op u vd va vb) = (op.getLsbD 6 && op.getLsbD 5) := by
  have h1 : (vw d op u vd va vb).getLsbD 31 = false := by
    unfold vw
    repeat (first | rw [get_high _ _ _ (by decide)] | rw [get_low _ _ _ (by decide)])
    rfl
  have h2 : (vw d op u vd va vb).getLsbD 28 = op.getLsbD 6 := by
    unfold vw
    repeat (first | rw [get_high _ _ _ (by decide)] | rw [get_low _ _ _ (by decide)])
  have h3 : (vw d op u vd va vb).getLsbD 27 = op.getLsbD 5 := by
    unfold vw
    repeat (first | rw [get_high _ _ _ (by decide)] | rw [get_low _ _ _ (by decide)])
  unfold isLong
  rw [h1, h2, h3]; rfl

theorem vw_top (d : BitVec 2) (op : BitVec 7) (u : Bool) (vd va vb : BitVec 7) : (vw d op u vd va vb).getLsbD 31 = false := by
  unfold vw
  repeat (first | rw [get_high _ _ _ (by decide)] | rw [get_low _ _ _ (by decide)])
  rfl

theorem sw_major (m : BitVec 5) (d : BitVec 2) (b : BitVec 24) : BitVec.extractLsb' 26 5 (sw m d b) = m := by
  unfold sw
  repeat (first | rw [ext_high _ _ _ _ (by decide)] | rw [ext_low _ _ _ _ (by decide)])
  exact ext_all _

theorem sw_d (m : BitVec 5) (d : BitVec 2) (b : BitVec 24) : sD (sw m d b) = d := by
  unfold sw sD
  repeat (first | rw [ext_high _ _ _ _ (by decide)] | rw [ext_low _ _ _ _ (by decide)])
  exact ext_all _

theorem sw_body (m : BitVec 5) (d : BitVec 2) (b : BitVec 24) (s k : Nat) (h : s + k ≤ 24) :
    BitVec.extractLsb' s k (sw m d b) = BitVec.extractLsb' s k b := by
  unfold sw
  exact ext_low _ _ _ _ h

theorem sw_bit (m : BitVec 5) (d : BitVec 2) (b : BitVec 24) (s : Nat) (h : s < 24) : (sw m d b).getLsbD s = b.getLsbD s := by
  unfold sw
  exact get_low _ _ _ h

theorem sw_top (m : BitVec 5) (d : BitVec 2) (b : BitVec 24) : (sw m d b).getLsbD 31 = true := by
  unfold sw
  repeat (first | rw [get_high _ _ _ (by decide)] | rw [get_low _ _ _ (by decide)])
  rfl

theorem sw_x (m : BitVec 5) (d : BitVec 2) (x y z n : BitVec 6) : sX (sw m d (x ++ y ++ z ++ n)) = x := by
  unfold sw sX
  repeat (first | rw [ext_high _ _ _ _ (by decide)] | rw [ext_low _ _ _ _ (by decide)])
  exact ext_all _

theorem sx_x (m : BitVec 5) (d : BitVec 2) (x y z n : BitVec 6) : sX (sx m d x y z n) = x := sw_x m d x y z n

theorem sw_y (m : BitVec 5) (d : BitVec 2) (x y z n : BitVec 6) : sY (sw m d (x ++ y ++ z ++ n)) = y := by
  unfold sw sY
  repeat (first | rw [ext_high _ _ _ _ (by decide)] | rw [ext_low _ _ _ _ (by decide)])
  exact ext_all _

theorem sx_y (m : BitVec 5) (d : BitVec 2) (x y z n : BitVec 6) : sY (sx m d x y z n) = y := sw_y m d x y z n

theorem sw_z (m : BitVec 5) (d : BitVec 2) (x y z n : BitVec 6) : sZ (sw m d (x ++ y ++ z ++ n)) = z := by
  unfold sw sZ
  repeat (first | rw [ext_high _ _ _ _ (by decide)] | rw [ext_low _ _ _ _ (by decide)])
  exact ext_all _

theorem sx_z (m : BitVec 5) (d : BitVec 2) (x y z n : BitVec 6) : sZ (sx m d x y z n) = z := sw_z m d x y z n

theorem sw_minor (m : BitVec 5) (d : BitVec 2) (x y z n : BitVec 6) : sMinor (sw m d (x ++ y ++ z ++ n)) = n := by
  unfold sw sMinor
  repeat (first | rw [ext_high _ _ _ _ (by decide)] | rw [ext_low _ _ _ _ (by decide)])
  exact ext_all _

theorem sx_minor (m : BitVec 5) (d : BitVec 2) (x y z n : BitVec 6) : sMinor (sx m d x y z n) = n := sw_minor m d x y z n

theorem sx_major (m : BitVec 5) (d : BitVec 2) (x y z n : BitVec 6) : BitVec.extractLsb' 26 5 (sx m d x y z n) = m := sw_major _ _ _

theorem sx_d (m : BitVec 5) (d : BitVec 2) (x y z n : BitVec 6) : sD (sx m d x y z n) = d := sw_d _ _ _

theorem sx_18_4 (m : BitVec 5) (d : BitVec 2) (x y z n : BitVec 6) : BitVec.extractLsb' 18 4 (sx m d x y z n) = BitVec.extractLsb' 0 4 x := by
  unfold sx sw
  repeat (first | rw [ext_high _ _ _ _ (by decide)] | rw [ext_low _ _ _ _ (by decide)])

theorem sx_18_2 (m : BitVec 5) (d : BitVec 2) (x y z n : BitVec 6) : BitVec.extractLsb' 18 2 (sx m d x y z n) = BitVec.extractLsb' 0 2 x := by
  unfold sx sw
  repeat (first | rw [ext_high _ _ _ _ (by decide)] | rw [ext_low _ _ _ _ (by decide)])

theorem sx_18_5 (m : BitVec 5) (d : BitVec 2) (x y z n : BitVec 6) : BitVec.extractLsb' 18 5 (sx m d x y z n) = BitVec.extractLsb' 0 5 x := by
  unfold sx sw
  repeat (first | rw [ext_high _ _ _ _ (by decide)] | rw [ext_low _ _ _ _ (by decide)])

theorem sx_18_3 (m : BitVec 5) (d : BitVec 2) (x y z n : BitVec 6) : BitVec.extractLsb' 18 3 (sx m d x y z n) = BitVec.extractLsb' 0 3 x := by
  unfold sx sw
  repeat (first | rw [ext_high _ _ _ _ (by decide)] | rw [ext_low _ _ _ _ (by decide)])

theorem sx_12_4 (m : BitVec 5) (d : BitVec 2) (x y z n : BitVec 6) : BitVec.extractLsb' 12 4 (sx m d x y z n) = BitVec.extractLsb' 0 4 y := by
  unfold sx sw
  repeat (first | rw [ext_high _ _ _ _ (by decide)] | rw [ext_low _ _ _ _ (by decide)])

theorem sx_12_2 (m : BitVec 5) (d : BitVec 2) (x y z n : BitVec 6) : BitVec.extractLsb' 12 2 (sx m d x y z n) = BitVec.extractLsb' 0 2 y := by
  unfold sx sw
  repeat (first | rw [ext_high _ _ _ _ (by decide)] | rw [ext_low _ _ _ _ (by decide)])

theorem sx_12_5 (m : BitVec 5) (d : BitVec 2) (x y z n : BitVec 6) : BitVec.extractLsb' 12 5 (sx m d x y z n) = BitVec.extractLsb' 0 5 y := by
  unfold sx sw
  repeat (first | rw [ext_high _ _ _ _ (by decide)] | rw [ext_low _ _ _ _ (by decide)])

theorem sx_6_3 (m : BitVec 5) (d : BitVec 2) (x y z n : BitVec 6) : BitVec.extractLsb' 6 3 (sx m d x y z n) = BitVec.extractLsb' 0 3 z := by
  unfold sx sw
  repeat (first | rw [ext_high _ _ _ _ (by decide)] | rw [ext_low _ _ _ _ (by decide)])

theorem sw_mid (m : BitVec 5) (d : BitVec 2) (x y z n : BitVec 6) : BitVec.extractLsb' 4 2 (sw m d (x ++ y ++ z ++ n)) = BitVec.extractLsb' 4 2 n := by
  unfold sw
  repeat (first | rw [ext_high _ _ _ _ (by decide)] | rw [ext_low _ _ _ _ (by decide)])

theorem sx_code (m : BitVec 5) (d : BitVec 2) (x n : BitVec 6) (c : BitVec 12) :
    BitVec.extractLsb' 6 12 (sx m d x (c.extractLsb' 6 6) (c.extractLsb' 0 6) n) = c := by
  unfold sx
  rw [sw_body _ _ _ _ _ (by decide)]
  ext i hi
  rw [BitVec.getElem_extractLsb', get_high _ _ _ (by omega)]
  by_cases h : i < 6
  · rw [get_low _ _ _ (by omega), BitVec.getLsbD_extractLsb', show 6 + i - 6 = i by omega, ← BitVec.getLsbD_eq_getElem hi, Nat.zero_add]
    simp [h]
  · rw [get_high _ _ _ (by omega), get_low _ _ _ (by omega), BitVec.getLsbD_extractLsb', ← BitVec.getLsbD_eq_getElem hi,
      show 6 + (6 + i - 6 - 6) = i by omega]
    simp; omega

theorem sw_S3 (o : S3) (m : BitVec 5) (n : BitVec 6) : getS3 (sw m o.d (o.sd ++ o.sa ++ o.sb ++ n)) = o := by
  unfold getS3; rw [sw_d, sw_x, sw_y, sw_z]

theorem pad {n m : Nat} (x : BitVec n) (v : BitVec m) : BitVec.extractLsb' 0 m (x ++ v) = v := by
  rw [ext_low _ _ _ _ (by omega)]; exact ext_all v

theorem MTy.of_code (t : MTy) : MTy.ofCode t.code = some t := by cases t <;> rfl

theorem Rnd.of_code (t : Rnd) : Rnd.ofCode t.code = some t := by cases t <;> rfl

theorem AOp.of_code (t : AOp) : AOp.ofCode t.code = some t := by cases t <;> rfl

theorem VoteOp.of_code (t : VoteOp) : VoteOp.ofCode t.code = some t := by cases t <;> rfl

theorem ShflOp.of_code (t : ShflOp) : ShflOp.ofCode t.code = some t := by cases t <;> rfl

theorem RedOp.of_code (t : RedOp) : RedOp.ofCode t.code = some t := by cases t <;> rfl

theorem AccTy.of_code (t : AccTy) : AccTy.ofCode t.code = some t := by cases t <;> rfl

theorem FTy.of_code (t : FTy) : FTy.ofCode t.code = t := by cases t <;> rfl

theorem FW.of_code (t : FW) : FW.ofCode t.code = t := by cases t <;> rfl

theorem FH.of_code (t : FH) : FH.ofCode t.code = t := by cases t <;> rfl

theorem Ord.of_code (t : Ord) : Ord.ofCode t.code = t := by cases t <;> rfl

theorem Fmt.of_code (t : Fmt) : Fmt.ofCode t.code = t := by cases t <;> rfl

theorem SAOp.of_code (t : SAOp) : SAOp.ofCode t.code = t := by cases t <;> rfl

theorem FW.of_tyCode (t : FW) : FW.ofTyCode t.tyCode = some t := by cases t <;> rfl

theorem p_cases : ∀ p : BitVec 3, p = 0#3 ∨ p = 1#3 ∨ p = 2#3 ∨ p = 3#3 ∨ p = 4#3 ∨ p = 5#3 ∨ p = 6#3 ∨ p = 7#3 := by decide

/-- A header's word (R40). -/
def hw (w : BitVec 12) (a b : BitVec 4) (p : BitVec 3) (n : Bool) (c : BitVec 3) : Word :=
  31#5 ++ w ++ a ++ b ++ p ++ BitVec.ofBool n ++ c

theorem hw_w (w : BitVec 12) (a b : BitVec 4) (p : BitVec 3) (n : Bool) (c : BitVec 3) : BitVec.extractLsb' 15 12 (hw w a b p n c) = w := by
  unfold hw
  repeat (first | rw [ext_high _ _ _ _ (by decide)] | rw [ext_low _ _ _ _ (by decide)])
  exact ext_all _

theorem hw_a (w : BitVec 12) (a b : BitVec 4) (p : BitVec 3) (n : Bool) (c : BitVec 3) : BitVec.extractLsb' 11 4 (hw w a b p n c) = a := by
  unfold hw
  repeat (first | rw [ext_high _ _ _ _ (by decide)] | rw [ext_low _ _ _ _ (by decide)])
  exact ext_all _

theorem hw_b (w : BitVec 12) (a b : BitVec 4) (p : BitVec 3) (n : Bool) (c : BitVec 3) : BitVec.extractLsb' 7 4 (hw w a b p n c) = b := by
  unfold hw
  repeat (first | rw [ext_high _ _ _ _ (by decide)] | rw [ext_low _ _ _ _ (by decide)])
  exact ext_all _

theorem hw_p (w : BitVec 12) (a b : BitVec 4) (p : BitVec 3) (n : Bool) (c : BitVec 3) : BitVec.extractLsb' 4 3 (hw w a b p n c) = p := by
  unfold hw
  repeat (first | rw [ext_high _ _ _ _ (by decide)] | rw [ext_low _ _ _ _ (by decide)])
  exact ext_all _

theorem hw_c (w : BitVec 12) (a b : BitVec 4) (p : BitVec 3) (n : Bool) (c : BitVec 3) : BitVec.extractLsb' 0 3 (hw w a b p n c) = c := by
  unfold hw
  repeat (first | rw [ext_high _ _ _ _ (by decide)] | rw [ext_low _ _ _ _ (by decide)])
  exact ext_all _

theorem hw_n (w : BitVec 12) (a b : BitVec 4) (p : BitVec 3) (n : Bool) (c : BitVec 3) : BitVec.getLsbD (hw w a b p n c) 3 = n := by
  unfold hw
  repeat (first | rw [get_high _ _ _ (by decide)] | rw [get_low _ _ _ (by decide)])
  cases n <;> rfl

theorem hw_top (w : BitVec 12) (a b : BitVec 4) (p : BitVec 3) (n : Bool) (c : BitVec 3) : (hw w a b p n c).getLsbD 31 = true := by
  unfold hw
  repeat (first | rw [get_high _ _ _ (by decide)] | rw [get_low _ _ _ (by decide)])
  rfl

theorem hw_major (w : BitVec 12) (a b : BitVec 4) (p : BitVec 3) (n : Bool) (c : BitVec 3) : (hw w a b p n c).extractLsb' 26 5 = 30#5 ∨ (hw w a b p n c).extractLsb' 26 5 = 31#5 := by
  cases hb : w.getLsbD 11
  · left; ext i hi
    rw [BitVec.getElem_extractLsb']; unfold hw
    have : i = 0 ∨ i = 1 ∨ i = 2 ∨ i = 3 ∨ i = 4 := by omega
    rcases this with h | h | h | h | h <;> subst h <;>
      (repeat (first | rw [get_high _ _ _ (by decide)] | rw [get_low _ _ _ (by decide)])) <;> simp [← BitVec.getLsbD_eq_getElem, hb]
  · right; ext i hi
    rw [BitVec.getElem_extractLsb']; unfold hw
    have : i = 0 ∨ i = 1 ∨ i = 2 ∨ i = 3 ∨ i = 4 := by omega
    rcases this with h | h | h | h | h <;> subst h <;>
      (repeat (first | rw [get_high _ _ _ (by decide)] | rw [get_low _ _ _ (by decide)])) <;> simp [← BitVec.getLsbD_eq_getElem, hb]

/-! ## The instructions -/

namespace Laws

/-- The words of an instruction are one, or two when its opcode is that of a long form (R50), and the first, with the second or, of a
short form, with any word after it, decodes to it. -/
def RoundTrip.Statement (i : Instr) : Prop :=
  i.wf = true → ∀ w ws x, encode i = w :: ws → ws.length = (isLong w).toNat ∧ decode w (ws.headD x) = .ok i

theorem RoundTrip.of_raw {i : Instr} {w x : Word} (hi : i.wf = true) (hr : (if w.getLsbD 31 then rawS w else rawV w x) = some i)
    (he : encode i = (if isLong w then [w, x] else [w])) : decode w x = .ok i := by
  unfold decode
  rw [hr]
  dsimp only
  rw [hi, if_neg (by decide), if_pos he]

theorem RoundTrip.none {i : Instr} (he : encode i = []) : Statement i := by
  intro _ w ws x h
  rw [he] at h; cases h

theorem RoundTrip.short {i : Instr} {d op u vd va vb} (he : encode i = [vw d op u vd va vb]) (hl : (op.getLsbD 6 && op.getLsbD 5) = false)
    (hr : ∀ x, rawV (vw d op u vd va vb) x = some i) : Statement i := by
  intro hi w ws x h
  rw [he] at h; cases h
  rw [vw_long, hl]
  refine ⟨rfl, of_raw hi ?_ ?_⟩
  · rw [vw_top]; exact hr _
  · rw [vw_long, hl, he]; rfl

theorem RoundTrip.long {i : Instr} {d op u vd va vb y} (he : encode i = [vw d op u vd va vb, y]) (hl : (op.getLsbD 6 && op.getLsbD 5) = true)
    (hr : rawV (vw d op u vd va vb) y = some i) : Statement i := by
  intro hi w ws x h
  rw [he] at h; cases h
  rw [vw_long, hl]
  refine ⟨rfl, of_raw hi ?_ ?_⟩
  · rw [vw_top]; exact hr
  · rw [vw_long, hl, he]; rfl

theorem RoundTrip.uniform {i : Instr} {m d b} (he : encode i = [sw m d b]) (hr : rawS (sw m d b) = some i) : Statement i := by
  intro hi w ws x h
  have hl : isLong (sw m d b) = false := by unfold isLong; rw [sw_top]; rfl
  rw [he] at h; cases h
  rw [hl]
  refine ⟨rfl, of_raw hi ?_ ?_⟩
  · rw [sw_top]; exact hr
  · rw [hl, he]; rfl

theorem RoundTrip.fields {i : Instr} {m d x y z n} (he : encode i = [sx m d x y z n]) (hr : rawS (sx m d x y z n) = some i) : Statement i :=
  uniform (m := m) (d := d) (b := x ++ y ++ z ++ n) he hr

theorem RoundTrip.clause (w : BitVec 12) (a b : BitVec 4) (p : BitVec 3) (n : Bool) (c : BitVec 3) : Statement (.clause w a b p n c) := by
  intro hi v ws x h
  rw [show encode (.clause w a b p n c) = [hw w a b p n c] from rfl] at h
  cases h
  have hl : isLong (hw w a b p n c) = false := by unfold isLong; rw [hw_top]; rfl
  rw [hl]
  refine ⟨rfl, of_raw hi ?_ ?_⟩
  · rw [hw_top, if_pos rfl]
    have : ∀ v : Word, v.extractLsb' 26 5 = 30#5 ∨ v.extractLsb' 26 5 = 31#5 → rawS v = some (.clause (v.extractLsb' 15 12) (v.extractLsb' 11 4)
        (v.extractLsb' 7 4) (v.extractLsb' 4 3) (v.getLsbD 3) (v.extractLsb' 0 3)) := by
      intro v hv
      unfold rawS
      rcases hv with hv | hv <;> rw [hv] <;> rfl
    rw [this _ (hw_major w a b p n c), hw_w, hw_a, hw_b, hw_p, hw_n, hw_c]
  · rw [hl]; rfl

theorem RoundTrip.addB32 (o : VV) : Statement (.addB32 o) := short rfl rfl fun x => by unfold rawV; rw [vw_op, vw_VV]; rfl

theorem RoundTrip.subB32 (o : VV) : Statement (.subB32 o) := short rfl rfl fun x => by unfold rawV; rw [vw_op, vw_VV]; rfl

theorem RoundTrip.addB64 (o : VV) : Statement (.addB64 o) := short rfl rfl fun x => by unfold rawV; rw [vw_op, vw_VV]; rfl

theorem RoundTrip.subB64 (o : VV) : Statement (.subB64 o) := short rfl rfl fun x => by unfold rawV; rw [vw_op, vw_VV]; rfl

theorem RoundTrip.mulB32 (o : VV) : Statement (.mulB32 o) := short rfl rfl fun x => by unfold rawV; rw [vw_op, vw_VV]; rfl

theorem RoundTrip.mulhiI32 (o : VV) : Statement (.mulhiI32 o) := short rfl rfl fun x => by unfold rawV; rw [vw_op, vw_VV]; rfl

theorem RoundTrip.mulhiB32 (o : VV) : Statement (.mulhiB32 o) := short rfl rfl fun x => by unfold rawV; rw [vw_op, vw_VV]; rfl

theorem RoundTrip.madB32 (o : VV) : Statement (.madB32 o) := short rfl rfl fun x => by unfold rawV; rw [vw_op, vw_VV]; rfl

theorem RoundTrip.andB32 (o : VV) : Statement (.andB32 o) := short rfl rfl fun x => by unfold rawV; rw [vw_op, vw_VV]; rfl

theorem RoundTrip.orB32 (o : VV) : Statement (.orB32 o) := short rfl rfl fun x => by unfold rawV; rw [vw_op, vw_VV]; rfl

theorem RoundTrip.xorB32 (o : VV) : Statement (.xorB32 o) := short rfl rfl fun x => by unfold rawV; rw [vw_op, vw_VV]; rfl

theorem RoundTrip.andnB32 (o : VV) : Statement (.andnB32 o) := short rfl rfl fun x => by unfold rawV; rw [vw_op, vw_VV]; rfl

theorem RoundTrip.shlB32 (o : VV) : Statement (.shlB32 o) := short rfl rfl fun x => by unfold rawV; rw [vw_op, vw_VV]; rfl

theorem RoundTrip.shrB32 (o : VV) : Statement (.shrB32 o) := short rfl rfl fun x => by unfold rawV; rw [vw_op, vw_VV]; rfl

theorem RoundTrip.sraB32 (o : VV) : Statement (.sraB32 o) := short rfl rfl fun x => by unfold rawV; rw [vw_op, vw_VV]; rfl

theorem RoundTrip.shlB64 (o : VV) : Statement (.shlB64 o) := short rfl rfl fun x => by unfold rawV; rw [vw_op, vw_VV]; rfl

theorem RoundTrip.shrB64 (o : VV) : Statement (.shrB64 o) := short rfl rfl fun x => by unfold rawV; rw [vw_op, vw_VV]; rfl

theorem RoundTrip.sraB64 (o : VV) : Statement (.sraB64 o) := short rfl rfl fun x => by unfold rawV; rw [vw_op, vw_VV]; rfl

theorem RoundTrip.minI32 (o : VV) : Statement (.minI32 o) := short rfl rfl fun x => by unfold rawV; rw [vw_op, vw_VV]; rfl

theorem RoundTrip.minB32 (o : VV) : Statement (.minB32 o) := short rfl rfl fun x => by unfold rawV; rw [vw_op, vw_VV]; rfl

theorem RoundTrip.maxI32 (o : VV) : Statement (.maxI32 o) := short rfl rfl fun x => by unfold rawV; rw [vw_op, vw_VV]; rfl

theorem RoundTrip.maxB32 (o : VV) : Statement (.maxB32 o) := short rfl rfl fun x => by unfold rawV; rw [vw_op, vw_VV]; rfl

theorem RoundTrip.cmp32 (o : VC) : Statement (.cmp32 o) := short rfl rfl fun x => by unfold rawV; rw [vw_op, vw_VC]; rfl

theorem RoundTrip.cmp64 (o : VC) : Statement (.cmp64 o) := short rfl rfl fun x => by unfold rawV; rw [vw_op, vw_VC]; rfl

theorem RoundTrip.bfeB32 (o : VV) : Statement (.bfeB32 o) := short rfl rfl fun x => by unfold rawV; rw [vw_op, vw_VV]; rfl

theorem RoundTrip.bfeI32 (o : VV) : Statement (.bfeI32 o) := short rfl rfl fun x => by unfold rawV; rw [vw_op, vw_VV]; rfl

theorem RoundTrip.bfiB32 (o : VV) : Statement (.bfiB32 o) := short rfl rfl fun x => by unfold rawV; rw [vw_op, vw_VV]; rfl

theorem RoundTrip.mov (o : VU) : Statement (.mov o) := short rfl rfl fun x => by unfold rawV; rw [vw_op, vw_vb, vw_VU]; rfl

theorem RoundTrip.absI32 (o : VU) : Statement (.absI32 o) := short rfl rfl fun x => by unfold rawV; rw [vw_op, vw_vb, vw_VU]; rfl

theorem RoundTrip.popc (o : VU) : Statement (.popc o) := short rfl rfl fun x => by unfold rawV; rw [vw_op, vw_vb, vw_VU]; rfl

theorem RoundTrip.clz (o : VU) : Statement (.clz o) := short rfl rfl fun x => by unfold rawV; rw [vw_op, vw_vb, vw_VU]; rfl

theorem RoundTrip.brev (o : VU) : Statement (.brev o) := short rfl rfl fun x => by unfold rawV; rw [vw_op, vw_vb, vw_VU]; rfl

theorem RoundTrip.lid (d : BitVec 2) (vd : BitVec 7) : Statement (.lid d vd) := short rfl rfl fun x => by unfold rawV; rw [vw_op, vw_vb, vw_d, vw_vd]; rfl

theorem RoundTrip.li (d : BitVec 2) (vd : BitVec 7) (imm : BitVec 14) : Statement (.li d vd imm) := short rfl rfl fun x => by
  have h : BitVec.extractLsb' 0 14 (vw d 29#7 false vd (imm.extractLsb' 7 7) (imm.extractLsb' 0 7)) = imm := by
    unfold vw
    ext i hi
    rw [BitVec.getElem_extractLsb']
    by_cases h : i < 7
    · rw [get_low _ _ _ (by omega), BitVec.getLsbD_extractLsb', ← BitVec.getLsbD_eq_getElem hi, Nat.zero_add, Nat.zero_add]
      simp [h]
    · rw [get_high _ _ _ (by omega), get_low _ _ _ (by omega), BitVec.getLsbD_extractLsb', ← BitVec.getLsbD_eq_getElem hi,
        show 7 + (0 + i - 7) = i by omega]
      simp; omega
  unfold rawV; rw [vw_op, vw_d, vw_vd, h]; rfl

theorem RoundTrip.vmovr (o : VV) : Statement (.vmovr o) := short rfl rfl fun x => by unfold rawV; rw [vw_op, vw_VV]; rfl

theorem RoundTrip.vmovw (o : VV) : Statement (.vmovw o) := short rfl rfl fun x => by unfold rawV; rw [vw_op, vw_VV]; rfl

theorem RoundTrip.movs (d : BitVec 2) (vd : BitVec 7) (sn : BitVec 6) : Statement (.movs d vd sn) := short rfl rfl fun x => by unfold rawV; rw [vw_op, vw_d, vw_vd, vw_vb6, pad]; rfl

theorem RoundTrip.pand (d : BitVec 2) (pd : BitVec 3) (pa : BitVec 3) (pb : BitVec 3) : Statement (.pand d pd pa pb) := short rfl rfl fun x => by unfold rawV; rw [vw_op, vw_d, vw_vd3, vw_va3, vw_vb3, pad, pad, pad]; rfl

theorem RoundTrip.por (d : BitVec 2) (pd : BitVec 3) (pa : BitVec 3) (pb : BitVec 3) : Statement (.por d pd pa pb) := short rfl rfl fun x => by unfold rawV; rw [vw_op, vw_d, vw_vd3, vw_va3, vw_vb3, pad, pad, pad]; rfl

theorem RoundTrip.pxor (d : BitVec 2) (pd : BitVec 3) (pa : BitVec 3) (pb : BitVec 3) : Statement (.pxor d pd pa pb) := short rfl rfl fun x => by unfold rawV; rw [vw_op, vw_d, vw_vd3, vw_va3, vw_vb3, pad, pad, pad]; rfl

theorem RoundTrip.pnot (d : BitVec 2) (pd : BitVec 3) (pa : BitVec 3) : Statement (.pnot d pd pa) := short rfl rfl fun x => by unfold rawV; rw [vw_op, vw_d, vw_vd3, vw_va3, pad, pad]; rfl

theorem RoundTrip.sel (p : BitVec 3) (o : VV) : Statement (.sel p o) := by
  rcases p_cases p with h | h | h | h | h | h | h | h <;> subst h <;>
    exact short rfl rfl fun x => by unfold rawV; rw [vw_op, vw_op3, vw_VV]; rfl

theorem RoundTrip.fadd (t : FTy) (o : VV) : Statement (.fadd t o) := by
  cases t <;> exact short rfl rfl fun x => by unfold rawV; rw [vw_op, vw_op2, vw_VV]; rfl

theorem RoundTrip.fsub (t : FTy) (o : VV) : Statement (.fsub t o) := by
  cases t <;> exact short rfl rfl fun x => by unfold rawV; rw [vw_op, vw_op2, vw_VV]; rfl

theorem RoundTrip.fmul (t : FTy) (o : VV) : Statement (.fmul t o) := by
  cases t <;> exact short rfl rfl fun x => by unfold rawV; rw [vw_op, vw_op2, vw_VV]; rfl

theorem RoundTrip.fma (t : FTy) (o : VV) : Statement (.fma t o) := by
  cases t <;> exact short rfl rfl fun x => by unfold rawV; rw [vw_op, vw_op2, vw_VV]; rfl

theorem RoundTrip.fmin (t : FTy) (o : VV) : Statement (.fmin t o) := by
  cases t <;> exact short rfl rfl fun x => by unfold rawV; rw [vw_op, vw_op2, vw_VV]; rfl

theorem RoundTrip.fmax (t : FTy) (o : VV) : Statement (.fmax t o) := by
  cases t <;> exact short rfl rfl fun x => by unfold rawV; rw [vw_op, vw_op2, vw_VV]; rfl

theorem RoundTrip.fminm (t : FTy) (o : VV) : Statement (.fminm t o) := by
  cases t <;> exact short rfl rfl fun x => by unfold rawV; rw [vw_op, vw_op2, vw_VV]; rfl

theorem RoundTrip.fmaxm (t : FTy) (o : VV) : Statement (.fmaxm t o) := by
  cases t <;> exact short rfl rfl fun x => by unfold rawV; rw [vw_op, vw_op2, vw_VV]; rfl

theorem RoundTrip.fcmp (t : FTy) (o : VC) : Statement (.fcmp t o) := by
  cases t <;> exact short rfl rfl fun x => by unfold rawV; rw [vw_op, vw_op2, vw_VC]; rfl

theorem RoundTrip.frcp (t : FTy) (o : VU) : Statement (.frcp t o) := by
  cases t <;> exact short rfl rfl fun x => by unfold rawV; rw [vw_op, vw_op2, vw_vb4, vw_VU]; rfl

theorem RoundTrip.frsq (t : FTy) (o : VU) : Statement (.frsq t o) := by
  cases t <;> exact short rfl rfl fun x => by unfold rawV; rw [vw_op, vw_op2, vw_vb4, vw_VU]; rfl

theorem RoundTrip.fsqrt (t : FTy) (o : VU) : Statement (.fsqrt t o) := by
  cases t <;> exact short rfl rfl fun x => by unfold rawV; rw [vw_op, vw_op2, vw_vb4, vw_VU]; rfl

theorem RoundTrip.fclass (t : FTy) (o : VU) : Statement (.fclass t o) := by
  cases t <;> exact short rfl rfl fun x => by unfold rawV; rw [vw_op, vw_op2, vw_vb4, vw_VU]; rfl

theorem RoundTrip.frnd (t : FTy) (r : Rnd) (o : VU) : Statement (.frnd t r o) := by
  cases t <;> cases r <;> exact short rfl rfl fun x => by unfold rawV; rw [vw_op, vw_op2, vw_vb4, vw_vb43, vw_VU]; rfl

theorem RoundTrip.fdiv (t : FW) (o : VV) : Statement (.fdiv t o) := by
  cases t <;> exact short rfl rfl fun x => by unfold rawV; rw [vw_op, vw_op1, vw_VV]; rfl

theorem RoundTrip.fscale (t : FW) (o : VV) : Statement (.fscale t o) := by
  cases t <;> exact short rfl rfl fun x => by unfold rawV; rw [vw_op, vw_op1, vw_VV]; rfl

theorem RoundTrip.fdot2 (t : FH) (o : VV) : Statement (.fdot2 t o) := by
  cases t <;> exact short rfl rfl fun x => by unfold rawV; rw [vw_op, vw_op1, vw_VV]; rfl

theorem RoundTrip.ftab (tid : BitVec 4) (o : VU) : Statement (.ftab tid o) := short rfl rfl fun x => by unfold rawV; rw [vw_op, vw_vb4, pad, vw_VU]; rfl

theorem RoundTrip.ld (ty : MTy) (od : Ord) (o : MV) : Statement (.ld ty od o) := long rfl rfl (by unfold rawV; rw [vw_op, mx_ty, MTy.of_code, mx_od, Ord.of_code, vw_MV]; rfl)

theorem RoundTrip.st (ty : MTy) (od : Ord) (o : MV) : Statement (.st ty od o) := long rfl rfl (by unfold rawV; rw [vw_op, mx_ty, MTy.of_code, mx_od, Ord.of_code, vw_MV]; rfl)

theorem RoundTrip.ldk (ty : MTy) (od : Ord) (k : BitVec 4) (o : MV) : Statement (.ldk ty od k o) := long rfl rfl (by unfold rawV; rw [vw_op, mx_ty, MTy.of_code, mx_od, Ord.of_code, mx_k, vw_MV]; rfl)

theorem RoundTrip.stk (ty : MTy) (od : Ord) (k : BitVec 4) (o : MV) : Statement (.stk ty od k o) := long rfl rfl (by unfold rawV; rw [vw_op, mx_ty, MTy.of_code, mx_od, Ord.of_code, mx_k, vw_MV]; rfl)

theorem RoundTrip.lds (ty : MTy) (o : MV) : Statement (.lds ty o) := long rfl rfl (by unfold rawV; rw [vw_op, mx_ty, MTy.of_code, vw_MV]; rfl)

theorem RoundTrip.sts (ty : MTy) (o : MV) : Statement (.sts ty o) := long rfl rfl (by unfold rawV; rw [vw_op, mx_ty, MTy.of_code, vw_MV]; rfl)

theorem RoundTrip.pf (o : MV) : Statement (.pf o) := long rfl rfl (by unfold rawV; rw [vw_op, vw_MV]; rfl)

theorem RoundTrip.atom (op : AOp) (ty : MTy) (od : Ord) (o : MV) : Statement (.atom op ty od o) := long rfl rfl (by unfold rawV; rw [vw_op, mx_sub, AOp.of_code, mx_ty, MTy.of_code, mx_od, Ord.of_code, vw_MV]; rfl)

theorem RoundTrip.atomc (ty : MTy) (od : Ord) (o : MV) : Statement (.atomc ty od o) := long rfl rfl (by unfold rawV; rw [vw_op, mx_ty, MTy.of_code, mx_od, Ord.of_code, vw_MV]; rfl)

theorem RoundTrip.pwaddr (t : FW) (o : MV) : Statement (.pwaddr t o) := long rfl rfl (by unfold rawV; rw [vw_op, mx_ty, FW.of_tyCode, vw_MV]; rfl)

theorem RoundTrip.pwclaim (o : MV) : Statement (.pwclaim o) := long rfl rfl (by unfold rawV; rw [vw_op, vw_MV]; rfl)

theorem RoundTrip.pwflush (o : MV) : Statement (.pwflush o) := long rfl rfl (by unfold rawV; rw [vw_op, vw_MV]; rfl)

theorem RoundTrip.pwnorm (o : MV) : Statement (.pwnorm o) := long rfl rfl (by unfold rawV; rw [vw_op, vw_MV]; rfl)

theorem RoundTrip.pwraw (o : MV) : Statement (.pwraw o) := long rfl rfl (by unfold rawV; rw [vw_op, vw_MV]; rfl)

theorem RoundTrip.pwdrop (o : MV) : Statement (.pwdrop o) := long rfl rfl (by unfold rawV; rw [vw_op, vw_MV]; rfl)

theorem RoundTrip.cvt (src : Fmt) (dst : Fmt) (rm : Rnd) (sat : Bool) (o : FV) : Statement (.cvt src dst rm sat o) := long rfl rfl (by unfold rawV; rw [vw_op, fx_rm, Rnd.of_code, fx_src, fx_dst, fx_sat, vw_FV]; rw [Fmt.of_code, Fmt.of_code] <;> rfl)

theorem RoundTrip.pk (src : Fmt) (dst : Fmt) (rm : Rnd) (sat : Bool) (o : FV) : Statement (.pk src dst rm sat o) := long rfl rfl (by unfold rawV; rw [vw_op, fx_rm, Rnd.of_code, fx_src, fx_dst, fx_sat, vw_FV]; rw [Fmt.of_code, Fmt.of_code] <;> rfl)

theorem RoundTrip.upk (src : Fmt) (dst : Fmt) (rm : Rnd) (sat : Bool) (o : FV) : Statement (.upk src dst rm sat o) := long rfl rfl (by unfold rawV; rw [vw_op, fx_rm, Rnd.of_code, fx_src, fx_dst, fx_sat, vw_FV]; rw [Fmt.of_code, Fmt.of_code] <;> rfl)

theorem RoundTrip.qz (src : Fmt) (dst : Fmt) (rm : Rnd) (sat : Bool) (o : FV) : Statement (.qz src dst rm sat o) := long rfl rfl (by unfold rawV; rw [vw_op, fx_rm, Rnd.of_code, fx_src, fx_dst, fx_sat, vw_FV]; rw [Fmt.of_code, Fmt.of_code] <;> rfl)

theorem RoundTrip.dq (src : Fmt) (dst : Fmt) (rm : Rnd) (sat : Bool) (o : FV) : Statement (.dq src dst rm sat o) := long rfl rfl (by unfold rawV; rw [vw_op, fx_rm, Rnd.of_code, fx_src, fx_dst, fx_sat, vw_FV]; rw [Fmt.of_code, Fmt.of_code] <;> rfl)

theorem RoundTrip.mxq (src : Fmt) (dst : Fmt) (rm : Rnd) (sat : Bool) (o : FV) : Statement (.mxq src dst rm sat o) := long rfl rfl (by unfold rawV; rw [vw_op, fx_rm, Rnd.of_code, fx_src, fx_dst, fx_sat, vw_FV]; rw [Fmt.of_code, Fmt.of_code] <;> rfl)

theorem RoundTrip.mxdq (src : Fmt) (dst : Fmt) (rm : Rnd) (sat : Bool) (o : FV) : Statement (.mxdq src dst rm sat o) := long rfl rfl (by unfold rawV; rw [vw_op, fx_rm, Rnd.of_code, fx_src, fx_dst, fx_sat, vw_FV]; rw [Fmt.of_code, Fmt.of_code] <;> rfl)

theorem RoundTrip.vote (op : VoteOp) (o : GV) : Statement (.vote op o) := long rfl rfl (by unfold rawV; rw [vw_op, gx_sub, VoteOp.of_code, vw_GV]; rfl)

theorem RoundTrip.shfl (op : ShflOp) (ty : MTy) (o : GV) : Statement (.shfl op ty o) := long rfl rfl (by unfold rawV; rw [vw_op, gx_sub, ShflOp.of_code, gx_ty, MTy.of_code, vw_GV]; rfl)

theorem RoundTrip.red (op : RedOp) (ty : MTy) (o : GV) : Statement (.red op ty o) := long rfl rfl (by unfold rawV; rw [vw_op, gx_sub, RedOp.of_code, gx_ty, MTy.of_code, vw_GV]; rfl)

theorem RoundTrip.scan (op : RedOp) (ty : MTy) (excl : Bool) (o : GV) : Statement (.scan op ty excl o) := long rfl rfl (by unfold rawV; rw [vw_op, gx_sub, RedOp.of_code, gx_ty, MTy.of_code, gx_excl, vw_GV]; rfl)

theorem RoundTrip.bcast (ty : MTy) (o : GV) : Statement (.bcast ty o) := long rfl rfl (by unfold rawV; rw [vw_op, gx_ty, MTy.of_code, vw_GV]; rfl)

theorem RoundTrip.sadd (o : S3) : Statement (.sadd o) := uniform rfl (by unfold rawS; rw [sw_major, sw_mid, sw_minor, sw_S3]; rfl)

theorem RoundTrip.ssub (o : S3) : Statement (.ssub o) := uniform rfl (by unfold rawS; rw [sw_major, sw_mid, sw_minor, sw_S3]; rfl)

theorem RoundTrip.smul (o : S3) : Statement (.smul o) := uniform rfl (by unfold rawS; rw [sw_major, sw_mid, sw_minor, sw_S3]; rfl)

theorem RoundTrip.smulhiI32 (o : S3) : Statement (.smulhiI32 o) := uniform rfl (by unfold rawS; rw [sw_major, sw_mid, sw_minor, sw_S3]; rfl)

theorem RoundTrip.smulhiB32 (o : S3) : Statement (.smulhiB32 o) := uniform rfl (by unfold rawS; rw [sw_major, sw_mid, sw_minor, sw_S3]; rfl)

theorem RoundTrip.sand (o : S3) : Statement (.sand o) := uniform rfl (by unfold rawS; rw [sw_major, sw_mid, sw_minor, sw_S3]; rfl)

theorem RoundTrip.sor (o : S3) : Statement (.sor o) := uniform rfl (by unfold rawS; rw [sw_major, sw_mid, sw_minor, sw_S3]; rfl)

theorem RoundTrip.sxor (o : S3) : Statement (.sxor o) := uniform rfl (by unfold rawS; rw [sw_major, sw_mid, sw_minor, sw_S3]; rfl)

theorem RoundTrip.sshl (o : S3) : Statement (.sshl o) := uniform rfl (by unfold rawS; rw [sw_major, sw_mid, sw_minor, sw_S3]; rfl)

theorem RoundTrip.sshr (o : S3) : Statement (.sshr o) := uniform rfl (by unfold rawS; rw [sw_major, sw_mid, sw_minor, sw_S3]; rfl)

theorem RoundTrip.ssra (o : S3) : Statement (.ssra o) := uniform rfl (by unfold rawS; rw [sw_major, sw_mid, sw_minor, sw_S3]; rfl)

theorem RoundTrip.sminI32 (o : S3) : Statement (.sminI32 o) := uniform rfl (by unfold rawS; rw [sw_major, sw_mid, sw_minor, sw_S3]; rfl)

theorem RoundTrip.sminB32 (o : S3) : Statement (.sminB32 o) := uniform rfl (by unfold rawS; rw [sw_major, sw_mid, sw_minor, sw_S3]; rfl)

theorem RoundTrip.smaxI32 (o : S3) : Statement (.smaxI32 o) := uniform rfl (by unfold rawS; rw [sw_major, sw_mid, sw_minor, sw_S3]; rfl)

theorem RoundTrip.smaxB32 (o : S3) : Statement (.smaxB32 o) := uniform rfl (by unfold rawS; rw [sw_major, sw_mid, sw_minor, sw_S3]; rfl)

theorem RoundTrip.smov (d : BitVec 2) (sd : BitVec 6) (sa : BitVec 6) : Statement (.smov d sd sa) := uniform rfl (by unfold rawS; rw [sw_major, sw_mid, sw_minor, sw_d, sw_x, sw_y]; rfl)

theorem RoundTrip.spopc (d : BitVec 2) (sd : BitVec 6) (sa : BitVec 6) : Statement (.spopc d sd sa) := uniform rfl (by unfold rawS; rw [sw_major, sw_mid, sw_minor, sw_d, sw_x, sw_y]; rfl)

theorem RoundTrip.sclz (d : BitVec 2) (sd : BitVec 6) (sa : BitVec 6) : Statement (.sclz d sd sa) := uniform rfl (by unfold rawS; rw [sw_major, sw_mid, sw_minor, sw_d, sw_x, sw_y]; rfl)

theorem RoundTrip.saddB64 (o : S3) : Statement (.saddB64 o) := uniform rfl (by unfold rawS; rw [sw_major, sw_mid, sw_minor, sw_S3]; rfl)

theorem RoundTrip.ssubB64 (o : S3) : Statement (.ssubB64 o) := uniform rfl (by unfold rawS; rw [sw_major, sw_mid, sw_minor, sw_S3]; rfl)

theorem RoundTrip.ssel (o : S3) : Statement (.ssel o) := uniform rfl (by unfold rawS; rw [sw_major, sw_mid, sw_minor, sw_S3]; rfl)

theorem RoundTrip.scmp (cc : BitVec 4) (o : S3) : Statement (.scmp cc o) := uniform rfl (by
  unfold rawS
  rw [sw_major,
    show BitVec.extractLsb' 4 2 (sw 0#5 o.d (o.sd ++ o.sa ++ o.sb ++ 2#2 ++ cc)) = 2#2 from by rw [sw_body _ _ _ _ _ (by decide)]; (repeat (first | rw [ext_high _ _ _ _ (by decide)] | rw [ext_low _ _ _ _ (by decide)])); exact ext_all _,
    show BitVec.extractLsb' 0 4 (sw 0#5 o.d (o.sd ++ o.sa ++ o.sb ++ 2#2 ++ cc)) = cc from by rw [sw_body _ _ _ _ _ (by decide)]; (repeat (first | rw [ext_high _ _ _ _ (by decide)] | rw [ext_low _ _ _ _ (by decide)])); exact ext_all _,
    show getS3 (sw 0#5 o.d (o.sd ++ o.sa ++ o.sb ++ 2#2 ++ cc)) = o from by
      unfold getS3; rw [sw_d, show sX (sw 0#5 o.d (o.sd ++ o.sa ++ o.sb ++ 2#2 ++ cc)) = o.sd from by unfold sX; rw [sw_body _ _ _ _ _ (by decide)]; (repeat (first | rw [ext_high _ _ _ _ (by decide)] | rw [ext_low _ _ _ _ (by decide)])); exact ext_all _, show sY (sw 0#5 o.d (o.sd ++ o.sa ++ o.sb ++ 2#2 ++ cc)) = o.sa from by unfold sY; rw [sw_body _ _ _ _ _ (by decide)]; (repeat (first | rw [ext_high _ _ _ _ (by decide)] | rw [ext_low _ _ _ _ (by decide)])); exact ext_all _, show sZ (sw 0#5 o.d (o.sd ++ o.sa ++ o.sb ++ 2#2 ++ cc)) = o.sb from by unfold sZ; rw [sw_body _ _ _ _ _ (by decide)]; (repeat (first | rw [ext_high _ _ _ _ (by decide)] | rw [ext_low _ _ _ _ (by decide)])); exact ext_all _]]
  rfl)

theorem RoundTrip.sli (d : BitVec 2) (sd : BitVec 6) (imm : BitVec 18) : Statement (.sli d sd imm) := uniform rfl (by
  unfold rawS
  rw [sw_major,
    sw_d,
    show sX (sw 1#5 d (sd ++ imm)) = sd from by unfold sX; rw [sw_body _ _ _ _ _ (by decide)]; (repeat (first | rw [ext_high _ _ _ _ (by decide)] | rw [ext_low _ _ _ _ (by decide)])); exact ext_all _,
    show BitVec.extractLsb' 0 18 (sw 1#5 d (sd ++ imm)) = imm from by rw [sw_body _ _ _ _ _ (by decide)]; (repeat (first | rw [ext_high _ _ _ _ (by decide)] | rw [ext_low _ _ _ _ (by decide)])); exact ext_all _]
  rfl)

theorem RoundTrip.slih (d : BitVec 2) (sd : BitVec 6) (imm : BitVec 16) : Statement (.slih d sd imm) := uniform rfl (by
  unfold rawS
  rw [sw_major,
    sw_d,
    show sX (sw 2#5 d (sd ++ 0#2 ++ imm)) = sd from by unfold sX; rw [sw_body _ _ _ _ _ (by decide)]; (repeat (first | rw [ext_high _ _ _ _ (by decide)] | rw [ext_low _ _ _ _ (by decide)])); exact ext_all _,
    show BitVec.extractLsb' 0 16 (sw 2#5 d (sd ++ 0#2 ++ imm)) = imm from by rw [sw_body _ _ _ _ _ (by decide)]; (repeat (first | rw [ext_high _ _ _ _ (by decide)] | rw [ext_low _ _ _ _ (by decide)])); exact ext_all _]
  rfl)

theorem RoundTrip.sbfe (d : BitVec 2) (sd : BitVec 6) (sa : BitVec 6) (pos : BitVec 5) (wid : BitVec 5) (sg : Bool) : Statement (.sbfe d sd sa pos wid sg) := uniform rfl (by
  unfold rawS
  rw [sw_major,
    show BitVec.getLsbD (sw 3#5 d (sd ++ sa ++ pos ++ wid ++ BitVec.ofBool sg ++ 0#1)) 0 = false from by rw [sw_bit _ _ _ _ (by decide)]; (repeat (first | rw [get_high _ _ _ (by decide)] | rw [get_low _ _ _ (by decide)])); first | rfl | (cases false <;> rfl),
    sw_d,
    show sX (sw 3#5 d (sd ++ sa ++ pos ++ wid ++ BitVec.ofBool sg ++ 0#1)) = sd from by unfold sX; rw [sw_body _ _ _ _ _ (by decide)]; (repeat (first | rw [ext_high _ _ _ _ (by decide)] | rw [ext_low _ _ _ _ (by decide)])); exact ext_all _,
    show sY (sw 3#5 d (sd ++ sa ++ pos ++ wid ++ BitVec.ofBool sg ++ 0#1)) = sa from by unfold sY; rw [sw_body _ _ _ _ _ (by decide)]; (repeat (first | rw [ext_high _ _ _ _ (by decide)] | rw [ext_low _ _ _ _ (by decide)])); exact ext_all _,
    show BitVec.extractLsb' 7 5 (sw 3#5 d (sd ++ sa ++ pos ++ wid ++ BitVec.ofBool sg ++ 0#1)) = pos from by rw [sw_body _ _ _ _ _ (by decide)]; (repeat (first | rw [ext_high _ _ _ _ (by decide)] | rw [ext_low _ _ _ _ (by decide)])); exact ext_all _,
    show BitVec.extractLsb' 2 5 (sw 3#5 d (sd ++ sa ++ pos ++ wid ++ BitVec.ofBool sg ++ 0#1)) = wid from by rw [sw_body _ _ _ _ _ (by decide)]; (repeat (first | rw [ext_high _ _ _ _ (by decide)] | rw [ext_low _ _ _ _ (by decide)])); exact ext_all _,
    show BitVec.getLsbD (sw 3#5 d (sd ++ sa ++ pos ++ wid ++ BitVec.ofBool sg ++ 0#1)) 1 = sg from by rw [sw_bit _ _ _ _ (by decide)]; (repeat (first | rw [get_high _ _ _ (by decide)] | rw [get_low _ _ _ (by decide)])); first | rfl | (cases sg <;> rfl)]
  rfl)

theorem RoundTrip.sbfi (d : BitVec 2) (sd : BitVec 6) (sa : BitVec 6) (pos : BitVec 5) (wid : BitVec 5) : Statement (.sbfi d sd sa pos wid) := uniform rfl (by
  unfold rawS
  rw [sw_major,
    show BitVec.getLsbD (sw 3#5 d (sd ++ sa ++ pos ++ wid ++ 1#2)) 0 = true from by rw [sw_bit _ _ _ _ (by decide)]; (repeat (first | rw [get_high _ _ _ (by decide)] | rw [get_low _ _ _ (by decide)])); first | rfl | (cases true <;> rfl),
    sw_d,
    show sX (sw 3#5 d (sd ++ sa ++ pos ++ wid ++ 1#2)) = sd from by unfold sX; rw [sw_body _ _ _ _ _ (by decide)]; (repeat (first | rw [ext_high _ _ _ _ (by decide)] | rw [ext_low _ _ _ _ (by decide)])); exact ext_all _,
    show sY (sw 3#5 d (sd ++ sa ++ pos ++ wid ++ 1#2)) = sa from by unfold sY; rw [sw_body _ _ _ _ _ (by decide)]; (repeat (first | rw [ext_high _ _ _ _ (by decide)] | rw [ext_low _ _ _ _ (by decide)])); exact ext_all _,
    show BitVec.extractLsb' 7 5 (sw 3#5 d (sd ++ sa ++ pos ++ wid ++ 1#2)) = pos from by rw [sw_body _ _ _ _ _ (by decide)]; (repeat (first | rw [ext_high _ _ _ _ (by decide)] | rw [ext_low _ _ _ _ (by decide)])); exact ext_all _,
    show BitVec.extractLsb' 2 5 (sw 3#5 d (sd ++ sa ++ pos ++ wid ++ 1#2)) = wid from by rw [sw_body _ _ _ _ _ (by decide)]; (repeat (first | rw [ext_high _ _ _ _ (by decide)] | rw [ext_low _ _ _ _ (by decide)])); exact ext_all _]
  rfl)

theorem RoundTrip.saddImm (d : BitVec 2) (sd : BitVec 6) (sa : BitVec 6) (imm : BitVec 12) : Statement (.saddImm d sd sa imm) := uniform rfl (by
  unfold rawS
  rw [sw_major,
    sw_d,
    show sX (sw 4#5 d (sd ++ sa ++ imm)) = sd from by unfold sX; rw [sw_body _ _ _ _ _ (by decide)]; (repeat (first | rw [ext_high _ _ _ _ (by decide)] | rw [ext_low _ _ _ _ (by decide)])); exact ext_all _,
    show sY (sw 4#5 d (sd ++ sa ++ imm)) = sa from by unfold sY; rw [sw_body _ _ _ _ _ (by decide)]; (repeat (first | rw [ext_high _ _ _ _ (by decide)] | rw [ext_low _ _ _ _ (by decide)])); exact ext_all _,
    show BitVec.extractLsb' 0 12 (sw 4#5 d (sd ++ sa ++ imm)) = imm from by rw [sw_body _ _ _ _ _ (by decide)]; (repeat (first | rw [ext_high _ _ _ _ (by decide)] | rw [ext_low _ _ _ _ (by decide)])); exact ext_all _]
  rfl)

theorem RoundTrip.bra (d : BitVec 2) (off : BitVec 18) : Statement (.bra d off) := uniform rfl (by
  unfold rawS
  rw [sw_major,
    sw_d,
    show BitVec.extractLsb' 0 18 (sw 5#5 d (0#6 ++ off)) = off from by rw [sw_body _ _ _ _ _ (by decide)]; (repeat (first | rw [ext_high _ _ _ _ (by decide)] | rw [ext_low _ _ _ _ (by decide)])); exact ext_all _]
  rfl)

theorem RoundTrip.brz (d : BitVec 2) (sn : BitVec 6) (off : BitVec 18) : Statement (.brz d sn off) := uniform rfl (by
  unfold rawS
  rw [sw_major,
    sw_d,
    show sX (sw 6#5 d (sn ++ off)) = sn from by unfold sX; rw [sw_body _ _ _ _ _ (by decide)]; (repeat (first | rw [ext_high _ _ _ _ (by decide)] | rw [ext_low _ _ _ _ (by decide)])); exact ext_all _,
    show BitVec.extractLsb' 0 18 (sw 6#5 d (sn ++ off)) = off from by rw [sw_body _ _ _ _ _ (by decide)]; (repeat (first | rw [ext_high _ _ _ _ (by decide)] | rw [ext_low _ _ _ _ (by decide)])); exact ext_all _]
  rfl)

theorem RoundTrip.brnz (d : BitVec 2) (sn : BitVec 6) (off : BitVec 18) : Statement (.brnz d sn off) := uniform rfl (by
  unfold rawS
  rw [sw_major,
    sw_d,
    show sX (sw 7#5 d (sn ++ off)) = sn from by unfold sX; rw [sw_body _ _ _ _ _ (by decide)]; (repeat (first | rw [ext_high _ _ _ _ (by decide)] | rw [ext_low _ _ _ _ (by decide)])); exact ext_all _,
    show BitVec.extractLsb' 0 18 (sw 7#5 d (sn ++ off)) = off from by rw [sw_body _ _ _ _ _ (by decide)]; (repeat (first | rw [ext_high _ _ _ _ (by decide)] | rw [ext_low _ _ _ _ (by decide)])); exact ext_all _]
  rfl)

theorem RoundTrip.call (d : BitVec 2) (off : BitVec 18) : Statement (.call d off) := uniform rfl (by
  unfold rawS
  rw [sw_major,
    sw_d,
    show BitVec.extractLsb' 0 18 (sw 8#5 d (0#6 ++ off)) = off from by rw [sw_body _ _ _ _ _ (by decide)]; (repeat (first | rw [ext_high _ _ _ _ (by decide)] | rw [ext_low _ _ _ _ (by decide)])); exact ext_all _]
  rfl)

theorem RoundTrip.callv (d : BitVec 2) (v : BitVec 7) : Statement (.callv d v) := uniform rfl (by
  unfold rawS
  rw [sw_major,
    sw_d,
    show BitVec.extractLsb' 17 7 (sw 9#5 d (v ++ 0#17)) = v from by rw [sw_body _ _ _ _ _ (by decide)]; (repeat (first | rw [ext_high _ _ _ _ (by decide)] | rw [ext_low _ _ _ _ (by decide)])); exact ext_all _]
  rfl)

theorem RoundTrip.split (d : BitVec 2) (j : BitVec 4) (p : BitVec 3) (off : BitVec 17) : Statement (.split d j p off) := uniform rfl (by
  unfold rawS
  rw [sw_major,
    sw_d,
    show BitVec.extractLsb' 20 4 (sw 10#5 d (j ++ p ++ off)) = j from by rw [sw_body _ _ _ _ _ (by decide)]; (repeat (first | rw [ext_high _ _ _ _ (by decide)] | rw [ext_low _ _ _ _ (by decide)])); exact ext_all _,
    show BitVec.extractLsb' 17 3 (sw 10#5 d (j ++ p ++ off)) = p from by rw [sw_body _ _ _ _ _ (by decide)]; (repeat (first | rw [ext_high _ _ _ _ (by decide)] | rw [ext_low _ _ _ _ (by decide)])); exact ext_all _,
    show BitVec.extractLsb' 0 17 (sw 10#5 d (j ++ p ++ off)) = off from by rw [sw_body _ _ _ _ _ (by decide)]; (repeat (first | rw [ext_high _ _ _ _ (by decide)] | rw [ext_low _ _ _ _ (by decide)])); exact ext_all _]
  rfl)

theorem RoundTrip.nop (d : BitVec 2) : Statement (.nop d) := fields rfl (by
  unfold rawS; rw [sx_major, sx_minor, sx_d]; rfl)

theorem RoundTrip.ret (d : BitVec 2) : Statement (.ret d) := fields rfl (by
  unfold rawS; rw [sx_major, sx_minor, sx_d]; rfl)

theorem RoundTrip.calli (d : BitVec 2) (sn : BitVec 6) : Statement (.calli d sn) := fields rfl (by
  unfold rawS; rw [sx_major, sx_minor, sx_d, sx_x]; rfl)

theorem RoundTrip.join (d : BitVec 2) (j : BitVec 4) : Statement (.join d j) := fields rfl (by
  unfold rawS; rw [sx_major, sx_minor, sx_d, sx_18_4, pad]; rfl)

theorem RoundTrip.jwait (d : BitVec 2) (j : BitVec 4) : Statement (.jwait d j) := fields rfl (by
  unfold rawS; rw [sx_major, sx_minor, sx_d, sx_18_4, pad]; rfl)

theorem RoundTrip.jset (d : BitVec 2) (j : BitVec 4) (sn : BitVec 6) : Statement (.jset d j sn) := fields rfl (by
  unfold rawS; rw [sx_major, sx_minor, sx_d, sx_18_4, sx_y, pad]; rfl)

theorem RoundTrip.jget (d : BitVec 2) (sn : BitVec 6) (j : BitVec 4) : Statement (.jget d sn j) := fields rfl (by
  unfold rawS; rw [sx_major, sx_minor, sx_d, sx_x, sx_12_4, pad]; rfl)

theorem RoundTrip.yield (d : BitVec 2) : Statement (.yield d) := fields rfl (by
  unfold rawS; rw [sx_major, sx_minor, sx_d]; rfl)

theorem RoundTrip.brk (d : BitVec 2) (code : BitVec 12) : Statement (.brk d code) := fields rfl (by
  unfold rawS; rw [sx_major, sx_minor, sx_d, sx_code]; rfl)

theorem RoundTrip.trap (d : BitVec 2) (code : BitVec 12) : Statement (.trap d code) := fields rfl (by
  unfold rawS; rw [sx_major, sx_minor, sx_d, sx_code]; rfl)

theorem RoundTrip.sld (d : BitVec 2) (x : BitVec 6) (y : BitVec 6) (z : BitVec 6) (acq : Bool) (w : Bool) : Statement (.sld d x y z acq w) := uniform rfl (by
  unfold rawS
  rw [sw_major,
    show BitVec.extractLsb' 2 4 (sw 12#5 d (x ++ y ++ z ++ 0#4 ++ BitVec.ofBool acq ++ BitVec.ofBool w)) = 0#4 from by rw [sw_body _ _ _ _ _ (by decide)]; (repeat (first | rw [ext_high _ _ _ _ (by decide)] | rw [ext_low _ _ _ _ (by decide)])); exact ext_all _,
    sw_d,
    show sX (sw 12#5 d (x ++ y ++ z ++ 0#4 ++ BitVec.ofBool acq ++ BitVec.ofBool w)) = x from by unfold sX; rw [sw_body _ _ _ _ _ (by decide)]; (repeat (first | rw [ext_high _ _ _ _ (by decide)] | rw [ext_low _ _ _ _ (by decide)])); exact ext_all _,
    show sY (sw 12#5 d (x ++ y ++ z ++ 0#4 ++ BitVec.ofBool acq ++ BitVec.ofBool w)) = y from by unfold sY; rw [sw_body _ _ _ _ _ (by decide)]; (repeat (first | rw [ext_high _ _ _ _ (by decide)] | rw [ext_low _ _ _ _ (by decide)])); exact ext_all _,
    show sZ (sw 12#5 d (x ++ y ++ z ++ 0#4 ++ BitVec.ofBool acq ++ BitVec.ofBool w)) = z from by unfold sZ; rw [sw_body _ _ _ _ _ (by decide)]; (repeat (first | rw [ext_high _ _ _ _ (by decide)] | rw [ext_low _ _ _ _ (by decide)])); exact ext_all _,
    show BitVec.getLsbD (sw 12#5 d (x ++ y ++ z ++ 0#4 ++ BitVec.ofBool acq ++ BitVec.ofBool w)) 1 = acq from by rw [sw_bit _ _ _ _ (by decide)]; (repeat (first | rw [get_high _ _ _ (by decide)] | rw [get_low _ _ _ (by decide)])); first | rfl | (cases acq <;> rfl),
    show BitVec.getLsbD (sw 12#5 d (x ++ y ++ z ++ 0#4 ++ BitVec.ofBool acq ++ BitVec.ofBool w)) 0 = w from by rw [sw_bit _ _ _ _ (by decide)]; (repeat (first | rw [get_high _ _ _ (by decide)] | rw [get_low _ _ _ (by decide)])); first | rfl | (cases w <;> rfl)]
  rfl)

theorem RoundTrip.sst (d : BitVec 2) (x : BitVec 6) (y : BitVec 6) (z : BitVec 6) (rl : Bool) (w : Bool) : Statement (.sst d x y z rl w) := uniform rfl (by
  unfold rawS
  rw [sw_major,
    show BitVec.extractLsb' 2 4 (sw 12#5 d (x ++ y ++ z ++ 1#4 ++ BitVec.ofBool rl ++ BitVec.ofBool w)) = 1#4 from by rw [sw_body _ _ _ _ _ (by decide)]; (repeat (first | rw [ext_high _ _ _ _ (by decide)] | rw [ext_low _ _ _ _ (by decide)])); exact ext_all _,
    sw_d,
    show sX (sw 12#5 d (x ++ y ++ z ++ 1#4 ++ BitVec.ofBool rl ++ BitVec.ofBool w)) = x from by unfold sX; rw [sw_body _ _ _ _ _ (by decide)]; (repeat (first | rw [ext_high _ _ _ _ (by decide)] | rw [ext_low _ _ _ _ (by decide)])); exact ext_all _,
    show sY (sw 12#5 d (x ++ y ++ z ++ 1#4 ++ BitVec.ofBool rl ++ BitVec.ofBool w)) = y from by unfold sY; rw [sw_body _ _ _ _ _ (by decide)]; (repeat (first | rw [ext_high _ _ _ _ (by decide)] | rw [ext_low _ _ _ _ (by decide)])); exact ext_all _,
    show sZ (sw 12#5 d (x ++ y ++ z ++ 1#4 ++ BitVec.ofBool rl ++ BitVec.ofBool w)) = z from by unfold sZ; rw [sw_body _ _ _ _ _ (by decide)]; (repeat (first | rw [ext_high _ _ _ _ (by decide)] | rw [ext_low _ _ _ _ (by decide)])); exact ext_all _,
    show BitVec.getLsbD (sw 12#5 d (x ++ y ++ z ++ 1#4 ++ BitVec.ofBool rl ++ BitVec.ofBool w)) 1 = rl from by rw [sw_bit _ _ _ _ (by decide)]; (repeat (first | rw [get_high _ _ _ (by decide)] | rw [get_low _ _ _ (by decide)])); first | rfl | (cases rl <;> rfl),
    show BitVec.getLsbD (sw 12#5 d (x ++ y ++ z ++ 1#4 ++ BitVec.ofBool rl ++ BitVec.ofBool w)) 0 = w from by rw [sw_bit _ _ _ _ (by decide)]; (repeat (first | rw [get_high _ _ _ (by decide)] | rw [get_low _ _ _ (by decide)])); first | rfl | (cases w <;> rfl)]
  rfl)

theorem RoundTrip.satom (op : SAOp) (od : Ord) (w : Bool) (o : S3) : Statement (.satom op od w o) := uniform rfl (by
  unfold rawS
  rw [sw_major,
    show BitVec.extractLsb' 3 3 (sw 13#5 o.d (o.sd ++ o.sa ++ o.sb ++ op.code ++ od.code ++ BitVec.ofBool w)) = op.code from by rw [sw_body _ _ _ _ _ (by decide)]; (repeat (first | rw [ext_high _ _ _ _ (by decide)] | rw [ext_low _ _ _ _ (by decide)])); exact ext_all _,
    SAOp.of_code,
    show BitVec.extractLsb' 1 2 (sw 13#5 o.d (o.sd ++ o.sa ++ o.sb ++ op.code ++ od.code ++ BitVec.ofBool w)) = od.code from by rw [sw_body _ _ _ _ _ (by decide)]; (repeat (first | rw [ext_high _ _ _ _ (by decide)] | rw [ext_low _ _ _ _ (by decide)])); exact ext_all _,
    Ord.of_code,
    show BitVec.getLsbD (sw 13#5 o.d (o.sd ++ o.sa ++ o.sb ++ op.code ++ od.code ++ BitVec.ofBool w)) 0 = w from by rw [sw_bit _ _ _ _ (by decide)]; (repeat (first | rw [get_high _ _ _ (by decide)] | rw [get_low _ _ _ (by decide)])); first | rfl | (cases w <;> rfl),
    show getS3 (sw 13#5 o.d (o.sd ++ o.sa ++ o.sb ++ op.code ++ od.code ++ BitVec.ofBool w)) = o from by
      unfold getS3; rw [sw_d, show sX (sw 13#5 o.d (o.sd ++ o.sa ++ o.sb ++ op.code ++ od.code ++ BitVec.ofBool w)) = o.sd from by unfold sX; rw [sw_body _ _ _ _ _ (by decide)]; (repeat (first | rw [ext_high _ _ _ _ (by decide)] | rw [ext_low _ _ _ _ (by decide)])); exact ext_all _, show sY (sw 13#5 o.d (o.sd ++ o.sa ++ o.sb ++ op.code ++ od.code ++ BitVec.ofBool w)) = o.sa from by unfold sY; rw [sw_body _ _ _ _ _ (by decide)]; (repeat (first | rw [ext_high _ _ _ _ (by decide)] | rw [ext_low _ _ _ _ (by decide)])); exact ext_all _, show sZ (sw 13#5 o.d (o.sd ++ o.sa ++ o.sb ++ op.code ++ od.code ++ BitVec.ofBool w)) = o.sb from by unfold sZ; rw [sw_body _ _ _ _ _ (by decide)]; (repeat (first | rw [ext_high _ _ _ _ (by decide)] | rw [ext_low _ _ _ _ (by decide)])); exact ext_all _]]
  rfl)

theorem RoundTrip.lset (d : BitVec 2) (n : BitVec 2) (sn : BitVec 6) : Statement (.lset d n sn) := fields rfl (by
  unfold rawS; rw [sx_major, sx_minor, sx_d, sx_18_2, sx_y, pad]; rfl)

theorem RoundTrip.lget (d : BitVec 2) (sn : BitVec 6) (n : BitVec 2) : Statement (.lget d sn n) := fields rfl (by
  unfold rawS; rw [sx_major, sx_minor, sx_d, sx_x, sx_12_2, pad]; rfl)

theorem RoundTrip.kset (d : BitVec 2) (k : BitVec 4) (sb : BitVec 6) (sc : BitVec 6) : Statement (.kset d k sb sc) := fields rfl (by
  unfold rawS; rw [sx_major, sx_minor, sx_d, sx_18_4, sx_y, sx_z, pad]; rfl)

theorem RoundTrip.lnext (d : BitVec 2) (l : BitVec 2) (off : BitVec 18) : Statement (.lnext d l off) := uniform rfl (by
  unfold rawS
  rw [sw_major,
    sw_d,
    show BitVec.extractLsb' 22 2 (sw 15#5 d (l ++ 0#4 ++ off)) = l from by rw [sw_body _ _ _ _ _ (by decide)]; (repeat (first | rw [ext_high _ _ _ _ (by decide)] | rw [ext_low _ _ _ _ (by decide)])); exact ext_all _,
    show BitVec.extractLsb' 0 18 (sw 15#5 d (l ++ 0#4 ++ off)) = off from by rw [sw_body _ _ _ _ _ (by decide)]; (repeat (first | rw [ext_high _ _ _ _ (by decide)] | rw [ext_low _ _ _ _ (by decide)])); exact ext_all _]
  rfl)

theorem RoundTrip.rel (d : BitVec 2) : Statement (.rel d) := fields rfl (by
  unfold rawS; rw [sx_major, sx_minor, sx_d]; rfl)

theorem RoundTrip.acq (d : BitVec 2) : Statement (.acq d) := fields rfl (by
  unfold rawS; rw [sx_major, sx_minor, sx_d]; rfl)

theorem RoundTrip.sync (d : BitVec 2) : Statement (.sync d) := fields rfl (by
  unfold rawS; rw [sx_major, sx_minor, sx_d]; rfl)

theorem RoundTrip.xrel (d : BitVec 2) : Statement (.xrel d) := fields rfl (by
  unfold rawS; rw [sx_major, sx_minor, sx_d]; rfl)

theorem RoundTrip.xrelDram (d : BitVec 2) : Statement (.xrelDram d) := fields rfl (by
  unfold rawS; rw [sx_major, sx_minor, sx_d]; rfl)

theorem RoundTrip.bar (d : BitVec 2) (g : BitVec 8) (sn : BitVec 6) : Statement (.bar d g sn) := uniform rfl (by
  unfold rawS
  rw [sw_major,
    show sMinor (sw 17#5 d (g ++ sn ++ 0#4 ++ 0#6)) = 0#6 from by unfold sMinor; rw [sw_body _ _ _ _ _ (by decide)]; (repeat (first | rw [ext_high _ _ _ _ (by decide)] | rw [ext_low _ _ _ _ (by decide)])); exact ext_all _,
    sw_d,
    show BitVec.extractLsb' 16 8 (sw 17#5 d (g ++ sn ++ 0#4 ++ 0#6)) = g from by rw [sw_body _ _ _ _ _ (by decide)]; (repeat (first | rw [ext_high _ _ _ _ (by decide)] | rw [ext_low _ _ _ _ (by decide)])); exact ext_all _,
    show BitVec.extractLsb' 10 6 (sw 17#5 d (g ++ sn ++ 0#4 ++ 0#6)) = sn from by rw [sw_body _ _ _ _ _ (by decide)]; (repeat (first | rw [ext_high _ _ _ _ (by decide)] | rw [ext_low _ _ _ _ (by decide)])); exact ext_all _]
  rfl)

theorem RoundTrip.arrive (d : BitVec 2) (g : BitVec 8) (sn : BitVec 6) : Statement (.arrive d g sn) := uniform rfl (by
  unfold rawS
  rw [sw_major,
    show sMinor (sw 17#5 d (g ++ sn ++ 0#4 ++ 1#6)) = 1#6 from by unfold sMinor; rw [sw_body _ _ _ _ _ (by decide)]; (repeat (first | rw [ext_high _ _ _ _ (by decide)] | rw [ext_low _ _ _ _ (by decide)])); exact ext_all _,
    sw_d,
    show BitVec.extractLsb' 16 8 (sw 17#5 d (g ++ sn ++ 0#4 ++ 1#6)) = g from by rw [sw_body _ _ _ _ _ (by decide)]; (repeat (first | rw [ext_high _ _ _ _ (by decide)] | rw [ext_low _ _ _ _ (by decide)])); exact ext_all _,
    show BitVec.extractLsb' 10 6 (sw 17#5 d (g ++ sn ++ 0#4 ++ 1#6)) = sn from by rw [sw_body _ _ _ _ _ (by decide)]; (repeat (first | rw [ext_high _ _ _ _ (by decide)] | rw [ext_low _ _ _ _ (by decide)])); exact ext_all _]
  rfl)

theorem RoundTrip.barw (d : BitVec 2) (g : BitVec 8) : Statement (.barw d g) := uniform rfl (by
  unfold rawS
  rw [sw_major,
    show sMinor (sw 17#5 d (g ++ 0#6 ++ 0#4 ++ 2#6)) = 2#6 from by unfold sMinor; rw [sw_body _ _ _ _ _ (by decide)]; (repeat (first | rw [ext_high _ _ _ _ (by decide)] | rw [ext_low _ _ _ _ (by decide)])); exact ext_all _,
    sw_d,
    show BitVec.extractLsb' 16 8 (sw 17#5 d (g ++ 0#6 ++ 0#4 ++ 2#6)) = g from by rw [sw_body _ _ _ _ _ (by decide)]; (repeat (first | rw [ext_high _ _ _ _ (by decide)] | rw [ext_low _ _ _ _ (by decide)])); exact ext_all _]
  rfl)

theorem RoundTrip.gmask (d : BitVec 2) (g : BitVec 8) (sd : BitVec 6) : Statement (.gmask d g sd) := uniform rfl (by
  unfold rawS
  rw [sw_major,
    show sMinor (sw 17#5 d (g ++ sd ++ 0#4 ++ 3#6)) = 3#6 from by unfold sMinor; rw [sw_body _ _ _ _ _ (by decide)]; (repeat (first | rw [ext_high _ _ _ _ (by decide)] | rw [ext_low _ _ _ _ (by decide)])); exact ext_all _,
    sw_d,
    show BitVec.extractLsb' 16 8 (sw 17#5 d (g ++ sd ++ 0#4 ++ 3#6)) = g from by rw [sw_body _ _ _ _ _ (by decide)]; (repeat (first | rw [ext_high _ _ _ _ (by decide)] | rw [ext_low _ _ _ _ (by decide)])); exact ext_all _,
    show BitVec.extractLsb' 10 6 (sw 17#5 d (g ++ sd ++ 0#4 ++ 3#6)) = sd from by rw [sw_body _ _ _ _ _ (by decide)]; (repeat (first | rw [ext_high _ _ _ _ (by decide)] | rw [ext_low _ _ _ _ (by decide)])); exact ext_all _]
  rfl)

theorem RoundTrip.qpush (d : BitVec 2) (q : BitVec 4) (sn : BitVec 6) (n : BitVec 3) : Statement (.qpush d q sn n) := fields rfl (by
  unfold rawS; rw [sx_major, sx_minor, sx_d, sx_18_4, sx_y, sx_6_3, pad, pad]; rfl)

theorem RoundTrip.qpop (d : BitVec 2) (sn : BitVec 6) (q : BitVec 4) : Statement (.qpop d sn q) := fields rfl (by
  unfold rawS; rw [sx_major, sx_minor, sx_d, sx_x, sx_12_4, pad]; rfl)

theorem RoundTrip.qfence (d : BitVec 2) (sn : BitVec 6) : Statement (.qfence d sn) := fields rfl (by
  unfold rawS; rw [sx_major, sx_minor, sx_d, sx_x]; rfl)

theorem RoundTrip.twany (d : BitVec 2) (sn : BitVec 6) (m : BitVec 6) : Statement (.twany d sn m) := fields rfl (by
  unfold rawS; rw [sx_major, sx_minor, sx_d, sx_x, sx_y]; rfl)

theorem RoundTrip.twall (d : BitVec 2) (m : BitVec 6) : Statement (.twall d m) := fields rfl (by
  unfold rawS; rw [sx_major, sx_minor, sx_d, sx_y]; rfl)

theorem RoundTrip.tffr (d : BitVec 2) (sn : BitVec 6) (m : BitVec 6) : Statement (.tffr d sn m) := fields rfl (by
  unfold rawS; rw [sx_major, sx_minor, sx_d, sx_x, sx_y]; rfl)

theorem RoundTrip.tget (d : BitVec 2) (sn : BitVec 6) : Statement (.tget d sn) := fields rfl (by
  unfold rawS; rw [sx_major, sx_minor, sx_d, sx_x]; rfl)

theorem RoundTrip.tclr (d : BitVec 2) (m : BitVec 6) : Statement (.tclr d m) := fields rfl (by
  unfold rawS; rw [sx_major, sx_minor, sx_d, sx_y]; rfl)

theorem RoundTrip.mma (d : BitVec 2) (acc : BitVec 5) (am : Bool) (a : BitVec 5) (bm : Bool) (b : BitVec 5) (g : BitVec 3) (typ : AccTy) (ax : Bool) (sp : Bool) : Statement (.mma d acc am a bm b g typ ax sp) := uniform rfl (by
  unfold rawS
  rw [sw_major,
    show BitVec.extractLsb' 2 2 (sw 19#5 d (acc ++ BitVec.ofBool am ++ a ++ BitVec.ofBool bm ++ b ++ g ++ typ.code ++ BitVec.ofBool ax ++ BitVec.ofBool sp)) = typ.code from by rw [sw_body _ _ _ _ _ (by decide)]; (repeat (first | rw [ext_high _ _ _ _ (by decide)] | rw [ext_low _ _ _ _ (by decide)])); exact ext_all _,
    AccTy.of_code,
    sw_d,
    show BitVec.extractLsb' 19 5 (sw 19#5 d (acc ++ BitVec.ofBool am ++ a ++ BitVec.ofBool bm ++ b ++ g ++ typ.code ++ BitVec.ofBool ax ++ BitVec.ofBool sp)) = acc from by rw [sw_body _ _ _ _ _ (by decide)]; (repeat (first | rw [ext_high _ _ _ _ (by decide)] | rw [ext_low _ _ _ _ (by decide)])); exact ext_all _,
    show BitVec.getLsbD (sw 19#5 d (acc ++ BitVec.ofBool am ++ a ++ BitVec.ofBool bm ++ b ++ g ++ typ.code ++ BitVec.ofBool ax ++ BitVec.ofBool sp)) 18 = am from by rw [sw_bit _ _ _ _ (by decide)]; (repeat (first | rw [get_high _ _ _ (by decide)] | rw [get_low _ _ _ (by decide)])); first | rfl | (cases am <;> rfl),
    show BitVec.extractLsb' 13 5 (sw 19#5 d (acc ++ BitVec.ofBool am ++ a ++ BitVec.ofBool bm ++ b ++ g ++ typ.code ++ BitVec.ofBool ax ++ BitVec.ofBool sp)) = a from by rw [sw_body _ _ _ _ _ (by decide)]; (repeat (first | rw [ext_high _ _ _ _ (by decide)] | rw [ext_low _ _ _ _ (by decide)])); exact ext_all _,
    show BitVec.getLsbD (sw 19#5 d (acc ++ BitVec.ofBool am ++ a ++ BitVec.ofBool bm ++ b ++ g ++ typ.code ++ BitVec.ofBool ax ++ BitVec.ofBool sp)) 12 = bm from by rw [sw_bit _ _ _ _ (by decide)]; (repeat (first | rw [get_high _ _ _ (by decide)] | rw [get_low _ _ _ (by decide)])); first | rfl | (cases bm <;> rfl),
    show BitVec.extractLsb' 7 5 (sw 19#5 d (acc ++ BitVec.ofBool am ++ a ++ BitVec.ofBool bm ++ b ++ g ++ typ.code ++ BitVec.ofBool ax ++ BitVec.ofBool sp)) = b from by rw [sw_body _ _ _ _ _ (by decide)]; (repeat (first | rw [ext_high _ _ _ _ (by decide)] | rw [ext_low _ _ _ _ (by decide)])); exact ext_all _,
    show BitVec.extractLsb' 4 3 (sw 19#5 d (acc ++ BitVec.ofBool am ++ a ++ BitVec.ofBool bm ++ b ++ g ++ typ.code ++ BitVec.ofBool ax ++ BitVec.ofBool sp)) = g from by rw [sw_body _ _ _ _ _ (by decide)]; (repeat (first | rw [ext_high _ _ _ _ (by decide)] | rw [ext_low _ _ _ _ (by decide)])); exact ext_all _,
    show BitVec.getLsbD (sw 19#5 d (acc ++ BitVec.ofBool am ++ a ++ BitVec.ofBool bm ++ b ++ g ++ typ.code ++ BitVec.ofBool ax ++ BitVec.ofBool sp)) 1 = ax from by rw [sw_bit _ _ _ _ (by decide)]; (repeat (first | rw [get_high _ _ _ (by decide)] | rw [get_low _ _ _ (by decide)])); first | rfl | (cases ax <;> rfl),
    show BitVec.getLsbD (sw 19#5 d (acc ++ BitVec.ofBool am ++ a ++ BitVec.ofBool bm ++ b ++ g ++ typ.code ++ BitVec.ofBool ax ++ BitVec.ofBool sp)) 0 = sp from by rw [sw_bit _ _ _ _ (by decide)]; (repeat (first | rw [get_high _ _ _ (by decide)] | rw [get_low _ _ _ (by decide)])); first | rfl | (cases sp <;> rfl)]
  rfl)

theorem RoundTrip.mmc (d : BitVec 2) (acc : BitVec 5) (am : Bool) (a : BitVec 5) (bm : Bool) (b : BitVec 5) (g : BitVec 3) (cj : Bool) : Statement (.mmc d acc am a bm b g cj) := uniform rfl (by
  unfold rawS
  rw [sw_major,
    sw_d,
    show BitVec.extractLsb' 19 5 (sw 20#5 d (acc ++ BitVec.ofBool am ++ a ++ BitVec.ofBool bm ++ b ++ g ++ 1#2 ++ BitVec.ofBool cj ++ 0#1)) = acc from by rw [sw_body _ _ _ _ _ (by decide)]; (repeat (first | rw [ext_high _ _ _ _ (by decide)] | rw [ext_low _ _ _ _ (by decide)])); exact ext_all _,
    show BitVec.getLsbD (sw 20#5 d (acc ++ BitVec.ofBool am ++ a ++ BitVec.ofBool bm ++ b ++ g ++ 1#2 ++ BitVec.ofBool cj ++ 0#1)) 18 = am from by rw [sw_bit _ _ _ _ (by decide)]; (repeat (first | rw [get_high _ _ _ (by decide)] | rw [get_low _ _ _ (by decide)])); first | rfl | (cases am <;> rfl),
    show BitVec.extractLsb' 13 5 (sw 20#5 d (acc ++ BitVec.ofBool am ++ a ++ BitVec.ofBool bm ++ b ++ g ++ 1#2 ++ BitVec.ofBool cj ++ 0#1)) = a from by rw [sw_body _ _ _ _ _ (by decide)]; (repeat (first | rw [ext_high _ _ _ _ (by decide)] | rw [ext_low _ _ _ _ (by decide)])); exact ext_all _,
    show BitVec.getLsbD (sw 20#5 d (acc ++ BitVec.ofBool am ++ a ++ BitVec.ofBool bm ++ b ++ g ++ 1#2 ++ BitVec.ofBool cj ++ 0#1)) 12 = bm from by rw [sw_bit _ _ _ _ (by decide)]; (repeat (first | rw [get_high _ _ _ (by decide)] | rw [get_low _ _ _ (by decide)])); first | rfl | (cases bm <;> rfl),
    show BitVec.extractLsb' 7 5 (sw 20#5 d (acc ++ BitVec.ofBool am ++ a ++ BitVec.ofBool bm ++ b ++ g ++ 1#2 ++ BitVec.ofBool cj ++ 0#1)) = b from by rw [sw_body _ _ _ _ _ (by decide)]; (repeat (first | rw [ext_high _ _ _ _ (by decide)] | rw [ext_low _ _ _ _ (by decide)])); exact ext_all _,
    show BitVec.extractLsb' 4 3 (sw 20#5 d (acc ++ BitVec.ofBool am ++ a ++ BitVec.ofBool bm ++ b ++ g ++ 1#2 ++ BitVec.ofBool cj ++ 0#1)) = g from by rw [sw_body _ _ _ _ _ (by decide)]; (repeat (first | rw [ext_high _ _ _ _ (by decide)] | rw [ext_low _ _ _ _ (by decide)])); exact ext_all _,
    show BitVec.getLsbD (sw 20#5 d (acc ++ BitVec.ofBool am ++ a ++ BitVec.ofBool bm ++ b ++ g ++ 1#2 ++ BitVec.ofBool cj ++ 0#1)) 1 = cj from by rw [sw_bit _ _ _ _ (by decide)]; (repeat (first | rw [get_high _ _ _ (by decide)] | rw [get_low _ _ _ (by decide)])); first | rfl | (cases cj <;> rfl)]
  rfl)

theorem RoundTrip.tld (d : BitVec 2) (t : BitVec 5) (y : BitVec 6) (z : BitVec 6) : Statement (.tld d t y z) := fields rfl (by
  unfold rawS; rw [sx_major, sx_minor, sx_d, sx_18_5, sx_y, sx_z, pad]; rfl)

theorem RoundTrip.tst (d : BitVec 2) (t : BitVec 5) (y : BitVec 6) (z : BitVec 6) : Statement (.tst d t y z) := fields rfl (by
  unfold rawS; rw [sx_major, sx_minor, sx_d, sx_18_5, sx_y, sx_z, pad]; rfl)

theorem RoundTrip.tmov (d : BitVec 2) (t : BitVec 5) (t2 : BitVec 5) : Statement (.tmov d t t2) := fields rfl (by
  unfold rawS; rw [sx_major, sx_minor, sx_d, sx_18_5, sx_12_5, pad, pad]; rfl)

theorem RoundTrip.tzero (d : BitVec 2) (t : BitVec 5) : Statement (.tzero d t) := fields rfl (by
  unfold rawS; rw [sx_major, sx_minor, sx_d, sx_18_5, pad]; rfl)

theorem RoundTrip.amov (d : BitVec 2) (a : BitVec 5) (a2 : BitVec 5) : Statement (.amov d a a2) := fields rfl (by
  unfold rawS; rw [sx_major, sx_minor, sx_d, sx_18_5, sx_12_5, pad, pad]; rfl)

theorem RoundTrip.ald (d : BitVec 2) (a : BitVec 5) (y : BitVec 6) : Statement (.ald d a y) := fields rfl (by
  unfold rawS; rw [sx_major, sx_minor, sx_d, sx_18_5, sx_y, pad]; rfl)

theorem RoundTrip.ast (d : BitVec 2) (a : BitVec 5) (y : BitVec 6) : Statement (.ast d a y) := fields rfl (by
  unfold rawS; rw [sx_major, sx_minor, sx_d, sx_18_5, sx_y, pad]; rfl)

theorem RoundTrip.azero (d : BitVec 2) (a : BitVec 5) : Statement (.azero d a) := fields rfl (by
  unfold rawS; rw [sx_major, sx_minor, sx_d, sx_18_5, pad]; rfl)

theorem RoundTrip.sign (d : BitVec 2) (g : BitVec 3) (sn : BitVec 6) : Statement (.sign d g sn) := fields rfl (by
  unfold rawS; rw [sx_major, sx_minor, sx_d, sx_18_3, sx_y, pad]; rfl)

theorem RoundTrip.mprog (d : BitVec 2) (sn : BitVec 6) (a : BitVec 5) : Statement (.mprog d sn a) := fields rfl (by
  unfold rawS; rw [sx_major, sx_minor, sx_d, sx_x, sx_12_5, pad]; rfl)

theorem RoundTrip.exit (d : BitVec 2) : Statement (.exit d) := fields rfl (by
  unfold rawS; rw [sx_major, sx_minor, sx_d]; rfl)

theorem RoundTrip.exitSucc (d : BitVec 2) (sn : BitVec 6) : Statement (.exitSucc d sn) := fields rfl (by
  unfold rawS; rw [sx_major, sx_minor, sx_d, sx_x]; rfl)

theorem RoundTrip.phase (d : BitVec 2) (sn : BitVec 6) : Statement (.phase d sn) := fields rfl (by
  unfold rawS; rw [sx_major, sx_minor, sx_d, sx_x]; rfl)

theorem RoundTrip.gen (d : BitVec 2) (sn : BitVec 6) : Statement (.gen d sn) := fields rfl (by
  unfold rawS; rw [sx_major, sx_minor, sx_d, sx_x]; rfl)

theorem RoundTrip.rsys (d : BitVec 2) (sn : BitVec 6) (n : BitVec 12) : Statement (.rsys d sn n) := fields rfl (by
  unfold rawS; rw [sx_major, sx_minor, sx_d, sx_x, sx_code]; rfl)

theorem RoundTrip.wsys (d : BitVec 2) (sn : BitVec 6) (n : BitVec 12) : Statement (.wsys d sn n) := fields rfl (by
  unfold rawS; rw [sx_major, sx_minor, sx_d, sx_x, sx_code]; rfl)

theorem RoundTrip.kret (d : BitVec 2) : Statement (.kret d) := fields rfl (by
  unfold rawS; rw [sx_major, sx_minor, sx_d]; rfl)

theorem RoundTrip.svc (d : BitVec 2) (c : BitVec 4) (y : BitVec 6) : Statement (.svc d c y) := fields rfl (by
  unfold rawS; rw [sx_major, sx_minor, sx_d, sx_18_4, sx_y, pad]; rfl)

theorem RoundTrip.rsc (d : BitVec 2) (c : BitVec 4) (y : BitVec 6) : Statement (.rsc d c y) := fields rfl (by
  unfold rawS; rw [sx_major, sx_minor, sx_d, sx_18_4, sx_y, pad]; rfl)

theorem RoundTrip.halt (d : BitVec 2) : Statement (.halt d) := fields rfl (by
  unfold rawS; rw [sx_major, sx_minor, sx_d]; rfl)

theorem RoundTrip.illegalEncoding (word : BitVec 32) : Statement (.illegalEncoding word) := none rfl

theorem RoundTrip.plynwickOperationCompletion (core : Nat) (opid : Nat) : Statement (.plynwickOperationCompletion core opid) := none rfl

theorem RoundTrip.malformedNode (queue : Nat) : Statement (.malformedNode queue) := none rfl

theorem RoundTrip.hostCommandUnknownOpcode : Statement (.hostCommandUnknownOpcode) := none rfl

theorem RoundTrip.instructionLineFill (core : Nat) (entry : Nat) : Statement (.instructionLineFill core entry) := none rfl

theorem RoundTrip.pageTableWalk (core : Nat) (entry : Nat) : Statement (.pageTableWalk core entry) := none rfl

theorem RoundTrip.loadCompletion (core : Nat) (opid : Nat) : Statement (.loadCompletion core opid) := none rfl

theorem RoundTrip.atomicCompletion (core : Nat) (opid : Nat) : Statement (.atomicCompletion core opid) := none rfl

theorem RoundTrip.sequencerCompletion (core : Nat) (opid : Nat) : Statement (.sequencerCompletion core opid) := none rfl

theorem RoundTrip.ftabCompletion (core : Nat) (opid : Nat) : Statement (.ftabCompletion core opid) := none rfl

theorem RoundTrip.releaseCompletion (core : Nat) (opid : Nat) : Statement (.releaseCompletion core opid) := none rfl

theorem RoundTrip.acquireCompletion (core : Nat) (opid : Nat) : Statement (.acquireCompletion core opid) := none rfl

theorem RoundTrip.faultRecordPost (pd : Nat) : Statement (.faultRecordPost pd) := none rfl

theorem RoundTrip.registration (core : Nat) : Statement (.registration core) := none rfl

theorem RoundTrip.recall (line : Nat) : Statement (.recall line) := none rfl

theorem RoundTrip.domeRequest (core : Nat) : Statement (.domeRequest core) := none rfl

theorem RoundTrip.domeFill (buf : Nat) (line : Nat) : Statement (.domeFill buf line) := none rfl

theorem RoundTrip.replicaInvalidate (line : Nat) : Statement (.replicaInvalidate line) := none rfl

theorem RoundTrip.domeUncorrectableError (line : Nat) : Statement (.domeUncorrectableError line) := none rfl

theorem RoundTrip.l1Eviction (core : Nat) (superblock : Nat) : Statement (.l1Eviction core superblock) := none rfl

theorem RoundTrip.plynwickRecall (buf : Nat) (block : Nat) : Statement (.plynwickRecall buf block) := none rfl

theorem RoundTrip.eyeMarginMeasure (stack : Nat) (channel : Nat) (lane : Nat) (margin : Nat) : Statement (.eyeMarginMeasure stack channel lane margin) := none rfl

theorem RoundTrip.laneRepair (stack : Nat) (channel : Nat) (lane : Nat) : Statement (.laneRepair stack channel lane) := none rfl

theorem RoundTrip.counterDecay (port : Nat) : Statement (.counterDecay port) := none rfl

theorem RoundTrip.engineCommandStart (core : Nat) (slot : Nat) (queue : Nat) : Statement (.engineCommandStart core slot queue) := none rfl

theorem RoundTrip.copy (core : Nat) (slot : Nat) (queue : Nat) : Statement (.copy core slot queue) := none rfl

theorem RoundTrip.copy2d (core : Nat) (slot : Nat) (queue : Nat) : Statement (.copy2d core slot queue) := none rfl

theorem RoundTrip.gather (core : Nat) (slot : Nat) (queue : Nat) : Statement (.gather core slot queue) := none rfl

theorem RoundTrip.scatter (core : Nat) (slot : Nat) (queue : Nat) : Statement (.scatter core slot queue) := none rfl

theorem RoundTrip.multicast (core : Nat) (slot : Nat) (queue : Nat) : Statement (.multicast core slot queue) := none rfl

theorem RoundTrip.collectiveReduce (core : Nat) (slot : Nat) (queue : Nat) : Statement (.collectiveReduce core slot queue) := none rfl

theorem RoundTrip.ingestBind (core : Nat) (slot : Nat) (queue : Nat) : Statement (.ingestBind core slot queue) := none rfl

theorem RoundTrip.engineCommandComplete (core : Nat) (slot : Nat) (queue : Nat) : Statement (.engineCommandComplete core slot queue) := none rfl

theorem RoundTrip.engineFault (core : Nat) (slot : Nat) (queue : Nat) : Statement (.engineFault core slot queue) := none rfl

theorem RoundTrip.tagWaitComplete (core : Nat) (opid : Nat) : Statement (.tagWaitComplete core opid) := none rfl

theorem RoundTrip.qpopComplete (core : Nat) (opid : Nat) : Statement (.qpopComplete core opid) := none rfl

theorem RoundTrip.ingestFrame (frame : EthFrame) : Statement (.ingestFrame frame) := none rfl

theorem RoundTrip.gapRecordTimeout (stream : Nat) : Statement (.gapRecordTimeout stream) := none rfl

theorem RoundTrip.ingestConsumerReread (stream : Nat) : Statement (.ingestConsumerReread stream) := none rfl

theorem RoundTrip.pfcPauseRefresh (stream : Nat) : Statement (.pfcPauseRefresh stream) := none rfl

theorem RoundTrip.barrierReleaseStep (launch : Nat) (gid : Nat) : Statement (.barrierReleaseStep launch gid) := none rfl

theorem RoundTrip.matrixOperationIssue (core : Nat) (slot : Nat) (g : Nat) : Statement (.matrixOperationIssue core slot g) := none rfl

theorem RoundTrip.matrixKStep (core : Nat) (opid : Nat) (err : Bool) : Statement (.matrixKStep core opid err) := none rfl

theorem RoundTrip.matrixOperationComplete (core : Nat) (opid : Nat) : Statement (.matrixOperationComplete core opid) := none rfl

theorem RoundTrip.matrixTransferComplete (core : Nat) (opid : Nat) : Statement (.matrixTransferComplete core opid) := none rfl

theorem RoundTrip.preemptionRequest (core : Nat) (slot : Nat) (area : BitVec 64) : Statement (.preemptionRequest core slot area) := none rfl

theorem RoundTrip.preemptionEntry (core : Nat) (slot : Nat) : Statement (.preemptionEntry core slot) := none rfl

theorem RoundTrip.variantSwitch (core : Nat) (slot : Nat) : Statement (.variantSwitch core slot) := none rfl

theorem RoundTrip.phaseAdmissionTimeout (core : Nat) (slot : Nat) : Statement (.phaseAdmissionTimeout core slot) := none rfl

theorem RoundTrip.queuedAdmissionTimeout (cluster : Nat) : Statement (.queuedAdmissionTimeout cluster) := none rfl

theorem RoundTrip.taskRetire (core : Nat) (slot : Nat) : Statement (.taskRetire core slot) := none rfl

theorem RoundTrip.successorStart (core : Nat) (slot : Nat) : Statement (.successorStart core slot) := none rfl

theorem RoundTrip.place (cluster : Nat) : Statement (.place cluster) := none rfl

theorem RoundTrip.generationSweepEnd (core : Nat) : Statement (.generationSweepEnd core) := none rfl

theorem RoundTrip.placementAttempt (cluster : Nat) : Statement (.placementAttempt cluster) := none rfl

theorem RoundTrip.queueHeadAgeExpiry (cluster : Nat) : Statement (.queueHeadAgeExpiry cluster) := none rfl

theorem RoundTrip.controlInterval : Statement (.controlInterval) := none rfl

theorem RoundTrip.stealRequest (cluster : Nat) : Statement (.stealRequest cluster) := none rfl

theorem RoundTrip.timeSliceExpiry (core : Nat) (slot : Nat) : Statement (.timeSliceExpiry core slot) := none rfl

theorem RoundTrip.walkerTakeEntry (spire : Nat) : Statement (.walkerTakeEntry spire) := none rfl

theorem RoundTrip.kernelNode (queue : Nat) : Statement (.kernelNode queue) := none rfl

theorem RoundTrip.copyNode (queue : Nat) : Statement (.copyNode queue) := none rfl

theorem RoundTrip.condNode (queue : Nat) : Statement (.condNode queue) := none rfl

theorem RoundTrip.whileNode (queue : Nat) : Statement (.whileNode queue) := none rfl

theorem RoundTrip.waitqNode (queue : Nat) : Statement (.waitqNode queue) := none rfl

theorem RoundTrip.waitqPoll (queue : Nat) : Statement (.waitqPoll queue) := none rfl

theorem RoundTrip.waitqTimeout (queue : Nat) : Statement (.waitqTimeout queue) := none rfl

theorem RoundTrip.signalNode (queue : Nat) : Statement (.signalNode queue) := none rfl

theorem RoundTrip.endNode (queue : Nat) : Statement (.endNode queue) := none rfl

theorem RoundTrip.rdmaWrite (conn : Nat) (va : BitVec 64) (bytes : List (BitVec 8)) : Statement (.rdmaWrite conn va bytes) := none rfl

theorem RoundTrip.rdmaRead (conn : Nat) (va : BitVec 64) (len : Nat) : Statement (.rdmaRead conn va len) := none rfl

theorem RoundTrip.remoteAccessTimeout (core : Nat) (opid : Nat) : Statement (.remoteAccessTimeout core opid) := none rfl

theorem RoundTrip.bufferTableWrite (conn : Nat) (index : Nat) (value : BitVec 256) : Statement (.bufferTableWrite conn index value) := none rfl

theorem RoundTrip.wqErrClear (conn : Nat) (queue : Nat) : Statement (.wqErrClear conn queue) := none rfl

theorem RoundTrip.registerWrite (conn : Nat) (pa : Nat) (bytes : List (BitVec 8)) : Statement (.registerWrite conn pa bytes) := none rfl

theorem RoundTrip.tlbinv : Statement (.tlbinv) := none rfl

theorem RoundTrip.bufinv : Statement (.bufinv) := none rfl

theorem RoundTrip.recallCommand : Statement (.recallCommand) := none rfl

theorem RoundTrip.faultans : Statement (.faultans) := none rfl

theorem RoundTrip.load : Statement (.load) := none rfl

theorem RoundTrip.unload : Statement (.unload) := none rfl

theorem RoundTrip.preempt : Statement (.preempt) := none rfl

theorem RoundTrip.restore : Statement (.restore) := none rfl

theorem RoundTrip.killpd : Statement (.killpd) := none rfl

theorem RoundTrip.identify (f : Frame) : Statement (.identify f) := none rfl

theorem RoundTrip.attest (f : Frame) : Statement (.attest f) := none rfl

theorem RoundTrip.keyload (f : Frame) : Statement (.keyload f) := none rfl

theorem RoundTrip.keydestroy (f : Frame) : Statement (.keydestroy f) := none rfl

theorem RoundTrip.powertol (f : Frame) : Statement (.powertol f) := none rfl

theorem RoundTrip.clockplan (f : Frame) : Statement (.clockplan f) := none rfl

theorem RoundTrip.evcfg (f : Frame) : Statement (.evcfg f) := none rfl

theorem RoundTrip.evread (f : Frame) : Statement (.evread f) := none rfl

theorem RoundTrip.resync (f : Frame) : Statement (.resync f) := none rfl

theorem RoundTrip.settime (f : Frame) : Statement (.settime f) := none rfl

theorem RoundTrip.admin (f : Frame) (a : AdminBody) : Statement (.admin f a) := none rfl

theorem RoundTrip.streams (f : Frame) (first : Nat) (count : Nat) : Statement (.streams f first count) := none rfl

theorem RoundTrip.debugBreakpoint (f : Frame) (core : Nat) (index : Nat) (addr : Option (BitVec 64)) : Statement (.debugBreakpoint f core index addr) := none rfl

theorem RoundTrip.debugStep (f : Frame) (core : Nat) (slot : Nat) (entry : Option Nat) : Statement (.debugStep f core slot entry) := none rfl

theorem RoundTrip.debugReadTable (f : Frame) (core : Nat) : Statement (.debugReadTable f core) := none rfl

theorem RoundTrip.debugStorageRead (f : Frame) (core : Nat) (ref : StoreRef) (gen : BitVec 16) : Statement (.debugStorageRead f core ref gen) := none rfl

theorem RoundTrip.debugStorageWrite (f : Frame) (core : Nat) (ref : StoreRef) (gen : BitVec 16) (lo : Nat) (bytes : List (BitVec 8)) : Statement (.debugStorageWrite f core ref gen lo bytes) := none rfl

theorem RoundTrip.channel (f : Frame) (stack : Nat) : Statement (.channel f stack) := none rfl

theorem RoundTrip.forensic (f : Frame) : Statement (.forensic f) := none rfl

theorem RoundTrip.reset (f : Frame) : Statement (.reset f) := none rfl

theorem RoundTrip.idleEntry : Statement (.idleEntry) := none rfl

theorem RoundTrip.wake : Statement (.wake) := none rfl

theorem RoundTrip.thermalLimit (temp : Nat) : Statement (.thermalLimit temp) := none rfl

theorem RoundTrip.thermalEmergency (temp : Nat) : Statement (.thermalEmergency temp) := none rfl

theorem RoundTrip.hardTrip (temp : Nat) : Statement (.hardTrip temp) := none rfl

theorem RoundTrip.thermalLimitLift (temp : Nat) : Statement (.thermalLimitLift temp) := none rfl

theorem RoundTrip.watchtowerAlarm (word : BitVec 32) : Statement (.watchtowerAlarm word) := none rfl

theorem RoundTrip.powerUp : Statement (.powerUp) := none rfl

theorem RoundTrip.debugResume (f : Frame) (core : Nat) (slot : Nat) : Statement (.debugResume f core slot) := none rfl

theorem RoundTrip.transportConnection (conn : Nat) (endpoint : Nat) (pd : Nat) (key : Nat) : Statement (.transportConnection conn endpoint pd key) := none rfl

theorem RoundTrip.remoteAtomic (module : Nat) (addr : Nat) (a : RemoteAtomic) : Statement (.remoteAtomic module addr a) := none rfl

theorem RoundTrip.unknownCommand (f : Frame) (code : BitVec 16) : Statement (.unknownCommand f code) := none rfl

end Laws

end Sys2Proof
end

