-- ==== Sys2Proof/Laws/Tasks.lean ====
section
/-! SUPPORT. What the end of a task and the start of a successor leave. -/

-- One theorem at a time: the package compiles as one text, and a thread for each open proof asks for a stack of its own.
set_option Elab.async false

namespace Sys2Proof.Machine

theorem lowest_fold (G : Option (Nat × Entry) → Nat × Entry → Option (Nat × Entry)) (L : List (Nat × Entry)) (e : Nat × Entry)
    (g0 : ∀ e, G none e = some e)
    (g1 : ∀ q e, G (some q) e = if (lowestLane e.2.lanes).getD 32 < (lowestLane q.2.lanes).getD 32 then some e else some q) (he : e ∈ L)
    (h : ∀ d ∈ L, d ≠ e → (lowestLane e.2.lanes).getD 32 < (lowestLane d.2.lanes).getD 32) : L.foldl G none = some e := by
  have key : ∀ (L : List (Nat × Entry)) (a : Option (Nat × Entry)), (∀ d ∈ L, d ≠ e → (lowestLane e.2.lanes).getD 32 < (lowestLane d.2.lanes).getD 32) →
      (∀ d, a = some d → d ≠ e → (lowestLane e.2.lanes).getD 32 < (lowestLane d.2.lanes).getD 32) → (e ∈ L ∨ a = some e) →
      L.foldl G a = some e := by
    intro L
    induction L with
    | nil => intro a _ _ h; rcases h with h | h; cases h; exact h
    | cons d L ih =>
      intro a h1 h2 h3
      refine ih _ (fun d hd => h1 d (List.mem_cons_of_mem _ hd)) ?_ ?_
      · intro y hy hne
        cases a with
        | none => rw [g0] at hy; cases hy; exact h1 _ List.mem_cons_self hne
        | some q =>
          rw [g1] at hy
          split at hy
          · cases hy; exact h1 _ List.mem_cons_self hne
          · cases hy; exact h2 _ rfl hne
      · rcases h3 with h3 | h3
        · rcases List.mem_cons.1 h3 with rfl | h3
          · right
            cases a with
            | none => exact g0 _
            | some q =>
              rw [g1]
              by_cases hq : q = e
              · subst hq; simp
              · rw [if_pos (h2 _ rfl hq)]
          · exact .inl h3
        · right
          subst h3
          rw [g1]
          by_cases hq : d = e
          · subst hq; simp
          · rw [if_neg]
            have := h1 d List.mem_cons_self hq
            omega
  exact key L none h (fun d hd => nomatch hd) (.inl he)

theorem tasks_endGraph (s : State) (q st n : Nat) (w : Word) (c : Nat) : ((s.endGraph q st n w).core c).tasks = (s.core c).tasks := by
  unfold State.endGraph
  split
  · rfl
  · dsimp only
    split
    · rfl
    · have hq := Quiet.askWrite
      rename_i g h _
      have hq := Quiet.askWrite ({ s with graphs := mapDel s.graphs q } : State) (({ s with graphs := mapDel s.graphs q } : State).walkAsker q) g.record
        (bytesOf 4 g.seq.toNat ++ bytesOf 1 st ++ zeroBytes 1 ++ bytesOf 2 g.node ++ bytesOf 4 n ++ bytesOf 4 w.toNat)
      split <;> (rename_i hm; rw [hm] at hq; exact (Served.of hq).tasks c)

theorem tasks_report (s : State) (l n : Nat) (w : Word) (c : Nat) : ((s.report l n w).core c).tasks = (s.core c).tasks := by
  unfold State.report
  have h1 : ∀ (s : State) l, ((s.checkLaunch l).core c).tasks = (s.core c).tasks := by
    intro s l
    unfold State.checkLaunch
    split
    · rfl
    · split
      · split
        · rfl
        · dsimp only
          split <;> exact tasks_endGraph _ _ _ _ _ _
      · split <;> rfl
  rw [h1]
  split <;> rfl

theorem task_eq {s : State} {c n : Nat} {x : Machine.Task} (h : mapGet (s.core c).tasks n = some x) : (s.core c).task n = x := by
  unfold Core.task mapGetD; rw [h]; rfl

theorem pre_fold (c : Nat) (L : List Nat) (s : State) : ((L.foldl (fun s b => s.updBand c b fun y => { y with pre := true }) s).core c).tasks = (s.core c).tasks ∧
    ∀ b, (mapGet (s.core c).bands b).isSome = true → (b ∈ L ∨ ((s.core c).band b).pre = true) →
      ((((L.foldl (fun s b => s.updBand c b fun y => { y with pre := true }) s).core c).band b).pre = true) := by
  induction L generalizing s with
  | nil => exact ⟨rfl, fun b _ h => by rcases h with h | h; cases h; exact h⟩
  | cons a L ih =>
    obtain ⟨h1, h2⟩ := ih (s.updBand c a fun y => { y with pre := true })
    have ht : ((s.updBand c a fun y => { y with pre := true }).core c).tasks = (s.core c).tasks := State.part_updBand (·.tasks) (fun _ _ => rfl) _ _ _ _ _
    refine ⟨h1.trans ht, fun b hb h => h2 b ?_ ?_⟩
    · rw [State.placed_updBand]; exact hb
    · by_cases hab : b = a
      · subst hab
        right
        rw [State.band_updBand_self _ _ _ _ hb]
      · rcases h with h | h
        · rcases List.mem_cons.1 h with h | h
          · exact absurd h hab
          · exact .inl h
        · right
          rw [State.band_updBand_ne _ _ _ _ _ _ (by tauto)]; exact h

theorem tasks_freeGen (k : Core) (g : BitVec 16) : (k.freeGen g).tasks = k.tasks := by
  unfold Core.freeGen; split <;> rfl

theorem tasks_freeTask (s : State) (c t : Nat) : mapGet ((s.freeTask c t).core c).tasks t = none := by
  unfold State.freeTask
  rw [State.core_updCore, if_pos rfl]
  dsimp only
  rw [tasks_freeGen]
  exact (mapGet_mapDel _ _ _).trans (if_pos rfl)

theorem retire_frees (s : State) (c t kind : Nat) : mapGet ((s.retireTask c t kind).core c).tasks t = none := by
  unfold State.retireTask
  extract_lets m x w kept a f k
  rw [tasks_report]
  have h : (k.core c).tasks = (f.core c).tasks := by
    simp only [k]
    split <;> rfl
  rw [h]
  exact tasks_freeTask _ _ _

theorem Quiet.readTcb' (s : State) (pd : Nat) (va : BitVec 64) : Quiet s (s.readTcb pd va).1 := by
  unfold State.readTcb
  refine .iteP (.refl _) ?_
  have h1 := Quiet.translateFor s pd va false
  split
  · rename_i m e hm; rw [hm] at h1; exact h1
  · rename_i m u hm
    rw [hm] at h1
    refine .iteP h1 ?_
    have h2 := Quiet.askRead m ⟨pd, none⟩ va 64
    split
    · rename_i k l hk; rw [hk] at h2; exact h1.trans h2
    · rename_i k l hk; rw [hk] at h2; exact h1.trans h2

theorem tasks_startEntries (k : Core) (L : List Nat) : (k.startEntries L).tasks = k.tasks := by
  unfold Core.startEntries
  induction L generalizing k with
  | nil => rfl
  | cons a L ih =>
    rw [List.foldl_cons, ih]
    dsimp only
    split <;> rfl

theorem start_task (s : State) (c t : Nat) (l : List Byte) (h : numAt l 38 1 = 0) : ((s.startSuccessor c t l).core c).task t = ((s.core c).task t).successor l := by
  unfold State.startSuccessor
  dsimp only
  rw [if_neg (by omega)]
  have hk : ∀ k k' : Core, k.tasks = k'.tasks → k.task t = k'.task t := by intro k k' h; unfold Core.task; rw [h]
  refine (hk _ _ (tasks_report _ _ _ _ _)).trans ?_
  have h1 : ∀ (m : State), ((m.selfInvalidate c).core c).tasks = (m.core c).tasks := by
    intro m
    unfold State.selfInvalidate
    rw [State.core_updCore, if_pos rfl]
  refine (hk _ _ (h1 _)).trans ?_
  rw [show ∀ (m : State) cl e, (m.charge cl e).core c = m.core c from fun _ _ _ => rfl]
  rw [State.core_updCore, if_pos rfl]
  refine (hk _ _ (tasks_startEntries _ _)).trans ?_
  unfold Core.task mapGetD
  dsimp only
  rw [mapGet_mapSet_self]
  rfl

end Sys2Proof.Machine
end

