-- ==== Sys2Proof/Laws/Schedule.lean ====
section
/-! SUPPORT. What a placement and a steal leave. -/

-- One theorem at a time: the package compiles as one text, and a thread for each open proof asks for a stack of its own.
set_option Elab.async false

namespace Sys2Proof.Machine

theorem most_fold (n : Nat → Nat) (G : Option Nat → Nat → Option Nat) (g0 : ∀ v, G none v = if 2 ≤ n v then some v else none)
    (g1 : ∀ u v, G (some u) v = if n u < n v then some v else some u) (L : List Nat) (v : Nat) (hv : v ∈ L) (h2 : 2 ≤ n v)
    (h : ∀ u ∈ L, u ≠ v → n u < n v) : L.foldl G none = some v := by
  have key : ∀ (L : List Nat) (a : Option Nat), (∀ u ∈ L, u ≠ v → n u < n v) → (∀ u, a = some u → u ≠ v → n u < n v) → (v ∈ L ∨ a = some v) →
      L.foldl G a = some v := by
    intro L
    induction L with
    | nil => intro a _ _ h; rcases h with h | h; cases h; exact h
    | cons d L ih =>
      intro a h1 h2 h3
      refine ih _ (fun d hd => h1 d (List.mem_cons_of_mem _ hd)) ?_ ?_
      · intro y hy hne
        cases a with
        | none =>
          rw [g0] at hy
          split at hy
          · cases hy; exact h1 _ List.mem_cons_self hne
          · cases hy
        | some q =>
          rw [g1] at hy
          split at hy
          · cases hy; exact h1 _ List.mem_cons_self hne
          · cases hy; exact h2 _ rfl hne
      · rcases h3 with h3 | h3
        · rcases List.mem_cons.1 h3 with rfl | h3
          · right
            cases a with
            | none => rw [g0, if_pos (by assumption)]
            | some q =>
              rw [g1]
              by_cases hq : q = v
              · subst hq; simp
              · rw [if_pos (h2 _ rfl hq)]
          · exact .inl h3
        · right
          subst h3
          rw [g1]
          by_cases hq : d = v
          · subst hq; simp
          · rw [if_neg]
            have := h1 d List.mem_cons_self hq
            omega
  exact key L none h (fun d hd => nomatch hd) (.inl hv)

theorem none_fold (n : Nat → Nat) (G : Option Nat → Nat → Option Nat) (g0 : ∀ v, G none v = if 2 ≤ n v then some v else none)
    (L : List Nat) (h : ∀ u ∈ L, n u < 2) : L.foldl G none = none := by
  induction L with
  | nil => rfl
  | cons a L ih =>
    rw [List.foldl_cons, g0, if_neg (by have := h a List.mem_cons_self; omega)]
    exact ih fun u hu => h u (List.mem_cons_of_mem _ hu)

theorem cluster_upd (s : State) (i : Nat) (f : Cluster → Cluster) (j : Nat) : (s.updCluster i f).cluster j = if j = i then f (s.cluster i) else s.cluster j := by
  unfold State.updCluster State.cluster mapGetD
  rw [mapGet_mapSet]
  split <;> rfl

theorem slots_fold (F : Core × List Nat → Nat × Nat → Core) (G : Core × List Nat → Nat × Nat → Nat) (L : List (Nat × Nat)) (r : Core × List Nat) :
    (L.foldl (fun r p => (F r p, r.2 ++ [G r p])) r).2.length = r.2.length + L.length := by
  induction L generalizing r with
  | nil => rfl
  | cons a L ih => rw [List.foldl_cons, ih]; simp; omega

theorem headD_mem (l : List Nat) (h : l ≠ []) : l.headD 0 ∈ l := by
  cases l with
  | nil => exact absurd rfl h
  | cons a l => exact List.mem_cons_self

theorem place_task (m : State) (q : QTask) (c n : Nat) (pipes : Option (List Nat)) (hr : q.restore = none) (v : Variant) (d : Need) (k : Core) (g : BitVec 16)
    (bs tiles accs : List Nat) (sp : Nat) (l : Launch) (hl : l = m.launch q.launch) (hv : m.variantOf l n = some v) (hd : d = v.needs) (hk : (m.core c).takeGen = (k, g))
    (h1 : k.choosePipes d.vg pipes d.bands = some bs) (h0 : bs ≠ []) (h2 : lowestFree k.tileUsed 8 d.tg = some tiles) (h3 : lowestFree k.accUsed 32 d.na = some accs)
    (h4 : (if d.sp = 0 then some 0 else freeRun (k.spUsed none) d.sp) = some sp) : ∃ j x, mapGet ((m.placeTask q c n pipes).core c).tasks j = some x ∧ j ∈ x.slots ∧ x.launch = q.launch ∧
            x.number = q.number ∧ x.variant = n ∧ x.nbands = v.nbands ∧ x.gen = g ∧ x.tileMap = tiles ∧ x.accMap = accs ∧
            x.spBase = 4096 * sp ∧ x.par = l.par ∧ x.kvec = l.kvec ∧ x.saved = false ∧ x.request = none ∧ x.state = .placed ∧
            x.tlbase = l.tlbaseOf v (m.kernelOf l).tlstride q.number ∧ (m.placeTask q c n pipes).clusters = m.clusters := by
  subst hl hd
  unfold State.placeTask
  dsimp only
  rw [hv]
  dsimp only
  rw [hk]
  dsimp only
  rw [h1, h2, h3, h4]
  dsimp only
  rw [hr]
  simp only [Option.isSome_none, Bool.false_eq_true, if_false]
  have hfold := slots_fold
    (fun r p => (r.1.addBand p.1 v.needs.vg fun slot => { Band.fresh with task := r.2.headD slot, index := p.2, threads := startThreads (m.launch q.launch).threads p.2 ((m.object (m.launch q.launch).object).va + BitVec.ofNat 64 v.code) }).1)
    (fun r p => (r.1.addBand p.1 v.needs.vg fun slot => { Band.fresh with task := r.2.headD slot, index := p.2, threads := startThreads (m.launch q.launch).threads p.2 ((m.object (m.launch q.launch).object).va + BitVec.ofNat 64 v.code) }).2) bs.zipIdx (k, [])
  generalize bs.zipIdx.foldl _ (k, []) = r at hfold ⊢
  have hne : r.2 ≠ [] := by
    intro h
    rw [h] at hfold
    simp only [List.length_nil, List.length_zipIdx, Nat.zero_add] at hfold
    exact h0 (List.length_eq_zero_iff.1 hfold.symm)
  refine Exists.intro (r.2.headD 0) (Exists.intro ?x (And.intro ?a (And.intro ?b ?c)))
  case a =>
    unfold State.selfInvalidate
    rw [State.core_updCore, if_pos rfl]
    refine (congrArg (mapGet · (r.2.headD 0)) (congrArg Core.tasks (State.core_setCore _ _ _ _))).trans ?_
    rw [if_pos rfl]
    rw [tasks_startEntries]
    exact mapGet_mapSet_self _ _ _
  case b => exact headD_mem _ hne
  case c => exact ⟨rfl, rfl, rfl, rfl, rfl, rfl, rfl, rfl, rfl, rfl, rfl, rfl, rfl, rfl, rfl⟩

theorem cluster_count (s : State) (a b c d : Nat) : (s.count a b c).cluster d = s.cluster d := rfl

theorem cluster_all (s : State) (f : Nat → Cluster → Cluster) (d : Nat) (y : QTask) (h : y ∈ (({ s with clusters := mapAll s.clusters f } : State).cluster d).queue) :
    ∃ x, mapGet s.clusters d = some x ∧ y ∈ (f d x).queue := by
  unfold State.cluster mapGetD at h
  rw [mapGet_mapAll] at h
  cases hx : mapGet s.clusters d with
  | none => rw [hx] at h; cases h
  | some x => rw [hx] at h; exact ⟨x, rfl, h⟩

theorem mem_markHead (u : Nat) (L : List QTask) (y : QTask) (h : y ∈ markHead u L) : ∃ z ∈ L, y.launch = z.launch ∧ y.number = z.number ∧ y.restore = z.restore := by
  cases L with
  | nil => cases h
  | cons a L =>
    rcases List.mem_cons.1 h with rfl | h
    · exact ⟨a, List.mem_cons_self, rfl, rfl, rfl⟩
    · obtain ⟨z, hz, rfl⟩ := List.mem_map.1 h
      exact ⟨z, List.mem_cons_of_mem _ hz, rfl, rfl, rfl⟩

end Sys2Proof.Machine
end

