-- ==== Sys2Proof/Laws/Transfer.lean ====
section
/-! SUPPORT. What the transfers between memory, the scratchpad, tiles and accumulators move. -/

-- One theorem at a time: the package compiles as one text, and a thread for each open proof asks for a stack of its own.
set_option Elab.async false

namespace Sys2Proof.Machine

theorem start_moved (m : State) (c : Nat) (F : Core → Core) (x : Ctx) (hx : x.core = c) (lanes : Word) (flag : Option Nat) (kind : FKind)
    (hb : (F (m.core c)).bands = (m.core c).bands) (hn : (F (m.core c)).nextOp = (m.core c).nextOp) :
    let t := (m.updCore c F).start x lanes flag kind
    (∀ d, d ≠ c → t.core d = m.core d) ∧ t.outside = m.outside ∧
      t.core c = { F (m.core c) with
        bands := ((m.flagged c x.slot flag).core c).bands
        flights := mapSet (F (m.core c)).flights (m.core c).nextOp ⟨x.slot, x.gen, lanes, flag, kind⟩
        nextOp := (m.core c).nextOp + 1 } := by
  subst hx
  intro t
  have ht : t = ((m.updCore x.core F).flagged x.core x.slot flag).launchFlight x.core ⟨x.slot, x.gen, lanes, flag, kind⟩ := State.start_eq _ _ _ _ _
  rw [ht, State.launchFlight]
  refine ⟨fun d hd => ?_, ?_, ?_⟩
  · rw [State.core_updCore, if_neg hd]
    cases flag with
    | none => rw [State.flagged, State.core_updCore, if_neg hd]
    | some f => rw [State.flagged, State.addFlag, State.updBand, State.core_updCore, if_neg hd, State.core_updCore, if_neg hd]
  · simp
  · rw [State.core_updCore_self]
    cases flag with
    | none => rw [State.flagged, State.flagged, State.core_updCore_self, hn, ← hb]
    | some f =>
      rw [State.flagged, State.flagged, State.addFlag, State.addFlag, State.updBand, State.updBand, State.core_updCore_self, State.core_updCore_self, State.core_updCore_self]
      simp only [Core.updBand, hb, hn]

theorem loadBytes_held (s : State) (c pd : Nat) (t : Trans) (n : Nat) (hm : t.mty ≤ 2) (hh : s.holds c t n) :
    s.loadBytes c pd t n false = (s, 0, (List.range n).map fun j => s.byteAt c (s.placeOf t + j)) := by
  have hrem : s.isRemote t = false := by
    have : t.mty ≠ 4 := by omega
    simp [State.isRemote, this]
  have hc : State.cached t = true := by simp [State.cached, hm]
  obtain ⟨h1, l, hl, hhas⟩ := hh
  have hplace : s.placeOf t / 128 = (s.buf t.buf).place t.off / 128 := by rw [State.placeOf]; omega
  have hmod : s.placeOf t % 128 = t.off % 128 := by rw [State.placeOf]; omega
  rw [hplace] at hl
  have hbytes : getBytes l.data (t.off % 128) n = (List.range n).map fun j => s.byteAt c (s.placeOf t + j) := by
    rw [getBytes, bytesOf_eq]
    refine List.map_congr_left fun j hj => ?_
    rw [List.mem_range] at hj
    rw [byteOf_div]
    unfold State.byteAt
    have e1 : (s.placeOf t + j) / 128 = (s.buf t.buf).place t.off / 128 := by rw [← hplace]; omega
    have e2 : (s.placeOf t + j) % 128 = t.off % 128 + j := by omega
    rw [e1, hl]
    dsimp only
    rw [e2, if_pos, getBytes_one, List.headD_cons]
    simp only [L1Line.has, Bool.or_eq_true, List.all_eq_true, List.mem_range] at hhas ⊢
    rcases hhas with hh | hh
    · exact .inl hh
    · exact .inr fun x hx => by rw [show x = 0 by omega, Nat.add_zero]; exact hh j hj
  rw [State.loadBytes, hrem, if_neg (by simp), hc, if_neg (by simp), if_neg (by simp), State.l1Load]
  rw [hl]
  dsimp only
  rw [hhas, if_pos rfl, hbytes]

/-- The bytes of 64 at a place, word by word. -/
def State.held64 (s : State) (c : Nat) (t : Trans) : List Byte :=
  (List.range 8).flatMap fun n => (List.range 8).map fun j => s.byteAt c (s.placeOf (t.plus (8 * n)) + j)

theorem fold_held {α : Type} (s : State) (L : List α) (g : α → List Byte) (f : State × Nat × List Byte → α → State × Nat × List Byte)
    (h : ∀ a ∈ L, ∀ bs, f (s, 0, bs) a = (s, 0, bs ++ g a)) (bs : List Byte) : L.foldl f (s, 0, bs) = (s, 0, bs ++ L.flatMap g) := by
  induction L generalizing bs with
  | nil => simp
  | cons a L ih =>
    rw [List.foldl_cons, h a (List.mem_cons_self ..), ih fun b hb => h b (List.mem_cons_of_mem _ hb)]
    simp [List.append_assoc]

theorem load64_held (s : State) (c pd : Nat) (t : Trans) (hm : t.mty ≤ 2) (hh : ∀ n < 8, s.holds c (t.plus (8 * n)) 8) :
    s.load64 c pd t = (s, 0, s.held64 c t) := by
  unfold State.load64
  refine (fold_held s (List.range 8) (fun n => (List.range 8).map fun j => s.byteAt c (s.placeOf (t.plus (8 * n)) + j)) _ ?_ []).trans ?_
  · intro n hn bs
    have : s.loadBytes c pd { t with off := t.off + 8 * n } 8 false = _ :=
      loadBytes_held s c pd (t.plus (8 * n)) 8 hm (hh n (List.mem_range.1 hn))
    exact congrArg (fun y : State × Nat × List Byte => (y.1, y.2.1, bs ++ y.2.2)) this
  · rw [List.nil_append]; rfl

theorem filter_rows {α : Type} (N : Nat) (g : Nat → List (Nat × α)) (h : ∀ r, ∀ p ∈ g r, p.1 = r) (r : Nat) (hr : r < N) :
    ((List.range N).flatMap g).filter (fun p => p.1 == r) = g r := by
  induction N with
  | zero => omega
  | succ n ih =>
    rw [List.range_succ, List.flatMap_append, List.filter_append, List.flatMap_singleton]
    by_cases hn : r = n
    · subst hn
      rw [List.filter_eq_nil_iff.2, List.nil_append, List.filter_eq_self.2]
      · intro p hp; rw [h r p hp]; exact beq_self_eq_true r
      · intro p hp
        obtain ⟨a, ha, hp⟩ := List.mem_flatMap.1 hp
        rw [h a p hp]
        have := List.mem_range.1 ha
        simp; omega
    · rw [ih (by omega), List.filter_eq_nil_iff.2 fun p hp => ?_, List.append_nil]
      rw [h n p hp]; simp; omega

theorem getD_flatMap {α : Type} (n N : Nat) (g : Nat → List α) (h : ∀ i, (g i).length = n) (d : α) (i j : Nat) (hi : i < N) (hj : j < n) :
    ((List.range N).flatMap g).getD (n * i + j) d = (g i).getD j d := by
  have hlen : ∀ N, ((List.range N).flatMap g).length = n * N := by
    intro N
    induction N with
    | zero => simp
    | succ k ih => rw [List.range_succ, List.flatMap_append, List.length_append, ih, List.flatMap_singleton, h, Nat.mul_succ]
  induction N with
  | zero => omega
  | succ k ih =>
    rw [List.range_succ, List.flatMap_append, List.flatMap_singleton]
    by_cases hk : i < k
    · have : n * i + j < n * k := by
        calc n * i + j < n * i + n := by omega
          _ = n * (i + 1) := by rw [Nat.mul_succ]
          _ ≤ n * k := Nat.mul_le_mul_left _ (by omega)
      rw [List.getD_append _ _ _ _ (by rw [hlen]; exact this)]
      exact ih hk
    · have : i = k := by omega
      subst this
      rw [List.getD_append_right _ _ _ _ (by rw [hlen]; omega), hlen]
      congr 1; omega

theorem held64_getD (s : State) (c : Nat) (t : Machine.Trans) (j : Nat) (hj : j < 64) :
    (s.held64 c t).getD j 0 = s.byteAt c (s.placeOf (t.plus (8 * (j / 8))) + j % 8) := by
  have : j = 8 * (j / 8) + j % 8 := by omega
  conv_lhs => rw [this]
  unfold State.held64
  rw [getD_flatMap 8 8 _ (fun i => by simp) 0 (j / 8) (j % 8) (by omega) (by omega), List.getD_eq_getElem _ _ (by simp; omega)]
  simp

theorem held64_length (s : State) (c : Nat) (t : Machine.Trans) : (s.held64 c t).length = 64 := by
  unfold State.held64; simp

theorem holds_updCore (m : State) (c : Nat) (F : Core → Core) (h : (F (m.core c)).l1 = (m.core c).l1) (t : Machine.Trans) (n : Nat) :
    (m.updCore c F).holds c t n ↔ m.holds c t n := by
  have hf : ((m.updCore c F).core c).l1Find = (m.core c).l1Find := by
    funext ln; rw [State.core_updCore_self]; unfold Core.l1Find; rw [h]
  unfold State.holds
  rw [hf]; rfl

theorem byteAt_updCore (m : State) (c : Nat) (F : Core → Core) (h : (F (m.core c)).l1 = (m.core c).l1) (pa : Nat) :
    (m.updCore c F).byteAt c pa = m.byteAt c pa := by
  have hf : ((m.updCore c F).core c).l1Find = (m.core c).l1Find := by
    funext ln; rw [State.core_updCore_self]; unfold Core.l1Find; rw [h]
  unfold State.byteAt
  rw [hf]; rfl

theorem held64_updCore (m : State) (c : Nat) (F : Core → Core) (h : (F (m.core c)).l1 = (m.core c).l1) (t : Machine.Trans) :
    (m.updCore c F).held64 c t = m.held64 c t := by
  unfold State.held64
  simp only [byteAt_updCore m c F h]
  rfl

/-- The row's parts with their translations. -/
def rowParts (w : Xfer) (tr : Nat × Nat × BitVec 64 → Machine.Trans) (r : Nat) : List (Nat × Nat × BitVec 64 × Machine.Trans) :=
  (List.range (w.rowBytes / 64)).map fun i => (r, 64 * i, w.rowVa r + BitVec.ofNat 64 (64 * i), tr (r, 64 * i, w.rowVa r + BitVec.ofNat 64 (64 * i)))

def allParts (w : Xfer) (tr : Nat × Nat × BitVec 64 → Machine.Trans) : List (Nat × Nat × BitVec 64 × Machine.Trans) :=
  w.parts.map fun p => (p.1, p.2.1, p.2.2, tr p)

theorem allParts_eq (w : Xfer) (tr : Nat × Nat × BitVec 64 → Machine.Trans) : allParts w tr = (List.range w.rows).flatMap (rowParts w tr) := by
  unfold allParts Xfer.parts rowParts
  rw [List.map_flatMap]
  simp only [List.map_map]
  rfl

theorem filter_allParts (w : Xfer) (tr : Nat × Nat × BitVec 64 → Machine.Trans) (r : Nat) (hr : r < w.rows) :
    (allParts w tr).filter (fun p => p.1 == r) = rowParts w tr r := by
  rw [allParts_eq]
  refine filter_rows _ _ ?_ r hr
  intro r p hp
  unfold rowParts at hp
  obtain ⟨i, -, rfl⟩ := List.mem_map.1 hp
  rfl

theorem mem_parts (w : Xfer) (p : Nat × Nat × BitVec 64) : p ∈ w.parts ↔ ∃ r < w.rows, ∃ i < w.rowBytes / 64, p = (r, 64 * i, w.rowVa r + BitVec.ofNat 64 (64 * i)) := by
  unfold Xfer.parts
  simp only [List.mem_flatMap, List.mem_range, List.mem_map]
  constructor
  · rintro ⟨r, hr, i, hi, rfl⟩; exact ⟨r, hr, i, hi, rfl⟩
  · rintro ⟨r, hr, i, hi, rfl⟩; exact ⟨r, hr, i, hi, rfl⟩

/-- The number that a row's words are. -/
def rowNum (m : State) (c : Nat) (w : Xfer) (tr : Nat × Nat × BitVec 64 → Machine.Trans) (r : Nat) : Nat :=
  ofBytes ((rowParts w tr r).flatMap fun p => m.held64 c p.2.2.2)

theorem rowNum_loaded (m : State) (c : Nat) (w : Xfer) (tr : Nat × Nat × BitVec 64 → Machine.Trans) (r : Nat) (v : Nat)
    (hv : v = rowNum m c w tr r % 256 ^ w.rowBytes) : m.rowLoaded c w tr r v := by
  intro p hp hr j hj
  obtain ⟨r', -, i, hi, rfl⟩ := (mem_parts w p).1 hp
  simp only at hr
  subst hr
  rw [hv]
  have hlt : 64 * i + j < w.rowBytes := by omega
  have := byteOf_mod (v := rowNum m c w tr r') hlt
  rw [byteOf, byteOf] at this
  rw [this]
  have e := byteOf_ofBytes ((rowParts w tr r').flatMap fun p => m.held64 c p.2.2.2) (64 * i + j)
  rw [byteOf] at e
  rw [rowNum, e]
  unfold rowParts
  rw [List.flatMap_map, getD_flatMap 64 _ _ (fun i => held64_length _ _ _) 0 i j hi hj, held64_getD _ _ _ _ hj]

/-- What a load does to a core with a row. -/
def putRow (w : Xfer) (task : Task) (tr : Nat × Nat × BitVec 64 → Machine.Trans) (v : Nat → Nat) (r : Nat) (k : Core) : Core :=
  match w.op with
  | .tld => k.putTileRow task w.reg r (match (allParts w tr).find? fun p => p.1 == r with
      | some p => if w.fmt = 0 then rawTag p.2.2.2 p.2.2.1 else w.fmt
      | none => w.fmt) (BitVec.ofNat 512 (v r))
  | .ald => k.putAccRow task w.reg r (BitVec.ofNat 2048 (v r))
  | .tst | .ast => k

theorem putRow_l1 (w : Xfer) (task : Task) (tr : Nat × Nat × BitVec 64 → Machine.Trans) (v : Nat → Nat) (r : Nat) (k : Core) :
    (putRow w task tr v r k).l1 = k.l1 := by unfold putRow; cases w.op <;> rfl

theorem loadRow_held (w : Xfer) (m : State) (c pd : Nat) (task : Task) (tr : Nat × Nat × BitVec 64 → Machine.Trans) (r : Nat) (hr : r < w.rows)
    (h : ∀ p ∈ w.parts, (tr p).mty ≤ 2 ∧ ∀ n < 8, m.holds c ((tr p).plus (8 * n)) 8) :
    w.loadRow c pd task m r (allParts w tr) = (m.updCore c (putRow w task tr (rowNum m c w tr) r), 0) := by
  unfold Xfer.loadRow
  rw [filter_allParts _ _ _ hr]
  have hf : ∀ f : State × Nat × List Byte → Nat × Nat × BitVec 64 × Machine.Trans → State × Nat × List Byte, (∀ p ∈ rowParts w tr r, ∀ bs, f (m, 0, bs) p = (m, 0, bs ++ m.held64 c p.2.2.2)) →
      (rowParts w tr r).foldl f (m, 0, []) = (m, 0, (rowParts w tr r).flatMap fun p => m.held64 c p.2.2.2) := fun f h' =>
    by
      have := fold_held m (rowParts w tr r) (fun p => m.held64 c p.2.2.2) f h' []
      rw [List.nil_append] at this
      exact this
  rw [hf]
  · simp only
    refine Prod.ext ?_ rfl
    dsimp only
    refine congrArg (m.updCore c) ?_
    funext k
    unfold putRow rowNum
    cases w.op
    · dsimp only
      all_goals congr 1
    · rfl
    · rfl
    · rfl
  · intro p hp bs
    obtain ⟨i, hi, rfl⟩ := List.mem_map.1 hp
    have hh := h (r, 64 * i, w.rowVa r + BitVec.ofNat 64 (64 * i)) ((mem_parts _ _).2 ⟨r, hr, i, List.mem_range.1 hi, rfl⟩)
    simp only
    rw [load64_held m c pd _ hh.1 hh.2]

theorem rowNum_updCore (m : State) (c : Nat) (F : Core → Core) (h : (F (m.core c)).l1 = (m.core c).l1) (w : Xfer)
    (tr : Nat × Nat × BitVec 64 → Machine.Trans) : rowNum (m.updCore c F) c w tr = rowNum m c w tr := by
  funext r
  unfold rowNum
  simp only [held64_updCore m c F h]

theorem loadRows_held (w : Xfer) (m : State) (c pd : Nat) (task : Task) (tr : Nat × Nat × BitVec 64 → Machine.Trans) (hn : 0 < w.rows)
    (h : ∀ p ∈ w.parts, (tr p).mty ≤ 2 ∧ ∀ n < 8, m.holds c ((tr p).plus (8 * n)) 8) :
    (List.range w.rows).foldl (fun (a : State × Nat) r =>
      let b := w.loadRow c pd task a.1 r (allParts w tr)
      (b.1, if a.2 = 0 then b.2 else a.2)) (m, 0) =
    (m.updCore c (fun k => (List.range w.rows).foldl (fun k r => putRow w task tr (rowNum m c w tr) r k) k), 0) := by
  have step : ∀ (L : List Nat) (G : Core → Core), (∀ r ∈ L, r < w.rows) → (∀ k, (G k).l1 = k.l1) →
      L.foldl (fun (a : State × Nat) r =>
        let b := w.loadRow c pd task a.1 r (allParts w tr)
        (b.1, if a.2 = 0 then b.2 else a.2)) (m.updCore c G, 0) =
      (m.updCore c (fun k => L.foldl (fun k r => putRow w task tr (rowNum m c w tr) r k) (G k)), 0) := by
    intro L
    induction L with
    | nil => intro G _ _; rfl
    | cons r L ih =>
      intro G hL hG
      rw [List.foldl_cons]
      dsimp only
      rw [loadRow_held w _ c pd task tr r (hL r (List.mem_cons_self ..)) fun p hp => ⟨(h p hp).1, fun n hn =>
        (holds_updCore m c G (hG _) _ _).2 ((h p hp).2 n hn)⟩, rowNum_updCore m c G (hG _), State.updCore_updCore, if_pos rfl]
      rw [ih (fun k => putRow w task tr (rowNum m c w tr) r (G k)) (fun a ha => hL a (List.mem_cons_of_mem _ ha))
        (fun k => (putRow_l1 _ _ _ _ _ _).trans (hG k))]
      rfl
  obtain ⟨n, hn⟩ := Nat.exists_eq_succ_of_ne_zero (Nat.pos_iff_ne_zero.mp hn)
  have hL : List.range w.rows = 0 :: (List.range n).map Nat.succ := by rw [hn]; exact List.range_succ_eq_map
  rw [hL, List.foldl_cons]
  dsimp only
  rw [loadRow_held w m c pd task tr 0 (by omega) h, if_pos rfl, step _ _ _ (putRow_l1 w task tr _ 0)]
  · rfl
  · intro r hr
    obtain ⟨a, ha, rfl⟩ := List.mem_map.1 hr
    have := List.mem_range.1 ha
    omega

theorem SameButStores.trans {a b d : State} (h : SameButStores a b) (g : SameButStores b d) : SameButStores a d :=
  ⟨fun c => (g.bands c).trans (h.bands c), fun c => (g.table c).trans (h.table c), fun c => (g.tasks c).trans (h.tasks c),
    fun c => ⟨(g.matrix c).1.trans (h.matrix c).1, (g.matrix c).2.1.trans (h.matrix c).2.1, (g.matrix c).2.2.trans (h.matrix c).2.2⟩,
    fun c => ⟨(g.files c).1.trans (h.files c).1, (g.files c).2.1.trans (h.files c).2.1, (g.files c).2.2.trans (h.files c).2.2⟩,
    g.outside.trans h.outside⟩

theorem SameButStores.storeBytes (s : State) (c slot : Nat) (lanes : Word) (pd : Nat) (t : Machine.Trans) (bs : List Byte) :
    SameButStores s (s.storeBytes c slot lanes pd t bs) where
  bands := State.part_storeBytes (·.bands) (fun k a b c d e f => (Core.stored_parts k a b c d e f).1) s _ _ _ _ _ _
  table := State.part_storeBytes (·.table) (fun k a b c d e f => (Core.stored_parts k a b c d e f).2.1) s _ _ _ _ _ _
  tasks := State.part_storeBytes (·.tasks) (fun k a b c d e f => (Core.stored_parts k a b c d e f).2.2.1) s _ _ _ _ _ _
  matrix d := ⟨State.part_storeBytes (·.accs) (fun k a b c d e f => (Core.stored_parts k a b c d e f).2.2.2.1) s _ _ _ _ _ _ d,
    State.part_storeBytes (·.accStat) (fun k a b c d e f => (Core.stored_parts k a b c d e f).2.2.2.2.1) s _ _ _ _ _ _ d,
    State.part_storeBytes (·.tiles) (fun k a b c d e f => (Core.stored_parts k a b c d e f).2.2.2.2.2.1) s _ _ _ _ _ _ d⟩
  files d := ⟨State.part_storeBytes (·.vrf) (fun k a b c d e f => (Core.stored_parts k a b c d e f).2.2.2.2.2.2.1) s _ _ _ _ _ _ d,
    State.part_storeBytes (·.srf) (fun k a b c d e f => (Core.stored_parts k a b c d e f).2.2.2.2.2.2.2.1) s _ _ _ _ _ _ d,
    State.part_storeBytes (·.prf) (fun k a b c d e f => (Core.stored_parts k a b c d e f).2.2.2.2.2.2.2.2.1) s _ _ _ _ _ _ d⟩
  outside := outside_storeBytes _ _ _ _ _ _ _

theorem SameButStores.threads {s m : State} (h : SameButStores s m) : KeepsThreads s m where
  table := h.table
  threads d b := by rw [Core.band, Core.band, h.bands]
  frozen d b := by rw [Core.band, Core.band, h.bands]

/-- What the stores of a transfer's parts leave. -/
theorem storeRows_spec (w : Xfer) (m : State) (c slot pd : Nat) (lanes : Word) (k : Core) (task : Task)
    (tr : Nat × Nat × BitVec 64 → Machine.Trans) (hop : w.op = .tst ∨ w.op = .ast)
    (h : ∀ p ∈ w.parts, (tr p).mty ≤ 2 ∧ (tr p).off % 128 + 64 ≤ 128) (t : State)
    (ht : t = (List.range w.rows).foldl (fun s r => w.storeRow c slot pd lanes k task s r (allParts w tr)) m) :
    (∀ d pa, t.byteAt d pa = if d = c then m.putParts w k task tr pa (m.byteAt d pa) else m.byteAt d pa) ∧
      (∀ pa, t.homeByte pa = m.homeByte pa) ∧ (∀ d gen a, t.spByte d gen a = m.spByte d gen a) ∧ t.outside = m.outside ∧
      KeepsSystem m t ∧ KeepsThreads m t ∧ KeepsRegs m t c slot [] ∧ (∀ d, (t.core d).bands = (m.core d).bands) ∧
      (t.core c).nextOp = (m.core c).nextOp := by
  have hflat : t = w.parts.foldl (fun s p => s.storeBytes c slot lanes pd (tr p) (sliceN (w.rowBytesOf k task p.1) p.2.1 64)) m := by
    rw [ht]
    unfold Xfer.parts
    rw [List.foldl_flatMap]
    have hcongr : ∀ (L : List Nat) (f g : State → Nat → State) (s : State), (∀ s, ∀ r ∈ L, f s r = g s r) → L.foldl f s = L.foldl g s := by
      intro L f g
      induction L with
      | nil => intro _ _; rfl
      | cons a L ih => intro s h; rw [List.foldl_cons, List.foldl_cons, h s a (List.mem_cons_self ..)]; exact ih _ fun s r hr => h s r (List.mem_cons_of_mem _ hr)
    refine hcongr _ _ _ _ fun s r hr => ?_
    unfold Xfer.storeRow
    dsimp only
    rw [filter_allParts _ _ _ (List.mem_range.1 hr), rowParts, List.foldl_map, List.foldl_map]
    rcases hop with e | e <;> simp [Xfer.rowBytesOf, e]
  have hlen : ∀ p ∈ w.parts, (sliceN (w.rowBytesOf k task p.1) p.2.1 64).length = 64 := by
    intro p hp
    obtain ⟨r, -, i, hi, rfl⟩ := (mem_parts w p).1 hp
    refine length_sliceN _ _ _ ?_
    unfold Xfer.rowBytes at hi
    unfold Xfer.rowBytesOf
    rcases hop with e | e <;> rw [e] at hi ⊢ <;> simp [bytesOf_length] at hi ⊢ <;> omega
  clear ht
  have key : ∀ (L : List (Nat × Nat × BitVec 64)) (m t : State), (∀ p ∈ L, (tr p).mty ≤ 2 ∧ (tr p).off % 128 + 64 ≤ 128 ∧
      (sliceN (w.rowBytesOf k task p.1) p.2.1 64).length = 64) →
      t = L.foldl (fun s p => s.storeBytes c slot lanes pd (tr p) (sliceN (w.rowBytesOf k task p.1) p.2.1 64)) m →
      (∀ d pa, t.byteAt d pa = if d = c then L.foldl (fun b p => putByte (m.placeOf (tr p)) (sliceN (w.rowBytesOf k task p.1) p.2.1 64) pa b) (m.byteAt d pa)
        else m.byteAt d pa) ∧
      (∀ pa, t.homeByte pa = m.homeByte pa) ∧ (∀ d gen a, t.spByte d gen a = m.spByte d gen a) ∧ SameButStores m t ∧
      (t.core c).nextOp = (m.core c).nextOp := by
    intro L
    induction L with
    | nil => intro m t _ ht; subst ht; exact ⟨fun d pa => by split <;> rfl, fun _ => rfl, fun _ _ _ => rfl, SameButStores.refl _, rfl⟩
    | cons p L ih =>
      intro m t hL ht
      rw [List.foldl_cons] at ht
      obtain ⟨e1, e2, e3, e4, e5⟩ := ih _ t (fun a ha => hL a (List.mem_cons_of_mem _ ha)) ht
      obtain ⟨h1, h2, h3⟩ := hL p (List.mem_cons_self ..)
      have hsame := SameButStores.storeBytes m c slot lanes pd (tr p) (sliceN (w.rowBytesOf k task p.1) p.2.1 64)
      have hb := State.byteAt_storeBytes m c slot lanes pd (tr p) (sliceN (w.rowBytesOf k task p.1) p.2.1 64) h1 (by rw [h3]; exact h2)
      have hs := spByte_storeBytes m c slot lanes pd (tr p) (sliceN (w.rowBytesOf k task p.1) p.2.1 64) h1
      have hh : ∀ pa, (m.storeBytes c slot lanes pd (tr p) (sliceN (w.rowBytesOf k task p.1) p.2.1 64)).homeByte pa = m.homeByte pa := by
        intro pa; rw [State.storeBytes_eq]; rfl
      have hn : ((m.storeBytes c slot lanes pd (tr p) (sliceN (w.rowBytesOf k task p.1) p.2.1 64)).core c).nextOp = (m.core c).nextOp := by
        rw [State.storeBytes_eq, State.core_updCore_self]
        exact (Core.stored_parts _ _ _ _ _ _ _).2.2.2.2.2.2.2.2.2.2.2.2.2
      generalize m.storeBytes c slot lanes pd (tr p) (sliceN (w.rowBytesOf k task p.1) p.2.1 64) = m' at *
      have hp : m'.placeOf = m.placeOf := by
        have := congrArg (fun x : State => x.buf) hsame.outside
        have hbuf : m'.buf = m.buf := this
        funext t; rw [State.placeOf, State.placeOf, hbuf]
      refine ⟨fun d pa => ?_, fun pa => (e2 pa).trans (hh pa), fun d g a => (e3 d g a).trans (hs d g a), hsame.trans e4, e5.trans hn⟩
      rw [e1, hp, hb]
      split
      · rw [List.foldl_cons]
      · rfl
  obtain ⟨e1, e2, e3, e4, e5⟩ := key w.parts m t (fun p hp => ⟨(h p hp).1, (h p hp).2, hlen p hp⟩) hflat
  exact ⟨e1, e2, e3, e4.outside, e4.system, e4.threads, e4.regs _ _ _, e4.bands, e5⟩

theorem badRow_iff (w : Xfer) (t : Task) : w.badRow t = true ↔ w.bad t := by
  unfold Xfer.badRow Xfer.bad Xfer.rowSp
  simp only [Bool.or_eq_true, bne_iff_ne, Bool.and_eq_true, List.any_eq_true, List.mem_range, decide_eq_true_eq, or_assoc]

theorem staleRow_iff (w : Xfer) (k : Core) (t : Task) : ((List.range w.rows).any fun r => !w.genOk k t r) = true ↔ w.stale k t := by
  unfold Xfer.stale
  simp only [List.any_eq_true, List.mem_range, Bool.not_eq_true']

theorem lacc_eq (w : Xfer) (tr : Nat × Nat × BitVec 64 → Machine.Trans) :
    ((allParts w tr).map fun p => Xfer.lacc (p.1, p.2.1, p.2.2.1) p.2.2.2) = w.accesses tr := by
  unfold allParts Xfer.accesses
  rw [List.map_map]
  rfl

theorem transfer_cases (x : Ctx) (m : State) (w : Xfer) :
    (x.k.matBlocked x.core x.t w.set = true → transfer x m w = .hold) ∧
    (x.k.matBlocked x.core x.t w.set = false → (w.bad x.task → transfer x m w = .trap 0x05 0 w.addr) ∧
      (¬w.bad x.task → x.l.gentrap = true → w.stale x.k x.task → transfer x m w = .trap 0x04 0 0) ∧
      (¬w.bad x.task → ¬(x.l.gentrap = true ∧ w.stale x.k x.task) → (w.scratch = true → transfer x m w = .ok (w.perform x m [])) ∧
        (w.scratch = false → ∀ tr : Nat × Nat × BitVec 64 → Machine.Trans,
          (∀ p ∈ w.parts, m.lookup x.core x.pd p.2.2 (if w.op = .tst ∨ w.op = .ast then 5 else 4) = some (.ok (tr p))) →
          ((∃ p ∈ w.parts, (tr p).fmt = 9) → transfer x m w = .trap 0x06 0 w.addr) ∧
          ((∀ p ∈ w.parts, (tr p).fmt ≠ 9) → x.k.relMeets x.slot x.lanes (w.accesses tr) 64 = false →
            transfer x m w = .ok (w.perform x m (allParts w tr)))))) := by
  refine ⟨fun h => by rw [transfer, h, if_pos rfl], fun h => ⟨fun hb => ?_, fun hb hg hs => ?_, fun hb hg => ⟨fun hs => ?_, fun hs tr ht => ?_⟩⟩⟩
  · rw [transfer, h, if_neg (by simp), if_pos ((badRow_iff _ _).2 hb)]
  · rw [transfer, h, if_neg (by simp), if_neg (mt (badRow_iff _ _).1 hb), if_pos (by rw [hg, Bool.true_and]; exact (staleRow_iff _ _ _).2 hs)]
  · rw [transfer, h, if_neg (by simp), if_neg (mt (badRow_iff _ _).1 hb), if_neg (by rw [Bool.and_eq_true, staleRow_iff]; exact hg), hs, if_pos rfl]
  · have e : (if w.stores = true then accUStore else accULoad) = if w.op = .tst ∨ w.op = .ast then 5 else 4 := by
      unfold Xfer.stores; simp only [Bool.or_eq_true, beq_iff_eq]; rfl
    have hlook : (w.parts.map fun p => (p, m.lookup x.core x.pd p.2.2 (if w.stores = true then accUStore else accULoad))) =
        w.parts.map fun p => (p, some (.ok (tr p))) := by
      refine List.map_congr_left fun p hp => ?_
      rw [e, ht p hp]
    have hfm : ∀ f : (Nat × Nat × BitVec 64) × Option (Except Nat Machine.Trans) → Option (Nat × Nat × BitVec 64 × Machine.Trans),
        (∀ p, f (p, some (.ok (tr p))) = some (p.1, p.2.1, p.2.2, tr p)) →
        (w.parts.map fun p => (p, some (.ok (tr p)))).filterMap f = allParts w tr := by
      intro f hf
      unfold allParts
      rw [List.filterMap_map, ← List.filterMap_eq_map]
      exact congrArg (fun g => List.filterMap g w.parts) (funext hf)
    have hall : transfer x m w = if (allParts w tr).any fun p => p.2.2.2.fmt == 9 then .trap 0x06 0 w.addr
        else if x.k.relMeets x.slot x.lanes (w.accesses tr) 64 then .hold else .ok (w.perform x m (allParts w tr)) := by
      rw [transfer, h, if_neg (by simp), if_neg (mt (badRow_iff _ _).1 hb), if_neg (by rw [Bool.and_eq_true, staleRow_iff]; exact hg), hs, if_neg (by simp)]
      dsimp only
      rw [hlook, if_neg]
      · rw [hfm _ (fun _ => rfl), lacc_eq]
      · rw [List.any_eq_true]
        rintro ⟨p, hp, hc⟩
        obtain ⟨y, -, rfl⟩ := List.mem_map.1 hp
        simp at hc
    rw [hall]
    have hany : ((allParts w tr).any fun p => p.2.2.2.fmt == 9) = true ↔ ∃ p ∈ w.parts, (tr p).fmt = 9 := by
      unfold allParts
      simp only [List.any_map, List.any_eq_true, Function.comp, beq_iff_eq]
    refine ⟨fun h9 => if_pos (hany.2 h9), fun h9 hr => ?_⟩
    rw [if_neg (fun hc => by obtain ⟨p, hp, hc⟩ := hany.1 hc; exact h9 p hp hc), hr, if_neg (by simp)]

/-- A core once a load's rows are in place. -/
def loadedCore (w : Xfer) (task : Task) (tr : Nat × Nat × BitVec 64 → Machine.Trans) (v : Nat → Nat) (k : Core) : Core :=
  let k := (List.range w.rows).foldl (fun k r => putRow w task tr v r k) k
  if w.op = .ald then k.putStatus task w.reg 0 else k

theorem perform_load (w : Xfer) (x : Ctx) (m : State) (tr : Nat × Nat × BitVec 64 → Machine.Trans) (hs : w.scratch = false)
    (hop : w.op = .tld ∨ w.op = .ald) (hn : 0 < w.rows) (hc : (m.core x.core).clearOf x.slot (w.accesses tr) 64)
    (h : ∀ p ∈ w.parts, (tr p).mty ≤ 2 ∧ ∀ n < 8, m.holds x.core ((tr p).plus (8 * n)) 8) :
    w.perform x m (allParts w tr) = (m.updCore x.core (loadedCore w x.task tr (rowNum m x.core w tr))).start x x.lanes x.flagB
      (.xfer w.op w.reg w.granules 0) := by
  have hst : w.stores = false := by unfold Xfer.stores; rcases hop with e | e <;> rw [e] <;> rfl
  unfold Xfer.perform
  dsimp only
  rw [lacc_eq, State.sampleOlder_clear _ _ _ _ _ _ _ hc, hst, Bool.and_false, if_neg (show ¬(false = true) by simp)]
  have hm : w.move x m (allParts w tr) =
      (m.updCore x.core (fun k => (List.range w.rows).foldl (fun k r => putRow w x.task tr (rowNum m x.core w tr) r k) k), 0) := by
    unfold Xfer.move
    dsimp only
    rw [hs, if_neg (by simp), hst, if_neg (by simp)]
    exact loadRows_held w m x.core x.pd x.task tr hn h
  rw [hm]
  rcases hop with e | e
  · rw [e, if_neg (by decide)]
    unfold loadedCore
    rw [e]
    simp only [reduceCtorEq, if_false]
  · rw [e, if_pos (by decide)]
    dsimp only
    rw [State.updCore_updCore]
    unfold loadedCore
    rw [e]
    simp only [if_true]

theorem perform_store (w : Xfer) (x : Ctx) (m : State) (tr : Nat × Nat × BitVec 64 → Machine.Trans) (hs : w.scratch = false)
    (hop : w.op = .tst ∨ w.op = .ast) (hc : (m.core x.core).clearOf x.slot (w.accesses tr) 64) :
    w.perform x m (allParts w tr) =
      ((List.range w.rows).foldl (fun s r => w.storeRow x.core x.slot x.pd x.lanes (m.core x.core) x.task s r (allParts w tr)) m).start x
        x.lanes x.flagB (.xfer w.op w.reg w.granules 0) := by
  have hst : w.stores = true := by unfold Xfer.stores; rcases hop with e | e <;> rw [e] <;> rfl
  unfold Xfer.perform
  dsimp only
  rw [lacc_eq, State.sampleOlder_clear _ _ _ _ _ _ _ hc, hs, Bool.false_and, if_neg (show ¬(false = true) by simp)]
  have hm : w.move x m (allParts w tr) =
      ((List.range w.rows).foldl (fun s r => w.storeRow x.core x.slot x.pd x.lanes (m.core x.core) x.task s r (allParts w tr)) m, 0) := by
    unfold Xfer.move
    dsimp only
    rw [hs, if_neg (by simp), hst, if_pos rfl]
  rw [hm, if_neg (by rcases hop with e | e <;> rw [e] <;> decide)]

theorem perform_scratch (w : Xfer) (x : Ctx) (m : State) (hs : w.scratch = true) (hop : w.op ≠ .ald) :
    ∃ G : Core → Core, (∀ k, ∃ fl, G k = { k with flights := fl }) ∧
    w.perform x m [] = (m.updCore x.core fun k => w.moveHere (G k) x.task).start x x.lanes x.flagB (.xfer w.op w.reg w.granules 0) := by
  have hcl : (m.core x.core).clearOf x.slot [] 64 := fun f _ _ op _ => .inr fun a _ b hb => by simp at hb
  have hald : ¬((w.op == XferOp.ald) = true) := by rw [beq_iff_eq]; exact hop
  unfold Xfer.perform
  dsimp only
  rw [List.map_nil, State.sampleOlder_clear _ _ _ _ _ _ _ hcl, hs, Bool.true_and, if_neg hald]
  by_cases hst : w.stores = true
  · rw [if_pos hst]
    obtain ⟨fl, hfl⟩ : ∃ fl : Core → Map Flight, m.spSampleOlder x.core x.slot ((List.range w.rows).map fun r => (w.rowSp r, 64)) =
      m.updCore x.core fun k => { k with flights := fl k } := by
      unfold State.spSampleOlder
      exact ⟨fun k' => mapAll k'.flights _, rfl⟩
    refine ⟨fun k => { k with flights := fl k }, fun k => ⟨_, rfl⟩, ?_⟩
    unfold Xfer.move
    dsimp only
    rw [hs, if_pos rfl, hfl]
    dsimp only
    rw [State.updCore_updCore]
  · rw [if_neg hst]
    refine ⟨fun k => k, fun k => ⟨_, rfl⟩, ?_⟩
    unfold Xfer.move
    dsimp only
    rw [hs, if_pos rfl]

theorem moveHere_parts (w : Xfer) (k : Core) (task : Task) (hop : w.op = .tld ∨ w.op = .tst) :
    (w.op = .tld → w.moveHere k task = (List.range w.rows).foldl (fun k' r => k'.putTileRow task w.reg r
        (if w.fmt = 0 then (k.granuleRow task.gen (w.granule task r)).2.1 else w.fmt) (k.granuleRow task.gen (w.granule task r)).1) k) ∧
      (w.op = .tst → w.moveHere k task = { k with scratch := (List.range w.rows).foldl (fun y r =>
        mapSet y (w.granule task r) ⟨task.gen, (k.tileRow task w.reg r).2.1, (k.tileRow task w.reg r).1⟩) k.scratch }) := by
  refine ⟨fun e => ?_, fun e => ?_⟩
  · unfold Xfer.moveHere; rw [e]; rfl
  · unfold Xfer.moveHere
    rw [e]
    dsimp only
    have key : ∀ (L : List Nat) (k' : Core), L.foldl (fun (k' : Core) r => { k' with
        scratch := mapSet k'.scratch ((task.spBase + w.rowSp r) / 64) ⟨task.gen, (k.tileRow task w.reg r).2.1, (k.tileRow task w.reg r).1⟩ }) k' =
        { k' with
          scratch := L.foldl (fun y r => mapSet y (w.granule task r) ⟨task.gen, (k.tileRow task w.reg r).2.1, (k.tileRow task w.reg r).1⟩) k'.scratch } := by
      intro L
      induction L with
      | nil => intro k'; rfl
      | cons a L ih => intro k'; rw [List.foldl_cons, ih, List.foldl_cons]; rfl
    exact key _ k

theorem KeepsSystem.flag {m t : State} (hs : KeepsSystem m t) (hb : ∀ c, (t.core c).bands = (m.core c).bands) (c slot : Nat)
    (flag : Option Nat) : KeepsSystem (m.flagged c slot flag) (t.flagged c slot flag) := by
  cases flag with
  | none => exact hs
  | some f =>
    have hband : ∀ d e, ((t.addFlag c slot f).core d).band e = ((m.addFlag c slot f).core d).band e := by
      intro d e
      have hc : (t.core d).band e = (m.core d).band e := by rw [Core.band, hb]; rfl
      simp only [State.addFlag, State.updBand, State.core_updCore]
      split
      · simp only [Core.band_updBand, hb, hc]
      · exact hc
    refine ⟨fun d e => ?_, fun d => ?_, fun d => ?_⟩
    · have := hband d e
      simp only [State.flagged, this, and_self]
    · exact (State.part_updBand (·.tasks) (fun _ _ => rfl) _ _ _ _ _).trans ((hs.task d).trans
        (State.part_updBand (·.tasks) (fun _ _ => rfl) _ _ _ _ _).symm)
    · exact ⟨(State.part_updBand (·.accs) (fun _ _ => rfl) _ _ _ _ _).trans ((hs.matrix d).1.trans
        (State.part_updBand (·.accs) (fun _ _ => rfl) _ _ _ _ _).symm),
        (State.part_updBand (·.accStat) (fun _ _ => rfl) _ _ _ _ _).trans ((hs.matrix d).2.1.trans
        (State.part_updBand (·.accStat) (fun _ _ => rfl) _ _ _ _ _).symm),
        (State.part_updBand (·.tiles) (fun _ _ => rfl) _ _ _ _ _).trans ((hs.matrix d).2.2.trans
        (State.part_updBand (·.tiles) (fun _ _ => rfl) _ _ _ _ _).symm)⟩

theorem pow256 (n : Nat) : 256 ^ n = 2 ^ (8 * n) := by rw [pow_mul, show (2 : Nat) ^ 8 = 256 from rfl]

theorem mapGet_foldSet_last {α : Type} (N : Nat) (key : Nat → Nat) (val : Nat → α) (m : Map α) (r : Nat) (hr : r < N)
    (h : ∀ r' < N, key r' = key r → r' ≤ r) : mapGet ((List.range N).foldl (fun y r => mapSet y (key r) (val r)) m) (key r) = some (val r) := by
  induction N with
  | zero => omega
  | succ n ih =>
    rw [List.range_succ, List.foldl_append]
    simp only [List.foldl_cons, List.foldl_nil]
    by_cases hn : r = n
    · subst hn; exact mapGet_mapSet_self _ _ _
    · rw [mapGet_mapSet_ne _ _ fun e => by have := h n (by omega) e.symm; omega]
      exact ih (by omega) fun r' hr' e => h r' (by omega) e

theorem xferForm_exec (s : State) (i : Instr) (f : XferForm) (h : xferForm i = some f) :
    exec i s = issue i f.shape (fun x t => if f.stale x then .trap 0x04 0 0 else transfer x t (f.xfer x)) s ∧
      ∀ x, 0 < (f.xfer x).rows ∧ (f.xfer x).rows ≤ 64 ∧ ((f.xfer x).scratch = true → (f.xfer x).op = .tld ∨ (f.xfer x).op = .tst) ∧
        ((f.xfer x).op = .ald → (f.xfer x).rows = 64) := by
  have hb : ∀ w : Nat, fieldN w 26 21 + 1 ≤ 64 := fun w => by
    unfold fieldN
    have := Nat.mod_lt (w / 2 ^ 21) (show 0 < 2 ^ (26 - 21 + 1) by decide)
    omega
  cases i <;> simp only [xferForm, Option.some.injEq, reduceCtorEq] at h <;> subst h
  · exact ⟨rfl, fun x => ⟨Nat.succ_pos _, hb _, fun _ => .inl rfl, fun h => by cases h⟩⟩
  · exact ⟨rfl, fun x => ⟨Nat.succ_pos _, hb _, fun _ => .inr rfl, fun h => by cases h⟩⟩
  · refine ⟨?_, fun x => ⟨by simp [Ctx.accXfer], by simp [Ctx.accXfer], fun h => by simp [Ctx.accXfer] at h, fun _ => by simp [Ctx.accXfer]⟩⟩
    simp only [Bool.false_eq_true, if_false]; rfl
  · refine ⟨?_, fun x => ⟨by simp [Ctx.accXfer], by simp [Ctx.accXfer], fun h => by simp [Ctx.accXfer] at h, fun h => by cases h⟩⟩
    simp only [Bool.false_eq_true, if_false]; rfl

end Sys2Proof.Machine
end

