-- ==== Sys2Proof/Laws/Translate.lean ====
section
/-! SUPPORT. What the walks of page tables and the line buffers keep. -/

-- One theorem at a time: the package compiles as one text, and a thread for each open proof asks for a stack of its own.
set_option Elab.async false

namespace Sys2Proof.Machine

theorem Quiet.readLine (s : State) (c pd : Nat) (t : Machine.Trans) : Quiet s (s.readLine c pd t).1 := by
  unfold State.readLine
  dsimp only
  generalize (t.mty == 1 && _ : Bool) = rp
  split
  · split
    · exact Quiet.countAt _ _ _ _
    · have h := Quiet.fillBuf s (s.buf t.buf) ((s.buf t.buf).place (t.off / 128 * 128) / 128)
      split
      · rename_i n hn
        rw [hn] at h
        refine .iteP ?_ h
        exact h.trans (.outer rfl rfl)
      · rename_i n e _ hn
        rw [hn] at h; exact h
  · exact .refl _

theorem Quiet.table {s t : State} (h : Quiet s t) (c : Nat) : (t.core c).table = (s.core c).table := by
  have := congrArg (fun k : Core => k.table) (h.core c); exact this

theorem table_keepLine (s : State) (c : Nat) (l : ILine) (d : Nat) : ((s.keepLine c l).core d).table = (s.core d).table := by
  unfold State.keepLine
  dsimp only
  rw [State.core_updCore]; split <;> simp_all

theorem part_keepLine {β : Type} (p : Core → β) (hp : ∀ k x, p { k with ibuf := x } = p k) (s : State) (c : Nat) (l : ILine) (d : Nat) :
    p ((s.keepLine c l).core d) = p (s.core d) := by
  unfold State.keepLine
  dsimp only
  rw [State.core_updCore]
  split
  · rename_i h; subst h; exact hp _ _
  · rfl

theorem part_entry {β : Type} (p : Core → β) (hp : ∀ k x, p { k with table := x } = p k) (s : State) (c e : Nat) (f : Entry → Entry) (d : Nat) :
    p ((s.updEntry c e f).core d) = p (s.core d) := by
  unfold State.updEntry
  rw [State.core_updCore]
  split
  · rename_i h; subst h; exact hp _ _
  · rfl

end Sys2Proof.Machine
end

