-- ==== Sys2Proof/Laws/Values.lean ====
section
/-! SUPPORT. The integer functions of the machine are those of the rules, as `Safety` writes them. -/

-- One theorem at a time: the package compiles as one text, and a thread for each open proof asks for a stack of its own.
set_option Elab.async false

namespace Sys2Proof.Machine

theorem leftBy_eq {n : Nat} (a : BitVec n) (k : Nat) : shlR a k = leftBy a k := by
  unfold shlR leftBy
  split <;> split <;> first | omega | skip
  · rfl
  · apply BitVec.eq_of_toNat_eq
    simp [BitVec.toNat_shiftLeft, Nat.shiftLeft_eq]

theorem rightBy_eq {n : Nat} (a : BitVec n) (k : Nat) : shrR a k = rightBy a k := by
  unfold shrR rightBy
  split <;> split <;> first | omega | skip
  · rfl
  · apply BitVec.eq_of_toNat_eq
    have := a.isLt
    simp only [BitVec.toNat_ushiftRight, Nat.shiftRight_eq_div_pow, BitVec.toNat_ofNat]
    rw [Nat.mod_eq_of_lt (lt_of_le_of_lt (Nat.div_le_self _ _) this)]

theorem arithRightBy_eq {n : Nat} (a : BitVec n) (k : Nat) : sraR a k = arithRightBy a k := by
  unfold sraR arithRightBy
  apply BitVec.eq_of_toInt_eq
  rw [BitVec.toInt_sshiftRight, Int.shiftRight_eq_div_pow, BitVec.toInt_ofInt]
  have h1 := @BitVec.two_mul_toInt_lt n a
  have h2 := @BitVec.le_two_mul_toInt n a
  have hb : ∀ z : Int, -(2 ^ n : Int) ≤ 2 * z → 2 * z < 2 ^ n → z.bmod (2 ^ n) = z := fun z ha hb =>
    Int.bmod_eq_of_le_mul_two (by push_cast; omega) (by push_cast; omega)
  by_cases h : n ≤ k
  · have hk : ¬k < n := by omega
    simp only [h, if_true, hk, if_false]
    have hp : (0 : Int) < 2 ^ n := by positivity
    by_cases hs : a.toInt < 0
    · simp only [hs, if_true]
      rw [hb (-1) (by omega) (by omega)]
      push_cast
      rw [Int.ediv_eq_neg_one_of_neg_of_le hs (by omega)]
    · simp only [hs, if_false]
      rw [hb 0 (by omega) (by omega)]
      push_cast
      exact Int.ediv_eq_zero_of_lt (by omega) (by omega)
  · have hk : k < n := by omega
    simp only [h, if_false, hk, if_true]
    push_cast
    have hp : (1 : Int) ≤ 2 ^ k := by exact_mod_cast Nat.one_le_two_pow
    rw [hb]
    · rcases le_total 0 a.toInt with hs | hs
      · have := Int.ediv_nonneg hs (show (0 : Int) ≤ 2 ^ k by omega)
        have hn : (0 : Int) < 2 ^ n := by positivity
        omega
      · have : a.toInt ≤ a.toInt / 2 ^ k := by
          apply Int.le_ediv_of_mul_le (by omega); nlinarith
        omega
    · rcases le_total 0 a.toInt with hs | hs
      · have := Int.ediv_le_self (2 ^ k) hs
        omega
      · have := Int.ediv_nonpos_of_nonpos_of_neg hs (show (0 : Int) < 2 ^ k by omega)
        have hn : (0 : Int) < 2 ^ n := by positivity
        omega

theorem highWord_signed (a b : Word) : mulHighS a b = highWord (a.toInt * b.toInt) := by
  unfold mulHighS highWord
  apply BitVec.eq_of_toNat_eq
  have h : (a.signExtend 64 * b.signExtend 64) = BitVec.ofInt 64 (a.toInt * b.toInt) := by
    apply BitVec.eq_of_toInt_eq
    rw [BitVec.toInt_mul, BitVec.toInt_signExtend_of_le (by omega), BitVec.toInt_signExtend_of_le (by omega), BitVec.toInt_ofInt]
  rw [h]
  simp only [BitVec.extractLsb'_toNat, BitVec.toNat_ofInt, Nat.shiftRight_eq_div_pow]
  omega

theorem highWord_unsigned (a b : Word) : mulHighU a b = highWord (a.toNat * b.toNat) := by
  unfold mulHighU highWord
  apply BitVec.eq_of_toNat_eq
  have ha := a.isLt
  have hb := b.isLt
  have h : a.toNat * b.toNat < 2 ^ 64 := by nlinarith
  simp only [BitVec.extractLsb'_toNat, BitVec.toNat_ofInt, Nat.shiftRight_eq_div_pow, BitVec.toNat_mul, BitVec.toNat_setWidth]
  rw [Nat.mod_eq_of_lt (show a.toNat < 2 ^ 64 by omega), Nat.mod_eq_of_lt (show b.toNat < 2 ^ 64 by omega), Nat.mod_eq_of_lt h]
  have e : ((a.toNat : Int) * b.toNat) = ((a.toNat * b.toNat : Nat) : Int) := by push_cast; rfl
  rw [e]
  generalize a.toNat * b.toNat = z
  omega

theorem minS_eq (a b : Word) : minS a b = if a.toInt ≤ b.toInt then a else b := by
  unfold minS; simp only [BitVec.slt_iff_toInt_lt]; split <;> split <;> first | omega | rfl

theorem minU_eq (a b : Word) : minU a b = if a.toNat ≤ b.toNat then a else b := by
  unfold minU; simp only [BitVec.ult_iff_toNat_lt]; split <;> split <;> first | omega | rfl

theorem maxS_eq (a b : Word) : maxS a b = if b.toInt ≤ a.toInt then a else b := by
  unfold maxS; simp only [BitVec.slt_iff_toInt_lt]; split <;> split <;> first | omega | rfl

theorem maxU_eq (a b : Word) : maxU a b = if b.toNat ≤ a.toNat then a else b := by
  unfold maxU; simp only [BitVec.ult_iff_toNat_lt]; split <;> split <;> first | omega | rfl

theorem holds_eq {n : Nat} (cc : BitVec 4) (a b : BitVec n) : compareCC cc a b = holds cc a b := by
  unfold compareCC holds
  simp only [BitVec.slt_eq_decide, BitVec.sle_eq_decide, BitVec.ult_eq_decide, BitVec.ule_eq_decide, gt_iff_lt, ge_iff_le,
    ne_eq]
  generalize cc.toNat = k
  split <;> first
    | rfl
    | (rw [Bool.eq_iff_iff]; simp [BitVec.toNat_eq])

/-! ## Bit fields -/

theorem fieldOf_eq (c : Word) : (fieldOf c).1 = fieldPos c ∧ (fieldOf c).2 = fieldBits c := by
  unfold fieldOf fieldPos fieldBits
  dsimp only
  split <;> rename_i h <;> simp only [Bool.or_eq_true, decide_eq_true_eq] at h <;> simp only [fieldPos, h, if_true, if_false, and_self]

theorem fieldBits_le (c : Word) : fieldPos c + fieldBits c ≤ 32 ∨ fieldBits c = 0 := by
  unfold fieldBits
  dsimp only
  split <;> omega

theorem fieldBits_le32 (c : Word) : fieldBits c ≤ 32 := by have := fieldBits_le c; omega

theorem extractField_zero (a : Word) (p n : Nat) : extractField a p n false = zeroField a p n := by
  unfold extractField zeroField bitsFrom
  by_cases h : n = 0 <;> simp [h, Nat.mod_one]

theorem testBit_top {e n : Nat} (hn : 0 < n) (h : e < 2 ^ n) : e.testBit (n - 1) = decide (2 ^ (n - 1) ≤ e) := by
  rw [Nat.testBit_eq_decide_div_mod_eq]
  have : 2 ^ n = 2 * 2 ^ (n - 1) := by rw [← pow_succ']; congr 1; omega
  have hp : 0 < 2 ^ (n - 1) := by positivity
  by_cases hle : 2 ^ (n - 1) ≤ e
  · have : e / 2 ^ (n - 1) = 1 := by
      apply Nat.div_eq_of_lt_le <;> omega
    simp [this, hle]
  · simp [Nat.div_eq_of_lt (by omega : e < 2 ^ (n - 1)), hle]

theorem extractField_sign (a : Word) (p n : Nat) (hn : n ≤ 32) : extractField a p n true = signField a p n := by
  unfold extractField signField bitsFrom
  by_cases h : n = 0
  · simp [h, Nat.mod_one]
  · have hpos : 0 < n := by omega
    have hlt : a.toNat / 2 ^ p % 2 ^ n < 2 ^ n := Nat.mod_lt _ (by positivity)
    simp only [h, if_false, Bool.true_and, testBit_top hpos hlt, hpos, true_and, decide_eq_true_eq]
    have h32 : 2 ^ n ≤ 2 ^ 32 := Nat.pow_le_pow_right (by omega) hn
    generalize a.toNat / 2 ^ p % 2 ^ n = e at *
    have hc : ((2 ^ n : Nat) : Int) = 2 ^ n := by push_cast; rfl
    generalize (2 ^ n : Nat) = z at *
    rw [← hc]
    split
    · apply BitVec.eq_of_toNat_eq
      simp only [BitVec.toNat_ofNat, BitVec.toNat_ofInt]
      omega
    · rfl

theorem testBit_setFieldN (x hi lo v i : Nat) (h : lo ≤ hi) :
    (setFieldN x hi lo v).testBit i =
      if lo ≤ i ∧ i ≤ hi then v.testBit (i - lo) else x.testBit i := by
  unfold setFieldN
  have e : x % 2 ^ lo + v % 2 ^ (hi + 1 - lo) * 2 ^ lo + x / 2 ^ (hi + 1) * 2 ^ (hi + 1) =
      2 ^ (hi + 1) * (x / 2 ^ (hi + 1)) + (2 ^ lo * (v % 2 ^ (hi + 1 - lo)) + x % 2 ^ lo) := by ring
  have h1 : x % 2 ^ lo < 2 ^ lo := Nat.mod_lt _ (by positivity)
  have h2 : v % 2 ^ (hi + 1 - lo) < 2 ^ (hi + 1 - lo) := Nat.mod_lt _ (by positivity)
  have h3 : 2 ^ lo * (v % 2 ^ (hi + 1 - lo)) + x % 2 ^ lo < 2 ^ (hi + 1) := by
    have : 2 ^ (hi + 1) = 2 ^ lo * 2 ^ (hi + 1 - lo) := by rw [← pow_add]; congr 1; omega
    rw [this]
    have := Nat.mul_le_mul_left (2 ^ lo) (show v % 2 ^ (hi + 1 - lo) + 1 ≤ 2 ^ (hi + 1 - lo) by omega)
    rw [Nat.mul_add] at this; omega
  rw [e, Nat.testBit_two_pow_mul_add _ h3, Nat.testBit_two_pow_mul_add _ h1]
  by_cases ha : i < hi + 1
  · simp only [ha, if_true]
    by_cases hb : i < lo
    · have : ¬(lo ≤ i ∧ i ≤ hi) := by omega
      simp [hb, this, Nat.testBit_mod_two_pow]
    · have : lo ≤ i ∧ i ≤ hi := by omega
      have hc : i - lo < hi + 1 - lo := by omega
      simp [hb, this, Nat.testBit_mod_two_pow, hc]
  · have : ¬(lo ≤ i ∧ i ≤ hi) := by omega
    simp only [ha, if_false, this]
    rw [Nat.testBit_div_two_pow]
    congr 1; omega

theorem insertField_eq (old a : Word) (p n : Nat) (_h : p + n ≤ 32 ∨ n = 0) : insertField old a p n = putField old a p n := by
  unfold insertField putField
  apply BitVec.eq_of_getLsbD_eq
  intro i hi
  rw [BitVec.getLsbD_ofFnLE, dif_pos hi]
  dsimp only
  by_cases hn : n = 0
  · simp [hn]
  · simp only [hn, if_false]
    rw [BitVec.getLsbD_ofNat, testBit_setFieldN _ _ _ _ _ (by omega)]
    simp only [hi, decide_true, Bool.true_and, Nat.testBit_mod_two_pow]
    by_cases hc : p ≤ i ∧ i < p + n
    · have h1 : p ≤ i ∧ i ≤ p + n - 1 := by omega
      have h2 : i - p < n := by omega
      simp [hc, h1, h2, BitVec.getLsbD]
    · have h1 : ¬(p ≤ i ∧ i ≤ p + n - 1) := by omega
      simp only [h1, hc, if_false]; rfl

/-! ## Words of one operand -/

theorem abs_eq (a : Word) : (if a.msb then -a else a) = BitVec.ofInt 32 |a.toInt| := by
  rw [BitVec.msb_eq_toInt]
  have h2 := BitVec.le_two_mul_toInt (x := a)
  by_cases h : a.toInt < 0
  · simp only [h, decide_true, if_true, abs_of_neg h]
    rw [BitVec.ofInt_neg, BitVec.ofInt_toInt]
  · simp only [h, decide_false, Bool.false_eq_true, if_false, abs_of_nonneg (Int.not_lt.1 h), BitVec.ofInt_toInt]

theorem popc_eq (a : Word) : popCount a = (List.finRange 32).countP fun i => a[i] := by
  unfold popCount
  rw [← List.countP_eq_length_filter, ← List.map_coe_finRange_eq_range, List.countP_map]
  rfl

theorem clz_eq (a : Word) : clzN a = (List.range 33).findIdx fun k => 2 ^ (31 - k) ≤ a.toNat ∨ k = 32 := by
  have ha := a.isLt
  unfold clzN
  split
  · rename_i h
    rw [h]
    decide
  · rename_i h
    have hl : a.toNat.log2 < 32 := (Nat.log2_lt h).2 ha
    symm
    rw [List.findIdx_eq (by simp; omega)]
    simp only [List.getElem_range, decide_eq_true_eq, decide_eq_false_iff_not, not_or, not_le]
    refine ⟨.inl ?_, fun j hj => ⟨?_, by omega⟩⟩
    · rw [show 31 - (32 - 1 - a.toNat.log2) = a.toNat.log2 by omega]
      exact Nat.log2_self_le h
    · refine lt_of_lt_of_le Nat.lt_log2_self (Nat.pow_le_pow_right (by omega) (by omega))

theorem getLsbD_foldl_or (f : Nat → Nat) (p : Nat → Bool) (l : List Nat) (w : Word) (j : Nat) (hj : j < 32) :
    (l.foldl (fun a i => if p i then a ||| laneBit (f i) else a) w).getLsbD j =
      (w.getLsbD j || l.any fun i => p i && f i == j) := by
  induction l generalizing w with
  | nil => simp
  | cons i l ih =>
    rw [List.foldl_cons, ih, List.any_cons]
    split <;> rename_i h
    · have e : (laneBit (f i)).getLsbD j = (f i == j) := by
        rw [laneBit, BitVec.getLsbD_ofNat, Nat.testBit_two_pow]; simp [hj, beq_eq_decide]
      rw [BitVec.getLsbD_or, e, h, Bool.true_and, Bool.or_assoc]
    · simp [h]

theorem brev_eq (a : Word) : bitRev a = a.reverse := by
  apply BitVec.eq_of_getLsbD_eq
  intro j hj
  rw [bitRev, getLsbD_foldl_or _ _ _ _ _ hj, BitVec.getLsbD_reverse, BitVec.getMsbD_eq_getLsbD]
  simp only [BitVec.getLsbD_zero, Bool.false_or, hj, decide_true, Bool.true_and]
  rw [Bool.eq_iff_iff, List.any_eq_true]
  constructor
  · rintro ⟨i, hi, h⟩
    simp only [List.mem_range, Bool.and_eq_true, beq_iff_eq] at hi h
    rw [show 32 - 1 - j = i by omega]; exact h.1
  · intro h
    exact ⟨32 - 1 - j, by simp; omega, by simp [h]; omega⟩

theorem slih_eq (imm : BitVec 16) (w : Word) :
    imm ++ w.extractLsb' 0 16 = BitVec.ofNat 32 (imm.toNat * 2 ^ 16 + w.toNat % 2 ^ 16) := by
  apply BitVec.eq_of_toNat_eq
  have := imm.isLt
  simp only [BitVec.toNat_append, BitVec.extractLsb'_toNat, BitVec.toNat_ofNat, Nat.shiftRight_zero]
  rw [← Nat.shiftLeft_add_eq_or_of_lt (Nat.mod_lt _ (by norm_num)), Nat.shiftLeft_eq]
  omega

theorem sli_eq {n : Nat} (imm : BitVec n) (h : n ≤ 32) : imm.signExtend 32 = BitVec.ofInt 32 imm.toInt := by
  apply BitVec.eq_of_toInt_eq
  rw [BitVec.toInt_signExtend_of_le h, BitVec.toInt_ofInt]
  have h1 := @BitVec.two_mul_toInt_lt n imm
  have h2 := @BitVec.le_two_mul_toInt n imm
  have h3 : (2 : Int) ^ n ≤ 2 ^ 32 := by exact_mod_cast Nat.pow_le_pow_right (by omega) h
  rw [Int.bmod_eq_of_le_mul_two] <;> push_cast <;> omega

theorem sbfe_eq (a : Word) (p n : Nat) (sg : Bool) (h : n ≤ 32) :
    extractField a p n sg = if sg then signField a p n else zeroField a p n := by
  cases sg
  · exact extractField_zero a p n
  · exact extractField_sign a p n h

theorem saddImm_eq {n : Nat} (w : Word) (imm : BitVec n) (h : n ≤ 32) :
    w + imm.signExtend 32 = BitVec.ofInt 32 (w.toInt + imm.toInt) := by
  rw [sli_eq imm h, BitVec.ofInt_add, BitVec.ofInt_toInt]

end Sys2Proof.Machine
end

