-- ==== Sys2Proof/Laws/Walker.lean ====
section
/-! SUPPORT. What the walkers of graphs keep. -/

-- One theorem at a time: the package compiles as one text, and a thread for each open proof asks for a stack of its own.
set_option Elab.async false

namespace Sys2Proof.Machine

theorem Quiet.graphs {s t : State} (h : Quiet s t) : t.graphs = s.graphs := by
  have := congrArg (·.graphs) h.still; exact this

theorem Quiet.wqs {s t : State} (h : Quiet s t) : t.wqs = s.wqs := by
  have := congrArg (·.wqs) h.still; exact this

theorem quiet_readNode (s : State) (q : Nat) (g : Graph) : Quiet s (s.readNode q g).1 := by
  unfold State.readNode
  refine .iteP (.refl _) ?_
  have h := Quiet.askRead s (s.walkAsker q) g.nodeVa 64
  split
  · rename_i b l hb; rw [hb] at h; exact h
  · rename_i b e hb; rw [hb] at h; exact h

theorem endGraph_spec (s : State) (q st n : Nat) (w : Word) : mapGet (s.endGraph q st n w).graphs q = none ∧ KeepsBands s (s.endGraph q st n w) := by
  unfold State.endGraph
  split
  · rename_i h; exact ⟨h, .refl _⟩
  · rename_i g h
    have hd : mapGet (mapDel s.graphs q) q = none := (mapGet_mapDel _ _ _).trans (if_pos rfl)
    dsimp only
    split
    · exact ⟨hd, KeepsBands.outer rfl⟩
    · have hq := Quiet.askWrite ({ s with graphs := mapDel s.graphs q } : State) (({ s with graphs := mapDel s.graphs q } : State).walkAsker q) g.record
        (bytesOf 4 g.seq.toNat ++ bytesOf 1 st ++ zeroBytes 1 ++ bytesOf 2 g.node ++ bytesOf 4 n ++ bytesOf 4 w.toNat)
      have h0 : KeepsBands s ({ s with graphs := mapDel s.graphs q } : State) := KeepsBands.outer rfl
      split
      · rename_i m hm
        rw [hm] at hq
        exact ⟨(congrArg (mapGet · q) hq.graphs).trans hd, h0.trans (Served.of hq).keeps⟩
      · rename_i m e hm
        rw [hm] at hq
        exact ⟨(congrArg (mapGet · q) hq.graphs).trans hd, (h0.trans (Served.of hq).keeps).trans (KeepsBands.outer rfl)⟩

theorem goNode_goes {s u : State} {q n : Nat} {g g' : Graph} (hg : mapGet u.graphs q = some g') (hw : { g' with node := n, launch := none, waitFrom := none, copyPos := 0, waiting := false } = { g.atNode n with w := g'.w }) (hk : KeepsBands s u) {ev : Instr} (he : exec ev s = .next (u.goNode q n)) :
    s.GoesTo q g ev n g'.w := by
  refine ⟨_, he, ?_, hk.trans (KeepsBands.outer rfl)⟩
  refine (mapGet_mapUpd _ _ _ _).trans ?_
  rw [if_pos rfl, hg, ← hw]; rfl

theorem atNode_reads {s t : State} {q ty : Nat} {g : Graph} {l : List Byte} {ok : List Byte → Bool} {f : Graph → List Byte → State → State} {ev : Instr}
    (hg : mapGet s.graphs q = some g) (hw : g.waiting = false) (hl : g.launch = none) (hr : s.readNode q g = (t, some l)) (ht : nodeType l = ty)
    (he : exec ev s = atNode q ty ok f s) :
    (headerOkN l = false → exec ev s = .next (t.endGraph q 1 0 0)) ∧ (headerOkN l = true → ok l = true → exec ev s = .next (f g l t)) := by
  have h : exec ev s = .next (if !headerOkN l || !ok l then t.endGraph q 1 0 0 else f g l t) := by
    rw [he, atNode, hg]
    dsimp only
    rw [hw, hl, hr]
    simp only [Option.isSome_none, Bool.or_self, Bool.false_eq_true, if_false]
    rw [if_neg (by simp [ht])]
  exact ⟨fun h1 => (by rw [h, h1]; rfl), fun h1 h2 => (by rw [h, h1, h2]; rfl)⟩

end Sys2Proof.Machine
end

