-- ==== Sys2Proof/Tests/Slice0.lean ====
section
/-! SUPPORT. Tests of the model: words written out from the encodings of the spec and what they decode to; ill-formed terms that
`Instr.wf` refuses; for each statement of Certificates/Slice0/Obligations.lean, states and operands that meet its hypotheses, clause by
clause; and single steps whose results are worked out by hand from the rule. -/

-- One theorem at a time: the package compiles as one text, and a thread for each open proof asks for a stack of its own.
set_option Elab.async false

open Sys2Proof Sys2Proof.Machine

namespace Sys2Proof.Tests


/-! ## Decoding: words bit by bit from the opcode table and the tables of R53 and R60 -/

theorem test_decode_header : ([
    (0b11111_001011011001_0100_0110_001_0_001, .clause 729 4 6 1 false 1)] : List (Nat × Instr)).all (fun p => decodeTableWord 32 p.1 == some p.2) = true := by decide +kernel

theorem test_decode_integer_arithmetic : ([
    (0b0_10_0000001_1_1001010_0110100_0100110, .addB32 ⟨2, true, 74, 52, 38⟩),
    (0b0_10_0000010_1_1001010_0110100_0100110, .subB32 ⟨2, true, 74, 52, 38⟩),
    (0b0_10_0000011_1_1001010_0110100_0100110, .addB64 ⟨2, true, 74, 52, 38⟩),
    (0b0_10_0000100_1_1001010_0110100_0100110, .subB64 ⟨2, true, 74, 52, 38⟩),
    (0b0_10_0000101_1_1001010_0110100_0100110, .mulB32 ⟨2, true, 74, 52, 38⟩),
    (0b0_10_0000110_1_1001010_0110100_0100110, .mulhiI32 ⟨2, true, 74, 52, 38⟩),
    (0b0_10_0000111_1_1001010_0110100_0100110, .mulhiB32 ⟨2, true, 74, 52, 38⟩),
    (0b0_10_0001000_1_1001010_0110100_0100110, .madB32 ⟨2, true, 74, 52, 38⟩),
    (0b0_10_0001001_1_1001010_0110100_0100110, .andB32 ⟨2, true, 74, 52, 38⟩),
    (0b0_10_0001010_1_1001010_0110100_0100110, .orB32 ⟨2, true, 74, 52, 38⟩),
    (0b0_10_0001011_1_1001010_0110100_0100110, .xorB32 ⟨2, true, 74, 52, 38⟩),
    (0b0_10_0001100_1_1001010_0110100_0100110, .andnB32 ⟨2, true, 74, 52, 38⟩)] : List (Nat × Instr)).all (fun p => decodeTableWord 32 p.1 == some p.2) = true := by decide +kernel

theorem test_decode_integer_shifts_and_compares : ([
    (0b0_10_0001101_1_1001010_0110100_0100110, .shlB32 ⟨2, true, 74, 52, 38⟩),
    (0b0_10_0001110_1_1001010_0110100_0100110, .shrB32 ⟨2, true, 74, 52, 38⟩),
    (0b0_10_0001111_1_1001010_0110100_0100110, .sraB32 ⟨2, true, 74, 52, 38⟩),
    (0b0_10_0010000_1_1001010_0110100_0100110, .shlB64 ⟨2, true, 74, 52, 38⟩),
    (0b0_10_0010001_1_1001010_0110100_0100110, .shrB64 ⟨2, true, 74, 52, 38⟩),
    (0b0_10_0010010_1_1001010_0110100_0100110, .sraB64 ⟨2, true, 74, 52, 38⟩),
    (0b0_10_0010011_1_1001010_0110100_0100110, .minI32 ⟨2, true, 74, 52, 38⟩),
    (0b0_10_0010100_1_1001010_0110100_0100110, .minB32 ⟨2, true, 74, 52, 38⟩),
    (0b0_10_0010101_1_1001010_0110100_0100110, .maxI32 ⟨2, true, 74, 52, 38⟩),
    (0b0_10_0010110_1_1001010_0110100_0100110, .maxB32 ⟨2, true, 74, 52, 38⟩),
    (0b0_10_0010111_1_0110_001_0110100_0100110, .cmp32 ⟨2, true, 6, 1, 52, 38⟩),
    (0b0_10_0011000_1_0110_001_0110100_0100110, .cmp64 ⟨2, true, 6, 1, 52, 38⟩),
    (0b0_10_0011001_1_1001010_0110100_0100110, .bfeB32 ⟨2, true, 74, 52, 38⟩),
    (0b0_10_0011010_1_1001010_0110100_0100110, .bfeI32 ⟨2, true, 74, 52, 38⟩),
    (0b0_10_0011011_1_1001010_0110100_0100110, .bfiB32 ⟨2, true, 74, 52, 38⟩)] : List (Nat × Instr)).all (fun p => decodeTableWord 32 p.1 == some p.2) = true := by decide +kernel

theorem test_decode_integer_moves_and_predicates : ([
    (0b0_10_00111000_1001010_0110100_0000000, .mov ⟨2, 74, 52⟩),
    (0b0_10_00111000_1001010_0110100_0000001, .absI32 ⟨2, 74, 52⟩),
    (0b0_10_00111000_1001010_0110100_0000010, .popc ⟨2, 74, 52⟩),
    (0b0_10_00111000_1001010_0110100_0000011, .clz ⟨2, 74, 52⟩),
    (0b0_10_00111000_1001010_0110100_0000100, .brev ⟨2, 74, 52⟩),
    (0b0_10_00111000_1001010_00000000000101, .lid 2 74),
    (0b0_10_00111010_1001010_00001011011001, .li 2 74 729),
    (0b0_10_0011110_1_1001010_0110100_0100110, .vmovr ⟨2, true, 74, 52, 38⟩),
    (0b0_10_0011111_1_1001010_0110100_0100110, .vmovw ⟨2, true, 74, 52, 38⟩),
    (0b0_10_01000001_1001010_00000000_011010, .movs 2 74 26),
    (0b0_10_010000100000_010_0000_100_0000_110, .pand 2 2 4 6),
    (0b0_10_010001000000_010_0000_100_0000_110, .por 2 2 4 6),
    (0b0_10_010001100000_010_0000_100_0000_110, .pxor 2 2 4 6),
    (0b0_10_010010000000_010_0000_100_0000000, .pnot 2 2 4),
    (0b0_10_0101_001_1_1001010_0110100_0100110, .sel 1 ⟨2, true, 74, 52, 38⟩)] : List (Nat × Instr)).all (fun p => decodeTableWord 32 p.1 == some p.2) = true := by decide +kernel

theorem test_decode_float_arithmetic : ([
    (0b0_10_01100_01_1_1001010_0110100_0100110, .fadd .f32 ⟨2, true, 74, 52, 38⟩),
    (0b0_10_01101_01_1_1001010_0110100_0100110, .fsub .f32 ⟨2, true, 74, 52, 38⟩),
    (0b0_10_01110_01_1_1001010_0110100_0100110, .fmul .f32 ⟨2, true, 74, 52, 38⟩),
    (0b0_10_01111_01_1_1001010_0110100_0100110, .fma .f32 ⟨2, true, 74, 52, 38⟩),
    (0b0_10_10000_01_1_1001010_0110100_0100110, .fmin .f32 ⟨2, true, 74, 52, 38⟩),
    (0b0_10_10001_01_1_1001010_0110100_0100110, .fmax .f32 ⟨2, true, 74, 52, 38⟩),
    (0b0_10_10010_01_1_1001010_0110100_0100110, .fminm .f32 ⟨2, true, 74, 52, 38⟩),
    (0b0_10_10011_01_1_1001010_0110100_0100110, .fmaxm .f32 ⟨2, true, 74, 52, 38⟩),
    (0b0_10_10100_01_1_0101_001_0110100_0100110, .fcmp .f32 ⟨2, true, 5, 1, 52, 38⟩)] : List (Nat × Instr)).all (fun p => decodeTableWord 32 p.1 == some p.2) = true := by decide +kernel

theorem test_decode_float_unary_and_long : ([
    (0b0_10_10101_01_0_1001010_0110100_0000000, .frcp .f32 ⟨2, 74, 52⟩),
    (0b0_10_10101_01_0_1001010_0110100_0000001, .frsq .f32 ⟨2, 74, 52⟩),
    (0b0_10_10101_01_0_1001010_0110100_0000010, .fsqrt .f32 ⟨2, 74, 52⟩),
    (0b0_10_10101_01_0_1001010_0110100_0000011, .fclass .f32 ⟨2, 74, 52⟩),
    (0b0_10_10101_01_0_1001010_0110100_011_0100, .frnd .f32 .rd ⟨2, 74, 52⟩),
    (0b0_10_101100_1_1_1001010_0110100_0100110, .fdiv .f32 ⟨2, true, 74, 52, 38⟩),
    (0b0_10_101101_1_1_1001010_0110100_0100110, .fscale .f32 ⟨2, true, 74, 52, 38⟩),
    (0b0_10_101110_1_1_1001010_0110100_0100110, .fdot2 .bf16 ⟨2, true, 74, 52, 38⟩),
    (0b0_10_10111100_1001010_0110100_000_1001, .ftab 9 ⟨2, 74, 52⟩)] : List (Nat × Instr)).all (fun p => decodeTableWord 32 p.1 == some p.2) = true := by decide +kernel

theorem test_decode_uniform_arithmetic : ([
    (0b100000_10_101010_110100_100110_000000, .sadd ⟨2, 42, 52, 38⟩),
    (0b100000_10_101010_110100_100110_000001, .ssub ⟨2, 42, 52, 38⟩),
    (0b100000_10_101010_110100_100110_000010, .smul ⟨2, 42, 52, 38⟩),
    (0b100000_10_101010_110100_100110_000011, .smulhiI32 ⟨2, 42, 52, 38⟩),
    (0b100000_10_101010_110100_100110_000100, .smulhiB32 ⟨2, 42, 52, 38⟩),
    (0b100000_10_101010_110100_100110_000101, .sand ⟨2, 42, 52, 38⟩),
    (0b100000_10_101010_110100_100110_000110, .sor ⟨2, 42, 52, 38⟩),
    (0b100000_10_101010_110100_100110_000111, .sxor ⟨2, 42, 52, 38⟩),
    (0b100000_10_101010_110100_100110_001000, .sshl ⟨2, 42, 52, 38⟩),
    (0b100000_10_101010_110100_100110_001001, .sshr ⟨2, 42, 52, 38⟩),
    (0b100000_10_101010_110100_100110_001010, .ssra ⟨2, 42, 52, 38⟩),
    (0b100000_10_101010_110100_100110_001011, .sminI32 ⟨2, 42, 52, 38⟩),
    (0b100000_10_101010_110100_100110_001100, .sminB32 ⟨2, 42, 52, 38⟩),
    (0b100000_10_101010_110100_100110_001101, .smaxI32 ⟨2, 42, 52, 38⟩),
    (0b100000_10_101010_110100_100110_001110, .smaxB32 ⟨2, 42, 52, 38⟩)] : List (Nat × Instr)).all (fun p => decodeTableWord 32 p.1 == some p.2) = true := by decide +kernel

theorem test_decode_uniform_moves : ([
    (0b100000_10_101010_110100_000000001111, .smov 2 42 52),
    (0b100000_10_101010_110100_000000010000, .spopc 2 42 52),
    (0b100000_10_101010_110100_000000010001, .sclz 2 42 52),
    (0b100000_10_101010_110100_100110_010010, .saddB64 ⟨2, 42, 52, 38⟩),
    (0b100000_10_101010_110100_100110_010011, .ssubB64 ⟨2, 42, 52, 38⟩),
    (0b100000_10_101010_110100_100110_010100, .ssel ⟨2, 42, 52, 38⟩),
    (0b100000_10_101010_110100_100110_10_0110, .scmp 6 ⟨2, 42, 52, 38⟩),
    (0b100001_10_101010_000000001011011001, .sli 2 42 729),
    (0b100010_10_101010_00_0000001011011001, .slih 2 42 729),
    (0b100011_10_101010_110100_10110_10110_1_0, .sbfe 2 42 52 22 22 true),
    (0b100011_10_101010_110100_10110_10110_01, .sbfi 2 42 52 22 22),
    (0b100100_10_101010_110100_001011011001, .saddImm 2 42 52 729)] : List (Nat × Instr)).all (fun p => decodeTableWord 32 p.1 == some p.2) = true := by decide +kernel

theorem test_decode_branches : ([
    (0b100101_10_000000_000000001011011001, .bra 2 729),
    (0b100110_10_011010_000000001011011001, .brz 2 26 729),
    (0b100111_10_011010_000000001011011001, .brnz 2 26 729),
    (0b101000_10_000000_000000001011011001, .call 2 729),
    (0b101001_10_1011010_00000000000000000, .callv 90 90),
    (0b101010_10_1001_001_00000001011011001, .split 2 9 1 729),
    (0b101011_10_000000000000000000000000, .nop 2),
    (0b101011_10_000000000000000000000001, .ret 2),
    (0b101011_10_011010_000000000000000010, .calli 2 26),
    (0b101011_10_00_1001_000000000000000011, .join 2 9),
    (0b101011_10_00_1001_000000000000000100, .jwait 2 9),
    (0b101011_10_00_1001_011010_000000000101, .jset 2 9 26),
    (0b101011_10_011010_00_1001_000000000110, .jget 2 26 9),
    (0b101011_10_000000000000000000000111, .yield 2),
    (0b101011_10_000000_001011011001_001000, .brk 2 729),
    (0b101011_10_000000_001011011001_001001, .trap 2 729)] : List (Nat × Instr)).all (fun p => decodeTableWord 32 p.1 == some p.2) = true := by decide +kernel

theorem test_decode_uniform_memory_and_loops : ([
    (0b101100_10_101010_010110_110010_0000_0_1, .sld 2 42 22 50 false true),
    (0b101100_10_101010_010110_110010_0001_0_1, .sst 2 42 22 50 false true),
    (0b101101_10_101010_110100_100110_101_10_0, .satom .xor .rel false ⟨2, 42, 52, 38⟩),
    (0b101110_10_0000_01_011010_000000000000, .lset 2 1 26),
    (0b101110_10_011010_0000_01_000000000001, .lget 2 26 1),
    (0b101110_10_00_1001_100110_001101_000010, .kset 2 9 38 13),
    (0b101111_10_01_0000_000000001011011001, .lnext 2 1 729)] : List (Nat × Instr)).all (fun p => decodeTableWord 32 p.1 == some p.2) = true := by decide +kernel

theorem test_decode_fences_and_barriers : ([
    (0b110000_10_000000000000000000000000, .rel 2),
    (0b110000_10_000000000000000000000001, .acq 2),
    (0b110000_10_000000000000000000000010, .sync 2),
    (0b110000_10_000000000000000000000011, .xrel 2),
    (0b110000_10_000000000000000000000100, .xrelDram 2),
    (0b110001_10_11011001_011010_0000000000, .bar 2 217 26),
    (0b110001_10_11011001_011010_0000000001, .arrive 2 217 26),
    (0b110001_10_11011001_0000000000000010, .barw 2 217),
    (0b110001_10_11011001_101010_0000000011, .gmask 2 217 42)] : List (Nat × Instr)).all (fun p => decodeTableWord 32 p.1 == some p.2) = true := by decide +kernel

theorem test_decode_queues_and_tags : ([
    (0b110010_10_00_1001_011010_000_101_000000, .qpush 2 9 26 5),
    (0b110010_10_011010_00_1001_000000000001, .qpop 2 26 9),
    (0b110010_10_011010_000000000000000010, .qfence 2 26),
    (0b110010_10_011010_001110_000000000011, .twany 2 26 14),
    (0b110010_10_000000_001110_000000000100, .twall 2 14),
    (0b110010_10_011010_001110_000000000101, .tffr 2 26 14),
    (0b110010_10_011010_000000000000000110, .tget 2 26),
    (0b110010_10_000000_001110_000000000111, .tclr 2 14)] : List (Nat × Instr)).all (fun p => decodeTableWord 32 p.1 == some p.2) = true := by decide +kernel

theorem test_decode_matrix : ([
    (0b110011_10_10110_0_10100_0_00110_001_01_0_1, .mma 2 22 false 20 false 6 1 .i32 false true),
    (0b110100_10_10110_0_10100_0_00110_001_01_1_0, .mmc 2 22 false 20 false 6 1 true),
    (0b110101_10_0_10110_010110_110010_000000, .tld 2 22 22 50),
    (0b110101_10_0_10110_010110_110010_000001, .tst 2 22 22 50),
    (0b110101_10_0_01010_0_11010_000000000010, .tmov 2 10 26),
    (0b110101_10_0_10110_000000000000000011, .tzero 2 22),
    (0b110101_10_0_01010_0_11010_000000000100, .amov 2 10 26),
    (0b110101_10_0_10110_010110_000000000101, .ald 2 22 22),
    (0b110101_10_0_10110_010110_000000000110, .ast 2 22 22),
    (0b110101_10_0_10110_000000000000000111, .azero 2 22),
    (0b110101_10_000_001_011010_000000001000, .sign 2 1 26),
    (0b110101_10_011010_0_10110_000000001001, .mprog 2 26 22)] : List (Nat × Instr)).all (fun p => decodeTableWord 32 p.1 == some p.2) = true := by decide +kernel

theorem test_decode_system : ([
    (0b110110_10_000000000000000000000000, .exit 2),
    (0b110110_10_011010_000000000000000001, .exitSucc 2 26),
    (0b110110_10_011010_000000000000000010, .phase 2 26),
    (0b110110_10_011010_000000000000000011, .gen 2 26),
    (0b110110_10_011010_000000010011_000100, .rsys 2 26 19),
    (0b110110_10_011010_000000010011_000101, .wsys 2 26 19),
    (0b110110_10_000000000000000000000110, .kret 2),
    (0b110110_10_00_0101_010110_000000000111, .svc 2 5 22),
    (0b110110_10_00_0101_010110_000000001000, .rsc 2 5 22),
    (0b110110_10_000000000000000000001001, .halt 2)] : List (Nat × Instr)).all (fun p => decodeTableWord 32 p.1 == some p.2) = true := by decide +kernel

theorem test_decode_memory_forms : ([
    (0b1011_01_0000_0000_100101101000110101_0_01_1100000_1_1001010_0110101_0100110, .ld .f64 .acq ⟨1, true, 74, 53, 38, 154165⟩),
    (0b0100_10_0000_0000_100101101000110101_0_01_1100001_0_1001001_0110100_0000000, .st .b32 .rel ⟨1, false, 73, 52, 0, 154165⟩),
    (0b1011_01_0000_1001_100101101000110101_0_01_1100010_0_1001010_0110101_0000000, .ldk .f64 .acq 9 ⟨1, false, 74, 53, 0, 154165⟩),
    (0b0110_10_0000_1010_100101101000110101_0_01_1100011_0_1001010_0110101_0000000, .stk .b64 .rel 10 ⟨1, false, 74, 53, 0, 154165⟩),
    (0b1000_00_0000_0000_100101101000110101_0_01_1100100_1_1001001_0110101_0100111, .lds .f16 ⟨1, true, 73, 53, 39, 154165⟩),
    (0b0011_00_0000_0000_100101101000110101_0_01_1100101_0_1001001_0110101_0000000, .sts .i16 ⟨1, false, 73, 53, 0, 154165⟩),
    (0b0000_00_0000_0000_100101101000110101_0_01_1100110_1_0000000_0110101_0100110, .pf ⟨1, true, 0, 53, 38, 154165⟩),
    (0b0101_11_0010_0000_100101101000110101_0_01_1100111_1_1001001_0110100_0100111, .atom .max .i32 .ar ⟨1, true, 73, 52, 39, 154165⟩),
    (0b0111_01_0000_0000_100101101000110101_0_01_1101000_0_1001010_0110100_1011010, .atomc .i64 .acq ⟨1, false, 74, 52, 90, 154165⟩),
    (0b1011_00_0000_0000_100101101000110101_0_01_1101001_1_1001010_0110101_0100110, .pwaddr .f64 ⟨1, true, 74, 53, 38, 154165⟩),
    (0b0000_00_0000_0000_100101101000110101_0_01_1101010_1_0000000_0110101_0100110, .pwclaim ⟨1, true, 0, 53, 38, 154165⟩),
    (0b0000_00_0000_0000_100101101000110101_0_01_1101011_0_0000000_0110100_0000000, .pwflush ⟨1, false, 0, 52, 0, 154165⟩),
    (0b0000_00_0000_0000_100101101000110101_0_01_1101100_1_0000000_0110101_0100110, .pwnorm ⟨1, true, 0, 53, 38, 154165⟩),
    (0b0100_00_0000_0000_100101101000110101_0_01_1101101_1_1001001_0110101_0100110, .pwraw ⟨1, true, 73, 53, 38, 154165⟩),
    (0b0000_00_0000_0000_100101101000110101_0_01_1101110_0_0000000_0110100_0000000, .pwdrop ⟨1, false, 0, 52, 0, 154165⟩)] : List (Nat × Instr)).all (fun p => decodeTableWord 64 p.1 == some p.2) = true := by decide +kernel

theorem test_decode_format_forms : ([
    (0b0000_0010_100_1_0000000000000_0000000_0_01_1110000_0_1001001_0110100_0000000, .cvt .f64 .f16 .ra true ⟨1, false, 73, 52, 0, 0⟩),
    (0b0001_0100_011_1_0000000000000_1011010_0_01_1110001_1_1001001_0110101_0100111, .pk .f32 .e4m3 .rd true ⟨1, true, 73, 53, 39, 90⟩),
    (0b0101_0011_000_0_0000000000000_0000000_0_01_1110010_0_1001001_0110101_1011011, .upk .e5m2 .bf16 .rn false ⟨1, false, 73, 53, 91, 0⟩),
    (0b0001_1000_000_0_0000000000000_1011011_0_01_1110011_1_1001001_0110101_0100111, .qz .f32 .q16n .rn false ⟨1, true, 73, 53, 39, 91⟩),
    (0b1000_0001_010_0_0000000000000_1011011_0_01_1110100_1_1001001_0110101_0100111, .dq .q16n .f32 .ru false ⟨1, true, 73, 53, 39, 91⟩),
    (0b0001_0110_001_0_0000000000000_0000000_0_01_1110101_0_1001001_0110101_1011011, .mxq .f32 .e2m1 .rz false ⟨1, false, 73, 53, 91, 0⟩),
    (0b0100_0001_100_0_0000000000000_0000000_0_01_1110110_0_1001001_0110101_1011011, .mxdq .e4m3 .f32 .ra false ⟨1, false, 73, 53, 91, 0⟩)] : List (Nat × Instr)).all (fun p => decodeTableWord 64 p.1 == some p.2) = true := by decide +kernel

theorem test_decode_group_forms : ([
    (0b1_101101_0010_0000_0_0000000000000000_0_01_1111000_0_1001001_0000101_0000000, .vote .ballot ⟨1, false, 73, 5, 0, true, 45⟩),
    (0b0_001101_0011_0110_0_0000000000000000_0_01_1111001_1_1001010_0110100_0100111, .shfl .xor .b64 ⟨1, true, 74, 52, 39, false, 13⟩),
    (0b1_101101_0010_1001_0_0000000000000000_0_01_1111010_0_1001001_0110101_0000000, .red .max .bf16 ⟨1, false, 73, 53, 0, true, 45⟩),
    (0b1_101101_0001_1010_1_0000000000000000_0_01_1111011_0_1001001_0110101_0000000, .scan .min .f32 true ⟨1, false, 73, 53, 0, true, 45⟩),
    (0b0_001101_0000_0100_0_0000000000000000_0_01_1111100_1_1001001_0110101_0100111, .bcast .b32 ⟨1, true, 73, 53, 39, false, 13⟩)] : List (Nat × Instr)).all (fun p => decodeTableWord 64 p.1 == some p.2) = true := by decide +kernel

/-! ## Well-formedness: an ill-formed term for each check, which the check refuses -/

/-- Registers of pairs, conditions, and the bit that a uniform last source leaves 0 (R51, R52). -/
theorem test_wf_integer : ([.addB32 ⟨0, true, 0, 0, 64⟩, .addB64 ⟨0, false, 1, 0, 0⟩, .addB64 ⟨0, false, 0, 1, 0⟩, .addB64 ⟨0, true, 0, 0, 1⟩,
    .cmp32 ⟨0, false, 10, 0, 0, 0⟩, .cmp32 ⟨0, true, 0, 0, 0, 64⟩, .cmp64 ⟨0, false, 10, 0, 0, 0⟩, .cmp64 ⟨0, false, 0, 0, 1, 0⟩,
    .cmp64 ⟨0, false, 0, 0, 0, 1⟩, .saddB64 ⟨0, 1, 0, 0⟩, .saddB64 ⟨0, 0, 1, 0⟩, .saddB64 ⟨0, 0, 0, 1⟩, .scmp 10 ⟨0, 0, 0, 0⟩] :
    List Instr).all (fun i => !i.wf) = true := by decide

theorem test_wf_floating : ([.fadd .f64 ⟨0, false, 0, 0, 1⟩, .fadd .f32 ⟨0, true, 0, 0, 64⟩, .fcmp .f64 ⟨0, false, 0, 0, 1, 0⟩,
    .fcmp .f32 ⟨0, false, 10, 0, 0, 0⟩, .fsqrt .f64 ⟨0, 1, 0⟩, .fclass .f64 ⟨0, 0, 1⟩, .fdiv .f64 ⟨0, false, 1, 0, 0⟩,
    .fscale .f32 ⟨0, true, 0, 0, 64⟩, .cvt .f32 .f32 .rn false ⟨0, false, 0, 0, 0, 0⟩, .cvt .f32 .f64 .rn false ⟨0, false, 1, 0, 0, 0⟩,
    .cvt .f64 .f32 .rn false ⟨0, false, 0, 1, 0, 0⟩, .cvt .f64 .f32 .rn false ⟨0, false, 0, 0, 1, 0⟩, .cvt .f32 .f64 .rz false ⟨0, false, 0, 0, 0, 0⟩,
    .pk .f32 .e4m3 .rn false ⟨0, false, 0, 0, 0, 1⟩, .pk .f32 .f16 .rn false ⟨0, false, 0, 0, 0, 2⟩, .upk .f16 .f32 .rz false ⟨0, false, 0, 0, 0, 0⟩,
    .upk .ci8 .i32 .rn false ⟨0, false, 1, 0, 0, 0⟩, .qz .f32 .q16n .rz false ⟨0, false, 0, 0, 0, 0⟩, .qz .f32 .ci8 .rn false ⟨0, false, 0, 1, 0, 0⟩,
    .dq .i8 .f32 .rn true ⟨0, false, 0, 0, 0, 0⟩, .mxq .f32 .f16 .rn false ⟨0, false, 0, 0, 0, 0⟩, .mxdq .e4m3 .f16 .rn false ⟨0, false, 0, 0, 0, 0⟩] :
    List Instr).all (fun i => !i.wf) = true := by decide

theorem test_wf_memory : ([.ld .b32 .rel ⟨0, false, 0, 0, 0, 0⟩, .ld .b32 .none ⟨0, false, 0, 1, 0, 0⟩, .ld .b64 .none ⟨0, false, 1, 0, 0, 0⟩,
    .ld .b32 .none ⟨0, false, 0, 0, 2, 0⟩, .ld .b32 .none ⟨0, true, 0, 0, 1, 0⟩, .st .b32 .acq ⟨0, false, 0, 0, 0, 0⟩, .ldk .b32 .none 0 ⟨0, true, 0, 0, 0, 0⟩,
    .stk .b32 .ar 0 ⟨0, false, 0, 0, 0, 0⟩, .lds .b32 ⟨0, false, 0, 0, 1, 0⟩, .sts .f64 ⟨0, true, 1, 0, 0, 0⟩, .pf ⟨0, false, 1, 0, 0, 0⟩,
    .atom .min .f16 .none ⟨0, false, 0, 0, 0, 0⟩, .atom .and .f32 .none ⟨0, false, 0, 0, 0, 0⟩, .atom .add .b64 .none ⟨0, false, 0, 0, 1, 0⟩,
    .atomc .f32 .none ⟨0, false, 0, 0, 0, 0⟩, .pwaddr .f32 ⟨0, false, 0, 0, 0, 0⟩, .pwaddr .f32 ⟨0, true, 0, 0, 62, 0⟩, .pwclaim ⟨0, false, 1, 0, 0, 0⟩,
    .pwraw ⟨0, false, 0, 1, 0, 0⟩, .sld 0 0 1 0 false false, .sld 0 1 0 0 false true, .sst 0 1 0 0 false true, .satom .add .none false ⟨0, 0, 1, 0⟩,
    .satom .add .none true ⟨0, 0, 0, 1⟩, .tld 0 0 1 0, .tst 0 0 1 0, .ald 0 0 1, .ast 0 0 1] : List Instr).all (fun i => !i.wf) = true := by decide

theorem test_wf_control_and_cross_lane : ([.vote .any ⟨0, false, 8, 0, 0, false, 0⟩, .vote .all ⟨0, false, 0, 8, 0, false, 0⟩,
    .vote .all ⟨0, false, 0, 0, 0, false, 16⟩, .shfl .up .f32 ⟨0, false, 0, 0, 0, false, 0⟩, .shfl .up .b64 ⟨0, false, 1, 0, 0, false, 0⟩,
    .red .and .f32 ⟨0, false, 0, 0, 0, false, 0⟩, .red .add .b16 ⟨0, false, 0, 0, 0, false, 0⟩, .scan .add .b32 true ⟨0, true, 0, 0, 0, false, 0⟩,
    .bcast .b32 ⟨0, false, 0, 0, 0, false, 0⟩, .callv 0 1, .calli 0 1, .kset 0 0 1 0, .kset 0 0 0 61, .qpush 0 0 60 4, .twany 0 0 1, .twall 0 1,
    .tffr 0 0 1, .tget 0 1, .tclr 0 1, .mma 0 1 false 0 false 0 0 .f64 false false, .mmc 0 1 false 0 false 0 0 false, .exitSucc 0 1, .rsys 0 0 0x00A,
    .rsys 0 1 0x008, .wsys 0 1 0x014, .wsys 0 0 0xFFF, .svc 0 8 0, .rsc 0 0 1] : List Instr).all (fun i => !i.wf) = true := by decide

theorem test_wf_events : ([.instructionLineFill 1536 0, .pageTableWalk 1536 0, .faultRecordPost 4096, .domeFill 65536 0, .eyeMarginMeasure 16 0 0 0,
    .eyeMarginMeasure 0 32 0 0, .eyeMarginMeasure 0 0 72 0, .eyeMarginMeasure 0 0 0 64, .counterDecay 24, .copy 0 64 0, .copy 0 0 16,
    .gapRecordTimeout 4096, .barrierReleaseStep 0 256, .matrixOperationIssue 0 0 8, .place 384, .walkerTakeEntry 8, .endNode 8192,
    .transportConnection 0 0 4096 0, .debugBreakpoint ⟨0, 0, 0, [], []⟩ 0 8 none, .channel ⟨0, 0, 0, [], []⟩ 16] : List Instr).all (fun i => !i.wf) = true := by
  decide

/-! ## States for the witnesses -/

/-- The sub-band of entry 0 on core 0. -/
def at0 : Cursor := ⟨0, 0, 0⟩

/-- A module on whose core 0 a task with one band of 32 threads stands in a clause, at the cursor. -/
def demo : State := { (State.reset.withFetchWord 32 0) with cur := some at0 }

/-- Registers of the band written under its generation. -/
def State.put (s : Machine.State) (ps : List (Loc × Word)) : Machine.State :=
  s.updCore 0 fun k => k.writeLocs 0 1 ps

def demoWith (ps : List (Loc × Word)) : Machine.State := State.put demo ps
def demoBand (f : Band → Band) : Machine.State := demo.updBand 0 0 f
def demoEntry (f : Entry → Entry) : Machine.State := demo.updEntry 0 0 f
def demoTask (f : Task → Task) : Machine.State := demo.updTask 0 0 f
def demoLaunch (f : Launch → Launch) : Machine.State := demo.updLaunch 1 f

/-- A uniform register, a predicate of a lane and a vector register of a lane of the band. -/
def sReg (r : Nat) : Loc := .srf r
def pReg (l p : Nat) : Loc := .prf (8 * l + p)
def vReg (l r : Nat) : Loc := ((demo.core 0).band 0).vLoc 0 l r

/-- The band in keep mode, its handler at entry 256. -/
def keepAt : Cursor := ⟨0, 0, 256⟩
def demoKeep : Machine.State :=
  let s := (demo.updBand 0 0 fun b => { b with keep := true, frozen := b.threads }).updEntry 0 0 fun e => { e with frozen := true }
  { (s.updCore 0 fun k => { k with table := mapSet k.table 256 { Entry.fresh with lanes := allLanes } }) with cur := some keepAt }

/-- Pages of the task: 64 KiB at address 0 in a buffer of that size, and 64 KiB after it in a buffer that does not exist. -/
def page : Trans := ⟨0, true, true, 0, 0, false, 0, 0, 0, 0, 0⟩
def State.mapped (s : Machine.State) : Machine.State :=
  { (s.updCore 0 fun k => { k with tlb := [⟨0, 0, 16, page⟩, ⟨0, 0x10000, 16, { page with buf := 1 }⟩] }) with
    bufs := [(0, BitVec.ofNat 256 (2 ^ 255 + 2 ^ 254 + 2 ^ 253 + 2 ^ 236 + 2 ^ 160))] }

/-- A sub-band whose clause predicates every lane off. -/
def demoOff : Machine.State := demoEntry fun e => { e with ctx := some ⟨0, 0, 1, 1, false, 1, true, false⟩ }

/-- The page at 0x20000 is of Plynwick blocks, in the first buffer. -/
def State.coded (s : Machine.State) : Machine.State :=
  s.updCore 0 fun k => { k with tlb := k.tlb ++ [⟨0, 0x20000, 16, { page with fmt := 9, pwr := 16 }⟩] }

/-! ## The hypotheses of the statements: integer and floating instructions -/

/-- Every operand at the top of its range, the last source uniform; the lowest registers, the destination a source; pairs. -/
def top : VV := ⟨3, true, 127, 127, 63⟩
def low : VV := ⟨0, false, 0, 0, 0⟩
def pair : VV := ⟨1, true, 126, 126, 62⟩

theorem witness_VectorOps :
    (∀ i ∈ [.addB32 top, .subB32 top, .mulB32 top, .mulhiI32 top, .mulhiB32 top, .andB32 top, .orB32 top, .xorB32 top, .andnB32 top,
        .shlB32 top, .shrB32 top, .sraB32 top, .minI32 top, .minB32 top, .maxI32 top, .maxB32 top, .bfeB32 top, .bfeI32 top],
      (wordOp i).map (·.1) = some top ∧ demo.issues at0 i (shapeVV top) = true) ∧
    (∀ i ∈ [.addB64 pair, .subB64 pair, .shlB64 pair, .shrB64 pair, .sraB64 pair],
      (pairOp i).map (·.1) = some pair ∧ demo.issues at0 i (shapeVV pair true) = true) ∧
    (∀ i ∈ [.madB32 low, .bfiB32 low],
      (accOp i).map (·.1) = some low ∧ demo.issues at0 i (shapeVV low false true) = true) := by decide +kernel

theorem witness_VectorOneSource :
    (∀ i ∈ [.mov ⟨0, 127, 0⟩, .absI32 ⟨0, 127, 0⟩, .popc ⟨0, 127, 0⟩, .clz ⟨0, 127, 0⟩, .brev ⟨0, 127, 0⟩],
      (unaryOp i).map (·.1) = some ⟨0, 127, 0⟩ ∧ demo.issues at0 i (shapeVU ⟨0, 127, 0⟩) = true) ∧
    (∀ p ∈ ([(.lid 3 127, 3, 127, []), (.li 0 0 0x2000, 0, 0, []), (.movs 0 5 63, 0, 5, [63])] :
        List (Instr × BitVec 2 × BitVec 7 × List (BitVec 6))),
      (laneOp p.1).map (fun r => (r.1, r.2.1, r.2.2.1)) = some p.2 ∧
      demo.issues at0 p.1 { uni := false, d := p.2.1, vs := [p.2.2.1.toNat], srcs := p.2.2.2.map (Src.s ·.toNat) } = true) := by
  decide +kernel

theorem witness_VectorCompare :
    demo.issues at0 (.cmp32 ⟨0, true, 9, 0, 127, 63⟩) (shapeVC ⟨0, true, 9, 0, 127, 63⟩) = true ∧
    demo.issues at0 (.cmp64 ⟨0, false, 0, 7, 126, 126⟩) (shapeVC ⟨0, false, 0, 7, 126, 126⟩ true) = true := by decide +kernel

theorem witness_PredicateLogic :
    ∀ i ∈ [.pand 0 0 7 7, .por 0 0 7 7, .pxor 0 0 7 7, .pnot 0 0 7],
      (predicateOp i).map (fun r => (r.1, r.2.1, r.2.2.1, r.2.2.2.1)) = some (0, 0, 7, 7) ∧
      demo.issues at0 i { uni := false, d := 0, srcs := [.p 7, .p 7] } = true := by decide +kernel

theorem witness_VectorSelectAndIndex :
    demo.issues at0 (.sel 7 top) { shapeVV top with srcs := .p 7 :: .v 127 :: lastSrc true 63 } = true ∧
    demo.issues at0 (.vmovr top) { shapeIdx top top.va with pre := indexPre top top.va true } = true ∧
    demo.issues at0 (.vmovw low) { shapeIdx low low.vd with
      pre := indexPre low low.vd false, srcs := .v low.va.toNat :: lastSrc low.u low.vb } = true := by decide +kernel

theorem witness_UniformOps :
    (∀ i ∈ [.sadd ⟨0, 63, 63, 0⟩, .ssub ⟨0, 63, 63, 0⟩, .smul ⟨0, 63, 63, 0⟩, .smulhiI32 ⟨0, 63, 63, 0⟩, .smulhiB32 ⟨0, 63, 63, 0⟩,
        .sand ⟨0, 63, 63, 0⟩, .sor ⟨0, 63, 63, 0⟩, .sxor ⟨0, 63, 63, 0⟩, .sshl ⟨0, 63, 63, 0⟩, .sshr ⟨0, 63, 63, 0⟩,
        .ssra ⟨0, 63, 63, 0⟩, .sminI32 ⟨0, 63, 63, 0⟩, .sminB32 ⟨0, 63, 63, 0⟩, .smaxI32 ⟨0, 63, 63, 0⟩, .smaxB32 ⟨0, 63, 63, 0⟩,
        .scmp 9 ⟨0, 63, 63, 0⟩],
      (uniformOp i).map (·.1) = some ⟨0, 63, 63, 0⟩ ∧ demo.issues at0 i (shapeS3 ⟨0, 63, 63, 0⟩) = true) ∧
    (∀ i ∈ [.saddB64 ⟨0, 62, 62, 0⟩, .ssubB64 ⟨0, 62, 62, 0⟩], demo.issues at0 i (shapeS 0 (sSrc64 62 ++ sSrc64 0)) = true) ∧
    (∀ p ∈ ([(.smov 0 63 63, 0, 63, [63]), (.spopc 0 63 63, 0, 63, [63]), (.sclz 0 63 63, 0, 63, [63]),
        (.ssel ⟨0, 63, 0, 1⟩, 0, 63, [63, 0, 1]), (.sli 0 63 0x20000, 0, 63, []), (.slih 0 63 0xFFFF, 0, 63, [63]),
        (.sbfe 0 63 1 31 31 true, 0, 63, [1]), (.sbfi 0 63 1 0 31, 0, 63, [63, 1]), (.saddImm 0 63 0 0x800, 0, 63, [0])] :
        List (Instr × BitVec 2 × BitVec 6 × List (BitVec 6))),
      (uniformOther p.1).map (fun r => (r.1, r.2.1, r.2.2.1)) = some p.2 ∧
      demo.issues at0 p.1 (shapeS p.2.1 (p.2.2.2.map (Src.s ·.toNat))) = true) := by decide +kernel

theorem witness_FloatOps :
    (∀ ty ∈ [FTy.f64, .f32, .f16x2, .bf16x2],
      (∀ i ∈ [.fadd ty pair, .fsub ty pair, .fmul ty pair, .fmin ty pair, .fmax ty pair, .fminm ty pair, .fmaxm ty pair],
        (floatTwo i).map (fun r => (r.1, r.2.1, r.2.2.1)) = some (ty, pair, false) ∧
        demo.issues at0 i (shapeVV pair ty.isWide false) = true) ∧
      ((floatTwo (.fma ty pair)).map (fun r => (r.1, r.2.1, r.2.2.1)) = some (ty, pair, true) ∧
        demo.issues at0 (.fma ty pair) (shapeVV pair ty.isWide true) = true)) ∧
    (∀ ty ∈ [FTy.f32, .f16x2, .bf16x2], ∀ i ∈ [.frcp ty ⟨0, 126, 0⟩, .frsq ty ⟨0, 126, 0⟩],
      (floatOne i).map (fun r => (r.1, r.2.1)) = some (ty, ⟨0, 126, 0⟩) ∧ demo.issues at0 i (shapeVU ⟨0, 126, 0⟩ ty.isWide) = true) ∧
    (∀ ty ∈ [FTy.f64, .f32, .f16x2, .bf16x2], ∀ i ∈ [.frnd ty .ra ⟨0, 126, 0⟩, .fclass ty ⟨0, 126, 0⟩],
      (floatOne i).map (fun r => (r.1, r.2.1)) = some (ty, ⟨0, 126, 0⟩) ∧ demo.issues at0 i (shapeVU ⟨0, 126, 0⟩ ty.isWide) = true) := by
  decide +kernel

theorem witness_FloatCompareScaleDot :
    (∀ ty ∈ [FTy.f64, .f32], demo.issues at0 (.fcmp ty ⟨0, false, 0, 7, 126, 0⟩) (shapeVC ⟨0, false, 0, 7, 126, 0⟩ ty.isWide) = true) ∧
    (∀ w ∈ [FW.f64, .f32], demo.issues at0 (.fscale w pair) { shapeVV pair w.ty.isWide with
      srcs := (if w.ty.isWide then src64 pair.va else [.v pair.va.toNat]) ++ lastSrc pair.u pair.vb } = true) ∧
    (∀ h ∈ [FH.f16, .bf16], demo.issues at0 (.fdot2 h top) (shapeVV top false true) = true) := by decide +kernel

theorem witness_FloatLongLatency :
    (∀ s ∈ [demo, demoOff],
      (∀ w ∈ [FW.f64, .f32], s.issues at0 (.fdiv w pair) (shapeVV pair w.ty.isWide) = true) ∧
      (∀ ty ∈ [FTy.f64, .f32], s.issues at0 (.fsqrt ty ⟨0, 126, 0⟩) (shapeVU ⟨0, 126, 0⟩ ty.isWide) = true) ∧
      s.issues at0 (.ftab 15 ⟨0, 127, 0⟩) (shapeVU ⟨0, 127, 0⟩) = true) ∧
    (demo.seen at0 (.fdiv .f32 low) (shapeVV low)).active ≠ 0 ∧ (demoOff.seen at0 (.fdiv .f32 low) (shapeVV low)).active = 0 := by
  decide +kernel

theorem witness_FormatOps :
    (∀ i ∈ [.cvt .f32 .f64 .rn false ⟨0, false, 126, 127, 0, 0⟩, .cvt .f64 .f32 .ra true ⟨0, false, 127, 126, 0, 0⟩,
        .pk .f32 .e4m3 .rn true ⟨0, true, 127, 127, 63, 126⟩, .upk .ci8 .i32 .rn false ⟨0, true, 126, 127, 0, 0⟩,
        .qz .f32 .q16n .rn false ⟨0, true, 127, 127, 63, 127⟩, .dq .q16n .f32 .rn false ⟨0, true, 127, 127, 63, 127⟩,
        .mxq .f32 .e2m1 .rn false ⟨0, true, 127, 127, 63, 0⟩, .mxdq .e2m1 .f32 .rn false ⟨0, true, 127, 127, 63, 0⟩],
      (match formatOp i with
        | some m => demo.issues at0 i (shapeFV m.o m.wa m.last m.vc)
        | none => false) = true) ∧
    (∀ p ∈ [(Fmt.i32, Fmt.i64), (.b32, .i64), (.i64, .i32), (.i64, .b32), (.i32, .b32), (.b32, .i32)],
      cvtPair p.1 p.2 .rn false = true) ∧
    (∀ p ∈ [(Fmt.i64, Fmt.i32), (.i64, .b32), (.i32, .b32), (.b32, .i32)], cvtPair p.1 p.2 .rn true = true) ∧
    (-(2 ^ 31) ≤ intValue .i32 (2 ^ 32 - 1) ∧ ¬(intLow .b32 ≤ intValue .i32 (2 ^ 32 - 1)) ∧ ¬(intValue .b32 (2 ^ 32 - 1) ≤ intHigh .i32)) := by
  decide +kernel

theorem witness_RoundingAndNaN :
    (∀ p ∈ [f64S, f32S, f16S, bf16S], (unpackF p (faddF p .rn false p.nanBits 0).1).isNaN = true) ∧ 0 < 1 := by decide +kernel

/-! ## The hypotheses of the statements: issue, traps and control -/

/-- A division by lane 5 in flight on completion flag f1. -/
def flown : Flight := ⟨0, 1, 0x20, some 1, .result true 0 [(vReg 5 3, 7), (.nowhere, 1), (.nowhere, 2)] flNX⟩

theorem witness_FloatCompletion :
    (let s := demo.updCore 0 fun k => { k with flights := [(9, flown)] }
     mapGet (s.core 0).flights 9 = some flown ∧ (mapGet (s.core 0).bands flown.slot).isSome = true) ∧
    Distinct [(vReg 5 3, 7), (.nowhere, 1), (.nowhere, 2)] := by
  unfold Distinct
  decide +kernel

theorem witness_Branches :
    demo.issues at0 (.bra 3 0x20000) (shapeS 3 []) = true ∧
    (∀ s ∈ [demo, demoWith [(sReg 63, 1)]], s.issues at0 (.brz 0 63 0x1FFFF) (shapeS 0 [.s 63]) = true ∧
      s.issues at0 (.brnz 0 63 0x1FFFF) (shapeS 0 [.s 63]) = true) ∧
    (demo.seen at0 (.brz 0 63 0) (shapeS 0 [.s 63])).s (63 : BitVec 6) = 0 ∧
    ((demoWith [(sReg 63, 1)]).seen at0 (.brz 0 63 0) (shapeS 0 [.s 63])).s (63 : BitVec 6) = 1 ∧
    (∀ s ∈ [demo, demoBand fun b => { b with lc := [(7, 2)] }], s.issues at0 (.lnext 0 7 0) (shapeS 0 []) = true) := by decide +kernel

theorem witness_NopTakesOneSlot : demo.issues at0 (.nop 3) (shapeS 3 []) = true := by decide +kernel

theorem witness_LoopNest :
    demo.issues at0 (.lset 0 7 63) (shapeS 0 [.s 63]) = true ∧ demo.issues at0 (.lget 0 63 0) (shapeS 0 []) = true ∧
    demo.issues at0 (.kset 0 15 62 60) (shapeS 0 (sSrc64 62 ++ (List.range 4).map fun i => .s (60 + i))) = true := by decide +kernel

theorem witness_IssueFrame : demo.stands at0 = true ∧ demoKeep.stands keepAt = true := by decide +kernel

/-- A band whose task has a handler takes the trap into keep mode; in keep mode, and without a handler, it ends the task. -/
theorem witness_TrapEntry :
    (mapGet ((demoTask fun t => { t with kvec := 0x100 }).core 0).bands 0).isSome = true ∧
    (mapGet (demo.core 0).bands 0).isSome = true ∧ (mapGet (demoKeep.core 0).bands 0).isSome = true ∧
    ((demo.core 0).band 0).keep = false ∧ ((demoKeep.core 0).band 0).keep = true ∧
    (mapGet (demo.core 0).tasks ((demo.core 0).band 0).task).isSome = true := by decide +kernel

theorem witness_ChecksComeFirst :
    ((demo.updCore 0 fun k => { k with bps := [(0, 0x10004)] }).breaks at0 = true ∧ demo.breaks at0 = false) ∧
    (Instr.kset 0 0 1 0).wf = false ∧
    ((Instr.kret 0).wf = true ∧ (Instr.kret 0).keepOnly = true ∧ ((demo.core 0).band 0).keep = false) ∧
    check (.addB32 ⟨0, false, 0, 0, 127⟩) (shapeVV ⟨0, false, 0, 0, 127⟩)
      ((demoTask fun t => { t with nv := 120 }).seen at0 (.addB32 ⟨0, false, 0, 0, 127⟩) (shapeVV ⟨0, false, 0, 0, 127⟩)) ≠ none := by
  decide +kernel

theorem witness_TrapInstructions :
    demo.issues at0 (.brk 0 255) (shapeS 0 []) = true ∧ demo.issues at0 (.trap 0 0) (shapeS 0 []) = true ∧
    demo.issues at0 (.illegalEncoding 0) { uni := false, d := 0 } = true ∧
    demo.issues at0 (.illegalEncoding 0xF7FFFFFF) { uni := true, d := BitVec.ofNat 2 (wordD 0xF7FFFFFF) } = true := by decide +kernel

/-- A calling thread at a depth, its task with thread-local memory for `tlm / 8` more entries. -/
def deep (n tlm : Nat) : Machine.State := State.mapped ((demoTask fun t => { t with tlm := tlm, tlstride := 0x400 }).updThreads 0 0 1 fun _ y => { y with depth := n })

theorem witness_Calls :
    (∀ s ∈ [demo, deep 7 0, deep 8 0, deep 8 8, deep 9 8], s.issues at0 (.call 0 0x20000) (shapeS 0 []) = true) ∧
    (∀ p ∈ [(7, 0, true), (8, 0, false), (8, 8, true), (9, 8, false)],
      let s := deep p.1 p.2.1
      let i := Instr.call 0 0x20000
      let x := s.seen at0 i (shapeS 0 [])
      (p.2.2 = true → ((s.passed at0 i (shapeS 0 [])).spillFault x (x.pushSpills x.lanes) accStore).isNone = true) ∧
      (if p.2.2 then ∀ l ∈ lanesOf x.lanes, (x.b.thread l).depth + 1 ≤ 8 + x.task.tlm / 8
        else ∃ l ∈ lanesOf x.lanes, 8 + x.task.tlm / 8 < (x.b.thread l).depth + 1)) ∧
    (let s := demoWith [(sReg 62, 6), (sReg 63, 0x80000000)]
     s.issues at0 (.calli 0 62) (shapeS 0 (sSrc64 62)) = true ∧
     ((s.seen at0 (.calli 0 62) (shapeS 0 (sSrc64 62))).s64 (62 : BitVec 6)).toNat % 4 ≠ 0) ∧
    (∀ s ∈ [demo, demoOff, deep 8 0, deep 8 8, demoWith [(vReg 31 126, 1)]],
      s.issues at0 (.callv 0 126) { uni := true, d := 0, vs := [126], srcs := src64 126 } = true) ∧
    (let x := fun (s : Machine.State) => s.seen at0 (.callv 0 126) { uni := true, d := 0, vs := [126], srcs := src64 126 }
     (x demoOff).active = 0 ∧
     (lanesOf (x (demoWith [(vReg 31 126, 1)])).active).find?
       (fun l => ((x (demoWith [(vReg 31 126, 1)])).v64 l (126 : BitVec 7)).toNat % 4 ≠ 0) = some 31 ∧
     (∀ l ∈ lanesOf (x demo).active, ((x demo).v64 l (126 : BitVec 7)).toNat % 4 = 0) ∧ (lanesOf (x demo).active).head? = some 0 ∧
     ((demo.passed at0 (.callv 0 126) { uni := true, d := 0, vs := [126], srcs := src64 126 }).spillFault (x demo)
       ((x demo).pushSpills (x demo).active) accStore).isNone = true ∧
     ∃ l ∈ lanesOf (x (deep 8 0)).active, 8 + (x (deep 8 0)).task.tlm / 8 < ((x (deep 8 0)).b.thread l).depth + 1) := by
  decide +kernel

/-- Lanes 1 to 3 deferred: 1 yielded, 2 and 3 at one place, 3 one call deeper. -/
def deferred : Machine.State :=
  (demoEntry fun e => { e with lanes := 1, defer := 0xE }).updThreads 0 0 0xE fun l y =>
    { y with mark := if l = 1 then .yielded else .none, depth := if l = 3 then 1 else 0 }

theorem witness_ResumeGroup :
    let k := deferred.core 0
    lanesOf (k.resumable (k.entry 0)) = [2, 3] ∧ lanesOf (k.resumeGroup (k.entry 0)) = [3] ∧
    lanesOf ((demo.core 0).resumable ((demo.core 0).entry 0)) = [] := by decide +kernel

theorem witness_Split :
    (∀ s ∈ [demo, demoWith [(pReg 0 7, 1)], demoWith ((List.range 32).map fun l => (pReg l 7, 1))],
      s.issues at0 (.split 0 15 7 0x10000) (shapeS 0 [.pAll 7]) = true ∧ ((s.core 0).entry 0).wait = .ready) ∧
    ((demo.passed at0 (.split 0 15 7 0x10000) (shapeS 0 [.pAll 7])).core 0).freeEntry.isSome = true := by decide +kernel

/-- Every lane but lane 0 arrived at rejoin mask 15, of every lane. -/
def arrived : Machine.State := demoBand fun b => { b with j := [(15, allLanes)], arr := [(15, 0xFFFFFFFE)], arrPc := [(15, 0x10008)] }

theorem witness_Joins :
    (demo.issues at0 (.join 0 15) (shapeS 0 []) = true ∧ demo.issues at0 (.jwait 0 15) (shapeS 0 []) = true ∧
      demo.issues at0 (.jset 0 15 63) (shapeS 0 [.s 63]) = true ∧ demo.issues at0 (.jget 0 63 0) (shapeS 0 []) = true) ∧
    (0 ∈ (demo.core 0).entriesOf 0 ∧ ((demo.core 0).entriesOf 0).Nodup ∧ ((demo.core 0).entry 0).wait = .ready ∧
      (let s := demoEntry fun e => { e with wait := .jwait 15 }
       0 ∈ (s.core 0).entriesOf 0 ∧ ((s.core 0).entriesOf 0).Nodup ∧ ((s.core 0).entry 0).wait = .jwait 15 ∧
         ((s.core 0).entry 0).frozen = false)) ∧
    (let s := demoBand fun b => { b with j := [(0, 3)], arr := [(0, 1)] }
     (mapGet (s.core 0).table 0).isSome = true ∧ ((s.core 0).entry 0).slot = 0 ∧ ((s.core 0).band 0).complete 0 = false) ∧
    (let s := arrived.updEntry 0 0 fun e => { e with lanes := 0 }
     let s' := arrived.updBand 0 0 fun b => { b with arr := [(15, allLanes)] }
     (∀ t ∈ [s', s'.updEntry 0 0 fun e => { e with lanes := 0 }], ((t.core 0).band 0).complete 15 = true ∧
       mapGetD ((t.core 0).band 0).arr 15 0 &&& ((t.core 0).band 0).live ≠ 0 ∧ (mapGet (t.core 0).table 0).isSome = true ∧
       (t.core 0).freeEntry.isSome = true) ∧ ((s.core 0).entry 0).lanes = 0) := by decide +kernel

theorem witness_Return :
    (∀ s ∈ [demo, deep 8 0, State.mapped (demo.updThreads 0 0 allLanes fun l y => { y with depth := l % 9 + 1, stack := [(1, 0x101)] }),
        (demo.updThreads 0 0 allLanes fun _ y => { y with depth := 8, stack := [(8, 0x100)] })],
      s.issues at0 (.ret 3) (shapeS 3 []) = true ∧ ((s.core 0).entry 0).wait = .ready) ∧
    (let s := demo.updThreads 0 0 allLanes fun _ y => { y with depth := 8, stack := [(8, 0x100)] }
     let x := s.seen at0 (.ret 3) (shapeS 3 [])
     let m := s.passed at0 (.ret 3) (shapeS 3 [])
     (m.spillFault x x.popSpills accLoad).isNone = true ∧ (m.readEntries x).2.1 = 0 ∧ ∀ l ∈ lanesOf x.lanes, (x.b.thread l).depth ≠ 0) ∧
    (let x := demo.seen at0 (.ret 3) (shapeS 3 [])
     let m := demo.passed at0 (.ret 3) (shapeS 3 [])
     (m.spillFault x x.popSpills accLoad).isNone = true ∧ (m.readEntries x).2.1 = 0 ∧ ∃ l ∈ lanesOf x.lanes, (x.b.thread l).depth = 0) ∧
    (∀ p ∈ [((0 : BitVec 64), 0), (0x10000, 2)],
      let s := (deep 9 8).updTask 0 0 fun t => { t with tlbase := p.1 }
      let x := s.seen at0 (.ret 3) (shapeS 3 [])
      let m := s.passed at0 (.ret 3) (shapeS 3 [])
      s.issues at0 (.ret 3) (shapeS 3 []) = true ∧ (m.spillFault x x.popSpills accLoad).isNone = true ∧ (m.readEntries x).2.1 = p.2) := by
  decide +kernel

theorem witness_Yield :
    demo.issues at0 (.yield 0) (shapeS 0 []) = true ∧ deferred.issues at0 (.yield 3) (shapeS 3 []) = true ∧
    ((deferred.passed at0 (.yield 3) (shapeS 3 [])).core 0).resumable (((deferred.passed at0 (.yield 3) (shapeS 3 [])).core 0).entry 0) ≠ 0 := by
  decide +kernel

/-- The band at a header of f0 and f1, whose clause is `nop`, both flags at a count. -/
def atHeader (n : Nat) : Machine.State :=
  let s := (demo.updEntry 0 0 fun e => { e with ctx := none }).updThreads 0 0 allLanes fun _ y => { y with pc := y.base }
  s.updBand 0 0 fun b => { b with flags := [(0, n), (1, n)] }

theorem witness_ClauseHeaders :
    (∀ n ∈ [62, 63], (atHeader n).stands at0 = true ∧
      (clauseWords (fun a => ((atHeader n).core 0).codeWord ((atHeader n).pdOf 0 0) a false) 1 (0x10000 + 4)).toOption.map (·.length) = some 1 ∧
      (((atHeader n).core 0).band 0).headerOk 0 1 1 0 = decide (n = 62)) ∧
    (∀ l < 32, (((atHeader 0).core 0).band 0 |>.thread l).pc = 0x10000 ∧ (((atHeader 0).core 0).band 0 |>.thread l).base = 0x10000) := by
  decide +kernel

theorem witness_Exits :
    (demo.issues at0 (.exit 0) (shapeS 0 []) = true ∧ (demo.seen at0 (.exit 0) (shapeS 0 [])).keep = false) ∧
    (keepAt.entry = 256 + keepAt.slot ∧ (demoKeep.seen keepAt (.exit 0) (shapeS 0 [])).keep = true ∧
      demoKeep.issues keepAt (.exit 0) (shapeS 0 []) = true ∧
      demoKeep.issues keepAt (.exitSucc 0 62) { shapeS 0 (sSrc64 62) with priv := true } = true ∧
      (mapGet (demoKeep.core 0).tasks 0).isSome = true ∧
      demoKeep.issues keepAt (.halt 0) { shapeS 0 [] with priv := true } = true) := by decide +kernel

theorem witness_SystemReads :
    demo.issues at0 (.gen 0 63) (shapeS 0 []) = true ∧
    ([0x000, 0x001, 0x002, 0x003, 0x004, 0x005, 0x006, 0x007, 0x008, 0x009, 0x010, 0x011, 0x012, 0x013, 0x025].all fun n =>
      demo.issues at0 (.rsys 0 62 n) { shapeS 0 [] with priv := sysPrivileged n }) = true ∧
    ([0x020, 0x021, 0x022, 0x023, 0x024].all fun n =>
      demoKeep.issues keepAt (.rsys 0 62 n) { shapeS 0 [] with priv := sysPrivileged n }) = true := by
  decide +kernel

theorem witness_Phases :
    (∀ s ∈ [demo, demoTask fun t => { t with phase := some ⟨0, [], 0, 0, false, false, none, 0⟩ },
        demoTask fun t => { t with phase := some ⟨0x10004, [], 0, 0, false, false, none, 0⟩ }],
      s.issues at0 (.phase 0 63) (shapeS 0 [.s 63]) = true ∧ (s.seen at0 (.phase 0 63) (shapeS 0 [.s 63])).keep = false) ∧
    (demoKeep.issues keepAt (.phase 0 63) (shapeS 0 [.s 63]) = true ∧ (demoKeep.seen keepAt (.phase 0 63) (shapeS 0 [.s 63])).keep = true) ∧
    (demo.seen at0 (.phase 0 63) (shapeS 0 [.s 63])).pc = 0x10004 ∧ (mapGet (demo.core 0).tasks 0).isSome = true := by decide +kernel

def wsysShape (n : BitVec 12) (r : BitVec 6) : Shape :=
  { shapeS 0 (if (sysWide n).getD false then sSrc64 r else [.s r.toNat]) with
    priv := sysPrivileged n, pre := fun x => if sysReadOnly n x.keep then some 0x01 else none }

theorem witness_SystemWrites :
    ([demo, demoWith [(sReg 62, 3)]].all fun s => [0x010, 0x011, 0x012, 0x014].all fun n =>
      s.issues at0 (.wsys 0 62 n) (wsysShape n 62)) = true ∧
    ([demoKeep, State.put demoKeep [(sReg 54, 2)]].all fun s => [0x021, 0x022, 0x025].all fun n =>
      s.issues keepAt (.wsys 0 54 n) (wsysShape n 54)) = true := by decide +kernel

theorem witness_KeepReturn :
    (∀ s ∈ [demoKeep, demoKeep.updBand 0 0 fun b => { b with kcause := 0x30E }],
      s.issues keepAt (.kret 0) { shapeS 0 [] with priv := true } = true ∧ (mapGet (s.core 0).tasks 0).isSome = true) ∧
    ((demoKeep.core 0).band 0).restored = false ∧ ((demoKeep.core 0).band 0).kcause ≠ 0x30E ∧
    (∀ s ∈ [demoKeep, demoKeep.updBand 0 0 fun b => { b with ktrap := some 0 }], (mapGet (s.core 0).bands 0).isSome = true ∧
      ∀ p ∈ (s.core 0).table, p.2.slot = 0) := by decide +kernel

/-- The handler with the address of a record in S0 and S1, and its pages. -/
def saving (a : Word) : Machine.State := State.mapped (State.put demoKeep [(sReg 0, a)])
def saveShape (y : BitVec 6) : Shape := { shapeS 0 (sSrc64 y) with priv := true, mem := true }

/-- Memory that holds the predicates' record of the band. -/
def recorded : Machine.State :=
  let s := saving 0
  { s with mem := ((s.record ⟨0, 0, 0⟩ 2).zipIdx.filter (·.1 != 0)).map fun b => (b.2, b.1) }

theorem witness_SaveRestore :
    ([.svc 0 2 0, .rsc 0 2 0].all fun i => [0, 1, 0x10000].all fun a => (saving a).issues keepAt i (saveShape 0)) = true ∧
    ((saving 1).seen keepAt (.svc 0 2 0) (saveShape 0)).s64 (0 : BitVec 6) = 1 ∧
    (let s := saving 0
     let x := s.seen keepAt (.svc 0 2 0) (saveShape 0)
     let m := s.passed keepAt (.svc 0 2 0) (saveShape 0)
     (match recPages x m 0 (x.task.recShape 2).size accUStore with
       | .ok l => m.quiescent x.recAt 2 && !recWaits x l
       | .error _ => false) = true ∧ (m.core 0).flights = []) ∧
    (∀ p ∈ [(recorded, (0 : BitVec 64), 0, true), (saving 0, 0, 0, false), (saving 0x10000, 0x10000, 2, false)],
      let x := p.1.seen keepAt (.rsc 0 2 0) (saveShape 0)
      let m := p.1.passed keepAt (.rsc 0 2 0) (saveShape 0)
      p.1.issues keepAt (.rsc 0 2 0) (saveShape 0) = true ∧ x.s64 (0 : BitVec 6) = p.2.1 ∧ (m.core 0).flights = [] ∧
      (match recPages x m p.2.1 (x.task.recShape 2).size accULoad with
        | .ok l => !recWaits x l && (m.readRecord x l).2.1 == p.2.2.1 &&
            (m.readRecord x l).1.headerFits x.recAt 2 (m.readRecord x l).2.2 == p.2.2.2
        | .error _ => false) = true) := by decide +kernel

/-! ## The hypotheses of the statements: encodings and steps -/

theorem witness_RoundTrip : (∀ i ∈ [Instr.addB32 ⟨3, true, 127, 127, 63⟩, .ld .f64 .acq ⟨0, true, 126, 127, 62, 0x3FFFF⟩], i.wf = true ∧ (encode i).isEmpty = false) ∧
    (match decode 0xF8000780 7 with | .ok i => i == .clause 0 0 15 0 false 0 | .error _ => false) = true := by decide +kernel

theorem witness_MemoryKeepsForm : Memory.wf State.reset.mem = true ∧ Memory.wf [(0, 1), (2 ^ 43 - 1, 255)] = true ∧
    (match step demo with | .next _ => true | _ => false) = true := by decide +kernel

/-- A sub-band at the last word of its line, a header, the words after which are missing. -/
def atEnd : Machine.State :=
  let s := (State.reset.withFetchWord 32 0xF8000780).updThreads 0 0 allLanes fun _ y => { y with pc := 0x1007C, base := 0x1007C }
  s.updCore 0 fun k => { k with ibuf := [⟨0, 0x10000, BitVec.ofNat 1024 (0xF8000780 * 2 ^ 992), false⟩] }

theorem witness_StepRunsDecoded :
    (∀ w ∈ [0x08408184, 0, 0xF8000780, 0x18220104 + 0xA0000040 * 2 ^ 32],
      let s := State.reset.withFetchWord 64 w
      s.turns = [.issue 0 0] ∧ s.runs = true ∧ ({ s with turns := [] } : Machine.State).pick 0 0 = some 0 ∧
        ((s.core 0).entry 0).ctx.isSome = !isHeader (BitVec.ofNat 32 w) ∧
        (s.core 0).codeWord 0 ((s.core 0).nextAddr ((s.core 0).entry 0)) false = some (BitVec.ofNat 32 w)) ∧
    (∀ s ∈ [atEnd, (State.reset.withFetchWord 32 0).updCore 0 fun k => { k with ibuf := [] }],
      s.turns = [.issue 0 0] ∧ s.runs = true ∧ ({ s with turns := [] } : Machine.State).pick 0 0 = some 0) ∧
    ((atEnd.core 0).codeWord 0 0x1007C false = some 0xF8000780 ∧
      (clauseWords (fun a => (atEnd.core 0).codeWord 0 a false) 1 0x10080).toOption.isNone = true) ∧
    (let s := (atHeader 0).updCore 0 fun k => { k with ibuf := [⟨0, 0x10000, BitVec.ofNat 1024 5, false⟩] }
     let s := { s with turns := [.issue 0 0] }
     s.runs = true ∧ ({ s with turns := [] } : Machine.State).pick 0 0 = some 0 ∧ ((s.core 0).entry 0).ctx = none ∧
       (s.core 0).codeWord 0 0x10000 false = some 5 ∧ isHeader (5 : Word) = false) ∧
    (Instr.isCode .controlInterval = false ∧ State.reset.allows .controlInterval = true ∧
      ({ State.reset with mgmt := { Mgmt.fresh with halted := true } } : Machine.State).allows .controlInterval = false) ∧
    (let s := { State.reset.withFetchWord 32 0 with turns := [] }
     s.runs = true ∧ ({ s with cur := none } : Machine.State).dueEvent.isNone = true ∧ s.firstIssue.isSome = true) ∧
    ({ State.reset with mgmt := { Mgmt.fresh with halted := true } } : Machine.State).runs = false := by decide +kernel

/-! ## The hypotheses of the statements: cross-lane operations, synchronisation, queues and the matrix unit -/

/-- Rejoin mask 15 with the bits of a word, and the fields of a cross-lane instruction whose members it gives. -/
def masked (m : Word) : Machine.State := demoBand fun b => { b with j := [(15, m)] }
def members : GV := ⟨0, false, 1, 126, 0, false, 15⟩
def voters : GV := ⟨0, false, 1, 7, 0, false, 15⟩
def crossShape (f : CrossForm) : Shape := { uni := false, d := f.o.d, words := 2, vs := f.vs, srcs := [] }

def crossOps : List Instr :=
  [.vote .all voters, .vote .any voters, .vote .ballot voters, .shfl .idx .b32 members, .shfl .up .b32 members, .shfl .down .b32 members,
    .shfl .xor .b32 members, .bcast .b32 ⟨0, true, 1, 126, 63, false, 15⟩, .red .add .f32 members, .scan .max .i32 true members]

theorem witness_CrossLane :
    (∀ i ∈ crossOps, ∀ s ∈ [masked 0, masked allLanes, masked 0x80000000],
      (match crossForm i with
        | some f => s.issues at0 i (crossShape f) && !(s.seen at0 i (crossShape f)).l.gentrap
        | none => false) = true) ∧
    (let i := Instr.vote .all voters
     let q := { uni := false, d := 0, words := 2, vs := [], srcs := [] : Shape }
     let x := fun (s : Machine.State) => s.seen at0 i q
     let m := fun (s : Machine.State) => (x s).members voters
     let gone := (masked allLanes).updThreads 0 0 0x80000000 fun _ y => { y with exited := true }
     let other := (masked allLanes).updBand 0 0 fun b => { b with xop := some ⟨0, 0, allLanes, 0x10004, 0, 0, [], []⟩ }
     let half := (masked allLanes).updEntry 0 0 fun e => { e with lanes := 0xFFFF }
     (x (masked 0)).lanes &&& m (masked 0) = 0 ∧ m gone &&& ~~~(x gone).b.live ≠ 0 ∧
     (x other).mismatch i (m other) = true ∧ m other &&& ~~~(x other).b.live = 0 ∧
     (x (masked allLanes)).mismatch i allLanes = false ∧ (x (masked allLanes)).lanes &&& allLanes = allLanes ∧
     half.issues at0 i q = true ∧ (x half).lanes = 0xFFFF ∧ m half &&& ~~~(x half).b.live = 0 ∧ (x half).mismatch i (m half) = false) := by
  decide +kernel

theorem witness_Fences :
    ∀ i ∈ [.rel 0, .acq 0, .sync 0, .xrel 0, .xrelDram 0], demo.issues at0 i (shapeS 0 []) = true := by decide +kernel

/-- Group 0 of the launch usable to its tasks, its task in a band that has arrived nowhere yet. -/
def grouped : Machine.State := demoLaunch fun l => { l with groups := [(0, ⟨[], 0, true, [0], []⟩)] }

theorem witness_Barriers :
    (∀ i ∈ [.bar 0 0 63, .arrive 0 0 63], ∀ s ∈ [demo, grouped, State.put grouped [(sReg 63, 1)], demoWith [(sReg 63, 0x80000001)]],
      s.issues at0 i (shapeS 0 [.s 63]) = true) ∧
    (demo.seen at0 (.bar 0 0 63) (shapeS 0 [.s 63])).l.usable 0 0 = false ∧
    (grouped.seen at0 (.bar 0 255 63) (shapeS 0 [.s 63])).l.usable 255 0 = false ∧
    (grouped.seen at0 (.bar 0 0 63) (shapeS 0 [.s 63])).l.usable 0 0 = true ∧
    (let s := (State.put grouped [(sReg 63, 1)]).updTask 0 0 fun t => { t with bars := [(0, ⟨some 1, [(0, 0x80000000)], [], 0⟩)] }
     let t := (State.put grouped [(sReg 63, 3)]).updTask 0 0 fun t => { t with bars := [(0, ⟨some 1, [], [], 0⟩)] }
     let x := s.seen at0 (.bar 0 0 63) (shapeS 0 [.s 63])
     s.issues at0 (.bar 0 0 63) (shapeS 0 [.s 63]) = true ∧ (x.s (63 : BitVec 6)).getLsbD x.b.index = true ∧
       mapGetD (x.task.barOf 0).arrived x.b.index 0 &&& x.lanes ≠ 0 ∧
       t.issues at0 (.arrive 0 0 63) (shapeS 0 [.s 63]) = true ∧
       ((t.seen at0 (.arrive 0 0 63) (shapeS 0 [.s 63])).task.barOf 0).part = some 1) ∧
    ((grouped.seen at0 (.bar 0 0 63) (shapeS 0 [.s 63])).task.barOf 0).part = none ∧
    (∀ s ∈ [demo, grouped, grouped.updBand 0 0 fun b => { b with bars := [(0, ⟨1, 0, true⟩)] }],
      s.issues at0 (.barw 0 0) (shapeS 0 []) = true ∧ s.issues at0 (.gmask 0 0 63) (shapeS 0 []) = true) ∧
    (grouped.begun at0 (.barw 0 0) (shapeS 0 [])).openPhase 0 0 0 = 0 := by decide +kernel

/-- The head word of a copy of 0 bytes under tag 63, and of one whose word count differs. -/
def copyHead : Word := BitVec.ofNat 32 (5 * 2 ^ 25 + 2 ^ 24 + 63 * 2 ^ 18)

/-- Queue register 15 bound to a port, with a number of waiting commands; the head word in S0. -/
def queued (port n : Nat) (w : Word) : Machine.State :=
  (demoWith [(sReg 0, w)]).updTask 0 0 fun t =>
    { t with queues := [(15, ⟨port, List.replicate n ⟨[w], 0, 0, 0, 0, true⟩, [], none⟩)] }
def pushShape : Shape := { shapeS 0 ((List.range 6).map fun j => .s (0 + j)) with mem := true }

theorem witness_QueuesAndTags :
    (∀ p ∈ [(0, 0, copyHead, some 1), (2, 0, copyHead, some 2), (1, 15, copyHead, none), (1, 16, copyHead, none), (1, 0, copyHead + 0x2000000, some 3)],
      let s := queued p.1 p.2.1 p.2.2.1
      let x := s.seen at0 (.qpush 0 15 0 5) pushShape
      s.issues at0 (.qpush 0 15 0 5) pushShape = true ∧ (mapGet (s.core 0).tasks x.t).isSome = true ∧
      pushDetail x.l x.task p.1 6 ⟨(List.range 6).map fun j => (x.readS (0 + j)).1, x.task.pushes, x.slot, 0, x.pc, false⟩ = p.2.2.2) ∧
    (∀ n ∈ [0, 5, 6], (queued n 0 0).issues at0 (.qpop 0 63 15) (shapeS 0 []) = true) ∧
    (∀ w ∈ [(0x8000 : Word).toNat, (0x7FFF : Word).toNat, 0],
      (State.put (queued 6 0 0) [(sReg 63, BitVec.ofNat 32 w)]).issues at0 (.qfence 0 63) (shapeS 0 [.s 63]) = true) ∧
    (demo.issues at0 (.twany 0 63 62) (shapeS 0 (sSrc64 62)) = true ∧ demo.issues at0 (.twall 0 62) (shapeS 0 (sSrc64 62)) = true ∧
      demo.issues at0 (.tffr 0 63 62) (shapeS 0 (sSrc64 62)) = true ∧ demo.issues at0 (.tget 0 62) (shapeS 0 []) = true ∧
      demo.issues at0 (.tclr 0 62) (shapeS 0 (sSrc64 62)) = true) := by decide +kernel

/-- A signature that is still to complete, and a task that traps on other generations. -/
def moving : Machine.State := demo.updCore 0 fun k =>
  { k with flights := [(1, ⟨0, 1, allLanes, none, .xfer .tld 0 [] 0⟩)] }
def strict : Machine.State := demoLaunch fun l => { l with gentrap := true }

theorem witness_TilesAndAccumulators :
    (∀ s ∈ [demo, strict, moving],
      s.issues at0 (.tzero 0 31) { shapeS 0 [] with ts := [31] } = true ∧
      s.issues at0 (.tmov 0 31 0) { shapeS 0 [] with ts := [31, 0] } = true ∧
      s.issues at0 (.azero 0 31) { shapeS 0 [] with as := [31] } = true ∧
      s.issues at0 (.amov 0 31 0) { shapeS 0 [] with as := [31, 0] } = true) ∧
    ((moving.seen at0 (.tzero 0 31) { shapeS 0 [] with ts := [31] }).k.matBlocked 0 0 { wt := [0] } = true ∧
      (moving.seen at0 (.tmov 0 31 0) { shapeS 0 [] with ts := [31, 0] }).k.matBlocked 0 0 { rt := [0], wt := [31] } = true) ∧
    (let x := strict.seen at0 (.tmov 0 31 0) { shapeS 0 [] with ts := [31, 0] }
     x.k.matBlocked 0 0 { rt := [0], wt := [31] } = false ∧ x.l.gentrap = true ∧ (x.k.tileRow x.task 0 63).2.2 = false ∧
       (x.k.accStatus x.task 0).2 = false ∧ (x.k.accRow x.task 0 63).2 = false) := by decide +kernel

theorem witness_MprogStatus :
    ∀ s ∈ [demo, strict], s.issues at0 (.mprog 0 63 31) { shapeS 0 [] with as := [31] } = true := by decide +kernel

/-- Convergence register 7 set to bands, usable or not, with an operation open or none. -/
def signed (set : BitVec 16) (usable : Bool) (op : Option (Word × MatOp)) : Machine.State :=
  demoTask fun t => { t with g := [(7, ⟨set, usable, none, op, []⟩)] }
def otherOp : MatOp := ⟨false, 1, .tile 0, .tile 0, .f32, false, false, false, 0⟩
def mmaI : Instr := .mma 0 0 false 30 true 15 7 .f32 false false
def mmaShape : Shape := { uni := true, d := 0, as := [0], ts := [30], srcs := mapSrcs false (30 : BitVec 5) ++ mapSrcs true (15 : BitVec 5) }

theorem witness_Signing :
    (∀ s ∈ [demo, State.put (signed 0 false (some (0, otherOp))) [(sReg 63, 1)], State.put (signed 1 true (some (0, otherOp))) [(sReg 63, 1)]],
      s.issues at0 (.sign 0 7 63) (shapeS 0 [.s 63]) = true ∧ (mapGet (s.core 0).tasks 0).isSome = true) ∧
    (∀ s ∈ [signed 1 false none, signed 2 true none, signed 1 true none, signed 1 true (some (0, otherOp)), signed 3 true none],
      s.issues at0 mmaI mmaShape = true) ∧
    ((signed 1 true none).issues at0 (.mmc 0 30 true 15 false 31 7 true)
      { uni := true, d := 0, as := [30, 31], ts := [31], srcs := mapSrcs true (15 : BitVec 5) } = true) ∧
    ((signed 1 true none).seen at0 mmaI mmaShape).k.bandLive 0 0 = allLanes ∧
    ((signed 3 true none).seen at0 mmaI mmaShape).k.bandLive 0 1 ≠ allLanes := by decide +kernel

/-! ## The hypotheses of the statements: memory -/

/-- The translation that the TLB has for an access, and the check that it has one for each. -/
def withPage (m : Machine.State) (k : MKind) (a : LAcc) : LAcc :=
  { a with t := (match m.lookup 0 0 a.va k.access with | some (.ok t) => some t | _ => none) }

def hits (m : Machine.State) (k : MKind) (l : List LAcc) : Bool := l.all fun a =>
  match m.lookup 0 0 a.va k.access with
  | some (.ok t) => !decodesMx k t a.va
  | _ => false

theorem forall_translates {m : Machine.State} {k : MKind} {l : List LAcc} (h : hits m k l = true) :
    List.Forall₂ (Translates m 0 0 k) l (l.map (withPage m k)) := by
  induction l with
  | nil => exact .nil
  | cons a l ih =>
    rw [hits, List.all_cons, Bool.and_eq_true] at h
    refine .cons ?_ (ih h.2)
    rcases hl : m.lookup 0 0 a.va k.access with _ | r
    · simp [hl] at h
    · rcases r with e | t
      · simp [hl] at h
      · simp only [hl, Bool.not_eq_true'] at h
        exact ⟨t, hl, by simp [h.1, withPage, hl]⟩

def performs (m : Machine.State) (op : MemOp) : Bool :=
  !(m.core 0).relOverlaps 0 op && (m.core 0).flights.isEmpty && (m.lateCheck 0 0 op).isNone

theorem performs_of {m : Machine.State} {op : MemOp} (h : performs m op = true) : m.Performs 0 0 op := by
  simp only [performs, Bool.and_eq_true, Bool.not_eq_true', List.isEmpty_iff, Option.isNone_iff_eq_none] at h
  exact ⟨h.1.1, fun f hf => by simp [h.1.2] at hf, h.2⟩

/-- The operation of a memory instruction at the cursor, its accesses translated. -/
def opAt (s : Machine.State) (i : Instr) (f : MemForm) : MemOp :=
  let x := s.seen at0 i f.shape
  ⟨f.kind, (f.acc x).map (withPage (s.begun at0 i f.shape) f.kind), f.lanes x, x.pc, if f.flag then flagOf x.cl.seta else none, x.b.rm⟩

def ready (s : Machine.State) (i : Instr) : Bool :=
  match memForm i with
  | some f =>
    let x := s.seen at0 i f.shape
    s.issues at0 i f.shape && !(f.acc x).isEmpty && (f.kind.lateAlign || (f.acc x).all fun a => a.va.toNat % f.kind.ty.size == 0) &&
      hits (s.begun at0 i f.shape) f.kind (f.acc x) && performs (s.begun at0 i f.shape) (opAt s i f) &&
      ((s.core 0).entry 0).wait == .ready
  | none => false

theorem ready_meets {s : Machine.State} {i : Instr} (h : ready s i = true) : ∃ f acc, memForm i = some f ∧ s.issues at0 i f.shape = true ∧
    f.acc (s.seen at0 i f.shape) ≠ [] ∧ (f.kind.lateAlign = false → ∀ a ∈ f.acc (s.seen at0 i f.shape), a.va.toNat % f.kind.ty.size = 0) ∧
    List.Forall₂ (Translates (s.begun at0 i f.shape) 0 0 f.kind) (f.acc (s.seen at0 i f.shape)) acc ∧
    (s.begun at0 i f.shape).Performs 0 0 { opAt s i f with acc } ∧ ((s.core 0).entry 0).wait = .ready := by
  unfold ready at h
  rcases hf : memForm i with _ | f
  · simp [hf] at h
  · simp only [hf, Bool.and_eq_true, Bool.or_eq_true, Bool.not_eq_true', List.isEmpty_eq_false_iff, beq_iff_eq] at h
    obtain ⟨⟨⟨⟨⟨h1, h2⟩, h3⟩, h4⟩, h5⟩, h6⟩ := h
    refine ⟨f, _, rfl, h1, h2, fun hl a ha => ?_, forall_translates h4, performs_of h5, h6⟩
    rcases h3 with h3 | h3
    · rw [hl] at h3; cases h3
    · exact eq_of_beq (List.all_eq_true.mp h3 a ha)

def mem0 : MV := ⟨0, false, 124, 126, 0, 0⟩
def memU : MV := ⟨0, true, 124, 126, 62, 0⟩

/-- Loads, stores, uniform accesses and atomics of the first page, of every order; and the block instructions of the third. -/
def memInstrs : List Instr :=
  [.ld .b32 .none mem0, .ld .f64 .acq mem0, .ldk .f16 .none 15 mem0, .st .b8 .none mem0, .st .f64 .rel memU, .stk .i64 .none 0 mem0,
    .sld 0 62 60 0 true true, .sst 0 62 60 0 false true, .sst 0 63 60 0 true false, .atom .add .i32 .none ⟨0, true, 124, 126, 62, 0⟩,
    .atom .exch .b64 .ar ⟨0, false, 124, 126, 122, 0⟩, .atomc .b32 .acq ⟨0, false, 124, 126, 122, 0⟩,
    .satom .cas .rel true ⟨0, 62, 60, 58⟩, .satom .add .none false ⟨0, 63, 60, 58⟩]
def block (u : Bool) : MV := ⟨0, u, 0, 126, if u then 62 else 0, 0⟩
def blockInstrs : List Instr := [.pwclaim (block true), .pwflush (block true), .pwnorm (block true), .pwraw memU]

theorem ready_all : (memInstrs.all fun i => ready (State.mapped demo) i) = true ∧
    (blockInstrs.all fun i => ready (State.coded (State.mapped (demoWith [(sReg 62, 0x20000)]))) i) = true ∧
    ready (State.mapped (demoLaunch fun l => { l with det := true })) (.atom .add .b32 .rel ⟨0, true, 124, 126, 62, 0⟩) = true := by
  decide +kernel

theorem witness_MemoryAccess :
    (∀ i ∈ memInstrs, ∃ f acc, memForm i = some f ∧ (State.mapped demo).issues at0 i f.shape = true ∧
      List.Forall₂ (Translates ((State.mapped demo).begun at0 i f.shape) 0 0 f.kind) (f.acc ((State.mapped demo).seen at0 i f.shape)) acc ∧
      ((State.mapped demo).begun at0 i f.shape).Performs 0 0 { opAt (State.mapped demo) i f with acc }) ∧
    (∀ i ∈ blockInstrs, ready (State.coded (State.mapped (demoWith [(sReg 62, 0x20000)]))) i = true) ∧
    (∀ i ∈ [.ld .b32 .none mem0, .pwdrop mem0], (match memForm i with
      | some f => (State.mapped demoOff).issues at0 i f.shape && ((f.acc ((State.mapped demoOff).seen at0 i f.shape)).isEmpty)
      | none => false) = (i == .ld .b32 .none mem0)) ∧
    (let s := State.mapped (demoWith [(vReg 31 126, 3)])
     let i := Instr.ld .b32 .none mem0
     (match memForm i with
      | some f => s.issues at0 i f.shape && !f.kind.lateAlign && ((f.acc (s.seen at0 i f.shape)).find? fun a => a.va.toNat % 4 != 0).isSome &&
          demo.issues at0 i f.shape && (f.acc (demo.seen at0 i f.shape)).all fun a => ((demo.begun at0 i f.shape).lookup 0 0 a.va 0).isNone
      | none => false) = true) ∧
    (let s := State.mapped demo
     let i := Instr.pwclaim (block false)
     (match memForm i with
      | some f => s.issues at0 i f.shape && hits (s.begun at0 i f.shape) f.kind (f.acc (s.seen at0 i f.shape)) &&
          ((s.begun at0 i f.shape).lateCheck 0 0 (opAt s i f)).any (·.1 == 0x06) && !((s.begun at0 i f.shape).core 0).relOverlaps 0 (opAt s i f)
      | none => false) = true) := by
  refine ⟨fun i hi => ?_, fun i hi => List.all_eq_true.mp ready_all.2.1 i hi, by decide +kernel, by decide +kernel, by decide +kernel⟩
  obtain ⟨f, acc, h1, h2, -, -, h5, h6, -⟩ := ready_meets (List.all_eq_true.mp ready_all.1 i hi)
  exact ⟨f, acc, h1, h2, h5, h6⟩

/-- A lane's access of the first bytes of the first page, and the L1 line that holds them. -/
def lane5 : LAcc := { access 5 0 0x1234 0 (vReg 5 3) .nowhere with t := some page }
def line0 : L1Line := ⟨0, 0, 0, 0, true, 0x55, 0, []⟩
def opOf (k : MKind) (a : LAcc) : MemOp := ⟨k, [a], 0x20, 0x10004, some 0, 0⟩
def flies (k : FKind) : Machine.State := demo.updCore 0 fun c => { c with flights := [(9, ⟨0, 1, 0x20, some 0, k⟩)], l1 := [line0] }

theorem witness_StoresAndCompletions :
    (page.mty ≤ 2 ∧ page.fmt = 0 ∧ page.off % 128 + 8 ≤ 128 ∧ lane5.t = some page ∧ { page with off := 120 }.off % 128 + 8 ≤ 128) ∧
    (∀ k ∈ [.load (opOf (.ld .b32 .none) lane5), .lds .b32 [lane5], .atom (opOf (.atom .add .b32 .none) { lane5 with val := some 7 }),
        .remote (opOf (.atom .add .b32 .none) { lane5 with val := some 7 }), .pw .raw [{ lane5 with val := some 7 }],
        .remote (opOf (.atom .add .b32 .none) { lane5 with t := some { page with mty := 4, module := 3 } })],
      (mapGet ((flies k).core 0).flights 9).map (·.kind) = some k ∧ (mapGet ((flies k).core 0).bands 0).isSome = true) ∧
    (let s := flies (.load (opOf (.ld .b32 .none) lane5))
     lane5.val = none ∧ lane5.err = 0 ∧ lane5.fl = flNone ∧ (s.core 0).l1Find (s.placeOf page / 128) = some line0 ∧
       line0.has 0 4 = true ∧ (s.core 0).clearOf 0 [] 4) ∧
    Distinct [(vReg 5 3, 7)] ∧
    (some { page with mty := 4, module := 3 }).any demo.isRemote = true := by
  refine ⟨by decide, by decide +kernel, ?_, by unfold Distinct; decide, by decide +kernel⟩
  refine ⟨rfl, rfl, rfl, by decide +kernel, by decide +kernel, fun f _ _ op _ => .inr fun a _ b hb => by cases hb⟩

/-- A task with one scratchpad granule of 4 KiB. -/
def scratched : Machine.State := demoTask fun t => { t with spGrans := 1 }
def ldsI : Instr := .lds .b32 ⟨0, true, 124, 126, 63, 0⟩
def ldsShape : Shape := shapeMem ⟨0, true, 124, 126, 63, 0⟩ (spSrcs ⟨0, true, 124, 126, 63, 0⟩) [] [124]
def stsI : Instr := .sts .f64 ⟨0, true, 124, 126, 63, 0⟩
def stsShape : Shape := shapeMem ⟨0, true, 124, 126, 63, 0⟩ (spSrcs ⟨0, true, 124, 126, 63, 0⟩) (dataSrc .f64 124) [124]

theorem witness_Scratchpad :
    (∀ s ∈ [demo, demoOff, scratched, State.put scratched [(sReg 63, 4092)], State.put scratched [(sReg 63, 4093)]],
      s.issues at0 ldsI ldsShape = true ∧ s.issues at0 stsI stsShape = true) ∧
    (demoOff.seen at0 ldsI ldsShape).active = 0 ∧
    (let x := scratched.seen at0 ldsI ldsShape
     (x.k.spRead x.gen x.task.spBase 4).2 = false ∧ 4096 * x.task.spGrans = 4096) ∧
    ((scratched.updLaunch 1 fun l => { l with gentrap := true }).issues at0 (.lds .b32 ⟨0, false, 124, 0, 0, 0⟩)
      (shapeMem ⟨0, false, 124, 0, 0, 0⟩ (spSrcs ⟨0, false, 124, 0, 0, 0⟩) [] [124]) = false) ∧
    (let s := State.put (scratched.updLaunch 1 fun l => { l with gentrap := true }) ((List.range 32).map fun l => (vReg l 0, 0))
     s.issues at0 (.lds .b32 ⟨0, false, 124, 0, 0, 0⟩)
      (shapeMem ⟨0, false, 124, 0, 0, 0⟩ (spSrcs ⟨0, false, 124, 0, 0, 0⟩) [] [124]) = true) ∧
    (∀ s ∈ [State.mapped demo, demoOff, State.mapped ((demoEntry fun e => { e with lanes := 0x80000000 }))],
      s.issues at0 (.pf (block false)) { shapeMem (block false) (addrSrcs (block false)) [] [] with mem := false } = true) ∧
    (let s := State.mapped ((demoEntry fun e => { e with lanes := 0x80000000 }))
     lanesOf (s.seen at0 (.pf (block false)) { shapeMem (block false) (addrSrcs (block false)) [] [] with mem := false }).active = [31] ∧
     (match s.lookup 0 0 0 0 with | some (.ok t) => decide (t.mty ≤ 2) && t.fmt != 9 | _ => false) = true) ∧
    (match demo.lookup 0 0 0x8000000000000000 0 with | some (.error n) => n == 4 | _ => false) = true ∧
    (∀ ty ∈ [FW.f64, .f32], demo.issues at0 (.pwaddr ty ⟨0, true, 124, 126, 60, 0⟩) {
         uni := false, d := 0, words := 2, vs := [124, 126], srcs := .v 126 :: sSrc64 (60 : BitVec 6) ++ [.s 62] } = true) := by decide +kernel

/-- The transfer of a row, or of an accumulator, from or to the first page; the L1 holding the page's first half. -/
def xferAt (s : Machine.State) (i : Instr) : Option (XferForm × Xfer) := (xferForm i).map fun f => (f, f.xfer (s.seen at0 i f.shape))
def lines : List L1Line := (List.range 129).map fun n => ⟨n, 0, 128 * n, 0, true, 0x55, 0, []⟩
def trOf (p : Nat × Nat × BitVec 64) : Trans := { page with off := p.2.2.toNat }

def moves (s : Machine.State) (i : Instr) : Bool :=
  match xferAt s i with
  | some (f, w) =>
    s.issues at0 i f.shape && !f.stale (s.seen at0 i f.shape) && !(s.core 0).matBlocked 0 0 w.set && w.addr.toNat % 64 == 0 &&
      w.pitch % 64 == 0 && w.scratch == false &&
      w.parts.all fun p =>
        (match (s.passed at0 i f.shape).lookup 0 0 p.2.2 (if w.op = .tst ∨ w.op = .ast then 5 else 4) with
          | some (.ok t) => t == trOf p
          | _ => false) && decide ((trOf p).mty ≤ 2) && (trOf p).fmt != 9 && decide ((trOf p).off % 128 + 64 ≤ 128)
  | none => false

/-- Every word of the row of a `tld` lies in a line that the L1 holds. -/
def held (s : Machine.State) (i : Instr) : Bool :=
  match xferAt s i with
  | some (_, w) => w.parts.all fun p => (List.range 8).all fun n =>
      match (s.core 0).l1Find (s.placeOf ((trOf p).plus (8 * n)) / 128) with
      | some l => l.has (((trOf p).plus (8 * n)).off % 128) 8
      | none => false
  | none => false

theorem witness_MatrixTransfers :
    ([.tld 0 31 62 63, .tst 0 31 62 63, .ald 0 31 62, .ast 0 31 62].all fun i => moves (State.mapped demo) i) = true ∧
    held ((State.mapped demo).updCore 0 fun k => { k with l1 := lines }) (.tld 0 31 62 63) = true ∧
    (∀ s ∈ [strict, moving, demoWith [(sReg 62, 32)], scratched, State.put scratched [(sReg 63, 0x80000000)],
        State.put scratched [(sReg 63, 0x80000000), (sReg 62, 4032)], State.put scratched [(sReg 63, 0x80000000), (sReg 62, 4096)]],
      ∀ i ∈ [.tld 0 31 62 63, .tst 0 31 62 63], (match xferForm i with
        | some f => s.issues at0 i f.shape == !(s.seen at0 i f.shape).l.gentrap
        | none => false) = true) ∧
    (let s := State.put strict [(sReg 62, 0), (sReg 63, 0)]
     (match xferForm (.tld 0 31 62 63) with
        | some f => s.issues at0 (.tld 0 31 62 63) f.shape && !f.stale (s.seen at0 (.tld 0 31 62 63) f.shape)
        | none => false) = true) ∧
    (let s := State.put strict [(sReg 60, 0), (sReg 63, 0)]
     (match xferForm (.tld 0 31 60 63) with
        | some f => s.issues at0 (.tld 0 31 60 63) f.shape && f.stale (s.seen at0 (.tld 0 31 60 63) f.shape)
        | none => false) = true) ∧
    (∀ p ∈ [(4032, true), (4096, false)],
      let s := State.put scratched [(sReg 63, 0x80000000), (sReg 62, BitVec.ofNat 32 p.1)]
      (match xferAt s (.tst 0 31 62 63) with
        | some (_, w) => w.scratch && (decide (w.addr.toNat + 64 ≤ 4096) == p.2)
        | none => false) = true) := by decide +kernel

/-! ## The hypotheses of the statements: events -/

/-- The bytes of a list at an address, as cells of memory. -/
def cells (base : Nat) (l : List Byte) : List Host.Cell := (l.zipIdx.filter (·.1 != 0)).map fun b => (base + b.2, b.1)

/-- Domain 0 with a valid record, whose page table maps 1 GiB at address 0 to a buffer of 1 MiB; some bytes of that memory. -/
def State.paged (s : Machine.State) (low : List Host.Cell) : Machine.State :=
  { s with
    pds := [(0, { PdRec.fresh with root := 0x100000, flags := 1 })]
    bufs := [(0, BitVec.ofNat 256 (2 ^ 255 + 2 ^ 254 + 2 ^ 253 + 2 ^ 236 + 16 * 2 ^ 160))]
    mem := low ++ cells 0x100000 (bytesOf 16 (2 ^ 127 + 0x110000)) ++ cells 0x110000 (bytesOf 16 (2 ^ 127 + 0x120000)) ++
      cells 0x120000 (bytesOf 16 (2 ^ 127 + 2 ^ 123 + 2 ^ 121 + 2 ^ 120 + 2 ^ 119)) }

def domeLine (dirty : Bool) : DomeLine := ⟨0x55, dirty, false, 0, false, 0, [], [], 0⟩
def alone (k : FKind) : Machine.State := demo.updCore 0 fun c => { c with flights := [(9, ⟨0, 1, 0x20, some 0, k⟩)] }

theorem witness_CacheEvents :
    (∀ p ∈ [(0, [(0, domeLine false)], 0), (1, [], 2)],
      let s := (State.mapped { demo with domes := p.2.1 }).updCore 0 fun k => { k with regs := [⟨0, p.1, 0, 0, 1, 0⟩] }
      (s.core 0).regs = [⟨0, p.1, 0, 0, 1, 0⟩] ∧
        (s.setCore 0 { s.core 0 with regs := [] }).check ⟨0, none⟩ true p.1 0 128 = p.2.2 ∧ ((mapGet s.domes 0).isSome = true ∨ p.2.2 ≠ 0)) ∧
    (∀ p ∈ [(4, [], false), (4, [(3, (⟨true, false, 1, 0⟩ : Route))], true), (3, [], false)],
      let s := (State.mapped { demo with domes := [(0, domeLine false)], routes := p.2.1 }).updCore 0 fun k =>
        { k with requests := [⟨0, 1, 0, { page with mty := p.1, module := 3 }, [7]⟩] }
      (s.core 0).requests ≠ [] ∧ s.isRemote { page with mty := p.1, module := 3 } = (p.1 == 4) ∧ s.routed 3 = p.2.2 ∧
        (s.setCore 0 { s.core 0 with requests := [] }).check ⟨0, none⟩ true 0 0 1 = 0 ∧ (s.buf 0).place 127 % 128 + 1 ≤ 128 ∧
        (mapGet s.domes ((s.buf 0).place 0 / 128)).map (·.owners) = some []) ∧
    (let s := State.mapped demo
     (s.buf 0).v = true ∧ ((s.buf 0).offsetOf (128 * 511)).isSome = true ∧ (mapGet s.domes 511).isNone = true ∧
       (s.chan (channelOf (s.buf 0).hmask (511 * 128))).offline = false ∧ s.domes = []) ∧
    (mapGet demo.cores 0).isSome = true ∧ mapGet [(pwKey 0 0, 0)] (pwKey 0 0) = some 0 ∧
    (∀ b ∈ [true, false], (domeLine b).dirty0 = b ∧ (domeLine b).dirty1 = false) ∧
    (∀ k ∈ [.xfer .tld 0 [] 0, .tagWait true 0 (sReg 3) (some 64), .qpop 15 (sReg 3) 0x10004 0x10000, .acquire, .release .plain .fence,
        .release .xrel .none, .release .dram .sync, .release .plain (.push 15 0)],
      (mapGet ((alone k).core 0).flights 9).map (·.kind) = some k ∧ (mapGet ((alone k).core 0).bands 0).isSome = true) ∧
    ((alone .acquire).core 0).heldBack 9 ⟨0, 1, 0x20, some 0, .acquire⟩ FKind.beforeAcquire = false ∧
    ((alone (.release .plain .fence)).core 0).heldBack 9 ⟨0, 1, 0x20, some 0, .release .plain .fence⟩ FKind.beforeRelease = false ∧
    ((alone (.load (opOf (.ld .b32 .none) lane5))).core 0).heldBack 10 ⟨0, 1, 0x20, some 0, .acquire⟩ FKind.beforeAcquire = true ∧
    ((alone (.load (opOf (.ld .b32 .none) lane5))).core 0).heldBack 10 ⟨0, 1, 0x20, some 0, .acquire⟩ FKind.beforeRelease = true ∧
    (let s := (alone (.qpop 15 (sReg 3) 0x10004 0x10000)).updTask 0 0 fun t => { t with queues := [(15, ⟨6, [], [8, 9], none⟩)] }
     (mapGetD ((s.core 0).task ((s.core 0).taskOfBand 0)).queues 15 Queue.fresh).ret = [8, 9] ∧ (mapGet (s.core 0).tasks 0).isSome = true ∧
       ∀ g ∈ (s.core 0).flights, ¬ g.1 < 9) ∧
    (∀ b ∈ relBands demo 0 ⟨0, 1, 0x20, none, .release .xrel .fence⟩ .xrel,
      (((demo.performRelease 0 ⟨0, 1, 0x20, none, .release .xrel .fence⟩ .xrel false).core 0).band b).relFail = []) ∧
    (After.arrive 256 1 0 true).here = true := by
  decide +kernel

/-- An operation on f16 tiles of one row signed by every lane of the band; its run at a K-step of two; a pair's. -/
def signedOp : MatOp := ⟨false, 31, .tile 30, .tile 29, .f32, false, false, false, 0⟩
def signedAll (stat : Word) : Machine.State :=
  let s := demoTask fun t => { t with g := [(7, ⟨1, true, none, some (0, signedOp), [(0, allLanes)]⟩)] }
  s.updCore 0 fun k =>
    let k := (k.putTileRow ((demo.core 0).task 0) 30 0 1 0).putTileRow ((demo.core 0).task 0) 29 0 1 0
    { k with accStat := [(((demo.core 0).task 0).accAt 31, ⟨1, stat⟩)] }
def runAt (n last : Nat) (cx : Bool) : MatRun :=
  ⟨7, ⟨cx, 30, .tile 28, .tile 29, .f32, false, false, false, 1⟩, if cx then .ci8 else .f16, 1, 1, [(0, allLanes)], 0, n, last,
    List.replicate 64 5, List.replicate 64 6, flNone, false, false⟩

theorem witness_MatrixEvents :
    (∀ stat ∈ [(0 : Word).toNat, 0x8001],
      let s := signedAll (BitVec.ofNat 32 stat)
      let r := mapGetD ((s.core 0).task 0).g 7 GReg.fresh
      r.op = some (0, signedOp) ∧ (∀ i < 16, r.set.getLsbD i = true → (s.core 0).bandLive 0 i &&& ~~~(mapGetD r.signed i 0) = 0) ∧
      (let s0 := if statStop ((s.core 0).accStatus ((s.core 0).task 0) 31).1 then
          min (statProg ((s.core 0).accStatus ((s.core 0).task 0) 31).1) (shapeKS 0) else 0
       s0 = (if stat = 0 then 0 else 1) ∧
       (s.core 0).matBlocked 0 0 (signedOp.set 0 (s.sigma 0 0 (.tile 30) false s0 1) (s.sigma 0 0 (.tile 29) false s0 1) s0) = false ∧
       (match s.matCheck 0 0 signedOp (s.sigma 0 0 (.tile 30) false s0 1) (s.sigma 0 0 (.tile 29) false s0 1) s0 with
         | .ok _ => true
         | .error _ => false) = true) ∧ (mapGet (s.core 0).tasks 0).isSome = true) ∧
    (∀ p ∈ [(0, 2), (1, 2), (2, 2)],
      let s := alone (.mat (runAt p.1 p.2 false))
      (mapGet (s.core 0).flights 9).map (·.kind) = some (.mat (runAt p.1 p.2 false)) ∧ (s.core 0).unitTurn 9 = true ∧
        (runAt p.1 p.2 false).rows.length ≤ 64) ∧
    (let s := alone (.mat (runAt 2 2 true))
     (mapGet (s.core 0).flights 9).map (·.kind) = some (.mat (runAt 2 2 true)) ∧ (runAt 2 2 true).op.pair = true ∧
       (runAt 2 2 true).rows2.length ≤ 64 ∧ ((s.core 0).task ((s.core 0).taskOfBand 0)).accAt 30 ≠ ((s.core 0).task 0).accAt 31) ∧
    (mapGet demo.launches 1).isSome = true ∧ (mapGet ((demo.launch 1).groups) 0).isSome = true := by decide +kernel

def eng : Eng := ⟨0, 0, 15⟩

/-- A command of an op whose last count of words are 0, its release done; a copy of 64 bytes in scratchpad; a collective of group 0. -/
def command (op : Nat) : Cmd := ⟨BitVec.ofNat 32 (op * 2 ^ 28 + (opCount op - 1) * 2 ^ 25 + 2 ^ 24) :: List.replicate (opCount op - 1) 0, 0, 0, 0, 0, true⟩
def spCopy : Cmd := ⟨[BitVec.ofNat 32 (5 * 2 ^ 25 + 2 ^ 24 + 2 ^ 16 + 2 ^ 14), 0, 0, 64, 0, 64], 0, 0, 0, 0, true⟩
def engState (port : Nat) (cmds : List Cmd) (cur : Option CmdRun) : Machine.State :=
  (scratched.updTask 0 0 fun t => { t with queues := [(15, ⟨port, cmds, [], cur⟩)] }).updLaunch 1 fun l =>
    { l with groups := [(0, ⟨[], 0, true, [0, 1], []⟩)] }

theorem witness_EngineCommands :
    (let s := engState 1 [command 0] none
     (mapGet (s.engTask eng).queues 15).isSome = true ∧ s.startable 0 0 15 = some (command 0) ∧
       nextRound (s.candidates (engineOf 0 1)) (mapGet s.engines (engineOf 0 1)) = some (queuePlace 0 0 15)) ∧
    (∀ op ∈ [0, 1, 2, 3, 4, 6], ∀ r ∈ [(⟨command op, 0, false, false, none⟩ : CmdRun), ⟨command op, 0, false, true, none⟩],
      let s := engState (opPort op) [] (some r)
      (mapGetD (s.engTask eng).queues 15 Queue.fresh).cur = some r ∧ r.cmd.head.op = op ∧ s.engOpen eng r.cmd = false) ∧
    (let s := engState 1 [] (some ⟨spCopy, 0, false, false, none⟩)
     spCopy.head.op = 0 ∧ s.engOpen eng spCopy = false ∧ bitN spCopy.head.low 13 = false ∧
       (spCopy.side (fieldN spCopy.head.low 17 16, 1)).scratch = true ∧ (spCopy.side (fieldN spCopy.head.low 15 14, 3)).scratch = true ∧
       (spCopy.word 5).toNat = 64) ∧
    (∀ p ∈ [([], false), ([(1, (0 : Word))], true)],
      let s := (engState 5 [] (some ⟨command 5, 0, false, false, none⟩)).updLaunch 1 fun l => { l with retired := p.1 }
      (command 5).head.op = 5 ∧ ((s.launch 1).group 0).members.any (s.missed 1 0 0) = p.2 ∧
        ⟨eng, command 5⟩ ∈ s.collParts 1 (command 5).group 0 ∧ (s.collParts 1 (command 5).group 0).length < ((s.launch 1).group 0).members.length) ∧
    (command 0).head.tagged = true ∧ (((engState 1 [] none).core 0).band 0).live ≠ 0 := by decide +kernel

/-- A stream bound with a header of 4 bytes and slots of 64. -/
def bound : Machine.Bind := ⟨0, 0, 1, 0, 15, 0, 0, 3, 0, 7, 9, 2, 4, 64, 0, 3, 1⟩
def streaming (paused : Bool) : Machine.State :=
  State.paged { demo with streams := [(5, { Stream.fresh with bind := some bound, paused, gap := some (3, 1, 2) })] } []

theorem witness_Ingest :
    (demo.matchFrame ⟨15, 9, 7, []⟩).isNone = true ∧
    (let s := streaming false
     (∀ bs ∈ [[], List.replicate 69 0, List.replicate 4 0, List.replicate 68 0, List.replicate 4 0xFF],
       s.matchFrame ⟨15, 9, 7, bs⟩ = some (5, bound) ∧ (bs.length < 4 ∨ 68 < bs.length ∨ (4 ≤ bs.length ∧ bs.length ≤ 68))) ∧
     (BitVec.ofNat 32 (numAt (List.replicate 4 0) 0 4) - (s.stream 5).consumer).toNat < bound.slots ∧
     2 ^ 31 ≤ (BitVec.ofNat 32 (numAt (List.replicate 4 0xFF) 0 4) - (s.stream 5).consumer).toNat ∧
     (s.stream 5).bind = some bound ∧ (s.stream 5).gap = some (3, 1, 2) ∧ (s.rangeRead 0 bound.consumerVa 4).2.1 = 0 ∧ bound.policy ≠ 1) ∧
    ((streaming true).stream 5).paused = true ∧ ((streaming false).stream 5).paused = false := by decide +kernel

theorem witness_EngineEvents :
    (∃ q r, mapGet ((engState 1 [] (some ⟨command 0, 0, false, true, none⟩)).engTask eng).queues 15 = some q ∧ q.cur = some r ∧ r.done = true ∧
      r.fault = none) ∧
    (∃ q r, mapGet ((engState 1 [] (some ⟨command 0, 0, false, true, some (0x0D, 1)⟩)).engTask eng).queues 15 = some q ∧ q.cur = some r ∧
      r.fault = some (0x0D, 1)) ∧
    ((((engState 1 [] none).updThreads 0 0 allLanes fun _ y => { y with exited := true }).core 0).band 0).live = 0 :=
  ⟨⟨_, _, rfl, rfl, rfl, rfl⟩, ⟨_, _, rfl, rfl, rfl⟩, by decide +kernel⟩

/-- A fresh frame of key slot 0, and a module whose slot 0 holds a key. -/
def frame (body sig : List Byte) : Frame := ⟨0, 1, Config.bootNonce 0, body, sig⟩
def keyed (k : List Byte) : Machine.State := { demo with mgmt := { Mgmt.fresh with pubKeys := [(0, k)] } }
def stale : Machine.State := { demo with mgmt := { Mgmt.fresh with nonces := [(0, 1)] } }

/-- Whether a signature verifies no text of the spec decides: a frame for which it does is accepted. The first ADMIN needs none. -/
theorem witness_ManagementEvents :
    (∀ (k body sig : List Byte) (code : Nat), Config.verifies k (frameBytes (frame body sig) code) sig = true →
      (keyed k).mgmt.powered = true ∧ (keyed k).mgmt.halted = false ∧ (keyed k).verified code (frame body sig) = true ∧
      (keyed k).freshFrame (frame body sig) = true) ∧
    (∀ body sig : List Byte, demo.mgmt.powered = true ∧ demo.mgmt.halted = false ∧ demo.freshFrame (frame body sig) = true ∧
      demo.verified 2 (frame body sig) = false ∧ stale.freshFrame (frame body sig) = false ∧
      (demo.mgmt.manufactured || (AdminBody.mk 0 [] [3] 4095).keySlot != 0) = false) ∧
    (numAt (bytesOf 2 1023 ++ zeroBytes 128) 0 2 = 1023 ∧ (bytesOf 2 1023 ++ zeroBytes 128).length = 130) ∧
    (avoids [(2000000, 2000001)] 2100000 = true ∧ avoids [(2000000, 2000001)] 1000000 = false ∧ avoids [(2100000, 2100000)] 2100000 = false) ∧
    (demo.taskAt 0 0 = some 0 ∧ demo.taskAt 0 255 = none ∧ ((demo.core 0).task 0).stopped = false ∧
      (let s := demoTask fun t => { t with stopped := true }
       ((s.core 0).task 0).stopped = true ∧ 0 ∈ (s.core 0).entriesOf 0 ∧ (s.core 0).poised ((s.core 0).entry 0) = true ∧
       ((s.core 0).tasks.find? fun x => x.2.gen == 1).isSome = true ∧ (s.core 0).owns ((s.core 0).task 0) (.uniform 0 63) = true) ∧
      ∀ x ∈ (demo.core 0).tasks, x.2.gen ≠ 2) ∧
    (((demoWith [(sReg 63, 7)]).core 0).granule (.uniform 0 63)).1 = 1 ∧ 1 ∈ ((demoWith [(sReg 63, 7)]).core 0).liveGens ∧
    ((demo.core 0).granule (.uniform 0 63)).1 ≠ 1 ∧ (mapGet demo.cores 0).isSome = true := by
  refine ⟨fun k body sig code h => ⟨rfl, rfl, ?_, ?_⟩, fun body sig => ⟨rfl, rfl, ?_, rfl, ?_, rfl⟩, by decide +kernel, by decide +kernel,
    by decide +kernel, by decide +kernel, by decide +kernel, by decide +kernel, by decide +kernel⟩
  · show (Config.verifies k (frameBytes (frame body sig) code) sig) = true
    exact h
  · show (Config.bootNonce 0 == Config.bootNonce 0 && true) = true
    rw [beq_self_eq_true]; rfl
  · show (Config.bootNonce 0 == Config.bootNonce 0 && true) = true
    rw [beq_self_eq_true]; rfl
  · show (Config.bootNonce 0 == Config.bootNonce 0 && false) = false
    rw [Bool.and_false]

theorem witness_PowerEvents :
    (let s := { State.reset with power := { Power.fresh with tolerance := 20000 } }
     s.idleNow = true ∧ s.power.state.idle = false ∧ deepestIdle s.power.tolerance = some .i1 ∧ deepestIdle 19999 = none ∧
       deepestIdle 5000000 = some .i3) ∧ demo.idleNow = false ∧
    ({ Power.fresh with state := .i2 }).state.idle = true ∧ demo.mgmt.powered = true ∧ ({ Mgmt.fresh with powered := false }).powered = false ∧
    (∃ k ∈ demo.cores, ∃ x ∈ k.2.tasks, x.2.launch = 1) := by decide +kernel

theorem witness_DieTemperature :
    Power.fresh.thermal = none ∧ Power.fresh.emergency = false ∧ ({ Power.fresh with thermal := some .p2 }).thermal = some .p2 ∧
    ({ Power.fresh with thermal := some .p3 }).thermal = some .p3 ∧ State.reset.cores = [] ∧ State.reset.clusters = [] ∧
    Power.fresh.state.idle = false ∧ (Power.fresh.pendState.any PState.idle) = false ∧ demo.mgmt.powered = true ∧
    (∃ k ∈ demo.cores, ∃ x ∈ k.2.tasks, (demo.launch x.2.launch).pd = 0) := by decide +kernel

/-- A module at whose ring stands a host command of an opcode and arguments, domain 0 valid. -/
def hosted (op : Nat) (args : List Byte) : List Byte := padTo 64 (bytesOf 4 op ++ bytesOf 4 0 ++ bytesOf 8 0 ++ args)
def served (s : Machine.State) (l : List Byte) : Machine.State := { s with rings := { Rings.fresh with cmds := [(0, l)], cmdTail := 1 } }
def faulted : FaultRec := ⟨0x4000, 0, 0, 0, 255, 1, 1, 0, 0, 0, (1, 0, 0)⟩

theorem witness_HostCommands :
    (∀ p ∈ [(0, []), (10, []), (1, bytesOf 4 0 ++ bytesOf 8 0 ++ bytesOf 8 0x10000), (2, bytesOf 4 65535), (3, bytesOf 8 0 ++ bytesOf 8 64),
        (4, []), (5, []), (6, bytesOf 4 1), (7, []), (8, []), (9, bytesOf 4 1)],
      let s := served (State.paged demo []) (hosted p.1 p.2)
      s.cmdEntry = some (hosted p.1 p.2) ∧ numAt (hosted p.1 p.2) 4 4 = s.rings.cmdHead.toNat ∧ numAt (hosted p.1 p.2) 0 4 = p.1 ∧
        numAt (hosted p.1 p.2) 8 8 % 16 = 0) ∧
    (State.paged demo []).pdValid 0 = true ∧ demo.pdValid 0 = false ∧ (demo.cmdEntry).isNone = true ∧
    (let s := served demo (padTo 64 (bytesOf 4 9 ++ bytesOf 4 1))
     numAt (padTo 64 (bytesOf 4 9 ++ bytesOf 4 1)) 4 4 ≠ s.rings.cmdHead.toNat) ∧
    (∀ n ∈ [0, 1, 2],
      let a := (hosted 4 (bytesOf 2 0 ++ bytesOf 1 0 ++ bytesOf 1 255 ++ bytesOf 8 0x4000 ++ bytesOf 1 n)).drop 16
      ([faulted].find? fun r => r.core == numAt a 0 2 && r.slot == numAt a 2 1 && r.entry == numAt a 3 1 && r.addr.toNat == numAt a 4 8) =
        some faulted ∧ numAt a 12 1 = n) ∧
    (let x : LoadArgs := ⟨0, 64, 0, 0, 0, 3⟩
     x.flags < 4 ∧ (match ((State.paged demo []).askRead ⟨0, none⟩ x.obj x.bytes).2 with
       | .ok o => (match (State.paged demo []).loadObject x o with | .error e => e == 6 | .ok _ => false)
       | .error _ => false) = true ∧
     (match (demo.askRead ⟨0, none⟩ x.obj x.bytes).2 with | .ok _ => false | .error _ => true) = true) ∧
    (let ob : Object := ⟨0, 0x10000, 0, 64, [], [], 0, [], []⟩
     let s := { demo with objects := [(1, ob)] }
     (mapGet s.objects 1).isSome = true ∧ s.objectUsed 1 = false ∧ (s.updLaunch 1 fun l => { l with object := 1 }).objectUsed 1 = true) ∧
    (demo.rings.cmdWait = none ∧ demo.taskAt 0 0 = some 0 ∧ demo.taskAt 0 1 = none ∧ demo.takesRequest 0 0 = true ∧
      (demoTask fun t => { t with state := .draining }).takesRequest 0 0 = false) ∧
    ((demoTask fun t => { t with state := .draining }).stillSaving (0, 0, 1, 0) = true ∧ State.reset.stillSaving (0, 0, 1, 0) = false ∧
      ([(⟨1, 0, 0, 0x100⟩ : SavedTask)].any fun t => t.launch == 1 && t.number == 0) = true ∧ (State.reset.findTask 1 0).isNone = true) ∧
    (demo.taskOfArea 0 0x100 = none ∧ (demoTask fun t => { t with ksave := 0x100, request := some ⟨0x100, 1⟩ }).taskOfArea 0 0x100 = some (1, 0, true) ∧
      ({ demo with savedTasks := [⟨1, 0, 0, 0x100⟩] }).taskOfArea 0 0x100 = some (1, 0, false) ∧
      ((State.paged demo []).readArea 0 0x100).2.isNone = true ∧
      ((State.paged demo (cells 0x100 (bytesOf 4 0x53415645 ++ bytesOf 4 (64 + (Task.fresh.recShape 7).size)))).readArea 0 0x100).2.isSome = true) := by
  decide +kernel

/-- Connections: none, of domain 0, and of an administrator. -/
def linked (admin : Bool) : Machine.State :=
  State.paged { demo with conns := [(4, ⟨7, 0, 0⟩)], mgmt := { Mgmt.fresh with admins := if admin then [7] else [] },
                          wqs := [(3, WorkQueue.fresh)] } []

theorem witness_HostEvents :
    (mapGet demo.conns 4).isNone = true ∧ mapGet (linked false).conns 4 = some ⟨7, 0, 0⟩ ∧
    (inRegs 0 = false ∧ inRegs regBase = true ∧ inRegs (regEnd - 1) = true ∧ inRegs regEnd = false) ∧
    ((linked false).wakeUp.askWrite ⟨0, some 0⟩ 0 [7]).2.isNone = true ∧ ((linked false).wakeUp.askWrite ⟨0, some 0⟩ 0x200000 [7]).2.isSome = true ∧
    (match ((linked false).wakeUp.askRead ⟨0, some 0⟩ 0 8).2 with | .ok _ => true | .error _ => false) = true ∧
    (match ((linked false).wakeUp.askRead ⟨1, some 0⟩ 0 8).2 with | .ok _ => false | .error _ => true) = true ∧
    (linked true).isAdmin 4 = true ∧ (linked false).isAdmin 4 = false ∧
    (bufAccepted bufReset = true ∧ bufAccepted (bufReset + 1) = false) ∧
    (mapGet (linked true).wqs 3).isSome = true ∧
    ((linked true).regWrite 0 []).isSome = true ∧ ((linked true).regWrite (regEnd - regBase - 1) [0]).isNone = true ∧ ((linked false).ownTail 4 0 0 = false) := by decide +kernel

/-- A node of 64 bytes: the next node, a type, and numbers at offsets; a graph at it, in memory at 0x4000. -/
def node (next type : Nat) (fs : List (Nat × Nat)) : List Byte := bytesOf 64 (fs.foldl (fun n f => n + f.2 * 256 ^ f.1) (next + type * 2 ^ 24))
def graph : Graph := ⟨0x4000, 0, 0, 0, [(1, 5)], none, none, 0, false⟩
def queue : WorkQueue := ⟨0x4000, 1, 0, 0, 0, 0, 0, 0, true, false⟩
def smallV : Variant := ⟨1, 8, 4, 1, 0, 0, 1, 1, [], 0, 64, [⟨4, 0, 8, []⟩]⟩
def hugeV : Variant := ⟨1, 8, 4, 1, 65, 0, 1, 1, [], 0, 64, []⟩
def object (vs : List Variant) (groups : List (Nat × Bool × List (Nat × Nat × Nat))) : Object :=
  ⟨0, 0x10000, 128, 128, [⟨vs, false, 0⟩], [⟨0, 9, 32, false, false, false, 1, 0, groups⟩], 0, [], []⟩
def walking (l : List Byte) (w : Option Nat) : Machine.State :=
  State.paged { demo with graphs := [(3, { graph with waitFrom := w })], wqs := [(3, queue)], objects := [(2, object [smallV] [])] } (cells 0x4000 l)

theorem witness_WalkerTakesEntries :
    (∀ p ∈ [(bytesOf 8 0x8000 ++ bytesOf 8 0 ++ bytesOf 8 16 ++ bytesOf 8 0, true), (bytesOf 32 1, false)],
      let s := State.paged { demo with wqs := [(3, queue)] } (cells 0x4000 p.1)
      s.nextQueue 3 = some 3 ∧ mapGet s.wqs 3 = some queue ∧
      (match (s.askRead (s.walkAsker 3) 0x4000 32).2 with
        | .ok l => entryOk l 0
        | .error _ => false) = p.2) ∧
    (let s : Machine.State := { demo with wqs := [(3, queue)] }
     (match (s.askRead (s.walkAsker 3) 0x4000 32).2 with
      | .ok _ => false
      | .error _ => true) = true) := by decide +kernel

/-- Whether a graph stands at a node that its walker reads whole. -/
def reads (l : List Byte) : Bool := ((walking l none).readNode 3 graph).2 == some l && headerOkN l

theorem witness_WalkerEvents :
    (mapGet (walking [] none).graphs 3 = some graph ∧ graph.waiting = false ∧ graph.launch = none) ∧
    ((walking [] none).readNode 3 { graph with node := 0xFFFF }).2.isNone = true ∧
    (∀ n ∈ [0, 8], ((walking (node 1 n []) none).readNode 3 graph).2 = some (node 1 n []) ∧ nodeType (node 1 n []) = n) ∧
    (∀ n ∈ [1, 7], ((walking (node 1 n [(2, 1)]) none).readNode 3 graph).2 = some (node 1 n [(2, 1)]) ∧
      headerOkN (node 1 n [(2, 1)]) = false) ∧
    (∀ p ∈ [(9, none), (2, some true), (3, some false)],
      let l := node 1 1 [(4, p.1), (14, 1), (10, 15), (11, 6)]
      let s := { walking l none with objects := [(2, object [smallV] []), (3, object [smallV] [(0, true, [])])] }
      reads l = true ∧ numAt l 10 1 < 16 ∧ numAt l 11 1 < 7 ∧ zeroIn l 38 40 = true ∧ (s.launchOf 3 graph l).map s.coResident = p.2) ∧
    (let l := node 1 2 [(8, 0x100), (16, 0x200), (24, 8)]
     let s := walking l none
     reads l = true ∧ zeroIn l 32 64 = true ∧ (s.rangeFault 0 0x100 8 false).2.isNone = true ∧ (s.rangeFault 0 0x200 8 true).2.isNone = true ∧
       (s.rangeReadAs (s.walkAsker 3) 0x100 8).2.1 = 0 ∧ (s.rangeWriteAs (s.walkAsker 3) none 0x200 (zeroBytes 8)).2 = 0) ∧
    (∀ p ∈ [(5, true), (6, false)],
      let l := node 1 3 [(4, 1), (8, p.1), (12, 2)]
      reads l = true ∧ condOk l = true ∧ zeroIn l 5 8 = true ∧ zeroIn l 16 64 = true ∧ condHolds graph l = p.2) ∧
    (∀ p ∈ [(6, 0, false), (5, 5, true), (5, 6, true)],
      let l := node 1 4 [(4, 1), (5, 1), (8, p.1), (12, 2), (16, p.2.1)]
      reads l = true ∧ condOk l = true ∧ numAt l 5 1 < 16 ∧ zeroIn l 6 8 = true ∧ zeroIn l 20 64 = true ∧ condHolds graph l = p.2.2 ∧
        (graph.reg 1).toNat = 5) ∧
    (∀ p ∈ [(0, true), (1, false)],
      let l := node 1 5 [(4, 0), (8, 0x100), (16, p.1), (24, 255), (32, 1)]
      reads l = true ∧ waitqOk l = true ∧
      (match ((walking l none).askRead ((walking l none).walkAsker 3) 0x100 8).2 with
        | .ok bs => compareCC (0 : BitVec 4) (BitVec.ofNat 64 (ofBytes bs) &&& 255) (BitVec.ofNat 64 p.1) == p.2
        | .error _ => false) = true ∧
      mapGet (walking l (some 0)).graphs 3 = some { graph with waitFrom := some 0 } ∧ numAt l 32 4 ≠ 0) ∧
    (∀ n ∈ [0, 3],
      let l := node 1 6 [(4, n), (8, 0x100)]
      reads l = true ∧ zeroIn l 5 8 = true ∧ zeroIn l 24 64 = true ∧ numAt l 8 8 % 8 = 0 ∧
        ((walking l none).askWrite ((walking l none).walkAsker 3) 0x100 (zeroBytes 8)).2.isNone = true) ∧
    (reads (node 0xFFFF 7 []) = true ∧ zeroIn (node 0xFFFF 7 []) 4 64 = true) := by decide +kernel

/-- The sub-band at a line that it waits for, in a buffer that exists or not. -/
def fetching (bufs : Bool) : Machine.State :=
  let s := State.paged (demoEntry fun e => { e with wait := .fetch }) []
  { (s.updCore 0 fun k => { k with ibuf := [] }) with bufs := if bufs then s.bufs else [] }

theorem witness_TranslationAndChannelEvents :
    (let s := demoEntry fun e => { e with wait := .fetch }
     (mapGet (s.core 0).table 0).map (·.wait) = some .fetch ∧ (s.missing 0 0).isNone = true) ∧
    ((fetching true).missing 0 0 = some 0x10004 ∧ (fetching true).pdOf 0 0 = 0 ∧
      (match ({ fetching true with pds := [] }.translate 0 0 0x10004 accFetch).2 with | .error n => n == 1 | .ok _ => false) = true) ∧
    (∀ b ∈ [true, false], (match (fetching b).translate 0 0 0x10004 accFetch with
      | (m, .ok t) => ((m.readLine 0 0 { t with off := t.off / 128 * 128 }).2.1 == 0) == b
      | (_, .error _) => false) = true) ∧
    (let s := demoEntry fun e => { e with wait := .translate (opOf (.ld .b32 .none) lane5) }
     (mapGet (s.core 0).table 0).map (·.wait) = some (.translate (opOf (.ld .b32 .none) lane5))) ∧
    (let s := demoEntry fun e => { e with wait := .walk [(32, 0)] accULoad }
     (mapGet (s.core 0).table 0).map (·.wait) = some (.walk [(32, 0)] accULoad)) ∧
    (∀ p ∈ [(15, true), (16, false)],
      let s := State.paged { demo with faultWait := [faulted] } []
      let s := { s with pds := s.pds.map fun (q : Nat × PdRec) => (q.1, { q.2 with ring := 0x8000, log2n := 4, tail := BitVec.ofNat 32 p.1 }) }
      let r := mapGetD s.pds 0 PdRec.fresh
      s.faultWait.find? (fun r => r.pd == 0) = some faulted ∧ decide ((r.tail - r.head).toNat < 2 ^ r.log2n.toNat) = p.2 ∧
        (match s.translateFor 0 (r.ring + BitVec.ofNat 64 (32 * (r.tail.toNat % 2 ^ r.log2n.toNat))) true with
          | (m, .ok t) => (m.writeBuf ⟨0, none⟩ t.buf t.off faulted.bytes).2 == 0
          | (_, .error _) => false) = true) ∧
    (let x : Channel := { Channel.fresh with rep0 := some 1, rep1 := some 2, due := [3] }
     let s := { demo with chans := [(33, x)] }
     s.chan 33 = x ∧ 3 ∈ x.due ∧ 4 ∉ x.due ∧ (s.chan 32).due = [] ∧ (s.chan 32).rep0 = none ∧ x.rep0.isSome = true ∧ x.rep1.isSome = true) ∧
    (fieldN (mapGetD demo.tierCtl 0 0xFFFF0000#32).toNat 15 12 = 0 ∧
      fieldN (mapGetD [(0, (0x1000 : Word))] 0 0xFFFF0000#32).toNat 15 12 = 1) := by decide +kernel

/-- A phase end of the task at 0x10004, posted; with an object whose first variant switches there. -/
def ending (admitted : Bool) (to_ : Option Nat) : Machine.State :=
  { (demoTask fun t => { t with phase := some ⟨0x10004, [(0, allLanes)], 0, 0, true, admitted, to_, 0⟩ }) with
    objects := [(0, object [smallV, hugeV] [])] }
def draining (succ : Option (BitVec 64)) (low : List Host.Cell) : Machine.State :=
  State.paged (demoTask fun t => { t with state := .draining, succ }) low

theorem witness_TaskEvents :
    (∀ v ∈ [(0 : Word).toNat, 0x100], let s := demoTask fun t => { t with kvec := BitVec.ofNat 64 v }
      (mapGet (s.core 0).bands 0).isSome = true ∧ (mapGet (s.core 0).tasks ((s.core 0).taskOfBand 0)).isSome = true) ∧
    (demo.taskAt 0 0 = some 0 ∧ demo.takesRequest 0 0 = true ∧ (draining none []).takesRequest 0 0 = false) ∧
    (let s := (demoTask fun t => { t with request := some ⟨0x100, 1⟩ }).updBand 0 0 fun b => { b with pre := true }
     ((s.core 0).task 0).request = some ⟨0x100, 1⟩ ∧ ((s.core 0).task 0).state ≠ .draining ∧ ((s.core 0).task 0).phase = none ∧
       ∃ b ∈ ((s.core 0).task 0).slots, ((s.core 0).band b).pre = true ∧ ((s.core 0).band b).keep = false) ∧
    ((demo.core 0).task 0).request = none ∧
    (∀ k ∈ [0, 1],
      let s := ending true (some k)
      let x := (s.core 0).task 0
      (x.phase.map fun p => (p.pc, p.admitted, p.switchTo)) = some (0x10004, true, some k) ∧ s.restsForSwitch 0 0 = true ∧
        ((s.cluster (coreCluster 0)).placing.any (·.core == 0)) = false ∧ (s.variantOf (s.launch x.launch) k).isSome = true) ∧
    (let s := ending true (some 0)
     let w := (s.variantOf (s.launch 1) 0).bind fun v => v.switches.find? fun r => r.target == 0 && (s.object 0).va + BitVec.ofNat 64 r.at_ == 0x10004
     w.isSome = true ∧ (s.switchTask 0 0 0 smallV ⟨4, 0, 8, []⟩).isSome = true ∧ (s.switchTask 0 0 1 hugeV ⟨4, 1, 8, []⟩).isNone = true) ∧
    ((ending false none).launch 1).limit ≤ (ending false none).usec ∧
    ((draining none []).core 0).drained 0 = true ∧ (((draining none []).core 0).task 0).hands = false ∧ (demo.core 0).drained 0 = false ∧
    (((draining (some 1) []).core 0).task 0).hands = true ∧ ((draining (some 1) []).readTcb 0 1).2.isNone = true ∧
    (∀ p ∈ [(bytesOf 64 0, false), (zeroBytes 24 ++ [1, 128, 32, 32] ++ zeroBytes 36, true)],
      let s := draining (some 0x4000) (cells 0x4000 p.1)
      (match (s.readTcb 0 0x4000).2 with
        | some b => ((s.core 0).task 0).takesTcb b == p.2 && s.admits (coreCluster 0) (numAt b 32 4) (numAt b 36 2) 0 && numAt b 38 1 == 0
        | none => false) = true ∧ (((s.core 0).table.filter fun e => e.1 < 256).length + ((s.core 0).task 0).nbands ≤ 256)) := by decide +kernel

/-- A queued task of launch 1, and one of launch 2, of a domain with a valid record; a placement of the first. -/
def waiting1 : QTask := ⟨1, 5, none, some 0, false, some 0⟩
def waiting2 : QTask := ⟨2, 6, none, some 0, false, none⟩
def clustered (vs : List Variant) (qs : List QTask) (ps : List Placing) (slice : Nat) : Machine.State :=
  let s := State.paged { demo with objects := [(0, object vs [])], launches := demo.launches ++ [(2, loadLaunch)],
                                   clusters := [(0, ⟨qs, ps, 0, none⟩)] } []
  s.updLaunch 1 fun l => { l with slice, saveBase := 0x8000 }

theorem witness_ClusterEvents :
    (let p : Placing := ⟨waiting1, 0, 0, none, none⟩
     let s := clustered [smallV] [] [p] 0
     let d := smallV.needs
     (s.cluster 0).placing = [p] ∧ p.task.restore = none ∧ p.request = none ∧ s.variantOf (s.launch 1) 0 = some smallV ∧
       ((s.core 0).takeGen.1.choosePipes d.vg none d.bands).any (· != []) = true ∧
       (lowestFree ((s.updTask 0 0 fun t => { t with tileMap := [], accMap := [] }).core 0).takeGen.1.tileUsed 8 d.tg).isSome = true ∧
       (lowestFree ((s.updTask 0 0 fun t => { t with tileMap := [], accMap := [] }).core 0).takeGen.1.accUsed 32 d.na).isSome = true ∧ d.sp = 0) ∧
    (demo.cluster 0).placing = [] ∧ (mapGet demo.cores 0).isSome = true ∧
    (∀ p ∈ [(1, true), (2 ^ 40, false)],
      let v := { smallV with nt := 0, na := 0, energy := p.1 }
      let s := clustered [v] [waiting1] [] 0
      let l := s.launch 1
      (s.cluster 0).queue = [waiting1] ∧ (s.cluster 0).placing = [] ∧ (mapGetD s.pds l.pd PdRec.fresh).flags.getLsbD 0 = true ∧
        (s.groupOfQ waiting1).isNone = true ∧ s.notLowest 0 waiting1 = false ∧
        s.chooseFor l ((l.coresFor 5 (l.coresIn 0)).filter fun c => !s.heldFor c waiting1) none = some (0, 0) ∧
        s.variantOf l 0 = some v ∧ s.admits 0 v.energy v.current 0 = p.2) ∧
    waiting2.launch = 2 := by decide +kernel

theorem witness_ClusterQueues :
    (waiting1.firstSince = some 0 ∧ 0 + 64 ≤ ({ demo with usec := 64 }).usec ∧ ({ demo with usec := 63 }).usec < 0 + 64) ∧
    (let s := clustered [] [waiting1] [] 0
     (s.cluster 0).queue.find? (fun q => q.admitSince.any fun t => t + (s.launch q.launch).limit ≤ s.usec) = some waiting1 ∧
       ((clustered [] [] [] 0).cluster 0).queue.find? (fun q => q.admitSince.any fun t => t + 0 ≤ 0) = none) ∧
    (∀ det ∈ [true, false],
      let s := ({ demo with clusters := [(1, ⟨[waiting1, { waiting1 with number := 7 }], [], 0, none⟩)] } : Machine.State).updLaunch 1 fun l =>
        { l with det, groups := [] }
      (s.cluster 0).queue = [] ∧ (∃ i < 4, (s.core (4 * 0 + i)).tasks = []) ∧ 1 ∈ sectorClusters 0 ∧ (s.cluster 1).queue.length = 2 ∧
        (∀ u ∈ sectorClusters 0, u ≠ 1 → (s.cluster u).queue.length < 2) ∧ ((s.cluster 1).queue.filter (s.ships 0)).isEmpty = det) ∧
    (∀ v ∈ sectorClusters 0, (demo.cluster v).queue.length < 2) ∧
    (let s := clustered [] [waiting2] [] 1
     let s := { (s.updLaunch 1 fun l => { l with groups := [] }) with usec := 1 }
     let l := s.launch 1
     s.taskAt 0 0 = some 0 ∧ l.slice ≠ 0 ∧ l.saveBase ≠ 0 ∧ l.det = false ∧ l.groups = [] ∧ ((s.core 0).task 0).sliceFrom + l.slice ≤ s.usec ∧
       s.takesRequest 0 0 = true ∧ ∃ q ∈ (s.cluster (coreCluster 0)).queue, q.launch ≠ 1 ∧ l.prio ≤ s.prioOf q ∧
         (s.chooseFor (s.launch q.launch) ((s.launch q.launch).coresIn (coreCluster 0)) none).isNone = true) ∧
    (let s := { State.reset with power := { Power.fresh with pendState := some .i1 } }
     s.idleNow = true ∧ s.power.pendState = some .i1 ∧ PState.i1.idle = true ∧ demo.idleNow = false ∧ Power.fresh.pendState = none) := by
  decide +kernel

theorem witness_SchedulingEvents :
    (mapGet (demo.core 0).tasks 0).isSome = true ∧ (clustered [smallV] [waiting1] [] 0).cluster 0 ≠ demo.cluster 0 := by decide +kernel

/-! ## Instructions: one step each, the result worked out by hand from the rule -/

/-- The state after one step of a word, with registers written before it. -/
def after (w : Nat) (ps : List (Loc × Word)) : Machine.State :=
  match step (State.put (State.reset.withFetchWord 64 w) ps) with
  | .next t => t
  | _ => State.reset

def word (t : Machine.State) (l : Loc) : Word := ((t.core 0).readLoc 0 1 l).1

/-- R98: the sum wraps; the destination is a source. -/
theorem test_add_wraps : word (after 0b0_00_0000001_0_0000001_0000001_0000010 [(vReg 31 1, 0xFFFFFFFF), (vReg 31 2, 2)]) (vReg 31 1) = 1 := by
  decide +kernel

/-- R98: the high word of a signed product: (-1) × 1 = -1. -/
theorem test_mulhi_signed : word (after 0b0_00_0000110_0_0000011_0000001_0000010 [(vReg 0 1, 0xFFFFFFFF), (vReg 0 2, 1)]) (vReg 0 3) = 0xFFFFFFFF := by
  decide +kernel

/-- R95, R98: an arithmetic shift by more than the width gives the sign. -/
theorem test_sra_beyond_width : word (after 0b0_00_0001111_0_0000011_0000001_0000010 [(vReg 0 1, 0x80000000), (vReg 0 2, 33)]) (vReg 0 3) = 0xFFFFFFFF := by
  decide +kernel

/-- R103: the uniform difference reads each register once. -/
theorem test_ssub : word (after 0b1_00000_00_000001_000010_000011_000001 [(sReg 2, 3), (sReg 3, 5)]) (sReg 1) = 0xFFFFFFFE := by decide +kernel

/-- R103: an immediate of 18 bits is sign-extended. -/
theorem test_sli_sign : word (after 0b1_00001_00_000001_100000000000000000 []) (sReg 1) = 0xFFFE0000 := by decide +kernel

/-- R102: predicate logic of lane 4. -/
theorem test_pand : word (after 0x08408184 [(pReg 4 3, 1), (pReg 4 4, 1)]) (pReg 4 2) = 1 := by decide +kernel

/-- R117: 1 + 1 = 2. -/
theorem test_fadd : word (after 0b0_00_0110001_0_0000011_0000001_0000010 [(vReg 7 1, 0x3F800000), (vReg 7 2, 0x3F800000)]) (vReg 7 3) = 0x40000000 := by
  decide +kernel

/-- R80: a branch by -2 words from 0x10004. -/
theorem test_bra : ((((after 0b1_00101_00_000000_111111111111111110 []).core 0).band 0).thread 9).pc = 0xFFFC := by decide +kernel

/-- R63, R65: a word that decodes to nothing is trap 0x01, which without a handler ends the task. -/
theorem test_illegal_word_ends_task : (((after 0 []).core 0).task 0).endCause = 1 := by decide +kernel

end Sys2Proof.Tests
end

section
/-! PROOFS. Control instructions: what `nop` does. -/

namespace Sys2Proof.Machine

/-- The arm of `exec` for `nop`: it is issued, and past its word it leaves the state alone. -/
theorem exec_nop (d : BitVec 2) (s : State) :
    exec (.nop d) s = issue (.nop d) (shapeS d []) (fun _ t => .ok t) s := rfl

/-- A uniform instruction is one word, so one that issues takes its slot and goes past one word. -/
theorem slot_passed_shapeS {s : State} {u : Cursor} {i : Instr} {d : BitVec 2} {srcs : List Src}
    (h : s.issues u i (shapeS d srcs) = true) :
    s.Slot u (some 1) (s.issueTime u i true d.toNat) (s.passed u i (shapeS d srcs)) :=
  s.slot_passed u i (shapeS d srcs) (State.stands_of_issues h)

/-- An instruction whose meaning is to leave the state past it alone changes nothing. -/
theorem issue_changes_none {s : State} {u : Cursor} {i : Instr} {q : Shape} (h : s.issues u i q = true)
    (f : Ctx → State → Res) (hf : f (s.seen u i q) (s.passed u i q) = .ok (s.passed u i q)) :
    ∃ t, issue i q f s = .next t ∧ s.Changes u i q id id t :=
  ⟨s.passed u i q, issue_ok h f hf, changes_none s u i q⟩

/-- Settles O20: a `nop` that issues goes to the very state that its issue leaves past its one word (R89). -/
theorem nopTakesOneSlot : Obligations.NopTakesOneSlot := by
  intro s u d i q hi hq h
  subst hi hq
  refine ⟨slot_passed_shapeS h, ?_⟩
  rw [exec_nop]
  exact issue_changes_none h _ rfl

end Sys2Proof.Machine
end

section
/-! PROOFS. Matrix instructions: what `mprog` reads (R292). -/

namespace Sys2Proof.Machine

/-- The word that `mprog` writes for an accumulator of its task: its status word under GEN, the word's own tag (R266), or 0
when none of the task's generation is stored (R9). -/
def Ctx.shownStatus (x : Ctx) (a : Nat) : Word :=
  if (mapGet x.k.accStat (x.task.accAt a)).any (·.gen == x.gen) then
    BitVec.ofNat 32 (65536 * x.gen.toNat) ||| (x.k.accStatus x.task a).1
  else 0

theorem Ctx.shownStatus_of_none {x : Ctx} {a : Nat} (h : mapGet x.k.accStat (x.task.accAt a) = none) : x.shownStatus a = 0 := by
  rw [Ctx.shownStatus, h]; rfl

/-- A stored status word is shown whole to its own generation and as 0 to any other. -/
theorem Ctx.shownStatus_of_some {x : Ctx} {a : Nat} {y : Tagged Word} (h : mapGet x.k.accStat (x.task.accAt a) = some y) :
    x.shownStatus a = if y.gen = x.gen then BitVec.ofNat 32 (65536 * x.gen.toNat) ||| y.val else 0 := by
  by_cases hg : y.gen = x.gen
  · have hfields : (x.k.accStatus x.task a).1 = y.val := by rw [Core.accStatus, h, readTagged, if_pos (show y.gen = x.task.gen from hg)]
    simp [Ctx.shownStatus, h, hg, hfields]
  · simp [Ctx.shownStatus, h, hg]

/-- Whether reading the status word of an accumulator is trap 0x04: its task traps reads of another generation (R9). -/
def Ctx.statusTraps (x : Ctx) (a : Nat) : Prop := x.l.gentrap = true ∧ (x.k.accStatus x.task a).2 = false

/-- The meaning of `mprog` once it issues: no part of it waits for the matrix order. -/
def mprogMeaning (sn : BitVec 6) (a : BitVec 5) (x : Ctx) (s : State) : Res :=
  if x.l.gentrap && !(x.k.accStatus x.task a.toNat).2 then .trap 0x04 0 0 else s.done x (x.toS sn (x.shownStatus a.toNat))

/-- The arm of `exec` for `mprog`. -/
theorem exec_mprog (d : BitVec 2) (sn : BitVec 6) (a : BitVec 5) (s : State) :
    exec (.mprog d sn a) s = issue (.mprog d sn a) { shapeS d [] with as := [a.toNat] } (mprogMeaning sn a) s := rfl

theorem mprogMeaning_traps {sn : BitVec 6} {a : BitVec 5} {x : Ctx} (s : State) (h : x.statusTraps a.toNat) :
    mprogMeaning sn a x s = .trap 0x04 0 0 := by
  obtain ⟨hgentrap, hother⟩ := h
  simp [mprogMeaning, hgentrap, hother]

theorem mprogMeaning_done {sn : BitVec 6} {a : BitVec 5} {x : Ctx} (s : State) (h : ¬x.statusTraps a.toNat) :
    mprogMeaning sn a x s = s.done x (x.toS sn (x.shownStatus a.toNat)) :=
  if_neg fun hc => h (by simpa [Ctx.statusTraps] using hc)

/-- An `mprog` that issues and whose read does not trap gives the status word it shows. -/
theorem mprog_gives {s : State} {u : Cursor} {i : Instr} {q : Shape} (sn : BitVec 6) (a : BitVec 5)
    (h : s.issues u i q = true) (hn : ¬(s.seen u i q).statusTraps a.toNat) :
    ∃ t, issue i q (mprogMeaning sn a) s = .next t ∧
      s.Gives u i q ((s.seen u i q).toS sn ((s.seen u i q).shownStatus a.toNat)) flNone t :=
  issue_gives h _ _ (mprogMeaning_done _ hn) (Ctx.toS_distinct _ _ _) (Ctx.toS_own _ _ _)

/-- Settles O44: the word that `mprog` shows is the stored one under the task's generation, and its read is the only thing
that can trap. -/
theorem mprogStatus : Obligations.MprogStatus := by
  intro s u d sn a i q x hi hq hx h
  subst hi hx
  rw [exec_mprog, ← hq]
  refine ⟨fun hgentrap hother => issue_trap h _ (mprogMeaning_traps _ ⟨hgentrap, hother⟩), fun hn => ?_⟩
  have hgives := mprog_gives sn a h hn
  cases hstored : mapGet (s.seen u (.mprog d sn a) q).k.accStat ((s.seen u (.mprog d sn a) q).task.accAt a.toNat) with
  | none => rwa [Ctx.shownStatus_of_none hstored] at hgives
  | some y => rwa [Ctx.shownStatus_of_some hstored] at hgives

end Sys2Proof.Machine
end

section
/-! PROOFS. Module events: what the hottest die temperature sets, lifts and ends (R386). -/

namespace Sys2Proof.Machine

/-! ## The thermal limit -/

/-- A limit governs the next control interval of a module that neither is in an idle state nor enters one. -/
theorem limitTo_governs {s : State} (l : Option PState) (hstate : s.power.state.idle = false)
    (hpend : s.power.pendState.any PState.idle = false) :
    (s.limitTo l).power.pendState = some (s.limitTo l).power.target :=
  if_neg (by simp [hstate, hpend])

/-- The rank of the state that a limit lets the controller run. -/
theorem limitTo_target_rank (s : State) (l : PState) : (s.limitTo (some l)).power.target.rank = max s.power.cap.rank l.rank :=
  target_rank (s.limitTo (some l)).power

/-- The arm of `exec` for the event of 95 °C. -/
theorem exec_thermalLimit (temp : Nat) (s : State) :
    exec (.thermalLimit temp) s = .next (if temp < 95 || s.power.thermal.isSome then s else s.limitTo (some .p2)) := rfl

theorem thermalLimit_below {temp : Nat} (s : State) (h : temp < 95) : exec (.thermalLimit temp) s = .next s := by
  simp [exec_thermalLimit, h]

theorem thermalLimit_sets {temp : Nat} {s : State} (h : 95 ≤ temp) (hnone : s.power.thermal = none) :
    exec (.thermalLimit temp) s = .next (s.limitTo (some .p2)) := by
  simp [exec_thermalLimit, Nat.not_lt.2 h, hnone]

/-! ## The thermal emergency -/

/-- The module whose emergency has begun, before its tasks are saved. -/
def State.inEmergency (s : State) : State :=
  { s.limitTo (some .p3) with power := { (s.limitTo (some .p3)).power with emergency := true } }

/-- The arm of `exec` for the event of 105 °C. -/
theorem exec_thermalEmergency (temp : Nat) (s : State) :
    exec (.thermalEmergency temp) s = .next (if temp < 105 || s.power.emergency then s else s.inEmergency.saveAll) := rfl

theorem thermalEmergency_below {temp : Nat} (s : State) (h : temp < 105) : exec (.thermalEmergency temp) s = .next s := by
  simp [exec_thermalEmergency, h]

theorem thermalEmergency_begins {temp : Nat} {s : State} (h : 105 ≤ temp) (hcalm : s.power.emergency = false) :
    exec (.thermalEmergency temp) s = .next s.inEmergency.saveAll := by
  simp [exec_thermalEmergency, Nat.not_lt.2 h, hcalm]

theorem inEmergency_keeps (s : State) : s.inEmergency.power.emergency = true ∧ s.inEmergency.power.thermal = some .p3 ∧
    s.inEmergency.cores = s.cores ∧ s.inEmergency.clusters = s.clusters := ⟨rfl, rfl, rfl, rfl⟩

/-- Where no core has a task there is nothing to pre-empt: the saves reach the placements of the clusters alone. -/
theorem saveAll_of_no_task {s : State} (h : ∀ x ∈ s.cores, x.2.tasks = []) : s.saveAll = { s with clusters := s.saveAll.clusters } := by
  have hnone : (s.cores.flatMap fun k => k.2.tasks.map fun t => (k.1, t.1)) = [] :=
    List.flatMap_eq_nil_iff.2 fun x hx => by rw [h x hx]; rfl
  unfold State.saveAll
  rw [hnone]
  rfl

/-! ## The lift of a limit -/

/-- The module whose limit is lifted to another one, or altogether; with it its emergency ends. -/
def State.liftedTo (s : State) (l : Option PState) : State :=
  { s.limitTo l with power := { (s.limitTo l).power with emergency := false } }

theorem liftedTo_keeps (s : State) (l : Option PState) : (s.liftedTo l).power.thermal = l ∧
    (s.liftedTo l).power.emergency = false ∧ (s.liftedTo l).cores = s.cores := ⟨rfl, rfl, rfl⟩

/-- The arm of `exec` for the lift, at a module that has a limit. -/
theorem exec_thermalLimitLift {s : State} {x : PState} (temp : Nat) (h : s.power.thermal = some x) :
    exec (.thermalLimitLift temp) s =
      .next (if temp ≤ 90 then s.liftedTo none else if temp ≤ 100 && x == .p3 then s.liftedTo (some .p2) else s) := by
  change execThermalLimitLift temp s = _
  rw [execThermalLimitLift, h]
  rfl

theorem thermalLimitLift_whole {s : State} {x : PState} {temp : Nat} (h : s.power.thermal = some x) (hcool : temp ≤ 90) :
    exec (.thermalLimitLift temp) s = .next (s.liftedTo none) := by
  rw [exec_thermalLimitLift temp h, if_pos hcool]

theorem thermalLimitLift_p3 {s : State} {temp : Nat} (h : s.power.thermal = some .p3) (hwarm : 90 < temp) (hcool : temp ≤ 100) :
    exec (.thermalLimitLift temp) s = .next (s.liftedTo (some .p2)) := by
  rw [exec_thermalLimitLift temp h, if_neg (Nat.not_le.2 hwarm), if_pos (by simp [hcool])]

theorem thermalLimitLift_stays {s : State} {x : PState} {temp : Nat} (h : s.power.thermal = some x) (hwarm : 90 < temp)
    (hstays : x ≠ .p3 ∨ 100 < temp) : exec (.thermalLimitLift temp) s = .next s := by
  have hnot : ¬(temp ≤ 100 && x == .p3) = true := by
    rw [Bool.and_eq_true, decide_eq_true_iff, beq_iff_eq]
    rintro ⟨hcool, hp3⟩
    exact hstays.elim (· hp3) (Nat.not_lt.2 hcool)
  rw [exec_thermalLimitLift temp h, if_neg (Nat.not_le.2 hwarm), if_neg hnot]

/-! ## The hard trip -/

/-- The module that is off after a hard trip: as at reset, but for what stands without power and the domains it lost. -/
def State.trippedOff (s : State) : State :=
  { State.reset with
    mgmt := { Mgmt.fresh with bootNo := s.mgmt.bootNo, pubKeys := s.mgmt.pubKeys, manufactured := s.mgmt.manufactured, powered := false }
    pdEnd := s.loseDomains.pdEnd.filter fun p => p.2 == 2
    out := s.out, turns := s.turns, fresh := s.fresh }

/-- The arm of `exec` for the event of 110 °C. -/
theorem exec_hardTrip (temp : Nat) (s : State) :
    exec (.hardTrip temp) s = .next (if temp < 110 || !s.mgmt.powered then s else s.trippedOff) := rfl

theorem hardTrip_below {temp : Nat} (s : State) (h : temp < 110) : exec (.hardTrip temp) s = .next s := by
  simp [exec_hardTrip, h]

theorem hardTrip_trips {temp : Nat} {s : State} (h : 110 ≤ temp) (hon : s.mgmt.powered = true) :
    exec (.hardTrip temp) s = .next s.trippedOff := by
  simp [exec_hardTrip, Nat.not_lt.2 h, hon]

theorem trippedOff_leaves (s : State) : s.trippedOff.mgmt.powered = false ∧ s.trippedOff.mem = [] ∧ s.trippedOff.keys = [] ∧
    s.trippedOff.cores = State.reset.cores ∧ s.trippedOff.mgmt.bootNo = s.mgmt.bootNo ∧
    s.trippedOff.mgmt.pubKeys = s.mgmt.pubKeys := ⟨rfl, rfl, rfl, rfl, rfl, rfl⟩

/-- The domain of every placed task is lost with the power (R381). -/
theorem trippedOff_loses {s : State} {k : Nat × Core} (hk : k ∈ s.cores) {x : Nat × Machine.Task} (hx : x ∈ k.2.tasks) :
    mapGet s.trippedOff.pdEnd (s.launch x.2.launch).pd = some 2 :=
  mapGet_filter_two _ _ (loses s k hk x hx)

/-! ## R386 -/

/-- Settles O55, event by event: each is unfolded once into the states `limitTo`, `inEmergency`, `liftedTo` and `trippedOff`,
and an emergency at a module without tasks keeps its cores because there is nothing to save. -/
theorem dieTemperature : Obligations.DieTemperature := by
  intro s temp
  refine ⟨thermalLimit_below s, fun hhot hnone => ?limit, thermalEmergency_below s, fun hhot hcalm hidle _ => ?emergencyIdle,
    fun hhot hcalm => ⟨s.inEmergency, thermalEmergency_begins hhot hcalm, inEmergency_keeps s⟩, fun x hx => ⟨fun hcool => ?whole,
      fun hwarm hcool hp3 => ?p3, fun hwarm => thermalLimitLift_stays hx hwarm⟩, fun hhot hon => ?trip, hardTrip_below s⟩
  case limit =>
    obtain ⟨hcores, hmem, -, hthermal⟩ := limit_keeps s (some .p2)
    exact ⟨_, thermalLimit_sets hhot hnone, hthermal, limitTo_target_rank s .p2, hcores, hmem, limitTo_governs _⟩
  case emergencyIdle =>
    obtain ⟨hon, hp3, hcores, -⟩ := inEmergency_keeps s
    have hsaved := saveAll_of_no_task (s := s.inEmergency) (by rwa [hcores])
    refine ⟨_, thermalEmergency_begins hhot hcalm, ?_⟩
    rw [hsaved]
    exact ⟨hon, hp3, hcores⟩
  case whole => exact ⟨_, thermalLimitLift_whole hx hcool, liftedTo_keeps s none⟩
  case p3 =>
    subst hp3
    exact ⟨_, thermalLimitLift_p3 hx hwarm hcool, liftedTo_keeps s (some .p2)⟩
  case trip =>
    obtain ⟨hoff, hmem, hkeys, hcores, hboot, hpub⟩ := trippedOff_leaves s
    exact ⟨_, hardTrip_trips hhot hon, hoff, hmem, hkeys, hcores, hboot, hpub, fun _ hk _ hx => trippedOff_loses hk hx⟩

end Sys2Proof.Machine
end

section
/-! PROOFS. Decoder and encoder: the round trip (R50 to R54, R60 to R62). -/

namespace Sys2Proof

/-- The words of every instruction decode to it. -/
theorem words_decode (i : Instr) : Laws.RoundTrip.Statement i :=
  match i with
  | .clause .. => Laws.RoundTrip.clause _ _ _ _ _ _
  | .addB32 .. => Laws.RoundTrip.addB32 _
  | .subB32 .. => Laws.RoundTrip.subB32 _
  | .addB64 .. => Laws.RoundTrip.addB64 _
  | .subB64 .. => Laws.RoundTrip.subB64 _
  | .mulB32 .. => Laws.RoundTrip.mulB32 _
  | .mulhiI32 .. => Laws.RoundTrip.mulhiI32 _
  | .mulhiB32 .. => Laws.RoundTrip.mulhiB32 _
  | .madB32 .. => Laws.RoundTrip.madB32 _
  | .andB32 .. => Laws.RoundTrip.andB32 _
  | .orB32 .. => Laws.RoundTrip.orB32 _
  | .xorB32 .. => Laws.RoundTrip.xorB32 _
  | .andnB32 .. => Laws.RoundTrip.andnB32 _
  | .shlB32 .. => Laws.RoundTrip.shlB32 _
  | .shrB32 .. => Laws.RoundTrip.shrB32 _
  | .sraB32 .. => Laws.RoundTrip.sraB32 _
  | .shlB64 .. => Laws.RoundTrip.shlB64 _
  | .shrB64 .. => Laws.RoundTrip.shrB64 _
  | .sraB64 .. => Laws.RoundTrip.sraB64 _
  | .minI32 .. => Laws.RoundTrip.minI32 _
  | .minB32 .. => Laws.RoundTrip.minB32 _
  | .maxI32 .. => Laws.RoundTrip.maxI32 _
  | .maxB32 .. => Laws.RoundTrip.maxB32 _
  | .cmp32 .. => Laws.RoundTrip.cmp32 _
  | .cmp64 .. => Laws.RoundTrip.cmp64 _
  | .bfeB32 .. => Laws.RoundTrip.bfeB32 _
  | .bfeI32 .. => Laws.RoundTrip.bfeI32 _
  | .bfiB32 .. => Laws.RoundTrip.bfiB32 _
  | .mov .. => Laws.RoundTrip.mov _
  | .absI32 .. => Laws.RoundTrip.absI32 _
  | .popc .. => Laws.RoundTrip.popc _
  | .clz .. => Laws.RoundTrip.clz _
  | .brev .. => Laws.RoundTrip.brev _
  | .lid .. => Laws.RoundTrip.lid _ _
  | .li .. => Laws.RoundTrip.li _ _ _
  | .vmovr .. => Laws.RoundTrip.vmovr _
  | .vmovw .. => Laws.RoundTrip.vmovw _
  | .movs .. => Laws.RoundTrip.movs _ _ _
  | .pand .. => Laws.RoundTrip.pand _ _ _ _
  | .por .. => Laws.RoundTrip.por _ _ _ _
  | .pxor .. => Laws.RoundTrip.pxor _ _ _ _
  | .pnot .. => Laws.RoundTrip.pnot _ _ _
  | .sel .. => Laws.RoundTrip.sel _ _
  | .fadd .. => Laws.RoundTrip.fadd _ _
  | .fsub .. => Laws.RoundTrip.fsub _ _
  | .fmul .. => Laws.RoundTrip.fmul _ _
  | .fma .. => Laws.RoundTrip.fma _ _
  | .fmin .. => Laws.RoundTrip.fmin _ _
  | .fmax .. => Laws.RoundTrip.fmax _ _
  | .fminm .. => Laws.RoundTrip.fminm _ _
  | .fmaxm .. => Laws.RoundTrip.fmaxm _ _
  | .fcmp .. => Laws.RoundTrip.fcmp _ _
  | .frcp .. => Laws.RoundTrip.frcp _ _
  | .frsq .. => Laws.RoundTrip.frsq _ _
  | .fsqrt .. => Laws.RoundTrip.fsqrt _ _
  | .fclass .. => Laws.RoundTrip.fclass _ _
  | .frnd .. => Laws.RoundTrip.frnd _ _ _
  | .fdiv .. => Laws.RoundTrip.fdiv _ _
  | .fscale .. => Laws.RoundTrip.fscale _ _
  | .fdot2 .. => Laws.RoundTrip.fdot2 _ _
  | .ftab .. => Laws.RoundTrip.ftab _ _
  | .ld .. => Laws.RoundTrip.ld _ _ _
  | .st .. => Laws.RoundTrip.st _ _ _
  | .ldk .. => Laws.RoundTrip.ldk _ _ _ _
  | .stk .. => Laws.RoundTrip.stk _ _ _ _
  | .lds .. => Laws.RoundTrip.lds _ _
  | .sts .. => Laws.RoundTrip.sts _ _
  | .pf .. => Laws.RoundTrip.pf _
  | .atom .. => Laws.RoundTrip.atom _ _ _ _
  | .atomc .. => Laws.RoundTrip.atomc _ _ _
  | .pwaddr .. => Laws.RoundTrip.pwaddr _ _
  | .pwclaim .. => Laws.RoundTrip.pwclaim _
  | .pwflush .. => Laws.RoundTrip.pwflush _
  | .pwnorm .. => Laws.RoundTrip.pwnorm _
  | .pwraw .. => Laws.RoundTrip.pwraw _
  | .pwdrop .. => Laws.RoundTrip.pwdrop _
  | .cvt .. => Laws.RoundTrip.cvt _ _ _ _ _
  | .pk .. => Laws.RoundTrip.pk _ _ _ _ _
  | .upk .. => Laws.RoundTrip.upk _ _ _ _ _
  | .qz .. => Laws.RoundTrip.qz _ _ _ _ _
  | .dq .. => Laws.RoundTrip.dq _ _ _ _ _
  | .mxq .. => Laws.RoundTrip.mxq _ _ _ _ _
  | .mxdq .. => Laws.RoundTrip.mxdq _ _ _ _ _
  | .vote .. => Laws.RoundTrip.vote _ _
  | .shfl .. => Laws.RoundTrip.shfl _ _ _
  | .red .. => Laws.RoundTrip.red _ _ _
  | .scan .. => Laws.RoundTrip.scan _ _ _ _
  | .bcast .. => Laws.RoundTrip.bcast _ _
  | .sadd .. => Laws.RoundTrip.sadd _
  | .ssub .. => Laws.RoundTrip.ssub _
  | .smul .. => Laws.RoundTrip.smul _
  | .smulhiI32 .. => Laws.RoundTrip.smulhiI32 _
  | .smulhiB32 .. => Laws.RoundTrip.smulhiB32 _
  | .sand .. => Laws.RoundTrip.sand _
  | .sor .. => Laws.RoundTrip.sor _
  | .sxor .. => Laws.RoundTrip.sxor _
  | .sshl .. => Laws.RoundTrip.sshl _
  | .sshr .. => Laws.RoundTrip.sshr _
  | .ssra .. => Laws.RoundTrip.ssra _
  | .sminI32 .. => Laws.RoundTrip.sminI32 _
  | .sminB32 .. => Laws.RoundTrip.sminB32 _
  | .smaxI32 .. => Laws.RoundTrip.smaxI32 _
  | .smaxB32 .. => Laws.RoundTrip.smaxB32 _
  | .smov .. => Laws.RoundTrip.smov _ _ _
  | .spopc .. => Laws.RoundTrip.spopc _ _ _
  | .sclz .. => Laws.RoundTrip.sclz _ _ _
  | .saddB64 .. => Laws.RoundTrip.saddB64 _
  | .ssubB64 .. => Laws.RoundTrip.ssubB64 _
  | .ssel .. => Laws.RoundTrip.ssel _
  | .scmp .. => Laws.RoundTrip.scmp _ _
  | .sli .. => Laws.RoundTrip.sli _ _ _
  | .slih .. => Laws.RoundTrip.slih _ _ _
  | .sbfe .. => Laws.RoundTrip.sbfe _ _ _ _ _ _
  | .sbfi .. => Laws.RoundTrip.sbfi _ _ _ _ _
  | .saddImm .. => Laws.RoundTrip.saddImm _ _ _ _
  | .bra .. => Laws.RoundTrip.bra _ _
  | .brz .. => Laws.RoundTrip.brz _ _ _
  | .brnz .. => Laws.RoundTrip.brnz _ _ _
  | .call .. => Laws.RoundTrip.call _ _
  | .callv .. => Laws.RoundTrip.callv _ _
  | .split .. => Laws.RoundTrip.split _ _ _ _
  | .nop .. => Laws.RoundTrip.nop _
  | .ret .. => Laws.RoundTrip.ret _
  | .calli .. => Laws.RoundTrip.calli _ _
  | .join .. => Laws.RoundTrip.join _ _
  | .jwait .. => Laws.RoundTrip.jwait _ _
  | .jset .. => Laws.RoundTrip.jset _ _ _
  | .jget .. => Laws.RoundTrip.jget _ _ _
  | .yield .. => Laws.RoundTrip.yield _
  | .brk .. => Laws.RoundTrip.brk _ _
  | .trap .. => Laws.RoundTrip.trap _ _
  | .sld .. => Laws.RoundTrip.sld _ _ _ _ _ _
  | .sst .. => Laws.RoundTrip.sst _ _ _ _ _ _
  | .satom .. => Laws.RoundTrip.satom _ _ _ _
  | .lset .. => Laws.RoundTrip.lset _ _ _
  | .lget .. => Laws.RoundTrip.lget _ _ _
  | .kset .. => Laws.RoundTrip.kset _ _ _ _
  | .lnext .. => Laws.RoundTrip.lnext _ _ _
  | .rel .. => Laws.RoundTrip.rel _
  | .acq .. => Laws.RoundTrip.acq _
  | .sync .. => Laws.RoundTrip.sync _
  | .xrel .. => Laws.RoundTrip.xrel _
  | .xrelDram .. => Laws.RoundTrip.xrelDram _
  | .bar .. => Laws.RoundTrip.bar _ _ _
  | .arrive .. => Laws.RoundTrip.arrive _ _ _
  | .barw .. => Laws.RoundTrip.barw _ _
  | .gmask .. => Laws.RoundTrip.gmask _ _ _
  | .qpush .. => Laws.RoundTrip.qpush _ _ _ _
  | .qpop .. => Laws.RoundTrip.qpop _ _ _
  | .qfence .. => Laws.RoundTrip.qfence _ _
  | .twany .. => Laws.RoundTrip.twany _ _ _
  | .twall .. => Laws.RoundTrip.twall _ _
  | .tffr .. => Laws.RoundTrip.tffr _ _ _
  | .tget .. => Laws.RoundTrip.tget _ _
  | .tclr .. => Laws.RoundTrip.tclr _ _
  | .mma .. => Laws.RoundTrip.mma _ _ _ _ _ _ _ _ _ _
  | .mmc .. => Laws.RoundTrip.mmc _ _ _ _ _ _ _ _
  | .tld .. => Laws.RoundTrip.tld _ _ _ _
  | .tst .. => Laws.RoundTrip.tst _ _ _ _
  | .tmov .. => Laws.RoundTrip.tmov _ _ _
  | .tzero .. => Laws.RoundTrip.tzero _ _
  | .amov .. => Laws.RoundTrip.amov _ _ _
  | .ald .. => Laws.RoundTrip.ald _ _ _
  | .ast .. => Laws.RoundTrip.ast _ _ _
  | .azero .. => Laws.RoundTrip.azero _ _
  | .sign .. => Laws.RoundTrip.sign _ _ _
  | .mprog .. => Laws.RoundTrip.mprog _ _ _
  | .exit .. => Laws.RoundTrip.exit _
  | .exitSucc .. => Laws.RoundTrip.exitSucc _ _
  | .phase .. => Laws.RoundTrip.phase _ _
  | .gen .. => Laws.RoundTrip.gen _ _
  | .rsys .. => Laws.RoundTrip.rsys _ _ _
  | .wsys .. => Laws.RoundTrip.wsys _ _ _
  | .kret .. => Laws.RoundTrip.kret _
  | .svc .. => Laws.RoundTrip.svc _ _ _
  | .rsc .. => Laws.RoundTrip.rsc _ _ _
  | .halt .. => Laws.RoundTrip.halt _
  | .illegalEncoding .. => Laws.RoundTrip.illegalEncoding _
  | .plynwickOperationCompletion .. => Laws.RoundTrip.plynwickOperationCompletion _ _
  | .malformedNode .. => Laws.RoundTrip.malformedNode _
  | .hostCommandUnknownOpcode => Laws.RoundTrip.hostCommandUnknownOpcode
  | .instructionLineFill .. => Laws.RoundTrip.instructionLineFill _ _
  | .pageTableWalk .. => Laws.RoundTrip.pageTableWalk _ _
  | .loadCompletion .. => Laws.RoundTrip.loadCompletion _ _
  | .atomicCompletion .. => Laws.RoundTrip.atomicCompletion _ _
  | .sequencerCompletion .. => Laws.RoundTrip.sequencerCompletion _ _
  | .ftabCompletion .. => Laws.RoundTrip.ftabCompletion _ _
  | .releaseCompletion .. => Laws.RoundTrip.releaseCompletion _ _
  | .acquireCompletion .. => Laws.RoundTrip.acquireCompletion _ _
  | .faultRecordPost .. => Laws.RoundTrip.faultRecordPost _
  | .registration .. => Laws.RoundTrip.registration _
  | .recall .. => Laws.RoundTrip.recall _
  | .domeRequest .. => Laws.RoundTrip.domeRequest _
  | .domeFill .. => Laws.RoundTrip.domeFill _ _
  | .replicaInvalidate .. => Laws.RoundTrip.replicaInvalidate _
  | .domeUncorrectableError .. => Laws.RoundTrip.domeUncorrectableError _
  | .l1Eviction .. => Laws.RoundTrip.l1Eviction _ _
  | .plynwickRecall .. => Laws.RoundTrip.plynwickRecall _ _
  | .eyeMarginMeasure .. => Laws.RoundTrip.eyeMarginMeasure _ _ _ _
  | .laneRepair .. => Laws.RoundTrip.laneRepair _ _ _
  | .counterDecay .. => Laws.RoundTrip.counterDecay _
  | .engineCommandStart .. => Laws.RoundTrip.engineCommandStart _ _ _
  | .copy .. => Laws.RoundTrip.copy _ _ _
  | .copy2d .. => Laws.RoundTrip.copy2d _ _ _
  | .gather .. => Laws.RoundTrip.gather _ _ _
  | .scatter .. => Laws.RoundTrip.scatter _ _ _
  | .multicast .. => Laws.RoundTrip.multicast _ _ _
  | .collectiveReduce .. => Laws.RoundTrip.collectiveReduce _ _ _
  | .ingestBind .. => Laws.RoundTrip.ingestBind _ _ _
  | .engineCommandComplete .. => Laws.RoundTrip.engineCommandComplete _ _ _
  | .engineFault .. => Laws.RoundTrip.engineFault _ _ _
  | .tagWaitComplete .. => Laws.RoundTrip.tagWaitComplete _ _
  | .qpopComplete .. => Laws.RoundTrip.qpopComplete _ _
  | .ingestFrame .. => Laws.RoundTrip.ingestFrame _
  | .gapRecordTimeout .. => Laws.RoundTrip.gapRecordTimeout _
  | .ingestConsumerReread .. => Laws.RoundTrip.ingestConsumerReread _
  | .pfcPauseRefresh .. => Laws.RoundTrip.pfcPauseRefresh _
  | .barrierReleaseStep .. => Laws.RoundTrip.barrierReleaseStep _ _
  | .matrixOperationIssue .. => Laws.RoundTrip.matrixOperationIssue _ _ _
  | .matrixKStep .. => Laws.RoundTrip.matrixKStep _ _ _
  | .matrixOperationComplete .. => Laws.RoundTrip.matrixOperationComplete _ _
  | .matrixTransferComplete .. => Laws.RoundTrip.matrixTransferComplete _ _
  | .preemptionRequest .. => Laws.RoundTrip.preemptionRequest _ _ _
  | .preemptionEntry .. => Laws.RoundTrip.preemptionEntry _ _
  | .variantSwitch .. => Laws.RoundTrip.variantSwitch _ _
  | .phaseAdmissionTimeout .. => Laws.RoundTrip.phaseAdmissionTimeout _ _
  | .queuedAdmissionTimeout .. => Laws.RoundTrip.queuedAdmissionTimeout _
  | .taskRetire .. => Laws.RoundTrip.taskRetire _ _
  | .successorStart .. => Laws.RoundTrip.successorStart _ _
  | .place .. => Laws.RoundTrip.place _
  | .generationSweepEnd .. => Laws.RoundTrip.generationSweepEnd _
  | .placementAttempt .. => Laws.RoundTrip.placementAttempt _
  | .queueHeadAgeExpiry .. => Laws.RoundTrip.queueHeadAgeExpiry _
  | .controlInterval => Laws.RoundTrip.controlInterval
  | .stealRequest .. => Laws.RoundTrip.stealRequest _
  | .timeSliceExpiry .. => Laws.RoundTrip.timeSliceExpiry _ _
  | .walkerTakeEntry .. => Laws.RoundTrip.walkerTakeEntry _
  | .kernelNode .. => Laws.RoundTrip.kernelNode _
  | .copyNode .. => Laws.RoundTrip.copyNode _
  | .condNode .. => Laws.RoundTrip.condNode _
  | .whileNode .. => Laws.RoundTrip.whileNode _
  | .waitqNode .. => Laws.RoundTrip.waitqNode _
  | .waitqPoll .. => Laws.RoundTrip.waitqPoll _
  | .waitqTimeout .. => Laws.RoundTrip.waitqTimeout _
  | .signalNode .. => Laws.RoundTrip.signalNode _
  | .endNode .. => Laws.RoundTrip.endNode _
  | .rdmaWrite .. => Laws.RoundTrip.rdmaWrite _ _ _
  | .rdmaRead .. => Laws.RoundTrip.rdmaRead _ _ _
  | .remoteAccessTimeout .. => Laws.RoundTrip.remoteAccessTimeout _ _
  | .bufferTableWrite .. => Laws.RoundTrip.bufferTableWrite _ _ _
  | .wqErrClear .. => Laws.RoundTrip.wqErrClear _ _
  | .registerWrite .. => Laws.RoundTrip.registerWrite _ _ _
  | .tlbinv => Laws.RoundTrip.tlbinv
  | .bufinv => Laws.RoundTrip.bufinv
  | .recallCommand => Laws.RoundTrip.recallCommand
  | .faultans => Laws.RoundTrip.faultans
  | .load => Laws.RoundTrip.load
  | .unload => Laws.RoundTrip.unload
  | .preempt => Laws.RoundTrip.preempt
  | .restore => Laws.RoundTrip.restore
  | .killpd => Laws.RoundTrip.killpd
  | .identify .. => Laws.RoundTrip.identify _
  | .attest .. => Laws.RoundTrip.attest _
  | .keyload .. => Laws.RoundTrip.keyload _
  | .keydestroy .. => Laws.RoundTrip.keydestroy _
  | .powertol .. => Laws.RoundTrip.powertol _
  | .clockplan .. => Laws.RoundTrip.clockplan _
  | .evcfg .. => Laws.RoundTrip.evcfg _
  | .evread .. => Laws.RoundTrip.evread _
  | .resync .. => Laws.RoundTrip.resync _
  | .settime .. => Laws.RoundTrip.settime _
  | .admin .. => Laws.RoundTrip.admin _ _
  | .streams .. => Laws.RoundTrip.streams _ _ _
  | .debugBreakpoint .. => Laws.RoundTrip.debugBreakpoint _ _ _ _
  | .debugStep .. => Laws.RoundTrip.debugStep _ _ _ _
  | .debugReadTable .. => Laws.RoundTrip.debugReadTable _ _
  | .debugStorageRead .. => Laws.RoundTrip.debugStorageRead _ _ _ _
  | .debugStorageWrite .. => Laws.RoundTrip.debugStorageWrite _ _ _ _ _ _
  | .channel .. => Laws.RoundTrip.channel _ _
  | .forensic .. => Laws.RoundTrip.forensic _
  | .reset .. => Laws.RoundTrip.reset _
  | .idleEntry => Laws.RoundTrip.idleEntry
  | .wake => Laws.RoundTrip.wake
  | .thermalLimit .. => Laws.RoundTrip.thermalLimit _
  | .thermalEmergency .. => Laws.RoundTrip.thermalEmergency _
  | .hardTrip .. => Laws.RoundTrip.hardTrip _
  | .thermalLimitLift .. => Laws.RoundTrip.thermalLimitLift _
  | .watchtowerAlarm .. => Laws.RoundTrip.watchtowerAlarm _
  | .powerUp => Laws.RoundTrip.powerUp
  | .debugResume .. => Laws.RoundTrip.debugResume _ _ _
  | .transportConnection .. => Laws.RoundTrip.transportConnection _ _ _ _
  | .remoteAtomic .. => Laws.RoundTrip.remoteAtomic _ _ _
  | .unknownCommand .. => Laws.RoundTrip.unknownCommand _ _

/-- The decoder accepts an instruction only if it is well formed and its encoding is the words read. -/
theorem of_decode {w x : Word} {i : Instr} (h : decode w x = .ok i) :
    i.wf = true ∧ encode i = (if isLong w then [w, x] else [w]) := by
  unfold decode at h
  split at h
  · cases h
  · next j _ =>
    by_cases hwf : j.wf = true
    · by_cases henc : encode j = (if isLong w then [w, x] else [w])
      · rw [hwf, if_neg (by decide), if_pos henc] at h
        cases h
        exact ⟨hwf, henc⟩
      · rw [hwf, if_neg (by decide), if_neg henc] at h
        cases h
    · rw [if_pos (by simpa using hwf)] at h
      cases h

/-- Settles O1: the words of each instruction decode to it, constructor by constructor, and the decoder itself compares the encoding of
what it read with the words. -/
theorem roundTrip : Obligations.RoundTrip :=
  ⟨words_decode, fun _ _ _ => of_decode⟩

end Sys2Proof
end

section
/-! PROOFS. Integer instructions: each instruction of a table of R98 to R104 runs its form with the function of its row. -/

namespace Sys2Proof.Machine

/-! ## Results of the forms -/

theorem issue_each32 {s : State} {u : Cursor} {i : Instr} {q : Shape} (h : s.issues u i q = true) (vd : BitVec 7)
    (f : Ctx → Nat → Word) : ∃ t, issue i q (fun x t => t.done x (x.each32 vd (f x))) s = .next t ∧
      s.Gives u i q ((s.seen u i q).each32 vd (f (s.seen u i q))) flNone t :=
  issue_gives h _ _ rfl (Ctx.each32_distinct _ _ _) (Ctx.each32_own _ _ _)

theorem issue_each64 {s : State} {u : Cursor} {i : Instr} {q : Shape} (h : s.issues u i q = true) (vd : BitVec 7)
    (hvd : evenReg vd = true) (f : Ctx → Nat → BitVec 64) : ∃ t, issue i q (fun x t => t.done x (x.each64 vd (f x))) s = .next t ∧
      s.Gives u i q ((s.seen u i q).each64 vd (f (s.seen u i q))) flNone t :=
  issue_gives h _ _ rfl (Ctx.each64_distinct _ _ _ (toNat_even hvd)) (Ctx.each64_own _ _ _)

theorem issue_eachP {s : State} {u : Cursor} {i : Instr} {q : Shape} (h : s.issues u i q = true) (pd : BitVec 3)
    (f : Ctx → Nat → Bool) : ∃ t, issue i q (fun x t => t.done x (x.eachP pd (f x))) s = .next t ∧
      s.Gives u i q ((s.seen u i q).eachP pd (f (s.seen u i q))) flNone t :=
  issue_gives h _ _ rfl (Ctx.eachP_distinct _ _ _) (Ctx.eachP_own _ _ _)

theorem issue_toS {s : State} {u : Cursor} {i : Instr} {q : Shape} (h : s.issues u i q = true) (sd : BitVec 6) (f : Ctx → Word) :
    ∃ t, issue i q (fun x t => t.done x (x.toS sd (f x))) s = .next t ∧
      s.Gives u i q ((s.seen u i q).toS sd (f (s.seen u i q))) flNone t :=
  issue_gives h _ _ rfl (Ctx.toS_distinct _ _ _) (Ctx.toS_own _ _ _)

theorem issue_toS64 {s : State} {u : Cursor} {i : Instr} {q : Shape} (h : s.issues u i q = true) (sd : BitVec 6)
    (f : Ctx → BitVec 64) : ∃ t, issue i q (fun x t => t.done x (x.toS64 sd (f x))) s = .next t ∧
      s.Gives u i q ((s.seen u i q).toS64 sd (f (s.seen u i q))) flNone t :=
  issue_gives h _ _ rfl (Ctx.toS64_distinct _ _ _) (Ctx.toS64_own _ _ _)

/-! ## Bit fields under a control word (R101) -/

theorem bfExtract_zero (a c : Word) : bfExtract a c false = zeroField a (fieldPos c) (fieldBits c) := by
  obtain ⟨hpos, hbits⟩ := fieldOf_eq c
  rw [bfExtract, hpos, hbits, extractField_zero]

theorem bfExtract_sign (a c : Word) : bfExtract a c true = signField a (fieldPos c) (fieldBits c) := by
  obtain ⟨hpos, hbits⟩ := fieldOf_eq c
  rw [bfExtract, hpos, hbits, extractField_sign _ _ _ (fieldBits_le32 c)]

theorem bfInsert_put (a c old : Word) : bfInsert a c old = putField old a (fieldPos c) (fieldBits c) := by
  obtain ⟨hpos, hbits⟩ := fieldOf_eq c
  rw [bfInsert, hpos, hbits, insertField_eq _ _ _ _ (fieldBits_le c)]

/-! ## The tables -/

theorem exec_wordOp {i : Instr} {o : VV} {f : Word → Word → Word} (s : State) (h : wordOp i = some (o, f)) :
    exec i s = vec32 i o f s := by
  unfold wordOp at h
  split at h <;> simp only [Option.some.injEq, Prod.mk.injEq, reduceCtorEq] at h <;> obtain ⟨rfl, rfl⟩ := h
  case h_4 => change execMulhiI32 _ s = _; simp only [execMulhiI32, highWord_signed]
  case h_5 => change execMulhiB32 _ s = _; simp only [execMulhiB32, highWord_unsigned]
  case h_10 => change execShlB32 _ s = _; simp only [execShlB32, leftBy_eq]
  case h_11 => change execShrB32 _ s = _; simp only [execShrB32, rightBy_eq]
  case h_12 => change execSraB32 _ s = _; simp only [execSraB32, arithRightBy_eq]
  case h_13 => change execMinI32 _ s = _; simp only [execMinI32, minS_eq]
  case h_14 => change execMinB32 _ s = _; simp only [execMinB32, minU_eq]
  case h_15 => change execMaxI32 _ s = _; simp only [execMaxI32, maxS_eq]
  case h_16 => change execMaxB32 _ s = _; simp only [execMaxB32, maxU_eq]
  case h_17 => change execBfeB32 _ s = _; simp only [execBfeB32, bfExtract_zero]
  case h_18 => change execBfeI32 _ s = _; simp only [execBfeI32, bfExtract_sign]
  all_goals rfl

theorem exec_pairOp {i : Instr} {o : VV} {f : BitVec 64 → BitVec 64 → BitVec 64} (s : State) (h : pairOp i = some (o, f)) :
    exec i s = vec64 i o f s := by
  unfold pairOp at h
  split at h <;> simp only [Option.some.injEq, Prod.mk.injEq, reduceCtorEq] at h <;> obtain ⟨rfl, rfl⟩ := h
  case h_3 => change execShlB64 _ s = _; simp only [execShlB64, leftBy_eq]
  case h_4 => change execShrB64 _ s = _; simp only [execShrB64, rightBy_eq]
  case h_5 => change execSraB64 _ s = _; simp only [execSraB64, arithRightBy_eq]
  all_goals rfl

/-- A well-formed instruction on pairs names an even destination (R52). -/
theorem pairOp_even {i : Instr} {o : VV} {f : BitVec 64 → BitVec 64 → BitVec 64} (h : pairOp i = some (o, f)) (hwf : i.wf = true) :
    evenReg o.vd = true := by
  have hpair : i.wf = o.wf64 := by
    unfold pairOp at h
    split at h <;> simp only [Option.some.injEq, Prod.mk.injEq, reduceCtorEq] at h <;> obtain ⟨rfl, rfl⟩ := h <;> rfl
  rw [hpair, VV.wf64] at hwf
  simp only [Bool.and_eq_true] at hwf
  exact hwf.1.1.2

theorem exec_accOp {i : Instr} {o : VV} {f : Word → Word → Word → Word} (s : State) (h : accOp i = some (o, f)) :
    exec i s = vecAcc i o f s := by
  unfold accOp at h
  split at h <;> simp only [Option.some.injEq, Prod.mk.injEq, reduceCtorEq] at h <;> obtain ⟨rfl, rfl⟩ := h
  case h_1 => rfl
  case h_2 => change execBfiB32 _ s = _; simp only [execBfiB32, bfInsert_put]

theorem exec_unaryOp {i : Instr} {o : VU} {f : Word → Word} (s : State) (h : unaryOp i = some (o, f)) :
    exec i s = vecUnary i o f s := by
  unfold unaryOp at h
  split at h <;> simp only [Option.some.injEq, Prod.mk.injEq, reduceCtorEq] at h <;> obtain ⟨rfl, rfl⟩ := h
  case h_1 => rfl
  case h_2 => change execAbsI32 _ s = _; simp only [execAbsI32, abs_eq]
  case h_3 => change execPopc _ s = _; simp only [execPopc, popc_eq]
  case h_4 => change execClz _ s = _; simp only [execClz, clz_eq]
  case h_5 => change execBrev _ s = _; simp only [execBrev, brev_eq]

theorem exec_laneOp {i : Instr} {d : BitVec 2} {vd : BitVec 7} {srcs : List (BitVec 6)} {f : List Word → Nat → Word} (s : State)
    (h : laneOp i = some (d, vd, srcs, f)) : exec i s = vecConst i d vd (srcs.map (Src.s ·.toNat)) (fun x => f (srcs.map x.s)) s := by
  unfold laneOp at h
  split at h <;> simp only [Option.some.injEq, Prod.mk.injEq, reduceCtorEq] at h <;> obtain ⟨rfl, rfl, rfl, rfl⟩ := h
  case h_1 => rfl
  case h_2 => change execLi _ _ _ s = _; simp only [execLi, sli_eq _ (show 14 ≤ 32 by decide)]; rfl
  case h_3 => rfl

theorem exec_predicateOp {i : Instr} {d : BitVec 2} {pd pa pb : BitVec 3} {f : Bool → Bool → Bool} (s : State)
    (h : predicateOp i = some (d, pd, pa, pb, f)) : exec i s = predOp i d pd pa pb f s := by
  unfold predicateOp at h
  split at h <;> simp only [Option.some.injEq, Prod.mk.injEq, reduceCtorEq] at h <;> obtain ⟨rfl, rfl, rfl, rfl, rfl⟩ := h
  case h_3 => change execPxor _ _ _ _ s = _; simp only [execPxor, Bool.bne_eq_xor]
  all_goals rfl

theorem exec_uniformOp {i : Instr} {o : S3} {f : Word → Word → Word} (s : State) (h : uniformOp i = some (o, f)) :
    exec i s = uni32 i o f s := by
  unfold uniformOp at h
  split at h <;> simp only [Option.some.injEq, Prod.mk.injEq, reduceCtorEq] at h <;> obtain ⟨rfl, rfl⟩ := h
  case h_4 => change execSmulhiI32 _ s = _; simp only [execSmulhiI32, highWord_signed]
  case h_5 => change execSmulhiB32 _ s = _; simp only [execSmulhiB32, highWord_unsigned]
  case h_9 => change execSshl _ s = _; simp only [execSshl, leftBy_eq]
  case h_10 => change execSshr _ s = _; simp only [execSshr, rightBy_eq]
  case h_11 => change execSsra _ s = _; simp only [execSsra, arithRightBy_eq]
  case h_12 => change execSminI32 _ s = _; simp only [execSminI32, minS_eq]
  case h_13 => change execSminB32 _ s = _; simp only [execSminB32, minU_eq]
  case h_14 => change execSmaxI32 _ s = _; simp only [execSmaxI32, maxS_eq]
  case h_15 => change execSmaxB32 _ s = _; simp only [execSmaxB32, maxU_eq]
  case h_16 => change execScmp _ _ s = _; simp only [execScmp, holds_eq]; rfl
  all_goals rfl

/-- The field of R104 takes what bits there are from its position up. -/
theorem field_width_le (pos wid : BitVec 5) : min (wid.toNat + 1) (32 - pos.toNat) ≤ 32 := by omega

theorem field_fits (pos wid : BitVec 5) :
    pos.toNat + min (wid.toNat + 1) (32 - pos.toNat) ≤ 32 ∨ min (wid.toNat + 1) (32 - pos.toNat) = 0 := by
  have := pos.isLt
  omega

theorem exec_uniformOther {i : Instr} {d : BitVec 2} {sd : BitVec 6} {srcs : List (BitVec 6)} {f : List Word → Word} (s : State)
    (h : uniformOther i = some (d, sd, srcs, f)) : exec i s = uniOne i d sd (srcs.map (Src.s ·.toNat)) (fun x => f (srcs.map x.s)) s := by
  unfold uniformOther at h
  split at h <;> simp only [Option.some.injEq, Prod.mk.injEq, reduceCtorEq] at h <;> obtain ⟨rfl, rfl, rfl, rfl⟩ := h
  case h_1 => rfl
  case h_2 => change execSpopc _ _ _ s = _; simp only [execSpopc, popc_eq]; rfl
  case h_3 => change execSclz _ _ _ s = _; simp only [execSclz, clz_eq]; rfl
  case h_4 => change execSsel _ s = _; simp only [execSsel, bne_iff_ne]; rfl
  case h_5 => change execSli _ _ _ s = _; simp only [execSli, sli_eq _ (show 18 ≤ 32 by decide)]; rfl
  case h_6 => change execSlih _ _ _ s = _; simp only [execSlih, slih_eq]; rfl
  case h_7 => change execSbfe _ _ _ _ _ _ s = _; simp only [execSbfe, sbfe_eq _ _ _ _ (field_width_le _ _)]; rfl
  case h_8 => change execSbfi _ _ _ _ _ s = _; simp only [execSbfi, insertField_eq _ _ _ _ (field_fits _ _)]; rfl
  case h_9 => change execSaddImm _ _ _ _ s = _; simp only [execSaddImm, saddImm_eq _ _ (show 12 ≤ 32 by decide)]; rfl

/-! ## R98 to R107 -/

/-- Settles O6: form VV on words and on pairs, and form VA, of every instruction of the tables. -/
theorem vectorOps : Obligations.VectorOps := by
  refine ⟨?words, ?pairs, ?acc⟩
  case words =>
    intro s u i o f q x hop hq hx h
    subst hq hx
    rw [exec_wordOp s hop]
    exact issue_each32 h o.vd _
  case pairs =>
    intro s u i o f q x hop hq hx h
    subst hq hx
    rw [exec_pairOp s hop]
    exact issue_each64 h o.vd (pairOp_even hop (State.wf_of_issues h)) _
  case acc =>
    intro s u i o f q x hop hq hx h
    subst hq hx
    rw [exec_accOp s hop]
    exact issue_each32 h o.vd _

/-- Settles O7: form VS and the results without vector sources. -/
theorem vectorOneSource : Obligations.VectorOneSource := by
  refine ⟨?unary, ?lane⟩
  case unary =>
    intro s u i o f q x hop hq hx h
    subst hq hx
    rw [exec_unaryOp s hop]
    exact issue_each32 h o.vd _
  case lane =>
    intro s u i d vd srcs f q x hop hq hx h
    subst hq hx
    rw [exec_laneOp s hop]
    exact issue_each32 h vd _

/-- Settles O8: the model's comparison is the condition of R52. -/
theorem vectorCompare : Obligations.VectorCompare := by
  intro s u o
  refine ⟨?words, ?pairs⟩
  case words =>
    intro q x hq hx h
    subst hq hx
    simp only [← holds_eq]
    exact issue_eachP h o.pd _
  case pairs =>
    intro q x hq hx h
    subst hq hx
    simp only [← holds_eq]
    exact issue_eachP h o.pd _

/-- Settles O9, for the four instructions of the table. -/
theorem predicateLogic : Obligations.PredicateLogic := by
  intro s u i d pd pa pb f q x hop hq hx h
  subst hq hx
  rw [exec_predicateOp s hop]
  exact issue_eachP h pd _

/-- An index check that passes leaves every computed index of an Active lane in bound (R107). -/
theorem indexPre_bound {o : VV} {base : BitVec 7} {reads : Bool} {x : Ctx} (h : indexPre o base reads x = none) :
    ∀ l ∈ lanesOf x.active, x.vOk (base.toNat + (x.last l o.u o.vb).toNat) = true := by
  unfold indexPre at h
  split at h
  · cases h
  split at h
  · cases h
  dsimp only at h
  split at h
  · cases h
  next hbound => simpa using hbound

/-- Settles O10: an index that issues has passed its check, so a register written through it is within the band's. -/
theorem vectorSelectAndIndex : Obligations.VectorSelectAndIndex := by
  intro s u o
  refine ⟨?sel, ?read, ?write⟩
  case sel =>
    intro p q x hq hx h
    subst hq hx
    exact issue_each32 h o.vd fun x l => if x.p l p then x.v l o.va else x.last l o.u o.vb
  case read =>
    intro q x hq hx h
    subst hq hx
    exact ⟨indexPre_bound (check_pre (State.check_of_issues h)), issue_each32 h o.vd _⟩
  case write =>
    intro q x hq hx h
    subst hq hx
    have hbound := indexPre_bound (check_pre (State.check_of_issues h))
    exact ⟨hbound, issue_gives h _ _ rfl (Ctx.index_distinct _ _ _ hbound) (Ctx.index_own _ _ _)⟩

/-- Settles O11: the uniform forms on words, on pairs and of the other instructions. -/
theorem uniformOps : Obligations.UniformOps := by
  refine ⟨?words, ?pairs, ?others⟩
  case words =>
    intro s u i o f q x hop hq hx h
    subst hq hx
    rw [exec_uniformOp s hop]
    exact issue_toS h o.sd _
  case pairs =>
    intro s u i o f q x hop hq hx h
    subst hq hx
    have hexec : exec i s = uni64 i o f s := by
      simp only [List.mem_cons, Prod.mk.injEq, List.not_mem_nil, or_false] at hop
      obtain ⟨rfl, rfl⟩ | ⟨rfl, rfl⟩ := hop <;> rfl
    rw [hexec]
    exact issue_toS64 h o.sd _
  case others =>
    intro s u i d sd srcs f q x hop hq hx h
    subst hq hx
    rw [exec_uniformOther s hop]
    exact issue_toS h sd _

end Sys2Proof.Machine
end

section
/-! PROOFS. Floating-point instructions: results, flags and operations in flight (R112 to R124), rounding and NaNs. -/

namespace Sys2Proof.Machine

/-! ## Results of the forms -/

/-- Results and flags at once, or of a wide type 8 cycles later. -/
def doneTyped (w : Bool) (x : Ctx) (s : State) (ps : List (Loc × Word)) (fl : Fl) : Res :=
  if w then s.done8 x ps fl else s.doneFl x ps fl

/-- An instruction whose meaning writes typed results and flags at distinct places gives them. -/
theorem issue_givesTyped {s : State} {u : Cursor} {i : Instr} {q : Shape} (h : s.issues u i q = true) (w : Bool)
    (f : Ctx → State → Res) (ps : List (Loc × Word)) (fl : Fl)
    (hf : f (s.seen u i q) (s.passed u i q) = doneTyped w (s.seen u i q) (s.passed u i q) ps fl)
    (hd : w = false → Distinct ps) (hk : ∀ p ∈ ps, p.1.shared = true ∨ (s.seen u i q).b.keep = true ∨ p.1 = .nowhere) :
    ∃ t, issue i q f s = .next t ∧ s.GivesTyped u i q w ps fl t := by
  cases w with
  | false => exact issue_gives_fl h f ps fl hf (hd rfl) hk
  | true => exact issue_gives8 h f ps fl hf

/-- The same of results in place whatever the cycle at which they are seen: pairs or single registers. -/
theorem Ctx.eachF_own (x : Ctx) (ty : FTy) (vd : BitVec 7) (f : Nat → Nat) :
    ∀ p ∈ x.eachF ty vd f, p.1.shared = true ∨ x.b.keep = true ∨ p.1 = .nowhere := by
  unfold Ctx.eachF
  split
  · exact Ctx.each64_own _ _ _
  · exact Ctx.each32_own _ _ _

theorem Ctx.eachF_distinct (x : Ctx) (ty : FTy) (vd : BitVec 7) (f : Nat → Nat) (hw : ty.isWide = false) :
    Distinct (x.eachF ty vd f) := by
  rw [Ctx.eachF, hw]
  exact Ctx.each32_distinct _ _ _

theorem issue_eachF {s : State} {u : Cursor} {i : Instr} {q : Shape} (h : s.issues u i q = true) (ty : FTy) (vd : BitVec 7)
    (r : Ctx → Nat → Nat × Fl) :
    ∃ t, issue i q (fun x st => st.fpDone x ty (x.eachF ty vd fun l => (r x l).1) (orLanes x fun l => (r x l).2)) s = .next t ∧
      s.GivesTyped u i q ty.isWide ((s.seen u i q).eachF ty vd fun l => (r (s.seen u i q) l).1)
        (orLanes (s.seen u i q) fun l => (r (s.seen u i q) l).2) t :=
  issue_givesTyped h ty.isWide _ _ _ rfl (Ctx.eachF_distinct _ ty vd _) (Ctx.eachF_own _ _ _ _)

/-! ## R112 to R121 -/

theorem exec_floatTwo {i : Instr} {ty : FTy} {o : VV} {acc : Bool} {f : Ctx → Nat → Nat → Nat → Nat × Fl} (s : State)
    (h : floatTwo i = some (ty, o, acc, f)) : exec i s = fpBin i ty o acc f s := by
  unfold floatTwo at h
  split at h <;> simp only [Option.some.injEq, Prod.mk.injEq, reduceCtorEq] at h <;> obtain ⟨rfl, rfl, rfl, rfl⟩ := h <;> rfl

theorem exec_floatOne {i : Instr} {ty : FTy} {o : VU} {f : Ctx → Nat → Nat × Fl} (s : State) (h : floatOne i = some (ty, o, f)) :
    exec i s = fpUn i ty o f s := by
  unfold floatOne at h
  split at h <;> simp only [Option.some.injEq, Prod.mk.injEq, reduceCtorEq] at h <;> obtain ⟨rfl, rfl, rfl⟩ := h <;> rfl

/-- Settles O12: the forms of one, two and three sources, at the type's time. -/
theorem floatOps : Obligations.FloatOps := by
  refine ⟨?two, ?one⟩
  case two =>
    intro s u i ty o acc f q x r hop hq hx h hr
    subst hq hx hr
    rw [exec_floatTwo s hop]
    exact issue_eachF h ty o.vd fun x l => perElem3 ty (f x) (x.fa ty l o.va) (x.flast ty l o.u o.vb) (x.fa ty l o.vd)
  case one =>
    intro s u i ty o f q x r hop hq hx h hr
    subst hq hx hr
    rw [exec_floatOne s hop]
    exact issue_eachF h ty o.vd fun x l => perElem ty (f x) (x.fa ty l o.va)

/-- Settles O13: comparison writes a predicate, `fscale` a number of its type, `fdot2` a word. -/
theorem floatCompareScaleDot : Obligations.FloatCompareScaleDot := by
  intro s u
  refine ⟨?compare, ?scale, ?dot⟩
  case compare =>
    intro ty o q x r hq hx h hr
    subst hq hx hr
    exact issue_givesTyped h ty.isWide _ _ _ rfl (fun _ => Ctx.eachP_distinct _ _ _) (Ctx.eachP_own _ _ _)
  case scale =>
    intro w o q x r hq hx h hr
    subst hq hx hr
    exact issue_eachF h w.ty o.vd fun x l => fscaleF w.ty.spec x.rm (x.fa w.ty l o.va) (x.last l o.u o.vb).toInt
  case dot =>
    intro ht o q x r hq hx h hr
    subst hq hx hr
    exact issue_gives_fl h _ _ _ rfl (Ctx.each32_distinct _ _ _) (Ctx.each32_own _ _ _)

/-! ## Operations in flight (R119, R123, R124) -/

/-- The sequencer's own bookkeeping is no part of what an operation in flight shows. -/
theorem starts_seqBusy (s : State) (u : Cursor) (i : Instr) (q : Shape) (m : Map Nat → Map Nat) (lanes : Word) (flag : Option Nat)
    (kind : FKind) : s.Starts u i q lanes flag kind
      (((s.passed u i q).updCore (s.seen u i q).core fun k => { k with seqBusy := m k.seqBusy }).start (s.seen u i q) lanes flag kind) := by
  have part : ∀ {β : Type} (p : Core → β), (∀ k x, p { k with seqBusy := x } = p k) → ∀ d,
      p (((s.passed u i q).updCore (s.seen u i q).core fun k => { k with seqBusy := m k.seqBusy }).core d) =
        p ((s.passed u i q).core d) := by
    intro β p hp d
    rw [State.core_updCore]
    split
    · exact hp _ _
    · rfl
  have hband : ∀ d b, (((s.passed u i q).updCore (s.seen u i q).core fun k => { k with seqBusy := m k.seqBusy }).core d).band b =
      ((s.passed u i q).core d).band b := fun d b => part (·.band b) (fun _ _ => rfl) d
  refine State.starts_of s _ u i q lanes flag kind ⟨part (·.flights) (fun _ _ => rfl) _, part (·.nextOp) (fun _ _ => rfl) _⟩
    (fun d b gen l _ => part (·.readLoc b gen l) (fun _ _ => by cases l <;> rfl) d) (part (·.bands) fun _ _ => rfl)
    ⟨fun d b => ?_, part (·.tasks) fun _ _ => rfl, fun d => ⟨part (·.accs) (fun _ _ => rfl) d, part (·.accStat) (fun _ _ => rfl) d,
      part (·.tiles) (fun _ _ => rfl) d⟩⟩
    ⟨part (·.table) fun _ _ => rfl, fun d b => by rw [hband], fun d b => by rw [hband]⟩
    (MemSame.updCore _ _ _ fun _ => ⟨rfl, rfl, rfl, rfl⟩) (by rw [State.outside_updCore, State.outside_passed])
  rw [hband]
  exact ⟨rfl, rfl, rfl, rfl, rfl, rfl, rfl, rfl, rfl, rfl, rfl, rfl, rfl, rfl⟩

/-- A division or a square root is complete with no Active lane, else in flight. -/
theorem issue_seqStart {s : State} {u : Cursor} {i : Instr} {q : Shape} (h : s.issues u i q = true) (ty : FTy) (vd : BitVec 7)
    (r : Ctx → Nat → Nat × Fl) (x : Ctx) (hx : x = s.seen u i q) :
    ∃ t, issue i q (fun x st => st.seqStart x ty vd (r x)) s = .next t ∧
      if x.active = 0 then t = s.passed u i q else s.Starts u i q x.active x.flagB
        (.result true (pipeOf x.slot) (x.eachF ty vd fun l => (r x l).1) (orLanes x fun l => (r x l).2)) t := by
  subst hx
  by_cases ha : (s.seen u i q).active = 0
  · exact ⟨_, issue_ok h _ (by rw [State.seqStart, if_pos (beq_iff_eq.2 ha)]), by rw [if_pos ha]⟩
  · refine ⟨_, issue_ok h _ (by rw [State.seqStart, if_neg (mt beq_iff_eq.1 ha)]), ?_⟩
    rw [if_neg ha]
    exact starts_seqBusy s u i q (fun m => mapSet m (pipeOf (s.seen u i q).slot) ((s.seen u i q).now + if ty.isWide then 16 else 8)) _ _ _

theorem State.tableAt_of_objects {s t : State} (h : t.objects = s.objects) (pd : Nat) (pc : BitVec 64) (id : Nat) :
    t.tableAt pd pc id = s.tableAt pd pc id := by
  rw [State.tableAt, State.tableAt, h]

theorem passed_objects (s : State) (u : Cursor) (i : Instr) (q : Shape) : (s.passed u i q).objects = s.objects := by
  change (s.passed u i q).outside.objects = s.outside.objects
  rw [State.outside_passed]

/-- Settles O14: the coefficients of `ftab` are outside the cores, where issuing changes nothing. -/
theorem floatLongLatency : Obligations.FloatLongLatency := by
  intro s u
  refine ⟨?div, ?sqrt, ?tab⟩
  case div =>
    intro w o q x r hq hx h hr
    subst hq hr
    exact issue_seqStart h w.ty o.vd (fun x l => fdivF w.ty.spec x.rm (x.fa w.ty l o.va) (x.flast w.ty l o.u o.vb)) x hx
  case sqrt =>
    intro ty o q x r hq hx h hr
    subst hq hr
    exact issue_seqStart h ty o.vd (fun x l => perElem ty (fun a => fsqrtF ty.spec x.rm (x.ftz ty) a) (x.fa ty l o.va)) x hx
  case tab =>
    intro id o q x hq hx h
    subst hq hx
    by_cases ha : (s.seen u (.ftab id o) (shapeVU o)).active = 0
    · exact ⟨_, issue_ok h _ (if_pos (beq_iff_eq.2 ha)), by rw [if_pos ha]⟩
    · refine ⟨_, issue_ok h _ (if_neg (mt beq_iff_eq.1 ha)), ?_⟩
      rw [if_neg ha, State.tableAt_of_objects (passed_objects _ _ _ _)]
      exact State.starts s u _ _ _ _ _

end Sys2Proof.Machine
end

section
/-! PROOFS. Completions of floating operations (R123, R124); rounding in a mode and the canonical NaN (R112, R114, R118). -/

namespace Sys2Proof.Machine

/-! ## Completions -/

/-- What finishes an operation with results delivers them. -/
theorem finishResult_delivers (s : State) (c id : Nat) (f : Flight) (w : List (Loc × Word)) (fl : Fl)
    (hp : (mapGet (s.core c).bands f.slot).isSome = true) (hd : Distinct w) : s.Delivers c id f w fl (s.finishResult c id f w fl) :=
  State.delivers s c id f w fl hp hd _ rfl _ rfl

/-- Settles O15: the two completions finish the operation that is in flight. -/
theorem floatCompletion : Obligations.FloatCompletion := by
  intro s c id f seq p w fl hf hk hp hd
  refine ⟨_, ?_, finishResult_delivers s c id f w fl hp hd⟩
  cases seq with
  | false => change execFtabCompletion c id s = _; rw [execFtabCompletion, hf]; dsimp only; rw [hk]
  | true => change execSequencerCompletion c id s = _; rw [execSequencerCompletion, hf]; dsimp only; rw [hk]

/-! ## Rounding -/

theorem lt_half_of_far {m k : Nat} (h : m.log2 + 1 < k) : m < 2 ^ (k - 1) :=
  Nat.lt_of_lt_of_le Nat.lt_log2_self (Nat.pow_le_pow_right (by decide) (by omega))

theorem two_mul_half {k : Nat} (hk : 0 < k) : 2 ^ k = 2 * 2 ^ (k - 1) := by
  rw [← Nat.pow_succ', Nat.succ_eq_add_one, Nat.sub_add_cancel hk]

/-- Far below one unit or not, the quotient and the remainder are those of the division. -/
theorem roundShift_quotient (m k : Nat) : (if m.log2 + 1 < k then 0 else m >>> k) = m / 2 ^ k := by
  split
  · next hfar =>
    have hm : m < 2 ^ k := Nat.lt_of_lt_of_le (lt_half_of_far hfar) (Nat.pow_le_pow_right (by decide) (by omega))
    rw [Nat.div_eq_of_lt hm]
  · exact Nat.shiftRight_eq_div_pow m k

theorem roundShift_remainder (m k : Nat) : (if m.log2 + 1 < k then m else m - (m / 2 ^ k) <<< k) = m % 2 ^ k := by
  split
  · next hfar =>
    have hm : m < 2 ^ k := Nat.lt_of_lt_of_le (lt_half_of_far hfar) (Nat.pow_le_pow_right (by decide) (by omega))
    rw [Nat.mod_eq_of_lt hm]
  · rw [Nat.shiftLeft_eq]
    exact Nat.sub_eq_of_eq_add (by rw [Nat.mul_comm]; exact (Nat.mod_add_div m (2 ^ k)).symm)

/-- A value far below one unit has less than half a unit. -/
theorem not_far_and {m k : Nat} {p : Prop} [Decidable p] (hp : p → 2 ^ (k - 1) ≤ m % 2 ^ k) :
    (!decide (m.log2 + 1 < k) && decide p) = decide p := by
  by_cases hfar : m.log2 + 1 < k
  · have hsmall := Nat.lt_of_le_of_lt (Nat.mod_le m (2 ^ k)) (lt_half_of_far hfar)
    have hn : ¬p := fun h => absurd (hp h) (by omega)
    simp [hn]
  · simp [hfar]

/-- The model's rounding as a quotient, and one more of it by the mode and the remainder. -/
theorem roundShift_division (rm : Rnd) (neg : Bool) (m k : Nat) (hk : 0 < k) :
    roundShift rm neg m false k =
      (if (match rm with
        | .rn => decide (2 ^ (k - 1) < m % 2 ^ k) || (decide (m % 2 ^ k = 2 ^ (k - 1)) && m / 2 ^ k % 2 == 1)
        | .ra => decide (2 ^ (k - 1) < m % 2 ^ k) || decide (m % 2 ^ k = 2 ^ (k - 1))
        | .rz => false
        | .ru => decide (m % 2 ^ k ≠ 0) && !neg
        | .rd => decide (m % 2 ^ k ≠ 0) && neg) then m / 2 ^ k + 1 else m / 2 ^ k, decide (m % 2 ^ k ≠ 0)) := by
  have hpos : ¬(k : Int) ≤ 0 := by omega
  have hne : (m % 2 ^ k != 0) = decide (m % 2 ^ k ≠ 0) := by by_cases h : m % 2 ^ k = 0 <;> simp [h]
  have heq : (m % 2 ^ k == 2 ^ (k - 1)) = decide (m % 2 ^ k = 2 ^ (k - 1)) := rfl
  unfold roundShift
  rw [if_neg hpos]
  simp only [Int.toNat_natCast, decide_eq_true_eq, roundShift_quotient, roundShift_remainder, Nat.one_shiftLeft, Bool.false_or,
    Bool.and_false, Bool.or_false, Bool.not_false, Bool.and_true, heq, hne,
    not_far_and (show 2 ^ (k - 1) < m % 2 ^ k → _ from Nat.le_of_lt),
    not_far_and (show m % 2 ^ k = 2 ^ (k - 1) → _ from fun h => Nat.le_of_eq h.symm)] <;>
  cases rm <;> rfl

theorem nearest_even (rest half down : Nat) : (if half < rest ∨ rest = half ∧ down % 2 = 1 then down + 1 else down) =
    if 2 * rest < 2 * half then down else if 2 * half < 2 * rest then down + 1 else down + down % 2 := by
  split_ifs <;> omega

theorem nearest_away (rest half down : Nat) :
    (if half < rest ∨ rest = half then down + 1 else down) = if 2 * rest < 2 * half then down else down + 1 := by
  split_ifs <;> omega

theorem roundShift_eq (rm : Rnd) (neg : Bool) (m k : Nat) (hk : 0 < k) :
    roundShift rm neg m false k = (roundQuotient rm neg m k, decide (m % 2 ^ k ≠ 0)) := by
  have hhalf := two_mul_half hk
  rw [roundShift_division rm neg m k hk]
  unfold roundQuotient
  refine Prod.ext ?_ rfl
  dsimp only
  generalize m % 2 ^ k = rest
  generalize m / 2 ^ k = down
  generalize 2 ^ (k - 1) = half at hhalf
  rw [hhalf]
  cases rm <;> dsimp only
  case rn =>
    simp only [Bool.or_eq_true, Bool.and_eq_true, decide_eq_true_eq, beq_iff_eq]
    exact nearest_even rest half down
  case ra =>
    simp only [Bool.or_eq_true, decide_eq_true_eq]
    exact nearest_away rest half down
  case rz => rfl
  case ru => cases neg <;> simp
  case rd => cases neg <;> simp

/-! ## NaNs -/

/-- A result that is a NaN is the canonical one. -/
def Canonical (p : FloatSpec) (r : Nat) : Prop := (unpackF p r).isNaN = true → r = p.nanBits

theorem canonical_canonNaN (p : FloatSpec) (b : Bool) : Canonical p (canonNaN p b).1 := fun _ => rfl

/-- A magnitude up to infinity, with a sign, is no NaN: only an all-ones exponent with a fraction is one. -/
theorem isNaN_signed (p : FloatSpec) (neg : Bool) {m : Nat} (hm : m ≤ p.infBits) : (unpackF p (signed p neg m)).isNaN = false := by
  have hfrac : signed p neg m % 2 ^ p.mb = m % 2 ^ p.mb := by
    unfold signed FloatSpec.signBit
    split
    · rw [Nat.pow_add, Nat.mul_add_mod]
    · rfl
  have hexp : signed p neg m / 2 ^ p.mb % 2 ^ p.eb = m / 2 ^ p.mb % 2 ^ p.eb := by
    unfold signed FloatSpec.signBit
    split
    · rw [Nat.pow_add, Nat.mul_add_div (Nat.two_pow_pos _), Nat.add_mod_left]
    · rfl
  have hones : m / 2 ^ p.mb % 2 ^ p.eb = 2 ^ p.eb - 1 → m % 2 ^ p.mb = 0 := by
    intro h
    have hle : m / 2 ^ p.mb ≤ 2 ^ p.eb - 1 :=
      Nat.le_trans (Nat.div_le_div_right hm) (Nat.le_of_eq (Nat.mul_div_cancel _ (Nat.two_pow_pos _)))
    rw [Nat.mod_eq_of_lt (by have := Nat.two_pow_pos p.eb; omega)] at h
    have hdiv := Nat.div_add_mod m (2 ^ p.mb)
    rw [h, Nat.mul_comm] at hdiv
    have : m ≤ (2 ^ p.eb - 1) * 2 ^ p.mb := hm
    omega
  unfold unpackF
  simp only [hfrac, hexp]
  by_cases h : m / 2 ^ p.mb % 2 ^ p.eb = 2 ^ p.eb - 1
  · simp [h, hones h, FNum.isNaN]
  · by_cases h0 : m / 2 ^ p.mb % 2 ^ p.eb = 0 <;> simp [h, h0, FNum.isNaN]
    split <;> simp_all

theorem canonical_signed (p : FloatSpec) (neg : Bool) {m : Nat} (hm : m ≤ p.infBits) : Canonical p (signed p neg m) := by
  rw [Canonical, isNaN_signed p neg hm]
  exact fun h => absurd h (by decide)

theorem canonical_inf (p : FloatSpec) (neg : Bool) : Canonical p (signed p neg p.infBits) := canonical_signed p neg (Nat.le_refl _)

theorem canonical_zero (p : FloatSpec) (neg : Bool) : Canonical p (signed p neg 0) := canonical_signed p neg (Nat.zero_le _)

theorem canonical_roundF (p : FloatSpec) (rm : Rnd) (ftz neg : Bool) (m : Nat) (e : Int) (st : Bool) :
    Canonical p (roundF p rm ftz neg m e st).1 := by
  unfold roundF
  obtain ⟨bits, inexact, tiny⟩ := roundCore p rm neg m e st
  dsimp only
  split
  · exact canonical_zero p neg
  split
  · refine canonical_signed p neg ?_
    split
    · exact Nat.sub_le _ _
    · exact Nat.le_refl _
  · next h => exact canonical_signed p neg (by omega)

theorem canonical_roundNum (p : FloatSpec) (rm : Rnd) (ftz neg : Bool) (m : Nat) (e : Int) :
    Canonical p (roundNum p rm ftz neg m e).1 := by
  unfold roundNum
  split
  · exact canonical_zero p neg
  · apply canonical_roundF

theorem canonical_addTerms (p : FloatSpec) (rm : Rnd) (ftz : Bool) (l : List FNum) : Canonical p (addTerms p rm ftz l).1 := by
  unfold addTerms
  dsimp only
  split
  · exact canonical_canonNaN p true
  split
  · exact canonical_inf p false
  split
  · exact canonical_inf p true
  split
  · exact canonical_zero p _
  · apply canonical_roundF

theorem canonical_faddF (p : FloatSpec) (rm : Rnd) (ftz : Bool) (a b : Nat) : Canonical p (faddF p rm ftz a b).1 := by
  unfold faddF
  dsimp only
  split
  · exact canonical_canonNaN p _
  · apply canonical_addTerms

theorem canonical_fsubF (p : FloatSpec) (rm : Rnd) (ftz : Bool) (a b : Nat) : Canonical p (fsubF p rm ftz a b).1 := by
  unfold fsubF
  dsimp only
  split
  · exact canonical_canonNaN p _
  · apply canonical_addTerms

theorem canonical_fmulF (p : FloatSpec) (rm : Rnd) (ftz : Bool) (a b : Nat) : Canonical p (fmulF p rm ftz a b).1 := by
  unfold fmulF
  dsimp only
  split
  · exact canonical_canonNaN p _
  split
  · exact canonical_canonNaN p _
  · exact canonical_inf p _
  · apply canonical_roundNum
  · exact canonical_canonNaN p _

theorem canonical_fmaF (p : FloatSpec) (rm : Rnd) (ftz : Bool) (a b c : Nat) : Canonical p (fmaF p rm ftz a b c).1 := by
  unfold fmaF
  dsimp only
  split
  · exact canonical_canonNaN p _
  split
  · exact canonical_canonNaN p _
  split
  · exact canonical_canonNaN p _
  · apply canonical_addTerms

theorem canonical_fdivF (p : FloatSpec) (rm : Rnd) (a b : Nat) : Canonical p (fdivF p rm a b).1 := by
  unfold fdivF
  split
  · exact canonical_canonNaN p _
  · exact canonical_canonNaN p _
  · exact canonical_canonNaN p _
  · exact canonical_canonNaN p _
  · exact canonical_inf p _
  · exact canonical_zero p _
  split
  · split
    · exact canonical_canonNaN p _
    · exact canonical_inf p _
  split
  · exact canonical_zero p _
  · apply canonical_roundF

theorem canonical_frcpF (p : FloatSpec) (rm : Rnd) (ftz : Bool) (a : Nat) : Canonical p (frcpF p rm ftz a).1 := by
  unfold frcpF
  split
  · exact canonical_canonNaN p _
  · exact canonical_zero p _
  split
  · exact canonical_inf p _
  · apply canonical_roundF

theorem canonical_fsqrtF (p : FloatSpec) (rm : Rnd) (ftz : Bool) (a : Nat) : Canonical p (fsqrtF p rm ftz a).1 := by
  unfold fsqrtF
  split
  · exact canonical_canonNaN p _
  · split
    · exact canonical_canonNaN p _
    · exact canonical_inf p false
  split
  · exact canonical_zero p _
  split
  · exact canonical_canonNaN p _
  · apply canonical_roundF

theorem canonical_frsqF (p : FloatSpec) (rm : Rnd) (ftz : Bool) (a : Nat) : Canonical p (frsqF p rm ftz a).1 := by
  unfold frsqF
  split
  · exact canonical_canonNaN p _
  · split
    · exact canonical_canonNaN p _
    · exact canonical_zero p false
  split
  · exact canonical_inf p _
  split
  · exact canonical_canonNaN p _
  · apply canonical_roundF

theorem canonical_frndF (p : FloatSpec) (rm : Rnd) (ftz : Bool) (a : Nat) : Canonical p (frndF p rm ftz a).1 := by
  unfold frndF
  split
  · exact canonical_canonNaN p _
  · exact canonical_inf p _
  split
  · exact canonical_zero p _
  dsimp only
  split <;> apply canonical_roundNum

theorem canonical_fscaleF (p : FloatSpec) (rm : Rnd) (a : Nat) (n : Int) : Canonical p (fscaleF p rm a n).1 := by
  unfold fscaleF
  split
  · exact canonical_canonNaN p _
  · exact canonical_inf p _
  · apply canonical_roundNum

/-- Settles O16: rounding is by the quotient and the remainder, and every other result of an operation is a number or an infinity. -/
theorem roundingAndNaN : Obligations.RoundingAndNaN := by
  refine ⟨fun rm neg m k hk => roundShift_eq rm neg m k hk, fun p _ rm ftz a b c n r hr => ?_⟩
  simp only [List.mem_cons, List.not_mem_nil, or_false] at hr
  obtain rfl | rfl | rfl | rfl | rfl | rfl | rfl | rfl | rfl | rfl := hr
  · apply canonical_faddF
  · apply canonical_fsubF
  · apply canonical_fmulF
  · apply canonical_fmaF
  · apply canonical_fdivF
  · apply canonical_frcpF
  · apply canonical_frsqF
  · apply canonical_fsqrtF
  · apply canonical_frndF
  · apply canonical_fscaleF

end Sys2Proof.Machine
end

section
/-! PROOFS. Format instructions (R135 to R145). -/

namespace Sys2Proof.Machine

/-- The registers that a format instruction writes: a pair or one in every Active lane. -/
def Ctx.eachFmt (x : Ctx) (wd : Bool) (vd : BitVec 7) (f : Nat → Nat) : List (Loc × Word) :=
  if wd then x.each64 vd fun l => BitVec.ofNat 64 (f l) else x.each32 vd fun l => BitVec.ofNat 32 (f l)

theorem Ctx.eachFmt_own (x : Ctx) (wd : Bool) (vd : BitVec 7) (f : Nat → Nat) :
    ∀ p ∈ x.eachFmt wd vd f, p.1.shared = true ∨ x.b.keep = true ∨ p.1 = .nowhere := by
  cases wd
  · exact Ctx.each32_own _ _ _
  · exact Ctx.each64_own _ _ _

theorem Ctx.eachFmt_distinct (x : Ctx) (wd : Bool) (vd : BitVec 7) (f : Nat → Nat) (h : wd = true → evenReg vd = true) :
    Distinct (x.eachFmt wd vd f) := by
  cases wd
  · exact Ctx.each32_distinct _ _ _
  · exact Ctx.each64_distinct _ _ _ (toNat_even (h rfl))

/-- A well-formed format instruction that gives a pair names an even register (R52). -/
theorem formatOp_even {i : Instr} {m : FmtForm} (h : formatOp i = some m) (hi : i.wf = true) (hd : m.wd = true) :
    evenReg m.o.vd = true := by
  unfold formatOp at h
  split at h <;> simp only [Option.some.injEq, reduceCtorEq] at h <;> subst h <;> dsimp only at hd ⊢ <;>
    simp only [Instr.wf, Bool.and_eq_true, Bool.or_eq_true, Bool.not_eq_true', hd, reduceCtorEq, false_or] at hi
  case h_1 => exact hi.2
  case h_3 => exact hi.2
  case h_5 s _ _ _ _ =>
    have hq : s ≠ .q16n := by rintro rfl; cases hd
    simp only [beq_eq_false_iff_ne.2 hq, Bool.false_eq_true, if_false, Bool.and_eq_true, Bool.or_eq_true, Bool.not_eq_true', reduceCtorEq, false_or] at hi
    exact hi.2.2
  all_goals cases hd

theorem exec_formatOp {i : Instr} {m : FmtForm} (s : State) (h : formatOp i = some m) :
    exec i s = fmtOp i m.o m.wa m.wd m.last m.vc m.slow m.f s := by
  unfold formatOp at h
  split at h <;> simp only [Option.some.injEq, reduceCtorEq] at h <;> subst h <;> rfl

/-! ## Integer to integer (R139) -/

theorem sext_toInt (n x : Nat) (hn : 0 < n) (hx : x < 2 ^ n) : sext n x = (BitVec.ofNat n x).toInt := by
  have hhalf := two_mul_half hn
  have hcast : (2 : Int) ^ n = (2 ^ n : Nat) := by norm_cast
  rw [sext, BitVec.toInt_eq_toNat_cond, BitVec.toNat_ofNat, Nat.mod_eq_of_lt hx, hcast]
  generalize 2 ^ n = whole at *
  split_ifs <;> omega

/-- An integer source is read as the value of its format. -/
theorem intVal_eq {f : Fmt} (hf : f ∈ [Fmt.i32, .b32, .i64]) {x : Nat} (hx : x < (if f = .i64 then 2 ^ 64 else 2 ^ 32)) :
    intVal f x = intValue f x := by
  simp only [List.mem_cons, List.not_mem_nil, or_false] at hf
  obtain rfl | rfl | rfl := hf
  · exact sext_toInt 32 x (by decide) hx
  · replace hx : x < 2 ^ 32 := hx
    change intVal .b32 x = ((BitVec.ofNat 32 x).toNat : Int)
    rw [BitVec.toNat_ofNat, Nat.mod_eq_of_lt hx]
    exact Int.emod_eq_of_lt (Int.natCast_nonneg x) (Int.ofNat_lt.2 hx)
  · exact sext_toInt 64 x (by decide) hx

/-- The range and the low bits of an integer destination. -/
theorem intRange_eq {f : Fmt} (hf : f ∈ [Fmt.i32, .b32, .i64]) : intRange f = (intLow f, intHigh f) := by
  simp only [List.mem_cons, List.not_mem_nil, or_false] at hf
  obtain rfl | rfl | rfl := hf <;> rfl

theorem floatFmt_int {f : Fmt} (hf : f ∈ [Fmt.i32, .b32, .i64]) : floatFmt f = false := by
  simp only [List.mem_cons, List.not_mem_nil, or_false] at hf
  obtain rfl | rfl | rfl := hf <;> rfl

theorem lowBits_intWidth (f : Fmt) (y : Int) : lowBits (intWidth f) y = (y % (if f = .i64 then 2 ^ 64 else 2 ^ 32)).toNat := by
  cases f <;> rfl

/-- An integer converted to an integer: its low bits, or with `sat` those of the nearest value of the range. -/
theorem cvtVal_int {src dst : Fmt} (hs : src ∈ [Fmt.i32, .b32, .i64]) (hd : dst ∈ [Fmt.i32, .b32, .i64]) (rm : Rnd) (sat ftz : Bool)
    {x : Nat} (hx : x < (if src = .i64 then 2 ^ 64 else 2 ^ 32)) : cvtVal src dst rm sat ftz x =
      if sat then (lowBits (intWidth dst) (clampInt (intLow dst) (intHigh dst) (intValue src x)),
        flIf (decide (intValue src x < intLow dst) || decide (intHigh dst < intValue src x)) flNV)
      else (lowBits (intWidth dst) (intValue src x), flNone) := by
  rw [cvtVal, floatFmt_int hs, floatFmt_int hd, intVal_eq hs hx, intRange_eq hd]
  rfl

/-- Settles O18: the forms of R135 to R145, and the integer conversions by `cvtVal_int`. -/
theorem formatOps : Obligations.FormatOps := by
  refine ⟨fun s u i m q x r hop hq hx h hr => ?_, fun src dst sat ftz x hs hd _ hx => ?_⟩
  · subst hq hx hr
    rw [exec_formatOp s hop]
    exact issue_givesTyped h m.slow _ _ _ rfl
      (fun _ => Ctx.eachFmt_distinct _ m.wd m.o.vd _ (formatOp_even hop (State.wf_of_issues h))) (Ctx.eachFmt_own _ m.wd _ _)
  · dsimp only
    rw [cvtVal_int hs hd _ sat ftz hx, lowBits_intWidth, lowBits_intWidth]
    generalize intValue src x = y
    have hle : intLow dst ≤ intHigh dst := by cases dst <;> decide
    cases sat with
    | false => exact ⟨fun _ => rfl, fun h => absurd (.inl rfl) h⟩
    | true =>
      simp only [reduceCtorEq, false_or, if_true, clampInt, flIf]
      refine ⟨fun hin => ?_, fun hout => ?_⟩
      · rw [if_neg (by omega), if_neg (by omega)]
        simp [not_lt.2 hin.1, not_lt.2 hin.2]
      · by_cases hlow : y < intLow dst
        · simp [hlow]
        · have hhigh : intHigh dst < y := by omega
          simp [hlow, hhigh]

end Sys2Proof.Machine
end

section
/-! PROOFS. Control instructions: branches, the loop nest (R80, R166, R167), issue, traps and their order (R57 to R65, R90, R92). -/

namespace Sys2Proof.Machine

/-! ## Branches and the loop nest -/

/-- A taken branch stands the running lanes at its target, out of their clause. -/
theorem changes_jump {s : State} {u : Cursor} {i : Instr} {q : Shape} (h : s.issues u i q = true) (lanes : Word) (to_ : BitVec 64) :
    s.Changes u i q (Band.standAt lanes to_) Entry.outside ((s.passed u i q).jump (s.seen u i q) lanes to_) := by
  rw [State.jump_eq]
  exact changes_both h _ _

/-- Settles O19: `changes_jump` where the branch is taken. -/
theorem branches : Obligations.Branches := by
  intro s u d off q x to_
  refine ⟨?bra, ?brz, ?brnz, ?lnext⟩
  case bra =>
    intro i hi hq hx h hto
    subst hi hq hx hto
    exact ⟨_, issue_ok h _ rfl, changes_jump h _ _⟩
  case brz =>
    intro i sn hi hq hx h hto
    subst hi hq hx hto
    refine ⟨_, issue_ok h _ rfl, ?_⟩
    by_cases hz : (s.seen u (.brz d sn off) (shapeS d [.s sn.toNat])).s sn = 0
    · simp only [hz, beq_self_eq_true, if_true]
      exact changes_jump h _ _
    · simp only [beq_eq_false_iff_ne.2 hz, hz, if_false, beq_iff_eq, Bool.false_eq_true]
      exact changes_none s u _ _
  case brnz =>
    intro i sn hi hq hx h hto
    subst hi hq hx hto
    refine ⟨_, issue_ok h _ rfl, ?_⟩
    by_cases hz : (s.seen u (.brnz d sn off) (shapeS d [.s sn.toNat])).s sn = 0
    · simp only [hz, beq_self_eq_true, if_true, beq_iff_eq, Bool.true_eq_false, if_false]
      exact changes_none s u _ _
    · simp only [beq_eq_false_iff_ne.2 hz, hz, beq_self_eq_true, if_true, if_false]
      exact changes_jump h _ _
  case lnext =>
    intro i l hi hq hx h hto
    subst hi hq hx hto
    set x := s.seen u (.lnext d l off) (shapeS d []) with hx
    by_cases hmore : (mapGetD x.b.li l.toNat 0).toNat + 1 < (mapGetD x.b.lc l.toNat 0).toNat
    · refine ⟨_, issue_ok h _ (if_pos hmore), ?_⟩
      rw [if_pos hmore, hx, State.seen_core, State.seen_slot, State.seen_e, State.goTo_eq, State.updBand_updBand]
      exact changes_both h _ _
    · refine ⟨_, issue_ok h _ (if_neg hmore), ?_⟩
      rw [if_neg hmore, State.seen_core, State.seen_slot]
      exact changes_band h _

/-- Settles O21: a band's loop indices, bounds and coefficients. -/
theorem loopNest : Obligations.LoopNest := by
  intro s u i q x hx h
  subst hx
  refine ⟨?lset, ?lget, ?kset⟩
  case lset =>
    intro d n sn hi hq
    subst hi hq
    refine ⟨_, issue_ok h _ rfl, ?_⟩
    rw [State.seen_core, State.seen_slot]
    exact changes_band h _
  case lget =>
    intro d sn n hi hq
    subst hi hq
    exact issue_toS h sn fun x => mapGetD x.b.li n.toNat 0
  case kset =>
    intro d k sb sc hi hq
    subst hi hq
    refine ⟨_, issue_ok h _ rfl, ?_⟩
    rw [State.seen_core, State.seen_slot]
    exact changes_band h _

/-! ## Issue and traps -/

/-- Settles O22. -/
theorem issueFrame : Obligations.IssueFrame :=
  fun s u i q h => ⟨s.slot_begun u i q h, s.slot_passed u i q h⟩

/-- Settles O23. -/
theorem trapEntry : Obligations.TrapEntry :=
  fun s c slot cause code trap kpc klanes kaddr hp => s.traps c slot cause code trap kpc klanes kaddr hp

/-- Every encoded instruction but a header is issued: the checks come before its meaning. Those for keep mode only say so in their
shape. The other steps are events, which no word encodes. -/
theorem exec_issue {i : Instr} (h : i.isCode = true) (hc : ∀ w a b p n c, i ≠ .clause w a b p n c) (s : State) :
    ∃ q f, exec i s = issue i q f s ∧ (i.keepOnly = true → q.priv = true) := by
  cases i
  case clause => exact absurd rfl (hc _ _ _ _ _ _)
  case exitSucc | kret | svc | rsc | halt | rsys | wsys => exact ⟨_, _, rfl, id⟩
  all_goals first
    | exact ⟨_, _, rfl, nofun⟩
    | exact absurd h Bool.false_ne_true

/-- A failed check is a trap at the instruction. -/
theorem check_traps {s : State} {u : Cursor} {i : Instr} {q : Shape} (f : Ctx → State → Res) (h : s.stands u = true)
    (hb : s.breaks u = false) {cause : Nat} (hc : Sys2Proof.Machine.check i q (s.seen u i q) = some cause) :
    ∃ t, issue i q f s = .next t ∧ (s.begun u i q).Traps u.core u.slot cause 0
      (((s.core u.core).band u.slot).thread ((lowestLane ((s.core u.core).entry u.entry).lanes).getD 0)).pc
      ((s.core u.core).entry u.entry).lanes 0 t := by
  refine ⟨_, issue_of_check f h hb hc, ?_⟩
  rw [State.seen_pc s u i q h, State.seen_lanes s u i q h]
  exact State.traps _ _ _ _ _ _ _ _ _ (State.placed_begun s u i q h)

theorem check_illFormed {i : Instr} (q : Shape) (x : Ctx) (h : i.wf = false) : Sys2Proof.Machine.check i q x = some 0x01 := by
  rw [Sys2Proof.Machine.check, h]; rfl

theorem check_privileged {i : Instr} {q : Shape} {x : Ctx} (h : i.wf = true) (hq : q.priv = true) (hx : x.keep = false) :
    Sys2Proof.Machine.check i q x = some 0x09 := by
  rw [Sys2Proof.Machine.check, h, hq, hx]; rfl

theorem State.placed_updTask (s : State) (c n : Nat) (f : Task → Task) (b d : Nat) :
    (mapGet ((s.updTask c n f).core d).bands b).isSome = (mapGet (s.core d).bands b).isSome :=
  State.placed_updCore s c (·.updTask n f) b (fun _ => rfl) d

/-- A breakpoint stops the task, marks the sub-band and traps. -/
theorem breakHere_traps {s : State} {u : Cursor} (h : s.stands u = true) :
    ((s.updTask u.core ((s.core u.core).band u.slot).task fun t => { t with stopped := true }).updEntry u.core u.entry
      fun e => { e with skipBp := true }).Traps u.core u.slot 0x0A 0
      (((s.core u.core).band u.slot).thread ((lowestLane ((s.core u.core).entry u.entry).lanes).getD 0)).pc
      ((s.core u.core).entry u.entry).lanes 0 (s.breakHere u) := by
  refine State.traps _ _ _ _ _ _ _ _ _ ?_
  rw [State.placed_updEntry, State.placed_updTask]
  exact (State.stands_parts h).2.1

/-- Settles O24: breakpoints come first, then the checks of `exec_issue`. -/
theorem checksComeFirst : Obligations.ChecksComeFirst := by
  intro s u i hi hc h
  obtain ⟨q, f, hexec, hpriv⟩ := exec_issue hi hc s
  rw [hexec]
  refine ⟨fun hb => ⟨_, issue_breaks f h hb, breakHere_traps h⟩, fun hb => ⟨q, fun hwf => ?illFormed, fun hwf hk hkeep => ?keepOnly,
    fun cause hcause => ?check⟩⟩
  case illFormed => exact check_traps f h hb (check_illFormed q _ hwf)
  case keepOnly => exact check_traps f h hb (check_privileged hwf (hpriv hk) ((s.seen_keep u i q h).trans hkeep))
  case check => exact check_traps f h hb hcause

/-- A trap that its instruction calls for, past its words. -/
theorem issue_trapAt {s : State} {u : Cursor} {i : Instr} {q : Shape} (h : s.issues u i q = true) (f : Ctx → State → Res)
    {cause code : Nat} {kpc : BitVec 64} (hf : f (s.seen u i q) (s.passed u i q) = .trapAt (s.passed u i q) cause code kpc) :
    ∃ t, issue i q f s = .next t ∧ (s.passed u i q).Traps u.core u.slot cause code kpc (s.seen u i q).lanes 0 t := by
  refine ⟨_, issue_of_issues h _, ?_⟩
  rw [hf]
  exact State.traps _ _ _ _ _ _ _ _ _ (State.placed_of_issues h)

/-- Settles O25. -/
theorem trapInstructions : Obligations.TrapInstructions := by
  intro s u i q x hx h
  subst hx
  refine ⟨?brk, ?trap, ?illegal⟩
  case brk =>
    intro d code hi hq
    subst hi hq
    exact issue_trapAt h _ rfl
  case trap =>
    intro d code hi hq
    subst hi hq
    exact issue_trapAt h _ rfl
  case illegal =>
    intro w hi hq
    subst hi hq
    exact issue_trap h _ rfl

end Sys2Proof.Machine
end

section
/-! PROOFS. Calls (R77, R81, R82): the traps before any effect, and where the lanes go. -/

namespace Sys2Proof.Machine

/-- The lane that a test of the depth finds beyond the bound. -/
theorem any_deeper {x : Ctx} {g : Word} :
    ((lanesOf g).any fun l => decide (x.task.maxDepth < (x.b.thread l).depth + 1)) = true ↔
      ∃ l ∈ lanesOf g, 8 + x.task.tlm / 8 < (x.b.thread l).depth + 1 := by
  simp only [List.any_eq_true, decide_eq_true_eq]
  rfl

theorem any_deeper_false {x : Ctx} {g : Word} (h : ∀ l ∈ lanesOf g, (x.b.thread l).depth + 1 ≤ 8 + x.task.tlm / 8) :
    ((lanesOf g).any fun l => decide (x.task.maxDepth < (x.b.thread l).depth + 1)) = false :=
  Bool.eq_false_iff.2 fun hany => by
    obtain ⟨l, hl, hd⟩ := any_deeper.1 hany
    exact absurd (h l hl) (Nat.not_le.2 hd)

/-- A lane that pushes an entry at the depth that its instruction saw. -/
theorem pushOne_pushed (s : State) (u : Cursor) (i : Instr) (q : Shape) (h : s.stands u = true) (entry to_ : BitVec 64) (l : Nat) :
    { pushOne (s.seen u i q) entry l ((((s.passed u i q).core u.core).band u.slot).thread l) with pc := to_, base := to_ } =
      ((((s.passed u i q).core u.core).band u.slot).thread l).pushed entry to_ := by
  rw [pushOne, Thread.pushed, (s.seen_stack u i q h l).1]
  rfl

/-! ## `call` and `calli` -/

theorem callTo_misaligned {i : Instr} {d : BitVec 2} {srcs : List Src} {target : Ctx → BitVec 64} {s : State} {u : Cursor}
    (h : s.issues u i (shapeS d srcs) = true) (ht : (target (s.seen u i (shapeS d srcs))).toNat % 4 ≠ 0) :
    ∃ t, callTo i d srcs target s = .next t ∧ (s.begun u i (shapeS d srcs)).Traps u.core u.slot 0x05 0
      (s.seen u i (shapeS d srcs)).pc (s.seen u i (shapeS d srcs)).lanes (target (s.seen u i (shapeS d srcs))) t :=
  issue_trap h _ (if_pos (bne_iff_ne.2 ht))

theorem callTo_tooDeep {i : Instr} {d : BitVec 2} {srcs : List Src} {target : Ctx → BitVec 64} {s : State} {u : Cursor}
    (h : s.issues u i (shapeS d srcs) = true) (ht : (target (s.seen u i (shapeS d srcs))).toNat % 4 = 0)
    (hd : ∃ l ∈ lanesOf (s.seen u i (shapeS d srcs)).lanes,
      8 + (s.seen u i (shapeS d srcs)).task.tlm / 8 < ((s.seen u i (shapeS d srcs)).b.thread l).depth + 1) :
    ∃ t, callTo i d srcs target s = .next t ∧ (s.begun u i (shapeS d srcs)).Traps u.core u.slot 0x03 0
      (s.seen u i (shapeS d srcs)).pc (s.seen u i (shapeS d srcs)).lanes 0 t :=
  issue_trap h _ (by dsimp only; rw [if_neg (by simp [ht]), if_pos (any_deeper.2 hd)])

/-- A call that goes ahead pushes its return address and stands its lanes at its target. -/
theorem callTo_redirects {i : Instr} {d : BitVec 2} {srcs : List Src} {target : Ctx → BitVec 64} {s : State} {u : Cursor} {q : Shape}
    (hq : q = shapeS d srcs) (h : s.issues u i q = true) (ht : (target (s.seen u i q)).toNat % 4 = 0)
    (hd : ∀ l ∈ lanesOf (s.seen u i q).lanes, ((s.seen u i q).b.thread l).depth + 1 ≤ 8 + (s.seen u i q).task.tlm / 8)
    (hs : (s.passed u i q).spillFault (s.seen u i q) ((s.seen u i q).pushSpills (s.seen u i q).lanes) accStore = none) :
    ∃ t, callTo i d srcs target s = .next t ∧
      s.Redirects u i q ((s.passed u i q).spilled (s.seen u i q) (s.seen u i q).lanes (stackWord ((s.seen u i q).pc + 4) false))
        (fun l y => if l ∈ lanesOf (s.seen u i q).lanes then
          y.pushed (stackWord ((s.seen u i q).pc + 4) false) (target (s.seen u i q)) else y) Entry.outside t := by
  subst hq
  refine ⟨_, issue_ok h _ (by dsimp only; rw [if_neg (by simp [ht]), any_deeper_false hd, if_neg Bool.false_ne_true, hs]), ?_⟩
  rw [State.jump_eq, ← State.seen_core s u i (shapeS d srcs), ← State.seen_slot s u i (shapeS d srcs), State.push_updBand,
    State.seen_core, State.seen_slot]
  refine redirects_of h (SameButStores.spilled _ _ _ _) _ (fun b => ?only) _ (fun l => ?_) _
  case only => rfl
  rw [Band.standAt, Band.thread_updThreads, Band.thread_updThreads]
  by_cases hl : l ∈ lanesOf (s.seen u i (shapeS d srcs)).lanes
  · simp only [hl, if_true]
    exact pushOne_pushed s u i _ (State.stands_of_issues h) _ _ l
  · simp only [hl, if_false]

/-! ## `callv` -/

/-- The first group of lanes by a key is that of the lowest lane. -/
theorem groupsBy_head (key : Nat → BitVec 64) {ls : List Nat} {a : Nat} (ha : ls.head? = some a) :
    ((groupsBy key ls).headD (0, 0)).2 = maskOf (ls.filter fun l => key l = key a) ∧ groupsBy key ls ≠ [] := by
  cases ls with
  | nil => cases ha
  | cons b ls =>
    cases ha
    obtain ⟨r, hr⟩ := keysOf_head key a ls
    rw [groupsBy_eq, hr]
    exact ⟨rfl, List.cons_ne_nil _ _⟩

/-- What a `callv` does to its band: entries pushed, the lanes that do not call held, and each group at its address. -/
def Band.callsv (x : Ctx) (v : BitVec 7) (entry : BitVec 64) (b : Band) : Band :=
  (groupsBy (fun l => x.v64 l v) (lanesOf x.active)).foldl (fun b g => Band.standAt g.2 g.1 b)
    ((b.updThreads x.active (pushOne x entry)).updThreads (x.lanes &&& ~~~x.active) fun _ y =>
      { y with hold := .vcall, pc := x.pc + 4, base := x.pc + 4 })

theorem Band.callsv_rest (x : Ctx) (v : BitVec 7) (entry : BitVec 64) (b : Band) :
    { b.callsv x v entry with threads := [] } = { b with threads := [] } :=
  (groups_band _ _ (fun _ => lanesOf_lt) _).1

theorem Band.callsv_thread (x : Ctx) (v : BitVec 7) (entry : BitVec 64) (b : Band) (l : Nat) :
    (b.callsv x v entry).thread l = if l ∈ lanesOf x.active then
      { pushOne x entry l (b.thread l) with pc := x.v64 l v, base := x.v64 l v }
      else if l ∈ lanesOf x.lanes then { b.thread l with hold := .vcall, pc := x.pc + 4, base := x.pc + 4 } else b.thread l := by
  rw [Band.callsv, (groups_band _ _ (fun _ => lanesOf_lt) _).2, Band.thread_updThreads, Band.thread_updThreads]
  by_cases ha : l ∈ lanesOf x.active <;> by_cases hl : l ∈ lanesOf x.lanes <;> simp [ha, hl, mem_lanesOf_diff]

/-- The states that a `callv` goes through, as one change of its band and its entry after the stores. -/
theorem callv_state (s : State) (x : Ctx) (v : BitVec 7) (entry : BitVec 64) (g : Entry → Entry)
    (hg : groupsBy (fun l => x.v64 l v) (lanesOf x.active) ≠ []) :
    ((groupsBy (fun l => x.v64 l v) (lanesOf x.active)).foldl (fun (t : State) g => t.goTo x.core x.slot g.2 g.1)
      ((s.push x x.active entry).updThreads x.core x.slot (x.lanes &&& ~~~x.active) fun _ y =>
        { y with hold := .vcall, pc := x.pc + 4, base := x.pc + 4 })).updEntry x.core x.e g =
    ((s.spilled x x.active entry).updBand x.core x.slot (Band.callsv x v entry)).updEntry x.core x.e g := by
  simp only [State.goTo_eq]
  rw [State.foldl_updBand, if_neg hg, State.updThreads, State.updBand_updBand, State.push_updBand]
  rfl

/-- The entry of a `callv`: its first group runs, the others are deferred. -/
def Entry.calls (x : Ctx) (first : Word) (e : Entry) : Entry :=
  { e with lanes := first, defer := e.defer ||| (x.active &&& ~~~first), ctx := none }

theorem active_isEmpty {m : Word} : (lanesOf m).isEmpty = true ↔ m = 0 := by
  rw [List.isEmpty_iff]
  refine ⟨fun h => word_ext fun l => ?_, fun h => by rw [h]; rfl⟩
  rw [h]
  exact ⟨fun h => absurd h List.not_mem_nil, fun h => absurd (mem_lanesOf.1 h) (by simp)⟩

/-- Settles O26: `callTo` for `call` and `calli`; for `callv` its cases in their order. -/
theorem calls : Obligations.Calls := by
  refine ⟨?callTo, ?callv⟩
  case callTo =>
    intro s u i q x target hi hx h
    obtain ⟨d, srcs, f, hexec, hq, ht⟩ : ∃ d srcs f, exec i s = callTo i d srcs f s ∧ q = shapeS d srcs ∧ target = f x := by
      rcases hi with ⟨d, off, rfl, hq, ht⟩ | ⟨d, sn, rfl, hq, ht⟩
      · exact ⟨d, _, _, rfl, hq, ht⟩
      · exact ⟨d, _, _, rfl, hq, ht⟩
    subst hx ht
    rw [hexec]
    refine ⟨fun ha => ?_, fun ha hd => ?_, fun ha hd hs => ?_⟩
    · subst hq; exact callTo_misaligned h ha
    · subst hq; exact callTo_tooDeep h ha hd
    · obtain ⟨t, hnext, ht⟩ := callTo_redirects hq h ha hd hs
      exact ⟨t, _, hnext, rfl, ht⟩
  case callv =>
    intro s u d v i q x hi hq hx h
    subst hi hq hx
    set i : Instr := .callv d v with hi
    set q : Shape := { uni := true, d := d, vs := [v.toNat], srcs := src64 v } with hq
    set x := s.seen u i q with hx
    have some_lane : ∀ {a : Nat}, a ∈ lanesOf x.active → (lanesOf x.active).isEmpty = false := fun {a} ha =>
      Bool.eq_false_iff.2 fun he => by rw [List.isEmpty_iff.1 he] at ha; exact absurd ha List.not_mem_nil
    have aligned : (∀ l ∈ lanesOf x.active, (x.v64 l v).toNat % 4 = 0) →
        (lanesOf x.active).find? (fun l => (x.v64 l v).toNat % 4 != 0) = none := fun ha =>
      List.find?_eq_none.2 fun l hl => by simp [ha l hl]
    refine ⟨fun ha => ?none, fun b hb => ?misaligned, fun ha hd => ?deep, fun a hhead ha hd hs => ?calls⟩
    case none =>
      refine ⟨_, issue_ok h _ (if_pos (active_isEmpty.2 ha)), changes_jump h _ _⟩
    case misaligned =>
      have hfind : (lanesOf x.active).find? (fun l => (x.v64 l v).toNat % 4 != 0) = some b := by rw [← hb]; congr 1; funext l; rw [decide_not]; rfl
      refine issue_trap h _ ?_
      dsimp only
      rw [if_neg (by rw [some_lane (List.mem_of_find?_eq_some hb)]; exact Bool.false_ne_true), hfind]
    case deep =>
      obtain ⟨l, hl, -⟩ := id hd
      refine issue_trap h _ ?_
      dsimp only
      rw [if_neg (by rw [some_lane hl]; exact Bool.false_ne_true), aligned ha]
      exact if_pos (any_deeper.2 hd)
    case calls =>
      have hmem : a ∈ lanesOf x.active := List.mem_of_mem_head? hhead
      obtain ⟨hfirst, hne⟩ := groupsBy_head (fun l => x.v64 l v) hhead
      have hnext : exec i s = .next ((((s.passed u i q).spilled x x.active (stackWord (x.pc + 4) true)).updBand x.core x.slot
          (Band.callsv x v (stackWord (x.pc + 4) true))).updEntry x.core x.e (Entry.calls x (maskOf ((lanesOf x.active).filter
            fun l => x.v64 l v = x.v64 a v)))) := by
        refine issue_ok h _ ?_
        dsimp only
        rw [if_neg (by rw [some_lane hmem]; exact Bool.false_ne_true), aligned ha]
        dsimp only
        rw [any_deeper_false hd, if_neg Bool.false_ne_true, hs]
        dsimp only
        rw [callv_state _ _ _ _ _ hne, hfirst]
        rfl
      refine ⟨_, _, _, hnext, rfl, rfl, ?_⟩
      rw [State.seen_core, State.seen_slot, State.seen_e]
      refine redirects_of h (SameButStores.spilled _ _ _ _) _ (fun b => Band.callsv_rest _ _ _ b) _ (fun l => ?_) _
      rw [Band.callsv_thread, pushOne_pushed s u i q (State.stands_of_issues h)]
      rfl

end Sys2Proof.Machine
end

section
/-! PROOFS. Divergence: which deferred lanes resume (R76), `split` (R84). -/

namespace Sys2Proof.Machine

/-! ## The group that resumes -/

/-- The first of the greatest by a measure, as `Core.resumeGroup` finds it. -/
def firstDeepest (d : Nat → Nat) (ls : List Nat) : Option Nat :=
  ls.foldl (fun (a : Option Nat) l => match a with
    | none => some l
    | some m => if d m < d l then some l else some m) none

theorem foldl_deepest (d : Nat → Nat) (ls : List Nat) : ∀ m, (m :: ls).Pairwise (· < ·) →
    ∃ a ∈ m :: ls, ls.foldl (fun (a : Option Nat) l => match a with
      | none => some l
      | some m => if d m < d l then some l else some m) (some m) = some a ∧ ∀ l ∈ m :: ls, d l ≤ d a ∧ (d l = d a → a ≤ l) := by
  induction ls with
  | nil => intro m _; exact ⟨m, by simp, rfl, by simp⟩
  | cons x xs ih =>
    intro m hm
    obtain ⟨hmx, hx⟩ := List.pairwise_cons.1 hm
    have hlt : m < x := hmx x (by simp)
    by_cases hd : d m < d x
    · obtain ⟨a, ha, hfold, hmax⟩ := ih x hx
      refine ⟨a, List.mem_cons_of_mem _ ha, by rw [List.foldl_cons]; simpa [hd] using hfold, fun l hl => ?_⟩
      have hax := (hmax x (by simp)).1
      rcases List.mem_cons.1 hl with rfl | hl
      · exact ⟨by omega, by omega⟩
      · exact hmax l hl
    · have hm' : (m :: xs).Pairwise (· < ·) :=
        List.pairwise_cons.2 ⟨fun y hy => hmx y (List.mem_cons_of_mem _ hy), (List.pairwise_cons.1 hx).2⟩
      obtain ⟨a, ha, hfold, hmax⟩ := ih m hm'
      have ham := hmax m (by simp)
      refine ⟨a, ?_, by rw [List.foldl_cons]; simpa [hd] using hfold, fun l hl => ?_⟩
      · rcases List.mem_cons.1 ha with rfl | ha
        · simp
        · simp [ha]
      · rcases List.mem_cons.1 hl with rfl | hl
        · exact ham
        · rcases List.mem_cons.1 hl with rfl | hl
          · exact ⟨by omega, fun he => by have := ham.2 (by omega); omega⟩
          · exact hmax l (List.mem_cons_of_mem _ hl)

theorem lanesOf_sorted (m : Word) : (lanesOf m).Pairwise (· < ·) := List.Pairwise.filter _ List.pairwise_lt_range

theorem resumeGroup_eq (k : Core) (e : Entry) : k.resumeGroup e =
    match firstDeepest (fun l => ((k.band e.slot).thread l).depth) (lanesOf (k.resumable e)) with
    | none => 0
    | some m => maskOf ((lanesOf (k.resumable e)).filter fun l => ((k.band e.slot).thread l).pc = ((k.band e.slot).thread m).pc &&
        ((k.band e.slot).thread l).depth = ((k.band e.slot).thread m).depth) := rfl

theorem firstDeepest_spec (d : Nat → Nat) {ls : List Nat} (hs : ls.Pairwise (· < ·)) (hne : ls ≠ []) :
    ∃ a ∈ ls, firstDeepest d ls = some a ∧ ∀ l ∈ ls, d l ≤ d a ∧ (d l = d a → a ≤ l) := by
  cases ls with
  | nil => exact absurd rfl hne
  | cons m ls => exact foldl_deepest d ls m hs

/-- The lanes of a mask that meet a test. -/
theorem mem_lanesOf_filter {m : Word} {p : Nat → Bool} {l : Nat} :
    l ∈ lanesOf (maskOf ((lanesOf m).filter p)) ↔ l ∈ lanesOf m ∧ p l = true := by
  rw [mem_lanesOf_maskOf fun l hl => lanesOf_lt (List.mem_of_mem_filter hl), List.mem_filter]

theorem lanesOf_ne_nil {m : Word} : lanesOf m ≠ [] ↔ m ≠ 0 := (not_congr List.isEmpty_iff.symm).trans (not_congr active_isEmpty)

/-- Which deferred lanes may resume: those without a mark, or, when there are none, those that yielded. -/
theorem mem_resumable (k : Core) (e : Entry) (l : Nat) : l ∈ lanesOf (k.resumable e) ↔ l ∈ lanesOf e.defer ∧
    (((k.band e.slot).thread l).mark = .none ∨ ((k.band e.slot).thread l).mark = .yielded ∧
      ∀ l' ∈ lanesOf e.defer, ((k.band e.slot).thread l').mark ≠ .none) := by
  unfold Core.resumable
  dsimp only
  by_cases hfree : maskOf ((lanesOf e.defer).filter fun l => decide (((k.band e.slot).thread l).mark = .none)) = 0
  · have hnone : ∀ l' ∈ lanesOf e.defer, ((k.band e.slot).thread l').mark ≠ .none := by
      intro l' hl' hm
      rw [maskOf_zero fun l hl => lanesOf_lt (List.mem_of_mem_filter hl), List.filter_eq_nil_iff] at hfree
      exact hfree l' hl' (decide_eq_true hm)
    rw [if_neg (by simp [hfree]), mem_lanesOf_filter, decide_eq_true_eq]
    constructor
    · rintro ⟨hl, hy⟩; exact ⟨hl, .inr ⟨hy, hnone⟩⟩
    · rintro ⟨hl, hn | ⟨hy, -⟩⟩
      · exact absurd hn (hnone l hl)
      · exact ⟨hl, hy⟩
  · obtain ⟨l', hl'⟩ := List.exists_mem_of_ne_nil _ (lanesOf_ne_nil.2 hfree)
    rw [mem_lanesOf_filter, decide_eq_true_eq] at hl'
    rw [if_pos (bne_iff_ne.2 hfree), mem_lanesOf_filter, decide_eq_true_eq]
    constructor
    · rintro ⟨hl, hn⟩; exact ⟨hl, .inl hn⟩
    · rintro ⟨hl, hn | ⟨-, hall⟩⟩
      · exact ⟨hl, hn⟩
      · exact absurd hl'.2 (hall l' hl'.1)

/-- Settles O27: the fold of `Core.resumeGroup` finds the lowest lane of the greatest depth. -/
theorem resumeGroup : Obligations.ResumeGroup := by
  intro k e b ok g hb hok hg
  subst hb hok hg
  refine ⟨mem_resumable k e, fun hnil => ?_, fun hne => ?_⟩
  · rw [resumeGroup_eq, hnil]; exact List.isEmpty_iff.1 (active_isEmpty.2 rfl)
  · obtain ⟨a, ha, hfirst, hmax⟩ := firstDeepest_spec (fun l => ((k.band e.slot).thread l).depth) (lanesOf_sorted _) hne
    refine ⟨a, ha, hmax, fun l => ?_⟩
    rw [resumeGroup_eq, hfirst]
    dsimp only
    rw [mem_lanesOf_filter, Bool.and_eq_true, decide_eq_true_eq, decide_eq_true_eq]

/-! ## A group that leaves a running sub-band -/

theorem firstFrom_holds {f : Nat → Bool} : ∀ {n lo i : Nat}, firstFrom f n lo = some i → f i = true
  | 0, _, _, h => by cases h
  | n + 1, lo, i, h => by
    rw [firstFrom] at h
    split at h
    · next hlo => cases h; exact hlo
    · exact firstFrom_holds h

/-- A free entry is not in the table. -/
theorem freeEntry_get {k : Core} {n : Nat} (h : k.freeEntry = some n) : mapGet k.table n = none :=
  Option.isNone_iff_eq_none.1 (firstFrom_holds h)

theorem freeEntry_congr {k k' : Core} (h : ∀ e, (mapGet k'.table e).isSome = (mapGet k.table e).isSome) : k'.freeEntry = k.freeEntry := by
  rw [Core.freeEntry, Core.freeEntry, firstFree, firstFree]
  congr 1
  funext e
  rw [← Option.not_isSome, ← Option.not_isSome, h]

theorem takeEntry_beside_free {w : State} {c slot e n : Nat} {g : Word} {f : Entry} (hf : mapGet (w.core c).table e = some f)
    (hl : f.lanes ≠ 0) (hg : g ≠ 0) (hn : (w.core c).freeEntry = some n) :
    (((w.takeEntry c slot e g .ready .none).1.core c).entry e = f ∧
      ((w.takeEntry c slot e g .ready .none).1.core c).entry n = { Entry.fresh with slot := slot, lanes := g, frozen := f.frozen }) ∧
    ((w.takeEntry c slot e g .ready .none).1.core c).band slot = (w.core c).band slot := by
  have hne : e ≠ n := by
    rintro rfl
    have hfree := freeEntry_get hn
    rw [hf] at hfree
    cases hfree
  rw [State.takeEntry_free hf hl hg hn, State.core_updCore_self]
  refine ⟨⟨?_, ?_⟩, rfl⟩
  · rw [Core.entry, mapGetD, mapGet_mapSet, if_neg hne, hf]; rfl
  · rw [Core.entry, mapGetD, mapGet_mapSet, if_pos rfl]; rfl

theorem takeEntry_beside_full {w : State} {c slot e : Nat} {g : Word} {f : Entry} (hf : mapGet (w.core c).table e = some f)
    (hl : f.lanes ≠ 0) (hg : g ≠ 0) (hw : f.wait = .ready) (hn : (w.core c).freeEntry = none)
    (hp : (mapGet (w.core c).bands slot).isSome = true) :
    ((w.takeEntry c slot e g .ready .none).1.core c).entry e = { f with defer := f.defer ||| g } ∧
    ((w.takeEntry c slot e g .ready .none).1.core c).band slot =
      ((w.core c).band slot).updThreads g fun _ y => { y with mark := .none } := by
  rw [State.takeEntry_defer hf hl hg (by rw [hw]; rfl) hn]
  refine ⟨?_, ?_⟩
  · rw [State.entry_updEntry_self _ _ _ _ (by rw [State.tabled_updThreads, hf]; rfl), State.updThreads, Core.entry, State.table_updBand,
      ← Core.entry, Core.entry_of hf]
  · rw [State.band_updEntry, State.updThreads, State.band_updBand_self _ _ _ _ hp]

/-! ## `split` -/

/-- The rejoin mask that a `split` records. -/
def Band.records (j : Nat) (g : Word) (b : Band) : Band := { b with j := mapSet b.j j g, arr := mapDel b.arr j }

/-- An entry with other running lanes. -/
def Entry.runs (g : Word) (e : Entry) : Entry := { e with lanes := g }

/-- The state that a `split` leaves before lanes that wait at a `jwait` pass: its lanes divided by its predicate. -/
def State.splitTo (m : State) (x : Ctx) (j : Nat) (taken : Word) (target : BitVec 64) : State :=
  let t := m.updBand x.core x.slot (Band.records j x.lanes)
  let fall := x.lanes &&& ~~~taken
  if taken = 0 then t
  else if fall = 0 then t.jump x x.lanes target
  else
    let keeps := if x.l.det && (lowestLane x.lanes).any fall.getLsbD then fall else taken
    (((t.jump x taken target).updEntry x.core x.e (Entry.runs keeps)).takeEntry x.core x.slot x.e
      (x.lanes &&& ~~~keeps) .ready .none).1

theorem execSplit_eq (d : BitVec 2) (j : BitVec 4) (p : BitVec 3) (off : BitVec 17) (s : State) :
    exec (.split d j p off) s = issue (.split d j p off) (shapeS d [.pAll p.toNat]) (fun x t => .ok ((t.splitTo x j.toNat
      (maskOf ((lanesOf x.lanes).filter fun l => x.p l p)) (offsetFrom x.pc off)).passWaits x.core x.slot none)) s := rfl

section
variable {m : State} {x : Ctx} {z : Entry} (j : Nat) {taken : Word} (target : BitVec 64)
variable (hz : mapGet (m.core x.core).table x.e = some z) (hslot : z.slot = x.slot) (hlanes : z.lanes = x.lanes)

include hz hslot in
theorem splitTo_moved : Moved m x.core x.slot (m.splitTo x j taken target) := by
  have howns : m.owns x.core x.slot x.e := fun y hy => by rw [hz] at hy; cases hy; exact hslot
  have hrec := Moved.updBand m x.core x.slot (Band.records j x.lanes) (fun _ => rfl) fun _ _ => rfl
  unfold State.splitTo
  dsimp only
  split
  · exact hrec
  · split
    · exact hrec.trans (.jump _ x _ _ (hrec.owns _ howns))
    · have hjump := hrec.trans (.jump _ x taken target (hrec.owns _ howns))
      have hkeep := fun keeps => hjump.trans (.updEntry _ x.core x.slot x.e (Entry.runs keeps) (hjump.owns _ howns) fun _ => rfl)
      exact (hkeep _).trans (.takeEntry _ x.core x.slot x.e _ _ _ ((hkeep _).owns _ howns))

end

/-- Neither group is empty when both lanes that go and lanes that fall through are some. -/
theorem split_groups {lanes taken keeps : Word} {b : Bool} (ht : taken ≠ 0) (hsub : ∀ l ∈ lanesOf taken, l ∈ lanesOf lanes)
    (hf : lanes &&& ~~~taken ≠ 0) (hk : keeps = if b then lanes &&& ~~~taken else taken) : keeps ≠ 0 ∧ lanes &&& ~~~keeps ≠ 0 := by
  subst hk
  cases b with
  | false => exact ⟨ht, hf⟩
  | true =>
    obtain ⟨l, hl⟩ := List.exists_mem_of_ne_nil _ (lanesOf_ne_nil.2 ht)
    refine ⟨hf, lanesOf_ne_nil.1 (List.ne_nil_of_mem (a := l) (mem_lanesOf_diff.2 ⟨hsub l hl, fun h => ?_⟩))⟩
    exact (mem_lanesOf_diff.1 h).2 hl

/-- What a `split` leaves of its band and its entry: `b` and `e` are the band's and the entry's after it, `y` and `z` before. -/
structure SplitBand (x : Ctx) (j : Nat) (taken : Word) (target : BitVec 64) (y b : Band) : Prop where
  masks : b.j = mapSet y.j j x.lanes
  arrived : b.arr = mapDel y.arr j
  places : b.arrPc = y.arrPc
  threads : ∀ l, (b.thread l).unmarked =
    (if l ∈ lanesOf taken then { y.thread l with pc := target, base := target } else y.thread l).unmarked

theorem splitBand_records (x : Ctx) (j : Nat) (target : BitVec 64) (y : Band) :
    SplitBand x j 0 target y (y.records j x.lanes) :=
  ⟨rfl, rfl, rfl, fun _ => rfl⟩

theorem splitBand_stands (x : Ctx) (j : Nat) (taken : Word) (target : BitVec 64) (y : Band) :
    SplitBand x j taken target y (Band.standAt taken target (y.records j x.lanes)) :=
  ⟨rfl, rfl, rfl, fun l => by rw [Band.standAt, Band.thread_updThreads]; rfl⟩

theorem SplitBand.marks {x : Ctx} {j : Nat} {taken : Word} {target : BitVec 64} {y b : Band} (h : SplitBand x j taken target y b)
    (g : Word) : SplitBand x j taken target y (b.updThreads g fun _ y => { y with mark := .none }) :=
  ⟨h.masks, h.arrived, h.places, fun l => by
    rw [← h.threads l, Band.thread_updThreads]
    split <;> rfl⟩

/-- A jump of a band's lanes as a change of its band and its entry. -/
theorem jump_parts {w : State} {x : Ctx} {y : Entry} (hy : mapGet (w.core x.core).table x.e = some y)
    (hp : (mapGet (w.core x.core).bands x.slot).isSome = true) (g : Word) (pc : BitVec 64) :
    mapGet ((w.jump x g pc).core x.core).table x.e = some y.outside ∧
    ((w.jump x g pc).core x.core).band x.slot = Band.standAt g pc ((w.core x.core).band x.slot) ∧
    (∀ e, (mapGet ((w.jump x g pc).core x.core).table e).isSome = (mapGet (w.core x.core).table e).isSome) ∧
    (mapGet ((w.jump x g pc).core x.core).bands x.slot).isSome = true := by
  have htab : ∀ e, (mapGet ((w.jump x g pc).core x.core).table e).isSome = (mapGet (w.core x.core).table e).isSome := fun e => by
    rw [State.jump, State.tabled_updEntry, State.goTo_eq, State.tabled_updBand]
  refine ⟨?_, ?_, htab, ?_⟩
  · rw [Core.get_entry (by rw [htab, hy]; rfl), State.jump, State.entry_updEntry_self _ _ _ _ (by
      rw [State.goTo_eq, State.tabled_updBand, hy]; rfl), State.goTo_eq, Core.entry, State.table_updBand, ← Core.entry, Core.entry_of hy]
    rfl
  · rw [State.jump, State.band_updEntry, State.goTo_eq, State.band_updBand_self _ _ _ _ hp]
  · rw [State.jump, State.placed_updEntry, State.goTo_eq, State.placed_updBand, hp]

section
variable {m : State} {x : Ctx} {z : Entry} (j : Nat) {taken : Word} (target : BitVec 64)
variable (hz : mapGet (m.core x.core).table x.e = some z) (hp : (mapGet (m.core x.core).bands x.slot).isSome = true)

include hz hp in
/-- What recording the mask leaves. -/
theorem records_parts : mapGet ((m.updBand x.core x.slot (Band.records j x.lanes)).core x.core).table x.e = some z ∧
    ((m.updBand x.core x.slot (Band.records j x.lanes)).core x.core).band x.slot = ((m.core x.core).band x.slot).records j x.lanes ∧
    (mapGet ((m.updBand x.core x.slot (Band.records j x.lanes)).core x.core).bands x.slot).isSome = true :=
  ⟨by rw [State.table_updBand, hz], State.band_updBand_self _ _ _ _ hp, by rw [State.placed_updBand, hp]⟩

include hz hp in
theorem splitTo_none : SplitBand x j 0 target ((m.core x.core).band x.slot) (((m.splitTo x j 0 target).core x.core).band x.slot) ∧
    ((m.splitTo x j 0 target).core x.core).entry x.e = z := by
  obtain ⟨hentry, hband, -⟩ := records_parts j hz hp
  rw [State.splitTo, if_pos rfl, hband, Core.entry_of hentry]
  exact ⟨splitBand_records x j target _, rfl⟩

include hz hp in
theorem splitTo_all (ht : taken ≠ 0) (hsub : ∀ l ∈ lanesOf taken, l ∈ lanesOf x.lanes) (hf : x.lanes &&& ~~~taken = 0) :
    SplitBand x j taken target ((m.core x.core).band x.slot) (((m.splitTo x j taken target).core x.core).band x.slot) ∧
    ((m.splitTo x j taken target).core x.core).entry x.e = z.outside := by
  have hall : x.lanes = taken := word_ext fun l => ⟨fun hl => by_contra fun hn => by
    have hmem := mem_lanesOf_diff.2 ⟨hl, hn⟩
    rw [hf] at hmem
    exact absurd (mem_lanesOf.1 hmem) (by simp), hsub l⟩
  obtain ⟨hentry, hband, hplaced⟩ := records_parts j hz hp
  obtain ⟨hjentry, hjband, -⟩ := jump_parts hentry hplaced x.lanes target
  rw [State.splitTo, if_neg ht, if_pos hf, hjband, hband, Core.entry_of hjentry, hall]
  exact ⟨hall ▸ splitBand_stands x j taken target _, rfl⟩

include hz hp in
/-- Both ways some: the lanes that keep the sub-band, and the others in a free entry or deferred. -/
theorem splitTo_both {keeps : Word} (ht : taken ≠ 0) (hsub : ∀ l ∈ lanesOf taken, l ∈ lanesOf x.lanes) (hf : x.lanes &&& ~~~taken ≠ 0)
    (hw : z.wait = .ready) (hfr : z.frozen = false)
    (hk : keeps = if x.l.det && (lowestLane x.lanes).any (x.lanes &&& ~~~taken).getLsbD then x.lanes &&& ~~~taken else taken) :
    SplitBand x j taken target ((m.core x.core).band x.slot) (((m.splitTo x j taken target).core x.core).band x.slot) ∧
    (∀ n, (m.core x.core).freeEntry = some n → ((m.splitTo x j taken target).core x.core).entry x.e = { z with lanes := keeps, ctx := none } ∧
      ((m.splitTo x j taken target).core x.core).entry n = { Entry.fresh with slot := x.slot, lanes := x.lanes &&& ~~~keeps }) ∧
    ((m.core x.core).freeEntry = none → ((m.splitTo x j taken target).core x.core).entry x.e =
      { z with lanes := keeps, ctx := none, defer := z.defer ||| (x.lanes &&& ~~~keeps) }) := by
  obtain ⟨hkeeps, hothers⟩ := split_groups ht hsub hf hk
  obtain ⟨hentry, hband, hplaced⟩ := records_parts j hz hp
  obtain ⟨hjentry, hjband, htab, hjplaced⟩ := jump_parts hentry hplaced taken target
  rw [State.splitTo, if_neg ht, if_neg hf, ← hk]
  dsimp only
  set w := ((m.updBand x.core x.slot (Band.records j x.lanes)).jump x taken target).updEntry x.core x.e (Entry.runs keeps) with hw0
  have hwentry : mapGet (w.core x.core).table x.e = some (Entry.runs keeps z.outside) := by
    rw [Core.get_entry (by rw [hw0, State.tabled_updEntry, hjentry]; rfl), hw0, State.entry_updEntry_self _ _ _ _ (by rw [hjentry]; rfl),
      Core.entry_of hjentry]
  have hwband : (w.core x.core).band x.slot = Band.standAt taken target (((m.core x.core).band x.slot).records j x.lanes) := by
    rw [hw0, State.band_updEntry, hjband, hband]
  have hwplaced : (mapGet (w.core x.core).bands x.slot).isSome = true := by rw [hw0, State.placed_updEntry, hjplaced]
  have hfree : (w.core x.core).freeEntry = (m.core x.core).freeEntry := freeEntry_congr fun e => by
    rw [hw0, State.tabled_updEntry, htab, State.tabled_updBand]
  have hstands := splitBand_stands x j taken target ((m.core x.core).band x.slot)
  cases hn : (m.core x.core).freeEntry with
  | some n =>
    obtain ⟨⟨hrun, hnew⟩, hsame⟩ := takeEntry_beside_free hwentry hkeeps hothers (hfree.trans hn) (slot := x.slot)
    refine ⟨by rw [hsame, hwband]; exact hstands, fun n' hn' => ?_, fun hnone => by cases hnone⟩
    cases hn'
    exact ⟨hrun, hnew.trans (by rw [Entry.runs, Entry.outside, hfr]; rfl)⟩
  | none =>
    obtain ⟨hrun, hmarks⟩ := takeEntry_beside_full hwentry hkeeps hothers hw (hfree.trans hn) hwplaced
    exact ⟨by rw [hmarks, hwband]; exact hstands.marks _, fun n' hn' => (by cases hn'), fun _ => hrun⟩

end

/-- Settles O28: `splitTo` by which of the two groups of lanes are some. -/
theorem split : Obligations.Split := by
  intro s u d j p off i q x m taken fall keeps hi hq hx h hm hready ht hf hk
  have hst := State.stands_of_issues h
  obtain ⟨hslot, hlanes, hfrozen, hwait, -⟩ := State.passed_entry i q hst
  have htable := Core.get_entry (State.tabled_of_issues h)
  have hplaced := State.placed_of_issues h
  have hxc : x.core = u.core := by rw [hx, State.seen_core]
  have hxs : x.slot = u.slot := by rw [hx, State.seen_slot]
  have hxe : x.e = u.entry := by rw [hx, State.seen_e]
  have hsub : ∀ l ∈ lanesOf taken, l ∈ lanesOf x.lanes := fun l hl => by rw [ht, mem_lanesOf_filter] at hl; exact hl.1
  rw [← hm] at hslot hfrozen hwait htable hplaced
  have hz : mapGet (m.core x.core).table x.e = some ((m.core u.core).entry u.entry) := by rw [hxc, hxe]; exact htable
  have hp : (mapGet (m.core x.core).bands x.slot).isSome = true := by rw [hxc, hxs]; exact hplaced
  have hmoved := splitTo_moved (taken := taken) j.toNat (offsetFrom x.pc off) hz (hslot.trans hxs.symm)
  have hexec : exec i s = .next ((m.splitTo x j.toNat taken (offsetFrom x.pc off)).passWaits x.core x.slot none) := by
    rw [hi, execSplit_eq, ← hq, ← hi]
    exact issue_ok h _ (by rw [← hx, ← hm, ← ht])
  refine ⟨m.splitTo x j.toNat taken (offsetFrom x.pc off), _, hexec, by rw [hxc, hxs], ?moves, ?passes, ?parts⟩
  case moves => rw [← hxc, ← hxs]; exact hmoved.moves
  case passes => rw [← hxc, ← hxs]; exact (hmoved.trans (.passWaits _ _ _ _)).moves
  case parts =>
    dsimp only
    rw [← hxc, ← hxs, ← hxe]
    rw [← hxc, ← hxe] at hz hfrozen
    have hwaits : ((m.core x.core).entry x.e).wait = .ready := by rw [hxc, hxe]; exact hwait.trans hready
    by_cases hnone : taken = 0
    · subst hnone
      obtain ⟨⟨hj, harr, hpc, hthreads⟩, hentry⟩ := splitTo_none j.toNat (offsetFrom x.pc off) hz hp
      exact ⟨hj, harr, hpc, hthreads, fun _ => hentry, fun hn => absurd rfl hn, fun hn => absurd rfl hn⟩
    · by_cases hall : fall = 0
      · obtain ⟨⟨hj, harr, hpc, hthreads⟩, hentry⟩ := splitTo_all j.toNat (offsetFrom x.pc off) hz hp hnone hsub (hf ▸ hall)
        exact ⟨hj, harr, hpc, hthreads, fun hn => absurd hn hnone, fun _ _ => hentry, fun _ hn => absurd hall hn⟩
      · obtain ⟨⟨hj, harr, hpc, hthreads⟩, hfree, hfull⟩ := splitTo_both j.toNat (offsetFrom x.pc off) hz hp hnone hsub (hf ▸ hall)
          hwaits hfrozen (hf ▸ hk)
        refine ⟨hj, harr, hpc, hthreads, fun hn => absurd hn hnone, fun _ hn => absurd hn hall, fun _ _ => ?_⟩
        cases hn : (m.core x.core).freeEntry with
        | some n => exact hfree n hn
        | none => exact hfull hn

end Sys2Proof.Machine
end

section
/-! PROOFS. Joins (R75, R85 to R87). -/

namespace Sys2Proof.Machine

/-! ## Arrival -/

/-- Arrived lanes held, and all that have arrived at the word after. -/
def Band.held (g all : Word) (after : BitVec 64) (b : Band) : Band :=
  (b.updThreads g fun _ y => { y with hold := .join, pc := after, base := after }).updThreads all
    fun _ y => { y with pc := after, base := after }

/-- What an arrival does to its band. -/
def Band.arrives (j : Nat) (g all : Word) (after : BitVec 64) (b : Band) : Band :=
  { b.held g all after with
    arr := mapSet b.arr j (mapGetD b.arr j 0 ||| g), arrPc := mapSet b.arrPc j after, turn := none }

/-- An entry whose lanes have arrived. -/
def Entry.arrived (e : Entry) : Entry := { e with lanes := 0, ctx := none }

/-- The state of an arrival before its mask is released. -/
def State.arrives (s : State) (c slot e j : Nat) (after : BitVec 64) : State :=
  (s.updBand c slot (Band.arrives j ((s.core c).entry e).lanes
    (mapGetD ((s.core c).band slot).arr j 0 ||| ((s.core c).entry e).lanes) after)).updEntry c e Entry.arrived

theorem mem_lanesOf_or {a b : Word} {l : Nat} : l ∈ lanesOf (a ||| b) ↔ l ∈ lanesOf a ∨ l ∈ lanesOf b := by
  simp only [mem_lanesOf, BitVec.getLsbD_or, Bool.or_eq_true]

theorem Band.arrives_thread (j : Nat) (g : Word) (after : BitVec 64) (b : Band) (l : Nat) :
    (b.arrives j g (mapGetD b.arr j 0 ||| g) after).thread l =
    if l ∈ lanesOf g then { b.thread l with hold := .join, pc := after, base := after }
    else if l ∈ lanesOf (mapGetD b.arr j 0) then { b.thread l with pc := after, base := after } else b.thread l := by
  change (b.held g (mapGetD b.arr j 0 ||| g) after).thread l = _
  rw [Band.held, Band.thread_updThreads, Band.thread_updThreads]
  by_cases hg : l ∈ lanesOf g <;> simp [hg, mem_lanesOf_or]

theorem arriveJoin_eq {s : State} {c slot e : Nat} (j : Nat) (after : BitVec 64) (hs : ((s.core c).entry e).slot = slot)
    (hp : (mapGet (s.core c).bands slot).isSome = true) : s.arriveJoin c e j after =
      (((s.arrives c slot e j after).releaseJoin c slot e j false).passWaits c slot none).rebalance c e := by
  rw [State.arriveJoin]
  rw [hs, State.arrives]
  congr 4
  simp only [State.updThreads, State.updBand_updBand]
  rw [State.band_updBand_self _ _ _ _ hp]
  rw [mapGetD_mapSet, if_pos rfl]
  rfl

theorem arrives_moved {s : State} {c slot e : Nat} (j : Nat) (after : BitVec 64) (hs : ((s.core c).entry e).slot = slot) :
    Moved s c slot (s.arrives c slot e j after) := by
  have hband := Moved.updBand s c slot (Band.arrives j ((s.core c).entry e).lanes
    (mapGetD ((s.core c).band slot).arr j 0 ||| ((s.core c).entry e).lanes) after) (fun _ => rfl) fun b l => by
      change ((b.held _ _ _).thread l).exited = _
      rw [Band.held, Band.thread_updThreads, Band.thread_updThreads]
      split <;> split <;> rfl
  exact hband.trans (.updEntry _ c slot e Entry.arrived (hband.owns _ (State.owns_of_slot hs)) fun _ => rfl)

theorem State.entry_updBand (s : State) (c b : Nat) (f : Band → Band) (d e : Nat) :
    ((s.updBand c b f).core d).entry e = (s.core d).entry e := by
  rw [Core.entry, State.table_updBand, ← Core.entry]

theorem arrives_parts {s : State} {c slot e : Nat} (j : Nat) (after : BitVec 64) (hp : (mapGet (s.core c).bands slot).isSome = true)
    (ht : (mapGet (s.core c).table e).isSome = true) :
    ((s.arrives c slot e j after).core c).band slot = ((s.core c).band slot).arrives j ((s.core c).entry e).lanes
      (mapGetD ((s.core c).band slot).arr j 0 ||| ((s.core c).entry e).lanes) after ∧
    ((s.arrives c slot e j after).core c).entry e = ((s.core c).entry e).arrived := by
  rw [State.arrives, State.band_updEntry, State.band_updBand_self _ _ _ _ hp,
    State.entry_updEntry_self _ _ _ _ (by rw [State.tabled_updBand, ht]), State.entry_updBand]
  exact ⟨rfl, rfl⟩

/-- `join` arrives, and its mask may be released by it. -/
theorem join_arrives (s : State) (u : Cursor) (d : BitVec 2) (j : BitVec 4) (h : s.issues u (.join d j) (shapeS d []) = true)
    (x : Ctx) (hx : x = s.seen u (.join d j) (shapeS d [])) (m : State) (hm : m = s.passed u (.join d j) (shapeS d [])) :
    exec (.join d j) s = .next ((((m.arrives u.core u.slot u.entry j.toNat (x.pc + 4)).releaseJoin u.core u.slot u.entry j.toNat
      false).passWaits u.core u.slot none).rebalance u.core u.entry) := by
  subst hx hm
  refine issue_ok h _ ?_
  rw [State.seen_core, State.seen_e,
    arriveJoin_eq _ _ (State.passed_entry _ _ (State.stands_of_issues h)).1 (State.placed_of_issues h)]

/-! ## Waiting for a join -/

/-- A band whose turn is no sub-band's. -/
def Band.endsTurn (b : Band) : Band := { b with turn := none }

/-- A sub-band that waits for a mask: its turn is over. -/
def State.awaits (s : State) (u : Cursor) (j : Nat) : State :=
  (s.updEntry u.core u.entry fun e => { e with wait := .jwait j }).updBand u.core u.slot Band.endsTurn

theorem awaits_moved {s : State} {u : Cursor} (j : Nat) (hs : ((s.core u.core).entry u.entry).slot = u.slot) :
    Moved s u.core u.slot ((s.awaits u j).rebalance u.core u.entry) := by
  have howns := State.owns_of_slot hs
  have hwait := Moved.updEntry s u.core u.slot u.entry (fun e => { e with wait := .jwait j }) howns fun _ => rfl
  have hturn := hwait.trans (.updBand _ u.core u.slot Band.endsTurn (fun _ => rfl) fun _ _ => rfl)
  exact hturn.trans (.rebalance _ _ _ _ (hturn.owns _ howns))

theorem awaits_parts {s : State} {u : Cursor} (j : Nat) (ht : (mapGet (s.core u.core).table u.entry).isSome = true) :
    ((s.awaits u j).core u.core).entry u.entry = { (s.core u.core).entry u.entry with wait := .jwait j } ∧
    (((s.awaits u j).core u.core).band u.slot).threads = ((s.core u.core).band u.slot).threads := by
  refine ⟨?_, ?_⟩
  · rw [State.awaits, State.entry_updBand, State.entry_updEntry_self _ _ _ _ ht]
  · rw [State.awaits, State.threads_updBand _ _ _ Band.endsTurn _ _ fun _ => rfl, State.band_updEntry]

theorem jwait_waits {s : State} {u : Cursor} {d : BitVec 2} {j : BitVec 4} {q : Shape} (hq : q = shapeS d [])
    (h : s.issues u (.jwait d j) q = true) (x : Ctx) (hx : x = s.seen u (.jwait d j) q)
    (hopen : mapGetD x.b.j j.toNat 0 &&& x.b.live &&& ~~~x.lanes &&& ~~~(mapGetD x.b.arr j.toNat 0) ≠ 0) :
    exec (.jwait d j) s = .next (((s.begun u (.jwait d j) q).awaits u j.toNat).rebalance u.core u.entry) := by
  subst hq hx
  refine (issue_stay h _ (if_neg hopen)).trans ?_
  rw [State.seen_core, State.seen_slot, State.seen_e]
  rfl

theorem joins_instructions (s : State) (u : Cursor) (d : BitVec 2) (j : BitVec 4) (i : Instr) (q : Shape) (x : Ctx) (m : State) (hx : x = s.seen u i q) (h : 
     s.issues u i q = true) (hm : m = s.passed u i q) :
     let y := (m.core u.core).band u.slot
     (i = .join d j → q = shapeS d [] → ∃ t0 t : State, exec i s = .next t ∧
       t = ((t0.releaseJoin u.core u.slot u.entry j.toNat false).passWaits u.core u.slot none).rebalance u.core u.entry ∧
       m.Moves u.core u.slot t0 ∧ m.Moves u.core u.slot t ∧
       let b := (t0.core u.core).band u.slot
       let z := (m.core u.core).entry u.entry
       b.j = y.j ∧ b.arr = mapSet y.arr j.toNat (mapGetD y.arr j.toNat 0 ||| z.lanes) ∧ b.arrPc = mapSet y.arrPc j.toNat (x.pc + 4) ∧
       (∀ l, b.thread l = if l ∈ lanesOf z.lanes then { y.thread l with hold := .join, pc := x.pc + 4, base := x.pc + 4 }
         else if l ∈ lanesOf (mapGetD y.arr j.toNat 0) then { y.thread l with pc := x.pc + 4, base := x.pc + 4 } else y.thread l) ∧
       (t0.core u.core).entry u.entry = { z with lanes := 0, ctx := none }) ∧
     (i = .jwait d j → q = shapeS d [] → ∃ t, exec i s = .next t ∧
       if mapGetD x.b.j j.toNat 0 &&& x.b.live &&& ~~~x.lanes &&& ~~~(mapGetD x.b.arr j.toNat 0) = 0 then s.Changes u i q id id t
       else ∃ t0 : State, t = t0.rebalance u.core u.entry ∧ (s.begun u i q).Moves u.core u.slot t ∧
         (t0.core u.core).entry u.entry = { ((s.begun u i q).core u.core).entry u.entry with wait := .jwait j.toNat } ∧
         ((t0.core u.core).band u.slot).threads = (((s.begun u i q).core u.core).band u.slot).threads) ∧
     (∀ sn, i = .jset d j sn → q = shapeS d [.s sn.toNat] → ∃ t0 t : State, exec i s = .next t ∧
       t = (t0.releaseJoin u.core u.slot u.entry j.toNat true).passWaits u.core u.slot none ∧ t0.Moves u.core u.slot t ∧
       s.Changes u i q (fun b => { b with j := mapSet b.j j.toNat (x.s sn) }) id t0) ∧
     (∀ sn, i = .jget d sn j → q = shapeS d [] → ∃ t, exec i s = .next t ∧
       s.Gives u i q (x.toS sn (mapGetD x.b.j j.toNat 0)) flNone t) := by
  have hst := State.stands_of_issues h
  have hslot := (State.passed_entry i q hst).1
  refine ⟨fun hi hq => ?join, fun hi hq => ?jwait, fun sn hi hq => ?jset, fun sn hi hq => ?jget⟩
  case join =>
    rw [← hm] at hslot
    have hmoved := arrives_moved (slot := u.slot) (e := u.entry) j.toNat (x.pc + 4) hslot
    have howns := hmoved.owns _ (State.owns_of_slot hslot)
    have hrel := hmoved.trans (.releaseJoin _ u.core u.slot u.entry j.toNat false howns)
    have hpass := hrel.trans (.passWaits _ u.core u.slot none)
    have hall := hpass.trans (.rebalance _ u.core u.slot u.entry (hpass.owns _ (State.owns_of_slot hslot)))
    obtain ⟨hband, hentry⟩ := arrives_parts (s := m) (slot := u.slot) (e := u.entry) j.toNat (x.pc + 4)
      (by rw [hm]; exact State.placed_of_issues h) (by rw [hm]; exact State.tabled_of_issues h)
    refine ⟨m.arrives u.core u.slot u.entry j.toNat (x.pc + 4), _, ?exec, rfl, hmoved.moves, hall.moves, ?_⟩
    case exec => subst hi hq; exact join_arrives s u d j h x hx m hm
    dsimp only
    rw [hband, hentry]
    exact ⟨rfl, rfl, rfl, fun l => Band.arrives_thread _ _ _ _ l, rfl⟩
  case jwait =>
    by_cases hdone : mapGetD x.b.j j.toNat 0 &&& x.b.live &&& ~~~x.lanes &&& ~~~(mapGetD x.b.arr j.toNat 0) = 0
    · subst hi hx hq
      refine ⟨_, issue_ok h _ (if_pos hdone), ?_⟩
      rw [if_pos hdone]
      exact changes_none _ _ _ _
    · have hslot := (State.begun_entry i q hst).1
      obtain ⟨hentry, hthreads⟩ := awaits_parts j.toNat (State.tabled_begun (i := i) (q := q) hst)
      subst hi
      refine ⟨_, jwait_waits hq h x hx hdone, ?_⟩
      rw [if_neg hdone]
      exact ⟨_, rfl, (awaits_moved j.toNat hslot).moves, hentry, hthreads⟩
  case jset =>
    have hset := changes_band h fun b => { b with j := mapSet b.j j.toNat (x.s sn) }
    have howns : ((s.passed u i q).updBand u.core u.slot fun b => { b with j := mapSet b.j j.toNat (x.s sn) }).owns u.core u.slot u.entry :=
      fun y hy => State.owns_of_slot hslot y (by rw [State.table_updBand] at hy; exact hy)
    have hrel := Moved.releaseJoin _ u.core u.slot u.entry j.toNat true howns
    refine ⟨_, _, ?exec, rfl, (hrel.trans (.passWaits _ _ _ _)).moves, hset⟩
    subst hi hq hx
    refine issue_ok h _ ?_
    rw [State.seen_core, State.seen_slot, State.seen_e]
  case jget =>
    subst hi hq hx
    exact issue_toS h sn fun x => mapGetD x.b.j j.toNat 0

/-! ## The sub-bands that wait for a mask (R86) -/

/-- What a pass over entries does to one: only its own turn changes it. -/
theorem foldl_entry {f : State → Nat → State} {c e : Nat} (hne : ∀ t d, d ≠ e → ((f t d).core c).entry e = (t.core c).entry e)
    (htab : ∀ t d, (mapGet ((f t d).core c).table e).isSome = (mapGet (t.core c).table e).isSome) (ls : List Nat) (s : State)
    (hd : ls.Nodup) (he : e ∈ ls) : ∃ t, (t.core c).entry e = (s.core c).entry e ∧
      (mapGet (t.core c).table e).isSome = (mapGet (s.core c).table e).isSome ∧
      ((ls.foldl f s).core c).entry e = ((f t e).core c).entry e := by
  have after : ∀ (ls : List Nat) (s : State), e ∉ ls → ((ls.foldl f s).core c).entry e = (s.core c).entry e := by
    intro ls
    induction ls with
    | nil => intro s _; rfl
    | cons d ls ih =>
      intro s hn
      rw [List.foldl_cons, ih _ fun h => hn (List.mem_cons_of_mem _ h), hne s d fun h => hn (h ▸ List.mem_cons_self)]
  induction ls generalizing s with
  | nil => exact absurd he List.not_mem_nil
  | cons d ls ih =>
    obtain ⟨hdn, hd⟩ := List.nodup_cons.1 hd
    rw [List.foldl_cons]
    by_cases h : d = e
    · subst h
      exact ⟨s, rfl, rfl, after ls _ hdn⟩
    · obtain ⟨t, ht, htable, hfold⟩ := ih (f s d) hd (List.mem_of_ne_of_mem (Ne.symm h) he)
      exact ⟨t, ht.trans (hne s d h), htable.trans (htab s d), hfold⟩

/-- A sub-band that waits for a mask passes, or stays. -/
def State.passWait (b : Band) (released : Option Nat) (c : Nat) (s : State) (e : Nat) : State :=
  let en := (s.core c).entry e
  match en.wait with
  | .jwait j =>
    if en.frozen then s else
    if released = some j || mapGetD b.j j 0 &&& b.live &&& ~~~en.lanes &&& ~~~(mapGetD b.arr j 0) = 0 then
      (s.advance c e 1).updEntry c e fun x => { x with wait := .ready, age := 0 }
    else s
  | _ => s

theorem passWaits_eq (s : State) (c slot : Nat) (r : Option Nat) :
    s.passWaits c slot r = ((s.core c).entriesOf slot).foldl (State.passWait ((s.core c).band slot) r c) s := rfl

theorem entry_advance_ne (s : State) (c e n : Nat) {d : Nat} (h : d ≠ e) : ((s.advance c e n).core c).entry d = (s.core c).entry d := by
  rw [State.advance]
  rw [State.entry_updEntry_ne _ _ _ _ _ _ (fun hn => h hn.2), State.updStood]
  split
  · rw [State.entry_updBand]
  · rw [State.updThreads, State.entry_updBand]

theorem lanes_updEntry (s : State) (c e : Nat) (g : Entry → Entry) (hg : ∀ x, (g x).lanes = x.lanes) :
    (((s.updEntry c e g).core c).entry e).lanes = ((s.core c).entry e).lanes := by
  rw [State.updEntry, State.core_updCore_self, Core.entry_updEntry]
  split
  · exact hg _
  · rfl

theorem lanes_advance (s : State) (c e n : Nat) : (((s.advance c e n).core c).entry e).lanes = ((s.core c).entry e).lanes := by
  have hstood : ∀ f, ((s.updStood c ((s.core c).entry e).slot ((s.core c).entry e).frozen ((s.core c).entry e).lanes f).core c).entry e =
      (s.core c).entry e := fun f => by
    rw [State.updStood]
    split
    · rw [State.entry_updBand]
    · rw [State.updThreads, State.entry_updBand]
  rw [State.advance, lanes_updEntry]
  · exact congrArg Entry.lanes (hstood _)
  · exact fun _ => rfl

theorem passWait_ne (b : Band) (r : Option Nat) (c : Nat) {d e : Nat} (s : State) (h : d ≠ e) :
    ((s.passWait b r c d).core c).entry e = (s.core c).entry e := by
  unfold State.passWait
  dsimp only
  split
  · split
    · rfl
    · split
      · rw [State.entry_updEntry_ne _ _ _ _ _ _ (fun hn => h hn.2.symm), entry_advance_ne _ _ _ _ (Ne.symm h)]
      · rfl
  · rfl

theorem passWait_tabled (b : Band) (r : Option Nat) (c d e : Nat) (s : State) :
    (mapGet ((s.passWait b r c d).core c).table e).isSome = (mapGet (s.core c).table e).isSome := by
  unfold State.passWait
  dsimp only
  split
  · split
    · rfl
    · split
      · rw [State.tabled_updEntry, State.tabled_advance]
      · rfl
  · rfl

theorem passWait_stays {b : Band} {r : Option Nat} {c e : Nat} {s : State}
    (h : (∀ n, ((s.core c).entry e).wait ≠ .jwait n) ∨ ((s.core c).entry e).frozen = true) : s.passWait b r c e = s := by
  unfold State.passWait
  dsimp only
  split
  · next n hn =>
    rw [if_pos (h.resolve_left fun hall => hall n hn)]
  · rfl

theorem passWait_waits {b : Band} {r : Option Nat} {c e j : Nat} {s : State} (hw : ((s.core c).entry e).wait = .jwait j)
    (hf : ((s.core c).entry e).frozen = false) : s.passWait b r c e =
      if r = some j ∨ mapGetD b.j j 0 &&& b.live &&& ~~~((s.core c).entry e).lanes &&& ~~~(mapGetD b.arr j 0) = 0 then
        (s.advance c e 1).updEntry c e fun x => { x with wait := .ready, age := 0 } else s := by
  unfold State.passWait
  dsimp only
  rw [hw]
  dsimp only
  rw [if_neg (by rw [hf]; exact Bool.false_ne_true)]
  simp only [Bool.or_eq_true, decide_eq_true_eq]

theorem advance_ready {s : State} {c e : Nat} (ht : (mapGet (s.core c).table e).isSome = true) :
    ((((s.advance c e 1).updEntry c e fun x => { x with wait := .ready, age := 0 }).core c).entry e).wait = .ready ∧
    ((((s.advance c e 1).updEntry c e fun x => { x with wait := .ready, age := 0 }).core c).entry e).lanes = ((s.core c).entry e).lanes := by
  rw [State.entry_updEntry_self _ _ _ _ (by rw [State.tabled_advance, ht])]
  exact ⟨rfl, lanes_advance s c e 1⟩

theorem isSome_of_mem_keys {α : Type} {m : Map α} {e : Nat} (h : e ∈ mapKeys m) : (mapGet m e).isSome = true := by
  induction m with
  | nil => exact absurd h List.not_mem_nil
  | cons p m ih =>
    obtain ⟨k, v⟩ := p
    by_cases hk : e = k
    · rw [mapGet, if_pos hk]; rfl
    · rw [mapGet, if_neg hk]
      exact ih ((List.mem_cons.1 h).resolve_left hk)

theorem tabled_entriesOf {k : Core} {slot e : Nat} (h : e ∈ k.entriesOf slot) : (mapGet k.table e).isSome = true := by
  rw [Core.entriesOf, List.mem_filter] at h
  exact isSome_of_mem_keys h.1

/-- What a pass over the waiting sub-bands of a band leaves of one of them. -/
theorem passWaits_entry (s : State) (c slot e : Nat) (r : Option Nat) (he : e ∈ (s.core c).entriesOf slot)
    (hd : ((s.core c).entriesOf slot).Nodup) :
    ((∀ n, ((s.core c).entry e).wait ≠ .jwait n) ∨ ((s.core c).entry e).frozen = true →
      ((s.passWaits c slot r).core c).entry e = (s.core c).entry e) ∧
    ∀ j, ((s.core c).entry e).wait = .jwait j → ((s.core c).entry e).frozen = false →
      if r = some j ∨ mapGetD ((s.core c).band slot).j j 0 &&& ((s.core c).band slot).live &&& ~~~((s.core c).entry e).lanes &&&
          ~~~(mapGetD ((s.core c).band slot).arr j 0) = 0 then
        (((s.passWaits c slot r).core c).entry e).wait = .ready ∧ (((s.passWaits c slot r).core c).entry e).lanes = ((s.core c).entry e).lanes
      else ((s.passWaits c slot r).core c).entry e = (s.core c).entry e := by
  obtain ⟨t, hentry, htable, hfold⟩ := foldl_entry (f := State.passWait ((s.core c).band slot) r c)
    (fun t d h => passWait_ne _ _ _ _ h) (fun t d => passWait_tabled _ _ _ _ _ _) _ s hd he
  rw [passWaits_eq, hfold]
  refine ⟨fun h => ?_, fun j hw hf => ?_⟩
  · rw [passWait_stays (by rw [hentry]; exact h), hentry]
  · rw [passWait_waits (by rw [hentry]; exact hw) (by rw [hentry]; exact hf), hentry]
    split
    · have hready := advance_ready (s := t) (c := c) (e := e) (by rw [htable]; exact tabled_entriesOf he)
      rw [hentry] at hready
      exact hready
    · exact hentry

/-! ## The release of a mask (R75) -/

/-- Lanes that stand together, held no more. -/
def Band.regroups (g : Word) (pc : BitVec 64) (b : Band) : Band :=
  (Band.standAt g pc b).updThreads g fun _ t => { t with hold := .none, mark := .none }

/-- A released mask is empty, its lanes together. -/
def Band.releases (j : Nat) (g : Word) (pc : BitVec 64) (b : Band) : Band :=
  { b.regroups g pc with arr := mapDel b.arr j }

theorem releaseJoin_eq (s : State) (c slot former j : Nat) (force : Bool) : s.releaseJoin c slot former j force =
    if !((s.core c).band slot).complete j ||
        (mapGetD ((s.core c).band slot).arr j 0 &&& ((s.core c).band slot).live = 0 && !force) then s else
      (((s.updBand c slot (Band.releases j (mapGetD ((s.core c).band slot).arr j 0 &&& ((s.core c).band slot).live)
        (mapGetD ((s.core c).band slot).arrPc j 0))).takeEntry c slot former
        (mapGetD ((s.core c).band slot).arr j 0 &&& ((s.core c).band slot).live) .ready .none).1).passWaits c slot (some j) := by
  rw [State.releaseJoin]
  simp only [State.goTo_eq, State.updThreads, State.updBand_updBand]
  rfl

theorem Band.releases_thread (j : Nat) (g : Word) (pc : BitVec 64) (b : Band) (l : Nat) : (b.releases j g pc).thread l =
    if l ∈ lanesOf g then { b.thread l with pc := pc, base := pc, hold := .none, mark := .none } else b.thread l := by
  change (b.regroups g pc).thread l = _
  rw [Band.regroups, Band.thread_updThreads, Band.standAt, Band.thread_updThreads]
  split <;> rfl

theorem releases_moved (s : State) (c slot j : Nat) (g : Word) (pc : BitVec 64) :
    Moved s c slot (s.updBand c slot (Band.releases j g pc)) :=
  .updBand s c slot _ (fun _ => rfl) fun b l => by rw [Band.releases_thread]; split <;> rfl

/-- The lanes of a released mask take the entry of the sub-band that completed it, when that has none left. -/
theorem takeEntry_emptied {w : State} {c slot former : Nat} {g : Word} {f : Entry} (hf : mapGet (w.core c).table former = some f)
    (hl : f.lanes = 0) (hg : g ≠ 0) (hs : f.slot = slot) :
    ((w.takeEntry c slot former g .ready .none).1.core c).entry former =
      { f with lanes := g, wait := .ready, ctx := none, age := 0, skipBp := false } ∧
    ((w.takeEntry c slot former g .ready .none).1.core c).band slot = (w.core c).band slot := by
  rw [State.takeEntry_former hf hl hg hs]
  exact ⟨by rw [State.entry_updEntry_self _ _ _ _ (by rw [hf]; rfl), Core.entry_of hf], by rw [State.band_updEntry]⟩

theorem releaseJoin_stays {s : State} {c slot former j : Nat} {force : Bool}
    (h : ((s.core c).band slot).complete j = false ∨
      (mapGetD ((s.core c).band slot).arr j 0 &&& ((s.core c).band slot).live = 0 ∧ force = false)) :
    s.releaseJoin c slot former j force = s := by
  rw [releaseJoin_eq, if_pos]
  rcases h with h | ⟨hg, hforce⟩
  · rw [h]; rfl
  · rw [hg, hforce]; simp

/-- A complete mask with lanes to release. -/
theorem releaseJoin_releases {s : State} {c slot former j : Nat} {force : Bool} {f : Entry} {g : Word}
    (hg : g = mapGetD ((s.core c).band slot).arr j 0 &&& ((s.core c).band slot).live) (hf : mapGet (s.core c).table former = some f)
    (hs : f.slot = slot) (hp : (mapGet (s.core c).bands slot).isSome = true) (hc : ((s.core c).band slot).complete j = true)
    (hne : g ≠ 0) (hroom : f.lanes = 0 ∨ (s.core c).freeEntry.isSome = true) :
    ∃ t, s.releaseJoin c slot former j force = t.passWaits c slot (some j) ∧ Moved s c slot t ∧
      (t.core c).band slot = ((s.core c).band slot).releases j g (mapGetD ((s.core c).band slot).arrPc j 0) ∧
      if f.lanes = 0 then (t.core c).entry former = { f with lanes := g, wait := .ready, ctx := none, age := 0, skipBp := false }
      else ∃ n, (s.core c).freeEntry = some n ∧ (t.core c).entry n = { Entry.fresh with slot := slot, lanes := g, frozen := f.frozen } := by
  have howns : s.owns c slot former := fun y hy => by rw [hf] at hy; cases hy; exact hs
  have hmoved := releases_moved s c slot j g (mapGetD ((s.core c).band slot).arrPc j 0)
  rw [releaseJoin_eq, if_neg (by rw [← hg, hc, decide_eq_false hne]; simp), ← hg]
  set w := s.updBand c slot (Band.releases j g (mapGetD ((s.core c).band slot).arrPc j 0)) with hw
  have hwf : mapGet (w.core c).table former = some f := by rw [hw, State.table_updBand, hf]
  have hwband : (w.core c).band slot = ((s.core c).band slot).releases j g (mapGetD ((s.core c).band slot).arrPc j 0) := by
    rw [hw, State.band_updBand_self _ _ _ _ hp]
  have hfree : (w.core c).freeEntry = (s.core c).freeEntry := freeEntry_congr fun e => by rw [hw, State.tabled_updBand]
  refine ⟨_, rfl, hmoved.trans (.takeEntry _ c slot former g _ _ (hmoved.owns _ howns)), ?_⟩
  by_cases hl : f.lanes = 0
  · obtain ⟨hentry, hband⟩ := takeEntry_emptied hwf hl hne hs
    rw [if_pos hl, hentry, hband]
    exact ⟨hwband, rfl⟩
  · obtain ⟨n, hn⟩ := Option.isSome_iff_exists.1 (hroom.resolve_left hl)
    obtain ⟨⟨-, hnew⟩, hband⟩ := takeEntry_beside_free hwf hl hne (hfree.trans hn) (slot := slot)
    rw [if_neg hl, hband]
    exact ⟨hwband, n, hn, hnew⟩

/-- Settles O29: the four instructions, the sub-bands that wait, and the release of a mask. -/
theorem joins : Obligations.Joins := by
  refine ⟨joins_instructions, fun s c slot e r b x j hb hx he hd => ?waits, fun s c slot former j force b f g hb hg hf hs hp => ?release⟩
  case waits =>
    subst hb hx
    obtain ⟨hstay, hpass⟩ := passWaits_entry s c slot e r he hd
    exact ⟨(Moved.passWaits s c slot r).moves, hstay, hpass j⟩
  case release =>
    subst hb
    refine ⟨fun h => releaseJoin_stays (hg ▸ h), fun hc hne hroom => ?_⟩
    obtain ⟨t, hrel, hmoved, hband, hentry⟩ := releaseJoin_releases hg hf hs hp hc hne hroom (force := force)
    refine ⟨t, hrel, hmoved.moves, by rw [hband]; rfl, by rw [hband]; rfl, fun l => by rw [hband, Band.releases_thread], hentry⟩

end Sys2Proof.Machine
end

section
/-! PROOFS. `ret` (R77, R83) and `yield` (R76, R88). -/

namespace Sys2Proof.Machine

/-! ## Reading spilled entries leaves the sub-bands and the bands in their places -/

/-- The table of a core and the slots of its bands that are taken are the same. -/
structure KeepsPlaces (s t : State) (c : Nat) : Prop where
  table : (t.core c).table = (s.core c).table
  placed : ∀ b, (mapGet (t.core c).bands b).isSome = (mapGet (s.core c).bands b).isSome

theorem KeepsPlaces.refl (s : State) (c : Nat) : KeepsPlaces s s c := ⟨rfl, fun _ => rfl⟩

theorem KeepsPlaces.trans {a b d : State} {c : Nat} (h : KeepsPlaces a b c) (g : KeepsPlaces b d c) : KeepsPlaces a d c :=
  ⟨g.table.trans h.table, fun n => (g.placed n).trans (h.placed n)⟩

theorem Quiet.keepsPlaces {s t : State} (h : Quiet s t) (c : Nat) : KeepsPlaces s t c := ⟨h.table c, fun b => (h.band c b).2⟩

theorem KeepsPlaces.l1Fill (s : State) (c pd : Nat) (t : Trans) : KeepsPlaces s (s.l1Fill c pd t).1 c := by
  have hread := (Quiet.readLine s c pd t).keepsPlaces c
  unfold State.l1Fill
  dsimp only
  split
  · next r hr =>
    rw [hr] at hread
    refine hread.trans ⟨?_, fun b => ?_⟩
    · rw [State.countAt, State.core_count, State.core_setCore_self]; rfl
    · rw [State.countAt, State.core_count, State.core_setCore_self]; rfl
  · next r hr => rw [hr] at hread; exact hread

theorem KeepsPlaces.l1Load (s : State) (c pd : Nat) (t : Trans) (n : Nat) : KeepsPlaces s (s.l1Load c pd t n).1 c := by
  have hgo : ∀ ln i, KeepsPlaces s (State.l1Load.go c pd t n s ln i).1 c := fun ln i => by
    have hfill := KeepsPlaces.l1Fill s c pd t
    unfold State.l1Load.go
    split
    · next r hr => rw [hr] at hfill; exact hfill
    · next r hr => rw [hr] at hfill; exact hfill
  unfold State.l1Load
  dsimp only
  split
  · split
    · exact .refl s c
    · exact hgo _ _
  · exact hgo _ _

/-- A load for a thread that does not acquire. -/
theorem KeepsPlaces.loadBytes (s : State) (c pd : Nat) (t : Trans) (n : Nat) : KeepsPlaces s (s.loadBytes c pd t n false).1 c := by
  unfold State.loadBytes
  split
  · split
    · exact ⟨rfl, fun _ => rfl⟩
    · exact .refl s c
  · split
    · exact ((Quiet.settle s c).trans (Quiet.readAt _ _ _ _ _)).keepsPlaces c
    · exact KeepsPlaces.l1Load s c pd t n

theorem KeepsPlaces.readEntries (s : State) (x : Ctx) : KeepsPlaces s (s.readEntries x).1 x.core := by
  unfold State.readEntries
  have key : ∀ (ls : List (Nat × BitVec 64)) (r : State × Nat × List (Nat × BitVec 64)), KeepsPlaces s r.1 x.core →
      KeepsPlaces s (ls.foldl (fun r a =>
        match r.1.lookup x.core x.pd a.2 accLoad with
        | some (.ok tr) =>
          let q := r.1.loadBytes x.core x.pd tr 8 false
          (q.1, max r.2.1 q.2.1, r.2.2 ++ [(a.1, BitVec.ofNat 64 (ofBytes q.2.2))])
        | _ => r) r).1 x.core := by
    intro ls
    induction ls with
    | nil => intro r h; exact h
    | cons a ls ih =>
      intro r h
      refine ih _ ?_
      dsimp only
      split
      · exact h.trans (KeepsPlaces.loadBytes _ _ _ _ _)
      · exact h
  exact key _ _ (.refl s _)

/-! ## Lanes that return -/

/-- The groups of lanes that return to a common address, the lowest lane's first. -/
def Ctx.returnGroups (x : Ctx) (r : List (Nat × BitVec 64)) : List (BitVec 64 × Word) :=
  groupsBy (fun l => stackPc (x.topEntry r l))
    (((lanesOf x.lanes).filter fun l => (x.b.thread l).depth != 0).filter fun l => !(x.topEntry r l).getLsbD 0)

/-- A thread that pops its entry. -/
def Ctx.pops (x : Ctx) (r : List (Nat × BitVec 64)) (l : Nat) (y : Thread) : Thread :=
  { y with depth := (x.b.thread l).depth - 1, pc := stackPc (x.topEntry r l), base := stackPc (x.topEntry r l)
           hold := if (x.topEntry r l).getLsbD 0 then .vcall else .none }

/-- An entry whose running lanes are a group, in no clause. -/
def Entry.returns (g : Word) (e : Entry) : Entry := { e with lanes := g, ctx := none }

/-- The lanes that pop their entries, each group of them in an entry of its own; those at depth 0 stay with the first. -/
def State.returns (t : State) (x : Ctx) (r : List (Nat × BitVec 64)) : State :=
  let t := t.updThreads x.core x.slot (maskOf ((lanesOf x.lanes).filter fun l => (x.b.thread l).depth != 0)) (x.pops r)
  let t := t.updEntry x.core x.e (Entry.returns (((x.returnGroups r).headD (0, 0)).2 |||
    maskOf ((lanesOf x.lanes).filter fun l => (x.b.thread l).depth == 0)))
  ((x.returnGroups r).drop 1).foldl (fun t g => (t.takeEntry x.core x.slot x.e g.2 .ready .none).1) t

theorem execRet_eq (d : BitVec 2) (s : State) : exec (.ret d) s = issue (.ret d) (shapeS d []) (fun x t =>
    match t.spillFault x x.popSpills accLoad with
    | some r => r
    | none =>
      if (t.readEntries x).2.1 != 0 then .trap 0x0C (t.readEntries x).2.1 ((x.popSpills.headD (0, 0)).2) else
      .ok (((if ((lanesOf x.lanes).filter fun l => (x.b.thread l).depth == 0).isEmpty then (t.readEntries x).1.returns x (t.readEntries x).2.2
        else ((t.readEntries x).1.returns x (t.readEntries x).2.2).exitLanes x.core x.e
          (maskOf ((lanesOf x.lanes).filter fun l => (x.b.thread l).depth == 0)) true).releaseCalls x.core x.slot x.e).rebalance x.core x.e)) s :=
  rfl

/-- A ready sub-band with lanes keeps them when another group takes an entry, and no thread differs but for its mark. -/
structure Beside (w t : State) (c slot e : Nat) : Prop where
  entry : ∃ f f', mapGet (w.core c).table e = some f ∧ mapGet (t.core c).table e = some f' ∧ f'.lanes = f.lanes ∧ f'.wait = f.wait
  placed : (mapGet (t.core c).bands slot).isSome = (mapGet (w.core c).bands slot).isSome
  threads : ∀ l, (((t.core c).band slot).thread l).unmarked = (((w.core c).band slot).thread l).unmarked

theorem takeEntry_beside {w : State} {c slot e : Nat} (g : Word) {f : Entry} (hf : mapGet (w.core c).table e = some f)
    (hl : f.lanes ≠ 0) (hw : f.wait = .ready) (hp : (mapGet (w.core c).bands slot).isSome = true) :
    Beside w (w.takeEntry c slot e g .ready .none).1 c slot e := by
  by_cases hg : g = 0
  · have hsame : (w.takeEntry c slot e g .ready .none).1 = w := by rw [State.takeEntry, if_pos hg]
    rw [hsame]
    exact ⟨⟨f, f, hf, hf, rfl, rfl⟩, rfl, fun _ => rfl⟩
  cases hn : (w.core c).freeEntry with
  | some n =>
    have hne : e ≠ n := by
      rintro rfl
      rw [freeEntry_get hn] at hf
      cases hf
    rw [State.takeEntry_free hf hl hg hn]
    refine ⟨⟨f, f, hf, ?_, rfl, rfl⟩, by rw [State.core_updCore_self], fun l => by rw [State.core_updCore_self]; rfl⟩
    rw [State.core_updCore_self, mapGet_mapSet_ne _ _ hne]
    exact hf
  | none =>
    rw [State.takeEntry_defer hf hl hg (by rw [hw]; rfl) hn]
    have htable : (mapGet (((w.updThreads c slot g fun _ t => { t with mark := .none }).updEntry c e fun e =>
        { e with defer := e.defer ||| g }).core c).table e).isSome = true := by
      rw [State.tabled_updEntry, State.tabled_updThreads, hf]; rfl
    refine ⟨⟨f, _, hf, Core.get_entry htable, ?_, ?_⟩, ?_, fun l => ?_⟩
    · rw [State.entry_updEntry_self _ _ _ _ (by rw [State.tabled_updThreads, hf]; rfl), State.updThreads, State.entry_updBand,
        Core.entry_of hf]
    · rw [State.entry_updEntry_self _ _ _ _ (by rw [State.tabled_updThreads, hf]; rfl), State.updThreads, State.entry_updBand,
        Core.entry_of hf]
    · rw [State.placed_updEntry, State.placed_updThreads]
    · rw [State.band_updEntry, State.updThreads, State.band_updBand_self _ _ _ _ hp, Band.thread_updThreads]
      split <;> rfl

theorem foldl_beside {c slot e : Nat} (gs : List (BitVec 64 × Word)) : ∀ {w : State} {f : Entry}, mapGet (w.core c).table e = some f →
    f.lanes ≠ 0 → f.wait = .ready → (mapGet (w.core c).bands slot).isSome = true →
    Beside w (gs.foldl (fun t g => (t.takeEntry c slot e g.2 .ready .none).1) w) c slot e := by
  induction gs with
  | nil => intro w f hf _ _ _; exact ⟨⟨f, f, hf, hf, rfl, rfl⟩, rfl, fun _ => rfl⟩
  | cons g gs ih =>
    intro w f hf hl hw hp
    obtain ⟨⟨f₁, f', hf₁, hf', hlanes, hwait⟩, hplaced, hthreads⟩ := takeEntry_beside (slot := slot) g.2 hf hl hw hp
    cases hf.symm.trans hf₁
    obtain ⟨⟨f₂, f'', hf₂, hf'', hlanes', hwait'⟩, hplaced', hthreads'⟩ :=
      ih hf' (by rw [hlanes]; exact hl) (hwait.trans hw) (hplaced.trans hp)
    cases hf'.symm.trans hf₂
    exact ⟨⟨f, f'', hf, hf'', hlanes'.trans hlanes, hwait'.trans hwait⟩, hplaced'.trans hplaced,
      fun l => (hthreads' l).trans (hthreads l)⟩

/-- The lanes of a sub-band that have an entry to pop. -/
theorem mem_returning {x : Ctx} {l : Nat} :
    l ∈ lanesOf (maskOf ((lanesOf x.lanes).filter fun l => (x.b.thread l).depth != 0)) ↔ l ∈ lanesOf x.lanes ∧ (x.b.thread l).depth ≠ 0 := by
  rw [mem_lanesOf_filter, bne_iff_ne]

/-- The lanes of the first group that returns. -/
theorem returnGroups_first (x : Ctx) (r : List (Nat × BitVec 64)) {a : Nat}
    (ha : (((lanesOf x.lanes).filter fun l => (x.b.thread l).depth != 0).filter fun l => !(x.topEntry r l).getLsbD 0).head? = some a) :
    ((x.returnGroups r).headD (0, 0)).2 ≠ 0 := by
  have hmem := List.mem_of_mem_head? ha
  rw [Ctx.returnGroups, (groupsBy_head _ ha).1, ← lanesOf_ne_nil]
  refine List.ne_nil_of_mem (a := a) ((mem_lanesOf_maskOf fun l hl => ?_).2 (List.mem_filter.2 ⟨hmem, by simp⟩))
  exact lanesOf_lt (List.mem_of_mem_filter (List.mem_of_mem_filter (List.mem_of_mem_filter hl)))

section
variable {t : State} {x : Ctx} {z : Entry} (r : List (Nat × BitVec 64))
variable (hz : mapGet (t.core x.core).table x.e = some z)

include hz in
theorem returns_moved (hs : z.slot = x.slot) : Moved t x.core x.slot (t.returns x r) := by
  have howns : t.owns x.core x.slot x.e := fun y hy => by rw [hz] at hy; cases hy; exact hs
  have hthreads := Moved.updThreads t x.core x.slot (maskOf ((lanesOf x.lanes).filter fun l => (x.b.thread l).depth != 0)) (x.pops r)
    fun _ _ => rfl
  have hentry := hthreads.trans (.updEntry _ x.core x.slot x.e (Entry.returns (((x.returnGroups r).headD (0, 0)).2 |||
    maskOf ((lanesOf x.lanes).filter fun l => (x.b.thread l).depth == 0))) (hthreads.owns _ howns) fun _ => rfl)
  exact hentry.trans (.foldl _ _ _ _ _ fun w hw g _ => .takeEntry w x.core x.slot x.e _ _ _ (hw.owns _ (hentry.owns _ howns)))

include hz in
/-- What the lanes that pop leave of their band and of their entry. -/
theorem returns_parts (hw : z.wait = .ready) (hp : (mapGet (t.core x.core).bands x.slot).isSome = true) :
    (∀ l, (((t.returns x r).core x.core).band x.slot |>.thread l).unmarked =
      if l ∈ lanesOf x.lanes ∧ (x.b.thread l).depth ≠ 0 then (x.pops r l (((t.core x.core).band x.slot).thread l)).unmarked
      else (((t.core x.core).band x.slot).thread l).unmarked) ∧
    ∃ f, mapGet ((t.returns x r).core x.core).table x.e = some f ∧ f.lanes = ((x.returnGroups r).headD (0, 0)).2 |||
      maskOf ((lanesOf x.lanes).filter fun l => (x.b.thread l).depth == 0) := by
  set w := (t.updThreads x.core x.slot (maskOf ((lanesOf x.lanes).filter fun l => (x.b.thread l).depth != 0)) (x.pops r)).updEntry
    x.core x.e (Entry.returns (((x.returnGroups r).headD (0, 0)).2 ||| maskOf ((lanesOf x.lanes).filter fun l => (x.b.thread l).depth == 0)))
    with hw0
  have hwz : mapGet (w.core x.core).table x.e = some (Entry.returns (((x.returnGroups r).headD (0, 0)).2 |||
      maskOf ((lanesOf x.lanes).filter fun l => (x.b.thread l).depth == 0)) z) := by
    rw [Core.get_entry (by rw [hw0, State.tabled_updEntry, State.tabled_updThreads, hz]; rfl), hw0, State.entry_updEntry_self _ _ _ _
      (by rw [State.tabled_updThreads, hz]; rfl), State.updThreads, State.entry_updBand, Core.entry_of hz]
  have hwthreads : ∀ l, (((w.core x.core).band x.slot).thread l).unmarked =
      if l ∈ lanesOf x.lanes ∧ (x.b.thread l).depth ≠ 0 then (x.pops r l (((t.core x.core).band x.slot).thread l)).unmarked
      else (((t.core x.core).band x.slot).thread l).unmarked := fun l => by
    rw [hw0, State.band_updEntry, State.updThreads, State.band_updBand_self _ _ _ _ hp, Band.thread_updThreads]
    simp only [mem_returning]
    split <;> rfl
  have hfold : t.returns x r = ((x.returnGroups r).drop 1).foldl (fun t g => (t.takeEntry x.core x.slot x.e g.2 .ready .none).1) w := rfl
  rw [hfold]
  cases hh : (((lanesOf x.lanes).filter fun l => (x.b.thread l).depth != 0).filter fun l => !(x.topEntry r l).getLsbD 0).head? with
  | none =>
    have hnone : x.returnGroups r = [] := by rw [Ctx.returnGroups, List.head?_eq_none_iff.1 hh]; rfl
    rw [hnone] at hwz ⊢
    exact ⟨hwthreads, _, hwz, rfl⟩
  | some a =>
    have hlanes : ((x.returnGroups r).headD (0, 0)).2 ||| maskOf ((lanesOf x.lanes).filter fun l => (x.b.thread l).depth == 0) ≠ 0 := fun h =>
      returnGroups_first x r hh (word_ext fun l => by
        have hl := mem_lanesOf_or (a := ((x.returnGroups r).headD (0, 0)).2)
          (b := maskOf ((lanesOf x.lanes).filter fun l => (x.b.thread l).depth == 0)) (l := l)
        rw [h] at hl
        exact ⟨fun hm => hl.2 (.inl hm), fun hm => absurd (mem_lanesOf.1 hm) (by simp)⟩)
    obtain ⟨⟨f, f', hf, hf', hsame, -⟩, -, hthreads⟩ := foldl_beside ((x.returnGroups r).drop 1) hwz hlanes hw
      (by rw [hw0, State.placed_updEntry, State.placed_updThreads]; exact hp) (slot := x.slot)
    cases hwz.symm.trans hf
    exact ⟨fun l => (hthreads l).trans (hwthreads l), f', hf', hsame⟩

end

theorem KeepsStorage.returns (s : State) (x : Ctx) (r : List (Nat × BitVec 64)) : KeepsStorage s (s.returns x r) :=
  .foldl (.updEntry (.updThreads (.refl s) fun _ _ h => h)) fun _ _ h => .takeEntry h

theorem filter_all {ls : List Nat} {p : Nat → Bool} (h : ∀ l ∈ ls, p l = true) : ls.filter p = ls := List.filter_eq_self.2 h

/-- Settles O30: the entries read, then a machine check, or the lanes that pop (`returns_parts`) and those that exit. -/
theorem return_ : Obligations.Return := by
  intro s u d i q x r hi hq hx h hready hr hs
  have hst := State.stands_of_issues h
  obtain ⟨hslot, -, -, hwait, -⟩ := State.passed_entry i q hst
  have hxc : x.core = u.core := by rw [hx, State.seen_core]
  have hxs : x.slot = u.slot := by rw [hx, State.seen_slot]
  have hxe : x.e = u.entry := by rw [hx, State.seen_e]
  have hread := KeepsPlaces.readEntries (s.passed u i q) x
  rw [← hr, hxc] at hread
  have hz : mapGet (r.1.core x.core).table x.e = some (((s.passed u i q).core u.core).entry u.entry) := by
    rw [hxc, hxe, hread.table]; exact Core.get_entry (State.tabled_of_issues h)
  have hp : (mapGet (r.1.core x.core).bands x.slot).isSome = true := by
    rw [hxc, hxs, hread.placed]; exact State.placed_of_issues h
  have hmoved := returns_moved r.2.2 hz (hslot.trans hxs.symm)
  have howns := hmoved.owns _ fun y hy => by rw [hz] at hy; cases hy; exact hslot.trans hxs.symm
  obtain ⟨hthreads, f, hf, hlanes⟩ := returns_parts r.2.2 hz (hwait.trans hready) hp
  have hexec : r.2.1 = 0 → exec i s = .next (((if ((lanesOf x.lanes).filter fun l => (x.b.thread l).depth == 0).isEmpty then
      r.1.returns x r.2.2 else (r.1.returns x r.2.2).exitLanes x.core x.e (maskOf ((lanesOf x.lanes).filter fun l =>
        (x.b.thread l).depth == 0)) true).releaseCalls x.core x.slot x.e).rebalance x.core x.e) := fun hok => by
    subst hi hq
    rw [execRet_eq]
    refine issue_ok h _ ?_
    rw [← hx, hs]
    dsimp only
    rw [← hr, hok]
    rfl
  refine ⟨fun hbad => ?machineCheck, fun hok hall => ?returns, fun hok => ?exits⟩
  case machineCheck =>
    subst hi hq
    rw [execRet_eq, hx]
    refine issue_trap h _ ?_
    rw [← hx, hs]
    dsimp only
    rw [← hr, if_pos (bne_iff_ne.2 hbad)]
  case returns =>
    have hnoEnds : ((lanesOf x.lanes).filter fun l => (x.b.thread l).depth == 0) = [] :=
      List.filter_eq_nil_iff.2 fun l hl => by simp [hall l hl]
    have hcalls := hmoved.trans (.releaseCalls _ x.core x.slot x.e howns)
    have hrest := hcalls.trans (.rebalance _ x.core x.slot x.e (hcalls.owns _ fun y hy => by
      rw [hz] at hy; cases hy; exact hslot.trans hxs.symm))
    have hnext := hexec hok
    rw [hnoEnds] at hnext hlanes
    rw [if_pos List.isEmpty_nil] at hnext
    rw [hxc, hxs] at hmoved hrest
    rw [hxc, hxs, hxe] at hnext
    rw [hxe] at hrest
    refine ⟨r.1.returns x r.2.2, _, hnext, rfl, hmoved.moves, hrest.moves, fun l => ?_, ?_⟩
    · rw [← hxc, ← hxs, hthreads l]
      by_cases hl : l ∈ lanesOf x.lanes
      · rw [if_pos ⟨hl, hall l hl⟩, if_pos hl]; rfl
      · rw [if_neg fun hn => hl hn.1, if_neg hl]
    · rw [← hxc, ← hxe, Core.entry_of hf, hlanes, Ctx.returnGroups, filter_all fun l hl => bne_iff_ne.2 (hall l hl)]
      cases hfree : (lanesOf x.lanes).filter fun l => !(x.topEntry r.2.2 l).getLsbD 0 with
      | nil => exact BitVec.or_self
      | cons a rest =>
        rw [(groupsBy_head _ rfl).1]
        exact BitVec.or_zero
  case exits =>
    refine ⟨_, hexec hok, ?_, fun l hl hdepth => ?_⟩
    · exact .rebalance (.releaseCalls (.ite (.returns _ x _) (.exitLanes (.returns _ x _))))
    · have hends : l ∈ (lanesOf x.lanes).filter fun l => (x.b.thread l).depth == 0 := List.mem_filter.2 ⟨hl, beq_iff_eq.2 hdepth⟩
      rw [if_neg fun hn => List.ne_nil_of_mem hends (List.isEmpty_iff.1 hn)]
      have hexit := State.exited_exitLanes (r.1.returns x r.2.2) x.core x.e _ true l
        ((mem_lanesOf_maskOf fun m hm => lanesOf_lt (List.mem_of_mem_filter hm)).2 hends)
      rw [State.slot_of_owns howns hf] at hexit
      rw [← hxc, ← hxs]
      exact (KeepsStorage.rebalance (.releaseCalls (.refl _))).exited _ _ _ hexit

/-! ## `yield` -/

/-- A thread that yields. -/
def Thread.yields (y : Thread) : Thread := { y with mark := .yielded }

/-- An entry whose running lanes are deferred. -/
def Entry.defers (g : Word) (e : Entry) : Entry := { e with lanes := 0, defer := e.defer ||| g }

/-- The state of a `yield` before the turn goes on. -/
def State.yields (t : State) (x : Ctx) : State :=
  if (t.core x.core).resumable ((t.core x.core).entry x.e) = 0 then t else
    let w := t.updThreads x.core x.slot x.lanes fun _ => Thread.yields
    (w.updEntry x.core x.e (Entry.defers x.lanes)).resumeLanes x.core x.e ((w.core x.core).resumeGroup ((w.core x.core).entry x.e))

/-- A band whose turn is a given lane's. -/
def Band.turnTo (n : Option Nat) (b : Band) : Band := { b with turn := n }

theorem turnTo_moved (s : State) (c slot : Nat) (n : Option Nat) : Moved s c slot (s.updBand c slot (Band.turnTo n)) :=
  .updBand s c slot _ (fun _ => rfl) fun _ _ => rfl

theorem execYield_eq (d : BitVec 2) (s : State) : exec (.yield d) s = issue (.yield d) (shapeS d []) (fun x t =>
    .ok ((t.yields x).updBand x.core x.slot
      (Band.turnTo (((t.yields x).core x.core).nextTurn x.slot ((lowestLane x.lanes).getD 0))))) s := rfl

section
variable {t : State} {x : Ctx} {z : Entry}
variable (hz : mapGet (t.core x.core).table x.e = some z) (hs : z.slot = x.slot)

include hz hs in
theorem yields_moved : Moved t x.core x.slot (t.yields x) := by
  have howns : t.owns x.core x.slot x.e := fun y hy => by rw [hz] at hy; cases hy; exact hs
  unfold State.yields
  dsimp only
  split
  · exact .refl _ _ _
  · have hthreads := Moved.updThreads t x.core x.slot x.lanes (fun _ => Thread.yields) fun _ _ => rfl
    have hentry := hthreads.trans (.updEntry _ x.core x.slot x.e (Entry.defers x.lanes) (hthreads.owns _ howns) fun _ => rfl)
    refine hentry.trans (.resumeLanes _ x.core x.slot x.e _ (State.slot_of_owns (hentry.owns _ howns) (Core.get_entry ?_)))
    rw [State.tabled_updEntry, State.tabled_updThreads, hz]; rfl

include hz hs in
/-- The lanes deferred, and the group of R76 that runs in their place. -/
theorem yields_parts (hp : (mapGet (t.core x.core).bands x.slot).isSome = true) (hr : (t.core x.core).resumable z ≠ 0) :
    let b := ((t.core x.core).band x.slot).updThreads x.lanes fun _ => Thread.yields
    let g := ((t.core x.core).updBand x.slot fun _ => b).resumeGroup z
    ((t.yields x).core x.core).entry x.e =
      { z with lanes := g, defer := (z.defer ||| x.lanes) &&& ~~~g, wait := .ready, ctx := none, age := 0 } ∧
    ∀ l, (((t.yields x).core x.core).band x.slot).thread l = if l ∈ lanesOf g then (b.thread l).unmarked else b.thread l := by
  intro b g
  set w := t.updThreads x.core x.slot x.lanes fun _ => Thread.yields with hw
  have hwband : (w.core x.core).band x.slot = b := by rw [hw, State.updThreads, State.band_updBand_self _ _ _ _ hp]
  have hwentry : (w.core x.core).entry x.e = z := by rw [hw, State.updThreads, State.entry_updBand, Core.entry_of hz]
  have hg : (w.core x.core).resumeGroup z = g := by
    refine Core.resumeGroup_congr _ _ z ?_
    rw [hs, hwband, Core.band_updBand, if_pos ⟨rfl, hp⟩]
  have hyields : t.yields x = (w.updEntry x.core x.e (Entry.defers x.lanes)).resumeLanes x.core x.e g := by
    rw [← hg, State.yields, Core.entry_of hz, if_neg hr, ← hw]
    dsimp only
    rw [hwentry]
  have htable : mapGet ((w.updEntry x.core x.e (Entry.defers x.lanes)).core x.core).table x.e = some (Entry.defers x.lanes z) := by
    rw [Core.get_entry (by rw [State.tabled_updEntry, hw, State.tabled_updThreads, hz]; rfl), State.entry_updEntry_self _ _ _ _
      (by rw [hw, State.tabled_updThreads, hz]; rfl), hwentry]
  obtain ⟨hentry, hthreads⟩ := State.resumeLanes_spec g htable hs (by rw [State.placed_updEntry, hw, State.placed_updThreads, hp])
  rw [hyields]
  refine ⟨hentry, fun l => ?_⟩
  rw [hthreads l, State.band_updEntry, hwband]

end

/-- Settles O31: `yields` by whether a deferred lane may resume. -/
theorem yield : Obligations.Yield := by
  intro s u d i q x m hi hq hx h hm
  have hst := State.stands_of_issues h
  have hslot := (State.passed_entry i q hst).1
  have hxc : x.core = u.core := by rw [hx, State.seen_core]
  have hxs : x.slot = u.slot := by rw [hx, State.seen_slot]
  have hxe : x.e = u.entry := by rw [hx, State.seen_e]
  have hz : mapGet (m.core x.core).table x.e = some ((m.core u.core).entry u.entry) := by
    rw [hxc, hxe, hm]; exact Core.get_entry (State.tabled_of_issues h)
  have hs : ((m.core u.core).entry u.entry).slot = x.slot := by rw [hm, hxs]; exact hslot
  have hp : (mapGet (m.core x.core).bands x.slot).isSome = true := by rw [hxc, hxs, hm]; exact State.placed_of_issues h
  have hmoved := (yields_moved hz hs).trans (turnTo_moved _ x.core x.slot
    (((m.yields x).core x.core).nextTurn x.slot ((lowestLane x.lanes).getD 0)))
  rw [hxc, hxs] at hmoved
  refine ⟨m.yields x, _, ?exec, hmoved.moves, rfl, ?parts⟩
  case exec =>
    subst hi hq
    rw [execYield_eq]
    exact issue_ok h _ (by rw [← hx, ← hm, hxc, hxs])
  case parts =>
    dsimp only
    by_cases hr : (m.core u.core).resumable ((m.core u.core).entry u.entry) = 0
    · rw [if_pos hr, State.yields, Core.entry_of hz, hxc, if_pos hr]
    · rw [if_neg hr]
      obtain ⟨hentry, hthreads⟩ := yields_parts hz hs hp (by rw [hxc]; exact hr)
      rw [hxc, hxs, hxe] at hentry
      rw [hxc, hxs] at hthreads
      exact ⟨_, rfl, hentry, hthreads⟩

end Sys2Proof.Machine
end

section
/-! PROOFS. Clause headers (R50, R55, R56), ends of threads, phases and system registers (R294 to R312). -/

namespace Sys2Proof.Machine

/-! ## Clause headers -/

theorem touchLine_core (s : State) (c pd : Nat) (pc : BitVec 64) (d : Nat) :
    { (s.touchLine c pd pc).core d with ibuf := [] } = { s.core d with ibuf := [] } := by
  rw [State.touchLine, State.core_updCore]
  split <;> rfl

/-- The state with the lines of a clause used last. -/
def State.touched (s : State) (u : Cursor) (base : BitVec 64) (ws : List (BitVec 64 × Word × Word)) : State :=
  (s.touchLine u.core (s.pdOf u.core u.slot) base).touchLine u.core (s.pdOf u.core u.slot) (ws.getLastD (base, 0, 0)).1

theorem touched_core (s : State) (u : Cursor) (base : BitVec 64) (ws : List (BitVec 64 × Word × Word)) (d : Nat) :
    { (s.touched u base ws).core d with ibuf := [] } = { s.core d with ibuf := [] } :=
  (touchLine_core _ _ _ _ d).trans (touchLine_core _ _ _ _ d)

theorem touched_parts (s : State) (u : Cursor) (base : BitVec 64) (ws : List (BitVec 64 × Word × Word)) (d : Nat) :
    ((s.touched u base ws).core d).table = (s.core d).table ∧ ((s.touched u base ws).core d).bands = (s.core d).bands := by
  have h := touched_core s u base ws d
  have htable := congrArg Core.table h
  have hbands := congrArg Core.bands h
  exact ⟨htable, hbands⟩

/-- A header whose clause is all there enters it, or is a trap. -/
theorem enterClause_eq {s : State} {u : Cursor} {w : BitVec 12} {a b : BitVec 4} {p : BitVec 3} {neg : Bool} {n : Nat} {th : Thread}
    {f : BitVec 64 × Word × Word} {fs : List (BitVec 64 × Word × Word)}
    (hth : th = ((s.core u.core).band u.slot).thread ((lowestLane ((s.core u.core).entry u.entry).lanes).getD 0))
    (hws : clauseWords (fun a => (s.core u.core).codeWord (s.pdOf u.core u.slot) a false) (n + 1) (th.base + 4) = .ok (f :: fs))
    (hpc : th.pc = th.base) : s.enterClause u w a b p neg n =
      let is := (f :: fs).map fun w => instrOf w.2.1 w.2.2
      if ((s.core u.core).band u.slot).headerOk a b (is.filter (·.memClass)).length (is.filter (·.longClass)).length then
        ((s.touched u th.base (f :: fs)).updThreads u.core u.slot ((s.core u.core).entry u.entry).lanes fun _ t =>
          { t with pc := f.1, base := th.base }).updEntry u.core u.entry fun e =>
          { e with ctx := some ⟨w, a, b, p, neg, (f :: fs).length, false, false⟩ }
      else (s.touched u th.base (f :: fs)).takeTrap u.core u.slot 0x02 0 (some u.entry) th.base ((s.core u.core).entry u.entry).lanes
        th.base := by
  subst hth
  unfold State.enterClause
  dsimp only
  rw [hws]
  dsimp only
  rw [if_pos hpc]
  dsimp only
  rw [if_pos hpc]
  rfl

/-- Settles O32: `enterClause` by the check of the header. -/
theorem clauseHeaders : Obligations.ClauseHeaders := by
  intro s u w a b p n c th ws y z is hst hy hz hth hws hne hpc his
  subst hy hz his
  obtain ⟨hcur, hplaced, htabled, hslot, -, -⟩ := State.stands_parts hst
  obtain ⟨f, fs, rfl⟩ := List.exists_cons_of_ne_nil hne
  have hexec : exec (.clause w a b p n c) s = .next (s.enterClause u w a b p n c.toNat) := by
    change execClause w a b p n c s = _
    rw [execClause, hcur]
  obtain ⟨htable, hbands⟩ := touched_parts s u th.base (f :: fs) u.core
  have hentry : ((s.touched u th.base (f :: fs)).core u.core).entry u.entry = (s.core u.core).entry u.entry := by
    rw [Core.entry, htable]; rfl
  have hband : ((s.touched u th.base (f :: fs)).core u.core).band u.slot = (s.core u.core).band u.slot := by rw [Core.band, hbands]; rfl
  refine ⟨s.touched u th.base (f :: fs), _, hexec, touched_core s u th.base (f :: fs), rfl, ?_⟩
  rw [enterClause_eq hth hws hpc]
  dsimp only
  split
  · have hmoved := Moved.threadsEntry (s.touched u th.base (f :: fs)) u.core u.slot ((s.core u.core).entry u.entry).lanes
      (fun _ t => { t with pc := f.1, base := th.base }) u.entry
      (fun e => { e with ctx := some ⟨w, a, b, p, n, (f :: fs).length, false, false⟩ }) (fun _ _ => rfl)
      (State.owns_of_slot (by rw [hentry, hslot])) fun _ => rfl
    refine ⟨hmoved.moves, ?_, fun l => ?_⟩
    · rw [State.entry_updEntry_self _ _ _ _ (by rw [State.tabled_updThreads, htable]; exact htabled), State.updThreads, State.entry_updBand,
        hentry]
    · rw [State.band_updEntry, State.updThreads, State.band_updBand_self _ _ _ _ (by rw [hbands]; exact hplaced), hband,
        Band.thread_updThreads]
      rfl
  · exact State.traps _ _ _ _ _ _ _ _ _ (by rw [hbands]; exact hplaced)

end Sys2Proof.Machine
end

section
/-! PROOFS. Ends of threads (R94, R294, R295, R309), phases (R296) and system registers (R302, R310 to R312). -/

namespace Sys2Proof.Machine

/-! ## Ends of threads -/

/-- A band that may or may not be halted by an exit of its threads. -/
def Band.haltedIf (halt : Bool) (b : Band) : Band := { b with halted := b.halted || halt }

theorem exitBand_keeps (m : State) (c slot : Nat) (rel halt : Bool) :
    KeepsStorage (m.updBand c slot (Band.haltedIf halt)) (m.exitBand c slot rel halt) :=
  KeepsStorage.exitBand (.refl _)

theorem haltedIf_false (m : State) (c slot : Nat) : KeepsStorage m (m.updBand c slot (Band.haltedIf false)) :=
  KeepsStorage.inBand (.refl m) fun _ => ⟨rfl, rfl, rfl, Bool.or_false _, rfl⟩

theorem haltedIf_true : Band.haltedIf true = fun b => { b with halted := true } := by
  funext b
  simp [Band.haltedIf]

theorem State.entry_updTask (s : State) (c n : Nat) (f : Task → Task) (d e : Nat) :
    ((s.updTask c n f).core d).entry e = (s.core d).entry e :=
  State.part_updTask (·.entry e) (fun _ _ => rfl) s c n f d

theorem State.task_updEntry (s : State) (c e : Nat) (f : Entry → Entry) (d n : Nat) :
    ((s.updEntry c e f).core d).task n = (s.core d).task n :=
  State.part_updEntry (·.task n) (fun _ _ => rfl) s c e f d

/-- Settles O33: what keeps the storage, and which threads have exited, of `exitLanes` and `exitBand`. -/
theorem exits : Obligations.Exits := by
  intro s u d i q x m hx h hm
  have hst := State.stands_of_issues h
  obtain ⟨hcur, hplaced, htabled, hslot, -, -⟩ := State.stands_parts hst
  have hxc : x.core = u.core := by rw [hx, State.seen_core]
  have hxs : x.slot = u.slot := by rw [hx, State.seen_slot]
  have hxe : x.e = u.entry := by rw [hx, State.seen_e]
  have hentry : ((m.core u.core).entry u.entry).slot = u.slot := by rw [hm]; exact (State.passed_entry i q hst).1
  have hmplaced : (mapGet (m.core u.core).bands u.slot).isSome = true := by rw [hm, State.placed_passed]; exact hplaced
  refine ⟨?_, ?_⟩
  · rintro rfl rfl hkeep
    refine ⟨m.exitLanes u.core u.entry x.lanes true, issue_ok h _ ?_, (KeepsStorage.refl m).exitLanes, fun l hl => ?_⟩
    · rw [← hx, ← hm, if_neg (by rw [hkeep]; exact Bool.false_ne_true), hxc, hxe]
    · have := State.exited_exitLanes m u.core u.entry x.lanes true l hl
      rwa [hentry] at this
  · intro hwhole hkeep
    have hwholeSlot : ((m.core u.core).entry (256 + u.slot)).slot = u.slot := by rw [← hwhole]; exact hentry
    refine ⟨?_, ?_, ?_⟩
    · rintro rfl rfl
      refine ⟨m.exitBand u.core u.slot true false, issue_ok h _ ?_, (haltedIf_false m _ _).trans (exitBand_keeps m _ _ _ _),
        State.exited_exitBand m _ _ _ _ hwholeSlot⟩
      rw [← hx, ← hm, if_pos hkeep, hxc, hxs]
    · rintro sn rfl rfl htask
      have hkeeps : KeepsStorage (m.updTask u.core x.t fun y => { y with succ := some (x.s64 sn) })
          ((m.updTask u.core x.t fun y => { y with succ := some (x.s64 sn) }).exitBand u.core u.slot true false) :=
        (haltedIf_false _ _ _).trans (exitBand_keeps _ _ _ _ _)
      refine ⟨_, issue_ok h _ ?_, hkeeps, ?_, State.exited_exitBand _ _ _ _ _ ?_⟩
      · rw [← hx, ← hm, hxc, hxs]
      · rw [hkeeps.succ, State.task_updTask_self _ _ _ _ (by rw [hm, State.hasTask_passed]; exact htask)]
      · rw [State.entry_updTask]
        exact hwholeSlot
    · rintro rfl rfl
      have hkeeps := exitBand_keeps m u.core u.slot false true
      rw [haltedIf_true] at hkeeps
      refine ⟨_, issue_ok h _ ?_, hkeeps, ?_, State.exited_exitBand _ _ _ _ _ hwholeSlot⟩
      · rw [← hx, ← hm, hxc, hxs]
      · rw [(hkeeps.banks _ _).2.2.2, State.band_updBand_self _ _ _ _ hmplaced]

/-! ## System registers read -/

/-- Settles O34: both write uniform registers, `sysTable` gives the values. -/
theorem systemReads : Obligations.SystemReads := by
  intro s u d sn i q x hx h
  refine ⟨?_, ?_, sysTable x u.core (by rw [hx, State.seen_core])⟩
  · rintro rfl rfl
    subst hx
    exact issue_toS h sn fun x => x.gen.setWidth 32
  · rintro n v rfl rfl rfl
    subst hx
    rw [← lo32_setWidth]
    change ∃ t, execRsys d sn n s = _ ∧ _
    unfold execRsys
    rcases hw : sysWide n with - | - | -
    · exact issue_toS h sn fun x => lo32 (x.sysValue n)
    · exact issue_toS h sn fun x => lo32 (x.sysValue n)
    · exact issue_toS64 h sn fun x => x.sysValue n

/-! ## Phases -/

/-- An arrival's word stands when it is the lowest so far (R296). -/
theorem PhaseEnd.arrive_word (p : PhaseEnd) (index : Nat) (lanes w : Word) :
    if p.arrived = [] ∨ 32 * index + (lowestLane lanes).getD 0 < p.best then
      (p.arrive index lanes w).word = w ∧ (p.arrive index lanes w).best = 32 * index + (lowestLane lanes).getD 0
    else (p.arrive index lanes w).word = p.word ∧ (p.arrive index lanes w).best = p.best := by
  unfold PhaseEnd.arrive
  dsimp only
  generalize 32 * index + (lowestLane lanes).getD 0 = me
  by_cases hfirst : p.arrived = []
  · simp [hfirst]
  · by_cases hbest : me < p.best
    · simp [hfirst, hbest, Nat.min_eq_right (Nat.le_of_lt hbest)]
    · simp [hfirst, hbest, Nat.min_eq_left (Nat.le_of_not_lt hbest)]

theorem seen_task_begun (s : State) (u : Cursor) (i : Instr) (q : Shape) :
    ((s.begun u i q).core u.core).task (s.seen u i q).t = (s.seen u i q).task := by
  rw [State.seen]
  rfl

/-- The state in which a sub-band that has arrived at a phase end waits there. -/
def State.waitsPhase (m : State) (u : Cursor) (t : Nat) (p : PhaseEnd) : State :=
  (m.updTask u.core t fun y => { y with phase := some p }).updEntry u.core u.entry fun e => { e with wait := .phase }

theorem waitsPhase_task (m : State) (u : Cursor) (t : Nat) (p : PhaseEnd) (h : (mapGet (m.core u.core).tasks t).isSome = true) :
    ((m.waitsPhase u t p).core u.core).task t = { (m.core u.core).task t with phase := some p } := by
  rw [State.waitsPhase, State.task_updEntry, State.task_updTask_self _ _ _ _ h]

/-- Settles O35: the traps of `execPhase`, and its arrival. -/
theorem phases : Obligations.Phases := by
  rintro s u d sn _ _ x p rfl rfl hx h hp
  have hst := State.stands_of_issues h
  have hxc : x.core = u.core := by rw [hx, State.seen_core]
  have hxe : x.e = u.entry := by rw [hx, State.seen_e]
  refine ⟨fun hkeep => ?_, fun hkeep hpc => ?_, fun hkeep hpc htask => ?_⟩
  · subst hx
    exact issue_trap h _ (if_pos hkeep)
  · subst hx hp
    exact issue_trap h _ ((if_neg (by rw [hkeep]; exact Bool.false_ne_true)).trans (if_pos (by simpa using hpc)))
  · let p' := p.arrive x.b.index x.lanes (x.s sn)
    let m := s.begun u (.phase d sn) (shapeS d [.s sn.toNat])
    have hwaits := (KeepsAll.updTask m u.core x.t fun y => { y with phase := some p' }).waits hst .phase
    have htaskM : ((m.waitsPhase u x.t p').core u.core).task x.t = { x.task with phase := some p' } := by
      rw [waitsPhase_task m u x.t p' (by rw [State.hasTask_begun]; exact htask), hx, seen_task_begun]
    refine ⟨m.waitsPhase u x.t p', _, p', issue_stay h (g := fun s => (s.waitsPhase u x.t p').tryPhase u.core x.t) _ ?_, rfl, hwaits, htaskM,
      hpc, rfl, p.arrive_word _ _ _, fun hopen => State.tryPhase_open _ _ _ p' (by rw [htaskM]) ?_⟩
    · rw [← hx, if_neg (by rw [hkeep]; exact Bool.false_ne_true), ← hp, if_neg (by simpa using hpc), hxc, hxe]
      rfl
    · rw [htaskM]
      exact hopen

/-! ## System registers written -/

theorem State.task_updTask_ne (s : State) (c : Nat) (f : Task → Task) {t n : Nat} (h : n ≠ t) :
    ((s.updTask c t f).core c).task n = (s.core c).task n := by
  rw [State.updTask, State.core_updCore_self]
  exact mapGetD_mapUpd_ne _ _ _ h

theorem putSys_kvec (t : State) (x : Ctx) (v : BitVec 64) :
    t.putSys x 0x025 v = t.updTask x.core x.t fun y => { y with kvec := v } := rfl

/-- Settles O36: `execWsys` by the test of the value, `putSys` by its registers. -/
theorem systemWrites : Obligations.SystemWrites := by
  rintro s u d sn n _ q x w v rfl hw hq hx h hv
  have hst := State.stands_of_issues h
  have hxc : x.core = u.core := by rw [hx, State.seen_core]
  have hxs : x.slot = u.slot := by rw [hx, State.seen_slot]
  have hval : (if w then x.s64 sn else (x.s sn).setWidth 64) = v := hv.symm
  have hexec : exec (.wsys d sn n) s = issue (.wsys d sn n) q (fun x t =>
      let v := if w then x.s64 sn else (x.s sn).setWidth 64
      if (n == 0x021#12 || n == 0x025#12) && v.toNat % 4 != 0 then .trap 0x05 0 v
      else .ok ((t.putSys x n v).commit x.core x.slot x.now)) s := by
    rw [hq, hw]
    rfl
  have haddress : ((n == 0x021#12 || n == 0x025#12) && v.toNat % 4 != 0) = true ↔ (n = 0x021 ∨ n = 0x025) ∧ v.toNat % 4 ≠ 0 := by simp
  rw [hexec]
  refine ⟨fun hn hal => ?_, fun hok => ?_⟩
  · subst hx
    refine issue_trap h _ ?_
    dsimp only
    rw [hval]
    exact if_pos (haddress.2 ⟨hn, hal⟩)
  · refine ⟨(s.passed u (.wsys d sn n) q).putSys x n v, _, issue_ok h _ ?_, rfl, ?_, ?_, ?_, ?_, ?_, ?_, ?_⟩
    · dsimp only
      rw [← hx, hval, if_neg (mt haddress.1 hok), hxc, hxs]
    all_goals rintro rfl
    · rw [State.putSys, hxc, hxs]; exact changes_band h _
    · rw [State.putSys, hxc, hxs]; exact changes_band h _
    · rw [State.putSys, hxc, hxs]; exact changes_band h _
    · rw [State.putSys, hxc, hxs]; exact changes_band h _
    · rw [State.putSys, hxc, hxs]; exact changes_band h _
    · intro htask
      rw [putSys_kvec, hxc]
      refine ⟨State.task_updTask_self _ _ _ _ (by rw [State.hasTask_passed]; exact htask), fun e he => State.task_updTask_ne _ _ _ he,
        fun c => State.part_updTask (fun k => { k with tasks := [] }) (fun _ _ => rfl) _ _ _ _ c, ?_⟩
      rw [State.outside_updTask, State.outside_passed]
    · obtain ⟨hstale, hsame, hout⟩ := State.ibinv_spec (s.passed u (.wsys d sn 0x014) q) v
      exact ⟨hstale, hout.trans (State.outside_passed _ _ _ _), hsame⟩

end Sys2Proof.Machine
end

section
/-! PROOFS. The return from keep mode (R307), saving and restoring (R314 to R319). -/

namespace Sys2Proof.Machine

/-! ## The return from keep mode -/

/-- A band that leaves keep mode, before lanes resume at its trap. -/
def State.thawed (s : State) (c slot : Nat) : State :=
  (s.updCore c fun k =>
    { k with table := mapAll (mapFilter k.table fun _ e => e.slot != slot || e.frozen) fun _ e =>
        if e.slot = slot then { e with frozen := false } else e }).updBand c slot fun x =>
    { x with keep := false, frozen := [], turn := none
             threads := mapAll x.frozen fun l t => { t with exited := t.exited || (x.thread l).exited, last := (x.thread l).last } }

/-- The same band once the lanes of its trap have resumed. -/
def State.resumed (s : State) (c slot : Nat) : State :=
  match ((s.core c).band slot).ktrap with
  | some e => (s.thawed c slot).resumeTrap c slot e
  | none => s.thawed c slot

theorem leaveKeep_eq (s : State) (c slot : Nat) : s.leaveKeep c slot =
    (((s.resumed c slot).core c).entriesOf slot).foldl (fun s i => s.rebalance c i) (s.resumed c slot) := by
  unfold State.leaveKeep State.resumed
  rfl

/-- What a thread reads once its band has thawed. -/
theorem thread_thawed {z b : Band} (hz : z.threads = mapAll b.frozen fun l t =>
      { t with exited := t.exited || (b.thread l).exited, last := (b.thread l).last }) {l : Nat} {y : Thread}
    (hy : mapGet b.frozen l = some y) : z.thread l = { y with exited := y.exited || (b.thread l).exited, last := (b.thread l).last } := by
  rw [Band.thread, mapGetD, hz, mapGet_mapAll, hy]
  rfl

theorem word_without_none (m : Word) : m &&& ~~~(0 : Word) = m := by
  rw [show ~~~(0 : Word) = BitVec.allOnes 32 from rfl, BitVec.and_allOnes]

/-- Settles O37: `kret` by its cause, `leaveKeep` as the thawed band whose lanes resume and are then placed. -/
theorem keepReturn : Obligations.KeepReturn := by
  refine ⟨?_, ?_⟩
  · rintro s u d _ _ x rfl rfl hx h
    have hxc : x.core = u.core := by rw [hx, State.seen_core]
    have hxs : x.slot = u.slot := by rw [hx, State.seen_slot]
    have hrestore : (x.b.kcause == 0x30E#32 && !x.b.restored) = true ↔ x.b.kcause = 0x30E ∧ x.b.restored = false := by simp
    split
    · next hcause =>
      intro htask
      refine ⟨_, issue_ok h _ ?_, State.ends _ _ _ 6 0 0 (by rw [State.hasTask_passed]; exact htask)⟩
      rw [← hx, if_pos (hrestore.2 hcause), hxc]
    · next hcause =>
      refine issue_ok h _ ?_
      rw [← hx, if_neg (mt hrestore.1 hcause), hxc, hxs]
  · rintro s c slot b k rfl rfl hp howns
    obtain ⟨hz, htable, hfrom, hregs, hmem, hout, hbands, hp1⟩ := leave_first s c slot _ rfl hp
    obtain ⟨s1, hs1⟩ : ∃ s1, s1 = s.thawed c slot := ⟨_, rfl⟩
    have hres : s.resumed c slot = match ((s.core c).band slot).ktrap with
      | some e => s1.resumeTrap c slot e
      | none => s1 := by rw [hs1]; rfl
    unfold State.thawed at hs1
    rw [← hs1] at hz htable hfrom hregs hmem hout hbands hp1
    rw [leaveKeep_eq]
    have hmoves := foldRebalance (s.resumed c slot) c slot
    have hthread : ∀ l y, mapGet ((s.core c).band slot).frozen l = some y → ((s1.core c).band slot).thread l =
        { y with exited := y.exited || (((s.core c).band slot).thread l).exited, last := (((s.core c).band slot).thread l).last } :=
      fun l y => thread_thawed (by rw [hz])
    rcases htrap : ((s.core c).band slot).ktrap with - | n
    · rw [htrap] at hres
      dsimp only at hres
      rw [hres] at hmoves ⊢
      refine ⟨s1, hmoves.moves, by rw [hz], by rw [hz], fun l y _ hy => ⟨?_, ?_⟩, fun e x hx hs => (htable e x hx).1 hs,
        fun e x hx hs hf => ⟨_, (htable e x hx).2 hs hf, rfl, hs, ?_⟩, fun e w hw hs => ?_, hregs, hmem.keeps, hout, hbands⟩
      · rw [hthread l y hy]
      · rw [if_neg (by simp [mem_lanesOf])]
        exact hthread l y hy
      · rw [if_neg (by simp), word_without_none, word_without_none]
      · obtain ⟨x, hx, hf, hwx⟩ := hfrom _ (mem_mapGet hw)
        dsimp only at hx hwx
        have hxs : x.slot = slot := by rw [hwx] at hs; split at hs <;> assumption
        exact ⟨x, hx, hxs, hf hxs⟩
    · rw [htrap] at hres
      dsimp only at hres
      have hown : s1.owns c slot n := fun x hx => by
        obtain ⟨y, hy, -, hxy⟩ := hfrom _ (mem_mapGet hx)
        have hys := howns n y htrap hy
        dsimp only at hxy
        rw [hxy, if_pos hys]
        exact hys
      obtain ⟨t, ht, ⟨hkeep, hfrozen, hlive⟩, hthreads, htable2, hfrom2, hregs2, hmem2, hout2, hbands2⟩ := resume_first s1 c slot n _ rfl hp1 hown
      rw [hres]
      rw [hres] at hmoves
      have hklanes : ((s1.core c).band slot).klanes = ((s.core c).band slot).klanes := by rw [hz]
      have hkpc : ((s1.core c).band slot).kpc = ((s.core c).band slot).kpc := by rw [hz]
      rw [hklanes] at hthreads htable2
      rw [hkpc] at hthreads
      have hmoved := (ht.trans hmoves).moves
      refine ⟨t, hmoved, ?_⟩
      dsimp only
      rw [hlive, hkeep, hfrozen]
      refine ⟨by rw [hz], by rw [hz], fun l y _ hy => ⟨?_, ?_⟩, fun e x hx hs => (htable2 e x ((htable e x hx).1 hs)).1 hs,
        fun e x hx hs hf => ?_, fun e w hw hs => ?_, hregs.trans hregs2, hmem.keeps.trans hmem2.keeps, hout2.trans hout,
        fun d m hm => (hbands2 d m hm).trans (hbands d m hm)⟩
      · rw [(hthreads l).1, hthread l y hy]
      · have hplace := (hthreads l).2
        rwa [hthread l y hy] at hplace
      · have hentry := (htable2 e _ ((htable e x hx).2 hs hf)).2 hs
        by_cases he : e = n
        · rw [if_pos he] at hentry
          obtain ⟨w, hw, hfrozen, hslot, hw'⟩ := hentry
          exact ⟨w, hw, hfrozen, hslot, by rw [if_pos (by rw [he])]; exact hw'⟩
        · rw [if_neg he] at hentry
          exact ⟨_, hentry, rfl, hs, by rw [if_neg (by simpa using Ne.symm he)]⟩
      · obtain ⟨y, hy, hys⟩ := hfrom2 _ (mem_mapGet hw)
        obtain ⟨x, hx, hf, hyx⟩ := hfrom _ hy
        dsimp only at hx hys hyx
        have hxs : x.slot = slot := by rw [← hys, hyx] at hs; split at hs <;> assumption
        exact ⟨x, hx, hxs, hf hxs⟩

/-! ## Saving and restoring -/

theorem recPages_misaligned (x : Ctx) (m : State) {a : BitVec 64} (size access : Nat) (h : a.toNat % 64 ≠ 0) :
    recPages x m a size access = .error (.trap 0x05 0 a) := by
  unfold recPages
  exact if_pos (by simpa using h)

/-- What `svc` does with its pieces (R318). -/
def svcStep (c : BitVec 4) (y : BitVec 6) (x : Ctx) (t : State) : Res :=
  match recPages x t (x.s64 y) (x.task.recShape c.toNat).size accUStore with
  | .error r => r
  | .ok l =>
    if !t.quiescent x.recAt c.toNat || recWaits x l then .hold else
    ((t.sampleOlder x.core x.slot x.pd x.k.nextOp (recAcc l) 64).storesRecord x l (t.record x.recAt c.toNat)).done x
      (x.toS64 y (x.s64 y + BitVec.ofNat 64 (x.task.recShape c.toNat).size))

/-- What `rsc` does with the bytes read (R319). -/
def rscInstall (c : BitVec 4) (y : BitVec 6) (x : Ctx) : State × Nat × List Byte → Res
  | (t, 0, bytes) =>
    if !t.headerFits x.recAt c.toNat bytes || (c.toNat == 7 && !x.task.sameTask bytes) then .trap 0x06 0 (x.s64 y)
    else (t.putRecord x.recAt c.toNat bytes).done x (x.toS64 y (x.s64 y + BitVec.ofNat 64 (x.task.recShape c.toNat).size))
  | (_, e, _) => .trap 0x0C e (x.s64 y)

/-- What `rsc` does with its pieces. -/
def rscStep (c : BitVec 4) (y : BitVec 6) (x : Ctx) (t : State) : Res :=
  match recPages x t (x.s64 y) (x.task.recShape c.toNat).size accULoad with
  | .error r => r
  | .ok l =>
    if recWaits x l then .hold else
    rscInstall c y x ((t.sampleOlder x.core x.slot x.pd x.k.nextOp (recAcc l) 64).readRecord x l)

theorem svc_eq (d : BitVec 2) (c : BitVec 4) (y : BitVec 6) (s : State) :
    exec (.svc d c y) s = issue (.svc d c y) { shapeS d (sSrc64 y) with priv := true, mem := true } (svcStep c y) s := rfl

theorem rsc_eq (d : BitVec 2) (c : BitVec 4) (y : BitVec 6) (s : State) :
    exec (.rsc d c y) s = issue (.rsc d c y) { shapeS d (sSrc64 y) with priv := true, mem := true } (rscStep c y) s := rfl

/-- A pair written at a placed band. -/
theorem puts_toS64 {n : Nat} (m : State) (x : Ctx) (r : BitVec n) (w : BitVec 64) (h : (mapGet (m.core x.core).bands x.slot).isSome = true) :
    m.Puts x.core x.slot x.gen (x.toS64 r w) (m.writeNow x.core x.slot x.gen (x.toS64 r w)) :=
  State.puts m _ _ _ _ (Ctx.toS64_distinct _ _ _) fun p hp => (Ctx.toS64_own x r w p hp).imp_right (.imp_left fun _ => h)

/-- An instruction whose meaning, read over named contexts, is a trap. -/
theorem issue_trapOf {s m : State} {u : Cursor} {i : Instr} {q : Shape} {x : Ctx} (h : s.issues u i q = true) (hx : x = s.seen u i q)
    (hm : m = s.passed u i q) (f : Ctx → State → Res) {cause code : Nat} {addr : BitVec 64} (hf : f x m = .trap cause code addr) :
    ∃ t, issue i q f s = .next t ∧ (s.begun u i q).Traps u.core u.slot cause code x.pc x.lanes addr t := by
  subst hx hm
  exact issue_trap h f hf

/-- Settles O38: `svc` and `rsc` by their pieces, `rsc` by the bytes read and whether they fit. -/
theorem saveRestore : Obligations.SaveRestore := by
  rintro s u d c y i q x m a size rfl hx h hm rfl rfl
  have hst := State.stands_of_issues h
  obtain ⟨-, hplaced, -, -, -, -⟩ := State.stands_parts hst
  have hxc : x.core = u.core := by rw [hx, State.seen_core]
  have hxs : x.slot = u.slot := by rw [hx, State.seen_slot]
  refine ⟨?_, ?_, ?_⟩
  · rintro (rfl | rfl) hal
    · exact issue_trapOf h hx hm (svcStep c y) (by rw [svcStep, recPages_misaligned _ _ _ _ hal])
    · exact issue_trapOf h hx hm (rscStep c y) (by rw [rscStep, recPages_misaligned _ _ _ _ hal])
  · rintro rfl l hl hquiet hwaits hclear
    have hmplaced : (mapGet ((m.storesRecord x l (m.record x.recAt c.toNat)).core x.core).bands x.slot).isSome = true := by
      rw [placed_storesRecord, hm, State.placed_passed, hxc, hxs]
      exact hplaced
    have hputs := puts_toS64 _ x y (x.s64 y + BitVec.ofNat 64 (x.task.recShape c.toNat).size) hmplaced
    rw [hxc, hxs] at hputs
    refine ⟨_, ?_, hputs⟩
    rw [svc_eq]
    refine issue_ok h _ ?_
    rw [← hx, ← hm, svcStep, hl]
    dsimp only
    rw [if_neg (by simp [hquiet, hwaits]), hxc, hxs, State.sampleOlder_clear _ _ _ _ _ _ _ hclear, State.done, hxc, hxs]
  · rintro rfl l hl hwaits hclear r hr
    have hstep : rscStep c y x m = rscInstall c y x r := by
      rw [rscStep, hl]
      dsimp only
      rw [if_neg (by simp [hwaits]), hxc, hxs, State.sampleOlder_clear _ _ _ _ _ _ _ hclear, hr]
    obtain ⟨t, e, bytes⟩ := r
    rw [rsc_eq]
    have hseven : c.toNat = 7 ↔ c = 7 := ⟨fun h => BitVec.eq_of_toNat_eq h, fun h => by rw [h]; rfl⟩
    refine ⟨?_, ?_, ?_⟩
    · rintro he hfits hsame
      dsimp only at he hfits hsame
      subst he
      refine ⟨(t.putRecord x.recAt c.toNat bytes).writeNow x.core x.slot x.gen (x.toS64 y (x.s64 y + BitVec.ofNat 64 (x.task.recShape c.toNat).size)),
        _, issue_ok h _ ?_, rfl, fun hp => ?_⟩
      · rw [← hx, ← hm, hstep, rscInstall, if_neg]
        · rfl
        · rw [hfits]
          simpa [hseven] using hsame
      · have hputs := puts_toS64 (t.putRecord x.recAt c.toNat bytes) x y (x.s64 y + BitVec.ofNat 64 (x.task.recShape c.toNat).size)
          (by rw [hxc, hxs]; exact hp)
        rw [hxc, hxs] at hputs ⊢
        exact hputs
    · rintro he hbad
      dsimp only at he hbad
      subst he
      refine issue_trapOf h hx hm _ (hstep.trans (if_pos ?_))
      simp only [Bool.or_eq_true, Bool.not_eq_true', Bool.and_eq_true, beq_iff_eq, hseven]
      by_contra hgood
      exact hbad (by simpa using hgood)
    · rintro he
      dsimp only at he
      obtain ⟨e, rfl⟩ := Nat.exists_eq_succ_of_ne_zero he
      exact issue_trapOf h hx hm _ hstep

end Sys2Proof.Machine
end

section
/-! PROOFS. Cross-lane operations (R188 to R199), fences (R256) and barriers (R203 to R207). -/

namespace Sys2Proof.Machine

/-! ## Cross-lane operations -/

/-- Results on their way over a band that some operation has changed. -/
theorem givesLater_updBand {s : State} {u : Cursor} {i : Instr} {q : Shape} (h : s.issues u i q = true) (f : Band → Band) (n : Nat)
    (ps : List (Loc × Word)) (fl : Fl) (hpend : ∀ b ls, ((f b).dropPend ls).pend = (b.dropPend ls).pend)
    (hregs : ∀ b, (f b).keepV = b.keepV ∧ (f b).keepS = b.keepS ∧ (f b).keepP = b.keepP)
    (hthreads : ∀ b, (f b).threads = b.threads ∧ (f b).frozen = b.frozen)
    (hsystem : KeepsSystem (s.passed u i q) ((s.passed u i q).updBand u.core u.slot f)) :
    s.GivesLater u i q n ps fl (((s.passed u i q).updBand u.core u.slot f).writeLater u.core u.slot ((s.seen u i q).now + n)
      (s.seen u i q).gen ps fl) := by
  obtain ⟨-, hplaced, -, -, -, -⟩ := State.stands_parts (State.stands_of_issues h)
  have hmplaced : (mapGet ((s.passed u i q).core u.core).bands u.slot).isSome = true := by rw [State.placed_passed]; exact hplaced
  refine ⟨?_, ?_, ?_, ?_, ?_, ?_⟩
  · rw [State.pend_writeLater _ _ _ _ _ _ _ (by rw [State.placed_updBand]; exact hmplaced), State.band_updBand_self _ _ _ _ hmplaced, hpend]
  · exact (KeepsRegs.updBand _ _ _ f (fun b => (hregs b).1) (fun b => (hregs b).2.1) (fun b => (hregs b).2.2) _ _ _).trans
      (KeepsRegs.writeLater _ _ _ _ _ _ _ _ _ _)
  · exact hsystem.trans (KeepsSystem.writeLater _ _ _ _ _ _ _)
  · exact (KeepsThreads.updBand _ _ _ f (fun b => (hthreads b).1) fun b => (hthreads b).2).trans (KeepsThreads.writeLater _ _ _ _ _ _ _)
  · exact ((MemSame.passed s u i q).trans ((MemSame.updBand _ _ _ f).trans (MemSame.writeLater _ _ _ _ _ _ _))).keeps
  · rw [State.outside_writeLater, State.outside_updBand, State.outside_passed]

/-- A band with no cross-lane operation open. -/
def Band.crossClosed (b : Band) : Band := { b with xop := none }

/-- A band with an operation that waits for members, which gives up its turn. -/
def Band.crossOpen (o : XOp) (b : Band) : Band := { b with xop := some o, turn := none }

/-- The state in which an arrival waits for the other members. -/
def State.crossWaits (m : State) (u : Cursor) (o : XOp) : State :=
  (m.updBand u.core u.slot (Band.crossOpen o)).updEntry u.core u.entry fun e => { e with wait := .member }

/-- What a cross-lane instruction does once its sources are read (R189 to R191). -/
def crossStep (i : Instr) (f : CrossForm) (x : Ctx) (t : State) : Res :=
  let m := x.members f.o
  if x.l.gentrap && f.o.msrc && !(x.readS f.o.midx.toNat).2 then .trap 0x04 0 0
  else if x.lanes &&& m = 0 then .ok t
  else if m &&& ~~~x.b.live != 0 then .trap 0x07 1 0
  else if x.mismatch i m then .trap 0x07 2 0
  else if x.l.gentrap && (lanesOf (x.active &&& m)).any fun l => !(f.bring x).ok l then .trap 0x04 0 0
  else
    let q := x.join i m (f.bring x)
    if q.arrived = m then
      let t := (t.updBand x.core x.slot Band.crossClosed).writeLater x.core x.slot (x.now + 8) x.gen (f.result x q).1 (f.result x q).2
      .ok (if m &&& ~~~x.lanes = 0 then t else t.passBlock x.core x.slot (m &&& ~~~x.lanes) 2 false)
    else .stay fun s => (s.crossWaits ⟨x.core, x.slot, x.e⟩ q).rebalance x.core x.e

theorem cross_eq (s : State) {i : Instr} {f : CrossForm} {q : Shape} (h : crossForm i = some f)
    (hq : q = { uni := false, d := f.o.d, words := 2, vs := f.vs, srcs := [] }) : exec i s = issue i q (crossStep i f) s := by
  rw [crossForm_exec s i f h, hq]
  rfl

/-- What an arrival that waits leaves. -/
theorem crossWaits_spec {s : State} {u : Cursor} {i : Instr} {q : Shape} (h : s.stands u = true) (o : XOp) :
    s.Waits u i q .member ((s.begun u i q).crossWaits u o) ∧ KeepsSystem (s.begun u i q) ((s.begun u i q).crossWaits u o) ∧
      (((s.begun u i q).crossWaits u o).core u.core |>.band u.slot).xop = some o := by
  refine ⟨(KeepsAll.updBand _ _ _ (Band.crossOpen o)).waits h .member, ?_, ?_⟩
  · exact (KeepsSystem.updBand _ _ _ (Band.crossOpen o) fun _ => rfl).trans (KeepsSystem.updEntry _ _ _ _)
  · rw [State.crossWaits, State.band_updEntry, State.band_updBand_self _ _ _ _ (State.placed_begun s u i q h)]
    rfl

/-- Results on their way leave the operation closed. -/
theorem xop_writeLater (m : State) (c slot due : Nat) (gen : BitVec 16) (ps : List (Loc × Word)) (fl : Fl)
    (h : (mapGet (m.core c).bands slot).isSome = true) :
    ((((m.updBand c slot Band.crossClosed).writeLater c slot due gen ps fl).core c).band slot).xop = none := by
  rw [State.writeLater, State.band_updBand_self _ _ _ _ (by rw [State.placed_updBand]; exact h), State.band_updBand_self _ _ _ _ h]
  rfl

/-- Its checks of sources pass. -/
theorem crossStep_eq {i : Instr} {f : CrossForm} {x : Ctx} (hok : x.broughtOk f (x.members f.o)) (t : State) : crossStep i f x t =
      if x.lanes &&& x.members f.o = 0 then .ok t
      else if x.members f.o &&& ~~~x.b.live != 0 then .trap 0x07 1 0
      else if x.mismatch i (x.members f.o) then .trap 0x07 2 0
      else if (x.join i (x.members f.o) (f.bring x)).arrived = x.members f.o then
        let y := x.join i (x.members f.o) (f.bring x)
        let t := (t.updBand x.core x.slot Band.crossClosed).writeLater x.core x.slot (x.now + 8) x.gen (f.result x y).1 (f.result x y).2
        .ok (if x.members f.o &&& ~~~x.lanes = 0 then t else t.passBlock x.core x.slot (x.members f.o &&& ~~~x.lanes) 2 false)
      else .stay fun s => (s.crossWaits ⟨x.core, x.slot, x.e⟩ (x.join i (x.members f.o) (f.bring x))).rebalance x.core x.e := by
  have hmask : (x.l.gentrap && f.o.msrc && !(x.readS f.o.midx.toNat).2) = false := by
    by_contra hbad
    simp only [Bool.not_eq_false, Bool.and_eq_true, Bool.not_eq_true'] at hbad
    obtain ⟨⟨hg, hm⟩, hr⟩ := hbad
    rw [(hok hg).1 hm] at hr
    cases hr
  have hsrcs : (x.l.gentrap && (lanesOf (x.active &&& x.members f.o)).any fun l => !(f.bring x).ok l) = false := by
    by_contra hbad
    simp only [Bool.not_eq_false, Bool.and_eq_true, List.any_eq_true, Bool.not_eq_true'] at hbad
    obtain ⟨hg, l, hl, hr⟩ := hbad
    rw [(hok hg).2 l hl] at hr
    cases hr
  unfold crossStep
  dsimp only
  rw [hmask, hsrcs]
  rfl

/-- Settles O39: `crossStep` by its checks, and by whether the arrival is the last. -/
theorem Settled.crossLane : Obligations.CrossLane := by
  rintro s u i f q x m y hf hq hx h rfl hok rfl
  have hst := State.stands_of_issues h
  obtain ⟨-, hplaced, -, -, -, -⟩ := State.stands_parts hst
  have hxc : x.core = u.core := by rw [hx, State.seen_core]
  have hxs : x.slot = u.slot := by rw [hx, State.seen_slot]
  have hxe : x.e = u.entry := by rw [hx, State.seen_e]
  have hstep := crossStep_eq (i := i) hok
  rw [cross_eq s hf hq]
  generalize x.members f.o = m at *
  generalize x.join i m (f.bring x) = y at *
  refine ⟨fun hnone => ?_, fun hsome hgone => ?_, fun hsome hgone hdiff => ?_, fun hsome hgone hsame => ⟨fun hlast => ?_, fun hmore => ?_⟩⟩
  · refine ⟨_, issue_ok h _ ?_, changes_none s u i _⟩
    rw [← hx, hstep, if_pos hnone]
  · refine issue_trapOf h hx rfl _ ?_
    rw [hstep, if_neg hsome, if_pos (by simpa using hgone)]
  · refine issue_trapOf h hx rfl _ ?_
    rw [hstep, if_neg hsome, if_neg (by simpa using hgone), if_pos hdiff]
  · have hgives := givesLater_updBand h Band.crossClosed 8 (f.result x y).1 (f.result x y).2 (fun _ _ => rfl) (fun _ => ⟨rfl, rfl, rfl⟩)
      (fun _ => ⟨rfl, rfl⟩) (KeepsSystem.updBand _ _ _ _ fun _ => rfl)
    rw [← hx] at hgives
    refine ⟨_, _, issue_ok h _ ?_, rfl, ?_, ?_, hgives⟩
    · rw [← hx, hstep, if_neg hsome, if_neg (by simpa using hgone), if_neg (by simp [hsame]), if_pos hlast, hxc, hxs]
    · split
      · exact (Moved.refl _ _ _).moves
      · exact (Moved.passBlock _ _ _ _ _).moves
    · exact xop_writeLater _ _ _ _ _ _ _ (by rw [State.placed_passed]; exact hplaced)
  · obtain ⟨hwaits, hsystem, hopen⟩ := crossWaits_spec (i := i) (q := q) hst y
    have hmoved : Moved ((s.begun u i q).crossWaits u y) u.core u.slot (((s.begun u i q).crossWaits u y).rebalance u.core u.entry) :=
      Moved.rebalance _ _ _ _ (State.owns_of_slot (by rw [hwaits.entry]; exact (State.begun_entry i q hst).1))
    refine ⟨_, _, issue_stay (g := fun s => (s.crossWaits u y).rebalance u.core u.entry) h _ ?_, rfl, hmoved.moves, hopen, hwaits, hsystem⟩
    rw [← hx, hstep, if_neg hsome, if_neg (by simpa using hgone), if_neg (by simp [hsame]), if_neg hmore, hxc, hxs, hxe]

/-! ## Fences -/

/-- What an operation that holds its sub-band leaves. -/
theorem holdFor_spec {s : State} {u : Cursor} {i : Instr} {q : Shape} (h : s.stands u = true) (kind : FKind) :
    let m := s.begun u i q
    let n := (m.core u.core).nextOp
    let t := m.holdFor (s.seen u i q) kind
    s.Waits u i q (.op n) t ∧ KeepsSystem m t ∧
      (t.core u.core).flights = mapSet (m.core u.core).flights n ⟨u.slot, (s.seen u i q).gen, (s.seen u i q).lanes, none, kind⟩ := by
  intro m n t
  have ht : t = (m.launchFlight u.core ⟨u.slot, (s.seen u i q).gen, (s.seen u i q).lanes, none, kind⟩).updEntry u.core u.entry fun e =>
      { e with wait := .op n } := by
    change m.holdFor _ _ = _
    rw [State.holdFor, State.start, State.seen_core, State.seen_slot, State.seen_e]
  rw [ht]
  refine ⟨(KeepsAll.launchFlight _ _ _).waits h (.op n), ?_, ?_⟩
  · exact (KeepsSystem.launchFlight _ _ _).trans (KeepsSystem.updEntry _ _ _ _)
  · rw [State.part_updEntry (·.flights) (fun _ _ => rfl), State.launchFlight, State.core_updCore_self]

/-- Settles O40: each fence is `holdFor` of its operation. -/
theorem fences : Obligations.Fences := by
  rintro s u d i k q x hi rfl rfl h
  have hst := State.stands_of_issues h
  have hexec : exec i s = fence i d k s := by
    simp only [List.mem_cons, List.not_mem_nil, or_false, Prod.mk.injEq] at hi
    rcases hi with ⟨rfl, rfl⟩ | ⟨rfl, rfl⟩ | ⟨rfl, rfl⟩ | ⟨rfl, rfl⟩ | ⟨rfl, rfl⟩ <;> rfl
  obtain ⟨hwaits, hsystem, hflights⟩ := holdFor_spec (i := i) (q := shapeS d []) hst k
  exact ⟨_, _, hexec.trans (issue_stay h _ rfl), rfl, hwaits, hsystem, hflights⟩

/-! ## Barriers -/

/-- A sub-band that waits and gives up its turn. -/
def State.waitsTurn (m : State) (u : Cursor) (w : Wait) : State :=
  (m.updEntry u.core u.entry fun e => { e with wait := w }).updBand u.core u.slot fun y => { y with turn := none }

theorem waitsTurn_spec {s : State} {u : Cursor} {i : Instr} {q : Shape} (h : s.stands u = true) (w : Wait) :
    s.Waits u i q w ((s.begun u i q).waitsTurn u w) ∧ KeepsSystem (s.begun u i q) ((s.begun u i q).waitsTurn u w) :=
  ⟨(waits_entry h w).updBand _ _ _, (KeepsSystem.updEntry _ _ _ _).trans (KeepsSystem.updBand _ _ _ _ fun _ => rfl)⟩

/-- It changes its entry and its turn only. -/
theorem waitsTurn_parts (m : State) (u : Cursor) (w : Wait) (n : Nat) :
    ((m.waitsTurn u w).core u.core).task n = (m.core u.core).task n ∧
      (((m.waitsTurn u w).core u.core).band u.slot).bars = ((m.core u.core).band u.slot).bars ∧
      ((m.waitsTurn u w).core u.core).flights = (m.core u.core).flights := by
  refine ⟨?_, ?_, ?_⟩
  · exact (State.part_updBand (·.task n) (fun _ _ => rfl) _ _ _ _ _).trans (State.task_updEntry _ _ _ _ _ _)
  · refine (State.band_updBand_proj (·.bars) _ _ _ _ (fun _ => ?_) _ _).trans (by rw [State.band_updEntry])
    rfl
  · exact (State.part_updBand (·.flights) (fun _ _ => rfl) _ _ _ _ _).trans (State.part_updEntry (·.flights) (fun _ _ => rfl) _ _ _ _ _)

theorem seen_band_begun (s : State) (u : Cursor) (i : Instr) (q : Shape) :
    ((s.begun u i q).core u.core).band u.slot = (s.seen u i q).b := by
  rw [State.seen, State.ctx_b]

/-- What `bar` and `arrive` do at the barrier that their participant word names (R203, R204). -/
def arriveStep (gid : Nat) (w : Word) (wait : Bool) (x : Ctx) (t : State) : Res :=
  if gid < 256 && !x.l.usable gid x.task.number then .trap 0x07 3 0
  else if w.getLsbD x.b.index && mapGetD (x.task.barOf gid).arrived x.b.index 0 &&& x.lanes != 0 then
    .stay fun s => s.waitsTurn ⟨x.core, x.slot, x.e⟩ (.again gid)
  else if (x.task.barOf gid).part.any (· != w) then .trap 0x07 2 0
  else if wait then .stay fun s => s.arriveBar x gid w true
  else .ok (t.arriveBar x gid w false)

theorem arrive_eq {i : Instr} {d : BitVec 2} {g : BitVec 8} {sn : BitVec 6} {wait : Bool} (s : State)
    (hi : (i, wait) ∈ [(.bar d g sn, true), (.arrive d g sn, false)]) :
    exec i s = issue i (shapeS d [.s sn.toNat]) (fun x t => arriveStep (x.barrier g (x.s sn)) (x.s sn) wait x t) s := by
  simp only [List.mem_cons, List.not_mem_nil, or_false, Prod.mk.injEq] at hi
  rcases hi with ⟨rfl, rfl⟩ | ⟨rfl, rfl⟩ <;> rfl

theorem selfInvalidate_stale (m : State) (c : Nat) : ∀ l ∈ ((m.selfInvalidate c).core c).l1, l.valid = false ∧ l.dirty ≠ 0 := by
  intro l hl
  rw [State.selfInvalidate, State.core_updCore_self] at hl
  obtain ⟨hmem, hdirty⟩ := List.mem_filter.1 hl
  obtain ⟨y, -, rfl⟩ := List.mem_map.1 hmem
  exact ⟨rfl, by simpa using hdirty⟩

/-- What `barw` does (R204). -/
def barwStep (g : BitVec 8) (x : Ctx) (t : State) : Res :=
  let b := mapGetD x.b.bars g.toNat BarState.fresh
  if !x.l.usable g.toNat x.task.number then .trap 0x07 3 0
  else if b.ever && b.last == t.openPhase x.core x.t g.toNat then .stay fun s => s.waitsTurn ⟨x.core, x.slot, x.e⟩ (.barw g.toNat)
  else .ok (t.selfInvalidate x.core)

/-- The bits of the status word of a group (R207). -/
theorem status_bits (l : Launch) (gid task : Nat) :
    (l.status gid task).getLsbD 0 = (mapGet l.groups gid).isSome ∧ (l.status gid task).getLsbD 1 = (l.group gid).members.contains task ∧
      (l.status gid task).getLsbD 2 = (l.group gid).cores ∧ (l.status gid task).extractLsb' 3 13 = 0 ∧
      ((l.status gid task).extractLsb' 16 16).toNat = min 0xFFFF (((l.group gid).members.idxOf? task).getD 0) := by
  unfold Launch.status
  dsimp only
  cases (l.group gid).members.idxOf? task with
  | none => exact statusBits 0 _ _ _ (by omega)
  | some n =>
    rw [Option.getD_some, Nat.min_comm 0xFFFF]
    exact statusBits (min n 0xFFFF) _ _ _ (by omega)

/-- Settles O41: `arriveStep` by its checks and `arriveBar_spec`; `barw` by the phase; `gmask` by the bits of its word. -/
theorem barriers : Obligations.Barriers := by
  refine ⟨?_, ?_⟩
  · rintro s u d g sn i q x w gid b wait hi rfl hx h rfl hgid rfl
    have hst := State.stands_of_issues h
    obtain ⟨-, hplaced, -, -, -, -⟩ := State.stands_parts hst
    have hxc : x.core = u.core := by rw [hx, State.seen_core]
    have hxs : x.slot = u.slot := by rw [hx, State.seen_slot]
    have hxe : x.e = u.entry := by rw [hx, State.seen_e]
    rw [arrive_eq s hi]
    have hstep : ∀ t, arriveStep (x.barrier g (x.s sn)) (x.s sn) wait x t = arriveStep gid (x.s sn) wait x t := by
      rw [barrier_eq, hgid]
      exact fun _ => rfl
    refine ⟨fun hgroup huse => ?_, fun husable => ⟨fun hnamed hagain => ?_, fun hnew => ⟨fun w' hpart hdiff => ?_, fun hpart htask => ?_⟩⟩⟩
    · refine issue_trapOf h hx rfl _ ((hstep _).trans (if_pos ?_))
      simp [hgroup, huse]
    · have husable' : ¬(decide (gid < 256) && !x.l.usable gid x.task.number) = true := by simpa using husable
      refine ⟨_, issue_stay (g := fun s => s.waitsTurn u (.again gid)) h _ ?_, waitsTurn_spec hst _⟩
      rw [← hx, hstep, arriveStep, if_neg husable', if_pos (by simpa [hnamed] using hagain), hxc, hxs, hxe]
    · have husable' : ¬(decide (gid < 256) && !x.l.usable gid x.task.number) = true := by simpa using husable
      refine issue_trapOf h hx rfl _ ((hstep _).trans ?_)
      rw [arriveStep, if_neg husable', if_neg (by simpa using hnew), if_pos (by simpa [hpart] using hdiff)]
    · have husable' : ¬(decide (gid < 256) && !x.l.usable gid x.task.number) = true := by simpa using husable
      have hfree : ¬((x.task.barOf gid).part.any (· != x.s sn)) = true := by rcases hpart with h | h <;> simp [h]
      have hval : ∀ t, arriveStep (x.barrier g (x.s sn)) (x.s sn) wait x t =
          if wait then .stay fun s => s.arriveBar x gid (x.s sn) true else .ok (t.arriveBar x gid (x.s sn) false) := fun t => by
        rw [hstep, arriveStep, if_neg husable', if_neg (by simpa using hnew), if_neg hfree]
      cases wait with
      | true =>
        have htaskB : ((s.begun u i (shapeS d [.s sn.toNat])).core x.core).task x.t = x.task := by rw [hxc, hx, seen_task_begun]
        obtain ⟨M, hkeeps, htaskM, hbars, hflights, heq⟩ := arriveBar_spec (s.begun u i (shapeS d [.s sn.toNat])) x gid (x.s sn) true _
          (by rw [State.hasTask_begun, hxc]; exact htask) (by rw [hxc, hxs]; exact State.placed_begun s u i _ hst) (by rw [htaskB]) hpart
        rw [htaskB] at htaskM
        rw [hxc] at heq htaskM hbars hflights
        rw [hxs] at hbars hflights
        obtain ⟨htask', hbars', hflights'⟩ := waitsTurn_parts M u (.bar gid ((s.begun u i (shapeS d [.s sn.toNat])).openPhase u.core x.t gid)) x.t
        refine ⟨_, _, _, issue_stay (g := fun s => s.arriveBar x gid (x.s sn) true) h _ (by rw [← hx, hval]; rfl), rfl, rfl, fun _ => ?_,
          fun hf => (by cases hf), ?_, fun hn hg => ?_, ?_⟩
        · rw [heq, if_pos rfl, hxs, hxe]
          exact (hkeeps.waits hst _).updBand _ _ _
        · rw [heq, if_pos rfl, hxs, hxe]
          exact htask'.trans htaskM
        · rw [heq, if_pos rfl, hxs, hxe]
          exact hbars'.trans ((hbars hn hg).trans (by rw [hx, seen_band_begun]))
        · rw [heq, if_pos rfl, hxs, hxe]
          exact hflights'.trans hflights
      | false =>
        have htaskP : ((s.passed u i (shapeS d [.s sn.toNat])).core x.core).task x.t = x.task := by rw [hxc, hx, seen_task]
        obtain ⟨M, hkeeps, htaskM, hbars, hflights, heq⟩ := arriveBar_spec (s.passed u i (shapeS d [.s sn.toNat])) x gid (x.s sn) false _
          (by rw [State.hasTask_passed, hxc]; exact htask) (by rw [hxc, hxs, State.placed_passed]; exact hplaced) (by rw [htaskP]) hpart
        rw [htaskP] at htaskM
        rw [hxc, State.openPhase_passed] at hbars hflights
        rw [hxc] at heq htaskM
        rw [hxs] at hbars hflights
        rw [State.part_passed (·.flights) (fun _ _ => rfl) (fun _ _ => rfl), State.part_passed (·.nextOp) (fun _ _ => rfl) (fun _ _ => rfl)]
          at hflights
        refine ⟨M, _, _, issue_ok h _ (by rw [← hx, hval, heq]; rfl), rfl, rfl, fun hf => (by cases hf), fun _ => hkeeps, htaskM,
          fun hn hg => ?_, hflights⟩
        rw [hbars hn hg, State.bars_passed, hx, seen_band_begun]
  · rintro s u d g i q x rfl hx h
    have hst := State.stands_of_issues h
    have hxc : x.core = u.core := by rw [hx, State.seen_core]
    have hxs : x.slot = u.slot := by rw [hx, State.seen_slot]
    have hxe : x.e = u.entry := by rw [hx, State.seen_e]
    refine ⟨?_, ?_⟩
    · rintro rfl
      refine ⟨fun huse => ?_, fun huse hever hlast => ?_, fun huse hover => ?_⟩
      · exact issue_trapOf h hx rfl (barwStep g) (if_pos (by rw [huse]; rfl))
      · have hwaits := waitsTurn_spec (i := .barw d g) (q := shapeS d []) hst (.barw g.toNat)
        refine ⟨_, issue_stay (g := fun s => s.waitsTurn u (.barw g.toNat)) h (barwStep g) ?_, hwaits⟩
        rw [← hx, barwStep, if_neg (by simp [huse]), if_pos, hxc, hxs, hxe]
        rw [hxc, State.openPhase_passed]
        simp [hever, hlast]
      · refine ⟨_, issue_ok h (barwStep g) ?_, rfl, selfInvalidate_stale _ _⟩
        rw [← hx, barwStep, if_neg (by simp [huse]), if_neg, hxc]
        rw [hxc, State.openPhase_passed]
        simpa using hover
    · rintro sd rfl
      subst hx
      obtain ⟨t, ht, hgives⟩ := issue_toS h sd fun x => x.l.status g.toNat x.task.number
      exact ⟨t, _, ht, hgives, status_bits _ _ _⟩

end Sys2Proof.Machine
end

section
/-! PROOFS. Queues and tags (R210 to R221), tiles and accumulators (R265, R266, R282, R290), signing (R279 to R281). -/

namespace Sys2Proof.Machine

/-! ## Queues -/

/-- The command of a `qpush`, with the number of its collective (R218, R227). -/
def pushedCmd (x : Ctx) (sn : BitVec 6) (n : BitVec 3) : Cmd :=
  ⟨(List.range (n.toNat + 1)).map fun j => (x.readS (sn.toNat + j)).1, x.task.pushes, x.slot,
    (if (headOf (x.readS sn.toNat).1).op = 5 then mapGetD x.task.inst
      (Cmd.group ⟨(List.range (n.toNat + 1)).map fun j => (x.readS (sn.toNat + j)).1, 0, 0, 0, 0, false⟩) 0 else 0), x.pc, false⟩

/-- The command as `qpush` reads it, of no collective yet. -/
def readCmd (x : Ctx) (sn : BitVec 6) (n : BitVec 3) : Cmd := { pushedCmd x sn n with inst := 0 }

theorem readCmd_head (x : Ctx) (sn : BitVec 6) (n : BitVec 3) : (readCmd x sn n).head = headOf (x.readS sn.toNat).1 := by
  rw [readCmd, Cmd.head, pushedCmd]
  dsimp only
  rw [List.range_succ_eq_map]
  rfl

theorem readCmd_inst (x : Ctx) (sn : BitVec 6) (n : BitVec 3) :
    (if (readCmd x sn n).head.op = 5 then { readCmd x sn n with inst := mapGetD x.task.inst (readCmd x sn n).group 0 } else readCmd x sn n) =
      pushedCmd x sn n := by
  rw [readCmd_head]
  unfold readCmd pushedCmd
  dsimp only
  split <;> rfl

/-- A task changed over an instruction that goes on. -/
theorem passed_updTask {s : State} {u : Cursor} {i : Instr} {q : Shape} {x : Ctx} (hx : x = s.seen u i q)
    (htask : (mapGet (s.core u.core).tasks x.t).isSome = true) (F : Task → Task) :
    let t := (s.passed u i q).updTask u.core x.t F
    KeepsAll (s.passed u i q) t ∧ (t.core u.core).flights = ((s.passed u i q).core u.core).flights ∧ (t.core u.core).task x.t = F x.task := by
  refine ⟨KeepsAll.updTask _ _ _ _, State.part_updTask (·.flights) (fun _ _ => rfl) _ _ _ _ _, ?_⟩
  rw [State.task_updTask_self _ _ _ _ (by rw [State.hasTask_passed]; exact htask), hx, seen_task]

/-- An operation started on flag A. -/
theorem startsA {s : State} {u : Cursor} {i : Instr} {q : Shape} {x : Ctx} (h : s.issues u i q = true) (hx : x = s.seen u i q)
    (f : Ctx → State → Res) {kind : FKind} (hf : ∀ t, f x t = .ok (t.start x x.lanes x.flagA kind)) :
    ∃ t, issue i q f s = .next t ∧ s.Starts u i q x.lanes (flagOf x.cl.seta) kind t := by
  subst hx
  exact ⟨_, issue_ok h f (hf _), State.starts s u i q _ _ _⟩

theorem waitDone_iff (y : Task) (all : Bool) (v : BitVec 64) : (y.waitDone all v).isSome = true ↔
    (∀ j < 64, v.getLsbD j = true → mapGetD y.busy j 0 = 0) ∨ all = false ∧ ∃ j < 64, v.getLsbD j = true ∧ y.done.getLsbD j = true := by
  have hbusy : y.anyBusy v = false ↔ ∀ j < 64, v.getLsbD j = true → mapGetD y.busy j 0 = 0 := by
    simp only [Task.anyBusy, List.any_eq_false, List.mem_range, Bool.and_eq_true, bne_iff_ne, not_and, not_not]
  have hdone : y.lowestDone v ≠ 64 ↔ ∃ j < 64, v.getLsbD j = true ∧ y.done.getLsbD j = true := by
    obtain ⟨hle, hsome, hnone⟩ := lowestDone_spec y v
    refine ⟨fun h => ⟨_, by omega, hsome (by omega)⟩, fun ⟨j, hj, hv, hd⟩ heq => ?_⟩
    have := hnone j (by omega)
    rw [BitVec.getLsbD_and, hv, hd] at this
    cases this
  rw [← hbusy, ← hdone]
  unfold Task.waitDone
  cases y.anyBusy v <;> cases all <;> by_cases h : y.lowestDone v = 64 <;> simp [h]

/-- What `qfence` does: the unbound register first. -/
def qfenceStep (sn : BitVec 6) (x : Ctx) (t : State) : Res :=
  if (lanesOf ((x.s sn) &&& 0xFFFF#32)).any fun q => (mapGetD x.task.queues q Queue.fresh).port = 0 then .trap 0x0D 33 0
  else if (x.s sn) &&& 0xFFFF#32 = 0 then .ok t
  else .ok (t.updTask x.core x.t fun y => { y with fences := y.fences ++ [⟨(x.s sn) &&& 0xFFFF#32, y.pushes⟩] })

/-- What `qpop` does: the port first (R219). -/
def qpopStep (sn : BitVec 6) (q : BitVec 4) (x : Ctx) (t : State) : Res :=
  if (mapGetD x.task.queues q.toNat Queue.fresh).port = 0 then .trap 0x0D 33 0
  else if (mapGetD x.task.queues q.toNat Queue.fresh).port != 6 then .trap 0x0D 34 0
  else .ok (t.start x x.lanes x.flagA (.qpop q.toNat (x.sAt sn) x.pc (x.b.thread ((lowestLane x.lanes).getD 0)).base))

/-- What `tffr` does (R221). -/
def tffrStep (sn m : BitVec 6) (x : Ctx) (t : State) : Res :=
  (if x.task.lowestDone (x.s64 m) = 64 then t else t.selfInvalidate x.core).done x (x.toS sn (BitVec.ofNat 32 (x.task.lowestDone (x.s64 m))))

/-- What `tclr` does (R221). -/
def tclrStep (m : BitVec 6) (x : Ctx) (t : State) : Res :=
  .ok (t.updTask x.core x.t fun y => { y with done := y.done &&& ~~~(x.s64 m), fault := y.fault &&& ~~~(x.s64 m) })

theorem placed_selfInvalidate (m : State) (c b d : Nat) :
    (mapGet ((m.selfInvalidate c).core d).bands b).isSome = (mapGet (m.core d).bands b).isSome := by
  rw [State.selfInvalidate, State.placed_updCore]
  exact fun _ => rfl

theorem low16_unbound (w : Word) (P : Nat → Bool) :
    (lanesOf (w &&& 0xFFFF#32)).any P = true ↔ ∃ r < 16, w.getLsbD r = true ∧ P r = true := by
  have hmask : ∀ r, (0xFFFF#32).getLsbD r = decide (r < 16) := fun r => by
    by_cases h : r < 32
    · revert r; decide
    · rw [BitVec.getLsbD_of_ge _ _ (by omega)]; simp; omega
  simp only [List.any_eq_true, mem_lanesOf, BitVec.getLsbD_and, hmask, Bool.and_eq_true, decide_eq_true_eq]
  exact ⟨fun ⟨r, ⟨hw, hr⟩, hp⟩ => ⟨r, hr, hw, hp⟩, fun ⟨r, hr, hw, hp⟩ => ⟨r, ⟨hw, hr⟩, hp⟩⟩

/-- Settles O42: `pushCmd_eq` and `push_spec` for the push; the others by the port, the tags and the mask. -/
theorem queuesAndTags : Obligations.QueuesAndTags := by
  refine ⟨?_, ?_, waitDone_iff⟩
  · rintro s u d g sn n i q x qr hx h htask rfl
    have hxc : x.core = u.core := by rw [hx, State.seen_core]
    have hxs : x.slot = u.slot := by rw [hx, State.seen_slot]
    refine ⟨?_, ?_, ?_⟩
    · rintro rfl hq m hm
      obtain rfl : m = pushedCmd x sn n := hm
      have hexec : exec (.qpush d g sn n) s = issue (.qpush d g sn n) q
          (fun x t => t.pushCmd x g.toNat (n.toNat + 1) (readCmd x sn n)) s := by rw [hq]; rfl
      obtain ⟨htrap, hhold, hok⟩ := pushCmd_eq (s.passed u (.qpush d g sn n) q) x g.toNat (n.toNat + 1)
          (readCmd x sn n) (pushedCmd x sn n) rfl rfl (readCmd_inst x sn n)
      rw [hexec]
      refine ⟨fun k hk => ?_, fun hport => ?_, fun hk hfull => ?_, fun hk hroom => ?_⟩
      · exact issue_trapOf h hx rfl _ (htrap k hk)
      · rw [pushDetail, if_pos hport]
      · exact issue_hold h (by rw [← hx]; exact hhold hk hfull)
      · obtain ⟨hkeeps, hflights, htask'⟩ := push_spec (s.passed u (.qpush d g sn n) q) x g.toNat (pushedCmd x sn n).num _
          (by rw [hxc, State.hasTask_passed]; exact htask) _ rfl
        refine ⟨_, issue_ok h _ (by rw [← hx]; exact hok hk hroom), hkeeps, ?_, ?_⟩
        · rw [hxc, hxs] at hflights
          rw [hxc]
          exact hflights
        · rw [hxc, hx, seen_task, ← hx] at htask'
          rw [hxc]
          exact htask'
    · rintro rfl rfl
      refine ⟨fun hport => ?_, fun hport hsix => ?_, fun hsix => ?_⟩
      · exact issue_trapOf h hx rfl (qpopStep sn g) (if_pos hport)
      · exact issue_trapOf h hx rfl (qpopStep sn g) ((if_neg hport).trans (if_pos (by simpa using hsix)))
      · refine startsA h hx (qpopStep sn g) fun t => ?_
        rw [qpopStep, if_neg (by omega), if_neg (by simp [hsix])]
    · rintro rfl rfl
      have hunbound := low16_unbound (x.s sn) fun q => (mapGetD x.task.queues q Queue.fresh).port = 0
      simp only [decide_eq_true_eq] at hunbound
      refine ⟨fun hbad => ?_, fun hgood => ?_⟩
      · exact issue_trapOf h hx rfl (qfenceStep sn) (if_pos (hunbound.2 hbad))
      · have hval : ∀ t, qfenceStep sn x t = if (x.s sn) &&& 0xFFFF#32 = 0 then .ok t
            else .ok (t.updTask x.core x.t fun y => { y with fences := y.fences ++ [⟨(x.s sn) &&& 0xFFFF#32, y.pushes⟩] }) :=
          fun t => if_neg (mt hunbound.1 hgood)
        by_cases hnone : (x.s sn) &&& 0xFFFF#32 = 0
        · refine ⟨_, issue_ok h (qfenceStep sn) (by rw [← hx, hval, if_pos hnone]), KeepsAll.refl _, rfl, ?_⟩
          rw [hx, seen_task, ← hx, if_pos hnone, List.append_nil]
        · rw [if_neg hnone]
          exact ⟨_, issue_ok h (qfenceStep sn) (by rw [← hx, hval, if_neg hnone, hxc]), passed_updTask hx htask _⟩
  · rintro s u d sn m i q x v hx h rfl
    have hxc : x.core = u.core := by rw [hx, State.seen_core]
    refine ⟨?_, ?_, ?_, ?_, ?_⟩
    · rintro rfl rfl
      exact startsA h hx _ fun _ => rfl
    · rintro rfl rfl
      exact startsA h hx _ fun _ => rfl
    · rintro rfl rfl
      obtain ⟨hle, hsome, hnone⟩ := lowestDone_spec x.task (x.s64 m)
      have hst := State.stands_of_issues h
      obtain ⟨-, hplaced, -, -, -, -⟩ := State.stands_parts hst
      have hxs : x.slot = u.slot := by rw [hx, State.seen_slot]
      refine ⟨_, _, issue_ok h (tffrStep sn m) (by rw [← hx, tffrStep, State.done, hxc, hxs]), hle, hsome, hnone, ?_⟩
      refine State.puts _ _ _ _ _ (Ctx.toS_distinct _ _ _) fun p hp => (Ctx.toS_own x sn _ p hp).imp_right (.imp_left fun _ => ?_)
      split
      · rw [State.placed_passed]; exact hplaced
      · rw [placed_selfInvalidate, State.placed_passed]; exact hplaced
    · rintro rfl rfl
      subst hx
      exact issue_toS64 h sn fun x => x.task.done
    · rintro rfl rfl htask
      exact ⟨_, issue_ok h (tclrStep m) (by rw [← hx, tclrStep, hxc]), passed_updTask hx htask _⟩

end Sys2Proof.Machine
end

section
/-! PROOFS. Tiles and accumulators (R265, R266, R282, R290) and signing (R279 to R281). -/

namespace Sys2Proof.Machine

/-! ## Tiles and accumulators -/

/-- The rows of a tile written (R290). -/
def State.putTile (m : State) (c : Nat) (y : Task) (a : Nat) (v : Nat → BitVec 512) (fmt : Nat → BitVec 4) : State :=
  m.updCore c fun k => (List.range 64).foldl (fun k r => k.putTileRow y a r (fmt r) (v r)) k

/-- The rows of an accumulator written, with its status word. -/
def State.putAcc (m : State) (c : Nat) (y : Task) (a : Nat) (v : Nat → BitVec 2048) (st : Word) : State :=
  m.updCore c fun k => ((List.range 64).foldl (fun k r => k.putAccRow y a r (v r)) k).putStatus y a st

theorem putTile_spec (m : State) (c : Nat) (y : Task) (a : Nat) (v : Nat → BitVec 512) (fmt : Nat → BitVec 4) :
    let t := m.putTile c y a v fmt
    (∀ r < 64, (t.core c).tileRow y a r = (v r, fmt r, true)) ∧
      (∀ n, (∀ r < 64, n ≠ y.tileKey a r) → mapGet (t.core c).tiles n = mapGet (m.core c).tiles n) ∧
      (∀ d, d ≠ c → t.core d = m.core d) ∧ { t.core c with tiles := [] } = { m.core c with tiles := [] } ∧ t.outside = m.outside := by
  obtain ⟨hrows, hothers, hrest⟩ := Core.tile_written (m.core c) y a 64 (Nat.le_refl _) fmt v _ rfl
  have hcore : (m.putTile c y a v fmt).core c = (List.range 64).foldl (fun k r => k.putTileRow y a r (fmt r) (v r)) (m.core c) := by
    rw [State.putTile, State.core_updCore_self]
  dsimp only
  rw [hcore]
  exact ⟨hrows, hothers, fun d hd => by rw [State.putTile, State.core_updCore, if_neg hd], hrest, by rw [State.putTile, State.outside_updCore]⟩

theorem putAcc_spec (m : State) (c : Nat) (y : Task) (a : Nat) (v : Nat → BitVec 2048) (st : Word) :
    let t := m.putAcc c y a v st
    (∀ r < 64, (t.core c).accRow y a r = (v r, true)) ∧ (t.core c).accStatus y a = (st, true) ∧
      (∀ n, (∀ r < 64, n ≠ y.accKey a r) → mapGet (t.core c).accs n = mapGet (m.core c).accs n) ∧
      (∀ n, n ≠ y.accAt a → mapGet (t.core c).accStat n = mapGet (m.core c).accStat n) ∧
      (∀ d, d ≠ c → t.core d = m.core d) ∧
      { t.core c with accs := [], accStat := [] } = { m.core c with accs := [], accStat := [] } ∧ t.outside = m.outside := by
  obtain ⟨hrows, hstatus, hothers, hstats, hrest⟩ := Core.acc_written (m.core c) y a 64 (Nat.le_refl _) v st _ rfl
  have hcore : (m.putAcc c y a v st).core c = ((List.range 64).foldl (fun k r => k.putAccRow y a r (v r)) (m.core c)).putStatus y a st := by
    rw [State.putAcc, State.core_updCore_self]
  dsimp only
  rw [hcore]
  exact ⟨hrows, hstatus, hothers, hstats, fun d hd => by rw [State.putAcc, State.core_updCore, if_neg hd], hrest,
    by rw [State.putAcc, State.outside_updCore]⟩

/-- What `tzero` does. -/
def tzeroStep (a : BitVec 5) (x : Ctx) (t : State) : Res :=
  if x.k.matBlocked x.core x.t { wt := [a.toNat] } then .hold
  else .ok (t.putTile x.core x.task a.toNat (fun _ => 0) fun _ => 0)

/-- What `tmov` does. -/
def tmovStep (a b : BitVec 5) (x : Ctx) (t : State) : Res :=
  if x.k.matBlocked x.core x.t { rt := [b.toNat], wt := [a.toNat] } then .hold
  else if x.l.gentrap && ((List.range 64).map (x.k.tileRow x.task b.toNat)).any (!·.2.2) then .trap 0x04 0 0
  else .ok (t.putTile x.core x.task a.toNat (fun r => (x.k.tileRow x.task b.toNat r).1) fun r => (x.k.tileRow x.task b.toNat r).2.1)

/-- What `azero` does. -/
def azeroStep (a : BitVec 5) (x : Ctx) (t : State) : Res :=
  if x.k.matBlocked x.core x.t { wa := [a.toNat] } then .hold
  else .ok (t.putAcc x.core x.task a.toNat (fun _ => 0) 0)

/-- What `amov` does. -/
def amovStep (a b : BitVec 5) (x : Ctx) (t : State) : Res :=
  if x.k.matBlocked x.core x.t { ra := [b.toNat], wa := [a.toNat] } then .hold
  else if x.l.gentrap && (!(x.k.accStatus x.task b.toNat).2 || ((List.range 64).map (x.k.accRow x.task b.toNat)).any (!·.2)) then .trap 0x04 0 0
  else .ok (t.putAcc x.core x.task a.toNat (fun r => (x.k.accRow x.task b.toNat r).1)
    (statusWord (stickyOf (x.k.accStatus x.task b.toNat).1) false 0))

theorem tzero_eq (d : BitVec 2) (a : BitVec 5) (s : State) :
    exec (.tzero d a) s = issue (.tzero d a) { shapeS d [] with ts := [a.toNat] } (tzeroStep a) s := rfl

theorem azero_eq (d : BitVec 2) (a : BitVec 5) (s : State) :
    exec (.azero d a) s = issue (.azero d a) { shapeS d [] with as := [a.toNat] } (azeroStep a) s := rfl

theorem tmov_eq (d : BitVec 2) (a b : BitVec 5) (s : State) :
    exec (.tmov d a b) s = issue (.tmov d a b) { shapeS d [] with ts := [a.toNat, b.toNat] } (tmovStep a b) s := by
  change execTmov d a b s = _
  unfold execTmov tmovStep State.putTile
  simp only [zipIdx_map_range, List.foldl_map]

theorem amov_eq (d : BitVec 2) (a b : BitVec 5) (s : State) :
    exec (.amov d a b) s = issue (.amov d a b) { shapeS d [] with as := [a.toNat, b.toNat] } (amovStep a b) s := by
  change execAmov d a b s = _
  unfold execAmov amovStep State.putAcc
  simp only [zipIdx_map_range, List.foldl_map]

theorem statusWord_sticky (w : Word) : statusWord (stickyOf w) false 0 = w &&& 0x1F00#32 := by
  simp [statusWord, stickyOf]

/-- Whether some row of a tile is of another generation (R9). -/
theorem tile_stale (k : Core) (y : Task) (n : Nat) :
    ((List.range 64).map (k.tileRow y n)).any (!·.2.2) = true ↔ ∃ r < 64, (k.tileRow y n r).2.2 = false := by
  simp

/-- Whether some row of an accumulator is. -/
theorem acc_stale (k : Core) (y : Task) (n : Nat) :
    ((List.range 64).map (k.accRow y n)).any (!·.2) = true ↔ ∃ r < 64, (k.accRow y n r).2 = false := by
  simp

/-- Settles O43: each instruction by whether it is held, by its rows' generations, and by what `putTile` and `putAcc` write. -/
theorem tilesAndAccumulators : Obligations.TilesAndAccumulators := by
  rintro s u d a b sn i q x m w hx h rfl hform
  have hxc : x.core = u.core := by rw [hx, State.seen_core]
  have hout := State.outside_passed s u i q
  rcases hform with ⟨rfl, rfl, rfl⟩ | ⟨rfl, rfl, rfl⟩ | ⟨rfl, rfl, rfl⟩ | ⟨rfl, rfl, rfl⟩
  · rw [tzero_eq]
    refine ⟨fun hblock => issue_hold h (by rw [← hx]; exact if_pos (by rw [hxc]; exact hblock)), fun _ _ hbad => ?_, fun hfree _ _ => ?_, fun _ hi => ?_⟩
    · simp at hbad
    · obtain ⟨hrows, hspec⟩ := putTile_spec (s.passed u (.tzero d a) { shapeS d [] with ts := [a.toNat] }) u.core x.task a.toNat (fun _ => 0) fun _ => 0
      rw [hout] at hspec
      refine ⟨_, issue_ok h _ ?_, fun r hr => ?_, hspec⟩
      · rw [← hx, tzeroStep, hxc, hfree]; rfl
      · rw [if_pos rfl]; exact hrows r hr
    · simp at hi
  · rw [tmov_eq]
    refine ⟨fun hblock => issue_hold h (by rw [← hx]; exact if_pos (by rw [hxc]; exact hblock)), fun hfree hgen hbad => ?_, fun hfree _ hgood => ?_, fun _ hi => ?_⟩
    · have hstale : ∃ r < 64, (x.k.tileRow x.task b.toNat r).2.2 = false := by simpa using hbad
      refine issue_trapOf h hx rfl _ ?_
      rw [tmovStep, hxc, hfree, hgen, (tile_stale _ _ _).2 hstale]
      rfl
    · have hrowsOk : ¬(x.l.gentrap && ((List.range 64).map (x.k.tileRow x.task b.toNat)).any (!·.2.2)) = true := by
        rw [Bool.and_eq_true, tile_stale]
        rintro ⟨hg, r, hr, hbad⟩
        rcases hgood with hoff | hi | hgood
        · simp [hoff] at hg
        · simp at hi
        · simp [hgood r hr] at hbad
      obtain ⟨hrows, hspec⟩ := putTile_spec (s.passed u (.tmov d a b) { shapeS d [] with ts := [a.toNat, b.toNat] }) u.core x.task a.toNat
        (fun r => (x.k.tileRow x.task b.toNat r).1) fun r => (x.k.tileRow x.task b.toNat r).2.1
      rw [hout] at hspec
      refine ⟨_, issue_ok h _ ?_, fun r hr => ?_, hspec⟩
      · rw [← hx, tmovStep, hxc, hfree, if_neg Bool.false_ne_true, if_neg hrowsOk]
      · rw [if_neg (by simp)]; exact hrows r hr
    · simp at hi
  · rw [azero_eq]
    refine ⟨fun hblock => issue_hold h (by rw [← hx]; exact if_pos (by rw [hxc]; exact hblock)), fun _ _ hbad => ?_, fun _ hi => ?_, fun hfree _ _ => ?_⟩
    · simp at hbad
    · simp at hi
    · obtain ⟨hrows, hstatus, hspec⟩ := putAcc_spec (s.passed u (.azero d a) { shapeS d [] with as := [a.toNat] }) u.core x.task a.toNat
        (fun _ => 0) 0
      rw [hout] at hspec
      refine ⟨_, issue_ok h _ ?_, fun r hr => ?_, ?_, hspec⟩
      · rw [← hx, azeroStep, hxc, hfree]; rfl
      · rw [if_pos rfl]; exact hrows r hr
      · rw [if_pos rfl]; exact hstatus
  · rw [amov_eq]
    refine ⟨fun hblock => issue_hold h (by rw [← hx]; exact if_pos (by rw [hxc]; exact hblock)), fun hfree hgen hbad => ?_, fun _ hi => ?_,
      fun hfree _ hgood => ?_⟩
    · have hstale : (x.k.accStatus x.task b.toNat).2 = false ∨ ∃ r < 64, (x.k.accRow x.task b.toNat r).2 = false := by simpa using hbad
      refine issue_trapOf h hx rfl _ ?_
      rw [amovStep, hxc, hfree, if_neg Bool.false_ne_true, if_pos]
      rw [hgen, Bool.true_and, Bool.or_eq_true, acc_stale, Bool.not_eq_true']
      exact hstale
    · simp at hi
    · have hrowsOk : ¬(x.l.gentrap && (!(x.k.accStatus x.task b.toNat).2 || ((List.range 64).map (x.k.accRow x.task b.toNat)).any (!·.2))) = true := by
        rw [Bool.and_eq_true, Bool.or_eq_true, acc_stale, Bool.not_eq_true']
        rintro ⟨hg, hbad⟩
        rcases hgood with hoff | hi | ⟨hstatus, hgood⟩
        · simp [hoff] at hg
        · simp at hi
        · rcases hbad with hbad | ⟨r, hr, hbad⟩
          · simp [hstatus] at hbad
          · simp [hgood r hr] at hbad
      obtain ⟨hrows, hstatus, hspec⟩ := putAcc_spec (s.passed u (.amov d a b) { shapeS d [] with as := [a.toNat, b.toNat] }) u.core x.task a.toNat
        (fun r => (x.k.accRow x.task b.toNat r).1) ((x.k.accStatus x.task b.toNat).1 &&& 0x1F00#32)
      rw [hout] at hspec
      refine ⟨_, issue_ok h _ ?_, fun r hr => ?_, ?_, hspec⟩
      · rw [← hx, amovStep, hxc, hfree, if_neg Bool.false_ne_true, if_neg hrowsOk, statusWord_sticky]
      · rw [if_neg (by simp)]; exact hrows r hr
      · rw [if_neg (by simp)]; exact hstatus

/-! ## Signing -/

/-- A task with a convergence register set. -/
def Task.setG (g : Nat) (r : GReg) (y : Task) : Task := { y with g := mapSet y.g g r }

/-- What `sign` does (R279). -/
def signSetStep (g : BitVec 3) (sn : BitVec 6) (x : Ctx) (t : State) : Res :=
  let r := mapGetD x.task.g g.toNat GReg.fresh
  let n := bandSet x.task (x.s sn)
  if n.2 == r.usable && (!n.2 || n.1 == r.set) then .ok t
  else if r.op.isSome then .trap 0x07 2 0
  else .ok (t.updTask x.core x.t (Task.setG g.toNat { r with set := n.1, usable := n.2, was := some (x.now + 2, r.set, r.usable) }))

/-- Whether a register names already what a `sign` would have it name. -/
theorem bandSet_same (n : BitVec 16 × Bool) (r : GReg) :
    (n.2 == r.usable && (!n.2 || n.1 == r.set)) = true ↔ n.2 = r.usable ∧ (n.2 = true → n.1 = r.set) := by
  cases n.2 <;> simp

/-- What `mma` and `mmc` do at the signature of an operation (R281). -/
def signStep (i : Instr) (g : BitVec 3) (op : Ctx → MatOp) (x : Ctx) (_ : State) : Res :=
  let r := mapGetD x.task.g g.toNat GReg.fresh
  let v := r.seen x.now
  if !v.2 || !v.1.getLsbD x.b.index then .trap 0x07 3 0
  else if (List.range 16).any fun n => v.1.getLsbD n && x.k.bandLive x.t n != allLanes then .trap 0x07 1 0
  else if r.op.any (· != ((encode i).headD 0, op x)) then .trap 0x07 2 0
  else .stay fun s => s.signWith x g.toNat ((encode i).headD 0) (op x)

/-- Settles O45: `signSetStep` and `signStep` by their checks, and `signWith_spec`. -/
theorem signing : Obligations.Signing := by
  rintro s u d g i q x r hx h htask rfl
  have hst := State.stands_of_issues h
  have hxc : x.core = u.core := by rw [hx, State.seen_core]
  have hxs : x.slot = u.slot := by rw [hx, State.seen_slot]
  have hxe : x.e = u.entry := by rw [hx, State.seen_e]
  refine ⟨?_, ?_⟩
  · rintro sn w n rfl rfl rfl rfl usable same
    have hsame : ((bandSet x.task (x.s sn)).2 == (mapGetD x.task.g g.toNat GReg.fresh).usable &&
        (!(bandSet x.task (x.s sn)).2 || (bandSet x.task (x.s sn)).1 == (mapGetD x.task.g g.toNat GReg.fresh).set)) = true ↔ same :=
      bandSet_same _ _
    refine ⟨fun hdiff hop => ?_, fun hok => ?_⟩
    · exact issue_trapOf h hx rfl (signSetStep g sn) ((if_neg (mt hsame.1 hdiff)).trans (if_pos (Option.isSome_iff_ne_none.2 hop)))
    · by_cases hsm : same
      · refine ⟨_, issue_ok h (signSetStep g sn) (by rw [← hx]; exact if_pos (hsame.2 hsm)), KeepsAll.refl _, rfl, ?_⟩
        rw [if_pos hsm, hx, seen_task]
      · have hnone := hok.resolve_left hsm
        rw [if_neg hsm]
        refine ⟨_, issue_ok h (signSetStep g sn) ?_, passed_updTask hx htask (Task.setG g.toNat _)⟩
        rw [← hx, ← hxc]
        exact (if_neg (mt hsame.1 hsm)).trans (if_neg (by rw [hnone]; exact Bool.false_ne_true))
  · rintro acc a b am bm ax sp cj typ o pair hform hq v named whole agrees
    have hexec : ∃ op : Ctx → MatOp, exec i s = issue i q (signStep i g op) s ∧ op x = o := by
      rcases hform with ⟨rfl, rfl, rfl⟩ | ⟨rfl, rfl, rfl⟩
      · exact ⟨fun x => ⟨false, acc.toNat, x.matSrc am a, x.matSrc bm b, typ, ax, sp, false, x.b.mshape⟩, by rw [hq]; rfl, rfl⟩
      · exact ⟨fun x => ⟨true, acc.toNat, x.matSrc am a, x.matSrc bm b, .i32, false, false, cj, x.b.mshape⟩, by rw [hq]; rfl, rfl⟩
    obtain ⟨op, hexec, hop⟩ := hexec
    rw [hexec]
    have hseen : (mapGetD x.task.g g.toNat GReg.fresh).seen x.now = v := seen_was _ _
    have hnamed : (!v.2 || !v.1.getLsbD x.b.index) = false ↔ named := by simp [named]
    have hwhole := whole_iff x v.1
    have hagrees := agrees_iff (mapGetD x.task.g g.toNat GReg.fresh) ((encode i).headD 0, o)
    have hstep : ∀ t, signStep i g op x t =
        if !v.2 || !v.1.getLsbD x.b.index then .trap 0x07 3 0
        else if (List.range 16).any fun n => v.1.getLsbD n && x.k.bandLive x.t n != allLanes then .trap 0x07 1 0
        else if (mapGetD x.task.g g.toNat GReg.fresh).op.any (· != ((encode i).headD 0, o)) then .trap 0x07 2 0
        else .stay fun s => s.signWith x g.toNat ((encode i).headD 0) o := fun t => by
      rw [← hseen, ← hop]
      rfl
    refine ⟨fun hno => ?_, fun hn hno => ?_, fun hn hw hno => ?_, fun hn hw ha => ?_⟩
    · exact issue_trapOf h hx rfl _ ((hstep _).trans (if_pos (by simpa only [Bool.not_eq_false] using mt hnamed.1 hno)))
    · refine issue_trapOf h hx rfl _ ((hstep _).trans ?_)
      rw [hnamed.2 hn, if_neg Bool.false_ne_true, if_pos (by simpa only [Bool.not_eq_false] using mt hwhole.1 hno)]
    · refine issue_trapOf h hx rfl _ ((hstep _).trans ?_)
      rw [hnamed.2 hn, hwhole.2 hw, if_neg Bool.false_ne_true, if_neg Bool.false_ne_true,
        if_pos (by simpa only [Bool.not_eq_false] using mt hagrees.1 hno)]
    · obtain ⟨M, hkeeps, hflights, htaskM, heq⟩ := signWith_spec (s.begun u i q) x g.toNat ((encode i).headD 0) o
        (by rw [State.hasTask_begun, hxc]; exact htask)
      obtain ⟨htask', -, hflights'⟩ := waitsTurn_parts M u (.signer g.toNat) x.t
      have hwaits : s.Waits u i q (.signer g.toNat) (M.waitsTurn u (.signer g.toNat)) := (hkeeps.waits hst _).updBand _ _ _
      refine ⟨M.waitsTurn u (.signer g.toNat), _, issue_stay (g := fun s => s.signWith x g.toNat ((encode i).headD 0) o) h _ ?_, ?_, hwaits, ?_, ?_⟩
      · rw [← hx, hstep, hnamed.2 hn, hwhole.2 hw, hagrees.2 ha]
        rfl
      · rw [heq, hxc, hxs, hxe]
        rfl
      · rw [hxc, hxs] at hflights
        exact hflights'.trans hflights
      · have hbegun : ((s.begun u i q).core u.core).task x.t = x.task := by rw [hx, seen_task_begun]
        rw [hxc, hbegun] at htaskM
        exact htask'.trans htaskM

end Sys2Proof.Machine
end

section
/-! PROOFS. Memory instructions at their issue and once their pages translate (R152 to R165, R186, R244, R252 to R255). -/

namespace Sys2Proof.Machine

/-! ## What an instruction sees of its task -/

theorem begun_sees (s : State) (u : Cursor) (i : Instr) (q : Shape) :
    let m := s.begun u i q
    let x := s.seen u i q
    (m.core u.core).taskOfBand u.slot = x.t ∧ (m.core u.core).task x.t = x.task ∧ m.launch x.task.launch = x.l ∧
      m.pdOf u.core u.slot = x.pd ∧ ((m.core u.core).entry u.entry).lanes = x.lanes := by
  dsimp only
  rw [State.seen]
  exact ⟨rfl, rfl, rfl, rfl, rfl⟩

/-! ## An operation that performs -/

/-- The operation of a memory instruction, as its sub-band reads it. -/
def MemForm.op (f : MemForm) (x : Ctx) : MemOp := ⟨f.kind, f.acc x, f.lanes x, x.pc, if f.flag then x.flagA else none, x.b.rm⟩

theorem memForm_issues {i : Instr} {f : MemForm} (s : State) (h : memForm i = some f) :
    exec i s = issue i f.shape (fun x t => memIssue x t (f.op x)) s := memForm_exec s i f h

theorem memIssue_none {x : Ctx} {op : MemOp} (t : State) (h : op.acc = []) : memIssue x t op = .ok t := by
  rw [memIssue, h]
  rfl

theorem memIssue_misaligned {x : Ctx} {op : MemOp} {a : LAcc} (t : State) (hk : op.kind.lateAlign = false)
    (h : op.acc.find? (fun a => a.va.toNat % op.kind.ty.size != 0) = some a) : memIssue x t op = .trap 0x05 0 a.va := by
  have hne : op.acc.isEmpty = false := by
    cases hacc : op.acc with
    | nil => rw [hacc] at h; cases h
    | cons _ _ => rfl
  rw [memIssue, hne, hk, if_neg Bool.false_ne_true, if_neg Bool.false_ne_true, h]

theorem memIssue_begins {x : Ctx} {op : MemOp} (t : State) (hne : op.acc ≠ [])
    (h : op.kind.lateAlign = false → ∀ a ∈ op.acc, a.va.toNat % op.kind.ty.size = 0) :
    memIssue x t op = .stay fun s => s.memBegin x.core x.e op := by
  have hempty : op.acc.isEmpty = false := by simpa using hne
  rw [memIssue, hempty, if_neg Bool.false_ne_true]
  cases hk : op.kind.lateAlign with
  | true => rfl
  | false =>
    have hfind : (op.acc.find? fun a => a.va.toNat % op.kind.ty.size != 0) = none := by
      rw [List.find?_eq_none]
      intro a ha
      simp [h hk a ha]
    rw [if_neg Bool.false_ne_true, hfind]

/-- An operation all of whose pages translate, at the state its instruction has begun. -/
theorem memBegin_begun {s : State} {u : Cursor} {i : Instr} {q : Shape} {x : Ctx} (hst : s.stands u = true) (hx : x = s.seen u i q)
    (op : MemOp) (acc : List LAcc) (hT : List.Forall₂ (Translates (s.begun u i q) u.core x.pd op.kind) op.acc acc) (hne : acc ≠ [])
    (hapart : ((s.begun u i q).core u.core).relOverlaps u.slot { op with acc } = false) :
    (s.begun u i q).memBegin u.core u.entry op =
      let b' := (s.begun u i q).flagged u.core u.slot op.flag
      match (s.begun u i q).lateCheck u.core u.slot { op with acc } with
      | some (cause, addr) => (b'.dropFlag u.core u.slot op.flag).takeTrap u.core u.slot cause 0 (some u.entry) op.pc x.lanes addr
      | none =>
        if x.l.det && op.kind.isAtomic && op.kind.order.releases then
          (b'.memAct u.core u.slot { op with acc }).updEntry u.core u.entry fun e =>
            { e with wait := .op ((s.begun u i q).core u.core).nextOp }
        else ((b'.updEntry u.core u.entry fun e => { e with wait := .ready }).advance u.core u.entry op.kind.words).memAct u.core u.slot
          { op with acc } := by
  obtain ⟨hslot, hlanes, -, -⟩ := State.begun_entry i q hst
  obtain ⟨hof, htask, hlaunch, hpd, hseen⟩ := begun_sees s u i q
  obtain ⟨-, -, -, -, hsome, -⟩ := State.stands_parts hst
  rw [← hx] at hof htask hlaunch hpd hseen
  rw [memBegin_eq _ _ _ u.slot op acc hslot (by rw [hlanes]; exact hsome) (by rw [hpd]; exact hT)]
  dsimp only
  rw [Core.relOverlaps_congr (State.part_flagged (·.flights) (fun _ _ => rfl) _ _ _ _ _), hapart, if_neg Bool.false_ne_true,
    State.lateCheck_flagged, State.taskOf_flagged, State.task_flagged, State.launch_flagged, hof, htask, hlaunch, hseen,
    State.part_flagged (·.nextOp) (fun _ _ => rfl)]
  have hempty : acc.isEmpty = false := by simpa using hne
  rw [hempty, Bool.not_false, Bool.and_true]
  cases (s.begun u i q).lateCheck u.core u.slot { op with acc } <;> rfl

/-- One that goes past its instruction acts at the state past it, its flag raised. -/
theorem memBegin_acts {s : State} {u : Cursor} {i : Instr} {q : Shape} {x : Ctx} (hst : s.stands u = true) (hx : x = s.seen u i q)
    (op : MemOp) (acc : List LAcc) (hT : List.Forall₂ (Translates (s.begun u i q) u.core x.pd op.kind) op.acc acc) (hne : acc ≠ [])
    (hP : (s.begun u i q).Performs u.core u.slot { op with acc }) (hw : ((s.core u.core).entry u.entry).wait = .ready)
    (hwords : op.kind.words = q.words) (hdet : ¬(x.l.det && op.kind.isAtomic && op.kind.order.releases) = true) :
    (s.begun u i q).memBegin u.core u.entry op =
      ((s.passed u i q).flagged u.core u.slot op.flag).memAct u.core u.slot { op with acc } := by
  obtain ⟨hapart, -, hpasses⟩ := hP
  obtain ⟨hslot, -, hfrozen, hwait⟩ := State.begun_entry i q hst
  rw [memBegin_begun hst hx op acc hT hne hapart, hpasses]
  dsimp only
  rw [if_neg hdet, ready_advance _ _ _ _ _ _ hfrozen hslot (hwait.trans hw), hwords, State.passed]

/-- One that is atomic, releases and belongs to a deterministic launch waits for its own release. -/
theorem memBegin_det {s : State} {u : Cursor} {i : Instr} {q : Shape} {x : Ctx} (hst : s.stands u = true) (hx : x = s.seen u i q)
    (op : MemOp) (acc : List LAcc) (hT : List.Forall₂ (Translates (s.begun u i q) u.core x.pd op.kind) op.acc acc) (hne : acc ≠ [])
    (hP : (s.begun u i q).Performs u.core u.slot { op with acc }) (hdet : (x.l.det && op.kind.isAtomic && op.kind.order.releases) = true)
    (hstores : op.kind.stores = true) (hrel : op.kind.order.releases = true) :
    s.Waits u i q (.op ((s.begun u i q).core u.core).nextOp) ((s.begun u i q).memBegin u.core u.entry op) := by
  obtain ⟨hapart, hclear, hpasses⟩ := hP
  have hclear' := Core.clearOf_congr (k' := ((s.begun u i q).flagged u.core u.slot op.flag).core u.core)
    (State.part_flagged (·.flights) (fun _ _ => rfl) _ _ _ _ _) hclear
  rw [memBegin_begun hst hx op acc hT hne hapart, hpasses]
  dsimp only
  rw [if_pos hdet, (memAct_start _ u.core u.slot { op with acc } hclear').1 hstores hrel]
  exact ((KeepsAll.flagged _ _ _ _).trans (KeepsAll.launchFlight _ _ _)).waits hst _

/-- An access is remote as the state past its instruction has it. -/
theorem any_remote (acc : List LAcc) (p : Trans → Bool) : (acc.any fun a => a.t.elim false p) = acc.any fun a => a.t.any p := by
  congr 1
  funext a
  cases a.t <;> rfl

theorem placed_flagged (m : State) (c slot : Nat) (f : Option Nat) (b d : Nat) :
    (mapGet ((m.flagged c slot f).core d).bands b).isSome = (mapGet (m.core d).bands b).isSome := by
  cases f with
  | none => rfl
  | some n => exact State.placed_updBand _ _ _ _ _ _

theorem placed_dropFlag (m : State) (c slot : Nat) (f : Option Nat) (b d : Nat) :
    (mapGet ((m.dropFlag c slot f).core d).bands b).isSome = (mapGet (m.core d).bands b).isSome := by
  cases f with
  | none => rfl
  | some n => exact State.placed_updBand _ _ _ _ _ _

/-- A flight launched past its instruction, its flag raised, is an operation started. -/
theorem starts_flight {s : State} {u : Cursor} {i : Instr} {q : Shape} {x : Ctx} (hx : x = s.seen u i q) (lanes : Word) (flag : Option Nat)
    (kind : FKind) : s.Starts u i q lanes flag kind
      (((s.passed u i q).flagged u.core u.slot flag).launchFlight u.core ⟨u.slot, x.gen, lanes, flag, kind⟩) := by
  have hstarts := State.starts s u i q lanes flag kind
  rwa [State.start_eq, ← hx, show x.core = u.core by rw [hx, State.seen_core], show x.slot = u.slot by rw [hx, State.seen_slot]] at hstarts

theorem MKind.stores_of_atomic {k : MKind} (h : k.isAtomic = true) : k.stores = true := by
  cases k <;> first | rfl | cases h

/-- Settles O46: `memIssue` by its accesses and their alignment, `memBegin` by the pages, the checks and the kind. -/
theorem memoryAccess : Obligations.MemoryAccess := by
  rintro s u i f q x m flag op hf rfl hx h rfl rfl rfl
  have hst := State.stands_of_issues h
  have hxc : x.core = u.core := by rw [hx, State.seen_core]
  have hxe : x.e = u.entry := by rw [hx, State.seen_e]
  have hop : (⟨f.kind, f.acc x, f.lanes x, x.pc, if f.flag then flagOf x.cl.seta else none, x.b.rm⟩ : MemOp) = f.op x := rfl
  rw [memForm_issues s hf, hop]
  refine ⟨fun hnone => ?_, fun a hk ha => ?_, fun hne hal => ?_⟩
  · exact issue_ok h _ (by rw [← hx]; exact memIssue_none _ hnone)
  · exact issue_trapOf h hx rfl _ (memIssue_misaligned _ hk ha)
  have hbegin : issue i f.shape (fun x t => memIssue x t (f.op x)) s = .next ((s.begun u i f.shape).memBegin u.core u.entry (f.op x)) :=
    issue_stay h (g := fun s => s.memBegin u.core u.entry (f.op x)) _ (by
      rw [← hx, memIssue_begins (op := f.op x) _ hne hal, hxc, hxe])
  rw [hbegin]
  obtain ⟨hslot, -, -, -⟩ := State.begun_entry i f.shape hst
  obtain ⟨-, -, -, hpd, -⟩ := begun_sees s u i f.shape
  rw [← hx] at hpd
  refine ⟨fun hmiss => ?_, fun acc hT => ?_⟩
  · refine ⟨_, rfl, ?_⟩
    rw [memBegin_miss _ u.core u.entry u.slot (f.op x) hslot (by rw [hpd]; exact hmiss) hne]
    exact (KeepsAll.flagged _ _ _ _).waits hst _
  have hacc : acc ≠ [] := by
    rintro rfl
    exact hne (List.forall₂_nil_right_iff.1 hT)
  refine ⟨fun cause addr hcheck hapart => ?_, fun hP hw => ?_⟩
  · refine ⟨((s.begun u i f.shape).flagged u.core u.slot (f.op x).flag).dropFlag u.core u.slot (f.op x).flag, _, rfl,
      (KeepsAll.flagged _ _ _ _).trans (KeepsAll.dropFlag _ _ _ _), ?_⟩
    rw [memBegin_begun hst hx (f.op x) acc hT hacc hapart, hcheck]
    exact State.traps _ _ _ _ _ _ _ _ _ (by rw [placed_dropFlag, placed_flagged]; exact State.placed_begun s u i _ hst)
  · obtain ⟨hof, htask, hlaunch, hflights, hremote⟩ := State.passed_task s u i f.shape (f.op x).flag
    rw [← hx] at hof htask hlaunch
    have hclear := Core.clearOf_congr hflights hP.clear
    obtain ⟨hrelease, hload, hstore, hatom, hblock⟩ := memAct_start _ u.core u.slot { f.op x with acc } hclear
    rw [hof, htask] at hrelease hload hstore hatom hblock
    rw [hlaunch] at hstore hatom hblock
    rw [hremote, any_remote] at hload hatom
    have hacts := memBegin_acts hst hx (f.op x) acc hT hacc hP hw (memForm_words i f hf)
    refine ⟨fun hat hrel hdet => ?_, fun hrel hdet => ?_, fun hld => ?_, ?_⟩
    · obtain ⟨hstores, hreleases⟩ := hrel
      exact ⟨_, rfl, memBegin_det hst hx (f.op x) acc hT hacc hP (by rw [hdet]; simpa using ⟨hat, hreleases⟩) hstores hreleases⟩
    · obtain ⟨hstores, hreleases⟩ := hrel
      rw [hacts (by rw [Bool.and_eq_true, Bool.and_eq_true]; exact fun hd => hdet ⟨hd.1.2, hd.1.1⟩), hrelease hstores hreleases]
      exact ⟨_, rfl, starts_flight hx _ _ _⟩
    · have hplain : f.kind.isAtomic = false := by
        rcases hld with ⟨ty, od, hk⟩ | ⟨w, acq, hk⟩ <;> rw [hk] <;> rfl
      rw [hacts (by rw [show (f.op x).kind.isAtomic = false from hplain]; simp), hload hld]
      exact ⟨_, rfl, starts_flight hx _ _ _⟩
    · refine ⟨(s.passed u i f.shape).flagged u.core u.slot (f.op x).flag, KeepsAll.flagged _ _ _ _, KeepsSystem.refl _,
        fun hstores hrel hat => ?_, fun hat hrel => ?_, fun p hk hclear' => ?_⟩
      · rw [hacts (by rw [show (f.op x).kind.isAtomic = false from hat]; simp)]
        have hnone : f.kind.order.releases = false := by simpa [hstores] using hrel
        rw [hstore hstores hnone hat]
        rfl
      · have hnone : f.kind.order.releases = false := by simpa [MKind.stores_of_atomic hat] using hrel
        rw [hacts (by rw [show (f.op x).kind.order.releases = false from hnone]; simp), hatom hat hnone]
        exact ⟨_, rfl, rfl⟩
      · rw [hacts (by rw [show (f.op x).kind.isAtomic = false by rw [show (f.op x).kind = .pw p from hk]; rfl]; simp), hblock p hk hclear']
        exact ⟨_, rfl, rfl⟩

end Sys2Proof.Machine
end

section
/-! PROOFS. The bytes that stores leave (R158, R159), and the completions of loads, atomics and block instructions (R160, R162, R186,
R249, R252). -/

namespace Sys2Proof.Machine

/-! ## Stores -/

theorem homeByte_storeBytes (s : State) (c slot : Nat) (lanes : Word) (pd : Nat) (t : Trans) (bs : List Byte) (pa : Nat) :
    (s.storeBytes c slot lanes pd t bs).homeByte pa = s.homeByte pa := by
  rw [State.storeBytes_eq]
  rfl

theorem placeOf_storeBytes (s : State) (c slot : Nat) (lanes : Word) (pd : Nat) (t : Trans) (bs : List Byte) (u : Trans) :
    (s.storeBytes c slot lanes pd t bs).placeOf u = s.placeOf u := by
  rw [State.storeBytes_eq]
  rfl

theorem State.putLanes_cons (s : State) (k : MKind) (a : LAcc) (acc : List LAcc) (pa : Nat) (old : Byte) :
    s.putLanes k (a :: acc) pa old = s.putLanes k acc pa (match a.t with
      | some t => putByte (s.placeOf t) (bytesOf k.ty.size a.data.toNat) pa old
      | none => old) := rfl

/-- Stores land where their buffers lie. -/
theorem State.putLanes_congr {s t : State} (h : ∀ u, t.placeOf u = s.placeOf u) (k : MKind) (acc : List LAcc) (pa : Nat) (old : Byte) :
    t.putLanes k acc pa old = s.putLanes k acc pa old := by
  induction acc generalizing old with
  | nil => rw [State.putLanes, State.putLanes, List.foldl_nil, List.foldl_nil]
  | cons a acc ih =>
    rw [State.putLanes_cons, State.putLanes_cons, ih]
    cases a.t with
    | none => rfl
    | some u => dsimp only; rw [h]

/-- One lane's store joined to what the lanes below it left. -/
def State.storeNext (c slot pd : Nat) (op : MemOp) (ftz : Bool) (r : State × Fl) (a : LAcc) : State × Fl :=
  ((r.1.storeLane c slot pd op ftz false a).1, r.2 ||| (r.1.storeLane c slot pd op ftz false a).2)

/-- What the lanes of an instruction leave when each stores plain bytes within a line. -/
theorem foldl_storeNext (c slot pd : Nat) (op : MemOp) (ftz : Bool) (acc : List LAcc)
    (h : ∀ a ∈ acc, ∃ t, a.t = some t ∧ t.plain ∧ t.off % 128 + op.kind.ty.size ≤ 128) (s : State) :
    let r := acc.foldl (State.storeNext c slot pd op ftz) (s, flNone)
    r.2 = flNone ∧ (∀ d pa, r.1.byteAt d pa = if d = c then s.putLanes op.kind acc pa (s.byteAt d pa) else s.byteAt d pa) ∧
      (∀ pa, r.1.homeByte pa = s.homeByte pa) ∧ (∀ d gen a, r.1.spByte d gen a = s.spByte d gen a) ∧ r.1.outside = s.outside := by
  induction acc generalizing s with
  | nil => exact ⟨rfl, fun d pa => by split <;> rfl, fun _ => rfl, fun _ _ _ => rfl, rfl⟩
  | cons a acc ih =>
    obtain ⟨t, ht, hplain, hline⟩ := h a (List.mem_cons_self ..)
    have hstore := storeLane_plain s c slot pd op ftz a t ht hplain
    generalize (if op.kind.uniform then op.lanes else laneBit a.lane) = lanes at hstore
    have hlen : (bytesOf op.kind.ty.size a.data.toNat).length = op.kind.ty.size := bytesOf_length _ _
    obtain ⟨hfl, hbytes, hhome, hsp, hout⟩ := ih (fun b hb => h b (List.mem_cons_of_mem _ hb))
      (s.storeBytes c slot lanes pd t (bytesOf op.kind.ty.size a.data.toNat))
    have hnext : State.storeNext c slot pd op ftz (s, flNone) a = (s.storeBytes c slot lanes pd t (bytesOf op.kind.ty.size a.data.toNat), flNone) := by
      rw [State.storeNext, hstore]
      exact congrArg (Prod.mk _) (show (flNone ||| flNone) = flNone by decide)
    dsimp only
    rw [List.foldl_cons, hnext]
    refine ⟨hfl, fun d pa => ?_, fun pa => (hhome pa).trans (homeByte_storeBytes ..), fun d gen b => (hsp d gen b).trans
      (spByte_storeBytes _ _ _ _ _ _ _ hplain.1 _ _ _), hout.trans (outside_storeBytes ..)⟩
    rw [hbytes, State.byteAt_storeBytes _ _ _ _ _ _ _ hplain.1 (by rw [hlen]; exact hline)]
    split
    · rw [State.putLanes_cons, ht]
      exact State.putLanes_congr (fun u => placeOf_storeBytes ..) _ _ _ _
    · rfl

/-- A store all of whose lanes are plain raises no flag, so it is its lanes' stores. -/
theorem storeAll_eq (s : State) (c slot pd : Nat) (op : MemOp) (ftz : Bool)
    (h : (op.acc.foldl (State.storeNext c slot pd op ftz) (s, flNone)).2 = flNone) :
    s.storeAll c slot pd op ftz false = (op.acc.foldl (State.storeNext c slot pd op ftz) (s, flNone)).1 := by
  unfold State.storeAll
  exact if_pos h

/-! ## Completions -/

theorem loadCompletion_load {s : State} {c id : Nat} {f : Flight} {op : MemOp} (h : mapGet (s.core c).flights id = some f)
    (hk : f.kind = .load op) : exec (.loadCompletion c id) s = .next (s.finishLoad c id f op) := by
  change execLoadCompletion c id s = _
  rw [execLoadCompletion, h]
  dsimp only
  rw [hk]

theorem loadCompletion_lds {s : State} {c id : Nat} {f : Flight} {ty : MTy} {acc : List LAcc} (h : mapGet (s.core c).flights id = some f)
    (hk : f.kind = .lds ty acc) : exec (.loadCompletion c id) s = .next (s.finishLds c id f ty acc) := by
  change execLoadCompletion c id s = _
  rw [execLoadCompletion, h]
  dsimp only
  rw [hk]

theorem atomicCompletion_eq {s : State} {c id : Nat} {f : Flight} {op : MemOp} (h : mapGet (s.core c).flights id = some f)
    (hk : f.kind = .atom op ∨ f.kind = .remote op ∧ op.kind.isAtomic = true) :
    exec (.atomicCompletion c id) s = .next (s.finishMem c id f op) := by
  change execAtomicCompletion c id s = _
  rw [execAtomicCompletion, h]
  dsimp only
  rcases hk with hk | ⟨hk, hat⟩
  · rw [hk]
  · rw [hk]
    dsimp only
    rw [if_pos hat]

theorem blockCompletion_eq {s : State} {c id : Nat} {f : Flight} {p : PwOp} {acc : List LAcc} (h : mapGet (s.core c).flights id = some f)
    (hk : f.kind = .pw p acc) :
    exec (.plynwickOperationCompletion c id) s = .next ((s.writeLanes c f .b32 acc).endFlight c id f acc false) := by
  change execPlynwickOperationCompletion c id s = _
  rw [execPlynwickOperationCompletion, h]
  dsimp only
  rw [hk]

/-- The bytes read from a scratchpad, one at a time. -/
theorem spRead_bytes (s : State) (c : Nat) (gen : BitVec 16) (at_ n : Nat) :
    ((s.core c).spRead gen at_ n).1 = (List.range n).map fun j => s.spByte c gen (at_ + j) := rfl

/-- A load whose bytes the L1 holds, with no older load of the same bytes. -/
theorem finishLoad_held (s : State) (c id : Nat) (f : Flight) (op : MemOp) (hacq : op.kind.order.acquires = false)
    (hclear : (s.core c).clearOf f.slot op.acc op.kind.ty.size)
    (hheld : ∀ a ∈ op.acc, a.val = none ∧ a.err = 0 ∧ a.fl = flNone ∧ ∃ t, a.t = some t ∧ t.plain ∧ s.holds c t op.kind.ty.size) :
    s.finishLoad c id f op = ((s.updCore c (·.writeLocs f.slot f.gen (op.acc.flatMap fun a =>
      a.writes op.kind.ty (placeVal op.kind.ty (s.laneWord c op.kind.ty.size a))))).dropFlight c id).dropFlag c f.slot f.flag := by
  rw [State.finishLoad, State.sampleOlder_clear _ _ _ _ _ _ _ hclear, sampleAll_held _ _ _ _ _ hacq fun a ha =>
    ⟨(hheld a ha).1, (hheld a ha).2.2.2⟩]
  refine finishMem_clean _ _ _ _ { op with acc := _ } _ ?_ hacq ?_
  · intro a ha
    obtain ⟨b, hb, rfl⟩ := List.mem_map.1 ha
    exact ⟨rfl, (hheld b hb).2.2.1⟩
  · rw [List.flatMap_map]
    rfl

/-- An `lds` takes the bytes of the scratchpad. -/
theorem finishLds_clean (s : State) (c id : Nat) (f : Flight) (ty : MTy) (acc : List LAcc)
    (hclean : ∀ a ∈ acc, a.val = none ∧ a.err = 0 ∧ a.fl = flNone) {y : Task} (hy : y = (s.core c).task ((s.core c).taskOfBand f.slot)) :
    s.finishLds c id f ty acc = ((s.updCore c (·.writeLocs f.slot f.gen (acc.flatMap fun a => a.writes ty (placeVal ty (ofBytes
      ((List.range ty.size).map fun j => s.spByte c y.gen (y.spBase + a.va.toNat + j))))))).dropFlight c id).dropFlag c f.slot f.flag := by
  subst hy
  have hsample : ∀ a ∈ acc, (s.core c).spSample ((s.core c).task ((s.core c).taskOfBand f.slot)) ty a = { a with val := some (placeVal ty (ofBytes
      ((List.range ty.size).map fun j => s.spByte c ((s.core c).task ((s.core c).taskOfBand f.slot)).gen
        (((s.core c).task ((s.core c).taskOfBand f.slot)).spBase + a.va.toNat + j)))) } := fun a ha => by
    rw [Core.spSample, (hclean a ha).1]
    dsimp only
    rw [spRead_bytes]
  rw [State.finishLds, List.map_congr_left hsample]
  refine ends_clean s c id f ty _ false _ ?_ ?_
  · intro a ha
    obtain ⟨b, hb, rfl⟩ := List.mem_map.1 ha
    exact (hclean b hb).2
  · rw [List.flatMap_map]
    rfl

/-! ## Remote accesses that are not acknowledged -/

/-- A state in which nothing has been written to no place. -/
theorem KeepsAll.writeNone (s : State) (c slot : Nat) (gen : BitVec 16) : KeepsAll s (s.updCore c (·.writeLocs slot gen [])) := by
  have hcore : ∀ d, (s.updCore c (·.writeLocs slot gen [])).core d = s.core d := fun d => by
    rw [State.core_updCore]
    split <;> rfl
  refine ⟨fun d n e b gen' l _ => ?_, ⟨fun d => ?_, fun d b => ?_, fun d b => ?_⟩, (MemSame.writeLocs _ _ _ _ _).keeps, State.outside_updCore _ _ _⟩
  · rw [State.reg, State.reg, hcore]
  · rw [hcore]
  · rw [hcore]
  · rw [hcore]

theorem KeepsAll.dropFlight (s : State) (c id : Nat) : KeepsAll s (s.dropFlight c id) :=
  ⟨fun _ _ => KeepsRegs.dropFlight _ _ _ _ _ _, KeepsThreads.dropFlight _ _ _, (MemSame.dropFlight _ _ _).keeps, State.outside_dropFlight _ _ _⟩

theorem flights_dropFlag (s : State) (c slot : Nat) (f : Option Nat) (d : Nat) :
    ((s.dropFlag c slot f).core d).flights = (s.core d).flights := by
  cases f with
  | none => rfl
  | some n => exact State.part_updBand (·.flights) (fun _ _ => rfl) _ _ _ _ _

theorem flights_writeNone (k : Core) (slot : Nat) (gen : BitVec 16) : (k.writeLocs slot gen []).flights = k.flights := rfl

/-- The lanes of an atomic that is not acknowledged. -/
def LAcc.lost (a : LAcc) : LAcc := { a with val := some 0, err := 4 }

/-- An operation all of whose lanes fail writes nothing and traps. -/
theorem finishMem_lost (s : State) (c id : Nat) (f : Flight) (op : MemOp) (a : LAcc) (l : List LAcc) (hacq : op.kind.order.acquires = false)
    (huni : op.kind.uniform = false) (hacc : op.acc = (a :: l).map LAcc.lost) :
    s.finishMem c id f op = (((s.updCore c (·.writeLocs f.slot f.gen [])).dropFlight c id).dropFlag c f.slot f.flag).asyncTrap c f.slot
      (maskOf ((a :: l).map (·.lane))) 0x0C 4 a.va := by
  have hgood : ((a :: l).map LAcc.lost).filter (fun a => a.err == 0) = [] := by
    rw [List.filter_eq_nil_iff]
    intro b hb
    obtain ⟨d, -, rfl⟩ := List.mem_map.1 hb
    simp [LAcc.lost]
  have hbad : ((a :: l).map LAcc.lost).filter (fun a => a.err != 0) = (a :: l).map LAcc.lost := by
    rw [List.filter_eq_self]
    intro b hb
    obtain ⟨d, -, rfl⟩ := List.mem_map.1 hb
    rfl
  unfold State.finishMem State.writeLanes State.endFlight
  dsimp only
  rw [hacc, hgood, hbad, hacq, huni, List.map_map]
  rfl

/-- Settles O47: the fold of a store's lanes; each completion by what finishes it. -/
theorem storesAndCompletions : Obligations.StoresAndCompletions := by
  refine ⟨?_, ?_⟩
  · rintro s c slot pd op ftz hplain _ rfl
    obtain ⟨hfl, hspec⟩ := foldl_storeNext c slot pd op ftz op.acc hplain s
    rw [storeAll_eq s c slot pd op ftz hfl]
    exact hspec
  · rintro s c id f acc hflight hplaced
    refine ⟨?_, ?_, ?_, ?_, ?_⟩
    · rintro op hk rfl hacq hclear hheld w rfl hd
      exact ⟨_, (loadCompletion_load hflight hk).trans (congrArg _ (finishLoad_held s c id f op hacq hclear hheld)),
        delivers_clean s c id f _ hplaced hd⟩
    · rintro ty hk hclean y rfl w rfl hd
      exact ⟨_, (loadCompletion_lds hflight hk).trans (congrArg _ (finishLds_clean s c id f ty acc hclean rfl)),
        delivers_clean s c id f _ hplaced hd⟩
    · rintro op hk rfl hacq hclean w hw hd
      exact ⟨_, (atomicCompletion_eq hflight hk).trans (congrArg _ (finishMem_clean s c id f op w hclean hacq hw)),
        delivers_clean s c id f _ hplaced hd⟩
    · rintro p hk hclean w hw hd
      exact ⟨_, (blockCompletion_eq hflight hk).trans (congrArg _ (ends_clean s c id f .b32 acc false w hclean hw)),
        delivers_clean s c id f _ hplaced hd⟩
    · rintro op a l hk hat huni hacq rfl hacc hremote
      have hlost : op.acc.map (fun a => if a.t.elim false s.isRemote then { a with val := some 0, err := 4 } else a) = (a :: l).map LAcc.lost := by
        rw [← hacc]
        refine List.map_congr_left fun b hb => ?_
        have := hremote b hb
        rw [if_pos (by cases hbt : b.t <;> simp_all)]
        rfl
      refine ⟨((s.updCore c (·.writeLocs f.slot f.gen [])).dropFlight c id).dropFlag c f.slot f.flag,
        (KeepsAll.writeNone _ _ _ _).trans ((KeepsAll.dropFlight _ _ _).trans (KeepsAll.dropFlag _ _ _ _)), ?_, ?_⟩
      · rw [flights_dropFlag, State.dropFlight, State.core_updCore_self, State.core_updCore_self, flights_writeNone]
      · change execRemoteAccessTimeout c id s = _
        rw [execRemoteAccessTimeout, hflight]
        dsimp only
        rw [hk]
        dsimp only
        rw [if_pos hat, hlost, finishMem_lost s c id f { op with acc := (a :: l).map LAcc.lost } a l hacq huni rfl, hacc]

end Sys2Proof.Machine
end

section
/-! PROOFS. `lds`, `sts`, `pf` and `pwaddr` (R134, R154, R158, R162, R164, R185). -/

namespace Sys2Proof.Machine

/-! ## The scratchpad -/

/-- What `lds` does (R158, R162). -/
def ldsStep (ty : MTy) (o : MV) (x : Ctx) (t : State) : Res :=
  match x.spFault ty o with
  | some l => .trap 0x05 0 ((x.spAddr o l).setWidth 64)
  | none =>
    if x.active == 0 then .ok t
    else if x.l.gentrap && (lanesOf x.active).any fun l =>
        !(x.k.spRead x.gen (x.task.spBase + (x.spAddr o l).toNat) ty.size).2 then .trap 0x04 0 0
    else .ok (t.start x x.active x.flagA (.lds ty ((lanesOf x.active).map fun l =>
      access l ((x.spAddr o l).setWidth 64) 0 0 (x.vAt l o.vd) (x.vAt1 l o.vd))))

/-- The lanes of an `sts` written to a core's scratchpad, lowest first. -/
def Core.stsLanes (x : Ctx) (ty : MTy) (o : MV) (k : Core) : Core :=
  (lanesOf x.active).foldl (fun k l => k.spWrite x.gen (x.task.spBase + (x.spAddr o l).toNat) (bytesOf ty.size (x.dataOf ty l o.vd).toNat)
    fun _ => spTag ty) k

/-- What `sts` does (R134, R158, R162). -/
def stsStep (ty : MTy) (o : MV) (x : Ctx) (t : State) : Res :=
  match x.spFault ty o with
  | some l => .trap 0x05 0 ((x.spAddr o l).setWidth 64)
  | none => .ok ((t.spSampleOlder x.core x.slot ((lanesOf x.active).map fun l => ((x.spAddr o l).toNat, ty.size))).updCore x.core
      (Core.stsLanes x ty o))

theorem lds_eq (ty : MTy) (o : MV) (s : State) :
    exec (.lds ty o) s = issue (.lds ty o) (shapeMem o (spSrcs o) [] [o.vd.toNat]) (ldsStep ty o) s := rfl

theorem sts_eq (ty : MTy) (o : MV) (s : State) :
    exec (.sts ty o) s = issue (.sts ty o) (shapeMem o (spSrcs o) (dataSrc ty o.vd) [o.vd.toNat]) (stsStep ty o) s := rfl

/-- What earlier `lds` of a band take differs in the operations in flight only. -/
theorem spSampleOlder_core (m : State) (c slot : Nat) (l : List (Nat × Nat)) (d : Nat) :
    { (m.spSampleOlder c slot l).core d with flights := [] } = { m.core d with flights := [] } := by
  rw [State.spSampleOlder, State.core_updCore]
  split <;> rfl

theorem stsLanes_spByte (x : Ctx) (ty : MTy) (o : MV) (k : Core) (a : Nat) : (k.stsLanes x ty o).spByte x.gen a =
    (lanesOf x.active).foldl (fun b l => putByte (x.task.spBase + (x.spAddr o l).toNat) (bytesOf ty.size (x.dataOf ty l o.vd).toNat) a b)
      (k.spByte x.gen a) :=
  sts_fold _ k x.gen _ _ _ a

theorem stsLanes_rest (x : Ctx) (ty : MTy) (o : MV) (k : Core) :
    { k.stsLanes x ty o with scratch := [], flights := [] } = { k with scratch := [], flights := [] } :=
  foldl_keeps (fun k : Core => { k with scratch := [], flights := [] }) _
    (fun _ _ => spWrite_part (fun k : Core => { k with scratch := [], flights := [] }) (fun _ _ => rfl) _ _ _ _ _) _ k

theorem State.spByte_eq (s : State) (c : Nat) (gen : BitVec 16) (a : Nat) : s.spByte c gen a = (s.core c).spByte gen a :=
  Core.spRead_one _ _ _

theorem Core.spByte_congr {k k' : Core} (h : k'.scratch = k.scratch) (gen : BitVec 16) (a : Nat) : k'.spByte gen a = k.spByte gen a := by
  unfold Core.spByte Core.spRow
  rw [h]

/-- What an `sts` leaves. -/
theorem sts_leaves (m : State) (x : Ctx) (ty : MTy) (o : MV) (l : List (Nat × Nat)) :
    let t := (m.spSampleOlder x.core x.slot l).updCore x.core (Core.stsLanes x ty o)
    (∀ a, t.spByte x.core x.gen a = (lanesOf x.active).foldl (fun b l => putByte (x.task.spBase + (x.spAddr o l).toNat)
      (bytesOf ty.size (x.dataOf ty l o.vd).toNat) a b) (m.spByte x.core x.gen a)) ∧
    (∀ c, c ≠ x.core → t.core c = m.core c) ∧
    { t.core x.core with scratch := [], flights := [] } = { m.core x.core with scratch := [], flights := [] } ∧ t.outside = m.outside := by
  have holder := spSampleOlder_core m x.core x.slot l x.core
  have hscratch : ((m.spSampleOlder x.core x.slot l).core x.core).scratch = (m.core x.core).scratch := by
    have := congrArg Core.scratch holder
    exact this
  refine ⟨fun a => ?_, fun c hc => ?_, ?_, ?_⟩
  · rw [State.spByte_eq, State.spByte_eq, State.core_updCore_self, stsLanes_spByte, Core.spByte_congr hscratch]
  · rw [State.core_updCore, if_neg hc, State.spSampleOlder, State.core_updCore, if_neg hc]
  · rw [State.core_updCore_self, stsLanes_rest]
    exact congrArg (fun k : Core => { k with scratch := [] }) holder
  · rw [State.outside_updCore, State.spSampleOlder, State.outside_updCore]

/-! ## Prefetches -/

/-- What `pf` does for one lane (R164). -/
def State.prefetch (x : Ctx) (o : MV) (t : State) (l : Nat) : State :=
  match t.translate x.core x.pd (x.addr o l) accLoad with
  | (t, .error _) => t
  | (t, .ok tr) =>
    if tr.fmt == 9 then (t.pwFill x.core x.pd tr).1
    else if tr.mty ≤ 2 then (t.l1Fill x.core x.pd tr).1 else t

theorem pf_eq (o : MV) (s : State) : exec (.pf o) s = issue (.pf o) { shapeMem o (addrSrcs o) [] [] with mem := false }
    (fun x t => .ok ((lanesOf x.active).foldl (State.prefetch x o) t)) s := rfl

theorem translate_hit {s : State} {c pd : Nat} {va : BitVec 64} {a : Nat} {r : Except Nat Trans} (h : s.lookup c pd va a = some r) :
    s.translate c pd va a = (s, r) := by
  rw [State.translate, h]

theorem prefetch_nothing {x : Ctx} {o : MV} {t : State} {l : Nat} (h : (∃ n, t.lookup x.core x.pd (x.addr o l) 0 = some (.error n)) ∨
    ∃ tr, t.lookup x.core x.pd (x.addr o l) 0 = some (.ok tr) ∧ 2 < tr.mty ∧ tr.fmt ≠ 9) : State.prefetch x o t l = t := by
  rcases h with ⟨n, h⟩ | ⟨tr, h, hmty, hfmt⟩
  · rw [State.prefetch, accLoad, translate_hit h]
  · rw [State.prefetch, accLoad, translate_hit h]
    dsimp only
    rw [if_neg (by simpa using hfmt), if_neg (by omega)]

theorem foldl_stays {α β : Type} (f : α → β → α) (a : α) (l : List β) (h : ∀ b ∈ l, f a b = a) : l.foldl f a = a := by
  induction l with
  | nil => rfl
  | cons b l ih => rw [List.foldl_cons, h b (List.mem_cons_self ..), ih fun c hc => h c (List.mem_cons_of_mem _ hc)]

/-- An instruction that starts an operation. -/
theorem issue_starts {s : State} {u : Cursor} {i : Instr} {q : Shape} {x : Ctx} (h : s.issues u i q = true) (hx : x = s.seen u i q)
    (f : Ctx → State → Res) {lanes : Word} {flag : Option Nat} {kind : FKind}
    (hf : f x (s.passed u i q) = .ok ((s.passed u i q).start x lanes flag kind)) :
    ∃ t, issue i q f s = .next t ∧ s.Starts u i q lanes flag kind t := by
  subst hx
  exact ⟨_, issue_ok h f hf, State.starts s u i q _ _ _⟩

/-- Settles O48: the fault, the stale granule or the start; `sts_leaves`; `prefetch` of each lane. -/
theorem scratchpad : Obligations.Scratchpad := by
  refine ⟨?_, ?_⟩
  · rintro s u i ty o q x m va bad hx h rfl hva hbad
    obtain rfl : va = x.spAddr o := funext hva
    obtain rfl : bad = fun l => (x.spAddr o l).toNat % ty.size != 0 || decide (x.task.spBytes < (x.spAddr o l).toNat + ty.size) := funext hbad
    have hxc : x.core = u.core := by rw [hx, State.seen_core]
    refine ⟨?_, fun hnone => ⟨?_, ?_⟩⟩
    · rintro hform l hl
      have hfault : x.spFault ty o = some l := hl
      rcases hform with ⟨rfl, rfl⟩ | ⟨rfl, rfl⟩
      · exact issue_trapOf h hx rfl (ldsStep ty o) (by rw [ldsStep, hfault])
      · exact issue_trapOf h hx rfl (stsStep ty o) (by rw [stsStep, hfault])
    · rintro rfl rfl stale
      have hfault : x.spFault ty o = none := hnone
      have hstale : ((lanesOf x.active).any fun l => !(x.k.spRead x.gen (x.task.spBase + (x.spAddr o l).toNat) ty.size).2) = true ↔ stale := by
        simp [stale]
      rw [lds_eq]
      refine ⟨fun hidle => ?_, fun hact hgen hst => ?_, fun hact hst => ?_⟩
      · refine issue_ok h _ ?_
        rw [← hx, ldsStep, hfault]
        exact if_pos (by simpa using hidle)
      · refine issue_trapOf h hx rfl _ ?_
        rw [ldsStep, hfault]
        exact (if_neg (by simpa using hact)).trans (if_pos (by rw [hgen, hstale.2 hst]; rfl))
      · refine issue_starts h hx _ ?_
        rw [ldsStep, hfault]
        exact (if_neg (by simpa using hact)).trans (if_neg (by rwa [Bool.and_eq_true, hstale]))
    · rintro rfl rfl
      have hfault : x.spFault ty o = none := hnone
      obtain ⟨hbytes, hcores, hrest, hout⟩ := sts_leaves (s.passed u (.sts ty o) (shapeMem o (spSrcs o) (dataSrc ty o.vd) [o.vd.toNat])) x ty o
        ((lanesOf x.active).map fun l => ((x.spAddr o l).toNat, ty.size))
      rw [sts_eq]
      refine ⟨_, issue_ok h _ (by rw [← hx, stsStep, hfault]), ?_⟩
      rw [hxc] at hbytes hcores hrest hout ⊢
      exact ⟨hbytes, hcores, hrest, hout.trans (State.outside_passed _ _ _ _)⟩
  · rintro s u i ty o q x m va hx h rfl hva
    obtain rfl : va = x.addr o := funext hva
    have hxc : x.core = u.core := by rw [hx, State.seen_core]
    refine ⟨?_, ?_⟩
    · rintro rfl rfl
      rw [pf_eq]
      refine ⟨fun hnothing => issue_ok h _ ?_, fun l t hone hlook hmty hfmt => issue_ok h _ ?_⟩
      · rw [← hx, foldl_stays _ _ _ fun l hl => prefetch_nothing (by rw [hxc]; exact hnothing l hl)]
      · rw [← hx, hone, List.foldl_cons, List.foldl_nil, State.prefetch, accLoad, hxc, translate_hit hlook]
        dsimp only
        rw [if_neg (by simpa using hfmt), if_pos hmty]
    · rintro rfl rfl
      subst hx
      have hwf : (o.u && evenReg o.vd && evenReg o.vb && decide (o.vb.toNat ≤ 60)) = true := State.wf_of_issues h
      have heven : evenReg o.vd = true := by
        simp only [Bool.and_eq_true] at hwf
        exact hwf.1.1.2
      exact issue_each64 h o.vd heven fun x l => x.s64 (o.vb.extractLsb' 0 6) + o.off.signExtend 64 +
         BitVec.ofNat 64 (pwElement (x.readS ((o.vb.extractLsb' 0 6).toNat + 2)).1 (x.v l o.va) * if ty = .f64 then 8 else 4)

end Sys2Proof.Machine
end

section
/-! PROOFS. Transfers between memory, the scratchpad, tiles and accumulators (R281, R283, R289, R291). -/

namespace Sys2Proof.Machine

/-! ## What a transfer leaves in its core -/

theorem tldHere_leaves {w : Xfer} (k : Core) (task : Task) (fl : Map Flight) (hop : w.op = .tld) (hrows : w.rows ≤ 64) :
    let k' := w.moveHere { k with flights := fl } task
    (∀ r < w.rows, k'.tileRow task w.reg r = ((k.granuleRow task.gen (w.granule task r)).1,
      if w.fmt = 0 then (k.granuleRow task.gen (w.granule task r)).2.1 else w.fmt, true)) ∧
    (∀ n, (∀ r < w.rows, n ≠ task.tileKey w.reg r) → mapGet k'.tiles n = mapGet k.tiles n) ∧
    { k' with tiles := [] } = { k with tiles := [], flights := fl } := by
  intro k'
  exact Core.tile_written _ task w.reg w.rows hrows _ _ k' ((moveHere_parts w { k with flights := fl } task (.inl hop)).1 hop)

theorem tstHere_leaves {w : Xfer} (k : Core) (task : Task) (fl : Map Flight) (hop : w.op = .tst) :
    let k' := w.moveHere { k with flights := fl } task
    (∀ g, (∀ r < w.rows, g ≠ w.granule task r) → mapGet k'.scratch g = mapGet k.scratch g) ∧
    (∀ r < w.rows, (∀ r' < w.rows, w.granule task r' = w.granule task r → r' ≤ r) →
      k'.granuleRow task.gen (w.granule task r) = ((k.tileRow task w.reg r).1, (k.tileRow task w.reg r).2.1, true)) ∧
    { k' with scratch := [] } = { k with scratch := [], flights := fl } := by
  intro k'
  have hk : k' = _ := (moveHere_parts w { k with flights := fl } task (.inr hop)).2 hop
  rw [hk]
  refine ⟨fun g hg => mapGet_foldSet_ne _ _ _ _ _ fun r hr => hg r (List.mem_range.1 hr), fun r hr hlast => ?_, rfl⟩
  rw [Core.granuleRow, mapGet_foldSet_last _ _ _ _ r hr hlast]
  exact if_pos rfl

/-- The format tag of a row that a tile load writes. -/
def loadedFmt (w : Xfer) (tr : Nat × Nat × BitVec 64 → Trans) (r : Nat) : BitVec 4 :=
  match (allParts w tr).find? fun p => p.1 == r with
  | some p => if w.fmt = 0 then rawTag p.2.2.2 p.2.2.1 else w.fmt
  | none => w.fmt

theorem loadedFmt_given {w : Xfer} (tr : Nat × Nat × BitVec 64 → Trans) (r : Nat) (h : w.fmt ≠ 0) : loadedFmt w tr r = w.fmt := by
  unfold loadedFmt
  split
  · rw [if_neg h]
  · rfl

theorem tldFar_leaves {w : Xfer} (m : State) (c : Nat) (k : Core) (task : Task) (tr : Nat × Nat × BitVec 64 → Trans) (hop : w.op = .tld)
    (hrows : w.rows ≤ 64) :
    let k' := loadedCore w task tr (rowNum m c w tr) k
    (∀ r < w.rows, m.rowLoaded c w tr r (k'.tileRow task w.reg r).1.toNat ∧ (k'.tileRow task w.reg r).2.2 = true ∧
      (w.fmt ≠ 0 → (k'.tileRow task w.reg r).2.1 = w.fmt)) ∧
    (∀ n, (∀ r < w.rows, n ≠ task.tileKey w.reg r) → mapGet k'.tiles n = mapGet k.tiles n) ∧
    { k' with tiles := [] } = { k with tiles := [] } := by
  intro k'
  have hk : k' = (List.range w.rows).foldl (fun k r => k.putTileRow task w.reg r (loadedFmt w tr r) (BitVec.ofNat 512 (rowNum m c w tr r))) k := by
    have hput : putRow w task tr (rowNum m c w tr) = fun r k => k.putTileRow task w.reg r (loadedFmt w tr r)
        (BitVec.ofNat 512 (rowNum m c w tr r)) := by
      funext r k
      unfold putRow
      rw [hop]
      rfl
    simp only [k', loadedCore, hop, hput, reduceCtorEq, if_false]
  obtain ⟨hrow, hother, hrest⟩ := Core.tile_written k task w.reg w.rows hrows _ _ k' hk
  refine ⟨fun r hr => ?_, hother, hrest⟩
  rw [hrow r hr]
  refine ⟨rowNum_loaded m c w tr r _ ?_, rfl, fun hfmt => loadedFmt_given tr r hfmt⟩
  rw [BitVec.toNat_ofNat, pow256, show w.rowBytes = 64 by simp only [Xfer.rowBytes, hop]]

theorem aldFar_leaves {w : Xfer} (m : State) (c : Nat) (k : Core) (task : Task) (tr : Nat × Nat × BitVec 64 → Trans) (hop : w.op = .ald)
    (hrows : w.rows = 64) :
    let k' := loadedCore w task tr (rowNum m c w tr) k
    (∀ r < 64, m.rowLoaded c w tr r (k'.accRow task w.reg r).1.toNat ∧ (k'.accRow task w.reg r).2 = true) ∧
    k'.accStatus task w.reg = (0, true) ∧
    (∀ n, (∀ r < 64, n ≠ task.accKey w.reg r) → mapGet k'.accs n = mapGet k.accs n) ∧
    (∀ n, n ≠ task.accAt w.reg → mapGet k'.accStat n = mapGet k.accStat n) ∧
    { k' with accs := [], accStat := [] } = { k with accs := [], accStat := [] } := by
  intro k'
  have hk : k' = ((List.range 64).foldl (fun k r => k.putAccRow task w.reg r (BitVec.ofNat 2048 (rowNum m c w tr r))) k).putStatus task w.reg 0 := by
    have hput : putRow w task tr (rowNum m c w tr) = fun r k => k.putAccRow task w.reg r (BitVec.ofNat 2048 (rowNum m c w tr r)) := by
      funext r k
      unfold putRow
      rw [hop]
    simp only [k', loadedCore, hop, hput, hrows, if_true]
  obtain ⟨hrow, hstatus, hother, hstats, hrest⟩ := Core.acc_written k task w.reg 64 (Nat.le_refl _) _ _ k' hk
  refine ⟨fun r hr => ?_, hstatus, hother, hstats, hrest⟩
  rw [hrow r hr]
  refine ⟨rowNum_loaded m c w tr r _ ?_, rfl⟩
  rw [BitVec.toNat_ofNat, pow256, show w.rowBytes = 256 by simp only [Xfer.rowBytes, hop]]

/-! ## The transfers -/

/-- A transfer in flight from a state, its flag raised. -/
def Xfer.startsIn (w : Xfer) (u : Cursor) (x : Ctx) (m t : State) : Prop :=
  (t.core u.core).bands = ((m.flagged u.core u.slot (flagOf x.cl.setb)).core u.core).bands ∧
    ∃ err, (w.op = .tst ∨ w.op = .ast ∨ w.scratch = true → err = 0) ∧
      mapGet (t.core u.core).flights (m.core u.core).nextOp =
        some ⟨u.slot, x.gen, x.lanes, flagOf x.cl.setb, .xfer w.op w.reg w.granules err⟩

/-- A transfer that wrote parts of its core, started. -/
theorem start_written {u : Cursor} {x : Ctx} (hxc : x.core = u.core) (hxs : x.slot = u.slot) (w : Xfer) (m : State) (F : Core → Core)
    (hbands : (F (m.core u.core)).bands = (m.core u.core).bands) (hnext : (F (m.core u.core)).nextOp = (m.core u.core).nextOp) :
    let t := (m.updCore u.core F).start x x.lanes x.flagB (.xfer w.op w.reg w.granules 0)
    w.startsIn u x m t ∧ (∀ c, c ≠ u.core → t.core c = m.core c) ∧ t.outside = m.outside ∧
      ∃ b fl n, t.core u.core = { F (m.core u.core) with bands := b, flights := fl, nextOp := n } := by
  intro t
  obtain ⟨hothers, hout, hcore⟩ := start_moved m u.core F x hxc x.lanes x.flagB (.xfer w.op w.reg w.granules 0) hbands hnext
  rw [hxs] at hcore
  have hstarted := congrArg Core.bands hcore
  refine ⟨⟨hstarted, 0, fun _ => rfl, ?_⟩, hothers, hout, _, _, _, hcore⟩
  have hflights := congrArg Core.flights hcore
  rw [show (t.core u.core).flights = _ from hflights, mapGet_mapSet_self]
  rfl

/-- The core that a transfer saw differs in its sub-bands and bands only from that past the instruction. -/
theorem seen_part {s : State} {u : Cursor} {i : Instr} {q : Shape} {x : Ctx} (hx : x = s.seen u i q) {β : Type} (p : Core → β)
    (hT : ∀ k y, p { k with table := y } = p k) (hB : ∀ k y, p { k with bands := y } = p k) : p x.k = p ((s.passed u i q).core u.core) := by
  rw [State.part_passed p hT hB, hx, State.seen]
  rfl

theorem bands_flagged {s t : State} {c : Nat} (h : (t.core c).bands = (s.core c).bands) (slot : Nat) (f : Option Nat) :
    ((t.flagged c slot f).core c).bands = ((s.flagged c slot f).core c).bands := by
  cases f with
  | none => exact h
  | some n =>
    rw [State.flagged, State.flagged, State.addFlag, State.addFlag, State.updBand, State.updBand, State.core_updCore_self,
      State.core_updCore_self]
    simp only [Core.updBand, h]

/-- The rows of a store written, and the store started. -/
theorem stored_starts {u : Cursor} {x : Ctx} (hxc : x.core = u.core) (hxs : x.slot = u.slot) {w : Xfer} {m : State} {k : Core}
    {tr : Nat × Nat × BitVec 64 → Trans} (hop : w.op = .tst ∨ w.op = .ast)
    (h : ∀ p ∈ w.parts, (tr p).mty ≤ 2 ∧ (tr p).off % 128 + 64 ≤ 128) :
    let t := ((List.range w.rows).foldl (fun s r => w.storeRow x.core x.slot x.pd x.lanes k x.task s r (allParts w tr)) m).start x
      x.lanes x.flagB (.xfer w.op w.reg w.granules 0)
    w.startsIn u x m t ∧
    (∀ c pa, t.byteAt c pa = if c = u.core then m.putParts w k x.task tr pa (m.byteAt c pa) else m.byteAt c pa) ∧
    (∀ pa, t.homeByte pa = m.homeByte pa) ∧ (∀ c gen a, t.spByte c gen a = m.spByte c gen a) ∧
    KeepsSystem (m.flagged u.core u.slot (flagOf x.cl.setb)) t ∧ KeepsThreads m t ∧ KeepsRegs m t u.core u.slot [] ∧
    t.outside = m.outside := by
  obtain ⟨hbytes, hhome, hsp, hout, hsystem, hthreads, hregs, hbands, hnext⟩ := storeRows_spec w m x.core x.slot x.pd x.lanes k x.task tr hop h _ rfl
  generalize (List.range w.rows).foldl (fun s r => w.storeRow x.core x.slot x.pd x.lanes k x.task s r (allParts w tr)) m = t₀ at *
  intro t
  have ht : t = _ := State.start_eq t₀ x x.lanes x.flagB (.xfer w.op w.reg w.granules 0)
  rw [hxc, hxs] at *
  have hmem := ((MemSame.flagged t₀ u.core u.slot x.flagB).trans (MemSame.launchFlight _ u.core
    ⟨u.slot, x.gen, x.lanes, x.flagB, .xfer w.op w.reg w.granules 0⟩)).keeps
  obtain ⟨hhome', hbytes', hsp', -, -⟩ := hmem
  have hlaunched : t = (t₀.flagged u.core u.slot x.flagB).launchFlight u.core ⟨u.slot, x.gen, x.lanes, x.flagB, .xfer w.op w.reg w.granules 0⟩ := by
    rw [ht, hxc, hxs]
  rw [← hlaunched] at hhome' hbytes' hsp'
  have hflags := hsystem.flag hbands u.core u.slot x.flagB
  refine ⟨⟨?_, 0, fun _ => rfl, ?_⟩, fun c pa => (hbytes' c pa).trans (hbytes c pa), fun pa => (hhome' pa).trans (hhome pa),
    fun c gen a => (hsp' c gen a).trans (hsp c gen a), ?_, ?_, ?_, ?_⟩
  all_goals rw [hlaunched]
  · rw [State.part_launchFlight (·.bands) fun _ _ _ => rfl]
    exact bands_flagged (hbands _) _ _
  · have hid : ((t₀.flagged u.core u.slot x.flagB).core u.core).nextOp = (m.core u.core).nextOp := by
      rw [State.part_flagged (·.nextOp) fun _ _ => rfl, hnext]
    rw [State.launchFlight, State.core_updCore_self, ← hid]
    exact mapGet_mapSet_self _ _ _
  · exact hflags.trans (KeepsSystem.launchFlight _ _ _)
  · exact (hthreads.trans (KeepsThreads.flagged _ _ _ _)).trans (KeepsThreads.launchFlight _ _ _)
  · exact (hregs.trans (KeepsRegs.flagged _ _ _ _ _ _ _)).trans (KeepsRegs.launchFlight _ _ _ _ _ _)
  · rw [State.outside_launchFlight, State.outside_flagged, hout]

theorem putParts_congr {m : State} {w : Xfer} {k k' : Core} {t : Task} {tr : Nat × Nat × BitVec 64 → Trans} (htiles : k.tiles = k'.tiles)
    (haccs : k.accs = k'.accs) : m.putParts w k t tr = m.putParts w k' t tr := by
  have hrow : ∀ r, w.rowBytesOf k t r = w.rowBytesOf k' t r := fun r => by
    rw [Xfer.rowBytesOf, Xfer.rowBytesOf, Core.tileRow, Core.tileRow, Core.accRow, Core.accRow, htiles, haccs]
  funext pa old
  simp only [State.putParts, hrow]

/-- Settles O49: the cases of `transfer_cases`; `start_written` with what a transfer leaves in its core; `stored_starts`. -/
theorem matrixTransfers : Obligations.MatrixTransfers := by
  rintro s u i f q x m w hf rfl hx h rfl hw flag starts
  have hxc : x.core = u.core := by rw [hx, State.seen_core]
  have hxs : x.slot = u.slot := by rw [hx, State.seen_slot]
  obtain ⟨hexec, hshape⟩ := xferForm_exec s i f hf
  obtain ⟨hpos, hrows, hscratch, hald⟩ := hshape x
  obtain ⟨hheld, hfree⟩ := transfer_cases x (s.passed u i f.shape) (f.xfer x)
  rw [← hw] at hpos hrows hscratch hald hheld hfree
  rw [hxc] at hheld hfree
  rw [hexec]
  have hout := State.outside_passed s u i f.shape
  have hruns : ∀ r, f.stale x = false → transfer x (s.passed u i f.shape) w = r →
      (fun x t => if f.stale x = true then .trap 0x04 0 0 else transfer x t (f.xfer x)) x (s.passed u i f.shape) = r :=
    fun r hfresh hr => (if_neg (by rw [hfresh]; exact Bool.false_ne_true)).trans (by rw [← hw]; exact hr)
  refine ⟨fun hstale => issue_trapOf h hx rfl _ (if_pos hstale),
    fun hfresh hblocked => issue_hold h (by rw [← hx]; exact hruns _ hfresh (hheld hblocked)), fun hfresh hclear => ?_⟩
  obtain ⟨hbad, hstale, hgo⟩ := hfree hclear
  refine ⟨fun hb => issue_trapOf h hx rfl _ (hruns _ hfresh (hbad hb)),
    fun hb hg hs => issue_trapOf h hx rfl _ (hruns _ hfresh (hstale hb hg hs)), fun hb hs => ?_⟩
  obtain ⟨hhere, hfar⟩ := hgo hb hs
  refine ⟨fun hsp => ?_, fun hmem tr hlook => ⟨?_, ?_⟩⟩
  · have hop := hscratch hsp
    obtain ⟨G, hG, hperform⟩ := perform_scratch w x (s.passed u i f.shape) hsp (by rcases hop with e | e <;> rw [e] <;> simp)
    obtain ⟨fl, hfl⟩ := hG ((s.passed u i f.shape).core u.core)
    refine ⟨_, issue_ok h _ (by rw [← hx]; exact hruns _ hfresh ((hhere hsp).trans (congrArg Res.ok hperform))), ?_⟩
    rw [hxc]
    have hgranule : ∀ g, x.k.granuleRow x.gen g = ((s.passed u i f.shape).core u.core).granuleRow x.task.gen g := fun g =>
      seen_part hx (·.granuleRow x.gen g) (fun _ _ => rfl) fun _ _ => rfl
    have htile : ∀ r, x.k.tileRow x.task w.reg r = ((s.passed u i f.shape).core u.core).tileRow x.task w.reg r := fun r =>
      seen_part hx (·.tileRow x.task w.reg r) (fun _ _ => rfl) fun _ _ => rfl
    rcases hop with hop | hop
    · obtain ⟨hrow, hother, hrest⟩ := tldHere_leaves ((s.passed u i f.shape).core u.core) x.task fl hop hrows
      rw [← hfl] at hrow hother hrest
      obtain ⟨hstarts, hcores, hsame, b, fl', n, hcore⟩ := start_written hxc hxs w (s.passed u i f.shape) (fun k => w.moveHere (G k) x.task)
        (by have := congrArg Core.bands hrest; exact this) (by have := congrArg Core.nextOp hrest; exact this)
      refine ⟨hstarts, hcores, hsame.trans hout, fun _ => ?_, fun hst => by rw [hop] at hst; cases hst⟩
      rw [hcore]
      refine ⟨fun r hr => ?_, hother, ?_⟩
      · dsimp only
        rw [hgranule]
        exact hrow r hr
      · exact congrArg (fun k : Core => { k with bands := [], flights := [], nextOp := 0 }) hrest
    · obtain ⟨hother, hrow, hrest⟩ := tstHere_leaves ((s.passed u i f.shape).core u.core) x.task fl hop
      rw [← hfl] at hrow hother hrest
      obtain ⟨hstarts, hcores, hsame, b, fl', n, hcore⟩ := start_written hxc hxs w (s.passed u i f.shape) (fun k => w.moveHere (G k) x.task)
        (by have := congrArg Core.bands hrest; exact this) (by have := congrArg Core.nextOp hrest; exact this)
      refine ⟨hstarts, hcores, hsame.trans hout, fun hld => by (rw [hop] at hld; cases hld), fun _ => ?_⟩
      rw [hcore]
      refine ⟨hother, fun r hr hlast => ?_, ?_⟩
      · rw [htile]
        exact hrow r hr hlast
      · exact congrArg (fun k : Core => { k with bands := [], flights := [], nextOp := 0 }) hrest
  · exact fun h9 => issue_trapOf h hx rfl _ (hruns _ hfresh ((hfar hmem tr hlook).1 h9))
  · intro hgood hmeets hclr
    have hperform := (hfar hmem tr hlook).2 (fun p hp => (hgood p hp).2.1) (by rw [hxs]; exact hmeets)
    refine ⟨fun hop => ?_, fun hop hheld => ?_⟩
    · have hbytes := perform_store w x (s.passed u i f.shape) tr hmem hop (by rw [hxc, hxs]; exact hclr)
      refine ⟨_, issue_ok h _ (by rw [← hx]; exact hruns _ hfresh (hperform.trans (congrArg Res.ok hbytes))), ?_⟩
      obtain ⟨hstarts, hbytes, hrest⟩ := stored_starts hxc hxs (m := s.passed u i f.shape) (k := (s.passed u i f.shape).core x.core) hop
        fun p hp => ⟨(hgood p hp).1, (hgood p hp).2.2⟩
      rw [putParts_congr (k' := x.k) (by rw [hxc]; exact (seen_part hx (·.tiles) (fun _ _ => rfl) fun _ _ => rfl).symm)
        (by rw [hxc]; exact (seen_part hx (·.accs) (fun _ _ => rfl) fun _ _ => rfl).symm)] at hbytes
      rw [hout] at hrest
      exact ⟨hstarts, hbytes, hrest⟩
    · have hloads := perform_load w x (s.passed u i f.shape) tr hmem hop hpos (by rw [hxc, hxs]; exact hclr)
        fun p hp => ⟨(hgood p hp).1, by rw [hxc]; exact hheld p hp⟩
      rw [hxc] at hloads
      refine ⟨_, issue_ok h _ (by rw [← hx]; exact hruns _ hfresh (hperform.trans (congrArg Res.ok hloads))), ?_⟩
      rcases hop with hop | hop
      · obtain ⟨hrow, hother, hrest⟩ := tldFar_leaves (s.passed u i f.shape) u.core ((s.passed u i f.shape).core u.core) x.task tr hop hrows
        obtain ⟨hstarts, hcores, hsame, b, fl', n, hcore⟩ := start_written hxc hxs w (s.passed u i f.shape)
          (loadedCore w x.task tr (rowNum (s.passed u i f.shape) u.core w tr))
          (by have := congrArg Core.bands hrest; exact this) (by have := congrArg Core.nextOp hrest; exact this)
        refine ⟨hstarts, hcores, hsame.trans hout, fun _ => ?_, fun hl => by rw [hop] at hl; cases hl⟩
        rw [hcore]
        exact ⟨hrow, hother, congrArg (fun k : Core => { k with bands := [], flights := [], nextOp := 0 }) hrest⟩
      · obtain ⟨hrow, hstatus, hother, hstats, hrest⟩ := aldFar_leaves (s.passed u i f.shape) u.core ((s.passed u i f.shape).core u.core)
          x.task tr hop (hald hop)
        obtain ⟨hstarts, hcores, hsame, b, fl', n, hcore⟩ := start_written hxc hxs w (s.passed u i f.shape)
          (loadedCore w x.task tr (rowNum (s.passed u i f.shape) u.core w tr))
          (by have := congrArg Core.bands hrest; exact this) (by have := congrArg Core.nextOp hrest; exact this)
        refine ⟨hstarts, hcores, hsame.trans hout, fun hl => by (rw [hop] at hl; cases hl), fun _ => ?_⟩
        rw [hcore]
        exact ⟨hrow, hstatus, hother, hstats, congrArg (fun k : Core => { k with bands := [], flights := [], nextOp := 0 }) hrest⟩

end Sys2Proof.Machine
end

section
/-! PROOFS. Events of the caches, and the completions of transfers, tag waits, pops, acquires and releases (R158, R181, R219, R220, R243 to
R245, R356, R359, R361). -/

namespace Sys2Proof.Machine

/-! ## Registrations -/

theorem failRelease_parts (s : State) (c slot d : Nat) : ((s.failRelease c slot d).core c).regs = (s.core c).regs ∧
    ((s.failRelease c slot d).core c).requests = (s.core c).requests ∧ (s.failRelease c slot d).domes = s.domes ∧
    (s.failRelease c slot d).outside = s.outside := by
  rw [State.failRelease]
  exact ⟨State.part_updBand (·.regs) (fun _ _ => rfl) _ _ _ _ _, State.part_updBand (·.requests) (fun _ _ => rfl) _ _ _ _ _, by simp, by simp⟩

theorem fillBuf_held {s : State} {ln : Nat} (b : Buf) (h : (mapGet s.domes ln).isSome = true) : s.fillBuf b ln = (s, 0) := by
  rw [State.fillBuf, State.fill, if_pos h]

/-- A core's owner record of a line with words added. -/
def DomeLine.ownedBy (c : Nat) (words : Word) (d : DomeLine) : DomeLine :=
  { d with owners := if d.owners.any (·.1 == c) then d.owners.map fun (o : Nat × Word) => if o.1 = c then (c, o.2 ||| words) else o
                     else d.owners ++ [(c, words)] }

theorem ownedBy_owns (c : Nat) (words : Word) (d : DomeLine) : ∃ o, (c, o) ∈ (d.ownedBy c words).owners ∧ o &&& words = words := by
  unfold DomeLine.ownedBy
  by_cases h : d.owners.any (·.1 == c) = true
  · obtain ⟨⟨c', o⟩, ho, hc⟩ := List.any_eq_true.1 h
    rw [beq_iff_eq] at hc
    refine ⟨o ||| words, ?_, ?_⟩
    · dsimp only
      rw [if_pos h]
      exact List.mem_map.2 ⟨_, ho, if_pos hc⟩
    · ext i
      simp only [BitVec.getElem_and, BitVec.getElem_or, Bool.and_eq_right_iff_imp, Bool.or_eq_true]
      exact .inr
  · refine ⟨words, ?_, BitVec.and_self⟩
    dsimp only
    rw [if_neg h]
    exact List.mem_append_right _ (List.mem_singleton_self _)

theorem markIf (n : State) (p : Bool) (launch task ln : Nat) (w : Word) :
    (if p then n.mark launch task ln w else n).domes = n.domes ∧ (if p then n.mark launch task ln w else n).mem = n.mem ∧
      (if p then n.mark launch task ln w else n).cores = n.cores := by
  split
  · exact domes_mark _ _ _ _ _
  · exact ⟨rfl, rfl, rfl⟩

/-- A registration of a held line leaves its words with the core. -/
theorem register_owns {s : State} {c : Nat} {r : Registration} (hcheck : s.check ⟨r.pd, none⟩ true r.buf r.off 128 = 0)
    (hheld : (mapGet s.domes r.line).isSome = true) :
    ∃ d o, mapGet (s.register c r).domes r.line = some d ∧ (c, o) ∈ d.owners ∧ o &&& r.words = r.words := by
  have howns : ∀ n : State, (mapGet n.domes r.line).isSome = true →
      ∃ d o, mapGet (mapUpd n.domes r.line (DomeLine.ownedBy c r.words)) r.line = some d ∧ (c, o) ∈ d.owners ∧ o &&& r.words = r.words := by
    intro n hn
    obtain ⟨d, hd⟩ := Option.isSome_iff_exists.1 hn
    obtain ⟨o, ho⟩ := ownedBy_owns c r.words d
    exact ⟨_, o, by rw [mapGet_mapUpd, if_pos rfl, hd]; rfl, ho⟩
  have hfirst := (SameKeys.recall s r.line r.words (some c) r.line).trans hheld
  unfold State.register
  dsimp only
  rw [hcheck, fillBuf_held _ hheld]
  simp only [bne_self_eq_false, Bool.false_eq_true, if_false]
  rw [(markIf _ _ _ _ _ _).1]
  refine howns _ ?_
  split
  · exact hfirst
  · split
    · exact hfirst
    · exact (SameKeys.recall _ r.line _ none r.line).trans hfirst

/-! ## Stores at their home -/

theorem State.homeByte_eq (s : State) (pa : Nat) : s.homeByte pa =
    ((mapGet s.domes (pa / 128)).map (·.data)).elim (Memory.read s.mem pa) fun x => (getBytes x (pa % 128) 1).headD 0 := by
  rw [State.homeByte]
  cases mapGet s.domes (pa / 128) <;> rfl

/-- The data of the line that holds an address decides its byte at home. -/
theorem homeByte_congr {s t : State} (hmem : t.mem = s.mem)
    (hdata : ∀ k, (mapGet t.domes k).map (·.data) = (mapGet s.domes k).map (·.data)) (pa : Nat) : t.homeByte pa = s.homeByte pa := by
  rw [State.homeByte_eq, State.homeByte_eq, hmem, hdata]

theorem data_mapUpd (m : Map DomeLine) (ln : Nat) (f : DomeLine → DomeLine) (hf : ∀ d, (f d).data = d.data) (k : Nat) :
    (mapGet (mapUpd m ln f) k).map (·.data) = (mapGet m k).map (·.data) := by
  rw [mapGet_mapUpd]
  split
  · next h =>
    subst h
    rw [Option.map_map]
    exact congrArg (fun g => Option.map g (mapGet m k)) (funext hf)
  · rfl

theorem homeByte_dropReplicas (s : State) (ln pa : Nat) : (s.dropReplicas ln).homeByte pa = s.homeByte pa :=
  homeByte_congr (s := s) (t := s.dropReplicas ln) rfl (data_mapUpd _ _ _ fun _ => rfl) pa

/-- Bytes merged into a held line are the line's from then on (R356). -/
theorem homeByte_putLine {s : State} {ln : Nat} (at_ : Nat) (bs : List Byte) (hheld : (mapGet s.domes ln).isSome = true)
    (hfit : at_ + bs.length ≤ 128) (pa : Nat) : (s.putLine ln at_ bs).homeByte pa = putByte (128 * ln + at_) bs pa (s.homeByte pa) := by
  rw [← homeByte_dropReplicas s ln pa]
  have hdrop : (mapGet (s.dropReplicas ln).domes ln).isSome = true := by
    rw [show (s.dropReplicas ln).domes = mapUpd s.domes ln _ from rfl, mapGet_mapUpd, if_pos rfl, Option.isSome_map]
    exact hheld
  obtain ⟨d, hd⟩ := Option.isSome_iff_exists.1 hdrop
  rw [State.homeByte_eq, State.homeByte_eq, State.putLine]
  dsimp only
  rw [mapGet_mapUpd]
  have hj : pa % 128 < 128 := Nat.mod_lt _ (by omega)
  by_cases hpa : pa / 128 = ln
  · rw [if_pos hpa, hpa, hd]
    simp only [Option.map_some, Option.elim_some, getBytes_one, List.headD_cons]
    rw [byte_putBytes (N := 128) _ _ _ _ hj, putByte, show pa - (128 * ln + at_) = pa % 128 - at_ by omega]
    exact if_congr (by omega) rfl rfl
  · rw [if_neg hpa, putByte, if_neg (by omega)]

theorem performRequest_sent {s : State} {c : Nat} {r : Request} (hfar : s.isRemote r.t = true) (hroute : s.routed r.t.module = true) :
    s.performRequest c r = { s with out := s.out ++ [.remoteStore r.t.module (2 ^ 44 * r.t.buf + r.t.off) r.bytes] } := by
  rw [State.performRequest, if_pos hfar, if_pos hroute]

theorem performRequest_lost {s : State} {c : Nat} {r : Request} (hfar : s.isRemote r.t = true) (hroute : s.routed r.t.module = false) :
    s.performRequest c r = s.failRelease c r.slot 4 := by
  rw [State.performRequest, if_pos hfar, if_neg (by rw [hroute]; exact Bool.false_ne_true)]

theorem piecesOf_one {o n : Nat} (hn : 0 < n) (hfit : o % 128 + n ≤ 128) : piecesOf o n = [(o, n)] := by
  have hmin : min n (128 - o % 128) = n := by omega
  rw [piecesOf, pieces, if_neg (by omega), hmin]
  dsimp only
  rw [Nat.sub_self]
  cases n / 128 <;> rfl

/-- A posted store to a line that its dome holds and nobody owns leaves its bytes there (R361). -/
theorem performRequest_stores {s : State} {c : Nat} {r : Request} {d : DomeLine} (hlocal : s.isRemote r.t = false)
    (hn : 0 < r.bytes.length) (hfit : r.t.off % 128 + r.bytes.length ≤ 128)
    (hcheck : s.check ⟨r.pd, none⟩ true r.t.buf r.t.off r.bytes.length = 0)
    (hd : mapGet s.domes ((s.buf r.t.buf).place r.t.off / 128) = some d) (hfree : d.owners = [])
    (hline : (s.buf r.t.buf).place r.t.off % 128 + r.bytes.length ≤ 128) :
    (s.performRequest c r).cores = s.cores ∧
    ∀ pa, (s.performRequest c r).homeByte pa = putByte ((s.buf r.t.buf).place r.t.off) r.bytes pa (s.homeByte pa) := by
  have hheld : (mapGet s.domes ((s.buf r.t.buf).place r.t.off / 128)).isSome = true := by rw [hd]; rfl
  have hwrite : s.writeAt ⟨r.pd, none⟩ r.t.buf r.t.off r.bytes = (((s.recall ((s.buf r.t.buf).place r.t.off / 128)
      (wordMask ((s.buf r.t.buf).place r.t.off % 128) r.bytes.length) none).putLine ((s.buf r.t.buf).place r.t.off / 128)
        ((s.buf r.t.buf).place r.t.off % 128) r.bytes), 0) := by
    rw [State.writeAt]
    dsimp only
    rw [piecesOf_one hn hfit, List.foldl_cons, List.foldl_nil]
    dsimp only
    rw [hcheck, fillBuf_held _ hheld, Nat.sub_self]
    simp [sliceN]
  have hrecall := recall_free s ((s.buf r.t.buf).place r.t.off / 128) (wordMask ((s.buf r.t.buf).place r.t.off % 128) r.bytes.length) none d hd hfree
  generalize hm : s.recall ((s.buf r.t.buf).place r.t.off / 128) (wordMask ((s.buf r.t.buf).place r.t.off % 128) r.bytes.length) none = m
    at hwrite hrecall
  have hmheld : (mapGet m.domes ((s.buf r.t.buf).place r.t.off / 128)).isSome = true := by
    rw [← hm, SameKeys.recall, hheld]
  have hmhome : ∀ pa, m.homeByte pa = s.homeByte pa := fun pa => by
    rw [hrecall]
    refine homeByte_congr ?_ ?_ pa
    · rfl
    · exact data_mapUpd s.domes _ _ fun _ => rfl
  have hput : ∀ pa, (m.putLine ((s.buf r.t.buf).place r.t.off / 128) ((s.buf r.t.buf).place r.t.off % 128) r.bytes).homeByte pa =
      putByte ((s.buf r.t.buf).place r.t.off) r.bytes pa (s.homeByte pa) := fun pa => by
    rw [homeByte_putLine _ _ hmheld hline, hmhome, Nat.div_add_mod]
  have hcores : (m.putLine ((s.buf r.t.buf).place r.t.off / 128) ((s.buf r.t.buf).place r.t.off % 128) r.bytes).cores = s.cores := by
    rw [hrecall]; rfl
  generalize m.putLine ((s.buf r.t.buf).place r.t.off / 128) ((s.buf r.t.buf).place r.t.off % 128) r.bytes = t at hwrite hput hcores
  unfold State.performRequest
  rw [hlocal, if_neg Bool.false_ne_true, hwrite]
  dsimp only
  split
  · next heq =>
    cases heq
    have hmark := markIf t (t.launch ((t.core c).task ((t.core c).taskOfBand r.slot)).launch).det
    refine ⟨(hmark _ _ _ _).2.2.trans hcores, fun pa => ?_⟩
    rw [← hput pa]
    exact homeByte_congr (hmark _ _ _ _).2.1 (fun k => by rw [(hmark _ _ _ _).1]) pa
  · next hne heq =>
    cases heq
    exact (hne rfl).elim

/-! ## Lines given up, dropped, filled and lost -/

/-- Nobody owns a word of a line that was recalled whole (R243). -/
theorem recall_all (s : State) (ln : Nat) (d : DomeLine) (h : mapGet (s.recall ln allLanes none).domes ln = some d) : d.owners = [] := by
  unfold State.recall at h
  split at h
  · next hnone => rw [hnone] at h; cases h
  · dsimp only at h
    rw [mapGet_mapUpd, if_pos rfl, Option.map_eq_some_iff] at h
    obtain ⟨e, -, rfl⟩ := h
    refine List.filter_eq_nil_iff.2 fun o ho => ?_
    obtain ⟨p, -, rfl⟩ := List.mem_map.1 ho
    simp [allLanes]

theorem replicas_dropped (s : State) (ln : Nat) : (∀ sector < 24, mapGet (s.dropReplicas ln).replicas (24 * ln + sector) = none) ∧
    ∀ k, k / 24 ≠ ln → mapGet (s.dropReplicas ln).replicas k = mapGet s.replicas k := by
  have hkept : ∀ k, mapGet (s.dropReplicas ln).replicas k = if (k / 24 != ln) = true then mapGet s.replicas k else none := fun k =>
    mapGet_mapFilter_keys s.replicas (fun k => k / 24 != ln) k
  refine ⟨fun sector hsector => ?_, fun k hk => ?_⟩
  · rw [hkept, if_neg (by simp; omega)]
  · rw [hkept, if_pos (by simpa using hk)]

theorem makeRoom_free {s : State} {ln : Nat} (h : (s.domes.filter fun p => homeDome p.1 == homeDome ln && domeSet p.1 == domeSet ln).length < 16) :
    s.makeRoom ln = s := if_pos h

/-- A fill of a line that no dome holds, where its set has room (R356). -/
theorem countPage_parts (s : State) (pa : Nat) : (s.countPage pa).domes = s.domes ∧ (s.countPage pa).mem = s.mem ∧
    (s.countPage pa).nextAge = s.nextAge := by
  unfold State.countPage
  dsimp only
  split
  · exact ⟨rfl, rfl, rfl⟩
  · split <;> exact ⟨rfl, rfl, rfl⟩

theorem fill_free {s : State} {enc : Bool} {key pd hmask ln : Nat} (hnone : mapGet s.domes ln = none)
    (hchan : ln * 128 < 2 ^ 40 → (s.chan (channelOf hmask (ln * 128))).offline = false)
    (hroom : (s.domes.filter fun p => homeDome p.1 == homeDome ln && domeSet p.1 == domeSet ln).length < 16) :
    mapGet (s.fill enc key pd hmask ln).1.domes ln = some ⟨s.halfUnder (s.keyOf enc key) (ln * 128 + 64) ++ s.halfUnder (s.keyOf enc key) (ln * 128),
      false, false, key, enc, pd, [], [], s.nextAge⟩ ∧ (s.fill enc key pd hmask ln).1.mem = s.mem := by
  unfold State.fill
  rw [hnone, if_neg (by simp), if_neg (by
    rw [Bool.and_eq_true, decide_eq_true_eq]
    rintro ⟨hlow, hoff⟩
    rw [show (mapGetD s.chans (channelOf hmask (ln * 128)) Channel.fresh).offline = false from hchan hlow] at hoff
    cases hoff), makeRoom_free hroom]
  dsimp only
  obtain ⟨-, hmem, hage⟩ := countPage_parts s (ln * 128)
  refine ⟨?_, ?_⟩
  · simp only [mapGet_mapSet_self, State.count_fields, hage]
  · simp only [State.count_fields, hmem]

theorem evictSuper_lines (s : State) (c sb : Nat) : ∀ l ∈ ((s.evictSuper c sb).core c).l1, l.line / 4 ≠ sb := by
  unfold State.evictSuper
  dsimp only
  generalize (((s.settle c).core c).l1.filter fun l => l.line / 4 == sb).foldl (fun s l =>
    (s.backBytes c l fun _ => true).retire c l.line allLanes) (s.settle c) = m
  generalize hn : (m.updCore c fun k => { k with l1 := k.l1.filter fun l => l.line / 4 != sb }) = n
  have hlines := (Quiet.foldl ((n.core c).pw.filter fun p => (n.buf p.buf).place (p.block * p.geom.bytes) / 512 == sb)
    (f := fun s p => (s.pwWriteBack c p).pwForget c p.buf p.block) (fun s p _ => (Quiet.pwWriteBack s c p).trans (Quiet.pwForget _ _ _ _)) n).lines c
  intro l hl
  have hmem : l.line ∈ (n.core c).l1.map (·.line) := by
    rw [← hlines]
    exact List.mem_map_of_mem hl
  obtain ⟨l', hl', hline⟩ := List.mem_map.1 hmem
  rw [← hn, State.core_updCore_self, List.mem_filter] at hl'
  rw [← hline]
  simpa using hl'.2

/-- A core's decoded blocks without one. -/
def Core.forget (buf block : Nat) (k : Core) : Core := { k with pw := k.pw.filter fun p => !(p.buf == buf && p.block == block) }

theorem pwForget_leaves (s : State) (o buf block : Nat) : mapGet (s.pwForget o buf block).pwOwner (pwKey buf block) ≠ some o ∧
    ∀ p ∈ ((s.pwForget o buf block).core o).pw, ¬(p.buf = buf ∧ p.block = block) := by
  have hcore : (s.pwForget o buf block).core o = (s.updCore o (Core.forget buf block)).core o := by
    unfold State.pwForget
    dsimp only
    split <;> rfl
  have hpw : ((s.pwForget o buf block).core o).pw = (s.core o).pw.filter fun p => !(p.buf == buf && p.block == block) := by
    rw [hcore, State.core_updCore_self, Core.forget]
  refine ⟨?_, fun p hp => ?_⟩
  · unfold State.pwForget
    dsimp only
    split
    · rw [mapGet_mapDel, if_pos rfl]
      simp
    · assumption
  · rw [hpw, List.mem_filter] at hp
    rintro ⟨hbuf, hblock⟩
    simp [hbuf, hblock] at hp

theorem pwRecall_leaves {s : State} {buf block o : Nat} (h : mapGet s.pwOwner (pwKey buf block) = some o) :
    mapGet (s.pwRecall buf block none).pwOwner (pwKey buf block) ≠ some o ∧
    ∀ p ∈ ((s.pwRecall buf block none).core o).pw, ¬(p.buf = buf ∧ p.block = block) := by
  unfold State.pwRecall
  rw [h]
  exact pwForget_leaves _ _ _ _

/-! ## Completions -/

theorem fresh_selfInvalidate (s : State) (c : Nat) : ∀ l ∈ ((s.selfInvalidate c).core c).l1, l.valid = false := by
  intro l hl
  rw [State.selfInvalidate, State.core_updCore_self, List.mem_filter, List.mem_map] at hl
  obtain ⟨⟨y, -, rfl⟩, -⟩ := hl
  rfl

theorem l1_dropped (s : State) (c id slot : Nat) (flag : Option Nat) : (((s.dropFlight c id).dropFlag c slot flag).core c).l1 = (s.core c).l1 := by
  rw [State.part_dropFlag (·.l1) fun _ _ => rfl, State.part_dropFlight (·.l1) fun _ _ => rfl]

theorem matrixTransferComplete_delivers {s : State} {c id : Nat} {f : Flight} {op : XferOp} {reg : Nat} {sp : List Nat}
    (hid : mapGet (s.core c).flights id = some f) (hp : (mapGet (s.core c).bands f.slot).isSome = true) (hk : f.kind = .xfer op reg sp 0) :
    ∃ t, exec (.matrixTransferComplete c id) s = .next t ∧ s.Delivers c id f [] flNone t := by
  refine ⟨_, ?_, delivers_none s c id f hp⟩
  show execMatrixTransferComplete c id s = _
  rw [execMatrixTransferComplete, hid]
  dsimp only
  rw [hk]
  rfl

theorem tagWaitComplete_delivers {s : State} {c id : Nat} {f : Flight} {all : Bool} {m : BitVec 64} {d : Loc} {v : Word}
    (hid : mapGet (s.core c).flights id = some f) (hp : (mapGet (s.core c).bands f.slot).isSome = true) (hk : f.kind = .tagWait all m d (some v)) :
    ∃ t, exec (.tagWaitComplete c id) s = .next t ∧ t.reg c f.slot f.gen d = (d.held v, true) ∧
      (t.core c).flights = mapDel (s.core c).flights id ∧
      (∀ n, ((t.core c).band f.slot).flagCount n = ((s.core c).band f.slot).flagCount n - if f.flag = some n then 1 else 0) ∧
      (∀ l ∈ (t.core c).l1, l.valid = false) ∧ t.outside = s.outside := by
  have hclean := delivers_clean s c id f [(d, v)] hp (by simp [Distinct])
  refine ⟨((s.updCore c (·.writeLocs f.slot f.gen [(d, v)])).selfInvalidate c |>.dropFlight c id).dropFlag c f.slot f.flag, ?_, ?_⟩
  · show execTagWaitComplete c id s = _
    rw [execTagWaitComplete, hid]
    dsimp only
    rw [hk]
  · have hplaced : (mapGet ((s.updCore c (·.writeLocs f.slot f.gen [(d, v)])).core c).bands f.slot).isSome = true := by
      rw [State.placed_writeLocs, hp]
    obtain ⟨hreg, hcount, hflights, hout⟩ := settled _ c id f hplaced ((s.updCore c (·.writeLocs f.slot f.gen [(d, v)])).selfInvalidate c)
      (by rw [State.selfInvalidate, State.core_updCore_self]; exact ⟨rfl, rfl, rfl, rfl, rfl⟩) (by rw [State.selfInvalidate, State.outside_updCore])
    obtain ⟨hresult, -, hlowered, hgone, -, -, -, hsame⟩ := hclean
    refine ⟨(hreg _ _).trans (hresult (d, v) (List.mem_singleton_self _)), hflights.trans hgone, fun n => (hcount n).trans (hlowered n), ?_,
      hout.trans hsame⟩
    rw [l1_dropped]
    exact fresh_selfInvalidate _ _

theorem domeError_dirty {s : State} {line : Nat} {d : DomeLine} (hd : mapGet s.domes line = some d) (h : d.dirty0 = true ∨ d.dirty1 = true) :
    exec (.domeUncorrectableError line) s =
      .next ({ s.dropReplicas line with domes := mapDel (s.dropReplicas line).domes line }.killDomain d.pd 3) := by
  show execDomeUncorrectableError line s = _
  rw [execDomeUncorrectableError, hd]
  exact congrArg Host.Outcome.next (if_pos (by rwa [Bool.or_eq_true]))

/-- A clean line fetched again. -/
def DomeLine.refetched (x : BitVec 1024) (d : DomeLine) : DomeLine := { d with data := x }

theorem domeError_clean {s : State} {line : Nat} {d : DomeLine} (hd : mapGet s.domes line = some d) (h0 : d.dirty0 = false)
    (h1 : d.dirty1 = false) : exec (.domeUncorrectableError line) s =
      .next { s.countPage (line * 128) with domes := mapUpd s.domes line (DomeLine.refetched
        (s.halfUnder (s.keyOf d.enc d.key) (line * 128 + 64) ++ s.halfUnder (s.keyOf d.enc d.key) (line * 128))) } := by
  show execDomeUncorrectableError line s = _
  rw [execDomeUncorrectableError, hd]
  have hclean : ¬((d.dirty0 || d.dirty1) = true) := by rw [h0, h1]; exact Bool.false_ne_true
  exact congrArg Host.Outcome.next (if_neg hclean)

/-- A queue register of a task replaced. -/
def Task.setQueue (q : Nat) (x : Queue) (t : Task) : Task := { t with queues := mapSet t.queues q x }

theorem qpopComplete_delivers {s : State} {c id : Nat} {f : Flight} {q : Nat} {d : Loc} {pc b : BitVec 64} {w : Word} {rest : List Word}
    (hid : mapGet (s.core c).flights id = some f) (hp : (mapGet (s.core c).bands f.slot).isSome = true) (hk : f.kind = .qpop q d pc b)
    (hret : (mapGetD ((s.core c).task ((s.core c).taskOfBand f.slot)).queues q Queue.fresh).ret = w :: rest)
    (ht : (mapGet (s.core c).tasks ((s.core c).taskOfBand f.slot)).isSome = true)
    (hfirst : ∀ g ∈ (s.core c).flights, g.1 < id → (s.core c).taskOfBand g.2.slot = (s.core c).taskOfBand f.slot →
      ∀ d' pc' b', g.2.kind ≠ .qpop q d' pc' b') :
    ∃ t, exec (.qpopComplete c id) s = .next t ∧ t.reg c f.slot f.gen d = (d.held w, true) ∧
      (mapGetD ((t.core c).task ((s.core c).taskOfBand f.slot)).queues q Queue.fresh).ret = rest ∧
      (t.core c).flights = mapDel (s.core c).flights id ∧
      (∀ n, ((t.core c).band f.slot).flagCount n = ((s.core c).band f.slot).flagCount n - if f.flag = some n then 1 else 0) ∧
      KeepsMemory s t ∧ t.outside = s.outside := by
  obtain ⟨s₁, hs₁⟩ : ∃ s₁, s₁ = s.updTask c ((s.core c).taskOfBand f.slot) (Task.setQueue q
      { mapGetD ((s.core c).task ((s.core c).taskOfBand f.slot)).queues q Queue.fresh with ret := rest }) := ⟨_, rfl⟩
  have hpart : ∀ {β : Type} (p : Core → β), (∀ k x, p { k with tasks := x } = p k) → p (s₁.core c) = p (s.core c) := fun p hT => by
    rw [hs₁, State.part_updTask p hT]
  obtain ⟨hresult, -, hlowered, hgone, -, -, hmemory, hout⟩ := delivers_clean s₁ c id f [(d, w)]
    (by rw [hpart (fun k => (mapGet k.bands f.slot).isSome) fun _ _ => rfl, hp]) (by simp [Distinct])
  refine ⟨((s₁.updCore c (·.writeLocs f.slot f.gen [(d, w)])).dropFlight c id).dropFlag c f.slot f.flag, ?_,
    hresult (d, w) (List.mem_singleton_self _), ?_, ?_, ?_, ?_, ?_⟩
  · show execQpopComplete c id s = _
    rw [execQpopComplete, hid]
    dsimp only
    rw [hk]
    dsimp only
    rw [hret, hs₁]
    refine congrArg Host.Outcome.next (if_neg ?_)
    rw [List.any_eq_true]
    rintro ⟨g, hg, hbusy⟩
    simp only [Bool.and_eq_true, decide_eq_true_eq, beq_iff_eq] at hbusy
    obtain ⟨⟨hlt, hof⟩, hpop⟩ := hbusy
    split at hpop
    · next p d' pc' b' hkind =>
      rw [beq_iff_eq] at hpop
      exact hfirst g hg hlt hof d' pc' b' (hpop ▸ hkind)
    · cases hpop
  · rw [State.part_dropFlag (·.task _) fun _ _ => rfl, State.part_dropFlight (·.task _) fun _ _ => rfl,
      State.part_writeLocs (·.task _) (fun _ _ => rfl) (fun _ _ => rfl) (fun _ _ => rfl) fun _ _ => rfl, hs₁, State.task_updTask_self _ _ _ _ ht,
      Task.setQueue, mapGetD, mapGet_mapSet_self]
    rfl
  · rw [hgone, hpart (·.flights) fun _ _ => rfl]
  · intro n
    rw [hlowered, hpart (fun k => (k.band f.slot).flagCount n) fun _ _ => rfl]
  · have hfirst : KeepsMemory s s₁ := by rw [hs₁]; exact (MemSame.updTask _ _ _ _).keeps
    exact hfirst.trans hmemory
  · rw [hout, hs₁, State.outside_updTask]

/-! ## Releases -/

theorem releaseCompletion_held {s : State} {c id : Nat} {f : Flight} {k : RelKind} {a : After} (hid : mapGet (s.core c).flights id = some f)
    (hk : f.kind = .release k a) (h : (s.core c).heldBack id f FKind.beforeRelease = true) : exec (.releaseCompletion c id) s = .next s := by
  show execReleaseCompletion c id s = _
  rw [execReleaseCompletion, hid]
  dsimp only
  rw [hk]
  exact congrArg Host.Outcome.next (if_pos h)

/-- The release of an arrival at a local barrier leaves the core alone (R205). -/
theorem releaseCompletion_here {s : State} {c id : Nat} {f : Flight} {k : RelKind} {a : After} (hid : mapGet (s.core c).flights id = some f)
    (hk : f.kind = .release k a) (hfree : (s.core c).heldBack id f FKind.beforeRelease = false) (hhere : a.here = true) :
    exec (.releaseCompletion c id) s = .next (s.afterRelease c id f a) := by
  show execReleaseCompletion c id s = _
  rw [execReleaseCompletion, hid]
  dsimp only
  rw [hk]
  dsimp only
  rw [if_neg (by rw [hfree]; exact Bool.false_ne_true), if_pos hhere, State.performRelease, if_pos hhere]

/-- A release that no band's write-back failed is over, and what it stands for follows. -/
theorem releaseCompletion_kept {s : State} {c id : Nat} {f : Flight} {k : RelKind} {a : After} (hid : mapGet (s.core c).flights id = some f)
    (hk : f.kind = .release k a) (hfree : (s.core c).heldBack id f FKind.beforeRelease = false) (hhere : a.here = false)
    (hclean : ∀ b ∈ relBands s c f k, (((s.performRelease c f k false).core c).band b).relFail = []) :
    exec (.releaseCompletion c id) s = .next ((s.performRelease c f k false).afterRelease c id f a) := by
  show execReleaseCompletion c id s = _
  rw [execReleaseCompletion, hid]
  dsimp only
  rw [hk]
  dsimp only
  rw [if_neg (by rw [hfree]; exact Bool.false_ne_true), hhere, if_neg Bool.false_ne_true,
    takeFail_none _ c f k (by rw [relBands_performRelease]; exact hclean)]

theorem afterRelease_here {s : State} {c id : Nat} {f : Flight} {a : After} (h : a.here = true) : KeepsStorage s (s.afterRelease c id f a) := by
  cases a with
  | arrive gid part phase wait => exact (KeepsStorage.refl s).dropFlight.arrived
  | none | fence | sync => cases h
  | access op => cases h
  | push q n => cases h

theorem afterRelease_parts (m : State) (c id : Nat) (f : Flight) {a : After} (ha : a = .none ∨ a = .fence ∨ a = .sync ∨ ∃ q n, a = .push q n) :
    ((m.afterRelease c id f a).core c).l1 = (m.core c).l1 ∧
    ∀ f', mapGet (m.core c).flights id = some f' → if a = .sync then ∃ g, mapGet ((m.afterRelease c id f a).core c).flights id = some g ∧ g.kind = .acquire
      else mapGet ((m.afterRelease c id f a).core c).flights id = none := by
  have hdropped : mapGet ((m.dropFlight c id).core c).flights id = none := by
    rw [State.dropFlight, State.core_updCore_self]
    exact (mapGet_mapDel _ _ _).trans (if_pos rfl)
  have hl1 : ((m.dropFlight c id).core c).l1 = (m.core c).l1 := State.part_dropFlight (·.l1) (fun _ _ => rfl) _ _ _ _
  rcases ha with rfl | rfl | rfl | ⟨q, n, rfl⟩
  · exact ⟨hl1, fun f' hf' => by rw [if_neg (by simp)]; exact hdropped⟩
  · refine ⟨(flights_passOp _ c id 1 c).2.trans hl1, fun f' hf' => ?_⟩
    rw [if_neg (by simp), State.afterRelease, (flights_passOp _ c id 1 c).1, hdropped]
  · rw [State.afterRelease, State.core_updCore_self]
    refine ⟨rfl, fun f' hf' => ?_⟩
    rw [if_pos rfl, mapGet_mapUpd, if_pos rfl, hf']
    exact ⟨_, rfl, rfl⟩
  · refine ⟨?_, fun f' hf' => ?_⟩
    · rw [State.afterRelease, State.releasePush, State.part_updTask (·.l1) fun _ _ => rfl, hl1]
    · rw [if_neg (by simp), State.afterRelease, State.releasePush, State.part_updTask (·.flights) fun _ _ => rfl, hdropped]

/-- Settles O50: the lemmas above, one per event and completion. -/
theorem cacheEvents : Obligations.CacheEvents := by
  refine ⟨fun s => ⟨?_, ?_, fun line => ⟨_, rfl, recall_all s line⟩,
    fun line => ⟨_, rfl, (replicas_dropped s line).1, (replicas_dropped s line).2, homeByte_dropReplicas s line⟩, ?_, ?_,
    fun buf block o h => ⟨_, rfl, pwRecall_leaves h⟩, ?_⟩, fun s c id f hid hp => ⟨?_, ?_, ?_, ?_, ?_⟩⟩
  · rintro c r rs m hregs rfl
    have hexec : exec (.registration c) s = .next ((s.setCore c { s.core c with regs := rs }).register c r) := by
      show execRegistration c s = _
      rw [execRegistration]
      dsimp only
      rw [hregs]
    rw [hexec]
    refine ⟨fun e he hne => ⟨_, rfl, ?_⟩, fun hzero hheld => ⟨_, rfl, register_owns hzero hheld⟩⟩
    rw [State.register, he, if_pos (by simpa using hne)]
    obtain ⟨hrs, -, hdomes, -⟩ := failRelease_parts (s.setCore c { s.core c with regs := rs }) c r.slot e
    have hcore := State.core_setCore_self s c { s.core c with regs := rs }
    refine ⟨?_, hrs.trans (by rw [hcore]), hdomes⟩
    have hfail := relFail_failRelease (s.setCore c { s.core c with regs := rs }) c r.slot e
    rw [hcore] at hfail
    exact hfail
  · rintro c r rs hreqs
    have hexec : exec (.domeRequest c) s = .next ((s.setCore c { s.core c with requests := rs }).performRequest c r) := by
      show execDomeRequest c s = _
      rw [execDomeRequest]
      dsimp only
      rw [hreqs]
    have hcore := State.core_setCore_self s c { s.core c with requests := rs }
    rw [hexec]
    refine ⟨fun hfar hroute => ⟨_, rfl, ?_⟩, fun hfar hroute => ⟨_, rfl, ?_⟩, ?_⟩
    · rw [performRequest_sent (s := s.setCore c { s.core c with requests := rs }) hfar hroute]
      exact ⟨congrArg Core.requests hcore, rfl, rfl, rfl⟩
    · rw [performRequest_lost (s := s.setCore c { s.core c with requests := rs }) hfar hroute]
      obtain ⟨-, hrs, -, hout⟩ := failRelease_parts (s.setCore c { s.core c with requests := rs }) c r.slot 4
      refine ⟨hrs.trans (by rw [hcore]), ?_, hout⟩
      have hfail := relFail_failRelease (s.setCore c { s.core c with requests := rs }) c r.slot 4
      rw [hcore] at hfail
      exact hfail
    · rintro hnear o n d rfl rfl hn hfit hcheck hd hfree hline
      obtain ⟨hcores, hbytes⟩ := performRequest_stores (s := s.setCore c { s.core c with requests := rs }) hnear hn hfit hcheck hd hfree hline
      refine ⟨_, rfl, ?_, hbytes⟩
      rw [State.core, hcores]
      exact congrArg Core.requests hcore
  · rintro buf line hv hoff hnone hchan hroom
    obtain ⟨hdome, hmem⟩ := fill_free (enc := (s.buf buf).enc) (key := (s.buf buf).key) (pd := (s.buf buf).owner) hnone hchan hroom
    obtain ⟨hlow, hhigh⟩ := halves (s.halfUnder (s.keyOf (s.buf buf).enc (s.buf buf).key) (line * 128 + 64))
      (s.halfUnder (s.keyOf (s.buf buf).enc (s.buf buf).key) (line * 128)) _ rfl
    refine ⟨_, congrArg Host.Outcome.next (if_pos (by rw [hv, hoff]; rfl)), _, hdome, rfl, rfl, rfl, rfl, hlow, hhigh, hmem⟩
  · rintro c sb hplaced
    exact ⟨_, congrArg Host.Outcome.next (if_neg (by rw [Option.isNone_iff_eq_none]; intro h; rw [h] at hplaced; cases hplaced)),
      evictSuper_lines s c sb⟩
  · rintro line d hd
    refine ⟨fun h0 h1 => ?_, fun hdirty => ?_⟩
    · obtain ⟨hlow, hhigh⟩ := halves (s.halfUnder (s.keyOf d.enc d.key) (line * 128 + 64)) (s.halfUnder (s.keyOf d.enc d.key) (line * 128)) _ rfl
      refine ⟨_, domeError_clean hd h0 h1, DomeLine.refetched _ d, ?_, hlow, hhigh, rfl⟩
      dsimp only
      rw [mapGet_mapUpd, if_pos rfl, hd]
      rfl
    · obtain ⟨hend, hlaunches⟩ := killDomain_ends { s.dropReplicas line with domes := mapDel (s.dropReplicas line).domes line } d.pd 3
      exact ⟨_, domeError_dirty hd hdirty, hend, hlaunches⟩
  · exact fun op reg sp hk => matrixTransferComplete_delivers hid hp hk
  · exact fun all m d v hk => tagWaitComplete_delivers hid hp hk
  · rintro q d pc b w rest tn hk rfl hret ht hfirst
    exact qpopComplete_delivers hid hp hk hret ht hfirst
  · rintro hk
    have hexec : exec (.acquireCompletion c id) s = .next (if (s.core c).heldBack id f FKind.beforeAcquire then s
        else ((s.selfInvalidate c).dropFlight c id).passOp c id 1) := by
      show execAcquireCompletion c id s = _
      rw [execAcquireCompletion, hid]
      dsimp only
      rw [hk]
    rw [hexec]
    refine ⟨fun hheld => by rw [if_pos hheld], fun hfree => ⟨_, rfl, ?_, ?_, fun e x hwait => ?_⟩⟩
    all_goals rw [if_neg (by rw [hfree]; exact Bool.false_ne_true)]
    · rw [(flights_passOp _ c id 1 c).1, State.dropFlight, State.core_updCore_self, State.selfInvalidate, State.core_updCore_self]
    · show ∀ l ∈ ((((s.selfInvalidate c).dropFlight c id).passOp c id 1).core c).l1, l.valid = false
      rw [(flights_passOp _ c id 1 c).2, State.part_dropFlight (·.l1) fun _ _ => rfl]
      exact fresh_selfInvalidate s c
    · refine passOp_wait _ c id 1 e x ?_
      rw [State.part_dropFlight (·.table) fun _ _ => rfl, State.selfInvalidate, State.core_updCore_self]
      exact hwait
  · rintro k a hk
    refine ⟨releaseCompletion_held hid hk, fun hfree => ⟨fun hhere => ?_, fun hclean hafter => ?_⟩⟩
    · exact ⟨_, releaseCompletion_here hid hk hfree hhere, afterRelease_here hhere⟩
    · have hhere : a.here = false := by
        rcases hafter with rfl | rfl | rfl | ⟨q, n, rfl⟩ <;> rfl
      refine ⟨_, releaseCompletion_kept hid hk hfree hhere hclean, ?_, ?_⟩
      · rw [(afterRelease_parts _ c id f hafter).1]
        exact l1_performRelease s c f k
      · exact (afterRelease_parts _ c id f hafter).2 f (by rw [flights_performRelease, hid])

end Sys2Proof.Machine
end

section
/-! PROOFS. Events of the matrix unit and of group barriers (R267, R275, R280, R282, R284, R285, R352). -/

namespace Sys2Proof.Machine

/-! ## Issue of an operation -/

/-- The run of an operation that issues at a step. -/
def State.newRun (s : State) (c t g : Nat) (r : GReg) (o : MatOp) (cls : MatCls) (sa sb s0 : Nat) : MatRun :=
  ⟨g, o, cls, sa, sb, r.signed, (List.range 16).foldl (fun (m : BitVec 16) i => match ((s.core c).task t).slots[i]? with
    | some b => if ((s.core c).band b).keep then m ||| BitVec.ofNat 16 (2 ^ i) else m
    | none => m) 0, s0, shapeKS o.mshape, [], [], flNone, false, s0 == shapeKS o.mshape⟩

/-- The signatures of an operation tied to it. -/
def Core.tieSigs (g t id : Nat) (k : Core) : Core :=
  { k with flights := mapAll k.flights fun _ f => match f.kind with
    | .sig g' none => if g' = g && k.taskOfBand f.slot = t then { f with kind := .sig g (some id) } else f
    | _ => f }

/-- A convergence register with nothing signed. -/
def GReg.cleared (y : GReg) : GReg := { y with op := none, signed := [] }

/-- A convergence register of a task cleared. -/
def Task.clearSigns (g : Nat) (x : Task) : Task := { x with g := mapUpd x.g g GReg.cleared }

theorem tieSigs_mat {k : Core} {g t id i : Nat} {f : Flight} {m : MatRun} (h : mapGet k.flights i = some f) (hk : f.kind = .mat m) :
    mapGet (k.tieSigs g t id).flights i = some f := by
  rw [Core.tieSigs]
  dsimp only
  rw [mapGet_mapAll, h, Option.map_some, hk]

theorem clearSigns_none (x : Task) (g : Nat) : (mapGetD (x.clearSigns g).g g GReg.fresh).op = none ∧
    (mapGetD (x.clearSigns g).g g GReg.fresh).signed = [] := by
  rw [Task.clearSigns, mapGetD, mapGet_mapUpd, if_pos rfl]
  cases mapGet x.g g <;> exact ⟨rfl, rfl⟩

/-- The state with an operation in flight, its signatures tied and its register cleared. -/
def State.launchMatrix (s : State) (c t g : Nat) (run : MatRun) : State :=
  ((s.launchFlight c ⟨((s.core c).task t).slots.headD 0, ((s.core c).task t).gen, 0, none, .mat run⟩).updCore c
    (Core.tieSigs g t (s.core c).nextOp)).updTask c t (Task.clearSigns g)

theorem issueMatrix_eq {s : State} {c t g : Nat} {r : GReg} {o : MatOp} {cls : MatCls} {sa sb s0 : Nat} (h : s0 < shapeKS o.mshape) :
    s.issueMatrix c t g r o cls sa sb s0 = if s0 = 0 then (s.launchMatrix c t g (s.newRun c t g r o cls sa sb s0)).setStatus c t o
      fun w => statusWord (stickyOf w) (statStop w) 0 else s.launchMatrix c t g (s.newRun c t g r o cls sa sb s0) := by
  unfold State.issueMatrix
  dsimp only
  rw [if_neg (by omega)]
  rfl

theorem launchMatrix_flight (s : State) (c t g : Nat) (run : MatRun) :
    ∃ f, mapGet ((s.launchMatrix c t g run).core c).flights (s.core c).nextOp = some f ∧ f.kind = .mat run := by
  rw [State.launchMatrix, State.part_updTask (·.flights) fun _ _ => rfl, State.core_updCore_self, State.launchFlight, State.core_updCore_self]
  exact ⟨_, tieSigs_mat (mapGet_mapSet_self _ _ _) rfl, rfl⟩

theorem launchMatrix_cleared {s : State} {c t : Nat} (g : Nat) (run : MatRun) (h : (mapGet (s.core c).tasks t).isSome = true) :
    ∃ x : Task, ((s.launchMatrix c t g run).core c).task t = x.clearSigns g := by
  rw [State.launchMatrix, State.task_updTask_self]
  · exact ⟨_, rfl⟩
  · rw [State.core_updCore_self, State.launchFlight, State.core_updCore_self]
    exact h

/-- An operation that issues with a step left is in flight, and its register is free for the next (R282). -/
theorem issueMatrix_runs {s : State} {c t g : Nat} {r : GReg} {o : MatOp} {cls : MatCls} {sa sb s0 : Nat} (h : s0 < shapeKS o.mshape) :
    ∃ f, mapGet ((s.issueMatrix c t g r o cls sa sb s0).core c).flights (s.core c).nextOp = some f ∧
      f.kind = .mat (s.newRun c t g r o cls sa sb s0) ∧ ((mapGet (s.core c).tasks t).isSome = true →
        (mapGetD (((s.issueMatrix c t g r o cls sa sb s0).core c).task t).g g GReg.fresh).op = none ∧
        (mapGetD (((s.issueMatrix c t g r o cls sa sb s0).core c).task t).g g GReg.fresh).signed = []) := by
  have hparts : ((s.issueMatrix c t g r o cls sa sb s0).core c).flights = ((s.launchMatrix c t g (s.newRun c t g r o cls sa sb s0)).core c).flights ∧
      ((s.issueMatrix c t g r o cls sa sb s0).core c).tasks = ((s.launchMatrix c t g (s.newRun c t g r o cls sa sb s0)).core c).tasks := by
    rw [issueMatrix_eq h]
    split
    · exact ⟨setStatus_part (·.flights) (fun _ _ => rfl) _ _ _ _ _ _, setStatus_part (·.tasks) (fun _ _ => rfl) _ _ _ _ _ _⟩
    · exact ⟨rfl, rfl⟩
  obtain ⟨hflights, htasks⟩ := hparts
  obtain ⟨f, hf, hkind⟩ := launchMatrix_flight s c t g (s.newRun c t g r o cls sa sb s0)
  refine ⟨f, by rw [hflights, hf], hkind, fun htask => ?_⟩
  obtain ⟨x, hx⟩ := launchMatrix_cleared g (s.newRun c t g r o cls sa sb s0) htask
  rw [Core.task, htasks, ← Core.task, hx]
  exact clearSigns_none x g

theorem matrixOperationIssue_issues {s : State} {c t g : Nat} {r : GReg} {w : Word} {o : MatOp} {cls : MatCls} {s0 sa sb : Nat}
    (hr : mapGetD ((s.core c).task t).g g GReg.fresh = r) (hop : r.op = some (w, o))
    (hall : ∀ i < 16, r.set.getLsbD i = true → (s.core c).bandLive t i &&& ~~~(mapGetD r.signed i 0) = 0)
    (hs0 : s0 = (if statStop ((s.core c).accStatus ((s.core c).task t) o.acc).1 then
      min (statProg ((s.core c).accStatus ((s.core c).task t) o.acc).1) (shapeKS o.mshape) else 0))
    (hsa : sa = s.sigma c t o.a o.sp s0 (shapeKS o.mshape)) (hsb : sb = s.sigma c t o.b o.sp s0 (shapeKS o.mshape))
    (hfree : (s.core c).matBlocked c t (o.set c sa sb s0) = false) (hcheck : s.matCheck c t o sa sb s0 = .ok cls) :
    exec (.matrixOperationIssue c t g) s = .next (s.issueMatrix c t g r o cls sa sb s0) := by
  have hsigned : ((List.range 16).all fun i => !r.set.getLsbD i || (s.core c).bandLive t i &&& ~~~(mapGetD r.signed i 0) == 0) = true := by
    rw [List.all_eq_true]
    intro i hi
    rw [Bool.or_eq_true, Bool.not_eq_true', beq_iff_eq]
    cases hset : r.set.getLsbD i with
    | false => exact .inl rfl
    | true => exact .inr (hall i (List.mem_range.1 hi) hset)
  show execMatrixOperationIssue c t g s = _
  rw [execMatrixOperationIssue]
  dsimp only
  rw [hr, hop]
  dsimp only
  rw [hsigned, ← hs0, ← hsa, ← hsb, hfree, Bool.not_true, Bool.or_false, if_neg Bool.false_ne_true, hcheck]

/-! ## A step -/

/-- The kind of an operation in flight replaced. -/
def Flight.setKind (k : FKind) (f : Flight) : Flight := { f with kind := k }

/-- The operations in flight with one's kind replaced. -/
def Core.setKind (id : Nat) (kind : FKind) (k : Core) : Core := { k with flights := mapUpd k.flights id (Flight.setKind kind) }

theorem withRows_keeps (r : MatRun) (k : Core) (t : Task) : (r.withRows k t).step = r.step ∧ (r.withRows k t).op = r.op ∧
    (r.withRows k t).signed = r.signed ∧ (r.withRows k t).last = r.last := by
  unfold MatRun.withRows
  split <;> exact ⟨rfl, rfl, rfl, rfl⟩

theorem kStep_keeps (s : State) (c t : Nat) (r : MatRun) : (s.kStep c t r).step = r.step + 1 ∧ (s.kStep c t r).op = r.op ∧
    (s.kStep c t r).signed = r.signed ∧ (s.kStep c t r).last = r.last := by
  obtain ⟨hstep, hop, hsigned, hlast⟩ := withRows_keeps r (s.core c) ((s.core c).task t)
  exact ⟨congrArg (· + 1) hstep, hop, hsigned, hlast⟩

theorem matrixKStep_steps {s : State} {c id : Nat} {f : Flight} {r : MatRun} (hid : mapGet (s.core c).flights id = some f)
    (hk : f.kind = .mat r) (hturn : (s.core c).unitTurn id = true) (hmore : r.step + 1 < r.last) :
    exec (.matrixKStep c id false) s = .next (((s.updCore c (Core.setKind id (.mat { s.kStep c ((s.core c).taskOfBand f.slot) r with
      released := r.released }))).setStatus c ((s.core c).taskOfBand f.slot) r.op fun w => statusWord (stickyOf w) (statStop w)
        (s.kStep c ((s.core c).taskOfBand f.slot) r).step).countAt c 4 1) := by
  show execMatrixKStep c id false s = _
  rw [execMatrixKStep, hid]
  dsimp only
  rw [hk]
  dsimp only
  have hfinal : decide (r.step + 1 = r.last) = false := by simpa using Nat.ne_of_lt hmore
  rw [hturn, hfinal, if_neg (by simp; omega), if_neg Bool.false_ne_true, Bool.false_and, if_neg Bool.false_ne_true, Bool.or_false,
    if_neg Bool.false_ne_true]
  rfl

/-! ## Completion -/

theorem part_foldl {α β : Type} (p : Core → β) {f : State → α → State} (hf : ∀ s a d, p ((f s a).core d) = p (s.core d)) (l : List α)
    (s : State) (d : Nat) : p ((l.foldl f s).core d) = p (s.core d) := by
  induction l generalizing s with
  | nil => rfl
  | cons a l ih => rw [List.foldl_cons, ih, hf]

/-- The rows of an operation in its core. -/
def MatRun.writeAll (r : MatRun) (task : Task) (k : Core) : Core :=
  if r.op.pair then (k.writeRows task r.op.acc r.rows).writeRows task (r.op.acc + 1) r.rows2 else k.writeRows task r.op.acc r.rows

/-- The flags that a completed operation raises in its signers' bands. -/
def State.raiseSigners (s : State) (c : Nat) (task : Task) (r : MatRun) : State :=
  r.signed.foldl (fun s p => match task.slots[p.1]? with
    | some b => if r.fl &&& (flNV ||| flOF ||| flUF ||| flNX) = flNone then s else s.raise c b (r.fl &&& (flNV ||| flOF ||| flUF ||| flNX))
    | none => s) s

theorem completeMatrix_eq (s : State) (c t id : Nat) (r : MatRun) (stop : Bool) : s.completeMatrix c t id r stop =
    (((((s.updCore c (r.writeAll ((s.core c).task t))).setStatus c t r.op fun w => statusWord (stickyOf w ||| stickyFl r.fl r.sat) stop r.step).raiseSigners
      c ((s.core c).task t) r).dropSigs c id).dropFlight c id) := rfl

theorem part_raiseSigners {β : Type} (p : Core → β) (hB : ∀ k x, p { k with bands := x } = p k) (s : State) (c : Nat) (task : Task) (r : MatRun)
    (d : Nat) : p ((s.raiseSigners c task r).core d) = p (s.core d) := by
  refine part_foldl p (fun s a d => ?_) r.signed s d
  split
  · split
    · rfl
    · rw [State.raise, State.part_updBand p hB]
  · rfl

theorem part_dropSigs {β : Type} (p : Core → β) (hB : ∀ k x, p { k with bands := x } = p k) (hF : ∀ k x, p { k with flights := x } = p k)
    (s : State) (c id d : Nat) : p ((s.dropSigs c id).core d) = p (s.core d) :=
  part_foldl p (fun s a d => by rw [State.part_dropFlight p hF, State.part_dropFlag p hB]) _ s d

/-- What a completed operation leaves differs from its rows and status words in bands and flights only. -/
theorem part_completeMatrix {β : Type} (p : Core → β) (hB : ∀ k x, p { k with bands := x } = p k) (hF : ∀ k x, p { k with flights := x } = p k)
    (s : State) (c t id : Nat) (r : MatRun) (stop : Bool) (d : Nat) : p ((s.completeMatrix c t id r stop).core d) =
      p (((s.updCore c (r.writeAll ((s.core c).task t))).setStatus c t r.op fun w => statusWord (stickyOf w ||| stickyFl r.fl r.sat) stop r.step).core d) := by
  rw [completeMatrix_eq, State.part_dropFlight p hF, part_dropSigs p hB hF, part_raiseSigners p hB]

theorem writeRows_tasks (k : Core) (t : Task) (a : Nat) (rows : List (BitVec 2048)) : (k.writeRows t a rows).tasks = k.tasks :=
  foldl_keeps (fun k : Core => k.tasks) (fun (k : Core) (x : BitVec 2048 × Nat) => k.putAccRow t a x.2 x.1) (fun _ _ => rfl) _ _

theorem writeAll_tasks (r : MatRun) (t : Task) (k : Core) : (r.writeAll t k).tasks = k.tasks := by
  rw [MatRun.writeAll]
  split
  · rw [writeRows_tasks, writeRows_tasks]
  · rw [writeRows_tasks]

theorem accRow_written {k : Core} {t : Task} {a i : Nat} {rows : List (BitVec 2048)} {d : BitVec 2048} (hl : rows.length ≤ 64)
    (hd : rows[i]? = some d) : (k.writeRows t a rows).accRow t a i = (d, true) := by
  have hi : i < rows.length := (List.getElem?_eq_some_iff.1 hd).1
  rw [accRow_writeRows k t a a i rows hl (by omega), if_pos ⟨rfl, hi⟩, List.getD_eq_getElem?_getD, hd]
  rfl

theorem writeAll_row {r : MatRun} {t : Task} {k : Core} {i : Nat} {d : BitVec 2048} (hl : r.rows.length ≤ 64)
    (hpair : r.op.pair = true → r.rows2.length ≤ 64 ∧ t.accAt r.op.acc ≠ t.accAt (r.op.acc + 1)) (hd : r.rows[i]? = some d) :
    (r.writeAll t k).accRow t r.op.acc i = (d, true) := by
  have hi : i < r.rows.length := (List.getElem?_eq_some_iff.1 hd).1
  rw [MatRun.writeAll]
  split
  · next hp =>
    obtain ⟨hl2, hne⟩ := hpair hp
    rw [accRow_writeRows _ t (r.op.acc + 1) r.op.acc i r.rows2 hl2 (by omega), if_neg (fun h => hne h.1), accRow_written hl hd]
  · exact accRow_written hl hd

theorem writeAll_row2 {r : MatRun} {t : Task} {k : Core} {i : Nat} {d : BitVec 2048} (hp : r.op.pair = true) (hl : r.rows2.length ≤ 64)
    (hd : r.rows2[i]? = some d) : (r.writeAll t k).accRow t (r.op.acc + 1) i = (d, true) := by
  rw [MatRun.writeAll, if_pos hp, accRow_written hl hd]

theorem completeMatrix_row (s : State) (c t id : Nat) (r : MatRun) (stop : Bool) (a i : Nat) :
    ((s.completeMatrix c t id r stop).core c).accRow ((s.core c).task t) a i =
      (r.writeAll ((s.core c).task t) (s.core c)).accRow ((s.core c).task t) a i := by
  rw [part_completeMatrix (·.accRow ((s.core c).task t) a i) (fun _ _ => rfl) fun _ _ => rfl,
    setStatus_part (·.accRow ((s.core c).task t) a i) fun _ _ => rfl, State.core_updCore_self]

theorem completeMatrix_status {s : State} {c t id : Nat} {r : MatRun} {stop : Bool} {a : Nat} (ha : a ∈ r.op.accs) :
    statProg (((s.completeMatrix c t id r stop).core c).accStatus ((s.core c).task t) a).1 = r.step % 128 ∧
    statStop (((s.completeMatrix c t id r stop).core c).accStatus ((s.core c).task t) a).1 = stop := by
  rw [part_completeMatrix (·.accStatus ((s.core c).task t) a) (fun _ _ => rfl) fun _ _ => rfl]
  have hword := status_set (s.updCore c (r.writeAll ((s.core c).task t))) c t r.op (fun w => statusWord (stickyOf w ||| stickyFl r.fl r.sat) stop r.step)
    (fun w => statProg w = r.step % 128 ∧ statStop w = stop) (fun w => by
      obtain ⟨b, hb⟩ := stick_or w r.fl r.sat
      rw [hb]
      exact prog_word b stop r.step) a ha
  rwa [show ((s.updCore c (r.writeAll ((s.core c).task t))).core c).task t = (s.core c).task t by
    rw [State.core_updCore_self, Core.task, writeAll_tasks, ← Core.task]] at hword

theorem completeMatrix_gone (s : State) (c t id : Nat) (r : MatRun) (stop : Bool) :
    mapGet ((s.completeMatrix c t id r stop).core c).flights id = none := by
  rw [completeMatrix_eq, State.dropFlight, State.core_updCore_self]
  exact (mapGet_mapDel _ _ _).trans (if_pos rfl)

/-! ## Barriers released in steps -/

/-- The clusters of a group's completed phase that are still to be released, without the first of them. -/
def Group.dropRelease (n : Nat) (g : Group) : Group := { g with release := g.release.drop n }

/-- A group of a launch with clusters released. -/
def Launch.released (gid n : Nat) (x : Launch) : Launch := { x with groups := mapUpd x.groups gid (Group.dropRelease n) }

theorem launches_releaseClusters (s : State) (l gid : Nat) (cl : List Nat) : (s.releaseClusters l gid cl).launches = s.launches := by
  have hout : (s.releaseClusters l gid cl).outside = s.outside := by
    rw [State.releaseClusters]
    generalize (s.tasksOf l).filter (fun p => cl.contains (coreCluster p.1)) = L
    induction L generalizing s with
    | nil => rfl
    | cons p L ih =>
      rw [List.foldl_cons, ih]
      exact Moved_releaseBar s p.1 p.2 gid
  have := congrArg State.launches hout
  exact this

theorem barrierReleaseStep_releases {s : State} {l : Nat} (gid : Nat) {x : Launch} (hx : mapGet s.launches l = some x) :
    ∃ t, exec (.barrierReleaseStep l gid) s = .next t ∧ KeepsStorage s t ∧ ((mapGet x.groups gid).isSome = true →
      (t.launch l).group gid = { x.group gid with release := (x.group gid).release.drop s.power.state.budget.2.2 }) := by
  have hlaunch : s.launch l = x := by rw [State.launch, mapGetD, hx]; rfl
  have hsplit := List.take_append_drop s.power.state.budget.2.2 (x.group gid).release
  cases hnow : ((x.group gid).release.take s.power.state.budget.2.2).isEmpty with
  | true =>
    refine ⟨s, ?_, KeepsStorage.refl s, fun _ => ?_⟩
    · show execBarrierReleaseStep l gid s = _
      rw [execBarrierReleaseStep]
      dsimp only
      rw [hlaunch, if_pos hnow]
    · rw [List.isEmpty_iff.1 hnow, List.nil_append] at hsplit
      rw [hlaunch, hsplit]
  | false =>
    refine ⟨(s.updLaunch l (Launch.released gid ((x.group gid).release.take s.power.state.budget.2.2).length)).releaseClusters l gid
      ((x.group gid).release.take s.power.state.budget.2.2), ?_, ((KeepsStorage.refl s).updLaunch).releaseClusters, fun hgroup => ?_⟩
    · show execBarrierReleaseStep l gid s = _
      rw [execBarrierReleaseStep]
      dsimp only
      rw [hlaunch, if_neg (by rw [hnow]; exact Bool.false_ne_true)]
      rfl
    · obtain ⟨g, hg⟩ := Option.isSome_iff_exists.1 hgroup
      have hdrop : (x.group gid).release.drop ((x.group gid).release.take s.power.state.budget.2.2).length =
          (x.group gid).release.drop s.power.state.budget.2.2 := by
        rcases Nat.le_total s.power.state.budget.2.2 (x.group gid).release.length with h | h
        · rw [List.length_take, Nat.min_eq_left h]
        · rw [List.take_of_length_le h, List.drop_length, List.drop_of_length_le h]
      rw [State.launch, launches_releaseClusters, State.updLaunch]
      dsimp only
      rw [mapGetD, mapGet_mapUpd, if_pos rfl, hx, ← hdrop]
      simp only [Option.map_some, Option.getD_some, Launch.group, Launch.released, mapGetD, mapGet_mapUpd, if_true, hg]
      rfl

/-- Settles O51: `issueMatrix_runs`, `matrixKStep_steps`, `part_completeMatrix` and `barrierReleaseStep_releases`. -/
theorem matrixEvents : Obligations.MatrixEvents := by
  refine fun s => ⟨?_, ?_, ?_, fun l gid x hx => barrierReleaseStep_releases gid hx⟩
  · rintro c t g r w o hr hop hall s0 sa sb hs0 hsa hsb hfree cls hcheck
    refine ⟨_, matrixOperationIssue_issues hr hop hall hs0 hsa hsb hfree hcheck, fun hmore => ?_⟩
    obtain ⟨f, hf, hkind, hclear⟩ := issueMatrix_runs (s := s) (c := c) (t := t) (g := g) (r := r) (cls := cls) (sa := sa) (sb := sb) hmore
    exact ⟨f, _, hf, hkind, rfl, rfl, rfl, rfl, by simpa [State.newRun] using Nat.ne_of_lt hmore, hclear⟩
  · rintro c id f r hid hk hstep hturn
    by_cases hmore : r.step + 1 < r.last
    · refine ⟨_, matrixKStep_steps hid hk hturn hmore, fun _ => ?_⟩
      obtain ⟨hnext, hop, hsigned, hlast⟩ := kStep_keeps s c ((s.core c).taskOfBand f.slot) r
      refine ⟨(f.setKind (.mat { s.kStep c ((s.core c).taskOfBand f.slot) r with released := r.released })), _, ?_, rfl, hnext, hop, hsigned, hlast,
        fun a ha => ?_⟩
      · rw [show ∀ m : State, ((m.countAt c 4 1).core c) = m.core c from fun _ => rfl, setStatus_part (·.flights) fun _ _ => rfl,
          State.core_updCore_self, Core.setKind]
        exact (mapGet_mapUpd _ _ _ _).trans ((if_pos rfl).trans (congrArg (Option.map _) hid))
      · have hword := status_set (s.updCore c (Core.setKind id (.mat { s.kStep c ((s.core c).taskOfBand f.slot) r with released := r.released })))
          c ((s.core c).taskOfBand f.slot) r.op (fun w => statusWord (stickyOf w) (statStop w) (s.kStep c ((s.core c).taskOfBand f.slot) r).step)
          (fun w => statProg w = (r.step + 1) % 128) (fun w => by rw [hnext]; exact (prog_word w _ _).1) a ha
        have htask : ((s.updCore c (Core.setKind id (.mat { s.kStep c ((s.core c).taskOfBand f.slot) r with released := r.released }))).core c).task
            ((s.core c).taskOfBand f.slot) = (s.core c).task ((s.core c).taskOfBand f.slot) := by
          rw [State.core_updCore_self]
          rfl
        rw [htask] at hword
        rw [show ∀ m : State, ((m.countAt c 4 1).core c) = m.core c from fun _ => rfl, setStatus_part (·.task _) fun _ _ => rfl, htask]
        exact hword
    · exact ⟨_, rfl, fun h => (hmore h).elim⟩
  · rintro c id f r task hid hk hdone rfl hl hpair
    refine ⟨s.completeMatrix c ((s.core c).taskOfBand f.slot) id r false, ?_, completeMatrix_gone _ _ _ _ _ _, fun i d hd => ?_,
      fun hp i d hd => ?_, fun a ha => completeMatrix_status ha⟩
    · show execMatrixOperationComplete c id s = _
      rw [execMatrixOperationComplete, hid]
      dsimp only
      rw [hk]
      exact congrArg Host.Outcome.next (if_neg (by omega))
    · rw [completeMatrix_row, writeAll_row hl hpair hd]
    · rw [completeMatrix_row, writeAll_row2 hp (hpair hp).1 hd]

end Sys2Proof.Machine
end

section
/-! PROOFS. Events of engine commands and of ingest (R208, R210, R213, R214, R222 to R231). -/

namespace Sys2Proof.Machine

/-! ## Start of a command -/

/-- A queue register that takes its oldest command (R208). -/
def Queue.taking (m : Cmd) (q : Queue) : Queue := { q with cmds := q.cmds.drop 1, cur := some ⟨m, 0, false, false, none⟩ }

theorem engTask_setQueue {s : State} {g : Eng} (x : Queue) (h : (mapGet (s.core g.c).tasks g.t).isSome = true) :
    mapGetD ((s.updTask g.c g.t (Task.setQueue g.q x)).engTask g).queues g.q Queue.fresh = x := by
  rw [State.engTask, State.task_updTask_self _ _ _ _ h, Task.setQueue, mapGetD, mapGet_mapSet_self]
  rfl

theorem engineCommandStart_starts {s : State} {g : Eng} {q : Queue} {m : Cmd} (hq : mapGet (s.engTask g).queues g.q = some q)
    (hm : s.startable g.c g.t g.q = some m)
    (hturn : nextRound (s.candidates (engineOf g.c q.port)) (mapGet s.engines (engineOf g.c q.port)) = some (queuePlace g.c g.t g.q)) :
    exec (.engineCommandStart g.c g.t g.q) s = .next { s.updTask g.c g.t (Task.setQueue g.q (q.taking m)) with
      engines := mapSet s.engines (engineOf g.c q.port) (queuePlace g.c g.t g.q) } := by
  have hqr : mapGetD ((s.core g.c).task g.t).queues g.q Queue.fresh = q := by
    rw [mapGetD, show mapGet ((s.core g.c).task g.t).queues g.q = some q from hq]
    rfl
  show execEngineCommandStart g.c g.t g.q s = _
  rw [execEngineCommandStart]
  dsimp only
  rw [hqr, hm]
  dsimp only
  rw [hturn, bne_self_eq_false, if_neg Bool.false_ne_true]
  rfl

/-! ## What an engine changes as it performs a command -/

/-- A copy performed from where it stands (R222, R223). -/
def State.copyStep (s : State) (g : Eng) (r : CmdRun) : State × Stop × Nat :=
  let src := r.cmd.side (fieldN r.cmd.head.low 17 16, 1)
  let dst := r.cmd.side (fieldN r.cmd.head.low 15 14, 3)
  let n := (r.cmd.word 5).toNat
  if bitN r.cmd.head.low 13 then s.copyDecode g r.cmd src dst (fieldN r.cmd.head.low 12 11) n else
  match s.copyBytes g r.cmd (src.plus r.pos) (dst.plus r.pos) (n - r.pos) with
  | (s, stop, k) => (s, stop, r.pos + k)

theorem Served.copyStep (s : State) (g : Eng) (r : CmdRun) : Served s (s.copyStep g r).1 := by
  unfold State.copyStep
  dsimp only
  split
  · exact Served.copyDecode _ _ _ _ _ _ _
  · exact Served.copyBytes _ _ _ _ _ _

/-- One row of a 2-D copy (R224). -/
def copyRow (g : Eng) (m : Cmd) (src dst : Side) (n : Nat) (a : State × Stop × Nat) (row : Nat) : State × Stop × Nat :=
  if a.2.1 != .go || (row + 1) * n ≤ a.2.2 then a else
  match a.1.copyBytes g m ((src.row row (m.word 6)).plus (a.2.2 - row * n)) ((dst.row row (m.word 7)).plus (a.2.2 - row * n))
    (n - (a.2.2 - row * n)) with
  | (s, stop, k) => (s, stop, a.2.2 + k)

theorem Served.copyRow (g : Eng) (m : Cmd) (src dst : Side) (n : Nat) (a : State × Stop × Nat) (row : Nat) :
    Served a.1 (copyRow g m src dst n a row).1 := by
  unfold Machine.copyRow
  split
  · exact Served.refl _
  · exact Served.copyBytes _ _ _ _ _ _

/-- The rows of a 2-D copy from where it stands (R224). -/
def State.copyRows (s : State) (g : Eng) (r : CmdRun) : State × Stop × Nat :=
  let n := (r.cmd.word 5).toNat
  if n = 0 then (s, .go, 0) else
  (List.range (fieldN r.cmd.head.low 17 6 + 1)).foldl (Machine.copyRow g r.cmd (r.cmd.side (fieldN r.cmd.head.low 5 4, 1))
    (r.cmd.side (fieldN r.cmd.head.low 3 2, 3)) n) (s, .go, r.pos)

theorem Served.copyRows (s : State) (g : Eng) (r : CmdRun) : Served s (s.copyRows g r).1 := by
  unfold State.copyRows
  refine Served.iteP (Served.refl _) ?_
  exact Served.foldlP (f := Machine.copyRow g r.cmd _ _ _) _ (fun a row _ => Served.copyRow _ _ _ _ _ a row) (s, .go, r.pos)

/-- A multicast performed (R226). -/
def State.fillAll (s : State) (g : Eng) (r : CmdRun) : State × Stop × Nat :=
  let src := r.cmd.side (fieldN r.cmd.head.low 17 16, 1)
  let dst : Side := ⟨true, (r.cmd.word 3).setWidth 64⟩
  let n := (r.cmd.word 4).toNat
  let task := s.engTask g
  let places := ((s.launch task.launch).fillMembers r.cmd.group task.number).filterMap fun k => s.findTask task.launch k
  if !places.all fun p => inScratch (4096 * ((s.core p.1).task p.2).spGrans) dst.at_.toNat n then (s, r.cmd.stop 8, 0) else
  match s.sideFault (s.engPd g) src n false with
  | (s, some f) => (s.engRecord g r.cmd (src.plus f.1).at_ f.2 false, .wait, 0)
  | (s, none) =>
    let tag := fun i => s.sideTag g (src.plus i)
    match s.sideRead g src n with
    | (s, e, bs) => (places.foldl (fun (s : State) p => (s.sideWrite ⟨p.1, p.2, 0⟩ dst bs tag).1) s, portStop e, 0)

theorem Served.fillAll (s : State) (g : Eng) (r : CmdRun) : Served s (s.fillAll g r).1 := by
  unfold State.fillAll
  dsimp only
  have hfault := Served.sideFault s (s.engPd g) (r.cmd.side (fieldN r.cmd.head.low 17 16, 1)) (r.cmd.word 4).toNat false
  split
  · exact Served.refl _
  · split
    · next heq =>
      rw [heq] at hfault
      exact hfault.trans (Served.raiseRecord _ _)
    · next m heq =>
      rw [heq] at hfault
      exact hfault.trans ((Served.sideRead m g (r.cmd.side (fieldN r.cmd.head.low 17 16, 1)) (r.cmd.word 4).toNat).trans
        (Served.foldl _ (fun s p _ => Served.sideWrite _ _ _ _ _) _))

/-- A binding performed (R228). -/
def State.bindStream (s : State) (g : Eng) (r : CmdRun) : State × Stop × Nat :=
  let n := fieldN r.cmd.head.low 17 6
  let task := s.engTask g
  let pd := s.engPd g
  if fieldN r.cmd.head.low 5 4 = 2 then
    match (s.stream n).bind with
    | some o => if o.pd != pd then (s, r.cmd.stop 10, 0)
        else (s.updStream n fun x => { x with bind := none, highest := none, paused := false, gap := none }, .go, 0)
    | none => (s, r.cmd.stop 10, 0)
  else
    let b := r.cmd.binding g task.launch task.number pd
    if s.refuseBind n b then (s, r.cmd.stop 10, 0) else
    ((s.updStream n fun x => { x with bind := some b, highest := none, paused := false, gap := none }).readConsumer n b, .go, 0)

theorem Served.bindStream (s : State) (g : Eng) (r : CmdRun) : Served s (s.bindStream g r).1 := by
  have hupd : ∀ n f, Served s (s.updStream n f) := fun _ _ => Served.outer rfl
  unfold State.bindStream
  dsimp only
  split
  · split
    · split
      · exact Served.refl _
      · dsimp only
        exact hupd _ _
    · exact Served.refl _
  · split
    · exact Served.refl _
    · dsimp only
      exact (hupd _ _).trans (served_fill _ _ _)

/-- Every command that an engine performs by itself is done or waits when its event is over (R214). -/
theorem runs_commands {s : State} {g : Eng} {q : Queue} {r : CmdRun} (hq : mapGet (s.engTask g).queues g.q = some q) (hr : q.cur = some r) :
    s.RunsCommand g r 0 (.copy g.c g.t g.q) ∧ s.RunsCommand g r 1 (.copy2d g.c g.t g.q) ∧ s.RunsCommand g r 2 (.gather g.c g.t g.q) ∧
    s.RunsCommand g r 3 (.scatter g.c g.t g.q) ∧ s.RunsCommand g r 4 (.multicast g.c g.t g.q) ∧ s.RunsCommand g r 6 (.ingestBind g.c g.t g.q) := by
  refine ⟨?_, ?_, ?_, ?_, ?_, ?_⟩
  · exact performs s g q r [0] 0 (fun s r => s.copyStep g r) hq hr rfl (Served.copyStep s g r) _ rfl
  · exact performs s g q r [1] 1 (fun s r => s.copyRows g r) hq hr rfl (Served.copyRows s g r) _ rfl
  · exact performs s g q r [2] 2 (fun s r => s.indexAll g r true) hq hr rfl (Served.indexAll s g r true) _ rfl
  · exact performs s g q r [3] 3 (fun s r => s.indexAll g r false) hq hr rfl (Served.indexAll s g r false) _ rfl
  · exact performs s g q r [4] 4 (fun s r => s.fillAll g r) hq hr rfl (Served.fillAll s g r) _ rfl
  · exact performs s g q r [6] 6 (fun s r => s.bindStream g r) hq hr rfl (Served.bindStream s g r) _ rfl

/-! ## Copies in the scratchpad -/

theorem plus_zero (x : Side) : x.plus 0 = x := by
  cases x
  simp [Side.plus]

theorem performCmd_done {s : State} {g : Eng} {q : Queue} {r : CmdRun} {op pos : Nat} {f : State → CmdRun → State × Stop × Nat} {m : State}
    (hq : mapGet (s.engTask g).queues g.q = some q) (hr : q.cur = some r) (hop : r.cmd.head.op = op) (hd : r.done = false)
    (hopen : s.engOpen g r.cmd = false) (hf : f s r = (m, .go, pos)) : performCmd g [op] f s = .next (m.noteCmd g pos .go) := by
  have hcur : s.curCmd g = some r := by
    rw [State.curCmd, mapGetD, hq]
    exact hr
  rw [performCmd, hcur]
  dsimp only
  rw [hop, hd, hopen, if_neg (by simp), hf]

/-- A copy within the scratchpad leaves the source's bytes at the destination, and no other byte differs (R222). -/
theorem copy_scratch {s : State} {g : Eng} {q : Queue} {r : CmdRun} (hq : mapGet (s.engTask g).queues g.q = some q) (hr : q.cur = some r)
    {src dst : Side} {n : Nat} (hop : r.cmd.head.op = 0) (hd : r.done = false) (hpos : r.pos = 0) (hopen : s.engOpen g r.cmd = false)
    (hplain : bitN r.cmd.head.low 13 = false) (hsrc : src = r.cmd.side (fieldN r.cmd.head.low 17 16, 1))
    (hdst : dst = r.cmd.side (fieldN r.cmd.head.low 15 14, 3)) (h1 : src.scratch = true) (h2 : dst.scratch = true) (hn : n = (r.cmd.word 5).toNat) :
    ∃ t x, exec (.copy g.c g.t g.q) s = .next t ∧ t.curCmd g = some x ∧ x.done = true ∧ x.fault = r.fault ∧
      (∀ i < n, t.spByte g.c (s.engTask g).gen ((s.engTask g).spBase + dst.at_.toNat + i) =
        s.spByte g.c (s.engTask g).gen ((s.engTask g).spBase + src.at_.toNat + i)) ∧
      ∀ a, (¬∃ i < n, a = (s.engTask g).spBase + dst.at_.toNat + i) → t.spByte g.c (s.engTask g).gen a = s.spByte g.c (s.engTask g).gen a := by
  obtain ⟨tag, hcopy⟩ := copyBytes_scratch s g r.cmd src dst n h1 h2
  have hstep : s.copyStep g r = ((s.updCore g.c fun k => k.spWrite (s.engTask g).gen ((s.engTask g).spBase + dst.at_.toNat)
      ((s.core g.c).spRead (s.engTask g).gen ((s.engTask g).spBase + src.at_.toNat) n).1 tag), .go, 0 + n) := by
    unfold State.copyStep
    dsimp only
    rw [hplain, if_neg Bool.false_ne_true, ← hsrc, ← hdst, ← hn, hpos, plus_zero, plus_zero, Nat.sub_zero, hcopy]
  have hexec : exec (.copy g.c g.t g.q) s = performCmd g [0] (fun s r => s.copyStep g r) s := rfl
  obtain ⟨m, hm⟩ : ∃ m, m = s.updCore g.c fun k => k.spWrite (s.engTask g).gen ((s.engTask g).spBase + dst.at_.toNat)
      ((s.core g.c).spRead (s.engTask g).gen ((s.engTask g).spBase + src.at_.toNat) n).1 tag := ⟨_, rfl⟩
  rw [← hm] at hstep
  have hcore : m.core g.c = (s.core g.c).spWrite (s.engTask g).gen ((s.engTask g).spBase + dst.at_.toNat)
      ((s.core g.c).spRead (s.engTask g).gen ((s.engTask g).spBase + src.at_.toNat) n).1 tag := by
    rw [hm, State.core_updCore_self]
  have htask : m.engTask g = s.engTask g := by
    rw [State.engTask, hcore, spWrite_part (·.task g.t) fun _ _ => rfl, State.engTask]
  obtain ⟨x, hx, -, -, hgo, -⟩ := noteCmd_cur m g q r (0 + n) .go (by rw [htask]; exact hq) hr
  have hbyte : ∀ a, (m.noteCmd g (0 + n) .go).spByte g.c (s.engTask g).gen a =
      if (s.engTask g).spBase + dst.at_.toNat ≤ a ∧ a < (s.engTask g).spBase + dst.at_.toNat + n then
        s.spByte g.c (s.engTask g).gen ((s.engTask g).spBase + src.at_.toNat + (a - ((s.engTask g).spBase + dst.at_.toNat)))
      else s.spByte g.c (s.engTask g).gen a := by
    intro a
    have hscr : ((m.noteCmd g (0 + n) .go).core g.c).scratch = (m.core g.c).scratch := by
      rw [State.noteCmd]
      exact State.part_updTask (·.scratch) (fun _ _ => rfl) _ _ _ _ _
    rw [State.spByte_eq, Core.spByte_congr hscr, hcore, spByte_spWrite,
      spRead_length]
    split
    · next ha => rw [spRead_get _ _ _ _ _ (by omega), State.spByte_eq]
    · rw [State.spByte_eq]
  refine ⟨m.noteCmd g (0 + n) .go, x, ?_, hx, (hgo rfl).1, (hgo rfl).2, fun i hi => ?_, fun a ha => ?_⟩
  · rw [hexec]
    exact performCmd_done hq hr hop hd hopen hstep
  · rw [hbyte, if_pos (by omega), Nat.add_sub_cancel_left]
  · rw [hbyte, if_neg (fun h => ha ⟨a - ((s.engTask g).spBase + dst.at_.toNat), by omega, by omega⟩)]

/-! ## Collectives -/

theorem collectiveReduce_eq {s : State} {g : Eng} {q : Queue} {r : CmdRun} (hq : mapGet (s.engTask g).queues g.q = some q) (hr : q.cur = some r)
    (hop : r.cmd.head.op = 5) (hd : r.done = false) : exec (.collectiveReduce g.c g.t g.q) s = .next
      (if ((s.launch (s.engTask g).launch).group r.cmd.group).members.any (s.missed (s.engTask g).launch r.cmd.group r.cmd.inst) then
        s.noteParts (s.collParts (s.engTask g).launch r.cmd.group r.cmd.inst) fun m => m.stop 9
      else if (s.collParts (s.engTask g).launch r.cmd.group r.cmd.inst).length < ((s.launch (s.engTask g).launch).group r.cmd.group).members.length ||
          (s.collParts (s.engTask g).launch r.cmd.group r.cmd.inst).any fun p => s.engOpen p.g p.m then s
      else s.runCollective (s.collParts (s.engTask g).launch r.cmd.group r.cmd.inst)) := by
  have hcur : s.curCmd ⟨g.c, g.t, g.q⟩ = some r := by
    rw [State.curCmd, mapGetD, show mapGet (s.engTask ⟨g.c, g.t, g.q⟩).queues g.q = some q from hq]
    exact hr
  show execCollectiveReduce g.c g.t g.q s = _
  rw [execCollectiveReduce]
  dsimp only
  rw [hcur]
  dsimp only
  rw [hop, hd, bne_self_eq_false, Bool.or_false, if_neg Bool.false_ne_true]

/-- A member that will push no part of a collective ends it for every member (R227). -/
theorem collective_missed {s : State} {g : Eng} {q : Queue} {r : CmdRun} (hq : mapGet (s.engTask g).queues g.q = some q) (hr : q.cur = some r)
    (hop : r.cmd.head.op = 5) (hd : r.done = false)
    (hmissed : ((s.launch (s.engTask g).launch).group r.cmd.group).members.any (s.missed (s.engTask g).launch r.cmd.group r.cmd.inst) = true)
    (hmine : ⟨g, r.cmd⟩ ∈ s.collParts (s.engTask g).launch r.cmd.group r.cmd.inst) :
    ∃ t x, exec (.collectiveReduce g.c g.t g.q) s = .next t ∧ t.curCmd g = some x ∧ x.done = true ∧
      x.fault = some (0x0D, engCode r.cmd.head 9) ∧ KeepsBands s t := by
  obtain ⟨hkeeps, q', x, hq', hx, -, hends⟩ := noteParts_cur g r.cmd (fun m => m.stop 9) 0x0D (engCode r.cmd.head 9) rfl
    (s.collParts (s.engTask g).launch r.cmd.group r.cmd.inst) s q r hq hr (fun p hp hpg => by
      subst hpg
      exact collParts_cmd s _ _ _ p.g q r hq hr hop hd rfl rfl p.m hp)
  obtain ⟨hdone, hfault⟩ := hends (.inl ⟨_, hmine, rfl⟩)
  refine ⟨_, x, ?_, ?_, hdone, hfault, hkeeps⟩
  · rw [collectiveReduce_eq hq hr hop hd, if_pos hmissed]
  · rw [State.curCmd, mapGetD, hq']
    exact hx

theorem collective_waits {s : State} {g : Eng} {q : Queue} {r : CmdRun} (hq : mapGet (s.engTask g).queues g.q = some q) (hr : q.cur = some r)
    (hop : r.cmd.head.op = 5) (hd : r.done = false)
    (hmissed : ((s.launch (s.engTask g).launch).group r.cmd.group).members.any (s.missed (s.engTask g).launch r.cmd.group r.cmd.inst) = false)
    (hfew : (s.collParts (s.engTask g).launch r.cmd.group r.cmd.inst).length < ((s.launch (s.engTask g).launch).group r.cmd.group).members.length) :
    exec (.collectiveReduce g.c g.t g.q) s = .next s := by
  rw [collectiveReduce_eq hq hr hop hd, if_neg (by rw [hmissed]; exact Bool.false_ne_true), if_pos]
  rw [Bool.or_eq_true, decide_eq_true_eq]
  exact .inl hfew

/-! ## Ends of commands -/

theorem getD_of_some {α : Type} {m : Map α} {i : Nat} {x d : α} (h : mapGet m i = some x) : mapGetD m i d = x := by
  rw [mapGetD, h]
  rfl

/-- A tagged command over lowers its tag's count; the tag is done when it was the last or faulted (R210). -/
theorem endTag_tagged (t : Task) (m : Cmd) (fault : Bool) (h : m.head.tagged = true) :
    mapGetD (t.endTag m.words fault).busy m.head.tag 0 = mapGetD t.busy m.head.tag 0 - 1 ∧
    (mapGetD t.busy m.head.tag 0 - 1 = 0 ∨ fault = true → (t.endTag m.words fault).done.getLsbD m.head.tag = true) ∧
    (fault = true → (t.endTag m.words fault).fault.getLsbD m.head.tag = true) := by
  have heq : t.endTag m.words fault = { t with
      busy := mapSet t.busy m.head.tag (mapGetD t.busy m.head.tag 0 - 1)
      done := if mapGetD t.busy m.head.tag 0 - 1 = 0 || fault then t.done ||| BitVec.ofNat 64 (2 ^ m.head.tag) else t.done
      fault := if fault then t.fault ||| BitVec.ofNat 64 (2 ^ m.head.tag) else t.fault } := by
    rw [Task.endTag]
    dsimp only
    rw [show bitN (m.words.headD 0).toNat 24 = true from h]
    rfl
  rw [heq]
  refine ⟨getD_of_some (mapGet_mapSet_self _ _ _), fun hlast => ?_, fun hfault => ?_⟩
  · dsimp only
    rw [if_pos (by simpa using hlast), BitVec.getLsbD_or, tag_bit _ (tag_lt m), Bool.or_true]
  · dsimp only
    rw [if_pos hfault, BitVec.getLsbD_or, tag_bit _ (tag_lt m), Bool.or_true]

theorem endCommand_cur {s : State} {g : Eng} {q : Queue} (hq : mapGet (s.engTask g).queues g.q = some q) (m : Cmd) (fault : Bool) :
    (s.endCommand g.c g.t g.q m fault).curCmd g = none := by
  obtain ⟨fs, htask⟩ := endCommand_task s g m fault q hq
  rw [State.curCmd, htask]
  dsimp only
  rw [mapGetD, mapGet_mapUpd, if_pos rfl, hq]
  rfl

theorem engineCommandComplete_ends {s : State} {g : Eng} {q : Queue} {r : CmdRun} (hq : mapGet (s.engTask g).queues g.q = some q) (hr : q.cur = some r)
    (hd : r.done = true) (hf : r.fault = none) :
    exec (.engineCommandComplete g.c g.t g.q) s = .next (s.endCommand g.c g.t g.q r.cmd false) := by
  show execEngineCommandComplete g.c g.t g.q s = _
  rw [execEngineCommandComplete, getD_of_some (show mapGet ((s.core g.c).task g.t).queues g.q = some q from hq), hr]
  exact congrArg Host.Outcome.next (if_pos (by rw [hd, hf]; rfl))

theorem engineFault_ends {s : State} {g : Eng} {q : Queue} {r : CmdRun} {cause code : Nat} (hq : mapGet (s.engTask g).queues g.q = some q)
    (hr : q.cur = some r) (hf : r.fault = some (cause, code)) : exec (.engineFault g.c g.t g.q) s =
      .next ((s.endCommand g.c g.t g.q r.cmd true).engineTrap g.c g.t r.cmd.slot cause code) := by
  show execEngineFault g.c g.t g.q s = _
  rw [execEngineFault, getD_of_some (show mapGet ((s.core g.c).task g.t).queues g.q = some q from hq), hr]
  dsimp only
  rw [hf]

/-- A task told that an engine's fault found no band. -/
def Task.setEflt (x : Task) : Task := { x with eflt := true }

theorem engineFault_kept {s : State} {g : Eng} {q : Queue} {r : CmdRun} {cause code : Nat} (hq : mapGet (s.engTask g).queues g.q = some q)
    (hr : q.cur = some r) (hf : r.fault = some (cause, code)) (hgone : ((s.core g.c).band r.cmd.slot).live = 0) :
    ∃ t, exec (.engineFault g.c g.t g.q) s = .next t ∧ t.curCmd g = none ∧ (t.engTask g).eflt = true ∧
      (r.cmd.head.tagged = true → (t.engTask g).fault.getLsbD r.cmd.head.tag = true ∧ (t.engTask g).done.getLsbD r.cmd.head.tag = true) := by
  obtain ⟨fs, htask⟩ := endCommand_task s g r.cmd true q hq
  have htrap : (s.endCommand g.c g.t g.q r.cmd true).engineTrap g.c g.t r.cmd.slot cause code =
      (s.endCommand g.c g.t g.q r.cmd true).updTask g.c g.t Task.setEflt := by
    rw [State.engineTrap, bands_endCommand, if_pos hgone]
    rfl
  have hset : ((s.endCommand g.c g.t g.q r.cmd true).updTask g.c g.t Task.setEflt).engTask g =
      ((s.endCommand g.c g.t g.q r.cmd true).engTask g).setEflt := by
    refine State.task_updTask_self _ _ _ _ (engTask_some (g := g) (q := { q with cur := none }) ?_)
    rw [htask]
    dsimp only
    rw [mapGet_mapUpd, if_pos rfl, hq]
    rfl
  refine ⟨_, (engineFault_ends hq hr hf).trans (congrArg Host.Outcome.next htrap), ?_, ?_, fun htagged => ?_⟩
  · have hcur := endCommand_cur hq r.cmd true
    rw [State.curCmd] at hcur ⊢
    rw [hset]
    exact hcur
  · rw [hset]
    rfl
  · obtain ⟨-, hdone, hfault⟩ := endTag_tagged (s.engTask g) r.cmd true htagged
    rw [hset, htask]
    exact ⟨hfault rfl, hdone (.inr rfl)⟩

theorem engineFault_traps {s : State} {g : Eng} {q : Queue} {r : CmdRun} {cause code : Nat} (hq : mapGet (s.engTask g).queues g.q = some q)
    (hr : q.cur = some r) (hf : r.fault = some (cause, code)) (hlive : ((s.core g.c).band r.cmd.slot).live ≠ 0) :
    exec (.engineFault g.c g.t g.q) s =
      .next ((s.endCommand g.c g.t g.q r.cmd true).asyncTrap g.c r.cmd.slot ((s.core g.c).band r.cmd.slot).live cause code 0) := by
  rw [engineFault_ends hq hr hf, State.engineTrap, bands_endCommand, if_neg hlive]

/-! ## Ingest -/

theorem ingestFrame_unmatched {s : State} {f : EthFrame} (h : s.matchFrame f = none) : exec (.ingestFrame f) s =
    .next { s with unmatched := mapSet s.unmatched f.port (mapGetD s.unmatched f.port 0 + 1) } := by
  show execIngestFrame f s = _
  rw [execIngestFrame, h]

/-- What becomes of a frame of a stream, but for one past the ring (R229). -/
theorem ingestFrame_matched {s : State} {f : EthFrame} {n : Nat} {b : Bind} (h : s.matchFrame f = some (n, b)) :
    (f.payload.length < b.hdr ∨ b.hdr + b.slotBytes < f.payload.length →
      exec (.ingestFrame f) s = .next (s.gapAt n (BitVec.ofNat 32 (numAt f.payload 0 4)) 3)) ∧
    (b.hdr ≤ f.payload.length → f.payload.length ≤ b.hdr + b.slotBytes →
      ((BitVec.ofNat 32 (numAt f.payload 0 4) - (s.stream n).consumer).toNat < b.slots →
        exec (.ingestFrame f) s = .next (s.acceptFrame n b f (BitVec.ofNat 32 (numAt f.payload 0 4)))) ∧
      (b.slots ≤ (BitVec.ofNat 32 (numAt f.payload 0 4) - (s.stream n).consumer).toNat →
        2 ^ 31 ≤ (BitVec.ofNat 32 (numAt f.payload 0 4) - (s.stream n).consumer).toNat →
        exec (.ingestFrame f) s = .next (s.gapAt n (BitVec.ofNat 32 (numAt f.payload 0 4)) 2))) := by
  show (_ → execIngestFrame f s = _) ∧ (_ → _ → (_ → execIngestFrame f s = _) ∧ (_ → _ → execIngestFrame f s = _))
  rw [execIngestFrame, h]
  dsimp only
  refine ⟨fun hlen => ?_, fun hmin hmax => ?_⟩
  · rw [if_pos (by simpa using hlen)]
  · rw [if_neg (by simp; omega)]
    refine ⟨fun hnear => ?_, fun hfar hlate => ?_⟩
    · rw [if_pos hnear]
    · rw [if_neg (by omega), if_pos hlate]

theorem checkPause_unpaused {s : State} {n : Nat} {b : Bind} (h : b.policy ≠ 1) : s.checkPause n b = s := by
  rw [State.checkPause]
  exact if_pos (by simpa using h)

theorem ingestConsumerReread_reads {s m : State} {n : Nat} {b : Bind} {bs : List Byte} (hb : (s.stream n).bind = some b)
    (hread : s.rangeRead b.pd b.consumerVa 4 = (m, 0, bs)) (hp : b.policy ≠ 1) : ∃ t, exec (.ingestConsumerReread n) s = .next t ∧
      (t.stream n).consumer = BitVec.ofNat 32 (ofBytes bs) ∧ KeepsBands s t := by
  refine ⟨s.readConsumer n b, ?_, ?_, (served_fill s n b).keeps⟩
  · show execIngestConsumerReread n s = _
    rw [execIngestConsumerReread, hb]
    dsimp only
    rw [checkPause_unpaused hp]
  · rw [State.readConsumer, hread]
    exact congrArg Stream.consumer (stream_upd _ _ _)

theorem pfcPauseRefresh_eq {s : State} {n : Nat} {b : Bind} (hb : (s.stream n).bind = some b) :
    exec (.pfcPauseRefresh n) s = .next (if (s.stream n).paused then s.sendPfc b 0xFFFF else s) := by
  show execPfcPauseRefresh n s = _
  rw [execPfcPauseRefresh, hb]

/-- Settles O52: the lemmas above, one per event. -/
theorem engineEvents : Obligations.EngineEvents := by
  refine ⟨fun s g q hq => ⟨?_, fun r hr => ?_⟩, fun s => ⟨?_, ?_, ?_, ?_⟩⟩
  · rintro m eng hm rfl hturn
    refine ⟨_, engineCommandStart_starts hq hm hturn, ?_, ?_, mapGet_mapSet_self _ _ _, (KeepsBands.updTask _ _ _ _).trans (KeepsBands.outer rfl)⟩
    · exact congrArg Queue.cur (engTask_setQueue (s := s) (g := g) (q.taking m) (engTask_some hq))
    · exact congrArg Queue.cmds (engTask_setQueue (s := s) (g := g) (q.taking m) (engTask_some hq))
  · obtain ⟨hcopy, hrows, hgather, hscatter, hfill, hbind⟩ := runs_commands hq hr
    refine ⟨hcopy, hrows, hgather, hscatter, hfill, hbind, ?_, ?_, ?_, ?_, ?_⟩
    · rintro src dst n gen hop hd hpos hopen hplain hsrc hdst h1 h2 hn rfl
      exact copy_scratch hq hr hop hd hpos hopen hplain hsrc hdst h1 h2 hn
    · rintro hop hd l ps ms rfl rfl rfl
      exact ⟨fun hmissed hmine => collective_missed hq hr hop hd hmissed hmine, fun hmissed hfew => collective_waits hq hr hop hd hmissed hfew⟩
    · intro hd hf
      refine ⟨_, engineCommandComplete_ends hq hr hd hf, endCommand_cur hq r.cmd false, ?_⟩
      rintro htagged n rfl
      obtain ⟨hbusy, hdone, -⟩ := endTag_tagged (s.engTask g) r.cmd false htagged
      obtain ⟨fs, htask⟩ := endCommand_task s g r.cmd false q hq
      rw [htask]
      exact ⟨hbusy, fun hlast => hdone (.inl hlast)⟩
    · exact fun cause code hf hgone => engineFault_kept hq hr hf hgone
    · exact fun cause code hf hlive => engineFault_traps hq hr hf hlive
  · intro f hf
    exact ⟨_, ingestFrame_unmatched hf, getD_of_some (mapGet_mapSet_self _ _ _), rfl, rfl⟩
  · rintro f n b q d hf rfl rfl
    obtain ⟨hbad, hfits⟩ := ingestFrame_matched hf
    refine ⟨fun hlen => ?_, fun hmin hmax => ⟨(hfits hmin hmax).1, fun hfar hlate => ?_⟩⟩
    · obtain ⟨haccepted, -, hcount⟩ := gapAt_stream s n (BitVec.ofNat 32 (numAt f.payload 0 4)) 3 (.inr rfl)
      exact ⟨_, hbad hlen, hcount, haccepted⟩
    · obtain ⟨haccepted, hcount, -⟩ := gapAt_stream s n (BitVec.ofNat 32 (numAt f.payload 0 4)) 2 (.inl rfl)
      exact ⟨_, (hfits hmin hmax).2 hfar hlate, hcount, haccepted⟩
  · rintro n b gp hb hgap
    obtain ⟨-, hmem, hkeeps, hnone⟩ := postGap_stream s n
    exact ⟨_, rfl, hnone (by rw [hb]; rfl), hmem, hkeeps⟩
  · rintro n b hb
    refine ⟨fun m bs hread hp => ingestConsumerReread_reads hb hread hp, fun hpaused => ?_, fun hpaused => ?_⟩
    · exact ⟨_, (pfcPauseRefresh_eq hb).trans (congrArg Host.Outcome.next (if_pos hpaused)), rfl, rfl⟩
    · rw [pfcPauseRefresh_eq hb, if_neg (by rw [hpaused]; exact Bool.false_ne_true)]

end Sys2Proof.Machine
end

section
/-! PROOFS. Management frames and the debugger's operations (R70, R92, R93, R228, R300, R303, R366 to R368, R373, R378 to R384, R387). -/

namespace Sys2Proof.Machine

/-- A command whose effect leaves what was sent answers as its effect says. -/
theorem manages_act {s : State} {f : Frame} {code : Nat} {signed : Bool} {ev : Instr} {act : State → State × Nat × List Byte}
    {P : State → State → Nat → List Byte → Prop} (he : exec ev s = manage code signed f act s)
    (hP : ∀ m : State, ∃ t st body, act m = (t, st, body) ∧ t.out = m.out ∧ P m (t.answer code f st body) st body) :
    s.Answers f code signed ev P :=
  manages he fun m hm _ => by
    obtain ⟨t, st, body, hact, hout, hp⟩ := hP m
    rw [hact]
    have hsent := congrArg State.out hm
    exact ⟨hout.trans hsent, hp⟩

/-! ## Identity and keys -/

theorem identify_answers {s : State} (f : Frame) (h : s.mgmt.powered = true) : ∃ t, exec (.identify f) s = .next t ∧ t.cores = s.cores ∧
    t.mgmt = s.mgmt ∧ ∃ sig, t.out = s.out ++ [.response 1 f.nonce 0 s.identityRecord sig] := by
  obtain ⟨p, hp⟩ := wakeUp_power s
  refine ⟨(if s.mgmt.halted then s else s.wakeUp).answer 1 f 0 (if s.mgmt.halted then s else s.wakeUp).identityRecord, ?_, ?_⟩
  · show execIdentify f s = _
    rw [execIdentify, h]
    rfl
  · rw [hp]
    split <;> exact ⟨rfl, rfl, _, rfl⟩

theorem attest_answers (s : State) (f : Frame) : s.Answers f 2 true (.attest f) (fun m t st body => (f.body.length ≠ 32 → st = 3) ∧
    (f.body.length = 32 → st = 0 ∧ t.mgmt.x448 = some m.fresh ∧ t.fresh = m.fresh + 1 ∧
      body = m.identityRecord ++ f.body ++ Config.imageDigests ++ m.keyBitmap ++ Config.x448Public m.fresh ++ Config.certificates)) := by
  refine manages_act (Eq.refl (execAttest f s)) fun m => ?_
  by_cases h : f.body.length = 32
  · exact ⟨_, _, _, if_neg (by simpa using h), rfl, fun h' => (h' h).elim, fun _ => ⟨rfl, rfl, rfl, rfl⟩⟩
  · exact ⟨_, _, _, if_pos (by simpa using h), rfl, fun _ => rfl, fun h' => (h h').elim⟩

/-- The key that a KEYLOAD frame wraps (R380). -/
def State.unwrapped (m : State) (f : Frame) : Option Key :=
  m.mgmt.x448.bind fun n => Config.unwrap n (sliceN f.body 2 56) (Config.bootNonce m.mgmt.bootNo) (sliceN f.body 58 72)

/-- A key installed in a slot, unless its halves are the same (R380). -/
def State.install (m : State) (k : Nat) : Option Key → State × Nat × List Byte
  | none => m.status 4
  | some key => if key.extractLsb' 0 256 == key.extractLsb' 256 256 then m.status 4 else { m with keys := mapSet m.keys k key }.status 0

theorem install_out (m : State) (k : Nat) (key : Option Key) : (m.install k key).1.out = m.out := by
  cases key with
  | none => rfl
  | some key =>
    rw [State.install]
    split <;> rfl

theorem keyload_answers (s : State) (f : Frame) : s.Answers f 3 true (.keyload f) (fun m t st _ => ∀ k, k = numAt f.body 0 2 →
    (f.body.length ≠ 130 ∨ 1024 ≤ k → st = 3 ∧ t.keys = m.keys) ∧
    (f.body.length = 130 → k < 1024 → (mapGet m.keys k).isSome = true ∨ m.mgmt.forensic = true → st = 4 ∧ t.keys = m.keys) ∧
    (f.body.length = 130 → k < 1024 → mapGet m.keys k = none → m.mgmt.forensic = false → ∀ n key, m.mgmt.x448 = some n →
      Config.unwrap n (sliceN f.body 2 56) (Config.bootNonce m.mgmt.bootNo) (sliceN f.body 58 72) = some key →
        (key.extractLsb' 0 256 = key.extractLsb' 256 256 → st = 4 ∧ t.keys = m.keys) ∧
        (key.extractLsb' 0 256 ≠ key.extractLsb' 256 256 → st = 0 ∧ mapGet t.keys k = some key ∧
          ∀ j, j ≠ k → mapGet t.keys j = mapGet m.keys j))) := by
  refine manages_act (Eq.refl (execKeyload f s)) fun m => ?_
  by_cases hbad : f.body.length ≠ 130 ∨ 1024 ≤ numAt f.body 0 2
  · refine ⟨_, _, _, if_pos (by simpa using hbad), rfl, ?_⟩
    rintro k rfl
    exact ⟨fun _ => ⟨rfl, rfl⟩, fun hl hk => by omega, fun hl hk => by omega⟩
  by_cases htaken : (mapGet m.keys (numAt f.body 0 2)).isSome = true ∨ m.mgmt.forensic = true
  · refine ⟨_, _, _, (if_neg (by simpa using hbad)).trans (if_pos (by simpa using htaken)), rfl, ?_⟩
    rintro k rfl
    refine ⟨fun h => (hbad h).elim, fun _ _ _ => ⟨rfl, rfl⟩, fun _ _ hnone hforensic => ?_⟩
    rw [hnone, hforensic] at htaken
    simp at htaken
  have hout := install_out m (numAt f.body 0 2) (m.unwrapped f)
  refine ⟨(m.install (numAt f.body 0 2) (m.unwrapped f)).1, (m.install (numAt f.body 0 2) (m.unwrapped f)).2.1,
    (m.install (numAt f.body 0 2) (m.unwrapped f)).2.2, (if_neg (by simpa using hbad)).trans ((if_neg (by simpa using htaken)).trans ?_),
    hout, ?_⟩
  · show (match m.unwrapped f with | none => _ | some key => _) = m.install _ _
    cases m.unwrapped f <;> rfl
  rintro k rfl
  refine ⟨fun h => (hbad h).elim, fun _ _ h => (htaken h).elim, fun _ _ _ _ n key hn hkey => ?_⟩
  have hunwrapped : m.unwrapped f = some key := by rw [State.unwrapped, hn]; exact hkey
  rw [hunwrapped]
  refine ⟨fun hsame => ?_, fun hdiffer => ?_⟩
  · rw [State.install, if_pos (by simpa using hsame)]
    exact ⟨rfl, rfl⟩
  · rw [State.install, if_neg (by simpa using hdiffer)]
    exact ⟨rfl, mapGet_mapSet_self _ _ _, fun j hj => mapGet_mapSet_ne _ _ hj⟩

theorem keydestroy_answers (s : State) (f : Frame) : s.Answers f 4 true (.keydestroy f) (fun m t st _ => ∀ k, k = numAt f.body 0 2 →
    (f.body.length ≠ 2 ∨ 1024 ≤ k → st = 3 ∧ t.keys = m.keys) ∧
    (f.body.length = 2 → k < 1024 → st = 0 ∧ mapGet t.keys k = none ∧ (∀ j, j ≠ k → mapGet t.keys j = mapGet m.keys j) ∧
      (∀ d ∈ t.domes, d ∈ m.domes ∧ ¬(d.2.enc = true ∧ d.2.key = k)) ∧ t.mem = m.mem)) := by
  refine manages_act (Eq.refl (execKeydestroy f s)) fun m => ?_
  by_cases hbad : f.body.length ≠ 2 ∨ 1024 ≤ numAt f.body 0 2
  · refine ⟨_, _, _, if_pos (by simpa using hbad), rfl, ?_⟩
    rintro k rfl
    exact ⟨fun _ => ⟨rfl, rfl⟩, fun hl hk => by omega⟩
  · refine ⟨_, _, _, if_neg (by simpa using hbad), rfl, ?_⟩
    rintro k rfl
    refine ⟨fun h => (hbad h).elim, fun _ _ => ⟨rfl, (mapGet_mapDel _ _ _).trans (if_pos rfl), fun j hj => (mapGet_mapDel _ _ _).trans (if_neg hj),
      fun d hd => ?_, rfl⟩⟩
    obtain ⟨hmem, hkept⟩ := List.mem_filter.1 hd
    exact ⟨hmem, by simpa [imp_iff_not_or] using hkept⟩

theorem powertol_answers (s : State) (f : Frame) : s.Answers f 5 true (.powertol f) (fun m t st _ =>
    (f.body.length ≠ 5 ∨ 3 < numAt f.body 4 1 → st = 3 ∧ t.power = m.power) ∧
    (f.body.length = 5 → numAt f.body 4 1 ≤ 3 → st = 0 ∧ t.power.tolerance = numAt f.body 0 4 ∧ t.power.cap.rank = numAt f.body 4 1 ∧
      ∃ x, t.power.pendState = some x ∧ x.rank = max (numAt f.body 4 1) ((m.power.thermal.map PState.rank).getD 0))) := by
  refine manages_act (Eq.refl (execPowertol f s)) fun m => ?_
  by_cases hbad : f.body.length ≠ 5 ∨ 3 < numAt f.body 4 1
  · exact ⟨_, _, _, if_pos (by simpa using hbad), rfl, fun _ => ⟨rfl, rfl⟩, fun hl hk => by omega⟩
  · refine ⟨_, _, _, if_neg (by simpa using hbad), rfl, fun h => (hbad h).elim, fun _ hcap => ⟨rfl, rfl, pstateOf_rank _ hcap, _, rfl, ?_⟩⟩
    rw [target_rank, pstateOf_rank _ hcap]

theorem evcfg_answers (s : State) (f : Frame) : s.Answers f 7 true (.evcfg f) (fun m t st _ => ∀ p i src, p = numAt f.body 0 1 →
    i = numAt f.body 1 1 → src = numAt f.body 2 1 →
    (f.body.length ≠ 3 ∨ 8 ≤ p ∨ 64 ≤ i ∨ 16 ≤ src → st = 3 ∧ t.events = m.events) ∧
    (f.body.length = 3 → p < 8 → i < 64 → src < 16 → st = 0 ∧ mapGet t.eventSrc (64 * p + i) = some src ∧
      mapGet t.events (64 * p + i) = some 0 ∧ ∀ j, j ≠ 64 * p + i → mapGet t.events j = mapGet m.events j)) := by
  refine manages_act (Eq.refl (execEvcfg f s)) fun m => ?_
  by_cases hbad : f.body.length ≠ 3 ∨ 8 ≤ numAt f.body 0 1 ∨ 64 ≤ numAt f.body 1 1 ∨ 16 ≤ numAt f.body 2 1
  · refine ⟨_, _, _, if_pos (by simpa [or_assoc] using hbad), rfl, ?_⟩
    rintro p i src rfl rfl rfl
    exact ⟨fun _ => ⟨rfl, rfl⟩, fun hl hp hi hs => by omega⟩
  · refine ⟨_, _, _, if_neg (by simpa [or_assoc] using hbad), rfl, ?_⟩
    rintro p i src rfl rfl rfl
    exact ⟨fun h => (hbad h).elim, fun _ _ _ _ => ⟨rfl, mapGet_mapSet_self _ _ _, mapGet_mapSet_self _ _ _, fun j hj => mapGet_mapSet_ne _ _ hj⟩⟩

theorem evread_answers (s : State) (f : Frame) : s.Answers f 8 true (.evread f) (fun m t st body =>
    (f.body.length ≠ 1 ∨ 8 ≤ numAt f.body 0 1 → st = 3) ∧ t.events = m.events ∧
    (f.body.length = 1 → numAt f.body 0 1 < 8 → st = 0 ∧
      body = (List.range 64).flatMap fun i => bytesOf 8 (mapGetD m.events (64 * numAt f.body 0 1 + i) 0))) := by
  refine manages_act (Eq.refl (execEvread f s)) fun m => ?_
  by_cases hbad : f.body.length ≠ 1 ∨ 8 ≤ numAt f.body 0 1
  · exact ⟨_, _, _, if_pos (by simpa using hbad), rfl, fun _ => rfl, rfl, fun hl hp => by omega⟩
  · exact ⟨_, _, _, if_neg (by simpa using hbad), rfl, fun h => (hbad h).elim, rfl, fun _ _ => ⟨rfl, rfl⟩⟩

/-! ## Clock, time, state and the module's number -/

/-- The bands that a CLOCKPLAN frame names, and the highest clock that it allows (R383). -/
def clockBands (f : Frame) : List (Nat × Nat) :=
  (List.range (numAt f.body 0 4)).map fun i => (numAt f.body (4 + 16 * i) 8, numAt f.body (12 + 16 * i) 8)

def topClock (f : Frame) : Nat := numAt f.body (4 + 16 * numAt f.body 0 4) 4

/-- The plan of the highest clock that avoids some bands, if there is one, for the next control interval (R383). -/
def State.replan (m : State) (bands : List (Nat × Nat)) : Option Nat → Option Nat → State × Nat × List Byte
  | none, _ => m.status 4
  | some mhz, r => { m with
      fresh := m.fresh + 1, power := { m.power with pendPlan := some ⟨bands, mhz, r.getD (Config.freeBits m.fresh).toNat⟩ } }.status 0

theorem replan_out (m : State) (bands : List (Nat × Nat)) (mhz khz : Option Nat) : (m.replan bands mhz khz).1.out = m.out := by
  cases mhz <;> rfl

theorem clockplan_answers (s : State) (f : Frame) : s.Answers f 6 true (.clockplan f) (fun m t st _ => ∀ n bands top, n = numAt f.body 0 4 →
    top = numAt f.body (4 + 16 * n) 4 → bands = (List.range n).map (fun i => (numAt f.body (4 + 16 * i) 8, numAt f.body (12 + 16 * i) 8)) →
    (32 < n ∨ f.body.length ≠ 8 + 16 * n ∨ top < 1000 ∨ 1050 < top → st = 3 ∧ t.power = m.power) ∧
    (n ≤ 32 → f.body.length = 8 + 16 * n → 1000 ≤ top → top ≤ 1050 →
      (m.power.emergency = true ∨ avoids bands 2100000 = false → st = 4 ∧ t.power = m.power) ∧
      (m.power.emergency = false → avoids bands 2100000 = true → ∀ mhz, 1000 ≤ mhz → mhz ≤ top → avoids bands (1000 * mhz) = true →
        (∀ k, mhz < k → k ≤ top → avoids bands (1000 * k) = false) → st = 0 ∧ ∃ plan, t.power.pendPlan = some plan ∧
          plan.bands = bands ∧ plan.mhz = mhz ∧ ∀ khz, 500 ≤ khz → khz ≤ 1000 → avoids bands khz = true →
            (∀ k, khz < k → k ≤ 1000 → avoids bands k = false) → plan.regulator = khz))) := by
  refine manages_act (Eq.refl (execClockplan f s)) fun m => ?_
  by_cases hbad : 32 < numAt f.body 0 4 ∨ f.body.length ≠ 8 + 16 * numAt f.body 0 4 ∨ topClock f < 1000 ∨ 1050 < topClock f
  · refine ⟨_, _, _, if_pos (by simpa [or_assoc, topClock] using hbad), rfl, ?_⟩
    rintro n bands top rfl rfl rfl
    exact ⟨fun _ => ⟨rfl, rfl⟩, fun h1 h2 h3 h4 => by rw [topClock] at hbad; omega⟩
  by_cases hno : m.power.emergency = true ∨ avoids (clockBands f) 2100000 = false
  · refine ⟨_, _, _, (if_neg (by simpa [or_assoc, topClock] using hbad)).trans (if_pos (by simpa [clockBands] using hno)), rfl, ?_⟩
    rintro n bands top rfl rfl rfl
    refine ⟨fun h => (hbad h).elim, fun _ _ _ _ => ⟨fun _ => ⟨rfl, rfl⟩, fun hcalm hcore => ?_⟩⟩
    rcases hno with h | h
    · exact absurd (hcalm.symm.trans h) (by simp)
    · exact absurd h (by rw [clockBands, hcore]; simp)
  generalize hplan : m.replan (clockBands f) (highest (fun mhz => avoids (clockBands f) (1000 * mhz)) (topClock f) (topClock f - 1000))
    (highest (avoids (clockBands f)) 1000 500) = r
  have hout : r.1.out = m.out := hplan ▸ replan_out _ _ _ _
  refine ⟨r.1, r.2.1, r.2.2, (if_neg (by simpa [or_assoc, topClock] using hbad)).trans
    ((if_neg (by simpa [clockBands] using hno)).trans (Eq.trans ?_ hplan)), hout, ?_⟩
  · unfold topClock clockBands
    generalize highest (avoids _) 1000 500 = khz
    generalize highest _ _ _ = mhz
    cases mhz <;> rfl
  rintro n bands top rfl rfl rfl
  refine ⟨fun h => (hbad h).elim, fun _ _ hlow _ => ⟨fun h => (hno h).elim, fun _ _ mhz hmhz htop hok hbest => ?_⟩⟩
  have hhigh : highest (fun mhz => avoids (clockBands f) (1000 * mhz)) (topClock f) (topClock f - 1000) = some mhz :=
    highest_eq _ _ _ _ (by rw [topClock]; omega) htop hok hbest
  rw [hhigh] at hplan
  subst hplan
  refine ⟨rfl, _, rfl, rfl, rfl, fun khz hkhz h1000 havoids hmost => ?_⟩
  have hreg : highest (avoids (clockBands f)) 1000 500 = some khz := highest_eq _ _ _ _ (by omega) h1000 havoids hmost
  rw [hreg]
  rfl

theorem resync_answers (s : State) (f : Frame) : s.Answers f 9 true (.resync f) (fun m t st body => st = 0 ∧ t.keys = m.keys ∧
    t.power = m.power ∧ ∃ r, body = m.identityRecord ++ bytesOf 1 m.power.state.rank ++ bytesOf 4 m.power.tolerance ++
      bytesOf 1 m.power.cap.rank ++ m.power.plan.bytes ++ m.keyBitmap ++ bytesOf 4 m.mgmt.alarm.toNat ++
      bytesOf 4 m.rings.cmdHead.toNat ++ r) :=
  manages_act (Eq.refl (execResync f s)) fun _ => ⟨_, _, _, rfl, rfl, rfl, rfl, rfl, _, rfl⟩

theorem settime_answers (s : State) (f : Frame) : s.Answers f 0x0A true (.settime f) (fun m t st _ =>
    (f.body.length ≠ 8 → st = 3 ∧ t.mgmt = m.mgmt) ∧
    (f.body.length = 8 → st = 0 ∧ t.time = BitVec.ofNat 64 (numAt f.body 0 8))) := by
  refine manages_act (Eq.refl (execSettime f s)) fun m => ?_
  by_cases hbad : f.body.length ≠ 8
  · exact ⟨_, _, _, if_pos (by simpa using hbad), rfl, fun _ => ⟨rfl, rfl⟩, fun h => (hbad h).elim⟩
  · refine ⟨_, _, _, if_neg (by simpa using hbad), rfl, fun h => (hbad h).elim, fun _ => ⟨rfl, ?_⟩⟩
    show BitVec.ofNat 64 _ + BitVec.ofNat 64 (m.usec - m.usec) = _
    rw [Nat.sub_self]
    exact BitVec.add_zero _

theorem admin_answers (s : State) (f : Frame) (a : AdminBody) :
    s.Answers f 0x0B (s.mgmt.manufactured || a.keySlot != 0) (.admin f a) (fun m t st _ =>
      (4 ≤ a.keySlot ∨ 4096 ≤ a.module → st = 3 ∧ t.mgmt = m.mgmt) ∧
      (a.keySlot < 4 → a.module < 4096 → st = 0 ∧ mapGet t.mgmt.pubKeys a.keySlot = some a.publicKey ∧ t.mgmt.admins = a.admins ∧
        t.mgmt.moduleNo.toNat = a.module ∧ t.mgmt.manufactured = true)) := by
  refine manages_act (Eq.refl (execAdmin f a s)) fun m => ?_
  by_cases hbad : 4 ≤ a.keySlot ∨ 4096 ≤ a.module
  · exact ⟨_, _, _, if_pos (by simpa using hbad), rfl, fun _ => ⟨rfl, rfl⟩, fun hslot hmodule => by omega⟩
  · refine ⟨_, _, _, if_neg (by simpa using hbad), rfl, fun h => (hbad h).elim, fun _ hmodule => ⟨rfl, mapGet_mapSet_self _ _ _, rfl, ?_, rfl⟩⟩
    exact (BitVec.toNat_ofNat a.module 16).trans (Nat.mod_eq_of_lt (by omega))

/-! ## Streams, channels, forensic mode, reset -/

theorem streams_answers (s : State) (f : Frame) (first n : Nat) : s.Answers f 0x0C true (.streams f first n) (fun m t st body =>
    t.streams = m.streams ∧ (4096 < first + n → st = 3) ∧
    (first + n ≤ 4096 → st = 0 ∧ body = ((List.range n).flatMap fun i => (m.stream (first + i)).bytes) ++
      (List.range 16).flatMap fun p => bytesOf 8 (mapGetD m.unmatched p 0))) := by
  refine manages_act (Eq.refl (execStreams f first n s)) fun m => ?_
  by_cases hbad : 4096 < first + n
  · exact ⟨_, _, _, if_pos hbad, rfl, rfl, fun _ => rfl, fun h => by omega⟩
  · exact ⟨_, _, _, if_neg hbad, rfl, rfl, fun h => (hbad h).elim, fun _ => ⟨rfl, rfl⟩⟩

/-- The margins of a stack's channels start anew (R367). -/
def remeasure (stack : Nat) (i : Nat) (x : Channel) : Channel := if i / 32 = stack then { x with minMargin := none } else x

theorem remeasure_repairs (stack i : Nat) (x : Channel) : (remeasure stack i x).rep0 = x.rep0 ∧ (remeasure stack i x).rep1 = x.rep1 ∧
    (remeasure stack i x).offline = x.offline := by
  rw [remeasure]
  split <;> exact ⟨rfl, rfl, rfl⟩

theorem channel_answers (s : State) (f : Frame) (k : Nat) : s.Answers f 0x0E true (.channel f k) (fun m t st body => (16 ≤ k → st = 3) ∧
    (k < 16 → st = 0 ∧ (∃ r, body = ((List.range 32).flatMap fun i => bytesOf 4 (m.chan (32 * k + i)).word) ++ r) ∧
      ∀ i, (t.chan i).rep0 = (m.chan i).rep0 ∧ (t.chan i).rep1 = (m.chan i).rep1 ∧ (t.chan i).offline = (m.chan i).offline)) := by
  refine manages_act (Eq.refl (execChannel f k s)) fun m => ?_
  by_cases hbad : 16 ≤ k
  · exact ⟨_, _, _, if_pos hbad, rfl, fun _ => rfl, fun h => by omega⟩
  · refine ⟨_, _, _, if_neg hbad, rfl, fun h => (hbad h).elim, fun _ => ⟨rfl, ⟨_, List.append_assoc _ _ _⟩, fun i => ?_⟩⟩
    have hchan : ∀ t : State, t.chans = mapAll m.chans (remeasure k) →
        (t.chan i).rep0 = (m.chan i).rep0 ∧ (t.chan i).rep1 = (m.chan i).rep1 ∧ (t.chan i).offline = (m.chan i).offline := by
      intro t ht
      rw [State.chan, State.chan, ht, mapGetD, mapGetD, mapGet_mapAll]
      cases mapGet m.chans i with
      | none => exact ⟨rfl, rfl, rfl⟩
      | some x => exact remeasure_repairs k i x
    exact hchan _ rfl

theorem forensic_answers (s : State) (f : Frame) : s.Answers f 0x0F true (.forensic f) (fun m t st _ =>
    (m.keys ≠ [] → st = 4 ∧ t.mgmt = m.mgmt) ∧ (m.keys = [] → st = 0 ∧ t.mgmt.forensic = true)) := by
  refine manages_act (Eq.refl (execForensic f s)) fun m => ?_
  by_cases hkeys : m.keys = []
  · exact ⟨_, _, _, if_neg (by simp [hkeys]), rfl, fun h => (h hkeys).elim, fun _ => ⟨rfl, rfl⟩⟩
  · exact ⟨_, _, _, if_pos (by simpa using hkeys), rfl, fun _ => ⟨rfl, rfl⟩, fun h => (hkeys h).elim⟩

theorem reset_answers (s : State) (f : Frame) : s.Answers f 0x10 true (.reset f) (fun m t st _ => st = 0 ∧ t.mem = [] ∧ t.keys = [] ∧
    t.cores = State.reset.cores ∧ t.graphs = [] ∧ t.launches = [] ∧ t.mgmt.bootNo = m.mgmt.bootNo + 1 ∧ t.mgmt.pubKeys = m.mgmt.pubKeys) :=
  manages_act (Eq.refl (execReset f s)) fun _ => ⟨_, _, _, rfl, rfl, rfl, rfl, rfl, rfl, rfl, rfl, rfl, rfl⟩

theorem unknownCommand_answers (s : State) (f : Frame) (code : BitVec 16) (hcode : code = 0 ∨ 0x10 < code.toNat) :
    s.Answers f code.toNat true (.unknownCommand f code) (fun m t st body => st = 5 ∧ body = [] ∧ t.mgmt = m.mgmt) := by
  have hunknown : ¬(decide (1 ≤ code.toNat) && decide (code.toNat ≤ 0x10)) = true := by
    rcases hcode with rfl | h
    · simp
    · simp only [Bool.and_eq_true, decide_eq_true_eq]; omega
  exact manages_act (if_neg hunknown) fun _ => ⟨_, _, _, rfl, rfl, rfl, rfl, rfl⟩

/-! ## The debugger -/

theorem debugBreakpoint_answers (s : State) (f : Frame) (c i : Nat) (a : Option (BitVec 64)) :
    s.Answers f 0x0D true (.debugBreakpoint f c i a) (fun m t st _ => (numCores ≤ c ∨ 8 ≤ i → st = 3 ∧ t.cores = m.cores) ∧
      (c < numCores → i < 8 → (mapGet m.cores c).isSome = true → st = 0 ∧ mapGet (t.core c).bps i = a ∧
        ∀ j, j ≠ i → mapGet (t.core c).bps j = mapGet (m.core c).bps j)) := by
  refine manages_act (Eq.refl (execDebugBreakpoint f c i a s)) fun m => ?_
  by_cases hbad : numCores ≤ c ∨ 8 ≤ i
  · exact ⟨_, _, _, if_pos (by simpa using hbad), rfl, fun _ => ⟨rfl, rfl⟩, fun hc hi => by omega⟩
  · refine ⟨_, _, _, if_neg (by simpa using hbad), rfl, fun h => (hbad h).elim, fun _ _ _ => ⟨rfl, ?_⟩⟩
    generalize hset : State.updCore m c _ = t
    have hcore := hset ▸ State.core_updCore_self m c _
    show mapGet (t.core c).bps i = a ∧ ∀ j, j ≠ i → mapGet (t.core c).bps j = mapGet (m.core c).bps j
    rw [hcore]
    cases a with
    | none => exact ⟨(mapGet_mapDel _ _ _).trans (if_pos rfl), fun j hj => (mapGet_mapDel _ _ _).trans (if_neg hj)⟩
    | some a => exact ⟨mapGet_mapSet_self _ _ _, fun j hj => mapGet_mapSet_ne _ _ hj⟩

/-- The entries of a band that a DEBUG_STEP frame names (R93). -/
def Core.stepped (k : Core) (b : Nat) : Option Nat → List Nat
  | some i => (k.entriesOf b).filter (· == i)
  | none => k.byLane b

/-- A step of the entries that it names, each of which that is poised issues once. -/
def State.armed (m : State) (c b : Nat) (e : Option Nat) : State :=
  m.updBand c b fun y => { y with stepping := ((m.core c).stepped b e).filter fun i => (m.core c).poised ((m.core c).entry i) }

theorem stepping_armed {m : State} {c b i : Nat} (hband : (mapGet (m.core c).bands b).isSome = true) (hi : i ∈ (m.core c).entriesOf b)
    (hp : (m.core c).poised ((m.core c).entry i) = true) : i ∈ (((m.armed c b (some i)).core c).band b).stepping := by
  rw [State.armed, State.band_updBand_self _ _ _ _ hband]
  exact List.mem_filter.2 ⟨List.mem_filter.2 ⟨hi, beq_self_eq_true i⟩, hp⟩

theorem debugStep_answers (s : State) (f : Frame) (c b : Nat) (e : Option Nat) :
    s.Answers f 0x0D true (.debugStep f c b e) (fun m t st _ => (m.taskAt c b = none → st = 3) ∧
      (∀ n, m.taskAt c b = some n → (((m.core c).task n).stopped = false → st = 4 ∧ t.cores = m.cores) ∧
        (((m.core c).task n).stopped = true → ∀ i, e = some i → i ∈ (m.core c).entriesOf b → st = 0 ∧
          ((m.core c).poised ((m.core c).entry i) = true → i ∈ ((t.core c).band b).stepping)))) := by
  refine manages_act (Eq.refl (execDebugStep f c b e s)) fun m => ?_
  cases htask : m.taskAt c b with
  | none => exact ⟨_, _, _, rfl, rfl, fun _ => rfl, fun n hn => (Option.some_ne_none n hn.symm).elim⟩
  | some t =>
    by_cases hrun : ((m.core c).task t).stopped = false
    · refine ⟨_, _, _, if_pos (by simpa using hrun), rfl, fun h => (Option.some_ne_none t h).elim, fun n hn => ?_⟩
      obtain rfl := Option.some.inj hn
      exact ⟨fun _ => ⟨rfl, rfl⟩, fun hstop => absurd (hrun.symm.trans hstop) (by simp)⟩
    by_cases hnone : (m.core c).stepped b e = []
    · refine ⟨_, _, _, (if_neg (by simpa using hrun)).trans (if_pos (List.isEmpty_iff.2 hnone)), rfl,
        fun h => (Option.some_ne_none t h).elim, fun n hn => ?_⟩
      obtain rfl := Option.some.inj hn
      refine ⟨fun h => (hrun h).elim, ?_⟩
      rintro - i rfl hi
      have hmem : i ∈ (m.core c).stepped b (some i) := List.mem_filter.2 ⟨hi, beq_self_eq_true i⟩
      rw [hnone] at hmem
      exact absurd hmem List.not_mem_nil
    · refine ⟨m.armed c b e, _, _, (if_neg (by simpa using hrun)).trans (if_neg (mt List.isEmpty_iff.1 hnone)), rfl,
        fun h => (Option.some_ne_none t h).elim, fun n hn => ⟨fun h => (hrun (Option.some.inj hn ▸ h)).elim, ?_⟩⟩
      rintro - i rfl hi
      exact ⟨rfl, stepping_armed (taskAt_band htask) hi⟩

/-- The task goes on, and the steps that its bands had left are dropped (R92). -/
def State.unstopped (m : State) (c n : Nat) : State :=
  ((m.core c).taskBands n).foldl (fun s b => s.updBand c b fun y => { y with stepping := [] })
    (m.updTask c n fun x => { x with stopped := false })

theorem unstopped_out (m : State) (c n : Nat) : (m.unstopped c n).out = m.out :=
  List.foldlRecOn (motive := fun t : State => t.out = m.out) _ _ rfl fun _ h _ _ => h

theorem stopped_unstopped {m : State} {c n : Nat} (h : ((m.core c).task n).stopped = true) :
    (((m.unstopped c n).core c).task n).stopped = false := by
  rw [State.unstopped, part_foldl (·.task n) (fun t b d => State.part_updBand (·.task n) (fun _ _ => rfl) t c b _ d),
    State.task_updTask_self _ _ _ _ (stopped_some h)]

theorem debugResume_answers (s : State) (f : Frame) (c b : Nat) :
    s.Answers f 0x0D true (.debugResume f c b) (fun m t st _ => (m.taskAt c b = none → st = 3) ∧
      (∀ n, m.taskAt c b = some n → (((m.core c).task n).stopped = false → st = 4 ∧ t.cores = m.cores) ∧
        (((m.core c).task n).stopped = true → st = 0 ∧ ((t.core c).task n).stopped = false))) := by
  refine manages_act (Eq.refl (execDebugResume f c b s)) fun m => ?_
  cases htask : m.taskAt c b with
  | none => exact ⟨_, _, _, rfl, rfl, fun _ => rfl, fun n hn => (Option.some_ne_none n hn.symm).elim⟩
  | some t =>
    by_cases hrun : ((m.core c).task t).stopped = false
    · refine ⟨_, _, _, if_pos (by simpa using hrun), rfl, fun h => (Option.some_ne_none t h).elim, fun n hn => ?_⟩
      obtain rfl := Option.some.inj hn
      exact ⟨fun _ => ⟨rfl, rfl⟩, fun hstop => absurd (hrun.symm.trans hstop) (by simp)⟩
    · refine ⟨m.unstopped c t, _, _, if_neg (by rw [Bool.not_eq_false] at hrun; simp [hrun]), unstopped_out m c t, fun h => (Option.some_ne_none t h).elim, fun n hn => ?_⟩
      obtain rfl := Option.some.inj hn
      exact ⟨fun h => (hrun h).elim, fun hstop => ⟨rfl, stopped_unstopped hstop⟩⟩

theorem debugReadTable_answers (s : State) (f : Frame) (c : Nat) : s.Answers f 0x0D true (.debugReadTable f c) (fun m t st body =>
    t.cores = m.cores ∧ (numCores ≤ c → st = 3) ∧
    (c < numCores → st = 0 ∧ body = (List.range 256).flatMap fun i => bytesOf 16 (m.tableWord c i))) := by
  refine manages_act (Eq.refl (execDebugReadTable f c s)) fun m => ?_
  by_cases hbad : numCores ≤ c
  · exact ⟨_, _, _, if_pos hbad, rfl, rfl, fun _ => rfl, fun h => by omega⟩
  · exact ⟨_, _, _, if_neg hbad, rfl, rfl, fun h => (hbad h).elim, fun _ => ⟨rfl, rfl⟩⟩

theorem debugStorageRead_answers (s : State) (f : Frame) (c : Nat) (r : StoreRef) (g : BitVec 16) :
    s.Answers f 0x0D true (.debugStorageRead f c r g) (fun m t st body => t.cores = m.cores ∧ st = 0 ∧
      (m.mgmt.forensic = true → body = ((m.core c).granule r).2 ++ bytesOf 2 ((m.core c).granule r).1.toNat) ∧
      (m.mgmt.forensic = false → ((m.core c).granule r).1 = g → g ∈ (m.core c).liveGens → body = ((m.core c).granule r).2) ∧
      (m.mgmt.forensic = false → ((m.core c).granule r).1 ≠ g ∨ g ∉ (m.core c).liveGens → body = zeroBytes (storeSize r))) := by
  refine manages_act (Eq.refl (execDebugStorageRead f c r g s)) fun m => ⟨_, _, _, rfl, rfl, rfl, rfl, fun h => if_pos h,
    fun h htag hlive => ?_, fun h hother => ?_⟩
  · exact (if_neg (by simp [h])).trans (if_pos (by simp [htag, hlive]))
  · exact (if_neg (by simp [h])).trans (if_neg (by simpa [imp_iff_not_or] using hother))

theorem debugStorageWrite_answers (s : State) (f : Frame) (c : Nat) (r : StoreRef) (g : BitVec 16) (lo : Nat) (bs : List Byte) :
    s.Answers f 0x0D true (.debugStorageWrite f c r g lo bs) (fun m t st _ =>
      ((∀ x ∈ (m.core c).tasks, x.2.gen ≠ g) → st = 4 ∧ t.cores = m.cores) ∧
      (∀ x, (m.core c).tasks.find? (fun x => x.2.gen == g) = some x →
        (x.2.stopped = false → (∃ b ∈ x.2.slots, ((m.core c).band b).keep = false) → st = 4 ∧ t.cores = m.cores) ∧
        (x.2.stopped = true ∨ (∀ b ∈ x.2.slots, ((m.core c).band b).keep = true) → (m.core c).owns x.2 r = true →
          lo + bs.length ≤ storeSize r → st = 0 ∧ t = (m.setCore c ((m.core c).putGranule r g (overlay
            (if ((m.core c).granule r).1 = g then ((m.core c).granule r).2 else zeroBytes (storeSize r)) lo bs))).answer 0x0D f 0 []))) := by
  refine manages_act (Eq.refl (execDebugStorageWrite f c r g lo bs s)) fun m => ?_
  dsimp only
  cases hfind : (m.core c).tasks.find? (fun x => x.2.gen == g) with
  | none => exact ⟨_, _, _, rfl, rfl, fun _ => ⟨rfl, rfl⟩, fun x hx => (Option.some_ne_none x hx.symm).elim⟩
  | some y =>
    obtain ⟨n, y⟩ := y
    have hsome : ¬∀ x ∈ (m.core c).tasks, x.2.gen ≠ g := fun h =>
      h _ (List.mem_of_find?_eq_some hfind) (by simpa using List.find?_some hfind)
    by_cases hruns : y.stopped = false ∧ ∃ b ∈ y.slots, ((m.core c).band b).keep = false
    · refine ⟨_, _, _, if_pos (by simpa using hruns), rfl, fun _ => ⟨rfl, rfl⟩, fun x hx => ?_⟩
      obtain rfl := Option.some.inj hx
      refine ⟨fun _ _ => ⟨rfl, rfl⟩, fun hheld => ?_⟩
      obtain ⟨hstop, b, hb, hkeep⟩ := hruns
      rcases hheld with h | h
      · exact absurd (hstop.symm.trans h) (by simp)
      · exact absurd (hkeep.symm.trans (h b hb)) (by simp)
    by_cases hbad : (m.core c).owns y r = false ∨ storeSize r < lo + bs.length
    · refine ⟨_, _, _, (if_neg (by simpa using hruns)).trans (if_pos (by simpa using hbad)), rfl, fun h => (hsome h).elim, fun x hx => ?_⟩
      obtain rfl := Option.some.inj hx
      refine ⟨fun hstop hb => (hruns ⟨hstop, hb⟩).elim, fun _ howns hfit => ?_⟩
      rcases hbad with h | h
      · exact absurd (h.symm.trans howns) (by simp)
      · omega
    · refine ⟨_, _, _, (if_neg (by simpa using hruns)).trans (if_neg (by simpa using hbad)), rfl, fun h => (hsome h).elim, fun x hx => ?_⟩
      obtain rfl := Option.some.inj hx
      exact ⟨fun hstop hb => (hruns ⟨hstop, hb⟩).elim, fun _ _ _ => ⟨rfl, by simp⟩⟩

/-- Settles O53, command by command; a frame that is not accepted by `manages` of `Laws/Manage`. -/
theorem managementEvents : Obligations.ManagementEvents := by
  unfold Obligations.ManagementEvents
  refine ⟨fun s f => ⟨identify_answers f, attest_answers s f, keyload_answers s f, keydestroy_answers s f, powertol_answers s f,
    clockplan_answers s f, evcfg_answers s f, evread_answers s f, resync_answers s f, settime_answers s f, admin_answers s f,
    streams_answers s f, channel_answers s f, forensic_answers s f, reset_answers s f, unknownCommand_answers s f⟩, fun s f c => ⟨?_, ?_, ?_, ?_, ?_, ?_⟩⟩
  · exact debugBreakpoint_answers s f c
  · exact debugStep_answers s f c
  · exact debugResume_answers s f c
  · exact debugReadTable_answers s f c
  · exact debugStorageRead_answers s f c
  · exact debugStorageWrite_answers s f c

end Sys2Proof.Machine
end

section
/-! PROOFS. Power and the watchtower (R382, R385, R387). -/

namespace Sys2Proof.Machine

theorem exec_idleEntry_keeps (s : State) (h : s.idleNow = false ∨ s.power.tolerance < 20000) : exec .idleEntry s = .next s := by
  refine congrArg Host.Outcome.next ?_
  by_cases hbusy : s.idleNow = false ∨ s.power.state.idle = true
  · exact if_pos (by simpa using hbusy)
  · refine (if_neg (by simpa using hbusy)).trans ?_
    have hnone : deepestIdle s.power.tolerance = none := by
      rcases h with h | h
      · exact (hbusy (.inl h)).elim
      · rw [deepestIdle, if_neg (by omega), if_neg (by omega), if_neg (by omega)]
    rw [hnone]

theorem exec_idleEntry_sleeps (s : State) (x : PState) (hnow : s.idleNow = true) (hact : s.power.state.idle = false)
    (hx : deepestIdle s.power.tolerance = some x) :
    exec .idleEntry s = .next { s with power := { s.power with pendState := some x } } := by
  refine congrArg Host.Outcome.next ((if_neg (by simp [hnow, hact])).trans ?_)
  rw [hx]

theorem exec_wake (s : State) (h : s.power.state.idle = true) : ∃ t x, exec .wake s = .next t ∧ t.power.pendState = some x ∧
    x.rank = max s.power.cap.rank ((s.power.thermal.map PState.rank).getD 0) ∧ t.cores = s.cores ∧ t.mem = s.mem := by
  refine ⟨s.wakeUp, s.power.target, rfl, ?_, target_rank _, ?_⟩
  all_goals rw [State.wakeUp]
  all_goals simp [h]

theorem exec_watchtowerAlarm (s : State) (w : Word) (h : s.mgmt.powered = true) : ∃ t, exec (.watchtowerAlarm w) s = .next t ∧
    t.keys = [] ∧ t.mgmt.halted = true ∧ t.mgmt.alarm = (if s.mgmt.alarm = 0 then w else s.mgmt.alarm) ∧ t.cores = s.cores ∧
    ∀ k ∈ s.cores, ∀ x ∈ k.2.tasks, mapGet t.pdEnd (s.launch x.2.launch).pd = some 2 :=
  ⟨_, congrArg Host.Outcome.next (if_neg (by simp [h])), rfl, rfl, rfl, rfl, fun k hk x hx => loses s k hk x hx⟩

theorem exec_powerUp (s : State) (h : s.mgmt.powered = false) : exec .powerUp s = .next s.powerCycle :=
  congrArg Host.Outcome.next (if_neg (by simp [h]))

/-- Settles O54, event by event. -/
theorem powerEvents : Obligations.PowerEvents := by
  unfold Obligations.PowerEvents
  refine fun s => ⟨fun x hnow hact hx => ?_, exec_idleEntry_keeps s, exec_wake s, fun w => exec_watchtowerAlarm s w, fun h => ?_⟩
  · exact ⟨_, exec_idleEntry_sleeps s x hnow hact hx, rfl, deepest_idle hx, rfl, rfl⟩
  · exact ⟨_, exec_powerUp s h, rfl, rfl, rfl, rfl, rfl, rfl, rfl, rfl⟩

end Sys2Proof.Machine
end

section
/-! PROOFS. The host commands (R152, R156, R321, R322, R324, R361, R369, R376, R389). -/

namespace Sys2Proof.Machine

/-! ## The entry at HEAD (R376) -/

variable {s m : State} {l : List Byte} {ev : Instr} {meant : Nat → Bool} {f : List Byte → State → State × Option (Nat × Nat)}

/-- A command without an entry does nothing, and an entry of another sequence stops the ring. -/
theorem command_head (he : exec ev s = hostCommand meant f s) : (s.cmdEntry = none → exec ev s = .next s) ∧
    (s.cmdEntry = some l → numAt l 4 4 ≠ s.rings.cmdHead.toNat → ∃ t, exec ev s = .next t ∧ t.rings.cmdStopped = true ∧ t.cores = s.cores) := by
  refine ⟨fun h => ?_, fun h hseq => ⟨{ s with rings := { s.rings with cmdStopped := true } }, ?_, rfl, rfl⟩⟩
  · rw [he, hostCommand, h]
  · rw [he, hostCommand, h]
    exact congrArg Host.Outcome.next (if_pos (by simpa using hseq))

theorem command_done {op st r : Nat} (h : s.commands l op) (hm : meant op = true) (he : exec ev s = hostCommand meant f s)
    (hf : f (l.drop 16) s = (m, some (st, r))) : exec ev s = .next (m.cmdDone l st r) := by
  rw [hostCommand_at h hm he, hf]

theorem command_waits {op : Nat} (h : s.commands l op) (hm : meant op = true) (he : exec ev s = hostCommand meant f s)
    (hf : f (l.drop 16) s = (m, none)) : exec ev s = .next m := by
  rw [hostCommand_at h hm he, hf]

/-! ## Command by command -/

theorem unknownOpcode_done {op : Nat} (hop : op = 0 ∨ 9 < op) (h : s.commands l op) :
    exec .hostCommandUnknownOpcode s = .next (s.cmdDone l 1 0) :=
  command_done h (by simpa using hop) (Eq.refl (execHostCommandUnknownOpcode s)) rfl

theorem tlb_dropPages (s : State) (pd va n c : Nat) : { (s.dropPages pd va n).core c with tlb := [] } = { s.core c with tlb := [] } ∧
    ∀ e, e ∈ ((s.dropPages pd va n).core c).tlb ↔ e ∈ (s.core c).tlb ∧
      ¬(e.pd = pd ∧ va < e.va.toNat + 2 ^ e.bits ∧ e.va.toNat < va + n) := by
  rw [State.dropPages, mapAll_core _ _ (fun _ => rfl)]
  refine ⟨rfl, fun e => ?_⟩
  rw [List.mem_filter]
  refine and_congr_right fun _ => ?_
  simp only [Bool.not_eq_true', Bool.and_eq_false_iff, beq_eq_false_iff_ne, decide_eq_false_iff_not, ne_eq]
  tauto

theorem tlbinv_done (h : s.commands l 1) : (s.pdValid (numAt (l.drop 16) 0 4) = false → exec .tlbinv s = .next (s.cmdDone l 2 0)) ∧
    (s.pdValid (numAt (l.drop 16) 0 4) = true →
      exec .tlbinv s = .next ((s.dropPages (numAt (l.drop 16) 0 4) (numAt (l.drop 16) 4 8) (numAt (l.drop 16) 12 8)).cmdDone l 0 0)) :=
  ⟨fun hpd => command_done h rfl (Eq.refl (execTlbinv s)) (if_pos (by simp [hpd])),
    fun hpd => command_done h rfl (Eq.refl (execTlbinv s)) (if_neg (by simp [hpd]))⟩

theorem bufinv_done (h : s.commands l 2) : exec .bufinv s = .next (s.cmdDone l (if numAt (l.drop 16) 0 4 < 65536 then 0 else 1) 0) :=
  command_done h rfl (Eq.refl (execBufinv s)) rfl

theorem recall_done (h : s.commands l 3) :
    exec .recallCommand s = .next ((s.recallRange (numAt (l.drop 16) 0 8) (numAt (l.drop 16) 8 8)).cmdDone l 0 0) :=
  command_done h rfl (Eq.refl (execRecallCommand s)) rfl

theorem faultans_done (h : s.commands l 4) (o : Option FaultRec) (ho : o = s.faultOpen.find? (fun r => r.core == numAt (l.drop 16) 0 2 &&
      r.slot == numAt (l.drop 16) 2 1 && r.entry == numAt (l.drop 16) 3 1 && r.addr.toNat == numAt (l.drop 16) 4 8)) :
    (o = none → exec .faultans s = .next (s.cmdDone l 3 0)) ∧
    (∀ r, o = some r → (numAt (l.drop 16) 12 1 = 0 → exec .faultans s = .next ((s.resumeRecord r).cmdDone l 0 0)) ∧
      (numAt (l.drop 16) 12 1 = 1 → exec .faultans s = .next ((s.killDomain r.pd 3).cmdDone l 0 0)) ∧
      (1 < numAt (l.drop 16) 12 1 → exec .faultans s = .next (s.cmdDone l 1 0))) := by
  refine ⟨?_, fun r hr => ⟨fun hans => ?_, fun hans => ?_, fun hans => ?_⟩⟩
  · rintro rfl
    refine command_done h rfl (Eq.refl (execFaultans s)) ?_
    rw [← ho]
  all_goals
    subst hr
    refine command_done h rfl (Eq.refl (execFaultans s)) ?_
    rw [← ho]
    dsimp only
  · simp only [hans]
  · simp only [hans]
  · split
    · omega
    · omega
    · rfl

theorem load_done (h : s.commands l 5) (x : LoadArgs) (hx : x = ⟨BitVec.ofNat 64 (numAt (l.drop 16) 0 8), numAt (l.drop 16) 8 8,
      numAt (l.drop 16) 16 4, numAt (l.drop 16) 20 8, numAt (l.drop 16) 28 2, numAt (l.drop 16) 30 2⟩) :
    (4 ≤ x.flags → exec .load s = .next (s.cmdDone l 1 0)) ∧
    (x.flags < 4 → s.pdValid x.pd = false → exec .load s = .next (s.cmdDone l 2 0)) ∧
    (x.flags < 4 → s.pdValid x.pd = true → ∀ m,
      (∀ e, s.askRead ⟨0, none⟩ x.obj x.bytes = (m, .error e) → exec .load s = .next (m.cmdDone l 6 0)) ∧
      ∀ o, s.askRead ⟨0, none⟩ x.obj x.bytes = (m, .ok o) →
        (∀ e, m.loadObject x o = .error e → exec .load s = .next (m.cmdDone l e 0)) ∧
        ∀ n h, m.loadObject x o = .ok (n, h) → exec .load s = .next (n.cmdDone l 0 h)) := by
  subst hx
  refine ⟨fun hflags => command_done h rfl (Eq.refl (execLoad s)) (if_pos hflags), fun hflags hpd =>
    command_done h rfl (Eq.refl (execLoad s)) ((if_neg (Nat.not_le.2 hflags)).trans (if_pos (by simpa using hpd))), fun hflags hpd m => ?_⟩
  have hasks : ¬(!s.pdValid (numAt (l.drop 16) 16 4)) = true := by simpa using hpd
  refine ⟨fun e he => ?_, fun o ho => ⟨fun e hl => ?_, fun n k hl => ?_⟩⟩
  all_goals refine command_done h rfl (Eq.refl (execLoad s)) ((if_neg (Nat.not_le.2 hflags)).trans ((if_neg hasks).trans ?_))
  · rw [he]
  · rw [ho]
    dsimp only
    rw [hl]
  · rw [ho]
    dsimp only
    rw [hl]

theorem unload_done (hc : s.commands l 6) (h : Nat) (hh : h = numAt (l.drop 16) 0 4) :
    (mapGet s.objects h = none → exec .unload s = .next (s.cmdDone l 3 0)) ∧
    ((mapGet s.objects h).isSome = true → s.objectUsed h = true → exec .unload s = .next s) ∧
    ((mapGet s.objects h).isSome = true → s.objectUsed h = false → exec .unload s = .next ((s.unloadObject h).cmdDone l 0 0)) := by
  subst hh
  have hnone : ∀ {o : Option Object}, o.isSome = true → ¬o.isNone = true := by
    rintro (_ | _) h <;> simp_all
  refine ⟨fun h => ?_, fun h hu => ?_, fun h hu => ?_⟩
  · exact command_done hc rfl (Eq.refl (execUnload s)) (if_pos (Option.isNone_iff_eq_none.2 h))
  · exact command_waits hc rfl (Eq.refl (execUnload s)) ((if_neg (hnone h)).trans (if_pos hu))
  · exact command_done hc rfl (Eq.refl (execUnload s)) ((if_neg (hnone h)).trans (if_neg (by simp [hu])))

theorem rings_requestPre (s : State) (c n : Nat) (area : BitVec 64) (code : Nat) : (s.requestPre c n area code).rings = s.rings := by
  rw [State.requestPre]
  split
  · rfl
  · exact List.foldlRecOn (motive := fun t : State => t.rings = s.rings) _ _ rfl fun _ h _ _ => h

/-- A PREEMPT at HEAD waits for the save of a task (R321). -/
def State.holdsRing (m : State) (w : Nat × Nat × Nat × Nat) : State := { m with rings := { m.rings with cmdWait := some w } }

theorem preempt_starts (h : s.commands l 7) (c : Nat) (hc : c = numAt (l.drop 16) 0 2) (hfree : s.rings.cmdWait = none) :
    (s.taskAt c (numAt (l.drop 16) 2 1) = none → exec .preempt s = .next (s.cmdDone l 3 0)) ∧
    (∀ n, s.taskAt c (numAt (l.drop 16) 2 1) = some n → (s.takesRequest c n = false → exec .preempt s = .next (s.cmdDone l 3 0)) ∧
      (s.takesRequest c n = true → ∃ t m, m = s.requestPre c n (BitVec.ofNat 64 (numAt (l.drop 16) 3 8)) 1 ∧ exec .preempt s = .next t ∧
        t.rings.cmdWait = some (c, n, ((s.core c).task n).launch, ((s.core c).task n).number) ∧
        t.rings.cmdHead = s.rings.cmdHead ∧ t.cores = m.cores)) := by
  subst hc
  refine ⟨fun hn => ?_, fun n hn => ⟨fun htakes => ?_, fun htakes => ?_⟩⟩
  · refine command_done h rfl (Eq.refl (execPreempt s)) ?_
    dsimp only
    rw [hfree, hn]
  · refine command_done h rfl (Eq.refl (execPreempt s)) ?_
    dsimp only
    rw [hfree, hn]
    exact if_pos (by simp [htakes])
  · have hrings := rings_requestPre s (numAt (l.drop 16) 0 2) n (BitVec.ofNat 64 (numAt (l.drop 16) 3 8)) 1
    refine ⟨(s.requestPre _ n _ 1).holdsRing (_, n, ((s.core _).task n).launch, ((s.core _).task n).number), _, rfl,
      command_waits h rfl (Eq.refl (execPreempt s)) ?_, rfl, (congrArg Rings.cmdHead hrings :), rfl⟩
    dsimp only
    rw [hfree, hn]
    exact if_neg (by simp [htakes])

theorem preempt_ends (h : s.commands l 7) (w : Nat × Nat × Nat × Nat) (hw : s.rings.cmdWait = some w) :
    (s.stillSaving w = true → exec .preempt s = .next s) ∧
    (s.stillSaving w = false → (s.savedTasks.any fun t => t.launch == w.2.2.1 && t.number == w.2.2.2) = true →
      exec .preempt s = .next (s.cmdDone l 0 0)) ∧
    (s.stillSaving w = false → (s.savedTasks.any fun t => t.launch == w.2.2.1 && t.number == w.2.2.2) = false →
      s.findTask w.2.2.1 w.2.2.2 = none → exec .preempt s = .next (s.cmdDone l 3 0)) := by
  refine ⟨fun hsaving => ?_, fun hover hsaved => ?_, fun hover hlost hgone => ?_⟩
  · refine command_waits h rfl (Eq.refl (execPreempt s)) ?_
    dsimp only
    rw [hw]
    exact if_pos hsaving
  · refine command_done h rfl (Eq.refl (execPreempt s)) ?_
    dsimp only
    rw [hw]
    refine (if_neg (by simp [hover])).trans ?_
    rw [hsaved]
    rfl
  · refine command_done h rfl (Eq.refl (execPreempt s)) ?_
    dsimp only
    rw [hw]
    refine (if_neg (by simp [hover])).trans ?_
    rw [hlost, hgone]
    rfl

theorem restore_done (h : s.commands l 8) (pd : Nat) (area : BitVec 64) (hp : pd = numAt (l.drop 16) 0 4)
    (ha : area = BitVec.ofNat 64 (numAt (l.drop 16) 4 8)) :
    (s.pdValid pd = false → exec .restore s = .next (s.cmdDone l 2 0)) ∧
    (s.pdValid pd = true → (s.taskOfArea pd area = none → exec .restore s = .next (s.cmdDone l 3 0)) ∧
      (∀ k n, s.taskOfArea pd area = some (k, n, true) → exec .restore s =
        .next ((s.enqueue (s.restoreCluster (s.launch k) n) ⟨k, n, some area, none, false, none⟩).cmdDone l 0 0)) ∧
      (∀ k n, s.taskOfArea pd area = some (k, n, false) →
        (∀ m, s.readArea pd area = (m, none) → exec .restore s = .next ((m.loseSaved k n).cmdDone l 3 0)) ∧
        ∀ m v, s.readArea pd area = (m, some v) → exec .restore s =
          .next ((m.enqueue (m.restoreCluster (m.launch k) n) ⟨k, n, some area, none, false, none⟩).cmdDone l 0 0))) := by
  subst hp ha
  refine ⟨fun hpd => command_done h rfl (Eq.refl (execRestore s)) (if_pos (by simp [hpd])), fun hpd => ⟨fun ht => ?_, fun k n ht => ?_,
    fun k n ht => ⟨fun m hr => ?_, fun m v hr => ?_⟩⟩⟩
  all_goals
    refine command_done h rfl (Eq.refl (execRestore s)) ((if_neg (by simp [hpd])).trans ?_)
    rw [ht]
  all_goals
    dsimp only
    rw [hr]

theorem killpd_done (h : s.commands l 9) : (s.pdValid (numAt (l.drop 16) 0 4) = false → exec .killpd s = .next (s.cmdDone l 2 0)) ∧
    (s.pdValid (numAt (l.drop 16) 0 4) = true → exec .killpd s = .next ((s.killDomain (numAt (l.drop 16) 0 4) 3).cmdDone l 0 0)) :=
  ⟨fun hpd => command_done h rfl (Eq.refl (execKillpd s)) (if_pos (by simp [hpd])),
    fun hpd => command_done h rfl (Eq.refl (execKillpd s)) (if_neg (by simp [hpd]))⟩

/-! ## Connections (R249, R330, R331, R360, R371, R372) -/

theorem rdma_refused (s : State) (c : Nat) (h : mapGet s.conns c = none) :
    (∀ va bs, exec (.rdmaWrite c va bs) s = .next (s.send (.accessError c))) ∧
    (∀ va n, exec (.rdmaRead c va n) s = .next (s.send (.accessError c))) :=
  ⟨fun _ _ => congrArg Host.Outcome.next (if_pos (Option.isNone_iff_eq_none.2 h)),
    fun _ _ => congrArg Host.Outcome.next (if_pos (Option.isNone_iff_eq_none.2 h))⟩

/-- What a connection reads and writes as, of the module once it is awake. -/
theorem asker_awake {s : State} {c : Nat} {x : Conn} (h : mapGet s.conns c = some x) :
    Asker.mk (s.wakeUp.conn c).pd (some (s.wakeUp.conn c).key) = ⟨x.pd, some x.key⟩ := by
  obtain ⟨p, hp⟩ := wakeUp_power s
  have hconn : s.wakeUp.conn c = x := by
    rw [hp]
    exact getD_of_some h
  rw [hconn]

theorem rdma_memory {s : State} {c : Nat} {x : Conn} (h : mapGet s.conns c = some x) {va : BitVec 64} (hva : inRegs va.toNat = false) :
    (∀ bs m, s.wakeUp.askWrite ⟨x.pd, some x.key⟩ va bs = (m, none) → exec (.rdmaWrite c va bs) s = .next (m.send (.rdmaDone c))) ∧
    (∀ bs m e, s.wakeUp.askWrite ⟨x.pd, some x.key⟩ va bs = (m, some e) → exec (.rdmaWrite c va bs) s = .next (m.send (.accessError c))) ∧
    (∀ n m bs, s.wakeUp.askRead ⟨x.pd, some x.key⟩ va n = (m, .ok bs) → exec (.rdmaRead c va n) s = .next (m.send (.rdmaData c bs))) ∧
    (∀ n m e, s.wakeUp.askRead ⟨x.pd, some x.key⟩ va n = (m, .error e) → exec (.rdmaRead c va n) s = .next (m.send (.accessError c))) := by
  have hconn : ¬(mapGet s.conns c).isNone = true := by rw [h]; simp
  have hregs : ¬inRegs va.toNat = true := by simp [hva]
  refine ⟨fun bs m hw => ?_, fun bs m e hw => ?_, fun n m bs hr => ?_, fun n m e hr => ?_⟩
  all_goals
    refine congrArg Host.Outcome.next ((if_neg hconn).trans ((if_neg hregs).trans ?_))
    rw [asker_awake h]
  · rw [hw]
  · rw [hw]
  · rw [hr]
  · rw [hr]

theorem rdma_registers {s : State} {c : Nat} {x : Conn} (h : mapGet s.conns c = some x) {va : BitVec 64} (hva : inRegs va.toNat = true)
    (o : Nat) (ho : o = va.toNat - regBase) : (∀ bs, exec (.rdmaWrite c va bs) s = .next (s.wakeUp.connRegWrite c va.toNat bs)) ∧
    (∀ n, s.isAdmin c = true ∨ s.ownTail c o n = true → ∃ t, exec (.rdmaRead c va n) s = .next t ∧
      t.out = s.out ++ [.rdmaData c ((List.range n).map fun i => s.wakeUp.regByte (o + i))]) ∧
    (∀ n, s.isAdmin c = false → s.ownTail c o n = false → exec (.rdmaRead c va n) s = .next (s.wakeUp.send (.accessError c))) := by
  have hconn : ¬(mapGet s.conns c).isNone = true := by rw [h]; simp
  obtain ⟨p, hp⟩ := wakeUp_power s
  have hmay : ∀ n, (s.wakeUp.isAdmin c || s.wakeUp.ownTail c o n) =
      (s.isAdmin c || s.ownTail c o n) := by
    intro n
    rw [hp]
    rfl
  have hout : s.wakeUp.out = s.out := by rw [hp]
  refine ⟨fun bs => congrArg Host.Outcome.next ((if_neg hconn).trans (if_pos hva)), fun n hok => ?_, fun n hno hnot => ?_⟩
  · refine ⟨s.wakeUp.send (.rdmaData c ((List.range n).map fun i => s.wakeUp.regByte (o + i))), ?_, ?_⟩
    · show execRdmaRead c va n s = _
      rw [execRdmaRead, if_neg hconn, if_pos hva]
      dsimp only
      rw [← ho, hmay, if_pos (by simpa using hok)]
    · rw [State.send, hout]
  · show execRdmaRead c va n s = _
    rw [execRdmaRead, if_neg hconn, if_pos hva]
    dsimp only
    rw [← ho, hmay, if_neg (by simp [hno, hnot])]

theorem exec_registerWrite (s : State) (c pa : Nat) (bs : List Byte) :
    (inRegs pa = false ∨ (s.isAdmin c = false ∧ s.ownTail c (pa - regBase) bs.length = false) →
      exec (.registerWrite c pa bs) s = .next (s.send (.accessError c))) ∧
    (inRegs pa = true → s.isAdmin c = true ∨ s.ownTail c (pa - regBase) bs.length = true →
      (∀ t, s.regWrite (pa - regBase) bs = some t → exec (.registerWrite c pa bs) s = .next (t.send (.rdmaDone c))) ∧
      (s.regWrite (pa - regBase) bs = none → exec (.registerWrite c pa bs) s = .next (s.send (.accessError c)))) := by
  show (_ → Host.Outcome.next (s.connRegWrite c pa bs) = _) ∧ (_ → _ → (∀ _, _ → Host.Outcome.next (s.connRegWrite c pa bs) = _) ∧
    (_ → Host.Outcome.next (s.connRegWrite c pa bs) = _))
  rw [State.connRegWrite]
  refine ⟨fun h => ?_, fun hin hmay => ?_⟩
  · rw [if_pos (by simpa using h)]
  have hok : ¬(!inRegs pa || !(s.isAdmin c || s.ownTail c (pa - regBase) bs.length)) = true := by
    simp only [hin, Bool.not_true, Bool.false_or, Bool.not_eq_true', Bool.or_eq_false_iff, not_and_or, Bool.not_eq_false]
    exact hmay
  refine ⟨fun t ht => ?_, fun ht => ?_⟩
  all_goals
    rw [if_neg hok, ht]

theorem exec_bufferTableWrite (s : State) (c i : Nat) (x : BitVec 256) :
    (s.isAdmin c = true → bufAccepted x = true → ∃ t, exec (.bufferTableWrite c i x) s = .next t ∧ mapGet t.bufs i = some x ∧
      (∀ j, j ≠ i → mapGet t.bufs j = mapGet s.bufs j) ∧ t.out = s.out ++ [.rdmaDone c] ∧ t.cores = s.cores ∧ t.mem = s.mem) ∧
    (s.isAdmin c = false ∨ bufAccepted x = false → exec (.bufferTableWrite c i x) s = .next (s.send (.accessError c))) := by
  refine ⟨fun hadmin hok => ⟨_, congrArg Host.Outcome.next (if_pos (by simp [hadmin, hok])), mapGet_mapSet_self _ _ _,
    fun j hj => mapGet_mapSet_ne _ _ hj, rfl, rfl, rfl⟩, fun h => congrArg Host.Outcome.next (if_neg ?_)⟩
  rcases h with h | h <;> simp [h]

theorem exec_wqErrClear (s : State) (c q : Nat) (w : WorkQueue) (hw : mapGet s.wqs q = some w) :
    (s.isAdmin c = true → ∃ t, exec (.wqErrClear c q) s = .next t ∧ mapGet t.wqs q = some { w with err := false } ∧
      (∀ p, p ≠ q → mapGet t.wqs p = mapGet s.wqs p) ∧ t.out = s.out ++ [.rdmaDone c]) ∧
    (s.isAdmin c = false → exec (.wqErrClear c q) s = .next (s.send (.accessError c))) :=
  ⟨fun hadmin => ⟨_, congrArg Host.Outcome.next (if_pos hadmin), (mapGet_mapUpd _ _ _ _).trans ((if_pos rfl).trans (congrArg _ hw)), fun p hp => (mapGet_mapUpd _ _ _ _).trans (if_neg hp), rfl⟩,
    fun hno => congrArg Host.Outcome.next (if_neg (by simp [hno]))⟩

theorem exec_remoteAtomic (s : State) (n addr : Nat) (a : RemoteAtomic) : ∃ t m e old,
    s.atomicAt ⟨(s.buf (addr / 2 ^ 44)).owner, none⟩ (addr / 2 ^ 44) (addr % 2 ^ 44) a.ty.size (remoteNew a) = (m, e, old) ∧
    exec (.remoteAtomic n addr a) s = .next t ∧ t = m.send (.remoteReply n (BitVec.ofNat 64 old) (e != 0)) ∧ KeepsBands s t := by
  have hkeeps := (Served.of (quiet_atomicAt s ⟨(s.buf (addr / 2 ^ 44)).owner, none⟩ (addr / 2 ^ 44) (addr % 2 ^ 44) a.ty.size (remoteNew a))).keeps
  exact ⟨_, _, _, _, rfl, rfl, rfl, hkeeps.trans (KeepsBands.outer rfl)⟩

/-- Settles O56, command by command and event by event; what a completed command leaves is `cmdDone_keeps` of `Laws/HostCmd`. -/
theorem hostEvents : Obligations.HostEvents := by
  unfold Obligations.HostEvents
  refine ⟨⟨cmdDone_keeps, ?_⟩, fun s c => ⟨fun e pd key => ?_, rdma_refused s c, ?_, exec_registerWrite s c, exec_bufferTableWrite s c,
    exec_wqErrClear s c, exec_remoteAtomic s⟩⟩
  · rintro s l _ rfl
    refine ⟨?_, fun op => unknownOpcode_done, fun h => ⟨(tlbinv_done h).1, fun hpd => ⟨_, (tlbinv_done h).2 hpd, ?_, ?_⟩⟩, bufinv_done,
      fun h => ⟨_, recall_done h, rfl, (Served.of (recallRange_keeps ..)).keeps⟩, faultans_done, load_done, unload_done, preempt_starts,
      preempt_ends, restore_done, killpd_done⟩
    · simp only [List.forall_mem_cons, List.not_mem_nil, false_imp_iff, implies_true, and_true]
      exact ⟨command_head (Eq.refl (execTlbinv s)), command_head (Eq.refl (execBufinv s)), command_head (Eq.refl (execRecallCommand s)),
        command_head (Eq.refl (execFaultans s)), command_head (Eq.refl (execLoad s)), command_head (Eq.refl (execUnload s)),
        command_head (Eq.refl (execPreempt s)), command_head (Eq.refl (execRestore s)), command_head (Eq.refl (execKillpd s)),
        command_head (Eq.refl (execHostCommandUnknownOpcode s))⟩
    · exact fun c => (tlb_dropPages s _ _ _ c).1
    · exact fun c => (tlb_dropPages s _ _ _ c).2
  · exact ⟨_, rfl, mapGet_mapSet_self _ _ _, fun d hd => mapGet_mapSet_ne _ _ hd, rfl, rfl⟩
  · rintro x _ hx rfl va
    exact ⟨rdma_memory hx, rdma_registers hx⟩

end Sys2Proof.Machine
end

section
/-! PROOFS. The graph walkers (R331 to R335, R338, R339). -/

namespace Sys2Proof.Machine

/-! ## Entries (R331, R332) -/

/-- The entry that a walker reads next of a queue. -/
def WorkQueue.entryAt (w : WorkQueue) : BitVec 64 := w.rbase + BitVec.ofNat 64 (32 * (w.head.toNat % 2 ^ (min 16 w.log2n.toNat)))

/-- A queue stops at an entry that is malformed. -/
def State.stopQueue (s : State) (q : Nat) : State := { s with wqs := mapUpd s.wqs q fun w => { w with err := true } }

theorem mapGet_mapUpd_of {α : Type} {m : Map α} {i : Nat} {x : α} (h : mapGet m i = some x) (f : α → α) : mapGet (mapUpd m i f) i = some (f x) := by
  rw [mapGet_mapUpd, if_pos rfl, h, Option.map_some]

/-- A graph as an entry of its queue begins it. -/
def firstNode (w : WorkQueue) (l : List Byte) : Graph :=
  ⟨BitVec.ofNat 64 (numAt l 0 8), w.head, BitVec.ofNat 64 (numAt l 16 8), numAt l 8 2, [], none, none, 0, false⟩

/-- A graph begins, and its queue is past its entry. -/
def State.startGraph (s : State) (spire q : Nat) (w : WorkQueue) (l : List Byte) : State :=
  { s with wqs := mapUpd s.wqs q fun w => { w with head := w.head + 1 }, lastTaken := mapSet s.lastTaken (8 * spire + w.prio.toNat) q
           pdEnd := mapDel s.pdEnd w.pd.toNat, graphs := mapSet s.graphs q (firstNode w l) }

theorem takeEntry_starts {s m : State} {spire q : Nat} {w : WorkQueue} {l : List Byte} (hq : s.nextQueue spire = some q)
    (hw : mapGet s.wqs q = some w) (hr : s.askRead (s.walkAsker q) w.entryAt 32 = (m, .ok l)) (hok : entryOk l w.head.toNat = true) :
    ∃ t g, exec (.walkerTakeEntry spire) s = .next t ∧ mapGet t.wqs q = some { w with head := w.head + 1 } ∧ mapGet t.graphs q = some g ∧
      g.addr = BitVec.ofNat 64 (numAt l 0 8) ∧ g.seq = w.head ∧ g.record = BitVec.ofNat 64 (numAt l 16 8) ∧ g.node = numAt l 8 2 ∧ g.w = [] ∧
      g.launch = none ∧ KeepsBands s t := by
  have hquiet := Quiet.askRead s (s.walkAsker q) w.entryAt 32
  rw [hr] at hquiet
  refine ⟨m.startGraph spire q w l, firstNode w l, ?_, mapGet_mapUpd_of ((congrArg (mapGet · q) hquiet.wqs).trans hw) _, mapGet_mapSet_self _ _ _, rfl, rfl, rfl, rfl, rfl, rfl,
    (Served.of hquiet).keeps.trans (KeepsBands.outer rfl)⟩
  show execWalkerTakeEntry spire s = _
  rw [execWalkerTakeEntry, hq]
  dsimp only
  rw [getD_of_some hw]
  rw [WorkQueue.entryAt] at hr
  rw [hr]
  exact congrArg Host.Outcome.next (if_neg (by simp [hok]))

theorem takeEntry_stops {s m : State} {spire q : Nat} {w : WorkQueue} {r : Except Miss (List Byte)} (hq : s.nextQueue spire = some q)
    (hw : mapGet s.wqs q = some w) (hr : s.askRead (s.walkAsker q) w.entryAt 32 = (m, r))
    (hbad : ∀ l, r = .ok l → entryOk l w.head.toNat = false) : ∃ t, exec (.walkerTakeEntry spire) s = .next t ∧
      mapGet t.wqs q = some { w with err := true } ∧ t.graphs = s.graphs ∧ KeepsBands s t := by
  have hquiet := Quiet.askRead s (s.walkAsker q) w.entryAt 32
  rw [hr] at hquiet
  refine ⟨m.stopQueue q, ?_, mapGet_mapUpd_of ((congrArg (mapGet · q) hquiet.wqs).trans hw) _, hquiet.graphs,
    (Served.of hquiet).keeps.trans (KeepsBands.outer rfl)⟩
  show execWalkerTakeEntry spire s = _
  rw [execWalkerTakeEntry, hq]
  dsimp only
  rw [getD_of_some hw]
  rw [WorkQueue.entryAt] at hr
  rw [hr]
  cases r with
  | error e => rfl
  | ok l => exact congrArg Host.Outcome.next (if_pos (by simp [hbad l rfl]))

/-! ## Where an event takes a graph -/

theorem quiet_of {β : Type} {s m : State} {r : State × β} {x : β} (h : Quiet s r.1) (hr : r = (m, x)) : Quiet s m := by
  rw [hr] at h
  exact h

theorem quiet_goes {s u : State} {q n : Nat} {g : Graph} {ev : Instr} (hg : mapGet s.graphs q = some g) (h : Quiet s u)
    (he : exec ev s = .next (u.goNode q n)) : s.GoesTo q g ev n g.w :=
  goNode_goes ((congrArg (mapGet · q) h.graphs).trans hg) rfl (Served.of h).keeps he

/-- The same once the graph itself was written. -/
theorem updated_goes {s t u : State} {q n : Nat} {g g' : Graph} {f : Graph → Graph} {ev : Instr} (hg : mapGet s.graphs q = some g) (h : Quiet s t)
    (hu : Quiet (t.updGraph q f) u) (hf : f g = g')
    (hsame : { g' with node := n, launch := none, waitFrom := none, copyPos := 0, waiting := false } = { g.atNode n with w := g'.w })
    (he : exec ev s = .next (u.goNode q n)) : s.GoesTo q g ev n g'.w := by
  have hgt : mapGet t.graphs q = some g := (congrArg (mapGet · q) h.graphs).trans hg
  have hgu : mapGet u.graphs q = some g' := (congrArg (mapGet · q) hu.graphs).trans (hf ▸ mapGet_mapUpd_of hgt f)
  have hupd : KeepsBands t (t.updGraph q f) := KeepsBands.outer rfl
  exact goNode_goes hgu hsame (((Served.of h).keeps.trans hupd).trans (Served.of hu).keeps) he

/-! ## The nodes (R333 to R335, R338, R339) -/

section
variable {s t : State} {q : Nat} {g : Graph} {l : List Byte}

theorem malformedNode_unread (hg : mapGet s.graphs q = some g) (hw : g.waiting = false) (hl : g.launch = none)
    (hr : s.readNode q g = (t, none)) : exec (.malformedNode q) s = .next (t.endGraph q 1 0 0) := by
  show execMalformedNode q s = _
  rw [execMalformedNode, hg]
  refine congrArg Host.Outcome.next ((if_neg (by simp [hw, hl])).trans ?_)
  rw [hr]

theorem quiet_node (hr : s.readNode q g = (t, some l)) : Quiet s t := quiet_of (quiet_readNode s q g) hr

variable (hg : mapGet s.graphs q = some g) (hw : g.waiting = false) (hl : g.launch = none) (hr : s.readNode q g = (t, some l))
include hg hw hl hr

theorem malformedNode_reserved (hty : nodeType l = 0 ∨ 8 ≤ nodeType l) : exec (.malformedNode q) s = .next (t.endGraph q 1 0 0) := by
  show execMalformedNode q s = _
  rw [execMalformedNode, hg]
  refine congrArg Host.Outcome.next ((if_neg (by simp [hw, hl])).trans ?_)
  rw [hr]
  exact if_pos (by simpa using hty)

theorem badHeader_ends (hbad : headerOkN l = false) : ∀ p ∈ [(Instr.kernelNode q, 1), (.copyNode q, 2), (.condNode q, 3), (.whileNode q, 4),
    (.waitqNode q, 5), (.waitqPoll q, 5), (.waitqTimeout q, 5), (.signalNode q, 6), (.endNode q, 7)], nodeType l = p.2 →
      exec p.1 s = .next (t.endGraph q 1 0 0) := by
  simp only [List.forall_mem_cons, List.not_mem_nil, false_imp_iff, implies_true, and_true]
  exact ⟨fun ht => (atNode_reads hg hw hl hr ht (ev := .kernelNode q) (Eq.refl (execKernelNode q s))).1 hbad,
    fun ht => (atNode_reads hg hw hl hr ht (ev := .copyNode q) (Eq.refl (execCopyNode q s))).1 hbad,
    fun ht => (atNode_reads hg hw hl hr ht (ev := .condNode q) (Eq.refl (execCondNode q s))).1 hbad,
    fun ht => (atNode_reads hg hw hl hr ht (ev := .whileNode q) (Eq.refl (execWhileNode q s))).1 hbad,
    fun ht => (atNode_reads hg hw hl hr ht (ev := .waitqNode q) (Eq.refl (execWaitqNode q s))).1 hbad,
    fun ht => (atNode_reads hg hw hl hr ht (ev := .waitqPoll q) (Eq.refl (execWaitqPoll q s))).1 hbad,
    fun ht => (atNode_reads hg hw hl hr ht (ev := .waitqTimeout q) (Eq.refl (execWaitqTimeout q s))).1 hbad,
    fun ht => (atNode_reads hg hw hl hr ht (ev := .signalNode q) (Eq.refl (execSignalNode q s))).1 hbad,
    fun ht => (atNode_reads hg hw hl hr ht (ev := .endNode q) (Eq.refl (execEndNode q s))).1 hbad⟩

variable (hok : headerOkN l = true)
include hok

/-- A launch begins, for which a graph waits at its KERNEL node (R335). -/
def State.addLaunch (t : State) (q : Nat) (x : Launch) : State :=
  ({ t with launches := mapSet t.launches t.nextLaunch x, nextLaunch := t.nextLaunch + 1, pdEnd := mapDel t.pdEnd x.pd } : State).updGraph q
    fun g => { g with launch := some t.nextLaunch }

theorem kernelNode_launches (hty : nodeType l = 1) (hreg : numAt l 10 1 < 16) (hcomb : numAt l 11 1 < 7) (hzero : zeroIn l 38 40 = true) :
    (t.launchOf q g l = none → exec (.kernelNode q) s = .next (t.endGraph q 3 0 0)) ∧
    ∀ x, t.launchOf q g l = some x → (t.coResident x = false → exec (.kernelNode q) s = .next (t.endGraph q 2 0 0)) ∧
      (t.coResident x = true → ∃ m : State, mapGet m.launches t.nextLaunch = some x ∧
        mapGet m.graphs q = some { g with launch := some t.nextLaunch } ∧ m.cores = t.cores ∧ m.clusters = t.clusters ∧
        exec (.kernelNode q) s = .next ((m.distribute t.nextLaunch x).checkLaunch t.nextLaunch)) := by
  have hexec := (atNode_reads hg hw hl hr hty (ev := .kernelNode q) (Eq.refl (execKernelNode q s))).2 hok (by simp [hreg, hcomb, hzero])
  have hgt : mapGet t.graphs q = some g := (congrArg (mapGet · q) (quiet_node hr).graphs).trans hg
  refine ⟨fun hx => hexec.trans (congrArg Host.Outcome.next ?_), fun x hx => ⟨fun hco => hexec.trans (congrArg Host.Outcome.next ?_),
    fun hco => ⟨t.addLaunch q x, mapGet_mapSet_self _ _ _, mapGet_mapUpd_of hgt _, rfl, rfl, hexec.trans (congrArg Host.Outcome.next ?_)⟩⟩⟩
  · rw [hx]
  · rw [hx]
    exact if_pos (by simp [hco])
  · rw [hx]
    exact if_neg (by simp [hco])

theorem copyNode_copies (hty : nodeType l = 2) (hzero : zeroIn l 32 64 = true) (src dst : BitVec 64) (n : Nat)
    (hsrc : src = BitVec.ofNat 64 (numAt l 8 8 + g.copyPos)) (hdst : dst = BitVec.ofNat 64 (numAt l 16 8 + g.copyPos))
    (hn : n = numAt l 24 8 - g.copyPos) (a b c d : State) (bs : List Byte) (ha : t.rangeFault (t.walkAsker q).pd src n false = (a, none))
    (hb : a.rangeFault (t.walkAsker q).pd dst n true = (b, none)) (hc : b.rangeReadAs (t.walkAsker q) src n = (c, 0, bs))
    (hd : c.rangeWriteAs (t.walkAsker q) none dst bs = (d, 0)) : s.GoesTo q g (.copyNode q) (nodeNext l) g.w := by
  subst hsrc hdst hn
  have hta : Quiet t a := quiet_of (Quiet.rangeFault ..) ha
  have hab : Quiet a b := quiet_of (Quiet.rangeFault ..) hb
  have hbc : Quiet b c := quiet_of (Quiet.rangeReadAs ..) hc
  have hcd : Quiet c d := quiet_of (Quiet.rangeWriteAs ..) hd
  refine quiet_goes hg ((quiet_node hr).trans (hta.trans (hab.trans (hbc.trans hcd)))) ?_
  refine ((atNode_reads hg hw hl hr hty (ev := .copyNode q) (Eq.refl (execCopyNode q s))).2 hok hzero).trans (congrArg Host.Outcome.next ?_)
  dsimp only
  rw [ha]
  dsimp only
  rw [hb]
  simp only [hc, hd]

theorem condNode_goes (hty : nodeType l = 3) (hcond : condOk l = true) (hzero : zeroIn l 5 8 = true) (hrest : zeroIn l 16 64 = true) :
    s.GoesTo q g (.condNode q) (if condHolds g l then numAt l 12 2 else nodeNext l) g.w :=
  quiet_goes hg (quiet_node hr)
    ((atNode_reads hg hw hl hr hty (ev := .condNode q) (Eq.refl (execCondNode q s))).2 hok (by simp [hcond, hzero, hrest]))

theorem whileNode_goes (hty : nodeType l = 4) (hcond : condOk l = true) (hcount : numAt l 5 1 < 16) (hzero : zeroIn l 6 8 = true)
    (hrest : zeroIn l 20 64 = true) (c limit : Nat) (hc : c = numAt l 5 1) (hlimit : limit = (if numAt l 16 4 = 0 then 2 ^ 32 else numAt l 16 4)) :
    (condHolds g l = false → s.GoesTo q g (.whileNode q) (nodeNext l) (mapSet g.w c 0)) ∧
    (condHolds g l = true → limit ≤ (g.reg c).toNat → exec (.whileNode q) s = .next (t.endGraph q 6 0 0)) ∧
    (condHolds g l = true → (g.reg c).toNat < limit → s.GoesTo q g (.whileNode q) (numAt l 12 2) (mapSet g.w c (g.reg c + 1))) := by
  have hexec := (atNode_reads hg hw hl hr hty (ev := .whileNode q) (Eq.refl (execWhileNode q s))).2 hok (by simp [hcond, hcount, hzero, hrest])
  have hquiet := quiet_node hr
  dsimp only at hexec
  rw [← hlimit, ← hc] at hexec
  refine ⟨fun hno => ?_, fun hyes hend => ?_, fun hyes hmore => ?_⟩
  · rw [if_pos (by simp [hno])] at hexec
    exact updated_goes hg hquiet (.refl _) rfl rfl hexec
  · rw [if_neg (by simp [hyes]), if_pos hend] at hexec
    exact hexec
  · rw [if_neg (by simp [hyes]), if_neg (by omega)] at hexec
    exact updated_goes hg hquiet (.refl _) rfl rfl hexec

/-- The condition of a WAITQ node on the word as read. -/
def waitHolds (l bs : List Byte) : Bool :=
  compareCC (BitVec.ofNat 4 (numAt l 4 1 / 16)) (BitVec.ofNat 64 (ofBytes bs) &&& BitVec.ofNat 64 (numAt l 24 8)) (BitVec.ofNat 64 (numAt l 16 8))

omit hg hw hl hr hok in
theorem pollWord_read {m u : State} {r : List Byte} (h : u.askRead (u.walkAsker q) (BitVec.ofNat 64 (numAt l 8 8)) 8 = (m, .ok r)) :
    u.pollWord q g l = if waitHolds l r then m.goNode q (nodeNext l) else m := by
  rw [State.pollWord, h]
  rfl

theorem waitqNode_waits (hty : nodeType l = 5) (hwait : waitqOk l = true) {m : State} {r : List Byte} (hnew : g.waitFrom = none)
    (hread : (t.updGraph q fun g => { g with waitFrom := some t.usec }).askRead (t.walkAsker q) (BitVec.ofNat 64 (numAt l 8 8)) 8 = (m, .ok r)) :
    (waitHolds l r = true → s.GoesTo q g (.waitqNode q) (nodeNext l) g.w) ∧
    (waitHolds l r = false → exec (.waitqNode q) s = .next m ∧ mapGet m.graphs q = some { g with waitFrom := some t.usec }) := by
  have hexec := (atNode_reads hg hw hl hr hty (ev := .waitqNode q) (Eq.refl (execWaitqNode q s))).2 hok hwait
  have hquiet := quiet_node hr
  have hpolled : Quiet (t.updGraph q fun g => { g with waitFrom := some t.usec }) m := quiet_of (Quiet.askRead ..) hread
  rw [if_neg (by simp [hnew]), pollWord_read hread] at hexec
  refine ⟨fun hyes => ?_, fun hno => ?_⟩
  · rw [if_pos hyes] at hexec
    exact updated_goes (g' := { g with waitFrom := some t.usec }) hg hquiet hpolled rfl rfl hexec
  · rw [if_neg (by simp [hno])] at hexec
    exact ⟨hexec, (congrArg (mapGet · q) hpolled.graphs).trans (mapGet_mapUpd_of ((congrArg (mapGet · q) hquiet.graphs).trans hg) _)⟩

theorem waitqPoll_polls (hty : nodeType l = 5) (hwait : waitqOk l = true) {m : State} {r : List Byte} {u : Nat} (hold : g.waitFrom = some u)
    (hread : t.askRead (t.walkAsker q) (BitVec.ofNat 64 (numAt l 8 8)) 8 = (m, .ok r)) :
    (waitHolds l r = true → s.GoesTo q g (.waitqPoll q) (nodeNext l) g.w) ∧ (waitHolds l r = false → exec (.waitqPoll q) s = .next m) := by
  have hexec := (atNode_reads hg hw hl hr hty (ev := .waitqPoll q) (Eq.refl (execWaitqPoll q s))).2 hok hwait
  have hpolled : Quiet t m := quiet_of (Quiet.askRead ..) hread
  rw [if_neg (by simp [hold]), pollWord_read hread] at hexec
  refine ⟨fun hyes => ?_, fun hno => ?_⟩
  · rw [if_pos hyes] at hexec
    exact quiet_goes hg ((quiet_node hr).trans hpolled) hexec
  · rw [if_neg (by simp [hno])] at hexec
    exact hexec

theorem waitqTimeout_ends (hty : nodeType l = 5) (hwait : waitqOk l = true) {u : Nat} (hold : g.waitFrom = some u) (hlimit : numAt l 32 4 ≠ 0)
    (hover : u + numAt l 32 4 ≤ t.usec) : exec (.waitqTimeout q) s = .next (t.endGraph q 7 0 0) :=
  ((atNode_reads hg hw hl hr hty (ev := .waitqTimeout q) (Eq.refl (execWaitqTimeout q s))).2 hok hwait).trans
    (congrArg Host.Outcome.next (if_pos (by simp [hold, hlimit, hover])))

theorem signalNode_goes (hty : nodeType l = 6) (hzero : zeroIn l 5 8 = true) (hrest : zeroIn l 24 64 = true) (halign : numAt l 8 8 % 8 = 0)
    (va v : BitVec 64) (m : State) (hva : va = BitVec.ofNat 64 (numAt l 8 8))
    (hv : v = (if bitN (numAt l 4 1) 1 then (g.reg (numAt l 4 1 / 16)).setWidth 64 else BitVec.ofNat 64 (numAt l 16 8))) :
    (bitN (numAt l 4 1) 0 = false → t.askWrite (t.walkAsker q) va (bytesOf 8 v.toNat) = (m, none) →
      s.GoesTo q g (.signalNode q) (nodeNext l) g.w) ∧
    (bitN (numAt l 4 1) 0 = true → ∀ n bs, t.askRead (t.walkAsker q) va 8 = (n, .ok bs) →
      n.askWrite (t.walkAsker q) va (bytesOf 8 (BitVec.ofNat 64 (ofBytes bs) + v).toNat) = (m, none) →
        s.GoesTo q g (.signalNode q) (nodeNext l) g.w) := by
  have hexec := (atNode_reads hg hw hl hr hty (ev := .signalNode q) (Eq.refl (execSignalNode q s))).2 hok (by simp [hzero, hrest, halign])
  have hquiet := quiet_node hr
  dsimp only at hexec
  rw [← hva, ← hv] at hexec
  refine ⟨fun hstore hwrite => ?_, fun hadd n bs hread hwrite => ?_⟩
  · rw [if_pos (by simp [hstore]), hwrite] at hexec
    exact quiet_goes hg (hquiet.trans (quiet_of (Quiet.askWrite ..) hwrite)) hexec
  · rw [if_neg (by simp [hadd]), hread] at hexec
    dsimp only at hexec
    rw [hwrite] at hexec
    exact quiet_goes hg (hquiet.trans ((quiet_of (Quiet.askRead ..) hread).trans (quiet_of (Quiet.askWrite ..) hwrite))) hexec

theorem endNode_ends (hty : nodeType l = 7) (hzero : zeroIn l 4 64 = true) : exec (.endNode q) s = .next (t.endGraph q 0 0 0) :=
  (atNode_reads hg hw hl hr hty (ev := .endNode q) (Eq.refl (execEndNode q s))).2 hok hzero

end

/-- Settles O57, node by node. -/
theorem walkerEvents : Obligations.WalkerEvents := by
  unfold Obligations.WalkerEvents
  refine ⟨endGraph_spec, fun s spire q w hq hw m r hr => ⟨fun l hl hok => takeEntry_starts hq hw (hl ▸ hr) hok,
    takeEntry_stops hq hw hr⟩, fun s q g hg hw hl => ⟨fun t hr => malformedNode_unread hg hw hl hr, fun t l hr => ⟨malformedNode_reserved hg hw hl hr,
      badHeader_ends hg hw hl hr, fun hok => ⟨kernelNode_launches hg hw hl hr hok, copyNode_copies hg hw hl hr hok, condNode_goes hg hw hl hr hok,
        whileNode_goes hg hw hl hr hok, ?_, signalNode_goes hg hw hl hr hok, endNode_ends hg hw hl hr hok⟩⟩⟩⟩
  rintro hty hwait m r _ rfl
  exact ⟨waitqNode_waits hg hw hl hr hok hty hwait, fun u => waitqPoll_polls hg hw hl hr hok hty hwait, fun u => waitqTimeout_ends hg hw hl hr hok hty hwait⟩

end Sys2Proof.Machine
end

section
/-! PROOFS. Line fills, page-table walks, fault records, channels and access counters (R67, R152, R155, R156, R367, R368, R374). -/

namespace Sys2Proof.Machine

/-! ## Fetch (R67) -/

/-- The sub-band that waited goes on. -/
def State.rearmed (s : State) (c e : Nat) : State := s.updEntry c e fun x => { x with wait := .ready }

theorem entry_rearmed {s : State} {c e : Nat} {en : Entry} (h : mapGet (s.core c).table e = some en) :
    ((s.rearmed c e).core c).entry e = { en with wait := .ready } := by
  rw [State.rearmed, State.entry_updEntry_self _ _ _ _ (by rw [h]; rfl), Core.entry_of h]

theorem ibuf_keepLine (s : State) (c : Nat) (l : ILine) : l ∈ ((s.keepLine c l).core c).ibuf := by
  rw [State.keepLine, State.core_updCore_self]
  exact List.mem_append_right _ (List.mem_singleton_self l)

section
variable {s : State} {c e : Nat} {en : Entry} (he : mapGet (s.core c).table e = some en) (hw : en.wait = .fetch)
include he hw

theorem lineFill_ready (hm : s.missing c e = none) : exec (.instructionLineFill c e) s = .next (s.rearmed c e) := by
  show execInstructionLineFill c e s = _
  rw [execInstructionLineFill, he]
  refine congrArg Host.Outcome.next ((if_neg (by simp [hw])).trans ?_)
  rw [hm]
  rfl

theorem lineFill_faults {a : BitVec 64} {m : State} {n : Nat} (hm : s.missing c e = some a)
    (ht : s.translate c (s.pdOf c en.slot) a accFetch = (m, .error n)) : exec (.instructionLineFill c e) s =
      .next ((m.park c e accFetch a ((lanesOf en.lanes).map fun l => (l, a, n))).rebalance c e) := by
  show execInstructionLineFill c e s = _
  rw [execInstructionLineFill, he]
  refine congrArg Host.Outcome.next ((if_neg (by simp [hw])).trans ?_)
  rw [hm]
  dsimp only
  rw [ht]

theorem lineFill_fills {a : BitVec 64} {m n : State} {t : Machine.Trans} {d : BitVec 1024} (hm : s.missing c e = some a)
    (ht : s.translate c (s.pdOf c en.slot) a accFetch = (m, .ok t))
    (hr : m.readLine c (s.pdOf c en.slot) { t with off := t.off / 128 * 128 } = (n, 0, d)) : exec (.instructionLineFill c e) s =
      .next ((n.keepLine c ⟨s.pdOf c en.slot, BitVec.ofNat 64 (a.toNat / 128 * 128), d, false⟩).rearmed c e) := by
  show execInstructionLineFill c e s = _
  rw [execInstructionLineFill, he]
  refine congrArg Host.Outcome.next ((if_neg (by simp [hw])).trans ?_)
  rw [hm]
  dsimp only
  rw [ht]
  simp only [hr]
  rfl

theorem lineFill_checks {a : BitVec 64} {m n : State} {t : Machine.Trans} {x : Nat} {d : BitVec 1024} (hx : x ≠ 0) (hm : s.missing c e = some a)
    (ht : s.translate c (s.pdOf c en.slot) a accFetch = (m, .ok t))
    (hr : m.readLine c (s.pdOf c en.slot) { t with off := t.off / 128 * 128 } = (n, x, d)) : exec (.instructionLineFill c e) s =
      .next ((n.updEntry c e fun x => { x with wait := .ready }).takeTrap c en.slot 0x0C x (some e)
        (((n.core c).band en.slot).thread ((lowestLane en.lanes).getD 0)).pc en.lanes a) := by
  show execInstructionLineFill c e s = _
  rw [execInstructionLineFill, he]
  refine congrArg Host.Outcome.next ((if_neg (by simp [hw])).trans ?_)
  rw [hm]
  dsimp only
  rw [ht]
  dsimp only
  rw [hr]
  split
  · rename_i h
    exact absurd (congrArg (fun r => r.2.1) h) hx
  · rename_i h
    obtain ⟨rfl, rfl, rfl⟩ := h
    rfl

end

/-- What a fill leaves of the sub-band, the line buffer, the bands and the registers of its core. -/
theorem filled_leaves {s n : State} {c e : Nat} {en : Entry} (he : mapGet (s.core c).table e = some en) (h : Quiet s n) (l : ILine) :
    (((n.keepLine c l).rearmed c e).core c).entry e = { en with wait := .ready } ∧ l ∈ (((n.keepLine c l).rearmed c e).core c).ibuf ∧
    (∀ b, { (((n.keepLine c l).rearmed c e).core c).band b with relFail := [] } = { (s.core c).band b with relFail := [] }) ∧
    (((n.keepLine c l).rearmed c e).core c).vrf = (s.core c).vrf ∧ (((n.keepLine c l).rearmed c e).core c).tasks = (s.core c).tasks := by
  have hpart : ∀ {β : Type} (p : Core → β), (∀ k x, p { k with table := x } = p k) → (∀ k x, p { k with ibuf := x } = p k) →
      p (((n.keepLine c l).rearmed c e).core c) = p (n.core c) :=
    fun p ht hi => (part_entry p ht _ _ _ _ _).trans (part_keepLine p hi _ _ _ _)
  refine ⟨entry_rearmed ?_, ?_, fun b => ?_, ?_, ?_⟩
  · rw [table_keepLine, h.table, he]
  · rw [State.rearmed, part_entry (·.ibuf) (fun _ _ => rfl)]
    exact ibuf_keepLine n c l
  · rw [hpart (·.band b) (fun _ _ => rfl) (fun _ _ => rfl)]
    exact (h.band c b).1
  · rw [hpart (·.vrf) (fun _ _ => rfl) (fun _ _ => rfl)]
    have := congrArg Core.vrf (h.core c)
    exact this
  · rw [hpart (·.tasks) (fun _ _ => rfl) (fun _ _ => rfl)]
    have := congrArg Core.tasks (h.core c)
    exact this

/-! ## Translation and fault records (R152, R155, R156, R374) -/

theorem pageTableWalk_performs {s m : State} {c e : Nat} {en : Entry} {op : MemOp} {acc : List LAcc} {faults : List (Nat × BitVec 64 × Nat)} {b : Bool}
    (he : mapGet (s.core c).table e = some en) (hw : en.wait = .translate op)
    (ht : (s.updEntry c e fun x => { x with wait := .ready }).transAll c ((s.updEntry c e fun x => { x with wait := .ready }).pdOf c en.slot) op true =
      (m, acc, faults, b)) : exec (.pageTableWalk c e) s = .next ((m.memPerform c e op acc faults).rebalance c e) := by
  show execPageTableWalk c e s = _
  rw [execPageTableWalk, he]
  dsimp only
  rw [hw]
  dsimp only
  rw [ht]

theorem pageTableWalk_walks {s : State} {c e : Nat} {en : Entry} {vas : List (Nat × BitVec 64)} {access : Nat}
    (he : mapGet (s.core c).table e = some en) (hw : en.wait = .walk vas access) :
    exec (.pageTableWalk c e) s = .next (s.walkFor c e vas access) := by
  show execPageTableWalk c e s = _
  rw [execPageTableWalk, he]
  dsimp only
  rw [hw]

/-- A record is in its domain's ring, and open (R374). -/
def State.opened (n : State) (r : FaultRec) : State :=
  { n with pds := mapUpd n.pds r.pd fun q => { q with tail := q.tail + 1 }, faultOpen := n.faultOpen ++ [r] }

theorem faultRecordPost_posts {s m n : State} {pd : Nat} {r : FaultRec} {p : PdRec} {t : Machine.Trans}
    (hr : s.faultWait.find? (fun r => r.pd == pd) = some r) (hp : p = mapGetD s.pds r.pd PdRec.fresh)
    (hroom : (p.tail - p.head).toNat < 2 ^ p.log2n.toNat)
    (ht : s.translateFor r.pd (p.ring + BitVec.ofNat 64 (32 * (p.tail.toNat % 2 ^ p.log2n.toNat))) true = (m, .ok t))
    (hw : m.writeBuf ⟨r.pd, none⟩ t.buf t.off r.bytes = (n, 0)) : ∃ u, exec (.faultRecordPost pd) s = .next u ∧
      u.faultWait = s.faultWait.erase r ∧ u.faultOpen = s.faultOpen ++ [r] ∧
      (mapGet s.pds r.pd = some p → mapGet u.pds r.pd = some { p with tail := p.tail + 1 }) ∧ KeepsBands s u := by
  have hquiet : Quiet s n := (quiet_of (Quiet.translateFor ..) ht).trans (quiet_of (Quiet.writeBuf ..) hw)
  have hwait : n.faultWait = s.faultWait := by have := congrArg State.faultWait hquiet.still; exact this
  have hopen : n.faultOpen = s.faultOpen := by have := congrArg State.faultOpen hquiet.still; exact this
  have hpds : n.pds = s.pds := by have := congrArg State.pds hquiet.still; exact this
  have hpost : s.postRecord r = some (n.opened r) := by
    rw [State.postRecord]
    dsimp only
    rw [← hp, if_neg (by omega), ht]
    dsimp only
    simp only [hw]
    rfl
  refine ⟨{ n.opened r with faultWait := n.faultWait.erase r }, ?_, congrArg (·.erase r) hwait, congrArg (· ++ [r]) hopen, fun hp' => ?_,
    (Served.of hquiet).keeps.trans (KeepsBands.outer rfl)⟩
  · show execFaultRecordPost pd s = _
    rw [execFaultRecordPost, hr]
    dsimp only
    rw [hpost]
    rfl
  · exact mapGet_mapUpd_of (hpds ▸ hp') _

theorem faultRecordPost_full {s : State} {pd : Nat} {r : FaultRec} {p : PdRec} (hr : s.faultWait.find? (fun r => r.pd == pd) = some r)
    (hp : p = mapGetD s.pds r.pd PdRec.fresh) (hfull : 2 ^ p.log2n.toNat ≤ (p.tail - p.head).toNat) :
    exec (.faultRecordPost pd) s = .next s := by
  have hpost : s.postRecord r = none := by
    rw [State.postRecord]
    dsimp only
    rw [← hp, if_pos hfull]
  show execFaultRecordPost pd s = _
  rw [execFaultRecordPost, hr]
  dsimp only
  rw [hpost]

/-! ## Channels and counters (R367, R368) -/

/-- A channel once the margin of a lane was noted, before its repair is decided. -/
def Channel.noted (x : Channel) (lane margin : Nat) : Channel :=
  { x with margins := mapSet x.margins lane margin, minMargin := some (min margin (x.minMargin.getD margin)), marginEv := x.marginEv || margin < 12 }

theorem measure_eq (x : Channel) (lane margin : Nat) : x.measure lane margin =
    if 8 ≤ margin ∨ lane ∈ x.due then x.noted lane margin
    else if x.spare then { x.noted lane margin with due := x.due ++ [lane] }
    else { x.noted lane margin with offline := x.offline || margin == 0 } := by
  rw [Channel.measure]
  simp only [Bool.or_eq_true, decide_eq_true_eq, List.contains_eq_mem]
  rfl

theorem measure_notes (x : Channel) (lane margin : Nat) : (x.measure lane margin).margins = mapSet x.margins lane margin ∧
    (x.measure lane margin).minMargin = some (min margin (x.minMargin.getD margin)) ∧
    (x.measure lane margin).marginEv = (x.marginEv || decide (margin < 12)) := by
  rw [measure_eq]
  split
  · exact ⟨rfl, rfl, rfl⟩
  · split <;> exact ⟨rfl, rfl, rfl⟩

theorem measure_spec (x : Channel) (lane margin : Nat) : mapGet (x.measure lane margin).margins lane = some margin ∧
    (x.measure lane margin).minMargin = some (min margin (x.minMargin.getD margin)) ∧ (margin < 12 → (x.measure lane margin).marginEv = true) ∧
    (12 ≤ margin → (x.measure lane margin).marginEv = x.marginEv) ∧
    (8 ≤ margin → (x.measure lane margin).due = x.due ∧ (x.measure lane margin).offline = x.offline) ∧
    (margin < 8 → lane ∉ x.due → x.rep0 = none → x.rep1 = none → x.due = [] →
      (x.measure lane margin).due = [lane] ∧ (x.measure lane margin).offline = x.offline) ∧
    (margin = 0 → lane ∉ x.due → x.rep0.isSome = true → x.rep1.isSome = true → (x.measure lane margin).offline = true) := by
  obtain ⟨hmargins, hmin, hev⟩ := measure_notes x lane margin
  refine ⟨hmargins ▸ mapGet_mapSet_self _ _ _, hmin, fun h => ?_, fun h => ?_, fun h => ?_, fun hlow hdue h0 h1 hnone => ?_, fun hzero hdue h0 h1 => ?_⟩
  · rw [hev, decide_eq_true h, Bool.or_true]
  · rw [hev, decide_eq_false (by omega), Bool.or_false]
  · rw [measure_eq, if_pos (.inl h)]
    exact ⟨rfl, rfl⟩
  · have hspare : x.spare = true := by simp [Channel.spare, h0, h1, hnone]
    rw [measure_eq, if_neg (by rintro (h | h); omega; exact hdue h), if_pos hspare, hnone]
    exact ⟨rfl, rfl⟩
  · have hspare : ¬x.spare = true := by
      simp only [Channel.spare, h0, h1, if_true, decide_eq_true_eq]
      omega
    rw [measure_eq, if_neg (by rintro (h | h); omega; exact hdue h), if_neg hspare, hzero]
    exact Bool.or_true _

theorem repair_spec (x : Channel) (lane : Nat) : (lane ∉ x.due → x.repair lane = x) ∧
    (lane ∈ x.due → (x.repair lane).due = x.due.erase lane ∧ mapGet (x.repair lane).margins lane = none ∧
      (x.rep0 = none → (x.repair lane).rep0 = some lane ∧ (x.repair lane).rep1 = x.rep1) ∧
      (x.rep0.isSome = true → (x.repair lane).rep1 = some lane ∧ (x.repair lane).rep0 = x.rep0)) := by
  refine ⟨fun h => if_pos (by simp [h]), fun h => ?_⟩
  have hgone : mapGet (mapDel x.margins lane) lane = none := (mapGet_mapDel _ _ _).trans (if_pos rfl)
  rw [Channel.repair, if_neg (by simp [h])]
  dsimp only
  cases h0 : x.rep0 with
  | none => exact ⟨rfl, hgone, fun _ => ⟨rfl, rfl⟩, fun h => absurd h (by simp)⟩
  | some n => exact ⟨rfl, hgone, fun h => (Option.some_ne_none n h).elim, fun _ => ⟨rfl, rfl⟩⟩

/-- A counter of a port or controller that decays (R368). -/
def decayed (p i n : Nat) : Nat := if portOf (65536 * i) = p then n / 2 else n

theorem counterDecay_halves {s : State} {p : Nat} (h : fieldN (mapGetD s.tierCtl p 0xFFFF0000#32).toNat 15 12 ≠ 0) :
    ∃ t, exec (.counterDecay p) s = .next t ∧ t.cores = s.cores ∧ t.mem = s.mem ∧
      ∀ i, mapGet t.counters i = (mapGet s.counters i).map fun n => if portOf (65536 * i) = p then n / 2 else n :=
  ⟨_, congrArg Host.Outcome.next (if_neg h), rfl, rfl, fun i => mapGet_mapAll s.counters (decayed p) i⟩

/-- Settles O58, event by event. -/
theorem translationAndChannelEvents : Obligations.TranslationAndChannelEvents := by
  unfold Obligations.TranslationAndChannelEvents
  intro s
  refine ⟨fun c e en he hw => ⟨fun hm => ⟨_, lineFill_ready he hw hm, entry_rearmed he⟩, ?_⟩, fun c e en op m acc faults b he hw =>
    pageTableWalk_performs he hw, fun c e en vas access he hw => pageTableWalk_walks he hw, fun pd r p hr hp =>
      ⟨fun hroom m t n ht hwr => faultRecordPost_posts hr hp hroom ht hwr, faultRecordPost_full hr hp⟩, fun k ch lane margin => ?_,
    fun k ch lane x hx => ?_, fun p => ⟨fun h => congrArg Host.Outcome.next (if_pos h), counterDecay_halves⟩⟩
  · rintro a _ m hm rfl
    refine ⟨fun n ht => lineFill_faults he hw hm ht, fun t n d ht hr => ?_, fun t n x d hx ht hr => lineFill_checks he hw hx hm ht hr⟩
    have hquiet : Quiet s n := (quiet_of (Quiet.translate ..) ht).trans (quiet_of (Quiet.readLine ..) hr)
    exact ⟨_, lineFill_fills he hw hm ht hr, filled_leaves he hquiet _⟩
  · exact ⟨_, _, rfl, mapGet_mapSet_self _ _ _, fun i hi => mapGet_mapSet_ne _ _ hi, rfl, rfl, measure_spec _ _ _⟩
  · refine ⟨_, x.repair lane, rfl, mapGet_mapUpd_of hx _, fun i hi => (mapGet_mapUpd _ _ _ _).trans (if_neg hi), repair_spec x lane⟩

end Sys2Proof.Machine
end

section
/-! PROOFS. Placed tasks: requests, switches, phases that are not admitted, the end and the successor (R285, R293, R295 to R298, R302, R305,
R321, R350). -/

namespace Sys2Proof.Machine

/-! ## Requests for pre-emption (R305, R321) -/

/-- A band has taken its request. -/
def Band.served (b : Band) : Band := { b with pre := false }

theorem takeRequest_spec (s : State) (c slot code : Nat) (hb : (mapGet (s.core c).bands slot).isSome = true) (m : State)
    (hm : m = s.updBand c slot Band.served) (n : Nat) (hn : n = (s.core c).taskOfBand slot) :
    (((s.core c).task n).kvec ≠ 0 → m.Enters c slot 0x0E code 0 0 0 (s.takeRequest c slot code)) ∧
    (((s.core c).task n).kvec = 0 → (mapGet (s.core c).tasks n).isSome = true → m.Ends c n 1 0x0E code (s.takeRequest c slot code)) := by
  have htasks : (m.core c).tasks = (s.core c).tasks := hm ▸ State.part_updBand (·.tasks) (fun _ _ => rfl) s c slot _ c
  have htask : (m.core c).task n = (s.core c).task n := by rw [Core.task, Core.task, htasks]
  have heq : s.takeRequest c slot code =
      if ((m.core c).task n).kvec = 0 then m.endTask c n 1 0x0E code else m.enterKeep c slot 0x0E code none 0 0 0 := by
    rw [hm, hn]
    rfl
  refine ⟨fun hk => ?_, fun hk hsome => ?_⟩
  · rw [heq, htask, if_neg hk]
    exact State.enters _ _ _ _ _ _ _ _ _ (by rw [hm, State.placed_updBand]; exact hb)
  · rw [heq, htask, if_pos hk]
    exact State.ends _ _ _ _ _ _ (by rw [htasks]; exact hsome)

section
variable {s : State} {c n : Nat} {x : Task} (hx : mapGet (s.core c).tasks n = some x)
include hx

theorem preemptionRequest_spec (slot : Nat) (area : BitVec 64) (hslot : s.taskAt c slot = some n) :
    (s.takesRequest c n = false → exec (.preemptionRequest c slot area) s = .next s) ∧
    (s.takesRequest c n = true → ∃ u, exec (.preemptionRequest c slot area) s = .next u ∧ ((u.core c).task n).request = some ⟨area, 1⟩ ∧
      ((u.core c).task n).saved = true ∧ ((u.core c).task n).ksave = area ∧
      ∀ b ∈ x.slots, (mapGet (s.core c).bands b).isSome = true → ((u.core c).band b).pre = true) := by
  have hexec : exec (.preemptionRequest c slot area) s = .next (s.requestPre c n area 1) := by
    show execPreemptionRequest c slot area s = _
    rw [execPreemptionRequest, hslot]
  rw [hexec]
  refine ⟨fun htakes => congrArg Host.Outcome.next (if_pos (by simp [htakes])), fun htakes => ⟨_, rfl, ?_⟩⟩
  rw [State.requestPre, if_neg (by simp [htakes])]
  dsimp only
  generalize hm : State.updTask s c n _ = m
  have htask : (m.core c).task n = { x with saved := true, request := some ⟨area, 1⟩, ksave := area } := by
    rw [← hm, State.task_updTask_self _ _ _ _ (by rw [hx]; rfl), task_eq hx]
  obtain ⟨htasks, hpre⟩ := pre_fold c ((m.core c).taskBands n) m
  generalize List.foldl _ m _ = u at htasks hpre ⊢
  have hu : (u.core c).task n = { x with saved := true, request := some ⟨area, 1⟩, ksave := area } := by
    rw [Core.task, htasks]
    exact htask
  rw [hu]
  refine ⟨rfl, rfl, rfl, fun b hb hplaced => hpre b ?_ (.inl ?_)⟩
  · rw [← hm, State.part_updTask (·.bands) (fun _ _ => rfl)]
    exact hplaced
  · rw [Core.taskBands, htask]
    exact hb

theorem preemptionEntry_none (hr : x.request = none) : exec (.preemptionEntry c n) s = .next s := by
  show execPreemptionEntry c n s = _
  rw [execPreemptionEntry, task_eq hx]
  dsimp only
  rw [hr]

/-- A band of a task takes the request for it, if it has still to and can (R305, R308). -/
def State.entersFor (c n code : Nat) (m : State) (b : Nat) : State :=
  if ((m.core c).band b).pre && !((m.core c).band b).keep && ((m.core c).task n).state != .draining then m.takeRequest c b code else m

theorem preemptionEntry_enters (r : PreReq) (hr : x.request = some r) (hstate : x.state ≠ .draining)
    (hphase : ∀ p, x.phase = some p → p.admitted = true → p.switchTo = none)
    (hband : ∃ b ∈ x.slots, ((s.core c).band b).pre = true ∧ ((s.core c).band b).keep = false) :
    exec (.preemptionEntry c n) s = .next (x.slots.foldl (State.entersFor c n r.code) ((s.stopAll c n).withdrawPhase c n)) := by
  have hgoes : ¬(x.state == .draining || (x.phase.any fun p => p.admitted && p.switchTo.isSome) ||
      !(x.slots.any fun b => ((s.core c).band b).pre && !((s.core c).band b).keep)) = true := by
    have hany : (x.slots.any fun b => ((s.core c).band b).pre && !((s.core c).band b).keep) = true := by
      simpa using hband
    have hswitch : (x.phase.any fun p => p.admitted && p.switchTo.isSome) = false := by
      cases hp : x.phase with
      | none => rfl
      | some p =>
        cases ha : p.admitted with
        | false => simp [ha]
        | true => simp [hphase p hp ha]
    simp [hany, hswitch, hstate]
  show execPreemptionEntry c n s = _
  rw [execPreemptionEntry, task_eq hx]
  dsimp only
  rw [hr]
  exact congrArg Host.Outcome.next (if_neg hgoes)

omit hx in
theorem entersFor_takes {m : State} {b code : Nat} (hpre : ((m.core c).band b).pre = true) (hkeep : ((m.core c).band b).keep = false)
    (hstate : ((m.core c).task n).state ≠ .draining) : State.entersFor c n code m b = m.takeRequest c b code :=
  if_pos (by simp [hpre, hkeep, hstate])

omit hx in
theorem entersFor_passes {m : State} {b code : Nat} (h : ((m.core c).band b).pre = false ∨ ((m.core c).band b).keep = true ∨
    ((m.core c).task n).state = .draining) : State.entersFor c n code m b = m := by
  refine if_neg ?_
  rcases h with h | h | h <;> simp [h]

/-! ## Variant switches (R297, R298) -/

section
variable {p : PhaseEnd} (hp : x.phase = some p)
include hp

theorem variantSwitch_switches {k : Nat} {v : Variant} {w : Switch} (hk : p.switchTo = some k) (hadm : p.admitted = true)
    (hrests : s.restsForSwitch c n = true) (hfree : (s.cluster (coreCluster c)).placing.any (·.core == c) = false)
    (hv : s.variantOf (s.launch x.launch) k = some v)
    (hw : ((s.variantOf (s.launch x.launch) x.variant).bind fun v => v.switches.find? fun r => r.target == k &&
      (s.object (s.launch x.launch).object).va + BitVec.ofNat 64 r.at_ == p.pc) = some w) :
    (∀ t, s.switchTask c n k v w = some t → exec (.variantSwitch c n) s = .next t) ∧
    (s.switchTask c n k v w = none → ∃ m, exec (.variantSwitch c n) s = .next (State.releasePhase m c n) ∧
      ∀ f : Task → Task, (∀ y z, f { y with current := z } = f y) → f ((m.core c).task n) = f x) := by
  have hexec : exec (.variantSwitch c n) s = .next (match s.switchTask c n k v w with
      | some s => s
      | none => (s.updTask c n fun y => { y with current := ((s.variantOf (s.launch x.launch) y.variant).map (·.current)).getD y.current }).releasePhase c n) := by
    show execVariantSwitch c n s = _
    rw [execVariantSwitch, task_eq hx]
    dsimp only
    rw [hp]
    dsimp only
    rw [hk]
    refine congrArg Host.Outcome.next ((if_neg (by simp [hadm, hrests, hfree])).trans ?_)
    rw [hv, hw] <;> rfl
  refine ⟨fun t ht => ?_, fun ht => ?_⟩
  · rw [hexec, ht]
  · refine ⟨_, by rw [hexec, ht], fun f hf => ?_⟩
    rw [State.task_updTask_self _ _ _ _ (by rw [hx]; rfl), task_eq hx, hf]

theorem variantSwitch_waits (h : p.switchTo = none ∨ p.admitted = false ∨ s.restsForSwitch c n = false) :
    exec (.variantSwitch c n) s = .next s := by
  show execVariantSwitch c n s = _
  rw [execVariantSwitch, task_eq hx]
  dsimp only
  rw [hp]
  dsimp only
  cases hk : p.switchTo with
  | none => rfl
  | some k =>
    refine congrArg Host.Outcome.next (if_pos ?_)
    rcases h with h | h | h
    · exact absurd (hk.symm.trans h) (by simp)
    · simp [h]
    · simp [h]

/-! ## A phase that is not admitted (R296, R350) -/

/-- Of two sub-bands the one of lower lane, the first where they are equal. -/
def lowerOf (a : Option (Nat × Entry)) (e : Nat × Entry) : Option (Nat × Entry) :=
  match a with
  | none => some e
  | some q => if (lowestLane e.2.lanes).getD 32 < (lowestLane q.2.lanes).getD 32 then some e else a

/-- The sub-bands of a list of slots that wait at a phase end. -/
def Core.atPhase (k : Core) (slots : List Nat) : List (Nat × Entry) :=
  k.table.filter fun e => slots.contains e.2.slot && e.2.wait == Wait.phase

/-- A band of a task whose phase is not admitted takes trap 0x0F, unless the task has ended. -/
def State.timesOut (c n : Nat) (at_ : List (Nat × Entry)) (pc : BitVec 64) (m : State) (b : Nat) : State :=
  if ((m.core c).task n).state == .draining then m else
    match (at_.filter fun e => e.2.slot == b).foldl lowerOf none with
    | none => m
    | some e => m.takeTrap c b 0x0F 0 (some e.1) pc e.2.lanes 0

theorem phaseTimeout_traps (hposted : p.posted = true) (hadm : p.admitted = false) (hover : p.since + (s.launch x.launch).limit ≤ s.usec) :
    exec (.phaseAdmissionTimeout c n) s =
      .next (x.slots.foldl (State.timesOut c n ((s.core c).atPhase x.slots) p.pc) (s.withdrawPhase c n)) := by
  show execPhaseAdmissionTimeout c n s = _
  rw [execPhaseAdmissionTimeout, task_eq hx]
  dsimp only
  rw [hp]
  refine congrArg Host.Outcome.next ((if_neg ?_).trans rfl)
  simp only [hposted, hadm, Bool.not_true, Bool.or_false, Bool.false_or, decide_eq_true_eq]
  omega

theorem phaseTimeout_waits (h : p.posted = false ∨ p.admitted = true ∨ s.usec < p.since + (s.launch x.launch).limit) :
    exec (.phaseAdmissionTimeout c n) s = .next s := by
  show execPhaseAdmissionTimeout c n s = _
  rw [execPhaseAdmissionTimeout, task_eq hx]
  dsimp only
  rw [hp]
  refine congrArg Host.Outcome.next (if_pos ?_)
  rcases h with h | h | h <;> simp [h]

end

omit hx in
theorem timesOut_drained {m : State} {at_ : List (Nat × Entry)} {pc : BitVec 64} {b : Nat} (h : ((m.core c).task n).state = .draining) :
    State.timesOut c n at_ pc m b = m := if_pos (by rw [h]; rfl)

omit hx in
theorem timesOut_traps {m : State} {pc : BitVec 64} {b e : Nat} {en : Entry} (hstate : ((m.core c).task n).state ≠ .draining)
    (he : (e, en) ∈ (s.core c).table) (hb : en.slot = b) (hslot : b ∈ x.slots) (hw : en.wait = .phase)
    (hlow : ∀ d dn, (d, dn) ∈ (s.core c).table → dn.slot = b → dn.wait = Wait.phase → (d, dn) ≠ (e, en) →
      (lowestLane en.lanes).getD 32 < (lowestLane dn.lanes).getD 32) :
    State.timesOut c n ((s.core c).atPhase x.slots) pc m b = m.takeTrap c b 0x0F 0 (some e) pc en.lanes 0 := by
  have hfirst : (((s.core c).atPhase x.slots).filter fun e => e.2.slot == b).foldl lowerOf none = some (e, en) := by
    refine lowest_fold _ _ _ (fun _ => rfl) (fun _ _ => rfl) ?_ ?_
    · exact List.mem_filter.2 ⟨List.mem_filter.2 ⟨he, by simp [hb, hslot, hw]⟩, by simp [hb]⟩
    · rintro ⟨d, dn⟩ hd hne
      obtain ⟨hmem, hdslot⟩ := List.mem_filter.1 hd
      obtain ⟨htable, hwaits⟩ := List.mem_filter.1 hmem
      simp only [Bool.and_eq_true, beq_iff_eq] at hwaits hdslot
      exact hlow d dn htable hdslot hwaits.2 hne
  rw [State.timesOut, if_neg (by simpa using hstate), hfirst]

/-! ## The end of a task (R293, R295) -/

theorem taskRetire_spec : ((s.core c).drained n = true → x.hands = false → ∃ t, exec (.taskRetire c n) s = .next t ∧
      t = s.retireTask c n x.endKind ∧ mapGet (t.core c).tasks n = none) ∧
    ((s.core c).drained n = false ∨ x.hands = true → exec (.taskRetire c n) s = .next s) := by
  have hexec : exec (.taskRetire c n) s = .next (if (s.core c).drained n && !x.hands then s.retireTask c n x.endKind else s) := by
    show execTaskRetire c n s = _
    rw [execTaskRetire]
    dsimp only
    rw [task_eq hx]
  refine ⟨fun hd hh => ⟨_, ?_, rfl, retire_frees _ _ _ _⟩, fun h => ?_⟩
  · rw [hexec, if_pos (by simp [hd, hh])]
  · rw [hexec, if_neg]
    rcases h with h | h <;> simp [h]

section
variable {m : State} {l : Option (List Byte)} (hd : (s.core c).drained n = true) (hh : x.hands = true)
  (hr : s.readTcb (s.launch x.launch).pd (x.succ.getD 0) = (m, l))
include hd hh hr

theorem successorStart_fails (h : l = none ∨ ∃ b, l = some b ∧ x.takesTcb b = false) :
    exec (.successorStart c n) s = .next (m.retireTask c n 4) := by
  show execSuccessorStart c n s = _
  rw [execSuccessorStart]
  dsimp only
  rw [task_eq hx]
  refine congrArg Host.Outcome.next ((if_neg (by simp [hd, hh])).trans ?_)
  rw [hr]
  rcases h with rfl | ⟨b, rfl, hb⟩
  · rfl
  · exact if_pos (by simp [hb])

theorem successorStart_starts {b : List Byte} (hl : l = some b) (htakes : x.takesTcb b = true)
    (hadmits : m.admits (coreCluster c) (numAt b 32 4) (numAt b 36 2) x.current = true)
    (hroom : ((s.core c).table.filter fun e => e.1 < 256).length + x.nbands ≤ 256) (hplain : numAt b 38 1 = 0) :
    ∃ t, exec (.successorStart c n) s = .next t ∧ (t.core c).task n = x.successor b := by
  subst hl
  have hquiet : Quiet s (m.writeBack c x.slots.contains) := (quiet_of (Quiet.readTcb' ..) hr).trans (calm_writeBack _ _ _)
  have htask : ((m.writeBack c x.slots.contains).core c).task n = x := by
    rw [Core.task, show ((m.writeBack c x.slots.contains).core c).tasks = (s.core c).tasks from (Served.of hquiet).tasks c]
    exact task_eq hx
  refine ⟨(m.writeBack c x.slots.contains).startSuccessor c n b, ?_, ?_⟩
  · show execSuccessorStart c n s = _
    rw [execSuccessorStart]
    dsimp only
    rw [task_eq hx]
    refine congrArg Host.Outcome.next ((if_neg (by simp [hd, hh])).trans ?_)
    rw [hr]
    exact (if_neg (by simp [htakes])).trans ((if_neg (by simp [hadmits])).trans (if_neg (by omega)))
  · rw [start_task _ _ _ _ hplain, htask]

end

end

end Sys2Proof.Machine
end

section
/-! PROOFS. The dispatchers, the cluster schedulers and the control interval (R24 to R27, R302, R343, R345, R347, R349, R350, R382). -/

namespace Sys2Proof.Machine

/-! ## Placing (R25, R26) -/

/-- The placements of a cluster that are left once the first is done. -/
def State.placingLeft (s : State) (cl : Nat) (ps : List Placing) : State := s.updCluster cl fun x => { x with placing := ps }

theorem exec_place_none {s : State} {cl : Nat} (h : (s.cluster cl).placing = []) : exec (.place cl) s = .next s := by
  show execPlace cl s = _
  rw [execPlace, h]

theorem exec_place {s : State} {cl : Nat} {p : Placing} {ps : List Placing} (h : (s.cluster cl).placing = p :: ps)
    (hnew : p.task.restore = none) (hreq : p.request = none) :
    exec (.place cl) s = .next ((s.placingLeft cl ps).placeTask p.task p.core p.variant p.pipes) := by
  show execPlace cl s = _
  rw [execPlace, h]
  dsimp only
  rw [hnew, hreq]
  rfl

theorem place_leaves {s : State} {cl : Nat} {p : Placing} {ps : List Placing} (h : (s.cluster cl).placing = p :: ps)
    (hnew : p.task.restore = none) (hreq : p.request = none) (v : Variant) (d : Need) (k : Core) (g : BitVec 16) (bs tiles accs : List Nat)
    (sp : Nat) (l : Launch) (hl : l = s.launch p.task.launch) (hv : s.variantOf l p.variant = some v) (hd : d = v.needs)
    (hk : (s.core p.core).takeGen = (k, g)) (hbs : k.choosePipes d.vg p.pipes d.bands = some bs) (hsome : bs ≠ [])
    (htiles : lowestFree k.tileUsed 8 d.tg = some tiles) (haccs : lowestFree k.accUsed 32 d.na = some accs)
    (hsp : (if d.sp = 0 then some 0 else freeRun (k.spUsed none) d.sp) = some sp) :
    ∃ t n x, exec (.place cl) s = .next t ∧ mapGet (t.core p.core).tasks n = some x ∧ n ∈ x.slots ∧ x.launch = p.task.launch ∧
      x.number = p.task.number ∧ x.variant = p.variant ∧ x.nbands = v.nbands ∧ x.gen = g ∧ x.tileMap = tiles ∧ x.accMap = accs ∧
      x.spBase = 4096 * sp ∧ x.par = l.par ∧ x.kvec = l.kvec ∧ x.saved = false ∧ x.request = none ∧ x.state = .placed ∧
      x.tlbase = l.tlbaseOf v (s.kernelOf l).tlstride p.task.number ∧ (t.cluster cl).placing = ps := by
  obtain ⟨j, x, htask, hslot, hlaunch, hnumber, hvariant, hnbands, hgen, htm, ham, hspb, hpar, hkvec, hsaved, hrequest, hstate, htl, hclusters⟩ :=
    place_task (s.placingLeft cl ps) p.task p.core p.variant p.pipes hnew v d k g bs tiles accs sp l hl hv hd hk hbs hsome htiles haccs hsp
  refine ⟨_, j, x, exec_place h hnew hreq, htask, hslot, hlaunch, hnumber, hvariant, hnbands, hgen, htm, ham, hspb, hpar, hkvec, hsaved, hrequest,
    hstate, htl, ?_⟩
  rw [State.cluster, hclusters]
  show ((s.placingLeft cl ps).cluster cl).placing = ps
  rw [State.placingLeft, cluster_upd, if_pos rfl]

theorem exec_generationSweepEnd {s : State} {c : Nat} {k : Core} (h : mapGet s.cores c = some k) : ∃ t,
    exec (.generationSweepEnd c) s = .next t ∧ (t.core c).sweep = false ∧ (k.sweep = false → t.core c = k) ∧
    (∀ d, d ≠ c → t.core d = s.core d) ∧ t.mem = s.mem := by
  have hcore : s.core c = k := getD_of_some h
  refine ⟨s.updCore c (·.endSweep), congrArg Host.Outcome.next (if_neg (by rw [h]; simp)), ?_, fun hsweep => ?_, fun d hd => ?_, rfl⟩
  · rw [State.core_updCore_self, hcore, Core.endSweep]
    split
    · rename_i hsweep
      simpa using hsweep
    · rfl
  · rw [State.core_updCore_self, hcore, Core.endSweep, if_pos (by simp [hsweep])]
  · rw [State.core_updCore, if_neg hd]

/-! ## Placement attempts (R343) -/

theorem exec_attempt_busy {s : State} {cl : Nat} (h : (s.cluster cl).placing ≠ []) : exec (.placementAttempt cl) s = .next s :=
  congrArg Host.Outcome.next (if_neg (by simp [h]))

theorem exec_attempt {s : State} {cl : Nat} (h : (s.cluster cl).placing = []) :
    exec (.placementAttempt cl) s = .next (s.attempt cl (s.cluster cl).queue) :=
  congrArg Host.Outcome.next (if_pos (by simp [h]))

section
variable {s : State} {cl : Nat} {q : QTask} {r : List QTask} {l : Launch} {c n : Nat} {v : Variant}

/-- An attempt whose first task is not restored, in no group and as low as any goes no further than that task, where it fits. -/
theorem attempt_first (hl : l = s.launch q.launch) (hvalid : (mapGetD s.pds l.pd PdRec.fresh).flags.getLsbD 0 = true) (hnew : q.restore = none)
    (hgroup : s.groupOfQ q = none) (hlow : s.notLowest cl q = false)
    (hstop : (s.tryPlace cl q ((l.coresFor q.number (l.coresIn cl)).filter fun c => !s.heldFor c q) none).2 = true) :
    s.attempt cl (q :: r) = (s.tryPlace cl q ((l.coresFor q.number (l.coresIn cl)).filter fun c => !s.heldFor c q) none).1 := by
  subst hl
  rw [State.attempt]
  have hsaving : s.saving q = false := by rw [State.saving, hnew]; rfl
  rw [hvalid, hsaving, hlow, hnew, hgroup]
  simp only [Bool.not_true, Bool.or_self, Bool.false_eq_true, if_false]
  rw [hstop]
  rfl

theorem tryPlace_fits (hl : l = s.launch q.launch) {cores : List Nat} (hcore : s.chooseFor l cores none = some (c, n))
    (hv : s.variantOf l n = some v) : s.tryPlace cl q cores none =
      if s.admits cl v.energy v.current 0 then ((s.charge cl v.energy).beginPlacing q c n none, true) else (s.failAdmit cl q, true) := by
  subst hl
  rw [State.tryPlace]
  rw [hcore]
  dsimp only [Option.bind_some]
  rw [hv]
  rfl

theorem placing_beginPlacing (m : State) (pipes : Option (List Nat)) :
    ⟨q, c, n, pipes, none⟩ ∈ ((m.beginPlacing q c n pipes).cluster (coreCluster c)).placing := by
  rw [State.beginPlacing, cluster_upd, if_pos rfl]
  exact List.mem_append_right _ (List.mem_singleton_self _)

theorem queue_beginPlacing (m : State) (pipes : Option (List Nat)) (hnew : q.restore = none) (d : Nat) :
    ∀ y ∈ ((m.beginPlacing q c n pipes).cluster d).queue, y.is q.launch q.number = false ∨ y.restore ≠ none := by
  intro y hy
  have hqueue : ((m.beginPlacing q c n pipes).cluster d).queue =
      ((m.dequeue fun x => x.is q.launch q.number && x.restore == q.restore).cluster d).queue := by
    rw [State.beginPlacing, cluster_upd]
    split
    · rename_i h
      rw [h]
    · rfl
  rw [hqueue] at hy
  obtain ⟨x, -, hx⟩ := cluster_all _ _ _ _ hy
  obtain ⟨z, hz, hlaunch, hnumber, hrestore⟩ := mem_markHead _ _ _ hx
  have hkept := (List.mem_filter.1 hz).2
  rw [hnew, Bool.not_eq_true', Bool.and_eq_false_iff] at hkept
  rw [QTask.is, hlaunch, hnumber, hrestore]
  exact hkept.imp id fun h => by simpa [Option.isSome_iff_ne_none] using h

theorem failAdmit_blocks : ((s.failAdmit cl q).cluster cl).blocked = some (q.launch, q.number) ∧
    ((s.failAdmit cl q).cluster cl).placing = (s.cluster cl).placing := by
  have hupd : ∀ (f : Cluster → Cluster) (p : Prop) [Decidable p],
      (if p then (s.updCluster cl f).count (cl / 48) 9 1 else s.updCluster cl f).cluster cl = f (s.cluster cl) := by
    intro f p _
    split
    · rw [cluster_count, cluster_upd, if_pos rfl]
    · rw [cluster_upd, if_pos rfl]
  rw [State.failAdmit, hupd]
  exact ⟨rfl, rfl⟩

theorem attempt_places (hidle : (s.cluster cl).placing = []) (hq : (s.cluster cl).queue = q :: r) (hl : l = s.launch q.launch)
    (hvalid : (mapGetD s.pds l.pd PdRec.fresh).flags.getLsbD 0 = true) (hnew : q.restore = none) (hgroup : s.groupOfQ q = none)
    (hlow : s.notLowest cl q = false)
    (hcore : s.chooseFor l ((l.coresFor q.number (l.coresIn cl)).filter fun c => !s.heldFor c q) none = some (c, n))
    (hv : s.variantOf l n = some v) :
    (s.admits cl v.energy v.current 0 = true → ∃ t, exec (.placementAttempt cl) s = .next t ∧
      t = (s.charge cl v.energy).beginPlacing q c n none ∧ ⟨q, c, n, none, none⟩ ∈ (t.cluster (coreCluster c)).placing ∧
      ∀ d, ∀ y ∈ (t.cluster d).queue, y.is q.launch q.number = false ∨ y.restore ≠ none) ∧
    (s.admits cl v.energy v.current 0 = false → ∃ t, exec (.placementAttempt cl) s = .next t ∧
      (t.cluster cl).blocked = some (q.launch, q.number) ∧ (t.cluster cl).placing = []) := by
  have hfits := tryPlace_fits (cl := cl) hl hcore hv
  have hexec : exec (.placementAttempt cl) s =
      .next (s.tryPlace cl q ((l.coresFor q.number (l.coresIn cl)).filter fun c => !s.heldFor c q) none).1 := by
    rw [exec_attempt hidle, hq, attempt_first hl hvalid hnew hgroup hlow (by rw [hfits]; split <;> rfl)]
  rw [hfits] at hexec
  refine ⟨fun h => ?_, fun h => ?_⟩
  · rw [if_pos h] at hexec
    exact ⟨_, hexec, rfl, placing_beginPlacing _ _, fun d => queue_beginPlacing _ _ hnew d⟩
  · rw [if_neg (by simp [h])] at hexec
    obtain ⟨hblocked, hplacing⟩ := failAdmit_blocks (s := s) (cl := cl) (q := q)
    exact ⟨_, hexec, hblocked, hplacing.trans hidle⟩

end

theorem queueHeadAgeExpiry_spec {s : State} {cl : Nat} {q : QTask} {r : List QTask} (hq : (s.cluster cl).queue = q :: r) :
    (∀ u, q.firstSince = some u → u + 64 ≤ s.usec → ∃ t, exec (.queueHeadAgeExpiry cl) s = .next t ∧
      (t.cluster cl).queue = { q with aged := true } :: r ∧ t.cores = s.cores) ∧
    (∀ u, q.firstSince = some u → s.usec < u + 64 → exec (.queueHeadAgeExpiry cl) s = .next s) := by
  have hexec : exec (.queueHeadAgeExpiry cl) s = .next (if (q.firstSince.any fun t => t + 64 ≤ s.usec) then
      s.updCluster cl fun x => { x with queue := { q with aged := true } :: x.queue.drop 1 } else s) := by
    show execQueueHeadAgeExpiry cl s = _
    rw [execQueueHeadAgeExpiry, hq]
  rw [hexec]
  refine ⟨fun u hu hold => ⟨_, congrArg Host.Outcome.next (if_pos (by simp [hu, hold])), ?_, rfl⟩,
    fun u hu hyoung => congrArg Host.Outcome.next (if_neg (by simp [hu]; omega))⟩
  rw [cluster_upd, if_pos rfl, hq]
  rfl

theorem queuedAdmissionTimeout_spec {s : State} {cl : Nat} (o : Option QTask)
    (ho : o = (s.cluster cl).queue.find? fun q => q.admitSince.any fun t => t + (s.launch q.launch).limit ≤ s.usec) :
    (o = none → exec (.queuedAdmissionTimeout cl) s = .next s) ∧
    (∀ q, o = some q → exec (.queuedAdmissionTimeout cl) s =
      .next (((s.updLaunch q.launch fun l => { l with timedOut := true }).withdraw q.launch).checkLaunch q.launch)) := by
  refine ⟨?_, ?_⟩
  · rintro rfl
    show execQueuedAdmissionTimeout cl s = _
    rw [execQueuedAdmissionTimeout, ← ho]
  · rintro q rfl
    show execQueuedAdmissionTimeout cl s = _
    rw [execQueuedAdmissionTimeout, ← ho]

/-! ## Donation (R345) -/

/-- The cluster of longer queue, of those with two tasks or more; the first where they are equal. -/
def State.longer (s : State) (a : Option Nat) (v : Nat) : Option Nat :=
  match a with
  | none => if 2 ≤ (s.cluster v).queue.length then some v else none
  | some u => if (s.cluster u).queue.length < (s.cluster v).queue.length then some v else a

/-- Whether a cluster may steal: its queue is empty, and it has an idle core. -/
def State.maySteal (s : State) (cl : Nat) : Bool :=
  (s.cluster cl).queue.isEmpty && (List.range 4).any fun i => (s.core (4 * cl + i)).tasks.isEmpty

/-- The tasks that a cluster takes from another, the last of those that may be shipped. -/
def State.loot (s : State) (cl v : Nat) : List QTask :=
  ((s.cluster v).queue.filter (s.ships cl)).drop (((s.cluster v).queue.filter (s.ships cl)).length -
    min ((s.cluster v).queue.filter (s.ships cl)).length ((s.cluster v).queue.length / 2))

/-- Tasks taken from one cluster's queue into another's. -/
def State.ship (s : State) (cl v : Nat) (out : List QTask) : State :=
  out.foldl (fun s q => s.enqueue cl { q with firstSince := none, aged := false, admitSince := none })
    (s.setQueue v fun l => l.filter fun q => !out.contains q)

theorem exec_stealRequest (s : State) (cl : Nat) : exec (.stealRequest cl) s =
    .next (match (sectorClusters (cl / 16)).foldl s.longer none with
      | none => s
      | some v => if !s.maySteal cl then s else if (s.loot cl v).isEmpty then s else s.ship cl v (s.loot cl v)) := by
  show execStealRequest cl s = _
  unfold execStealRequest State.maySteal State.loot State.ship
  rfl

theorem stealRequest_steals {s : State} {cl v : Nat} (hempty : (s.cluster cl).queue = []) (hidle : ∃ i < 4, (s.core (4 * cl + i)).tasks = [])
    (hv : v ∈ sectorClusters (cl / 16)) (htwo : 2 ≤ (s.cluster v).queue.length)
    (hmost : ∀ u ∈ sectorClusters (cl / 16), u ≠ v → (s.cluster u).queue.length < (s.cluster v).queue.length) :
    (s.loot cl v = [] → exec (.stealRequest cl) s = .next s) ∧
    (s.loot cl v ≠ [] → exec (.stealRequest cl) s = .next (s.ship cl v (s.loot cl v))) := by
  have hvictim : (sectorClusters (cl / 16)).foldl s.longer none = some v :=
    most_fold (fun v => (s.cluster v).queue.length) _ (fun _ => rfl) (fun _ _ => rfl) _ v hv htwo hmost
  have hmay : s.maySteal cl = true := by
    obtain ⟨i, hi, htasks⟩ := hidle
    rw [State.maySteal, hempty, Bool.and_eq_true, List.any_eq_true]
    exact ⟨rfl, i, List.mem_range.2 hi, by rw [htasks]; rfl⟩
  rw [exec_stealRequest, hvictim]
  exact ⟨fun h => congrArg Host.Outcome.next ((if_neg (by simp [hmay])).trans (if_pos (by simp [h]))),
    fun h => congrArg Host.Outcome.next ((if_neg (by simp [hmay])).trans (if_neg (by simp [h])))⟩

theorem stealRequest_idle {s : State} {cl : Nat}
    (h : (s.cluster cl).queue ≠ [] ∨ ∀ v ∈ sectorClusters (cl / 16), (s.cluster v).queue.length < 2) :
    exec (.stealRequest cl) s = .next s := by
  rw [exec_stealRequest]
  rcases h with h | h
  · have hmay : s.maySteal cl = false := by simp [State.maySteal, h]
    cases (sectorClusters (cl / 16)).foldl s.longer none with
    | none => rfl
    | some v => exact congrArg Host.Outcome.next (if_pos (by simp [hmay]))
  · rw [none_fold (fun v => (s.cluster v).queue.length) s.longer (fun _ => rfl) _ h]

/-! ## Time slices (R347) -/

/-- Whether a task of a launch gives its core up, at the end of its slice (R347). -/
def State.yieldsSlice (s : State) (c n : Nat) (x : Task) (l : Launch) : Bool :=
  !(l.slice = 0 || l.saveBase = 0 || l.det || (l.groups.any fun g => g.2.cores && g.2.members.contains x.number) ||
    s.usec < x.sliceFrom + l.slice || !((s.cluster (coreCluster c)).queue.any fun q => q.launch != x.launch && decide (l.prio ≤ s.prioOf q) &&
      (s.chooseFor (s.launch q.launch) ((s.launch q.launch).coresIn (coreCluster c)) none).isNone) || !s.takesRequest c n)

section
variable {s : State} {c slot n : Nat} {x : Task} {l : Launch} (hn : s.taskAt c slot = some n) (hx : x = (s.core c).task n)
  (hl : l = s.launch x.launch)
include hn hx hl

theorem exec_timeSliceExpiry : exec (.timeSliceExpiry c slot) s = .next (if s.yieldsSlice c n x l then
    (s.requestPre c n (l.saveBase + BitVec.ofNat 64 (l.saveStride * x.number)) 1).enqueue (coreCluster c)
      ⟨x.launch, x.number, some (l.saveBase + BitVec.ofNat 64 (l.saveStride * x.number)), none, false, none⟩ else s) := by
  subst hl hx
  show execTimeSliceExpiry c slot s = _
  rw [execTimeSliceExpiry, hn]
  dsimp only
  rw [State.yieldsSlice]
  refine congrArg Host.Outcome.next ?_
  split
  · rename_i h
    rw [if_neg (by rw [h]; simp)]
  · rename_i h
    rw [if_pos (by rw [Bool.eq_false_iff.2 h]; rfl)]

theorem timeSlice_keeps (h : l.slice = 0 ∨ l.saveBase = 0 ∨ l.det = true ∨ s.usec < x.sliceFrom + l.slice ∨ s.takesRequest c n = false) :
    exec (.timeSliceExpiry c slot) s = .next s := by
  rw [exec_timeSliceExpiry hn hx hl, if_neg]
  rw [State.yieldsSlice, Bool.not_eq_true, Bool.not_eq_false']
  rcases h with h | h | h | h | h <;> simp [h]

theorem timeSlice_yields (hslice : l.slice ≠ 0) (hsave : l.saveBase ≠ 0) (hdet : l.det = false)
    (hfree : ∀ g ∈ l.groups, g.2.cores = true → x.number ∉ g.2.members) (hover : x.sliceFrom + l.slice ≤ s.usec)
    (htakes : s.takesRequest c n = true)
    (hwaits : ∃ q ∈ (s.cluster (coreCluster c)).queue, q.launch ≠ x.launch ∧ l.prio ≤ s.prioOf q ∧
      s.chooseFor (s.launch q.launch) ((s.launch q.launch).coresIn (coreCluster c)) none = none) (area : BitVec 64)
    (harea : area = l.saveBase + BitVec.ofNat 64 (l.saveStride * x.number)) : exec (.timeSliceExpiry c slot) s =
      .next ((s.requestPre c n area 1).enqueue (coreCluster c) ⟨x.launch, x.number, some area, none, false, none⟩) := by
  subst harea
  have hgrouped : (l.groups.any fun g => g.2.cores && g.2.members.contains x.number) = false := by
    rw [List.any_eq_false]
    intro g hg h
    rw [Bool.and_eq_true, List.contains_iff_mem] at h
    exact hfree g hg h.1 h.2
  have hqueued : ((s.cluster (coreCluster c)).queue.any fun q => q.launch != x.launch && decide (l.prio ≤ s.prioOf q) &&
      (s.chooseFor (s.launch q.launch) ((s.launch q.launch).coresIn (coreCluster c)) none).isNone) = true := by
    obtain ⟨q, hq, hother, hprio, hnone⟩ := hwaits
    rw [List.any_eq_true]
    exact ⟨q, hq, by simp [hother, hprio, hnone]⟩
  rw [exec_timeSliceExpiry hn hx hl, if_pos]
  rw [State.yieldsSlice, hgrouped, hqueued, hdet, htakes]
  rw [decide_eq_false hslice, decide_eq_false hsave, decide_eq_false (by omega : ¬s.usec < x.sliceFrom + l.slice)]
  rfl

end

/-! ## The control interval (R349, R382) -/

/-- A cluster at the start of an interval. -/
def Cluster.renewed (_ : Nat) (x : Cluster) : Cluster := { x with charged := 0, blocked := none }

/-- The module at the start of an interval, before the phases that are held are tested again. -/
def State.renewed (s : State) : State :=
  { ({ s with usec := s.usec + 1 } : State).applyPower with clusters := mapAll s.clusters Cluster.renewed }

theorem exec_controlInterval (s : State) :
    exec .controlInterval s = .next (s.renewed.heldPhases.foldl (fun s p => s.tryPhase p.1 p.2) s.renewed) := rfl

/-- The power state that an interval brings (R382). -/
theorem renewed_state (s : State) : s.renewed.power.state = match s.power.pendState with
    | some x => if x.idle && !s.idleNow then s.power.state else x
    | none => s.power.state := rfl

theorem clusters_renewed (s : State) (d : Nat) (x : Cluster) (h : mapGet s.renewed.clusters d = some x) : x.charged = 0 ∧ x.blocked = none := by
  obtain ⟨y, -, rfl⟩ := Option.map_eq_some_iff.1 ((mapGet_mapAll s.clusters Cluster.renewed d).symm.trans h)
  exact ⟨rfl, rfl⟩

/-- Settles O59, event by event. -/
theorem schedulingEvents : Obligations.SchedulingEvents := by
  unfold Obligations.SchedulingEvents
  refine ⟨⟨fun s c slot code hb m hm n hn => takeRequest_spec s c slot code hb m hm n hn, fun s c n x hx => ⟨preemptionRequest_spec hx,
    preemptionEntry_none hx, fun r hr hstate hphase hband => ⟨_, preemptionEntry_enters hx r hr hstate hphase hband, fun m b =>
      ⟨entersFor_takes, entersFor_passes⟩⟩, fun p hp => ⟨fun k v w => variantSwitch_switches hx hp, variantSwitch_waits hx hp,
        fun hposted hadm hover => ⟨_, phaseTimeout_traps hx hp hposted hadm hover, fun m b => ⟨timesOut_drained, fun e en => timesOut_traps⟩⟩,
        phaseTimeout_waits hx hp⟩, (taskRetire_spec hx).1, (taskRetire_spec hx).2, fun hd hh m l hr => ⟨successorStart_fails hx hd hh hr,
          fun b hl => successorStart_starts hx hd hh hr hl⟩⟩⟩, fun s cl => ⟨exec_place_none, ?_, fun c k => exec_generationSweepEnd,
      exec_attempt_busy, fun h => ⟨exec_attempt h, fun q r l hq hl hvalid hnew hgroup hlow c n v =>
        attempt_places h hq hl hvalid hnew hgroup hlow⟩, fun q r => queueHeadAgeExpiry_spec, queuedAdmissionTimeout_spec, ?_, stealRequest_idle,
      fun c slot n x l hn hx hl => ⟨timeSlice_keeps hn hx hl, timeSlice_yields hn hx hl⟩, ?_⟩⟩
  · rintro p ps _ hp hnew hreq rfl
    exact ⟨exec_place hp hnew hreq, place_leaves hp hnew hreq⟩
  · rintro v _ hempty hidle hv htwo hmost rfl
    exact stealRequest_steals hempty hidle hv htwo hmost
  · refine ⟨s.renewed, exec_controlInterval s, rfl, rfl, rfl, fun x hx hstays => ?_, fun x hx hidle hbusy => ?_, fun hnone => ?_, rfl, rfl,
      clusters_renewed s⟩
    · rw [renewed_state, hx]
      rcases hstays with h | h <;> simp [h]
    · rw [renewed_state, hx]
      simp [hidle, hbusy]
    · rw [renewed_state, hnone]

end Sys2Proof.Machine
end

section
/-! PROOFS. Words that decode, and the state at reset (R19, R50 to R62, R134, R302, R330, R373, R377, R387). -/

namespace Sys2Proof.Machine

/-- Settles O2, word by word. -/
theorem decodeWords : Obligations.DecodeWords := by
  unfold Obligations.DecodeWords
  exact ⟨rfl, rfl, rfl, rfl, rfl, rfl, rfl, rfl, rfl, rfl, rfl, rfl, rfl, fun _ => rfl⟩

/-! ## The state at reset -/

theorem core_reset (c : Nat) : State.reset.core c = Core.fresh := rfl

theorem homeByte_reset (pa : Nat) : State.reset.homeByte pa = 0 := rfl

theorem byteAt_reset (c pa : Nat) : State.reset.byteAt c pa = 0 := rfl

/-- A row that was never written reads 0, and passes for generation 0 alone (R134, R302). -/
theorem spRead_reset (c : Nat) (gen : BitVec 16) (a : Nat) : State.reset.spByte c gen a = 0 ∧ (State.reset.core c).spFmt gen a = 0 ∧
    ((State.reset.core c).spRead gen a 1).2 = (gen == 0) := by
  refine ⟨?_, rfl, ?_⟩
  · rw [State.spByte, Core.spRead_one, Core.spByte, Core.spRow]
    show byteOf ((0 : BitVec 512).toNat) _ = 0
    rw [show ((0 : BitVec 512).toNat) = 0 from BitVec.toNat_zero, byteOf, Nat.zero_div]
    rfl
  · exact Bool.and_true _

theorem genWord_reset (c : Nat) : (State.reset.core c).genWord = 0 := by
  rw [core_reset]
  decide

/-- Settles O4: every map of the reset state is empty. -/
theorem reset : Obligations.Reset := by
  unfold Obligations.Reset
  exact ⟨rfl, homeByte_reset, byteAt_reset, spRead_reset, rfl, genWord_reset, fun _ => rfl, fun _ => rfl, fun _ => ⟨rfl, rfl, rfl⟩, rfl, rfl,
    rfl, rfl, rfl⟩

end Sys2Proof.Machine
end

section
/-! PROOFS. Turns: a sub-band's, an event's, and the one that is due (R40, R50, R63, R66, R67). -/

namespace Sys2Proof.Machine

/-! ## What a sub-band fetches -/

/-- The word of a core's code that an entry reads at an address. -/
def State.wordFor (m : State) (c e : Nat) (old : Bool) (a : BitVec 64) : Option Word :=
  (m.core c).codeWord (m.pdOf c ((m.core c).entry e).slot) a old

section
variable {m : State} {c e : Nat} {en : Entry} {a : BitVec 64} (hen : en = (m.core c).entry e) (ha : a = (m.core c).nextAddr en)
include hen ha

theorem fetched_instr {cl : Clause} {w x : Word} (hctx : en.ctx = some cl) (hw : m.wordFor c e cl.old a = some w)
    (hx : if isLong w then m.wordFor c e cl.old (a + 4) = some x else x = 0) : m.fetched c e = .instr (instrOf w x) := by
  subst hen ha
  rw [State.wordFor] at hw
  rw [State.fetched, hctx]
  dsimp only
  rw [hw]
  split at hx
  · rename_i hlong
    rw [State.wordFor] at hx
    refine (if_pos hlong).trans ?_
    rw [hx]
  · rename_i hshort
    subst hx
    exact if_neg hshort

theorem fetched_miss {cl : Clause} (hctx : en.ctx = some cl) (h : m.wordFor c e cl.old a = none ∨
    ∃ w, m.wordFor c e cl.old a = some w ∧ isLong w = true ∧ m.wordFor c e cl.old (a + 4) = none) : ∃ b, m.fetched c e = .miss b := by
  subst hen ha
  rw [State.fetched, hctx]
  dsimp only
  rcases h with h | ⟨w, hw, hlong, hx⟩
  · rw [State.wordFor] at h
    exact ⟨_, by rw [h]⟩
  · rw [State.wordFor] at hw hx
    refine ⟨(m.core c).nextAddr ((m.core c).entry e) + 4, ?_⟩
    rw [hw]
    refine (if_pos hlong).trans ?_
    rw [hx]

theorem fetched_header {w : Word} {i : Instr} (hctx : en.ctx = none) (hw : m.wordFor c e false a = some w) (hh : isHeader w = true)
    (hd : decode w 0 = .ok i) : m.fetched c e = .instr i := by
  subst hen ha
  rw [State.wordFor] at hw
  rw [State.fetched, hctx]
  dsimp only
  rw [hw]
  refine (if_pos hh).trans ?_
  rw [hd]

theorem fetched_bad {w : Word} (hctx : en.ctx = none) (hw : m.wordFor c e false a = some w)
    (h : isHeader w = false ∨ ∀ i, decode w 0 ≠ .ok i) : m.fetched c e = .bad a := by
  subst hen ha
  rw [State.wordFor] at hw
  rw [State.fetched, hctx]
  dsimp only
  rw [hw]
  dsimp only
  split
  · rename_i hh
    have hnone := h.resolve_left (by simp [hh])
    cases hd : decode w 0 with
    | ok i => exact absurd hd (hnone i)
    | error r => rfl
  · rfl

theorem fetched_unread (hctx : en.ctx = none) (hw : m.wordFor c e false a = none) : m.fetched c e = .miss a := by
  subst hen ha
  rw [State.wordFor] at hw
  rw [State.fetched, hctx]
  dsimp only
  rw [hw]

end

/-! ## Which line is missing (R66, R67) -/

section
variable {m : State} {c e : Nat}

theorem missing_miss {b : BitVec 64} (h : m.fetched c e = .miss b) : m.missing c e = some b := by
  rw [State.missing, h]

theorem missing_bad {b : BitVec 64} (h : m.fetched c e = .bad b) : m.missing c e = none := by
  rw [State.missing, h]

/-- An instruction in a clause waits for no line of its clause. -/
theorem missing_instr {i : Instr} (h : m.fetched c e = .instr i) (hctx : ((m.core c).entry e).ctx.isSome = true) : m.missing c e = none := by
  rw [State.missing, h]
  split
  · rename_i hmiss
    cases hmiss
  · exact if_pos hctx
  · rfl

theorem missing_header {r : BitVec 12} {k j : BitVec 4} {p n : BitVec 3} {q : Bool} (h : m.fetched c e = .instr (.clause r k j p q n))
    (hctx : ((m.core c).entry e).ctx = none) : m.missing c e =
      match clauseWords (m.wordFor c e false) (n.toNat + 1) ((m.core c).nextAddr ((m.core c).entry e) + 4) with
      | .error a => some a
      | .ok _ => none := by
  rw [State.missing, h]
  exact if_neg (by rw [hctx]; simp)

end

/-! ## A turn -/

section
variable {s m : State} {c b e : Nat} {ts : List Turn} {u : Cursor}

theorem step_issue (ht : s.turns = .issue c b :: ts) (hruns : s.runs = true) (hpick : ({ s with turns := ts } : State).pick c b = some e)
    (hu : u = ⟨c, b, e⟩) : step s = stepIssue u { s with turns := ts } := by
  subst hu
  rw [step, ht]
  refine (if_neg ?_).trans ?_
  · rw [show ({ s with turns := ts } : State).runs = s.runs from rfl, hruns]
    simp
  · rw [hpick]

variable (hu : u = ⟨c, b, e⟩) (hm : m = { s with cur := some u })
include hu hm

theorem stepIssue_waits {a : BitVec 64} (h : m.missing c e = some a) :
    stepIssue u s = .next (m.updEntry c e fun x => { x with wait := .fetch }) := by
  subst hu hm
  rw [stepIssue]
  dsimp only
  rw [h]

theorem stepIssue_runs {i : Instr} (h : m.missing c e = none) (hf : m.fetched c e = .instr i) :
    stepIssue u s = followed (·.afterIssue u) (exec i m) := by
  subst hu hm
  rw [stepIssue]
  dsimp only
  rw [h]
  dsimp only
  rw [hf]
  dsimp only
  cases exec i _ <;> rfl

theorem stepIssue_bad {a : BitVec 64} (hf : m.fetched c e = .bad a) : stepIssue u s = .next ((m.badHeader u a).afterIssue u) := by
  have h := missing_bad hf
  subst hu hm
  rw [stepIssue]
  dsimp only
  rw [h]
  dsimp only
  rw [hf]

end

theorem instrOf_decoded {w x : Word} {i : Instr} (hh : isHeader w = false) (hd : decode w x = .ok i) : instrOf w x = i := by
  rw [instrOf, if_neg (by simp [hh]), hd]

theorem instrOf_illegal {w x : Word} (h : isHeader w = true ∨ ∀ i, decode w x ≠ .ok i) : instrOf w x = .illegalEncoding w := by
  rw [instrOf]
  split
  · rfl
  · rename_i hh
    have hnone := h.resolve_left hh
    cases hd : decode w x with
    | ok i => exact absurd hd (hnone i)
    | error r => rfl

theorem step_happens {s : State} {i : Instr} {ts : List Turn} (h : s.turns = .happen i :: ts) :
    step s = if i.isCode = false ∧ s.allows i = true then followed (·.afterEvent) (exec i { s with turns := ts, cur := none })
      else .next { s with turns := ts } := by
  rw [step, h]
  dsimp only [stepTurn, stepEvent]
  rw [show ({ s with turns := ts } : State).allows i = s.allows i from rfl]
  by_cases hok : i.isCode = false ∧ s.allows i = true
  · rw [if_pos hok, if_neg (by simp [hok])]
    cases exec i _ <;> rfl
  · rw [if_neg hok, if_pos (by simpa [imp_iff_or_not, or_comm] using hok)]

theorem step_due {s : State} (h : s.turns = []) : (s.runs = false → step s = .next s) ∧
    ∀ v, s.runs = true → ({ s with cur := none } : State).dueEvent.isNone = true → s.firstIssue = some v → step s = step { s with turns := [v] } := by
  refine ⟨fun hruns => ?_, fun v hruns hdue hv => ?_⟩
  · rw [step, h]
    exact if_pos (by simp [hruns])
  · have hs : ({ s with turns := [] } : State) = s := by rw [← h]
    have hnone := Option.isNone_iff_eq_none.1 hdue
    calc step s = stepTurn v s := by
          rw [step, h]
          refine (if_neg (by simp [hruns])).trans ?_
          dsimp only
          rw [hnone, hv]
      _ = step { s with turns := [v] } := by
          show stepTurn v s = stepTurn v { s with turns := [] }
          rw [hs]

/-- Settles O3, by what the sub-band's entry fetches. -/
theorem stepRunsDecoded : Obligations.StepRunsDecoded := by
  unfold Obligations.StepRunsDecoded
  refine ⟨fun s m c b e ts u en get a ht hruns hpick hu hm hen hget ha => ?_, fun s i ts h => step_happens h, fun s h => step_due h⟩
  have hstep := step_issue ht hruns hpick hu
  have hword : ∀ old a, get old a = m.wordFor c e old a := by
    intro old a
    rw [hget, State.wordFor, hen]
  have hctx : ∀ {o}, en.ctx = o → ((m.core c).entry e).ctx = o := fun h => hen ▸ h
  refine ⟨fun cl w x hcl hw hx => ?_, fun w hcl hw => ⟨fun r k j p q n hh hd => ?_, fun hbad => ?_⟩, fun h => ?_⟩
  · simp only [hword] at hw hx
    have hf := fetched_instr hen ha hcl hw hx
    have hmissing := missing_instr hf (by rw [hctx hcl]; rfl)
    rw [hstep, stepIssue_runs hu hm hmissing hf]
    exact ⟨fun i hh hd => by rw [instrOf_decoded hh hd], fun hbad => by rw [instrOf_illegal hbad]⟩
  · rw [hword] at hw
    have hf := fetched_header hen ha hcl hw hh hd
    have hmissing := missing_header hf (hctx hcl)
    rw [← hen, ← ha] at hmissing
    simp only [show get false = m.wordFor c e false from funext (hword false)]
    refine ⟨fun l hl => ?_, fun v hv => ?_⟩
    · rw [hl] at hmissing
      rw [hstep, stepIssue_runs hu hm hmissing hf]
    · rw [hv] at hmissing
      rw [hstep, stepIssue_waits hu hm hmissing]
  · rw [hword] at hw
    rw [hstep, stepIssue_bad hu hm (fetched_bad hen ha hcl hw hbad)]
  · have hmiss : ∃ v, m.fetched c e = .miss v := by
      simp only [hword] at h
      rcases h with ⟨cl, w, hcl, h⟩ | ⟨hcl, h⟩
      · exact fetched_miss hen ha hcl (h.imp id fun h => ⟨w, h⟩)
      · exact ⟨a, fetched_unread hen ha hcl h⟩
    obtain ⟨v, hf⟩ := hmiss
    rw [hstep, stepIssue_waits hu hm (missing_miss hf)]

end Sys2Proof.Machine
end

section
/-! PROOFS. The tables of bit-exact outcomes (R124, R137, R140, R142 to R145). -/

namespace Sys2Proof.Machine

/-- Settles O17: each row is a closed computation on the functions of one element, first the rows of arithmetic, then those of conversion. -/
theorem exampleTables : Obligations.ExampleTables := by
  unfold Obligations.ExampleTables
  refine ⟨?_, ?_⟩
  · decide
  · decide

end Sys2Proof.Machine
end

section
/-! PROOFS. The canonical form of device memory as a property of a state, of what an instruction's effect gives and of what a step
gives, and the rules by which the functions of the model keep it. -/

-- The proofs of one text are elaborated one at a time here: many open proofs would each ask for a thread and its stack.
set_option Elab.async false

namespace Sys2Proof.Machine

/-- Device memory is in its canonical form (R19, R20). -/
def State.Formed (s : State) : Prop := Memory.wf s.mem = true

/-- Whatever state a step leaves has its memory in canonical form. -/
def FormedNext (o : Host.Outcome State Fault Refusal) : Prop := ∀ t, o = .next t → t.Formed

/-- Whatever state the effect of an instruction leaves, or makes of one in canonical form, is in canonical form. -/
def Res.Formed : Res → Prop
  | .ok t | .trapAt t _ _ _ => t.Formed
  | .stay g => ∀ s : State, s.Formed → (g s).Formed
  | .trap _ _ _ | .walk _ _ | .hold => True

namespace State.Formed

theorem blank {s : State} (e : s.mem = [] := by rfl) : s.Formed := by rw [State.Formed, e]; rfl

theorem same {s t : State} (h : s.Formed) (e : t.mem = s.mem := by with_reducible rfl) : t.Formed := by rw [State.Formed, e]; exact h

section
variable {s t : State} {p : Prop} [Decidable p]

theorem ite (h : s.Formed) (g : t.Formed) : (if p then s else t).Formed := by
  split
  · exact h
  · exact g

/-- A change made only where a condition holds. -/
theorem guard (h : s.Formed) (g : s.Formed → t.Formed) : (if p then t else s).Formed := ite (g h) h

/-- A change made only where a condition fails. -/
theorem guardNot (h : s.Formed) (g : s.Formed → t.Formed) : (if p then s else t).Formed := ite h (g h)

end

section
variable {α β : Type}

theorem iteP {q r : State × β} {p : Prop} [Decidable p] (h : q.1.Formed) (g : r.1.Formed) : (if p then q else r).1.Formed := by
  split
  · exact h
  · exact g

/-- The state that a pair equal to a known one holds. -/
theorem left {q : State × β} {t : State} {b : β} (h : q.1.Formed) (e : q = (t, b)) : t.Formed := by
  rw [e] at h
  exact h

theorem foldl {f : State → α → State} {s : State} {l : List α} (h : s.Formed) (g : ∀ {s : State} {a : α}, s.Formed → (f s a).Formed) :
    (l.foldl f s).Formed :=
  List.foldlRecOn l f (motive := State.Formed) h fun _ h _ _ => g h

/-- The same of a fold whose state is a part of what it carries. -/
theorem foldlP {f : State × β → α → State × β} {q : State × β} {l : List α} (h : q.1.Formed)
    (g : ∀ {q : State × β} {a : α}, q.1.Formed → (f q a).1.Formed) : (l.foldl f q).1.Formed :=
  List.foldlRecOn l f (motive := fun q => q.1.Formed) h fun _ h _ _ => g h

end

end State.Formed

namespace FormedNext

theorem next {s : State} (h : s.Formed) : FormedNext (.next s)
  | _, rfl => h

theorem fault {x : Fault} : FormedNext (.fault x) := fun _ h => Host.Outcome.noConfusion rfl rfl rfl (heq_of_eq h)

theorem refused {x : Refusal} : FormedNext (.refused x) := fun _ h => Host.Outcome.noConfusion rfl rfl rfl (heq_of_eq h)

theorem ite {a b : Host.Outcome State Fault Refusal} {p : Prop} [Decidable p] (h : FormedNext a) (g : FormedNext b) :
    FormedNext (if p then a else b) := by
  split
  · exact h
  · exact g

end FormedNext

namespace Res.Formed

section
variable {s : State} {cause code : Nat} {a : BitVec 64}

theorem ok (h : s.Formed) : (Res.ok s).Formed := h

theorem trapAt (h : s.Formed) : (Res.trapAt s cause code a).Formed := h

theorem stay {g : State → State} (h : ∀ {s : State}, s.Formed → (g s).Formed) : (Res.stay g).Formed := fun _ => h

theorem trap : (Res.trap cause code a).Formed := trivial

theorem walk {l : List (Nat × BitVec 64)} {k : Nat} : (Res.walk l k).Formed := trivial

theorem hold : Res.hold.Formed := trivial

theorem ite {a b : Res} {p : Prop} [Decidable p] (h : a.Formed) (g : b.Formed) : (if p then a else b).Formed := by
  split
  · exact h
  · exact g

end

end Res.Formed

end Sys2Proof.Machine
end

section
/-! PROOFS. Device memory, the caches, tasks and divergence keep the canonical form (O5). -/

-- The proofs of one text are elaborated one at a time here: many open proofs would each ask for a thread and its stack.
set_option Elab.async false

namespace Sys2Proof.Machine

/-! ## Cores -/

theorem State.Formed.reset : (State.reset).Formed :=
  .blank

/-! ## Parts of a core, counters and the clock -/

theorem State.Formed.setCore {s : State} {c : Nat} {k : Core} (h : s.Formed) : (s.setCore c k).Formed := by
  unfold State.setCore
  exact h.same

theorem State.Formed.updCore {s : State} {c : Nat} {f : Core → Core} (h : s.Formed) : (s.updCore c f).Formed :=
  h.setCore

theorem State.Formed.updBand {s : State} {c b : Nat} {f : Band → Band} (h : s.Formed) : (s.updBand c b f).Formed :=
  h.updCore

theorem State.Formed.updEntry {s : State} {c e : Nat} {f : Entry → Entry} (h : s.Formed) : (s.updEntry c e f).Formed :=
  h.updCore

theorem State.Formed.updTask {s : State} {c t : Nat} {f : Task → Task} (h : s.Formed) : (s.updTask c t f).Formed :=
  h.updCore

theorem State.Formed.updThreads {s : State} {c b : Nat} {m : Word} {f : Nat → Thread → Thread} (h : s.Formed) :
    (s.updThreads c b m f).Formed :=
  h.updBand

theorem State.Formed.updLaunch {s : State} {l : Nat} {f : Launch → Launch} (h : s.Formed) : (s.updLaunch l f).Formed := by
  unfold State.updLaunch
  exact h.same

theorem State.Formed.updCluster {s : State} {i : Nat} {f : Cluster → Cluster} (h : s.Formed) : (s.updCluster i f).Formed := by
  unfold State.updCluster
  exact h.same

theorem State.Formed.count {s : State} {spire src n : Nat} (h : s.Formed) : (s.count spire src n).Formed := by
  unfold State.count
  exact h.same

theorem State.Formed.countAt {s : State} {c src n : Nat} (h : s.Formed) : (s.countAt c src n).Formed :=
  h.count

theorem State.Formed.clockTo {s : State} {t : Nat} (h : s.Formed) : (s.clockTo t).Formed := by
  unfold State.clockTo
  exact .ite h (.same (h.foldl fun h1 => h1.count))

/-! ## Half lines of device memory -/

theorem State.Formed.putHalf {s : State} {key : Option Key} {pa : Nat} {d : BitVec 512} (h : s.Formed) : (s.putHalf key pa d).Formed :=
  State.wf_putHalf key pa d h

/-! ## Home domes and buffers -/

theorem State.Formed.countPage {s : State} {pa : Nat} (h : s.Formed) : (s.countPage pa).Formed := by
  unfold State.countPage
  exact h.same.guardNot fun h1 => .ite h1.same h1.same

theorem State.Formed.dropReplicas {s : State} {ln : Nat} (h : s.Formed) : (s.dropReplicas ln).Formed := by
  unfold State.dropReplicas
  exact h.same

theorem State.Formed.putLine {s : State} {ln at_ : Nat} {bs : List Byte} (h : s.Formed) : (s.putLine ln at_ bs).Formed := by
  unfold State.putLine
  exact h.dropReplicas.same

theorem State.Formed.failRelease {s : State} {c slot detail : Nat} (h : s.Formed) : (s.failRelease c slot detail).Formed :=
  h.updBand

theorem State.Formed.backBytes {s : State} {c : Nat} {l : L1Line} {sel : Nat → Bool} (h : s.Formed) : (s.backBytes c l sel).Formed :=
  .ite h (.ite (h.foldl fun h1 => h1.putLine) (h.foldl fun h2 => h2.failRelease))

theorem State.Formed.recall {s : State} {ln : Nat} {words : Word} {but : Option Nat} (h : s.Formed) : (s.recall ln words but).Formed := by
  unfold State.recall
  split
  · exact h
  · exact .same (h.foldl fun h1 => .updCore (h1.foldl fun h2 => h2.backBytes))

theorem State.Formed.flushLine {s : State} {ln : Nat} (h : s.Formed) : (s.flushLine ln).Formed := by
  unfold State.flushLine
  split
  · exact h
  · exact .same (.guard (.ite h.countPage.putHalf h) fun h1 => h1.countPage.putHalf)

theorem State.Formed.evictLine {s : State} {ln : Nat} (h : s.Formed) : (s.evictLine ln).Formed := by
  unfold State.evictLine
  exact h.recall.dropReplicas.flushLine.same

theorem State.Formed.makeRoom {s : State} {ln : Nat} (h : s.Formed) : (s.makeRoom ln).Formed := by
  unfold State.makeRoom
  refine .ite h ?_
  split
  · exact h.evictLine
  · exact h

theorem State.Formed.fill {s : State} {enc : Bool} {key pd hmask ln : Nat} (h : s.Formed) : (s.fill enc key pd hmask ln).1.Formed := by
  unfold State.fill
  exact .iteP h (.iteP h h.makeRoom.countPage.count.same)

theorem State.Formed.fillBuf {s : State} {b : Buf} {ln : Nat} (h : s.Formed) : (s.fillBuf b ln).1.Formed :=
  h.fill

theorem State.Formed.readAt {s : State} {a : Asker} {buf o n : Nat} (h : s.Formed) : (s.readAt a buf o n).1.Formed :=
  h.foldlP fun h1 => .iteP h1 (.iteP h1 (.iteP h1.fillBuf h1.fillBuf))

theorem State.Formed.writeAt {s : State} {a : Asker} {buf o : Nat} {bs : List Byte} (h : s.Formed) : (s.writeAt a buf o bs).1.Formed :=
  h.foldlP fun h1 => .iteP h1 (.iteP h1 (.iteP h1.fillBuf h1.fillBuf.recall.putLine))

theorem State.Formed.readPhys {s : State} {pa n : Nat} (h : s.Formed) : (s.readPhys pa n).1.Formed :=
  h.fill

theorem State.Formed.mark {s : State} {launch task ln : Nat} {words : Word} (h : s.Formed) : (s.mark launch task ln words).Formed := by
  unfold State.mark
  exact .ite h (.ite h.same h.same)

theorem State.Formed.clearMarks {s : State} {launch : Nat} (h : s.Formed) : (s.clearMarks launch).Formed := by
  unfold State.clearMarks
  exact h.same

theorem State.Formed.register {s : State} {c : Nat} {r : Registration} (h : s.Formed) : (s.register c r).Formed := by
  unfold State.register
  refine .ite h.failRelease (.ite h.fillBuf.failRelease (.guard ?_ fun h => h.mark))
  change (if _ then _ else _ : State).Formed
  refine h.fillBuf.recall.guardNot fun h => ?_
  split
  · exact h
  · exact h.recall

theorem State.Formed.retire {s : State} {c ln : Nat} {words : Word} (h : s.Formed) : (s.retire c ln words).Formed := by
  unfold State.retire
  exact h.same

theorem State.Formed.readCode {s : State} {a : Asker} {buf block : Nat} (h : s.Formed) : (s.readCode a buf block).1.Formed :=
  .iteP h (h.foldlP fun h1 => .iteP h1 (.iteP h1.fillBuf h1.fillBuf))

theorem State.Formed.writeCode {s : State} {a : Asker} {buf block : Nat} {code : List Byte} (h : s.Formed) :
    (s.writeCode a buf block code).1.Formed :=
  .iteP h (h.foldlP fun h1 => .iteP h1 (.iteP h1.fillBuf h1.fillBuf.recall.putLine))

theorem State.Formed.pwWriteBack {s : State} {c : Nat} {p : PwBlock} (h : s.Formed) : (s.pwWriteBack c p).Formed := by
  unfold State.pwWriteBack
  refine .ite h ?_
  split
  · rename_i e1
    exact h.writeCode.left e1
  · rename_i e2
    exact (h.writeCode.left e2).foldl fun h1 => h1.failRelease

theorem State.Formed.pwForget {s : State} {c buf block : Nat} (h : s.Formed) : (s.pwForget c buf block).Formed := by
  unfold State.pwForget
  exact h.updCore.guard fun h1 => h1.same

theorem State.Formed.pwRecall {s : State} {buf block : Nat} {but : Option Nat} (h : s.Formed) : (s.pwRecall buf block but).Formed := by
  unfold State.pwRecall
  split
  · exact h
  · exact .ite h (.pwForget (h.foldl fun h1 => h1.pwWriteBack))

theorem State.Formed.readBuf {s : State} {a : Asker} {buf o n : Nat} (h : s.Formed) : (s.readBuf a buf o n).1.Formed :=
  .iteP h.readAt (h.foldlP fun h1 => .iteP h1 (.iteP h1.readCode h1.readCode))

theorem State.Formed.writeBuf {s : State} {a : Asker} {buf o : Nat} {bs : List Byte} (h : s.Formed) : (s.writeBuf a buf o bs).1.Formed :=
  .iteP h.writeAt (h.foldlP fun h1 => .iteP h1 (.iteP h1.pwRecall.readCode h1.pwRecall.readCode.writeCode))

/-! ## Page-table walks and translation -/

theorem State.Formed.walkFrom {pd : Nat} {va : BitVec 64} {level : Nat} :
    ∀ {s : State} {table : Nat}, s.Formed → (s.walkFrom pd va level table).1.Formed := by
  induction level with
  | zero =>
    intro s table h
    have hr : ∀ a, (s.readPhys a 16).1.Formed := fun _ => h.readPhys
    unfold State.walkFrom
    exact .iteP (hr _) (.iteP (.iteP (hr _) (hr _)) (.iteP (hr _) (hr _)))
  | succ l ih =>
    intro s table h
    have hr : ∀ a, (s.readPhys a 16).1.Formed := fun _ => h.readPhys
    unfold State.walkFrom
    exact .iteP (hr _) (.iteP (.iteP (hr _) (hr _)) (.iteP (hr _) (ih (hr _))))

theorem State.Formed.walk {s : State} {pd : Nat} {va : BitVec 64} (h : s.Formed) : (s.walk pd va).1.Formed :=
  .iteP h (.iteP h h.walkFrom)

theorem State.Formed.translate {s : State} {c pd : Nat} {va : BitVec 64} {access : Nat} (h : s.Formed) :
    (s.translate c pd va access).1.Formed := by
  unfold State.translate
  split
  · exact h
  · split
    · rename_i e1
      exact h.walk.left e1
    · rename_i e2
      dsimp only
      split <;> exact (h.walk.left e2).updCore

theorem State.Formed.translateFor {s : State} {pd : Nat} {va : BitVec 64} {write : Bool} (h : s.Formed) :
    (s.translateFor pd va write).1.Formed := by
  unfold State.translateFor
  split
  · rename_i e1
    exact h.walk.left e1
  · rename_i e2
    exact .iteP (h.walk.left e2) (h.walk.left e2)

/-! ## The L1 and requests to homes -/

theorem State.Formed.performRequest {s : State} {c : Nat} {r : Request} (h : s.Formed) : (s.performRequest c r).Formed := by
  unfold State.performRequest
  refine .ite (.ite h.same h.failRelease) ?_
  split
  · rename_i e1
    exact .ite (h.writeAt.left e1).mark (h.writeAt.left e1)
  · rename_i e2
    exact (h.writeAt.left e2).failRelease

theorem State.Formed.settle {s : State} {c : Nat} (h : s.Formed) : (s.settle c).Formed :=
  .foldl (h.setCore.foldl fun h1 => h1.register) fun h2 => h2.performRequest

theorem State.Formed.readLine {s : State} {c pd : Nat} {t : Trans} (h : s.Formed) : (s.readLine c pd t).1.Formed := by
  unfold State.readLine
  dsimp only
  split
  · split
    · exact h.countAt
    · split
      · rename_i e1
        exact .iteP (h.fillBuf.left e1).same (h.fillBuf.left e1)
      · rename_i e2
        exact h.fillBuf.left e2
  · exact h

theorem State.Formed.l1Fill {s : State} {c pd : Nat} {t : Trans} (h : s.Formed) : (s.l1Fill c pd t).1.Formed := by
  unfold State.l1Fill
  dsimp only
  split
  · rename_i e1
    exact (h.readLine.left e1).setCore.countAt
  · rename_i e2
    exact h.readLine.left e2

theorem State.Formed.l1Load_go {s : State} {c pd : Nat} {t : Trans} {n ln i : Nat} (h : s.Formed) :
    (State.l1Load.go c pd t n s ln i).1.Formed := by
  unfold State.l1Load.go
  split
  · rename_i e
    exact h.l1Fill.left e
  · rename_i e
    exact h.l1Fill.left e

theorem State.Formed.l1Load {s : State} {c pd : Nat} {t : Trans} {n : Nat} (h : s.Formed) : (s.l1Load c pd t n).1.Formed := by
  unfold State.l1Load
  dsimp only
  split
  · exact .iteP h h.l1Load_go
  · exact h.l1Load_go

theorem State.Formed.l1Store {s : State} {c slot pd : Nat} {t : Trans} {bs : List Byte} (h : s.Formed) :
    (s.l1Store c slot pd t bs).Formed :=
  h.setCore

theorem State.Formed.writeBack {s : State} {c : Nat} {who : Nat → Bool} (h : s.Formed) : (s.writeBack c who).Formed :=
  .foldl (h.settle.foldl fun h1 => h1.backBytes.updCore.retire) fun h2 => .ite h2.pwWriteBack.updCore h2

theorem State.Formed.selfInvalidate {s : State} {c : Nat} (h : s.Formed) : (s.selfInvalidate c).Formed :=
  h.updCore

theorem State.Formed.evictSuper {s : State} {c sb : Nat} (h : s.Formed) : (s.evictSuper c sb).Formed :=
  .foldl (.updCore (h.settle.foldl fun h1 => h1.backBytes.retire)) fun h2 => h2.pwWriteBack.pwForget

theorem State.Formed.loadBytes {s : State} {c pd : Nat} {t : Trans} {n : Nat} {acq : Bool} (h : s.Formed) :
    (s.loadBytes c pd t n acq).1.Formed := by
  unfold State.loadBytes
  refine .iteP (.iteP h.same h) (.iteP h.settle.readAt (.iteP ?_ h.l1Load))
  dsimp only
  split
  · rename_i e
    split <;> exact (h.settle.readAt.left e)
  · exact h.settle.readAt

theorem State.Formed.storeBytes {s : State} {c slot : Nat} {lanes : Word} {pd : Nat} {t : Trans} {bs : List Byte} (h : s.Formed) :
    (s.storeBytes c slot lanes pd t bs).Formed :=
  .ite h.l1Store h.updCore

theorem State.Formed.l1Drop {s : State} {c ln : Nat} (h : s.Formed) : (s.l1Drop c ln).Formed :=
  h.updCore

theorem State.Formed.storeHome {s : State} {c slot : Nat} {lanes : Word} {pd : Nat} {t : Trans} {bs : List Byte} (h : s.Formed) :
    (s.storeHome c slot lanes pd t bs).Formed :=
  h.settle.performRequest.l1Drop

theorem State.Formed.pwFill {s : State} {c pd : Nat} {t : Trans} (h : s.Formed) : (s.pwFill c pd t).1.Formed := by
  unfold State.pwFill
  refine .iteP h ?_
  split
  · rename_i e1
    exact (h.readCode.left e1).updCore.countAt
  · rename_i e2
    exact h.readCode.left e2

theorem State.Formed.pwOwn {s : State} {c pd : Nat} {t : Trans} (h : s.Formed) : (s.pwOwn c pd t).1.Formed := by
  unfold State.pwOwn
  refine .iteP h ?_
  dsimp only
  split
  · rename_i e
    exact (h.pwRecall.pwFill.left e).same.updCore
  · exact h.pwRecall.pwFill

theorem State.Formed.pwLoad {s : State} {c pd : Nat} {t : Trans} (h : s.Formed) : (s.pwLoad c pd t).1.Formed := by
  unfold State.pwLoad
  split
  · rename_i e1
    split <;> exact (h.pwFill.left e1)
  · rename_i e2
    exact h.pwFill.left e2

theorem State.Formed.pwStore {s : State} {c slot pd : Nat} {t : Trans} {v : BitVec 64} (h : s.Formed) :
    (s.pwStore c slot pd t v).Formed := by
  unfold State.pwStore
  split
  · rename_i e1
    exact (h.pwOwn.left e1).updCore
  · rename_i e2
    exact (h.pwOwn.left e2).failRelease

/-! ## Entries, tasks, flags and traps -/

theorem State.Formed.writeNow {s : State} {c slot : Nat} {gen : BitVec 16} {l : List (Loc × Word)} (h : s.Formed) :
    (s.writeNow c slot gen l).Formed :=
  h.updBand.updCore

theorem State.Formed.raise {s : State} {c slot : Nat} {f : Fl} (h : s.Formed) : (s.raise c slot f).Formed :=
  h.updBand

theorem State.Formed.writeLater {s : State} {c slot due : Nat} {gen : BitVec 16} {l : List (Loc × Word)} {f : Fl} (h : s.Formed) :
    (s.writeLater c slot due gen l f).Formed :=
  h.updBand

theorem State.Formed.commit {s : State} {c slot now : Nat} (h : s.Formed) : (s.commit c slot now).Formed :=
  h.updBand.foldl fun h1 => h1.updCore.raise

theorem State.Formed.commitAll {s : State} {c slot : Nat} (h : s.Formed) : (s.commitAll c slot).Formed :=
  h.foldl fun h1 => h1.commit

theorem State.Formed.addFlag {s : State} {c slot f : Nat} (h : s.Formed) : (s.addFlag c slot f).Formed :=
  h.updBand

theorem State.Formed.dropFlag {s : State} {c slot : Nat} {x : Option Nat} (h : s.Formed) : (s.dropFlag c slot x).Formed := by
  unfold State.dropFlag
  split
  · exact h
  · exact h.updBand

theorem State.Formed.launchFlight {s : State} {c : Nat} {f : Flight} (h : s.Formed) : (s.launchFlight c f).Formed :=
  h.updCore

theorem State.Formed.dropFlight {s : State} {c id : Nat} (h : s.Formed) : (s.dropFlight c id).Formed :=
  h.updCore

theorem State.Formed.wakeStalled {s : State} {c : Nat} (h : s.Formed) : (s.wakeStalled c).Formed :=
  h.updCore

theorem State.Formed.resumeLanes {s : State} {c e : Nat} {g : Word} (h : s.Formed) : (s.resumeLanes c e g).Formed :=
  h.updThreads.updEntry

theorem State.Formed.rebalance {s : State} {c e : Nat} (h : s.Formed) : (s.rebalance c e).Formed := by
  unfold State.rebalance
  dsimp only
  split
  · exact h
  · exact .ite h (.ite (.ite h.resumeLanes (.ite h.updCore h)) (.ite h.updThreads.updEntry.resumeLanes h))

theorem State.Formed.takeEntry {s : State} {c slot former : Nat} {g : Word} {w : Wait} {mark : Mark} (h : s.Formed) :
    (s.takeEntry c slot former g w mark).1.Formed := by
  unfold State.takeEntry
  refine .iteP h ?_
  dsimp only
  split
  · refine .iteP h.updEntry ?_
    split
    · exact h.updCore
    · exact h.updThreads.updEntry.rebalance
  · split
    · exact h.updCore
    · exact h

theorem State.Formed.updStood {s : State} {c slot : Nat} {frozen : Bool} {m : Word} {f : Nat → Thread → Thread} (h : s.Formed) :
    (s.updStood c slot frozen m f).Formed :=
  .ite h.updBand h.updThreads

theorem State.Formed.advance {s : State} {c e words : Nat} (h : s.Formed) : (s.advance c e words).Formed :=
  h.updStood.updEntry

theorem State.Formed.goTo {s : State} {c slot : Nat} {g : Word} {pc : BitVec 64} (h : s.Formed) : (s.goTo c slot g pc).Formed :=
  h.updThreads

theorem State.Formed.passBlock {s : State} {c slot : Nat} {g : Word} {words : Nat} {frozen : Bool} (h : s.Formed) :
    (s.passBlock c slot g words frozen).Formed :=
  .foldl (.updBand (h.updStood.foldl fun h1 => h1.advance.updEntry)) fun h2 => h2.rebalance

theorem State.Formed.endTask {s : State} {c t kind cause code : Nat} (h : s.Formed) : (s.endTask c t kind cause code).Formed :=
  .updTask (h.foldl fun h1 => h1.updCore.updBand)

theorem State.Formed.withdrawMembers {s : State} {c slot : Nat} (h : s.Formed) : (s.withdrawMembers c slot).Formed :=
  h.updBand.updCore

theorem State.Formed.withdrawSigners {s : State} {c slot : Nat} (h : s.Formed) : (s.withdrawSigners c slot).Formed :=
  .updCore (.updBand (.updTask (h.foldl fun h1 => h1.dropFlag.dropFlight)))

theorem State.Formed.withdrawPops {s : State} {c slot : Nat} (h : s.Formed) : (s.withdrawPops c slot).Formed := by
  unfold State.withdrawPops
  refine h.foldl fun h1 => ?_
  split
  · exact h1.dropFlag.dropFlight.foldl fun h2 => .ite h2.updThreads.updEntry h2
  · exact h1

theorem State.Formed.withdrawOps {s : State} {c slot : Nat} (h : s.Formed) : (s.withdrawOps c slot).Formed := by
  unfold State.withdrawOps
  refine h.foldl fun h1 => ?_
  split
  · exact h1.dropFlag
  · split
    · split
      · exact h1.dropFlag.dropFlight
      · exact h1
    · exact h1
  · exact h1

theorem State.Formed.enterKeep {s : State} {c slot cause code : Nat} {trap : Option Nat} {kpc : BitVec 64} {klanes : Word}
    {kaddr : BitVec 64} (h : s.Formed) : (s.enterKeep c slot cause code trap kpc klanes kaddr).Formed := by
  unfold State.enterKeep
  exact h.withdrawMembers.withdrawSigners.withdrawPops.withdrawOps.updCore.updBand.guardNot fun h => h.updCore

theorem State.Formed.takeTrap {s : State} {c slot cause code : Nat} {trap : Option Nat} {kpc : BitVec 64} {klanes : Word}
    {kaddr : BitVec 64} (h : s.Formed) :
    (s.takeTrap c slot cause code trap kpc klanes kaddr).Formed :=
  .ite h.countAt.endTask h.countAt.enterKeep

theorem State.Formed.resumeTrap {s : State} {c slot e : Nat} (h : s.Formed) : (s.resumeTrap c slot e).Formed :=
  .takeEntry (.updEntry (h.updThreads.updBand.foldl fun h1 => h1.updEntry))

theorem State.Formed.leaveKeep {s : State} {c slot : Nat} (h : s.Formed) : (s.leaveKeep c slot).Formed := by
  unfold State.leaveKeep
  refine .foldl ?_ fun h1 => h1.rebalance
  split
  · exact h.updCore.updBand.resumeTrap
  · exact h.updCore.updBand

/-! ## Entries that wait -/

theorem State.Formed.charge {s : State} {cluster energy : Nat} (h : s.Formed) : (s.charge cluster energy).Formed :=
  h.updCluster

/-! ## Divergence, joins, exits and phases -/

theorem State.Formed.postRecord {s t : State} {r : FaultRec} (h : s.Formed) (e : s.postRecord r = some t) : t.Formed := by
  unfold State.postRecord at e
  dsimp only at e
  split at e
  · cases e
  · split at e
    · cases e
    · rename_i et
      split at e
      · rename_i ew
        cases e
        exact ((h.translateFor.left et).writeBuf.left ew).same
      · cases e

theorem State.Formed.raiseRecord {s : State} {r : FaultRec} (h : s.Formed) : (s.raiseRecord r).Formed := by
  unfold State.raiseRecord
  split
  · rename_i e
    exact h.postRecord e
  · exact h.same

theorem State.Formed.park {s : State} {c e access : Nat} {pc : BitVec 64} {faults : List (Nat × BitVec 64 × Nat)} (h : s.Formed) :
    (s.park c e access pc faults).Formed :=
  .ite h (h.updEntry.updThreads.takeEntry.countAt.foldl fun h1 => h1.raiseRecord)

theorem State.Formed.unpark {s : State} {c : Nat} (h : s.Formed) : (s.unpark c).Formed :=
  .foldl (h.foldl fun h1 => .ite (.updEntry (.ite h1.updBand h1.updThreads)) h1) fun h2 => .ite h2 (.ite h2 h2.updThreads.rebalance)

theorem State.Formed.passWaits {s : State} {c slot : Nat} {released : Option Nat} (h : s.Formed) :
    (s.passWaits c slot released).Formed := by
  unfold State.passWaits
  refine h.foldl fun h1 => ?_
  dsimp only
  split
  · exact .ite h1 (.ite h1.advance.updEntry h1)
  · exact h1

theorem State.Formed.releaseJoin {s : State} {c slot former j : Nat} {force : Bool} (h : s.Formed) :
    (s.releaseJoin c slot former j force).Formed :=
  .ite h h.goTo.updThreads.updBand.takeEntry.passWaits

theorem State.Formed.arriveJoin {s : State} {c e j : Nat} {after : BitVec 64} (h : s.Formed) : (s.arriveJoin c e j after).Formed :=
  h.updThreads.updBand.updThreads.updEntry.releaseJoin.passWaits.rebalance

theorem State.Formed.releaseCalls {s : State} {c slot former : Nat} (h : s.Formed) : (s.releaseCalls c slot former).Formed :=
  h.foldl fun h1 => .ite h1 h1.goTo.updThreads.takeEntry

theorem State.Formed.releaseBar {s : State} {c t gid : Nat} (h : s.Formed) : (s.releaseBar c t gid).Formed :=
  h.foldl fun h1 => h1.foldl fun h2 => .ite (.updEntry (.advance (.ite h2.selfInvalidate h2))) (.ite h2.updEntry h2)

theorem State.Formed.releaseClusters {s : State} {l gid : Nat} {cl : List Nat} (h : s.Formed) : (s.releaseClusters l gid cl).Formed :=
  h.foldl fun h1 => h1.releaseBar

theorem State.Formed.checkGroup {s : State} {l gid : Nat} (h : s.Formed) : (s.checkGroup l gid).Formed :=
  .ite h (.releaseClusters (.updLaunch (h.foldl fun h1 => h1.updTask)))

theorem State.Formed.countArrival {s : State} {l gid task : Nat} (h : s.Formed) : (s.countArrival l gid task).Formed :=
  .checkGroup (.ite h h.updLaunch)

theorem State.Formed.checkBar {s : State} {c t gid : Nat} (h : s.Formed) : (s.checkBar c t gid).Formed := by
  unfold State.checkBar
  dsimp only
  split
  · exact h
  · exact .ite h (.ite (.ite h h.countArrival) h.updTask.releaseBar)

theorem State.Formed.arrived {s : State} {c slot gid : Nat} {part lanes : Word} {phase : Nat} (h : s.Formed) :
    (s.arrived c slot gid part lanes phase).Formed :=
  .releaseBar (.checkBar (.ite h.updTask h))

theorem State.Formed.checkBars {s : State} {c t : Nat} (h : s.Formed) : (s.checkBars c t).Formed :=
  h.foldl fun h1 => h1.checkBar

theorem State.Formed.leaveGroups {s : State} {c t : Nat} (h : s.Formed) : (s.leaveGroups c t).Formed :=
  .ite h (h.updLaunch.foldl fun h1 => h1.countArrival)

theorem State.Formed.gather {s : State} {c b : Nat} {at_ : Thread → BitVec 64 × BitVec 64} {ctx : Option Clause} (h : s.Formed) :
    (s.gather c b at_ ctx).Formed := by
  unfold State.gather
  dsimp only
  split
  · exact h
  · exact h.updStood.updCore

theorem State.Formed.releasePhase {s : State} {c t : Nat} (h : s.Formed) : (s.releasePhase c t).Formed := by
  unfold State.releasePhase
  refine h.updTask.foldl fun h1 => ?_
  dsimp only
  split
  · exact h1
  · exact h1.advance.gather

theorem State.Formed.tryPhase {s : State} {c t : Nat} (h : s.Formed) : (s.tryPhase c t).Formed := by
  unfold State.tryPhase
  dsimp only
  split
  · exact h
  · exact .ite h (.ite (.guardNot (.updTask (.guardNot (.ite h h.updLaunch) fun h1 => h1.charge)) fun h2 => h2.releasePhase) (.countAt
      (.updTask (.ite h h.updLaunch))))

theorem State.Formed.trapMembers {s : State} {c slot detail : Nat} (h : s.Formed) : (s.trapMembers c slot detail).Formed := by
  unfold State.trapMembers
  dsimp only
  split
  · exact h
  · exact h.takeTrap

theorem State.Formed.trapLanes {s : State} {c slot : Nat} {m : Word} {cause code : Nat} {addr : BitVec 64} (h : s.Formed) :
    (s.trapLanes c slot m cause code addr).Formed := by
  unfold State.trapLanes
  dsimp only
  split
  · exact h
  · exact h.takeTrap

theorem State.Formed.trapSigners {s : State} {c slot g cause code : Nat} {addr : BitVec 64} (h : s.Formed) :
    (s.trapSigners c slot g cause code addr).Formed :=
  h.trapLanes

theorem State.Formed.closeMatrix {s : State} {c t g cause code : Nat} {addr : BitVec 64} (h : s.Formed) :
    (s.closeMatrix c t g cause code addr).Formed :=
  .updTask (.foldl (h.foldl fun h1 => h1.trapSigners) fun h2 => h2.dropFlag.dropFlight)

theorem State.Formed.checkEnd {s : State} {c t : Nat} (h : s.Formed) : (s.checkEnd c t).Formed :=
  .ite h (h.updTask.guardNot fun h1 => h1.leaveGroups)

theorem State.Formed.exitLanes {s : State} {c e : Nat} {g : Word} {rel : Bool} (h : s.Formed) : (s.exitLanes c e g rel).Formed := by
  unfold State.exitLanes
  refine .checkEnd (.tryPhase (.checkBars (.updBand (.foldl (.guardNot (.foldl ?_ fun h1 => .ite h1.closeMatrix h1) fun h2 =>
      .releaseCalls (.passWaits (h2.foldl fun h3 => h3.releaseJoin))) fun h4 => h4.rebalance))))
  split
  · exact .guardNot (.updCore (.updBand (.ite h.launchFlight h))) fun h5 => h5.trapMembers.withdrawMembers
  · exact .updCore (.updBand (.ite h.launchFlight h))

theorem State.Formed.exitBand {s : State} {c slot : Nat} {rel halt : Bool} (h : s.Formed) : (s.exitBand c slot rel halt).Formed := by
  unfold State.exitBand
  exact h.updBand.exitLanes.updCore

/-! ## Issue and what an effect leaves -/

theorem State.Formed.ageBand {s : State} {u : Cursor} {now : Nat} (h : s.Formed) : (s.ageBand u now).Formed :=
  h.foldl fun h1 => .ite h1 h1.updEntry

theorem State.Formed.beginIssue {s : State} {u : Cursor} {i : Instr} {uni : Bool} {d : BitVec 2} (h : s.Formed) :
    (s.beginIssue u i uni d).Formed :=
  h.clockTo.commit.ageBand.updThreads.updBand.updEntry.updCore.countAt

theorem State.Formed.trapHere {s : State} {x : Ctx} {cause code : Nat} {addr : BitVec 64} (h : s.Formed) :
    (s.trapHere x cause code addr).Formed :=
  h.takeTrap

theorem State.Formed.stall {s : State} {x : Ctx} (h : s.Formed) : (s.stall x).Formed :=
  h.updEntry

theorem State.Formed.breakHere {s : State} {u : Cursor} (h : s.Formed) : (s.breakHere u).Formed :=
  h.updTask.updEntry.trapHere

theorem State.Formed.issueAt {i : Instr} {q : Shape} {f : Ctx → State → Res} {s : State} {u : Cursor}
    (h : s.Formed) (hf : ∀ {x : Ctx} {s : State}, s.Formed → (f x s).Formed) : (issueAt i q f s u).Formed := by
  have key : (f ((s.beginIssue u i q.uni q.d).ctx u (s.beginIssue u i q.uni q.d).cycle)
      ((s.beginIssue u i q.uni q.d).advance u.core u.entry q.words)).Formed := hf h.beginIssue.advance
  unfold Machine.issueAt
  refine .ite h.breakHere ?_
  dsimp only
  split
  · exact h.beginIssue.trapHere
  · refine .ite h.stall ?_
    generalize f _ _ = r at key ⊢
    cases r with
    | ok t => exact key
    | trap cause code addr => exact h.beginIssue.trapHere
    | trapAt t cause code kpc => exact .takeTrap key
    | stay g => exact key _ h.beginIssue
    | walk vas access => exact h.updEntry
    | hold => exact h.stall

theorem FormedNext.issue {i : Instr} {q : Shape} {f : Ctx → State → Res} {s : State} (h : s.Formed) (hf : ∀ {a1 : Ctx} {a2 : State},
    a2.Formed → (f a1 a2).Formed) :
    FormedNext (issue i q f s) := by
  unfold Machine.issue
  split
  · exact .fault
  · exact .next (.issueAt h (fun h1 => hf h1))

theorem Res.Formed.done {s : State} {x : Ctx} {l : List (Loc × Word)} (h : s.Formed) : (s.done x l).Formed :=
  .ok h.writeNow

theorem Res.Formed.doneFl {s : State} {x : Ctx} {l : List (Loc × Word)} {fl : Fl} (h : s.Formed) : (s.doneFl x l fl).Formed :=
  .ite (.ok h.writeNow) (.ok h.writeNow.writeLater)

theorem Res.Formed.done8 {s : State} {x : Ctx} {l : List (Loc × Word)} {fl : Fl} (h : s.Formed) : (s.done8 x l fl).Formed :=
  .ok h.writeLater

theorem State.Formed.start {s : State} {x : Ctx} {lanes : Word} {flag : Option Nat} {kind : FKind} (h : s.Formed) :
    (s.start x lanes flag kind).Formed := by
  unfold State.start
  refine .launchFlight ?_
  split
  · exact h.addFlag
  · exact h

/-! ## Fetch -/

theorem State.Formed.dropStale {s : State} {c : Nat} (h : s.Formed) : (s.dropStale c).Formed :=
  h.updCore

theorem State.Formed.keepLine {s : State} {c : Nat} {l : ILine} (h : s.Formed) : (s.keepLine c l).Formed :=
  h.updCore

theorem State.Formed.touchLine {s : State} {c pd : Nat} {pc : BitVec 64} (h : s.Formed) : (s.touchLine c pd pc).Formed :=
  h.updCore

theorem State.Formed.postTiering {s : State} (h : s.Formed) : (s.postTiering).Formed := by
  unfold State.postTiering
  refine h.same.foldl fun h1 => .ite h1 ?_
  split
  · rename_i e1
    exact h1
  · rename_i e2
    split
    · rename_i e3
      exact ((h1.translateFor.left e2).writeBuf.left e3).same
    · rename_i e4
      exact (h1.translateFor.left e2).writeBuf.left e4

theorem State.Formed.afterIssue {s : State} {u : Cursor} (h : s.Formed) : (s.afterIssue u).Formed :=
  h.dropStale.postTiering.guardNot fun h1 => h1.wakeStalled

theorem State.Formed.afterEvent {s : State} (h : s.Formed) : (s.afterEvent).Formed :=
  h.postTiering.foldl fun h1 => h1.wakeStalled

/-! ## Clauses -/

theorem State.Formed.enterClause {s : State} {u : Cursor} {wait : BitVec 12} {sa sb : BitVec 4} {pred : BitVec 3} {neg : Bool} {n : Nat}
    (h : s.Formed) :
    (s.enterClause u wait sa sb pred neg n).Formed := by
  unfold State.enterClause
  dsimp only
  split
  · exact h.updEntry
  · split
    · exact h.touchLine.touchLine.updThreads
    · exact .ite h.touchLine.touchLine.updThreads.updEntry h.touchLine.touchLine.takeTrap

theorem FormedNext.execClause {w : BitVec 12} {a b : BitVec 4} {p : BitVec 3} {n : Bool} {c : BitVec 3} {s : State} (h : s.Formed) :
    FormedNext (execClause w a b p n c s) := by
  unfold Machine.execClause
  split
  · exact .fault
  · exact .next h.enterClause

theorem State.Formed.badHeader {s : State} {u : Cursor} {at_ : BitVec 64} (h : s.Formed) : (s.badHeader u at_).Formed :=
  h.takeTrap

end Sys2Proof.Machine
end

section
/-! PROOFS. Instructions keep the canonical form (O5). -/

-- The proofs of one text are elaborated one at a time here: many open proofs would each ask for a thread and its stack.
set_option Elab.async false

namespace Sys2Proof.Machine

/-! ## Floating-point forms -/

theorem Res.Formed.fpDone {s : State} {x : Ctx} {t : FTy} {l : List (Loc × Word)} {fl : Fl} (h : s.Formed) : (s.fpDone x t l fl).Formed :=
  .ite (.done8 h) (.doneFl h)

theorem FormedNext.fpBin {i : Instr} {t : FTy} {o : VV} {acc : Bool} {f : Ctx → Nat → Nat → Nat → Nat × Fl} {s : State} (h : s.Formed) :
    FormedNext (fpBin i t o acc f s) :=
  .issue h (fun h1 => .fpDone h1)

theorem FormedNext.fpUn {i : Instr} {t : FTy} {o : VU} {f : Ctx → Nat → Nat × Fl} {s : State} (h : s.Formed) :
    FormedNext (fpUn i t o f s) :=
  .issue h (fun h1 => .fpDone h1)

theorem Res.Formed.seqStart {s : State} {x : Ctx} {t : FTy} {vd : BitVec 7} {f : Nat → Nat × Fl} (h : s.Formed) :
    (s.seqStart x t vd f).Formed :=
  .ite (.ok h) (.ok h.updCore.start)

/-! ## Format forms -/

theorem FormedNext.fmtOp {i : Instr} {o : FV} {wa wd last : Bool} {vc : Nat} {slow : Bool} {f : Ctx → Nat → Nat → Nat → Nat → Nat × Fl}
    {s : State} (h : s.Formed) :
    FormedNext (fmtOp i o wa wd last vc slow f s) :=
  .issue h (fun h1 => .ite (.done8 h1) (.doneFl h1))

/-! ## Block actions -/

theorem State.Formed.pwFlush {s : State} {c pd : Nat} {t : Trans} (h : s.Formed) : (s.pwFlush c pd t).1.Formed := by
  unfold State.pwFlush
  split
  · exact h
  · exact .pwForget (.iteP h h.writeCode)

theorem State.Formed.pwNorm {s : State} {c pd : Nat} {t : Trans} (h : s.Formed) : (s.pwNorm c pd t).1.Formed := by
  unfold State.pwNorm
  split
  · rename_i e
    split
    · exact h.pwOwn.left e
    · exact (h.pwOwn.left e).writeCode.updCore
  · exact h.pwOwn

theorem State.Formed.pwRawWord {s : State} {c pd : Nat} {t : Trans} (h : s.Formed) : (s.pwRawWord c pd t).1.Formed := by
  unfold State.pwRawWord
  dsimp only
  split
  · exact h
  · exact h.readCode

theorem State.Formed.pwBlockAct {s : State} {c pd : Nat} {op : PwOp} {t : Trans} (h : s.Formed) : (s.pwBlockAct c pd op t).1.Formed := by
  unfold State.pwBlockAct
  split
  · exact h.pwOwn
  · exact h.pwFlush
  · exact h.pwNorm
  · exact h.pwForget
  · exact h

theorem State.Formed.pwAct {s : State} {c pd : Nat} {op : PwOp} {acc : List LAcc} (h : s.Formed) : (s.pwAct c pd op acc).1.Formed := by
  unfold State.pwAct
  refine h.foldlP fun h1 => ?_
  split
  · exact h1
  · split
    · exact h1.pwRawWord
    all_goals
      split
      · exact h1
      · exact h1.pwBlockAct

/-! ## Memory instructions -/

theorem State.Formed.sample {s : State} {c pd : Nat} {k : MKind} {a : LAcc} (h : s.Formed) : (s.sample c pd k a).1.Formed := by
  unfold State.sample
  split
  · exact h
  · exact h
  · exact .iteP (.iteP h.pwLoad h.loadBytes) (.iteP h.loadBytes.loadBytes h.loadBytes)

theorem State.Formed.sampleAll {s : State} {c pd : Nat} {k : MKind} {l : List LAcc} {p : LAcc → Bool} (h : s.Formed) :
    (s.sampleAll c pd k l p).1.Formed :=
  h.foldlP fun h1 => .iteP h1.sample h1

theorem State.Formed.sampleOlder {s : State} {c slot pd before : Nat} {l : List LAcc} {n : Nat} (h : s.Formed) :
    (s.sampleOlder c slot pd before l n).Formed := by
  unfold State.sampleOlder
  refine h.foldl fun h1 => ?_
  dsimp only
  split
  · exact .ite h1 h1.sampleAll.updCore
  · exact .ite h1 h1.sampleAll.updCore
  · exact h1

theorem State.Formed.storeLane {s : State} {c slot pd : Nat} {op : MemOp} {ftz home : Bool} {a : LAcc} (h : s.Formed) :
    (s.storeLane c slot pd op ftz home a).1.Formed := by
  unfold State.storeLane
  split
  · exact h
  · exact .iteP h.pwStore (.ite h.storeHome h.storeBytes)

theorem State.Formed.storeAll {s : State} {c slot pd : Nat} {op : MemOp} {ftz home : Bool} (h : s.Formed) :
    (s.storeAll c slot pd op ftz home).Formed :=
  .guardNot (.guard (h.foldlP fun h1 => h1.storeLane) fun h2 => h2.writeBack) fun h3 => h3.writeLater

theorem State.Formed.atomicAt {s : State} {a : Asker} {buf off size : Nat} {f : Nat → Option Nat} (h : s.Formed) :
    (s.atomicAt a buf off size f).1.Formed := by
  unfold State.atomicAt
  refine .iteP h ?_
  dsimp only
  split
  · rename_i e1
    split
    · exact h.recall.readAt.left e1
    · exact (h.recall.readAt.left e1).writeAt
  · rename_i e2
    exact h.recall.readAt.left e2

theorem State.Formed.atomLane {s : State} {c slot pd : Nat} {k : MKind} {a : LAcc} (h : s.Formed) :
    (s.atomLane c slot pd k a).1.Formed := by
  unfold State.atomLane
  split
  · exact h
  · exact .iteP (.iteP h.same h) (.l1Drop (h.atomicAt.guard fun h1 => h1.mark))

theorem State.Formed.atomAll {s : State} {c slot pd : Nat} {op : MemOp} (h : s.Formed) : (s.atomAll c slot pd op).1.Formed :=
  h.settle.foldlP fun h1 => h1.atomLane

/-- What `transAll` does with one address. -/
theorem State.Formed.walked {s : State} {c pd k : Nat} {va : BitVec 64} {walk : Bool} (h : s.Formed) :
    (if walk = true then ((s.translate c pd va k).1, some (s.translate c pd va k).2) else (s, s.lookup c pd va k)).1.Formed :=
  .iteP h.translate h

theorem State.Formed.transAll {s : State} {c pd : Nat} {op : MemOp} {walk : Bool} (h : s.Formed) :
    (s.transAll c pd op walk).1.Formed := by
  unfold State.transAll
  dsimp only
  refine h.foldlP fun hq => ?_
  split
  · rename_i e
    exact hq.walked.left e
  · rename_i e
    exact hq.walked.left e
  · rename_i e
    refine .iteP ?_ (hq.walked.left e)
    split
    · rename_i f
      exact (hq.walked.left e).walked.left f
    · rename_i f
      exact (hq.walked.left e).walked.left f
    · rename_i f
      exact (hq.walked.left e).walked.left f

theorem State.Formed.memAct {s : State} {c slot : Nat} {op : MemOp} (h : s.Formed) : (s.memAct c slot op).Formed := by
  unfold State.memAct
  dsimp only
  split
  · exact .launchFlight (.ite h.sampleOlder h)
  · exact .launchFlight (.ite h.sampleOlder h)
  · exact .ite (.launchFlight (.ite h.sampleOlder h)) (.storeAll (.ite h.sampleOlder h))
  · exact .ite (.launchFlight (.ite h.sampleOlder h)) (.storeAll (.ite h.sampleOlder h))
  · exact .ite (.launchFlight (.ite h.sampleOlder h)) (.launchFlight (.atomAll (.ite h.sampleOlder h)))
  · exact .ite (.launchFlight (.ite h.sampleOlder h)) (.launchFlight (.atomAll (.ite h.sampleOlder h)))
  · exact .ite (.launchFlight (.ite h.sampleOlder h)) (.launchFlight (.atomAll (.ite h.sampleOlder h)))
  · exact .launchFlight (.pwAct (.sampleOlder (.ite h.sampleOlder h)))
  · exact .ite h.sampleOlder h

theorem State.Formed.memPerform {s : State} {c e : Nat} {op : MemOp} {acc : List LAcc} {faults : List (Nat × BitVec 64 × Nat)}
    (h : s.Formed) :
    (s.memPerform c e op acc faults).Formed := by
  unfold State.memPerform
  refine h.park.dropFlag.guardNot fun h1 => .ite h1.updEntry ?_
  split
  · exact h1.takeTrap
  · exact .ite h.park.memAct.updEntry (.ite h.park.updEntry.advance.dropFlag h.park.updEntry.advance.memAct)

theorem State.Formed.memBegin {s : State} {c e : Nat} {op : MemOp} (h : s.Formed) : (s.memBegin c e op).Formed := by
  have key : ∀ {t : State}, t.Formed → ∀ pd, (if (t.transAll c pd op false).2.2.2 then
      (t.transAll c pd op false).1.updEntry c e fun x => { x with wait := .translate op }
      else (t.transAll c pd op false).1.memPerform c e op (t.transAll c pd op false).2.1 (t.transAll c pd op false).2.2.1).Formed :=
    fun h _ => .ite h.transAll.updEntry h.transAll.memPerform
  unfold State.memBegin
  cases op.flag with
  | none => exact key h _
  | some f => exact key h.addFlag _

theorem Res.Formed.memIssue {x : Ctx} {t : State} {op : MemOp} (h : t.Formed) : (memIssue x t op).Formed := by
  unfold Machine.memIssue
  refine .ite (.ok h) ?_
  split
  · exact .trap
  · exact .stay fun h1 => h1.memBegin

theorem FormedNext.loadOp {i : Instr} {ty : MTy} {od : Ord} {o : MV} {a : List Src} {addr : Ctx → Nat → BitVec 64} {s : State}
    (h : s.Formed) :
    FormedNext (loadOp i ty od o a addr s) :=
  .issue h (fun h1 => .memIssue h1)

theorem FormedNext.storeOp {i : Instr} {ty : MTy} {od : Ord} {o : MV} {a : List Src} {addr : Ctx → Nat → BitVec 64} {s : State}
    (h : s.Formed) :
    FormedNext (storeOp i ty od o a addr s) :=
  .issue h (fun h1 => .memIssue h1)

theorem FormedNext.execLds {ty : MTy} {o : MV} {s : State} (h : s.Formed) : FormedNext (execLds ty o s) := by
  unfold Machine.execLds
  refine .issue h (fun h1 => ?_)
  split
  · exact .trap
  · exact .ite (.ok h1) (.ite .trap (.ok h1.start))

theorem State.Formed.spSampleOlder {s : State} {c slot : Nat} {l : List (Nat × Nat)} (h : s.Formed) : (s.spSampleOlder c slot l).Formed :=
  h.updCore

theorem FormedNext.execSts {ty : MTy} {o : MV} {s : State} (h : s.Formed) : FormedNext (execSts ty o s) := by
  unfold Machine.execSts
  refine .issue h (fun h1 => ?_)
  split
  · exact .trap
  · exact .ok h1.spSampleOlder.updCore

theorem FormedNext.execPf {o : MV} {s : State} (h : s.Formed) : FormedNext (execPf o s) := by
  unfold Machine.execPf
  refine .issue h (fun h1 => .ok (h1.foldl fun h2 => ?_))
  split
  · rename_i e1
    exact h2.translate.left e1
  · rename_i e2
    exact .ite (h2.translate.left e2).pwFill (.ite (h2.translate.left e2).l1Fill (h2.translate.left e2))

theorem FormedNext.execLnext {d l : BitVec 2} {off : BitVec 18} {s : State} (h : s.Formed) : FormedNext (execLnext d l off s) :=
  .issue h (fun h1 => .ite (.ok h1.updBand.goTo.updEntry) (.ok h1.updBand))

/-! ## Completions of loads, atomics and blocks -/

theorem State.Formed.asyncTrap {s : State} {c slot : Nat} {lanes : Word} {cause code : Nat} {addr : BitVec 64} (h : s.Formed) :
    (s.asyncTrap c slot lanes cause code addr).Formed := by
  unfold State.asyncTrap
  refine .ite (.ite h h.updTask) (.ite h.takeTrap ?_)
  split
  · exact h.endTask
  · exact h.takeTrap

theorem State.Formed.writeLanes {s : State} {c : Nat} {f : Flight} {ty : MTy} {acc : List LAcc} (h : s.Formed) :
    (s.writeLanes c f ty acc).Formed :=
  h.updCore.guardNot fun h1 => h1.raise

theorem State.Formed.endFlight {s : State} {c id : Nat} {f : Flight} {acc : List LAcc} {whole : Bool} (h : s.Formed) :
    (s.endFlight c id f acc whole).Formed := by
  unfold State.endFlight
  dsimp only
  split
  · exact h.dropFlight.dropFlag
  · exact h.dropFlight.dropFlag.asyncTrap

theorem State.Formed.finishMem {s : State} {c id : Nat} {f : Flight} {op : MemOp} (h : s.Formed) : (s.finishMem c id f op).Formed :=
  .endFlight (h.writeLanes.guard fun h1 => h1.selfInvalidate)

theorem State.Formed.finishLoad {s : State} {c id : Nat} {f : Flight} {op : MemOp} (h : s.Formed) : (s.finishLoad c id f op).Formed :=
  h.sampleOlder.sampleAll.finishMem

theorem State.Formed.finishLds {s : State} {c id : Nat} {f : Flight} {ty : MTy} {acc : List LAcc} (h : s.Formed) :
    (s.finishLds c id f ty acc).Formed :=
  h.writeLanes.endFlight

theorem State.Formed.finishResult {s : State} {c id : Nat} {f : Flight} {w : List (Loc × Word)} {fl : Fl} (h : s.Formed) :
    (s.finishResult c id f w fl).Formed :=
  .dropFlag (.dropFlight (h.updCore.guardNot fun h1 => h1.raise))

theorem FormedNext.execLoadCompletion {c id : Nat} {s : State} (h : s.Formed) : FormedNext (execLoadCompletion c id s) := by
  unfold Machine.execLoadCompletion
  refine .next ?_
  split
  · split
    · exact h.finishLoad
    · exact .ite h h.finishLoad
    · exact h.finishLds
    · exact h
  · exact h

theorem FormedNext.execAtomicCompletion {c id : Nat} {s : State} (h : s.Formed) : FormedNext (execAtomicCompletion c id s) := by
  unfold Machine.execAtomicCompletion
  refine .next ?_
  split
  · split
    · exact h.finishMem
    · exact .ite h.finishMem h
    · exact h
  · exact h

theorem FormedNext.execSequencerCompletion {c id : Nat} {s : State} (h : s.Formed) : FormedNext (execSequencerCompletion c id s) := by
  unfold Machine.execSequencerCompletion
  refine .next ?_
  split
  · split
    · exact h.finishResult
    · exact h
  · exact h

theorem FormedNext.execFtabCompletion {c id : Nat} {s : State} (h : s.Formed) : FormedNext (execFtabCompletion c id s) := by
  unfold Machine.execFtabCompletion
  refine .next ?_
  split
  · split
    · exact h.finishResult
    · exact h
  · exact h

theorem FormedNext.execPlynwickOperationCompletion {c id : Nat} {s : State} (h : s.Formed) :
    FormedNext (execPlynwickOperationCompletion c id s) := by
  unfold Machine.execPlynwickOperationCompletion
  refine .next ?_
  split
  · split
    · exact h.writeLanes.endFlight
    · exact h
  · exact h

theorem FormedNext.execRemoteAccessTimeout {c id : Nat} {s : State} (h : s.Formed) : FormedNext (execRemoteAccessTimeout c id s) := by
  unfold Machine.execRemoteAccessTimeout
  refine .next ?_
  split
  · split
    · exact .ite h.finishMem h.finishLoad
    · exact .ite h.updCore.failRelease h
    · exact h
  · exact h

theorem FormedNext.execInstructionLineFill {c e : Nat} {s : State} (h : s.Formed) : FormedNext (execInstructionLineFill c e s) := by
  unfold Machine.execInstructionLineFill
  refine .next ?_
  split
  · exact h
  · refine .ite h ?_
    split
    · exact h.updEntry
    · dsimp only
      split
      · rename_i e1
        exact (h.translate.left e1).park.rebalance
      · rename_i e2
        split
        · rename_i e3
          exact ((h.translate.left e2).readLine.left e3).keepLine.updEntry
        · rename_i e4
          exact ((h.translate.left e2).readLine.left e4).updEntry.takeTrap

theorem State.Formed.walkFor {s : State} {c e : Nat} {vas : List (Nat × BitVec 64)} {access : Nat} (h : s.Formed) :
    (s.walkFor c e vas access).Formed := by
  unfold State.walkFor
  refine .rebalance (.park (.updEntry (h.foldlP fun h1 => ?_)))
  split
  · rename_i e1
    exact h1.translate.left e1
  · rename_i e2
    exact h1.translate.left e2

theorem FormedNext.execPageTableWalk {c e : Nat} {s : State} (h : s.Formed) : FormedNext (execPageTableWalk c e s) := by
  unfold Machine.execPageTableWalk
  refine .next ?_
  split
  · exact h
  · split
    · exact h.updEntry.transAll.memPerform.rebalance
    · exact h.walkFor
    · exact h

/-! ## Control flow -/

theorem State.Formed.jump {s : State} {x : Ctx} {g : Word} {pc : BitVec 64} (h : s.Formed) : (s.jump x g pc).Formed :=
  h.goTo.updEntry

theorem FormedNext.branchIf {i : Instr} {d : BitVec 2} {sn : BitVec 6} {off : BitVec 18} {zero : Bool} {s : State} (h : s.Formed) :
    FormedNext (branchIf i d sn off zero s) :=
  .issue h (fun h1 => .ok (.ite h1.jump h1))

theorem Res.Formed.spillFault {s : State} {x : Ctx} {l : List (Nat × BitVec 64)} {k : Nat} {r : Res} (e : s.spillFault x l k = some r) :
    r.Formed := by
  unfold State.spillFault at e
  dsimp only at e
  split at e
  · cases e
    exact .trap
  · split at e
    · cases e
      exact .walk
    · split at e
      · cases e
        exact .trap
      · cases e

theorem State.Formed.push {s : State} {x : Ctx} {g : Word} {entry : BitVec 64} (h : s.Formed) : (s.push x g entry).Formed := by
  unfold State.push
  refine h.foldl fun h1 => .updThreads (.ite h1 ?_)
  dsimp only
  split
  · exact h1.storeBytes
  · exact h1

theorem FormedNext.callTo {i : Instr} {d : BitVec 2} {srcs : List Src} {target : Ctx → BitVec 64} {s : State} (h : s.Formed) :
    FormedNext (callTo i d srcs target s) := by
  refine .issue h fun h => .ite .trap (.ite .trap ?_)
  split
  · rename_i e
    exact .spillFault e
  · exact .ok h.push.jump

theorem FormedNext.execCallv {d : BitVec 2} {v : BitVec 7} {s : State} (h : s.Formed) : FormedNext (execCallv d v s) := by
  refine .issue h fun h => .ite (.ok h.jump) ?_
  split
  · exact .trap
  · refine .ite .trap ?_
    split
    · rename_i e
      exact .spillFault e
    · exact .ok (.updEntry (.foldl h.push.updThreads fun h => h.goTo))

theorem FormedNext.execRet {d : BitVec 2} {s : State} (h : s.Formed) : FormedNext (execRet d s) := by
  refine .issue h fun h => ?_
  dsimp only
  split
  · rename_i e
    exact .spillFault e
  · generalize hr : List.foldl _ _ _ = r
    have hf : r.1.Formed := by
      rw [← hr]
      refine .foldlP h fun hq => ?_
      split
      · exact hq.loadBytes
      · exact hq
    exact .ite .trap (.ok (.rebalance (.releaseCalls (.guardNot (.foldl hf.updThreads.updEntry fun h => h.takeEntry) fun h =>
        h.exitLanes))))

theorem FormedNext.execSplit {d : BitVec 2} {j : BitVec 4} {p : BitVec 3} {off : BitVec 17} {s : State} (h : s.Formed) :
    FormedNext (execSplit d j p off s) :=
  .issue h (fun h1 => .ok (.passWaits (h1.updBand.guardNot fun h2 => .ite h2.jump h2.jump.updEntry.takeEntry)))

theorem FormedNext.execJwait {d : BitVec 2} {j : BitVec 4} {s : State} (h : s.Formed) : FormedNext (execJwait d j s) :=
  .issue h (fun h1 => .ite (.ok h1) (.stay fun h2 => h2.updEntry.updBand.rebalance))

theorem FormedNext.execYield {d : BitVec 2} {s : State} (h : s.Formed) : FormedNext (execYield d s) :=
  .issue h (fun h1 => .ok (.updBand (.ite h1 h1.updThreads.updEntry.resumeLanes)))

/-! ## Tags -/

theorem State.Formed.latchWaits {s : State} {c t : Nat} (h : s.Formed) : (s.latchWaits c t).Formed :=
  h.updCore

/-! ## Group operations, barriers and fences -/

theorem State.Formed.holdFor {s : State} {x : Ctx} {kind : FKind} (h : s.Formed) : (s.holdFor x kind).Formed :=
  h.start.updEntry

theorem FormedNext.fence {i : Instr} {d : BitVec 2} {kind : FKind} {s : State} (h : s.Formed) : FormedNext (fence i d kind s) :=
  .issue h (fun _ => .stay fun h1 => h1.holdFor)

theorem State.Formed.arriveBar {s : State} {x : Ctx} {gid : Nat} {w : Word} {wait : Bool} (h : s.Formed) :
    (s.arriveBar x gid w wait).Formed :=
  .guard (.start (h.updTask.guard fun h1 => h1.updBand)) fun h2 => h2.updEntry.updBand

theorem FormedNext.arriveAt {i : Instr} {d : BitVec 2} {g : BitVec 8} {sn : BitVec 6} {wait : Bool} {s : State} (h : s.Formed) :
    FormedNext (arriveAt i d g sn wait s) :=
  .issue h (fun h1 => .ite .trap (.ite (.stay fun h2 => h2.updEntry.updBand) (.ite .trap (.ite (.stay fun h3 => h3.arriveBar) (.ok
      h1.arriveBar)))))

theorem FormedNext.execBarw {d : BitVec 2} {g : BitVec 8} {s : State} (h : s.Formed) : FormedNext (execBarw d g s) :=
  .issue h (fun h1 => .ite .trap (.ite (.stay fun h2 => h2.updEntry.updBand) (.ok h1.selfInvalidate)))

theorem State.Formed.flushDomain {s : State} {pd : Nat} (h : s.Formed) : (s.flushDomain pd).Formed :=
  h.foldl fun h1 => h1.flushLine

theorem State.Formed.performRelease {s : State} {c : Nat} {f : Flight} {k : RelKind} {here : Bool} (h : s.Formed) :
    (s.performRelease c f k here).Formed := by
  unfold State.performRelease
  refine .ite h ?_
  dsimp only
  split
  · exact h.writeBack
  · exact h.writeBack
  · exact h.writeBack.flushDomain

theorem State.Formed.takeFail {s : State} {c : Nat} {f : Flight} {k : RelKind} (h : s.Formed) : (s.takeFail c f k).1.Formed := by
  unfold State.takeFail
  dsimp only
  split
  · exact h
  · exact h.updBand

theorem State.Formed.passOp {s : State} {c id words : Nat} (h : s.Formed) : (s.passOp c id words).Formed := by
  unfold State.passOp
  split
  · exact h
  · exact h.advance.updEntry

theorem State.Formed.releasedAccess {s : State} {c id : Nat} {f : Flight} {op : MemOp} (h : s.Formed) :
    (s.releasedAccess c id f op).Formed :=
  .ite h.storeAll.dropFlight (.ite h.dropFlight.dropFlag.takeTrap h.atomAll.updCore.passOp)

theorem State.Formed.releasePush {s : State} {c t queue num : Nat} (h : s.Formed) : (s.releasePush c t queue num).Formed :=
  h.updTask

theorem State.Formed.dropPush {s : State} {c t queue num : Nat} (h : s.Formed) : (s.dropPush c t queue num).Formed := by
  unfold State.dropPush
  dsimp only
  split
  · exact h
  · exact h.updTask.latchWaits

theorem State.Formed.afterRelease {s : State} {c id : Nat} {f : Flight} {a : After} (h : s.Formed) :
    (s.afterRelease c id f a).Formed := by
  unfold State.afterRelease
  split
  · exact h.dropFlight
  · exact h.dropFlight.passOp
  · exact h.updCore
  · exact h.releasedAccess
  · exact h.dropFlight.arrived
  · exact h.dropFlight.releasePush

theorem State.Formed.unarrive {s : State} {c slot gid : Nat} {lanes : Word} (h : s.Formed) : (s.unarrive c slot gid lanes).Formed :=
  h.updTask

theorem State.Formed.failedRelease {s : State} {c id : Nat} {f : Flight} {a : After} {detail : Nat} (h : s.Formed) :
    (s.failedRelease c id f a detail).Formed := by
  unfold State.failedRelease
  refine .asyncTrap ?_
  split
  · exact h.dropFlight.dropFlag.unarrive.foldl fun h1 => h1.advance.updEntry
  · exact h.dropFlight.dropFlag.unarrive
  · exact h.dropFlight.dropFlag.dropPush
  all_goals exact h.dropFlight.dropFlag.passOp

theorem FormedNext.execReleaseCompletion {c id : Nat} {s : State} (h : s.Formed) : FormedNext (execReleaseCompletion c id s) := by
  unfold Machine.execReleaseCompletion
  refine .next ?_
  split
  · split
    · refine .ite h ?_
      dsimp only
      split
      · rename_i e1
        exact (State.Formed.left (.iteP h.performRelease h.performRelease.takeFail) e1).failedRelease
      · rename_i e2
        exact (State.Formed.left (.iteP h.performRelease h.performRelease.takeFail) e2).afterRelease
    · exact h
  · exact h

theorem FormedNext.execAcquireCompletion {c id : Nat} {s : State} (h : s.Formed) : FormedNext (execAcquireCompletion c id s) := by
  unfold Machine.execAcquireCompletion
  refine .next ?_
  split
  · split
    · exact .ite h h.selfInvalidate.dropFlight.passOp
    · exact h
  · exact h

/-! ## Queues and tags -/

theorem Res.Formed.pushCmd {t : State} {x : Ctx} {q count : Nat} {m : Cmd} (h : t.Formed) : (t.pushCmd x q count m).Formed := by
  unfold State.pushCmd
  dsimp only
  split
  · exact .trap
  · exact .ite .hold (.ok h.updTask.start)

theorem FormedNext.execTagWaitComplete {c id : Nat} {s : State} (h : s.Formed) : FormedNext (execTagWaitComplete c id s) := by
  unfold Machine.execTagWaitComplete
  refine .next ?_
  split
  · split
    · exact h.updCore.selfInvalidate.dropFlight.dropFlag
    · exact h
  · exact h

theorem FormedNext.execQpopComplete {c id : Nat} {s : State} (h : s.Formed) : FormedNext (execQpopComplete c id s) := by
  unfold Machine.execQpopComplete
  refine .next ?_
  split
  · split
    · dsimp only
      split
      · exact h
      · exact .ite h h.updTask.updCore.dropFlight.dropFlag
    · exact h
  · exact h

theorem FormedNext.execEngineCommandStart {c t q : Nat} {s : State} (h : s.Formed) : FormedNext (execEngineCommandStart c t q s) := by
  unfold Machine.execEngineCommandStart
  refine .next ?_
  dsimp only
  split
  · exact h
  · exact .ite h h.updTask.same

theorem State.Formed.endCommand {s : State} {c t q : Nat} {m : Cmd} {fault : Bool} (h : s.Formed) : (s.endCommand c t q m fault).Formed :=
  h.updTask.latchWaits

theorem FormedNext.execEngineCommandComplete {c t q : Nat} {s : State} (h : s.Formed) :
    FormedNext (execEngineCommandComplete c t q s) := by
  unfold Machine.execEngineCommandComplete
  refine .next ?_
  split
  · exact .ite h.endCommand h
  · exact h

theorem State.Formed.engineTrap {s : State} {c t slot cause code : Nat} (h : s.Formed) : (s.engineTrap c t slot cause code).Formed :=
  .ite h.updTask h.asyncTrap

theorem FormedNext.execEngineFault {c t q : Nat} {s : State} (h : s.Formed) : FormedNext (execEngineFault c t q s) := by
  unfold Machine.execEngineFault
  refine .next ?_
  split
  · split
    · exact h.endCommand.engineTrap
    · exact h
  · exact h

/-! ## Memory of the engines -/

theorem State.Formed.rangeFault {s : State} {pd : Nat} {va : BitVec 64} {n : Nat} {write : Bool} (h : s.Formed) :
    (s.rangeFault pd va n write).1.Formed := by
  unfold State.rangeFault
  refine h.foldlP fun h1 => ?_
  split
  · exact h1
  · split
    · rename_i e1
      exact h1.translateFor.left e1
    · rename_i e2
      exact h1.translateFor.left e2

theorem State.Formed.sideFault {s : State} {pd : Nat} {x : Side} {n : Nat} {write : Bool} (h : s.Formed) :
    (s.sideFault pd x n write).1.Formed :=
  .iteP h h.rangeFault

theorem State.Formed.rangeReadAs {s : State} {a : Asker} {va : BitVec 64} {n : Nat} (h : s.Formed) : (s.rangeReadAs a va n).1.Formed := by
  unfold State.rangeReadAs
  refine h.foldlP fun h1 => .iteP h1 ?_
  split
  · rename_i e1
    exact h1.translateFor.left e1
  · rename_i e2
    refine .iteP (.iteP (h1.translateFor.left e2).same (h1.translateFor.left e2)) ?_
    split
    · rename_i e3
      exact (h1.translateFor.left e2).readBuf.left e3
    · rename_i e4
      exact (h1.translateFor.left e2).readBuf.left e4

theorem State.Formed.rangeRead {s : State} {pd : Nat} {va : BitVec 64} {n : Nat} (h : s.Formed) : (s.rangeRead pd va n).1.Formed :=
  h.rangeReadAs

theorem State.Formed.rangeWriteAs {s : State} {a : Asker} {who : Option (Nat × Nat)} {va : BitVec 64} {bs : List Byte} (h : s.Formed) :
    (s.rangeWriteAs a who va bs).1.Formed := by
  unfold State.rangeWriteAs
  refine h.foldlP fun h1 => .iteP h1 ?_
  split
  · rename_i e1
    exact h1.translateFor.left e1
  · rename_i e2
    refine .iteP (.iteP (h1.translateFor.left e2).same (h1.translateFor.left e2)) ?_
    split
    · rename_i e3
      dsimp only
      split
      · exact ((h1.translateFor.left e2).writeBuf.left e3).mark
      · exact (h1.translateFor.left e2).writeBuf.left e3
    · exact (h1.translateFor.left e2).writeBuf

theorem State.Formed.rangeWrite {s : State} {pd : Nat} {who : Option (Nat × Nat)} {va : BitVec 64} {bs : List Byte} (h : s.Formed) :
    (s.rangeWrite pd who va bs).1.Formed :=
  h.rangeWriteAs

theorem State.Formed.askRead {s : State} {a : Asker} {va : BitVec 64} {n : Nat} (h : s.Formed) : (s.askRead a va n).1.Formed := by
  unfold State.askRead
  split
  · rename_i e1
    exact h.rangeFault.left e1
  · rename_i e2
    split
    · rename_i e3
      exact (h.rangeFault.left e2).rangeReadAs.left e3
    · rename_i e4
      exact (h.rangeFault.left e2).rangeReadAs.left e4

theorem State.Formed.askWrite {s : State} {a : Asker} {va : BitVec 64} {bs : List Byte} (h : s.Formed) :
    (s.askWrite a va bs).1.Formed := by
  unfold State.askWrite
  split
  · rename_i e1
    exact h.rangeFault.left e1
  · rename_i e2
    split
    · rename_i e3
      exact (h.rangeFault.left e2).rangeWriteAs.left e3
    · rename_i e4
      exact h.rangeFault.left e2

theorem State.Formed.sideRead {s : State} {g : Eng} {x : Side} {n : Nat} (h : s.Formed) : (s.sideRead g x n).1.Formed :=
  .iteP h h.rangeRead

theorem State.Formed.sideWrite {s : State} {g : Eng} {x : Side} {bs : List Byte} {tag : Nat → BitVec 4} (h : s.Formed) :
    (s.sideWrite g x bs tag).1.Formed :=
  .iteP h.updCore h.rangeWrite

theorem State.Formed.engRecord {s : State} {g : Eng} {m : Cmd} {va : BitVec 64} {cause : Nat} {write : Bool} (h : s.Formed) :
    (s.engRecord g m va cause write).Formed :=
  h.raiseRecord

theorem State.Formed.copyBytes {s : State} {g : Eng} {m : Cmd} {src dst : Side} {n : Nat} (h : s.Formed) :
    (s.copyBytes g m src dst n).1.Formed := by
  unfold State.copyBytes
  split
  rename_i e1
  split
  rename_i e2
  dsimp only
  have hd := (h.sideFault.left e1).sideFault.left e2
  split
  · exact .iteP hd.sideRead.sideWrite hd.sideRead.sideWrite
  · exact .iteP hd.sideRead.sideWrite hd.sideRead.sideWrite.engRecord

/-! ## Tiles, accumulators and matrix operations -/

theorem State.Formed.signWith {s : State} {x : Ctx} {g : Nat} {w : Word} {o : MatOp} (h : s.Formed) : (s.signWith x g w o).Formed :=
  h.start.updTask.updEntry.updBand.rebalance

theorem FormedNext.signMatrix {i : Instr} {d : BitVec 2} {pair : Bool} {acc : BitVec 5} {am : Bool} {a : BitVec 5} {bm : Bool}
    {b : BitVec 5} {g : BitVec 3} {op : Ctx → MatOp} {s : State} (h : s.Formed) :
    FormedNext (signMatrix i d pair acc am a bm b g op s) :=
  .issue h (fun _ => .ite .trap (.ite .trap (.ite .trap (.stay fun h1 => h1.signWith))))

theorem State.Formed.releaseSigners {s : State} {c t : Nat} {r : MatRun} (h : s.Formed) : (s.releaseSigners c t r).Formed := by
  unfold State.releaseSigners
  refine h.foldl fun h1 => ?_
  split
  · exact h1
  · exact .ite h1 h1.passBlock

theorem State.Formed.dropSigs {s : State} {c id : Nat} (h : s.Formed) : (s.dropSigs c id).Formed :=
  h.foldl fun h1 => h1.dropFlag.dropFlight

theorem State.Formed.setStatus {s : State} {c t : Nat} {o : MatOp} {f : Word → Word} (h : s.Formed) : (s.setStatus c t o f).Formed :=
  h.updCore

theorem State.Formed.issueMatrix {s : State} {c t g : Nat} {r : GReg} {o : MatOp} {cls : MatCls} {sa sb s0 : Nat} (h : s.Formed) :
    (s.issueMatrix c t g r o cls sa sb s0).Formed :=
  .guard (h.launchFlight.updCore.updTask.guard fun h1 => h1.setStatus) fun h2 => h2.releaseSigners

theorem FormedNext.execMatrixOperationIssue {c t g : Nat} {s : State} (h : s.Formed) : FormedNext (execMatrixOperationIssue c t g s) := by
  unfold Machine.execMatrixOperationIssue
  refine .next ?_
  dsimp only
  split
  · exact h
  · refine .ite h ?_
    split
    · exact h.closeMatrix
    · exact h.issueMatrix

theorem State.Formed.completeMatrix {s : State} {c t id : Nat} {r : MatRun} {stop : Bool} (h : s.Formed) :
    (s.completeMatrix c t id r stop).Formed := by
  unfold State.completeMatrix
  refine .dropFlight (.dropSigs (h.updCore.setStatus.foldl fun h1 => ?_))
  split
  · exact .ite h1 h1.raise
  · exact h1

theorem State.Formed.stopMatrix {s : State} {c t id : Nat} {r : MatRun} (h : s.Formed) : (s.stopMatrix c t id r).Formed := by
  unfold State.stopMatrix
  refine h.completeMatrix.foldl fun h1 => ?_
  split
  · exact h1
  · exact h1.updStood.updCore

theorem State.Formed.matError {s : State} {c t id : Nat} {r : MatRun} (h : s.Formed) : (s.matError c t id r).Formed := by
  unfold State.matError
  refine h.stopMatrix.foldl fun h1 => ?_
  split
  · exact h1.trapLanes
  · exact h1

theorem FormedNext.execMatrixKStep {c id : Nat} {err : Bool} {s : State} (h : s.Formed) : FormedNext (execMatrixKStep c id err s) := by
  unfold Machine.execMatrixKStep
  refine .next ?_
  split
  · split
    · exact .ite h (.ite h.matError (.countAt (.guardNot (.updCore (.ite h.releaseSigners h)) fun h1 => h1.setStatus)))
    · exact h
  · exact h

theorem FormedNext.execMatrixOperationComplete {c id : Nat} {s : State} (h : s.Formed) :
    FormedNext (execMatrixOperationComplete c id s) := by
  unfold Machine.execMatrixOperationComplete
  refine .next ?_
  split
  · split
    · exact .ite h h.completeMatrix
    · exact h
  · exact h

theorem State.Formed.load64 {s : State} {c pd : Nat} {t : Trans} (h : s.Formed) : (s.load64 c pd t).1.Formed := by
  unfold State.load64
  refine h.foldlP fun h1 => ?_
  split
  · exact h1.loadBytes
  · exact h1

theorem State.Formed.loadRow {q : Xfer} {c pd : Nat} {task : Task} {s : State} {r : Nat} {ts : List (Nat × Nat × BitVec 64 × Trans)}
    (h : s.Formed) : (q.loadRow c pd task s r ts).1.Formed := by
  unfold Xfer.loadRow
  dsimp only
  generalize hx : List.foldl _ _ _ = x
  have hf : x.1.Formed := by
    rw [← hx]
    refine .foldlP h fun hq => ?_
    split
    · dsimp only at hq ⊢
      exact hq.load64
    · exact hq
  split
  · exact hf.updCore
  · exact hf

theorem State.Formed.storeRow {q : Xfer} {c slot pd : Nat} {lanes : Word} {k : Core} {task : Task} {s : State} {r : Nat} {ts : List
    (Nat × Nat × BitVec 64 × Trans)} (h : s.Formed) :
    (q.storeRow c slot pd lanes k task s r ts).Formed :=
  h.foldl fun h1 => h1.storeBytes

theorem State.Formed.move {q : Xfer} {x : Ctx} {s : State} {ts : List (Nat × Nat × BitVec 64 × Trans)} (h : s.Formed) :
    (q.move x s ts).1.Formed := by
  unfold Xfer.move
  refine .iteP h.updCore (.iteP (h.foldl fun h => h.storeRow) (h.foldlP fun hq => ?_))
  dsimp only
  exact hq.loadRow

theorem State.Formed.perform {q : Xfer} {x : Ctx} {s : State} {ts : List (Nat × Nat × BitVec 64 × Trans)} (h : s.Formed) :
    (q.perform x s ts).Formed :=
  .start (.guard (.move (h.sampleOlder.guard fun h1 => h1.spSampleOlder)) fun h2 => h2.updCore)

theorem Res.Formed.transfer {x : Ctx} {t : State} {q : Xfer} (h : t.Formed) : (transfer x t q).Formed :=
  .ite .hold (.ite .trap (.ite .trap (.ite (.ok h.perform) (.ite .walk (.ite .trap (.ite .hold (.ok h.perform)))))))

theorem FormedNext.execMatrixTransferComplete {c id : Nat} {s : State} (h : s.Formed) :
    FormedNext (execMatrixTransferComplete c id s) := by
  unfold Machine.execMatrixTransferComplete
  refine .next ?_
  split
  · split
    · exact h.dropFlight.dropFlag.guardNot fun h1 => h1.asyncTrap
    · exact h
  · exact h

/-! ## Records of a save -/

theorem State.Formed.putGranules {s : State} {q : RecAt} {c : Nat} {l : List Byte} (h : s.Formed) : (s.putGranules q c l).Formed :=
  h.updCore

theorem State.Formed.putAccs {s : State} {q : RecAt} {l : List Byte} (h : s.Formed) : (s.putAccs q l).Formed :=
  h.updCore

theorem State.Formed.rearrive {s : State} {q : RecAt} {subs : List SavedSub} {bars : List (Nat × Word × Nat × Nat)} (h : s.Formed) :
    (s.rearrive q subs bars).Formed :=
  h.foldl fun h1 => .ite h1 h1.updTask

theorem State.Formed.putBand {s : State} {q : RecAt} {l : List Byte} (h : s.Formed) : (s.putBand q l).Formed :=
  h.updBand.updCore.rearrive

/-! ## Integer vector forms -/

theorem FormedNext.vec32 {i : Instr} {o : VV} {f : Word → Word → Word} {s : State} (h : s.Formed) : FormedNext (vec32 i o f s) :=
  .issue h (fun h1 => .done h1)

theorem FormedNext.vecAcc {i : Instr} {o : VV} {f : Word → Word → Word → Word} {s : State} (h : s.Formed) : FormedNext (vecAcc i o f s) :=
  .issue h (fun h1 => .done h1)

theorem FormedNext.vec64 {i : Instr} {o : VV} {f : BitVec 64 → BitVec 64 → BitVec 64} {s : State} (h : s.Formed) :
    FormedNext (vec64 i o f s) :=
  .issue h (fun h1 => .done h1)

theorem FormedNext.vecUnary {i : Instr} {o : VU} {f : Word → Word} {s : State} (h : s.Formed) : FormedNext (vecUnary i o f s) :=
  .issue h (fun h1 => .done h1)

theorem FormedNext.vecConst {i : Instr} {d : BitVec 2} {vd : BitVec 7} {srcs : List Src} {f : Ctx → Nat → Word} {s : State}
    (h : s.Formed) :
    FormedNext (vecConst i d vd srcs f s) :=
  .issue h (fun h1 => .done h1)

theorem FormedNext.predOp {i : Instr} {d : BitVec 2} {pd pa pb : BitVec 3} {f : Bool → Bool → Bool} {s : State} (h : s.Formed) :
    FormedNext (predOp i d pd pa pb f s) :=
  .issue h (fun h1 => .done h1)

/-! ## Uniform forms -/

theorem FormedNext.uniOne {i : Instr} {d : BitVec 2} {sd : BitVec 6} {srcs : List Src} {f : Ctx → Word} {s : State} (h : s.Formed) :
    FormedNext (uniOne i d sd srcs f s) :=
  .issue h (fun h1 => .done h1)

theorem FormedNext.uni32 {i : Instr} {o : S3} {f : Word → Word → Word} {s : State} (h : s.Formed) : FormedNext (uni32 i o f s) :=
  .uniOne h

theorem FormedNext.uni64 {i : Instr} {o : S3} {f : BitVec 64 → BitVec 64 → BitVec 64} {s : State} (h : s.Formed) :
    FormedNext (uni64 i o f s) :=
  .issue h (fun h1 => .done h1)

end Sys2Proof.Machine
end

section
/-! PROOFS. Tasks, engines, groups, walkers and the host keep the canonical form (O5). -/

-- The proofs of one text are elaborated one at a time here: many open proofs would each ask for a thread and its stack.
set_option Elab.async false

namespace Sys2Proof.Machine

/-! ## System instructions -/

theorem FormedNext.execPhase {d : BitVec 2} {sn : BitVec 6} {s : State} (h : s.Formed) : FormedNext (execPhase d sn s) :=
  .issue h (fun _ => .ite .trap (.ite .trap (.stay fun h1 => h1.updTask.updEntry.tryPhase)))

theorem State.Formed.ibinv {s : State} {v : BitVec 64} (h : s.Formed) : (s.ibinv v).Formed :=
  h.foldl fun h1 => .ite h1.setCore.dropStale h1

theorem State.Formed.putSys {t : State} {x : Ctx} {n : BitVec 12} {v : BitVec 64} (h : t.Formed) : (t.putSys x n v).Formed := by
  unfold State.putSys
  dsimp only
  split
  · exact h.updBand
  · exact h.updBand
  · exact h.updBand
  · exact h.ibinv
  · exact h.updBand
  · exact h.updBand
  · exact h.updTask
  · exact h

theorem State.Formed.takeRequest {s : State} {c slot code : Nat} (h : s.Formed) : (s.takeRequest c slot code).Formed :=
  .ite h.updBand.endTask h.updBand.enterKeep

theorem State.Formed.returnFrom {s : State} {c slot : Nat} (h : s.Formed) : (s.returnFrom c slot).Formed := by
  unfold State.returnFrom
  dsimp only
  split
  · exact .takeRequest (.checkEnd (.tryPhase (.checkBars (.releaseCalls (.passWaits (.foldl (.foldl (.guardNot (.unpark (.leaveKeep
      (.guard (.ite h.selfInvalidate h) fun h1 => h1.updTask))) fun h2 => h2.updTask) fun h3 => h3.releaseBar) fun h4 =>
      h4.releaseJoin))))))
  · exact .checkEnd (.tryPhase (.checkBars (.releaseCalls (.passWaits (.foldl (.foldl (.guardNot (.unpark (.leaveKeep (.guard (.ite
      h.selfInvalidate h) fun h5 => h5.updTask))) fun h6 => h6.updTask) fun h7 => h7.releaseBar) fun h8 => h8.releaseJoin)))))

theorem Res.Formed.recPages {s : State} {x : Ctx} {a : BitVec 64} {size k : Nat} {r : Res} (e : recPages x s a size k = .error r) :
    r.Formed := by
  unfold Machine.recPages at e
  dsimp only at e
  split at e
  · cases e
    exact .trap
  · split at e
    · cases e
      exact .walk
    · split at e
      · cases e
        exact .trap
      · cases e

theorem FormedNext.execSvc {d : BitVec 2} {c : BitVec 4} {y : BitVec 6} {s : State} (h : s.Formed) : FormedNext (execSvc d c y s) := by
  refine .issue h fun h => ?_
  dsimp only
  split
  · rename_i e
    exact .recPages e
  · exact .ite .hold (.done (.foldl h.sampleOlder fun h => h.storeBytes))

theorem State.Formed.readRecord {s : State} {x : Ctx} {l : List (Nat × Trans)} (h : s.Formed) : (s.readRecord x l).1.Formed := by
  unfold State.readRecord
  refine h.foldlP fun hq => ?_
  split
  · dsimp only at hq ⊢
    exact hq.load64
  · exact hq

theorem State.Formed.putRecord {s : State} {q : RecAt} {c : Nat} {l : List Byte} (h : s.Formed) : (s.putRecord q c l).Formed := by
  unfold State.putRecord
  split
  · exact h.putAccs
  · exact h.putBand
  · exact h.updTask
  · exact h.putGranules

theorem FormedNext.execRsc {d : BitVec 2} {c : BitVec 4} {y : BitVec 6} {s : State} (h : s.Formed) : FormedNext (execRsc d c y s) := by
  refine .issue h fun h => ?_
  dsimp only
  split
  · rename_i e
    exact .recPages e
  · refine .ite .hold ?_
    split
    · rename_i e
      exact .ite .trap (.done (h.sampleOlder.readRecord.left e).putRecord)
    · exact .trap

/-! ## Placement -/

theorem State.Formed.setQueue {s : State} {cl : Nat} {f : List QTask → List QTask} (h : s.Formed) : (s.setQueue cl f).Formed :=
  h.updCluster

theorem State.Formed.enqueue {s : State} {cl : Nat} {q : QTask} (h : s.Formed) : (s.enqueue cl q).Formed :=
  h.setQueue

theorem State.Formed.dequeue {s : State} {gone : QTask → Bool} (h : s.Formed) : (s.dequeue gone).Formed := by
  unfold State.dequeue
  exact h.same

theorem State.Formed.withdraw {s : State} {l : Nat} (h : s.Formed) : (s.withdraw l).Formed :=
  h.dequeue

theorem State.Formed.enterAll {s : State} {c t code : Nat} (h : s.Formed) : (s.enterAll c t code).Formed :=
  h.foldl fun h1 => h1.takeRequest

theorem State.Formed.placeTask {s : State} {q : QTask} {c n : Nat} {pipes : Option (List Nat)} (h : s.Formed) :
    (s.placeTask q c n pipes).Formed := by
  unfold State.placeTask
  dsimp only
  split
  · exact h
  · split
    · exact h.setCore.selfInvalidate.guard fun h1 => h1.enterAll
    · exact h

theorem State.Formed.requestPre {s : State} {c t : Nat} {area : BitVec 64} {code : Nat} (h : s.Formed) :
    (s.requestPre c t area code).Formed :=
  .ite h (h.updTask.foldl fun h1 => h1.updBand)

theorem FormedNext.execPreemptionRequest {c slot : Nat} {area : BitVec 64} {s : State} (h : s.Formed) :
    FormedNext (execPreemptionRequest c slot area s) := by
  unfold Machine.execPreemptionRequest
  refine .next ?_
  split
  · exact h.requestPre
  · exact h

/-! ## The end of a task -/

theorem State.Formed.endGraph {s : State} {q status num : Nat} {word : Word} (h : s.Formed) : (s.endGraph q status num word).Formed := by
  unfold State.endGraph
  split
  · exact h
  · refine h.same.guardNot fun h1 => ?_
    split
    · rename_i e1
      exact h1.askWrite.left e1
    · rename_i e2
      exact (h1.askWrite.left e2).same

theorem State.Formed.closeLaunch {s : State} {l : Nat} (h : s.Formed) : (s.closeLaunch l).Formed := by
  unfold State.closeLaunch
  exact h.clearMarks.same

theorem State.Formed.checkLaunch {s : State} {l : Nat} (h : s.Formed) : (s.checkLaunch l).Formed := by
  unfold State.checkLaunch
  split
  · exact h
  · refine .ite (.ite h ?_) (.ite h h.closeLaunch.same)
    dsimp only
    split <;> exact h.closeLaunch.endGraph

theorem State.Formed.report {s : State} {l n : Nat} {w : Word} (h : s.Formed) : (s.report l n w).Formed :=
  .checkLaunch (h.updLaunch.guard fun h1 => h1.withdraw)

theorem State.Formed.freeTask {s : State} {c t : Nat} (h : s.Formed) : (s.freeTask c t).Formed :=
  h.updCore

theorem State.Formed.retireTask {s : State} {c t kind : Nat} (h : s.Formed) : (s.retireTask c t kind).Formed := by
  unfold State.retireTask
  exact .report (.ite (.same (.freeTask (h.writeBack.guardNot fun h1 => h1.leaveGroups))) (.dequeue (.freeTask (h.writeBack.guardNot fun
      h2 => h2.leaveGroups))))

theorem FormedNext.execTaskRetire {c t : Nat} {s : State} (h : s.Formed) : FormedNext (execTaskRetire c t s) :=
  .next (.ite h.retireTask h)

theorem State.Formed.readTcb {s : State} {pd : Nat} {va : BitVec 64} (h : s.Formed) : (s.readTcb pd va).1.Formed := by
  unfold State.readTcb
  refine .iteP h ?_
  split
  · rename_i e1
    exact h.translateFor.left e1
  · rename_i e2
    refine .iteP (h.translateFor.left e2) ?_
    split
    · rename_i e3
      exact (h.translateFor.left e2).askRead.left e3
    · rename_i e4
      exact (h.translateFor.left e2).askRead.left e4

theorem State.Formed.startSuccessor {s : State} {c t : Nat} {l : List Byte} (h : s.Formed) : (s.startSuccessor c t l).Formed :=
  .report (h.updCore.charge.selfInvalidate.guard fun h1 => h1.enterAll)

theorem FormedNext.execSuccessorStart {c t : Nat} {s : State} (h : s.Formed) : FormedNext (execSuccessorStart c t s) := by
  unfold Machine.execSuccessorStart
  refine .next (.ite h ?_)
  split
  · rename_i e1
    exact (h.readTcb.left e1).retireTask
  · rename_i e2
    exact .ite (h.readTcb.left e2).retireTask (.ite (h.readTcb.left e2).countAt (.ite (h.readTcb.left e2)
        (h.readTcb.left e2).writeBack.startSuccessor))

theorem State.Formed.dropStores {s : State} {c : Nat} {who : Nat → Bool} (h : s.Formed) : (s.dropStores c who).Formed :=
  .foldl (h.foldl fun h1 => h1.updCore.retire) fun h2 => h2.pwForget

theorem State.Formed.killDomain {s : State} {pd how : Nat} (h : s.Formed) : (s.killDomain pd how).Formed := by
  unfold State.killDomain
  exact .foldl (.foldl (.same (.same (.dequeue (h.foldl fun h1 => h1.dropStores.freeTask)))) fun h2 => h2.closeLaunch) fun h3 =>
      h3.endGraph

theorem FormedNext.execDomeUncorrectableError {line : Nat} {s : State} (h : s.Formed) :
    FormedNext (execDomeUncorrectableError line s) := by
  unfold Machine.execDomeUncorrectableError
  refine .next ?_
  split
  · exact h
  · exact .ite h.dropReplicas.same.killDomain h.countPage.same

/-! ## Preemption -/

theorem State.Formed.withdrawPhase {s : State} {c t : Nat} (h : s.Formed) : (s.withdrawPhase c t).Formed :=
  h.updTask.updCore

theorem State.Formed.stopAll {s : State} {c t : Nat} (h : s.Formed) : (s.stopAll c t).Formed := by
  unfold State.stopAll
  refine h.foldl fun h1 => ?_
  split
  · exact .ite h1.stopMatrix h1
  · exact h1

theorem FormedNext.execPreemptionEntry {c t : Nat} {s : State} (h : s.Formed) : FormedNext (execPreemptionEntry c t s) := by
  unfold Machine.execPreemptionEntry
  refine .next ?_
  dsimp only
  split
  · exact h
  · exact .ite h (h.stopAll.withdrawPhase.foldl fun h1 => .ite h1.takeRequest h1)

theorem State.Formed.switchTask {s s' : State} {c t n : Nat} {v : Variant} {sw : Switch} (h : s.Formed)
    (e : s.switchTask c t n v sw = some s') :
    s'.Formed := by
  obtain ⟨k, -, rfl⟩ := Option.map_eq_some_iff.1 e
  exact .foldl (.countAt (.setCore (.foldl h fun h => h.commitAll))) fun h => h.gather

theorem FormedNext.execVariantSwitch {c t : Nat} {s : State} (h : s.Formed) : FormedNext (execVariantSwitch c t s) := by
  unfold Machine.execVariantSwitch
  refine .next ?_
  dsimp only
  split
  · exact h
  · split
    · exact h
    · refine .ite h ?_
      split
      · split
        · rename_i e
          exact h.switchTask e
        · exact h.updTask.releasePhase
      · exact h

theorem FormedNext.execPhaseAdmissionTimeout {c t : Nat} {s : State} (h : s.Formed) : FormedNext (execPhaseAdmissionTimeout c t s) := by
  unfold Machine.execPhaseAdmissionTimeout
  refine .next ?_
  dsimp only
  split
  · exact h
  · refine .ite h (h.withdrawPhase.foldl fun h1 => .ite h1 ?_)
    split
    · exact h1
    · exact h1.takeTrap

theorem FormedNext.execPlace {cl : Nat} {s : State} (h : s.Formed) : FormedNext (execPlace cl s) := by
  unfold Machine.execPlace
  refine .next ?_
  split
  · exact h
  · dsimp only
    split
    · refine .ite (.requestPre (h.updCluster.placeTask.guardNot fun h1 => h1.same)) ?_
      split
      · exact .requestPre (h.updCluster.placeTask.guardNot fun h2 => h2.same)
      · exact .killDomain (h.updCluster.placeTask.guardNot fun h3 => h3.same)
    · exact h.updCluster.placeTask.guardNot fun h4 => h4.same

theorem FormedNext.execGenerationSweepEnd {c : Nat} {s : State} (h : s.Formed) : FormedNext (execGenerationSweepEnd c s) :=
  .next (.ite h h.updCore)

/-! ## Dispatchers and cluster schedulers -/

theorem State.Formed.readArea {s : State} {pd : Nat} {area : BitVec 64} (h : s.Formed) : (s.readArea pd area).1.Formed := by
  unfold State.readArea
  split
  · rename_i e1
    exact h.askRead.left e1
  · rename_i e2
    refine .iteP (h.askRead.left e2) ?_
    split
    · rename_i e3
      exact (h.askRead.left e2).askRead.left e3
    · rename_i e4
      exact (h.askRead.left e2).askRead.left e4

theorem State.Formed.beginPlacing {s : State} {q : QTask} {c v : Nat} {pipes : Option (List Nat)} (h : s.Formed) :
    (s.beginPlacing q c v pipes).Formed :=
  h.dequeue.updCluster

theorem State.Formed.failAdmit {s : State} {cl : Nat} {q : QTask} (h : s.Formed) : (s.failAdmit cl q).Formed :=
  h.updCluster.guard fun h1 => h1.count

theorem State.Formed.unfit {s : State} {cl : Nat} {q : QTask} (h : s.Formed) : (s.unfit cl q).Formed :=
  .ite h h.updCluster

theorem State.Formed.tryPlace {s : State} {cl : Nat} {q : QTask} {cores : List Nat} {rec : Option (Nat × Option (List Nat))}
    (h : s.Formed) :
    (s.tryPlace cl q cores rec).1.Formed := by
  unfold State.tryPlace
  dsimp only
  split
  · exact h.unfit
  · exact .iteP h.charge.beginPlacing h.failAdmit

theorem State.Formed.tryGroup {s : State} {cl gid : Nat} {q : QTask} (h : s.Formed) : (s.tryGroup cl gid q).1.Formed := by
  unfold State.tryGroup
  dsimp only
  split
  · exact .iteP (h.foldl fun h1 => h1.charge.beginPlacing) h.failAdmit
  · exact h.unfit

theorem State.Formed.loseSaved {s : State} {l n : Nat} (h : s.Formed) : (s.loseSaved l n).Formed := by
  unfold State.loseSaved
  exact h.same.report

theorem State.Formed.attempt {cl : Nat} {l : List QTask} : ∀ {s : State}, s.Formed → (s.attempt cl l).Formed := by
  induction l with
  | nil => exact fun h => h
  | cons q r ih =>
    intro s h
    unfold State.attempt
    refine .guardNot ?_ ih
    refine .iteP h ?_
    split
    · split
      · rename_i e
        exact (h.readArea.left e).dequeue.loseSaved
      · rename_i e
        exact (h.readArea.left e).tryPlace
    · exact h.tryGroup
    · exact h.tryPlace

theorem FormedNext.execPlacementAttempt {cl : Nat} {s : State} (h : s.Formed) : FormedNext (execPlacementAttempt cl s) :=
  .next (.ite h.attempt h)

theorem FormedNext.execQueueHeadAgeExpiry {cl : Nat} {s : State} (h : s.Formed) : FormedNext (execQueueHeadAgeExpiry cl s) := by
  unfold Machine.execQueueHeadAgeExpiry
  refine .next ?_
  split
  · exact .ite h.updCluster h
  · exact h

theorem FormedNext.execQueuedAdmissionTimeout {cl : Nat} {s : State} (h : s.Formed) : FormedNext (execQueuedAdmissionTimeout cl s) := by
  unfold Machine.execQueuedAdmissionTimeout
  refine .next ?_
  split
  · exact h.updLaunch.withdraw.checkLaunch
  · exact h

theorem FormedNext.execStealRequest {cl : Nat} {s : State} (h : s.Formed) : FormedNext (execStealRequest cl s) := by
  unfold Machine.execStealRequest
  refine .next ?_
  dsimp only
  split
  · exact h
  · exact .ite h (.ite h (h.setQueue.foldl fun h1 => h1.enqueue))

theorem FormedNext.execTimeSliceExpiry {c slot : Nat} {s : State} (h : s.Formed) : FormedNext (execTimeSliceExpiry c slot s) := by
  unfold Machine.execTimeSliceExpiry
  refine .next ?_
  split
  · exact h
  · exact .ite h h.requestPre.enqueue

theorem State.Formed.applyPower {s : State} (h : s.Formed) : (s.applyPower).Formed := by
  unfold State.applyPower
  exact h.same

theorem FormedNext.execControlInterval {s : State} (h : s.Formed) : FormedNext (execControlInterval s) := by
  have hp : ({ s with usec := s.usec + 1 }.applyPower).Formed := .applyPower h
  unfold Machine.execControlInterval
  exact .next (.foldl (.same (s := { s with usec := s.usec + 1 }.applyPower) hp) fun h => h.tryPhase)

/-! ## Events of the caches and of translation -/

theorem FormedNext.execRegistration {c : Nat} {s : State} (h : s.Formed) : FormedNext (execRegistration c s) := by
  unfold Machine.execRegistration
  refine .next ?_
  dsimp only
  split
  · exact h
  · exact h.setCore.register

theorem FormedNext.execDomeRequest {c : Nat} {s : State} (h : s.Formed) : FormedNext (execDomeRequest c s) := by
  unfold Machine.execDomeRequest
  refine .next ?_
  dsimp only
  split
  · exact h
  · exact h.setCore.performRequest

theorem FormedNext.execEyeMarginMeasure {stack ch lane margin : Nat} {s : State} (h : s.Formed) :
    FormedNext (execEyeMarginMeasure stack ch lane margin s) := by
  unfold Machine.execEyeMarginMeasure
  exact .next h.same

theorem FormedNext.execLaneRepair {stack ch lane : Nat} {s : State} (h : s.Formed) : FormedNext (execLaneRepair stack ch lane s) := by
  unfold Machine.execLaneRepair
  exact .next h.same

theorem State.Formed.unpost {s : State} (h : s.Formed) : (s.unpost).Formed := by
  unfold State.unpost
  exact h.same

theorem FormedNext.execCounterDecay {port : Nat} {s : State} (h : s.Formed) : FormedNext (execCounterDecay port s) := by
  unfold Machine.execCounterDecay
  exact .next (.ite h h.same.unpost)

theorem FormedNext.execFaultRecordPost {pd : Nat} {s : State} (h : s.Formed) : FormedNext (execFaultRecordPost pd s) := by
  unfold Machine.execFaultRecordPost
  refine .next ?_
  split
  · exact h
  · split
    · rename_i e
      exact (h.postRecord e).same
    · exact h

theorem FormedNext.execBarrierReleaseStep {l gid : Nat} {s : State} (h : s.Formed) : FormedNext (execBarrierReleaseStep l gid s) :=
  .next (.ite h h.updLaunch.releaseClusters)

/-! ## Commands of the engines -/

theorem State.Formed.noteCmd {s : State} {g : Eng} {pos : Nat} {r : Stop} (h : s.Formed) : (s.noteCmd g pos r).Formed :=
  h.updTask

theorem FormedNext.performCmd {g : Eng} {ops : List Nat} {f : State → CmdRun → State × Stop × Nat} {s : State} (h : s.Formed) (hf : ∀
    {a1 : State} {a2 : CmdRun}, a1.Formed → (f a1 a2).1.Formed) :
    FormedNext (performCmd g ops f s) := by
  unfold Machine.performCmd
  refine .next ?_
  split
  · exact h
  · exact .ite h (.noteCmd (hf h))

theorem State.Formed.copyDecode {s : State} {g : Eng} {m : Cmd} {src dst : Side} {ty n : Nat} (h : s.Formed) :
    (s.copyDecode g m src dst ty n).1.Formed := by
  unfold State.copyDecode
  refine .iteP h ?_
  split
  · rename_i e1
    exact .iteP (h.translateFor.left e1) (h.translateFor.left e1).engRecord
  · rename_i e2
    refine .iteP (h.translateFor.left e2) ?_
    dsimp only
    split
    · rename_i e3
      exact ((h.translateFor.left e2).rangeFault.left e3).engRecord
    · rename_i e4
      refine .iteP ((h.translateFor.left e2).rangeFault.left e4) ?_
      split
      · rename_i e5
        exact (((h.translateFor.left e2).rangeFault.left e4).sideRead.left e5).sideWrite
      · rename_i e6
        exact (((h.translateFor.left e2).rangeFault.left e4).sideRead.left e6)

theorem FormedNext.execCopy {c t q : Nat} {s : State} (h : s.Formed) : FormedNext (execCopy c t q s) := by
  unfold Machine.execCopy
  refine .performCmd h fun h1 => ?_
  exact .iteP h1.copyDecode h1.copyBytes

theorem FormedNext.execCopy2d {c t q : Nat} {s : State} (h : s.Formed) : FormedNext (execCopy2d c t q s) := by
  unfold Machine.execCopy2d
  refine .performCmd h fun h1 => ?_
  exact .iteP h1 (h1.foldlP fun h2 => .iteP h2 h2.copyBytes)

theorem State.Formed.indexOne {s : State} {g : Eng} {m : Cmd} {gather : Bool} {i : Nat} (h : s.Formed) :
    (s.indexOne g m gather i).1.Formed := by
  unfold State.indexOne
  dsimp only
  split
  · rename_i e1
    exact (h.sideFault.left e1).engRecord
  · rename_i e2
    split
    · rename_i e3
      refine .iteP ((h.sideFault.left e2).sideRead.left e3) ?_
      split
      · rename_i e4
        exact (((h.sideFault.left e2).sideRead.left e3).sideFault.left e4).engRecord
      · rename_i e5
        split
        · rename_i e6
          exact ((((h.sideFault.left e2).sideRead.left e3).sideFault.left e5).sideFault.left e6).engRecord
        · rename_i e7
          exact ((((h.sideFault.left e2).sideRead.left e3).sideFault.left e5).sideFault.left e7).copyBytes
    · rename_i e8
      exact (h.sideFault.left e2).sideRead.left e8

theorem State.Formed.indexAll {s : State} {g : Eng} {r : CmdRun} {gather : Bool} (h : s.Formed) : (s.indexAll g r gather).1.Formed := by
  unfold State.indexAll
  refine .iteP h (h.foldlP fun h1 => .iteP h1 ?_)
  split
  · rename_i e1
    exact h1.indexOne.left e1
  · rename_i e2
    exact h1.indexOne.left e2

theorem FormedNext.execGather {c t q : Nat} {s : State} (h : s.Formed) : FormedNext (execGather c t q s) := by
  unfold Machine.execGather
  refine .performCmd h fun h1 => ?_
  exact h1.indexAll

theorem FormedNext.execScatter {c t q : Nat} {s : State} (h : s.Formed) : FormedNext (execScatter c t q s) := by
  unfold Machine.execScatter
  refine .performCmd h fun h1 => ?_
  exact h1.indexAll

theorem FormedNext.execMulticast {c t q : Nat} {s : State} (h : s.Formed) : FormedNext (execMulticast c t q s) := by
  unfold Machine.execMulticast
  refine .performCmd h fun h1 => ?_
  refine .iteP h1 ?_
  split
  · rename_i e1
    exact (h1.sideFault.left e1).engRecord
  · rename_i e2
    exact (h1.sideFault.left e2).sideRead.foldl fun h2 => h2.sideWrite

theorem State.Formed.noteParts {s : State} {ps : List Part} {r : Cmd → Stop} (h : s.Formed) : (s.noteParts ps r).Formed :=
  h.foldl fun h1 => h1.noteCmd

theorem State.Formed.partsFault {s : State} {ps : List Part} {n : Nat} (h : s.Formed) : (s.partsFault ps n).1.Formed := by
  unfold State.partsFault
  refine h.foldlP fun h1 => .iteP h1 ?_
  split
  · rename_i e1
    exact (h1.sideFault.left e1).engRecord
  · rename_i e2
    split
    · rename_i e3
      exact ((h1.sideFault.left e2).sideFault.left e3).engRecord
    · rename_i e4
      exact (h1.sideFault.left e2).sideFault.left e4

theorem State.Formed.runCollective {s : State} {ps : List Part} (h : s.Formed) : (s.runCollective ps).Formed := by
  unfold State.runCollective
  cases ps with
  | nil => exact h
  | cons p0 r =>
    refine .ite h.noteParts (.ite h.noteParts ?_)
    split
    · rename_i e
      exact h.partsFault.left e
    · rename_i e
      dsimp only
      generalize hx : List.foldl _ _ _ = x
      have hf : x.1.Formed := by
        rw [← hx]
        exact (h.partsFault.left e).foldlP fun h => h.sideRead
      exact .ite hf.noteParts (.foldl hf fun h => h.sideWrite.noteCmd)

theorem FormedNext.execCollectiveReduce {c t q : Nat} {s : State} (h : s.Formed) : FormedNext (execCollectiveReduce c t q s) := by
  unfold Machine.execCollectiveReduce
  refine .next ?_
  dsimp only
  split
  · exact h
  · exact .ite h (.ite h.noteParts (.ite h h.runCollective))

/-! ## Group barriers and collectives -/

theorem FormedNext.crossLane {i : Instr} {o : GV} {d : BitVec 2} {vs : List Nat} {b : Ctx → Bring} {result : Ctx → XOp → List
    (Loc × Word) × Fl} {s : State} (h : s.Formed) :
    FormedNext (crossLane i o d vs b result s) :=
  .issue h (fun h1 => .ite .trap (.ite (.ok h1) (.ite .trap (.ite .trap (.ite .trap (.ite (.ok (h1.updBand.writeLater.guardNot fun h2 =>
      h2.passBlock)) (.stay fun h3 => h3.updBand.updEntry.rebalance)))))))

theorem FormedNext.execBcast {ty : MTy} {o : GV} {s : State} (h : s.Formed) : FormedNext (execBcast ty o s) := by
  unfold Machine.execBcast
  exact .crossLane h

/-! ## Graph walkers -/

theorem FormedNext.execWalkerTakeEntry {spire : Nat} {s : State} (h : s.Formed) : FormedNext (execWalkerTakeEntry spire s) := by
  unfold Machine.execWalkerTakeEntry
  refine .next ?_
  split
  · exact h
  · dsimp only
    split
    · rename_i e1
      exact (h.askRead.left e1).same
    · rename_i e2
      exact .ite (h.askRead.left e2).same (h.askRead.left e2).same

theorem State.Formed.readNode {s : State} {q : Nat} {g : Graph} (h : s.Formed) : (s.readNode q g).1.Formed := by
  unfold State.readNode
  refine .iteP h ?_
  split
  · rename_i e1
    exact h.askRead.left e1
  · rename_i e2
    exact h.askRead.left e2

theorem State.Formed.updGraph {s : State} {q : Nat} {f : Graph → Graph} (h : s.Formed) : (s.updGraph q f).Formed := by
  unfold State.updGraph
  exact h.same

theorem State.Formed.goNode {s : State} {q n : Nat} (h : s.Formed) : (s.goNode q n).Formed :=
  h.updGraph

theorem FormedNext.atNode {q ty : Nat} {ok : List Byte → Bool} {f : Graph → List Byte → State → State} {s : State} (h : s.Formed)
    (hf : ∀ {a1 : Graph} {a2 : List Byte} {a3 : State}, a3.Formed → (f a1 a2 a3).Formed) :
    FormedNext (atNode q ty ok f s) := by
  unfold Machine.atNode
  refine .next ?_
  split
  · exact h
  · refine .ite h ?_
    split
    · rename_i e1
      exact h
    · rename_i e2
      exact .ite h (.ite (h.readNode.left e2).endGraph (hf (h.readNode.left e2)))

theorem FormedNext.execMalformedNode {q : Nat} {s : State} (h : s.Formed) : FormedNext (execMalformedNode q s) := by
  unfold Machine.execMalformedNode
  refine .next ?_
  split
  · exact h
  · refine .ite h ?_
    split
    · rename_i e1
      exact (h.readNode.left e1).endGraph
    · rename_i e2
      exact .ite (h.readNode.left e2).endGraph h

theorem FormedNext.execCondNode {q : Nat} {s : State} (h : s.Formed) : FormedNext (execCondNode q s) := by
  unfold Machine.execCondNode
  refine .atNode h fun h1 => ?_
  exact h1.goNode

theorem FormedNext.execWhileNode {q : Nat} {s : State} (h : s.Formed) : FormedNext (execWhileNode q s) := by
  unfold Machine.execWhileNode
  refine .atNode h fun h1 => ?_
  exact .ite h1.updGraph.goNode (.ite h1.endGraph h1.updGraph.goNode)

theorem FormedNext.execEndNode {q : Nat} {s : State} (h : s.Formed) : FormedNext (execEndNode q s) := by
  unfold Machine.execEndNode
  refine .atNode h fun h1 => ?_
  exact h1.endGraph

theorem State.Formed.nodeMiss {s : State} {q : Nat} {g : Graph} {m : Miss} {write : Bool} (h : s.Formed) :
    (s.nodeMiss q g m write).Formed := by
  unfold State.nodeMiss
  split
  · exact h.endGraph
  · exact h.raiseRecord.updGraph

theorem FormedNext.execCopyNode {q : Nat} {s : State} (h : s.Formed) : FormedNext (execCopyNode q s) := by
  unfold Machine.execCopyNode
  refine .atNode h fun h1 => ?_
  dsimp only
  split
  · rename_i e1
    split
    · rename_i e2
      split
      · exact ((h1.rangeFault.rangeFault.rangeReadAs.left e1).rangeWriteAs.left e2).goNode
      · exact ((h1.rangeFault.rangeFault.rangeReadAs.left e1).rangeWriteAs.left e2).updGraph.nodeMiss
    · rename_i e3
      exact ((h1.rangeFault.rangeFault.rangeReadAs.left e1).rangeWriteAs.left e3).endGraph
  · rename_i e4
    exact (h1.rangeFault.rangeFault.rangeReadAs.left e4).endGraph

theorem State.Formed.pollWord {s : State} {q : Nat} {g : Graph} {l : List Byte} (h : s.Formed) : (s.pollWord q g l).Formed := by
  unfold State.pollWord
  split
  · rename_i e1
    exact (h.askRead.left e1).nodeMiss
  · rename_i e2
    exact .ite (h.askRead.left e2).goNode (h.askRead.left e2)

theorem FormedNext.execWaitqNode {q : Nat} {s : State} (h : s.Formed) : FormedNext (execWaitqNode q s) := by
  unfold Machine.execWaitqNode
  refine .atNode h fun h1 => ?_
  exact .ite h1 h1.updGraph.pollWord

theorem FormedNext.execWaitqPoll {q : Nat} {s : State} (h : s.Formed) : FormedNext (execWaitqPoll q s) := by
  unfold Machine.execWaitqPoll
  refine .atNode h fun h1 => ?_
  exact .ite h1 h1.pollWord

theorem FormedNext.execWaitqTimeout {q : Nat} {s : State} (h : s.Formed) : FormedNext (execWaitqTimeout q s) := by
  unfold Machine.execWaitqTimeout
  refine .atNode h fun h1 => ?_
  exact .ite h1.endGraph h1

theorem FormedNext.execSignalNode {q : Nat} {s : State} (h : s.Formed) : FormedNext (execSignalNode q s) := by
  refine .atNode h fun h => ?_
  dsimp only
  refine .ite ?_ ?_
  · split
    · rename_i e
      exact (h.askWrite.left e).goNode
    · rename_i e
      exact (h.askWrite.left e).nodeMiss
  · split
    · rename_i e
      exact (h.askRead.left e).nodeMiss
    · rename_i e
      split
      · rename_i f
        exact ((h.askRead.left e).askWrite.left f).goNode
      · rename_i f
        exact ((h.askRead.left e).askWrite.left f).nodeMiss

theorem State.Formed.distribute {s : State} {id : Nat} {x : Launch} (h : s.Formed) : (s.distribute id x).Formed :=
  h.foldl fun h1 => h1.enqueue

theorem FormedNext.execKernelNode {q : Nat} {s : State} (h : s.Formed) : FormedNext (execKernelNode q s) := by
  unfold Machine.execKernelNode
  refine .atNode h fun h1 => ?_
  split
  · exact h1.endGraph
  · exact .ite h1.endGraph h1.same.updGraph.distribute.checkLaunch

/-! ## What reaches the module over its connections -/

theorem State.Formed.wakeUp {s : State} (h : s.Formed) : (s.wakeUp).Formed := by
  unfold State.wakeUp
  exact .ite h.same h

theorem State.Formed.putReg {s t : State} {k : RegKind} {r i : Nat} {bs : List Byte} (h : s.Formed) (e : s.putReg k r i bs = some t) :
    t.Formed := by
  cases k with
  | identity =>
    cases e
    exact h
  | queue =>
    cases e
    exact h.same.guard fun h => h.wakeUp
  | buffer =>
    simp only [State.putReg] at e
    split at e
    · cases e
      exact h.same
    · cases e
  | control =>
    cases e
    exact h.same.guard fun h => h.wakeUp
  | domain | route | command =>
    cases e
    exact h.same

theorem State.Formed.regWrite {s t : State} {o : Nat} {bs : List Byte} (h : s.Formed) (e : s.regWrite o bs = some t) : t.Formed := by
  unfold State.regWrite at e
  split at e
  · split at e
    · cases e
      exact h
    · cases e
  · split at e
    · cases e
    · refine List.foldlRecOn (motive := fun a : Option State => ∀ t, a = some t → t.Formed) _ _ ?_ ?_ t e
      · rintro _ ⟨⟩
        exact h
      · intro a ha p _ t ht
        obtain ⟨u, hu, hp⟩ := Option.bind_eq_some_iff.1 ht
        exact (ha u hu).putReg hp

theorem State.Formed.send {s : State} {x : Out} (h : s.Formed) : (s.send x).Formed := by
  unfold State.send
  exact h.same

theorem State.Formed.connRegWrite {s : State} {c pa : Nat} {bs : List Byte} (h : s.Formed) : (s.connRegWrite c pa bs).Formed := by
  unfold State.connRegWrite
  refine h.send.guardNot fun h1 => ?_
  split
  · rename_i e
    exact (h.regWrite e).send
  · exact h1

theorem FormedNext.execRdmaWrite {c : Nat} {va : BitVec 64} {bs : List Byte} {s : State} (h : s.Formed) :
    FormedNext (execRdmaWrite c va bs s) := by
  unfold Machine.execRdmaWrite
  refine .next (.ite h.send (.ite h.wakeUp.connRegWrite ?_))
  split
  · rename_i e1
    exact (h.wakeUp.askWrite.left e1).send
  · rename_i e2
    exact (h.wakeUp.askWrite.left e2).send

theorem FormedNext.execRdmaRead {c : Nat} {va : BitVec 64} {n : Nat} {s : State} (h : s.Formed) : FormedNext (execRdmaRead c va n s) := by
  unfold Machine.execRdmaRead
  refine .next (.ite h.send (.ite (.ite h.wakeUp.send h.wakeUp.send) ?_))
  split
  · rename_i e1
    exact (h.wakeUp.askRead.left e1).send
  · rename_i e2
    exact (h.wakeUp.askRead.left e2).send

theorem FormedNext.execBufferTableWrite {c i : Nat} {x : BitVec 256} {s : State} (h : s.Formed) :
    FormedNext (execBufferTableWrite c i x s) := by
  unfold Machine.execBufferTableWrite
  exact .next (.ite h.same.send h.send)

theorem FormedNext.execWqErrClear {c q : Nat} {s : State} (h : s.Formed) : FormedNext (execWqErrClear c q s) := by
  unfold Machine.execWqErrClear
  exact .next (.ite h.same.send h.send)

theorem FormedNext.execTransportConnection {c endpoint pd key : Nat} {s : State} (h : s.Formed) :
    FormedNext (execTransportConnection c endpoint pd key s) := by
  unfold Machine.execTransportConnection
  exact .next h.same

/-! ## Objects -/

theorem State.Formed.takePool {s : State} {units : Nat} (h : s.Formed) : (s.takePool units).1.Formed := by
  unfold State.takePool
  exact h.same

theorem State.Formed.writePhys {s : State} {pa : Nat} {bs : List Byte} (h : s.Formed) : (s.writePhys pa bs).Formed :=
  h.fill.recall.putLine

theorem State.Formed.putLeaf {va : BitVec 64} {leaf n level : Nat} :
    ∀ {s : State} {table : Nat}, s.Formed → (s.putLeaf va leaf n level table).Formed := by
  induction level with
  | zero =>
    intro s table h
    unfold State.putLeaf
    exact .ite h.writePhys h
  | succ l ih =>
    intro s table h
    have hr : ∀ a, (s.readPhys a 16).1.Formed := fun _ => h.readPhys
    unfold State.putLeaf
    exact .ite h.writePhys (.ite (ih (hr _)) (ih (.writePhys (hr _).takePool)))

theorem State.Formed.mapRegion {s : State} {pd va span : Nat} {a : Option Attr} {w : Bool} {buf : Nat} (h : s.Formed) :
    (s.mapRegion pd va span a w buf).Formed :=
  h.foldl fun h1 => h1.putLeaf

theorem State.Formed.fillBuffer {s : State} {pd buf : Nat} {bs : List Byte} (h : s.Formed) : (s.fillBuffer pd buf bs).Formed :=
  h.foldl fun h1 => h1.fill.recall.putLine

theorem State.Formed.newBuffer {s : State} {pd units : Nat} {key : Option Nat} {g : Option PwGeom} {bs : List Byte} {p : State × Nat}
    (h : s.Formed) (e : s.newBuffer pd key g units bs = some p) : p.1.Formed := by
  obtain ⟨i, -, rfl⟩ := Option.map_eq_some_iff.1 e
  exact h.takePool.same.fillBuffer

theorem State.Formed.placeRegion {s : State} {pd : Nat} {key : Option Nat} {w : Bool} {x : Placed} {p : State × Nat} (h : s.Formed)
    (e : s.placeRegion pd key w x = some p) : p.1.Formed := by
  obtain ⟨r, hr, rfl⟩ := Option.map_eq_some_iff.1 e
  exact (h.newBuffer hr).mapRegion

/-- The regions of an object, placed one after another. -/
theorem State.Formed.placeRegions {s : State} {pd : Nat} {key : Option Nat} {w : Bool} {l : List Placed} {p : State × List Nat}
    (h : s.Formed)
    (e : l.foldl (fun (r : Option (State × List Nat)) x => r.bind fun r => (r.1.placeRegion pd key w x).map fun q => (q.1, r.2 ++ [q.2]))
      (some (s, [])) = some p) : p.1.Formed := by
  refine List.foldlRecOn (motive := fun a : Option (State × List Nat) => ∀ p, a = some p → p.1.Formed) l _ ?_ ?_ p e
  · rintro _ ⟨⟩
    exact h
  · intro a ha x _ p hp
    obtain ⟨u, hu, hm⟩ := Option.bind_eq_some_iff.1 hp
    obtain ⟨q, hq, rfl⟩ := Option.map_eq_some_iff.1 hm
    exact (ha u hu).placeRegion hq

theorem State.Formed.loadObject {s : State} {a : LoadArgs} {o : List Byte} {p : State × Nat} (h : s.Formed) (e : s.loadObject a o =
    .ok p) :
    p.1.Formed := by
  unfold State.loadObject at e
  dsimp only at e
  split at e
  · cases e
  split at e
  · cases e
  split at e
  · cases e
  split at e
  · cases e
  split at e
  · cases e
  rename_i t bufs hb
  cases e
  have ht : t.Formed := by
    obtain ⟨r, hr, hw⟩ := Option.bind_eq_some_iff.1 hb
    split at hw
    · cases hw
      exact h.placeRegions hr
    · obtain ⟨q, hq, hw⟩ := Option.map_eq_some_iff.1 hw
      cases hw
      exact (h.placeRegions hr).newBuffer hq
  exact ht.same

theorem State.Formed.unloadObject {s : State} {o : Nat} (h : s.Formed) : (s.unloadObject o).Formed := by
  unfold State.unloadObject
  refine .same (s := List.foldl _ s _) (h.foldl fun h => ?_)
  dsimp only
  split
  · rename_i e
    exact (h.walk.left e).putLeaf
  · rename_i e
    exact h.walk.left e

end Sys2Proof.Machine
end

section
/-! PROOFS. Host commands, ingest, management and power keep the canonical form (O5). -/

-- The proofs of one text are elaborated one at a time here: many open proofs would each ask for a thread and its stack.
set_option Elab.async false

namespace Sys2Proof.Machine

/-! ## Host commands -/

theorem State.Formed.cmdDone {s : State} {l : List Byte} {status result : Nat} (h : s.Formed) : (s.cmdDone l status result).Formed := by
  unfold State.cmdDone
  exact h.askWrite.same

theorem FormedNext.hostCommand {meant : Nat → Bool} {f : List Byte → State → State × Option (Nat × Nat)} {s : State} (h : s.Formed)
    (hf : ∀ {a1 : List Byte} {a2 : State}, a2.Formed → (f a1 a2).1.Formed) :
    FormedNext (hostCommand meant f s) := by
  unfold Machine.hostCommand
  refine .next ?_
  split
  · exact h
  · refine .ite h.same (.ite h (.ite h.cmdDone ?_))
    split
    · rename_i e1
      exact State.Formed.left (hf h) e1
    · rename_i e2
      exact (State.Formed.left (hf h) e2).cmdDone

theorem FormedNext.execHostCommandUnknownOpcode {s : State} (h : s.Formed) : FormedNext (execHostCommandUnknownOpcode s) := by
  unfold Machine.execHostCommandUnknownOpcode
  refine .hostCommand h fun h1 => ?_
  exact h1

theorem State.Formed.dropPages {s : State} {pd va n : Nat} (h : s.Formed) : (s.dropPages pd va n).Formed := by
  unfold State.dropPages
  exact h.same

theorem FormedNext.execTlbinv {s : State} (h : s.Formed) : FormedNext (execTlbinv s) := by
  unfold Machine.execTlbinv
  refine .hostCommand h fun h1 => ?_
  exact .iteP h1 h1.dropPages

theorem FormedNext.execBufinv {s : State} (h : s.Formed) : FormedNext (execBufinv s) := by
  unfold Machine.execBufinv
  refine .hostCommand h fun h1 => ?_
  exact h1

theorem State.Formed.recallRange {s : State} {pa n : Nat} (h : s.Formed) : (s.recallRange pa n).Formed :=
  .foldl (.foldl (h.foldl fun h1 => h1.settle) fun h2 => .ite h2.pwRecall h2) fun h3 => h3.recall.flushLine

theorem FormedNext.execRecallCommand {s : State} (h : s.Formed) : FormedNext (execRecallCommand s) := by
  unfold Machine.execRecallCommand
  refine .hostCommand h fun h1 => ?_
  exact h1.recallRange

theorem State.Formed.resumeRecord {s : State} {r : FaultRec} (h : s.Formed) : (s.resumeRecord r).Formed := by
  unfold State.resumeRecord
  exact .ite h.same.same (h.same.foldl fun h1 => h1.unpark)

theorem FormedNext.execFaultans {s : State} (h : s.Formed) : FormedNext (execFaultans s) := by
  unfold Machine.execFaultans
  refine .hostCommand h fun h1 => ?_
  split
  · exact h1
  · split
    · exact h1.resumeRecord
    · exact h1.killDomain
    · exact h1

theorem FormedNext.execLoad {s : State} (h : s.Formed) : FormedNext (execLoad s) := by
  refine .hostCommand h fun h => ?_
  dsimp only
  refine .iteP h (.iteP h ?_)
  split
  · rename_i e
    exact h.askRead.left e
  · rename_i e
    split
    · exact h.askRead.left e
    · rename_i f
      exact (h.askRead.left e).loadObject f

theorem FormedNext.execUnload {s : State} (h : s.Formed) : FormedNext (execUnload s) := by
  unfold Machine.execUnload
  refine .hostCommand h fun h1 => ?_
  exact .iteP h1 (.iteP h1 h1.unloadObject)

theorem FormedNext.execPreempt {s : State} (h : s.Formed) : FormedNext (execPreempt s) := by
  unfold Machine.execPreempt
  refine .hostCommand h fun h1 => ?_
  dsimp only
  split
  · exact .iteP h1 h1
  · exact h1
  · exact .iteP h1 h1.requestPre.same

theorem FormedNext.execRestore {s : State} (h : s.Formed) : FormedNext (execRestore s) := by
  unfold Machine.execRestore
  refine .hostCommand h fun h1 => ?_
  refine .iteP h1 ?_
  dsimp only
  split
  · exact h1
  · exact h1.enqueue
  · split
    · rename_i e1
      exact (h1.readArea.left e1).loseSaved
    · rename_i e2
      exact (h1.readArea.left e2).enqueue

theorem FormedNext.execKillpd {s : State} (h : s.Formed) : FormedNext (execKillpd s) := by
  unfold Machine.execKillpd
  refine .hostCommand h fun h1 => ?_
  exact .iteP h1 h1.killDomain

/-! ## Ingest -/

theorem State.Formed.updStream {s : State} {n : Nat} {f : Stream → Stream} (h : s.Formed) : (s.updStream n f).Formed := by
  unfold State.updStream
  exact h.same

theorem State.Formed.readConsumer {s : State} {n : Nat} {b : Bind} (h : s.Formed) : (s.readConsumer n b).Formed := by
  unfold State.readConsumer
  split
  · rename_i e1
    exact (h.rangeRead.left e1).updStream
  · rename_i e2
    exact h.rangeRead.left e2

theorem FormedNext.execIngestBind {c t q : Nat} {s : State} (h : s.Formed) : FormedNext (execIngestBind c t q s) := by
  unfold Machine.execIngestBind
  refine .performCmd h fun h1 => ?_
  refine .iteP ?_ (.iteP h1 h1.updStream.readConsumer)
  split
  · exact .iteP h1 h1.updStream
  · exact h1

theorem State.Formed.postReturn {s : State} {n : Nat} {b : Bind} {ws : List Word} (h : s.Formed) : (s.postReturn n b ws).Formed := by
  unfold State.postReturn
  split
  · exact h
  · exact h.foldl fun h1 => .ite h1 (.ite h1.updStream h1.updTask)

theorem State.Formed.postGap {s : State} {n : Nat} (h : s.Formed) : (s.postGap n).Formed := by
  unfold State.postGap
  split
  · exact h.postReturn.updStream
  · exact h

theorem State.Formed.gapAt {s : State} {n : Nat} {q : Word} {cause : Nat} (h : s.Formed) : (s.gapAt n q cause).Formed := by
  unfold State.gapAt
  dsimp only
  split
  · exact .ite h.updStream.updStream h.updStream.postGap.updStream
  · exact h.updStream.updStream

theorem FormedNext.execGapRecordTimeout {n : Nat} {s : State} (h : s.Formed) : FormedNext (execGapRecordTimeout n s) :=
  .next h.postGap

theorem State.Formed.sendPfc {s : State} {b : Bind} {quanta : Nat} (h : s.Formed) : (s.sendPfc b quanta).Formed := by
  unfold State.sendPfc
  exact h.same

theorem State.Formed.checkPause {s : State} {n : Nat} {b : Bind} (h : s.Formed) : (s.checkPause n b).Formed :=
  .ite h (.ite (h.sendPfc.updStream.foldl fun h1 => h1.count) (.ite h.sendPfc.updStream h))

theorem FormedNext.execPfcPauseRefresh {n : Nat} {s : State} (h : s.Formed) : FormedNext (execPfcPauseRefresh n s) := by
  unfold Machine.execPfcPauseRefresh
  refine .next ?_
  split
  · exact .ite h.sendPfc h
  · exact h

theorem FormedNext.execIngestConsumerReread {n : Nat} {s : State} (h : s.Formed) : FormedNext (execIngestConsumerReread n s) := by
  unfold Machine.execIngestConsumerReread
  refine .next ?_
  split
  · exact h.readConsumer.checkPause
  · exact h

theorem State.Formed.acceptFrame {s : State} {n : Nat} {b : Bind} {f : EthFrame} {q : Word} (h : s.Formed) :
    (s.acceptFrame n b f q).Formed := by
  unfold State.acceptFrame
  dsimp only
  split
  · rename_i e _
    split
    · rename_i e1
      split
      · rename_i e2
        exact (((h.rangeFault.left e).rangeWrite.left e1).rangeWrite.left e2).updStream.count.checkPause
      · rename_i e2
        exact (((h.rangeFault.left e).rangeWrite.left e1).rangeWrite.left e2).updStream
    · rename_i e1
      exact ((h.rangeFault.left e).rangeWrite.left e1).updStream
  · rename_i e _
    exact (h.rangeFault.left e).updStream

theorem FormedNext.execIngestFrame {f : EthFrame} {s : State} (h : s.Formed) : FormedNext (execIngestFrame f s) := by
  unfold Machine.execIngestFrame
  refine .next ?_
  split
  · exact h.same
  · exact .ite h.gapAt (.ite h.acceptFrame (.ite h.gapAt (.ite h.readConsumer.checkPause.acceptFrame (.ite
      h.readConsumer.checkPause.gapAt h.readConsumer.checkPause.gapAt.count))))

/-! ## Management frames -/

theorem State.Formed.powerCycle {s : State} (_ : s.Formed) : s.powerCycle.Formed := by
  unfold State.powerCycle
  exact .same .reset

theorem State.Formed.answer {s : State} {code : Nat} {f : Frame} {status : Nat} {body : List Byte} (h : s.Formed) :
    (s.answer code f status body).Formed :=
  h.send

theorem FormedNext.manage {code : Nat} {signed : Bool} {f : Frame} {act : State → State × Nat × List Byte} {s : State} (h : s.Formed)
    (hact : ∀ {a1 : State}, a1.Formed → (act a1).1.Formed) :
    FormedNext (manage code signed f act s) := by
  unfold Machine.manage
  exact .next (.ite h (.ite h.wakeUp.answer (.ite h.wakeUp.answer (.answer (hact h.wakeUp.same)))))

theorem State.Formed.status {s : State} {n : Nat} (h : s.Formed) : (s.status n).1.Formed :=
  h

theorem FormedNext.execAttest {f : Frame} {s : State} (h : s.Formed) : FormedNext (execAttest f s) := by
  unfold Machine.execAttest
  refine .manage h fun h1 => ?_
  exact .iteP h1.status h1.same

theorem FormedNext.execKeyload {f : Frame} {s : State} (h : s.Formed) : FormedNext (execKeyload f s) := by
  unfold Machine.execKeyload
  refine .manage h fun h1 => ?_
  refine .iteP h1.status (.iteP h1.status ?_)
  split
  · exact h1.status
  · exact .iteP h1.status h1.same.status

theorem State.Formed.dropKeyLines {s : State} {k : Nat} (h : s.Formed) : (s.dropKeyLines k).Formed := by
  unfold State.dropKeyLines
  exact h.same

theorem FormedNext.execKeydestroy {f : Frame} {s : State} (h : s.Formed) : FormedNext (execKeydestroy f s) := by
  unfold Machine.execKeydestroy
  refine .manage h fun h1 => ?_
  exact .iteP h1.status h1.same.dropKeyLines.status

theorem FormedNext.execPowertol {f : Frame} {s : State} (h : s.Formed) : FormedNext (execPowertol f s) := by
  unfold Machine.execPowertol
  refine .manage h fun h1 => ?_
  exact .iteP h1.status h1.same.status

theorem FormedNext.execClockplan {f : Frame} {s : State} (h : s.Formed) : FormedNext (execClockplan f s) := by
  unfold Machine.execClockplan
  refine .manage h fun h1 => ?_
  refine .iteP h1.status (.iteP h1.status ?_)
  split
  · exact h1.status
  · exact h1.same.status

theorem FormedNext.execEvcfg {f : Frame} {s : State} (h : s.Formed) : FormedNext (execEvcfg f s) := by
  unfold Machine.execEvcfg
  refine .manage h fun h1 => ?_
  exact .iteP h1.status h1.same.status

theorem FormedNext.execEvread {f : Frame} {s : State} (h : s.Formed) : FormedNext (execEvread f s) := by
  unfold Machine.execEvread
  refine .manage h fun h1 => ?_
  exact .iteP h1.status h1

theorem FormedNext.execResync {f : Frame} {s : State} (h : s.Formed) : FormedNext (execResync f s) := by
  unfold Machine.execResync
  refine .manage h fun h1 => ?_
  exact h1

theorem FormedNext.execSettime {f : Frame} {s : State} (h : s.Formed) : FormedNext (execSettime f s) := by
  unfold Machine.execSettime
  refine .manage h fun h1 => ?_
  exact .iteP h1.status h1.same.status

theorem FormedNext.execAdmin {f : Frame} {a : AdminBody} {s : State} (h : s.Formed) : FormedNext (execAdmin f a s) := by
  unfold Machine.execAdmin
  refine .manage h fun h1 => ?_
  exact .iteP h1.status h1.same.status

theorem FormedNext.execStreams {f : Frame} {first n : Nat} {s : State} (h : s.Formed) : FormedNext (execStreams f first n s) := by
  unfold Machine.execStreams
  refine .manage h fun h1 => ?_
  exact .iteP h1.status h1

theorem FormedNext.execChannel {f : Frame} {stack : Nat} {s : State} (h : s.Formed) : FormedNext (execChannel f stack s) := by
  unfold Machine.execChannel
  refine .manage h fun h1 => ?_
  exact .iteP h1.status h1.same

theorem FormedNext.execForensic {f : Frame} {s : State} (h : s.Formed) : FormedNext (execForensic f s) := by
  unfold Machine.execForensic
  refine .manage h fun h1 => ?_
  exact .iteP h1.status h1.same.status

theorem FormedNext.execReset {f : Frame} {s : State} (h : s.Formed) : FormedNext (execReset f s) := by
  unfold Machine.execReset
  refine .manage h fun h1 => ?_
  exact h1.powerCycle.status

theorem FormedNext.execUnknownCommand {f : Frame} {code : BitVec 16} {s : State} (h : s.Formed) :
    FormedNext (execUnknownCommand f code s) := by
  unfold Machine.execUnknownCommand
  refine .ite (.next h) (.manage h fun h1 => ?_)
  exact h1.status

theorem FormedNext.execDebugBreakpoint {f : Frame} {c i : Nat} {addr : Option (BitVec 64)} {s : State} (h : s.Formed) :
    FormedNext (execDebugBreakpoint f c i addr s) := by
  unfold Machine.execDebugBreakpoint
  refine .manage h fun h1 => ?_
  exact .iteP h1.status h1.updCore.status

theorem FormedNext.execDebugResume {f : Frame} {c slot : Nat} {s : State} (h : s.Formed) : FormedNext (execDebugResume f c slot s) := by
  unfold Machine.execDebugResume
  refine .manage h fun h1 => ?_
  split
  · exact h1.status
  · exact .iteP h1.status (.status (h1.updTask.foldl fun h2 => h2.updBand))

theorem FormedNext.execDebugStep {f : Frame} {c slot : Nat} {entry : Option Nat} {s : State} (h : s.Formed) :
    FormedNext (execDebugStep f c slot entry s) := by
  unfold Machine.execDebugStep
  refine .manage h fun h1 => ?_
  dsimp only
  split
  · exact h1.status
  · exact .iteP h1.status (.iteP h1.status h1.updBand)

theorem FormedNext.execDebugReadTable {f : Frame} {c : Nat} {s : State} (h : s.Formed) : FormedNext (execDebugReadTable f c s) := by
  unfold Machine.execDebugReadTable
  refine .manage h fun h1 => ?_
  exact .iteP h1.status h1

theorem FormedNext.execDebugStorageRead {f : Frame} {c : Nat} {r : StoreRef} {gen : BitVec 16} {s : State} (h : s.Formed) :
    FormedNext (execDebugStorageRead f c r gen s) := by
  unfold Machine.execDebugStorageRead
  refine .manage h fun h1 => ?_
  exact h1

theorem FormedNext.execDebugStorageWrite {f : Frame} {c : Nat} {r : StoreRef} {gen : BitVec 16} {lo : Nat} {bs : List Byte} {s : State}
    (h : s.Formed) :
    FormedNext (execDebugStorageWrite f c r gen lo bs s) := by
  unfold Machine.execDebugStorageWrite
  refine .manage h fun h1 => ?_
  dsimp only
  split
  · exact h1.status
  · exact .iteP h1.status (.iteP h1.status h1.setCore.status)

/-! ## Block instructions -/

theorem FormedNext.pwIssue {i : Instr} {op : PwOp} {o : MV} {s : State} (h : s.Formed) : FormedNext (pwIssue i op o s) :=
  .issue h (fun h1 => .memIssue h1)

/-! ## Power -/

theorem FormedNext.execIdleEntry {s : State} (h : s.Formed) : FormedNext (execIdleEntry s) := by
  unfold Machine.execIdleEntry
  refine .next (.ite h ?_)
  split
  · exact h
  · exact h.same

theorem State.Formed.limitTo {s : State} {l : Option PState} (h : s.Formed) : (s.limitTo l).Formed := by
  unfold State.limitTo
  exact h.same

theorem State.Formed.saveAll {s : State} (h : s.Formed) : (s.saveAll).Formed := by
  unfold State.saveAll
  refine h.same.foldl fun h1 => .ite h1 ?_
  dsimp only
  split
  · exact h1.requestPre
  · exact h1.killDomain

theorem FormedNext.execThermalEmergency {temp : Nat} {s : State} (h : s.Formed) : FormedNext (execThermalEmergency temp s) := by
  unfold Machine.execThermalEmergency
  exact .next (.ite h h.limitTo.same.saveAll)

theorem FormedNext.execThermalLimitLift {temp : Nat} {s : State} (h : s.Formed) : FormedNext (execThermalLimitLift temp s) := by
  unfold Machine.execThermalLimitLift
  refine .next ?_
  split
  · exact h
  · exact .ite h.limitTo.same (.ite h.limitTo.same h)

theorem State.Formed.loseDomains {s : State} (h : s.Formed) : (s.loseDomains).Formed := by
  unfold State.loseDomains
  exact h.same

theorem FormedNext.execHardTrip {temp : Nat} {s : State} (h : s.Formed) : FormedNext (execHardTrip temp s) := by
  unfold Machine.execHardTrip
  exact .next (.ite h (.same .reset))

theorem FormedNext.execWatchtowerAlarm {word : BitVec 32} {s : State} (h : s.Formed) : FormedNext (execWatchtowerAlarm word s) := by
  unfold Machine.execWatchtowerAlarm
  exact .next (.ite h h.loseDomains.same)

end Sys2Proof.Machine
end

section
/-! PROOFS. Every instruction and every event keeps the canonical form, and so does a step: settles O5. -/

-- The proofs of one text are elaborated one at a time here: many open proofs would each ask for a thread and its stack.
set_option Elab.async false

namespace Sys2Proof.Machine

/-! ## Instructions and events -/

theorem FormedNext.exec {i : Instr} {s : State} (h : s.Formed) : FormedNext (exec i s) := by
  cases i with
  | clause => exact .execClause h
  | addB32 | subB32 | mulB32 | mulhiI32 | mulhiB32 | andB32 | orB32 | xorB32 | andnB32 | shlB32 | shrB32 | sraB32 | minI32 |
    minB32 | maxI32 | maxB32 | bfeB32 | bfeI32 =>
    unfold Machine.exec
    exact .vec32 h
  | addB64 | subB64 | shlB64 | shrB64 | sraB64 =>
    unfold Machine.exec
    exact .vec64 h
  | madB32 | bfiB32 =>
    unfold Machine.exec
    exact .vecAcc h
  | cmp32 | cmp64 | vmovr | vmovw | sel | pwaddr | jget | lget | gmask | tget | gen | rsys =>
    unfold Machine.exec
    refine .issue h fun h => ?_
    exact .done h
  | mov | absI32 | popc | clz | brev =>
    unfold Machine.exec
    exact .vecUnary h
  | lid | li | movs =>
    unfold Machine.exec
    exact .vecConst h
  | pand | por | pxor | pnot =>
    unfold Machine.exec
    exact .predOp h
  | fadd | fsub | fmul | fma | fmin | fmax | fminm | fmaxm =>
    unfold Machine.exec
    exact .fpBin h
  | fcmp | fscale =>
    unfold Machine.exec
    refine .issue h fun h => ?_
    exact .fpDone h
  | frcp | frsq | fclass | frnd =>
    unfold Machine.exec
    exact .fpUn h
  | fsqrt | fdiv =>
    unfold Machine.exec
    refine .issue h fun h => ?_
    exact .seqStart h
  | fdot2 =>
    unfold Machine.exec
    refine .issue h fun h => ?_
    exact .doneFl h
  | ftab =>
    unfold Machine.exec
    refine .issue h fun h => ?_
    exact .ite (.ok h) (.ok h.start)
  | ld | ldk =>
    unfold Machine.exec
    exact .loadOp h
  | st | stk =>
    unfold Machine.exec
    exact .storeOp h
  | lds => exact .execLds h
  | sts => exact .execSts h
  | pf => exact .execPf h
  | atom | atomc | sld | sst | satom =>
    unfold Machine.exec
    refine .issue h fun h => ?_
    exact .memIssue h
  | pwclaim | pwflush | pwnorm | pwraw | pwdrop =>
    unfold Machine.exec
    exact .pwIssue h
  | cvt | pk | upk | qz | dq | mxq | mxdq =>
    unfold Machine.exec
    exact .fmtOp h
  | vote | shfl | red | scan =>
    unfold Machine.exec
    exact .crossLane h
  | bcast => exact .execBcast h
  | sadd | ssub | smul | smulhiI32 | smulhiB32 | sand | sor | sxor | sshl | sshr | ssra | sminI32 | sminB32 | smaxI32 | smaxB32 |
    scmp =>
    unfold Machine.exec
    exact .uni32 h
  | smov | spopc | sclz | ssel | sli | slih | sbfe | sbfi | saddImm =>
    unfold Machine.exec
    exact .uniOne h
  | saddB64 | ssubB64 =>
    unfold Machine.exec
    exact .uni64 h
  | bra =>
    unfold Machine.exec
    refine .issue h fun h => ?_
    exact .ok h.jump
  | brz | brnz =>
    unfold Machine.exec
    exact .branchIf h
  | call | calli =>
    unfold Machine.exec
    exact .callTo h
  | callv => exact .execCallv h
  | split => exact .execSplit h
  | nop =>
    unfold Machine.exec
    refine .issue h fun h => ?_
    exact .ok h
  | ret => exact .execRet h
  | join =>
    unfold Machine.exec
    refine .issue h fun h => ?_
    exact .ok h.arriveJoin
  | jwait => exact .execJwait h
  | jset =>
    unfold Machine.exec
    refine .issue h fun h => ?_
    exact .ok h.updBand.releaseJoin.passWaits
  | yield => exact .execYield h
  | brk | trap =>
    unfold Machine.exec
    refine .issue h fun h => ?_
    exact .trapAt h
  | lset | kset =>
    unfold Machine.exec
    refine .issue h fun h => ?_
    exact .ok h.updBand
  | lnext => exact .execLnext h
  | rel | acq | sync | xrel | xrelDram =>
    unfold Machine.exec
    exact .fence h
  | bar | arrive =>
    unfold Machine.exec
    exact .arriveAt h
  | barw => exact .execBarw h
  | qpush =>
    unfold Machine.exec
    refine .issue h fun h => ?_
    exact .pushCmd h
  | qpop =>
    unfold Machine.exec
    refine .issue h fun h => ?_
    exact .ite .trap (.ite .trap (.ok h.start))
  | qfence =>
    unfold Machine.exec
    refine .issue h fun h => ?_
    exact .ite .trap (.ite (.ok h) (.ok h.updTask))
  | twany | twall =>
    unfold Machine.exec
    refine .issue h fun h => ?_
    exact .ok h.start
  | tffr =>
    unfold Machine.exec
    refine .issue h fun h => ?_
    exact .done (.ite h h.selfInvalidate)
  | tclr =>
    unfold Machine.exec
    refine .issue h fun h => ?_
    exact .ok h.updTask
  | mma | mmc =>
    unfold Machine.exec
    exact .signMatrix h
  | tld | tst =>
    unfold Machine.exec
    refine .issue h fun h => ?_
    exact .ite .trap (.transfer h)
  | tmov | amov =>
    unfold Machine.exec
    refine .issue h fun h => ?_
    exact .ite .hold (.ite .trap (.ok h.updCore))
  | tzero | azero =>
    unfold Machine.exec
    refine .issue h fun h => ?_
    exact .ite .hold (.ok h.updCore)
  | ald | ast =>
    unfold Machine.exec
    refine .issue h fun h => ?_
    exact .transfer h
  | sign =>
    unfold Machine.exec
    refine .issue h fun h => ?_
    exact .ite (.ok h) (.ite .trap (.ok h.updTask))
  | mprog =>
    unfold Machine.exec
    refine .issue h fun h => ?_
    exact .ite .trap (.done h)
  | exit =>
    unfold Machine.exec
    refine .issue h fun h => ?_
    exact .ok (.ite h.exitBand h.exitLanes)
  | exitSucc =>
    unfold Machine.exec
    refine .issue h fun h => ?_
    exact .ok h.updTask.exitBand
  | phase => exact .execPhase h
  | wsys =>
    unfold Machine.exec
    refine .issue h fun h => ?_
    exact .ite .trap (.ok h.putSys.commit)
  | kret =>
    unfold Machine.exec
    refine .issue h fun h => ?_
    exact .ok (.ite h.endTask h.returnFrom)
  | svc => exact .execSvc h
  | rsc => exact .execRsc h
  | halt =>
    unfold Machine.exec
    refine .issue h fun h => ?_
    exact .ok h.exitBand
  | illegalEncoding =>
    unfold Machine.exec
    refine .issue h fun h => ?_
    exact .trap
  | plynwickOperationCompletion => exact .execPlynwickOperationCompletion h
  | malformedNode => exact .execMalformedNode h
  | hostCommandUnknownOpcode => exact .execHostCommandUnknownOpcode h
  | instructionLineFill => exact .execInstructionLineFill h
  | pageTableWalk => exact .execPageTableWalk h
  | loadCompletion => exact .execLoadCompletion h
  | atomicCompletion => exact .execAtomicCompletion h
  | sequencerCompletion => exact .execSequencerCompletion h
  | ftabCompletion => exact .execFtabCompletion h
  | releaseCompletion => exact .execReleaseCompletion h
  | acquireCompletion => exact .execAcquireCompletion h
  | faultRecordPost => exact .execFaultRecordPost h
  | registration => exact .execRegistration h
  | domeRequest => exact .execDomeRequest h
  | domeFill =>
    unfold Machine.exec
    exact .next (.ite h.fillBuf h)
  | replicaInvalidate =>
    unfold Machine.exec
    exact .next h.dropReplicas
  | domeUncorrectableError => exact .execDomeUncorrectableError h
  | l1Eviction =>
    unfold Machine.exec
    exact .next (.ite h h.evictSuper)
  | plynwickRecall =>
    unfold Machine.exec
    exact .next h.pwRecall
  | eyeMarginMeasure => exact .execEyeMarginMeasure h
  | laneRepair => exact .execLaneRepair h
  | counterDecay => exact .execCounterDecay h
  | engineCommandStart => exact .execEngineCommandStart h
  | copy => exact .execCopy h
  | copy2d => exact .execCopy2d h
  | gather => exact .execGather h
  | scatter => exact .execScatter h
  | multicast => exact .execMulticast h
  | collectiveReduce => exact .execCollectiveReduce h
  | ingestBind => exact .execIngestBind h
  | engineCommandComplete => exact .execEngineCommandComplete h
  | engineFault => exact .execEngineFault h
  | tagWaitComplete => exact .execTagWaitComplete h
  | qpopComplete => exact .execQpopComplete h
  | ingestFrame => exact .execIngestFrame h
  | gapRecordTimeout => exact .execGapRecordTimeout h
  | ingestConsumerReread => exact .execIngestConsumerReread h
  | pfcPauseRefresh => exact .execPfcPauseRefresh h
  | barrierReleaseStep => exact .execBarrierReleaseStep h
  | matrixOperationIssue => exact .execMatrixOperationIssue h
  | matrixKStep => exact .execMatrixKStep h
  | matrixOperationComplete => exact .execMatrixOperationComplete h
  | matrixTransferComplete => exact .execMatrixTransferComplete h
  | preemptionRequest => exact .execPreemptionRequest h
  | preemptionEntry => exact .execPreemptionEntry h
  | variantSwitch => exact .execVariantSwitch h
  | phaseAdmissionTimeout => exact .execPhaseAdmissionTimeout h
  | queuedAdmissionTimeout => exact .execQueuedAdmissionTimeout h
  | taskRetire => exact .execTaskRetire h
  | successorStart => exact .execSuccessorStart h
  | place => exact .execPlace h
  | generationSweepEnd => exact .execGenerationSweepEnd h
  | placementAttempt => exact .execPlacementAttempt h
  | queueHeadAgeExpiry => exact .execQueueHeadAgeExpiry h
  | controlInterval => exact .execControlInterval h
  | stealRequest => exact .execStealRequest h
  | timeSliceExpiry => exact .execTimeSliceExpiry h
  | walkerTakeEntry => exact .execWalkerTakeEntry h
  | kernelNode => exact .execKernelNode h
  | copyNode => exact .execCopyNode h
  | condNode => exact .execCondNode h
  | whileNode => exact .execWhileNode h
  | waitqNode => exact .execWaitqNode h
  | waitqPoll => exact .execWaitqPoll h
  | waitqTimeout => exact .execWaitqTimeout h
  | signalNode => exact .execSignalNode h
  | endNode => exact .execEndNode h
  | rdmaWrite => exact .execRdmaWrite h
  | rdmaRead => exact .execRdmaRead h
  | remoteAccessTimeout => exact .execRemoteAccessTimeout h
  | bufferTableWrite => exact .execBufferTableWrite h
  | wqErrClear => exact .execWqErrClear h
  | registerWrite =>
    unfold Machine.exec
    exact .next h.connRegWrite
  | tlbinv => exact .execTlbinv h
  | bufinv => exact .execBufinv h
  | recallCommand => exact .execRecallCommand h
  | faultans => exact .execFaultans h
  | load => exact .execLoad h
  | unload => exact .execUnload h
  | preempt => exact .execPreempt h
  | restore => exact .execRestore h
  | killpd => exact .execKillpd h
  | identify =>
    unfold Machine.exec
    exact .next (.ite h (.answer (.ite h h.wakeUp)))
  | attest => exact .execAttest h
  | keyload => exact .execKeyload h
  | keydestroy => exact .execKeydestroy h
  | powertol => exact .execPowertol h
  | clockplan => exact .execClockplan h
  | evcfg => exact .execEvcfg h
  | evread => exact .execEvread h
  | resync => exact .execResync h
  | settime => exact .execSettime h
  | admin => exact .execAdmin h
  | streams => exact .execStreams h
  | debugBreakpoint => exact .execDebugBreakpoint h
  | debugStep => exact .execDebugStep h
  | debugReadTable => exact .execDebugReadTable h
  | debugStorageRead => exact .execDebugStorageRead h
  | debugStorageWrite => exact .execDebugStorageWrite h
  | channel => exact .execChannel h
  | forensic => exact .execForensic h
  | reset => exact .execReset h
  | idleEntry => exact .execIdleEntry h
  | wake =>
    unfold Machine.exec
    exact .next h.wakeUp
  | thermalLimit =>
    unfold Machine.exec
    exact .next (.ite h h.limitTo)
  | thermalEmergency => exact .execThermalEmergency h
  | hardTrip => exact .execHardTrip h
  | thermalLimitLift => exact .execThermalLimitLift h
  | watchtowerAlarm => exact .execWatchtowerAlarm h
  | powerUp =>
    unfold Machine.exec
    exact .next (.ite h h.powerCycle)
  | debugResume => exact .execDebugResume h
  | transportConnection => exact .execTransportConnection h
  | remoteAtomic =>
    unfold Machine.exec
    exact .next h.atomicAt.send
  | unknownCommand => exact .execUnknownCommand h
  -- What is left is the recall of a line, whose name Mathlib keeps for a command.
  | _ =>
    unfold Machine.exec
    exact .next h.recall

/-! ## Events that are due -/

/-- An event that keeps the canonical form. -/
def Event.Keeps (f : Event) : Prop := ∀ s : State, s.Formed → FormedNext (f s)

theorem entryEvents_keep {c e : Nat} {en : Entry} : ∀ f ∈ entryEvents c e en, f.Keeps := by
  unfold entryEvents
  split
  · exact List.forall_mem_singleton.2 fun _ h => .execInstructionLineFill h
  · exact List.forall_mem_singleton.2 fun _ h => .execPageTableWalk h
  · exact List.forall_mem_singleton.2 fun _ h => .execPageTableWalk h
  all_goals exact List.forall_mem_nil _

theorem flightEvents_keep {c id : Nat} {k : FKind} : ∀ f ∈ flightEvents c id k, f.Keeps := by
  unfold flightEvents
  split
  · exact List.forall_mem_singleton.2 fun _ h => .execLoadCompletion h
  · exact List.forall_mem_singleton.2 fun _ h => .execLoadCompletion h
  · exact List.forall_mem_singleton.2 fun _ h => .execLoadCompletion h
  · exact List.forall_mem_singleton.2 fun _ h => .execAtomicCompletion h
  · exact List.forall_mem_singleton.2 fun _ h => .execSequencerCompletion h
  · exact List.forall_mem_singleton.2 fun _ h => .execFtabCompletion h
  · exact List.forall_mem_singleton.2 fun _ h => .execReleaseCompletion h
  · exact List.forall_mem_singleton.2 fun _ h => .execAcquireCompletion h
  · exact List.forall_mem_singleton.2 fun _ h => .execTagWaitComplete h
  · exact List.forall_mem_singleton.2 fun _ h => .execQpopComplete h
  · exact List.forall_mem_singleton.2 fun _ h => .execMatrixTransferComplete h
  · exact List.forall_mem_cons.2 ⟨fun _ h => .execMatrixKStep h, List.forall_mem_singleton.2 fun _ h => .execMatrixOperationComplete h⟩
  · exact List.forall_mem_singleton.2 fun _ h => .execPlynwickOperationCompletion h
  · exact List.forall_mem_nil _

theorem queueEvents_keep {c t q : Nat} : ∀ f ∈ queueEvents c t q, f.Keeps := by
  simp only [queueEvents, List.forall_mem_cons, List.not_mem_nil, false_imp_iff, implies_true, and_true]
  exact ⟨fun _ h => .execEngineFault h, fun _ h => .execEngineCommandComplete h, fun _ h => .execCopy h, fun _ h => .execCopy2d h,
    fun _ h => .execGather h, fun _ h => .execScatter h, fun _ h => .execMulticast h, fun _ h => .execCollectiveReduce h,
    fun _ h => .execIngestBind h, fun _ h => .execEngineCommandStart h⟩

theorem taskEvents_keep {c t : Nat} {x : Task} : ∀ f ∈ taskEvents c t x, f.Keeps := by
  simp only [taskEvents, List.forall_mem_append, List.forall_mem_map, List.forall_mem_flatMap, List.forall_mem_cons,
    List.not_mem_nil, false_imp_iff, implies_true, and_true]
  exact ⟨⟨fun _ _ _ h => .execMatrixOperationIssue h, fun _ _ => queueEvents_keep⟩, fun _ h => .execVariantSwitch h,
    fun _ h => .execPhaseAdmissionTimeout h, fun _ h => .execSuccessorStart h, fun _ h => .execTaskRetire h, fun _ h => .execTimeSliceExpiry h⟩

theorem coreEvents_keep {c : Nat} {k : Core} : ∀ f ∈ coreEvents c k, f.Keeps := by
  simp only [coreEvents, List.forall_mem_append, List.forall_mem_map, List.forall_mem_flatMap, List.forall_mem_cons,
    List.not_mem_nil, false_imp_iff, implies_true, and_true]
  refine ⟨⟨⟨⟨⟨fun _ _ _ h => .execPreemptionEntry h, fun _ _ => entryEvents_keep⟩, fun _ _ => flightEvents_keep⟩,
    fun _ h => .execRegistration h, fun _ h => .execDomeRequest h⟩, fun _ _ => taskEvents_keep⟩, ?_⟩
  split
  · exact List.forall_mem_singleton.2 fun _ h => .execGenerationSweepEnd h
  · exact List.forall_mem_nil _

theorem graphEvents_keep {q : Nat} : ∀ f ∈ graphEvents q, f.Keeps := by
  simp only [graphEvents, List.forall_mem_cons, List.not_mem_nil, false_imp_iff, implies_true, and_true]
  exact ⟨fun _ h => .execMalformedNode h, fun _ h => .execKernelNode h, fun _ h => .execCopyNode h, fun _ h => .execCondNode h,
    fun _ h => .execWhileNode h, fun _ h => .execWaitqTimeout h, fun _ h => .execWaitqPoll h, fun _ h => .execWaitqNode h,
    fun _ h => .execSignalNode h, fun _ h => .execEndNode h⟩

theorem ringEvents_keep : ∀ f ∈ ringEvents, f.Keeps := by
  simp only [ringEvents, List.forall_mem_cons, List.not_mem_nil, false_imp_iff, implies_true, and_true]
  exact ⟨fun _ h => .execTlbinv h, fun _ h => .execBufinv h, fun _ h => .execRecallCommand h, fun _ h => .execFaultans h, fun _ h => .execLoad h,
    fun _ h => .execUnload h, fun _ h => .execPreempt h, fun _ h => .execRestore h, fun _ h => .execKillpd h,
    fun _ h => .execHostCommandUnknownOpcode h⟩

theorem State.dueEvents_keep (s : State) : ∀ f ∈ s.dueEvents, f.Keeps := by
  simp only [State.dueEvents, List.forall_mem_append, List.forall_mem_map, List.forall_mem_flatMap, List.forall_mem_cons,
    List.not_mem_nil, false_imp_iff, implies_true, and_true]
  exact ⟨⟨⟨⟨⟨⟨⟨fun _ _ => coreEvents_keep, fun _ _ _ _ _ h => .execBarrierReleaseStep h⟩,
    fun _ _ => ⟨fun _ h => .execPlace h, fun _ h => .execQueueHeadAgeExpiry h, fun _ h => .execQueuedAdmissionTimeout h,
      fun _ h => .execPlacementAttempt h, fun _ h => .execStealRequest h⟩⟩,
    fun _ _ => graphEvents_keep⟩, fun _ _ _ h => .execWalkerTakeEntry h⟩, ringEvents_keep⟩, fun _ _ _ h => .execFaultRecordPost h⟩,
    fun _ _ => ⟨fun _ h => .execGapRecordTimeout h, fun _ h => .execIngestConsumerReread h⟩⟩

theorem State.dueEvent_keeps {s : State} {f : Event} (e : s.dueEvent = some f) : f.Keeps := by
  rcases Option.or_eq_some_iff.1 e with hf | ⟨-, hf⟩
  · exact s.dueEvents_keep f (List.mem_of_find?_eq_some hf)
  · split at hf
    · cases hf
      exact fun _ h => .execControlInterval h
    · cases hf

/-! ## A step -/

theorem FormedNext.stepIssue {u : Cursor} {s : State} (h : s.Formed) : FormedNext (stepIssue u s) := by
  have hc : ({ s with cur := some u } : State).Formed := h
  unfold Machine.stepIssue
  dsimp only
  split
  · exact .next hc.updEntry
  · split
    · exact .next hc.updEntry
    · exact .next hc.badHeader.afterIssue
    · split
      · rename_i e
        exact .next (FormedNext.exec hc _ e).afterIssue
      · exact .fault
      · exact .refused

theorem FormedNext.stepEvent {i : Instr} {s : State} (h : s.Formed) : FormedNext (stepEvent i s) := by
  have hc : ({ s with cur := none } : State).Formed := h
  unfold Machine.stepEvent
  refine .ite (.next h) ?_
  split
  · rename_i e
    exact .next (FormedNext.exec hc _ e).afterEvent
  · exact .fault
  · exact .refused

theorem FormedNext.stepTurn {t : Turn} {s : State} (h : s.Formed) : FormedNext (stepTurn t s) := by
  cases t with
  | issue c b =>
    refine .ite (.next h) ?_
    split
    · exact .next h
    · exact .stepIssue h
  | happen i => exact .stepEvent h

theorem FormedNext.stepDue {s : State} (h : s.Formed) : FormedNext (stepDue s) := by
  have hc : ({ s with cur := none } : State).Formed := h
  unfold Machine.stepDue
  refine .ite (.next h) ?_
  dsimp only
  split
  · exact .stepTurn h
  · have hk : ((State.dueEvent { s with cur := none }).getD Machine.execControlInterval).Keeps := by
      cases hd : State.dueEvent { s with cur := none } with
      | none => exact fun _ h => .execControlInterval h
      | some f => exact State.dueEvent_keeps hd
    split
    · rename_i e
      exact .next (hk _ hc _ e).afterEvent
    · exact .fault
    · exact .refused

theorem FormedNext.step {s : State} (h : s.Formed) : FormedNext (step s) := by
  unfold Machine.step
  split
  · exact .stepTurn h
  · exact .stepDue h

/-- Settles O5: each function of the model keeps the canonical form, as only `putHalf` writes device memory, and so does each instruction
and each event that a step runs. -/
theorem memoryKeepsForm : Obligations.MemoryKeepsForm := by
  unfold Obligations.MemoryKeepsForm
  exact fun s t h e => FormedNext.step (s := s) h t e

end Sys2Proof.Machine
end
